-- ==== Sys2Proof/Word.lean ====
section
/-! DEFINITION. The word types of the GB2 and the one container of sparse data.

Register contents, instruction words and memory bytes are bit vectors, since the manual shifts, masks and
slices them. Indexes, addresses used as keys, counts and cell numbers are natural numbers.
-/

namespace Sys2Proof

/-- A 64-bit instruction word or C register (R25, R142). -/
abbrev Word := BitVec 64

/-- A byte of memory or of scratchpad. -/
abbrev Byte := BitVec 8

/-- The 512 bytes of a vector register, a queue entry or a scratchpad row (R141, R167). -/
abbrev Row := BitVec 4096

/-- A mask register: bit i governs element i (R171). -/
abbrev Mask := BitVec 1024

/-- A stream descriptor (R116) or a slot's copy of it. -/
abbrev Desc := BitVec 256

/-- Sparse data by key: strictly rising keys, no entry equal to what an unlisted key reads as. -/
abbrev FMap (α : Type) := List (Nat × α)

end Sys2Proof
end

