-- ==== Sys2Proof/Syntax.lean ====
section
/-! DEFINITION. The instruction set: one constructor of `Instr` for each row of spec/opcode_table.json.

A row of the table is either a word that a walking engine decodes (R25 to R52) or an event, a step of the
part that no word encodes. A word's constructor carries its decoded fields, an event's constructor the unit it
concerns and the data that arrives from outside the package with it.
-/

namespace Sys2Proof

/-- The five engines of a cell (R17). -/
inductive Eng where
  | c | l | v | m | s
deriving DecidableEq, Repr

/-- The TAG of a word (R25): one engine, or every engine. -/
inductive Tag where
  | one (e : Eng)
  | all
deriving DecidableEq, Repr

/-- A strand slot of a cell (R17, R22). -/
structure SRef where
  cell : Nat
  slot : Nat
deriving DecidableEq, Repr

/-- An engine of the strand in a slot. -/
structure Walker where
  cell : Nat
  slot : Nat
  eng : Eng
deriving DecidableEq, Repr

/-- The token bits of a word (R25, R36). -/
structure Tk where
  pbp : Bool
  pbn : Bool
  pap : Bool
  pan : Bool
deriving DecidableEq, Repr

/-- LAT and token bits of a word that has a register result (R25, R28). -/
structure Hdr where
  lat : BitVec 4
  tk : Tk
deriving DecidableEq, Repr

/-- The element types of R140, in the order of their TY codes. -/
inductive Ty where
  | i8 | u8 | i16 | u16 | i32 | u32 | i4 | u4 | f16 | bf16 | f32 | f64 | t8 | t6 | b
deriving DecidableEq, Repr

/-- The MK field (R37, R172). -/
inductive Mk where
  | em | emCm | emNotCm | all
deriving DecidableEq, Repr

/-- The RM field (R37, R145). -/
inductive Rm where
  | lmode | rz | rd | ru
deriving DecidableEq, Repr

/-- A source operand of a V word (R39). -/
inductive VSrc where
  | v (n : BitVec 6)
  | lq | lqKeep | vz
deriving DecidableEq, Repr

/-- A destination operand of a V word (R39). -/
inductive VDst where
  | v (n : BitVec 6)
  | sq | vcq
deriving DecidableEq, Repr

/-- The fields every R-format V word shares. -/
structure VCtl where
  h : Hdr
  ty : Ty
  lanes : Mk
  rm : Rm
  sat : Bool
deriving DecidableEq, Repr

/-- The integer comparisons of `cmp` and `cmpi` (R320). -/
inductive ICmp where
  | eq | ne | lt | le | ltu | leu
deriving DecidableEq, Repr

/-- The shift kinds of `shi` (R322). -/
inductive ShiftKind where
  | shl | shr | sra
deriving DecidableEq, Repr

/-- The conditions of `brc` (R38, COND 1 to 6). -/
inductive BCond where
  | z | nz | lt | ge | gt | le
deriving DecidableEq, Repr

/-- The lean hint of `brc` (R47, R121). -/
inductive Lean where
  | none | taken | notTaken
deriving DecidableEq, Repr

/-- Fence scopes (R272). -/
inductive Scope where
  | cell | die | pkg | dom
deriving DecidableEq, Repr

/-- Fence kinds (R272). -/
inductive FenceKind where
  | full | acq | rel
deriving DecidableEq, Repr

/-- Cache policy (R70). -/
inductive Cp where
  | normal | bypass | stream
deriving DecidableEq, Repr

/-- Scalar access sizes, SZ 0 to 3 (R37). -/
inductive Sz where
  | e1 | e2 | e4 | e8
deriving DecidableEq, Repr

/-- The atomic operations of R283. -/
inductive AmoOp where
  | add | min | max | minu | maxu | and | or | xor | swap | cas | fadd | bfadd2
deriving DecidableEq, Repr

/-- The scatter-add types of R130. -/
inductive AddTy where
  | i32 | i64 | f32 | bf16
deriving DecidableEq, Repr

/-- The scalar queues `qsend` names (R338). -/
inductive SQueue where
  | l | s | v | m
deriving DecidableEq, Repr

/-- The comparisons of `vcmp` (R185). -/
inductive VCmp where
  | eq | ne | lt | le | gt | ge | un | ord
deriving DecidableEq, Repr

/-- The functions of `vred` (R191). -/
inductive VRedFn where
  | add | min | max | and | or | xor
deriving DecidableEq, Repr

/-- The functions of `vany` (R192). -/
inductive VAnyFn where
  | any | all | cnt | first
deriving DecidableEq, Repr

/-- Mask selectors of R198. -/
inductive MaskSel where
  | mk (n : BitVec 3)
  | cm | ones
deriving DecidableEq, Repr

/-- The combinations of `emcomb` (R198). -/
inductive MaskOp where
  | and | andn | or | xor
deriving DecidableEq, Repr

/-- The three forms of `pf` (R108). -/
inductive PfForm where
  | line | row | xlat
deriving DecidableEq, Repr

/-- Accumulate mode AM of the N format (R37). -/
inductive Am where
  | acc | over | sub
deriving DecidableEq, Repr

/-- The spaces a copy joins (R87). -/
inductive Space where
  | mem | spm | imem | wcs
deriving DecidableEq, Repr

/-- The record `mnset` writes (R239): a level 0 to 5 or the header. -/
inductive NestRec where
  | level (n : BitVec 3)
  | header
deriving DecidableEq, Repr

/-- The four fields of a copy command word that `cpy` and `cpyh` share (R96). -/
structure CpyWord where
  ga : BitVec 2
  flag : Option (BitVec 4)
  ch : BitVec 4
  tok : Bool
  out : Bool
  dsp : Space
  ssp : Space
  oc : BitVec 4
  dim2 : Bool
  tag : BitVec 16
deriving DecidableEq, Repr

/-- The fields of `mma`, `mmaq`, `mmas` and `mmag` (R229, R256). -/
structure MmWord where
  tk : Tk
  acc : BitVec 4
  oma : BitVec 5
  omb : BitVec 5
  qmask : BitVec 4
  ta : Bool
  tb : Bool
  am : Am
deriving DecidableEq, Repr

/-- The FN field of `mdrain` (R235). -/
structure DrainFn where
  relu : Bool
  clr : Bool
  scale : BitVec 8
  int : Bool
  dty : Ty
deriving DecidableEq, Repr

/-- The fields of the geometric predicates (R205). `ids` is the first identifier register with `.tb`. -/
structure GeoWord where
  tk : Tk
  f64 : Bool
  lanes : Mk
  nf : Bool
  ids : Option (BitVec 6)
  d : VDst
  a : BitVec 6
deriving DecidableEq, Repr

/-- A running or waiting collective of a partition on a die's engine (R297). -/
structure CRef where
  die : Nat
  part : Nat
  slot : Nat
deriving DecidableEq, Repr

/-- The check of a flit that arrives (R295): it is good, or bad, with the members that are due a message over its link
(R309). -/
inductive FlitCheck where
  | good
  | bad (lost : List CRef)
deriving DecidableEq, Repr

/-- What the watchdog watches: an engine of a strand, or a channel of a cell's copy engine (R418). -/
inductive Watched where
  | engine (w : Walker)
  | channel (cell ch : Nat)
deriving DecidableEq, Repr

/-- A collective message: its header (R308) and the data that follows. -/
structure CollMsg where
  wgid : BitVec 16
  dtag : BitVec 16
  seq : BitVec 16
  src : Nat
  dst : Nat
  step : Nat
  count : Nat
  ty : BitVec 4
  op : BitVec 4
  fromPkg : BitVec 10
  data : List Byte
deriving DecidableEq, Repr

/-- An ABORT of a collective, the member it comes from and its package (R310). -/
structure CollAbort where
  wgid : BitVec 16
  dtag : BitVec 16
  seq : BitVec 16
  root : Nat
  cause : BitVec 4
  src : Nat
  fromPkg : BitVec 10
deriving DecidableEq, Repr

/-- What answers a request that left the package (R67, R76, R293). -/
inductive Reply where
  | data (bytes : List Byte)
  | error
  | poison
deriving DecidableEq, Repr

/-- A request of another package arriving at this home package (R67). -/
inductive RemoteOp where
  | load (n : Nat)
  | store (bytes : List Byte)
  | atomic (op : AmoOp) (w : Sz) (v expect : Word) (msa : Bool)
  | pull
deriving DecidableEq, Repr

/-- A remote request: address in this package's map, domain tag and requester. -/
structure RemoteReq where
  pkg : BitVec 10
  dtag : BitVec 16
  addr : Nat
  op : RemoteOp
deriving DecidableEq, Repr

/-- A large resource of a strand (R134). -/
inductive LargeRes where
  | v (n : BitVec 6)
  | om (n : BitVec 5)
  | acc (n : BitVec 4)
deriving DecidableEq, Repr

/-- The five error logs: four dies and the hub (R413). -/
inductive LogId where
  | die (d : Nat)
  | hub
deriving DecidableEq, Repr

/-- What an access meets where it performs (R415 to R417): nothing, a first uncorrectable error of the line, one of L2 or
another SRAM of the die, a residue check that fails, or three failed replays on a link inside the package. -/
inductive AccCheck where
  | pass | line | die | residue | link
deriving DecidableEq, Repr

/-- What bring-up finds (R450): each field is the outcome of one step, decided outside the model's state.
`service` is the creation request of the service partition, in the form of R424; `fuses` is the part's fuse map: no cell, or
the eight cells that a 184-cell part has fenced at test (R1, R2). -/
structure BringUp where
  linkTrained : Bool
  firmwareOk : Bool
  memoryTrained : Bool
  stFrames : Nat
  epnerUp : BitVec 16
  fuses : List Nat
  service : List Word
deriving DecidableEq, Repr

/-- Sensor readings that the management controller samples (R451, R452), in 1/16 °C and mL/min. -/
structure Sensors where
  die : List Nat
  hub : Nat
  inlet : Nat
  flow : Nat
deriving DecidableEq, Repr

/-- One constructor for each row of the opcode table, grouped as the table's rows are. The constructors without
fields stand last. -/
inductive Instr where
  -- control core, integer words (R320 to R322)
  | nop (t : Tag) (tk : Tk)
  | add (lat : BitVec 4) (d a b : BitVec 5)
  | sub (lat : BitVec 4) (d a b : BitVec 5)
  | mul (lat : BitVec 4) (d a b : BitVec 5)
  | mulh (lat : BitVec 4) (d a b : BitVec 5)
  | mulhu (lat : BitVec 4) (d a b : BitVec 5)
  | div (lat : BitVec 4) (d a b : BitVec 5)
  | divu (lat : BitVec 4) (d a b : BitVec 5)
  | rem (lat : BitVec 4) (d a b : BitVec 5)
  | remu (lat : BitVec 4) (d a b : BitVec 5)
  | and (lat : BitVec 4) (d a b : BitVec 5)
  | or (lat : BitVec 4) (d a b : BitVec 5)
  | xor (lat : BitVec 4) (d a b : BitVec 5)
  | shl (lat : BitVec 4) (d a b : BitVec 5)
  | shr (lat : BitVec 4) (d a b : BitVec 5)
  | sra (lat : BitVec 4) (d a b : BitVec 5)
  | min (lat : BitVec 4) (d a b : BitVec 5)
  | max (lat : BitVec 4) (d a b : BitVec 5)
  | minu (lat : BitVec 4) (d a b : BitVec 5)
  | maxu (lat : BitVec 4) (d a b : BitVec 5)
  | clz (lat : BitVec 4) (d a : BitVec 5)
  | popc (lat : BitVec 4) (d a : BitVec 5)
  | sel (lat : BitVec 4) (d a b c : BitVec 5)
  | cmp (lat : BitVec 4) (fn : ICmp) (d a b : BitVec 5)
  | addi (lat : BitVec 4) (d a : BitVec 5) (imm : BitVec 27)
  | andi (lat : BitVec 4) (d a : BitVec 5) (imm : BitVec 27)
  | ori (lat : BitVec 4) (d a : BitVec 5) (imm : BitVec 27)
  | xori (lat : BitVec 4) (d a : BitVec 5) (imm : BitVec 27)
  | shi (lat : BitVec 4) (k : ShiftKind) (d a : BitVec 5) (n : BitVec 6)
  | li (lat : BitVec 4) (d : BitVec 5) (imm : BitVec 27)
  | lih (lat : BitVec 4) (d a : BitVec 5) (imm : BitVec 27)
  | cmpi (lat : BitVec 4) (fn : ICmp) (d a : BitVec 5) (imm : BitVec 27)
  -- branches and loops (R323 to R327)
  | br (off : BitVec 32)
  | brc (c : BCond) (hint : Lean) (g : BitVec 5) (off : BitVec 32)
  | call (off : BitVec 32)
  | jr (g : BitVec 5)
  | loop (g : BitVec 5) (off : BitVec 32)
  | loopr (off : BitVec 32)
  | ploop (stages : BitVec 3) (words : BitVec 2) (g : BitVec 5) (len : BitVec 6)
  -- strand words (R330 to R335)
  | waitFlag (ga : BitVec 5) (oc : BitVec 4)
  | waitTime (ga : BitVec 5)
  | trap (imm : BitVec 16)
  | fence (sc : Scope) (k : FenceKind) (mask : BitVec 16)
  | barrierComplete (part launch : Nat)
  | ovl (n : BitVec 8)
  -- commands and queues (R336 to R338)
  | pushHset (gb ga : BitVec 5) (x w r : Bool) (tag : BitVec 16)
  | pushHfree (gb : BitVec 5) (tag : BitVec 16)
  | pushHread (gb : BitVec 5) (tag : BitVec 16)
  | pushGset (gb : BitVec 5)
  | pushGfree (gb : BitVec 5)
  | pushCrun (gb : BitVec 5)
  | popCpy (lat : BitVec 4) (ga : BitVec 5)
  | popColl (lat : BitVec 4) (ga : BitVec 5)
  | mfst (lat : BitVec 4) (ga : BitVec 5) (num : BitVec 10)
  | mtst (num : BitVec 10) (gb : BitVec 5)
  | qsend (q : SQueue) (gb : BitVec 5)
  | qrecv (lat : BitVec 4) (ga : BitVec 5)
  -- launches, bindings and service calls (R342 to R344)
  | launch (lat : BitVec 4) (ga gb : BitVec 5)
  | bind (lat : BitVec 4) (ga gb : BitVec 5) (n : BitVec 6)
  | sysInval (lat : BitVec 4) (ga gb : BitVec 5)
  | sysFgive (lat : BitVec 4) (ga gb : BitVec 5)
  | sysFtake (lat : BitVec 4) (ga gb : BitVec 5)
  | sysMread (lat : BitVec 4) (ga gb : BitVec 5)
  -- scalar accesses (R345, R346)
  | ld (lat : BitVec 4) (sz : Sz) (sext : Bool) (oc : BitVec 4) (cp : Cp) (aq : Bool) (d base : BitVec 5) (off : BitVec 18)
  | st (sz : Sz) (oc : BitVec 4) (cp : Cp) (rl : Bool) (d base : BitVec 5) (off : BitVec 18)
  | amo (lat : BitVec 4) (op : AmoOp) (dbl : Bool) (oc : BitVec 4) (aq rl : Bool) (d base : BitVec 5) (off : BitVec 18)
  | pfl (xlat : Bool) (base : BitVec 5) (off : BitVec 18)
  -- load engine (R114 to R128)
  | aadd (h : Hdr) (d a : BitVec 4) (imm : BitVec 27)
  | aset (h : Hdr) (d : BitVec 4) (imm : BitVec 27)
  | asetH (h : Hdr) (d : BitVec 4) (imm : BitVec 27)
  | asetQ (h : Hdr) (d : BitVec 4) (imm : BitVec 27)
  | sdset (h : Hdr) (sd : BitVec 4) (w : BitVec 2) (a : BitVec 4) (second : Option (BitVec 4))
  | ldq (tk : Tk) (t6 : Option (BitVec 4)) (base : BitVec 4) (off : BitVec 18)
  | ldqs (tk : Tk) (sz : Sz) (sd base : BitVec 4) (off : BitVec 18)
  | ldg (tk : Tk) (sz : Sz) (base : BitVec 4) (off : BitVec 18)
  | ldpk (tk : Tk) (sz : Sz) (base : BitVec 4) (off : BitVec 18)
  | ldmq (tk : Tk) (elem : Option Sz) (oc : BitVec 4) (cp : Cp) (aq : Bool) (base : BitVec 4) (off : BitVec 18)
  | omfill (tk : Tk) (d : BitVec 5) (sd base : BitVec 4) (off : BitVec 18)
  | omfillComplete (r : SRef) (om : Nat)
  | cpy (tk : Tk) (w : CpyWord)
  | cpyh (tk : Tk) (w : CpyWord)
  | copyStart (cell : Nat)
  | copyComplete (cell ch : Nat)
  | copyChannelFault (cell ch : Nat) (bytes : Nat)
  | rps (tk : Tk) (toC toM : Bool) (dbl : Bool) (cnt base : BitVec 4) (off : BitVec 18)
  | pf (tk : Tk) (f : PfForm) (base : BitVec 4) (off : BitVec 18)
  -- store engine (R114 to R133)
  | badd (h : Hdr) (d a : BitVec 4) (imm : BitVec 27)
  | bset (h : Hdr) (d : BitVec 4) (imm : BitVec 27)
  | bsetH (h : Hdr) (d : BitVec 4) (imm : BitVec 27)
  | bsetQ (h : Hdr) (d : BitVec 4) (imm : BitVec 27)
  | stq (tk : Tk) (t6 : Option (BitVec 4)) (base : BitVec 4) (off : BitVec 18)
  | stqs (tk : Tk) (sz : Sz) (sd base : BitVec 4) (off : BitVec 18)
  | sts (tk : Tk) (sz : Sz) (base : BitVec 4) (off : BitVec 18)
  | stsa (tk : Tk) (ty : AddTy) (base : BitVec 4) (off : BitVec 18)
  | stpk (tk : Tk) (sz : Sz) (reserve : BitVec 7) (base : BitVec 4) (off : BitVec 18)
  | stmq (tk : Tk) (elem : Option Sz) (oc : BitVec 4) (cp : Cp) (rl : Bool) (base : BitVec 4) (off : BitVec 18)
  | stmqSc (tk : Tk) (dbl : Bool) (oc : BitVec 4) (cp : Cp) (rl : Bool) (base : BitVec 4) (off : BitVec 18)
  | stmqAdd (tk : Tk) (ty : AddTy) (oc : BitVec 4) (cp : Cp) (rl : Bool) (base : BitVec 4) (off : BitVec 18)
  | bput (tk : Tk) (base : BitVec 4) (off : BitVec 18)
  | bputErrorResponse (k : Nat)
  -- vector engine (R176 to R200)
  | vmov (c : VCtl) (d : VDst) (a : VSrc)
  | vmovi (h : Hdr) (ty : Ty) (d : VDst) (imm : BitVec 27)
  | vidx (h : Hdr) (ty : Ty) (d : VDst) (stride : BitVec 7) (imm : BitVec 27)
  | vbcast (c : VCtl) (d : VDst) (a b : VSrc)
  | vbcastQ (c : VCtl) (d : VDst)
  | vadd (c : VCtl) (d : VDst) (a b : VSrc)
  | vsub (c : VCtl) (d : VDst) (a b : VSrc)
  | vmul (c : VCtl) (d : VDst) (a b : VSrc)
  | vfma (c : VCtl) (d : VDst) (a b x : VSrc)
  | vfms (c : VCtl) (d : VDst) (a b x : VSrc)
  | vmin (c : VCtl) (d : VDst) (a b : VSrc)
  | vmax (c : VCtl) (d : VDst) (a b : VSrc)
  | vabs (c : VCtl) (d : VDst) (a : VSrc)
  | vneg (c : VCtl) (d : VDst) (a : VSrc)
  | vadds (c : VCtl) (d : VDst) (a b : VSrc)
  | vsubs (c : VCtl) (d : VDst) (a b : VSrc)
  | vmulh (c : VCtl) (d : VDst) (a b : VSrc)
  | vand (c : VCtl) (d : VDst) (a b : VSrc)
  | vor (c : VCtl) (d : VDst) (a b : VSrc)
  | vxor (c : VCtl) (d : VDst) (a b : VSrc)
  | vshl (c : VCtl) (d : VDst) (a b : VSrc)
  | vshr (c : VCtl) (d : VDst) (a b : VSrc)
  | vsra (c : VCtl) (d : VDst) (a b : VSrc)
  | vwmul (c : VCtl) (k4 : Bool) (d : VDst) (a b : VSrc)
  | vwadd (c : VCtl) (k4 : Bool) (d : VDst) (a b : VSrc)
  | vnarrow (c : VCtl) (k4 : Bool) (d : VDst) (a : VSrc)
  | vcvt (c : VCtl) (dst : Ty) (d : VDst) (a : VSrc)
  | vcmp (c : VCtl) (fn : VCmp) (andCm : Bool) (a b : VSrc)
  | vclass (c : VCtl) (cls : BitVec 5) (neg pos : Bool) (a : VSrc)
  | vsel (c : VCtl) (d : VDst) (a b : VSrc)
  | vperm (c : VCtl) (d : VDst) (a x : VSrc)
  | vshuf (c : VCtl) (d : VDst) (a b x : VSrc)
  | vrot (c : VCtl) (d : VDst) (a b : VSrc)
  | vslide (c : VCtl) (d : VDst) (a b x : VSrc)
  | vred (c : VCtl) (fn : VRedFn) (d : VDst) (a : VSrc)
  | vany (c : VCtl) (fn : VAnyFn) (d : VDst)
  | vcompress (c : VCtl) (d : VDst) (a : VSrc)
  | vexpand (c : VCtl) (d : VDst) (a b : VSrc)
  | vconf (c : VCtl) (a : VSrc)
  -- special functions and predicates (R202 to R217)
  | vexp2 (c : VCtl) (d : VDst) (a : VSrc)
  | vlog2 (c : VCtl) (d : VDst) (a : VSrc)
  | vexp (c : VCtl) (d : VDst) (a : VSrc)
  | vlog (c : VCtl) (d : VDst) (a : VSrc)
  | vrcp (c : VCtl) (d : VDst) (a : VSrc)
  | vrsqrt (c : VCtl) (d : VDst) (a : VSrc)
  | vsqrt (c : VCtl) (d : VDst) (a : VSrc)
  | vtanh (c : VCtl) (d : VDst) (a : VSrc)
  | vsigm (c : VCtl) (d : VDst) (a : VSrc)
  | vorient2 (w : GeoWord)
  | vorient3 (w : GeoWord)
  | vincirc (w : GeoWord)
  | vinsph (w : GeoWord)
  | vsegx (w : GeoWord)
  -- accumulator columns, index sends, masks, spill (R196 to R200)
  | vaccrd (c : VCtl) (d : VDst) (b : VSrc)
  | vaccwr (c : VCtl) (a b : VSrc)
  | vtoix (c : VCtl) (a : VSrc)
  | vtol (c : VCtl) (a : VSrc)
  | vtos (c : VCtl) (a : VSrc)
  | emsave (h : Hdr) (d : BitVec 3) (fromCm : Bool)
  | emrest (h : Hdr) (a : MaskSel)
  | emcomb (h : Hdr) (op : MaskOp) (a : MaskSel)
  | vspill (tk : Tk) (a : BitVec 6)
  | vfill (tk : Tk) (d : VDst) (a : BitVec 6)
  -- matrix engine (R226 to R257)
  | mclaim (tk : Tk) (slots : Option (BitVec 5 × BitVec 5)) (tile : Option (BitVec 4))
  | mrel (tk : Tk) (slots : Option (BitVec 5 × BitVec 5)) (tile : Option (BitVec 4))
  | mzero (tk : Tk) (acc qmask : BitVec 4)
  | mma (w : MmWord)
  | mmaq (w : MmWord) (fn : BitVec 16)
  | mmas (w : MmWord) (pat : BitVec 4) (voff : BitVec 16)
  | mmag (w : MmWord)
  | matrixGrant (die : Nat)
  | mnset (tk : Tk) (rec : NestRec)
  | mnest (tk : Tk)
  | mdrain (tk : Tk) (acc : BitVec 4) (fn : DrainFn)
  | mpload (tk : Tk) (w n1 : BitVec 8)
  | mpbind (tk : Tk) (pat : BitVec 4) (ta : Bool)
  | mtog (tk : Tk)
  -- bound opcodes and micro-steps (R350, R356)
  | boundOpcode (n : BitVec 6) (e : Eng) (h : Hdr) (d a b : BitVec 7) (imm : BitVec 24)
  | resultLands (r : SRef) (k : Nat)
  | tokenPush (r : SRef) (k : Nat)
  -- collective steps (R303 to R311)
  | send (r : CRef)
  | recv (r : CRef)
  | rrs (r : CRef)
  | collCopy (r : CRef)
  | collWait (r : CRef)
  | collLoop (r : CRef)
  | collEndl (r : CRef)
  | reduce (r : CRef)
  | collEnd (r : CRef)
  | collMessageArrive (die : Nat) (m : CollMsg)
  | collTimeout (r : CRef)
  | abortReceive (die : Nat) (a : CollAbort)
  | abortAck (die : Nat) (a : CollAbort)
  | switchFailure (r : CRef)
  -- fabric, host port, migration, translation (R76 to R83, R292 to R295)
  | remoteResponse (id : Nat) (reply : Reply)
  | remoteTimeout (id : Nat)
  | portDown (port : Nat) (lost : List CRef)
  | epnerFlitReceive (port : Nat) (ok : FlitCheck)
  | hostCompletion (id : Nat) (reply : Reply)
  | hostCompletionTimeout (id : Nat)
  | pullDataArrive (die k : Nat) (reply : Reply)
  | pullAttemptTimeout (die k : Nat)
  | pullGiveUp (die k : Nat)
  | invalidationComplete (k : Nat)
  -- scheduling (R372 to R402)
  | strandDispatch (part launch : Nat) (r : SRef)
  | launchComplete (part launch : Nat)
  | strandResume (r : SRef) (k : Nat)
  | resourceRestore (r : SRef) (res : LargeRes)
  | mailboxGo (part : Nat) (r : SRef)
  | regionReread (die : Nat)
  | grantWindowStart (die : Nat)
  -- faults (R403 to R419)
  | faultTailWrite (part : Nat) (tail : BitVec 32)
  | watchdog (w : Watched)
  | errorLogDrain (log : LogId)
  | patrolScrub (addr : Nat)
  | cellTestComplete (cell : Nat) (pass : Bool)
  -- management (R423 to R452)
  | create (req : List Word)
  | fwcommit (verified : Bool)
  | fabric (table : List (BitVec 32))
  | barAccessError (fn : Nat) (isRead : Bool)
  | registerWrite (fn bar off size : Nat) (v : Word)
  | coldReset (b : BringUp)
  | warmReset (linkUp : Bool) (b : BringUp)
  | thermalThrottle (die : Nat)
  | thermalShutdown (die : Nat)
  | accessPerform (r : SRef) (k : Nat) (c : AccCheck)
  | remoteRequestArrive (q : RemoteReq)
  | bputRowArrive (k : Nat)
  | abortGiveUp (r : CRef) (child : Nat)
  | inFabricGrant (r : CRef) (granted : Bool) (result : List Byte)
  | telemetryAlarm (x : Sensors)
  -- words and events without fields; an event of a strand concerns the strand of `State.cur`
  | ret
  | loopEndReached
  | waitTrig
  | waitCpy
  | waitColl
  | waitFlagPoll
  | waitConditionTrue
  | yield
  | trig
  | exit
  | sbar
  | overlayRefill
  | rpsPush
  | branchOutcome
  | storeDataStage
  | predicateComplete
  | mclaimRetry
  | nestStep
  | productWordComplete
  | microStep
  | placementLoad
  | strandEnd
  | blockSwitch
  | blockTimeExpiry
  | sliceExpiry
  | preemptionRequest
  | lullStop
  | forcedSave
  | energyPeriodStart
  | faultDeliver
  | faultHandlerComplete
  | scrubComplete
  | usageRecordEmit
  | sealComplete
  | teardown
  | mgmtInval
  | logread
  | mack
  | mfetch
  | attest
  | fwstage
  | cap
  | celltest
  | telem
  | mgmtCommandComplete
  | standbyPowerLoss
deriving DecidableEq, Repr

end Sys2Proof
end

