-- ==== Sys2Proof/WellFormed.lean ====
section
/-! DEFINITION. Which instructions the encoding admits: the checks of R28, R35 and R37 to R42 and of each
word's own description on fields that the constructors of `Instr` do not already bound. An event is well formed
when the unit it names exists.
-/

namespace Sys2Proof

/-- Integer types, group I of R175. -/
def Ty.isInt : Ty → Bool
  | .i8 | .u8 | .i16 | .u16 | .i32 | .u32 | .i4 | .u4 => true
  | _ => false

/-- Signed integer types (R140). -/
def Ty.isSigned : Ty → Bool
  | .i8 | .i16 | .i32 | .i4 => true
  | _ => false

/-- IEEE types, group F of R175. -/
def Ty.isF : Ty → Bool
  | .f16 | .bf16 | .f32 | .f64 => true
  | _ => false

/-- Tapered types, group T of R175. -/
def Ty.isT : Ty → Bool
  | .t8 | .t6 => true
  | _ => false

/-- Width of an element in a register (R140): t6 in its 8-bit container, bits as 32-bit elements (R175). -/
def Ty.width : Ty → Nat
  | .i8 | .u8 | .t8 | .t6 => 8
  | .i16 | .u16 | .f16 | .bf16 => 16
  | .i32 | .u32 | .f32 | .b => 32
  | .i4 | .u4 => 4
  | .f64 => 64

/-- Elements of a register, or of a pair for fp64 (R140, R168). -/
def Ty.count : Ty → Nat
  | .i8 | .u8 | .t8 | .t6 => 512
  | .i16 | .u16 | .f16 | .bf16 => 256
  | .i32 | .u32 | .f32 | .b | .f64 => 128
  | .i4 | .u4 => 1024

/-- Registers an operand of the type takes (R168). -/
def Ty.regs : Ty → Nat
  | .f64 => 2
  | _ => 1

def Tk.none : Tk := ⟨false, false, false, false⟩

/-- Token bits that name only neighbours the engine has (R35). -/
def Tk.okFor (t : Tk) : Eng → Bool
  | .c => t == Tk.none
  | .l => !t.pbp && !t.pap
  | .v | .m => true
  | .s => !t.pbn && !t.pan

/-- A latency bound at or above the opcode's minimum (R28). -/
def latOk (lat : BitVec 4) (least : Nat) : Bool := decide (least ≤ lat.toNat)

def Hdr.ok (h : Hdr) (e : Eng) (least : Nat) : Bool := latOk h.lat least && h.tk.okFor e

/-- A source field that stands for `k` registers or entries (R168, R169, R188). -/
def VSrc.ok (k : Nat) : VSrc → Bool
  | .v n => decide (n.toNat % k = 0)
  | .lq | .vz => true
  | .lqKeep => decide (k = 1)

/-- A destination of a word whose result is not a scalar (R39). -/
def VDst.ok (k : Nat) : VDst → Bool
  | .v n => decide (n.toNat % k = 0)
  | .sq => true
  | .vcq => false

/-- A destination of a scalar-result word (R39, R190). -/
def VDst.okScalar (k : Nat) : VDst → Bool
  | .v n => decide (n.toNat % k = 0)
  | .sq => false
  | .vcq => true

/-- What a V word's table allows (R175): its types, where RM may differ from 00, where MOD bit 0 may be set. -/
def VCtl.ok (c : VCtl) (least : Nat) (types rm sat : Ty → Bool) : Bool :=
  c.h.ok .v least && types c.ty && (c.rm == .lmode || rm c.ty) && (!c.sat || sat c.ty)

def Ty.any : Ty → Bool := fun _ => true
def Ty.never : Ty → Bool := fun _ => false
def Ty.arith (t : Ty) : Bool := t != .b
def Ty.float (t : Ty) : Bool := t.isF || t.isT
def Ty.bitsOrInt (t : Ty) : Bool := t.isInt || t == .b

/-- The types `vcompress` and `vexpand` take (R193). -/
def Ty.packable (t : Ty) : Bool := t.width == 8 || t.width == 16 || t.width == 32

/-- The types of the accumulator-column words (R196) and of `vconf` (R195). -/
def Ty.column (t : Ty) : Bool := t == .i32 || t == .f32 || t == .b
def Ty.index32 (t : Ty) : Bool := t == .i32 || t == .u32 || t == .b

/-- Source types of `vwmul` and `vwadd` by factor (R179). -/
def widenOk (t : Ty) (k4 : Bool) : Bool :=
  match t with
  | .i4 | .u4 | .i8 | .u8 => true
  | .i16 | .u16 | .f16 | .bf16 => !k4
  | _ => false

/-- Destination types of `vnarrow` by factor (R180). -/
def narrowOk (t : Ty) (k4 : Bool) : Bool :=
  match t with
  | .i4 | .u4 | .i8 | .u8 => true
  | .i16 | .u16 => !k4
  | _ => false

def factor (k4 : Bool) : Nat := if k4 then 4 else 2

/-- The combinations `vcvt` takes (R181). -/
def cvtOk (src dst : Ty) : Bool :=
  let pairOk (t : Ty) : Bool := t == .f32 || t == .i32 || t == .u32
  src != dst && src != .b && dst != .b &&
    (if src == .f64 then pairOk dst
     else if dst == .f64 then pairOk src
     else decide (src.width ≤ 4 * dst.width ∧ dst.width ≤ 4 * src.width))

/-- Registers that the source and the destination of a `vcvt` take (R181). -/
def cvtSrcRegs (src dst : Ty) : Nat :=
  if src == .f64 then 2 else if dst == .f64 then 1 else src.width / dst.width |>.max 1
def cvtDstRegs (src dst : Ty) : Nat :=
  if dst == .f64 then 2 else if src == .f64 then 1 else dst.width / src.width |>.max 1

/-- Registers of an index operand of `vperm` and `vshuf` (R188). -/
def indexRegs (t : Ty) : Nat := if t.width = 8 then 2 else if t.width = 4 then 4 else 1

/-- Types of each comparison (R185). -/
def VCmp.types : VCmp → Ty → Bool
  | .eq, _ | .ne, _ => true
  | .un, t | .ord, t => t.float
  | _, t => t.arith

/-- Types of each reduction (R191). -/
def VRedFn.types : VRedFn → Ty → Bool
  | .add, t | .min, t | .max, t => t.isInt || t.isF
  | _, t => t.bitsOrInt

/-- The least and greatest value of an integer type (R140). -/
def Ty.lo (t : Ty) : Int := if t.isSigned then -(2 ^ (t.width - 1) : Nat) else 0
def Ty.hi (t : Ty) : Int := if t.isSigned then (2 ^ (t.width - 1) : Nat) - 1 else (2 ^ t.width : Nat) - 1

/-- Immediates of `vmovi` (R183). -/
def vmoviOk (t : Ty) (imm : BitVec 27) : Bool :=
  if t.isInt then decide (t.lo ≤ imm.toInt ∧ imm.toInt ≤ t.hi)
  else match t with
    | .t8 => decide (imm.toNat < 256)
    | .t6 => decide (imm.toNat < 64)
    | .b => false
    | _ => true

/-- The points and dimensions of a predicate (R206). -/
inductive Geo where
  | orient2 | orient3 | incirc | insph | segx
deriving DecidableEq, Repr

def Geo.points : Geo → Nat
  | .orient2 => 3 | .orient3 => 4 | .incirc => 4 | .insph => 5 | .segx => 4
def Geo.dim : Geo → Nat
  | .orient2 => 2 | .orient3 => 3 | .incirc => 2 | .insph => 3 | .segx => 2

/-- R205: the coordinate layout and the identifiers lie within v0 to v63. -/
def GeoWord.ok (w : GeoWord) (k : Geo) : Bool :=
  let per := if w.f64 then 2 else 1
  decide (w.a.toNat % per = 0 ∧ w.a.toNat + per * (k.points * k.dim) ≤ 64) &&
    (match w.ids with
     | none => true
     | some b => decide (b.toNat + k.points ≤ 64)) &&
    w.d != .vcq

/-- The state registers that R340 assigns. The service range is checked when the word executes (R339). -/
def stateRegAssigned (num : BitVec 10) : Bool :=
  let n := num.toNat
  decide (n ≤ 0x00E ∨ (0x010 ≤ n ∧ n ≤ 0x01F) ∨ n = 0x020 ∨ n = 0x021 ∨ n = 0x030 ∨ (0x100 ≤ n ∧ n ≤ 0x17F))

/-- R88 and R96: the spaces and shapes a copy word may join. -/
def CpyWord.ok (w : CpyWord) (tk : Tk) : Bool :=
  (w.ssp == .mem || w.ssp == .spm) &&
    !(w.dim2 && (w.dsp == .imem || w.dsp == .wcs)) &&
    !(w.tok && tk.pan) && tk.okFor .l

def claimOk (slots : Option (BitVec 5 × BitVec 5)) (tile : Option (BitVec 4)) : Bool :=
  match slots with
  | some (lo, hi) => decide (lo.toNat ≤ hi.toNat)
  | none => tile.isSome

/-- R231: a disabled quadrant's nibble is zero, an enabled one's slots are at most 31. -/
def quadOk (w : MmWord) (fn : BitVec 16) (q : Nat) : Bool :=
  let nib := fn.toNat / 16 ^ q % 16
  if w.qmask.getLsbD q then decide (w.oma.toNat + nib % 4 ≤ 31 ∧ w.omb.toNat + nib / 4 ≤ 31)
  else decide (nib = 0)

def DrainFn.ok (f : DrainFn) : Bool :=
  f.dty != .f64 && (f.dty != .b || (!f.relu && f.scale == 0))

/-- Fields of a bound word by engine (R39, R350). -/
def boundFieldsOk (e : Eng) (d a b : BitVec 7) : Bool :=
  match e with
  | .c | .m => decide (d.toNat < 32 ∧ a.toNat < 32 ∧ b.toNat < 32)
  | .l | .s => decide (d.toNat < 16 ∧ a.toNat < 16 ∧ b.toNat < 16)
  | .v =>
    let src (x : BitVec 7) : Bool := decide (x.toNat ≤ 65 ∨ x.toNat = 68)
    let dst (x : BitVec 7) : Bool := decide (x.toNat < 64 ∨ x.toNat = 66 ∨ x.toNat = 67)
    dst d && src a && src b

def SRef.ok (r : SRef) : Bool := decide (r.cell < 192 ∧ r.slot < 4)
def Walker.ok (w : Walker) : Bool := decide (w.cell < 192 ∧ w.slot < 4)
def CRef.ok (r : CRef) : Bool := decide (r.die < 4 ∧ r.part < 64 ∧ r.slot < 16)

/-- The engine a word of the opcode map belongs to, for the words that have one (R52). -/
def nopTkOk (t : Tag) (tk : Tk) : Bool :=
  match t with
  | .one e => tk.okFor e
  | .all => tk == Tk.none

/-- The fuse map of a part: no cell, or eight with at most four of them on a die (R1, R2). -/
def fuseMapOk (l : List Nat) : Bool :=
  l.isEmpty || (l.length == 8 && decide l.Nodup && l.all (fun c => decide (c < 192)) &&
    (List.range 4).all fun d => decide ((l.filter fun c => c / 48 == d).length ≤ 4))

/-- The well-formed instructions. -/
def wellFormed : Instr → Bool
  | .nop t tk => nopTkOk t tk
  | .add lat _ _ _ | .sub lat _ _ _ => latOk lat 1
  | .mul lat _ _ _ => latOk lat 3
  | .mulh lat _ _ _ | .mulhu lat _ _ _ => latOk lat 4
  | .div lat _ _ _ | .divu lat _ _ _ | .rem lat _ _ _ | .remu lat _ _ _ => latOk lat 14
  | .and lat _ _ _ | .or lat _ _ _ | .xor lat _ _ _ | .shl lat _ _ _ | .shr lat _ _ _ | .sra lat _ _ _
  | .min lat _ _ _ | .max lat _ _ _ | .minu lat _ _ _ | .maxu lat _ _ _ => latOk lat 1
  | .clz lat _ _ | .popc lat _ _ | .sel lat _ _ _ _ | .cmp lat _ _ _ _ => latOk lat 1
  | .addi lat _ _ _ | .andi lat _ _ _ | .ori lat _ _ _ | .xori lat _ _ _ | .shi lat _ _ _ _
  | .li lat _ _ | .lih lat _ _ _ | .cmpi lat _ _ _ _ => latOk lat 1
  | .br _ | .brc _ _ _ _ | .call _ | .ret | .jr _ => true
  | .loop _ off | .loopr off => decide (2 ≤ off.toInt)
  | .loopEndReached => true
  | .ploop _ words _ len => decide (words.toNat = len.toNat / 16)
  | .waitTrig | .waitCpy | .waitColl | .waitFlag _ _ | .waitTime _ => true
  | .waitFlagPoll | .waitConditionTrue => true
  | .yield | .trig | .exit | .trap _ | .fence _ _ _ | .sbar => true
  | .barrierComplete part _ => decide (part < 64)
  | .ovl _ => true
  | .overlayRefill => true
  | .pushHset _ ga _ _ _ _ => decide (2 ≤ ga.toNat ∧ ga.toNat ≤ 30)
  | .pushHfree _ _ | .pushHread _ _ | .pushGset _ | .pushGfree _ | .pushCrun _ => true
  | .popCpy lat _ | .popColl lat _ | .qrecv lat _ => latOk lat 15
  | .mfst lat _ num => latOk lat (if num = 2 then 15 else 2) && stateRegAssigned num
  | .mtst num _ => stateRegAssigned num
  | .qsend _ _ => true
  | .launch lat _ _ | .bind lat _ _ _ => latOk lat 15
  | .sysInval lat _ _ | .sysFgive lat _ _ | .sysFtake lat _ _ | .sysMread lat _ _ => latOk lat 15
  | .ld lat sz sx _ _ _ _ _ _ => latOk lat 15 && !(sx && sz == .e8)
  | .st _ _ _ _ _ _ _ => true
  | .amo lat op dbl _ _ _ d _ _ =>
    latOk lat 15 && !(dbl && (op == .fadd || op == .bfadd2)) &&
      (op != .cas || decide (d.toNat % 2 = 0 ∧ 2 ≤ d.toNat))
  | .pfl _ _ _ => true
  | .aadd h _ _ _ | .aset h _ _ | .asetH h _ _ | .asetQ h _ _ => h.ok .l 1
  | .sdset h _ w _ second => h.ok .l 1 && (second.isNone || w == 0 || w == 2)
  | .ldq tk _ _ _ | .ldqs tk _ _ _ _ | .ldg tk _ _ _ => tk.okFor .l
  | .ldpk tk sz _ _ => tk.okFor .l && sz != .e8
  | .ldmq tk _ _ _ _ _ _ | .omfill tk _ _ _ _ => tk.okFor .l
  | .omfillComplete r om => r.ok && decide (om < 32)
  | .cpy tk w | .cpyh tk w => w.ok tk
  | .copyStart cell => decide (cell < 192)
  | .copyComplete cell ch | .copyChannelFault cell ch _ => decide (cell < 192 ∧ ch < 16)
  | .rps tk toC toM _ _ _ _ => tk.okFor .l && (toC || toM)
  | .rpsPush => true
  | .pf tk _ _ _ => tk.okFor .l
  | .branchOutcome => true
  | .badd h _ _ _ | .bset h _ _ | .bsetH h _ _ | .bsetQ h _ _ => h.ok .s 1
  | .stq tk _ _ _ | .stqs tk _ _ _ _ | .sts tk _ _ _ | .stsa tk _ _ _ => tk.okFor .s
  | .stpk tk sz reserve _ _ => tk.okFor .s && sz != .e8 && reserve != 0
  | .stmq tk _ _ _ _ _ _ | .stmqSc tk _ _ _ _ _ _ | .stmqAdd tk _ _ _ _ _ _ => tk.okFor .s
  | .storeDataStage => true
  | .bput tk _ _ => tk.okFor .s
  | .bputErrorResponse _ => true
  | .vmov c d a => c.ok 1 Ty.any Ty.never Ty.never && d.ok c.ty.regs && a.ok c.ty.regs
  | .vmovi h ty d imm => h.ok .v 1 && d.ok ty.regs && vmoviOk ty imm
  | .vidx h ty d _ _ => h.ok .v 1 && ty.isInt && d.ok 1
  | .vbcast c d a b => c.ok 1 Ty.any Ty.never Ty.never && d.ok c.ty.regs && a.ok c.ty.regs && b.ok c.ty.regs
  | .vbcastQ c d => c.ok 1 Ty.any Ty.never Ty.never && d.ok c.ty.regs
  | .vadd c d a b | .vsub c d a b =>
    c.ok 2 Ty.arith Ty.float Ty.isInt && d.ok c.ty.regs && a.ok c.ty.regs && b.ok c.ty.regs
  | .vmul c d a b => c.ok 3 Ty.arith Ty.float Ty.isInt && d.ok c.ty.regs && a.ok c.ty.regs && b.ok c.ty.regs
  | .vfma c d a b x | .vfms c d a b x =>
    c.ok 4 Ty.arith Ty.float Ty.isInt && d.ok c.ty.regs && a.ok c.ty.regs && b.ok c.ty.regs && x.ok c.ty.regs
  | .vmin c d a b | .vmax c d a b =>
    c.ok 2 Ty.arith Ty.never Ty.never && d.ok c.ty.regs && a.ok c.ty.regs && b.ok c.ty.regs
  | .vabs c d a | .vneg c d a => c.ok 1 Ty.arith Ty.never Ty.isInt && d.ok c.ty.regs && a.ok c.ty.regs
  | .vadds c d a b | .vsubs c d a b => c.ok 2 Ty.isInt Ty.never Ty.never && d.ok 1 && a.ok 1 && b.ok 1
  | .vmulh c d a b => c.ok 3 Ty.isInt Ty.never Ty.never && d.ok 1 && a.ok 1 && b.ok 1
  | .vand c d a b | .vor c d a b | .vxor c d a b =>
    c.ok 1 Ty.bitsOrInt Ty.never Ty.never && d.ok 1 && a.ok 1 && b.ok 1
  | .vshl c d a b | .vshr c d a b | .vsra c d a b =>
    c.ok 1 Ty.isInt Ty.never Ty.never && d.ok 1 && a.ok 1 && b.ok 1
  | .vwmul c k4 d a b => c.ok 3 (widenOk · k4) Ty.isF Ty.never && d.ok (factor k4) && a.ok 1 && b.ok 1
  | .vwadd c k4 d a b => c.ok 2 (widenOk · k4) Ty.isF Ty.never && d.ok (factor k4) && a.ok 1 && b.ok 1
  | .vnarrow c k4 d a => c.ok 2 (narrowOk · k4) Ty.never Ty.isInt && d.ok 1 && a.ok (factor k4)
  | .vcvt c dst d a =>
    c.h.ok .v 3 && cvtOk c.ty dst && (!c.sat || dst.isInt) && d.ok (cvtDstRegs c.ty dst) &&
      a.ok (cvtSrcRegs c.ty dst)
  | .vcmp c fn _ a b => c.ok 2 fn.types Ty.never Ty.never && a.ok c.ty.regs && b.ok c.ty.regs
  | .vclass c cls neg pos a =>
    c.ok 2 Ty.float Ty.never Ty.never && cls != 0 && !(neg && pos) && a.ok c.ty.regs
  | .vsel c d a b =>
    c.ok 1 Ty.any Ty.never Ty.never && (c.lanes == .em || c.lanes == .all) && d.ok c.ty.regs &&
      a.ok c.ty.regs && b.ok c.ty.regs
  | .vperm c d a x => c.ok 3 Ty.any Ty.never Ty.never && d.ok c.ty.regs && a.ok c.ty.regs && x.ok (indexRegs c.ty)
  | .vshuf c d a b x =>
    c.ok 3 Ty.any Ty.never Ty.never && d.ok c.ty.regs && a.ok c.ty.regs && b.ok c.ty.regs && x.ok (indexRegs c.ty)
  | .vrot c d a b => c.ok 2 Ty.any Ty.never Ty.never && d.ok c.ty.regs && a.ok c.ty.regs && b.ok c.ty.regs
  | .vslide c d a b x =>
    c.ok 2 Ty.any Ty.never Ty.never && d.ok c.ty.regs && a.ok c.ty.regs && b.ok c.ty.regs && x.ok c.ty.regs
  | .vred c fn d a =>
    c.ok 8 fn.types (fun t => fn == .add && t.isF) (fun t => fn == .add && t.isInt) && d.okScalar c.ty.regs &&
      a.ok c.ty.regs
  | .vany c _ d => c.ok 4 Ty.any Ty.never Ty.never && d.okScalar c.ty.regs
  | .vcompress c d a => c.ok 4 Ty.packable Ty.never Ty.never && d.ok 2 && a.ok 1
  | .vexpand c d a b =>
    c.ok 4 Ty.packable Ty.never Ty.never && c.lanes == .all && d.ok 1 && a.ok 1 && b.ok 1
  | .vconf c a => c.ok 6 Ty.index32 Ty.never Ty.never && a.ok 1
  | .vexp2 c d a | .vlog2 c d a =>
    c.ok 6 (fun t => t.isF && t != .f64) Ty.never Ty.never && d.ok 1 && a.ok 1
  | .vexp c d a | .vlog c d a => c.ok 8 (fun t => t.isF && t != .f64) Ty.never Ty.never && d.ok 1 && a.ok 1
  | .vrcp c d a | .vrsqrt c d a => c.ok 5 Ty.isF Ty.never Ty.never && d.ok c.ty.regs && a.ok c.ty.regs
  | .vsqrt c d a => c.ok 10 Ty.isF Ty.isF Ty.never && d.ok c.ty.regs && a.ok c.ty.regs
  | .vtanh c d a | .vsigm c d a =>
    c.ok 10 (fun t => t.isF && t != .f64) Ty.never Ty.never && d.ok 1 && a.ok 1
  | .vorient2 w => w.ok .orient2
  | .vorient3 w => w.ok .orient3
  | .vincirc w => w.ok .incirc
  | .vinsph w => w.ok .insph
  | .vsegx w => w.ok .segx
  | .predicateComplete => true
  | .vaccrd c d b => c.ok 4 Ty.column Ty.never Ty.never && d.ok 1 && b.ok 1
  | .vaccwr c a b => c.h.lat == 0 && c.ok 0 Ty.column Ty.never Ty.never && a.ok 1 && b.ok 1
  | .vtoix c a | .vtol c a | .vtos c a =>
    c.h.lat == 0 && c.ok 0 (· == .u32) Ty.never Ty.never && a.ok 1
  | .emsave h d _ => h.ok .v 1 && decide (d.toNat ≤ 5)
  | .emrest h a | .emcomb h _ a =>
    h.ok .v 1 && (match a with | .mk n => decide (n.toNat ≤ 5) | _ => true)
  | .vspill _ _ => true
  | .vfill _ d _ => d != .vcq
  | .mclaim _ slots tile | .mrel _ slots tile => claimOk slots tile
  | .mclaimRetry => true
  | .mzero _ _ q => q != 0
  | .mma w => w.qmask != 0
  | .mmaq w fn => w.qmask != 0 && quadOk w fn 0 && quadOk w fn 1 && quadOk w fn 2 && quadOk w fn 3
  | .mmas w _ _ => w.qmask != 0
  | .mmag w => w.qmask != 0 && !w.tb
  | .matrixGrant die => decide (die < 4)
  | .mnset _ rec => (match rec with | .level n => decide (n.toNat ≤ 5) | .header => true)
  | .mnest _ => true
  | .nestStep => true
  | .mdrain _ _ f => f.ok
  | .mpload _ w n1 => decide (w.toNat + n1.toNat + 1 ≤ 256)
  | .mpbind _ _ _ | .mtog _ => true
  | .productWordComplete => true
  | .boundOpcode _ e h d a b _ => h.tk.okFor e && boundFieldsOk e d a b
  | .microStep => true
  | .resultLands r _ | .tokenPush r _ => r.ok
  | .send r | .recv r | .rrs r | .collCopy r | .collWait r | .collLoop r | .collEndl r | .reduce r | .collEnd r =>
    r.ok
  | .collMessageArrive die _ | .abortReceive die _ | .abortAck die _ => decide (die < 4)
  | .collTimeout r | .switchFailure r => r.ok
  | .remoteResponse _ _ | .remoteTimeout _ | .hostCompletion _ _ | .hostCompletionTimeout _
  | .invalidationComplete _ => true
  | .portDown p _ => decide (p < 16)
  | .epnerFlitReceive p _ => decide (p < 16)
  | .pullDataArrive die _ reply =>
    decide (die < 4) && (match reply with | .data page => page.length == 16384 | _ => true)
  | .pullAttemptTimeout die _ | .pullGiveUp die _ => decide (die < 4)
  | .strandDispatch part _ r => r.ok && decide (part < 64)
  | .placementLoad | .strandEnd => true
  | .launchComplete part _ => decide (part < 64)
  | .blockSwitch | .blockTimeExpiry | .sliceExpiry | .preemptionRequest | .lullStop | .forcedSave => true
  | .strandResume r _ | .resourceRestore r _ => r.ok
  | .mailboxGo part r => r.ok && decide (part < 64)
  | .regionReread die | .grantWindowStart die => decide (die < 4)
  | .energyPeriodStart => true
  | .faultDeliver | .faultHandlerComplete => true
  | .faultTailWrite part _ => decide (part < 64)
  | .watchdog (.engine w) => w.ok
  | .watchdog (.channel cell ch) => decide (cell < 192) && decide (ch < 16)
  | .errorLogDrain log => (match log with | .die d => decide (d < 4) | .hub => true)
  | .patrolScrub _ => true
  | .cellTestComplete cell _ => decide (cell < 192)
  | .scrubComplete | .usageRecordEmit | .sealComplete => true
  | .create _ | .teardown | .mgmtInval | .logread | .mack | .mfetch | .attest | .fwstage | .fwcommit _ | .fabric _
  | .cap | .celltest | .telem | .mgmtCommandComplete => true
  | .barAccessError fn _ => decide (fn < 64)
  | .registerWrite fn _ _ _ _ => decide (fn < 64)
  | .coldReset b | .warmReset _ b => fuseMapOk b.fuses
  | .standbyPowerLoss => true
  | .thermalThrottle die | .thermalShutdown die => decide (die < 4)
  | .accessPerform r _ _ => r.ok
  | .remoteRequestArrive _ | .bputRowArrive _ => true
  | .abortGiveUp r _ | .inFabricGrant r _ _ => r.ok
  | .telemetryAlarm _ => true

end Sys2Proof
end

