-- ==== Sys2Proof/Decode.lean ====
section
/-! DEFINITION. Decoding a 64-bit instruction word (R25 to R52), total on any word and rejecting by name, and
after it the encoder.

A word is read in two movements. `parse` takes the fields of the opcode's format and turns codes into
constructors. `decode` makes the checks of R43 in their order: the fields are right exactly when the parsed
instruction is well formed and encodes to the same word, so that every reserved or unused bit is zero.
-/

namespace Sys2Proof

/-- Why a word is not an instruction (R43). UNBOUND depends on the bind table and is raised at execution. -/
inductive DecodeErr where
  | illegal
  | latBound
deriving DecidableEq, Repr

/-- Bits lo + n - 1 : lo of a word. -/
def field (w : Word) (lo n : Nat) : BitVec n := BitVec.ofNat n (w.toNat / 2 ^ lo)

def flag (w : Word) (i : Nat) : Bool := decide (w.toNat / 2 ^ i % 2 = 1)

/-- Fields with their widths, high bits first, laid side by side. -/
def pack (fs : List (Nat × Nat)) : Word := BitVec.ofNat 64 (fs.foldl (fun acc f => acc * 2 ^ f.1 + f.2) 0)

def Bool.bit (x : Bool) : Nat := if x then 1 else 0

/-! ## Codes of the enumerated fields -/

/-- A code table: the entry at position `c` is the constructor with code `c`. -/
def ofCode {α : Type} (tbl : List α) (c : Nat) : Option α := tbl[c]?

def codeOf {α : Type} [DecidableEq α] (tbl : List α) (x : α) : Nat := tbl.idxOf x

def tyCodes : List Ty :=
  [.i8, .u8, .i16, .u16, .i32, .u32, .i4, .u4, .f16, .bf16, .f32, .f64, .t8, .t6, .b]
def mkCodes : List Mk := [.em, .emCm, .emNotCm, .all]
def rmCodes : List Rm := [.lmode, .rz, .rd, .ru]
def engCodes : List Eng := [.c, .l, .v, .m, .s]
def icmpCodes : List ICmp := [.eq, .ne, .lt, .le, .ltu, .leu]
def shiftCodes : List ShiftKind := [.shl, .shr, .sra]
def scopeCodes : List Scope := [.cell, .die, .pkg, .dom]
def fenceCodes : List FenceKind := [.full, .acq, .rel]
def cpCodes : List Cp := [.normal, .bypass, .stream]
def szCodes : List Sz := [.e1, .e2, .e4, .e8]
def amoCodes : List AmoOp :=
  [.add, .min, .max, .minu, .maxu, .and, .or, .xor, .swap, .cas, .fadd, .bfadd2]
def addTyCodes : List AddTy := [.i32, .i64, .f32, .bf16]
def squeueCodes : List SQueue := [.l, .s, .v, .m]
def vcmpCodes : List VCmp := [.eq, .ne, .lt, .le, .gt, .ge, .un, .ord]
def vredCodes : List VRedFn := [.add, .min, .max, .and, .or, .xor]
def vanyCodes : List VAnyFn := [.any, .all, .cnt, .first]
def maskOpCodes : List MaskOp := [.and, .andn, .or, .xor]
def amCodes : List Am := [.acc, .over, .sub]
def spaceCodes : List Space := [.mem, .spm, .imem, .wcs]
/-- COND 1 to 6 of `brc` (R38). -/
def condCodes : List BCond := [.z, .nz, .lt, .ge, .gt, .le]

def AddTy.sz : AddTy → Nat
  | .i64 => 3
  | _ => 2

def Tag.code : Tag → Nat
  | .one e => codeOf engCodes e
  | .all => 5

def tagOf (c : Nat) : Option Tag := if c = 5 then some .all else (ofCode engCodes c).map .one

def VSrc.code : VSrc → Nat
  | .v n => n.toNat
  | .lq => 64
  | .lqKeep => 65
  | .vz => 68

def vsrcOf (c : BitVec 7) : Option VSrc :=
  if c.toNat < 64 then some (.v (BitVec.ofNat 6 c.toNat))
  else if c.toNat = 64 then some .lq
  else if c.toNat = 65 then some .lqKeep
  else if c.toNat = 68 then some .vz
  else none

def VDst.code : VDst → Nat
  | .v n => n.toNat
  | .sq => 66
  | .vcq => 67

def vdstOf (c : BitVec 7) : Option VDst :=
  if c.toNat < 64 then some (.v (BitVec.ofNat 6 c.toNat))
  else if c.toNat = 66 then some .sq
  else if c.toNat = 67 then some .vcq
  else none

def MaskSel.code : MaskSel → Nat
  | .mk n => n.toNat
  | .cm => 6
  | .ones => 7

def maskSelOf (c : BitVec 7) : Option MaskSel :=
  if c.toNat < 6 then some (.mk (BitVec.ofNat 3 c.toNat))
  else if c.toNat = 6 then some .cm
  else if c.toNat = 7 then some .ones
  else none

def Tk.code (t : Tk) : Nat :=
  8 * Bool.bit t.pbp + 4 * Bool.bit t.pbn + 2 * Bool.bit t.pap + Bool.bit t.pan

/-! ## Header and formats -/

def opOf (w : Word) : Nat := (field w 56 8).toNat
def latOf (w : Word) : BitVec 4 := field w 49 4
def tkOf (w : Word) : Tk := ⟨flag w 48, flag w 47, flag w 46, flag w 45⟩
def hdrOf (w : Word) : Hdr := ⟨latOf w, tkOf w⟩

/-- A C register field of an R- or I-format word: the low five of seven bits (R37). -/
def greg (w : Word) (lo : Nat) : BitVec 5 := field w lo 5
/-- An address register field. -/
def areg (w : Word) (lo : Nat) : BitVec 4 := field w lo 4

def rD (w : Word) : BitVec 7 := field w 38 7
def rA (w : Word) : BitVec 7 := field w 31 7
def rB (w : Word) : BitVec 7 := field w 24 7
def rC (w : Word) : BitVec 7 := field w 17 7
def rFn (w : Word) : Nat := (field w 12 5).toNat
def rMod (w : Word) : Nat := (field w 0 4).toNat
def iImm (w : Word) : BitVec 27 := field w 0 27
def mOff (w : Word) : BitVec 18 := field w 0 18
def mSz (w : Word) : Nat := (field w 22 3).toNat
def qImm (w : Word) : Nat := (field w 0 31).toNat

def vctlOf (w : Word) : Option VCtl := do
  let ty ← ofCode tyCodes (field w 8 4).toNat
  let mk ← ofCode mkCodes (field w 6 2).toNat
  let rm ← ofCode rmCodes (field w 4 2).toNat
  return ⟨hdrOf w, ty, mk, rm, flag w 0⟩

/-! ## Parsing by opcode -/

def cRrr (mk : BitVec 4 → BitVec 5 → BitVec 5 → BitVec 5 → Instr) (w : Word) : Option Instr :=
  some (mk (latOf w) (greg w 38) (greg w 31) (greg w 24))

def cRr (mk : BitVec 4 → BitVec 5 → BitVec 5 → Instr) (w : Word) : Option Instr :=
  some (mk (latOf w) (greg w 38) (greg w 31))

def cRi (mk : BitVec 4 → BitVec 5 → BitVec 5 → BitVec 27 → Instr) (w : Word) : Option Instr :=
  some (mk (latOf w) (greg w 38) (greg w 31) (iImm w))

def vDA (mk : VCtl → VDst → VSrc → Instr) (w : Word) : Option Instr := do
  return mk (← vctlOf w) (← vdstOf (rD w)) (← vsrcOf (rA w))

def vDAB (mk : VCtl → VDst → VSrc → VSrc → Instr) (w : Word) : Option Instr := do
  return mk (← vctlOf w) (← vdstOf (rD w)) (← vsrcOf (rA w)) (← vsrcOf (rB w))

def vDABC (mk : VCtl → VDst → VSrc → VSrc → VSrc → Instr) (w : Word) : Option Instr := do
  return mk (← vctlOf w) (← vdstOf (rD w)) (← vsrcOf (rA w)) (← vsrcOf (rB w)) (← vsrcOf (rC w))

def vA (mk : VCtl → VSrc → Instr) (w : Word) : Option Instr := do
  return mk (← vctlOf w) (← vsrcOf (rA w))

def vWide (mk : VCtl → Bool → VDst → VSrc → VSrc → Instr) (w : Word) : Option Instr := do
  return mk (← vctlOf w) (flag w 12) (← vdstOf (rD w)) (← vsrcOf (rA w)) (← vsrcOf (rB w))

def geoW (mk : GeoWord → Instr) (w : Word) : Option Instr := do
  let ty ← ofCode tyCodes (field w 8 4).toNat
  let lanes ← ofCode mkCodes (field w 6 2).toNat
  let d ← vdstOf (rD w)
  let ids := if flag w 1 then some (field w 24 6) else none
  if ty = .f32 then return mk ⟨tkOf w, false, lanes, flag w 2, ids, d, field w 31 6⟩
  else if ty = .f64 then return mk ⟨tkOf w, true, lanes, flag w 2, ids, d, field w 31 6⟩
  else none

def asetW (plain high queue : Hdr → BitVec 4 → BitVec 27 → Instr) (w : Word) : Option Instr :=
  match (rA w).toNat with
  | 0 => some (plain (hdrOf w) (areg w 38) (iImm w))
  | 1 => some (high (hdrOf w) (areg w 38) (iImm w))
  | 2 => some (queue (hdrOf w) (areg w 38) (iImm w))
  | _ => none

def cpyW (mk : Tk → CpyWord → Instr) (w : Word) : Option Instr := do
  let dsp ← ofCode spaceCodes (field w 26 2).toNat
  let ssp ← ofCode spaceCodes (field w 24 2).toNat
  let fl : Option (BitVec 4) := if flag w 28 then some (areg w 35) else none
  return mk (tkOf w) ⟨field w 42 2, fl, field w 31 4, flag w 30, flag w 29, dsp, ssp, field w 20 4, flag w 19,
    field w 0 16⟩

def mmW (w : Word) : Option MmWord := do
  let am ← ofCode amCodes (field w 18 2).toNat
  return ⟨tkOf w, field w 41 4, field w 36 5, field w 31 5, field w 22 4, flag w 21, flag w 20, am⟩

def claimW (mk : Tk → Option (BitVec 5 × BitVec 5) → Option (BitVec 4) → Instr) (w : Word) : Option Instr :=
  some (mk (tkOf w) (if flag w 0 then some (field w 36 5, field w 31 5) else none)
    (if flag w 1 then some (field w 41 4) else none))

def waitW (w : Word) : Option Instr :=
  match (field w 31 4).toNat with
  | 0 => some .waitTrig
  | 1 => some .waitCpy
  | 2 => some .waitColl
  | 3 => some (.waitFlag (greg w 40) (field w 0 4))
  | 4 => some (.waitTime (greg w 40))
  | _ => none

def pushW (w : Word) : Option Instr :=
  match (field w 31 4).toNat, (field w 0 4).toNat with
  | 0, 0 => some (.pushHset (greg w 35) (greg w 40) (flag w 6) (flag w 5) (flag w 4) (field w 7 16))
  | 0, 1 => some (.pushHfree (greg w 35) (field w 7 16))
  | 0, 2 => some (.pushHread (greg w 35) (field w 7 16))
  | 1, 0 => some (.pushGset (greg w 35))
  | 1, 1 => some (.pushGfree (greg w 35))
  | 1, 2 => some (.pushCrun (greg w 35))
  | _, _ => none

def sysW (w : Word) : Option Instr :=
  match (field w 0 16).toNat with
  | 1 => some (.sysInval (latOf w) (greg w 40) (greg w 35))
  | 2 => some (.sysFgive (latOf w) (greg w 40) (greg w 35))
  | 3 => some (.sysFtake (latOf w) (greg w 40) (greg w 35))
  | 4 => some (.sysMread (latOf w) (greg w 40) (greg w 35))
  | _ => none

def brcW (w : Word) : Option Instr := do
  let c ← ofCode condCodes ((field w 41 4).toNat - 1)
  if (field w 41 4).toNat = 0 then none
  else
    let hint ← (match flag w 40, flag w 39 with
      | false, false => some Lean.none
      | true, true => some Lean.taken
      | true, false => some Lean.notTaken
      | false, true => none)
    return .brc c hint (greg w 34) (field w 0 32)

def elemOrRow (sz : Nat) : Option (Option Sz) :=
  if sz = 4 then some none else (ofCode szCodes sz).map some

def ldqW (mk : Tk → Option (BitVec 4) → BitVec 4 → BitVec 18 → Instr) (w : Word) : Option Instr :=
  if mSz w = 4 then some (mk (tkOf w) none (areg w 29) (mOff w))
  else if mSz w = 7 then some (mk (tkOf w) (some (field w 25 4)) (areg w 29) (mOff w))
  else none

def stmqW (w : Word) : Option Instr := do
  let cp ← ofCode cpCodes (field w 20 2).toNat
  match (field w 34 2).toNat with
  | 0 => return .stmq (tkOf w) (← elemOrRow (mSz w)) (field w 41 4) cp (flag w 18) (areg w 29) (mOff w)
  | 1 =>
    if mSz w = 2 then return .stmqSc (tkOf w) false (field w 41 4) cp (flag w 18) (areg w 29) (mOff w)
    else if mSz w = 3 then return .stmqSc (tkOf w) true (field w 41 4) cp (flag w 18) (areg w 29) (mOff w)
    else none
  | 2 =>
    let ty ← ofCode addTyCodes (field w 36 2).toNat
    return .stmqAdd (tkOf w) ty (field w 41 4) cp (flag w 18) (areg w 29) (mOff w)
  | _ => none

def drainFnOf (w : Word) : Option DrainFn := do
  let ty ← ofCode tyCodes (field w 0 4).toNat
  return ⟨flag w 14, flag w 13, field w 5 8, flag w 4, ty⟩

/-- The words of each assigned base opcode (R52). -/
def opTable : List (Nat × (Word → Option Instr)) :=
  [ (0x00, fun w => (tagOf (field w 53 3).toNat).map fun t => .nop t (tkOf w)),
    (0x01, cRrr .add), (0x02, cRrr .sub), (0x03, cRrr .mul), (0x04, cRrr .mulh), (0x05, cRrr .mulhu),
    (0x06, cRrr .div), (0x07, cRrr .divu), (0x08, cRrr .rem), (0x09, cRrr .remu),
    (0x0A, cRrr .and), (0x0B, cRrr .or), (0x0C, cRrr .xor), (0x0D, cRrr .shl), (0x0E, cRrr .shr),
    (0x0F, cRrr .sra), (0x10, cRrr .min), (0x11, cRrr .max), (0x12, cRrr .minu), (0x13, cRrr .maxu),
    (0x14, cRr .clz), (0x15, cRr .popc),
    (0x16, fun w => some (.sel (latOf w) (greg w 38) (greg w 31) (greg w 24) (greg w 17))),
    (0x17, fun w => (ofCode icmpCodes (rFn w)).map fun f => .cmp (latOf w) f (greg w 38) (greg w 31) (greg w 24)),
    (0x18, cRi .addi), (0x19, cRi .andi), (0x1A, cRi .ori), (0x1B, cRi .xori),
    (0x1C, fun w => (ofCode shiftCodes (field w 27 4).toNat).map fun k =>
      .shi (latOf w) k (greg w 38) (greg w 31) (field w 0 6)),
    (0x1D, fun w => some (.li (latOf w) (greg w 38) (iImm w))),
    (0x1E, cRi .lih),
    (0x1F, fun w => (ofCode icmpCodes (field w 27 4).toNat).map fun f =>
      .cmpi (latOf w) f (greg w 38) (greg w 31) (iImm w)) ] ++
  [ (0x20, fun w => some (.br (field w 0 32))),
    (0x21, brcW),
    (0x22, fun w => some (.call (field w 0 32))),
    (0x23, fun _ => some .ret),
    (0x24, fun w => some (.jr (greg w 34))),
    (0x25, fun w => some (.loop (greg w 34) (field w 0 32))),
    (0x26, fun w => some (.loopr (field w 0 32))),
    (0x27, fun w => some (.ploop (field w 41 3) (field w 34 2) (greg w 27) (field w 0 6))),
    (0x28, waitW), (0x29, fun _ => some .yield), (0x2A, fun _ => some .trig), (0x2B, fun _ => some .exit),
    (0x2C, fun w => some (.trap (field w 0 16))),
    (0x2D, fun w => do
      return .fence (← ofCode scopeCodes (field w 31 4).toNat) (← ofCode fenceCodes (field w 16 2).toNat)
        (field w 0 16)),
    (0x2E, fun _ => some .sbar),
    (0x2F, fun w => some (.ovl (field w 0 8))),
    (0x30, pushW),
    (0x31, fun w => match (field w 31 4).toNat with
      | 0 => some (.popCpy (latOf w) (greg w 40))
      | 1 => some (.popColl (latOf w) (greg w 40))
      | _ => none),
    (0x32, fun w => some (.mfst (latOf w) (greg w 40) (field w 0 10))),
    (0x33, fun w => some (.mtst (field w 0 10) (greg w 35))),
    (0x34, fun w => (ofCode squeueCodes (field w 31 4).toNat).map fun q => .qsend q (greg w 35)),
    (0x35, fun w => some (.qrecv (latOf w) (greg w 40))),
    (0x36, fun w => some (.launch (latOf w) (greg w 40) (greg w 35))),
    (0x37, fun w => some (.bind (latOf w) (greg w 40) (greg w 35) (field w 0 6))),
    (0x38, fun w => do
      return .ld (latOf w) (← ofCode szCodes (mSz w)) (flag w 25) (field w 41 4)
        (← ofCode cpCodes (field w 20 2).toNat) (flag w 19) (greg w 34) (greg w 29) (mOff w)),
    (0x39, fun w => do
      return .st (← ofCode szCodes (mSz w)) (field w 41 4) (← ofCode cpCodes (field w 20 2).toNat) (flag w 18)
        (greg w 34) (greg w 29) (mOff w)),
    (0x3A, fun w => do
      return .amo (latOf w) (← ofCode amoCodes (field w 25 4).toNat) (mSz w == 3) (field w 41 4) (flag w 19)
        (flag w 18) (greg w 34) (greg w 29) (mOff w)),
    (0x3B, fun w => some (.pfl (mSz w == 6) (greg w 29) (mOff w))),
    (0x3C, sysW) ] ++
  [ (0x40, fun w => some (.aadd (hdrOf w) (areg w 38) (areg w 31) (iImm w))),
    (0x41, asetW .aset .asetH .asetQ),
    (0x42, fun w => some (.sdset (hdrOf w) (field w 31 4) (field w 0 2) (areg w 40)
      (if flag w 2 then some (areg w 35) else none))),
    (0x43, ldqW .ldq),
    (0x44, fun w => (ofCode szCodes (mSz w)).map fun z => .ldqs (tkOf w) z (field w 25 4) (areg w 29) (mOff w)),
    (0x45, fun w => (ofCode szCodes (mSz w)).map fun z => .ldg (tkOf w) z (areg w 29) (mOff w)),
    (0x46, fun w => (ofCode szCodes (mSz w)).map fun z => .ldpk (tkOf w) z (areg w 29) (mOff w)),
    (0x47, fun w => do
      return .ldmq (tkOf w) (← elemOrRow (mSz w)) (field w 41 4) (← ofCode cpCodes (field w 20 2).toNat)
        (flag w 19) (areg w 29) (mOff w)),
    (0x48, fun w => some (.omfill (tkOf w) (field w 34 5) (field w 25 4) (areg w 29) (mOff w))),
    (0x49, cpyW .cpy), (0x4A, cpyW .cpyh),
    (0x4B, fun w => some (.rps (tkOf w) (flag w 39) (flag w 40) (mSz w == 3) (areg w 34) (areg w 29) (mOff w))),
    (0x4C, fun w => match mSz w with
      | 3 => some (.pf (tkOf w) .line (areg w 29) (mOff w))
      | 4 => some (.pf (tkOf w) .row (areg w 29) (mOff w))
      | 6 => some (.pf (tkOf w) .xlat (areg w 29) (mOff w))
      | _ => none),
    (0x58, fun w => some (.badd (hdrOf w) (areg w 38) (areg w 31) (iImm w))),
    (0x59, asetW .bset .bsetH .bsetQ),
    (0x5A, ldqW .stq),
    (0x5B, fun w => (ofCode szCodes (mSz w)).map fun z => .stqs (tkOf w) z (field w 25 4) (areg w 29) (mOff w)),
    (0x5C, fun w => (ofCode szCodes (mSz w)).map fun z => .sts (tkOf w) z (areg w 29) (mOff w)),
    (0x5D, fun w => (ofCode addTyCodes (field w 36 2).toNat).map fun t => .stsa (tkOf w) t (areg w 29) (mOff w)),
    (0x5E, fun w => (ofCode szCodes (mSz w)).map fun z => .stpk (tkOf w) z (field w 34 7) (areg w 29) (mOff w)),
    (0x5F, stmqW),
    (0x60, fun w => some (.bput (tkOf w) (areg w 29) (mOff w))) ] ++
  [ (0x68, vDA .vmov),
    (0x69, fun w => do
      return .vmovi (hdrOf w) (← ofCode tyCodes (field w 27 4).toNat) (← vdstOf (rD w)) (iImm w)),
    (0x6A, fun w => match rFn w with
      | 0 => vDAB .vbcast w
      | 1 => do return .vbcastQ (← vctlOf w) (← vdstOf (rD w))
      | _ => none),
    (0x6B, fun w => do
      return .vidx (hdrOf w) (← ofCode tyCodes (field w 27 4).toNat) (← vdstOf (rD w)) (rA w) (iImm w)),
    (0x6C, vDAB .vadd), (0x6D, vDAB .vsub), (0x6E, vDAB .vmul), (0x6F, vDABC .vfma), (0x70, vDABC .vfms),
    (0x71, vDAB .vmin), (0x72, vDAB .vmax), (0x73, vDA .vabs), (0x74, vDA .vneg), (0x75, vDAB .vadds),
    (0x76, vDAB .vsubs), (0x77, vDAB .vmulh), (0x78, vDAB .vand), (0x79, vDAB .vor), (0x7A, vDAB .vxor),
    (0x7B, vDAB .vshl), (0x7C, vDAB .vshr), (0x7D, vDAB .vsra), (0x7E, vWide .vwmul), (0x7F, vWide .vwadd),
    (0x80, fun w => do return .vnarrow (← vctlOf w) (flag w 12) (← vdstOf (rD w)) (← vsrcOf (rA w))),
    (0x81, fun w => do
      return .vcvt (← vctlOf w) (← ofCode tyCodes (field w 12 4).toNat) (← vdstOf (rD w)) (← vsrcOf (rA w))),
    (0x82, fun w => do
      return .vcmp (← vctlOf w) (← ofCode vcmpCodes (rFn w)) (flag w 1) (← vsrcOf (rA w)) (← vsrcOf (rB w))),
    (0x83, fun w => do
      return .vclass (← vctlOf w) (field w 12 5) (flag w 1) (flag w 2) (← vsrcOf (rA w))),
    (0x84, vDAB .vsel), (0x85, vDAB .vperm), (0x86, vDABC .vshuf), (0x87, vDAB .vrot), (0x88, vDABC .vslide),
    (0x89, fun w => do
      return .vred (← vctlOf w) (← ofCode vredCodes (rFn w)) (← vdstOf (rD w)) (← vsrcOf (rA w))),
    (0x8A, fun w => do return .vany (← vctlOf w) (← ofCode vanyCodes (rFn w)) (← vdstOf (rD w))),
    (0x8B, vDA .vcompress), (0x8C, vDAB .vexpand), (0x8D, vA .vconf) ] ++
  [ (0x8E, vDA .vexp2), (0x8F, vDA .vlog2), (0x90, vDA .vexp), (0x91, vDA .vlog), (0x92, vDA .vrcp),
    (0x93, vDA .vrsqrt), (0x94, vDA .vsqrt), (0x95, vDA .vtanh), (0x96, vDA .vsigm),
    (0x97, geoW .vorient2), (0x98, geoW .vorient3), (0x99, geoW .vincirc), (0x9A, geoW .vinsph),
    (0x9B, geoW .vsegx),
    (0x9C, fun w => do return .vaccrd (← vctlOf w) (← vdstOf (rD w)) (← vsrcOf (rB w))),
    (0x9D, fun w => do return .vaccwr (← vctlOf w) (← vsrcOf (rA w)) (← vsrcOf (rB w))),
    (0x9E, vA .vtoix), (0x9F, vA .vtol), (0xA0, vA .vtos),
    (0xA1, fun w => some (.emsave (hdrOf w) (field w 38 3) (flag w 31))),
    (0xA2, fun w => (maskSelOf (rA w)).map fun m => .emrest (hdrOf w) m),
    (0xA3, fun w => do return .emcomb (hdrOf w) (← ofCode maskOpCodes (rFn w)) (← maskSelOf (rA w))),
    (0xA4, fun w => some (.vspill (tkOf w) (field w 31 6))),
    (0xA5, fun w => (vdstOf (rD w)).map fun d => .vfill (tkOf w) d (field w 31 6)) ] ++
  [ (0xA8, claimW .mclaim), (0xA9, claimW .mrel),
    (0xAA, fun w => some (.mzero (tkOf w) (field w 41 4) (field w 22 4))),
    (0xAB, fun w => (mmW w).map .mma),
    (0xAC, fun w => (mmW w).map fun m => .mmaq m (field w 0 16)),
    (0xAD, fun w => (mmW w).map fun m => .mmas m (field w 26 4) (field w 0 16)),
    (0xAE, fun w => (mmW w).map .mmag),
    (0xAF, fun w => match (field w 31 4).toNat with
      | 6 => some (.mnset (tkOf w) .header)
      | _ => some (.mnset (tkOf w) (.level (field w 31 3)))),
    (0xB0, fun w => some (.mnest (tkOf w))),
    (0xB1, fun w => (drainFnOf w).map fun f => .mdrain (tkOf w) (field w 41 4) f),
    (0xB2, fun w => some (.mpload (tkOf w) (field w 0 8) (field w 8 8))),
    (0xB3, fun w => some (.mpbind (tkOf w) (field w 26 4) (flag w 21))),
    (0xB4, fun w => some (.mtog (tkOf w))) ]

/-- A bindable opcode's word (format X of R37). -/
def parseBound (w : Word) : Option Instr :=
  (ofCode engCodes (field w 53 3).toNat).map fun e =>
    .boundOpcode (field w 56 6) e (hdrOf w) (field w 38 7) (field w 31 7) (field w 24 7) (field w 0 24)

def parse (w : Word) : Option Instr :=
  if 0xC0 ≤ opOf w then parseBound w
  else match opTable.lookup (opOf w) with
    | some p => p w
    | none => none

/-! ## The encoder -/

/-- The home engine of a base opcode (R52): none for `nop`, which has none. -/
def homeOf (op : Nat) : Option Tag :=
  if op = 0 then none
  else if op ≤ 0x1F then some (.one .c)
  else if op ≤ 0x27 then some .all
  else if op = 0x2B ∨ op = 0x2E ∨ op = 0x2F then some .all
  else if op ≤ 0x3F then some (.one .c)
  else if op ≤ 0x57 then some (.one .l)
  else if op ≤ 0x67 then some (.one .s)
  else if op ≤ 0xA7 then some (.one .v)
  else some (.one .m)

/-- OP, TAG, LAT and TK (R25). -/
def head (op tag lat tk : Nat) : List (Nat × Nat) := [(8, op), (3, tag), (4, lat), (4, tk)]

/-- R format (R37). -/
def encR (op tag lat tk d a b c fn ty mk rm md : Nat) : Word :=
  pack (head op tag lat tk ++
    [(7, d), (7, a), (7, b), (7, c), (5, fn), (4, ty), (2, mk), (2, rm), (4, md)])

/-- I format. -/
def encI (op tag lat tk d a ty imm : Nat) : Word :=
  pack (head op tag lat tk ++ [(7, d), (7, a), (4, ty), (27, imm)])

/-- M format. -/
def encM (op tag lat tk oc d base sd sz cp aq rl off : Nat) : Word :=
  pack (head op tag lat tk ++
    [(4, oc), (7, d), (5, base), (4, sd), (3, sz), (2, cp), (1, aq), (1, rl), (18, off)])

/-- B format. -/
def encB (op cond lv lt g off : Nat) : Word :=
  pack (head op 5 0 0 ++ [(4, cond), (1, lv), (1, lt), (5, g), (2, 0), (32, off)])

/-- Q format. -/
def encQ (op tag lat tk ga gb qid imm : Nat) : Word :=
  pack (head op tag lat tk ++ [(5, ga), (5, gb), (4, qid), (31, imm)])

/-- N format. -/
def encN (op tk acc oma omb pat qmask ta tb am fn : Nat) : Word :=
  pack (head op 3 0 tk ++
    [(4, acc), (5, oma), (5, omb), (5, pat), (4, qmask), (1, ta), (1, tb), (2, am), (18, fn)])

def encC (op : Nat) (lat : BitVec 4) (d a b : BitVec 5) (c fn : Nat := 0) : Word :=
  encR op 0 lat.toNat 0 d.toNat a.toNat b.toNat c fn 0 0 0 0

def encCi (op : Nat) (lat : BitVec 4) (d a : BitVec 5) (ty imm : Nat) : Word :=
  encI op 0 lat.toNat 0 d.toNat a.toNat ty imm

/-- An R-format V word; MOD bits 3:1 are given, bit 0 is saturation. -/
def encV (op : Nat) (c : VCtl) (d a b x fn : Nat) (md : Nat := 0) : Word :=
  encR op 2 c.h.lat.toNat c.h.tk.code d a b x fn (codeOf tyCodes c.ty) (codeOf mkCodes c.lanes)
    (codeOf rmCodes c.rm) (2 * md + Bool.bit c.sat)

def encGeo (op : Nat) (w : GeoWord) : Word :=
  encR op 2 15 w.tk.code w.d.code w.a.toNat (match w.ids with | some b => b.toNat | none => 0) 0 0
    (if w.f64 then 11 else 10) (codeOf mkCodes w.lanes) 0
    (4 * Bool.bit w.nf + 2 * Bool.bit w.ids.isSome)

def encMask (op : Nat) (h : Hdr) (d a fn : Nat) : Word :=
  encR op 2 h.lat.toNat h.tk.code d a 0 0 fn 0 0 0 0

def encA (op tag : Nat) (h : Hdr) (d : BitVec 4) (a : Nat) (imm : BitVec 27) : Word :=
  encI op tag h.lat.toNat h.tk.code d.toNat a 0 imm.toNat

/-- A scratchpad or memory word of L (TAG 1) or S (TAG 4). -/
def encLS (op tag : Nat) (tk : Tk) (d : Nat) (base : BitVec 4) (sd sz : Nat) (off : BitVec 18)
    (oc cp aq rl : Nat := 0) : Word :=
  encM op tag 0 tk.code oc d base.toNat sd sz cp aq rl off.toNat

def szOrRow (e : Option Sz) : Nat :=
  match e with
  | some z => codeOf szCodes z
  | none => 4

def encCpy (op : Nat) (tk : Tk) (w : CpyWord) : Word :=
  pack (head op 1 0 tk.code ++
    [(5, 4 * w.ga.toNat), (5, match w.flag with | some f => f.toNat | none => 0), (4, w.ch.toNat),
     (1, Bool.bit w.tok), (1, Bool.bit w.out), (1, Bool.bit w.flag.isSome), (2, codeOf spaceCodes w.dsp),
     (2, codeOf spaceCodes w.ssp), (4, w.oc.toNat), (1, Bool.bit w.dim2), (3, 0), (16, w.tag.toNat)])

def encMm (op : Nat) (w : MmWord) (pat fn : Nat) : Word :=
  encN op w.tk.code w.acc.toNat w.oma.toNat w.omb.toNat pat w.qmask.toNat (Bool.bit w.ta) (Bool.bit w.tb)
    (codeOf amCodes w.am) fn

def encClaim (op : Nat) (tk : Tk) (slots : Option (BitVec 5 × BitVec 5)) (tile : Option (BitVec 4)) : Word :=
  encN op tk.code (match tile with | some t => t.toNat | none => 0)
    (match slots with | some (lo, _) => lo.toNat | none => 0)
    (match slots with | some (_, hi) => hi.toNat | none => 0) 0 0 0 0 0
    (2 * Bool.bit tile.isSome + Bool.bit slots.isSome)

def drainCode (f : DrainFn) : Nat :=
  16384 * Bool.bit f.relu + 8192 * Bool.bit f.clr + 32 * f.scale.toNat + 16 * Bool.bit f.int + codeOf tyCodes f.dty

/-- The word of an instruction; none for an event, which no word encodes. -/
def encode : Instr → Option Word
  | .nop t tk => some (encR 0x00 t.code 0 tk.code 0 0 0 0 0 0 0 0 0)
  | .add lat d a b => some (encC 0x01 lat d a b)
  | .sub lat d a b => some (encC 0x02 lat d a b)
  | .mul lat d a b => some (encC 0x03 lat d a b)
  | .mulh lat d a b => some (encC 0x04 lat d a b)
  | .mulhu lat d a b => some (encC 0x05 lat d a b)
  | .div lat d a b => some (encC 0x06 lat d a b)
  | .divu lat d a b => some (encC 0x07 lat d a b)
  | .rem lat d a b => some (encC 0x08 lat d a b)
  | .remu lat d a b => some (encC 0x09 lat d a b)
  | .and lat d a b => some (encC 0x0A lat d a b)
  | .or lat d a b => some (encC 0x0B lat d a b)
  | .xor lat d a b => some (encC 0x0C lat d a b)
  | .shl lat d a b => some (encC 0x0D lat d a b)
  | .shr lat d a b => some (encC 0x0E lat d a b)
  | .sra lat d a b => some (encC 0x0F lat d a b)
  | .min lat d a b => some (encC 0x10 lat d a b)
  | .max lat d a b => some (encC 0x11 lat d a b)
  | .minu lat d a b => some (encC 0x12 lat d a b)
  | .maxu lat d a b => some (encC 0x13 lat d a b)
  | .clz lat d a => some (encC 0x14 lat d a 0)
  | .popc lat d a => some (encC 0x15 lat d a 0)
  | .sel lat d a b c => some (encC 0x16 lat d a b c.toNat)
  | .cmp lat fn d a b => some (encC 0x17 lat d a b 0 (codeOf icmpCodes fn))
  | .addi lat d a imm => some (encCi 0x18 lat d a 0 imm.toNat)
  | .andi lat d a imm => some (encCi 0x19 lat d a 0 imm.toNat)
  | .ori lat d a imm => some (encCi 0x1A lat d a 0 imm.toNat)
  | .xori lat d a imm => some (encCi 0x1B lat d a 0 imm.toNat)
  | .shi lat k d a n => some (encCi 0x1C lat d a (codeOf shiftCodes k) n.toNat)
  | .li lat d imm => some (encCi 0x1D lat d 0 0 imm.toNat)
  | .lih lat d a imm => some (encCi 0x1E lat d a 0 imm.toNat)
  | .cmpi lat fn d a imm => some (encCi 0x1F lat d a (codeOf icmpCodes fn) imm.toNat)
  | .br off => some (encB 0x20 0 0 0 0 off.toNat)
  | .brc c hint g off => some (encB 0x21 (codeOf condCodes c + 1) (Bool.bit (hint != .none))
      (Bool.bit (hint == .taken)) g.toNat off.toNat)
  | .call off => some (encB 0x22 0 0 0 0 off.toNat)
  | .ret => some (encB 0x23 0 0 0 0 0)
  | .jr g => some (encB 0x24 0 0 0 g.toNat 0)
  | .loop g off => some (encB 0x25 0 0 0 g.toNat off.toNat)
  | .loopr off => some (encB 0x26 0 0 0 0 off.toNat)
  | .ploop stages words g len => some (encB 0x27 stages.toNat 0 0 words.toNat (g.toNat * 2 ^ 27 + len.toNat))
  | .waitTrig => some (encQ 0x28 0 0 0 0 0 0 0)
  | .waitCpy => some (encQ 0x28 0 0 0 0 0 1 0)
  | .waitColl => some (encQ 0x28 0 0 0 0 0 2 0)
  | .waitFlag ga oc => some (encQ 0x28 0 0 0 ga.toNat 0 3 oc.toNat)
  | .waitTime ga => some (encQ 0x28 0 0 0 ga.toNat 0 4 0)
  | .yield => some (encQ 0x29 0 0 0 0 0 0 0)
  | .trig => some (encQ 0x2A 0 0 0 0 0 0 0)
  | .exit => some (encQ 0x2B 5 0 0 0 0 0 0)
  | .trap imm => some (encQ 0x2C 0 0 0 0 0 0 imm.toNat)
  | .fence sc k mask => some (encQ 0x2D 0 0 0 0 0 (codeOf scopeCodes sc) (codeOf fenceCodes k * 2 ^ 16 + mask.toNat))
  | .sbar => some (encQ 0x2E 5 0 0 0 0 0 0)
  | .ovl n => some (encQ 0x2F 5 0 0 0 0 0 n.toNat)
  | .pushHset gb ga x w r tag => some (encQ 0x30 0 0 0 ga.toNat gb.toNat 0
      (tag.toNat * 128 + 64 * Bool.bit x + 32 * Bool.bit w + 16 * Bool.bit r))
  | .pushHfree gb tag => some (encQ 0x30 0 0 0 0 gb.toNat 0 (tag.toNat * 128 + 1))
  | .pushHread gb tag => some (encQ 0x30 0 0 0 0 gb.toNat 0 (tag.toNat * 128 + 2))
  | .pushGset gb => some (encQ 0x30 0 0 0 0 gb.toNat 1 0)
  | .pushGfree gb => some (encQ 0x30 0 0 0 0 gb.toNat 1 1)
  | .pushCrun gb => some (encQ 0x30 0 0 0 0 gb.toNat 1 2)
  | .popCpy lat ga => some (encQ 0x31 0 lat.toNat 0 ga.toNat 0 0 0)
  | .popColl lat ga => some (encQ 0x31 0 lat.toNat 0 ga.toNat 0 1 0)
  | .mfst lat ga num => some (encQ 0x32 0 lat.toNat 0 ga.toNat 0 0 num.toNat)
  | .mtst num gb => some (encQ 0x33 0 0 0 0 gb.toNat 0 num.toNat)
  | .qsend q gb => some (encQ 0x34 0 0 0 0 gb.toNat (codeOf squeueCodes q) 0)
  | .qrecv lat ga => some (encQ 0x35 0 lat.toNat 0 ga.toNat 0 0 0)
  | .launch lat ga gb => some (encQ 0x36 0 lat.toNat 0 ga.toNat gb.toNat 0 0)
  | .bind lat ga gb n => some (encQ 0x37 0 lat.toNat 0 ga.toNat gb.toNat 0 n.toNat)
  | .sysInval lat ga gb => some (encQ 0x3C 0 lat.toNat 0 ga.toNat gb.toNat 0 1)
  | .sysFgive lat ga gb => some (encQ 0x3C 0 lat.toNat 0 ga.toNat gb.toNat 0 2)
  | .sysFtake lat ga gb => some (encQ 0x3C 0 lat.toNat 0 ga.toNat gb.toNat 0 3)
  | .sysMread lat ga gb => some (encQ 0x3C 0 lat.toNat 0 ga.toNat gb.toNat 0 4)
  | .ld lat sz sx oc cp aq d base off => some (encM 0x38 0 lat.toNat 0 oc.toNat d.toNat base.toNat (Bool.bit sx)
      (codeOf szCodes sz) (codeOf cpCodes cp) (Bool.bit aq) 0 off.toNat)
  | .st sz oc cp rl d base off => some (encM 0x39 0 0 0 oc.toNat d.toNat base.toNat 0 (codeOf szCodes sz)
      (codeOf cpCodes cp) 0 (Bool.bit rl) off.toNat)
  | .amo lat op dbl oc aq rl d base off => some (encM 0x3A 0 lat.toNat 0 oc.toNat d.toNat base.toNat
      (codeOf amoCodes op) (2 + Bool.bit dbl) 0 (Bool.bit aq) (Bool.bit rl) off.toNat)
  | .pfl xlat base off => some (encM 0x3B 0 0 0 0 0 base.toNat 0 (if xlat then 6 else 3) 0 0 0 off.toNat)
  | .aadd h d a imm => some (encA 0x40 1 h d a.toNat imm)
  | .aset h d imm => some (encA 0x41 1 h d 0 imm)
  | .asetH h d imm => some (encA 0x41 1 h d 1 imm)
  | .asetQ h d imm => some (encA 0x41 1 h d 2 imm)
  | .sdset h sd w a second => some (encQ 0x42 1 h.lat.toNat h.tk.code a.toNat
      (match second with | some x => x.toNat | none => 0) sd.toNat (4 * Bool.bit second.isSome + w.toNat))
  | .ldq tk t6 base off => some (match t6 with
      | some sd => encLS 0x43 1 tk 0 base sd.toNat 7 off
      | none => encLS 0x43 1 tk 0 base 0 4 off)
  | .ldqs tk sz sd base off => some (encLS 0x44 1 tk 0 base sd.toNat (codeOf szCodes sz) off)
  | .ldg tk sz base off => some (encLS 0x45 1 tk 0 base 0 (codeOf szCodes sz) off)
  | .ldpk tk sz base off => some (encLS 0x46 1 tk 0 base 0 (codeOf szCodes sz) off)
  | .ldmq tk e oc cp aq base off => some (encLS 0x47 1 tk 0 base 0 (szOrRow e) off oc.toNat (codeOf cpCodes cp)
      (Bool.bit aq) 0)
  | .omfill tk d sd base off => some (encLS 0x48 1 tk d.toNat base sd.toNat 5 off)
  | .cpy tk w => some (encCpy 0x49 tk w)
  | .cpyh tk w => some (encCpy 0x4A tk w)
  | .rps tk toC toM dbl cnt base off => some (encLS 0x4B 1 tk (64 * Bool.bit toM + 32 * Bool.bit toC + cnt.toNat)
      base 0 (2 + Bool.bit dbl) off)
  | .pf tk f base off => some (encLS 0x4C 1 tk 0 base 0 (match f with | .line => 3 | .row => 4 | .xlat => 6) off)
  | .badd h d a imm => some (encA 0x58 4 h d a.toNat imm)
  | .bset h d imm => some (encA 0x59 4 h d 0 imm)
  | .bsetH h d imm => some (encA 0x59 4 h d 1 imm)
  | .bsetQ h d imm => some (encA 0x59 4 h d 2 imm)
  | .stq tk t6 base off => some (match t6 with
      | some sd => encLS 0x5A 4 tk 0 base sd.toNat 7 off
      | none => encLS 0x5A 4 tk 0 base 0 4 off)
  | .stqs tk sz sd base off => some (encLS 0x5B 4 tk 0 base sd.toNat (codeOf szCodes sz) off)
  | .sts tk sz base off => some (encLS 0x5C 4 tk 0 base 0 (codeOf szCodes sz) off)
  | .stsa tk ty base off => some (encLS 0x5D 4 tk (4 * codeOf addTyCodes ty) base 0 ty.sz off)
  | .stpk tk sz reserve base off => some (encLS 0x5E 4 tk reserve.toNat base 0 (codeOf szCodes sz) off)
  | .stmq tk e oc cp rl base off => some (encLS 0x5F 4 tk 0 base 0 (szOrRow e) off oc.toNat (codeOf cpCodes cp) 0
      (Bool.bit rl))
  | .stmqSc tk dbl oc cp rl base off => some (encLS 0x5F 4 tk 1 base 0 (2 + Bool.bit dbl) off oc.toNat
      (codeOf cpCodes cp) 0 (Bool.bit rl))
  | .stmqAdd tk ty oc cp rl base off => some (encLS 0x5F 4 tk (4 * codeOf addTyCodes ty + 2) base 0 ty.sz off
      oc.toNat (codeOf cpCodes cp) 0 (Bool.bit rl))
  | .bput tk base off => some (encLS 0x60 4 tk 0 base 0 4 off)
  | .vmov c d a => some (encV 0x68 c d.code a.code 0 0 0)
  | .vmovi h ty d imm => some (encI 0x69 2 h.lat.toNat h.tk.code d.code 0 (codeOf tyCodes ty) imm.toNat)
  | .vidx h ty d s imm => some (encI 0x6B 2 h.lat.toNat h.tk.code d.code s.toNat (codeOf tyCodes ty) imm.toNat)
  | .vbcast c d a b => some (encV 0x6A c d.code a.code b.code 0 0)
  | .vbcastQ c d => some (encV 0x6A c d.code 0 0 0 1)
  | .vadd c d a b => some (encV 0x6C c d.code a.code b.code 0 0)
  | .vsub c d a b => some (encV 0x6D c d.code a.code b.code 0 0)
  | .vmul c d a b => some (encV 0x6E c d.code a.code b.code 0 0)
  | .vfma c d a b x => some (encV 0x6F c d.code a.code b.code x.code 0)
  | .vfms c d a b x => some (encV 0x70 c d.code a.code b.code x.code 0)
  | .vmin c d a b => some (encV 0x71 c d.code a.code b.code 0 0)
  | .vmax c d a b => some (encV 0x72 c d.code a.code b.code 0 0)
  | .vabs c d a => some (encV 0x73 c d.code a.code 0 0 0)
  | .vneg c d a => some (encV 0x74 c d.code a.code 0 0 0)
  | .vadds c d a b => some (encV 0x75 c d.code a.code b.code 0 0)
  | .vsubs c d a b => some (encV 0x76 c d.code a.code b.code 0 0)
  | .vmulh c d a b => some (encV 0x77 c d.code a.code b.code 0 0)
  | .vand c d a b => some (encV 0x78 c d.code a.code b.code 0 0)
  | .vor c d a b => some (encV 0x79 c d.code a.code b.code 0 0)
  | .vxor c d a b => some (encV 0x7A c d.code a.code b.code 0 0)
  | .vshl c d a b => some (encV 0x7B c d.code a.code b.code 0 0)
  | .vshr c d a b => some (encV 0x7C c d.code a.code b.code 0 0)
  | .vsra c d a b => some (encV 0x7D c d.code a.code b.code 0 0)
  | .vwmul c k4 d a b => some (encV 0x7E c d.code a.code b.code 0 (Bool.bit k4))
  | .vwadd c k4 d a b => some (encV 0x7F c d.code a.code b.code 0 (Bool.bit k4))
  | .vnarrow c k4 d a => some (encV 0x80 c d.code a.code 0 0 (Bool.bit k4))
  | .vcvt c dst d a => some (encV 0x81 c d.code a.code 0 0 (codeOf tyCodes dst))
  | .vcmp c fn andCm a b => some (encV 0x82 c 0 a.code b.code 0 (codeOf vcmpCodes fn) (Bool.bit andCm))
  | .vclass c cls neg pos a => some (encV 0x83 c 0 a.code 0 0 cls.toNat (Bool.bit neg + 2 * Bool.bit pos))
  | .vsel c d a b => some (encV 0x84 c d.code a.code b.code 0 0)
  | .vperm c d a x => some (encV 0x85 c d.code a.code x.code 0 0)
  | .vshuf c d a b x => some (encV 0x86 c d.code a.code b.code x.code 0)
  | .vrot c d a b => some (encV 0x87 c d.code a.code b.code 0 0)
  | .vslide c d a b x => some (encV 0x88 c d.code a.code b.code x.code 0)
  | .vred c fn d a => some (encV 0x89 c d.code a.code 0 0 (codeOf vredCodes fn))
  | .vany c fn d => some (encV 0x8A c d.code 0 0 0 (codeOf vanyCodes fn))
  | .vcompress c d a => some (encV 0x8B c d.code a.code 0 0 0)
  | .vexpand c d a b => some (encV 0x8C c d.code a.code b.code 0 0)
  | .vconf c a => some (encV 0x8D c 0 a.code 0 0 0)
  | .vexp2 c d a => some (encV 0x8E c d.code a.code 0 0 0)
  | .vlog2 c d a => some (encV 0x8F c d.code a.code 0 0 0)
  | .vexp c d a => some (encV 0x90 c d.code a.code 0 0 0)
  | .vlog c d a => some (encV 0x91 c d.code a.code 0 0 0)
  | .vrcp c d a => some (encV 0x92 c d.code a.code 0 0 0)
  | .vrsqrt c d a => some (encV 0x93 c d.code a.code 0 0 0)
  | .vsqrt c d a => some (encV 0x94 c d.code a.code 0 0 0)
  | .vtanh c d a => some (encV 0x95 c d.code a.code 0 0 0)
  | .vsigm c d a => some (encV 0x96 c d.code a.code 0 0 0)
  | .vorient2 w => some (encGeo 0x97 w)
  | .vorient3 w => some (encGeo 0x98 w)
  | .vincirc w => some (encGeo 0x99 w)
  | .vinsph w => some (encGeo 0x9A w)
  | .vsegx w => some (encGeo 0x9B w)
  | .vaccrd c d b => some (encV 0x9C c d.code 0 b.code 0 0)
  | .vaccwr c a b => some (encV 0x9D c 0 a.code b.code 0 0)
  | .vtoix c a => some (encV 0x9E c 0 a.code 0 0 0)
  | .vtol c a => some (encV 0x9F c 0 a.code 0 0 0)
  | .vtos c a => some (encV 0xA0 c 0 a.code 0 0 0)
  | .emsave h d fromCm => some (encMask 0xA1 h d.toNat (Bool.bit fromCm) 0)
  | .emrest h a => some (encMask 0xA2 h 0 a.code 0)
  | .emcomb h op a => some (encMask 0xA3 h 0 a.code (codeOf maskOpCodes op))
  | .vspill tk a => some (encR 0xA4 2 0 tk.code 0 a.toNat 0 0 0 0 0 0 0)
  | .vfill tk d a => some (encR 0xA5 2 15 tk.code d.code a.toNat 0 0 0 0 0 0 0)
  | .mclaim tk slots tile => some (encClaim 0xA8 tk slots tile)
  | .mrel tk slots tile => some (encClaim 0xA9 tk slots tile)
  | .mzero tk acc q => some (encN 0xAA tk.code acc.toNat 0 0 0 q.toNat 0 0 0 0)
  | .mma w => some (encMm 0xAB w 31 0)
  | .mmaq w fn => some (encMm 0xAC w 31 fn.toNat)
  | .mmas w pat voff => some (encMm 0xAD w pat.toNat voff.toNat)
  | .mmag w => some (encMm 0xAE w 31 0)
  | .mnset tk rec => some (encQ 0xAF 3 0 tk.code 0 0 (match rec with | .level n => n.toNat | .header => 6) 0)
  | .mnest tk => some (encQ 0xB0 3 0 tk.code 0 0 0 0)
  | .mdrain tk acc f => some (encN 0xB1 tk.code acc.toNat 0 0 0 15 0 0 0 (drainCode f))
  | .mpload tk w n1 => some (encQ 0xB2 3 0 tk.code 0 0 0 (n1.toNat * 256 + w.toNat))
  | .mpbind tk pat ta => some (encN 0xB3 tk.code 0 0 0 pat.toNat 0 (Bool.bit ta) 0 0 0)
  | .mtog tk => some (encN 0xB4 tk.code 0 0 0 0 0 0 0 0 0)
  | .boundOpcode n e h d a b imm => some (pack (head (0xC0 + n.toNat) (codeOf engCodes e) h.lat.toNat h.tk.code ++
      [(7, d.toNat), (7, a.toNat), (7, b.toNat), (24, imm.toNat)]))
  | _ => none

/-! ## Decoding -/

/-- The opcode of a base word is assigned (R43, check 2); a bindable one is looked up in the bind table later. -/
def opAssigned (op : Nat) : Bool := decide (0xC0 ≤ op) || (opTable.lookup op).isSome

/-- TAG matches the opcode's home engine (R27). A bound word's home engine is in its bind-table entry. -/
def tagMatches (op : Nat) (t : Tag) : Bool :=
  decide (0xC0 ≤ op) && t != .all || op == 0 || decide (op < 0xC0) && homeOf op == some t

/-- The word with another LAT field. -/
def withLat (w : Word) (lat : BitVec 4) : Word :=
  pack [(11, (field w 53 11).toNat), (4, lat.toNat), (49, (field w 0 49).toNat)]

/-- The fields of a word are all legal when LAT is left out of the account. -/
def fieldsOk (w : Word) : Option Instr :=
  match parse w with
  | some i => if wellFormed i && encode i == some w then some i else none
  | none => none

/-- R43: TAG, OP, home, fields and tokens, then LAT. A word whose fields pass with some LAT and not with its own
breaks its latency bound: LAT 15 is below no bound (R28), LAT 0 is the one LAT of a word without a result. -/
def decode (w : Word) : Except DecodeErr Instr :=
  match tagOf (field w 53 3).toNat with
  | none => .error .illegal
  | some t =>
    if !opAssigned (opOf w) then .error .illegal
    else if !tagMatches (opOf w) t then .error .illegal
    else match fieldsOk w with
      | some i => .ok i
      | none =>
        if (fieldsOk (withLat w 15)).isSome || (fieldsOk (withLat w 0)).isSome then .error .latBound
        else .error .illegal

/-- The instruction the decoder reads from a table row's word (the host's question). Instruction words are 64 bits,
one word each, so every row is the low 64 bits. -/
def decodeTableWord (nbits w : Nat) : Option Instr :=
  if nbits ≤ 64 then
    match decode (BitVec.ofNat 64 (w % 2 ^ nbits)) with
    | .ok i => some i
    | .error _ => none
  else none

end Sys2Proof
end

