-- ==== Sys2Proof/Config.lean ====
section
/-! DEFINITION. The values the specification leaves open, as constants without a body, and the figures that
R1 to R3, R58 and R85 fix for every part.

A free value is an opaque function of a counter of the state (or of the operands it depends on), so no proof can
see which value it takes.
-/

namespace Sys2Proof.Config

/-- R31: what an exposed-mode read within LAT returns, numbered by the words issued (log entry 3). -/
opaque freeBits : Nat → BitVec 4096

/-- R224: which aligned 8-byte words of a slot and of its scales a product finds already written by a fill that races
with it, by the number of the issue, the step, and the place of the read in them (log entry 34). -/
opaque raceBits : Nat → Nat → Nat → BitVec 1152

/-- R166: the evaluation of a special function within its error bound, by function code, format, flush mode and result: how
far the exact value lies above a result, in parts of it, where the function first returns that result (log entry 14). -/
opaque specialFn : Nat → Nat → Bool → Nat → Int

/-- R75, R284, R286: whether an atomic or a load of a line on which both the home slice and the memory-side unit have
performed atomics finds the other place's copy, by the number of the draw (log entry 39). -/
opaque otherCopy : Nat → Bool

/-- R68: the decryption of a line under a zeroised key, by physical byte address and the number of zeroisations
(log entry 15). -/
opaque staleByte : Nat → Nat → Byte

/-- R432 to R436: the signature of a string under the device key, by the number of the one-time key (log entry 16). -/
opaque sign : Nat → List Byte → List Byte

/-- The hub firmware (0) and the die firmware (1) within a firmware image (log entry 16). -/
opaque firmwarePart : Nat → List Byte → List Byte

/-- The CAUSE of the log entry of a thermal shutdown, which the specification does not number (R413, R451; log entry 30). -/
opaque thermalCode : BitVec 8

/-- Where a partition's root region block lies, in units of 256 bytes, which the management controller chooses (log entry
27). -/
opaque rootRcbUnit : Nat → BitVec 46

/-- The virtual address of a partition's root region block: aligned to 256 (R372), within the 54 bits of PARENT, and not
0, with which PARENT names no block (R374; log entry 27). -/
def rootRcb (part : Nat) : Nat := 256 * max 1 (rootRcbUnit part).toNat

/-- Cells of a package (R1). -/
def cells : Nat := 192

/-- Frames populated in each HBM stack (R58). -/
def hbmFrames : Nat := 2861

/-- A frame is 16 MiB (R58). -/
def frameSize : Nat := 0x1000000

/-- The window of a stack (R58). -/
def stackWindow : Nat := 0x1000000000

/-- First address of the second tier (R58). -/
def secondBase : Nat := 0x10000000000

/-- Words of IMEM window for each slot a context holds (R391). -/
def windowPerSlot : Nat := 8192

end Sys2Proof.Config
end

