-- ==== Sys2Proof/Machine/StrandState.lean ====
section
/-! DEFINITION. The state of one strand (R17, R134): its registers, queues, tokens, engines, accesses in flight,
operand slots, tiles, nest, pattern contexts, fault and scheduling state. All of it is plain data.
-/

namespace Sys2Proof.Machine

/-- The register results that LAT governs (R28). -/
inductive Reg where
  | g (n : BitVec 5)
  | a (n : BitVec 4)
  | b (n : BitVec 4)
  | v (n : BitVec 6)
  | sd (n : BitVec 4)
  | em
  | cm
  | mk (n : Fin 6)
deriving DecidableEq, Repr

/-- Fault causes (R407). -/
inductive Cause where
  | illegal | unbound | latBound | opField | translation | permission | memType | align | staleHandle | migLost
  | poison | foreign | stepBound | microIllegal | spmDup | packOverrun | pattern | nonInvertible | nonFinite
  | opmState | queueProto | trap | uncorrectable | watchdog
deriving DecidableEq, Repr

/-- A unit that carries poison on its own (R415): a register, a slot, a tile or an entry of LQ or SQ of a strand, by
`uid`, and a scratchpad row. -/
inductive PUnit where
  | reg (uid : Nat) (r : Reg)
  | slot (uid n : Nat)
  | tile (uid n : Nat)
  | row (cell row : Nat)
  | lq (uid i : Nat)
  | sq (uid i : Nat)
deriving DecidableEq, Repr

/-- A fault as the raising unit reports it (R403 to R408). `eng` is the TAG code of FLTPC; `logged` asks for a die
log entry (R84); `unit` is the poisoned unit that a POISON was raised for. -/
structure Trap where
  cause : Cause
  detail : Nat := 0
  level : Nat := 0
  addr : Nat := 0
  paddr : Option Nat := none
  logged : Bool := false
  unit : Option PUnit := none
deriving DecidableEq, Repr

/-- A fault queued at a strand (R404). -/
structure QFault where
  trap : Trap
  eng : Nat
  word : Nat
  ovl : Nat
  chan : Option Nat
  mic : Option (Nat × Nat)
  cycle : Nat
deriving DecidableEq, Repr

/-- The home of an access (R55, R266). -/
inductive Home where
  | hbm | second | host
  | remote (pkg : BitVec 10)
deriving DecidableEq, Repr

/-- Where a delivered fault's record waits for its ACTION: an entry of the host's window, or one of a fault area, by its home
and addresses, with the handler's launch (R409, R410). -/
inductive FaultPlace where
  | window (index : Nat)
  | area (home : Home) (va pa launch : Nat)
deriving DecidableEq, Repr

/-- A fault that has been delivered and is not yet resolved. -/
structure Delivered where
  fault : QFault
  place : FaultPlace
deriving DecidableEq, Repr

/-- A record of C to another engine through its BQ (R318). -/
inductive BqRec where
  | taken (t : Bool)
  | target (i : Nat)
  | trip (n : Nat)
  | lmode (v : BitVec 4)
  | rset (v : BitVec 16)
  | rrb (v : BitVec 16)
  | clamp (lim : Nat)
deriving DecidableEq, Repr

/-- An open loop (R326). -/
structure LoopEntry where
  start : Nat
  stop : Nat
  left : Nat
  depth : Nat
deriving DecidableEq, Repr

/-- A running pipelined loop at an engine (R327): `lim` is c_lim, `n` the trip count. -/
structure Ploop where
  index : Nat
  stages : Nat
  first : Nat
  len : Nat
  words : List Nat
  n : Nat
  lim : Nat
  started : Nat
  pass : Nat
deriving DecidableEq, Repr

/-- The base state of a micro-routine (R357): the bound word it serves and its registers. -/
structure Micro where
  word : Instr
  index : Nat
  entry : Word
  mpc : Nat
  mlc : BitVec 32
  ms : Vector Word 8
  ag : Vector Word 8
  mt : Vector Row 8
  mmask : Mask
  z : Bool
  n : Bool
  vf : Bool
  steps : Nat
deriving DecidableEq, Repr

/-- How far the words reach that an engine has walked past and other words are ordered against: one more than the place
of the last access or command of C, access or command of L, store of S and scratchpad read of L (R110, R120, R265; log
entry 22), and of the last store of C, command of C to the copy engine and copy of L (R86). -/
structure Seen where
  c : Nat := 0
  l : Nat := 0
  s : Nat := 0
  r : Nat := 0
  cst : Nat := 0
  ccmd : Nat := 0
  lcmd : Nat := 0
deriving DecidableEq, Repr

/-- Why an engine issues nothing at its program counter. -/
inductive Stopped where
  | no | atExit | atSbar | atOvl | atLull
deriving DecidableEq, Repr

/-- An engine of a strand (R317 to R329). `passed` counts the words it has passed, which is its place in program order
(R265, R317); `clamped` is the clamp record of R329: index, N and c_lim; `arrived` says that it reached its program
counter by completing the word before it or by a skip (R326). -/
structure EngState where
  pc : Nat := 0
  passed : Nat := 0
  ret : List Nat := []
  loops : List LoopEntry := []
  ploop : Option Ploop := none
  rrb : BitVec 5 := 0
  sg : BitVec 8 := 0
  lmode : BitVec 4 := 0
  rset : BitVec 16 := 0
  clamped : Option (Nat × Nat × Nat) := none
  arrived : Bool := false
  stop : Stopped := .no
  bq : List BqRec := []
  micro : Option Micro := none
  idle : Nat := 0
  lastIssue : Option Nat := none
  seen : Seen := {}
deriving DecidableEq, Repr

/-- A register result that has not landed (R28 to R32). `val` is none while its operation runs (LAT 15). -/
structure Pending where
  eng : Eng
  pos : Nat
  reg : Reg
  val : Option (BitVec 4096)
  mask : BitVec 4096
  issued : Nat
  lat : Nat
  poison : Bool := false
deriving DecidableEq, Repr

/-- A place of a token FIFO (R35, R36, R93): reserved by a word or a copy, and filled or not. -/
structure TokPlace where
  eng : Eng
  pos : Nat
  copy : Option Nat := none
  filled : Bool := false
deriving DecidableEq, Repr

/-- The token FIFOs of a strand (R35). -/
structure Tokens where
  lm : List TokPlace := []
  ml : List TokPlace := []
  mv : List TokPlace := []
  vm : List TokPlace := []
  vs : List TokPlace := []
  sv : List TokPlace := []
deriving DecidableEq, Repr

/-- An LQ entry (R111, R121). `filled` is false while the memory read of an `ldmq` is in flight. -/
structure LqEntry where
  data : Row
  filled : Bool := true
  spec : Bool := false
  poison : Bool := false
  id : Nat := 0
  fresh : Bool := false
deriving DecidableEq, Repr

/-- An SQ entry (R111). -/
structure SqEntry where
  data : Row
  poison : Bool := false
  fresh : Bool := false
deriving DecidableEq, Repr

/-- An index vector (R112). -/
structure IndexVec where
  en : BitVec 128
  idx : Row
deriving DecidableEq, Repr

/-- An RPQ entry (R111, R128) and the consumers that have not popped it. -/
structure RpqEntry where
  diff : Word
  last : Bool
  toC : Bool
  toM : Bool
deriving DecidableEq, Repr

/-- A running row-pointer stream (R128): where its next pointer lies, the pointer before it and those to come, as read
at issue. -/
structure RpsRun where
  index : Nat
  pos : Nat
  place : Nat
  step : Nat
  prev : Nat
  ptrs : List Nat
  toC : Bool
  toM : Bool
deriving DecidableEq, Repr

/-- A store in the pending-store table (R118, R119) or an S word that waits for the data stage. `lo` and `hi` bound
the bytes entered: in scratchpad, or physical when `mem`; `entered` is false for a word that enters no range. `tgt`
holds the page-table entry of a row or element store of memory and `level` its page's; `sent` says that the data stage has
been and the stores are on their way. -/
structure SEntry where
  word : Instr
  index : Nat
  pos : Nat
  entered : Bool
  mem : Bool
  lo : Nat
  hi : Nat
  ea : Word
  desc : Desc
  paddr : Nat
  tgt : Nat
  cls : BitVec 4
  rset : BitVec 16
  lmode : BitVec 4
  seen : Seen
  level : Nat := 3
  sent : Bool := false
deriving DecidableEq, Repr

/-- The kind of an access or fence in flight (R264, R272). -/
inductive AccKind where
  | load | store | atomic
  | fence (k : FenceKind) (sc : Scope) (mask : BitVec 16)
deriving DecidableEq, Repr

/-- The memory type of a page (R61, R69). -/
inductive MType where
  | normal | combining | device | ordered
deriving DecidableEq, Repr

/-- Where a load's value goes: nowhere, to a register of C, to an entry of LQ, or to the word of `launch` or `sys` that reads
its record. -/
inductive AccDest where
  | none
  | reg (n : BitVec 5)
  | lq (id : Nat)
  | call
deriving DecidableEq, Repr

/-- A `launch` or `sys` word on its way (R342, R344): the register for its answer, the words C had walked past there, the
address of its record, the record once it has been read, and whether a fault holds it. -/
structure Call where
  pos : Nat
  index : Nat
  seen : Seen
  word : Instr
  dst : BitVec 5
  addr : Nat
  rec? : Option (List Word)
  failed : Bool
deriving DecidableEq, Repr

/-- The combination an atomic makes (R130, R283). -/
inductive AccOp where
  | amo (op : AmoOp) (expect : Word)
  | addElem (ty : AddTy)
deriving DecidableEq, Repr

/-- A memory access or fence that has been issued and has not performed (R264 to R275). `level` is its page's (R60); `reach`
holds, for a store, when it passed the ordering points on its way: the cell's port, the die's link, the hub's egress
(R266). -/
structure Access where
  id : Nat
  eng : Eng
  pos : Nat
  index : Nat
  lane : Nat
  kind : AccKind
  cls : BitVec 4
  va : Nat
  pa : Nat
  size : Nat
  data : BitVec 4096
  home : Home
  mtype : MType
  msa : Bool
  repl : Bool
  cp : Cp
  acq : Bool
  rel : Bool
  rset : BitVec 16
  dest : AccDest
  sext : Bool
  op : Option AccOp
  flag : Bool := false
  seen : Seen := {}
  level : Nat := 3
  reach : List Nat := []
deriving DecidableEq, Repr

/-- The state code of an operand slot (R220). -/
inductive OmState where
  | notHeld | claimed | filled | speculative | refilling
deriving DecidableEq, Repr

/-- An operand slot by name (R220, R221): elements, record and where it physically lies. `fresh` says that nothing has yet
detected the error that poisons it (R415). -/
structure OmSlot where
  state : OmState := .notHeld
  phys : Option Nat := none
  data : BitVec 65536 := 0
  desc : Desc := 0
  nf : BitVec 64 := 0
  tog : BitVec 8 := 0
  scale : BitVec 8192 := 0
  poison : Bool := false
  fresh : Bool := false
deriving DecidableEq, Repr

/-- A fill in progress (R127, R220, R224): what it writes into the slot; `dropped` when its name was released
meanwhile. -/
structure Fill where
  om : BitVec 5
  pos : Nat
  slot : OmSlot
  spec : Bool
  dropped : Bool
deriving DecidableEq, Repr

/-- An accumulator tile by name (R225): element (r, c) is bits 32(64c + r) + 31 down, column major (R196). -/
structure AccTile where
  held : Bool := false
  phys : Option Nat := none
  data : BitVec 131072 := 0
  poison : Bool := false
  fresh : Bool := false
deriving DecidableEq, Repr

/-- A level record of the nest (R240): words 0 and 1. -/
structure NestTable where
  hdr : Option (Word × Word) := none
  levels : Vector (Word × Word) 6 := Vector.replicate 6 (BitVec.ofNat 64 0x100000000, 0)
deriving DecidableEq, Repr

/-- What a running nest does next (R242): enter a level, pop tokens from L, run a step or an empty step, drain the
step's tile, end an iteration. -/
inductive NestAct where
  | enter
  | fills (n : Nat)
  | step (empty : Bool)
  | drain
  | iterEnd
deriving DecidableEq, Repr

/-- The position of a running nest (R242 to R244): the `mnest` word with its overlay, the LMODE that holds there (R33), steps
done, trip and index of each level entered, the tile of the last step with what it held before it (R53), and the actions to
come. -/
structure NestRun where
  index : Nat
  ovl : BitVec 8
  lmode : BitVec 4
  pos : Nat
  step : Nat
  levels : List (Nat × Nat)
  tile : BitVec 4
  old : Option (BitVec 131072)
  todo : List NestAct
deriving DecidableEq, Repr

/-- A matrix word that has done its work and waits to complete (R219, R233). `old` are the tiles it has written, as they were
before, which a read that no token orders may still see (R53). -/
structure MWord where
  pos : Nat
  index : Nat
  old : List (BitVec 4 × BitVec 131072) := []
deriving DecidableEq, Repr

/-- A drain that pushes SQ entries as places come free (R236). -/
structure Drain where
  pos : Nat
  tile : BitVec 4
  clear : Bool
  entries : List Nat
deriving DecidableEq, Repr

/-- A matrix product word that waits for its energy grant (R441). -/
structure GrantWait where
  since : Nat
  tog : Nat
  charge : Nat
  granted : Bool
deriving DecidableEq, Repr

/-- A pattern context (R247) with the words its program and its references hold through the store. -/
abbrev PatCtx := BitVec 160

/-- Where a spilled register is parked (R137). -/
inductive Parked where
  | tile (phys : Nat) (col : Nat)
  | bank (slot : Nat) (reg : Nat)
  | save
deriving DecidableEq, Repr

/-- A predicate that V runs (R205 to R217). -/
structure PredRun where
  word : Instr
  index : Nat
  pos : Nat
  dst : List Reg
  toSq : Bool
  value : Row
  wmask : Row
  flags : BitVec 6
  stage2 : Nat
  stage3 : Nat
  sos : Nat
  nf : Option Nat
  poison : Bool
deriving DecidableEq, Repr

/-- A command held in L's commit buffer (R121). -/
structure HeldCmd where
  word : Instr
  index : Nat
  pos : Nat
  regs : List Word
  seen : Seen
  rset : BitVec 16
deriving DecidableEq, Repr

/-- L on a leaning arm (R121, R122): what it takes to undo the arm. -/
structure LeanRun where
  taken : Bool
  index : Nat
  off : Int
  saved : EngState
  a : Vector Word 16
  sd : Vector Desc 16
  pend : List Pending
  iql : List IndexVec
  held : List HeldCmd
  fault : Option QFault
  confirmed : Bool
deriving DecidableEq, Repr

/-- A wait of C (R330). -/
inductive WaitCond where
  | trig | cpy | coll
  | flag (va : Word) (cls : BitVec 4)
  | time (t : Word)
deriving DecidableEq, Repr

/-- A copy-engine record kept in an output FIFO (R94), filled when its command completes. -/
structure OutPlace where
  id : Nat
  rec? : Option Word
deriving DecidableEq, Repr

/-- A pre-emption request in progress (R396, R398). `from_` is the count that no engine had passed. -/
structure Preempt where
  since : Nat
  from_ : Nat
deriving DecidableEq, Repr

/-- The place of a strand in its launch (R378 to R380). Launch 0 is a mailbox strand. -/
structure StrandId where
  launch : Nat
  x : BitVec 16
  y : BitVec 16
  z : BitVec 16
  gx : BitVec 16
  gy : BitVec 16
  gz : BitVec 16
  argb : BitVec 54
  rcb : Nat
  image : Nat
  entry : BitVec 8
  cores : Bool
deriving DecidableEq, Repr

/-- What a departure at a lull point does not keep, by its names (R397): each reads as zero on resume, or as it was. -/
structure Dead where
  g : BitVec 32 := 0
  sd : BitVec 16 := 0
  masks : BitVec 6 := 0
  pat : BitVec 16 := 0
  v : BitVec 64 := 0
deriving DecidableEq, Repr

/-- A strand: everything that R134 to R138, R380 and R398 say is its state. `resident` is the time it came into its slot;
`loading` says that its context and overlay are being made ready, for a fresh start (true) or for a resume, with the
number of the request; `request` is the time
a pre-emption request was sent to it; `box` is the boot mailbox that started it; `oldBinds` are the entries that a `bind`
has replaced and that an engine behind it still reads, with the place of the `bind` (R54). `area` is the address of its save
area (R399), `dead` what its last departure did not keep, `vWritten` the vector registers written since it came into its
slot, whose bank may hold a departed strand's (R135), `vOut` its own that have been saved and not restored (R136);
`mpWords` are the entries that a waiting `mpload` has popped (R254), and `arrayUntil` the cycle until which its product words
occupy the array (R219, R262). -/
structure Strand where
  uid : Nat := 0
  part : Nat := 0
  sid : StrandId := ⟨0, 0, 0, 0, 1, 1, 1, 0, 0, 0, 0, false⟩
  emask : BitVec 5 := 1
  overlay : BitVec 8 := 0
  -- registers
  g : Vector Word 32 := Vector.replicate 32 0
  a : Vector Word 16 := Vector.replicate 16 0
  b : Vector Word 16 := Vector.replicate 16 0
  v : Vector Row 64 := Vector.replicate 64 0
  sd : Vector Desc 16 := Vector.replicate 16 0
  em : Mask := BitVec.allOnes 1024
  cm : Mask := 0
  saved : Vector Mask 6 := Vector.replicate 6 0
  poisoned : List Reg := []
  fresh : List Reg := []
  pending : List Pending := []
  free : Nat := 0
  -- engines
  engs : Vector EngState 5 := Vector.replicate 5 {}
  -- queues and tokens
  lq : List LqEntry := []
  sq : List SqEntry := []
  iql : List IndexVec := []
  iqs : List IndexVec := []
  fiq : List IndexVec := []
  qL : List Word := []
  qS : List Word := []
  qV : List Word := []
  qM : List Word := []
  vcq : List Word := []
  rpq : List RpqEntry := []
  rps : Option RpsRun := none
  tok : Tokens := {}
  -- accesses
  accs : List Access := []
  stores : List SEntry := []
  out : List OutPlace := []
  results : List OutPlace := []
  calls : List Call := []
  -- matrix state
  om : Vector OmSlot 32 := Vector.replicate 32 {}
  fills : List Fill := []
  acc : Vector AccTile 16 := Vector.replicate 16 {}
  mwords : List MWord := []
  drain : Option Drain := none
  grant : Option GrantWait := none
  nestShadow : NestTable := {}
  nestActive : NestTable := {}
  nest : Option NestRun := none
  patStore : Vector (BitVec 32) 256 := Vector.replicate 256 0
  patStart : BitVec 256 := 0
  pat : Vector PatCtx 16 := Vector.replicate 16 0
  mpWords : List Word := []
  arrayUntil : Nat := 0
  -- vector state
  spill : List (Nat × Parked × Row) := []
  vHome : Option Nat := none
  vOut : BitVec 64 := 0
  vWritten : BitVec 64 := 0
  dead : Dead := {}
  area : Nat := 0
  pred : Option PredRun := none
  lean : Option LeanRun := none
  -- state registers
  slipw : BitVec 13 := 256
  flags : BitVec 6 := 0
  flagLog : List (Nat × BitVec 6) := []
  scc : Word := 0
  bindst : BitVec 9 := 0
  oldBinds : List (Nat × BitVec 6 × Word) := []
  fltCause : Word := 0
  fltAddr : Word := 0
  fltPc : Word := 0
  perf : Vector Word 16 := Vector.replicate 16 0
  -- faults
  frozen : Bool := false
  faults : List QFault := []
  delivered : Option Delivered := none
  -- scheduling
  triggered : Bool := false
  wait : Option WaitCond := none
  waitHeld : Bool := false
  flagRead : Option Word := none
  endBlock : Bool := false
  block : Bool := false
  blockSince : Nat := 0
  readySince : Nat := 0
  resident : Nat := 0
  preempt : Option Preempt := none
  halting : Bool := false
  ovlWant : Option (BitVec 8 × Nat) := none
  loading : Option (Bool × Nat) := none
  request : Option Nat := none
  box : Option Nat := none
deriving DecidableEq, Repr

end Sys2Proof.Machine
end

