-- ==== Sys2Proof/Machine/CellState.lean ====
section
/-! DEFINITION. The state of a cell (R17, R18) and of a context on it (R391, R421): ownership, local memories, the
copy engine, the caches of the cell, the instruction window and the control-store share.
-/

namespace Sys2Proof.Machine

/-- A physical slot or tile taken for a strand's name (R135). -/
structure Holder where
  uid : Nat
  name : Nat
deriving DecidableEq, Repr

/-- A line of C's L1 (R72): the home, the line address there, the MSA bit of the mapping that filled it (R286), its
partition and its bytes. -/
structure L1Line where
  part : Nat
  home : Home
  line : Nat
  msa : Bool
  data : BitVec 1024
deriving DecidableEq, Repr

/-- A cached leaf (R77): partition, first virtual address, level, where the entry lies and what it holds, with its
checks passed. -/
structure TlbEntry where
  part : Nat
  va : Nat
  level : Nat
  place : Nat
  pte : BitVec 128
deriving DecidableEq, Repr

/-- A cached table entry of the walk cache (R77). -/
structure WalkEntry where
  part : Nat
  va : Nat
  level : Nat
  pte : BitVec 128
deriving DecidableEq, Repr

/-- A translated access: its leaf and its physical address. -/
structure Xlat where
  leaf : TlbEntry
  pa : Nat
deriving DecidableEq, Repr

/-- A translated piece of a run of virtual bytes within one page. -/
structure Piece where
  va : Nat
  len : Nat
  x : Xlat
deriving DecidableEq, Repr

/-- What a page of a copy is for: its source, its destination or its flag (R104). -/
inductive CopyPart where
  | src | dst | flag
deriving DecidableEq, Repr

/-- One side of a copy as captured at issue (R87, R101). -/
structure CopySide where
  space : Space
  addr : Nat
  stride : Int
  slot : Option Nat
deriving DecidableEq, Repr

/-- What a command of the copy engine's FIFO does (R96, R102). -/
inductive CopyOp where
  | copy (dst src : CopySide) (rows len : Nat) (dim2 : Bool) (tok : Bool) (flag : Option Word) (oc : BitVec 4)
      (rset : BitVec 16)
  | hset (base len : Word) (slot : BitVec 12) (x w r : Bool)
  | hfree (handle : BitVec 32)
  | hread (slot : BitVec 12)
deriving DecidableEq, Repr

/-- A command of a strand in the copy engine (R85, R86). `uid` names the strand, `rcb` its region; `id` its output place. -/
structure CopyCmd where
  id : Nat
  uid : Nat
  part : Nat
  index : Nat
  pos : Nat
  seen : Seen
  chan : Nat
  tag : BitVec 16
  rcb : Nat
  out : Bool
  op : CopyOp
deriving DecidableEq, Repr

/-- A copy on a channel (R85, R104, R105): the pieces it has translated so far, in order, a fault that holds it, the bytes
that had performed at the fault, and the time without progress that its watchdog counts (R418). -/
structure CopyRun where
  cmd : CopyCmd
  pages : List (CopyPart × Piece)
  faulted : Bool
  started : Bool
  bytes : Nat
  idle : Nat := 0
deriving DecidableEq, Repr

/-- A prefetch in the queue of R85: the strand, its partition, the address and the lines asked for, 0, 1 or 4 (R108). -/
structure Prefetch where
  ref : SRef
  uid : Nat
  part : Nat
  ea : Word
  lines : Nat
deriving DecidableEq, Repr

/-- A cell (R17, R18, R421). `spmFresh` are the poisoned rows whose error nothing has yet detected (R415). -/
structure Cell where
  au : Option Nat := none
  vu : Option Nat := none
  mu : Option Nat := none
  banks : Vector (Option Nat) 32 := Vector.replicate 32 none
  slots : Vector (Option Nat) 4 := Vector.replicate 4 none
  spm : List (Nat × Byte) := []
  spmPoison : List Nat := []
  spmFresh : List Nat := []
  om : Vector (Option Holder) 32 := Vector.replicate 32 none
  acc : Vector (Option Holder) 16 := Vector.replicate 16 none
  l1 : List L1Line := []
  tlb : List TlbEntry := []
  fifo : List CopyCmd := []
  chans : Vector (Option CopyRun) 16 := Vector.replicate 16 none
  prefetch : List Prefetch := []
  fenced : Bool := false
  testing : Bool := false
  ueTimes : List Nat := []
deriving DecidableEq, Repr

/-- An overlay of an image (R393). -/
structure Overlay where
  toff : Nat
  load : Nat
  len : Nat
  entry : Nat
  trail : BitVec 5
deriving DecidableEq, Repr

/-- A lull entry of an image (R395). -/
structure Lull where
  ovl : Nat
  word : Nat
  lg : BitVec 32
  lacc : BitVec 16
  lsd : BitVec 16
  lv : BitVec 64
  lom : BitVec 32
  lpat : BitVec 16
  lmk : BitVec 6
deriving DecidableEq, Repr

/-- An NRG image as the loader read it (R392): its address, overlays and lull points. -/
structure Image where
  addr : Nat
  win : Nat
  emask : BitVec 5
  overlays : List Overlay
  lulls : List Lull
  wcs : List (BitVec 128)
  binds : List (Nat × Word)
  oprs : List (Nat × Word)
deriving DecidableEq, Repr

/-- A partition's context on a cell (R391, R421). `shareCopied` says that a copy has overwritten the image in the share
(R90, R353). Where its window starts in the cell's
IMEM is not visible to it. -/
structure Context where
  win : Nat := 0
  imem : FMap Word := []
  share : Option Nat := none
  wcs : FMap (BitVec 128) := []
  bindTab : Vector Word 64 := Vector.replicate 64 0
  image : Option Image := none
  overlays : List Nat := []
  ovlQueue : List (Nat × Nat) := []
  wcsBusy : Bool := false
  shareCopied : Bool := false
  departed : List Strand := []
  savedCmds : List CopyCmd := []
deriving DecidableEq, Repr

end Sys2Proof.Machine
end

