-- ==== Sys2Proof/Machine/DieState.lean ====
section
/-! DEFINITION. The state of a compute die (R13): translation caches, L2 residency, the scheduler's region cache,
the error log, page pulls, the energy slice and the collective engine.
-/

namespace Sys2Proof.Machine

/-- A cached region (R372 to R376, R389): the block as read, the effective values and the period's balance. -/
structure Region where
  addr : Nat
  part : Nat
  block : List Word
  parent : Nat
  prio : Nat
  slice : Nat
  ebud : Nat
  place : List Word
  fdh : Bool
  fhnd : Nat
  lulldl : Nat
  ttag : Nat
  cntr : Nat
  balance : Int
  paused : Bool
  used : Nat
deriving DecidableEq, Repr

/-- A page being pulled (R82, R83). `attempt` is none between attempts. -/
structure Pull where
  part : Nat
  va : Nat
  pte : BitVec 128
  pteAddr : Nat
  since : Nat
  port : Nat
  attempt : Option Nat
deriving DecidableEq, Repr

/-- A group of the collective engine (R299, R300). -/
structure Group where
  wgid : BitVec 16
  dtag : BitVec 16
  rank : Nat
  members : List Nat
  seq : BitVec 16
deriving DecidableEq, Repr

/-- A step that has started and is not complete (R307): CSOP, its index, the rank it takes a message from and that
message's number, the rank it sends to and that message's number, its range in 64-byte units, COPY's source buffer, the
time it started, and the header it has sent, by its number in the model. -/
structure CStep where
  op : Nat
  index : Nat
  src : Nat
  nth : Nat
  dst : Nat
  ord : Nat
  buf : Nat
  off : Nat
  len : Nat
  source : Nat
  since : Nat
  msg : Option Nat
deriving DecidableEq, Repr

/-- What a strand has pushed to the collective engine (R297): GSET, GFREE or CRUN with its operand. -/
inductive CollOp where
  | gset (va : Word)
  | gfree (slot : BitVec 4)
  | crun (va : Word)
deriving DecidableEq, Repr

/-- A command of a strand in the collective engine: `uid` names the strand, `rcb` its region. -/
structure CollCmd where
  uid : Nat
  cell : Nat
  rcb : Nat
  id : Nat
  pos : Nat
  seen : Seen
  op : CollOp
deriving DecidableEq, Repr

/-- A running collective (R301 to R312): its command and block, the program, the counters and open loops (counter, first
step of the body, passes left), the steps under way, the messages asked from and sent to each rank, those not yet known
to be written at their receiver (number, and the port when it left the package), the time since which WAIT or END waits,
and whether it waits for the switches' answer. -/
structure CollRun where
  cmd : CollCmd
  block : List Word
  prog : List Word
  pc : Nat
  counters : Vector Nat 4
  loops : List (Nat × Nat × Nat)
  active : List CStep
  heard : List (Nat × Nat)
  told : List (Nat × Nat)
  sent : List (Nat × Option Nat)
  waitSince : Option Nat
  inFabric : Bool
deriving DecidableEq, Repr

/-- An abort at this member (R310, R311): the children that have not acknowledged, the command whose record it ends (none
before its CRUN), and whether the collective had already completed here. -/
structure Aborting where
  seq : BitVec 16
  root : Nat
  cause : BitVec 4
  parent : Option Nat
  children : List Nat
  since : Nat
  tmo : Nat
  step : Nat
  cmd : Option (CollCmd × BitVec 16)
  silent : Bool
deriving DecidableEq, Repr

/-- A group slot of a partition on a die's engine: the group, what runs and waits, the messages in staging by number, the
aborts under way and the sequences whose abort has ended here. -/
structure CollSlot where
  group : Group
  run : Option CollRun := none
  waiting : List (CollCmd × List Word) := []
  held : List (Nat × CollMsg) := []
  aborts : List Aborting := []
  aborted : List (BitVec 16) := []
deriving DecidableEq, Repr

/-- A partition's part of a collective engine (R296, R370). -/
structure CollPart where
  shares : Nat := 0
  staging : List (Nat × Byte) := []
  ops : Bool := false
  opTab : Vector Word 8 := Vector.replicate 8 0
  store : FMap (BitVec 128) := []
  loaded : Bool := false
  cmds : List CollCmd := []
  slots : FMap CollSlot := []
deriving DecidableEq, Repr

/-- A compute die. `l2` holds the lines of each slice, latest first (R71); `share` starts at a module's share of one grant
window, 575,000 nJ (R440); `window` numbers the grant window, and `granting` says that its grants have not stopped (R441);
`reread` numbers the accounting period whose reread has been made (R375); `hot`, `throttle` in twentieths and `throttleAt`
are the lowering of R451. -/
structure Die where
  tlb : List TlbEntry := []
  walk : List WalkEntry := []
  l2 : Vector (List Nat) 16 := Vector.replicate 16 []
  regions : List Region := []
  log : List (List Word) := []
  pulls : List Pull := []
  coll : FMap CollPart := []
  share : Int := 942080000000
  overdraft : Int := 0
  window : Nat := 0
  granting : Bool := false
  throttle : Nat := 0
  temp : Nat := 0
  energy : Nat := 0
  lastEnergy : Nat := 0
  delayed : Nat := 0
  reread : Nat := 0
  hot : Bool := false
  throttleAt : Nat := 0
deriving DecidableEq, Repr

end Sys2Proof.Machine
end

