-- ==== Sys2Proof/Machine/HubState.lean ====
section
/-! DEFINITION. The state of the hub (R14) and of the partitions: frame owners, keys, launches, handle tables,
metering, the host's functions, the management function and the Epner ports.
-/

namespace Sys2Proof.Machine

/-- A frame-owner entry (R67). -/
structure FrameOwner where
  valid : Bool
  owner : Nat
  key : Nat
  dtag : BitVec 16
deriving DecidableEq, Repr

/-- An accepted launch (R378 to R383). `after` is the place of its `launch` word, with the words that its strand's C had
walked past there: the accesses before it perform before a strand of the launch starts (R342). -/
structure Launch where
  number : Nat
  die : Nat
  rcb : Nat
  entry : BitVec 8
  image : Nat
  argb : BitVec 54
  gx : Nat
  gy : Nat
  gz : Nat
  cores : Bool
  emask : BitVec 5
  win : Nat
  cflag : Nat
  prods : List Nat
  next : Nat
  ended : Nat
  triggered : Nat
  failed : Bool
  complete : Bool
  handlerOf : Option Nat
  after : Option (Nat × Nat × Seen) := none
deriving DecidableEq, Repr

/-- A slot of a handle table (R100). -/
structure HandleSlot where
  gen : BitVec 20 := 1
  pin : Nat := 0
  x : Bool := false
  w : Bool := false
  r : Bool := false
  val : Bool := false
  len : BitVec 54 := 0
  base : BitVec 54 := 0
deriving DecidableEq, Repr

/-- The state of a partition (R429). -/
inductive PState where
  | free | creating | active | tearing | scrubbing
deriving DecidableEq, Repr

/-- The cumulative counters of R433, AUUS to HOSTB. -/
structure Counters where
  auus : Nat := 0
  vus : Nat := 0
  mus : Nat := 0
  ccyc : Nat := 0
  energy : Nat := 0
  hbmfms : Nat := 0
  stfms : Nat := 0
  fabb : Nat := 0
  hostb : Nat := 0
deriving DecidableEq, Repr

/-- A partition (R420 to R433). `svcFrames` are the frames of its page tables, handle table and save pool, which the
service partition owns (R423). `pool` are the frames of its save areas (R399); `hbmFrac` and its like carry the fractions
of units not yet counted. -/
structure Partition where
  st : PState := .free
  dtag : BitVec 16 := 0
  pser : BitVec 32 := 0
  root : Nat := 0
  rootRcb : List Word := []
  frames : List Nat := []
  svcFrames : List Nat := []
  cells : List Nat := []
  handles : FMap HandleSlot := []
  launches : List Launch := []
  lastLaunch : Nat := 0
  pool : List Nat := []
  saveAreas : Nat := 0
  saveUsed : Nat := 0
  faultAreas : List (Nat × List Nat) := []
  fabq : Nat := 0
  counters : Counters := {}
  energyFrac : Nat := 0
  auFrac : Nat := 0
  vFrac : Nat := 0
  mFrac : Nat := 0
  hbmFrac : Nat := 0
  stFrac : Nat := 0
deriving DecidableEq, Repr

/-- A boot mailbox (R384). -/
structure Mailbox where
  word0 : Word := 0
  argb : BitVec 54 := 0
  entry : BitVec 8 := 0
  stat : BitVec 4 := 0
  cause : BitVec 32 := 0
  go : Bool := false
deriving DecidableEq, Repr

/-- The windows of a PCI Express function (R443 to R447). -/
structure Fn where
  enabled : Bool := false
  boxes : FMap Mailbox := []
  accErr : Bool := false
  faultHead : BitVec 32 := 0
  faultTail : BitVec 32 := 0
  window : Vector (List Word) 64 := Vector.replicate 64 [0, 0, 0, 0, 0, 0, 0, 0]
  msixTable : Vector Word 16 := Vector.replicate 16 0
  msixPending : BitVec 8 := 0
  sent : List Nat := []
deriving DecidableEq, Repr

/-- A scrub in progress or queued (R427, R428): the partition, the phase, its units and those finished, the frames, whether
it ends the partition, the cycles spent on the unit under way, and the units of phases 2 to 5. -/
structure Scrub where
  part : Nat
  phase : Nat
  total : Nat
  done : Nat
  frames : List Nat
  final : Bool
  left : Nat := 0
  later : List Nat := []
deriving DecidableEq, Repr

/-- A range whose invalidation is under way (R80): the strand (`uid`, place of its word) that waits for it, the frames
that `sys` FTAKE then takes, or the management command. -/
structure Inval where
  part : Nat
  base : Nat
  len : Nat
  caller : Option (Nat × Nat)
  take : Option (Nat × Nat)
  mgmt : Bool
deriving DecidableEq, Repr

/-- A request that has left the package (R76, R292, R293): its access, the home package and the port, 16 for the host
port. -/
structure Remote where
  id : Nat
  pkg : BitVec 10
  port : Nat
  since : Nat
deriving DecidableEq, Repr

/-- A request that a unit of the package makes to the host or to another package: a copy, the loader, the scheduler or a
collective engine (R73, R76, R293). `data` is what it writes, or, with `add`, adds; for `posted` nothing waits. -/
structure AwayReq where
  part : Nat
  die : Nat
  home : Home
  va : Nat
  pa : Nat
  len : Nat
  data : Option (List Byte)
  add : Bool := false
  posted : Bool := false
deriving DecidableEq, Repr

/-- A unit's request under way: the port it left through, 16 for the host port, and when; none before it leaves. -/
structure UnitReq where
  id : Nat
  req : AwayReq
  sent : Option (Nat × Nat)
deriving DecidableEq, Repr

/-- How a unit's request ended: with a reply, or lost to a timeout or a port that went down (R76, R293). -/
inductive AwayEnd where
  | reply (r : Reply)
  | lost
deriving DecidableEq, Repr

/-- An update of a counter area that waits for its page to be pulled or for its home's answer (R82, R377). -/
structure CounterAdd where
  die : Nat
  part : Nat
  va : Nat
  n : Nat
deriving DecidableEq, Repr

/-- A route entry (R291, R449). -/
structure Route where
  pkg : BitVec 10
  port : Nat
  next : Nat
deriving DecidableEq, Repr

/-- A line that atomics have changed (R75, R284, R286): whether the last ones were performed memory-side, what the copy of
the other place holds, and whether both places have performed atomics on it. -/
structure AtomicLine where
  msa : Bool
  other : BitVec 1024
  both : Bool
deriving DecidableEq, Repr

/-- A `bput` row on its way (R133). -/
structure Bput where
  uid : Nat
  launch : Nat
  part : Nat
  index : Nat
  from_ : Nat
  cell : Nat
  off : Nat
  row : Row
  addr : Word
  refused : Bool
deriving DecidableEq, Repr

/-- A message on its way to a package and die: a collective message by number, an ABORT, its acknowledgement, word that
a message was written at its receiver, the error response of R300, and a reply to a request of another package. Those for
this package wait here to be delivered; the others have left. -/
inductive NetMsg where
  | coll (id pkg die : Nat) (m : CollMsg)
  | abort (pkg die : Nat) (a : CollAbort)
  | ack (pkg die : Nat) (a : CollAbort)
  | written (pkg : Nat) (m : CollMsg)
  | error (pkg : Nat) (m : CollMsg)
  | reply (pkg : Nat) (r : Reply)
deriving DecidableEq, Repr

/-- The hub. `period` numbers the accounting period (R439); `creating` and `ending` hold the CREATE request and the
partition of the TEARDOWN under way; `drained` holds the log entries that the management controller has taken and the host
has not read, by log (R413, R414); `fuses` is the fuse map once bring-up has read it (R2); `shut` says that the package
has stopped at 110 °C (R451). -/
structure Hub where
  rdy : Bool := false
  halt : Bool := false
  linkUp : Bool := false
  pkg : BitVec 10 := 0
  routes : List Route := []
  portsUp : BitVec 16 := 0xFFFF
  replays : Vector Nat 16 := Vector.replicate 16 0
  stFrames : Nat := 0
  owners : FMap FrameOwner := []
  keys : BitVec 64 := 0
  keyGen : Nat := 0
  deadFrames : FMap Nat := []
  unmarked : List Nat := []
  parts : FMap Partition := []
  pser : BitVec 32 := 0
  mseq : Nat := 0
  sseq : Nat := 0
  chainHead : BitVec 256 := 0
  scrubs : List Scrub := []
  invals : List Inval := []
  records : List (Nat × List Byte) := []
  seals : List (Nat × List Byte) := []
  unsealed : List (Nat × BitVec 256) := []
  sigIndex : Nat := 0
  lastRecord : Nat := 0
  fns : FMap Fn := []
  cmd : Vector Word 32 := Vector.replicate 32 0
  reply : Vector Word 32 := Vector.replicate 32 0
  busy : Bool := false
  code : BitVec 16 := 0
  readyReply : Option (List Word) := none
  staged : FMap (List Byte) := []
  nextImage : Option (List Byte) := none
  image : List Byte := []
  report : Option (List Byte × List Byte) := none
  cap : Nat := 3000
  reserve : Nat := 700
  hubTemp : Nat := 0
  inlet : Nat := 0
  flow : Nat := 2500
  fenceStore : List Nat := []
  standbyLost : Bool := true
  log : List (List Word) := []
  remotes : List Remote := []
  away : List UnitReq := []
  answers : List (AwayReq × AwayEnd) := []
  adds : List CounterAdd := []
  mixed : FMap AtomicLine := []
  fuses : Option (List Nat) := none
  bputs : List Bput := []
  net : List NetMsg := []
  linePoison : List Nat := []
  period : Nat := 0
  creating : Option (List Word) := none
  ending : Option Nat := none
  drained : FMap (List (List Word)) := []
  shut : Bool := false
deriving DecidableEq, Repr

end Sys2Proof.Machine
end

