-- ==== Sys2Proof/Machine/State.lean ====
section
/-! DEFINITION. The state of the package: the strands, cells, contexts, dies, hub and memory, the clock, and the
schedule, the model's own input that says who moves next (log entry 1). With it the ways a step can stop and the
state right after reset.
-/

namespace Sys2Proof.Machine

/-- A checker is about to find a mismatch (R417; log entry 80): in what an engine does next, by the check of an address
adder or by the engine's own, or in the next reduction of a collective. -/
inductive Upset where
  | engine (w : Walker) (adder : Bool)
  | coll (r : CRef)
deriving DecidableEq, Repr

/-- Who makes the next step: an engine of a strand, an event of the table (with the walker whose strand it
concerns, if it concerns one), or time alone (log entry 1). Of what the specification describes without a row of the table,
a store passes an ordering point (R266), a checker is about to find a mismatch (R417) and a unit takes an uncorrectable
error that nothing has detected (R415). -/
inductive Actor where
  | engine (w : Walker)
  | event (w : Walker) (i : Instr)
  | tick (n : Nat)
  | advance (r : SRef) (id : Nat)
  | upset (u : Upset)
  | decay (u : PUnit)
deriving DecidableEq, Repr

/-- The state of the package. `upsets` are the mismatches to come, an input as the schedule is. `strands` is keyed by 4 ×
cell + slot, `ctxs` by 64 × cell + partition. -/
structure State where
  schedule : List Actor
  upsets : List Upset
  turn : Nat
  cur : Walker
  clock : Nat
  freeCount : Nat
  nextId : Nat
  mem : List (Nat × Byte)
  strands : FMap Strand
  cells : FMap Cell
  ctxs : FMap Context
  dies : Vector Die 4
  hub : Hub
deriving DecidableEq, Repr

/-- The faults that stop the machine. The faults of a strand are next states (R403), so one reason is left. -/
inductive Fault where
  /-- Raised by an instruction word that is executed for a walker without a resident strand, which no step does.
  Safe: the specification lets no such word issue. -/
  | noStrand
deriving DecidableEq, Repr

/-- The refusals. -/
inductive Refusal where
  /-- Raised by an arm of `exec` whose instruction has no meaning yet. Safe. -/
  | notModelled (mnemonic : String)
deriving DecidableEq, Repr

/-- The machine right after reset, before bring-up (R450): nothing resident, RDY clear, registers as the manual
states or as the assumption log names. -/
def State.reset : State where
  schedule := []
  upsets := []
  turn := 0
  cur := ⟨0, 0, .c⟩
  clock := 0
  freeCount := 0
  nextId := 0
  mem := []
  strands := []
  cells := []
  ctxs := []
  dies := Vector.replicate 4 {}
  hub := {}

end Sys2Proof.Machine
end

