-- ==== Sys2Proof/Machine/Bits.lean ====
section
/-! DEFINITION. Helpers over words, bytes and sparse data: bit fields, little-endian bytes (R5), maps by key, and
byte memory in its canonical form (strictly rising addresses, no entry equal to zero, what an unlisted byte reads
as: log entries 4 and 5).
-/

namespace Sys2Proof.Machine

/-! ## Fields -/

/-- The field hi:lo of a number. -/
def bits (x hi lo : Nat) : Nat := x / 2 ^ lo % 2 ^ (hi + 1 - lo)

/-- A field of a 64-bit word. -/
def wbits (w : Word) (hi lo : Nat) : Nat := Machine.bits w.toNat hi lo

def bit (x n : Nat) : Bool := x / 2 ^ n % 2 == 1

/-- The signed value of the low `w` bits of a number. -/
def sgn (x w : Nat) : Int :=
  let y := x % 2 ^ w
  if 2 ^ w ≤ 2 * y then (y : Int) - (2 ^ w : Nat) else y

/-- A number's value modulo 2^w, two's complement for a negative one. -/
def wrapInt (x : Int) (w : Nat) : Nat := (x % (2 ^ w : Nat)).toNat

def boolNat (b : Bool) : Nat := if b then 1 else 0

/-- Set bits of the low `n` bits. -/
def popcount (x : Nat) : Nat → Nat
  | 0 => 0
  | n + 1 => x % 2 + popcount (x / 2) n

/-- Set bits of any number, by its binary length. -/
def ones (x : Nat) : Nat := popcount x (x.log2 + 1)

/-- The numbers below `n` that satisfy `p`, ascending. -/
def filterBelow (n : Nat) (p : Nat → Bool) : List Nat := (List.range n).filter p

/-! ## Elements of a wide word -/

/-- Element `i` of width `w` bits. -/
def elem (x : Nat) (w i : Nat) : Nat := x / 2 ^ (w * i) % 2 ^ w

/-- The word whose element i, of width w, is the i-th of the list. -/
def packElems (w : Nat) : List Nat → Nat
  | [] => 0
  | x :: xs => x % 2 ^ w + 2 ^ w * packElems w xs

/-- A mask of `w` ones at each enabled element. -/
def spread (w n : Nat) (p : Nat → Bool) : Nat :=
  packElems w ((List.range n).map fun i => if p i then 2 ^ w - 1 else 0)

/-! ## Maps by key -/

def fget {α : Type} (m : FMap α) (k : Nat) : Option α := m.lookup k

def fset {α : Type} : FMap α → Nat → α → FMap α
  | [], k, v => [(k, v)]
  | (k', v') :: t, k, v =>
    if k < k' then (k, v) :: (k', v') :: t
    else if k = k' then (k, v) :: t
    else (k', v') :: fset t k v

def ferase {α : Type} : FMap α → Nat → FMap α
  | [], _ => []
  | (k', v') :: t, k => if k = k' then t else (k', v') :: ferase t k

/-! ## Byte memory -/

abbrev Mem := List (Nat × Byte)

/-- Byte at an address; an unlisted byte reads as zero (log entries 4 and 5). -/
def mread (m : Mem) (a : Nat) : Byte := (fget m a).getD 0

/-- Writing zero removes the entry, so that equal memories are equal lists. -/
def mwrite (m : Mem) (a : Nat) (b : Byte) : Mem := if b = 0 then ferase m a else fset m a b

/-- `n` bytes from `a`, little-endian (R5). -/
def readN (m : Mem) (a : Nat) : Nat → Nat
  | 0 => 0
  | n + 1 => (mread m a).toNat + 256 * readN m (a + 1) n

/-- `n` bytes to `a`, little-endian (R5). -/
def writeN (m : Mem) (a : Nat) : Nat → Nat → Mem
  | 0, _ => m
  | n + 1, v => writeN (mwrite m a (BitVec.ofNat 8 v)) (a + 1) n (v / 256)

/-- The canonical form of a byte memory. -/
def memWf : Mem → Bool
  | [] => true
  | [(_, b)] => b != 0
  | (a, b) :: (a', b') :: t => b != 0 && decide (a < a') && memWf ((a', b') :: t)

/-- `n` bytes of a number as a list, lowest first. -/
def toBytes (v : Nat) : Nat → List Byte
  | 0 => []
  | n + 1 => BitVec.ofNat 8 v :: toBytes (v / 256) n

def ofBytes : List Byte → Nat
  | [] => 0
  | b :: t => b.toNat + 256 * ofBytes t

/-- The 64-bit doublewords of a byte list. -/
def toDwords (l : List Byte) (n : Nat) : List Word :=
  (List.range n).map fun i => BitVec.ofNat 64 (ofBytes ((l.drop (8 * i)).take 8))

def dwordsToBytes (l : List Word) : List Byte := l.flatMap fun w => toBytes w.toNat 8

/-! ## Lists -/

/-- The list with entry `i` replaced. -/
def setAt {α : Type} (l : List α) (i : Nat) (x : α) : List α := l.set i x

/-- Appended when absent. -/
def insertNew (l : List Nat) (x : Nat) : List Nat := if l.contains x then l else l ++ [x]

/-- Moves or adds an entry to the front of a list of at most `n`, the least recently used dropping off (R77). -/
def touch {α : Type} [BEq α] (l : List α) (x : α) (n : Nat) : List α := (x :: l.filter (· != x)).take n

end Sys2Proof.Machine
end

