-- ==== Sys2Proof/Machine/Ops.lean ====
section
/-! DEFINITION. The named operations over the state: access to strands, cells, contexts, dies and partitions;
register reads and writes with their landing (R28 to R32); tokens and queues (R35, R36, R111); raising a fault,
delivering it and resuming from it (R403 to R411); and the issue of a word (R36, R43).
-/

namespace Sys2Proof.Machine

open Host (Outcome)

/-! ## Parts of the state -/

def SRef.key (r : SRef) : Nat := 4 * r.cell + r.slot

def Walker.ref (w : Walker) : SRef := ⟨w.cell, w.slot⟩

/-- TAG code of an engine (R17). -/
def Eng.code : Eng → Nat
  | .c => 0 | .l => 1 | .v => 2 | .m => 3 | .s => 4

def Eng.idx : Eng → Fin 5
  | .c => 0 | .l => 1 | .v => 2 | .m => 3 | .s => 4

def allEngs : List Eng := [.c, .l, .v, .m, .s]

def getStrand (s : State) (r : SRef) : Option Strand := fget s.strands (SRef.key r)

def putStrand (s : State) (r : SRef) (st : Strand) : State :=
  { s with strands := fset s.strands (SRef.key r) st }

def dropStrand (s : State) (r : SRef) : State := { s with strands := ferase s.strands (SRef.key r) }

def modStrand (s : State) (r : SRef) (f : Strand → Strand) : State :=
  match getStrand s r with
  | some st => putStrand s r (f st)
  | none => s

def getCell (s : State) (c : Nat) : Cell := (fget s.cells c).getD {}

def putCell (s : State) (c : Nat) (x : Cell) : State := { s with cells := fset s.cells c x }

def modCell (s : State) (c : Nat) (f : Cell → Cell) : State := putCell s c (f (getCell s c))

def ctxKey (cell part : Nat) : Nat := 64 * cell + part

def getCtx (s : State) (cell part : Nat) : Context := (fget s.ctxs (ctxKey cell part)).getD {}

def putCtx (s : State) (cell part : Nat) (x : Context) : State :=
  { s with ctxs := fset s.ctxs (ctxKey cell part) x }

def modCtx (s : State) (cell part : Nat) (f : Context → Context) : State :=
  putCtx s cell part (f (getCtx s cell part))

/-- The die of a cell (R3). -/
def dieOf (cell : Nat) : Nat := cell / 48 % 4

def getDie (s : State) (d : Nat) : Die := s.dies.get (Fin.ofNat 4 d)

def putDie (s : State) (d : Nat) (x : Die) : State := { s with dies := s.dies.set (Fin.ofNat 4 d) x }

def modDie (s : State) (d : Nat) (f : Die → Die) : State := putDie s d (f (getDie s d))

def getPart (s : State) (p : Nat) : Partition := (fget s.hub.parts p).getD {}

def putPart (s : State) (p : Nat) (x : Partition) : State :=
  { s with hub := { s.hub with parts := fset s.hub.parts p x } }

def modPart (s : State) (p : Nat) (f : Partition → Partition) : State := putPart s p (f (getPart s p))

def modHub (s : State) (f : Hub → Hub) : State := { s with hub := f s.hub }

def getFn (s : State) (n : Nat) : Fn := (fget s.hub.fns n).getD {}

def modFn (s : State) (n : Nat) (f : Fn → Fn) : State :=
  { s with hub := { s.hub with fns := fset s.hub.fns n (f (getFn s n)) } }

def getEng (st : Strand) (e : Eng) : EngState := st.engs.get (Eng.idx e)

def putEng (st : Strand) (e : Eng) (x : EngState) : Strand := { st with engs := st.engs.set (Eng.idx e) x }

def modEng (st : Strand) (e : Eng) (f : EngState → EngState) : Strand := putEng st e (f (getEng st e))

/-- The engine mask holds the engine (R378, R392). -/
def inMask (st : Strand) (e : Eng) : Bool := st.emask.getLsbD (Eng.code e)

/-- The engines of a strand's mask. -/
def maskEngs (st : Strand) : List Eng := allEngs.filter (inMask st)

/-- TIME: the timestamp of 1 GHz beside the 4 GHz cell clock (R16; log entry 2). -/
def timeNs (s : State) : Nat := s.clock / 4 % 2 ^ 64

/-- A fresh number for an access, copy or command. -/
def freshId (s : State) : Nat × State := (s.nextId, { s with nextId := s.nextId + 1 })

/-! ## Stops of a word -/

/-- What must happen outside the strand before an effect can be taken: die `d` pulls a page (R82), or a request of a unit
leaves the package and is answered (R76, R292, R293). -/
inductive Hold where
  | pull (d : Nat) (p : Pull)
  | away (q : AwayReq)
deriving DecidableEq, Repr

/-- Why an effect is not taken now: it waits, it waits for what must happen first, or it raises a fault. -/
inductive Stop where
  | stall
  | hold (h : Hold)
  | trap (t : Trap)
deriving DecidableEq, Repr

/-- The effect of a word or of a part of it: a value, a wait or a fault. -/
abbrev Act := Except Stop

def stall {α : Type} : Act α := .error .stall

def trap {α : Type} (t : Trap) : Act α := .error (.trap t)

/-- Raises the fault unless the check holds. -/
def check (ok : Bool) (t : Trap) : Act Unit := if ok then .ok () else trap t

/-- Waits unless the condition holds. -/
def await (ok : Bool) : Act Unit := if ok then .ok () else stall

/-- What a prefetch reads, or none where the read would raise a fault: a prefetch never does (R108, R346). -/
def unlessTrap {α : Type} : Act α → Act (Option α)
  | .ok x => .ok (some x)
  | .error (.trap _) => .ok none
  | .error e => .error e

def opField (addr : Nat) : Trap := { cause := .opField, addr := addr }

def alignTrap (addr : Nat) : Trap := { cause := .align, addr := addr }

def illegalTrap : Trap := { cause := .illegal }

/-- Starts what an effect waits for: the pull of a page, unless the package already pulls it (R78, R82), or a unit's
request, unless it is under way. -/
def startHold (s : State) : Hold → State
  | .pull d p =>
    if s.dies.toList.any fun x => x.pulls.any fun q => q.pteAddr == p.pteAddr then s
    else modDie s d fun x => { x with pulls := x.pulls ++ [p] }
  | .away q =>
    if (s.hub.away.any fun a => a.req == q) || s.hub.answers.any fun a => a.1 == q then s
    else
      let (id, s) := freshId s
      modHub s fun h => { h with away := h.away ++ [⟨id, q, none⟩] }

/-- Forgets the requests of a partition's units for an address, with their answers: the effect that waited for them has ended
in a fault, or is given up. -/
def dropAnswers (s : State) (part va : Nat) : State :=
  modHub s fun h => { h with answers := h.answers.filter (fun a => !(a.1.part == part && a.1.va == va)),
                             away := h.away.filter fun u => !(u.req.part == part && u.req.va == va) }

/-- Forgets what units of a partition have asked to read: the work that asked is given up, and other work asks again. -/
def dropReads (s : State) (part : Nat) : State :=
  modHub s fun h => { h with answers := h.answers.filter (fun a => !(a.1.part == part && a.1.data.isNone)),
                             away := h.away.filter fun u => !(u.req.part == part && u.req.data.isNone) }

/-! ## Registers and the landing of results -/

/-- Width of a register (R116, R142, R167, R171). -/
def regWidth : Reg → Nat
  | .g _ | .a _ | .b _ => 64
  | .v _ => 4096
  | .sd _ => 256
  | .em | .cm | .mk _ => 1024

/-- Every bit of a register. -/
def fullMask (r : Reg) : BitVec 4096 := BitVec.ofNat 4096 (2 ^ regWidth r - 1)

/-- The bits a register holds. `g0` reads as zero (R39). -/
def regBits (st : Strand) : Reg → BitVec 4096
  | .g n => if n = 0 then 0 else (st.g.get n.toFin).setWidth 4096
  | .a n => (st.a.get n.toFin).setWidth 4096
  | .b n => (st.b.get n.toFin).setWidth 4096
  | .v n => st.v.get n.toFin
  | .sd n => (st.sd.get n.toFin).setWidth 4096
  | .em => st.em.setWidth 4096
  | .cm => st.cm.setWidth 4096
  | .mk n => (st.saved.get n).setWidth 4096

/-- Writes all of a register. Writes to `g0` are discarded (R39). -/
def setRegBits (st : Strand) (r : Reg) (x : BitVec 4096) : Strand :=
  match r with
  | .g n => if n = 0 then st else { st with g := st.g.set n.toFin (x.setWidth 64) }
  | .a n => { st with a := st.a.set n.toFin (x.setWidth 64) }
  | .b n => { st with b := st.b.set n.toFin (x.setWidth 64) }
  | .v n => { st with v := st.v.set n.toFin x, vWritten := st.vWritten ||| BitVec.twoPow 64 n.toNat }
  | .sd n => { st with sd := st.sd.set n.toFin (x.setWidth 256) }
  | .em => { st with em := x.setWidth 1024 }
  | .cm => { st with cm := x.setWidth 1024 }
  | .mk n => { st with saved := st.saved.set n (x.setWidth 1024) }

/-- Puts the masked bits of a value into a register. A write of the whole register clears poison, a partial one
leaves it (R415). -/
def landBits (st : Strand) (r : Reg) (x mask : BitVec 4096) (poison : Bool) : Strand :=
  let st := setRegBits st r ((regBits st r &&& ~~~mask) ||| (x &&& mask))
  if poison then { st with poisoned := if st.poisoned.contains r then st.poisoned else r :: st.poisoned }
  else if mask &&& fullMask r = fullMask r then
    { st with poisoned := st.poisoned.filter (· != r), fresh := st.fresh.filter (· != r) }
  else st

/-- Lands every result whose bound has passed, oldest first, those of one register in order (R28, R30). Readers wait for one
that has no value by then. -/
def landDue (clock : Nat) (st : Strand) : List Pending → List Pending → Strand
  | [], kept => { st with pending := kept.reverse }
  | p :: rest, kept =>
    match p.val with
    | some x =>
      if p.lat < 15 && decide (p.issued + p.lat ≤ clock) && !(kept.any fun q => q.reg == p.reg) then
        landDue clock (landBits st p.reg x p.mask p.poison) rest kept
      else landDue clock st rest (p :: kept)
    | none => landDue clock st rest ((if p.issued + p.lat ≤ clock then { p with lat := 15 } else p) :: kept)

/-- The strand with every due result landed. -/
def settle (clock : Nat) (st : Strand) : Strand := landDue clock st st.pending []

/-- Lands the results to a register that have a value, in order, ahead of their bound (R28). -/
def landReg (st : Strand) (r : Reg) : List Pending → List Pending → Strand
  | [], kept => { st with pending := kept.reverse }
  | p :: rest, kept =>
    match p.val with
    | some x =>
      if p.reg = r && !(kept.any fun q => q.reg == r) then
        landReg (landBits st r x p.mask p.poison) r rest kept
      else landReg st r rest (p :: kept)
    | none => landReg st r rest (p :: kept)

/-- R34: every result whose value is known lands. -/
def landAll (st : Strand) : List Pending → List Pending → Strand
  | [], kept => { st with pending := kept.reverse }
  | p :: rest, kept =>
    match p.val with
    | some x =>
      if kept.any fun q => q.reg == p.reg then landAll st rest (p :: kept)
      else landAll (landBits st p.reg x p.mask p.poison) rest kept
    | none => landAll st rest (p :: kept)

/-- LMODE bit 0 at the engine: interlocked mode (R31, R32). -/
def interlocked (st : Strand) (e : Eng) : Bool := (getEng st e).lmode.getLsbD 0

/-- A vector register that has been saved and is not yet restored (R136). -/
def regOut (st : Strand) : Reg → Bool
  | .v n => st.vOut.getLsbD n.toNat
  | _ => false

/-- What an exposed-mode read of a descriptor register gives while results to it are pending: for each 64-bit word, the
old value or the new one of each result, as the bits of `x` choose (R31, R117). -/
def mixedDesc (x old : BitVec 4096) (ps : List Pending) : BitVec 4096 :=
  ps.zipIdx.foldl (fun cur p =>
    let pick := BitVec.ofNat 4096 (spread 64 4 fun w => x.getLsbD (4 * p.2 + w))
    let take := p.1.mask &&& pick
    match p.1.val with
    | some y => (cur &&& ~~~take) ||| (y &&& take)
    | none => cur) old

/-- A register read in the issue cycle (R29). A pending result to it holds the reader in interlocked mode or with
LAT 15 (R28, R32); in exposed mode the read is a free value (R31; log entry 3), for a descriptor the old or the new value
of each word (R117). A poisoned register raises POISON (R415). A vector register that a departed strand had saved waits to
be restored (R136). `salt` numbers the word's reads. -/
def readReg (st : Strand) (e : Eng) (salt : Nat) (r : Reg) : Act (BitVec 4096) :=
  if regOut st r then stall else
  match st.pending.filter (fun p => p.reg == r) with
  | [] =>
    if st.poisoned.contains r then trap { cause := .poison, detail := 1, unit := some (.reg st.uid r) }
    else .ok (regBits st r)
  | ps =>
    if interlocked st e || ps.any (fun p => p.lat == 15) then stall
    else
      let x := Config.freeBits (16 * st.free + salt)
      match r with
      | .sd _ => .ok (mixedDesc x (regBits st r) ps)
      | _ => .ok (x &&& fullMask r)

/-- A result with its bound: it is kept until it lands. With LAT 15 it lands at once, after the older results of
the register (R28, R30); while an older one has no value yet, it waits its turn behind it. -/
def writeReg (clock : Nat) (st : Strand) (e : Eng) (lat : Nat) (r : Reg) (x mask : BitVec 4096) : Strand :=
  let p : Pending := { eng := e, pos := (getEng st e).passed, reg := r, val := some x, mask := mask,
                       issued := clock, lat := lat }
  let st := { st with pending := st.pending ++ [p] }
  if lat = 15 then landReg st r st.pending [] else st

def readG (st : Strand) (salt : Nat) (n : BitVec 5) : Act Word := do
  let x ← readReg st .c salt (.g n)
  .ok (x.setWidth 64)

def readA (st : Strand) (salt : Nat) (n : BitVec 4) : Act Word := do
  let x ← readReg st .l salt (.a n)
  .ok (x.setWidth 64)

def readB (st : Strand) (salt : Nat) (n : BitVec 4) : Act Word := do
  let x ← readReg st .s salt (.b n)
  .ok (x.setWidth 64)

/-- A descriptor as L or S reads it (R116, R117). -/
def readSd (st : Strand) (e : Eng) (salt : Nat) (n : BitVec 4) : Act Desc := do
  let x ← readReg st e salt (.sd n)
  .ok (x.setWidth 256)

/-- A 64-bit result for a g, a or b register. -/
def writeWord (clock : Nat) (st : Strand) (e : Eng) (lat : BitVec 4) (r : Reg) (x : Word) : Strand :=
  match r with
  | .g n => if n = 0 then st else writeReg clock st e lat.toNat r (x.setWidth 4096) (fullMask r)
  | r => writeReg clock st e lat.toNat r (x.setWidth 4096) (fullMask r)

/-! ## Tokens -/

/-- The six token FIFOs, numbered LM, ML, MV, VM, VS, SV (R35). -/
def getTok (t : Tokens) : Nat → List TokPlace
  | 0 => t.lm | 1 => t.ml | 2 => t.mv | 3 => t.vm | 4 => t.vs | _ => t.sv

def putTok (t : Tokens) (n : Nat) (l : List TokPlace) : Tokens :=
  match n with
  | 0 => { t with lm := l } | 1 => { t with ml := l } | 2 => { t with mv := l }
  | 3 => { t with vm := l } | 4 => { t with vs := l } | _ => { t with sv := l }

/-- The FIFO from an engine to its previous or next neighbour, and from each to it (R35). -/
def tokOutPrev : Eng → Option Nat
  | .m => some 1 | .v => some 3 | .s => some 5 | _ => none
def tokOutNext : Eng → Option Nat
  | .l => some 0 | .m => some 2 | .v => some 4 | _ => none
def tokInPrev : Eng → Option Nat
  | .m => some 0 | .v => some 2 | .s => some 4 | _ => none
def tokInNext : Eng → Option Nat
  | .l => some 1 | .m => some 3 | .v => some 5 | _ => none

/-- Takes the head of a FIFO when it is filled (R36, R93). -/
def popTok (st : Strand) (n : Option Nat) : Act Strand :=
  match n with
  | none => stall
  | some n =>
    match getTok st.tok n with
    | p :: rest => if p.filled then .ok { st with tok := putTok st.tok n rest } else stall
    | [] => stall

/-- Reserves a place of a FIFO that holds at most eight (R35, R36). -/
def reserveTok (st : Strand) (n : Option Nat) (p : TokPlace) : Act Strand :=
  match n with
  | none => stall
  | some n =>
    let l := getTok st.tok n
    if l.length < 8 then .ok { st with tok := putTok st.tok n (l ++ [p]) } else stall

/-- The pops and reservations of a word at an engine (R36). -/
def takeTokens (st : Strand) (e : Eng) (pos : Nat) (tk : Tk) : Act Strand := do
  let st ← if tk.pbp then popTok st (tokInPrev e) else .ok st
  let st ← if tk.pbn then popTok st (tokInNext e) else .ok st
  let st ← if tk.pap then reserveTok st (tokOutPrev e) { eng := e, pos := pos } else .ok st
  if tk.pan then reserveTok st (tokOutNext e) { eng := e, pos := pos } else .ok st

/-- Appends a token that is pushed at once. -/
def pushTokNow (st : Strand) (n : Nat) (e : Eng) (pos : Nat) : Strand :=
  { st with tok := putTok st.tok n (getTok st.tok n ++ [{ eng := e, pos := pos, filled := true }]) }

/-- Some operation of the engine is under way for a word whose place satisfies `p`: a result that has not landed, an
access, a call, a fill, a row-pointer stream, a store, a matrix word, a drain, a nest, a predicate or a routine (R36,
R233). -/
def busyAt (st : Strand) (e : Eng) (p : Nat → Bool) : Bool :=
  (st.pending.any fun x => x.eng == e && p x.pos) ||
  (st.accs.any fun a => a.eng == e && p a.pos && !a.flag) || (e == .c && st.calls.any fun x => p x.pos) ||
  (e == .l && ((st.fills.any fun f => p f.pos) || (match st.rps with | some r => p r.pos | none => false) ||
      match st.lean with | some ln => ln.held.any fun h => p h.pos | none => false)) ||
  (e == .s && st.stores.any fun x => p x.pos) ||
  (e == .m && ((st.mwords.any fun x => p x.pos) ||
    (match st.drain with | some d => p d.pos | none => false) ||
    (match st.nest with | some d => p d.pos | none => false))) ||
  (e == .v && match st.pred with | some x => p x.pos | none => false) ||
  (e != .s && (getEng st e).micro.isSome && p (getEng st e).passed)

/-- A word's effects on the state are complete (R36). S completes its words in order, so a later word's token waits for the
stores before it (R118). -/
def wordDone (st : Strand) (e : Eng) (pos : Nat) : Bool :=
  !busyAt st e fun p => if e = .s then decide (p ≤ pos) else p == pos

/-- Stores all of whose accesses have performed retire from the pending-store table (R119). -/
def retireStores (st : Strand) : Strand :=
  { st with stores := st.stores.filter fun x => !x.sent || st.accs.any fun a => a.eng == .s && a.pos == x.pos }

/-- Every earlier word of an engine has completed. -/
def engDone (st : Strand) (e : Eng) : Bool :=
  !busyAt st e (fun _ => true) && !(e == .l && st.lean.isSome)

/-- How far an engine has certainly gone: L on a leaning arm only to its branch (R121). -/
def surePassed (st : Strand) (e : Eng) : Nat :=
  match e, st.lean with
  | .l, some ln => ln.saved.passed
  | e, _ => (getEng st e).passed

/-- Every word before a place in program order has completed in every engine of the mask (R151). -/
def doneBefore (st : Strand) (pos : Nat) : Bool :=
  (maskEngs st).all fun e => decide (pos ≤ surePassed st e) && !busyAt st e (fun p => decide (p < pos))

/-- The resident strand with a `uid`. -/
def strandByUid (s : State) (uid : Nat) : Option (SRef × Strand) :=
  (s.strands.find? fun p => p.2.uid == uid).map fun (k, st) => (⟨k / 4, k % 4⟩, st)

/-- Changes the strand with a `uid`, resident or departed (R107). -/
def modByUid (s : State) (uid : Nat) (f : Strand → Strand) : State :=
  { s with strands := s.strands.map fun (k, st) => (k, if st.uid == uid then f st else st),
           ctxs := s.ctxs.map fun (k, c) =>
             (k, { c with departed := c.departed.map fun st => if st.uid == uid then f st else st }) }

/-- The strand with a `uid`, resident or departed. -/
def findUid (s : State) (uid : Nat) : Option Strand :=
  match strandByUid s uid with
  | some (_, st) => some st
  | none => (s.ctxs.flatMap fun p => p.2.departed).find? fun st => st.uid == uid

/-! ## Charges and counts -/

/-- Charges are kept in units of 1/1,638,400 nJ, so that every charge of R438, a multiple of 0.01 nJ or of 2^-16 nJ,
is a whole number (R437). -/
def energyUnit : Nat := 1638400

/-- A charge in hundredths of a nanojoule. -/
def centiNj (n : Nat) : Nat := 16384 * n

/-- Charges a list of regions, from the strand's region up to the root (R376, R439). -/
def chargeRegions (rs : List Region) (part : Nat) : Nat → Nat → Nat → List Region
  | 0, _, _ => rs
  | fuel + 1, addr, x =>
    match rs.find? (fun r => r.addr == addr && r.part == part) with
    | none => rs
    | some r =>
      let rs := rs.map fun q => if q.addr == addr && q.part == part then
        { q with balance := q.balance - x, used := q.used + x,
                 paused := q.paused || (q.ebud != 2 ^ 40 - 1 && decide (q.balance - x ≤ 0)) }
        else q
      if r.parent = 0 then rs else chargeRegions rs part fuel r.parent x

/-- A charge of an operation of a strand (R437 to R440): its regions, its partition and its die's window. `matrix`
charges do not consume the share at this point (R440). -/
def charge (s : State) (cell part rcb : Nat) (matrix : Bool) (x : Nat) : State :=
  let s := modDie s (dieOf cell) fun d =>
    { d with energy := d.energy + x, share := if matrix then d.share else d.share - x }
  let s := { s with dies := s.dies.map fun d => { d with regions := chargeRegions d.regions part 8 rcb x } }
  modPart s part fun p =>
    let t := p.energyFrac + x
    { p with energyFrac := t % energyUnit, counters := { p.counters with energy := p.counters.energy + t / energyUnit } }

def chargeStrand (s : State) (r : SRef) (x : Nat) : State :=
  match getStrand s r with
  | some st => charge s r.cell st.part st.sid.rcb false x
  | none => s

/-- Adds to every performance counter of the strand that is programmed with the event (R401). -/
def perfAdd (st : Strand) (evt n : Nat) : Strand :=
  { st with perf := st.perf.map fun w =>
      if wbits w 63 56 = evt && evt != 0 then
        BitVec.ofNat 64 (evt * 2 ^ 56 + (w.toNat % 2 ^ 56 + n) % 2 ^ 56)
      else w }

/-- Who pays for an access and whose counters it moves (R376, R401, R402): a strand where it is resident, or by its `uid` when
it may have departed. -/
structure Payer where
  cell : Nat
  part : Nat
  rcb : Nat
  ref : Option SRef
  uid : Nat
deriving DecidableEq, Repr

/-- A resident strand pays. -/
def payerAt (s : State) (r : SRef) : Payer :=
  match getStrand s r with
  | some st => ⟨r.cell, st.part, st.sid.rcb, some r, st.uid⟩
  | none => ⟨r.cell, 0, 0, some r, 0⟩

def chargeFor (s : State) (p : Payer) (x : Nat) : State := charge s p.cell p.part p.rcb false x

def perfFor (s : State) (p : Payer) (evt n : Nat) : State :=
  match p.ref with
  | some r => modStrand s r fun st => perfAdd st evt n
  | none => modByUid s p.uid fun st => perfAdd st evt n

/-! ## Faults: raising, delivering, resolving -/

/-- Cause codes (R407). -/
def Cause.code : Cause → Nat
  | .illegal => 0x01 | .unbound => 0x02 | .latBound => 0x04 | .opField => 0x05 | .translation => 0x08
  | .permission => 0x09 | .memType => 0x0A | .align => 0x0B | .staleHandle => 0x0C | .migLost => 0x0D
  | .poison => 0x0E | .foreign => 0x10 | .stepBound => 0x11 | .microIllegal => 0x12 | .spmDup => 0x14
  | .packOverrun => 0x15 | .pattern => 0x16 | .nonInvertible => 0x17 | .nonFinite => 0x18 | .opmState => 0x19
  | .queueProto => 0x1A | .trap => 0x20 | .uncorrectable => 0x30 | .watchdog => 0x31

/-- Whether a cause is logged when it is raised (R84, R407). -/
def trapLogged (t : Trap) : Bool :=
  match t.cause with
  | .permission | .memType | .migLost | .foreign | .uncorrectable | .watchdog => true
  | .translation => t.detail == 3
  | _ => t.logged

/-- Classes of causes (R407). -/
inductive FaultClass where
  | resumable | restartable | terminal
deriving DecidableEq, Repr

def Cause.cls : Cause → FaultClass
  | .translation | .nonFinite | .trap => .resumable
  | .stepBound => .terminal
  | _ => .restartable

/-- A die error-log entry (R413). -/
def logEntry (s : State) (code detail part cell eng va : Nat) (pa : Option Nat) (extra : List Word) : List Word :=
  [BitVec.ofNat 64 (timeNs s),
   BitVec.ofNat 64 (code * 2 ^ 56 + detail * 2 ^ 48 + s.hub.pkg.toNat * 2 ^ 38 + part * 2 ^ 32 + cell * 2 ^ 24 +
     eng * 2 ^ 21),
   BitVec.ofNat 64 va,
   match pa with
   | some a => BitVec.ofNat 64 (2 ^ 63 + a)
   | none => 0] ++ (extra ++ [0, 0, 0, 0]).take 4

/-- Sends an MSI-X message of a function, or marks it pending while the vector's mask bit is set (R447; log entry
18). -/
def sendMsix (s : State) (fn vec : Nat) : State :=
  modFn s fn fun f =>
    if (f.msixTable.get (Fin.ofNat 16 (2 * vec + 1))).getLsbD 32 then
      { f with msixPending := f.msixPending ||| BitVec.ofNat 8 (2 ^ vec) }
    else { f with sent := f.sent ++ [vec] }

/-- The entries of a log, of the hub as log 4 (R413). -/
def logOf (s : State) (d : Nat) : List (List Word) := if d < 4 then (getDie s d).log else s.hub.log

def setLog (s : State) (d : Nat) (l : List (List Word)) : State :=
  if d < 4 then modDie s d fun x => { x with log := l } else modHub s fun h => { h with log := l }

/-- The management controller takes the oldest entry of a log, to be read by the host (R413, R414). -/
def drainLog (s : State) (d : Nat) : State :=
  match logOf s d with
  | [] => s
  | e :: rest =>
    modHub (setLog s d rest) fun h => { h with drained := fset h.drained d ((fget h.drained d).getD [] ++ [e]) }

/-- Writes an entry to a log. A full log of 4096 entries is drained first, so that no event is dropped (R414). The PF's
vector 3 goes out when a log becomes non-empty (R447). -/
def addLog (s : State) (d : Nat) (e : List Word) : State :=
  let s := if 4096 ≤ (logOf s d).length then drainLog s d else s
  let first := (logOf s d).isEmpty
  let s := setLog s d (logOf s d ++ [e])
  if first then sendMsix s 0 3 else s

/-- FLTCAUSE of a fault (R405). -/
def fltCauseOf (q : QFault) (pend : Bool) : Word :=
  BitVec.ofNat 64 ((match q.chan with | some c => c * 2 ^ 24 + 2 ^ 23 | none => 0) +
    boolNat q.mic.isSome * 2 ^ 22 + boolNat pend * 2 ^ 21 + q.trap.level * 2 ^ 18 + q.trap.detail * 2 ^ 8 +
    Cause.code q.trap.cause)

/-- Sets PEND in the record of the fault being resolved (R404, R405). -/
def setPend (s : State) (st : Strand) : State :=
  match st.delivered with
  | none => s
  | some d =>
    match d.place with
    | .window i =>
      modFn s st.part fun f =>
        let k := Fin.ofNat 64 i
        match f.window.get k with
        | c :: rest => { f with window := f.window.set k ((c ||| 0x200000) :: rest) }
        | [] => f
    | .area home va pa _ =>
      if home == .hbm || home == .second then { s with mem := mwrite s.mem (pa + 2) (mread s.mem (pa + 2) ||| 0x20) }
      else
        let byte := BitVec.ofNat 8 (wbits (fltCauseOf d.fault true) 23 16)
        startHold s (.away ⟨st.part, 0, home, va + 2, pa + 2, 1, some [byte], false, true⟩)

/-- A strand stops issuing: what it issues afterwards is later in program order than the accesses it has issued, which no
longer wait for the words of other engines before them in the text (R289). -/
def releaseSeen (st : Strand) : Strand :=
  { st with accs := st.accs.map fun a => { a with seen := {} }, stores := st.stores.map fun x => { x with seen := {} } }

/-- The place of a fault among those of one cycle: the engines by TAG, a channel after every engine (R404). -/
def faultRank (q : QFault) : Nat :=
  match q.chan with
  | some ch => 8 + ch
  | none => q.eng

/-- The queued faults with one more, in the order of their detection (R404). At most 24 wait. -/
def addFault (l : List QFault) (q : QFault) : List QFault :=
  let first (x : QFault) : Bool := decide (x.cycle < q.cycle) || decide (faultRank x ≤ faultRank q)
  (l.takeWhile first ++ q :: l.dropWhile first).take 24

/-- Freezes a strand and queues the fault (R403, R404). Results in flight land (R34). -/
def queueFault (s : State) (r : SRef) (q : QFault) : State :=
  match getStrand s r with
  | none => s
  | some st =>
    let st := releaseSeen (landAll st st.pending [])
    putStrand (setPend s st) r { st with frozen := true, faults := addFault st.faults q }

/-- The log entry that a fault of a cell's unit makes (R84, R407). -/
def logFault (s : State) (cell part : Nat) (q : QFault) : State :=
  if trapLogged q.trap then
    addLog s (dieOf cell) (logEntry s (Cause.code q.trap.cause) q.trap.detail part cell q.eng q.trap.addr q.trap.paddr [])
  else s

/-- A day in cell cycles. -/
def dayCycles : Nat := 24 * 3600 * 4000000000

/-- Counts an UNCORRECTABLE with DETAIL 1, 3 or 4 against its cell: the second one within 24 h calls for a test (R419). -/
def noteError (s : State) (cell : Nat) (t : Trap) : State :=
  if t.cause = .uncorrectable && [1, 3, 4].contains t.detail then
    modCell s cell fun c =>
      let recent := c.ueTimes.filter fun x => decide (s.clock < x + dayCycles)
      { c with ueTimes := s.clock :: recent, testing := c.testing || (!recent.isEmpty && !c.fenced) }
  else s

/-- The error of a poisoned unit has not been detected before. -/
def isFresh (s : State) : PUnit → Bool
  | .reg uid r => match findUid s uid with | some st => st.fresh.contains r | none => false
  | .slot uid n => match findUid s uid with | some st => (st.om.get (Fin.ofNat 32 n)).fresh | none => false
  | .tile uid n => match findUid s uid with | some st => (st.acc.get (Fin.ofNat 16 n)).fresh | none => false
  | .row cell r => (getCell s cell).spmFresh.contains r
  | .lq uid i => (match findUid s uid with | some st => (match st.lq[i]? with | some x => x.fresh | none => false) | none => false)
  | .sq uid i => (match findUid s uid with | some st => (match st.sq[i]? with | some x => x.fresh | none => false) | none => false)

/-- The error of a poisoned unit is known from now on. -/
def clearFresh (s : State) : PUnit → State
  | .reg uid r => modByUid s uid fun st => { st with fresh := st.fresh.filter (· != r) }
  | .slot uid n => modByUid s uid fun st =>
      { st with om := st.om.set (Fin.ofNat 32 n) { st.om.get (Fin.ofNat 32 n) with fresh := false } }
  | .tile uid n => modByUid s uid fun st =>
      { st with acc := st.acc.set (Fin.ofNat 16 n) { st.acc.get (Fin.ofNat 16 n) with fresh := false } }
  | .row cell r => modCell s cell fun c => { c with spmFresh := c.spmFresh.filter (· != r) }
  | .lq uid i => modByUid s uid fun st => { st with lq := st.lq.modify i fun x => { x with fresh := false } }
  | .sq uid i => modByUid s uid fun st => { st with sq := st.sq.modify i fun x => { x with fresh := false } }

/-- The first detection of an uncorrectable error raises UNCORRECTABLE where a later read of the unit raises POISON (R415). -/
def firstDetection (s : State) (t : Trap) : State × Trap :=
  match t.unit with
  | some u => if isFresh s u then (clearFresh s u, { t with cause := .uncorrectable }) else (s, t)
  | none => (s, t)

/-- Logs a fault of a resident strand, freezes it and queues the fault. -/
def raiseAt (s : State) (r : SRef) (q : QFault) : State :=
  let (s, t) := firstDetection s q.trap
  let q := { q with trap := t }
  match getStrand s r with
  | none => s
  | some st => dropAnswers (queueFault (noteError (logFault s r.cell st.part q) r.cell q.trap) r q) st.part q.trap.addr

/-- A fault of the word at an engine's program counter (R44, R403). -/
def raiseWord (s : State) (w : Walker) (t : Trap) : State :=
  match getStrand s (Walker.ref w) with
  | none => s
  | some st =>
    let en := getEng st w.eng
    let micro := if w.eng = .s then none else en.micro
    let mic := micro.map fun m => (m.mpc % 4096, m.steps)
    let index := match micro with | some m => m.index | none => en.pc
    let q : QFault := ⟨t, Eng.code w.eng, index, st.overlay.toNat, none, mic, s.clock⟩
    match w.eng, st.lean with
    | .l, some ln =>
      -- R121: on a leaning arm the fault is recorded and waits for the outcome
      putStrand s (Walker.ref w) { st with lean := some { ln with fault := ln.fault.or (some q) } }
    | _, _ => raiseAt s (Walker.ref w) q

/-- A fault of an earlier word of an engine, at the data stage or while its access performs. -/
def raiseLate (s : State) (r : SRef) (e : Eng) (index : Nat) (t : Trap) : State :=
  match getStrand s r with
  | none => s
  | some st => raiseAt s r ⟨t, Eng.code e, index, st.overlay.toNat, none, none, s.clock⟩

/-- FLTPC of a fault (R405). -/
def fltPcOf (q : QFault) : Word := BitVec.ofNat 64 (q.ovl * 2 ^ 24 + q.eng * 2 ^ 20 + q.word)

/-- STRANDID and CTX (R341). -/
def strandIdReg (st : Strand) : Word :=
  BitVec.ofNat 64 (st.sid.z.toNat * 2 ^ 32 + st.sid.y.toNat * 2 ^ 16 + st.sid.x.toNat)

def ctxReg (s : State) (r : SRef) (st : Strand) : Word :=
  BitVec.ofNat 64 (s.hub.pkg.toNat * 2 ^ 24 + r.cell * 2 ^ 16 + st.part * 2 ^ 8 + r.slot)

/-- The fault record of 64 bytes (R408), its ACTION 00. -/
def faultRecord (s : State) (r : SRef) (st : Strand) (q : QFault) (pend : Bool) : List Word :=
  [fltCauseOf q pend, BitVec.ofNat 64 q.trap.addr, fltPcOf q,
   match q.trap.paddr with | some a => BitVec.ofNat 64 (2 ^ 63 + a) | none => 0,
   strandIdReg st, ctxReg s r st,
   BitVec.ofNat 64 (st.sid.launch * 2 ^ 32 + q.cycle / 4 % 2 ^ 32),
   match q.mic with
   | some (mpc, steps) => BitVec.ofNat 64 (steps * 2 ^ 44 + mpc * 2 ^ 32)
   | none => 0]

/-! ## Bound opcodes -/

/-- The bind-table entry that serves a bound word of an engine: a `bind` that the engine is still before does not bear on it
(R54). -/
def boundEntry (c : Context) (st : Strand) (e : Eng) (n : BitVec 6) : Word :=
  match st.oldBinds.find? fun b => b.2.1 == n && decide ((getEng st e).passed < b.1) with
  | some b => b.2.2
  | none => c.bindTab.get n.toFin

/-- C replaces an entry: the old one is kept while an engine is before the `bind` (R54). -/
def noteBind (st : Strand) (n : BitVec 6) (old : Word) : List (Nat × BitVec 6 × Word) :=
  (st.oldBinds ++ [((getEng st .c).passed, n, old)]).filter fun b =>
    (maskEngs st).any fun e => decide ((getEng st e).passed < b.1)

/-! ## Issue of a word -/

/-- Moves an engine past the word it has completed or skipped (R26, R317, R326). -/
def stepPast (s : State) (st : Strand) (e : Eng) : Strand :=
  modEng st e fun en =>
    { en with pc := en.pc + 1, passed := en.passed + 1, arrived := true, idle := 0, lastIssue := some s.clock }

/-- Jumps to another word (R323). A taken branch completes no word of the target's loop. -/
def jumpTo (s : State) (st : Strand) (e : Eng) (target : Nat) (arrived : Bool) : Strand :=
  modEng st e fun en =>
    { en with pc := target, passed := en.passed + 1, arrived := arrived, idle := 0, lastIssue := some s.clock }

/-- The C word counts: PERF event 0x01, CCYC and 0.3 nJ (R401, R433, R438). -/
def countC (s : State) (r : SRef) : State :=
  match getStrand s r with
  | none => s
  | some st =>
    let s := putStrand s r (perfAdd st 0x01 1)
    let s := modPart s st.part fun p => { p with counters := { p.counters with ccyc := p.counters.ccyc + 1 } }
    chargeStrand s r (centiNj 30)

/-- Issues a word at the current walker: due results land, tokens are popped and places reserved, then the body
takes its effect on the whole state (R29, R36, R43). A word that must wait leaves the state as it is; one that
raises a fault has no effect but the fault (R34). -/
def issueWith (s : State) (tk : Tk) (body : Walker → Strand → State → Act State) :
    Outcome State Fault Refusal :=
  let w := s.cur
  match getStrand s (Walker.ref w) with
  | none => .fault .noStrand
  | some st =>
    let st := { settle s.clock st with free := s.freeCount }
    match (do
      let st' ← takeTokens st w.eng (getEng st w.eng).passed tk
      body w st' (putStrand { s with freeCount := s.freeCount + 1 } (Walker.ref w) st')) with
    | .ok s' => .next s'
    | .error .stall => .next s
    | .error (.hold h) => .next (startHold s h)
    | .error (.trap t) => .next (raiseWord s w t)

/-- A word whose effect stays within its strand, after which its engine goes on to the next word. -/
def issueLocal (s : State) (tk : Tk) (body : Walker → Strand → Act Strand) : Outcome State Fault Refusal :=
  issueWith s tk fun w st s' => do
    let st' ← body w st
    .ok (putStrand s' (Walker.ref w) (stepPast s' st' w.eng))

/-- As `issueLocal`, with the charge of the word in units of `energyUnit` (R438). -/
def issueCharged (s : State) (tk : Tk) (cost : Nat) (body : Walker → Strand → Act Strand) :
    Outcome State Fault Refusal :=
  issueWith s tk fun w st s' => do
    let st' ← body w st
    .ok (chargeStrand (putStrand s' (Walker.ref w) (stepPast s' st' w.eng)) (Walker.ref w) cost)

/-- A C word local to its strand. -/
def issueC (s : State) (body : Walker → Strand → Act Strand) : Outcome State Fault Refusal :=
  issueWith s Tk.none fun w st s' => do
    let st' ← body w st
    .ok (countC (putStrand s' (Walker.ref w) (stepPast s' st' w.eng)) (Walker.ref w))

end Sys2Proof.Machine
end

