-- ==== Sys2Proof/Machine/Flags.lean ====
section
/-! DEFINITION. The FLAGS register (R149 to R151): its six sticky bits, the place in program order of the words that
raised them, and what a read or write of the register sees.
-/

namespace Sys2Proof.Machine

/-- The bits of FLAGS (R149): NV 0, DZ 1, OF 2, UF 3, NX 4, IDZ 5. -/
def flagNV : BitVec 6 := 0x01
def flagDZ : BitVec 6 := 0x02
def flagOF : BitVec 6 := 0x04
def flagUF : BitVec 6 := 0x08
def flagNX : BitVec 6 := 0x10
def flagIDZ : BitVec 6 := 0x20

/-- Records the flags a word raises with its place in program order (R151). -/
def raiseFlags (st : Strand) (pos : Nat) (f : BitVec 6) : Strand :=
  if f = 0 then st else { st with flagLog := st.flagLog ++ [(pos, f)] }

/-- The union of the flags that words before a place in program order have raised. -/
def flagsBefore (st : Strand) (pos : Nat) : BitVec 6 :=
  st.flagLog.foldl (fun x p => if p.1 < pos then x ||| p.2 else x) st.flags

end Sys2Proof.Machine
end

