-- ==== Sys2Proof/Machine/Float.lean ====
section
/-! DEFINITION. Exact arithmetic on floating-point and tapered values and its one rounding (R144 to R148, R152 to
R156): a value is a NaN, an infinity or a signed dyadic number m × 2^e; an operation is computed exactly and rounded
once to its format.
-/

namespace Sys2Proof.Machine

/-- A binary format: exponent and fraction bits (R144). -/
structure Fmt where
  eb : Nat
  mb : Nat
deriving DecidableEq, Repr

def fmt16 : Fmt := ⟨5, 10⟩
def fmtBf : Fmt := ⟨8, 7⟩
def fmt32 : Fmt := ⟨8, 23⟩
def fmt64 : Fmt := ⟨11, 52⟩

/-- The format of an IEEE type. -/
def fmtOf : Ty → Fmt
  | .f16 => fmt16 | .bf16 => fmtBf | .f64 => fmt64 | _ => fmt32

def fmtBias (f : Fmt) : Nat := 2 ^ (f.eb - 1) - 1

def fmtWidth (f : Fmt) : Nat := f.eb + f.mb + 1

/-- An exact value: a NaN, signalling or quiet, an infinity, or (−1)^neg × m × 2^e. -/
inductive FV where
  | nan (sig : Bool)
  | inf (neg : Bool)
  | num (neg : Bool) (m : Nat) (e : Int)
deriving DecidableEq, Repr

/-- Rounding modes in the code of R145. -/
inductive RMode where
  | ne | rz | rd | ru
deriving DecidableEq, Repr

/-! ## Decoding -/

/-- Reads a pattern of an IEEE format, a subnormal as zero when flushed (R144, R146, R148). -/
def decodeF (f : Fmt) (flush : Bool) (x : Nat) : FV :=
  let neg := bit x (f.eb + f.mb)
  let ex := x / 2 ^ f.mb % 2 ^ f.eb
  let fr := x % 2 ^ f.mb
  if ex = 2 ^ f.eb - 1 then
    if fr = 0 then .inf neg else .nan (!bit fr (f.mb - 1))
  else if ex = 0 then .num neg (if flush then 0 else fr) (1 - (fmtBias f : Int) - f.mb)
  else .num neg (2 ^ f.mb + fr) ((ex : Int) - fmtBias f - f.mb)

/-- Length of the run of bits equal to the first, below bit `n` (R152). -/
def runLength (mag : Nat) (first : Bool) : Nat → Nat
  | 0 => 0
  | n + 1 => if bit mag n == first then runLength mag first n + 1 else 0

/-- Magnitude bits of a tapered code (R152): significand and exponent. -/
def decodeMag (n es mag : Nat) : Nat × Int :=
  if mag = 0 then (0, 0)
  else
    let first := bit mag (n - 1)
    let m := runLength mag first n
    let k : Int := if first then (m : Int) - 1 else -(m : Int)
    let rl := n - m - 1
    let rest := mag % 2 ^ rl
    let e := if es ≤ rl then rest / 2 ^ (rl - es) else rest * 2 ^ (es - rl)
    let nf := rl - es
    (2 ^ nf + rest % 2 ^ nf, k * (2 ^ es : Nat) + e - nf)

/-- Bits and exponent size of a tapered type (R152). -/
def taperOf : Ty → Nat × Nat
  | .t6 => (5, 0)
  | _ => (7, 1)

/-- Reads a tapered code; NaR is a quiet NaN (R152, R155). -/
def decodeT (t : Ty) (x : Nat) : FV :=
  let (n, es) := taperOf t
  let neg := bit x n
  let mag := x % 2 ^ n
  if mag = 0 then (if neg then .nan false else .num false 0 0)
  else
    let (m, e) := decodeMag n es mag
    .num neg m e

/-- Reads an element of a type as a value; integers exactly. -/
def decodeV (t : Ty) (flush : Bool) (x : Nat) : FV :=
  if t.isF then decodeF (fmtOf t) flush x
  else if t.isT then decodeT t x
  else if t.isSigned then .num (decide (sgn x t.width < 0)) (sgn x t.width).natAbs 0
  else .num false (x % 2 ^ t.width) 0

/-! ## Rounding -/

/-- m / 2^k rounded to an integer, and whether it was inexact. -/
def roundShift (mode : RMode) (neg : Bool) (m k : Nat) : Nat × Bool :=
  let q := m / 2 ^ k
  let r := m % 2 ^ k
  let up := match mode with
    | .ne => decide (2 ^ k < 2 * r) || (decide (2 ^ k = 2 * r) && q % 2 == 1)
    | .rz => false
    | .rd => neg && r != 0
    | .ru => !neg && r != 0
  (if up then q + 1 else q, r != 0)

/-- m × 2^e rounded to a multiple of 2^q, in units of 2^q. -/
def roundAt (mode : RMode) (neg : Bool) (m : Nat) (e q : Int) : Nat × Bool :=
  if q ≤ e then (m * 2 ^ (e - q).toNat, false) else roundShift mode neg m (q - e).toNat

def fInf (f : Fmt) (neg : Bool) : Nat := boolNat neg * 2 ^ (f.eb + f.mb) + (2 ^ f.eb - 1) * 2 ^ f.mb

/-- The canonical NaN (R146). -/
def fNan (f : Fmt) : Nat := (2 ^ f.eb - 1) * 2 ^ f.mb + 2 ^ (f.mb - 1)

def fZero (f : Fmt) (neg : Bool) : Nat := boolNat neg * 2 ^ (f.eb + f.mb)

/-- What an overflow becomes (R147). -/
def fOver (f : Fmt) (mode : RMode) (neg : Bool) : Nat :=
  let toInf := match mode with
    | .ne => true
    | .rz => false
    | .rd => neg
    | .ru => !neg
  if toInf then fInf f neg else fInf f neg - 1

/-- An exact nonzero number rounded once to a format, with its flags (R147, R148). The test for a tiny result looks
at the value rounded with an unbounded exponent (log entry 21). -/
def roundNum (f : Fmt) (mode : RMode) (flush neg : Bool) (m : Nat) (e : Int) : Nat × BitVec 6 :=
  let top : Int := m.log2 + e
  let qU := top - f.mb
  let nU := (roundAt mode neg m e qU).1
  let topU := if 2 ^ (f.mb + 1) ≤ nU then top + 1 else top
  let emin : Int := 1 - (fmtBias f : Int)
  let tiny := decide (topU < emin)
  if tiny && flush then (fZero f neg, flagUF ||| flagNX)
  else if (fmtBias f : Int) < topU then (fOver f mode neg, flagOF ||| flagNX)
  else
    let q := max qU (emin - f.mb)
    let (n, ix) := roundAt mode neg m e q
    let ex := (q + f.mb + fmtBias f).toNat
    (boolNat neg * 2 ^ (f.eb + f.mb) + (ex * 2 ^ f.mb + n - 2 ^ f.mb),
     if ix then (if tiny then flagUF ||| flagNX else flagNX) else 0)

/-- A value to a format: canonical NaN, infinity or rounded number (R146 to R148). -/
def encodeF (f : Fmt) (mode : RMode) (flush : Bool) : FV → Nat × BitVec 6
  | .nan _ => (fNan f, 0)
  | .inf neg => (fInf f neg, 0)
  | .num neg m e => if m = 0 then (fZero f neg, 0) else roundNum f mode flush neg m e

/-- Compares m₁ × 2^e₁ with m₂ × 2^e₂. -/
def cmpDyadic (m₁ : Nat) (e₁ : Int) (m₂ : Nat) (e₂ : Int) : Ordering :=
  let e := min e₁ e₂
  compare (m₁ * 2 ^ (e₁ - e).toNat) (m₂ * 2 ^ (e₂ - e).toNat)

/-- The magnitude code nearest to m × 2^e (R156): the greatest code not above it, or the next, by value. -/
def nearestMag (n es m : Nat) (e : Int) : Nat :=
  let c := ((List.range (2 ^ n)).filter fun c =>
    c != 0 && (let (cm, ce) := decodeMag n es c; cmpDyadic cm ce m e != .gt)).length
  let (am, ae) := decodeMag n es c
  let (bm, be) := decodeMag n es (c + 1)
  let x := min (min ae be) e
  let sc (k : Nat) (y : Int) : Nat := k * 2 ^ (y - x).toNat
  match compare (2 * sc m e) (sc am ae + sc bm be) with
  | .lt => c
  | .gt => c + 1
  | .eq => if c % 2 = 0 then c else c + 1

/-- A value to a tapered type (R156). -/
def encodeT (t : Ty) : FV → Nat × BitVec 6
  | .nan sig => (2 ^ (taperOf t).1, if sig then flagNV else 0)
  | .inf _ => (2 ^ (taperOf t).1, flagNV)
  | .num neg m e =>
    let (n, es) := taperOf t
    let sign := boolNat neg * 2 ^ n
    if m = 0 then (0, 0)
    else
      let (hm, he) := decodeMag n es (2 ^ n - 1)
      let (lm, le) := decodeMag n es 1
      if cmpDyadic m e hm he = .gt then (sign + (2 ^ n - 1), flagOF ||| flagNX)
      else if cmpDyadic m e lm le = .lt then (sign + 1, flagUF ||| flagNX)
      else
        let c := if cmpDyadic m e hm he = .eq then 2 ^ n - 1 else nearestMag n es m e
        let (cm, ce) := decodeMag n es c
        (sign + c, if cmpDyadic cm ce m e = .eq then 0 else flagNX)

/-- A value to a floating-point or tapered type. Tapered types round to nearest even in value whatever the mode
(R145). -/
def encodeV (t : Ty) (mode : RMode) (flush : Bool) (x : FV) : Nat × BitVec 6 :=
  if t.isT then encodeT t x else encodeF (fmtOf t) mode flush x

/-! ## Exact operations -/

def sigNv : FV → BitVec 6
  | .nan true => flagNV
  | _ => 0

def FV.isNan : FV → Bool
  | .nan _ => true
  | _ => false

def FV.neg : FV → FV
  | .nan s => .nan s
  | .inf n => .inf (!n)
  | .num n m e => .num (!n) m e

/-- A signed integer times 2^e. -/
def ofSigned (z : Int) (e : Int) (zeroNeg : Bool) : FV :=
  if z = 0 then .num zeroNeg 0 0 else .num (decide (z < 0)) z.natAbs e

/-- The signed significand of a number at exponent `e`, at most its own. -/
def scaled (neg : Bool) (m : Nat) (x e : Int) : Int :=
  (if neg then -1 else 1) * ((m * 2 ^ (x - e).toNat : Nat) : Int)

/-- The exact sum; an exact zero of unlike operands is −0 only toward −∞ (R144, R146). -/
def addFV (mode : RMode) (x y : FV) : FV × BitVec 6 :=
  let fl := sigNv x ||| sigNv y
  match x, y with
  | .nan _, _ => (.nan false, fl)
  | _, .nan _ => (.nan false, fl)
  | .inf a, .inf b => if a = b then (.inf a, 0) else (.nan false, flagNV)
  | .inf a, _ => (.inf a, 0)
  | _, .inf b => (.inf b, 0)
  | .num a m e, .num b n f =>
    let k := min e f
    let z := scaled a m e k + scaled b n f k
    (ofSigned z k (if m = 0 && n = 0 && a == b then a else mode == .rd), 0)

/-- The exact product (R146). -/
def mulFV (x y : FV) : FV × BitVec 6 :=
  let fl := sigNv x ||| sigNv y
  match x, y with
  | .nan _, _ => (.nan false, fl)
  | _, .nan _ => (.nan false, fl)
  | .inf a, .inf b => (.inf (a != b), 0)
  | .inf a, .num b n _ => if n = 0 then (.nan false, flagNV) else (.inf (a != b), 0)
  | .num a m _, .inf b => if m = 0 then (.nan false, flagNV) else (.inf (a != b), 0)
  | .num a m e, .num b n f => (.num (a != b) (m * n) (e + f), 0)

/-- a × b + c with one rounding; ∞ × 0 is invalid whatever the addend holds (R146). -/
def fmaFV (mode : RMode) (a b c : FV) : FV × BitVec 6 :=
  let (p, f₁) := mulFV a b
  let (r, f₂) := addFV mode p c
  (r, f₁ ||| f₂ ||| sigNv c)

/-- Orders two numbers or infinities, −0 below +0 when `zeros` says so. -/
def ltFV (zeros : Bool) : FV → FV → Bool
  | .inf a, .inf b => a && !b
  | .inf a, _ => a
  | _, .inf b => !b
  | .num a m e, .num b n f =>
    if m = 0 && n = 0 then zeros && a && !b
    else
      let k := min e f
      decide (scaled a m e k < scaled b n f k)
  | _, _ => false

def eqFV : FV → FV → Bool
  | .inf a, .inf b => a == b
  | .num a m e, .num b n f =>
    let k := min e f
    (m == 0 && n == 0) || scaled a m e k == scaled b n f k
  | _, _ => false

/-- The IEEE 754 minimum and maximum (R146). -/
def minFV (mx : Bool) (x y : FV) : FV × BitVec 6 :=
  let fl := sigNv x ||| sigNv y
  if x.isNan || y.isNan then (.nan false, fl)
  else (if ltFV true x y == mx then y else x, fl)

/-- A value to an integer type (R143): rounded, clamped, with its flags. -/
def toIntType (t : Ty) (mode : RMode) : FV → Nat × BitVec 6
  | .nan _ => (0, flagNV)
  | .inf neg => (wrapInt (if neg then t.lo else t.hi) t.width, flagNV)
  | .num neg m e =>
    let (n, ix) := roundAt mode neg m e 0
    let z : Int := if neg then -(n : Int) else n
    if z < t.lo then (wrapInt t.lo t.width, flagNV)
    else if t.hi < z then (wrapInt t.hi t.width, flagNV)
    else (wrapInt z t.width, if ix then flagNX else 0)

/-- The sums of the scratchpad and memory adders: nearest even, subnormals honoured, no flag (R130, R283). -/
def sumBits (f : Fmt) (x y : Nat) : Nat :=
  (encodeF f .ne false (addFV .ne (decodeF f false x) (decodeF f false y)).1).1

/-- The addition of an element by the types of R130. -/
def addElem (t : AddTy) (old v : Nat) : Nat :=
  match t with
  | .i32 => (old + v) % 2 ^ 32
  | .i64 => (old + v) % 2 ^ 64
  | .f32 => sumBits fmt32 (old % 2 ^ 32) (v % 2 ^ 32)
  | .bf16 =>
    sumBits fmtBf (old % 2 ^ 16) (v % 2 ^ 16) + 2 ^ 16 * sumBits fmtBf (elem old 16 1) (elem v 16 1)

/-- The new value of a memory-side atomic of `n` bytes (R283). -/
def amoNew (op : AmoOp) (n old v expect : Nat) : Nat :=
  let w := 8 * n
  let old := old % 2 ^ w
  let v := v % 2 ^ w
  match op with
  | .add => (old + v) % 2 ^ w
  | .min => if sgn old w ≤ sgn v w then old else v
  | .max => if sgn old w ≤ sgn v w then v else old
  | .minu => min old v
  | .maxu => max old v
  | .and => old &&& v
  | .or => old ||| v
  | .xor => old ^^^ v
  | .swap => v
  | .cas => if old = expect % 2 ^ w then v else old
  | .fadd => addElem .f32 old v
  | .bfadd2 => addElem .bf16 old v

end Sys2Proof.Machine
end

