-- ==== Sys2Proof/Machine/Integer.lean ====
section
/-! DEFINITION. The integer words of the control core (R319 to R322): the R format over two registers, division, and
the I format over a register and an immediate.
-/

namespace Sys2Proof.Machine

open Host (Outcome)

/-! ## Shared forms -/

/-- A C word that computes from two registers (R319, R320). -/
def binC (s : State) (lat : BitVec 4) (d a b : BitVec 5) (f : Word → Word → Word) : Outcome State Fault Refusal :=
  issueC s fun _ st => do
    let x ← readG st 0 a
    let y ← readG st 1 b
    .ok (writeWord s.clock st .c lat (.g d) (f x y))

/-- A C word that computes from one register. -/
def unC (s : State) (lat : BitVec 4) (d a : BitVec 5) (f : Word → Word) : Outcome State Fault Refusal :=
  issueC s fun _ st => do
    let x ← readG st 0 a
    .ok (writeWord s.clock st .c lat (.g d) (f x))

/-- The 128-bit product of two integers, its bits 127:64 (R320). -/
def mulHigh (x y : Int) : Word := BitVec.ofInt 64 (x * y / (2 ^ 64 : Nat))

/-- The comparisons of `cmp` and `cmpi` (R320). -/
def icmp (fn : ICmp) (x y : Word) : Bool :=
  match fn with
  | .eq => x == y
  | .ne => x != y
  | .lt => decide (x.toInt < y.toInt)
  | .le => decide (x.toInt ≤ y.toInt)
  | .ltu => decide (x.toNat < y.toNat)
  | .leu => decide (x.toNat ≤ y.toNat)

def ofBool64 (b : Bool) : Word := if b then 1 else 0

/-- Leading zero bits (R320). -/
def clz64 (x : Word) : Word := if x = 0 then 64 else BitVec.ofNat 64 (63 - x.toNat.log2)

/-- Shifts by a count modulo 64 (R142, R320, R322). -/
def shift64 (k : ShiftKind) (x : Word) (n : Nat) : Word :=
  match k with
  | .shl => x <<< (n % 64)
  | .shr => x >>> (n % 64)
  | .sra => x.sshiftRight (n % 64)

/-- Quotient and remainder of R321. -/
def divide (signed : Bool) (a b : Word) : Word × Word :=
  if b = 0 then (0, a)
  else if signed then (BitVec.ofInt 64 (a.toInt.tdiv b.toInt), BitVec.ofInt 64 (a.toInt.tmod b.toInt))
  else (BitVec.ofNat 64 (a.toNat / b.toNat), BitVec.ofNat 64 (a.toNat % b.toNat))

/-- A division word (R321): a zero divisor sets IDZ. -/
def divC (s : State) (lat : BitVec 4) (d a b : BitVec 5) (signed : Bool) (pick : Word × Word → Word) :
    Outcome State Fault Refusal :=
  issueC s fun _ st => do
    let x ← readG st 0 a
    let y ← readG st 1 b
    let st := if y = 0 then raiseFlags st (getEng st .c).passed flagIDZ else st
    .ok (writeWord s.clock st .c lat (.g d) (pick (divide signed x y)))

/-! ## R format -/

/-- Op 0x00 does nothing (R52); its token bits act as R36 gives. S handles them at its data stage (R118), and L pops none
on a leaning arm (log entry 28). -/
def execNop (t : Tag) (tk : Tk) (s : State) : Outcome State Fault Refusal :=
  if s.cur.eng = .s then
    issueWith s Tk.none fun w st s' =>
      if tk = Tk.none then .ok (putStrand s' (Walker.ref w) (stepPast s' st .s))
      else if 64 ≤ st.stores.length then stall
      else
        let en := getEng st .s
        let x : SEntry := ⟨.nop t tk, en.pc, en.passed, false, false, 0, 0, 0, 0, 0, 0, 0, 0, 0, en.seen, 3, false⟩
        .ok (putStrand s' (Walker.ref w) (stepPast s' { st with stores := st.stores ++ [x] } .s))
  else if s.cur.eng = .c then issueC s fun _ st => .ok st
  else issueLocal s tk fun w st => do
    await (w.eng != .l || !(tk.pbp || tk.pbn) || st.lean.isNone)
    .ok st

def execAdd (lat : BitVec 4) (d a b : BitVec 5) (s : State) : Outcome State Fault Refusal := binC s lat d a b (· + ·)

def execSub (lat : BitVec 4) (d a b : BitVec 5) (s : State) : Outcome State Fault Refusal := binC s lat d a b (· - ·)

def execMul (lat : BitVec 4) (d a b : BitVec 5) (s : State) : Outcome State Fault Refusal := binC s lat d a b (· * ·)

def execMulh (lat : BitVec 4) (d a b : BitVec 5) (s : State) : Outcome State Fault Refusal :=
  binC s lat d a b fun x y => mulHigh x.toInt y.toInt

def execMulhu (lat : BitVec 4) (d a b : BitVec 5) (s : State) : Outcome State Fault Refusal :=
  binC s lat d a b fun x y => mulHigh x.toNat y.toNat

def execDiv (lat : BitVec 4) (d a b : BitVec 5) (s : State) : Outcome State Fault Refusal :=
  divC s lat d a b true (·.1)

def execDivu (lat : BitVec 4) (d a b : BitVec 5) (s : State) : Outcome State Fault Refusal :=
  divC s lat d a b false (·.1)

def execRem (lat : BitVec 4) (d a b : BitVec 5) (s : State) : Outcome State Fault Refusal :=
  divC s lat d a b true (·.2)

def execRemu (lat : BitVec 4) (d a b : BitVec 5) (s : State) : Outcome State Fault Refusal :=
  divC s lat d a b false (·.2)

def execAnd (lat : BitVec 4) (d a b : BitVec 5) (s : State) : Outcome State Fault Refusal :=
  binC s lat d a b (· &&& ·)

def execOr (lat : BitVec 4) (d a b : BitVec 5) (s : State) : Outcome State Fault Refusal :=
  binC s lat d a b (· ||| ·)

def execXor (lat : BitVec 4) (d a b : BitVec 5) (s : State) : Outcome State Fault Refusal :=
  binC s lat d a b (· ^^^ ·)

def execShl (lat : BitVec 4) (d a b : BitVec 5) (s : State) : Outcome State Fault Refusal :=
  binC s lat d a b fun x y => shift64 .shl x y.toNat

def execShr (lat : BitVec 4) (d a b : BitVec 5) (s : State) : Outcome State Fault Refusal :=
  binC s lat d a b fun x y => shift64 .shr x y.toNat

def execSra (lat : BitVec 4) (d a b : BitVec 5) (s : State) : Outcome State Fault Refusal :=
  binC s lat d a b fun x y => shift64 .sra x y.toNat

def execMin (lat : BitVec 4) (d a b : BitVec 5) (s : State) : Outcome State Fault Refusal :=
  binC s lat d a b fun x y => if icmp .le x y then x else y

def execMax (lat : BitVec 4) (d a b : BitVec 5) (s : State) : Outcome State Fault Refusal :=
  binC s lat d a b fun x y => if icmp .le x y then y else x

def execMinu (lat : BitVec 4) (d a b : BitVec 5) (s : State) : Outcome State Fault Refusal :=
  binC s lat d a b fun x y => if icmp .leu x y then x else y

def execMaxu (lat : BitVec 4) (d a b : BitVec 5) (s : State) : Outcome State Fault Refusal :=
  binC s lat d a b fun x y => if icmp .leu x y then y else x

def execClz (lat : BitVec 4) (d a : BitVec 5) (s : State) : Outcome State Fault Refusal := unC s lat d a clz64

def execPopc (lat : BitVec 4) (d a : BitVec 5) (s : State) : Outcome State Fault Refusal :=
  unC s lat d a fun x => BitVec.ofNat 64 (popcount x.toNat 64)

def execSel (lat : BitVec 4) (d a b c : BitVec 5) (s : State) : Outcome State Fault Refusal :=
  issueC s fun _ st => do
    let x ← readG st 0 a
    let y ← readG st 1 b
    let z ← readG st 2 c
    .ok (writeWord s.clock st .c lat (.g d) (if x ≠ 0 then y else z))

def execCmp (lat : BitVec 4) (fn : ICmp) (d a b : BitVec 5) (s : State) : Outcome State Fault Refusal :=
  binC s lat d a b fun x y => ofBool64 (icmp fn x y)

/-! ## I format -/

def execAddi (lat : BitVec 4) (d a : BitVec 5) (imm : BitVec 27) (s : State) : Outcome State Fault Refusal :=
  unC s lat d a fun x => x + imm.signExtend 64

def execAndi (lat : BitVec 4) (d a : BitVec 5) (imm : BitVec 27) (s : State) : Outcome State Fault Refusal :=
  unC s lat d a fun x => x &&& imm.signExtend 64

def execOri (lat : BitVec 4) (d a : BitVec 5) (imm : BitVec 27) (s : State) : Outcome State Fault Refusal :=
  unC s lat d a fun x => x ||| imm.signExtend 64

def execXori (lat : BitVec 4) (d a : BitVec 5) (imm : BitVec 27) (s : State) : Outcome State Fault Refusal :=
  unC s lat d a fun x => x ^^^ imm.signExtend 64

def execShi (lat : BitVec 4) (k : ShiftKind) (d a : BitVec 5) (n : BitVec 6) (s : State) :
    Outcome State Fault Refusal :=
  unC s lat d a fun x => shift64 k x n.toNat

def execLi (lat : BitVec 4) (d : BitVec 5) (imm : BitVec 27) (s : State) : Outcome State Fault Refusal :=
  issueC s fun _ st => .ok (writeWord s.clock st .c lat (.g d) (imm.signExtend 64))

/-- `lih` replaces bits 53:27 and clears those above (R322). -/
def execLih (lat : BitVec 4) (d a : BitVec 5) (imm : BitVec 27) (s : State) : Outcome State Fault Refusal :=
  unC s lat d a fun x => ((imm.setWidth 64) <<< 27) ||| (x &&& 0x7FFFFFF)

def execCmpi (lat : BitVec 4) (fn : ICmp) (d a : BitVec 5) (imm : BitVec 27) (s : State) :
    Outcome State Fault Refusal :=
  unC s lat d a fun x => ofBool64 (icmp fn x (imm.signExtend 64))

end Sys2Proof.Machine
end

