-- ==== Sys2Proof/Machine/Control.lean ====
section
/-! DEFINITION. Branches, calls and loops (R318, R323 to R329), with the records of C to the other engines and the
leaning of L (R121).
-/

namespace Sys2Proof.Machine

open Host (Outcome)

/-! ## Records through BQ (R318) -/

/-- C sends a record to every other engine of the mask; it stalls while a BQ holds 64 (R318). -/
def sendBq (st : Strand) (x : BqRec) : Act Strand :=
  let others := (maskEngs st).filter (· != .c)
  if others.any fun e => decide (64 ≤ (getEng st e).bq.length) then stall
  else .ok (others.foldl (fun st e => modEng st e fun en => { en with bq := en.bq ++ [x] }) st)

/-- The head of an engine's BQ. L on a leaning arm leaves it to the outcome of its branch (R121). -/
def takeBq (st : Strand) (e : Eng) : Act (BqRec × Strand) :=
  if e == .l && st.lean.isSome then stall
  else match (getEng st e).bq with
    | x :: rest => .ok (x, modEng st e fun en => { en with bq := rest })
    | [] => stall

def takeTaken (st : Strand) (e : Eng) : Act (Bool × Strand) := do
  let (x, st) ← takeBq st e
  match x with
  | .taken t => .ok (t, st)
  | _ => stall

def takeTarget (st : Strand) (e : Eng) : Act (Nat × Strand) := do
  let (x, st) ← takeBq st e
  match x with
  | .target t => .ok (t, st)
  | _ => stall

def takeTrip (st : Strand) (e : Eng) : Act (Nat × Strand) := do
  let (x, st) ← takeBq st e
  match x with
  | .trip t => .ok (t, st)
  | _ => stall

/-! ## Leaving loops -/

/-- A taken branch to a target outside the body of the innermost loop pops its entry, and so on outwards (R326). -/
def leaveLoops (target : Nat) : List LoopEntry → List LoopEntry
  | [] => []
  | l :: rest => if l.start ≤ target && decide (target < l.stop) then l :: rest else leaveLoops target rest

/-- A taken `br`, `brc` or `jr` (R323, R326). -/
def branchTo (s : State) (st : Strand) (e : Eng) (target : Nat) : Strand :=
  modEng (jumpTo s st e target false) e fun en => { en with loops := leaveLoops target en.loops }

/-- The target of an offset, checked against the window at decode (R38). -/
def offsetTarget (pc : Nat) (off : BitVec 32) : Nat := ((pc : Int) + off.toInt).toNat

/-- A word tagged ALL: at C it counts as a C word. -/
def issueAll (s : State) (body : Walker → Strand → Act Strand) : Outcome State Fault Refusal :=
  issueWith s Tk.none fun w st s' => do
    let st' ← body w st
    let s'' := putStrand s' (Walker.ref w) st'
    .ok (if w.eng = .c then countC s'' (Walker.ref w) else s'')

def execBr (off : BitVec 32) (s : State) : Outcome State Fault Refusal :=
  issueAll s fun w st => .ok (branchTo s st w.eng (offsetTarget (getEng st w.eng).pc off))

/-- The conditions of R38 on a signed value. -/
def bcond (c : BCond) (x : Word) : Bool :=
  match c with
  | .z => x == 0
  | .nz => x != 0
  | .lt => decide (x.toInt < 0)
  | .ge => decide (0 ≤ x.toInt)
  | .gt => decide (0 < x.toInt)
  | .le => decide (x.toInt ≤ 0)

/-- The course of `brc` at an engine once the outcome is known. -/
def brcGo (s : State) (st : Strand) (e : Eng) (off : BitVec 32) (t : Bool) : Strand :=
  if t then branchTo s st e (offsetTarget (getEng st e).pc off) else stepPast s st e

/-- L follows the arm of the hint and keeps what undoes it (R121). -/
def startLean (s : State) (st : Strand) (off : BitVec 32) (t : Bool) : Strand :=
  let en := getEng st .l
  let run : LeanRun := { taken := t, index := en.pc, off := off.toInt, saved := en, a := st.a, sd := st.sd,
                         pend := st.pending.filter (fun p => p.eng == .l), iql := [], held := [], fault := none,
                         confirmed := false }
  brcGo s { st with lean := some run } .l off t

def execBrc (c : BCond) (hint : Lean) (g : BitVec 5) (off : BitVec 32) (s : State) : Outcome State Fault Refusal :=
  issueAll s fun w st =>
    match w.eng with
    | .c => do
      let x ← readG st 0 g
      let st ← sendBq st (.taken (bcond c x))
      .ok (brcGo s st .c off (bcond c x))
    | .l =>
      if hint != .none && (getEng st .l).bq.isEmpty && st.lean.isNone then .ok (startLean s st off (hint == .taken))
      else do
        let (t, st) ← takeTaken st .l
        .ok (brcGo s st .l off t)
    | e => do
      let (t, st) ← takeTaken st e
      .ok (brcGo s st e off t)

/-- A call at depth 16 raises OPFIELD at the first engine to execute it (R324). -/
def execCall (off : BitVec 32) (s : State) : Outcome State Fault Refusal :=
  issueAll s fun w st => do
    let en := getEng st w.eng
    check (decide (en.ret.length < 16)) (opField 0)
    let st := modEng st w.eng fun en => { en with ret := (en.pc + 1) :: en.ret }
    .ok (jumpTo s st w.eng (offsetTarget en.pc off) false)

/-- A `ret` to the word after the window's last raises ILLEGAL at the `ret` (R391). -/
def execRet (s : State) : Outcome State Fault Refusal :=
  issueAll s fun w st => do
    let en := getEng st w.eng
    match en.ret with
    | [] => trap (opField 0)
    | t :: rest =>
      check (decide (t < (getCtx s w.cell st.part).win)) illegalTrap
      .ok (jumpTo s (modEng st w.eng fun en => { en with ret := rest }) w.eng t false)

def execJr (g : BitVec 5) (s : State) : Outcome State Fault Refusal :=
  issueAll s fun w st =>
    match w.eng with
    | .c => do
      let x ← readG st 0 g
      check (decide (x.toNat < 2 ^ 15 ∧ x.toNat < (getCtx s w.cell st.part).win)) (opField x.toNat)
      let st ← sendBq st (.target x.toNat)
      .ok (branchTo s st .c x.toNat)
    | e => do
      let (t, st) ← takeTarget st e
      .ok (branchTo s st e t)

/-! ## Loops -/

/-- Opens a loop with T passes, or skips the body of an empty one (R325, R326). -/
def openLoop (s : State) (st : Strand) (e : Eng) (off : BitVec 32) (t : Nat) : Act Strand :=
  let en := getEng st e
  let stop := offsetTarget en.pc off
  if t = 0 then .ok (jumpTo s st e stop true)
  else if en.loops.length < 4 then
    .ok (stepPast s (modEng st e fun x => { x with loops := ⟨en.pc + 1, stop, t, en.ret.length⟩ :: x.loops }) e)
  else trap (opField 0)

/-- A trip count as `loop` and `ploop` read it from a register, signed: 0 for none, OPFIELD above 0xFFFF_FFFF (R325,
R327). -/
def tripOf (x : Word) : Act Nat := do
  check (decide (x.toInt ≤ 0xFFFFFFFF)) (opField x.toNat)
  .ok x.toInt.toNat

/-- A difference of RPQ as a trip count: the pointers are unsigned and none lies below the one before it (R128, R325). -/
def tripOfDiff (x : Word) : Act Nat := do
  check (decide (x.toNat ≤ 0xFFFFFFFF)) (opField x.toNat)
  .ok x.toNat

def execLoop (g : BitVec 5) (off : BitVec 32) (s : State) : Outcome State Fault Refusal :=
  issueAll s fun w st =>
    match w.eng with
    | .c => do
      let x ← readG st 0 g
      let t ← tripOf x
      let st ← sendBq st (.trip t)
      openLoop s st .c off t
    | e => do
      let (t, st) ← takeTrip st e
      openLoop s st e off t

/-- Pops the oldest RPQ entry that a consumer has not popped. It leaves the queue when every consumer named has
popped it (R128). -/
def popRpq (forC : Bool) : List RpqEntry → Option (RpqEntry × List RpqEntry)
  | [] => none
  | x :: rest =>
    if (if forC then x.toC else x.toM) then
      let y := if forC then { x with toC := false } else { x with toM := false }
      some (x, if y.toC || y.toM then y :: rest else rest)
    else match popRpq forC rest with
      | some (y, rest') => some (y, x :: rest')
      | none => none

/-- `loopr` waits while a stream to C runs, or while L has not certainly passed every word before it (R325; log entry
19). -/
def execLoopr (off : BitVec 32) (s : State) : Outcome State Fault Refusal :=
  issueAll s fun w st =>
    match w.eng with
    | .c =>
      match popRpq true st.rpq with
      | some (x, rest) => do
        let t ← tripOfDiff x.diff
        let st ← sendBq { st with rpq := rest } (.trip t)
        openLoop s st .c off t
      | none =>
        let running := match st.rps with | some r => r.toC | none => false
        let behind := inMask st .l && decide (surePassed st .l < (getEng st .c).passed)
        if running || behind then stall else trap { cause := .queueProto }
    | e => do
      let (t, st) ← takeTrip st e
      openLoop s st e off t

/-- The end of the innermost loop at an engine (R326): one pass less, and back to the start or out of the loop. -/
def execLoopEndReached (s : State) : Outcome State Fault Refusal :=
  .next (modStrand s (Walker.ref s.cur) fun st => modEng st s.cur.eng fun en =>
    match en.loops with
    | [] => en
    | l :: rest =>
      if en.arrived && l.stop == en.pc && en.ret.length == l.depth then
        if 1 < l.left then { en with pc := l.start, arrived := false, loops := { l with left := l.left - 1 } :: rest }
        else { en with loops := rest }
      else en)

/-! ## The pipelined loop -/

/-- Entry j of the stage words (R41). -/
def stageOf (words : List Nat) (j : Nat) : Nat := elem (words.getD (j / 16) 0) 4 (j % 16)

/-- The `n` stage words that follow a `ploop` at `pc` (R41). -/
def stageWords (imem : FMap Word) (pc n : Nat) : List Nat :=
  (List.range n).map fun i => ((fget imem (pc + 1 + i)).getD 0).toNat

/-- The checks of R41 on the entries of the stage words. -/
def stagesOk (words : List Nat) (stages len : Nat) : Bool :=
  (List.range (16 * words.length)).all fun j =>
    let k := stageOf words j
    if j < len then decide (k < stages) || k == 15 else k == 0

/-- Starts the kernel at an engine with N, started and c_lim (R327, R329). -/
def startPloop (s : State) (st : Strand) (e : Eng) (stages words len : Nat) (ws : List Nat) (n started : Nat) :
    Strand :=
  let en := getEng st e
  let first := en.pc + 1 + words
  if n = 0 then jumpTo s st e (first + len) true
  else
    let p : Ploop := ⟨en.pc, stages, first, len, ws, n, n, started, 0⟩
    modEng (jumpTo s st e first false) e fun x => { x with ploop := some p, sg := 1 }

/-- `ploop` at an engine (R40, R41, R327). A clamp record in force gives N and the first iteration (R329). -/
def execPloop (stages : BitVec 3) (words : BitVec 2) (g : BitVec 5) (len : BitVec 6) (s : State) :
    Outcome State Fault Refusal :=
  issueAll s fun w st => do
    let en := getEng st w.eng
    let nw := words.toNat + 1
    let k := len.toNat + 1
    let ws := stageWords (getCtx s w.cell st.part).imem en.pc nw
    check (stagesOk ws (stages.toNat + 1) k) illegalTrap
    match en.clamped with
    | some (i, n, lim) =>
      if i = en.pc then
        let st := modEng st w.eng fun x => { x with clamped := none }
        .ok (startPloop s st w.eng (stages.toNat + 1) nw k ws n lim)
      else stall
    | none =>
      match w.eng with
      | .c => do
        let x ← readG st 0 g
        let t ← tripOf x
        let st ← sendBq st (.trip t)
        .ok (startPloop s st .c (stages.toNat + 1) nw k ws t 0)
      | e => do
        let (t, st) ← takeTrip st e
        .ok (startPloop s st e (stages.toNat + 1) nw k ws t 0)

/-- The clamp record of the kernel that runs: it may stand behind mode records of words of the kernel, not behind the
trip record of a later loop (R318, R328). -/
def takeClamp : List BqRec → Option (Nat × List BqRec)
  | .clamp c :: rest => some (c, rest)
  | .lmode v :: rest => (takeClamp rest).map fun p => (p.1, .lmode v :: p.2)
  | .rset v :: rest => (takeClamp rest).map fun p => (p.1, .rset v :: p.2)
  | .rrb v :: rest => (takeClamp rest).map fun p => (p.1, .rrb v :: p.2)
  | _ => none

/-- PLOOP_PASS_END: the end of a pass at an engine (R327, R328): the clamp is applied, the stage predicates shift and
RRB rotates; the kernel is left when no stage is live. -/
def ploopPassEnd (st : Strand) (e : Eng) : Strand :=
  modEng st e fun en =>
    match en.ploop with
    | none => en
    | some p =>
      let (lim, bq) := match takeClamp en.bq with
        | some (c, rest) => (min p.lim c, rest)
        | none => (p.lim, en.bq)
      let sg0 := boolNat (en.sg.getLsbD 0)
      let started := p.started + sg0
      let sg : BitVec 8 := BitVec.ofNat 8 (en.sg.toNat * 2 + boolNat (decide (started < lim)))
      let rrb := en.rrb - 1
      if sg.toNat % 2 ^ p.stages = 0 then
        { en with ploop := none, sg := 0, rrb := rrb, bq := bq, pc := p.first + p.len, arrived := true,
                  clamped := if lim < p.n then some (p.index, p.n, lim) else none }
      else
        { en with ploop := some { p with lim := lim, started := started, pass := p.pass + 1 }, sg := sg, rrb := rrb,
                  bq := bq, pc := p.first, arrived := false }

/-- The stage predicate of the kernel word at the program counter holds (R327). -/
def stageLive (en : EngState) : Bool :=
  match en.ploop with
  | none => true
  | some p =>
    let k := stageOf p.words (en.pc - p.first)
    k == 15 || en.sg.getLsbD k

end Sys2Proof.Machine
end

