-- ==== Sys2Proof/Machine/Walk.lean ====
section
/-! DEFINITION. What an engine does at its program counter: the gates on issue (R317, R376, R386, R403), the stop at
a lull point (R396), loop ends and pass ends, the skip of other engines' words with their mode records (R26, R33,
R318), the fetch from the window (R391) and the checks of decoding that need the context (R38, R42, R43, R350).
-/

namespace Sys2Proof.Machine

/-- What the turn of an engine comes to. -/
inductive Turn where
  | idle
  | set (st : Strand)
  | loopEnd
  | micro
  | run (i : Instr)
  | fault (t : Trap)
deriving DecidableEq, Repr

/-- A region or an ancestor of it is paused (R376, R439). -/
def pausedChain (rs : List Region) (part : Nat) : Nat → Nat → Bool
  | 0, _ => false
  | fuel + 1, addr =>
    match rs.find? (fun r => r.addr == addr && r.part == part) with
    | none => false
    | some r => r.paused || (r.parent != 0 && pausedChain rs part fuel r.parent)

/-- The strand's region in the die that caches it. -/
def regionPaused (s : State) (st : Strand) : Bool :=
  s.dies.toList.any fun d => pausedChain d.regions st.part 8 st.sid.rcb

/-- The effective value of a region's field in the die that caches it. -/
def regionOf (s : State) (part rcb : Nat) : Option Region :=
  (s.dies.toList.flatMap (·.regions)).find? fun r => r.addr == rcb && r.part == part

/-- The effective lull deadline in cell cycles: 100 µs unless the region says otherwise (R373). -/
def lullCycles (s : State) (st : Strand) : Nat :=
  4000 * (match regionOf s st.part st.sid.rcb with | some r => r.lulldl | none => 100)

/-- The lowest count of words passed among the strand's engines (R317). -/
def lowestPassed (st : Strand) : Nat :=
  match (maskEngs st).map fun e => (getEng st e).passed with
  | [] => 0
  | x :: xs => xs.foldl min x

/-- The engine may issue as far as the slip window goes (R317). -/
def slipOk (st : Strand) (e : Eng) : Bool :=
  decide ((getEng st e).passed + 1 ≤ lowestPassed st + st.slipw.toNat)

/-- The word at an index is a lull point of the strand's overlay (R395). -/
def lullAt (c : Context) (st : Strand) (pc : Nat) : Option Lull :=
  match c.image with
  | none => none
  | some im => im.lulls.find? fun l => l.ovl == st.overlay.toNat && l.word == pc

/-- A pre-emption request stops the engine here (R396): at the first lull point that no engine had passed, unless
the deadline has gone by (R398). -/
def lullStops (s : State) (c : Context) (st : Strand) (en : EngState) : Bool :=
  match st.preempt with
  | none => false
  | some p => decide (p.from_ ≤ en.passed) && (lullAt c st en.pc).isSome &&
      decide (s.clock < p.since + lullCycles s st)

/-- The gates on every word of an engine: resident in the mask, with the block, neither frozen nor halted for a forced save
(R398) nor paused, not stopped, C not at the end of a block, and within the slip window. -/
def mayIssue (s : State) (st : Strand) (e : Eng) : Bool :=
  inMask st e && !st.frozen && !st.halting && st.block && (getEng st e).stop == .no && !(e == .c && st.endBlock) &&
    !regionPaused s st && slipOk st e &&
    !(e == .l && match st.lean with | some ln => ln.fault.isSome || ln.confirmed | none => false)

/-- Bits 55:53 of a word. -/
def wordTag (w : Word) : Nat := wbits w 55 53

def wordOp (w : Word) : Nat := wbits w 63 56

/-- An `mtst` to LMODE, RSET or RRB, whose record the other engines take (R318). -/
def sendsMode (w : Word) : Bool :=
  wordOp w == 0x33 && wordTag w == 0 && (wbits w 9 0 == 1 || wbits w 9 0 == 3 || wbits w 9 0 == 9)

/-- Applies a mode record at an engine (R33, R273, R339). -/
def applyMode (en : EngState) : BqRec → EngState
  | .lmode v => { en with lmode := v }
  | .rset v => { en with rset := v }
  | .rrb v => { en with rrb := v.setWidth 5, sg := (v >>> 8).setWidth 8 }
  | _ => en

/-- A word of C, L or S whose accesses, stores or commands other words are ordered against: of C the loads, stores,
atomics, fences, flag waits, commands, `pop` and `qrecv` (R280), of L `ldmq`, the copies and the scratchpad reads, of S
every store and bound word. -/
def ordersWord (w : Word) : Bool :=
  match wordTag w with
  | 0 => [0x28, 0x2D, 0x30, 0x31, 0x35, 0x36, 0x38, 0x39, 0x3A, 0x3C].contains (wordOp w)
  | 1 => (decide (0x43 ≤ wordOp w) && decide (wordOp w ≤ 0x4B)) || decide (0xC0 ≤ wordOp w)
  | 4 => decide (0x5A ≤ wordOp w)
  | _ => false

/-- The place of a skipped word is kept when it orders accesses. -/
def noteSeen (en : EngState) (w : Word) : EngState :=
  if ordersWord w then
    let here := en.passed + 1
    match wordTag w with
    | 0 =>
      let x := { en.seen with c := here }
      { en with seen :=
        if wordOp w == 0x30 then { x with ccmd := here }
        else if wordOp w == 0x39 || wordOp w == 0x3A then { x with cst := here }
        else x }
    | 1 =>
      if wordOp w == 0x47 then { en with seen := { en.seen with l := here } }
      else if wordOp w == 0x49 || wordOp w == 0x4A then { en with seen := { en.seen with l := here, lcmd := here } }
      else { en with seen := { en.seen with r := here } }
    | _ => { en with seen := { en.seen with s := here } }
  else en

/-- An engine passes a word of another engine (R26). At an `mtst` that sends a mode record it waits for the record. -/
def skipWord (s : State) (st : Strand) (e : Eng) (w : Word) : Turn :=
  if sendsMode w && e != .c then
    match takeBq st e with
    | .ok (x, st) => .set (stepPast s (modEng st e fun en => applyMode en x) e)
    | .error _ => .idle
  else .set (stepPast s (modEng st e fun en => noteSeen en w) e)

/-- The target of a branch, call or loop lies inside the window (R38, R391), and the stage words of a `ploop` at `pc` are
legal (R41). -/
def targetOk (c : Context) (pc : Nat) : Instr → Bool
  | .br off | .call off | .loop _ off | .loopr off | .brc _ _ _ off =>
    decide (0 ≤ (pc : Int) + off.toInt ∧ (pc : Int) + off.toInt < c.win)
  | .ploop stages words _ len => stagesOk (stageWords c.imem pc (words.toNat + 1)) (stages.toNat + 1) (len.toNat + 1)
  | _ => true

/-- A kernel word may not be structural, `wait`, `yield` or bound (R42). -/
def kernelOk (w : Word) : Bool :=
  wordTag w != 5 && wordOp w != 0x28 && wordOp w != 0x29 && decide (wordOp w < 0xC0)

/-- The checks of R43 on a word that the engine decodes. A bindable opcode is checked against its entry `e` (R349, R350). -/
def decodeWord (c : Context) (e : Word) (pc : Nat) (w : Word) : Except Trap Instr :=
  if wordTag w = 6 || wordTag w = 7 then .error illegalTrap
  else if 0xC0 ≤ wordOp w then
    if !e.getLsbD 63 then .error { cause := .unbound }
    else if wordTag w ≠ wbits e 62 60 then .error illegalTrap
    else match decode w with
      | .error _ => .error illegalTrap
      | .ok i =>
        let lat := wbits w 52 49
        let least := wbits e 59 56
        if (least = 0 && lat = 0) || (least ≠ 0 && decide (least ≤ lat)) then .ok i else .error { cause := .latBound }
  else if (match parse w with | some i => !targetOk c pc i | none => false) then .error illegalTrap
  else match decode w with
    | .ok i => .ok i
    | .error .illegal => .error illegalTrap
    | .error .latBound => .error { cause := .latBound }

/-- The entry that serves a bindable opcode at an engine (R54, R349). -/
def bindEntry (c : Context) (st : Strand) (e : Eng) (op : Nat) : Word := boundEntry c st e (BitVec.ofNat 6 (op - 0xC0))

/-- The word of the context's window at an index (R25, R391). -/
def fetchWord (c : Context) (pc : Nat) : Word := (fget c.imem pc).getD 0

/-- The word that the engine decodes: its own, a structural one, or one whose TAG is illegal (R26). A bound word waits
until C has passed every word before it, since one of them may be a `bind` (R54). -/
def walkWord (s : State) (c : Context) (st : Strand) (e : Eng) : Turn :=
  let en := getEng st e
  if c.win ≤ en.pc then .fault illegalTrap
  else
    let w := fetchWord c en.pc
    let mine := wordTag w == Eng.code e || 5 ≤ wordTag w
    let bound := decide (0xC0 ≤ wordOp w)
    if !stageLive en then .set (stepPast s st e)
    else if !mine then skipWord s st e w
    else if bound && e != .c && decide ((getEng st .c).passed < en.passed) then .idle
    else if en.ploop.isSome && !kernelOk w then
      .fault (if bound && decide (wordTag w < 6) && !(bindEntry c st e (wordOp w)).getLsbD 63 then { cause := .unbound }
        else illegalTrap)
    else match decodeWord c (bindEntry c st e (wordOp w)) en.pc w with
      | .ok i => .run i
      | .error t => .fault t

/-- The kernel that the engine runs ends at its program counter. -/
def atPassEnd (en : EngState) : Bool :=
  match en.ploop with
  | some p => en.pc == p.first + p.len
  | none => false

/-- The engine has reached the end of its innermost loop (R326). -/
def atLoopEnd (en : EngState) : Bool :=
  match en.loops with
  | l :: _ => en.arrived && l.stop == en.pc && en.ret.length == l.depth
  | [] => false

/-- The turn of an engine. While a routine of it runs it issues nothing else (R350); a routine of S runs at the data stage,
by the event of its steps (R364). A loop's end comes before a lull point at the same word: a pass that goes back does not
reach that word (R326, R396). -/
def turn (s : State) (w : Walker) : Turn :=
  match getStrand s (Walker.ref w) with
  | none => .idle
  | some st =>
    if !mayIssue s st w.eng then .idle
    else
      let c := getCtx s w.cell st.part
      let en := getEng st w.eng
      if en.micro.isSome then (if w.eng = .s then .idle else .micro)
      else if atPassEnd en then .set (ploopPassEnd st w.eng)
      else if en.clamped.isNone && atLoopEnd en then .loopEnd
      else if lullStops s c st en && en.ploop.isNone && !(w.eng == .l && st.lean.isSome) then
        .set (modEng st w.eng fun x => { x with stop := .atLull })
      else match en.clamped with
        | some (i, _, _) =>
          if i = en.pc then walkWord s c st w.eng
          else .set (modEng st w.eng fun x => { x with pc := i, arrived := false })
        | none => walkWord s c st w.eng

/-- The index that FLTPC names for a fault of the turn: past the window's end it is the last word (R391). -/
def raiseTurn (s : State) (w : Walker) (t : Trap) : State :=
  match getStrand s (Walker.ref w) with
  | none => s
  | some st =>
    let c := getCtx s w.cell st.part
    let en := getEng st w.eng
    if c.win ≤ en.pc then
      let q : QFault := ⟨t, Eng.code w.eng, en.pc - 1, st.overlay.toNat, none, none, s.clock⟩
      match w.eng, st.lean with
      | .l, some ln => putStrand s (Walker.ref w) { st with lean := some { ln with fault := ln.fault.or (some q) } }
      | _, _ => raiseAt s (Walker.ref w) q
    else raiseWord s w t

end Sys2Proof.Machine
end

