-- ==== Sys2Proof/Machine/Translate.lean ====
section
/-! DEFINITION. Virtual addresses, page tables and the checks of an access (R57 to R70), with the translation caches
(R77, R78) and the pull of a migrating page (R81, R82).
-/

namespace Sys2Proof.Machine

/-! ## Physical addresses (R58, R59) -/

def frameOf (pa : Nat) : Nat := pa / Config.frameSize

/-- A physical address of the package's own map that lies in a populated frame (R58). -/
def populated (s : State) (pa : Nat) : Bool :=
  (decide (pa < 12 * Config.stackWindow) && decide (pa % Config.stackWindow / Config.frameSize < Config.hbmFrames)) ||
  (decide (Config.secondBase ≤ pa) && decide ((pa - Config.secondBase) / Config.frameSize < s.hub.stFrames))

/-- An address that would be populated in HBM or the second tier of a module (R59). -/
def populatedRemote (pa : Nat) : Bool :=
  (decide (pa < 12 * Config.stackWindow) && decide (pa % Config.stackWindow / Config.frameSize < Config.hbmFrames)) ||
  (decide (Config.secondBase ≤ pa) && decide ((pa - Config.secondBase) / Config.frameSize < 61035))

/-- The die whose stack holds an HBM address (R58). -/
def homeDie (pa : Nat) : Nat := pa / Config.stackWindow / 3

/-! ## Page-table entries (R61) -/

def pteKind (p : BitVec 128) : Nat := bits p.toNat 1 0
def pteR (p : BitVec 128) : Bool := p.getLsbD 2
def pteW (p : BitVec 128) : Bool := p.getLsbD 3
def pteX (p : BitVec 128) : Bool := p.getLsbD 4
def pteFrame (p : BitVec 128) : Nat := bits p.toNat 51 14 * 2 ^ 14
def pteSframe (p : BitVec 128) : Nat := bits p.toNat 101 64 * 2 ^ 14
def pteMig (p : BitVec 128) : Nat := bits p.toNat 105 104
def pteRepl (p : BitVec 128) : Bool := p.getLsbD 106
def pteKey (p : BitVec 128) : Nat := bits p.toNat 112 107
def pteMsa (p : BitVec 128) : Bool := p.getLsbD 113
def pteTier (p : BitVec 128) : Nat := bits p.toNat 117 116
def pteHome (p : BitVec 128) : Nat := bits p.toNat 127 118

def pteType (p : BitVec 128) : MType :=
  match bits p.toNat 115 114 with
  | 0 => .normal | 1 => .combining | 2 => .device | _ => .ordered

def pteReserved (p : BitVec 128) : Bool := bits p.toNat 103 102 != 0 || bits p.toNat 63 52 != 0 || bits p.toNat 13 5 != 0

/-- Bytes a leaf maps at a level (R60). -/
def pageSize (level : Nat) : Nat := 2 ^ (44 - 10 * level)

/-- The structure of an entry: R62 for a table, R63 for a leaf. -/
def pteShape (s : State) (level : Nat) (p : BitVec 128) : Bool :=
  if pteKind p = 1 then
    decide (level < 3) && decide (homeDie (pteFrame p) < 4) && populated s (pteFrame p) &&
      pteHome p == s.hub.pkg.toNat && p.toNat / 2 ^ 64 % 2 ^ 54 == 0 && bits p.toNat 4 2 == 0
  else
    decide (0 < level) && pteFrame p % pageSize level == 0 && (pteMig p == 0 || level == 3)

/-- The consistency of a leaf's fields (R64, check 3). -/
def pteFields (s : State) (p : BitVec 128) : Bool :=
  let home := pteHome p == s.hub.pkg.toNat
  let mig := pteMig p
  (if pteTier p = 3 then !home else if mig = 0 then home else !home) &&
    (!pteMsa p || pteTier p == 0 || pteTier p == 3) && (decide (pteTier p < 2) || pteKey p == 0) &&
    (!pteRepl p || (pteTier p == 3 && !pteW p)) && (mig != 0 || pteSframe p == 0) && mig != 3

/-- The page lies in populated frames (R59; R64, check 4); the FRAME of a leaf that is being moved in is local whatever its
TIER (R81). Populated frames come first in each stack's window and in the
second tier, and no page crosses a window, so the page's first and last frames decide. -/
def ptePlace (s : State) (level : Nat) (p : BitVec 128) : Bool :=
  let last := pteFrame p + pageSize level - 1
  let here := populated s (pteFrame p) && populated s last
  if pteMig p = 1 then here
  else match pteTier p with
  | 0 | 1 => here
  | 2 => true
  | _ => populatedRemote (pteFrame p) && populatedRemote last

/-- Frame ownership and key of a local leaf, or of the local FRAME of a page being moved in (R67, R81; R64, check 6). The
service partition skips the owner test. -/
def pteOwned (s : State) (part level : Nat) (p : BitVec 128) : Bool :=
  (decide (2 ≤ pteTier p) && pteMig p != 1) ||
    (List.range (max 1 (pageSize level / Config.frameSize))).all fun i =>
      match fget s.hub.owners (frameOf (pteFrame p) + i) with
      | some o => o.valid && (part == 0 || o.owner == part) && o.key == pteKey p
      | none => false

/-! ## Reading memory -/

/-- A byte of HBM or the second tier: under a zeroised key, what the decryption gives (R68; log entries 4, 15). -/
def memByte (s : State) (pa : Nat) : Byte :=
  match fget s.hub.deadFrames (frameOf pa) with
  | some gen => Config.staleByte gen pa
  | none => mread s.mem pa

/-- `n` bytes of memory, little-endian. -/
def memN (s : State) (pa : Nat) : Nat → Nat
  | 0 => 0
  | n + 1 => (memByte s pa).toNat + 256 * memN s (pa + 1) n

/-- Some line of a physical range is poisoned (R415). -/
def linePoisoned (s : State) (pa n : Nat) : Bool :=
  s.hub.linePoison.any fun l => decide (l * 128 < pa + n) && decide (pa < l * 128 + 128)

/-- Writes bytes of memory; a store that covers a whole poisoned line clears its poison (R415), and a store settles which
copy of its lines holds (log entry 39). -/
def memWrite (s : State) (pa n v : Nat) : State :=
  { s with mem := writeN s.mem pa n v,
           hub := { s.hub with
             linePoison := s.hub.linePoison.filter fun l =>
               !(decide (pa ≤ l * 128) && decide (l * 128 + 128 ≤ pa + n)),
             mixed := s.hub.mixed.filter fun m => !(decide (m.1 * 128 < pa + n) && decide (pa < m.1 * 128 + 128)) } }

/-! ## L2 (R70, R71) -/

/-- The home slice of a line: the exclusive or of the 4-bit groups of physical address bits 51:7 (R71). -/
def sliceOf (line : Nat) : Nat := (List.range 12).foldl (fun x i => x ^^^ elem line 4 i) 0

/-- The lines of a slice of 6 MiB (R71). -/
def sliceLines : Nat := 49152

def l2Has (s : State) (line : Nat) : Bool :=
  ((getDie s (homeDie (line * 128))).l2.get (Fin.ofNat 16 (sliceOf line))).contains line

/-- Allocates a line at its home slice; the oldest of a full slice drops off (R71; log entry 36). -/
def l2Add (s : State) (line : Nat) : State :=
  modDie s (homeDie (line * 128)) fun d =>
    let k := Fin.ofNat 16 (sliceOf line)
    { d with l2 := d.l2.set k ((line :: d.l2.get k).take sliceLines) }

/-- The home slice writes a line back and drops it (R75). -/
def l2Drop (s : State) (line : Nat) : State :=
  modDie s (homeDie (line * 128)) fun d =>
    let k := Fin.ofNat 16 (sliceOf line)
    { d with l2 := d.l2.set k ((d.l2.get k).filter (· != line)) }

/-- An ordinary read of HBM lines with CP 00: those absent are allocated. -/
def l2Read (s : State) (lines : List Nat) : State :=
  lines.foldl (fun s l => if l2Has s l then s else l2Add s l) s

/-! ## The walk (R60 to R66) -/

def vaIndex (va level : Nat) : Nat := va / pageSize level % 1024

/-- One entry, read whole (R66): from the walk cache of the die, or from its home (R77, R78), with the line read there. -/
def readPte (s : State) (die part va level table : Nat) : BitVec 128 × List Nat :=
  let base := va / pageSize level * pageSize level
  match (getDie s die).walk.find? (fun w => w.part == part && w.level == level && w.va == base) with
  | some w => (w.pte, [])
  | none =>
    let a := table + 16 * vaIndex va level
    (BitVec.ofNat 128 (memN s a 16), [a / 128])

def xlatTrap (detail level va : Nat) : Trap := { cause := .translation, detail := detail, level := level, addr := va }

/-- What a walk has read: the table entries, and the lines of memory that hold entries. -/
structure WalkSeen where
  tables : List WalkEntry := []
  lines : List Nat := []
deriving DecidableEq, Repr

/-- The walk from a level: checks 1 to 6 of R64 on each entry. It gives the leaf and what it has read. -/
def walkFrom (s : State) (die part va : Nat) : Nat → Nat → Nat → WalkSeen → Except Trap (TlbEntry × WalkSeen)
  | 0, _, _, _ => .error (xlatTrap 3 3 va)
  | fuel + 1, level, table, seen =>
    let (p, read) := readPte s die part va level table
    let seen := { seen with lines := seen.lines ++ read }
    let base := va / pageSize level * pageSize level
    let here := table + 16 * vaIndex va level
    if linePoisoned s here 16 then .error { cause := .poison, detail := 2, addr := va, paddr := some here }
    else if pteKind p = 0 then .error (xlatTrap 1 level va)
    else if pteReserved p || pteKind p = 3 || !pteShape s level p then .error (xlatTrap 3 level va)
    else if pteKind p = 1 then
      walkFrom s die part va fuel (level + 1) (pteFrame p) { seen with tables := ⟨part, base, level, p⟩ :: seen.tables }
    else if !pteFields s p || !ptePlace s level p then .error (xlatTrap 3 level va)
    else
      let pa := pteFrame p + va % pageSize level
      if pteMig p = 2 then .error { cause := .migLost, addr := va, paddr := some pa }
      else if !pteOwned s part level p then .error { cause := .permission, addr := va, paddr := some pa }
      else .ok (⟨part, base, level, here, p⟩, seen)

/-- A cached leaf of the partition that maps an address. -/
def tlbFind (l : List TlbEntry) (part va : Nat) : Option TlbEntry :=
  l.find? fun e => e.part == part && e.va == va / pageSize e.level * pageSize e.level

/-- The leaf that maps an address, with the caches as the lookup leaves them: micro-TLB of the cell, die TLB, walk
(R77). Least recently used entries drop off. The entries that a walk reads are read through the L2 of their tables' home
dies (R78). -/
def lookupLeaf (s : State) (die : Nat) (cell : Option Nat) (part va : Nat) : Except Trap (TlbEntry × State) :=
  let micro := match cell with | some c => tlbFind (getCell s c).tlb part va | none => none
  let fillMicro (s : State) (e : TlbEntry) : State :=
    match cell with
    | some c => modCell s c fun x => { x with tlb := touch x.tlb e 256 }
    | none => s
  match micro with
  | some e => .ok (e, fillMicro s e)
  | none =>
    match tlbFind (getDie s die).tlb part va with
    | some e => .ok (e, fillMicro (modDie s die fun d => { d with tlb := touch d.tlb e 16384 }) e)
    | none =>
      match walkFrom s die part va 4 0 (getPart s part).root {} with
      | .error t => .error t
      | .ok (e, seen) =>
        let s := modDie (l2Read s seen.lines) die fun d =>
          { d with tlb := touch d.tlb e 16384, walk := seen.tables.foldl (fun l w => touch l w 512) d.walk }
        .ok (e, fillMicro s e)

/-! ## The checks of an access (R64, checks 5, 7 and 8; R69) -/

/-- What an access is, for the permission and memory-type checks. The unit uses are the words that the copy engine and the
scheduler read, write and count in on their own, which no device or ordered page takes (R69). -/
inductive Use where
  | scalarRead | scalarWrite | scalarAtomic
  | elemRead | elemWrite
  | rowRead | rowWrite
  | addWrite
  | copyRead | copyWrite | copyExec
  | unitRead | unitWrite | unitAdd
  | prefetch
  | exec
deriving DecidableEq, Repr

/-- R, W and X as the use needs them (R64, check 7). -/
def usePerm (u : Use) (p : BitVec 128) : Bool :=
  match u with
  | .scalarRead | .elemRead | .rowRead | .copyRead | .unitRead => pteR p
  | .scalarWrite | .elemWrite | .rowWrite | .copyWrite | .unitWrite => pteW p
  | .scalarAtomic | .addWrite | .unitAdd => pteR p && pteW p
  | .copyExec | .exec => pteR p && pteX p
  | .prefetch => true

/-- The accesses each memory type permits (R69, R132). -/
def useType (u : Use) (t : MType) : Bool :=
  match t with
  | .normal => true
  | .combining => (match u with | .scalarAtomic | .addWrite | .unitAdd | .copyExec | .exec => false | _ => true)
  | .device => (match u with | .scalarRead | .scalarWrite | .scalarAtomic | .elemRead | .elemWrite => true | _ => false)
  | .ordered => (match u with | .scalarRead | .scalarWrite | .elemRead | .elemWrite => true | _ => false)

/-- The checks on a leaf found in a cache or by a walk. -/
def useLeaf (u : Use) (va : Nat) (e : TlbEntry) : Except Trap Nat :=
  let pa := pteFrame e.pte + va % pageSize e.level
  if pteMig e.pte = 2 then .error { cause := .migLost, addr := va, paddr := some pa }
  else if !usePerm u e.pte then .error { cause := .permission, addr := va, paddr := some pa }
  else if !useType u (pteType e.pte) then .error { cause := .memType, addr := va, paddr := some pa }
  else .ok pa

/-- Translates an effective address for a use: R57, R64 and R69. A page that is being pulled holds the access (R82). -/
def translate (s : State) (die : Nat) (cell : Option Nat) (part : Nat) (u : Use) (ea : Word) : Act (Xlat × State) :=
  if 2 ^ 54 ≤ ea.toNat then trap (xlatTrap 2 0 ea.toNat)
  else match lookupLeaf s die cell part ea.toNat with
    | .error t => trap t
    | .ok (e, s') =>
      match useLeaf u ea.toNat e with
      | .error t => trap t
      | .ok pa =>
        if pteMig e.pte = 1 then
          .error (.hold (.pull die ⟨part, e.va, e.pte, e.place, s.clock, 16, none⟩))
        else .ok (⟨e, pa⟩, s')

/-- The home an access has by its leaf (R55). -/
def homeOfPte (p : BitVec 128) : Home :=
  match pteTier p with
  | 0 => .hbm | 1 => .second | 2 => .host
  | _ => .remote (BitVec.ofNat 10 (pteHome p))

/-- Alignment of a scalar or element access (R57). -/
def alignedTo (ea : Word) (n : Nat) : Act Unit := check (decide (ea.toNat % n = 0)) (alignTrap ea.toNat)

end Sys2Proof.Machine
end

