-- ==== Sys2Proof/Machine/Access.lean ====
section
/-! DEFINITION. Memory accesses in flight: the order in which they may perform (R264 to R278), where they perform and
what that does (R55, R70 to R76, R283, R415), and the events that perform them.
-/

namespace Sys2Proof.Machine

open Host (Outcome)

/-! ## Order (R268 to R278) -/

def AccKind.loads : AccKind → Bool
  | .load | .atomic => true
  | _ => false

def AccKind.stores : AccKind → Bool
  | .store | .atomic => true
  | _ => false

def inClass (mask : BitVec 16) (c : BitVec 4) : Bool := mask.getLsbD c.toNat

/-- Some byte is touched by both, through the same type and MSA bit (R269). -/
def sameBytes (a b : Access) : Bool :=
  a.home == b.home && a.mtype == b.mtype && a.msa == b.msa && decide (a.pa < b.pa + b.size) &&
    decide (b.pa < a.pa + a.size)

/-- The ordering points of a scope, from the cell's port outwards (R266). -/
def scopePoints : Scope → Nat
  | .cell => 1 | .die => 2 | .pkg => 3 | .dom => 4

/-- The access has performed at the scope though not yet at its home: a store past the scope's ordering point (R266). -/
def performedAt (b : Access) (sc : Scope) : Bool := decide (scopePoints sc ≤ b.reach.length)

/-- The earlier access or fence `b` holds the later access or fence `a`. -/
def holds (b a : Access) : Bool :=
  match b.kind, a.kind with
  | .fence .., .fence .. => false
  | .fence k _ mask, _ =>
    inClass mask a.cls && (match k with | .rel => a.kind.stores | _ => true)
  | _, .fence k sc mask =>
    inClass mask b.cls && (match k with | .acq => b.kind.loads | _ => true) && !performedAt b sc
  | _, _ =>
    let wc (x : Access) : Bool := x.mtype == .combining && x.kind.stores
    let dev (x : Access) : Bool := x.mtype == .device || x.mtype == .ordered
    (a.cls == b.cls && !wc a && !wc b) || sameBytes a b ||
    (a.rel && (a.cls == b.cls || inClass a.rset b.cls)) ||
    (b.acq && (a.cls == b.cls || inClass b.rset a.cls)) ||
    (dev a && dev b) || a.mtype == .ordered || b.mtype == .ordered

def earlier (b a : Access) : Bool := decide (b.pos < a.pos) || (b.pos == a.pos && decide (b.lane < a.lane))

/-- A memory store of S that waits for its data stage, as an access with the range it entered (R119), as the later
access `a` is ordered against it. A scatter form's lanes are not yet known, so it is taken to meet `a`; an adding one loads
as well (R264). -/
def sAccess (x : SEntry) (a : Access) : Access where
  id := 0
  eng := .s
  pos := x.pos
  index := x.index
  lane := 0
  kind := match x.word with | .stmqAdd .. => .atomic | _ => .store
  cls := x.cls
  va := 0
  pa := x.lo
  size := x.hi - x.lo
  data := 0
  home := if x.tgt = 0 then a.home else homeOfPte (BitVec.ofNat 128 x.tgt)
  mtype := if x.tgt = 0 then a.mtype else pteType (BitVec.ofNat 128 x.tgt)
  msa := if x.tgt = 0 then a.msa else pteMsa (BitVec.ofNat 128 x.tgt)
  repl := false
  cp := .normal
  acq := false
  rel := false
  rset := 0
  dest := .none
  sext := false
  op := none

/-- The other engines have issued the words that a word walked past, S by its address stage (log entry 22). -/
def issuedBefore (st : Strand) (own : Eng) (x : Seen) : Bool :=
  (own == .c || decide (x.c ≤ surePassed st .c)) && (own == .l || !inMask st .l || decide (x.l ≤ surePassed st .l)) &&
    (own == .s || !inMask st .s || decide (x.s ≤ surePassed st .s))

/-- A store of S that a read of L overlaps in physical bytes (R120). -/
def pendingStore (b a : Access) : Bool :=
  a.eng == .l && b.eng == .s && b.kind.stores && b.home == a.home && decide (b.pa < a.pa + a.size) &&
    decide (a.pa < b.pa + b.size)

/-- The access may perform now. A read by L also waits for every overlapping entry of the pending-store table
(R120). -/
def mayPerform (st : Strand) (a : Access) : Bool :=
  issuedBefore st a.eng a.seen &&
    !(st.accs.any fun b => earlier b a && (holds b a || pendingStore b a)) &&
    !(st.stores.any fun x => x.mem && !x.sent && decide (x.pos < a.pos) &&
      (holds (sAccess x a) a || pendingStore (sAccess x a) a))

/-! ## The way to the home (R266) -/

/-- The ordering points between a cell and the home of an access: the cell's port, then unless a slice of the same die is
the home the die's link, then for a remote home the hub's egress. -/
def pointsOf (cell : Nat) (a : Access) : Nat :=
  match a.home with
  | .hbm => if homeDie a.pa = dieOf cell then 1 else 2
  | .second | .host => 2
  | .remote _ => 3

/-- Both accesses have one home: a slice of L2, the second tier, the host port or a remote package. -/
def sameHome (a b : Access) : Bool :=
  match a.home, b.home with
  | .hbm, .hbm => homeDie a.pa == homeDie b.pa && sliceOf (a.pa / 128) == sliceOf (b.pa / 128)
  | x, y => x == y

/-- Ordering point `i` is on the way of an access from either cell. -/
def sharedPoint (c d i : Nat) : Bool :=
  match i with
  | 0 => c == d
  | 1 => dieOf c == dieOf d
  | _ => true

/-- `b`, from cell `d`, has entered before `a`, from cell `c`, at an ordering point of both, and is not past the first `k`
points. -/
def goesFirst (c : Nat) (a : Access) (d : Nat) (b : Access) (k : Nat) : Bool :=
  sameHome a b && decide (b.reach.length < k) && (List.range b.reach.length).any fun i =>
    sharedPoint c d i && (match a.reach[i]?, b.reach[i]? with
      | some x, some y => decide (y < x)
      | none, some _ => true
      | _, none => false)

/-- Nothing that entered earlier is overtaken by the access when it passes the first `k` ordering points, or when it
performs, with `k` 4 (R266). -/
def pathClear (s : State) (cell : Nat) (a : Access) (k : Nat) : Bool :=
  !(s.strands.any fun p => p.2.accs.any fun b => b.id != a.id && goesFirst cell a (p.1 / 4) b k)

/-- A store that performs at a scope short of its home passes the next ordering point (R266); the hub's egress it passes
when it departs. -/
def advanceAccess (s : State) (r : SRef) (id : Nat) : State :=
  match getStrand s r with
  | none => s
  | some st =>
    match st.accs.find? fun a => a.id == id with
    | none => s
    | some a =>
      let k := a.reach.length + 1
      if a.kind == .store && mayPerform st a && decide (k ≤ min 2 (pointsOf r.cell a)) && pathClear s r.cell a k then
        let (t, s) := freshId s
        putStrand s r { st with accs := st.accs.map fun b => if b.id == id then { b with reach := b.reach ++ [t] } else b }
      else s

/-! ## L1 (R70, R72 to R74) -/

/-- Invalidates the partition's lines in the L1 of a cell. -/
def dropL1 (s : State) (cell part : Nat) : State :=
  modCell s cell fun c => { c with l1 := c.l1.filter fun l => l.part != part }

/-- A line of a partition's mappings with an MSA bit: another mapping of the page does not meet it (R286). -/
def L1Line.isLine (l : L1Line) (part : Nat) (h : Home) (msa : Bool) (line : Nat) : Bool :=
  l.part == part && l.home == h && l.msa == msa && l.line == line

def dropLine (s : State) (cell part : Nat) (h : Home) (msa : Bool) (line : Nat) : State :=
  modCell s cell fun c => { c with l1 := c.l1.filter fun l => !(L1Line.isLine l part h msa line) }

/-- The lines of L1 are 512 (64 KiB); the oldest drops off (log entry 23). -/
def addLine (s : State) (cell : Nat) (l : L1Line) : State :=
  modCell s cell fun c => { c with l1 := (l :: c.l1).take 512 }

def findLine (s : State) (cell part : Nat) (h : Home) (msa : Bool) (line : Nat) : Option L1Line :=
  (getCell s cell).l1.find? fun l => L1Line.isLine l part h msa line

/-- C's store updates a resident line (R70). -/
def updateLine (s : State) (cell part : Nat) (h : Home) (msa : Bool) (pa n v : Nat) : State :=
  let sh := 8 * (pa % 128)
  let put (x : Nat) : Nat := x - elem (x / 2 ^ sh) (8 * n) 0 * 2 ^ sh + v % 2 ^ (8 * n) * 2 ^ sh
  let update (l : L1Line) : L1Line :=
    if l.isLine part h msa (pa / 128) then { l with data := BitVec.ofNat 1024 (put l.data.toNat) } else l
  modCell s cell fun c => { c with l1 := c.l1.map update }

/-- What C's store or atomic does to a resident L1 line, wherever its home is: a store with CP 00 updates it, another one
and an atomic drop it (R70, R346). -/
def storeL1 (s : State) (r : SRef) (part : Nat) (a : Access) : State :=
  if a.eng != .c || a.mtype != .normal then s
  else if a.kind == .store && a.cp == .normal then updateLine s r.cell part a.home a.msa a.pa a.size a.data.toNat
  else if a.kind.stores then dropLine s r.cell part a.home a.msa (a.pa / 128)
  else s

/-- A C load may look up and allocate L1 (R70, R72, R74). -/
def l1Load (a : Access) : Bool :=
  a.eng == .c && a.kind == .load && a.cp == .normal && a.mtype == .normal &&
    (match a.home with | .hbm | .second => true | .remote _ => a.repl | .host => false)

/-! ## Counts of an access at its home (R71, R401, R438) -/

/-- The 128-byte lines of a physical range. -/
def linesOf (pa n : Nat) : List Nat := (List.range ((pa + n + 127) / 128 - pa / 128)).map (· + pa / 128)

/-- Counts and charges of lines that perform at an HBM or second-tier home; `alloc` allocates on a miss (R70, R71). -/
def touchFor (s : State) (p : Payer) (h : Home) (lines : List Nat) (alloc : Bool) : State :=
  lines.foldl (fun s l =>
    match h with
    | .hbm =>
      let hit := l2Has s l
      let s := if hit || !alloc then s else l2Add s l
      let s := perfFor s p 0x10 1
      let s := if hit then s else perfFor (perfFor s p 0x11 1) p 0x12 128
      chargeFor s p (centiNj (if hit then 100 else 484))
    | .second => chargeFor (perfFor s p 0x13 128) p (centiNj 640)
    | _ => s) s

def touchLines (s : State) (r : SRef) (h : Home) (lines : List Nat) (alloc : Bool) : State :=
  touchFor s (payerAt s r) h lines alloc

/-! ## The two places of atomics (R75, R284, R286) -/

/-- The memory-side unit performs the atomic: a normal page with MSA set (R69, R75). -/
def memorySide (a : Access) : Bool := a.msa && a.mtype == .normal

/-- The bytes of a line. -/
def lineBytes (s : State) (line : Nat) : BitVec 1024 := BitVec.ofNat 1024 (memN s (line * 128) 128)

/-- Both places have performed atomics on a line, and the copy of the other one is found: its bytes become the line's
(log entry 39). -/
def swapLine (s : State) (line : Nat) (m : AtomicLine) : State :=
  memWrite { s with freeCount := s.freeCount + 1 } (line * 128) 128 m.other.toNat

/-- A load of lines on which both places have performed atomics reads one copy or the other, which then holds. -/
def settleLines (s : State) (pa n : Nat) : State :=
  (linesOf pa n).foldl (fun s l =>
    match fget s.hub.mixed l with
    | some m => if m.both && Config.otherCopy s.freeCount then swapLine s l m else s
    | none => s) s

/-- The line as the place that performs an atomic finds it, with the other place's copy as it then stands. -/
def atomicLine (s : State) (line : Nat) (msa : Bool) : State × AtomicLine :=
  match fget s.hub.mixed line with
  | none => (s, ⟨msa, lineBytes s line, false⟩)
  | some m =>
    if m.msa = msa then (s, m)
    else
      let m' : AtomicLine := ⟨msa, lineBytes s line, true⟩
      if Config.otherCopy s.freeCount then (swapLine s line m, m') else ({ s with freeCount := s.freeCount + 1 }, m')

/-- An atomic on a word of memory at the place that R75 gives it: the old value, and the state with the new one. -/
def atomicAt (s : State) (pa size : Nat) (msa : Bool) (f : Nat → Nat) : Nat × State :=
  let (s, m) := atomicLine s (pa / 128) msa
  let old := memN s pa size
  let s := memWrite s pa size (f old)
  (old, modHub s fun h => { h with mixed := fset h.mixed (pa / 128) m })

/-! ## Performing -/

/-- The value of a load as its destination takes it, sign-extended where asked (R345). -/
def loadValue (a : Access) (v : Nat) : BitVec 4096 :=
  if a.sext then ((BitVec.ofInt 64 (sgn v (8 * a.size))).setWidth 4096)
  else BitVec.ofNat 4096 (v % 2 ^ (8 * a.size))

/-- A flag load of `wait.flag` has its value: C keeps it for the word; the sequencer's load wakes the strand (R330). -/
def flagValue (st : Strand) (a : Access) (v : Nat) : Strand :=
  if a.acq then { st with flagRead := some (BitVec.ofNat 64 v) }
  else if v % 2 ^ 64 = 0 then st else { st with waitHeld := false }

/-- Gives a load its value: the pending result of C, or the LQ entry of L. -/
def deliver (st : Strand) (a : Access) (v : Nat) (poison : Bool) : Strand :=
  let st := if a.flag then flagValue st a v else st
  let st := match a.dest with
    | .none => st
    | .reg n =>
      let st := { st with pending := st.pending.map fun (p : Pending) =>
        if p.eng == a.eng && p.pos == a.pos && p.val.isNone then { p with val := some (loadValue a v) } else p }
      landReg st (.g n) st.pending []
    | .lq id => { st with lq := st.lq.map fun (x : LqEntry) =>
        if x.id == id && !x.filled then { x with data := BitVec.ofNat 4096 v, filled := true, poison := poison } else x }
    | .call => { st with calls := st.calls.map fun (x : Call) =>
        if x.pos = a.pos then { x with rec? := some (toDwords (toBytes v a.size) (a.size / 8)) } else x }
  modEng (retireStores { st with accs := st.accs.filter fun b => b.id != a.id }) a.eng fun en => { en with idle := 0 }

/-- Drops an access that will not perform, with the result it would have given. -/
def dropAccess (st : Strand) (a : Access) : Strand :=
  retireStores { st with accs := st.accs.filter (fun b => b.id != a.id),
                         calls := st.calls.filter (fun x => !(a.dest == .call && x.pos == a.pos)),
                         pending := st.pending.filter fun p => !(p.eng == a.eng && p.pos == a.pos && p.val.isNone) }

/-- An access ends in an error at its home or on the way: the word's fault (R76, R293, R415). L's loads carry poison
instead (R124, R415). -/
def failAccess (s : State) (r : SRef) (st : Strand) (a : Access) (t : Trap) : State :=
  let t := { t with addr := a.va, paddr := some a.pa }
  match a.dest, t.cause with
  | .lq _, .poison => putStrand s r (deliver st a 0 true)
  | .lq _, .uncorrectable =>
    addLog (putStrand s r (deliver st a 0 true)) (dieOf r.cell)
      (logEntry s (Cause.code t.cause) t.detail st.part r.cell (Eng.code a.eng) a.va t.paddr [])
  | _, _ =>
    match a.eng, st.lean with
    | .l, some ln =>
      if ln.saved.passed ≤ a.pos then
        -- R121: the fault of a read on a leaning arm waits for the outcome
        let q : QFault := ⟨t, Eng.code .l, a.index, st.overlay.toNat, none, none, s.clock⟩
        putStrand s r { dropAccess st a with lean := some { ln with fault := ln.fault.or (some q) } }
      else raiseLate (putStrand s r (dropAccess st a)) r a.eng a.index t
    | _, _ => raiseLate (putStrand s r (dropAccess st a)) r a.eng a.index t

/-- The new value of an atomic or of an adding store (R130, R283). -/
def combine (op : Option AccOp) (n old : Nat) (v : BitVec 4096) : Nat :=
  match op with
  | some (.amo o expect) => amoNew o n old v.toNat expect.toNat
  | some (.addElem t) => addElem t old v.toNat
  | none => v.toNat

/-- The fault of an access that a check stops: DETAIL as R406 gives it. -/
def checkTrap (c : AccCheck) : Trap :=
  { cause := .uncorrectable, detail := match c with | .pass => 0 | .line => 2 | .residue => 3 | .link => 5 | .die => 6 }

/-- An access that a check stops: its target keeps what it holds (R417), but a line found destroyed is poisoned (R415). -/
def failCheck (s : State) (r : SRef) (st : Strand) (a : Access) (c : AccCheck) : State :=
  let destroyed := match c with | .line | .die => linesOf a.pa a.size | _ => []
  failAccess (modHub s fun h => { h with linePoison := destroyed.foldl insertNew h.linePoison }) r st a (checkTrap c)

/-- A load at its home, or in L1 where C may read there. -/
def performLoad (s : State) (r : SRef) (st : Strand) (a : Access) (c : AccCheck) : State :=
  let s := if a.acq then dropL1 s r.cell st.part else s
  let line := a.pa / 128
  let hit := if l1Load a then findLine s r.cell st.part a.home a.msa line else none
  match hit with
  | some l => putStrand s r (deliver st a (l.data.toNat / 2 ^ (8 * (a.pa % 128))) false)
  | none =>
    if linePoisoned s a.pa a.size then failAccess s r st a { cause := .poison, detail := 2 }
    else if c != .pass && c != .residue then failCheck s r st a c
    else
      let s := settleLines s a.pa a.size
      let s := if l1Load a then addLine s r.cell ⟨st.part, a.home, line, a.msa, lineBytes s line⟩ else s
      let s := putStrand s r (deliver st a (memN s a.pa a.size) false)
      touchLines s r a.home (linesOf a.pa a.size) (a.cp != .stream)

/-- A store at its home; nothing but a link can stop it. C's store updates or drops a resident L1 line (R70). Stores never
merge in a store buffer: each performs on its own (R276, R278; log entry 79). -/
def performStore (s : State) (r : SRef) (st : Strand) (a : Access) (c : AccCheck) : State :=
  if c = .link then failCheck s r st a c
  else
    let s := memWrite s a.pa a.size a.data.toNat
    let s := putStrand (storeL1 s r st.part a) r (deliver st a 0 false)
    touchLines s r a.home (linesOf a.pa a.size) (a.cp != .stream)

/-- An atomic at its home (R75, R283, R284): the home slice writes back and drops the line before the memory-side unit
performs. -/
def performAtomic (s : State) (r : SRef) (st : Strand) (a : Access) (c : AccCheck) : State :=
  let s := if a.acq then dropL1 s r.cell st.part else s
  if linePoisoned s a.pa a.size then failAccess s r st a { cause := .poison, detail := 2 }
  else if c ≠ .pass then failCheck s r st a c
  else
    let (old, s) := atomicAt s a.pa a.size (memorySide a) fun old => combine a.op a.size old a.data
    let s := putStrand (storeL1 s r st.part a) r (deliver st a old false)
    let s := if memorySide a && a.home == .hbm then l2Drop s (a.pa / 128) else s
    touchLines s r a.home (linesOf a.pa a.size) (a.cp != .stream && !memorySide a)

/-- A fence completes; an acquire fence drops the partition's L1 lines first (R272). -/
def performFence (s : State) (r : SRef) (st : Strand) (a : Access) (k : FenceKind) : State :=
  let s := match k with | .acq => dropL1 s r.cell st.part | _ => s
  putStrand s r { st with accs := st.accs.filter fun b => b.id != a.id }

/-- An access of HBM or the second tier, or a fence, performs (R266, R267). `c` is what the access
meets there (R415 to R417). -/
def execAccessPerform (r : SRef) (k : Nat) (c : AccCheck) (s : State) : Outcome State Fault Refusal :=
  match getStrand s r with
  | none => .next s
  | some st =>
    match st.accs.find? (fun a => a.id == k) with
    | none => .next s
    | some a =>
      if !mayPerform st a || !pathClear s r.cell a 4 then .next s
      else match a.kind with
        | .fence f _ _ => .next (performFence s r st a f)
        | kind =>
          match a.home with
          | .hbm | .second =>
            (match kind with
             | .load => .next (performLoad s r st a c)
             | .store => .next (performStore s r st a c)
             | _ => .next (performAtomic s r st a c))
          | .remote _ =>
            if l1Load a && (findLine s r.cell st.part a.home a.msa (a.pa / 128)).isSome && !a.acq then
              .next (performLoad s r st a c)
            else .next s
          | .host => .next s

/-! ## Host and remote homes -/

/-- The strand that made an access, resident or departed. -/
def accessOwner (s : State) (id : Nat) : Option (SRef × Strand × Access) :=
  s.strands.findSome? fun (k, st) =>
    (st.accs.find? fun a => a.id == id).map fun a => (⟨k / 4, k % 4⟩, st, a)

/-- Bytes of data that crossed the host link or the fabric, `out` of them sent (R401, R433). On the host link every 64
bytes are charged, on the fabric the flits that this package has sent, `sent` of them (R294, R438; log entry 82). -/
def countFor (s : State) (p : Payer) (h : Home) (n out sent : Nat) : State :=
  match h with
  | .host => chargeFor (modPart s p.part fun x =>
      { x with counters := { x.counters with hostb := x.counters.hostb + n } }) p (centiNj (120 * ((n + 63) / 64)))
  | .remote _ =>
    let s := modPart s p.part fun x => { x with counters := { x.counters with fabb := x.counters.fabb + n } }
    chargeFor (perfFor s p 0x14 out) p (centiNj (90 * sent))
  | _ => s

/-- The flits of a request (R294): one for a load, an atomic or a store of at most 8 bytes, else a header and 64 bytes a
flit. -/
def requestFlits (stores : Bool) (n : Nat) : Nat := if stores && decide (8 < n) then 1 + (n + 63) / 64 else 1

def countBytes (s : State) (r : SRef) (a : Access) (n : Nat) : State :=
  countFor s (payerAt s r) a.home n (if a.kind == .load then 0 else a.size) (requestFlits (a.kind == .store) a.size)

/-- An access of the host or of another package performs with what came back (R76, R293). -/
def performAway (s : State) (r : SRef) (st : Strand) (a : Access) (b : Reply) : State :=
  match b with
  | .error => failAccess s r st a { cause := .permission }
  | .poison =>
    (match a.home with
     | .host => failAccess s r st a { cause := .uncorrectable, detail := 5 }
     | _ => failAccess s r st a { cause := .poison, detail := 2 })
  | .data bytes =>
    let s := if a.acq then dropL1 s r.cell st.part else s
    if l1Load a then
      -- R74: the answer to a load that may allocate L1 is the line
      let line := ofBytes (bytes.take 128)
      let s := addLine s r.cell ⟨st.part, a.home, a.pa / 128, a.msa, BitVec.ofNat 1024 line⟩
      countBytes (putStrand s r (deliver st a (line / 2 ^ (8 * (a.pa % 128))) false)) r a 128
    else countBytes (putStrand (storeL1 s r st.part a) r (deliver st a (ofBytes (bytes.take a.size)) false)) r a
      a.size

end Sys2Proof.Machine
end

