-- ==== Sys2Proof/Machine/Scalar.lean ====
section
/-! DEFINITION. The scalar accesses of the control core: `ld`, `st`, `amo` and `pfl` (R345, R346).
-/

namespace Sys2Proof.Machine

open Host (Outcome)

/-- Bytes of a size field (R37). -/
def Sz.bytes : Sz → Nat
  | .e1 => 1 | .e2 => 2 | .e4 => 4 | .e8 => 8

/-- A fresh access of a word by its translation (R55, R57). CP counts on normal pages only (R70). -/
def newAccess (st : Strand) (e : Eng) (id lane : Nat) (k : AccKind) (cls : BitVec 4) (cp : Cp) (x : Xlat) (ea : Word)
    (size : Nat) : Access where
  id := id
  eng := e
  pos := (getEng st e).passed
  index := (getEng st e).pc
  lane := lane
  kind := k
  cls := cls
  va := ea.toNat
  pa := x.pa
  size := size
  data := 0
  home := homeOfPte x.leaf.pte
  mtype := pteType x.leaf.pte
  msa := pteMsa x.leaf.pte
  repl := pteRepl x.leaf.pte
  cp := if pteType x.leaf.pte == .normal then cp else .normal
  acq := false
  rel := false
  rset := (getEng st e).rset
  dest := .none
  sext := false
  op := none
  seen := (getEng st e).seen
  level := x.leaf.level

/-- The result of C's load or atomic, to come when the access performs (R28, LAT 15). -/
def awaitG (clock : Nat) (st : Strand) (d : BitVec 5) : Strand :=
  if d = 0 then st
  else { st with pending := st.pending ++
    [{ eng := .c, pos := (getEng st .c).passed, reg := .g d, val := none, mask := fullMask (.g d), issued := clock, lat := 15 }] }

def destG (d : BitVec 5) : AccDest := if d = 0 then .none else .reg d

/-- C's word with one access at base + offset: alignment, translation and checks, then the access in flight. `f`
completes the access and the strand. -/
def accessC (s : State) (k : AccKind) (u : Use) (cls : BitVec 4) (cp : Cp) (size : Nat) (base : BitVec 5)
    (off : BitVec 18) (f : Strand → Access → Act (Strand × Access)) : Outcome State Fault Refusal :=
  issueWith s Tk.none fun w st s' => do
    let b ← readG st 0 base
    let ea := b + off.signExtend 64
    alignedTo ea size
    let (x, s') ← translate s' (dieOf w.cell) (some w.cell) st.part u ea
    let (id, s') := freshId s'
    let (st, a) ← f st (newAccess st .c id 0 k cls cp x ea size)
    let st := { st with accs := st.accs ++ [a] }
    .ok (countC (putStrand s' (Walker.ref w) (stepPast s' st .c)) (Walker.ref w))

def execLd (_lat : BitVec 4) (sz : Sz) (sext : Bool) (oc : BitVec 4) (cp : Cp) (aq : Bool) (d base : BitVec 5)
    (off : BitVec 18) (s : State) : Outcome State Fault Refusal :=
  accessC s .load .scalarRead oc cp (Sz.bytes sz) base off fun st a =>
    .ok (awaitG s.clock st d, { a with acq := aq, dest := destG d, sext := sext })

def execSt (sz : Sz) (oc : BitVec 4) (cp : Cp) (rl : Bool) (d base : BitVec 5) (off : BitVec 18) (s : State) :
    Outcome State Fault Refusal :=
  accessC s .store .scalarWrite oc cp (Sz.bytes sz) base off fun st a => do
    let v ← readG st 1 d
    .ok (st, { a with rel := rl, data := v.setWidth 4096 })

/-- `amo` sends the low bits of g(D); `cas` expects g(D) and sends g(D + 1) (R346). -/
def execAmo (_lat : BitVec 4) (op : AmoOp) (dbl : Bool) (oc : BitVec 4) (aq rl : Bool) (d base : BitVec 5)
    (off : BitVec 18) (s : State) : Outcome State Fault Refusal :=
  accessC s .atomic .scalarAtomic oc .normal (if dbl then 8 else 4) base off fun st a => do
    let v ← readG st 1 d
    match op with
    | .cas => do
      let n ← readG st 2 (d + 1)
      .ok (awaitG s.clock st d,
        { a with acq := aq, rel := rl, data := n.setWidth 4096, dest := destG d, op := some (.amo op v) })
    | _ =>
      .ok (awaitG s.clock st d,
        { a with acq := aq, rel := rl, data := v.setWidth 4096, dest := destG d, op := some (.amo op 0) })

/-- The prefetch of a line that CP 00 could allocate (R72); remote and poisoned lines are dropped (log entry 24). -/
def prefetchLine (s : State) (r : SRef) (st : Strand) (x : Xlat) : State :=
  let h := homeOfPte x.leaf.pte
  let local' := match h with | .hbm | .second => true | _ => false
  let line := x.pa / 128
  let msa := pteMsa x.leaf.pte
  if !local' || pteType x.leaf.pte != .normal || linePoisoned s (line * 128) 128 ||
      (findLine s r.cell st.part h msa line).isSome then s
  else touchLines (addLine s r.cell ⟨st.part, h, line, msa, lineBytes s line⟩) r h [line] true

/-- `pfl` (R346): it never faults and is dropped where it would. -/
def execPfl (xlat : Bool) (base : BitVec 5) (off : BitVec 18) (s : State) : Outcome State Fault Refusal :=
  issueWith s Tk.none fun w st s' => do
    let b ← unlessTrap (readG st 0 base)
    let s' := putStrand s' (Walker.ref w) (stepPast s' st .c)
    let go (ea : Word) : State :=
      if !xlat && ea.toNat % 8 ≠ 0 then s'
      else match translate s' (dieOf w.cell) (some w.cell) st.part .scalarRead ea with
        | .ok (x, s'') => if xlat then s'' else prefetchLine s'' (Walker.ref w) st x
        | .error _ => s'
    .ok (countC (match b with | some b => go (b + off.signExtend 64) | none => s') (Walker.ref w))

end Sys2Proof.Machine
end

