-- ==== Sys2Proof/Machine/Strands.lean ====
section
/-! DEFINITION. The strand words of C and of every engine (R272, R330 to R335) and the events that end them: waits,
block ends, triggers, exits, traps, fences, superstep barriers and overlay refills.
-/

namespace Sys2Proof.Machine

open Host (Outcome)

/-! ## Shared tests -/

/-- The partition owns the access unit of the cell (R336). -/
def ownsAu (s : State) (cell part : Nat) : Bool := (getCell s cell).au == some part

def foreignTrap (addr : Nat) : Trap := { cause := .foreign, addr := addr }

def launchOf (s : State) (part number : Nat) : Option Launch :=
  (getPart s part).launches.find? fun l => l.number == number

/-- Strands of a gang (R380). -/
def Launch.total (l : Launch) : Nat := l.gx * l.gy * l.gz

/-- Every strand of a launch has triggered, exited or been terminated (R330, R383). A launch that is no longer kept
has completed. -/
def producerDone (s : State) (part number : Nat) : Bool :=
  match launchOf s part number with
  | none => true
  | some l => l.complete || decide (Launch.total l ≤ l.triggered)

/-- Counts a strand as having executed `trig` (R331, R333). -/
def markTriggered (s : State) (st : Strand) : State :=
  if st.triggered || st.sid.launch = 0 then s
  else modPart s st.part fun p => { p with launches := p.launches.map fun l =>
    if l.number == st.sid.launch then { l with triggered := l.triggered + 1 } else l }

/-- Every earlier store of the strand by C or S has performed (R86, R279). -/
def storesPerformed (st : Strand) (own : Eng) (x : Seen) (pos : Nat) : Bool :=
  issuedBefore st own { x with l := 0 } && !(st.accs.any fun a => decide (a.pos < pos) && a.kind.stores) &&
    !(st.stores.any fun x => decide (x.pos < pos))

/-- The first record that a FIFO holds. -/
def firstRecord (l : List OutPlace) : Option Word := l.findSome? (·.rec?)

/-! ## Waits (R330) -/

/-- A condition that the sequencer watches, without the flag load. -/
def waitHolds (s : State) (st : Strand) : WaitCond → Bool
  | .trig =>
    (match launchOf s st.part st.sid.launch with
     | some l => l.prods.all (producerDone s st.part)
     | none => true)
  | .cpy => (firstRecord st.out).isSome
  | .coll => (firstRecord st.results).isSome
  | .time t => decide (t.toNat ≤ timeNs s)
  | .flag .. => false

/-- C holds the block at a `wait`: it goes on when the condition holds, and otherwise the block ends (R386). -/
def waitWord (s : State) (cond : Walker → Strand → Act WaitCond) : Outcome State Fault Refusal :=
  issueWith s Tk.none fun w st s' => do
    let c ← cond w st
    if waitHolds s st c then
      .ok (countC (putStrand s' (Walker.ref w) (stepPast s' { st with wait := none, waitHeld := false } .c))
        (Walker.ref w))
    else .ok (putStrand s' (Walker.ref w) { st with wait := some c, waitHeld := true, endBlock := true })

def execWaitTrig (s : State) : Outcome State Fault Refusal := waitWord s fun _ _ => .ok .trig

def execWaitCpy (s : State) : Outcome State Fault Refusal :=
  waitWord s fun w st => do
    check (ownsAu s w.cell st.part) (foreignTrap 0)
    .ok .cpy

def execWaitColl (s : State) : Outcome State Fault Refusal := waitWord s fun _ _ => .ok .coll

def execWaitTime (ga : BitVec 5) (s : State) : Outcome State Fault Refusal :=
  waitWord s fun _ st => do
    let x ← readG st 0 ga
    .ok (.time x)

/-- A load of the flag word: C's own as the acquire, the sequencer's as a plain load, both with CP 01 (R330). -/
def flagLoad (s : State) (w : Walker) (st : Strand) (ea : Word) (cls : BitVec 4) (acq : Bool) : Act State := do
  alignedTo ea 8
  let (x, s) ← translate s (dieOf w.cell) (some w.cell) st.part .scalarRead ea
  let (id, s) := freshId s
  let a := { newAccess st .c id 0 .load cls .bypass x ea 8 with acq := acq, flag := true }
  .ok (putStrand s (Walker.ref w) { st with accs := st.accs ++ [a], wait := some (.flag ea cls) })

/-- `wait.flag`: C makes the acquire load, and ends the wait when it reads nonzero. -/
def execWaitFlag (ga : BitVec 5) (oc : BitVec 4) (s : State) : Outcome State Fault Refusal :=
  issueWith s Tk.none fun w st s' =>
    match st.flagRead with
    | some v =>
      let st := { st with flagRead := none }
      if v = 0 then .ok (putStrand s' (Walker.ref w) { st with waitHeld := true, endBlock := true })
      else .ok (countC (putStrand s' (Walker.ref w) (stepPast s' { st with wait := none, waitHeld := false } .c))
        (Walker.ref w))
    | none => do
      await (!(st.accs.any fun a => a.flag))
      let x ← readG st 0 ga
      flagLoad s' w st x oc true

/-- The sequencer repeats the load while the strand lacks its block (R330). A fault is one of the word. -/
def execWaitFlagPoll (s : State) : Outcome State Fault Refusal :=
  let w : Walker := { s.cur with eng := .c }
  match getStrand s (Walker.ref w) with
  | none => .next s
  | some st =>
    match st.wait with
    | some (.flag va cls) =>
      if st.block || !st.waitHeld || st.frozen || st.accs.any (fun a => a.flag) then .next s
      else match flagLoad s w st va cls false with
        | .ok s' => .next s'
        | .error .stall => .next s
        | .error (.hold h) => .next (startHold s h)
        | .error (.trap t) => .next (raiseWord s w t)
    | _ => .next s

/-- A watched condition has come true: the strand is ready (R330, R386). -/
def execWaitConditionTrue (s : State) : Outcome State Fault Refusal :=
  .next (modStrand s (Walker.ref s.cur) fun st =>
    match st.wait with
    | some c => if waitHolds s st c then { st with waitHeld := false } else st
    | none => st)

/-! ## `yield`, `trig`, `trap` and `fence` -/

def execYield (s : State) : Outcome State Fault Refusal := issueC s fun _ st => .ok { st with endBlock := true }

def execTrig (s : State) : Outcome State Fault Refusal :=
  issueWith s Tk.none fun w st s' =>
    let s' := markTriggered s' st
    .ok (countC (putStrand s' (Walker.ref w) (stepPast s' { st with triggered := true } .c)) (Walker.ref w))

/-- The word has had its effect when the fault is raised: the strand resumes after it (R332). -/
def execTrap (imm : BitVec 16) (s : State) : Outcome State Fault Refusal :=
  issueWith s Tk.none fun w st s' =>
    let s' := countC (putStrand s' (Walker.ref w) (stepPast s' st .c)) (Walker.ref w)
    .ok (raiseAt s' (Walker.ref w)
      ⟨{ cause := .trap, addr := imm.toNat }, 0, (getEng st .c).pc, st.overlay.toNat, none, none, s.clock⟩)

/-- A fence joins the accesses in flight, where it orders those of its classes (R272). -/
def execFence (sc : Scope) (k : FenceKind) (mask : BitVec 16) (s : State) : Outcome State Fault Refusal :=
  issueWith s Tk.none fun w st s' =>
    let (id, s') := freshId s'
    let en := getEng st .c
    let a : Access :=
      { id := id, eng := .c, pos := en.passed, index := en.pc, lane := 0, kind := .fence k sc mask, cls := 0, va := 0,
        pa := 0, size := 0, data := 0, home := .hbm, mtype := .normal, msa := false, repl := false, cp := .normal,
        acq := false, rel := false, rset := 0, dest := .none, sext := false, op := none, seen := en.seen }
    .ok (countC (putStrand s' (Walker.ref w) (stepPast s' { st with accs := st.accs ++ [a] } .c)) (Walker.ref w))

/-! ## Words that stop an engine -/

/-- An engine stops at a structural word. At C the word counts. -/
def stopAt (s : State) (why : Stopped) (ready : Walker → Strand → Act Unit) : Outcome State Fault Refusal :=
  issueWith s Tk.none fun w st s' => do
    ready w st
    let s' := putStrand s' (Walker.ref w) (modEng st w.eng fun en => { en with stop := why })
    .ok (if w.eng = .c then countC s' (Walker.ref w) else s')

/-- An engine stops at `exit` when its own earlier words are complete (R333). A stream of `rps` that has not ended does not
hold L there: it is for the check of R113. -/
def execExit (s : State) : Outcome State Fault Refusal :=
  stopAt s .atExit fun w st => await (engDone { st with rps := none } w.eng)

/-- As `exit`, at the superstep barrier. C refuses it outside a co-resident gang (R334). -/
def execSbar (s : State) : Outcome State Fault Refusal :=
  stopAt s .atSbar fun w st => do
    if w.eng = .c then check st.sid.cores { cause := .queueProto } else .ok ()
    await (engDone st w.eng)

/-- Every engine of the mask has stopped for one reason. -/
def allStopped (st : Strand) (why : Stopped) : Bool := (maskEngs st).all fun e => (getEng st e).stop == why

/-- An engine that reaches `ovl` stops, M when its nest has ended (R243); with the last one the strand's request to load
overlay n stands (R335, R394). -/
def execOvl (n : BitVec 8) (s : State) : Outcome State Fault Refusal :=
  issueWith s Tk.none fun w st s' => do
    let known := match (getCtx s w.cell st.part).image with
      | some im => decide (n.toNat < im.overlays.length)
      | none => false
    check known (opField 0)
    await (!(w.eng == .l && st.lean.isSome) && !(w.eng == .m && (st.nest.isSome || st.drain.isSome)))
    let st := modEng st w.eng fun en => { en with stop := .atOvl }
    let (id, s') := freshId s'
    let st := if allStopped st .atOvl then { st with ovlWant := some (n, id) } else st
    let s' := putStrand s' (Walker.ref w) st
    .ok (if w.eng = .c then countC s' (Walker.ref w) else s')

/-! ## The queue check of R113 -/

/-- The queues, FIFOs and stream that the engines of a mask use are empty, balanced and ended (R113). -/
def drainedFor (st : Strand) (m : List Eng) : Bool :=
  let has := fun e => m.contains e
  (!(has .l || has .v) || st.lq.isEmpty) && (!(has .v || has .m || has .s) || st.sq.isEmpty) &&
    (!(has .v || has .l) || st.iql.isEmpty) && (!(has .v || has .s) || st.iqs.isEmpty) &&
    (!(has .v || has .m) || st.fiq.isEmpty) && (!(has .c || has .l) || st.qL.isEmpty) &&
    (!(has .c || has .s) || st.qS.isEmpty) && (!(has .c || has .v) || st.qV.isEmpty) &&
    (!(has .c || has .m) || st.qM.isEmpty) && (!(has .v || has .c) || st.vcq.isEmpty) &&
    (!(has .l || has .c || has .m) || (st.rpq.isEmpty && st.rps.isNone)) &&
    (!(has .l || has .m) || (st.tok.lm.isEmpty && st.tok.ml.isEmpty)) &&
    (!(has .m || has .v) || (st.tok.mv.isEmpty && st.tok.vm.isEmpty)) &&
    (!(has .v || has .s) || (st.tok.vs.isEmpty && st.tok.sv.isEmpty)) &&
    m.all fun e => (getEng st e).bq.isEmpty

/-- QUEUEPROTO of the strand as a whole: engine 101 and the index of the word (R113). -/
def raiseDrain (s : State) (r : SRef) (st : Strand) : State :=
  raiseAt s r ⟨{ cause := .queueProto }, 5, (getEng st .c).pc, st.overlay.toNat, none, none, s.clock⟩

/-! ## The superstep barrier (R287) -/

/-- The resident strands of a launch. -/
def gangOf (s : State) (part launch : Nat) : List (SRef × Strand) :=
  s.strands.filterMap fun (k, st) =>
    if st.part == part && st.sid.launch == launch then some (⟨k / 4, k % 4⟩, st) else none

/-- A strand has arrived, and its accesses have performed at package scope: stores to remote homes have only left the package
(R266). -/
def arrived (st : Strand) : Bool :=
  allStopped st .atSbar && st.stores.all (·.sent) && st.accs.all fun a => performedAt a .pkg

/-- Continues every engine after its barrier word. -/
def passSbar (s : State) (st : Strand) : Strand :=
  (maskEngs st).foldl (fun st e => modEng (stepPast s st e) e fun en => { en with stop := .no }) st

def execBarrierComplete (part launch : Nat) (s : State) : Outcome State Fault Refusal :=
  match launchOf s part launch with
  | none => .next s
  | some l =>
    let gang := gangOf s part launch
    let waits := s.hub.bputs.any fun b => b.part == part && b.launch == launch && !b.refused
    if gang.isEmpty || waits || !(gang.all fun p => arrived p.2 && !p.2.frozen) ||
        gang.length + l.ended ≠ Launch.total l then .next s
    else .next (gang.foldl (fun s p => dropL1 (putStrand s p.1 (passSbar s p.2)) p.1.cell part) s)

end Sys2Proof.Machine
end

