-- ==== Sys2Proof/Machine/Span.lean ====
section
/-! DEFINITION. Runs of virtual bytes that the scheduler, the loader, the copy engine and the collective engine read
and write, translated page by page (R57, R64), and the service that a strand's `sys` and `launch` descriptors get.
-/

namespace Sys2Proof.Machine

/-- Pages of 16 KiB (R60). -/
def pageBytes : Nat := 2 ^ 14

/-- A run of virtual bytes cut at its pages: first address and length of each cut. Addresses wrap modulo 2^64 (R57). -/
def pageCuts : Nat → Nat → Nat → List (Nat × Nat)
  | 0, _, _ => []
  | fuel + 1, va, n =>
    if n = 0 then []
    else
      let k := min n (pageBytes - va % pageBytes)
      (va, k) :: pageCuts fuel ((va + k) % 2 ^ 64) (n - k)

/-- The translations of a run of bytes in ascending order of its pages. A page being pulled holds the access. -/
def translateRun (die : Nat) (cell : Option Nat) (part : Nat) (u : Use) :
    Nat → Nat → Nat → State → Act (List Piece × State)
  | 0, _, _, s => .ok ([], s)
  | fuel + 1, va, n, s =>
    if n = 0 then .ok ([], s)
    else do
      let k := min n (pageBytes - va % pageBytes)
      let (x, s) ← translate s die cell part u (BitVec.ofNat 64 va)
      let (rest, s) ← translateRun die cell part u fuel (va + k) (n - k) s
      .ok (⟨va, k, x⟩ :: rest, s)

/-- A bound on the pages that `n` bytes touch. -/
def pagesOf (n : Nat) : Nat := n / pageBytes + 2

def runOf (s : State) (die : Nat) (cell : Option Nat) (part : Nat) (u : Use) (va n : Nat) : Act (List Piece × State) :=
  if n ≠ 0 && decide (2 ^ 54 ≤ va) then trap (xlatTrap 2 0 va) else translateRun die cell part u (pagesOf n) va n s

/-- The package itself holds the home (R55). -/
def homeLocal : Home → Bool
  | .hbm | .second => true
  | _ => false

def Piece.home (p : Piece) : Home := homeOfPte p.x.leaf.pte

/-- The request that a unit makes for a piece whose home is away: to read it, or to write bytes. -/
def awayReq (part die : Nat) (p : Piece) (data : Option (List Byte)) : AwayReq :=
  ⟨part, die, p.home, p.va, p.x.pa, p.len, data, false, false⟩

/-- The answer to a unit's request, which is used up, or the wait for it. An error ends in PERMISSION, poisoned data of a
remote package in POISON, and what the host link or the fabric lost in UNCORRECTABLE (R59, R67, R76, R293). -/
def takeAnswer (s : State) (q : AwayReq) : Act (List Byte × State) :=
  let t : Trap := { cause := .permission, addr := q.va, paddr := some q.pa }
  match s.hub.answers.find? fun a => a.1 == q with
  | none => .error (.hold (.away q))
  | some (_, .reply (.data bs)) =>
    .ok (bs, modHub s fun h => { h with answers := h.answers.filter fun a => !(a.1 == q) })
  | some (_, .reply .error) => trap t
  | some (_, .reply .poison) =>
    if q.home = .host then trap { t with cause := .uncorrectable, detail := 5 }
    else trap { t with cause := .poison, detail := 2 }
  | some (_, .lost) => trap { t with cause := .uncorrectable, detail := 5 }

/-- The bytes of a translated piece: memory's, or what the host or another package answers (R415). -/
def readPiece (s : State) (die part : Nat) (p : Piece) : Act (List Byte × State) :=
  if homeLocal p.home then do
    check (!linePoisoned s p.x.pa p.len) { cause := .poison, detail := 2, addr := p.va, paddr := some p.x.pa }
    let s := settleLines s p.x.pa p.len
    .ok ((List.range p.len).map fun i => memByte s (p.x.pa + i), s)
  else do
    let (bs, s) ← takeAnswer s (awayReq part die p none)
    .ok ((List.range p.len).map fun i => bs.getD i 0, s)

def readPieces (die part : Nat) : List Piece → State → Act (List Byte × State)
  | [], s => .ok ([], s)
  | p :: ps, s => do
    let (b, s) ← readPiece s die part p
    let (bs, s) ← readPieces die part ps s
    .ok (b ++ bs, s)

/-- `n` bytes at a virtual address, read by a unit of a die. -/
def readVirt (s : State) (die : Nat) (cell : Option Nat) (part : Nat) (u : Use) (va n : Nat) :
    Act (List Byte × State) := do
  let (ps, s) ← runOf s die cell part u va n
  readPieces die part ps s

/-- Writes bytes to a translated run; what the host or another package takes is acknowledged first. -/
def writePieces (die part : Nat) : List Piece → List Byte → State → Act State
  | [], _, s => .ok s
  | p :: ps, bs, s =>
    let own := bs.take p.len
    if own.isEmpty then .ok s
    else if homeLocal p.home then writePieces die part ps (bs.drop p.len) (memWrite s p.x.pa own.length (ofBytes own))
    else do
      let (_, s) ← takeAnswer s (awayReq part die { p with len := own.length } (some own))
      writePieces die part ps (bs.drop p.len) s

def writeVirt (s : State) (die : Nat) (cell : Option Nat) (part : Nat) (u : Use) (va : Nat) (bs : List Byte) :
    Act State := do
  let (ps, s) ← runOf s die cell part u va bs.length
  writePieces die part ps bs s

/-- Doublewords at a virtual address. -/
def readWords (s : State) (die : Nat) (cell : Option Nat) (part : Nat) (u : Use) (va n : Nat) :
    Act (List Word × State) := do
  let (bs, s) ← readVirt s die cell part u va (8 * n)
  .ok (toDwords bs n, s)

end Sys2Proof.Machine
end

