-- ==== Sys2Proof/Machine/Images.lean ====
section
/-! DEFINITION. NRG images (R392, R393, R395, R460): reading and checking an image, and the overlay refill that copies
one of its overlays into the context's window (R335, R394).
-/

namespace Sys2Proof.Machine

open Host (Outcome)

/-- The fields of an image header before its tables are read. -/
structure NrgHead where
  win : Nat
  emask : BitVec 5
  nlull : Nat
  novl : Nat
  ovlt : Nat
  lult : Nat
  nopr : Nat
  nbind : Nat
  wcsn : Nat
  wcso : Nat
  opro : Nat
  bindo : Nat
deriving DecidableEq, Repr

/-- The header's limits and zero fields (R392). -/
def headOf (winMax : Nat) (w : List Word) : Option NrgHead :=
  let d := fun i => (w.getD i 0)
  let h : NrgHead :=
    ⟨wbits (d 1) 63 48, BitVec.ofNat 5 (d 1).toNat, wbits (d 1) 47 32, wbits (d 1) 15 8 + 1, wbits (d 2) 31 0,
     wbits (d 3) 31 0, wbits (d 4) 63 56, wbits (d 4) 55 48, wbits (d 4) 47 32, wbits (d 4) 31 0,
     wbits (d 5) 63 32, wbits (d 5) 31 0⟩
  if wbits (d 0) 31 0 = 0x4E524731 && wbits (d 0) 63 32 = 1 && 1 ≤ h.win && h.win ≤ 32768 && h.win ≤ winMax &&
      wbits (d 1) 31 16 = 0 && wbits (d 1) 7 5 = 0 && h.emask.getLsbD 0 && wbits (d 2) 63 32 = 0 &&
      wbits (d 3) 63 32 = 0 && h.nopr ≤ 8 && h.nbind ≤ 64 && h.wcsn ≤ 4096 && d 6 = 0 && d 7 = 0 &&
      (h.nbind = 0 || h.bindo % 8 = 0) && (h.nopr = 0 || h.opro % 8 = 0) then some h
  else none

/-- An overlay entry, or none when malformed (R393). -/
def overlayOf (win : Nat) (a b : Word) : Option Overlay :=
  let o : Overlay := ⟨wbits a 31 0, wbits b 14 0, wbits b 30 16 + 1, wbits b 46 32, BitVec.ofNat 5 (wbits b 52 48)⟩
  if wbits a 63 32 = 0 && wbits b 63 53 = 0 && !b.getLsbD 47 && !b.getLsbD 31 && !b.getLsbD 15 &&
      decide (o.load + o.len - 1 < win) && decide (o.load ≤ o.entry) && decide (o.entry < o.load + o.len) then some o
  else none

def overlaysOf (win : Nat) (w : List Word) (n : Nat) : Option (List Overlay) :=
  (List.range n).mapM fun i => overlayOf win (w.getD (2 * i) 0) (w.getD (2 * i + 1) 0)

/-- A lull entry, or none when malformed (R395). -/
def lullOf (ovls : List Overlay) (a b c d : Word) : Option Lull :=
  let l : Lull :=
    ⟨wbits a 63 56, wbits a 14 0, BitVec.ofNat 32 (wbits b 63 32), BitVec.ofNat 16 (wbits b 31 16),
     BitVec.ofNat 16 (wbits b 15 0), c, BitVec.ofNat 32 (wbits d 63 32), BitVec.ofNat 16 (wbits d 31 16),
     BitVec.ofNat 6 (wbits d 5 0)⟩
  match ovls[l.ovl]? with
  | none => none
  | some o =>
    if wbits a 55 15 = 0 && wbits d 15 6 = 0 && decide (o.load ≤ l.word) && decide (l.word < o.load + o.len) then some l
    else none

/-- Strictly ascending in (OVL, WORD). -/
def lullsAscend : List Lull → Bool
  | a :: b :: t => (decide (a.ovl < b.ovl) || (a.ovl == b.ovl && decide (a.word < b.word))) && lullsAscend (b :: t)
  | _ => true

def lullsOf (ovls : List Overlay) (w : List Word) (n : Nat) : Option (List Lull) := do
  let l ← (List.range n).mapM fun i =>
    lullOf ovls (w.getD (4 * i) 0) (w.getD (4 * i + 1) 0) (w.getD (4 * i + 2) 0) (w.getD (4 * i + 3) 0)
  if lullsAscend l then some l else none

/-- Bind or operator records: OPC in its range and not named twice (R460). -/
def recordsOf (lo hi : Nat) (w : List Word) (n : Nat) : Option (List (Nat × Word)) := do
  let l ← (List.range n).mapM fun i =>
    let a := w.getD (2 * i) 0
    if wbits a 63 8 = 0 && decide (lo ≤ wbits a 7 0) && decide (wbits a 7 0 ≤ hi) then
      some (wbits a 7 0, w.getD (2 * i + 1) 0)
    else none
  if (l.map (·.1)).Nodup then some l else none

/-- Micro-words from their doublewords, the low one first (R347). -/
def microWordsOf (w : List Word) (n : Nat) : List (BitVec 128) :=
  (List.range n).map fun i => (w.getD (2 * i + 1) 0 ++ w.getD (2 * i) 0 : BitVec 128)

/-- Where the tables of an image end that hold anything, in bytes from its start. -/
def tableEnds (h : NrgHead) : List Nat :=
  [h.ovlt + 16 * h.novl, if h.nlull = 0 then 0 else h.lult + 32 * h.nlull, if h.nbind = 0 then 0 else h.bindo + 16 * h.nbind,
   if h.nopr = 0 then 0 else h.opro + 16 * h.nopr, if h.wcsn = 0 then 0 else h.wcso + 16 * h.wcsn]

/-- Parts of an image lie in it, which reaches as far as its offsets do, 2^32 bytes (R392; log entry 86); a part outside the
region of `lim` bytes that a mailbox's handle leaves it raises PERMISSION (R101, R384). -/
def insideImage (addr lim : Nat) (ends : List Nat) : Act Bool :=
  if ends.any fun e => decide (2 ^ 32 < e) then .ok false
  else do
    check (ends.all fun e => decide (e ≤ lim)) { cause := .permission, addr := addr }
    .ok true

/-- Reads and checks an image of at most `lim` bytes; `none` is a malformed one. A fault is the failed read of it (R379). `u`
is the use of its micro-words: a load into the share at placement (R64, check 7), a read at `launch`. -/
def readImageAs (u : Use) (lim : Nat) (s : State) (die part addr winMax : Nat) : Act (Option Image × State) := do
  let rd := fun s off n => readWords s die none part .copyRead (addr + off) n
  let _ ← insideImage addr lim [64]
  let (hw, s) ← rd s 0 8
  match headOf winMax hw with
  | none => .ok (none, s)
  | some h => do
    if !(← insideImage addr lim (tableEnds h)) then .ok (none, s)
    else
      let (ow, s) ← rd s h.ovlt (2 * h.novl)
      match overlaysOf h.win ow h.novl with
      | none => .ok (none, s)
      | some ovls =>
        if !(← insideImage addr lim (ovls.map fun o => o.toff + 8 * o.len)) then .ok (none, s)
        else
          let (lw, s) ← rd s h.lult (4 * h.nlull)
          let (bw, s) ← rd s h.bindo (2 * h.nbind)
          let (pw, s) ← rd s h.opro (2 * h.nopr)
          let (ww, s) ← readWords s die none part u (addr + h.wcso) (2 * h.wcsn)
          .ok ((do
            let lulls ← lullsOf ovls lw h.nlull
            let binds ← recordsOf 0xC0 0xFF bw h.nbind
            let oprs ← recordsOf 8 15 pw h.nopr
            some ⟨addr, h.win, h.emask, ovls, lulls, microWordsOf ww h.wcsn, binds, oprs⟩), s)

/-- The bytes that a region of memory may hold: nothing but the image itself bounds a launch's (R379). -/
def imageRoom : Nat := 2 ^ 54

/-- An image that is to be placed. -/
def readImage (lim : Nat) (s : State) (die part addr winMax : Nat) : Act (Option Image × State) :=
  readImageAs .copyExec lim s die part addr winMax

/-! ## Overlays -/

/-- Two overlays share a word of the window. -/
def overlaysMeet (a b : Overlay) : Bool := decide (a.load < b.load + b.len) && decide (b.load < a.load + a.len)

/-- Overlay `n` becomes resident in its range (R394). -/
def makeResident (im : Image) (l : List Nat) (n : Nat) : List Nat :=
  match im.overlays[n]? with
  | none => l
  | some o => n :: l.filter fun m => m != n && !(match im.overlays[m]? with | some q => overlaysMeet o q | none => false)

/-- Writes words into the window from an index. -/
def fillImem (m : FMap Word) (at_ : Nat) : List Word → FMap Word
  | [] => m
  | w :: ws => fillImem (fset m at_ w) (at_ + 1) ws

/-- Copies an overlay of the context's image into the window, unless it is resident (R335, R394). -/
def loadOverlay (s : State) (cell part : Nat) (im : Image) (n : Nat) : Act State :=
  match im.overlays[n]? with
  | none => trap (opField 0)
  | some o =>
    if (getCtx s cell part).overlays.contains n then .ok s
    else do
      let (ws, s) ← readWords s (dieOf cell) (some cell) part .copyExec (im.addr + o.toff) o.len
      .ok (modCtx s cell part fun c =>
        { c with imem := fillImem c.imem o.load ws, overlays := makeResident im c.overlays n })

/-- An engine of the strand is inside an overlay and not stopped at its own `ovl`. -/
def inOverlay (q : Strand) (p : Overlay) : Bool :=
  (maskEngs q).any fun e =>
    let en := getEng q e
    en.stop != .atOvl && decide (p.load ≤ en.pc) && decide (en.pc < p.load + p.len)

/-- Some other resident strand of the context has an engine inside a different overlay that occupies a part of the range of
overlay `n` (R394). -/
def rangeInUse (s : State) (r : SRef) (st : Strand) (im : Image) (n : Nat) : Bool :=
  match im.overlays[n]? with
  | none => false
  | some o =>
    let there := (getCtx s r.cell st.part).overlays
    s.strands.any fun (k, q) =>
      k / 4 == r.cell && k != SRef.key r && q.part == st.part && q.loading.isNone &&
        (q.overlay.toNat :: there).any fun m => m != n &&
          match im.overlays[m]? with
          | none => false
          | some p => overlaysMeet o p && inOverlay q p

/-- The overlay that a strand waits to have loaded, by its `ovl` or by its placement, with the number of the request. -/
def ovlRequest (st : Strand) : Option (Nat × Nat) :=
  match st.loading, st.ovlWant with
  | some (_, old), _ => some (st.overlay.toNat, old)
  | none, some (m, old) => some (m.toNat, old)
  | none, none => none

/-- An older request of another strand of the context for a different overlay of the range (R394). -/
def olderRequest (s : State) (r : SRef) (st : Strand) (im : Image) (n seq : Nat) : Bool :=
  match im.overlays[n]? with
  | none => false
  | some o => s.strands.any fun (k, q) =>
    k / 4 == r.cell && k != SRef.key r && q.part == st.part &&
      match ovlRequest q with
      | some (m, old) => decide (old < seq) && m != n &&
          (match im.overlays[m]? with | some p => overlaysMeet o p | none => false)
      | none => false

/-- The load of overlay `n` waits for its range; an overlay that is resident is not loaded (R394). -/
def mustWait (s : State) (r : SRef) (st : Strand) (im : Image) (n seq : Nat) : Bool :=
  !((getCtx s r.cell st.part).overlays.contains n) && (rangeInUse s r st im n || olderRequest s r st im n seq)

/-- The engines that the outgoing overlay's trailer names. -/
def trailEngs (im : Image) (ovl : Nat) : List Eng :=
  match im.overlays[ovl]? with
  | some o => allEngs.filter fun e => o.trail.getLsbD (Eng.code e)
  | none => []

/-- Every engine goes on at the entry word of the new overlay (R335). -/
def enterOverlay (s : State) (st : Strand) (n entry : Nat) : Strand :=
  let st := (maskEngs st).foldl (fun st e => modEng (stepPast s st e) e fun en =>
    { en with stop := .no, pc := entry, arrived := false }) st
  { st with overlay := BitVec.ofNat 8 n, ovlWant := none }

/-- The lowest channel of a copy engine that carries no copy (R85). -/
def freeChan (c : Cell) : Option Nat := (List.range 16).find? fun i => (c.chans.get (Fin.ofNat 16 i)).isNone

/-- The refill of a strand whose engines have all reached `ovl` (R335, R394). While it waits the block ends. -/
def execOverlayRefill (s : State) : Outcome State Fault Refusal :=
  let r := Walker.ref s.cur
  match getStrand s r with
  | none => .next s
  | some st =>
    match st.ovlWant, (getCtx s r.cell st.part).image with
    | some (n, seq), some im =>
      let trail := (trailEngs im st.overlay.toNat).filter (inMask st)
      if st.frozen || !(trail.all (engDone st)) then .next s
      else if !drainedFor st trail then .next (raiseDrain s r st)
      else if mustWait s r st im n.toNat seq then .next (putStrand s r { st with endBlock := true })
      else if !((getCtx s r.cell st.part).overlays.contains n.toNat) &&
          (freeChan (getCell s r.cell)).isNone then .next s
      else match loadOverlay s r.cell st.part im n.toNat with
        | .ok s' =>
          let entry := match im.overlays[n.toNat]? with | some o => o.entry | none => 0
          .next (modStrand s' r fun st => enterOverlay s' st n.toNat entry)
        | .error .stall => .next s
        | .error (.hold h) => .next (startHold s h)
        | .error (.trap t) =>
          .next (raiseAt s r ⟨t, 1, (getEng st .l).pc, st.overlay.toNat, freeChan (getCell s r.cell), none, s.clock⟩)
    | _, _ => .next s

end Sys2Proof.Machine
end

