-- ==== Sys2Proof/Machine/Queues.lean ====
section
/-! DEFINITION. Commands of C to the copy engine, the record FIFOs, the scalar queues and the state registers (R102,
R336 to R341).
-/

namespace Sys2Proof.Machine

open Host (Outcome)

/-! ## Commands to the copy engine -/

/-- A handle command of C: it takes a place of the input FIFO and of the output FIFO, in the program order of the
strand's words (R86, R336). -/
def pushCopy (s : State) (tag : BitVec 16) (mk : Strand → Act CopyOp) : Outcome State Fault Refusal :=
  issueWith s Tk.none fun w st s' => do
    check (ownsAu s' w.cell st.part) (foreignTrap 0)
    let op ← mk st
    let pos := (getEng st .c).passed
    await (!inMask st .l || decide ((getEng st .c).seen.lcmd ≤ surePassed st .l))
    await (decide ((getCell s' w.cell).fifo.length < 16) && decide (st.out.length < 16))
    let (id, s') := freshId s'
    let cmd : CopyCmd :=
      { id := id, uid := st.uid, part := st.part, index := (getEng st .c).pc, pos := pos,
        seen := (getEng st .c).seen, chan := 0, tag := tag, rcb := st.sid.rcb,
        out := true, op := op }
    let s' := modCell s' w.cell fun c => { c with fifo := c.fifo ++ [cmd] }
    .ok (countC (putStrand s' (Walker.ref w) (stepPast s' { st with out := st.out ++ [⟨id, none⟩] } .c)) (Walker.ref w))

def execPushHset (gb ga : BitVec 5) (x w r : Bool) (tag : BitVec 16) (s : State) : Outcome State Fault Refusal :=
  pushCopy s tag fun st => do
    let base ← readG st 0 ga
    let len ← readG st 1 (ga + 1)
    let slot ← readG st 2 gb
    .ok (.hset base len (slot.setWidth 12) x w r)

def execPushHfree (gb : BitVec 5) (tag : BitVec 16) (s : State) : Outcome State Fault Refusal :=
  pushCopy s tag fun st => do
    let h ← readG st 0 gb
    .ok (.hfree (h.setWidth 32))

def execPushHread (gb : BitVec 5) (tag : BitVec 16) (s : State) : Outcome State Fault Refusal :=
  pushCopy s tag fun st => do
    let slot ← readG st 0 gb
    .ok (.hread (slot.setWidth 12))

/-! ## Record FIFOs -/

/-- The first record of a FIFO and the FIFO without it. -/
def takeRecord : List OutPlace → Option (Word × List OutPlace)
  | [] => none
  | p :: rest =>
    match p.rec? with
    | some w => some (w, rest)
    | none => (takeRecord rest).map fun (w, l) => (w, p :: l)

/-- A record goes to the tail of a FIFO in the place reserved for it (R93, R94). -/
def fillRecord (l : List OutPlace) (id : Nat) (w : Word) : List OutPlace :=
  if l.any (fun p => p.id == id) then l.filter (fun p => p.id != id) ++ [⟨id, some w⟩] else l

/-- `pop` (R337): it waits while a record may still come, and raises QUEUEPROTO when none can. The later accesses of
the strand see what the record reports, so the partition's L1 lines go (R280). -/
def popRecord (s : State) (lat : BitVec 4) (ga : BitVec 5) (ready : Walker → Strand → Act Unit)
    (get : Strand → List OutPlace) (put : Strand → List OutPlace → Strand) : Outcome State Fault Refusal :=
  issueWith s Tk.none fun w st s' => do
    ready w st
    match takeRecord (get st) with
    | some (x, rest) =>
      let st := writeWord s.clock (put st rest) .c lat (.g ga) x
      .ok (countC (dropL1 (putStrand s' (Walker.ref w) (stepPast s' st .c)) w.cell st.part) (Walker.ref w))
    | none =>
      let pos := (getEng st .c).passed
      let all := (maskEngs st).all fun e => decide (pos ≤ surePassed st e)
      if (get st).isEmpty && all && st.lean.isNone then trap { cause := .queueProto } else stall

def execPopCpy (lat : BitVec 4) (ga : BitVec 5) (s : State) : Outcome State Fault Refusal :=
  popRecord s lat ga (fun w st => check (ownsAu s w.cell st.part) (foreignTrap 0)) (·.out)
    fun st l => { st with out := l }

def execPopColl (lat : BitVec 4) (ga : BitVec 5) (s : State) : Outcome State Fault Refusal :=
  popRecord s lat ga (fun _ _ => .ok ()) (·.results) fun st l => { st with results := l }

/-! ## Scalar queues (R111, R338) -/

def getSq : Strand → SQueue → List Word
  | st, .l => st.qL | st, .s => st.qS | st, .v => st.qV | st, .m => st.qM

def putSq (st : Strand) (q : SQueue) (l : List Word) : Strand :=
  match q with
  | .l => { st with qL := l } | .s => { st with qS := l } | .v => { st with qV := l } | .m => { st with qM := l }

def execQsend (q : SQueue) (gb : BitVec 5) (s : State) : Outcome State Fault Refusal :=
  issueC s fun _ st => do
    let x ← readG st 0 gb
    await (decide ((getSq st q).length < 8))
    .ok (putSq st q (getSq st q ++ [x]))

def execQrecv (lat : BitVec 4) (ga : BitVec 5) (s : State) : Outcome State Fault Refusal :=
  issueC s fun _ st =>
    match st.vcq with
    | x :: rest => .ok (writeWord s.clock { st with vcq := rest } .c lat (.g ga) x)
    | [] => stall

/-! ## State registers (R339 to R341) -/

/-- The regions from a block up to its root. -/
def regionChain (rs : List Region) (part : Nat) : Nat → Nat → List Region
  | 0, _ => []
  | fuel + 1, addr =>
    match rs.find? (fun r => r.addr == addr && r.part == part) with
    | none => []
    | some r => r :: (if r.parent = 0 then [] else regionChain rs part fuel r.parent)

def allRegions (s : State) : List Region := s.dies.toList.flatMap (·.regions)

def unlimited : Nat := 2 ^ 40 - 1

/-- EBAL (R439): balances in whole energy units, rounded down. -/
def ebalReg (s : State) (st : Strand) : Word :=
  let chain := regionChain (allRegions s) st.part 8 st.sid.rcb
  let lim := (chain.filter fun r => r.ebud != unlimited).map (·.balance)
  let low := match lim with | [] => 0 | x :: xs => xs.foldl min x
  BitVec.ofNat 64 (boolNat lim.isEmpty * 2 ^ 63 + boolNat (regionPaused s st) * 2 ^ 62 +
    wrapInt (low / (energyUnit : Int)) 41)

/-- LOOPST (R341) as C holds it. In a kernel the current pass starts an iteration while sg0 is set (R327). -/
def loopstReg (st : Strand) : Word :=
  let en := getEng st .c
  let rem := match en.ploop, en.loops with
    | some p, _ => p.n - p.started - boolNat (en.sg.getLsbD 0)
    | none, l :: _ => l.left
    | none, [] => 0
  BitVec.ofNat 64 (rem % 2 ^ 32 * 2 ^ 32 + boolNat en.clamped.isSome * 2 ^ 25 + boolNat en.ploop.isSome * 2 ^ 24 +
    en.loops.length * 2 ^ 21 + en.ret.length * 2 ^ 16)

/-- SPILLMAP (R138). -/
def spillMap (st : Strand) : Word := BitVec.ofNat 64 (st.spill.foldl (fun x p => x + 2 ^ p.1) 0)

def pstateCode : PState → Nat
  | .free => 0 | .creating => 1 | .active => 2 | .tearing => 3 | .scrubbing => 4

/-- PSTATEk (R429). -/
def pstateReg (s : State) (k : Nat) : Word :=
  let p := getPart s k
  BitVec.ofNat 64 (pstateCode p.st * 2 ^ 61 + p.dtag.toNat * 2 ^ 42 + p.pser.toNat * 2 ^ 10)

/-- SCRUBPROG (R428): the scrub that runs is the oldest one. -/
def scrubReg (s : State) : Word :=
  match s.hub.scrubs with
  | [] => 0
  | x :: _ => BitVec.ofNat 64 (2 ^ 63 + x.phase * 2 ^ 60 + x.part * 2 ^ 54 + x.total * 2 ^ 22 + x.done)

/-- The service registers (R429). -/
def serviceReg (s : State) (n : Nat) : Option Word :=
  if n < 0x140 then some (pstateReg s (n - 0x100))
  else match n with
    | 0x140 => some (scrubReg s)
    | 0x141 => some s.hub.keys
    | 0x142 => some (BitVec.ofNat 64 s.hub.mseq)
    | 0x143 => some (BitVec.ofNat 64 s.hub.sseq)
    | _ => none

/-- The state registers that a strand reads (R340), without the service range. -/
def stateReg (s : State) (r : SRef) (st : Strand) (n : Nat) : Option Word :=
  let en := getEng st .c
  match n with
  | 0x000 => some (st.slipw.setWidth 64)
  | 0x001 => some (en.lmode.setWidth 64)
  | 0x002 => some ((flagsBefore st en.passed).setWidth 64)
  | 0x003 => some (en.rset.setWidth 64)
  | 0x004 => some st.scc
  | 0x005 => some (BitVec.ofNat 64 (timeNs s))
  | 0x006 => some (strandIdReg st)
  | 0x007 => some (BitVec.ofNat 64 (st.sid.gz.toNat * 2 ^ 32 + st.sid.gy.toNat * 2 ^ 16 + st.sid.gx.toNat))
  | 0x008 => some (st.sid.argb.setWidth 64)
  | 0x009 => some (BitVec.ofNat 64 (en.sg.toNat * 2 ^ 8 + en.rrb.toNat))
  | 0x00A => some (loopstReg st)
  | 0x00B => some (ctxReg s r st)
  | 0x00C => some st.fltCause
  | 0x00D => some st.fltAddr
  | 0x00E => some st.fltPc
  | 0x020 => some (spillMap st)
  | 0x021 => some (ebalReg s st)
  | 0x030 => some (st.bindst.setWidth 64)
  | n => if 0x010 ≤ n && n ≤ 0x01F then some (st.perf.get (Fin.ofNat 16 n)) else none

/-- The number checks of R339: PERMISSION in the service range from another partition, ILLEGAL where unassigned. -/
def lookupReg (s : State) (r : SRef) (st : Strand) (n : Nat) : Act Word :=
  if 0x100 ≤ n && n ≤ 0x17F then
    if st.part ≠ 0 then trap { cause := .permission }
    else match serviceReg s n with
      | some x => .ok x
      | none => trap illegalTrap
  else match stateReg s r st n with
    | some x => .ok x
    | none => trap illegalTrap

/-- `mfst` of FLAGS waits until every earlier word has completed (R151). -/
def execMfst (lat : BitVec 4) (ga : BitVec 5) (num : BitVec 10) (s : State) : Outcome State Fault Refusal :=
  issueC s fun w st => do
    let x ← lookupReg s (Walker.ref w) st num.toNat
    await (num != 2 || doneBefore st (getEng st .c).passed)
    .ok (writeWord s.clock st .c lat (.g ga) x)

/-- Event codes that a PERF register may hold (R213, R245, R262, R401). -/
def perfCode (n : Nat) : Bool :=
  decide (n ≤ 0x07) || (decide (0x10 ≤ n) && decide (n ≤ 0x15)) || (decide (0x60 ≤ n) && decide (n ≤ 0x64)) ||
    (decide (0x70 ≤ n) && decide (n ≤ 0x76))

/-- The effect of a write; read-only and reserved parts ignore it (R8, R9, R339). -/
def writeState (st : Strand) (n : Nat) (x : Word) : Act Strand :=
  let en := getEng st .c
  match n with
  | 0x000 => do
    let v := wbits x 12 0
    check (decide (16 ≤ v) && decide (v ≤ 4096)) (opField 0)
    .ok { st with slipw := BitVec.ofNat 13 v }
  | 0x001 => do
    check (!(x.getLsbD 1 && !x.getLsbD 0)) (opField 0)
    let st ← sendBq st (.lmode (x.setWidth 4))
    .ok (modEng st .c fun en => { en with lmode := x.setWidth 4 })
  | 0x002 => do
    await (doneBefore st en.passed)
    .ok { st with flags := x.setWidth 6, flagLog := st.flagLog.filter fun p => decide (en.passed ≤ p.1) }
  | 0x003 => do
    let st ← sendBq st (.rset (x.setWidth 16))
    .ok (modEng st .c fun en => { en with rset := x.setWidth 16 })
  | 0x009 => do
    check en.ploop.isNone (opField 0)
    let st ← sendBq st (.rrb (x.setWidth 16))
    .ok (modEng st .c fun en => { en with rrb := x.setWidth 5, sg := (x >>> 8).setWidth 8 })
  | 0x00C => .ok { st with fltCause := x &&& 0x0FECFFFF }
  | 0x00D => .ok { st with fltAddr := x }
  | 0x00E => .ok { st with fltPc := x &&& 0xFF707FFF }
  | n =>
    if 0x010 ≤ n && n ≤ 0x01F then do
      check (perfCode (wbits x 63 56)) (opField 0)
      .ok { st with perf := st.perf.set (Fin.ofNat 16 n) x }
    else .ok st

def execMtst (num : BitVec 10) (gb : BitVec 5) (s : State) : Outcome State Fault Refusal :=
  issueC s fun w st => do
    let _ ← lookupReg s (Walker.ref w) st num.toNat
    let x ← readG st 0 gb
    writeState st num.toNat x

end Sys2Proof.Machine
end

