-- ==== Sys2Proof/Machine/Regions.lean ====
section
/-! DEFINITION. Regions (R372 to R377, R389): validation of a region control block and its ancestors, effective values,
the region cache of a die and the counter area.
-/

namespace Sys2Proof.Machine

/-! ## The block -/

abbrev Block := List Word

def blk (w : Block) (i : Nat) : Word := w.getD i 0

def blkOvr (w : Block) : Nat := wbits (blk w 0) 43 36

/-- Every reserved bit is zero (R372, R374). -/
def blkReserved (w : Block) : Bool :=
  wbits (blk w 0) 51 44 == 0 && wbits (blk w 0) 35 32 == 0 && wbits (blk w 1) 63 40 == 0 &&
    wbits (blk w 2) 63 54 == 0 && wbits (blk w 6) 62 54 == 0 && wbits (blk w 7) 47 32 == 0 &&
    wbits (blk w 8) 63 54 == 0 && (w.drop 9).all (· == 0)

def blkParent (w : Block) : Nat := wbits (blk w 2) 53 0

/-- The conditions of R374 on one block of a chain. -/
def blkOk (part : Nat) (isRoot : Bool) (w : Block) : Bool :=
  let root := (blk w 0).getLsbD 62
  (blk w 0).getLsbD 63 && blkReserved w && (!root || isRoot) && wbits (blk w 0) 61 56 == part &&
    (root || blkParent w != 0) && (!isRoot || (blkOvr w == 0xFF && blkParent w == 0)) &&
    (!bit (blkOvr w) 6 || wbits (blk w 7) 63 58 == part) &&
    (!bit (blkOvr w) 5 || (decide (1 ≤ wbits (blk w 7) 31 0) && decide (wbits (blk w 7) 31 0 ≤ 1000000)))

/-- The block that gives an overridable field: the nearest whose OVR bit is set (R373). -/
def effective (chain : List Block) (n : Nat) : Block :=
  (chain.find? fun w => bit (blkOvr w) n).getD []

/-- A cache entry with its effective values (R373, R389). A new entry starts with a full balance. -/
def regionEntry (part addr : Nat) (chain : List Block) : Region where
  addr := addr
  part := part
  block := chain.headD []
  parent := blkParent (chain.headD [])
  prio := wbits (blk (effective chain 0) 0) 55 52
  slice := wbits (blk (effective chain 1) 0) 31 0
  ebud := wbits (blk (effective chain 2) 1) 39 0
  place := ((effective chain 3).drop 3).take 3
  fdh := (blk (effective chain 4) 6).getLsbD 63
  fhnd := wbits (blk (effective chain 4) 6) 53 0
  lulldl := wbits (blk (effective chain 5) 7) 31 0
  ttag := wbits (blk (effective chain 6) 7) 63 48
  cntr := wbits (blk (effective chain 7) 8) 53 0
  balance := (wbits (blk (effective chain 2) 1) 39 0 * energyUnit : Nat)
  paused := false
  used := 0

/-! ## Validation -/

def cachedRegion (s : State) (die part addr : Nat) : Option Region :=
  (getDie s die).regions.find? fun r => r.addr == addr && r.part == part

/-- The words of the second where the mask is set, of the first elsewhere. -/
def mixWord (m a b : Word) : Word := (a &&& ~~~m) ||| (b &&& m)

/-- A block as it is read again while its region is cached: VAL, ROOT, PART, PARENT and TTAG stay as they were validated
(R375). -/
def keepFixed (old w : Block) : Block :=
  ((w.set 0 (mixWord 0xFF00000000000000 (blk w 0) (blk old 0))).set 2
    (mixWord 0x003FFFFFFFFFFFFF (blk w 2) (blk old 2))).set 7 (mixWord 0xFFFF000000000000 (blk w 7) (blk old 7))

/-- One block as memory holds it. `none` is a read that fails R64 or R69. -/
def readBlock (s : State) (die part addr : Nat) : Act (Option Block × State) :=
  match readWords s die none part .copyRead addr 32 with
  | .ok (w, s) => .ok (some w, s)
  | .error (.trap t) => .ok (none, dropAnswers s part t.addr)
  | .error e => .error e

/-- The blocks from a region up to its root, each with its address, or none when the region is refused (R374). A cached
ancestor is read again, with R375's fields as they were validated. -/
def readChain (die part : Nat) : Nat → Nat → State → Act (Option (List (Nat × Block)) × State)
  | 0, _, s => .ok (none, s)
  | fuel + 1, addr, s => do
    if addr % 256 ≠ 0 then .ok (none, s)
    else
      let (b, s) ← readBlock s die part addr
      match b with
      | none => .ok (none, s)
      | some w =>
        let isRoot := addr == Config.rootRcb part
        let w' := match cachedRegion s die part addr with | some r => keepFixed r.block w | none => w
        if !blkOk part isRoot w then .ok (none, s)
        else if isRoot then .ok (some [(addr, w')], s)
        else do
          let (rest, s) ← readChain die part fuel (blkParent w') s
          .ok (rest.map fun l => (addr, w') :: l, s)

/-- The cache entries of a chain, the region first. -/
def entriesOf (part : Nat) : List (Nat × Block) → List Region
  | [] => []
  | (a, w) :: rest => regionEntry part a (w :: rest.map (·.2)) :: entriesOf part rest

/-- A region has a launch that is not complete, or a strand resident or departed (R389). -/
def regionBusy (s : State) (part addr : Nat) : Bool :=
  ((getPart s part).launches.any fun l => l.rcb == addr && !l.complete) ||
    (s.strands.any fun p => p.2.part == part && p.2.sid.rcb == addr) ||
    s.ctxs.any fun p => p.2.departed.any fun st => st.part == part && st.sid.rcb == addr

/-- A region may leave the cache when neither it nor a region below it, whose charges it takes (R376), has a launch or a
strand (R389; log entry 26). -/
def evictable (s : State) (die : Nat) (r : Region) : Bool :=
  !((getDie s die).regions.any fun q => q.part == r.part && regionBusy s q.part q.addr &&
    (regionChain (getDie s die).regions q.part 8 q.addr).any fun x => x.addr == r.addr)

/-- Drops least recently used entries until `need` places are free; the list is most recently used first. -/
def makeRoom (s : State) (die : Nat) (keep : List Nat) (need : Nat) : Nat → List Region → Option (List Region)
  | 0, l => if l.length + need ≤ 256 then some l else none
  | fuel + 1, l =>
    if l.length + need ≤ 256 then some l
    else match l.reverse.find? (fun r => evictable s die r && !keep.contains r.addr) with
      | none => none
      | some v => makeRoom s die keep need fuel (l.filter fun r => !(r.addr == v.addr && r.part == v.part))

/-- What a launch learns of its region (R342, R374, R389). -/
inductive RegionAnswer where
  | ok | refused | full
deriving DecidableEq, Repr

/-- A region that another die caches goes on with its balance (R439). -/
def inheritRegion (s : State) (e : Region) : Region :=
  match regionOf s e.part e.addr with
  | some q => { e with balance := q.balance, paused := q.paused, used := q.used }
  | none => e

/-- A region is cached with all its ancestors. -/
def cachedWhole (s : State) (die part addr : Nat) : Bool :=
  match (regionChain (getDie s die).regions part 8 addr).getLast? with
  | some r => r.parent == 0
  | none => false

/-- Brings a region and its ancestors into the cache of a die. A refusal is logged with cause 0x40 (R374, R413). -/
def admitRegion (s : State) (die part addr : Nat) : Act (RegionAnswer × State) :=
  match cachedWhole s die part addr, cachedRegion s die part addr with
  | true, some r =>
    .ok (.ok, modDie s die fun d => { d with regions := r :: d.regions.filter fun q => !(q.addr == addr && q.part == part) })
  | _, _ => do
    let (c, s) ← readChain die part 8 addr s
    match c with
    | none =>
      .ok (.refused, addLog s die (logEntry s 0x40 0 part 0xFF 5 addr none [BitVec.ofNat 64 addr]))
    | some chain =>
      let fresh := ((entriesOf part chain).filter fun e => (cachedRegion s die part e.addr).isNone).map (inheritRegion s)
      match makeRoom s die (chain.map (·.1)) fresh.length 256 (getDie s die).regions with
      | none => .ok (.full, s)
      | some l => .ok (.ok, modDie s die fun d => { d with regions := fresh ++ l })

/-! ## Counters (R377) -/

/-- An entry of the die's error log for an access of the scheduler. -/
def logTrap (s : State) (die part : Nat) (t : Trap) : State :=
  addLog s die (logEntry s (Cause.code t.cause) t.detail part 0xFF 5 t.addr t.paddr [])

/-- The scheduler's own atomic add of a doubleword (R283), at its home. -/
def addUnit (s : State) (c : CounterAdd) : Act State := do
  let ea := BitVec.ofNat 64 c.va
  alignedTo ea 8
  let (x, s) ← translate s c.die none c.part .unitAdd ea
  let p : Piece := ⟨c.va, 8, x⟩
  if homeLocal p.home then do
    check (!linePoisoned s x.pa 8) { cause := .poison, detail := 2, addr := c.va, paddr := some x.pa }
    .ok (atomicAt s x.pa 8 (pteMsa x.leaf.pte) fun old => (old + c.n) % 2 ^ 64).2
  else do
    let (_, s) ← takeAnswer s { awayReq c.part c.die p (some (toBytes c.n 8)) with add := true }
    .ok s

/-- An add that must wait, for a pull or for its home's answer, is kept until it performs; one that fails is logged (R377). -/
def addVirt (s : State) (die part va n : Nat) : State :=
  match addUnit s ⟨die, part, va, n⟩ with
  | .ok s => s
  | .error (.trap t) => dropAnswers (logTrap s die part t) part t.addr
  | .error (.hold h) => modHub (startHold s h) fun x => { x with adds := x.adds ++ [⟨die, part, va, n⟩] }
  | .error .stall => s

/-- The adds that wait are tried again, as time passes. -/
def pumpAdds (s : State) : State :=
  s.hub.adds.foldl (fun s c => addVirt s c.die c.part c.va c.n) (modHub s fun h => { h with adds := [] })

/-- Adds to counter `k` of a region's counter area; an effective CNTR of 0 names none. -/
def countRegion (s : State) (die part rcb k n : Nat) : State :=
  match regionOf s part rcb with
  | none => s
  | some r => if r.cntr = 0 || n = 0 then s else addVirt s die part (r.cntr + 8 * k) n

/-- Adds the energy charged to a region since the last update to counter 6, in whole units. -/
def flushEnergy (s : State) (die : Nat) (r : Region) : State :=
  let s := countRegion s die r.part r.addr 6 (r.used / energyUnit)
  { s with dies := s.dies.map fun d => { d with regions := d.regions.map fun q =>
      if q.addr == r.addr && q.part == r.part then { q with used := q.used % energyUnit } else q } }

/-- As `flushEnergy`, for a region and its ancestors. -/
def flushChain (s : State) (die part rcb : Nat) : State :=
  (regionChain (allRegions s) part 8 rcb).foldl (fun s r => flushEnergy s die r) s

end Sys2Proof.Machine
end

