-- ==== Sys2Proof/Machine/Launches.lean ====
section
/-! DEFINITION. Launches (R342, R378, R379) and the service calls of `sys` (R344, R430, R431).
-/

namespace Sys2Proof.Machine

open Host (Outcome)

/-- Every access of the strand before a place of C has performed (R342): `x` is how far other engines' words reach there. -/
def quietBefore (st : Strand) (x : Seen) (pos : Nat) : Bool :=
  issuedBefore st .c x && !(st.accs.any fun a => decide (a.pos < pos)) && !(st.stores.any fun x => decide (x.pos < pos))

/-! ## Launch records -/

/-- The fields of a launch record (R378). -/
structure LaunchRec where
  rcb : Nat
  entry : Nat
  image : Nat
  argb : Nat
  gx : Nat
  gy : Nat
  gz : Nat
  cores : Bool
  emask : Nat
  cflag : Nat
  prods : List Nat
deriving DecidableEq, Repr

/-- A record whose reserved bits are zero and whose NPROD is at most 4. A CFLAG that is not aligned to 8 breaks its
field too (log entry 26). -/
def launchRecOf (w : List Word) : Option LaunchRec :=
  let d := blk w
  let n := wbits (d 7) 2 0
  let prods := [wbits (d 5) 31 0, wbits (d 5) 63 32, wbits (d 6) 31 0, wbits (d 6) 63 32]
  if wbits (d 0) 63 54 = 0 && wbits (d 1) 55 54 = 0 && wbits (d 2) 63 54 = 0 && wbits (d 3) 15 13 = 0 &&
      wbits (d 3) 11 5 = 0 && wbits (d 4) 63 54 = 0 && wbits (d 7) 63 3 = 0 && decide (n ≤ 4) &&
      wbits (d 4) 53 0 % 8 = 0 then
    some ⟨wbits (d 0) 53 0, wbits (d 1) 63 56, wbits (d 1) 53 0, wbits (d 2) 53 0, wbits (d 3) 31 16, wbits (d 3) 47 32,
      wbits (d 3) 63 48, (d 3).getLsbD 12, wbits (d 3) 4 0, wbits (d 4) 53 0, prods.take n⟩
  else none

/-! ## Placement -/

/-- Cell `c` is in an effective PLACE set (R372). -/
def placeHas (place : List Word) (c : Nat) : Bool := (place.getD (c / 64) 0).getLsbD (c % 64)

/-- The context of a partition on a cell owns every unit that a mask needs (R385). -/
def ownsUnits (s : State) (cell part : Nat) (emask : BitVec 5) : Bool :=
  let c := getCell s cell
  (!emask.getLsbD 2 || c.vu == some part) && (!emask.getLsbD 3 || c.mu == some part) &&
    (!(emask.getLsbD 1 || emask.getLsbD 4) || c.au == some part)

/-- Slots that a partition's context holds on a cell. A fenced cell has none (R3). -/
def slotsHeld (s : State) (cell part : Nat) : Nat :=
  let c := getCell s cell
  if c.fenced then 0 else (c.slots.toList.filter (· == some part)).length

/-- The cells of a partition in a placement set. -/
def placeCells (s : State) (part : Nat) (place : List Word) : List Nat :=
  (getPart s part).cells.filter fun c => placeHas place c && decide (0 < slotsHeld s c part)

/-- Cells where a strand of an image may be placed. -/
def fitCells (s : State) (part : Nat) (place : List Word) (im : Image) : List Nat :=
  (placeCells s part place).filter fun c => ownsUnits s c part im.emask && decide (im.win ≤ (getCtx s c part).win)

/-! ## Acceptance -/

/-- Launch numbers run from 1 to 2^32 − 1 and wrap to 1 (R379). -/
def launchNumber (count : Nat) : Nat := (count - 1) % (2 ^ 32 - 1) + 1

/-- A producer number has been issued (R379). -/
def producerIssued (p : Partition) (n : Nat) : Bool :=
  n != 0 && (decide (n ≤ p.lastLaunch) || decide (2 ^ 32 - 1 ≤ p.lastLaunch))

/-- A producer more than 2^31 below the latest number counts as complete, so it is no longer kept. -/
def producerKept (p : Partition) (n : Nat) : Bool :=
  decide ((launchNumber p.lastLaunch + (2 ^ 32 - 1) - n) % (2 ^ 32 - 1) ≤ 2 ^ 31)

/-- The answer of `launch` (R342). -/
inductive LaunchAnswer where
  | number (n : Nat)
  | code (c : Int)
deriving DecidableEq, Repr

/-- Appends an accepted launch and counts it in its region (R377, R379). -/
def appendLaunch (s : State) (die part : Nat) (l : LaunchRec) (im : Image) (handlerOf : Option Nat)
    (after : Option (Nat × Nat × Seen)) : Nat × State :=
  let p := getPart s part
  let n := launchNumber (p.lastLaunch + 1)
  let rec_ : Launch :=
    { number := n, die := die, rcb := l.rcb, entry := BitVec.ofNat 8 l.entry, image := l.image,
      argb := BitVec.ofNat 54 l.argb, gx := l.gx, gy := l.gy, gz := l.gz, cores := l.cores, emask := im.emask, win := im.win,
      cflag := l.cflag, prods := l.prods.filter (producerKept p), next := 0, ended := 0, triggered := 0,
      failed := false, complete := false, handlerOf := handlerOf, after := after }
  let s := modPart s part fun p =>
    { p with lastLaunch := p.lastLaunch + 1, launches := p.launches.filter (fun q => q.number != n) ++ [rec_] }
  (n, countRegion s die part l.rcb 0 1)

/-- The checks of R379 on the image and the placement set. -/
def launchFits (s : State) (part : Nat) (l : LaunchRec) (place : List Word) (im : Image) : Bool :=
  let slots := ((placeCells s part place).map fun c => slotsHeld s c part).sum
  (l.emask == 0 || l.emask == im.emask.toNat) && decide (l.entry < im.overlays.length) &&
    !(l.cores && decide (slots < l.gx * l.gy * l.gz)) && !(fitCells s part place im).isEmpty &&
    l.prods.all (producerIssued (getPart s part))

/-- The die scheduler's answer to a launch record (R342, R374, R379; the order of the refusals is log entry 26). -/
def acceptLaunch (s : State) (die part : Nat) (w : List Word) (handlerOf : Option Nat)
    (after : Option (Nat × Nat × Seen)) : Act (LaunchAnswer × State) :=
  match launchRecOf w with
  | none => .ok (.code (-2), s)
  | some l => do
    let (a, s) ← admitRegion s die part l.rcb
    match a with
    | .refused => .ok (.code (-1), s)
    | .full => .ok (.code (-3), s)
    | .ok =>
      let place := match cachedRegion s die part l.rcb with | some r => r.place | none => []
      match readImageAs .copyRead imageRoom s die part l.image 32768 with
      | .error (.trap t) => .ok (.code (-2), logTrap s die part { t with addr := l.image })
      | .error e => .error e
      | .ok (none, s) => .ok (.code (-2), s)
      | .ok (some im, s) =>
        if launchFits s part l place im then
          let (n, s) := appendLaunch s die part l im handlerOf after
          .ok (.number n, s)
        else .ok (.code (-2), s)

def answerWord : LaunchAnswer → Word
  | .number n => BitVec.ofNat 64 n
  | .code c => BitVec.ofInt 64 c

/-- C's `launch` or `sys` word: the load of its record joins the accesses in flight, and the answer comes when the unit that
serves it has read the record. -/
def callWord (s : State) (word : Instr) (n : Nat) (ga gb : BitVec 5) (ready : Strand → Act Unit)
    (early : Nat → Act (Option Word)) : Outcome State Fault Refusal :=
  issueWith s Tk.none fun w st s' => do
    ready st
    let a ← readG st 0 gb
    match ← early a.toNat with
    | some x =>
      .ok (countC (putStrand s' (Walker.ref w) (stepPast s' (writeWord s.clock st .c 15 (.g ga) x) .c)) (Walker.ref w))
    | none => do
      let (x, s') ← translate s' (dieOf w.cell) (some w.cell) st.part .scalarRead a
      let (id, s') := freshId s'
      let en := getEng st .c
      let acc := { newAccess st .c id 0 .load 0 .normal x a (8 * n) with dest := .call }
      let st := awaitG s.clock { st with
        accs := st.accs ++ [acc], calls := st.calls ++ [⟨en.passed, en.pc, en.seen, word, ga, a.toNat, none, false⟩] } ga
      .ok (countC (putStrand s' (Walker.ref w) (stepPast s' st .c)) (Walker.ref w))

/-- `launch` (R342). -/
def execLaunch (lat : BitVec 4) (ga gb : BitVec 5) (s : State) : Outcome State Fault Refusal :=
  callWord s (.launch lat ga gb) 8 ga gb (fun _ => .ok ()) fun a => do
    check (decide (a % 64 = 0)) (alignTrap a)
    .ok none

/-! ## Service calls -/

/-- A `sys` word (R344): PERMISSION outside the service partition; −3 for a descriptor that is not aligned to 32 (R431). -/
def sysWord (s : State) (word : Instr) (ga gb : BitVec 5) : Outcome State Fault Refusal :=
  callWord s word 4 ga gb (fun st => check (st.part == 0) { cause := .permission })
    fun a => .ok (if a % 32 ≠ 0 then some (BitVec.ofInt 64 (-3)) else none)

def execSysInval (lat : BitVec 4) (ga gb : BitVec 5) (s : State) : Outcome State Fault Refusal :=
  sysWord s (.sysInval lat ga gb) ga gb

def execSysFgive (lat : BitVec 4) (ga gb : BitVec 5) (s : State) : Outcome State Fault Refusal :=
  sysWord s (.sysFgive lat ga gb) ga gb

def execSysFtake (lat : BitVec 4) (ga gb : BitVec 5) (s : State) : Outcome State Fault Refusal :=
  sysWord s (.sysFtake lat ga gb) ga gb

def execSysMread (lat : BitVec 4) (ga gb : BitVec 5) (s : State) : Outcome State Fault Refusal :=
  sysWord s (.sysMread lat ga gb) ga gb

def partActive (s : State) (p : Nat) : Bool := (getPart s p).st == .active

/-- What a call comes to: a value at once, or one that an invalidation brings. -/
inductive CallAnswer where
  | value (x : Word)
  | later
deriving DecidableEq, Repr

def sysCode (x : Int) (s : State) : Act (CallAnswer × State) := .ok (.value (BitVec.ofInt 64 x), s)

/-- The call waits for its invalidation. -/
def sysPending (s : State) (v : Inval) : Act (CallAnswer × State) :=
  .ok (.later, modHub s fun h => { h with invals := h.invals ++ [v] })

/-- INVAL (R430, R431). A length of 0 invalidates nothing. -/
def callInval (s : State) (uid : Nat) (c : Call) (d : List Word) : Act (CallAnswer × State) :=
  let p := wbits (blk d 0) 5 0
  let base := wbits (blk d 1) 53 0
  let len := (blk d 2).toNat
  if wbits (blk d 0) 63 6 ≠ 0 || wbits (blk d 1) 63 54 ≠ 0 || blk d 3 ≠ 0 then sysCode (-3) s
  else if !partActive s p then sysCode (-1) s
  else if 2 ^ 54 < base + len then sysCode (-2) s
  else if len = 0 then sysCode 0 s
  else sysPending s ⟨p, base, len, some (uid, c.pos), none, false⟩

/-- A frame of the pre-scrubbed pool (R422). -/
def inPool (s : State) (f : Nat) : Bool :=
  populated s (f * Config.frameSize) &&
    (match fget s.hub.owners f with | some o => !o.valid | none => true) &&
    !s.hub.unmarked.contains f && !linePoisoned s (f * Config.frameSize) Config.frameSize

/-- The frames of a descriptor: partition, first frame and count, or none when it breaks R431. -/
def frameDesc (d : List Word) : Option (Nat × Nat × Nat) :=
  if wbits (blk d 0) 63 6 = 0 && wbits (blk d 1) 63 28 = 0 && wbits (blk d 2) 63 32 = 0 && blk d 3 = 0 &&
      blk d 2 ≠ 0 then some (wbits (blk d 0) 5 0, wbits (blk d 1) 27 0, (blk d 2).toNat)
  else none

/-- Gives frames of the pool to a partition: owner, key slot and domain tag (R67, R423, R430). -/
def giveFrames (s : State) (part : Nat) (fs : List Nat) : State :=
  let tag := (getPart s part).dtag
  let s := modHub s fun h => { h with owners := fs.foldl (fun o f => fset o f ⟨true, part, part, tag⟩) h.owners,
                                      deadFrames := fs.foldl ferase h.deadFrames }
  modPart s part fun p => { p with frames := p.frames ++ fs }

/-- FGIVE (R430). -/
def callFgive (s : State) (d : List Word) : Act (CallAnswer × State) :=
  match frameDesc d with
  | none => sysCode (-3) s
  | some (p, first, n) =>
    let fs := (List.range n).map (· + first)
    if !partActive s p then sysCode (-1) s
    else if !(fs.all (inPool s)) then sysCode (-2) s
    else sysCode 0 (giveFrames s p fs)

/-- FTAKE: the frames go when the invalidation over the leaves that name them has completed (R430). -/
def callFtake (s : State) (uid : Nat) (c : Call) (d : List Word) : Act (CallAnswer × State) :=
  match frameDesc d with
  | none => sysCode (-3) s
  | some (p, first, n) =>
    let owned := (List.range n).all fun i =>
      match fget s.hub.owners (first + i) with | some o => o.valid && o.owner == p | none => false
    if !partActive s p then sysCode (-1) s
    else if !owned then sysCode (-2) s
    else sysPending s ⟨p, 0, 2 ^ 54, some (uid, c.pos), some (first, n), false⟩

/-- Doublewords 3 to 11 of a usage record (R433, R435). -/
def counterWords (c : Counters) : List Word :=
  [c.auus, c.vus, c.mus, c.ccyc, c.energy, c.hbmfms, c.stfms, c.fabb, c.hostb].map (BitVec.ofNat 64)

/-- Doubleword 2 of a usage record (R435). -/
def recordHead (kind part : Nat) (pser : BitVec 32) : Word := BitVec.ofNat 64 (kind * 2 ^ 56 + part * 2 ^ 48 + pser.toNat)

/-- A store of the calling strand by a translated piece, in the program order of its word (R430). -/
def callStore (st : Strand) (c : Call) (id : Nat) (p : Piece) (data : Nat) : Access :=
  { newAccess st .c id p.va .store 0 .normal p.x (BitVec.ofNat 64 p.va) p.len with
    pos := c.pos, index := c.index, seen := c.seen, data := BitVec.ofNat 4096 data }

/-- MREAD (R430, R431): the counters go to the result area after doubleword 1 of the descriptor, as class 0 stores of the
strand. -/
def callMread (s : State) (r : SRef) (st : Strand) (c : Call) (d : List Word) : Act (CallAnswer × State) :=
  let p := wbits (blk d 0) 5 0
  if wbits (blk d 0) 63 6 ≠ 0 || blk d 1 ≠ 0 then sysCode (-3) s
  else if !partActive s p then sysCode (-1) s
  else do
    let q := getPart s p
    let bs := dwordsToBytes (recordHead 0 p q.pser :: counterWords q.counters ++ [0, 0, 0, 0, 0, 0])
    let (ps, s) ← runOf s (dieOf r.cell) (some r.cell) st.part .scalarWrite (c.addr + 16) bs.length
    let put (s : State) (p : Piece) : State :=
      let (id, s) := freshId s
      let own := (bs.drop (p.va - (c.addr + 16))).take p.len
      modStrand s r fun x => { x with accs := x.accs ++ [callStore x c id p (ofBytes own)] }
    sysCode 0 (ps.foldl put s)

/-- Serves a call whose record has been read. -/
def serveCall (s : State) (r : SRef) (st : Strand) (c : Call) (w : List Word) : Act (CallAnswer × State) :=
  match c.word with
  | .launch .. => do
    let (ans, s) ← acceptLaunch s (dieOf r.cell) st.part w none (some (st.uid, c.pos, c.seen))
    .ok (.value (answerWord ans), s)
  | .sysInval .. => callInval s st.uid c w
  | .sysFgive .. => callFgive s w
  | .sysFtake .. => callFtake s st.uid c w
  | _ => callMread s r st c w

/-- The answer of a word of C at a place (R29, R342, R344). -/
def answerPending (st : Strand) (pos : Nat) (x : Word) : Strand :=
  let mine (p : Pending) : Bool := p.eng == .c && p.pos == pos
  let fill (p : Pending) : Pending :=
    if mine p && p.val.isNone then { p with val := some (x.setWidth 4096) } else p
  let l := st.pending.map fill
  match l.find? mine with
  | some p => landReg st p.reg l []
  | none => st

/-- A call whose record has come is served; one that meets a fault waits for its resolution. -/
def takeCall (s : State) (r : SRef) (st : Strand) (c : Call) : State :=
  match c.rec? with
  | none => s
  | some w =>
    let done (st : Strand) : Strand := { st with calls := st.calls.filter fun x => x.pos != c.pos }
    match serveCall s r st c w with
    | .ok (.value x, s) => modStrand s r fun st => answerPending (done st) c.pos x
    | .ok (.later, s) => modStrand s r done
    | .error (.hold h) => startHold s h
    | .error .stall => s
    | .error (.trap t) =>
      let hold (x : Call) : Call := if x.pos = c.pos then { x with failed := true } else x
      raiseLate (modStrand s r fun st => { st with calls := st.calls.map hold }) r .c c.index t

/-- The oldest call of each strand, as time passes. -/
def pumpCalls (s : State) : State :=
  s.strands.foldl (fun s p =>
    match p.2.calls with
    | c :: _ => if c.failed then s else takeCall s ⟨p.1 / 4, p.1 % 4⟩ p.2 c
    | [] => s) s

end Sys2Proof.Machine
end

