-- ==== Sys2Proof/Machine/Spm.lean ====
section
/-! DEFINITION. Scratchpad (R109, R110, R415): the checks of an access, its reads and writes, poison of its rows, and
the waits between L's reads and S's stores (R120).
-/

namespace Sys2Proof.Machine

/-- Bytes of a cell's scratchpad. -/
def spmSize : Nat := 2 ^ 21

/-- A run of scratchpad bytes. -/
structure Seg where
  addr : Nat
  len : Nat
deriving DecidableEq, Repr

/-- The rows of 512 bytes that a run touches. -/
def segRows (g : Seg) : List Nat :=
  if g.len = 0 then [] else (List.range ((g.addr + g.len - 1) / 512 - g.addr / 512 + 1)).map (· + g.addr / 512)

def segMeet (a b : Seg) : Bool := decide (a.addr < b.addr + b.len) && decide (b.addr < a.addr + a.len)

/-- The check of R109 that a run fails, bank by bank: the first byte that fails is named (log entry 77). -/
def segFault (s : State) (cell part : Nat) (g : Seg) : Option Trap :=
  if g.len = 0 then none
  else
    let c := getCell s cell
    (List.range (min 33 ((g.addr + g.len - 1) / 65536 - g.addr / 65536 + 1))).findSome? fun i =>
      let b := g.addr / 65536 + i
      if 32 ≤ b then some (opField (max g.addr (65536 * b)))
      else if c.banks.get (Fin.ofNat 32 b) == some part then none
      else some { cause := .foreign, addr := max g.addr (65536 * b) }

/-- R109 on every run; the first that fails is reported. -/
def checkSegs (s : State) (cell part : Nat) : List Seg → Act Unit
  | [] => .ok ()
  | g :: gs =>
    match segFault s cell part g with
    | some t => trap t
    | none => checkSegs s cell part gs

def spmRead (s : State) (cell : Nat) (g : Seg) : Nat := readN (getCell s cell).spm g.addr g.len

def spmPoisoned (s : State) (cell : Nat) (gs : List Seg) : Bool :=
  let p := (getCell s cell).spmPoison
  !p.isEmpty && gs.any fun g => (segRows g).any fun r => p.contains r

/-- A run covers a whole row. -/
def rowWithin (g : Seg) (r : Nat) : Bool := decide (g.addr ≤ 512 * r) && decide (512 * r + 512 ≤ g.addr + g.len)

/-- POISON of a read of scratchpad runs, for the first poisoned row (R415). -/
def checkRows (s : State) (cell addr : Nat) (gs : List Seg) : Act Unit :=
  match (gs.flatMap segRows).find? (getCell s cell).spmPoison.contains with
  | some r => trap { cause := .poison, detail := 1, addr := addr, unit := some (.row cell r) }
  | none => .ok ()

/-- A read that raises nothing meets poisoned rows whose error was not yet known: it is logged (R124, R415). -/
def noteRows (s : State) (r : SRef) (part : Nat) (e : Eng) (gs : List Seg) : State :=
  let rows := (getCell s r.cell).spmFresh.filter fun row => gs.any fun g => (segRows g).contains row
  rows.foldl (fun s row =>
    addLog (clearFresh s (.row r.cell row)) (dieOf r.cell)
      (logEntry s (Cause.code .uncorrectable) 1 part r.cell (Eng.code e) 0 none [])) s

/-- Writes a run. A write of a whole row clears its poison (R415). -/
def spmWrite (s : State) (cell : Nat) (g : Seg) (v : Nat) : State :=
  modCell s cell fun c =>
    { c with spm := writeN c.spm g.addr g.len v,
             spmPoison := c.spmPoison.filter fun r => !(rowWithin g r),
             spmFresh := c.spmFresh.filter fun r => !(rowWithin g r) }

/-- 0.6 nJ for each row access (R438). -/
def chargeRows (s : State) (r : SRef) (gs : List Seg) : State :=
  chargeStrand s r (centiNj (60 * (gs.map fun g => (segRows g).length).sum))

/-- Sum of a 64-bit address and a signed displacement. -/
def offset64 (a : Word) (d : Int) : Nat := wrapInt ((a.toNat : Int) + d) 64

/-- ESTR of a descriptor (R116). -/
def sdEstr (d : Desc) : Int := sgn (bits d.toNat 95 64) 32

/-- The runs of strided elements (R124, R129). -/
def stridedSegs (ea : Word) (d : Desc) (e n : Nat) : List Seg :=
  (List.range n).map fun i => ⟨offset64 ea (sdEstr d * i), e⟩

/-- The scratchpad runs that an entry of the pending-store table covers (R119). -/
def entrySegs (x : SEntry) : List Seg :=
  if !x.entered || x.mem then []
  else match x.word with
    | .stqs _ sz _ _ _ => stridedSegs x.ea x.desc (Sz.bytes sz) (512 / Sz.bytes sz)
    | _ => [⟨x.lo, x.hi - x.lo⟩]

/-- A read of L at a place may go: S has passed every earlier word of its own, and no entry of the pending-store table
overlaps (R120). -/
def awaitStores (st : Strand) (x : Seen) (pos : Nat) (gs : List Seg) : Act Unit :=
  await ((!inMask st .s || decide (x.s ≤ (getEng st .s).passed)) &&
    !(st.stores.any fun e => decide (e.pos < pos) && (entrySegs e).any fun g => gs.any fun h => segMeet h g))

end Sys2Proof.Machine
end

