-- ==== Sys2Proof/Machine/CopyEngine.lean ====
section
/-! DEFINITION. The copy engine (R85 to R107): the issue of a copy command with its checks and captures, the start of
commands, the completion of copies with its effects, channel faults and the handle table.
-/

namespace Sys2Proof.Machine

open Host (Outcome)

/-! ## Shapes and sides -/

/-- A copy's rows, bytes per row and shape (R91). -/
structure CopyShape where
  rows : Nat
  len : Nat
  dim2 : Bool
deriving DecidableEq, Repr

/-- The shape register, or OPFIELD (R91, R98). -/
def shapeOf (dim2 : Bool) (shp : Word) : Act CopyShape :=
  if dim2 then do
    let rows := wbits shp 39 24
    let len := wbits shp 23 0
    check (wbits shp 63 40 == 0 && decide (rows * len ≤ 0x1000000)) (opField shp.toNat)
    .ok ⟨rows, len, true⟩
  else do
    let len := wbits shp 24 0
    check (wbits shp 63 25 == 0 && decide (len ≤ 0x1000000)) (opField shp.toNat)
    .ok ⟨1, len, false⟩

def CopyShape.empty (c : CopyShape) : Bool := c.len == 0 || c.rows == 0

/-- First and last byte of a side relative to its first address: the extent of R87 and R101. -/
def extent (c : CopyShape) (stride : Int) : Int × Int :=
  let last : Int := (c.rows - 1 : Nat) * stride
  (min 0 last, max 0 last + c.len - 1)

/-- The runs of a side's rows. Addresses wrap modulo 2^64 (R57). -/
def sideSegs (c : CopyShape) (x : CopySide) : List Seg :=
  (List.range c.rows).map fun i => ⟨wrapInt ((x.addr : Int) + i * x.stride) 64, c.len⟩

/-- A side in scratchpad, IMEM or the WCS share (R87): alignment, extent and ownership. -/
def checkSide (s : State) (cell part : Nat) (c : CopyShape) (x : CopySide) : Act Unit :=
  let (lo, hi) := extent c x.stride
  let inside (size : Nat) : Bool := decide (0 ≤ (x.addr : Int) + lo) && decide ((x.addr : Int) + hi < size)
  match x.space with
  | .mem => .ok ()
  | .spm => do
    check (inside spmSize) (opField x.addr)
    checkSegs s cell part (sideSegs c x)
  | .imem => do
    check (x.addr % 8 == 0 && c.len % 8 == 0) (alignTrap x.addr)
    check (inside (8 * (getCtx s cell part).win)) (opField x.addr)
  | .wcs => do
    check (x.addr % 16 == 0 && c.len % 16 == 0) (alignTrap x.addr)
    check (inside 65536) (opField x.addr)

/-! ## Handles (R99 to R103) -/

def getHandle (s : State) (part slot : Nat) : HandleSlot := (fget (getPart s part).handles slot).getD {}

def setHandle (s : State) (part slot : Nat) (h : HandleSlot) : State :=
  modPart s part fun p => { p with handles := fset p.handles slot h }

/-- The permission that a memory side needs (R87). -/
def handleAllows (h : HandleSlot) (isDst toCode : Bool) : Bool :=
  if isDst then h.w else h.r && (!toCode || h.x)

/-- Captures a memory side of `cpyh`: the slot is checked, and the side named by its virtual address (R101). The pin
is added when both sides have passed. -/
def captureSide (s : State) (part : Nat) (c : CopyShape) (isDst toCode : Bool) (reg : Word) (stride : Int) :
    Act CopySide :=
  let slot := wbits reg 63 52
  let gen := wbits reg 51 32
  let off := wbits reg 31 0
  let h := getHandle s part slot
  let (lo, hi) := extent c stride
  if !h.val || gen == 0 || gen != h.gen.toNat then trap { cause := .staleHandle, addr := reg.toNat }
  else if decide ((off : Int) + lo < 0) || decide ((h.len.toNat : Int) ≤ (off : Int) + hi) ||
      !handleAllows h isDst toCode then trap { cause := .permission, addr := reg.toNat }
  else if h.pin = 0xFFFF then stall
  else .ok ⟨.mem, h.base.toNat + off, stride, some slot⟩

/-- Two captures of one slot by a copy both find room in its PIN (R101). -/
def pinsFit (s : State) (part : Nat) (dst src : CopySide) : Bool :=
  match dst.slot, src.slot with
  | some a, some b => a != b || (getHandle s part a).pin != 0xFFFE
  | _, _ => true

def addPin (s : State) (part : Nat) : Option Nat → State
  | none => s
  | some slot =>
    let h := getHandle s part slot
    setHandle s part slot { h with pin := h.pin + 1 }

def dropPin (s : State) (part : Nat) : Option Nat → State
  | none => s
  | some slot =>
    let h := getHandle s part slot
    setHandle s part slot { h with pin := h.pin - 1 }

/-! ## Issue (R98) -/

/-- One side as its register names it. An empty copy makes no check and no capture of it (R92). -/
def formSide (s : State) (cell part : Nat) (c : CopyShape) (handles isDst toCode : Bool) (sp : Space) (reg : Word)
    (stride : Int) : Act CopySide :=
  if CopyShape.empty c then .ok ⟨sp, reg.toNat, stride, none⟩
  else if sp = .mem then
    if handles then captureSide s part c isDst toCode reg stride else .ok ⟨.mem, reg.toNat, stride, none⟩
  else do
    let x : CopySide := ⟨sp, reg.toNat, stride, none⟩
    checkSide s cell part c x
    .ok x

/-- The operands of a copy word: destination, source, shape, strides and flag address. -/
structure CopyRegs where
  dst : Word
  src : Word
  shp : Word
  str : Word
  flag : Word
deriving DecidableEq, Repr

/-- Issues a copy command of L: the checks in the order of R98, then the places and pins it takes. -/
def issueCopy (s : State) (r : SRef) (st : Strand) (index pos : Nat) (seen : Seen) (rset : BitVec 16) (handles : Bool)
    (w : CpyWord) (g : CopyRegs) : Act State := do
  let c ← shapeOf w.dim2 g.shp
  if w.flag.isSome then check (g.flag.toNat % 8 == 0) (alignTrap g.flag.toNat) else .ok ()
  let toCode := w.dsp == .imem || w.dsp == .wcs
  let str (hi lo : Nat) : Int := if w.dim2 then sgn (wbits g.str hi lo) 32 else 0
  let dst ← formSide s r.cell st.part c handles true toCode w.dsp g.dst (str 31 0)
  let src ← formSide s r.cell st.part c handles false toCode w.ssp g.src (str 63 32)
  await (pinsFit s st.part dst src)
  await (decide ((getCell s r.cell).fifo.length < 16) && decide (seen.ccmd ≤ (getEng st .c).passed))
  await (!w.out || decide (st.out.length < 16))
  let (id, s) := freshId s
  let st ← if w.tok then reserveTok st (some 0) { eng := .l, pos := pos, copy := some id } else .ok st
  let st := if w.out then { st with out := st.out ++ [⟨id, none⟩] } else st
  let op : CopyOp := .copy dst src c.rows c.len c.dim2 w.tok (if w.flag.isSome then some g.flag else none) w.oc rset
  let cmd : CopyCmd := ⟨id, st.uid, st.part, index, pos, seen, w.ch.toNat, w.tag, st.sid.rcb, w.out, op⟩
  let s := addPin (addPin s st.part dst.slot) st.part src.slot
  .ok (modCell (putStrand s r st) r.cell fun c => { c with fifo := c.fifo ++ [cmd] })

/-! ## Records -/

/-- A completion record (R94). -/
def copyRecord (info stat chan : Nat) (tag : BitVec 16) : Word :=
  BitVec.ofNat 64 (info * 2 ^ 24 + stat * 2 ^ 20 + chan * 2 ^ 16 + tag.toNat)

def giveRecord (s : State) (cmd : CopyCmd) (w : Word) : State :=
  if cmd.out then modByUid s cmd.uid fun st => { st with out := fillRecord st.out cmd.id w } else s

/-- The three handle commands (R102). A refused bound is tested before PIN, and LEN keeps its 54 bits (log entry 81). -/
def runHandle (s : State) (cmd : CopyCmd) : State :=
  match cmd.op with
  | .hset base len slot x w r =>
    let h := getHandle s cmd.part slot.toNat
    if h.val || decide (2 ^ 54 < base.toNat + len.toNat) then giveRecord s cmd (copyRecord 0 11 0 cmd.tag)
    else if h.pin ≠ 0 then giveRecord s cmd (copyRecord 0 10 0 cmd.tag)
    else
      let s := setHandle s cmd.part slot.toNat
        { h with val := true, x := x, w := w, r := r, len := len.setWidth 54, base := base.setWidth 54 }
      giveRecord s cmd (copyRecord ((slot.toNat * 2 ^ 20 + h.gen.toNat) * 2 ^ 8) 8 0 cmd.tag)
  | .hfree hd =>
    let slot := bits hd.toNat 31 20
    let h := getHandle s cmd.part slot
    if h.val && bits hd.toNat 19 0 == h.gen.toNat then
      let gen := if h.gen.toNat = 0xFFFFF then 1 else h.gen.toNat + 1
      giveRecord (setHandle s cmd.part slot { h with val := false, gen := BitVec.ofNat 20 gen }) cmd
        (copyRecord 0 9 0 cmd.tag)
    else giveRecord s cmd (copyRecord 0 11 0 cmd.tag)
  | .hread slot =>
    let h := getHandle s cmd.part slot.toNat
    if h.val then giveRecord s cmd (copyRecord ((slot.toNat * 2 ^ 20 + h.gen.toNat) * 2 ^ 8) 8 0 cmd.tag)
    else giveRecord s cmd (copyRecord 0 11 0 cmd.tag)
  | .copy .. => s

/-! ## Start (R86, R90, R104) -/

/-- The strand's stores before the command have performed (R86). A command whose strand has departed for good starts. -/
def commandReady (s : State) (cmd : CopyCmd) : Bool :=
  match strandByUid s cmd.uid with
  | some (_, st) =>
    decide (cmd.seen.cst ≤ (getEng st .c).passed) && (!inMask st .s || decide (cmd.seen.s ≤ (getEng st .s).passed)) &&
      !(st.accs.any fun a => decide (a.pos < cmd.pos) && a.kind.stores) &&
      !(st.stores.any fun x => decide (x.pos < cmd.pos))
  | none => true

/-- The uses of a copy's pages (R64, R69, R87). -/
def CopyPart.use (code : Bool) : CopyPart → Use
  | .src => if code then .copyExec else .copyRead
  | .dst => .copyWrite
  | .flag => .unitWrite

/-- The pages of one side of a copy. -/
def sideCuts (p : CopyPart) (c : CopyShape) (x : CopySide) : List (CopyPart × Nat × Nat) :=
  if x.space = .mem then
    (sideSegs c x).flatMap fun g => (pageCuts (pagesOf g.len) g.addr g.len).map fun (va, n) => (p, va, n)
  else []

/-- Every page that a copy and its flag store touch, sources first (R104), as addresses and lengths within pages. -/
def copyCuts (op : CopyOp) : List (CopyPart × Nat × Nat) :=
  match op with
  | .copy dst src rows len dim2 _ flag _ _ =>
    let c : CopyShape := ⟨rows, len, dim2⟩
    (if CopyShape.empty c then [] else sideCuts .src c src ++ sideCuts .dst c dst) ++
      (match flag with
       | some a => (pageCuts 2 a.toNat 8).map fun (va, n) => (CopyPart.flag, va, n)
       | none => [])
  | _ => []

/-- Translates pages in order; where one stops the copy, those before it are kept (R104, R105). -/
def translateCuts (cell part : Nat) (code : Bool) :
    List (CopyPart × Nat × Nat) → State → List (CopyPart × Piece) × State × Option Stop
  | [], s => ([], s, none)
  | (p, va, n) :: rest, s =>
    match translate s (dieOf cell) (some cell) part (CopyPart.use code p) (BitVec.ofNat 64 va) with
    | .error e => ([], s, some e)
    | .ok (x, s) =>
      let (ps, s, e) := translateCuts cell part code rest s
      ((p, ⟨va, n, x⟩) :: ps, s, e)

/-- The words of a destination are loaded as code (R87). -/
def CopyOp.toCode : CopyOp → Bool
  | .copy dst .. => dst.space == .imem || dst.space == .wcs
  | _ => false

/-- The pieces of a run for one part of it. -/
def CopyRun.piecesOf (run : CopyRun) (p : CopyPart) : List Piece :=
  run.pages.filterMap fun x => if x.1 = p then some x.2 else none

def setChan (s : State) (cell ch : Nat) (r : Option CopyRun) : State :=
  modCell s cell fun c => { c with chans := c.chans.set (Fin.ofNat 16 ch) r }

def getChan (s : State) (cell ch : Nat) : Option CopyRun := (getCell s cell).chans.get (Fin.ofNat 16 ch)

/-- A fault of a strand that has departed from a cell waits with it (R403, R404). -/
def raiseDeparted (s : State) (cell uid : Nat) (q : Strand → QFault) : State :=
  match findUid s uid with
  | none => s
  | some st =>
    modByUid (setPend (logFault s cell st.part (q st)) st) uid fun st =>
      { st with frozen := true, faults := addFault st.faults (q st) }

/-- A fault of a channel (R105): the copy holds its place and the strand freezes. -/
def raiseChan (s : State) (cell ch : Nat) (run : CopyRun) (t : Trap) : State :=
  let s := dropAnswers (setChan s cell ch (some { run with faulted := true })) run.cmd.part t.addr
  match strandByUid s run.cmd.uid with
  | none => raiseDeparted s cell run.cmd.uid fun st => ⟨t, 1, run.cmd.index, st.overlay.toNat, some ch, none, s.clock⟩
  | some (r, st) => raiseAt s r ⟨t, 1, run.cmd.index, st.overlay.toNat, some ch, none, s.clock⟩

/-- Tries to start the copy that waits on a channel: it translates and checks the pages that it has not yet reached, and
keeps what it has when a page faults or must be pulled. -/
def tryRun (s : State) (cell ch : Nat) : State :=
  match getChan s cell ch with
  | none => s
  | some run =>
    if run.started || run.faulted then s
    else
      let (ps, s, e) := translateCuts cell run.cmd.part run.cmd.op.toCode ((copyCuts run.cmd.op).drop run.pages.length) s
      let run := { run with pages := run.pages ++ ps, started := e.isNone, idle := if ps.isEmpty then run.idle else 0 }
      let s := setChan s cell ch (some run)
      match e with
      | some (.trap t) => raiseChan s cell ch run t
      | some (.hold h) => startHold s h
      | _ => s

/-- A bind entry without VAL. -/
def dropVal (e : Word) : Word := e &&& ~~~(0x8000000000000000 : Word)

/-- A copy into the WCS share clears every bind entry when it starts (R90), those that engines behind a `bind` still read
among them. -/
def clearBinds (s : State) (cell part : Nat) (op : CopyOp) : State :=
  let forget (st : Strand) : Strand := { st with oldBinds := st.oldBinds.map fun b => (b.1, b.2.1, dropVal b.2.2) }
  match op with
  | .copy dst .. =>
    if dst.space = .wcs then
      let s := modCtx s cell part fun c => { c with bindTab := c.bindTab.map dropVal, departed := c.departed.map forget }
      { s with strands := s.strands.map fun (k, st) => (k, if k / 4 = cell && st.part = part then forget st else st) }
    else s
  | _ => s

/-- Takes the command at the head of the FIFO when its channel is free and its strand's stores have performed. -/
def startHead (s : State) (cell : Nat) : State :=
  match (getCell s cell).fifo with
  | [] => s
  | cmd :: rest =>
    if !commandReady s cmd then s
    else match cmd.op with
      | .copy .. =>
        if (getChan s cell cmd.chan).isSome then s
        else
          let s := modCell s cell fun c => { c with fifo := rest }
          let s := setChan s cell cmd.chan (some { cmd := cmd, pages := [], faulted := false, started := false, bytes := 0 })
          tryRun (clearBinds s cell cmd.part cmd.op) cell cmd.chan
      | _ => runHandle (modCell s cell fun c => { c with fifo := rest }) cmd

/-- COPY_START: the copies that wait on their channels, and the head of the FIFO (R104). -/
def execCopyStart (cell : Nat) (s : State) : Outcome State Fault Refusal :=
  .next (startHead ((List.range 16).foldl (fun s ch => tryRun s cell ch) s) cell)

/-! ## Moving the bytes -/

/-- The runs of a copy's source that lie in scratchpad. -/
def spmSide (c : CopyShape) (x : CopySide) : List Seg := if x.space = .spm then sideSegs c x else []

/-- A poisoned scratchpad source names the first byte that it would take from a poisoned row (R105, R415). -/
def spmPoisonAt (s : State) (cell : Nat) (gs : List Seg) : Option Nat :=
  let p := (getCell s cell).spmPoison
  gs.findSome? fun g => ((segRows g).find? p.contains).map fun r => max g.addr (512 * r)

/-- The bytes of a copy's source in order of its rows, or its fault: POISON (R415), or what its remote or host page
answers. -/
def sourceBytes (s : State) (cell : Nat) (c : CopyShape) (src : CopySide) (part : Nat) (ps : List Piece) :
    Act (List Byte × State) :=
  match src.space with
  | .mem => readPieces (dieOf cell) part ps s
  | _ =>
    match spmPoisonAt s cell (sideSegs c src) with
    | some a => trap { cause := .poison, detail := 1, addr := a, unit := some (.row cell (a / 512)) }
    | none =>
      .ok ((sideSegs c src).flatMap (fun g => (List.range g.len).map fun i => mread (getCell s cell).spm (g.addr + i)), s)

/-- Writes bytes to scratchpad runs in order. -/
def writeSegs (s : State) (cell : Nat) : List Seg → List Byte → State
  | [], _ => s
  | g :: gs, bs =>
    let k := min g.len bs.length
    writeSegs (spmWrite s cell ⟨g.addr, k⟩ (ofBytes (bs.take k))) cell gs (bs.drop g.len)

/-- Micro-words from bytes into a share. -/
def fillWcs (m : FMap (BitVec 128)) (at_ : Nat) (bs : List Byte) : FMap (BitVec 128) :=
  (List.range (bs.length / 16)).foldl (fun m i =>
    fset m (at_ + i) (BitVec.ofNat 128 (ofBytes ((bs.drop (16 * i)).take 16)))) m

/-- The destination takes the leading bytes (R92): the highest row is left where rows overlap. -/
def putBytes (s : State) (cell part : Nat) (c : CopyShape) (dst : CopySide) (ps : List Piece) (bs : List Byte) :
    Act State :=
  match dst.space with
  | .mem => writePieces (dieOf cell) part ps bs s
  | .spm => .ok (writeSegs s cell (sideSegs c dst) bs)
  | .imem =>
    .ok (modCtx s cell part fun x => { x with imem := fillImem x.imem (dst.addr / 8) (toDwords bs (bs.length / 8)) })
  | .wcs =>
    .ok (modCtx s cell part fun x => { x with wcs := fillWcs x.wcs (dst.addr / 16) bs, shareCopied := true })

/-- No store that has passed an ordering point before the copy's accesses do is on its way to a home of theirs (R266). -/
def copyPathClear (s : State) (cell : Nat) (ps : List Piece) : Bool :=
  !(s.strands.any fun p => p.2.accs.any fun b =>
    (List.range b.reach.length).any (sharedPoint cell (p.1 / 4)) && ps.any fun q => q.home == b.home)

/-- Lines and bytes of a memory side at their homes (R401, R433, R438). -/
def touchPieces (s : State) (p : Payer) (writes : Bool) (ps : List Piece) : State :=
  ps.foldl (fun s q =>
    if homeLocal q.home then touchFor s p q.home (linesOf q.x.pa q.len) true
    else countFor s p q.home q.len (if writes then q.len else 0) (requestFlits writes q.len)) s

/-- A routine of the strand is executing or suspended, or a bound word of S waits for its data stage and runs the routine it
was decoded with (R54, R364). -/
def hasRoutine (st : Strand) : Bool :=
  (st.engs.toList.any fun e => e.micro.isSome) ||
    st.stores.any fun x => match x.word with | .boundOpcode .. => true | _ => false

/-- No micro-routine of the context is executing or suspended (R90, R353). -/
def noRoutine (s : State) (cell part : Nat) : Bool :=
  !(s.strands.any fun p => p.1 / 4 == cell && p.2.part == part && hasRoutine p.2) &&
    !((getCtx s cell part).departed.any hasRoutine)

/-- The earlier accesses that a flag store orders before itself have performed (R282). -/
def flagReady (s : State) (cmd : CopyCmd) : Bool :=
  match cmd.op with
  | .copy _ _ _ _ _ _ (some _) oc rset =>
    (match findUid s cmd.uid with
     | some st => !(st.accs.any fun a => decide (a.pos < cmd.pos) && (a.cls == oc || inClass rset a.cls))
     | none => true)
  | _ => true

/-- Fills the token places that a copy holds (R93). -/
def fillCopyTok (st : Strand) (n : Nat) : Strand :=
  let fill (p : TokPlace) : TokPlace := if p.copy == some n then { p with filled := true } else p
  { st with tok := { st.tok with lm := st.tok.lm.map fill } }

/-- The completion effects of a copy: token, record and flag; its pins are released (R93, R101). -/
def finishCopy (s : State) (cell ch : Nat) (cmd : CopyCmd) (flagPieces : List Piece) : Act State :=
  match cmd.op with
  | .copy dst src rows len _ tok _ _ _ => do
    let rec_ := copyRecord (rows * len) 0 cmd.chan cmd.tag
    let s ← writePieces (dieOf cell) cmd.part flagPieces (toBytes rec_.toNat 8) s
    let s := setChan s cell ch none
    let s := dropPin (dropPin s cmd.part dst.slot) cmd.part src.slot
    let s := if tok then modByUid s cmd.uid fun st => fillCopyTok st cmd.id else s
    .ok (giveRecord s cmd rec_)
  | _ => .ok s

/-- Where byte `n` of a side lies. -/
def sideAt (c : CopyShape) (x : CopySide) (n : Nat) : Nat :=
  wrapInt ((x.addr : Int) + (n / max 1 c.len : Nat) * x.stride + (n % max 1 c.len : Nat)) 64

/-- The strand that a command's effects are charged to and counted for: its own region, even when it has departed (R376,
R402). -/
def CopyCmd.payer (cmd : CopyCmd) (cell : Nat) : Payer := ⟨cell, cmd.part, cmd.rcb, none, cmd.uid⟩

/-- The bytes of a copy perform and are charged, then its completion effects follow (R93). -/
def moveCopy (s : State) (cell ch : Nat) (run : CopyRun) : Act State :=
  let cmd := run.cmd
  let src' := run.piecesOf .src
  let dst' := run.piecesOf .dst
  let flag' := run.piecesOf .flag
  match cmd.op with
  | .copy dst src rows len dim2 _ _ _ _ => do
    let c : CopyShape := ⟨rows, len, dim2⟩
    await (copyPathClear s cell (src' ++ dst' ++ flag'))
    if CopyShape.empty c then finishCopy s cell ch cmd flag'
    else do
      let (bs, s) ← sourceBytes s cell c src cmd.part src'
      let s ← putBytes s cell cmd.part c dst dst' bs
      let p := cmd.payer cell
      let s := touchPieces (touchPieces s p false src') p true dst'
      let rows' := ((spmSide c src ++ spmSide c dst).map fun g => (segRows g).length).sum
      let s := perfFor (chargeFor s p (centiNj (60 * rows'))) p 0x07 (rows * len)
      finishCopy s cell ch cmd flag'
  | _ => .ok s

/-- COPY_COMPLETE: the bytes perform, then the effects (R93). A poisoned source and an answer that is no data are faults of
the channel (R76, R293, R415). -/
def execCopyComplete (cell ch : Nat) (s : State) : Outcome State Fault Refusal :=
  match getChan s cell ch with
  | none => .next s
  | some run =>
    let toWcs := match run.cmd.op with | .copy dst .. => dst.space == .wcs | _ => false
    if !run.started || run.faulted || !flagReady s run.cmd || (toWcs && !noRoutine s cell run.cmd.part) then .next s
    else match moveCopy s cell ch run with
      | .ok s => .next s
      | .error (.trap t) => .next (raiseChan s cell ch run t)
      | .error (.hold h) => .next (startHold s h)
      | .error .stall => .next s

/-- A copy may stop after its first `n` bytes without a destination word that is written in part: where a word ends, or at
the end of a row whose last word the next row does not meet (R24, R106, R285). `unit` is 16 for micro-words, else 8. -/
def cutOk (c : CopyShape) (dst : CopySide) (unit n : Nat) : Bool :=
  let at_ := sideAt c dst n
  at_ % unit == 0 || (n % max 1 c.len == 0 && n != 0 && (sideAt c dst (n - 1)) / unit != at_ / unit)

/-- The most bytes, at most `n`, after which a copy may stop. -/
def wholeCut (ok : Nat → Bool) : Nat → Nat
  | 0 => 0
  | n + 1 => if ok (n + 1) then n + 1 else wholeCut ok n

/-- COPY_CHANNEL_FAULT: an uncorrectable error meets the source after some bytes have performed, whole destination words of
them (R105, R106, R415). The line or row at the place is poisoned. -/
def execCopyChannelFault (cell ch bytes : Nat) (s : State) : Outcome State Fault Refusal :=
  match getChan s cell ch with
  | none => .next s
  | some run =>
    if !run.started || run.faulted then .next s
    else match run.cmd.op with
      | .copy dst src rows len dim2 _ _ _ _ =>
        let c : CopyShape := ⟨rows, len, dim2⟩
        let n := wholeCut (cutOk c dst (if dst.space = .wcs then 16 else 8)) bytes
        if decide (rows * len ≤ bytes) || (dst.space == .wcs && !noRoutine s cell run.cmd.part) then .next s
        else
          let src' := run.piecesOf .src
          match (do
            let (bs, s) ← sourceBytes s cell c src run.cmd.part src'
            putBytes s cell run.cmd.part c dst (run.piecesOf .dst) (bs.take n)) with
          | .error (.trap t) => .next (raiseChan s cell ch run t)
          | .error (.hold h) => .next (startHold s h)
          | .error .stall => .next s
          | .ok s' =>
            let addr := sideAt c src bytes
            let piece := src'.find? fun p => decide (p.va ≤ addr) && decide (addr < p.va + p.len)
            let pa := piece.map fun p => p.x.pa + (addr - p.va)
            let s' := match src.space, piece, pa with
              | .mem, some p, some x =>
                if homeLocal p.home then modHub s' fun h => { h with linePoison := insertNew h.linePoison (x / 128) }
                else s'
              | .mem, _, _ => s'
              | _, _, _ => modCell s' cell fun c => { c with spmPoison := insertNew c.spmPoison (addr / 512) }
            let det := match src.space, piece with
              | .mem, some p => if homeLocal p.home then 2 else 5
              | .mem, none => 2
              | _, _ => 1
            .next (raiseChan s' cell ch { run with bytes := n }
              { cause := .uncorrectable, detail := det, addr := addr, paddr := pa })
      | _ => .next s

/-! ## Abandonment (R106, R107) -/

/-- A copy whose fault is not resumed: no token and no flag, a record with STAT 1, its pins released. -/
def abandonRun (s : State) (cell ch : Nat) : State :=
  match getChan s cell ch with
  | none => s
  | some run =>
    match run.cmd.op with
    | .copy dst src .. =>
      let s := run.pages.foldl (fun s p => dropAnswers s run.cmd.part p.2.va) (setChan s cell ch none)
      let s := dropPin (dropPin s run.cmd.part dst.slot) run.cmd.part src.slot
      giveRecord s run.cmd (copyRecord run.bytes 1 run.cmd.chan run.cmd.tag)
    | _ => setChan s cell ch none

/-- Removes the commands of a strand that have not started and releases their pins. -/
def dropCommands (s : State) (cell uid : Nat) : State :=
  let cmds := (getCell s cell).fifo.filter fun c => c.uid == uid
  let s := cmds.foldl (fun s cmd =>
    match cmd.op with
    | .copy dst src .. => dropPin (dropPin s cmd.part dst.slot) cmd.part src.slot
    | _ => s) s
  modCell s cell fun c => { c with fifo := c.fifo.filter fun x => x.uid != uid }

/-- The channels that carry copies of a strand. -/
def chansOf (s : State) (cell uid : Nat) : List Nat :=
  (List.range 16).filter fun ch => match getChan s cell ch with | some r => r.cmd.uid == uid | none => false

/-- Ends every copy of a strand: unstarted commands are dropped, started copies abandoned (R411). -/
def abandonCopies (s : State) (cell uid : Nat) : State :=
  (chansOf s cell uid).foldl (fun s ch => abandonRun s cell ch) (dropCommands s cell uid)

end Sys2Proof.Machine
end

