-- ==== Sys2Proof/Machine/LoadEngine.lean ====
section
/-! DEFINITION. The load engine (R114 to R128): address registers, descriptors, loads into LQ, slot fills, copy
commands, row-pointer streams and prefetches, with the leaning arm (R121, R122).
-/

namespace Sys2Proof.Machine

open Host (Outcome)

/-! ## Issue at L -/

/-- A word of L. On a leaning arm a word that pops a token waits for the outcome (log entry 28). -/
def issueL (s : State) (tk : Tk) (body : SRef → Strand → State → Act (Strand × State)) : Outcome State Fault Refusal :=
  issueWith s tk fun w st s' => do
    await (!(tk.pbp || tk.pbn) || st.lean.isNone)
    let (st, s') ← body (Walker.ref w) st s'
    .ok (putStrand s' (Walker.ref w) (stepPast s' st .l))

/-- A word of L or S that writes one of its registers. -/
def regWord (s : State) (h : Hdr) (body : Walker → Strand → Act (Strand × Reg × Word)) : Outcome State Fault Refusal :=
  issueWith s h.tk fun w st s' => do
    await (!(h.tk.pbp || h.tk.pbn) || st.lean.isNone || w.eng != .l)
    let (st, r, x) ← body w st
    let st := writeWord s.clock st w.eng h.lat r x
    .ok (putStrand s' (Walker.ref w) (stepPast s' st w.eng))

/-! ## Address registers (R114, R115) -/

def execAadd (h : Hdr) (d a : BitVec 4) (imm : BitVec 27) (s : State) : Outcome State Fault Refusal :=
  regWord s h fun _ st => do
    let x ← readA st 0 a
    .ok (st, .a d, x + imm.signExtend 64)

def execAset (h : Hdr) (d : BitVec 4) (imm : BitVec 27) (s : State) : Outcome State Fault Refusal :=
  regWord s h fun _ st => .ok (st, .a d, imm.signExtend 64)

/-- Bits 53:27 from the immediate, those above zero, those below kept. -/
def setHigh (x : Word) (imm : BitVec 27) : Word := ((imm.setWidth 64) <<< 27) ||| (x &&& 0x7FFFFFF)

def execAsetH (h : Hdr) (d : BitVec 4) (imm : BitVec 27) (s : State) : Outcome State Fault Refusal :=
  regWord s h fun _ st => do
    let x ← readA st 0 d
    .ok (st, .a d, setHigh x imm)

/-- `aset.q` waits for a value, and on a leaning arm for the outcome. -/
def execAsetQ (h : Hdr) (d : BitVec 4) (imm : BitVec 27) (s : State) : Outcome State Fault Refusal :=
  regWord s h fun _ st => do
    await st.lean.isNone
    match st.qL with
    | x :: rest => .ok ({ st with qL := rest }, .a d, x + imm.signExtend 64)
    | [] => stall

/-! ## Descriptors (R116, R117) -/

/-- The bits of a descriptor word that are not reserved. -/
def sdBits (w : Nat) : Word :=
  match w with
  | 0 => 0x003FFFFFFFFFFFFF
  | 1 => 0xFFFFFFFFFFFFFFFF
  | 2 => 0x003FFFFFFFFFFFFF
  | _ => 0xFFFFFFFF00FFFFCF

/-- The value and the mask of a write of descriptor word `w`. -/
def sdPart (w : Nat) (x : Word) : BitVec 4096 × BitVec 4096 :=
  (BitVec.ofNat 4096 ((x &&& sdBits w).toNat * 2 ^ (64 * w)), BitVec.ofNat 4096 ((2 ^ 64 - 1) * 2 ^ (64 * w)))

def execSdset (h : Hdr) (sd : BitVec 4) (w : BitVec 2) (a : BitVec 4) (second : Option (BitVec 4)) (s : State) :
    Outcome State Fault Refusal :=
  issueL s h.tk fun _ st s' => do
    let x ← readA st 0 a
    let (v, m) := sdPart w.toNat x
    match second with
    | none => .ok (writeReg s.clock st .l h.lat.toNat (.sd sd) v m, s')
    | some b => do
      let y ← readA st 1 b
      let (v', m') := sdPart (w.toNat + 1) y
      .ok (writeReg s.clock st .l h.lat.toNat (.sd sd) (v ||| v') (m ||| m'), s')

def sdBase (d : Desc) : Nat := bits d.toNat 53 0
def sdRstr (d : Desc) : Int := sgn (bits d.toNat 127 96) 32
def sdSbase (d : Desc) : Nat := bits d.toNat 181 128
def sdTy (d : Desc) : Nat := bits d.toNat 195 192
def sdBsf (d : Desc) : Nat := bits d.toNat 200 198
def sdDir (d : Desc) : Bool := d.getLsbD 201
def sdRows (d : Desc) : Nat := bits d.toNat 207 202 + 1
def sdCols (d : Desc) : Nat := bits d.toNat 215 208 + 1
def sdSstr (d : Desc) : Int := sgn (bits d.toNat 255 224) 32

/-! ## Loads into LQ (R123 to R126) -/

/-- Pushes entries at the tail of LQ, which holds eight (R111). -/
def pushLq (st : Strand) (l : List LqEntry) : Act Strand := do
  await (decide (st.lq.length + l.length ≤ 8))
  .ok { st with lq := st.lq ++ l }

/-- An entry of scratchpad data, speculative on a leaning arm. -/
def lqOf (st : Strand) (x : Nat) (poison : Bool) : LqEntry :=
  { data := BitVec.ofNat 4096 x, spec := st.lean.isSome, poison := poison }

/-- The rows that a load into LQ or a fill has read: errors first met there are logged, and the accesses charged (R415,
R438). -/
def readRows (s : State) (r : SRef) (st : Strand) (gs : List Seg) : State :=
  chargeRows (noteRows s r st.part .l gs) r gs

/-- The checks and waits of a read of scratchpad runs by L (R109, R120). -/
def readSegs (s : State) (r : SRef) (st : Strand) (gs : List Seg) : Act Unit := do
  checkSegs s r.cell st.part gs
  awaitStores st (getEng st .l).seen (getEng st .l).passed gs

def ea64 (base : Word) (off : BitVec 18) : Word := base + off.signExtend 64

/-- t6 elements of a packed span into 8-bit containers (R157). -/
def unpackT6 (x n : Nat) : Nat := packElems 8 ((List.range n).map fun j => elem x 6 j)

/-- `ldq` loads a row, or unpacks 384 bytes of t6 through a descriptor. -/
def execLdq (tk : Tk) (t6 : Option (BitVec 4)) (base : BitVec 4) (off : BitVec 18) (s : State) :
    Outcome State Fault Refusal :=
  issueL s tk fun r st s' => do
    let a ← readA st 0 base
    match t6 with
    | none => do
      let ea := ea64 a off
      check (ea.toNat % 512 == 0) (alignTrap ea.toNat)
      let g : Seg := ⟨ea.toNat, 512⟩
      readSegs s' r st [g]
      let st ← pushLq st [lqOf st (spmRead s' r.cell g) (spmPoisoned s' r.cell [g])]
      .ok (st, readRows s' r st [g])
    | some sd => do
      let d ← readSd st .l 1 sd
      let ea := ea64 a off + BitVec.ofNat 64 (sdBase d)
      check (sdTy d == 13 && sdBsf d == 0) (opField ea.toNat)
      check (ea.toNat % 8 == 0) (alignTrap ea.toNat)
      let g : Seg := ⟨ea.toNat, 384⟩
      readSegs s' r st [g]
      let st ← pushLq st [lqOf st (unpackT6 (spmRead s' r.cell g) 512) (spmPoisoned s' r.cell [g])]
      .ok (st, readRows s' r st [g])

/-- Alignment and R109 on each element in turn; the first that fails is reported. -/
def checkElems (s : State) (cell part : Nat) (gs : List Seg) : Act Unit :=
  match gs.find? fun g => g.addr % max 1 g.len != 0 || (segFault s cell part g).isSome with
  | none => .ok ()
  | some g =>
    if g.addr % max 1 g.len ≠ 0 then trap (alignTrap g.addr) else checkSegs s cell part [g]

def execLdqs (tk : Tk) (sz : Sz) (sd base : BitVec 4) (off : BitVec 18) (s : State) : Outcome State Fault Refusal :=
  issueL s tk fun r st s' => do
    let a ← readA st 0 base
    let d ← readSd st .l 1 sd
    let e := Sz.bytes sz
    let ea := ea64 a off + BitVec.ofNat 64 (sdBase d)
    let gs := stridedSegs ea d e (512 / e)
    check (sdTy d != 15) (opField ea.toNat)
    checkElems s' r.cell st.part gs
    awaitStores st (getEng st .l).seen (getEng st .l).passed gs
    let st ← pushLq st [lqOf st (packElems (8 * e) (gs.map (spmRead s' r.cell))) (spmPoisoned s' r.cell gs)]
    .ok (st, readRows s' r st gs)

/-- Lane `i` of an index vector, as a 32-bit unsigned index. -/
def ixLane (x : IndexVec) (i : Nat) : Nat := elem x.idx.toNat 32 i

/-- The element runs of an index vector: one for each enabled lane (R124, R129, R132). -/
def laneSegs (x : IndexVec) (ea : Word) (e : Nat) : List (Nat × Seg) :=
  (List.range 128).filterMap fun i =>
    if x.en.getLsbD i then some (i, ⟨offset64 ea (ixLane x i * e : Nat), e⟩) else none

/-- Gathered lanes packed at width `e` bytes, disabled lanes zero. -/
def packLanes (e : Nat) (get : Nat → Nat) (x : IndexVec) : Nat :=
  packElems (8 * e) ((List.range 128).map fun i => if x.en.getLsbD i then get i else 0)

/-- `ldg` pops IQL; on a leaning arm the popped entry is kept until the outcome (R121). -/
def execLdg (tk : Tk) (sz : Sz) (base : BitVec 4) (off : BitVec 18) (s : State) : Outcome State Fault Refusal :=
  issueL s tk fun r st s' => do
    let a ← readA st 0 base
    let e := Sz.bytes sz
    let ea := ea64 a off
    check (ea.toNat % e == 0) (alignTrap ea.toNat)
    match st.iql with
    | [] => stall
    | x :: rest => do
      let lanes := laneSegs x ea e
      let gs := lanes.map (·.2)
      let poisonOf (p : Nat → Bool) : Bool :=
        spmPoisoned s' r.cell ((lanes.filter fun l => p l.1).map (·.2))
      readSegs s' r st gs
      let v := packLanes e (fun i => spmRead s' r.cell ⟨offset64 ea (ixLane x i * e : Nat), e⟩) x
      let st := { st with iql := rest, lean := st.lean.map fun ln => { ln with iql := ln.iql ++ [x] } }
      let st ← pushLq st (if e = 8 then
          [lqOf st (v % 2 ^ 4096) (poisonOf (· < 64)), lqOf st (v / 2 ^ 4096) (poisonOf (64 ≤ ·))]
        else [lqOf st v (poisonOf fun _ => true)])
      .ok (st, readRows s' r st gs)

/-- Elements of a packed record spread by its mask (R126). -/
def expandPacked (mask data e n : Nat) : Nat :=
  let go := (List.range n).foldl (fun (p : Nat × List Nat) i =>
    if bit mask i then (p.1 + 1, elem data (8 * e) p.1 :: p.2) else (p.1, 0 :: p.2)) (0, [])
  packElems (8 * e) go.2.reverse

/-- `ldpk` (R125, R126). -/
def execLdpk (tk : Tk) (sz : Sz) (base : BitVec 4) (off : BitVec 18) (s : State) : Outcome State Fault Refusal :=
  issueL s tk fun r st s' => do
    let a ← readA st 0 base
    let e := Sz.bytes sz
    let n := 512 / e
    let ea := (ea64 a off).toNat
    check (ea % 8 == 0) (alignTrap ea)
    let head : Seg := ⟨ea, 4 + n / 8⟩
    checkSegs s' r.cell st.part [head]
    awaitStores st (getEng st .l).seen (getEng st .l).passed [⟨ea, n / 8 + 4 + n * e⟩]
    let h := spmRead s' r.cell head
    let mask := h / 2 ^ 32
    let len := 4 + n / 8 + popcount mask n * e
    check (h % 2 ^ 32 == len) (opField ea)
    let rest : Seg := ⟨ea + (4 + n / 8), popcount mask n * e⟩
    checkSegs s' r.cell st.part [rest]
    let x := expandPacked mask (spmRead s' r.cell rest) e n
    let st ← pushLq st [lqOf st x (spmPoisoned s' r.cell [head, rest])]
    .ok (st, readRows s' r st [⟨ea, len⟩])

/-- `ldmq`: the access is in flight until it performs; its LQ entry keeps its place (R124). -/
def execLdmq (tk : Tk) (elem : Option Sz) (oc : BitVec 4) (cp : Cp) (aq : Bool) (base : BitVec 4) (off : BitVec 18)
    (s : State) : Outcome State Fault Refusal :=
  issueL s tk fun r st s' => do
    let a ← readA st 0 base
    let ea := ea64 a off
    let n := match elem with | some z => Sz.bytes z | none => 512
    alignedTo ea n
    let (x, s') ← translate s' (dieOf r.cell) (some r.cell) st.part (if elem.isSome then .elemRead else .rowRead) ea
    let dev := pteType x.leaf.pte == .device || pteType x.leaf.pte == .ordered
    await (!(dev && st.lean.isSome))
    let (id, s') := freshId s'
    let acc := { newAccess st .l id 0 .load oc cp x ea n with acq := aq, dest := .lq id }
    let st ← pushLq st [{ data := 0, filled := false, spec := st.lean.isSome, id := id }]
    .ok ({ st with accs := st.accs ++ [acc] }, s')

/-! ## Slot fills (R127, R220 to R222) -/

/-- Element types that an operand slot may hold. -/
def slotTy (n : Nat) : Bool := [0, 1, 6, 7, 8, 9, 12, 13].contains n

/-- Stored width in bits of a slot type (R127, R157). -/
def slotWidth (ty : Nat) : Nat :=
  match ty with
  | 6 | 7 => 4
  | 8 | 9 => 16
  | 13 => 6
  | _ => 8

/-- Elements in a block of a BSF code (R116). -/
def blockLen (bsf : Nat) : Nat := 8 * 2 ^ bsf

/-- The checks of R127 on a descriptor. -/
def descOk (d : Desc) : Bool :=
  let w := slotWidth (sdTy d)
  let c := sdCols d
  let dim := if sdDir d then sdRows d else c
  slotTy (sdTy d) && decide (sdRows d * (c * w / 8) ≤ 8192) && (sdTy d != 13 || c % 4 == 0) &&
    (w != 4 || c % 2 == 0) && decide (sdBsf d ≤ 4) && (sdBsf d == 0 || dim % blockLen (sdBsf d) == 0)

/-- The rows of a fill. -/
def fillRows (d : Desc) (ea : Word) : List Seg :=
  let rb := sdCols d * slotWidth (sdTy d) / 8
  (List.range (sdRows d)).map fun r => ⟨offset64 ea (sdRstr d * r), rb⟩

/-- Blocks along the scaled dimension. -/
def blocksAlong (d : Desc) : Nat := (if sdDir d then sdRows d else sdCols d) / blockLen (sdBsf d)

/-- The exponent bytes of a fill in the order of R127. -/
def fillScales (d : Desc) : List Seg :=
  if sdBsf d = 0 then []
  else
    let nb := blocksAlong d
    let sb : Word := BitVec.ofNat 64 (sdSbase d)
    if sdDir d then
      (List.range (sdCols d)).flatMap fun c => (List.range nb).map fun b => ⟨offset64 sb (sdSstr d * b + c), 1⟩
    else (List.range (sdRows d)).flatMap fun r => (List.range nb).map fun b => ⟨offset64 sb (sdSstr d * r + b), 1⟩

/-- Index of the exponent of element (r, c), the blocks in the order of `fillScales`. -/
def scaleIndex (d : Desc) (r c : Nat) : Nat :=
  if sdDir d then c * blocksAlong d + r / blockLen (sdBsf d) else r * blocksAlong d + c / blockLen (sdBsf d)

/-- The exponent E of element (r, c) of a slot; 0 without a block scale (R158). -/
def slotScale (x : OmSlot) (r c : Nat) : Int :=
  if sdBsf x.desc = 0 then 0 else sgn (Machine.elem x.scale.toNat 8 (scaleIndex x.desc r c)) 8

/-- Element (r, c) of a slot as stored: rows lie one after another. -/
def slotElem (x : OmSlot) (r c : Nat) : Nat :=
  let w := slotWidth (sdTy x.desc)
  x.data.toNat / 2 ^ (8 * (r * (sdCols x.desc * w / 8)) + w * c) % 2 ^ w

/-- Element (r, c) lies in a structural-zero block (R158). -/
def structZero (x : OmSlot) (r c : Nat) : Bool := slotScale x r c == -128

/-- A stored pattern is an infinity, a NaN or NaR. -/
def patNonFinite (ty v : Nat) : Bool :=
  match ty with
  | 8 => v / 2 ^ 10 % 32 == 31
  | 9 => v / 2 ^ 7 % 256 == 255
  | 12 => v == 0x80
  | 13 => v == 0x20
  | _ => false

/-- NF (R221). -/
def slotNf (x : OmSlot) : BitVec 64 :=
  BitVec.ofNat 64 (packElems 1 ((List.range (sdRows x.desc)).map fun r =>
    boolNat ((List.range (sdCols x.desc)).any fun c => patNonFinite (sdTy x.desc) (slotElem x r c) && !structZero x r c)))

/-- An element as TOG counts it: structural zeros as all zero (R222). -/
def togElem (x : OmSlot) (r c : Nat) : Nat := if structZero x r c then 0 else slotElem x r c

/-- TOG (R222). -/
def slotTog (x : OmSlot) : BitVec 8 :=
  let w := slotWidth (sdTy x.desc)
  let t := ((List.range (sdRows x.desc)).map fun r =>
    ((List.range (sdCols x.desc - 1)).map fun c => popcount (togElem x r (c + 1) ^^^ togElem x r c) w).sum).sum
  let p := sdRows x.desc * (sdCols x.desc - 1) * w
  if p = 0 then 0 else BitVec.ofNat 8 (255 * t / p)

/-- Rows packed one after another, each of `n` bytes. -/
def joinRows (s : State) (cell : Nat) (gs : List Seg) : Nat :=
  match gs with
  | [] => 0
  | g :: _ => packElems (8 * g.len) (gs.map (spmRead s cell))

/-- The slot that a fill leaves behind. -/
def filledSlot (s : State) (cell : Nat) (d : Desc) (rows scales : List Seg) : OmSlot :=
  let x : OmSlot :=
    { data := BitVec.ofNat 65536 (joinRows s cell rows), desc := d,
      scale := BitVec.ofNat 8192 (packElems 8 (scales.map (spmRead s cell))),
      poison := spmPoisoned s cell (rows ++ scales) }
  { x with nf := slotNf x, tog := slotTog x }

def getOm (st : Strand) (n : BitVec 5) : OmSlot := st.om.get n.toFin

def putOm (st : Strand) (n : BitVec 5) (x : OmSlot) : Strand := { st with om := st.om.set n.toFin x }

/-- The state that a slot has while a fill runs (R220). On a leaning arm only a claimed slot without a fill takes one, and
the word waits before any other, held or not (R121). -/
def fillState (st : Strand) (n : BitVec 5) (x : OmSlot) : Act OmState :=
  if st.lean.isSome then
    if x.state = .claimed && !(st.fills.any fun f => f.om == n) then .ok .speculative else stall
  else match x.state with
    | .notHeld => trap { cause := .opmState }
    | .filled => .ok .refilling
    | .speculative => stall
    | t => .ok t

/-- `omfill` (R127): 1.5 nJ for each 512 bytes read. -/
def execOmfill (tk : Tk) (d : BitVec 5) (sd base : BitVec 4) (off : BitVec 18) (s : State) :
    Outcome State Fault Refusal :=
  issueL s tk fun r st s' => do
    let a ← readA st 0 base
    let ds ← readSd st .l 1 sd
    let ea := ea64 a off + BitVec.ofNat 64 (sdBase ds)
    check (descOk ds) (opField ea.toNat)
    let rows := fillRows ds ea
    let scales := fillScales ds
    checkSegs s' r.cell st.part (rows ++ scales)
    let x := getOm st d
    let t ← fillState st d x
    await x.phys.isSome
    awaitStores st (getEng st .l).seen (getEng st .l).passed (rows ++ scales)
    let f : Fill := ⟨d, (getEng st .l).passed, filledSlot s' r.cell ds rows scales, st.lean.isSome, false⟩
    let st := { putOm st d { x with state := t } with fills := st.fills ++ [f] }
    let bytes := ((rows ++ scales).map (·.len)).sum
    .ok (st, chargeStrand (readRows s' r st (rows ++ scales)) r (centiNj (150 * ((bytes + 511) / 512))))

/-- OMFILL_COMPLETE (R220): the oldest fill of a name finishes. A dropped fill writes nothing, and the physical slot
that it kept after a release becomes free (R224). -/
def execOmfillComplete (r : SRef) (om : Nat) (s : State) : Outcome State Fault Refusal :=
  match getStrand s r with
  | none => .next s
  | some st =>
    let n := BitVec.ofNat 5 om
    match st.fills.find? (fun f => f.om == n) with
    | none => .next s
    | some f =>
      let st := { st with fills := st.fills.erase f }
      if f.dropped then
        let s := putStrand s r st
        .next (match f.slot.phys with
          | some j => modCell s r.cell fun c => { c with om := c.om.set (Fin.ofNat 32 j) none }
          | none => s)
      else
        let more := st.fills.any fun g => g.om == n && !g.dropped
        .next (putStrand s r (putOm st n
          { f.slot with state := if f.spec then .speculative else if more then .refilling else .filled,
                        phys := (getOm st n).phys }))

/-! ## Copies (R96 to R101) -/

def readGroup (st : Strand) (w : CpyWord) : Act CopyRegs := do
  let r (i : Nat) : BitVec 4 := BitVec.ofNat 4 (4 * w.ga.toNat + i)
  let dst ← readA st 0 (r 0)
  let src ← readA st 1 (r 1)
  let shp ← readA st 2 (r 2)
  let str ← if w.dim2 then readA st 3 (r 3) else .ok 0
  let flag ← match w.flag with | some f => readA st 4 f | none => .ok 0
  .ok ⟨dst, src, shp, str, flag⟩

/-- Keeps a command in the commit buffer of 16 (R121). -/
def holdCmd (st : Strand) (ln : LeanRun) (i : Instr) (regs : List Word) : Act Strand := do
  await (decide (ln.held.length < 16))
  let en := getEng st .l
  .ok { st with lean := some { ln with held := ln.held ++ [⟨i, en.pc, en.passed, regs, en.seen, en.rset⟩] } }

/-- A copy word of L: at once, or held on a leaning arm. -/
def copyWord (s : State) (tk : Tk) (i : Instr) (handles : Bool) (w : CpyWord) : Outcome State Fault Refusal :=
  issueL s tk fun r st s' => do
    let g ← readGroup st w
    match st.lean with
    | some ln => do
      let st ← holdCmd st ln i [g.dst, g.src, g.shp, g.str, g.flag]
      .ok (st, s')
    | none => do
      let en := getEng st .l
      let s' ← issueCopy s' r st en.pc en.passed en.seen en.rset handles w g
      .ok ((getStrand s' r).getD st, s')

def execCpy (tk : Tk) (w : CpyWord) (s : State) : Outcome State Fault Refusal := copyWord s tk (.cpy tk w) false w

def execCpyh (tk : Tk) (w : CpyWord) (s : State) : Outcome State Fault Refusal := copyWord s tk (.cpyh tk w) true w

/-! ## Row-pointer streams (R128) -/

/-- The pointers of a stream. -/
def ptrSegs (ea e n : Nat) : List Seg := (List.range n).map fun j => ⟨ea + e * j, e⟩

/-- Starts a stream over m rows at `ea`: R109 is checked over its whole range, in the order of log entry 77; its reads are
taken now, its entries are pushed one by one. -/
def startRps (s : State) (r : SRef) (st : Strand) (index pos : Nat) (seen : Seen) (dbl toC toM : Bool) (m ea : Word) :
    Act (Strand × State) := do
  let e := if dbl then 8 else 4
  check (ea.toNat % e == 0) (alignTrap ea.toNat)
  let n := m.toNat + 1
  checkSegs s r.cell st.part [⟨ea.toNat, n * e⟩]
  let gs := ptrSegs ea.toNat e n
  await st.rps.isNone
  awaitStores st seen pos gs
  checkRows s r.cell ea.toNat gs
  let ps := gs.map (spmRead s r.cell)
  let run : RpsRun := ⟨index, pos, ea.toNat + e, e, ps.headD 0, if m = 0 then ps.take 1 else ps.drop 1, toC, toM⟩
  .ok ({ st with rps := some run }, chargeRows s r [⟨ea.toNat, n * e⟩])

def execRps (tk : Tk) (toC toM : Bool) (dbl : Bool) (cnt base : BitVec 4) (off : BitVec 18) (s : State) :
    Outcome State Fault Refusal :=
  issueL s tk fun r st s' => do
    let m ← readA st 0 cnt
    let a ← readA st 1 base
    match st.lean with
    | some ln => do
      let st ← holdCmd st ln (.rps tk toC toM dbl cnt base off) [m, ea64 a off]
      .ok (st, s')
    | none => startRps s' r st (getEng st .l).pc (getEng st .l).passed (getEng st .l).seen dbl toC toM m (ea64 a off)

/-- RPS_PUSH: the next difference, or OPFIELD where a pointer falls (R128). -/
def execRpsPush (s : State) : Outcome State Fault Refusal :=
  let r := Walker.ref s.cur
  match getStrand s r with
  | none => .next s
  | some st =>
    match st.rps with
    | none => .next s
    | some run =>
      match run.ptrs with
      | [] => .next (putStrand s r { st with rps := none })
      | p :: rest =>
        if p < run.prev then
          .next (raiseLate (putStrand s r { st with rps := none }) r .l run.index (opField run.place))
        else if 16 ≤ st.rpq.length then .next s
        else
          let x : RpqEntry := ⟨BitVec.ofNat 64 (p - run.prev), rest.isEmpty, run.toC, run.toM⟩
          let next := if rest.isEmpty then none
            else some { run with prev := p, ptrs := rest, place := run.place + run.step }
          .next (putStrand s r { st with rpq := st.rpq ++ [x], rps := next })

/-! ## Prefetch (R108) -/

/-- The lines that a prefetch asks for; none for a translation. -/
def PfForm.lines : PfForm → Nat
  | .xlat => 0 | .line => 1 | .row => 4

/-- `pf` enters the prefetch queue of eight, or is dropped when it is full; it never faults. -/
def execPf (tk : Tk) (f : PfForm) (base : BitVec 4) (off : BitVec 18) (s : State) : Outcome State Fault Refusal :=
  issueL s tk fun r st s' => do
    let q := (getCell s' r.cell).prefetch
    match ← unlessTrap (readA st 0 base) with
    | some a =>
      let p : Prefetch := ⟨r, st.uid, st.part, ea64 a off, PfForm.lines f⟩
      .ok (st, if q.length < 8 then modCell s' r.cell fun c => { c with prefetch := q ++ [p] } else s')
    | none => .ok (st, s')

/-- A prefetch is made: what would fail is dropped, and a page to be pulled starts no pull. On a normal page of tier 00 with
R set its lines are allocated in L2. -/
def runPrefetch (s : State) (p : Prefetch) : State :=
  let cell := p.ref.cell
  if p.lines = 1 && p.ea.toNat % 8 != 0 then s
  else match translate s (dieOf cell) (some cell) p.part .prefetch p.ea with
    | .error _ => s
    | .ok (x, s') =>
      let lines := if p.lines = 4 then (List.range 4).map (· + x.pa / 512 * 4) else [x.pa / 128]
      let pte := x.leaf.pte
      match findUid s' p.uid with
      | some st =>
        if p.lines ≠ 0 && homeOfPte pte == .hbm && pteType pte == .normal && pteR pte then
          touchFor s' ⟨cell, p.part, st.sid.rcb, none, p.uid⟩ .hbm lines true
        else s'
      | none => s'

/-- The prefetches that wait in a cell's queue are made as time passes (R85). -/
def runPrefetches (s : State) : State :=
  s.cells.foldl (fun s c => c.2.prefetch.foldl runPrefetch (modCell s c.1 fun x => { x with prefetch := [] })) s

/-! ## The outcome of a lean (R122) -/

/-- The lean is confirmed: speculative marks clear; held commands and a recorded fault are still to come. -/
def confirmLean (st : Strand) (ln : LeanRun) : Strand :=
  { st with
    lean := some { ln with confirmed := true },
    lq := st.lq.map fun (x : LqEntry) => { x with spec := false },
    fills := st.fills.map fun (f : Fill) => { f with spec := false },
    om := Vector.ofFn fun (i : Fin 32) =>
      let x := st.om.get i
      if x.state = .speculative then
        { x with state := if st.fills.any fun f => f.om.toFin == i && !f.dropped then .claimed else .filled }
      else x }

/-- The lean is undone: everything L did on the arm goes, and L takes the other arm. -/
def undoLean (s : State) (st : Strand) (ln : LeanRun) : Strand :=
  let from_ := ln.saved.passed
  let keep (p : TokPlace) : Bool := !(p.eng == .l && decide (from_ ≤ p.pos))
  let st : Strand := { st with
    lean := none,
    lq := st.lq.filter fun x => !x.spec,
    accs := st.accs.filter fun a => !(a.eng == .l && decide (from_ ≤ a.pos)),
    iql := ln.iql ++ st.iql,
    a := ln.a,
    sd := ln.sd,
    pending := st.pending.filter (fun p => p.eng != .l) ++ ln.pend,
    fills := st.fills.map (fun (f : Fill) => if f.spec then { f with dropped := true } else f),
    om := st.om.map fun (x : OmSlot) => if x.state = .speculative then { x with state := .claimed } else x,
    tok := { st.tok with lm := st.tok.lm.filter keep } }
  brcGo s (putEng st .l { ln.saved with bq := (getEng st .l).bq }) .l (BitVec.ofInt 32 ln.off) (!ln.taken)

/-- Issues the oldest held command as R98 and R128 lay down. -/
def issueHeld (s : State) (r : SRef) (st : Strand) (c : HeldCmd) : Act State :=
  let g := c.regs
  let regs : CopyRegs := ⟨g.getD 0 0, g.getD 1 0, g.getD 2 0, g.getD 3 0, g.getD 4 0⟩
  match c.word with
  | .cpy _ w => issueCopy s r st c.index c.pos c.seen c.rset false w regs
  | .cpyh _ w => issueCopy s r st c.index c.pos c.seen c.rset true w regs
  | .rps _ toC toM dbl _ _ _ => do
    let (st, s) ← startRps s r st c.index c.pos c.seen dbl toC toM (g.getD 0 0) (g.getD 1 0)
    .ok (putStrand s r st)
  | _ => .ok s

/-- BRANCH_OUTCOME: the outcome of L's leaning branch. A confirmed arm then issues its held commands one by one, and
last raises a recorded fault. -/
def execBranchOutcome (s : State) : Outcome State Fault Refusal :=
  let r := Walker.ref s.cur
  match getStrand s r with
  | none => .next s
  | some st =>
    match st.lean with
    | none => .next s
    | some ln =>
      if !ln.confirmed then
        match (getEng st .l).bq with
        | .taken t :: rest =>
          let st := modEng st .l fun en => { en with bq := rest }
          if t = ln.taken then .next (putStrand s r (confirmLean st ln))
          else .next (putStrand s r (undoLean s st ln))
        | _ => .next s
      else match ln.held with
        | c :: rest =>
          let st' := { st with lean := some { ln with held := rest } }
          (match issueHeld (putStrand s r st') r st' c with
           | .ok s' => .next s'
           | .error (.hold h) => .next (startHold s h)
           | .error .stall => .next s
           | .error (.trap t) => .next (raiseLate (putStrand s r { st with lean := none }) r .l c.index t))
        | [] =>
          let s := putStrand s r { st with lean := none }
          (match ln.fault with
           | some q => .next (raiseAt s r q)
           | none => .next s)

end Sys2Proof.Machine
end

