-- ==== Sys2Proof/Machine/StoreEngine.lean ====
section
/-! DEFINITION. The store engine (R114 to R120, R129 to R133): the address stage of its words, and what its data stage
does with each. `bput` rows on their way and their refusals.
-/

namespace Sys2Proof.Machine

open Host (Outcome)

/-! ## The address stage (R118, R119) -/

/-- An entry for the word at S's program counter that enters no range. -/
def blankEntry (st : Strand) (i : Instr) : SEntry :=
  let en := getEng st .s
  ⟨i, en.pc, en.passed, false, false, 0, 0, 0, 0, 0, 0, 0, en.rset, en.lmode, en.seen, 3, false⟩

/-- Leaves an entry for the data stage, which lags by at most 64. -/
def enterStore (st : Strand) (x : SEntry) : Act Strand := do
  await (decide (st.stores.length < 64))
  .ok { st with stores := st.stores ++ [x] }

def tkPops (tk : Tk) : Bool := tk.pbp || tk.pbn
def tkPushes (tk : Tk) : Bool := tk.pap || tk.pan

/-- A storing word of S: it never waits for its tokens at the address stage. -/
def issueStore (s : State) (body : SRef → Strand → State → Act (SEntry × State)) : Outcome State Fault Refusal :=
  issueWith s Tk.none fun w st s' => do
    let (x, s') ← body (Walker.ref w) st s'
    let st ← enterStore st x
    .ok (putStrand s' (Walker.ref w) (stepPast s' st .s))

/-- A word of S that writes one of its registers. Token bits wait for the data stage. -/
def regWordS (s : State) (h : Hdr) (i : Instr) (body : Strand → Act (Strand × Reg × Word)) :
    Outcome State Fault Refusal :=
  issueWith s Tk.none fun w st s' => do
    let (st, r, x) ← body st
    let st ← if tkPops h.tk || tkPushes h.tk then enterStore st (blankEntry st i) else .ok st
    let st := writeWord s.clock st .s h.lat r x
    .ok (putStrand s' (Walker.ref w) (stepPast s' st .s))

def execBadd (h : Hdr) (d a : BitVec 4) (imm : BitVec 27) (s : State) : Outcome State Fault Refusal :=
  regWordS s h (.badd h d a imm) fun st => do
    let x ← readB st 0 a
    .ok (st, .b d, x + imm.signExtend 64)

def execBset (h : Hdr) (d : BitVec 4) (imm : BitVec 27) (s : State) : Outcome State Fault Refusal :=
  regWordS s h (.bset h d imm) fun st => .ok (st, .b d, imm.signExtend 64)

def execBsetH (h : Hdr) (d : BitVec 4) (imm : BitVec 27) (s : State) : Outcome State Fault Refusal :=
  regWordS s h (.bsetH h d imm) fun st => do
    let x ← readB st 0 d
    .ok (st, .b d, setHigh x imm)

def execBsetQ (h : Hdr) (d : BitVec 4) (imm : BitVec 27) (s : State) : Outcome State Fault Refusal :=
  regWordS s h (.bsetQ h d imm) fun st =>
    match st.qS with
    | x :: rest => .ok ({ st with qS := rest }, .b d, x + imm.signExtend 64)
    | [] => stall

/-- The base address of a word of S. -/
def eaS (st : Strand) (base : BitVec 4) (off : BitVec 18) : Act Word := do
  let b ← readB st 0 base
  .ok (ea64 b off)

/-- A scratchpad range in the table. -/
def spmEntry (x : SEntry) (ea : Word) (lo n : Nat) : SEntry :=
  { x with entered := true, lo := lo, hi := lo + n, ea := ea }

def execStq (tk : Tk) (t6 : Option (BitVec 4)) (base : BitVec 4) (off : BitVec 18) (s : State) :
    Outcome State Fault Refusal :=
  issueStore s fun r st s' => do
    let b ← eaS st base off
    let x := blankEntry st (.stq tk t6 base off)
    match t6 with
    | none => do
      check (b.toNat % 512 == 0) (alignTrap b.toNat)
      checkSegs s' r.cell st.part [⟨b.toNat, 512⟩]
      .ok (spmEntry x b b.toNat 512, s')
    | some sd => do
      let d ← readSd st .s 1 sd
      let ea := b + BitVec.ofNat 64 (sdBase d)
      check (sdTy d == 13 && sdBsf d == 0) (opField ea.toNat)
      check (ea.toNat % 8 == 0) (alignTrap ea.toNat)
      checkSegs s' r.cell st.part [⟨ea.toNat, 384⟩]
      .ok (spmEntry x ea ea.toNat 384, s')

/-- The descriptor's words are captured for the data stage. -/
def execStqs (tk : Tk) (sz : Sz) (sd base : BitVec 4) (off : BitVec 18) (s : State) : Outcome State Fault Refusal :=
  issueStore s fun r st s' => do
    let b ← eaS st base off
    let d ← readSd st .s 1 sd
    let ea := b + BitVec.ofNat 64 (sdBase d)
    check (sdTy d != 15) (opField ea.toNat)
    checkElems s' r.cell st.part (stridedSegs ea d (Sz.bytes sz) (512 / Sz.bytes sz))
    .ok ({ spmEntry (blankEntry st (.stqs tk sz sd base off)) ea 0 spmSize with desc := d }, s')

/-- `sts` and `stsa` enter the whole scratchpad. -/
def scatterEntry (s : State) (i : Instr) (e : Nat) (base : BitVec 4) (off : BitVec 18) : Outcome State Fault Refusal :=
  issueStore s fun _ st s' => do
    let ea ← eaS st base off
    check (ea.toNat % e == 0) (alignTrap ea.toNat)
    .ok (spmEntry (blankEntry st i) ea 0 spmSize, s')

/-- Bytes of a scatter-add type (R130). -/
def AddTy.bytes : AddTy → Nat
  | .i64 => 8
  | _ => 4

def execSts (tk : Tk) (sz : Sz) (base : BitVec 4) (off : BitVec 18) (s : State) : Outcome State Fault Refusal :=
  scatterEntry s (.sts tk sz base off) (Sz.bytes sz) base off

def execStsa (tk : Tk) (ty : AddTy) (base : BitVec 4) (off : BitVec 18) (s : State) : Outcome State Fault Refusal :=
  scatterEntry s (.stsa tk ty base off) (AddTy.bytes ty) base off

def execStpk (tk : Tk) (sz : Sz) (reserve : BitVec 7) (base : BitVec 4) (off : BitVec 18) (s : State) :
    Outcome State Fault Refusal :=
  issueStore s fun r st s' => do
    let ea ← eaS st base off
    check (ea.toNat % 8 == 0) (alignTrap ea.toNat)
    checkSegs s' r.cell st.part [⟨ea.toNat, 8 * reserve.toNat⟩]
    .ok (spmEntry (blankEntry st (.stpk tk sz reserve base off)) ea ea.toNat (8 * reserve.toNat), s')

/-- A row or element store: translated at the address stage (R118, R132). -/
def execStmq (tk : Tk) (elem : Option Sz) (oc : BitVec 4) (cp : Cp) (rl : Bool) (base : BitVec 4) (off : BitVec 18)
    (s : State) : Outcome State Fault Refusal :=
  issueStore s fun r st s' => do
    let ea ← eaS st base off
    let n := match elem with | some z => Sz.bytes z | none => 512
    alignedTo ea n
    let (x, s') ← translate s' (dieOf r.cell) (some r.cell) st.part (if elem.isSome then .elemWrite else .rowWrite) ea
    .ok ({ blankEntry st (.stmq tk elem oc cp rl base off) with
             entered := true, mem := true, lo := x.pa, hi := x.pa + n, ea := ea, paddr := x.pa,
             tgt := x.leaf.pte.toNat, cls := oc, level := x.leaf.level }, s')

/-- The scatter forms enter the whole of memory. -/
def memScatter (s : State) (i : Instr) (oc : BitVec 4) (base : BitVec 4) (off : BitVec 18) :
    Outcome State Fault Refusal :=
  issueStore s fun _ st s' => do
    let ea ← eaS st base off
    .ok ({ blankEntry st i with entered := true, mem := true, lo := 0, hi := 2 ^ 64, ea := ea, cls := oc }, s')

def execStmqSc (tk : Tk) (dbl : Bool) (oc : BitVec 4) (cp : Cp) (rl : Bool) (base : BitVec 4) (off : BitVec 18)
    (s : State) : Outcome State Fault Refusal :=
  memScatter s (.stmqSc tk dbl oc cp rl base off) oc base off

def execStmqAdd (tk : Tk) (ty : AddTy) (oc : BitVec 4) (cp : Cp) (rl : Bool) (base : BitVec 4) (off : BitVec 18)
    (s : State) : Outcome State Fault Refusal :=
  memScatter s (.stmqAdd tk ty oc cp rl base off) oc base off

/-- `bput` in a gang only, which is tested first; the target is checked at the address stage (R133; log entry 33). -/
def execBput (tk : Tk) (base : BitVec 4) (off : BitVec 18) (s : State) : Outcome State Fault Refusal :=
  issueStore s fun _ st s' => do
    check st.sid.cores { cause := .queueProto }
    let t ← eaS st base off
    let cell := wbits t 39 32
    check (decide (t.toNat < 2 ^ 40) && wbits t 31 21 == 0 && decide (cell < Config.cells) &&
      !(getCell s' cell).fenced) (opField t.toNat)
    check (t.toNat % 512 == 0) (alignTrap t.toNat)
    .ok ({ blankEntry st (.bput tk base off) with ea := t }, s')

/-! ## What the data stage takes from the queues -/

/-- The first `n` SQ entries, and the strand without them. -/
def takeSq (st : Strand) (n : Nat) : Act (List SqEntry × Strand) := do
  await (decide (n ≤ st.sq.length))
  let l := st.sq.take n
  check (!(l.any (·.poison))) { cause := .poison, detail := 1, unit := (l.findIdx? (·.poison)).map fun i => .sq st.uid i }
  .ok (st.sq.take n, { st with sq := st.sq.drop n })

/-- The head of IQS, left there. -/
def headIqs (st : Strand) : Act IndexVec :=
  match st.iqs with
  | x :: _ => .ok x
  | [] => stall

def takeIqs (st : Strand) : Act (IndexVec × Strand) := do
  let x ← headIqs st
  .ok (x, { st with iqs := st.iqs.drop 1 })

/-- Entries as one word, the first lowest. -/
def sqNat : List SqEntry → Nat
  | [] => 0
  | x :: xs => x.data.toNat + 2 ^ 4096 * sqNat xs

/-- The index vector and the data of 128 lanes of `e` bytes. -/
def takeLanes (st : Strand) (e : Nat) : Act (IndexVec × Nat × Strand) := do
  let (x, st) ← takeIqs st
  let (d, st) ← takeSq st (if e = 8 then 2 else 1)
  .ok (x, sqNat d, st)

/-- The lanes that fail R109, in ascending order of address; alignment is that of the base (R359). -/
def checkLanes (s : State) (cell part : Nat) (gs : List Seg) : Act Unit :=
  match gs.filter fun g => (segFault s cell part g).isSome with
  | [] => .ok ()
  | g :: rest => checkSegs s cell part [rest.foldl (fun b x => if x.addr < b.addr then x else b) g]

/-- Writes lanes in ascending order, so that the higher lane is left. -/
def writeLanes (s : State) (cell e : Nat) (data : Nat) (l : List (Nat × Seg)) : State :=
  l.foldl (fun s (p : Nat × Seg) => spmWrite s cell p.2 (elem data (8 * e) p.1)) s

/-- Adds lanes into scratchpad elements in ascending order (R130). -/
def addLanes (s : State) (cell : Nat) (ty : AddTy) (data : Nat) (l : List (Nat × Seg)) : State :=
  l.foldl (fun s (p : Nat × Seg) =>
    spmWrite s cell p.2 (addElem ty (spmRead s cell p.2) (elem data (8 * AddTy.bytes ty) p.1))) s

/-- The lowest index that two enabled lanes hold (R130). -/
def repeatedIndex (x : IndexVec) : Option Nat :=
  let l := (List.range 128).filterMap fun i => if x.en.getLsbD i then some (ixLane x i) else none
  match l.filter fun v => decide (1 < l.count v) with
  | [] => none
  | v :: vs => some (vs.foldl min v)

/-- t6 elements of a row packed into 384 bytes; bits 7:6 of each byte are zero (R129). -/
def packT6 (ea : Word) (x : Nat) : Act Nat := do
  check ((List.range 512).all fun j => elem x 8 j / 64 == 0) (opField ea.toNat)
  .ok (packElems 6 ((List.range 512).map fun j => elem x 8 j))

/-- An access of a memory store at its data stage, with the place and modes of its word. -/
def storeAccess (st : Strand) (x : SEntry) (id lane : Nat) (k : AccKind) (cp : Cp) (rl : Bool) (xl : Xlat) (va : Word)
    (n v : Nat) : Access :=
  { newAccess st .s id lane k x.cls cp xl va n with
      pos := x.pos, index := x.index, seen := x.seen, rset := x.rset, rel := rl, data := BitVec.ofNat 4096 v }

/-- Every enabled lane is translated before any performs (R132). -/
def memLanes (r : SRef) (st : Strand) (x : SEntry) (k : AccKind) (u : Use) (cp : Cp) (rl : Bool) (op : Option AccOp)
    (e data : Nat) : List (Nat × Seg) → State → Act (List Access × State)
  | [], s => .ok ([], s)
  | p :: rest, s => do
    let va : Word := BitVec.ofNat 64 p.2.addr
    alignedTo va e
    let (xl, s) ← translate s (dieOf r.cell) (some r.cell) st.part u va
    let (id, s) := freshId s
    let a := { storeAccess st x id p.1 k cp rl xl va e (elem data (8 * e) p.1) with op := op }
    let (l, s) ← memLanes r st x k u cp rl op e data rest s
    .ok (a :: l, s)

/-- Scratchpad reads of L before the word have been taken (R110). -/
def readsPast (st : Strand) (x : SEntry) : Bool := !inMask st .l || decide (x.seen.r ≤ surePassed st .l)

/-- The scratchpad writes of a word: `gs` are the runs it touches. -/
def spmStore (s : State) (r : SRef) (st : Strand) (x : SEntry) (gs : List Seg) (f : State → State) : Act State := do
  await (readsPast st x)
  .ok (chargeRows (f (putStrand s r st)) r gs)

/-- The accesses of a memory store leave the data stage. Its entry stays in the table until all of them have performed
(R119). -/
def sendStores (st : Strand) (x : SEntry) (l : List Access) : Strand :=
  { st with accs := st.accs ++ l, stores := if l.isEmpty then st.stores else { x with sent := true } :: st.stores }

/-- The data stage of a word other than a bound one: the strand has lost the word's entry and popped its tokens. -/
def storeData (s : State) (r : SRef) (st : Strand) (x : SEntry) : Act State :=
  match x.word with
  | .stq _ none _ _ => do
    let (d, st) ← takeSq st 1
    let g : Seg := ⟨x.lo, 512⟩
    spmStore s r st x [g] fun s => spmWrite s r.cell g (sqNat d)
  | .stq _ (some _) _ _ => do
    let (d, st) ← takeSq st 1
    let v ← packT6 x.ea (sqNat d)
    let g : Seg := ⟨x.lo, 384⟩
    spmStore s r st x [g] fun s => spmWrite s r.cell g v
  | .stqs _ sz _ _ _ => do
    let (d, st) ← takeSq st 1
    let e := Sz.bytes sz
    let gs := stridedSegs x.ea x.desc e (512 / e)
    spmStore s r st x gs fun s => writeLanes s r.cell e (sqNat d) ((List.range (512 / e)).zip gs)
  | .sts _ sz _ _ => do
    let e := Sz.bytes sz
    let (ix, d, st) ← takeLanes st e
    let l := laneSegs ix x.ea e
    checkLanes s r.cell st.part (l.map (·.2))
    spmStore s r st x (l.map (·.2)) fun s => writeLanes s r.cell e d l
  | .stsa _ ty _ _ => do
    let e := AddTy.bytes ty
    -- the indices are compared before SQ is touched (R130, R348)
    let head ← headIqs st
    (match repeatedIndex head with
     | some v => trap { cause := .spmDup, addr := offset64 x.ea (v * e : Nat) }
     | none => .ok ())
    let (ix, d, st) ← takeLanes st e
    let l := laneSegs ix x.ea e
    checkLanes s r.cell st.part (l.map (·.2))
    checkRows s r.cell x.ea.toNat (l.map (·.2))
    spmStore s r st x (l.map (·.2)) fun s => addLanes s r.cell ty d l
  | .stpk _ sz reserve _ _ => do
    let (d, st) ← takeSq st 2
    let e := Sz.bytes sz
    let n := 512 / e
    let mask := (d.headD { data := 0 }).data.toNat % 2 ^ n
    let k := popcount mask n
    let len := 4 + n / 8 + k * e
    check (decide (len ≤ 8 * reserve.toNat)) { cause := .packOverrun, addr := x.ea.toNat }
    let g : Seg := ⟨x.lo, len⟩
    let v := len + 2 ^ 32 * (mask + 2 ^ n * (sqNat (d.drop 1) % 2 ^ (8 * k * e)))
    spmStore s r st x [g] fun s => spmWrite s r.cell g v
  | .stmq _ elem _ cp rl _ _ => do
    let (d, st) ← takeSq st 1
    let n := match elem with | some z => Sz.bytes z | none => 512
    let pte : BitVec 128 := BitVec.ofNat 128 x.tgt
    let (id, s) := freshId s
    let a := storeAccess st x id 0 .store cp rl ⟨⟨st.part, 0, x.level, 0, pte⟩, x.paddr⟩ x.ea n (sqNat d % 2 ^ (8 * n))
    .ok (putStrand s r (sendStores st x [a]))
  | .stmqSc _ dbl _ cp rl _ _ => do
    let e := if dbl then 8 else 4
    let (ix, d, st) ← takeLanes st e
    let (l, s) ← memLanes r st x .store .rowWrite cp rl none e d (laneSegs ix x.ea e) s
    .ok (putStrand s r (sendStores st x l))
  | .stmqAdd _ ty _ cp rl _ _ => do
    let e := AddTy.bytes ty
    let (ix, d, st) ← takeLanes st e
    let (l, s) ← memLanes r st x .atomic .addWrite cp rl (some (.addElem ty)) e d (laneSegs ix x.ea e) s
    .ok (putStrand s r (sendStores st x l))
  | .bput _ _ _ => do
    let (d, st) ← takeSq st 1
    let b : Bput := ⟨st.uid, st.sid.launch, st.part, x.index, r.cell, wbits x.ea 39 32, wbits x.ea 20 0,
      BitVec.ofNat 4096 (sqNat d), x.ea, false⟩
    .ok (chargeStrand (modHub (putStrand s r st) fun h => { h with bputs := h.bputs ++ [b] }) r (centiNj 60))
  | _ => .ok (putStrand s r st)

/-! ## `bput` rows (R133) -/

/-- A row arrives at its target cell: it is written, or refused with an entry in the log of the target's die. -/
def execBputRowArrive (k : Nat) (s : State) : Outcome State Fault Refusal :=
  match s.hub.bputs[k]? with
  | none => .next s
  | some b =>
    if b.refused then .next s
    else if (getCell s b.cell).banks.get (Fin.ofNat 32 (b.off / 65536)) == some b.part then
      .next (spmWrite (modHub s fun h => { h with bputs := h.bputs.eraseIdx k }) b.cell ⟨b.off, 512⟩ b.row.toNat)
    else
      let s := modHub s fun h => { h with bputs := h.bputs.set k { b with refused := true } }
      .next (addLog s (dieOf b.cell)
        (logEntry s (Cause.code .foreign) 0 b.part b.from_ (Eng.code .s) b.addr.toNat none []))

/-- The error response reaches the issuer: FOREIGN at S and the `bput` word. A strand that has ended takes none. -/
def execBputErrorResponse (k : Nat) (s : State) : Outcome State Fault Refusal :=
  match s.hub.bputs[k]? with
  | none => .next s
  | some b =>
    if !b.refused then .next s
    else
      let s := modHub s fun h => { h with bputs := h.bputs.eraseIdx k }
      match findUid s b.uid with
      | none => .next s
      | some st =>
        let q : QFault := ⟨foreignTrap b.addr.toNat, Eng.code .s, b.index, st.overlay.toNat, none, none, s.clock⟩
        match strandByUid s b.uid with
        | some (r, _) => .next (queueFault s r q)
        | none => .next (modByUid s b.uid fun st => { st with frozen := true, faults := addFault st.faults q })

end Sys2Proof.Machine
end

