-- ==== Sys2Proof/Machine/Operands.lean ====
section
/-! DEFINITION. The operand forms of V words (R39, R167 to R173, R190): register groups with rotation, LQ heads, masks,
elements and their interleave, destinations in registers, SQ and VCQ, and the modes of a word (R31, R32, R145).
-/

namespace Sys2Proof.Machine

open Host (Outcome)

/-! ## Sources -/

/-- The physical register that a field names: inside a kernel `v32` to `v63` rotate (R170). -/
def rotV (st : Strand) (n : BitVec 6) : BitVec 6 :=
  let en := getEng st .v
  if en.ploop.isSome && decide (32 ≤ n.toNat) then
    BitVec.ofNat 6 (32 + (n.toNat - 32 + en.rrb.toNat) % 32)
  else n

/-- Register `k` after the one that a field names. -/
def groupV (st : Strand) (n : BitVec 6) (k : Nat) : BitVec 6 := rotV st (n + BitVec.ofNat 6 k)

/-- A group of registers. -/
def readGroupV (st : Strand) (salt : Nat) (n : BitVec 6) : Nat → Act (List Nat)
  | 0 => .ok []
  | k + 1 => do
    let l ← readGroupV st salt n k
    let x ← readReg st .v (salt + k) (.v (groupV st n k))
    .ok (l ++ [x.toNat])

/-- The first `k` entries of LQ. A word waits for entries, for data in flight and for the outcome of a lean; a poisoned
entry raises POISON (R39, R113, R121). -/
def headLq (st : Strand) (k : Nat) : Act (List Nat) := do
  let l := st.lq.take k
  await (decide (l.length = k) && l.all fun x => x.filled && !x.spec)
  check (!(l.any (·.poison))) { cause := .poison, detail := 1, unit := (l.findIdx? (·.poison)).map fun i => .lq st.uid i }
  .ok (l.map (·.data.toNat))

/-- A source of `k` registers or entries, with the strand after its pops. -/
def readSrc (st : Strand) (salt k : Nat) : VSrc → Act (List Nat × Strand)
  | .v n => do
    let l ← readGroupV st salt n k
    .ok (l, st)
  | .lq => do
    let l ← headLq st k
    .ok (l, { st with lq := st.lq.drop k })
  | .lqKeep => do
    let l ← headLq st k
    .ok (l, st)
  | .vz => .ok (List.replicate k 0, st)

/-! ## Elements -/

/-- The elements of a register, or of a pair for fp64 (R141, R168). -/
def elemsOf (t : Ty) (regs : List Nat) : List Nat :=
  match t with
  | .f64 =>
    let lo := regs.getD 0 0
    let hi := regs.getD 1 0
    (List.range 128).map fun i => elem lo 32 i + 2 ^ 32 * elem hi 32 i
  | t => let x := regs.getD 0 0; (List.range t.count).map fun i => elem x t.width i

/-- The registers that hold elements. -/
def regsOf (t : Ty) (l : List Nat) : List Nat :=
  match t with
  | .f64 => [packElems 32 l, packElems 32 (l.map (· / 2 ^ 32))]
  | t => [packElems t.width l]

/-- Elements of a group of `k` registers, interleaved (R169). -/
def elemsOfGroup (w k n : Nat) (regs : List Nat) : List Nat :=
  (List.range n).map fun i => elem (regs.getD (i % k) 0) w (i / k)

/-- The group of `k` registers of width `w` that holds elements, interleaved. -/
def groupOf (w k : Nat) (l : List Nat) : List Nat :=
  (List.range k).map fun j => packElems w ((l.zipIdx.filter fun p => p.2 % k == j).map (·.1))

/-- The bits of enabled elements in each register of a type. -/
def maskRegs (t : Ty) (en : Nat) : List Nat :=
  regsOf t ((List.range t.count).map fun i => if bit en i then 2 ^ t.width - 1 else 0)

def maskGroup (w k n en : Nat) : List Nat :=
  groupOf w k ((List.range n).map fun i => if bit en i then 2 ^ w - 1 else 0)

/-- The elements of each source, read in order (R39). -/
def readSrcs (t : Ty) (st : Strand) (salt : Nat) : List VSrc → Act (List (List Nat) × Strand)
  | [] => .ok ([], st)
  | x :: xs => do
    let (r, st) ← readSrc st salt t.regs x
    let (rs, st) ← readSrcs t st (salt + 2) xs
    .ok (elemsOf t r :: rs, st)

/-! ## Lanes and modes -/

/-- The lanes that a V word enables (R172), as bits. -/
def lanesOf (st : Strand) (m : Mk) : Act Nat :=
  match m with
  | .all => .ok (2 ^ 1024 - 1)
  | .em => do
    let e ← readReg st .v 8 .em
    .ok e.toNat
  | .emCm => do
    let e ← readReg st .v 8 .em
    let c ← readReg st .v 9 .cm
    .ok (e.toNat &&& c.toNat)
  | .emNotCm => do
    let e ← readReg st .v 8 .em
    let c ← readReg st .v 9 .cm
    .ok (e.toNat &&& (2 ^ 1024 - 1 - c.toNat % 2 ^ 1024))

/-- The mode code of R145. -/
def modeOfCode (n : Nat) : RMode :=
  match n % 4 with
  | 0 => .ne | 1 => .rz | 2 => .rd | _ => .ru

/-- The rounding mode of an engine's word (R145). -/
def rmodeOf (st : Strand) (e : Eng) : Rm → RMode
  | .lmode => modeOfCode ((getEng st e).lmode.toNat / 4)
  | .rz => .rz | .rd => .rd | .ru => .ru

/-- LMODE flushes subnormals: unless its bits 0 and 1 are both set. -/
def flushMode (v : BitVec 4) : Bool := !(v.getLsbD 0 && v.getLsbD 1)

/-- Subnormals are flushed in exposed mode and where LMODE bit 1 is clear (R31, R32). -/
def flushes (st : Strand) (e : Eng) : Bool := flushMode (getEng st e).lmode

/-- Some enabled t6 container has bit 7 or 6 set (R157). -/
def badT6 (t : Ty) (en : Nat) (l : List Nat) : Bool :=
  t == .t6 && l.zipIdx.any fun p => bit en p.2 && decide (64 ≤ p.1)

/-! ## Destinations -/

/-- Pushes entries of 512 bytes to SQ, which holds eight (R111). A running predicate keeps the tail (R212). -/
def pushSq (st : Strand) (l : List Nat) : Act Strand := do
  await (decide (st.sq.length + l.length ≤ 8) && st.pred.isNone)
  .ok { st with sq := st.sq ++ l.map fun x => { data := BitVec.ofNat 4096 x } }

def pushVcq (st : Strand) (x : Nat) : Act Strand := do
  await (decide (st.vcq.length < 8))
  .ok { st with vcq := st.vcq ++ [BitVec.ofNat 64 x] }

/-- Results to a group of registers, each with the bits it writes. -/
def writeGroupV (clock : Nat) (st : Strand) (lat : BitVec 4) (n : BitVec 6) : Nat → List (Nat × Nat) → Strand
  | _, [] => st
  | k, (x, m) :: rest =>
    writeGroupV clock
      (writeReg clock st .v lat.toNat (.v (groupV st n k)) (BitVec.ofNat 4096 x) (BitVec.ofNat 4096 m))
      lat n (k + 1) rest

/-- A masked result (R173): a register keeps its other bits, an entry has zero there. -/
def writeDst (clock : Nat) (st : Strand) (lat : BitVec 4) (d : VDst) (regs masks : List Nat) : Act Strand :=
  match d with
  | .v n => do
    await (!((List.range regs.length).any fun k => regOut st (.v (groupV st n k))))
    .ok (writeGroupV clock st lat n 0 (regs.zip masks))
  | .sq => pushSq st ((regs.zip masks).map fun p => p.1 &&& p.2)
  | .vcq => .ok st

/-- A scalar result (R190): an entry for C, or element 0 of a register or pair with zero above. -/
def writeScalar (clock : Nat) (st : Strand) (lat : BitVec 4) (d : VDst) (regs : List Nat) (x : Nat) : Act Strand :=
  match d with
  | .vcq => pushVcq st x
  | .v n => do
    await (!((List.range regs.length).any fun k => regOut st (.v (groupV st n k))))
    .ok (writeGroupV clock st lat n 0 (regs.map fun r => (r, 2 ^ 4096 - 1)))
  | .sq => .ok st

/-- A whole mask register. -/
def writeMask (clock : Nat) (st : Strand) (lat : BitVec 4) (r : Reg) (x : Nat) : Strand :=
  writeReg clock st .v lat.toNat r (BitVec.ofNat 4096 (x % 2 ^ 1024)) (fullMask r)

/-! ## Issue of a V word -/

/-- The charge of a V word (R438): 2.4 nJ for fp64, else `n` hundredths of a nanojoule. -/
def costV (t : Ty) (n : Nat) : Nat := centiNj (if t == .f64 then 240 else n)

/-- A V word of a type, charged 0.8 nJ (2.4 nJ for fp64). -/
def issueV (s : State) (c : VCtl) (body : Strand → Act Strand) : Outcome State Fault Refusal :=
  issueCharged s c.h.tk (costV c.ty 80) fun _ st => body st

/-- Raises the flags of a V word (R150, R151). -/
def flagV (st : Strand) (f : BitVec 6) : Strand := raiseFlags st (getEng st .v).passed f

/-- The sources of each lane, from the elements of each source. -/
def lanesWise (n : Nat) (ops : List (List Nat)) : List (List Nat) :=
  ops.foldr (fun o acc => List.zipWith (· :: ·) o acc) (List.replicate n [])

/-- An element-wise word (R173): `f` gives an enabled lane's result and flags from its sources. -/
def elementwise (s : State) (c : VCtl) (d : VDst) (srcs : List VSrc) (checkT6 : Bool)
    (f : Strand → List Nat → Nat × BitVec 6) : Outcome State Fault Refusal :=
  issueV s c fun st => do
    let (ops, st) ← readSrcs c.ty st 0 srcs
    let en ← lanesOf st c.lanes
    check (!(checkT6 && ops.any (badT6 c.ty en))) (opField 0)
    let res := (lanesWise c.ty.count ops).zipIdx.map fun p => if bit en p.2 then f st p.1 else (0, (0 : BitVec 6))
    let st := flagV st (res.foldl (fun x p => x ||| p.2) 0)
    writeDst s.clock st c.h.lat d (regsOf c.ty (res.map (·.1))) (maskRegs c.ty en)

end Sys2Proof.Machine
end

