-- ==== Sys2Proof/Machine/Vector.lean ====
section
/-! DEFINITION. The vector engine (R176 to R195, R197, R198): arithmetic, logic, conversions, moves, compares, permutes,
reductions, compression, conflicts, index-vector sends and masks.
-/

namespace Sys2Proof.Machine

open Host (Outcome)

/-! ## Integer lanes (R142) -/

/-- The value of an integer element. -/
def intVal (t : Ty) (x : Nat) : Int := if t.isSigned then sgn x t.width else (x % 2 ^ t.width : Nat)

def clampInt (t : Ty) (z : Int) : Int := max t.lo (min t.hi z)

/-- An exact result wrapped, or clamped, to a type. -/
def fitInt (t : Ty) (sat : Bool) (z : Int) : Nat := wrapInt (if sat then clampInt t z else z) t.width

/-! ## Arithmetic (R176, R177) -/

/-- Integer types by one exact operation, the others by an exact value rounded once (R174). -/
def arithLane (c : VCtl) (fi : List Int → Int) (ff : RMode → List FV → FV × BitVec 6) (st : Strand) (l : List Nat) :
    Nat × BitVec 6 :=
  if c.ty.isInt then (fitInt c.ty c.sat (fi (l.map (intVal c.ty))), 0)
  else
    let mode := rmodeOf st .v c.rm
    let flush := flushes st .v
    let (v, f) := ff mode (l.map (decodeV c.ty flush))
    let (r, g) := encodeV c.ty mode flush v
    (r, f ||| g)

def fst2 {α : Type} (d : α) (l : List α) : α × α := (l.getD 0 d, l.getD 1 d)

def fv0 : FV := .num false 0 0

def arith2 (s : State) (c : VCtl) (d : VDst) (a b : VSrc) (fi : Int → Int → Int)
    (ff : RMode → FV → FV → FV × BitVec 6) : Outcome State Fault Refusal :=
  elementwise s c d [a, b] true (arithLane c (fun l => fi (l.getD 0 0) (l.getD 1 0))
    fun m l => ff m (l.getD 0 fv0) (l.getD 1 fv0))

def execVadd (c : VCtl) (d : VDst) (a b : VSrc) (s : State) : Outcome State Fault Refusal :=
  arith2 s c d a b (· + ·) addFV

def execVsub (c : VCtl) (d : VDst) (a b : VSrc) (s : State) : Outcome State Fault Refusal :=
  arith2 s c d a b (· - ·) fun m x y => addFV m x y.neg

def execVmul (c : VCtl) (d : VDst) (a b : VSrc) (s : State) : Outcome State Fault Refusal :=
  arith2 s c d a b (· * ·) fun _ x y => mulFV x y

def arith3 (s : State) (c : VCtl) (d : VDst) (a b x : VSrc) (sub : Bool) : Outcome State Fault Refusal :=
  elementwise s c d [a, b, x] true (arithLane c
    (fun l => if sub then l.getD 0 0 * l.getD 1 0 - l.getD 2 0 else l.getD 0 0 * l.getD 1 0 + l.getD 2 0)
    fun m l =>
      let z := l.getD 2 fv0
      fmaFV m (l.getD 0 fv0) (l.getD 1 fv0) (if sub then z.neg else z))

def execVfma (c : VCtl) (d : VDst) (a b x : VSrc) (s : State) : Outcome State Fault Refusal :=
  arith3 s c d a b x false

def execVfms (c : VCtl) (d : VDst) (a b x : VSrc) (s : State) : Outcome State Fault Refusal :=
  arith3 s c d a b x true

def execVmin (c : VCtl) (d : VDst) (a b : VSrc) (s : State) : Outcome State Fault Refusal :=
  arith2 s c d a b min fun _ => minFV false

def execVmax (c : VCtl) (d : VDst) (a b : VSrc) (s : State) : Outcome State Fault Refusal :=
  arith2 s c d a b max fun _ => minFV true

/-- The sign of an IEEE element: `neg` inverts it, otherwise it is cleared. A NaN gives the canonical NaN. -/
def signF (f : Fmt) (flush neg : Bool) (x : Nat) : Nat × BitVec 6 :=
  let w := fmtWidth f
  match decodeF f flush x with
  | .nan sig => (fNan f, if sig then flagNV else 0)
  | v =>
    let x := (match v with | .num n 0 _ => fZero f n | _ => x % 2 ^ w)
    (if neg then x ^^^ 2 ^ (w - 1) else x % 2 ^ (w - 1), 0)

/-- The sign of a tapered code: NaR, and for `neg` zero, stay. -/
def signT (t : Ty) (neg : Bool) (x : Nat) : Nat :=
  let n := (taperOf t).1
  let x := x % 2 ^ (n + 1)
  if x = 2 ^ n then x else if neg then (if x = 0 then 0 else x ^^^ 2 ^ n) else x % 2 ^ n

def signLane (c : VCtl) (neg : Bool) (st : Strand) (l : List Nat) : Nat × BitVec 6 :=
  let x := l.getD 0 0
  if c.ty.isInt then
    let z := intVal c.ty x
    (fitInt c.ty c.sat (if neg then -z else (z.natAbs : Int)), 0)
  else if c.ty.isT then (signT c.ty neg x, 0)
  else signF (fmtOf c.ty) (flushes st .v) neg x

def execVabs (c : VCtl) (d : VDst) (a : VSrc) (s : State) : Outcome State Fault Refusal :=
  elementwise s c d [a] true (signLane c false)

def execVneg (c : VCtl) (d : VDst) (a : VSrc) (s : State) : Outcome State Fault Refusal :=
  elementwise s c d [a] true (signLane c true)

/-- Integer lanes with an exact operation and a stated fit. -/
def intWord (s : State) (c : VCtl) (d : VDst) (a b : VSrc) (f : Int → Int → Nat) : Outcome State Fault Refusal :=
  elementwise s c d [a, b] false fun _ l => (f (intVal c.ty (l.getD 0 0)) (intVal c.ty (l.getD 1 0)), 0)

def execVadds (c : VCtl) (d : VDst) (a b : VSrc) (s : State) : Outcome State Fault Refusal :=
  intWord s c d a b fun x y => fitInt c.ty true (x + y)

def execVsubs (c : VCtl) (d : VDst) (a b : VSrc) (s : State) : Outcome State Fault Refusal :=
  intWord s c d a b fun x y => fitInt c.ty true (x - y)

def execVmulh (c : VCtl) (d : VDst) (a b : VSrc) (s : State) : Outcome State Fault Refusal :=
  intWord s c d a b fun x y => wrapInt (x * y / (2 ^ c.ty.width : Nat)) c.ty.width

/-! ## Logic and shifts (R178) -/

def bitWord (s : State) (c : VCtl) (d : VDst) (a b : VSrc) (f : Nat → Nat → Nat) : Outcome State Fault Refusal :=
  elementwise s c d [a, b] false fun _ l => (f (l.getD 0 0) (l.getD 1 0), 0)

def execVand (c : VCtl) (d : VDst) (a b : VSrc) (s : State) : Outcome State Fault Refusal :=
  bitWord s c d a b (· &&& ·)

def execVor (c : VCtl) (d : VDst) (a b : VSrc) (s : State) : Outcome State Fault Refusal :=
  bitWord s c d a b (· ||| ·)

def execVxor (c : VCtl) (d : VDst) (a b : VSrc) (s : State) : Outcome State Fault Refusal :=
  bitWord s c d a b (· ^^^ ·)

def execVshl (c : VCtl) (d : VDst) (a b : VSrc) (s : State) : Outcome State Fault Refusal :=
  bitWord s c d a b fun x y => x * 2 ^ (y % c.ty.width) % 2 ^ c.ty.width

def execVshr (c : VCtl) (d : VDst) (a b : VSrc) (s : State) : Outcome State Fault Refusal :=
  bitWord s c d a b fun x y => x / 2 ^ (y % c.ty.width)

def execVsra (c : VCtl) (d : VDst) (a b : VSrc) (s : State) : Outcome State Fault Refusal :=
  bitWord s c d a b fun x y => wrapInt (sgn x c.ty.width / (2 ^ (y % c.ty.width) : Nat)) c.ty.width

/-! ## Widening, narrowing, conversion (R179 to R181) -/

/-- The type that a widening by 2 or 4 gives (R179). -/
def wideTy (t : Ty) (k4 : Bool) : Ty :=
  match t, k4 with
  | .i4, false => .i8 | .u4, false => .u8 | .i4, true => .i16 | .u4, true => .u16
  | .i8, false => .i16 | .u8, false => .u16 | .i8, true => .i32 | .u8, true => .u32
  | .i16, _ => .i32 | .u16, _ => .u32
  | _, _ => .f32

/-- Results of all lanes, zero and without flags in disabled ones. -/
def laneResults (en : Nat) (f : List Nat → Nat × BitVec 6) (l : List (List Nat)) : List (Nat × BitVec 6) :=
  l.zipIdx.map fun p => if bit en p.2 then f p.1 else (0, 0)

def unionFlags (l : List (Nat × BitVec 6)) : BitVec 6 := l.foldl (fun x p => x ||| p.2) 0

/-- A widening word: the operands are widened, then combined and fitted to the wide type. -/
def widen (s : State) (c : VCtl) (k4 : Bool) (d : VDst) (a b : VSrc) (fi : Int → Int → Int)
    (ff : RMode → FV → FV → FV × BitVec 6) : Outcome State Fault Refusal :=
  issueV s c fun st => do
    let t := wideTy c.ty k4
    let k := factor k4
    let (x, st) ← readSrc st 0 1 a
    let (y, st) ← readSrc st 2 1 b
    let en ← lanesOf st c.lanes
    let mode := rmodeOf st .v c.rm
    let flush := flushes st .v
    let f := fun (l : List Nat) =>
      let (p, q) := fst2 0 l
      if c.ty.isInt then (fitInt t false (fi (intVal c.ty p) (intVal c.ty q)), (0 : BitVec 6))
      else
        let (v, f₁) := ff mode (decodeV c.ty flush p) (decodeV c.ty flush q)
        let (r, f₂) := encodeV t mode flush v
        (r, f₁ ||| f₂)
    let res := laneResults en f (lanesWise c.ty.count [elemsOf c.ty x, elemsOf c.ty y])
    writeDst s.clock (flagV st (unionFlags res)) c.h.lat d (groupOf t.width k (res.map (·.1)))
      (maskGroup t.width k c.ty.count en)

def execVwmul (c : VCtl) (k4 : Bool) (d : VDst) (a b : VSrc) (s : State) : Outcome State Fault Refusal :=
  widen s c k4 d a b (· * ·) fun _ x y => mulFV x y

def execVwadd (c : VCtl) (k4 : Bool) (d : VDst) (a b : VSrc) (s : State) : Outcome State Fault Refusal :=
  widen s c k4 d a b (· + ·) addFV

/-- A source of width k × w read as the destination's signedness gives (R180). -/
def execVnarrow (c : VCtl) (k4 : Bool) (d : VDst) (a : VSrc) (s : State) : Outcome State Fault Refusal :=
  issueV s c fun st => do
    let k := factor k4
    let w := k * c.ty.width
    let (x, st) ← readSrc st 0 k a
    let en ← lanesOf st c.lanes
    let val (y : Nat) : Int := if c.ty.isSigned then sgn y w else (y % 2 ^ w : Nat)
    let res := laneResults en (fun l => (fitInt c.ty c.sat (val (l.getD 0 0)), 0))
      (lanesWise c.ty.count [elemsOfGroup w k c.ty.count x])
    writeDst s.clock st c.h.lat d (regsOf c.ty (res.map (·.1))) (maskRegs c.ty en)

/-- A converted element (R143, R148, R156, R181). -/
def convertLane (src dst : Ty) (mode : RMode) (flush : Bool) (x : Nat) : Nat × BitVec 6 :=
  let v := decodeV src flush x
  if dst.isInt then toIntType dst mode v
  else
    let (r, f) := encodeV dst mode flush v
    (r, f ||| sigNv v)

/-- Elements of a source of a conversion, and how many are converted. -/
def cvtSource (src dst : Ty) (regs : List Nat) : List Nat :=
  if src = .f64 || dst = .f64 then elemsOf src regs
  else
    let k := cvtSrcRegs src dst
    elemsOfGroup src.width k (k * src.count) regs

def cvtDest (src dst : Ty) (l : List Nat) : List Nat :=
  if src = .f64 || dst = .f64 then regsOf dst l else groupOf dst.width (cvtDstRegs src dst) l

def execVcvt (c : VCtl) (dst : Ty) (d : VDst) (a : VSrc) (s : State) : Outcome State Fault Refusal :=
  issueCharged s c.h.tk (costV (if dst = .f64 then .f64 else c.ty) 80) fun _ st => do
    let (x, st) ← readSrc st 0 (cvtSrcRegs c.ty dst) a
    let en ← lanesOf st c.lanes
    let l := cvtSource c.ty dst x
    check (!badT6 c.ty en l) (opField 0)
    let res := laneResults en (fun l => convertLane c.ty dst (rmodeOf st .v c.rm) (flushes st .v) (l.getD 0 0))
      (lanesWise l.length [l])
    let ones := (List.range l.length).map fun i => if bit en i then 2 ^ dst.width - 1 else 0
    writeDst s.clock (flagV st (unionFlags res)) c.h.lat d (cvtDest c.ty dst (res.map (·.1))) (cvtDest c.ty dst ones)

/-! ## Moves, immediates, broadcast (R182 to R184) -/

def execVmov (c : VCtl) (d : VDst) (a : VSrc) (s : State) : Outcome State Fault Refusal :=
  elementwise s c d [a] true fun _ l => (l.getD 0 0, 0)

/-- A word of the lanes of `em` whose element `i` is given. -/
def laneWord (s : State) (h : Hdr) (t : Ty) (d : VDst) (f : Nat → Nat) : Outcome State Fault Refusal :=
  issueCharged s h.tk (costV t 80) fun _ st => do
    let en ← lanesOf st .em
    writeDst s.clock st h.lat d (regsOf t ((List.range t.count).map f)) (maskRegs t en)

/-- The element that `vmovi` broadcasts. -/
def vmoviValue (t : Ty) (imm : BitVec 27) : Nat :=
  if t.isInt then wrapInt imm.toInt t.width
  else if t.isF then (encodeF (fmtOf t) .ne false (decodeF fmt32 false (imm.toNat * 32))).1
  else imm.toNat % 256

def execVmovi (h : Hdr) (ty : Ty) (d : VDst) (imm : BitVec 27) (s : State) : Outcome State Fault Refusal :=
  laneWord s h ty d fun _ => vmoviValue ty imm

def execVidx (h : Hdr) (ty : Ty) (d : VDst) (stride : BitVec 7) (imm : BitVec 27) (s : State) :
    Outcome State Fault Refusal :=
  laneWord s h ty d fun i => wrapInt (imm.toInt + (i * stride.toNat : Nat)) ty.width

/-- Every enabled lane of D receives one value. -/
def broadcast (clock : Nat) (st : Strand) (c : VCtl) (d : VDst) (x : Nat) : Act Strand := do
  let en ← lanesOf st c.lanes
  writeDst clock st c.h.lat d (regsOf c.ty (List.replicate c.ty.count x)) (maskRegs c.ty en)

/-- Bits 31:0 of a single register. -/
def low32 (l : List Nat) : Nat := l.getD 0 0 % 2 ^ 32

def execVbcast (c : VCtl) (d : VDst) (a b : VSrc) (s : State) : Outcome State Fault Refusal :=
  issueV s c fun st => do
    let (x, st) ← readSrc st 0 c.ty.regs a
    let (y, st) ← readSrc st 2 c.ty.regs b
    let v := (elemsOf c.ty x).getD (low32 y % c.ty.count) 0
    check (!badT6 c.ty 1 [v]) (opField 0)
    broadcast s.clock st c d v

def execVbcastQ (c : VCtl) (d : VDst) (s : State) : Outcome State Fault Refusal :=
  issueV s c fun st =>
    match st.qV with
    | x :: rest => broadcast s.clock { st with qV := rest } c d (x.toNat % 2 ^ c.ty.width)
    | [] => stall

/-! ## Compare, classify, select (R185 to R187) -/

/-- A new value of `cm`: bits of lanes that are enabled and below N. -/
def cmOf (n en : Nat) (l : List Bool) : Nat :=
  packElems 1 ((l.take n).zipIdx.map fun p => boolNat (p.1 && bit en p.2))

def isOrdered : VCmp → Bool
  | .lt | .le | .gt | .ge => true
  | _ => false

/-- A comparison by value and its flags. -/
def cmpLane (fn : VCmp) (t : Ty) (flush : Bool) (x y : Nat) : Bool × BitVec 6 :=
  let a := decodeV t flush x
  let b := decodeV t flush y
  let nan := a.isNan || b.isNan
  let r := match fn with
    | .eq => eqFV a b
    | .ne => !eqFV a b
    | .lt => !nan && ltFV false a b
    | .le => !nan && (ltFV false a b || eqFV a b)
    | .gt => !nan && ltFV false b a
    | .ge => !nan && (ltFV false b a || eqFV a b)
    | .un => nan
    | .ord => !nan
  (r, if isOrdered fn && nan then flagNV else sigNv a ||| sigNv b)

def execVcmp (c : VCtl) (fn : VCmp) (andCm : Bool) (a b : VSrc) (s : State) : Outcome State Fault Refusal :=
  issueV s c fun st => do
    let (l, st) ← readSrcs c.ty st 0 [a, b]
    let en ← lanesOf st c.lanes
    check (!(l.any (badT6 c.ty en))) (opField 0)
    let old ← if andCm then readReg st .v 10 .cm else .ok (BitVec.allOnes 4096)
    let flush := flushes st .v
    let res := (lanesWise c.ty.count l).map fun p => cmpLane fn c.ty flush (p.getD 0 0) (p.getD 1 0)
    let fl := res.zipIdx.foldl (fun x p => if bit en p.2 then x ||| p.1.2 else x) (0 : BitVec 6)
    .ok (writeMask s.clock (flagV st fl) c.h.lat .cm (cmOf c.ty.count en (res.map (·.1)) &&& old.toNat))

/-- The class bit of a stored element: NaN 0, infinity 1, zero 2, subnormal 3, other 4 (R186). -/
def classOf (t : Ty) (x : Nat) : Nat :=
  match decodeV t false x with
  | .nan _ => 0
  | .inf _ => 1
  | .num _ m _ =>
    if m = 0 then 2
    else if t.isF && x / 2 ^ (fmtOf t).mb % 2 ^ (fmtOf t).eb == 0 then 3 else 4

def signBit (t : Ty) (x : Nat) : Bool := bit x (if t.isT then (taperOf t).1 else t.width - 1)

def classLane (t : Ty) (cls : BitVec 5) (neg pos : Bool) (x : Nat) : Bool :=
  let k := classOf t x
  cls.getLsbD k && !(k == 0 && (neg || pos)) && (!neg || signBit t x) && (!pos || !signBit t x)

def execVclass (c : VCtl) (cls : BitVec 5) (neg pos : Bool) (a : VSrc) (s : State) : Outcome State Fault Refusal :=
  issueV s c fun st => do
    let (l, st) ← readSrcs c.ty st 0 [a]
    let en ← lanesOf st c.lanes
    check (!(l.any (badT6 c.ty en))) (opField 0)
    .ok (writeMask s.clock st c.h.lat .cm (cmOf c.ty.count en ((l.getD 0 []).map (classLane c.ty cls neg pos))))

def execVsel (c : VCtl) (d : VDst) (a b : VSrc) (s : State) : Outcome State Fault Refusal :=
  issueV s c fun st => do
    let (l, st) ← readSrcs c.ty st 0 [a, b]
    let en ← lanesOf st c.lanes
    let cm ← readReg st .v 10 .cm
    check (!(l.any (badT6 c.ty en))) (opField 0)
    let res := (lanesWise c.ty.count l).zipIdx.map fun p => if bit cm.toNat p.2 then p.1.getD 0 0 else p.1.getD 1 0
    writeDst s.clock st c.h.lat d (regsOf c.ty res) (maskRegs c.ty en)

/-! ## Permutes (R188, R189) -/

/-- The index of each lane. -/
def laneIndexes (t : Ty) (x : List Nat) : List Nat :=
  match t.width with
  | 8 | 4 => (List.range t.count).map fun i => elem (x.getD (i / 256) 0) 16 (i % 256)
  | 64 => (List.range t.count).map fun i => elem (x.getD 0 0) 32 i
  | w => (List.range t.count).map fun i => elem (x.getD 0 0) w i

/-- A permute: lane i takes the element at `pick i` of the sources laid end to end, which are read whole (R157, R189). -/
def permute (clock : Nat) (st : Strand) (c : VCtl) (d : VDst) (l : List Nat) (pick : List Nat) : Act Strand := do
  check (!badT6 c.ty (2 ^ 1024 - 1) l) (opField 0)
  let en ← lanesOf st c.lanes
  let x := packElems c.ty.width l
  writeDst clock st c.h.lat d (regsOf c.ty (pick.map fun j => elem x c.ty.width j)) (maskRegs c.ty en)

def execVperm (c : VCtl) (d : VDst) (a x : VSrc) (s : State) : Outcome State Fault Refusal :=
  issueV s c fun st => do
    let (p, st) ← readSrc st 0 c.ty.regs a
    let (ix, st) ← readSrc st 2 (indexRegs c.ty) x
    permute s.clock st c d (elemsOf c.ty p) ((laneIndexes c.ty ix).map (· % c.ty.count))

def execVshuf (c : VCtl) (d : VDst) (a b x : VSrc) (s : State) : Outcome State Fault Refusal :=
  issueV s c fun st => do
    let (p, st) ← readSrc st 0 c.ty.regs a
    let (q, st) ← readSrc st 2 c.ty.regs b
    let (ix, st) ← readSrc st 4 (indexRegs c.ty) x
    permute s.clock st c d (elemsOf c.ty p ++ elemsOf c.ty q) ((laneIndexes c.ty ix).map (· % (2 * c.ty.count)))

def execVrot (c : VCtl) (d : VDst) (a b : VSrc) (s : State) : Outcome State Fault Refusal :=
  issueV s c fun st => do
    let (p, st) ← readSrc st 0 c.ty.regs a
    let (q, st) ← readSrc st 2 c.ty.regs b
    permute s.clock st c d (elemsOf c.ty p)
      ((List.range c.ty.count).map fun i => (i + low32 q % c.ty.count) % c.ty.count)

def execVslide (c : VCtl) (d : VDst) (a b x : VSrc) (s : State) : Outcome State Fault Refusal :=
  issueV s c fun st => do
    let (p, st) ← readSrc st 0 c.ty.regs a
    let (q, st) ← readSrc st 2 c.ty.regs b
    let (y, st) ← readSrc st 4 c.ty.regs x
    permute s.clock st c d (elemsOf c.ty p ++ elemsOf c.ty q)
      ((List.range c.ty.count).map fun i => i + min (low32 y) c.ty.count)

/-! ## Reductions and queries (R165, R190 to R192) -/

/-- One level of the pairwise tree. -/
def pairUp (f : Nat → Nat → Nat × BitVec 6) : List Nat → List Nat × BitVec 6
  | x :: y :: rest =>
    let (r, g) := f x y
    let (rs, gs) := pairUp f rest
    (r :: rs, g ||| gs)
  | l => (l, 0)

/-- The tree of R165 over a power of two of elements. -/
def reduceTree (f : Nat → Nat → Nat × BitVec 6) : Nat → List Nat → Nat × BitVec 6
  | 0, l => (l.headD 0, 0)
  | k + 1, l =>
    let (m, g) := pairUp f l
    let (r, h) := reduceTree f k m
    (r, g ||| h)

/-- What a disabled element contributes (R191). -/
def redIdentity (fn : VRedFn) (t : Ty) : Nat :=
  match fn with
  | .add => if t.isF then fZero (fmtOf t) true else 0
  | .min => if t.isF then fInf (fmtOf t) false else wrapInt t.hi t.width
  | .max => if t.isF then fInf (fmtOf t) true else wrapInt t.lo t.width
  | .and => 2 ^ t.width - 1
  | _ => 0

def redLane (c : VCtl) (fn : VRedFn) (st : Strand) (x y : Nat) : Nat × BitVec 6 :=
  match fn with
  | .add => arithLane c (fun l => l.getD 0 0 + l.getD 1 0) (fun m l => addFV m (l.getD 0 fv0) (l.getD 1 fv0)) st [x, y]
  | .min => arithLane c (fun l => min (l.getD 0 0) (l.getD 1 0)) (fun _ l => minFV false (l.getD 0 fv0) (l.getD 1 fv0)) st [x, y]
  | .max => arithLane c (fun l => max (l.getD 0 0) (l.getD 1 0)) (fun _ l => minFV true (l.getD 0 fv0) (l.getD 1 fv0)) st [x, y]
  | .and => (x &&& y, 0)
  | .or => (x ||| y, 0)
  | .xor => (x ^^^ y, 0)

def execVred (c : VCtl) (fn : VRedFn) (d : VDst) (a : VSrc) (s : State) : Outcome State Fault Refusal :=
  issueV s c fun st => do
    let (l, st) ← readSrcs c.ty st 0 [a]
    let en ← lanesOf st c.lanes
    let full := (l.getD 0 []).zipIdx.map fun p => if bit en p.2 then p.1 else redIdentity fn c.ty
    let (r, f) := reduceTree (redLane c fn st) c.ty.count.log2 full
    let wide := if c.ty.isSigned then wrapInt (sgn r c.ty.width) 64 else r
    writeScalar s.clock (flagV st f) c.h.lat d (if c.ty = .f64 then [r % 2 ^ 32, r / 2 ^ 32] else [r]) wide

/-- The lowest set bit below n. -/
def lowestBit (x n : Nat) : Option Nat := (List.range n).find? (bit x)

def execVany (c : VCtl) (fn : VAnyFn) (d : VDst) (s : State) : Outcome State Fault Refusal :=
  issueV s c fun st => do
    let en ← lanesOf st c.lanes
    let cm ← readReg st .v 10 .cm
    let n := c.ty.count
    let e := en % 2 ^ n
    let x := e &&& cm.toNat
    let r := match fn with
      | .any => boolNat (x != 0)
      | .all => boolNat (x == e)
      | .cnt => popcount x n
      | .first => (lowestBit x n).getD (2 ^ 64 - 1)
    writeScalar s.clock st c.h.lat d (if c.ty = .f64 then [r % 2 ^ 32, r / 2 ^ 32] else [r]) r

/-! ## Compress, expand, conflicts (R193 to R195) -/

def execVcompress (c : VCtl) (d : VDst) (a : VSrc) (s : State) : Outcome State Fault Refusal :=
  issueV s c fun st => do
    let (l, st) ← readSrcs c.ty st 0 [a]
    let en ← lanesOf st c.lanes
    check (!badT6 c.ty en (l.getD 0 [])) (opField 0)
    let vals := ((l.getD 0 []).zipIdx.filter fun p => bit en p.2).map (·.1)
    let full := 2 ^ 4096 - 1
    writeDst s.clock st c.h.lat d [en % 2 ^ c.ty.count, packElems c.ty.width vals] [full, full]

def execVexpand (c : VCtl) (d : VDst) (a b : VSrc) (s : State) : Outcome State Fault Refusal :=
  issueV s c fun st => do
    let (m, st) ← readSrc st 0 1 a
    let (v, st) ← readSrc st 2 1 b
    let mask := m.getD 0 0 % 2 ^ c.ty.count
    check (!badT6 c.ty (2 ^ popcount mask c.ty.count - 1) (elemsOf c.ty v)) (opField 0)
    writeDst s.clock st c.h.lat d [expandPacked mask (v.getD 0 0) (c.ty.width / 8) c.ty.count] [2 ^ 4096 - 1]

/-- Lanes that repeat an earlier enabled lane. -/
def conflicts (en : Nat) : List Nat → List Nat → Nat → List Bool
  | _, [], _ => []
  | seen, x :: xs, i =>
    if bit en i then seen.contains x :: conflicts en (x :: seen) xs (i + 1)
    else false :: conflicts en seen xs (i + 1)

def execVconf (c : VCtl) (a : VSrc) (s : State) : Outcome State Fault Refusal :=
  issueV s c fun st => do
    let (l, st) ← readSrcs c.ty st 0 [a]
    let en ← lanesOf st c.lanes
    .ok (writeMask s.clock st c.h.lat .cm (cmOf 128 en (conflicts en [] (l.getD 0 []) 0)))

/-! ## Index-vector sends (R197) -/

/-- The index vector that a word forms. -/
def formIndex (s : State) (c : VCtl) (a : VSrc) (push : Strand → IndexVec → Act Strand) : Outcome State Fault Refusal :=
  issueV s c fun st => do
    let (l, st) ← readSrc st 0 1 a
    let en ← lanesOf st c.lanes
    push st ⟨BitVec.ofNat 128 en, BitVec.ofNat 4096 (l.getD 0 0)⟩

def execVtoix (c : VCtl) (a : VSrc) (s : State) : Outcome State Fault Refusal :=
  formIndex s c a fun st x => do
    await (decide (st.fiq.length < 4))
    .ok { st with fiq := st.fiq ++ [x] }

/-- Entries that L has popped on a leaning arm keep their places until the outcome, which may give them back (R111, R122). -/
def execVtol (c : VCtl) (a : VSrc) (s : State) : Outcome State Fault Refusal :=
  formIndex s c a fun st x => do
    let held := match st.lean with | some ln => ln.iql.length | none => 0
    await (decide (st.iql.length + held < 4))
    .ok { st with iql := st.iql ++ [x] }

def execVtos (c : VCtl) (a : VSrc) (s : State) : Outcome State Fault Refusal :=
  formIndex s c a fun st x => do
    await (decide (st.iqs.length < 4))
    .ok { st with iqs := st.iqs ++ [x] }

/-! ## Masks (R198) -/

/-- A mask word, charged as a V word. -/
def maskWord (s : State) (h : Hdr) (r : Reg) (f : Strand → Act Nat) : Outcome State Fault Refusal :=
  issueCharged s h.tk (centiNj 80) fun _ st => do
    let x ← f st
    .ok (writeMask s.clock st h.lat r x)

/-- A saved mask by number. -/
def savedReg (n : BitVec 3) : Reg := .mk (Fin.ofNat 6 n.toNat)

def readSel (st : Strand) : MaskSel → Act Nat
  | .mk n => do
    let x ← readReg st .v 0 (savedReg n)
    .ok x.toNat
  | .cm => do
    let x ← readReg st .v 0 .cm
    .ok x.toNat
  | .ones => .ok (2 ^ 1024 - 1)

def execEmsave (h : Hdr) (d : BitVec 3) (fromCm : Bool) (s : State) : Outcome State Fault Refusal :=
  maskWord s h (savedReg d) fun st => do
    let x ← readReg st .v 0 (if fromCm then .cm else .em)
    .ok x.toNat

def execEmrest (h : Hdr) (a : MaskSel) (s : State) : Outcome State Fault Refusal :=
  maskWord s h .em fun st => readSel st a

def execEmcomb (h : Hdr) (op : MaskOp) (a : MaskSel) (s : State) : Outcome State Fault Refusal :=
  maskWord s h .em fun st => do
    let x ← readSel st a
    let e ← readReg st .v 1 .em
    .ok (match op with
      | .and => e.toNat &&& x
      | .andn => e.toNat &&& (2 ^ 1024 - 1 - x % 2 ^ 1024)
      | .or => e.toNat ||| x
      | .xor => e.toNat ^^^ x)

end Sys2Proof.Machine
end

