-- ==== Sys2Proof/Machine/Special.lean ====
section
/-! DEFINITION. The special functions (R166, R202 to R204). Special operands and exact cases are computed. Elsewhere the
set of results that the accuracy bound and the range of the function admit is computed, and an opaque constant of
`Config` says from which exact value on the device returns each, so that the results rise with the value (log entry 14).
`vsqrt` is computed exactly.
-/

namespace Sys2Proof.Machine

open Host (Outcome)

/-! ## Fixed-point evaluation: 320 fraction bits, each value within `fxErr` units -/

def fxBits : Nat := 320
def fxOne : Nat := 2 ^ fxBits
def fxErr : Nat := 2 ^ 60

/-- Integer square root by bits, from the highest of `n`. -/
def isqrt (x : Nat) : Nat → Nat → Nat
  | 0, r => r
  | n + 1, r => if (r + 2 ^ n) * (r + 2 ^ n) ≤ x then isqrt x n (r + 2 ^ n) else isqrt x n r

/-- ⌊√x⌋. -/
def sqrtNat (x : Nat) : Nat := isqrt x (x.log2 / 2 + 1) 0

/-- Σ zⁿ/n! from the term `t` of number `n`. -/
def expTerms (z : Nat) : Nat → Nat → Nat → Nat
  | 0, _, _ => 0
  | k + 1, n, t => t + expTerms z k (n + 1) (t * z / fxOne / (n + 1))

/-- e^z for 0 ≤ z < 1. -/
def fxExp (z : Nat) : Nat := expTerms z 80 0 fxOne

/-- Σ w^(2n+1)/(2n+1). -/
def atanhTerms (w2 : Nat) : Nat → Nat → Nat → Nat
  | 0, _, _ => 0
  | k + 1, n, p => p / (2 * n + 1) + atanhTerms w2 k (n + 1) (p * w2 / fxOne)

def fxAtanh (w : Nat) : Nat := atanhTerms (w * w / fxOne) 110 0 w

/-- ln 2. -/
def fxLn2 : Nat := 2 * fxAtanh (fxOne / 3)

/-- ln of a number in [1, 2). -/
def fxLn (m : Nat) : Nat := 2 * fxAtanh ((m - fxOne) * fxOne / (m + fxOne))

/-- m × 2^e in fixed point, rounded down. -/
def toFx (m : Nat) (e : Int) : Nat :=
  let k := e + fxBits
  if 0 ≤ k then m * 2 ^ k.toNat else m / 2 ^ (-k).toNat

/-- A positive real: `y` units of 2^q, within `fxErr` units. -/
structure Approx where
  y : Nat
  q : Int
deriving DecidableEq, Repr

/-- e^(±m × 2^e), for an argument below 2^9 in magnitude. -/
def approxExp (neg : Bool) (m : Nat) (e : Int) : Approx :=
  let x := toFx m e
  let k := x / fxLn2
  let r := x % fxLn2
  if neg then
    -- e^−x = 2^−(k+1) × e^(ln 2 − r)
    ⟨fxExp (fxLn2 - r), -(k : Int) - 1 - fxBits⟩
  else ⟨fxExp r, (k : Int) - fxBits⟩

/-- 2^(±m × 2^e). -/
def approxExp2 (neg : Bool) (m : Nat) (e : Int) : Approx :=
  let x := toFx m e
  let k := x / fxOne
  let f := x % fxOne
  if neg then ⟨fxExp ((fxOne - f) * fxLn2 / fxOne), -(k : Int) - 1 - fxBits⟩
  else ⟨fxExp (f * fxLn2 / fxOne), (k : Int) - fxBits⟩

/-- |ln(m × 2^e)| and whether it is negative. -/
def approxLn (m : Nat) (e : Int) : Bool × Nat :=
  let k := e + m.log2
  let z : Int := k * (fxLn2 : Nat) + (fxLn (m * 2 ^ (fxBits - m.log2)) : Nat)
  (decide (z < 0), z.natAbs)

/-- tanh of m × 2^e > 0. -/
def approxTanh (m : Nat) (e : Int) : Approx :=
  let u := approxExp true m (e + 1)
  let v := toFx u.y u.q
  ⟨(fxOne - v) * fxOne / (fxOne + v), -fxBits⟩

/-- 1 / (1 + e^−x) for x = ±m × 2^e. -/
def approxSigm (neg : Bool) (m : Nat) (e : Int) : Approx :=
  let u := approxExp true m e
  let v := toFx u.y u.q
  if neg then ⟨u.y * fxOne / (fxOne + v), u.q⟩ else ⟨fxOne * fxOne / (fxOne + v), -fxBits⟩

/-! ## Admissible results -/

/-- The greatest positive pattern of a format not above `y` units of 2^q, at most infinity. -/
def floorPat (f : Fmt) (y : Nat) (q : Int) : Nat :=
  if y = 0 then 0
  else
    let top : Int := y.log2 + q
    let emin : Int := 1 - (fmtBias f : Int)
    if (fmtBias f : Int) < top then fInf f false
    else
      let u := max top emin - f.mb
      let n := (roundAt .rz false y q u).1
      (u + f.mb + fmtBias f).toNat * 2 ^ f.mb + n - 2 ^ f.mb

/-- |v − y| ≤ k ulp(y) for the value v of a pattern, infinity standing for the next binade, with the error of the
approximation allowed for. -/
def withinUlp (f : Fmt) (k : Nat) (a : Approx) (p : Nat) : Bool :=
  match (if p = fInf f false then .num false 1 (fmtBias f + 1 : Nat) else decodeF f false p) with
  | .num _ m e =>
    let top : Int := a.y.log2 + a.q
    let u := max top (1 - (fmtBias f : Int)) - f.mb
    let low := min (min e a.q) u
    let v : Int := (m * 2 ^ (e - low).toNat : Nat)
    let y : Int := (a.y * 2 ^ (a.q - low).toNat : Nat)
    decide ((v - y).natAbs ≤ k * 2 ^ (u - low).toNat + fxErr * 2 ^ (a.q - low).toNat)
  | _ => false

/-- The patterns that a function may return for a real y that is not exactly representable: those that bracket it
(`k` = 0), or those within k ulp; in either case within the range `lo` to `hi` that monotonicity leaves. -/
def admissible (f : Fmt) (k : Nat) (a : Approx) (lo hi : Nat) : List Nat :=
  let p := floorPat f (a.y - fxErr) a.q
  let p' := floorPat f (a.y + fxErr) a.q
  let all := if p = fInf f false then [p] else if k = 0 then (List.range (p' + 2 - p)).map (· + p)
    else ((List.range 12).map (· + (p - 5))).filter (withinUlp f k a)
  all.filter fun x => decide (lo ≤ x) && decide (x ≤ min hi (fInf f false))

/-- The exact value lies at or above the place, `t` parts of the result's 80th bit above it, from which on the function
returns a result. -/
def reaches (f : Fmt) (a : Approx) (p : Nat) (t : Int) : Bool :=
  match (if p = fInf f false then .num false 1 (fmtBias f + 1 : Nat) else decodeF f false p) with
  | .num _ m e =>
    let low := min (e - 80) a.q
    decide ((m * 2 ^ (e - low).toNat : Nat) + t * (2 ^ (e - 80 - low).toNat : Nat) ≤ ((a.y * 2 ^ (a.q - low).toNat : Nat) : Int))
  | _ => false

/-- The device's choice with its flags (R203, R204): the greatest admissible result that the exact value reaches, the least
where it reaches none, so that a greater value never has a smaller result (R166). A value below the smallest normal is
flushed or raises UF, an infinity raises OF. -/
def choose (f : Fmt) (flush neg : Bool) (pick : Nat → Int) (a : Approx) (l : List Nat) : Nat × BitVec 6 :=
  let sign := boolNat neg * 2 ^ (f.eb + f.mb)
  let p := l.foldl (fun b p => if reaches f a p (pick (sign + p)) then max b p else b) (l.headD 0)
  if p < 2 ^ f.mb then (if flush then sign else sign + p, flagUF ||| flagNX)
  else if p = fInf f false then (sign + p, flagOF ||| flagNX)
  else (sign + p, flagNX)

/-- The results of a function for a real that is not exactly representable, one chosen. -/
def pickFrom (f : Fmt) (flush neg : Bool) (pick : Nat → Int) (k : Nat) (a : Approx) (lo hi : Nat) : Nat × BitVec 6 :=
  choose f flush neg pick a (admissible f k a lo hi)

/-- The powers of two around a real, as patterns: the function is exact at them (R166). -/
def binade (f : Fmt) (a : Approx) : Nat × Nat :=
  let b (k : Nat) : Nat := floorPat f (2 ^ (a.y.log2 + k)) a.q
  (b 0, b 1)

/-- The pattern of 1.0. -/
def fOne (f : Fmt) : Nat := fmtBias f * 2 ^ f.mb

/-- m × 2^e is a power of two: its exponent. -/
def powerOfTwo (m : Nat) (e : Int) : Option Int := if m = 2 ^ m.log2 then some (e + m.log2) else none

/-- m × 2^e as an integer. -/
def asInteger (m : Nat) (e : Int) : Option Nat :=
  if 0 ≤ e then some (m * 2 ^ e.toNat)
  else if m % 2 ^ (-e).toNat = 0 then some (m / 2 ^ (-e).toNat) else none

/-- m × 2^e ≥ 2^9. -/
def huge (m : Nat) (e : Int) : Bool := decide (9 ≤ (m.log2 : Int) + e)

/-- An approximation of a value below every subnormal. -/
def nearZero (f : Fmt) : Approx := ⟨2 ^ 100, -(fmtBias f : Int) - f.mb - 400⟩

/-! ## The functions on a nonzero finite operand -/

/-- 2^k exactly representable, or beyond the range. -/
def exactPow (f : Fmt) (k : Int) : Bool := decide (1 - (fmtBias f : Int) - f.mb ≤ k)

def fnExp2 (f : Fmt) (flush neg : Bool) (m : Nat) (e : Int) (pick : Nat → Int) : Nat × BitVec 6 :=
  if huge m e then
    (if neg then pickFrom f flush false pick 0 (nearZero f) 0 (fInf f false)
     else (fInf f false, flagOF ||| flagNX))
  else
    let general := pickFrom f flush false pick 0 (approxExp2 neg m e) 0 (fInf f false)
    match asInteger m e with
    | some z =>
      let k : Int := if neg then -(z : Int) else z
      if exactPow f k then roundNum f .ne flush false 1 k else general
    | none => general

def fnExp (f : Fmt) (flush neg : Bool) (m : Nat) (e : Int) (pick : Nat → Int) : Nat × BitVec 6 :=
  if huge m e then
    (if neg then pickFrom f flush false pick 0 (nearZero f) 0 (fInf f false)
     else (fInf f false, flagOF ||| flagNX))
  else pickFrom f flush false pick 0 (approxExp neg m e) 0 (fInf f false)

def fnLog2 (f : Fmt) (flush : Bool) (m : Nat) (e : Int) (pick : Nat → Int) : Nat × BitVec 6 :=
  match powerOfTwo m e with
  | some k => encodeF f .ne flush (ofSigned k 0 false)
  | none =>
    let (neg, y) := approxLn m e
    pickFrom f flush neg pick 0 ⟨y * fxOne / fxLn2, -fxBits⟩ 0 (fInf f false)

def fnLog (f : Fmt) (flush : Bool) (m : Nat) (e : Int) (pick : Nat → Int) : Nat × BitVec 6 :=
  if powerOfTwo m e = some 0 then (0, 0)
  else
    let (neg, y) := approxLn m e
    pickFrom f flush neg pick 0 ⟨y, -fxBits⟩ 0 (fInf f false)

def fnRcp (f : Fmt) (flush neg : Bool) (m : Nat) (e : Int) (pick : Nat → Int) : Nat × BitVec 6 :=
  match powerOfTwo m e with
  | some k => roundNum f .ne flush neg 1 (-k)
  | none =>
    let a : Approx := ⟨fxOne * fxOne / m, -(2 * fxBits : Nat) - e⟩
    pickFrom f flush neg pick 1 a (binade f a).1 (binade f a).2

/-- 1/√(m × 2^e), with e made even. -/
def fnRsqrt (f : Fmt) (flush : Bool) (m : Nat) (e : Int) (pick : Nat → Int) : Nat × BitVec 6 :=
  let (m', e') := if e % 2 = 0 then (m, e) else (2 * m, e - 1)
  let a : Approx := ⟨sqrtNat (2 ^ (4 * fxBits) / m'), -(2 * fxBits : Nat) - e' / 2⟩
  let general := pickFrom f flush false pick 1 a (binade f a).1 (binade f a).2
  match powerOfTwo m e with
  | some k => if k % 2 = 0 then roundNum f .ne flush false 1 (-(k / 2)) else general
  | none => general

/-- √(m × 2^e) with a sticky bit below 2 × 64 bits, rounded once. -/
def fnSqrt (f : Fmt) (mode : RMode) (flush : Bool) (m : Nat) (e : Int) : Nat × BitVec 6 :=
  let (m', e') := if e % 2 = 0 then (m, e) else (2 * m, e - 1)
  let x := m' * 2 ^ 256
  let r := sqrtNat x
  roundNum f mode flush false (2 * r + boolNat (r * r != x)) (e' / 2 - 129)

def fnTanh (f : Fmt) (flush neg : Bool) (m : Nat) (e : Int) (pick : Nat → Int) : Nat × BitVec 6 :=
  let a : Approx := if huge m e then ⟨fxOne, -fxBits⟩ else approxTanh m e
  pickFrom f flush neg pick 2 a 0 (fOne f)

def fnSigm (f : Fmt) (flush neg : Bool) (m : Nat) (e : Int) (pick : Nat → Int) : Nat × BitVec 6 :=
  let half := fOne f - 2 ^ f.mb
  let a : Approx := if huge m e then (if neg then nearZero f else ⟨fxOne, -fxBits⟩) else approxSigm neg m e
  if neg then pickFrom f flush false pick 2 a 0 half
  else pickFrom f flush false pick 2 a half (fOne f)

/-! ## The words -/

/-- What a function gives at −∞, +∞, zero of a sign, a negative number and any other number (R203). -/
structure SpecialFn where
  code : Nat
  ninf : Fmt → Nat × BitVec 6
  pinf : Fmt → Nat × BitVec 6
  zero : Fmt → Bool → Nat × BitVec 6
  negOk : Bool
  num : Fmt → RMode → Bool → Bool → Nat → Int → (Nat → Int) → Nat × BitVec 6

/-- One lane: a NaN gives the canonical NaN; a negative operand outside the domain gives it with NV. -/
def specialLane (k : SpecialFn) (t : Ty) (mode : RMode) (flush : Bool) (x : Nat) : Nat × BitVec 6 :=
  let f := fmtOf t
  match decodeF f flush x with
  | .nan sig => (fNan f, if sig then flagNV else 0)
  | .inf neg => if neg then k.ninf f else k.pinf f
  | .num neg m e =>
    if m = 0 then k.zero f neg
    else if neg && !k.negOk then (fNan f, flagNV)
    else k.num f mode flush neg m e (Config.specialFn k.code (f.eb * 64 + f.mb) flush)

/-- A special function: 1.6 nJ, or 2.4 nJ for fp64 (R438). -/
def specialWord (s : State) (k : SpecialFn) (c : VCtl) (d : VDst) (a : VSrc) : Outcome State Fault Refusal :=
  issueCharged s c.h.tk (costV c.ty 160) fun _ st => do
    let (l, st) ← readSrcs c.ty st 0 [a]
    let en ← lanesOf st c.lanes
    let res := laneResults en (fun p => specialLane k c.ty (rmodeOf st .v c.rm) (flushes st .v) (p.getD 0 0))
      (lanesWise c.ty.count l)
    writeDst s.clock (flagV st (unionFlags res)) c.h.lat d (regsOf c.ty (res.map (·.1))) (maskRegs c.ty en)

def invalidNan (f : Fmt) : Nat × BitVec 6 := (fNan f, flagNV)

def specExp2 : SpecialFn :=
  ⟨0x8E, fun _ => (0, 0), fun f => (fInf f false, 0), fun f _ => (fOne f, 0), true,
   fun f _ fl neg m e p => fnExp2 f fl neg m e p⟩

def specLog2 : SpecialFn :=
  ⟨0x8F, invalidNan, fun f => (fInf f false, 0), fun f _ => (fInf f true, flagDZ), false,
   fun f _ fl _ m e p => fnLog2 f fl m e p⟩

def specExp : SpecialFn :=
  ⟨0x90, fun _ => (0, 0), fun f => (fInf f false, 0), fun f _ => (fOne f, 0), true,
   fun f _ fl neg m e p => fnExp f fl neg m e p⟩

def specLog : SpecialFn :=
  ⟨0x91, invalidNan, fun f => (fInf f false, 0), fun f _ => (fInf f true, flagDZ), false,
   fun f _ fl _ m e p => fnLog f fl m e p⟩

def specRcp : SpecialFn :=
  ⟨0x92, fun f => (fZero f true, 0), fun _ => (0, 0), fun f n => (fInf f n, flagDZ), true,
   fun f _ fl neg m e p => fnRcp f fl neg m e p⟩

def specRsqrt : SpecialFn :=
  ⟨0x93, invalidNan, fun _ => (0, 0), fun f n => (fInf f n, flagDZ), false,
   fun f _ fl _ m e p => fnRsqrt f fl m e p⟩

def specSqrt : SpecialFn :=
  ⟨0x94, invalidNan, fun f => (fInf f false, 0), fun f n => (fZero f n, 0), false,
   fun f mode fl _ m e _ => fnSqrt f mode fl m e⟩

def specTanh : SpecialFn :=
  ⟨0x95, fun f => (2 ^ (f.eb + f.mb) + fOne f, 0), fun f => (fOne f, 0), fun f n => (fZero f n, 0), true,
   fun f _ fl neg m e p => fnTanh f fl neg m e p⟩

def specSigm : SpecialFn :=
  ⟨0x96, fun _ => (0, 0), fun f => (fOne f, 0), fun f _ => (fOne f - 2 ^ f.mb, 0), true,
   fun f _ fl neg m e p => fnSigm f fl neg m e p⟩

def execVexp2 (c : VCtl) (d : VDst) (a : VSrc) (s : State) : Outcome State Fault Refusal := specialWord s specExp2 c d a
def execVlog2 (c : VCtl) (d : VDst) (a : VSrc) (s : State) : Outcome State Fault Refusal := specialWord s specLog2 c d a
def execVexp (c : VCtl) (d : VDst) (a : VSrc) (s : State) : Outcome State Fault Refusal := specialWord s specExp c d a
def execVlog (c : VCtl) (d : VDst) (a : VSrc) (s : State) : Outcome State Fault Refusal := specialWord s specLog c d a
def execVrcp (c : VCtl) (d : VDst) (a : VSrc) (s : State) : Outcome State Fault Refusal := specialWord s specRcp c d a
def execVrsqrt (c : VCtl) (d : VDst) (a : VSrc) (s : State) : Outcome State Fault Refusal := specialWord s specRsqrt c d a
def execVsqrt (c : VCtl) (d : VDst) (a : VSrc) (s : State) : Outcome State Fault Refusal := specialWord s specSqrt c d a
def execVtanh (c : VCtl) (d : VDst) (a : VSrc) (s : State) : Outcome State Fault Refusal := specialWord s specTanh c d a
def execVsigm (c : VCtl) (d : VDst) (a : VSrc) (s : State) : Outcome State Fault Refusal := specialWord s specSigm c d a

end Sys2Proof.Machine
end

