-- ==== Sys2Proof/Machine/Geometry.lean ====
section
/-! DEFINITION. The geometric predicates (R205 to R217, R459): exact determinants over integers, the three stages that
settle a lane, the tie-breaks, and the event that completes a predicate.
-/

namespace Sys2Proof.Machine

open Host (Outcome)

/-! ## Numbers with a record of rounding (R211, R459) -/

/-- A value of a stage, and whether every operation behind it was exact. -/
structure GNum where
  v : Int
  exact : Bool
deriving DecidableEq, Repr

/-- An integer rounded to nearest even at a significand of `b` bits. -/
def roundBits (b : Nat) (x : Int) : Int :=
  let a := x.natAbs
  let n := a.log2 + 1
  if n ≤ b then x
  else
    let (q, _) := roundShift .ne false a (n - b)
    let r : Int := (q * 2 ^ (n - b) : Nat)
    if x < 0 then -r else r

/-- The nearest sum of two numbers with 53-bit significands. -/
def roundTwo (x : Int) : Int :=
  let h := roundBits 53 x
  h + roundBits 53 (x - h)

def gOp (r : Int → Int) (f : Int → Int → Int) (x y : GNum) : GNum :=
  let z := f x.v y.v
  ⟨r z, x.exact && y.exact && r z == z⟩

def gAdd (r : Int → Int) : GNum → GNum → GNum := gOp r (· + ·)
def gSub (r : Int → Int) : GNum → GNum → GNum := gOp r (· - ·)
def gMul (r : Int → Int) : GNum → GNum → GNum := gOp r (· * ·)

abbrev Point := List Int

/-- A matrix row: a point less the last one, with the lift of the differences where asked. -/
def gRow (r : Int → Int) (lift : Bool) (last p : Point) : List GNum :=
  let d := (p.zip last).map fun q => gSub r ⟨q.1, true⟩ ⟨q.2, true⟩
  if lift then
    match d.map fun x => gMul r x x with
    | [] => d
    | x :: xs => d ++ [xs.foldl (gAdd r) x]
  else d

/-- The translated matrix of a determinant (R459). -/
def gRows (r : Int → Int) (lift : Bool) (pts : List Point) : List (List GNum) :=
  match pts.getLast? with
  | none => []
  | some last => pts.dropLast.map (gRow r lift last)

/-- The rows without row i and without the last column. -/
def minorRows (m : List (List GNum)) (i : Nat) : List (List GNum) := (m.eraseIdx i).map List.dropLast

/-- The determinant by cofactors along the last column, signs alternating from +; the first argument bounds the size.
`minus` forms p·s − q·r and the alternating sums. -/
def gDet (r : Int → Int) (minus : GNum → GNum → GNum) : Nat → List (List GNum) → GNum
  | _, [[p, q], [x, y]] => minus (gMul r p y) (gMul r q x)
  | 0, _ => ⟨0, true⟩
  | fuel + 1, m =>
    let terms := m.zipIdx.map fun p => gMul r (p.1.getLastD ⟨0, true⟩) (gDet r minus fuel (minorRows m p.2))
    match terms with
    | [] => ⟨0, true⟩
    | t :: ts => (ts.zipIdx.foldl (fun s p => if p.2 % 2 = 0 then minus s p.1 else gAdd r s p.1) t)

/-- The cofactor signs from + give the determinant up to the sign (−1)^(n−1) of its size. -/
def detSign (m : List (List GNum)) (x : Int) : Int := if m.length % 2 = 0 && 2 < m.length then -x else x

def exactDet (lift : Bool) (pts : List Point) : Int :=
  let m := gRows id lift pts
  detSign m (gDet id (gSub id) 5 m).v

def sgnInt (x : Int) : Int := if 0 < x then 1 else if x < 0 then -1 else 0

def absG (x : GNum) : GNum := ⟨(x.v.natAbs : Int), x.exact⟩

/-- The sign of a determinant and the stage that settles it (R211, R459). `ef` gives εf = 2^−ef. Stage 2 settles a lane when
every operation is exact, or when its computed value is beyond εe × P and has the determinant's sign, without which it
certifies nothing (log entry 76). -/
def settleDet (lift : Bool) (ef : Nat) (pts : List Point) : Int × Nat :=
  let r1 := roundBits 64
  let m1 := gRows r1 lift pts
  let d1 := gDet r1 (gSub r1) 5 m1
  let p := (gDet r1 (gAdd r1) 5 (m1.map fun l => l.map absG)).v
  let det := exactDet lift pts
  let sign := sgnInt det
  if p < (d1.v.natAbs * 2 ^ ef : Nat) then (sign, 1)
  else
    let m2 := gRows roundTwo lift pts
    let d2 := gDet roundTwo (gSub roundTwo) 5 m2
    let clear := decide (p < (d2.v.natAbs * 2 ^ 120 : Nat)) && sgnInt (detSign m2 d2.v) == sign
    if d2.exact || clear then (sign, 2) else (sign, 3)

/-! ## Tie-breaks (R214 to R217) -/

/-- Positions of the points by ascending identifier, the earlier first among equals. -/
def rankOrder (ids : List Nat) : List Nat :=
  (ids.zipIdx.foldl (fun (l : List (Nat × Nat)) p =>
    l.takeWhile (fun q => decide (q.1 ≤ p.1)) ++ p :: l.dropWhile fun q => decide (q.1 ≤ p.1)) []).map (·.2)

/-- The parity of a permutation. -/
def parityOf : List Nat → Int
  | [] => 1
  | x :: xs => (if (xs.filter fun y => decide (y < x)).length % 2 = 0 then 1 else -1) * parityOf xs

def pt (l : List Point) (k : Nat) : Point := l.getD (k - 1) []

/-- Coordinate `j` (x = 0) of point `k` (from 1). -/
def co (l : List Point) (k j : Nat) : Int := (pt l k).getD j 0

/-- The `vorient2` determinant of coordinates j and k of three points. -/
def orientIn (j k : Nat) (u v w : Point) : Int :=
  let c (p : Point) (i : Nat) : Int := p.getD i 0
  (c u j - c w j) * (c v k - c w k) - (c u k - c w k) * (c v j - c w j)

/-- The minors of `vorient2` in rank order (R215). -/
def minors2 (l : List Point) : List Int :=
  [co l 3 0 - co l 2 0, co l 2 1 - co l 3 1, co l 1 0 - co l 3 0, 1]

/-- The minors of `vorient3` in rank order (R215). -/
def minors3 (l : List Point) : List Int :=
  let o (j k a b c : Nat) : Int := orientIn j k (pt l a) (pt l b) (pt l c)
  [o 0 1 2 3 4, -o 0 2 2 3 4, o 1 2 2 3 4, -o 0 1 1 3 4,
   co l 3 0 - co l 4 0, co l 4 1 - co l 3 1, o 0 2 1 3 4, co l 4 0 - co l 3 0,
   co l 3 2 - co l 4 2, -o 1 2 1 3 4, co l 3 1 - co l 4 1, co l 4 2 - co l 3 2,
   o 0 1 1 2 4, co l 4 0 - co l 2 0, co l 2 1 - co l 4 1, co l 1 0 - co l 4 0, 1]

/-- The sign of the first minor that is not zero. -/
def firstSign (l : List Int) : Int := sgnInt ((l.find? (· != 0)).getD 0)

/-- The tie-break of an orientation: the first nonzero minor times the parity. -/
def tieOrient (minors : List Point → List Int) (pts : List Point) (ids : List Nat) : Int :=
  let order := rankOrder ids
  firstSign (minors (order.map fun k => pts.getD k [])) * parityOf order

/-- The tie-break of a lifted determinant (R216): its lift cofactors in rank order; `first` is the sign of the first
point's. With none nonzero it is −1. -/
def tieLift (first : Int) (pts : List Point) (ids : List Nat) : Int :=
  let l := (rankOrder ids).map fun k =>
    first * (if k % 2 = 0 then 1 else -1) * exactDet false (pts.eraseIdx k)
  let x := firstSign l
  if x = 0 then -1 else x

/-! ## The predicates (R207, R208) -/

/-- The outcome of a lane: its sign, its stage, and whether a tie-break decided it. -/
structure GeoLane where
  sign : Int
  stage : Nat
  tie : Bool
deriving DecidableEq, Repr

/-- The closed intervals between two pairs of numbers meet. -/
def spansMeet (a b c d : Int) : Bool := decide (max (min a b) (min c d) ≤ min (max a b) (max c d))

/-- `vsegx`: four orientations, with their tie-breaks where identifiers are given, or the contact test. -/
def segLane (pts : List Point) (ids : Option (List Nat)) : GeoLane :=
  let pick (l : List Nat) : List Point := l.map fun k => pts.getD k []
  let one (l : List Nat) : GeoLane :=
    let (x, stage) := settleDet false 61 (pick l)
    match ids with
    | none => ⟨x, stage, false⟩
    | some ids =>
      if x = 0 then ⟨tieOrient minors2 (pick l) (l.map fun k => ids.getD k 0), 3, true⟩ else ⟨x, stage, false⟩
  let o1 := one [0, 1, 2]
  let o2 := one [0, 1, 3]
  let o3 := one [2, 3, 0]
  let o4 := one [2, 3, 1]
  let stage := max (max o1.stage o2.stage) (max o3.stage o4.stage)
  let tie := o1.tie || o2.tie || o3.tie || o4.tie
  if o1.sign * o2.sign < 0 && o3.sign * o4.sign < 0 then ⟨1, stage, tie⟩
  else if ids.isSome || 0 < o1.sign * o2.sign || 0 < o3.sign * o4.sign then ⟨-1, stage, tie⟩
  else
    let c (k j : Nat) : Int := (pts.getD k []).getD j 0
    let flat := o1.sign == 0 && o2.sign == 0 && o3.sign == 0 && o4.sign == 0
    let meet := !flat || (spansMeet (c 0 0) (c 1 0) (c 2 0) (c 3 0) && spansMeet (c 0 1) (c 1 1) (c 2 1) (c 3 1))
    ⟨if meet then 0 else -1, 3, false⟩

/-- A lane of a determinant, with its tie-break where identifiers are given. -/
def detLane (lift : Bool) (ef : Nat) (tieOf : List Point → List Nat → Int) (pts : List Point)
    (ids : Option (List Nat)) : GeoLane :=
  let (x, stage) := settleDet lift ef pts
  match ids with
  | some ids => if x = 0 then ⟨tieOf pts ids, 3, true⟩ else ⟨x, stage, false⟩
  | none => ⟨x, stage, false⟩

def geoLane (k : Geo) (pts : List Point) (ids : Option (List Nat)) : GeoLane :=
  match k with
  | .orient2 => detLane false 61 (tieOrient minors2) pts ids
  | .orient3 => detLane false 60 (tieOrient minors3) pts ids
  | .incirc => detLane true 59 (tieLift 1) pts ids
  | .insph => detLane true 58 (tieLift (-1)) pts ids
  | .segx => segLane pts ids

/-- The code of a lane (R209). -/
def geoCode (x : GeoLane) : Nat := wrapInt x.sign 4 + 16 * boolNat x.tie

/-! ## A predicate word (R205, R206, R210 to R213) -/

/-- Coordinates as integers at one scale; none when one is not finite. -/
def scaleCoords (l : List FV) : Option (List Int) :=
  if l.all fun x => (match x with | .num .. => true | _ => false) then
    let low := l.foldl (fun (b : Int) x => match x with | .num _ m e => if m = 0 then b else min b e | _ => b) 2000
    some (l.map fun x => match x with
      | .num n m e => if m = 0 then 0 else scaled n m e low
      | _ => 0)
  else none

/-- Points of `d` coordinates each. -/
def chunk (d : Nat) : Nat → List Int → List Point
  | 0, _ => []
  | n + 1, l => l.take d :: chunk d n (l.drop d)

/-- The code of a lane, its stage, and whether it is non-finite or tied. -/
def geoEval (k : Geo) (f64 : Bool) (coords : List Nat) (ids : Option (List Nat)) : Nat × Nat × Bool × Bool :=
  match scaleCoords (coords.map (decodeF (if f64 then fmt64 else fmt32) false)) with
  | none => (0x80000000, 1, true, false)
  | some l =>
    let x := geoLane k (chunk k.dim k.points l) ids
    (geoCode x, x.stage, false, x.tie)

/-- Coordinate `c` of each lane: one register, or a pair. -/
def coordLanes (st : Strand) (w : GeoWord) (c : Nat) : Act (List Nat) := do
  let n := if w.f64 then 2 else 1
  let regs ← readGroupV st c (w.a + BitVec.ofNat 6 (n * c)) n
  .ok (elemsOf (if w.f64 then .f64 else .f32) regs)

def coordAll (st : Strand) (w : GeoWord) : Nat → Act (List (List Nat))
  | 0 => .ok []
  | n + 1 => do
    let l ← coordAll st w n
    let x ← coordLanes st w n
    .ok (l ++ [x])

/-- The identifiers of each point, by lane. -/
def idLanes (st : Strand) (b : BitVec 6) (n : Nat) : Act (List (List Nat)) := do
  let regs ← readGroupV st 32 b n
  .ok (regs.map fun x => elemsOf .u32 [x])

/-- The register results of a predicate: one register, or none for SQ. -/
def predDst (st : Strand) : VDst → List Reg
  | .v n => [.v (rotV st n)]
  | _ => []

/-- Issues a predicate: its sources are read and its lanes evaluated; its result comes with PREDICATE_COMPLETE. -/
def predicateWord (s : State) (k : Geo) (i : Instr) (w : GeoWord) : Outcome State Fault Refusal :=
  issueWith s w.tk fun wk st s' => do
    await st.pred.isNone
    let cs ← coordAll st w (k.points * k.dim)
    let ids ← match w.ids with
      | none => .ok none
      | some b => do
        let l ← idLanes st b k.points
        .ok (some l)
    let en ← lanesOf st w.lanes
    await (w.d != .sq || decide (st.sq.length < 8))
    let lanes := filterBelow 128 (bit en)
    let res := lanes.map fun i => (i, geoEval k w.f64 (cs.map fun l => l.getD i 0) (ids.map fun l => l.map fun x => x.getD i 0))
    let value := (List.range 128).map fun i => match res.lookup i with | some x => x.1 | none => 0
    let mask := (List.range 128).map fun i => if bit en i then 2 ^ 32 - 1 else 0
    let n2 := (res.filter fun p => p.2.2.1 == 2).length
    let n3 := (res.filter fun p => p.2.2.1 == 3).length
    let ties := (res.filter fun p => p.2.2.2.2).length
    let nf := (res.filter fun p => p.2.2.2.1).map (·.1)
    let dst := predDst st w.d
    let en' := getEng st .v
    let run : PredRun :=
      { word := i, index := en'.pc, pos := en'.passed, dst := dst, toSq := w.d == .sq,
        value := BitVec.ofNat 4096 (packElems 32 value), wmask := BitVec.ofNat 4096 (packElems 32 mask), flags := 0,
        stage2 := n2, stage3 := n3, sos := ties, nf := if w.nf then nf.head? else none, poison := false }
    let pend : List Pending := dst.map fun r => ⟨.v, en'.passed, r, none, run.wmask, s.clock, 15, false⟩
    let st := perfAdd (perfAdd (perfAdd (perfAdd (perfAdd st 0x60 (res.length - n2 - n3)) 0x61 n2) 0x62 n3) 0x63 ties)
      0x64 nf.length
    let st := { st with pred := some run, pending := st.pending ++ pend }
    .ok (chargeStrand (putStrand s' (Walker.ref wk) (stepPast s' st .v)) (Walker.ref wk)
      (centiNj (80 + 2 * n2 + 20 * n3)))

def execVorient2 (w : GeoWord) (s : State) : Outcome State Fault Refusal := predicateWord s .orient2 (.vorient2 w) w
def execVorient3 (w : GeoWord) (s : State) : Outcome State Fault Refusal := predicateWord s .orient3 (.vorient3 w) w
def execVincirc (w : GeoWord) (s : State) : Outcome State Fault Refusal := predicateWord s .incirc (.vincirc w) w
def execVinsph (w : GeoWord) (s : State) : Outcome State Fault Refusal := predicateWord s .insph (.vinsph w) w
def execVsegx (w : GeoWord) (s : State) : Outcome State Fault Refusal := predicateWord s .segx (.vsegx w) w

/-- Gives the pending result of a word of an engine its value. -/
def fillPending (st : Strand) (e : Eng) (pos : Nat) (x : BitVec 4096) : Strand :=
  { st with pending := st.pending.map fun (p : Pending) =>
      if p.eng == e && p.pos == pos && p.val.isNone then { p with val := some x } else p }

/-- PREDICATE_COMPLETE: the result lands as one write or one SQ entry; then NONFINITE, where enabled (R210, R212). -/
def execPredicateComplete (s : State) : Outcome State Fault Refusal :=
  let r := Walker.ref s.cur
  match getStrand s r with
  | none => .next s
  | some st =>
    match st.pred with
    | none => .next s
    | some p =>
      let st := { st with pred := none }
      let st := if p.toSq then { st with sq := st.sq ++ [{ data := p.value &&& p.wmask, poison := p.poison }] }
        else
          let st := fillPending st .v p.pos p.value
          p.dst.foldl (fun st x => landReg st x st.pending []) st
      let s := putStrand s r st
      match p.nf with
      | none => .next s
      | some lane => .next (raiseLate s r .v p.index { cause := .nonFinite, addr := lane })

end Sys2Proof.Machine
end

