-- ==== Sys2Proof/Machine/Tiles.lean ====
section
/-! DEFINITION. Operand slots, accumulator tiles and parked registers as physical resources of a cell (R135 to R139):
taking, freeing and restoring them, `mclaim` and `mrel` (R226, R227), the accumulator columns that V moves (R196) and
`vspill` and `vfill` (R199, R200). Contents live with the strand's names; only who holds which physical place lives in
the cell. What R399 gives a place in a strand's save area is written there too (log entry 83).
-/

namespace Sys2Proof.Machine

open Host (Outcome)

/-! ## Save areas (R399) -/

/-- The saved form of a slot: its elements and the record of R221 above them. -/
def slotImage (x : OmSlot) : Nat :=
  let rec_ := x.scale.toNat + boolNat (x.state == .speculative) * 2 ^ 8192 + x.tog.toNat * 2 ^ 8256 +
    x.nf.toNat * 2 ^ 8264 + x.desc.toNat * 2 ^ 8328
  x.data.toNat + rec_ * 2 ^ 65536

/-- A slot, a tile, a vector register and a parked spill go to a save area. -/
def saveSlot (s : State) (area n : Nat) (x : OmSlot) : State := memWrite s (area + 0x20000 + 0x2800 * n) 9265 (slotImage x)

def saveTile (s : State) (area n : Nat) (x : AccTile) : State := memWrite s (area + 0x80000 + 0x4000 * n) 16384 x.data.toNat

def saveReg (s : State) (area n : Nat) (x : Row) : State := memWrite s (area + 0x10000 + 512 * n) 512 x.toNat

def saveSpill (s : State) (area n : Nat) (x : Row) : State := memWrite s (area + 0x18000 + 512 * n) 512 x.toNat

/-! ## Parked registers (R137, R139) -/

/-- The strand with the parked registers of some places moved to its save area. -/
def moveParked (p : Parked → Bool) (st : Strand) : Strand :=
  let f (x : Nat × Parked × Row) : Nat × Parked × Row := if p x.2.1 then (x.1, .save, x.2.2) else x
  { st with spill := st.spill.map f }

/-- The registers that a strand has parked in some places go to its save area. -/
def saveParked (p : Parked → Bool) (s : State) (st : Strand) : State :=
  st.spill.foldl (fun s x => if p x.2.1 then saveSpill s st.area x.1 x.2.2 else s) s

/-- Moves the registers parked in some places of a cell, whichever strand parked them. -/
def moveAllParked (s : State) (cell : Nat) (p : Parked → Bool) : State :=
  let s := (s.strands.filter fun x => x.1 / 4 == cell).foldl (fun s x => saveParked p s x.2) s
  let s := ((s.ctxs.filter fun x => x.1 / 64 == cell).flatMap fun x => x.2.departed).foldl (saveParked p) s
  let f (x : Nat × Strand) : Nat × Strand := if x.1 / 4 = cell then (x.1, moveParked p x.2) else x
  let g (x : Nat × Context) : Nat × Context :=
    if x.1 / 64 = cell then (x.1, { x.2 with departed := x.2.departed.map (moveParked p) }) else x
  { s with strands := s.strands.map f, ctxs := s.ctxs.map g }

def inTile (j : Nat) : Parked → Bool
  | .tile k _ => k == j
  | _ => false

def inBank (slot : Nat) : Parked → Bool
  | .bank k _ => k == slot
  | _ => false

/-- The places that parked registers take on a cell. -/
def parkedOn (s : State) (cell : Nat) : List Parked :=
  ((s.strands.filter fun x => x.1 / 4 == cell).flatMap fun x => x.2.spill.map (·.2.1)) ++
  ((s.ctxs.filter fun x => x.1 / 64 == cell).flatMap fun x => x.2.departed.flatMap fun d => d.spill.map (·.2.1))

/-- A departed strand's live registers lie in the bank of a slot. -/
def bankHeld (s : State) (cell slot : Nat) : Bool :=
  s.ctxs.any fun x => x.1 / 64 == cell && x.2.departed.any fun d => d.vHome == some slot

/-- The first place available for a register of a strand (R137). -/
def parkPlace (s : State) (r : SRef) (part : Nat) : Parked :=
  let c := getCell s r.cell
  let used := parkedOn s r.cell
  let tiles : List Parked :=
    if c.mu = some part then
      (List.range 16).flatMap fun j =>
        if (c.acc.get (Fin.ofNat 16 j)).isNone then (List.range 32).map fun k => .tile j (2 * k) else []
    else []
  let banks : List Parked :=
    (List.range 4).flatMap fun k =>
      if c.slots.get (Fin.ofNat 4 k) = some part && (getStrand s ⟨r.cell, k⟩).isNone && !bankHeld s r.cell k then
        (List.range 64).map fun n => .bank k n
      else []
  ((tiles ++ banks).find? fun p => !used.contains p).getD .save

/-! ## Taking and freeing (R135) -/

/-- The first physical resource that no strand holds. -/
def freeAt (l : List (Option Holder)) : Option Nat := l.findIdx? (·.isNone)

/-- The slot of the strand of the context that departed earliest: its index in the list, its name and the place. Of that
strand's slots it is the one of the lowest name (log entry 84). -/
def omVictim (l : List Strand) : Option (Nat × Nat × Nat) :=
  l.zipIdx.findSome? fun d => (List.range 32).findSome? fun n =>
    (d.1.om.get (Fin.ofNat 32 n)).phys.map fun j => (d.2, n, j)

def accVictim (l : List Strand) : Option (Nat × Nat × Nat) :=
  l.zipIdx.findSome? fun d => (List.range 16).findSome? fun n =>
    (d.1.acc.get (Fin.ofNat 16 n)).phys.map fun j => (d.2, n, j)

/-- A physical slot for a name of a strand: a free one, or a departed strand's, whose contents are saved. -/
def takeOmPlace (s : State) (cell part uid name : Nat) : Option (Nat × State) :=
  let hold (s : State) (j : Nat) := modCell s cell fun c => { c with om := c.om.set (Fin.ofNat 32 j) (some ⟨uid, name⟩) }
  match freeAt (getCell s cell).om.toList with
  | some j => some (j, hold s j)
  | none =>
    match omVictim (getCtx s cell part).departed with
    | none => none
    | some (i, n, j) =>
      let save (d : Strand) : Strand := { d with om := d.om.set (Fin.ofNat 32 n) { d.om.get (Fin.ofNat 32 n) with phys := none } }
      let s := match (getCtx s cell part).departed[i]? with
        | some d => saveSlot s d.area n (d.om.get (Fin.ofNat 32 n))
        | none => s
      some (j, hold (modCtx s cell part fun c => { c with departed := c.departed.modify i save }) j)

/-- A physical tile for a name of a strand. Registers parked in it move first (R139). -/
def takeAccPlace (s : State) (cell part uid name : Nat) : Option (Nat × State) :=
  let hold (s : State) (j : Nat) :=
    modCell (moveAllParked s cell (inTile j)) cell fun c =>
      { c with acc := c.acc.set (Fin.ofNat 16 j) (some ⟨uid, name⟩) }
  match freeAt (getCell s cell).acc.toList with
  | some j => some (j, hold s j)
  | none =>
    match accVictim (getCtx s cell part).departed with
    | none => none
    | some (i, n, j) =>
      let save (d : Strand) : Strand := { d with acc := d.acc.set (Fin.ofNat 16 n) { d.acc.get (Fin.ofNat 16 n) with phys := none } }
      let s := match (getCtx s cell part).departed[i]? with
        | some d => saveTile s d.area n (d.acc.get (Fin.ofNat 16 n))
        | none => s
      some (j, hold (modCtx s cell part fun c => { c with departed := c.departed.modify i save }) j)

def getAcc (st : Strand) (n : BitVec 4) : AccTile := st.acc.get n.toFin

def putAcc (st : Strand) (n : BitVec 4) (x : AccTile) : Strand := { st with acc := st.acc.set n.toFin x }

/-- Takes a claimed slot for a name. -/
def claimOm (s : State) (cell : Nat) (st : Strand) (n : BitVec 5) : Act (Strand × State) :=
  match takeOmPlace s cell st.part st.uid n.toNat with
  | none => stall
  | some (j, s) => .ok (putOm st n { state := .claimed, phys := some j }, s)

/-- Takes a zeroed tile for a name (R225). -/
def claimAcc (s : State) (cell : Nat) (st : Strand) (n : BitVec 4) : Act (Strand × State) :=
  match takeAccPlace s cell st.part st.uid n.toNat with
  | none => stall
  | some (j, s) => .ok (putAcc (moveParked (inTile j) st) n { held := true, phys := some j }, s)

/-- The tile of a word that writes a name: taken when the name is not held, awaited when it is saved (R136, R225). -/
def needTile (s : State) (cell : Nat) (st : Strand) (n : BitVec 4) : Act (Strand × State) :=
  let x := getAcc st n
  if !x.held then claimAcc s cell st n
  else if x.phys.isNone then stall
  else .ok (st, s)

/-- Gives the place of a released slot back, or leaves it with a fill that still writes it (R224). -/
def freeOm (s : State) (cell : Nat) (st : Strand) (n : BitVec 5) : Strand × State :=
  let x := getOm st n
  let drop (f : Fill) : Fill := if f.om = n then { f with dropped := true } else f
  let late := st.fills.reverse.find? fun f => f.om == n && f.slot.phys.isNone
  let st' := putOm { st with fills := st.fills.map drop } n {}
  match late, x.phys with
  | some f, some j =>
    let keep (g : Fill) : Fill :=
      if g.om = n && g.pos = f.pos && g.slot.phys.isNone then { g with slot := { g.slot with phys := some j } } else g
    ({ st' with fills := st'.fills.map keep }, s)
  | none, some j => (st', modCell s cell fun c => { c with om := c.om.set (Fin.ofNat 32 j) none })
  | _, none => (st', s)

def freeAcc (s : State) (cell : Nat) (st : Strand) (n : BitVec 4) : Strand × State :=
  match (getAcc st n).phys with
  | some j => (putAcc st n {}, modCell s cell fun c => { c with acc := c.acc.set (Fin.ofNat 16 j) none })
  | none => (putAcc st n {}, s)

/-! ## Restoring (R136) -/

/-- RESOURCE_RESTORE: a saved resource of a resident strand comes back. Its contents are the strand's own. -/
def execResourceRestore (r : SRef) (res : LargeRes) (s : State) : Outcome State Fault Refusal :=
  match getStrand s r with
  | none => .next s
  | some st =>
    match res with
    | .v n =>
      if st.vOut.getLsbD n.toNat then
        .next (putStrand s r (perfAdd { st with vOut := st.vOut &&& ~~~(BitVec.twoPow 64 n.toNat),
                                                vWritten := st.vWritten ||| BitVec.twoPow 64 n.toNat } 0x06 1))
      else .next s
    | .om n =>
      let x := getOm st n
      if x.state = .notHeld || x.phys.isSome then .next s
      else match takeOmPlace s r.cell st.part st.uid n.toNat with
        | none => .next s
        | some (j, s) => .next (putStrand s r (perfAdd (putOm st n { x with phys := some j }) 0x06 1))
    | .acc n =>
      let x := getAcc st n
      if !x.held || x.phys.isSome then .next s
      else match takeAccPlace s r.cell st.part st.uid n.toNat with
        | none => .next s
        | some (j, s) =>
          .next (putStrand s r (perfAdd (putAcc (moveParked (inTile j) st) n { x with phys := some j }) 0x06 1))

/-! ## Words of M -/

/-- A word of M waits while a nest runs or a drain pushes its entries (R243). -/
def quietM (st : Strand) : Act Unit := await (st.nest.isNone && st.drain.isNone)

/-- An M word whose effect is on the strand and its cell. -/
def issueM (s : State) (tk : Tk) (body : SRef → Strand → State → Act (Strand × State)) : Outcome State Fault Refusal :=
  issueWith s tk fun w st s' => do
    quietM st
    let (st, s') ← body (Walker.ref w) st s'
    .ok (putStrand s' (Walker.ref w) (stepPast s' st .m))

/-- The names of a range of slots. -/
def slotNames : Option (BitVec 5 × BitVec 5) → List (BitVec 5)
  | none => []
  | some (lo, hi) => (List.range (hi.toNat + 1 - lo.toNat)).map fun i => lo + BitVec.ofNat 5 i

def claimOms (s : State) (cell : Nat) (st : Strand) : List (BitVec 5) → Act (Strand × State)
  | [] => .ok (st, s)
  | n :: rest => do
    let (st, s) ← claimOm s cell st n
    claimOms s cell st rest

def freeOms (s : State) (cell : Nat) (st : Strand) : List (BitVec 5) → Strand × State
  | [] => (st, s)
  | n :: rest =>
    let (st, s) := freeOm s cell st n
    freeOms s cell st rest

/-- `mclaim` takes every name or, while one place is missing, none (R227). -/
def execMclaim (tk : Tk) (slots : Option (BitVec 5 × BitVec 5)) (tile : Option (BitVec 4)) (s : State) :
    Outcome State Fault Refusal :=
  issueM s tk fun r st s' => do
    let names := slotNames slots
    check (!(names.any fun n => (getOm st n).state != .notHeld) &&
      !(match tile with | some t => (getAcc st t).held | none => false)) { cause := .opmState }
    let (st, s') ← claimOms s' r.cell st names
    match tile with
    | none => .ok (st, s')
    | some t => claimAcc s' r.cell st t

/-- MCLAIM_RETRY: a claim that waits tries again (R227). -/
def execMclaimRetry (s : State) : Outcome State Fault Refusal :=
  let w : Walker := { s.cur with eng := .m }
  match turn s w with
  | .run (.mclaim tk slots tile) =>
    match execMclaim tk slots tile { s with cur := w } with
    | .next s' => .next { s' with cur := s.cur }
    | o => o
  | _ => .next s

/-- `mrel` waits for every earlier M word (R227). -/
def execMrel (tk : Tk) (slots : Option (BitVec 5 × BitVec 5)) (tile : Option (BitVec 4)) (s : State) :
    Outcome State Fault Refusal :=
  issueM s tk fun r st s' => do
    await (engDone st .m)
    let names := slotNames slots
    check (!(names.any fun n => (getOm st n).state == .notHeld) &&
      (match tile with | some t => (getAcc st t).held | none => true)) { cause := .opmState }
    let (st, s') := freeOms s' r.cell st names
    match tile with
    | none => .ok (st, s')
    | some t => .ok (freeAcc s' r.cell st t)

/-! ## Tile elements (R196, R218, R225) -/

/-- Bit position of element (r, c) of a tile, column major. -/
def tileIx (r c : Nat) : Nat := 64 * c + r

/-- Element (r, c) of a tile. -/
def tileElem (t : AccTile) (r c : Nat) : Nat := elem t.data.toNat 32 (tileIx r c)

/-- A tile's bits with some elements replaced. -/
def setElems (x : Nat) : List (Nat × Nat) → Nat
  | [] => x
  | (i, v) :: rest => setElems (x - elem x 32 i * 2 ^ (32 * i) + v % 2 ^ 32 * 2 ^ (32 * i)) rest

/-- The elements of quadrant q (R218). -/
def quadRow (q : Nat) : Nat := 32 * (q / 2)
def quadCol (q : Nat) : Nat := 32 * (q % 2)

/-- The bits of the quadrants of a mask. -/
def quadBits (qmask : BitVec 4) : BitVec 131072 :=
  BitVec.ofNat 131072 (packElems 32 ((List.range 4096).map fun i =>
    if qmask.getLsbD (2 * (i % 64 / 32) + i / 64 / 32) then 2 ^ 32 - 1 else 0))

/-- `y` over `x` in the 64-bit words of a mask. -/
def mixWords {w : Nat} (n : Nat) (mask : Nat) (x y : BitVec w) : BitVec w :=
  let m := BitVec.ofNat w (spread 64 n (bit mask))
  (x &&& ~~~m) ||| (y &&& m)

/-- The other contents that a read of a tile may find while the words of M that write it are not complete, latest first: what
each of them found there, and zero while a drain clears it (R53, R233, R236). -/
def tileOlds (st : Strand) (n : BitVec 4) : List (BitVec 131072) :=
  (match st.drain with | some d => if d.clear && d.tile == n then [0] else [] | none => []) ++
  (match st.nest with
    | some r => if r.tile = n then (match r.old with | some x => [x] | none => []) else []
    | none => []) ++
  (st.mwords.reverse.flatMap fun w => (w.old.filter fun x => x.1 == n).map (·.2))

/-- A tile as another engine reads it, with no token after the words that write it: each aligned 8-byte word is old or new
(R53; log entry 34). -/
def raceTile (st : Strand) (n : BitVec 4) : AccTile :=
  let x := getAcc st n
  let mask (k : Nat) : Nat := (Config.raceBits st.free k 0).toNat % 2 ^ 1024 + 2 ^ 1024 * (Config.raceBits st.free k 1).toNat
  { x with data := (tileOlds st n).zipIdx.foldl (fun d y => mixWords 2048 (mask y.2) d y.1) x.data }

/-- Another engine writes part of a tile: it later reads what it wrote, whatever words of M it races with. -/
def patchTile (st : Strand) (n : BitVec 4) (f : BitVec 131072 → BitVec 131072) : Strand :=
  let x := getAcc st n
  let old (y : BitVec 4 × BitVec 131072) : BitVec 4 × BitVec 131072 := if y.1 = n then (y.1, f y.2) else y
  let word (w : MWord) : MWord := { w with old := w.old.map old }
  let nest (r : NestRun) : NestRun := if r.tile = n then { r with old := r.old.map f } else r
  { putAcc st n { x with data := f x.data } with mwords := st.mwords.map word, nest := st.nest.map nest }

/-- A word of M that has written tiles completes later (R219, R233). -/
def noteTile (st : Strand) (n : BitVec 4) (old : BitVec 131072) : Strand :=
  let en := getEng st .m
  { st with mwords := st.mwords ++ [⟨en.passed, en.pc, [(n, old)]⟩] }

/-- The fault of a read of a poisoned tile (R415). -/
def tilePoison (st : Strand) (n : BitVec 4) : Trap :=
  { cause := .poison, detail := 1, unit := some (.tile st.uid n.toNat) }

/-- `mzero` (R228). -/
def execMzero (tk : Tk) (acc qmask : BitVec 4) (s : State) : Outcome State Fault Refusal :=
  issueM s tk fun r st s' => do
    let (st, s') ← needTile s' r.cell st acc
    let x := getAcc st acc
    let y := if qmask = 15 then { x with data := 0, poison := false, fresh := false }
      else { x with data := x.data &&& ~~~(quadBits qmask) }
    .ok (noteTile (putAcc st acc y) acc x.data, s')

/-- PRODUCT_WORD_COMPLETE: the oldest word that wrote a tile completes (R233). -/
def execProductWordComplete (s : State) : Outcome State Fault Refusal :=
  .next (modStrand s (Walker.ref s.cur) fun st => { st with mwords := st.mwords.drop 1 })

/-! ## Accumulator columns at V (R196) -/

/-- The column that `vb` names, with its checks. -/
def accColumn (s : State) (cell part : Nat) (b : List Nat) : Act Nat := do
  let c := b.getD 0 0 % 2 ^ 32
  check (c % 2 == 0 && decide (c < 1024)) (opField c)
  check ((getCell s cell).mu == some part) (foreignTrap c)
  .ok c

/-- `vaccrd` reads the pair; a name that is not held reads zeros. -/
def execVaccrd (c : VCtl) (d : VDst) (b : VSrc) (s : State) : Outcome State Fault Refusal :=
  issueWith s c.h.tk fun w st s' => do
    let (bs, st) ← readSrc st 0 1 b
    let en ← lanesOf st c.lanes
    let col ← accColumn s' w.cell st.part bs
    let x := raceTile st (BitVec.ofNat 4 (col / 64))
    await (!x.held || x.phys.isSome)
    check (!x.poison) (tilePoison st (BitVec.ofNat 4 (col / 64)))
    let st ← writeDst s.clock st c.h.lat d [elem x.data.toNat 2048 (col % 64) + 2 ^ 2048 * elem x.data.toNat 2048 (col % 64 + 1)]
      (maskRegs c.ty en)
    .ok (chargeStrand (putStrand s' (Walker.ref w) (stepPast s' st .v)) (Walker.ref w) (costV c.ty 80))

/-- `vaccwr` writes the pair in the enabled lanes, taking the tile when the name is not held. -/
def execVaccwr (c : VCtl) (a b : VSrc) (s : State) : Outcome State Fault Refusal :=
  issueWith s c.h.tk fun w st s' => do
    let (as, st) ← readSrc st 0 1 a
    let (bs, st) ← readSrc st 2 1 b
    let en ← lanesOf st c.lanes
    let col ← accColumn s' w.cell st.part bs
    let n := BitVec.ofNat 4 (col / 64)
    let (st, s') ← needTile s' w.cell st n
    let changes := (List.range 128).filterMap fun i =>
      if bit en i then some (64 * (col % 64) + i, elem (as.getD 0 0) 32 i) else none
    let st := patchTile st n fun x => BitVec.ofNat 131072 (setElems x.toNat changes)
    .ok (chargeStrand (putStrand s' (Walker.ref w) (stepPast s' st .v)) (Walker.ref w) (costV c.ty 80))

/-! ## `vspill` and `vfill` (R199, R200) -/

/-- The entry of a spilled register. -/
def spillOf (st : Strand) (n : BitVec 6) : Option (Nat × Parked × Row) := st.spill.find? fun x => x.1 == n.toNat

def execVspill (tk : Tk) (a : BitVec 6) (s : State) : Outcome State Fault Refusal :=
  issueWith s tk fun w st s' => do
    let n := rotV st a
    let x ← readReg st .v 0 (.v n)
    let place := match spillOf st n with | some e => e.2.1 | none => parkPlace s' (Walker.ref w) st.part
    let s' := if place = .save then saveSpill s' st.area n.toNat x else s'
    let st := { st with spill := st.spill.filter (fun e => e.1 != n.toNat) ++ [(n.toNat, place, x)] }
    .ok (chargeStrand (putStrand s' (Walker.ref w) (stepPast s' st .v)) (Walker.ref w) (centiNj 80))

def execVfill (tk : Tk) (d : VDst) (a : BitVec 6) (s : State) : Outcome State Fault Refusal :=
  issueWith s tk fun w st s' => do
    let n := rotV st a
    match spillOf st n with
    | none => trap (opField 0)
    | some e => do
      let st ← writeDst s.clock st 15 d [e.2.2.toNat] [2 ^ 4096 - 1]
      let st := { st with spill := st.spill.filter fun x => x.1 != n.toNat }
      .ok (chargeStrand (putStrand s' (Walker.ref w) (stepPast s' st .v)) (Walker.ref w) (centiNj 80))

end Sys2Proof.Machine
end

