-- ==== Sys2Proof/Machine/Pattern.lean ====
section
/-! DEFINITION. The index generator (R246 to R255): pattern words, the sets that a program gives for each row, the
value numbers of a pattern, and `mpload` and `mpbind`. A set of columns is a number whose bit c says that it holds
column c.
-/

namespace Sys2Proof.Machine

open Host (Outcome)

abbrev PatWord := BitVec 32

/-! ## Fields (R249) -/

def patOp (w : PatWord) : Nat := bits w.toNat 31 27

/-- A field as an unsigned number. -/
def pf (w : PatWord) (hi lo : Nat) : Nat := bits w.toNat hi lo

/-- A nine-bit signed field. -/
def ps (w : PatWord) (lo : Nat) : Int := sgn (bits w.toNat (lo + 8) lo) 9

/-- Bits of a pattern word that the table gives as zero. -/
def patReserved (w : PatWord) : Bool :=
  match patOp w with
  | 0x01 | 0x07 => pf w 8 0 == 0
  | 0x02 => pf w 3 0 == 0
  | 0x03 | 0x08 | 0x09 => pf w 26 8 == 0
  | 0x04 => pf w 18 0 == 0
  | 0x05 => true
  | 0x06 => pf w 17 1 == 0
  | 0x0A => pf w 10 0 == 0
  | _ => pf w 26 0 == 0

/-- The limits of the operands that hold whatever K is. -/
def patLimits (w : PatWord) : Bool :=
  match patOp w with
  | 0x01 => decide (ps w 18 ≤ ps w 9)
  | 0x02 => pf w 17 12 != 0 && pf w 11 4 != 0
  | 0x05 => pf w 10 3 != 0 && decide (pf w 2 0 ≤ 1)
  | 0x07 => decide (pf w 26 18 ≤ pf w 17 9) && decide (pf w 17 9 ≤ 255)
  | 0x0A => pf w 26 19 != 0
  | _ => true

/-- POP is assigned. -/
def patAssigned (w : PatWord) : Bool := (decide (1 ≤ patOp w) && decide (patOp w ≤ 0x0C)) || patOp w == 0x1F

/-- Sets on the stack after a word, none when it finds too few or leaves more than four. -/
def patDepth (w : PatWord) (d : Nat) : Option Nat :=
  match patOp w with
  | 0x01 | 0x02 | 0x03 | 0x04 | 0x05 => if d < 4 then some (d + 1) else none
  | 0x0B | 0x0C => if 2 ≤ d then some (d - 1) else none
  | 0x1F => if d = 1 then some 0 else none
  | _ => if 1 ≤ d then some d else none

def isPend (w : PatWord) : Bool := patOp w == 0x1F

/-- The checks of R254 on words that start with an empty stack and must end with a `pend`. -/
def patProgramOk : Nat → List PatWord → Bool
  | _, [] => false
  | d, w :: rest =>
    patAssigned w && patReserved w && patLimits w &&
    match patDepth w d with
    | none => false
    | some d' => if rest.isEmpty then isPend w else patProgramOk d' rest

/-! ## Sets -/

/-- The set of those columns of a list that lie below K. -/
def colSet (k : Nat) (l : List Int) : Nat :=
  l.foldl (fun (s : Nat) (c : Int) => if 0 ≤ c ∧ c < k then s ||| 2 ^ c.toNat else s) 0

/-- The columns of a set below K, ascending. -/
def setCols (k s : Nat) : List Nat := filterBelow k (bit s)

/-- The set mapped through a function and cut to the domain. -/
def mapSet (k s : Nat) (f : Nat → Int) : Nat := colSet k ((setCols k s).map f)

/-- The mixing function (R251). -/
def h32 (x : BitVec 32) : BitVec 32 :=
  let x := x ^^^ (x >>> 16)
  let x := x * 0x45D9F3B5
  let x := x ^^^ (x >>> 16)
  let x := x * 0x45D9F3B5
  x ^^^ (x >>> 16)

def h32n (x : Nat) : Nat := (h32 (BitVec.ofNat 32 x)).toNat

/-- h of the Feistel permutation: half of the smallest even n, at least 2, with 2^n ≥ K. -/
def halfBits (k : Nat) : Nat := ((List.range 5).find? fun h => 1 ≤ h && k ≤ 2 ^ (2 * h)).getD 4

/-- The four Feistel rounds. -/
def feistel (seed h x : Nat) : Nat :=
  let (l, r) := (List.range 4).foldl (fun (p : Nat × Nat) i =>
    (p.2, p.1 ^^^ (h32n (seed * 2 ^ 16 ^^^ i * 2 ^ 12 ^^^ p.2) % 2 ^ h))) (x / 2 ^ h, x % 2 ^ h)
  l * 2 ^ h + r

/-- π: the rounds repeat until the value lies below K. A cycle of at most 2^n steps ends there. -/
def cycleWalk (seed h k : Nat) : Nat → Nat → Nat
  | 0, x => x
  | n + 1, x =>
    let y := feistel seed h x
    if y < k then y else cycleWalk seed h k n y

def feistelPerm (seed k x : Nat) : Nat := cycleWalk seed (halfBits k) k (2 ^ (2 * halfBits k)) x

/-- The columns of `phash` for row r (R251). -/
def hashCols (seed n mode r k : Nat) : List Int :=
  (List.range n).map fun t =>
    if mode = 0 then (h32n (seed * 2 ^ 16 ^^^ r * 2 ^ 8 ^^^ t) % k : Nat)
    else (feistelPerm seed k ((r * n + t) % k) : Nat)

/-- One word's effect on the stack for row r over K columns (R249). `kron` is the set that a `pkron` gives. -/
def patStep (kron r k : Nat) (w : PatWord) (stack : List Nat) : List Nat :=
  let top := stack.headD 0
  let rest := stack.drop 1
  match patOp w with
  | 0x01 =>
    colSet k ((List.range k).filterMap fun c =>
      let d : Int := (c : Int) - r
      if ps w 18 ≤ d ∧ d ≤ ps w 9 then some (c : Int) else none) :: stack
  | 0x02 =>
    colSet k ((List.range (pf w 11 4)).map fun t => (r : Int) + ps w 18 + (pf w 17 12 * t : Nat)) :: stack
  | 0x03 =>
    let size := pf w 7 0 + 1
    colSet k ((List.range k).filterMap fun c => if c / size = r / size then some (c : Int) else none) :: stack
  | 0x04 => kron :: stack
  | 0x05 => colSet k (hashCols (pf w 26 11) (pf w 10 3) (pf w 2 0) r k) :: stack
  | 0x06 =>
    mapSet k top (fun c => if bit w.toNat 0 then ((c : Int) + ps w 18) % (k : Int) else (c : Int) + ps w 18) :: rest
  | 0x07 =>
    colSet k ((setCols k top).filterMap fun c => if pf w 26 18 ≤ c ∧ c ≤ pf w 17 9 then some (c : Int) else none) :: rest
  | 0x08 => mapSet k top (fun c => (c % (pf w 7 0 + 1) : Nat)) :: rest
  | 0x09 => mapSet k top (fun c => (c * (pf w 7 0 + 1) : Nat)) :: rest
  | 0x0A => mapSet k top (fun c => ((pf w 26 19 * c + pf w 18 11) % k : Nat)) :: rest
  | 0x0B => (top ||| rest.headD 0) :: rest.drop 1
  | 0x0C => (top &&& rest.headD 0) :: rest.drop 1
  | _ => stack

/-- The set left at the first `pend` (R248). -/
def patEval (kron r k : Nat) : List PatWord → List Nat → Nat
  | [], stack => stack.headD 0
  | w :: rest, stack => if isPend w then stack.headD 0 else patEval kron r k rest (patStep kron r k w stack)

/-! ## Contexts (R247) -/

/-- A context's fields, and the dimensions captured for `pkron`. -/
def patValid (x : PatCtx) : Bool := x.getLsbD 159
def patColord (x : PatCtx) : Bool := x.getLsbD 158
def patStartOf (x : PatCtx) : Nat := bits x.toNat 157 150
def patRows (x : PatCtx) : Nat := bits x.toNat 149 144 + 1
def patCols (x : PatCtx) : Nat := bits x.toNat 143 136 + 1
def patRefP (x : PatCtx) : Nat := bits x.toNat 135 132
def patRefQ (x : PatCtx) : Nat := bits x.toNat 131 128
def kdimP (x : PatCtx) : Nat := bits x.toNat 127 106
def kdimQ (x : PatCtx) : Nat := bits x.toNat 105 84

/-- START, rows and columns in a captured field. -/
def kdimStart (d : Nat) : Nat := bits d 21 14
def kdimRows (d : Nat) : Nat := bits d 13 8 + 1
def kdimCols (d : Nat) : Nat := bits d 7 0 + 1

/-- The words of the region from a word number on. -/
def patFrom (st : Strand) (start : Nat) : List PatWord := st.patStore.toList.drop start

/-- The run of words from a word number to the first `pend`, if there is one. -/
def patRun (st : Strand) (start : Nat) : Option (List PatWord) :=
  let l := patFrom st start
  match l.findIdx? isPend with
  | none => none
  | some i => some (l.take (i + 1))

def runLen (st : Strand) (start : Nat) : Nat := match patRun st start with | some l => l.length | none => 256 - start

def isKron (w : PatWord) : Bool := patOp w == 0x04

def hasKron (st : Strand) (start : Nat) : Bool := ((patRun st start).getD []).any isKron

/-- The set of `pkron` for row r over K columns (R250). -/
def kronSet (st : Strand) (x : PatCtx) (r k : Nat) : Nat :=
  let p := kdimP x
  let q := kdimQ x
  let rp := r / kdimRows q
  if kdimRows p ≤ rp then 0
  else
    let sp := patEval 0 rp (kdimCols p) (patFrom st (kdimStart p)) []
    let sq := patEval 0 (r % kdimRows q) (kdimCols q) (patFrom st (kdimStart q)) []
    colSet k ((setCols (kdimCols p) sp).flatMap fun cp => (setCols (kdimCols q) sq).map fun cq =>
      ((cp * kdimCols q + cq : Nat) : Int))

/-- S(r) of a context, as a set (R248). -/
def patRowSet (st : Strand) (x : PatCtx) (r : Nat) : Nat :=
  patEval (if hasKron st (patStartOf x) then kronSet st x r (patCols x) else 0) r (patCols x)
    (patFrom st (patStartOf x)) []

/-- S(r) for every row. -/
def patSets (st : Strand) (x : PatCtx) : List Nat := (List.range (patRows x)).map (patRowSet st x)

/-- Words that the index generator prepares: those of the program and of what its `pkron` references (R259). -/
def patPrep (st : Strand) (x : PatCtx) : Nat :=
  runLen st (patStartOf x) +
    if hasKron st (patStartOf x) then runLen st (kdimStart (kdimP x)) + runLen st (kdimStart (kdimQ x)) else 0

/-! ## `mpload` (R254) -/

/-- A program from `start` meets the range of words lo to hi - 1. -/
def runMeets (st : Strand) (start lo hi : Nat) : Bool := decide (start < hi) && decide (lo < start + runLen st start)

/-- The context's own program, or one it captured, meets a range. -/
def ctxMeets (st : Strand) (x : PatCtx) (lo hi : Nat) : Bool :=
  runMeets st (patStartOf x) lo hi ||
    (hasKron st (patStartOf x) && (runMeets st (kdimStart (kdimP x)) lo hi || runMeets st (kdimStart (kdimQ x)) lo hi))

def clearValid (x : PatCtx) : PatCtx := x &&& ~~~(BitVec.twoPow 160 159)

/-- Which contexts a load of words lo to hi - 1 makes invalid. -/
def patDoomed (st : Strand) (lo hi : Nat) : List Bool :=
  let direct := st.pat.toList.map fun x => ctxMeets st x lo hi
  (st.pat.toList.zip direct).map fun p =>
    p.2 || (hasKron st (patStartOf p.1) && (direct.getD (patRefP p.1) false || direct.getD (patRefQ p.1) false))

/-- Start bits of a loaded list: its first word and each word after a `pend`. -/
def startBits : Bool → List PatWord → List Bool
  | _, [] => []
  | b, w :: rest => b :: startBits (isPend w) rest

/-- The words of the popped entries, low half first. -/
def patWords (l : List Word) (n : Nat) : List PatWord :=
  (l.flatMap fun (x : Word) => [x.setWidth 32, (x >>> 32).setWidth 32]).take n

/-- The strand with words written from `w` on, their start bits set, and the contexts that they reach invalid. -/
def loadPattern (st : Strand) (w : Nat) (ws : List PatWord) : Strand :=
  let doomed := patDoomed st w (w + ws.length)
  let sb := startBits true ws
  { st with
    pat := Vector.ofFn fun (i : Fin 16) => if doomed.getD i.val false then clearValid (st.pat.get i) else st.pat.get i,
    patStore := Vector.ofFn fun (i : Fin 256) => if i.val < w then st.patStore.get i else ws.getD (i.val - w) (st.patStore.get i),
    patStart := BitVec.ofNat 256 (packElems 1 ((List.range 256).map fun i =>
      boolNat (if i < w then st.patStart.getLsbD i else sb.getD (i - w) (st.patStart.getLsbD i)))) }

/-- A fault of an M word that keeps what `f` does to the strand, such as the entries it has popped. -/
def faultAfter (s : State) (w : Walker) (f : Strand → Strand) (t : Trap) : Act State :=
  .ok (raiseWord (modStrand s (Walker.ref w) f) w t)

/-- `mpload` pops its entries one after another, each as it comes, and stays at its place until it has the last. Its tokens
go with the first (R36). -/
def execMpload (tk : Tk) (w n1 : BitVec 8) (s : State) : Outcome State Fault Refusal :=
  let first := match getStrand s (Walker.ref s.cur) with | some st => st.mpWords.isEmpty | none => true
  issueWith s (if first then tk else Tk.none) fun wk st s' => do
    quietM st
    await (engDone st .m)
    match st.qM with
    | [] => stall
    | x :: rest =>
      let got := st.mpWords ++ [x]
      let n := n1.toNat + 1
      if got.length < (n + 1) / 2 then .ok (putStrand s' (Walker.ref wk) { st with qM := rest, mpWords := got })
      else
        let ws := patWords got n
        let st := { st with qM := rest, mpWords := [] }
        if patProgramOk 0 ws then .ok (putStrand s' (Walker.ref wk) (stepPast s' (loadPattern st w.toNat ws) .m))
        else faultAfter s wk (fun q => { q with qM := q.qM.drop 1, mpWords := [] }) { cause := .pattern }

/-! ## `mpbind` (R255) -/

/-- The check that needs K on a word (R254, R255). -/
def patFitsK (k : Nat) (w : PatWord) : Bool :=
  match patOp w with
  | 0x0A => Nat.gcd (pf w 26 19) k == 1
  | 0x05 => pf w 2 0 != 1 || decide (pf w 10 3 ≤ k)
  | _ => true

def isKeyedHash (w : PatWord) : Bool := patOp w == 0x05 && pf w 2 0 == 0

/-- The `pkron` of a run names contexts that may be captured. -/
def kronOk (st : Strand) (self : BitVec 4) (run : List PatWord) : Bool :=
  match run.filter isKron with
  | [] => true
  | [w] => [pf w 26 23, pf w 22 19].all fun c =>
      let x := st.pat.get (Fin.ofNat 16 c)
      patValid x && c != self.toNat && !hasKron st (patStartOf x)
  | _ => false

/-- The context that a binding leaves. -/
def boundCtx (st : Strand) (run : List PatWord) (start rows cols : Nat) (ta : Bool) : PatCtx :=
  let dims (c : Nat) : Nat := bits (st.pat.get (Fin.ofNat 16 c)).toNat 157 136
  let k := match run.find? isKron with
    | some w => pf w 26 19 * 2 ^ 128 + dims (pf w 26 23) * 2 ^ 106 + dims (pf w 22 19) * 2 ^ 84
    | none => 0
  BitVec.ofNat 160 (2 ^ 159 + boolNat ta * 2 ^ 158 + start * 2 ^ 150 + rows * 2 ^ 144 + cols * 2 ^ 136 + k)

/-- A program, or one that its `pkron` references, holds a `phash` in mode 0 (R253). -/
def hasKeyedHash (st : Strand) (run : List PatWord) : Bool :=
  run.any isKeyedHash || run.any fun w => isKron w &&
    [pf w 26 23, pf w 22 19].any fun c =>
      ((patRun st (patStartOf (st.pat.get (Fin.ofNat 16 c)))).getD []).any isKeyedHash

/-- The context that an entry binds, or the first fault of R255. -/
def bindCheck (st : Strand) (pat : BitVec 4) (ta : Bool) (e : Word) : Except Trap PatCtx := do
  let start := wbits e 7 0
  if wbits e 63 22 ≠ 0 then throw (opField 0)
  let run ← match patRun st start with
    | some run => if st.patStart.getLsbD start && patProgramOk 0 run then pure run else throw { cause := .pattern }
    | none => throw { cause := .pattern }
  if !kronOk st pat run then throw { cause := .pattern }
  if !run.all (patFitsK (wbits e 21 14 + 1)) then throw { cause := .pattern }
  if ta && hasKeyedHash st run then throw { cause := .nonInvertible }
  return boundCtx st run start (wbits e 13 8) (wbits e 21 14) ta

def execMpbind (tk : Tk) (pat : BitVec 4) (ta : Bool) (s : State) : Outcome State Fault Refusal :=
  issueWith s tk fun wk st s' => do
    quietM st
    await (engDone st .m)
    match st.qM with
    | [] => stall
    | e :: rest =>
      match bindCheck st pat ta e with
      | .ok x =>
        .ok (putStrand s' (Walker.ref wk) (stepPast s' { st with qM := rest, pat := st.pat.set pat.toFin x } .m))
      | .error t =>
        faultAfter s wk (fun x => { x with qM := x.qM.drop 1, pat := x.pat.set pat.toFin (clearValid (x.pat.get pat.toFin)) }) t

end Sys2Proof.Machine
end

