-- ==== Sys2Proof/Machine/Matrix.lean ====
section
/-! DEFINITION. Matrix products (R158 to R164, R218 to R234, R256 to R259): operand lines as the feeder reads them, the
exact sums of chunks with their two roundings, what is skipped and charged, the energy grants (R440, R441) and the words
`mma`, `mmaq`, `mmas` and `mmag`.
-/

namespace Sys2Proof.Machine

open Host (Outcome)

/-! ## Slots as operands (R158 to R160, R223) -/

def slotType (x : OmSlot) : Ty := tyCodes.getD (sdTy x.desc) .i8

def slotScaled (x : OmSlot) : Bool := sdBsf x.desc != 0

/-- Element (r, c) of a slot as the feeder decodes it; none in a structural-zero block. -/
def slotFV (x : OmSlot) (flush : Bool) (r c : Nat) : Option FV :=
  if structZero x r c then none
  else match decodeV (slotType x) flush (slotElem x r c) with
    | .num n m e => some (.num n m (e + slotScale x r c))
    | v => some v

/-- Rows and columns of a slot as A (M, K) and as B (K, N) (R223). -/
def shapeA (x : OmSlot) (ta : Bool) : Nat × Nat := if ta then (sdCols x.desc, sdRows x.desc) else (sdRows x.desc, sdCols x.desc)
def shapeB (x : OmSlot) (tb : Bool) : Nat × Nat := if tb then (sdCols x.desc, sdRows x.desc) else (sdRows x.desc, sdCols x.desc)

/-- The block scale runs along K (R223). -/
def dirA (x : OmSlot) (ta : Bool) : Bool := !slotScaled x || sdDir x.desc == ta
def dirB (x : OmSlot) (tb : Bool) : Bool := !slotScaled x || sdDir x.desc == !tb

/-- Line i of A over k from `k0`, and column j of B. -/
def lineA (x : OmSlot) (flush ta : Bool) (k0 k i : Nat) : List (Option FV) :=
  (List.range k).map fun c => if ta then slotFV x flush (k0 + c) i else slotFV x flush i (k0 + c)

def lineB (y : OmSlot) (flush tb : Bool) (k0 k j : Nat) : List (Option FV) :=
  (List.range k).map fun c => if tb then slotFV y flush j (k0 + c) else slotFV y flush (k0 + c) j

/-- The slot is free of non-finite values in a stored row. -/
def rowFinite (x : OmSlot) (r : Nat) : Bool := !x.nf.getLsbD r

/-- A slot whose fills race with the product that reads it (R224): each 8-byte word is the old or the new value, and no
row counts as finite, so that every product is formed. `place` tells the reads of one step apart (log entry 34). -/
def raceSlot (st : Strand) (n step place : Nat) (x : OmSlot) : OmSlot :=
  if x.state = .refilling then
    (st.fills.filter fun f => f.om.toNat == n && !f.dropped).zipIdx.foldl (fun x f =>
      let m := (Config.raceBits st.free step (64 * f.2 + place)).toNat
      { x with data := mixWords 1024 m x.data f.1.slot.data,
               scale := mixWords 128 (m / 2 ^ 1024) x.scale f.1.slot.scale,
               nf := BitVec.allOnes 64, poison := x.poison || f.1.slot.poison }) x
  else x

/-- The checks of R230 on the state of a slot that a product reads, and what it reads. -/
def readSlot (st : Strand) (n step place : Nat) : Act OmSlot := do
  let x := getOm st (BitVec.ofNat 5 n)
  match x.state with
  | .speculative => stall
  | .notHeld | .claimed => trap { cause := .opmState }
  | _ => do
    await x.phys.isSome
    .ok (raceSlot st n step place x)

def slotPoison (st : Strand) (n : Nat) (x : OmSlot) : Act Unit :=
  check (!x.poison) { cause := .poison, detail := 1, unit := some (.slot st.uid (n % 32)) }

/-! ## Products (R161 to R163) -/

/-- A rectangle of the result: its first row and column, the lines of A and of B. -/
structure Rect where
  r0 : Nat
  c0 : Nat
  as : List (List (Option FV))
  bs : List (List (Option FV))
deriving DecidableEq, Repr

/-- A product of one pair of slots: the wider stored width, TA + TB, the reduction length that the array takes, the path,
and for each k whether a zero of A and a zero of B is skipped (R234). -/
structure Prod where
  width : Nat
  tog : Nat
  len : Nat
  isInt : Bool
  skipA : List Bool
  skipB : List Bool
  rects : List Rect
deriving DecidableEq, Repr

/-- The products formed, in order of k; a place without a product is none. -/
def formProducts (a b : List (Option FV)) : List (Option (FV × BitVec 6)) :=
  List.zipWith (fun x y => match x, y with | some x, some y => some (mulFV x y) | _, _ => none) a b

def isInfFV (neg : Bool) : FV → Bool
  | .inf n => n == neg
  | _ => false

/-- The exact sum of a chunk's products (R163). -/
def chunkSum (l : List FV) : FV × BitVec 6 :=
  let pos := l.any (isInfFV false)
  let neg := l.any (isInfFV true)
  let fl : BitVec 6 := if pos && neg then flagNV else 0
  if l.any FV.isNan || (pos && neg) then (.nan false, fl)
  else if pos || neg then (.inf neg, 0)
  else
    match l with
    | [] => (.num false 0 0, 0)
    | x :: xs => (xs.foldl (fun s y => (addFV .ne s y).1) x, 0)

/-- A product of integers as an integer. -/
def intOf : FV → Int
  | .num n m e => (if n then -1 else 1) * ((m * 2 ^ e.toNat : Nat) : Int)
  | _ => 0

/-- An accumulator element while its chunks are added. -/
structure AccStep where
  val : Nat
  flags : BitVec 6
  begun : Bool
deriving DecidableEq, Repr

/-- Adds a chunk's products (R162). -/
def addChunk (isInt flush : Bool) (am : Am) (x : AccStep) (ps : List (FV × BitVec 6)) : AccStep :=
  if ps.isEmpty then x
  else
    let put := am == .over && !x.begun
    let fl := ps.foldl (fun f p => f ||| p.2) x.flags
    if isInt then
      let s := (ps.map fun p => intOf p.1).sum
      let r := if put then wrapInt s 32
        else if am == .sub then wrapInt ((x.val : Int) - s) 32 else wrapInt ((x.val : Int) + s) 32
      ⟨r, fl, true⟩
    else
      let (s, f₁) := chunkSum (ps.map (·.1))
      let (sb, f₂) := encodeF fmt32 .ne flush s
      if put then ⟨sb, fl ||| f₁ ||| f₂, true⟩
      else
        let sv := decodeF fmt32 flush sb
        let (t, f₃) := addFV .ne (decodeF fmt32 flush x.val) (if am == .sub then sv.neg else sv)
        let (r, f₄) := encodeF fmt32 .ne flush t
        ⟨r, fl ||| f₁ ||| f₂ ||| f₃ ||| f₄, true⟩

/-- An element of the result from its lines, in chunks of 32 (R162). An overwrite that forms nothing writes zero. -/
def accumulate (isInt flush : Bool) (am : Am) (old : Nat) (a b : List (Option FV)) : AccStep :=
  let l := formProducts a b
  let chunks := (List.range ((l.length + 31) / 32)).map fun c => ((l.drop (32 * c)).take 32).filterMap id
  let x := chunks.foldl (addChunk isInt flush am) ⟨old, 0, false⟩
  if am == .over && !x.begun then { x with val := 0 } else x

/-- The new elements of a rectangle, by tile position, and the flags raised. -/
def rectResults (t : AccTile) (isInt flush : Bool) (am : Am) (q : Rect) : List (Nat × AccStep) :=
  q.as.zipIdx.flatMap fun a => q.bs.zipIdx.map fun b =>
    let r := q.r0 + a.2
    let c := q.c0 + b.2
    (tileIx r c, accumulate isInt flush am (tileElem t r c) a.1 b.1)

/-- The tile and the flags after a list of products. -/
def runProds (t : AccTile) (flush : Bool) (am : Am) (l : List Prod) : AccTile × BitVec 6 :=
  let res := l.flatMap fun p => p.rects.flatMap (rectResults t p.isInt flush am)
  ({ t with data := BitVec.ofNat 131072 (setElems t.data.toNat (res.map fun x => (x.1, x.2.val))) },
   res.foldl (fun f x => f ||| x.2.flags) 0)

/-! ## Counts and charges (R219, R234, R245, R259, R438) -/

def isZeroFV : FV → Bool
  | .num _ m _ => m == 0
  | _ => false

/-- Products formed or skipped, and those skipped, of two lines. -/
def lineCounts (p : Prod) (a b : List (Option FV)) : Nat × Nat :=
  ((a.zip b).zip (p.skipA.zip p.skipB)).foldl (fun (n : Nat × Nat) x =>
    match x.1.1, x.1.2 with
    | some u, some v =>
      (n.1 + 1, n.2 + boolNat ((isZeroFV u && x.2.1) || (isZeroFV v && x.2.2)))
    | _, _ => n) (0, 0)

/-- Products formed or skipped, skipped, and all places of a product. -/
def prodCounts (p : Prod) : Nat × Nat × Nat :=
  (p.rects.flatMap fun q => q.as.flatMap fun a => q.bs.map fun b => (lineCounts p a b, a.length)).foldl
    (fun (n : Nat × Nat × Nat) x => (n.1 + x.1.1, n.2.1 + x.1.2, n.2.2 + x.2)) (0, 0, 0)

/-- Values of the reduction index that the array takes in a cycle (R218). -/
def kpc (width : Nat) : Nat := if width = 16 then 1 else if width = 4 then 4 else 2

/-- b and t of R438. -/
def rates (width : Nat) : Nat × Nat :=
  if width = 16 then (20, 18) else if width = 8 then (7, 8) else if width = 6 then (6, 6) else (3, 3)

/-- Array cycles of a word. -/
def arrayCycles (l : List Prod) : Nat :=
  l.foldl (fun n p => max n ((p.len + kpc p.width - 1) / kpc p.width)) 1

/-- The charge of a product word in units of `energyUnit`, 25 for each 2^-16 nJ. -/
def prodsCharge (l : List Prod) : Nat :=
  25 * (l.map fun p =>
    let n := (prodCounts p).1 - (prodCounts p).2.1
    n * (rates p.width).1 + n * (rates p.width).2 * p.tog / 512).sum

def prodsTog (l : List Prod) : Nat := l.foldl (fun n p => max n p.tog) 0

/-! ## Energy grants (R440, R441) -/

/-- A die's share of a window in charge units, lowered by the steps of 5 % that its heat calls for (R451). -/
def windowShare (s : State) (d : Nat) : Int :=
  ((s.hub.cap : Int) - s.hub.reserve) * 250 * energyUnit / 20 * (20 - min 20 (getDie s d).throttle : Nat)

/-- The words that wait for a grant on a die, by strand key. -/
def grantWaits (s : State) (d : Nat) : List (Nat × GrantWait) :=
  s.strands.filterMap fun x =>
    if dieOf (x.1 / 4) = d then
      match x.2.grant with
      | some g => if g.granted then none else some (x.1, g)
      | none => none
    else none

/-- The entry that is first in an order. -/
def firstBy {α : Type} (lt : α → α → Bool) : List α → Option α
  | [] => none
  | x :: xs => some (xs.foldl (fun m y => if lt y m then y else m) x)

/-- Marks a waiting word granted and takes its charge from the share; one that waited past a window is counted (R452). -/
def giveGrant (s : State) (d key : Nat) (g : GrantWait) (debt : Int) : State :=
  let late := boolNat (decide (g.since + 4000 < s.clock))
  let s := modDie s d fun x =>
    { x with share := x.share - g.charge, overdraft := x.overdraft + debt, delayed := x.delayed + late }
  modStrand s ⟨key / 4, key % 4⟩ fun st => { st with grant := some { g with granted := true } }

/-- MATRIX_GRANT: the next grant of the window's start: words that have waited 8 µs first, oldest first, then those of
the lowest TA + TB, until the share does not cover the next. -/
def execMatrixGrant (die : Nat) (s : State) : Outcome State Fault Refusal :=
  let d := die % 4
  let x := getDie s d
  if !x.granting then .next s
  else
    let start := 4000 * x.window
    let waits := (grantWaits s d).filter fun w => decide (w.2.since ≤ start)
    match firstBy (fun a b => decide (a.2.since < b.2.since)) (waits.filter fun w => decide (w.2.since + 32000 ≤ start)) with
    | some w => .next (giveGrant s d w.1 w.2 (max 0 ((w.2.charge : Int) - max x.share 0)))
    | none =>
      match firstBy (fun a b => decide (a.2.tog < b.2.tog) || (a.2.tog == b.2.tog && decide (a.2.since < b.2.since))) waits with
      | some w =>
        if (w.2.charge : Int) ≤ x.share then .next (giveGrant s d w.1 w.2 0)
        else .next (modDie s d fun x => { x with granting := false })
      | none => .next (modDie s d fun x => { x with granting := false })

/-- A new window of 1 µs begins on a die, if one has. Unused share does not carry over. -/
def rollWindow (s : State) (d : Nat) : State :=
  if (getDie s d).window < s.clock / 4000 then
    modDie s d fun x =>
      { x with window := s.clock / 4000, share := windowShare s d - x.overdraft, overdraft := 0, granting := true }
  else s

/-- GRANT_WINDOW_START. -/
def execGrantWindowStart (die : Nat) (s : State) : Outcome State Fault Refusal := .next (rollWindow s (die % 4))

/-- What a product word's request for energy comes to: it waits, or it has the grant, at once where no word waits and the
share left of the window covers it. -/
def askGrant (s : State) (r : SRef) (st : Strand) (charge tog : Nat) : Option GrantWait × State :=
  match st.grant with
  | some g => if g.granted then (none, s) else (some g, s)
  | none =>
    let d := dieOf r.cell
    let s := rollWindow s d
    if (grantWaits s d).isEmpty && decide ((charge : Int) ≤ (getDie s d).share) then
      (none, modDie s d fun x => { x with share := x.share - charge })
    else (some ⟨s.clock, tog, charge, false⟩, s)

/-! ## Product words and nest steps (R229 to R232, R242, R256, R257) -/

/-- A product as a word or a nest step names it: KIND of R241, the fields of R229, the K offsets and length of a step,
whether it is an empty step, and the number of the step, from 1. -/
structure StepWord where
  kind : Nat
  acc : BitVec 4
  oma : Nat
  omb : Nat
  pat : Nat
  qmask : BitVec 4
  ta : Bool
  tb : Bool
  am : Am
  fn : Nat
  klen : Nat := 0
  ka : Int := 0
  kb : Int := 0
  empty : Bool := false
  step : Nat := 0
deriving DecidableEq, Repr

/-- The reduction length of a dense step over a K of A and of B. -/
def stepLen (x : StepWord) (ka kb : Nat) : Act Nat := do
  let k : Int := if x.klen = 0 then (ka : Int) - x.ka else x.klen
  check (decide (0 ≤ x.ka ∧ 0 ≤ x.kb ∧ 0 ≤ k ∧ x.ka + k ≤ ka ∧ x.kb + k ≤ kb)) (opField 0)
  check (x.klen != 0 || decide (x.kb + k = kb)) (opField 0)
  .ok (if x.empty then 0 else k.toNat)

/-- The product of lines of A and columns of B in the quadrants of a mask. -/
def ganged (qmask : BitVec 4) (as bs : List (List (Option FV))) : List Rect :=
  (List.range 4).filterMap fun q =>
    if qmask.getLsbD q then
      some ⟨quadRow q, quadCol q, (as.drop (quadRow q)).take 32, (bs.drop (quadCol q)).take 32⟩
    else none

def pairInt (x y : OmSlot) : Bool := (slotType x).isInt && (slotType y).isInt && !slotScaled x && !slotScaled y

def pairWidth (x y : OmSlot) : Nat := max (slotWidth (sdTy x.desc)) (slotWidth (sdTy y.desc))

def pairTog (x y : OmSlot) : Nat := x.tog.toNat + y.tog.toNat

/-- A dense product of two slots whose results may take `size` rows and columns. -/
def densePair (st : Strand) (x : StepWord) (flush : Bool) (quad na nb size : Nat) (rects : List (List (Option FV)) →
    List (List (Option FV)) → List Rect) : Act Prod := do
  let a ← readSlot st na x.step (2 * quad)
  let b ← readSlot st nb x.step (2 * quad + 1)
  let (m, ka) := shapeA a x.ta
  let (kb, n) := shapeB b x.tb
  let k ← stepLen x ka kb
  check (decide (m ≤ size) && decide (n ≤ size) && dirA a x.ta && dirB b x.tb) (opField 0)
  slotPoison st na a
  slotPoison st nb b
  let a0 := x.ka.toNat
  let b0 := x.kb.toNat
  .ok { width := pairWidth a b, tog := pairTog a b, len := k, isInt := pairInt a b,
        skipA := (List.range k).map fun i => !x.tb && rowFinite b (b0 + i),
        skipB := (List.range k).map fun i => x.ta && rowFinite a (a0 + i),
        rects := rects ((List.range m).map (lineA a flush x.ta a0 k)) ((List.range n).map (lineB b flush x.tb b0 k)) }

/-- The quadrants of `mmaq`, each with its own pair (R231). -/
def quadPairs (st : Strand) (x : StepWord) (flush : Bool) : List Nat → Act (List Prod)
  | [] => .ok []
  | q :: rest => do
    let na := x.oma + x.fn / 2 ^ (4 * q) % 4
    let nb := x.omb + x.fn / 2 ^ (4 * q + 2) % 4
    check (decide (na < 32) && decide (nb < 32)) illegalTrap
    let p ← densePair st x flush q na nb 32 fun as bs => [⟨quadRow q, quadCol q, as, bs⟩]
    let l ← quadPairs st x flush rest
    .ok (p :: l)

/-- `mmag` (R232): the rows of B that an index vector names. Of a step, lane kb + k serves index k. -/
def gatherProd (st : Strand) (x : StepWord) (flush : Bool) (ix : IndexVec) : Act Prod := do
  let a ← readSlot st x.oma x.step 0
  let b ← readSlot st x.omb x.step 1
  let (m, ka) := shapeA a x.ta
  let n := sdCols b.desc
  let k : Int := if x.klen = 0 then (ka : Int) - x.ka else x.klen
  check (decide (0 ≤ x.ka ∧ 0 ≤ x.kb ∧ 0 ≤ k ∧ x.ka + k ≤ ka ∧ x.kb + k ≤ 128)) (opField 0)
  let k := if x.empty then 0 else k.toNat
  let a0 := x.ka.toNat
  let lane (i : Nat) : Option Nat := if ix.en.getLsbD (x.kb.toNat + i) then some (ixLane ix (x.kb.toNat + i)) else none
  check (decide (m ≤ 64) && decide (n ≤ 64) && dirA a x.ta && dirB b false) (opField 0)
  check ((List.range k).all fun i => match lane i with | some r => decide (r < sdRows b.desc) | none => true) (opField 0)
  slotPoison st x.oma a
  slotPoison st x.omb b
  let col (j : Nat) : List (Option FV) := (List.range k).map fun i => (lane i).bind fun r => slotFV b flush r j
  .ok { width := pairWidth a b, tog := pairTog a b, len := k, isInt := pairInt a b,
        skipA := (List.range k).map fun i => match lane i with | some r => rowFinite b r | none => false,
        skipB := (List.range k).map fun i => x.ta && rowFinite a (a0 + i),
        rects := ganged x.qmask ((List.range m).map (lineA a flush x.ta a0 k)) ((List.range n).map col) }

/-- Value number of coordinate (r, c) of a pattern (R252). -/
def valueNumber (sets : List Nat) (r c : Nat) : Nat :=
  ((sets.take r).map ones).sum + ones (sets.getD r 0 % 2 ^ c)

/-- Distinct reduction indices that a half of the result rows takes (R259). -/
def halfLen (sets : List Nat) (ta : Bool) (h : Nat) : Nat :=
  if ta then (sets.filter fun s => s / 2 ^ (32 * h) % 2 ^ 32 != 0).length
  else ones (((sets.drop (32 * h)).take 32).foldl (· ||| ·) 0)

/-- `mmas` (R257): slot A holds the values of a pattern one after another. -/
def sparseProd (st : Strand) (x : StepWord) (flush : Bool) : Act Prod := do
  let a ← readSlot st x.oma x.step 0
  let b ← readSlot st x.omb x.step 1
  let ctx := st.pat.get (Fin.ofNat 16 x.pat)
  check (patValid ctx && (!x.ta || patColord ctx)) (opField 0)
  let sets := patSets st ctx
  let (mo, ko) := if x.ta then (patCols ctx, patRows ctx) else (patRows ctx, patCols ctx)
  let (kb, n) := shapeB b x.tb
  let nnz := (sets.map ones).sum
  let off : Int := x.fn + x.ka
  check (decide (mo ≤ 64 ∧ n ≤ 64 ∧ 0 ≤ x.kb ∧ x.kb + ko ≤ kb ∧ 0 ≤ off ∧
    off + nnz ≤ (sdRows a.desc * sdCols a.desc : Nat)) && !(slotScaled a && sdDir a.desc) && dirB b x.tb) (opField 0)
  slotPoison st x.oma a
  slotPoison st x.omb b
  let k := if x.empty then 0 else ko
  let b0 := x.kb.toNat
  let value (r c : Nat) : Option FV :=
    if bit (sets.getD r 0) c then
      let p := off.toNat + valueNumber sets r c
      slotFV a flush (p / sdCols a.desc) (p % sdCols a.desc)
    else none
  let line (i : Nat) : List (Option FV) := (List.range k).map fun j => if x.ta then value j i else value i j
  .ok { width := pairWidth a b, tog := pairTog a b,
        len := if x.empty then 0 else max (halfLen sets x.ta 0) (halfLen sets x.ta 1), isInt := pairInt a b,
        skipA := (List.range k).map fun i => !x.tb && rowFinite b (b0 + i),
        skipB := List.replicate k false,
        rects := ganged x.qmask ((List.range mo).map line) ((List.range n).map (lineB b flush x.tb b0 k)) }

/-- The products of a word or step with its checks, every one of them before any tile bit changes. -/
def stepProds (st : Strand) (x : StepWord) (flush : Bool) (ix : IndexVec) : Act (List Prod) :=
  match x.kind with
  | 0 => do
    let p ← densePair st x flush 0 x.oma x.omb 64 (ganged x.qmask)
    .ok [p]
  | 1 => quadPairs st x flush (filterBelow 4 x.qmask.getLsbD)
  | 2 => do
    let p ← sparseProd st x flush
    .ok [p]
  | _ => do
    let p ← gatherProd st x flush ix
    .ok [p]

/-- Where an enumeration leaves the cursors of its context, bits 63:0, is not stated; no result depends on it (R247; log
entry 85). -/
def moveCursors (st : Strand) (x : StepWord) : Strand :=
  if x.kind = 2 then
    let k := Fin.ofNat 16 x.pat
    let y := (Config.freeBits (16 * st.free)).setWidth 64
    { st with pat := st.pat.set k ((st.pat.get k &&& ~~~0xFFFFFFFFFFFFFFFF#160) ||| y.setWidth 160) }
  else st

/-- The counters that a product drives (R245, R262). The preparation of a pattern is hidden while the product before it
occupies the array. -/
def countProds (clock : Nat) (st : Strand) (x : StepWord) (l : List Prod) : Strand :=
  let n := l.foldl (fun (n : Nat × Nat × Nat) p =>
    let m := prodCounts p
    (n.1 + m.1, n.2.1 + m.2.1, n.2.2 + m.2.2)) (0, 0, 0)
  let st := perfAdd (perfAdd (perfAdd st 0x70 (arrayCycles l)) 0x71 n.2.1) 0x72 (n.2.2 - n.1)
  let ctx := st.pat.get (Fin.ofNat 16 x.pat)
  let prep := if x.kind = 2 && !x.empty then patPrep st ctx + 2 else 0
  let bare := prep - (st.arrayUntil - clock)
  let st := { st with arrayUntil := max st.arrayUntil clock + bare + arrayCycles l }
  if x.kind = 2 && !x.empty then
    let st := perfAdd st 0x74 ((patSets st ctx).map ones).sum
    perfAdd (if x.ta then perfAdd st 0x75 1 else st) 0x76 bare
  else st

/-- What a product comes to: it waits for its grant, or it has run. -/
inductive ProdOut where
  | wait (g : GrantWait)
  | done (st : Strand) (s : State) (old : BitVec 131072)
deriving DecidableEq, Repr

/-- A product word or step at place `pos` of M (R230): checks, tile, grant, then every element. `flush` is the mode at its
word (R160, R163). -/
def product (s : State) (r : SRef) (st : Strand) (flush : Bool) (x : StepWord) (ix : IndexVec) (pos : Nat) : Act ProdOut := do
  let l ← stepProds st x flush ix
  let (st, s) ← needTile s r.cell st x.acc
  let t := getAcc st x.acc
  check (!t.poison || x.am == .over) (tilePoison st x.acc)
  let cost := prodsCharge l
  match askGrant s r st cost (prodsTog l) with
  | (some g, _) => .ok (.wait g)
  | (none, s) =>
    let (t', fl) := runProds t flush x.am l
    let st := raiseFlags (putAcc st x.acc t') pos fl
    let st := moveCursors { countProds s.clock st x l with grant := none } x
    .ok (.done st (charge s r.cell st.part st.sid.rcb true cost) t.data)

/-- A product word of M. `gathers` says that it pops an entry of FIQ, which a fault does not give back (R232). -/
def productWord (s : State) (tk : Tk) (x : StepWord) (gathers : Bool) : Outcome State Fault Refusal :=
  issueWith s tk fun w st s' => do
    quietM st
    await (!gathers || !st.fiq.isEmpty)
    let r := Walker.ref w
    let en := getEng st .m
    let pop (y : Strand) : Strand := if gathers then { y with fiq := y.fiq.drop 1 } else y
    match product s' r st (flushes st .m) x (st.fiq.headD ⟨0, 0⟩) en.passed with
    | .error (.trap t) => faultAfter s w pop t
    | .error e => .error e
    | .ok (.wait g) => .ok (modStrand s r fun o => { o with grant := some g })
    | .ok (.done st s' old) => .ok (putStrand s' r (stepPast s' (pop (noteTile st x.acc old)) .m))

def wordStep (w : MmWord) (kind pat fn : Nat) : StepWord :=
  { kind := kind, acc := w.acc, oma := w.oma.toNat, omb := w.omb.toNat, pat := pat, qmask := w.qmask, ta := w.ta,
    tb := w.tb, am := w.am, fn := fn }

def execMma (w : MmWord) (s : State) : Outcome State Fault Refusal := productWord s w.tk (wordStep w 0 0 0) false

def execMmaq (w : MmWord) (fn : BitVec 16) (s : State) : Outcome State Fault Refusal :=
  productWord s w.tk (wordStep w 1 0 fn.toNat) false

def execMmas (w : MmWord) (pat : BitVec 4) (voff : BitVec 16) (s : State) : Outcome State Fault Refusal :=
  productWord s w.tk (wordStep w 2 pat.toNat voff.toNat) false

def execMmag (w : MmWord) (s : State) : Outcome State Fault Refusal := productWord s w.tk (wordStep w 3 0 0) true

end Sys2Proof.Machine
end

