-- ==== Sys2Proof/Machine/Nest.lean ====
section
/-! DEFINITION. Drains of tiles (R235, R236), `mtog` (R237) and the loop nest of M (R238 to R244, R260).
-/

namespace Sys2Proof.Machine

open Host (Outcome)

/-! ## Drains -/

/-- An element of a tile as `mdrain` converts it. -/
def drainElem (f : DrainFn) (flush : Bool) (x : Nat) : Nat :=
  if f.dty = .b || (!f.int && f.dty == .f32 && f.scale == 0 && !f.relu) then x
  else
    let v := if f.int then decodeV .i32 flush x else decodeF fmt32 flush x
    let v := match v with
      | .nan q => .nan q
      | .inf n => if f.relu && n then .num false 0 0 else .inf n
      | .num n m e => if f.relu && n then .num false 0 0 else .num n m (e + f.scale.toInt)
    if f.dty.isInt then (toIntType f.dty .ne v).1 else (encodeV f.dty .ne flush v).1

/-- The entries of a drain: with w the width in bits, w entries of 64 / w rows each (R236). -/
def drainEntries (t : AccTile) (f : DrainFn) (flush : Bool) : List Nat :=
  let w := f.dty.width
  let n := 64 / w
  (List.range w).map fun e =>
    packElems w ((List.range n).flatMap fun r => (List.range 64).map fun c => drainElem f flush (tileElem t (e * n + r) c))

/-- The drain of a tile at a place of M, with the flushing of its word. A name that is not held drains zeros. -/
def startDrain (st : Strand) (flush : Bool) (acc : BitVec 4) (f : DrainFn) (pos : Nat) : Act Drain := do
  let t := getAcc st acc
  await (!t.held || t.phys.isSome)
  check (!t.poison) (tilePoison st acc)
  .ok ⟨pos, acc, f.clr, drainEntries t f flush⟩

/-- The next entry of a drain, with its charge of 0.5 nJ, or its end. -/
def drainStep (s : State) (r : SRef) (st : Strand) (d : Drain) : Act (Strand × State) :=
  match d.entries with
  | x :: rest => do
    let st ← pushSq st [x]
    .ok ({ st with drain := some { d with entries := rest } }, chargeStrand s r (centiNj 50))
  | [] =>
    let t := getAcc st d.tile
    let st := if d.clear && t.held then putAcc st d.tile { t with data := 0, poison := false, fresh := false } else st
    .ok ({ st with drain := none }, s)

/-- `mdrain` takes its tokens and forms its entries, then pushes them one at a time while it stays at its place. -/
def execMdrain (tk : Tk) (acc : BitVec 4) (f : DrainFn) (s : State) : Outcome State Fault Refusal :=
  match (getStrand s (Walker.ref s.cur)).bind (·.drain) with
  | none =>
    issueWith s tk fun w st s' => do
      quietM st
      let d ← startDrain st (flushes st .m) acc f (getEng st .m).passed
      .ok (putStrand s' (Walker.ref w) { st with drain := some d })
  | some d =>
    issueWith s Tk.none fun w st s' => do
      await st.nest.isNone
      let (st, s'') ← drainStep s' (Walker.ref w) st d
      .ok (putStrand s'' (Walker.ref w) (if st.drain.isNone then stepPast s'' st .m else st))

/-- State codes of R220. -/
def omCode : OmState → Nat
  | .notHeld => 0 | .claimed => 1 | .filled => 2 | .speculative => 3 | .refilling => 4

/-- The entry of `mtog`. -/
def togEntry (st : Strand) : Nat :=
  packElems 8 (st.om.toList.map (fun x => if x.state = .filled || x.state = .refilling then x.tog.toNat else 0) ++
    st.om.toList.map fun x => omCode x.state)

def execMtog (tk : Tk) (s : State) : Outcome State Fault Refusal :=
  issueM s tk fun r st s' => do
    await (engDone st .m)
    let st ← pushSq st [togEntry st]
    .ok (st, chargeStrand s' r (centiNj 50))

/-! ## Nest tables (R239 to R241) -/

def lvRpqt (l : Word × Word) : Bool := l.1.getLsbD 63
def lvFills (l : Word × Word) : Nat := boolNat (l.1.getLsbD 62) + boolNat (l.1.getLsbD 61)
def lvZero (l : Word × Word) : Bool := l.1.getLsbD 60
def lvDrain (l : Word × Word) : Bool := l.1.getLsbD 59
def lvRett (l : Word × Word) : Bool := l.1.getLsbD 58
def lvTrip (l : Word × Word) : Nat := wbits l.1 47 32
def lvDkb (l : Word × Word) : Int := sgn (wbits l.2 63 48) 16
def lvDka (l : Word × Word) : Int := sgn (wbits l.2 47 32) 16
def lvDacc (l : Word × Word) : Int := sgn (wbits l.2 21 17) 5
def lvDomb (l : Word × Word) : Int := sgn (wbits l.2 16 11) 6
def lvDoma (l : Word × Word) : Int := sgn (wbits l.2 10 5) 6

/-- The rules of R240 on a level record. -/
def levelOk (l : Word × Word) : Bool :=
  wbits l.1 57 48 == 0 && wbits l.1 31 0 == 0 && wbits l.2 31 22 == 0 && wbits l.2 4 0 == 0 &&
    (!lvRpqt l || lvTrip l == 0)

/-- The drain that a header's DFN gives, where it meets R235. -/
def headerDrain (h : Word × Word) : Option DrainFn :=
  if wbits h.2 17 15 = 0 then (drainFnOf h.2).filter DrainFn.ok else none

/-- FN of a `mmaq` step: nibbles of disabled quadrants are zero, and no base slot goes past 31 (R231). -/
def quadFnOk (oma omb qmask fn : Nat) : Bool :=
  fn / 2 ^ 16 == 0 && (List.range 4).all fun q =>
    let n := fn / 2 ^ (4 * q) % 16
    if bit qmask q then decide (oma + n % 4 < 32) && decide (omb + n / 4 < 32) else n == 0

/-- The rules of R229, R231, R235, R241 and R260 on a header. -/
def headerOk (h : Word × Word) : Bool :=
  let pat := wbits h.1 47 43
  let fn := wbits h.1 17 0
  let klen := wbits h.1 34 26
  wbits h.1 25 18 == 0 && wbits h.2 31 18 == 0 && wbits h.1 42 39 != 0 && decide (wbits h.1 36 35 ≤ 2) &&
    decide (klen ≤ 256) && (headerDrain h).isSome &&
    match wbits h.1 63 62 with
    | 0 => pat == 31 && fn == 0
    | 1 => pat == 31 && quadFnOk (wbits h.1 57 53) (wbits h.1 52 48) (wbits h.1 42 39) fn
    | 2 => decide (pat < 16) && fn / 2 ^ 16 == 0 && klen == 0
    | _ => pat == 31 && fn == 0 && !h.1.getLsbD 37

/-- `mnset` writes a record of the shadow table (R239); a record that breaks a rule is discarded. -/
def execMnset (tk : Tk) (rec : NestRec) (s : State) : Outcome State Fault Refusal :=
  issueWith s tk fun w st s' =>
    match st.qM with
    | x :: y :: rest =>
      let t := st.nestShadow
      let ok := match rec with | .level _ => levelOk (x, y) | .header => headerOk (x, y)
      let t' : NestTable := match rec with
        | .level n => { t with levels := t.levels.set (Fin.ofNat 6 n.toNat) (x, y) }
        | .header => { t with hdr := some (x, y) }
      if ok then
        .ok (putStrand s' (Walker.ref w) (stepPast s' { st with qM := rest, nestShadow := t' } .m))
      else faultAfter s w (fun o => { o with qM := o.qM.drop 2 }) (opField 0)
    | _ => stall

/-- `mnest` copies the shadow table and starts the nest (R242). -/
def execMnest (tk : Tk) (s : State) : Outcome State Fault Refusal :=
  issueM s tk fun _ st s' => do
    check st.nestShadow.hdr.isSome (opField 0)
    let en := getEng st .m
    let n : NestRun := ⟨en.pc, st.overlay, en.lmode, en.passed, 0, [], 0, none, [.enter]⟩
    .ok ({ st with nestActive := st.nestShadow, nest := some n }, s')

/-! ## The running nest (R242 to R244) -/

def nestLevel (t : NestTable) (l : Nat) : Word × Word := t.levels.get (Fin.ofNat 6 l)

/-- Σ of index × delta over the levels entered. -/
def nestSum (t : NestTable) (levels : List (Nat × Nat)) (f : Word × Word → Int) : Int :=
  (levels.zipIdx.map fun x => (x.1.2 : Int) * f (nestLevel t x.2)).sum

/-- Some level entered satisfies `p`. -/
def nestAny (t : NestTable) (levels : List (Nat × Nat)) (p : Word × Word → Nat → Nat → Bool) : Bool :=
  levels.zipIdx.any fun x => p (nestLevel t x.2) x.1.1 x.1.2

def amOf (n : Nat) : Am := if n = 1 then .over else if n = 2 then .sub else .acc

/-- The product of the step at the levels' indices. -/
def nestWord (t : NestTable) (h : Word × Word) (levels : List (Nat × Nat)) (empty : Bool) : StepWord :=
  let sum := nestSum t levels
  { kind := wbits h.1 63 62,
    acc := BitVec.ofInt 4 (wbits h.1 61 58 + sum lvDacc),
    oma := (((wbits h.1 57 53 : Nat) + sum lvDoma) % 32).toNat,
    omb := (((wbits h.1 52 48 : Nat) + sum lvDomb) % 32).toNat,
    pat := wbits h.1 47 43,
    qmask := BitVec.ofNat 4 (wbits h.1 42 39),
    ta := h.1.getLsbD 38,
    tb := h.1.getLsbD 37,
    am := if empty || nestAny t levels (fun l _ i => lvZero l && i == 0) then .over else amOf (wbits h.1 36 35),
    fn := wbits h.1 17 0,
    klen := wbits h.1 34 26,
    ka := wbits h.2 63 48 + sum lvDka,
    kb := wbits h.2 47 32 + sum lvDkb,
    empty := empty }

/-- The actions of an iteration of level `l`. -/
def iteration (t : NestTable) (l : Nat) : List NestAct :=
  (if lvFills (nestLevel t l) = 0 then [] else [.fills (lvFills (nestLevel t l))]) ++
    [if l = 5 then .step false else .enter, .iterEnd]

/-- A token to L ahead of the places that words after the nest's steps hold (R36, R242). -/
def pushRett (st : Strand) (pos : Nat) : Act Strand := do
  await (decide (st.tok.ml.length < 8))
  let mine (p : TokPlace) : Bool := p.eng == .m && decide (pos ≤ p.pos) && !p.filled
  let before := st.tok.ml.takeWhile fun p => !mine p
  let after := st.tok.ml.dropWhile fun p => !mine p
  .ok { st with tok := { st.tok with ml := before ++ { eng := .m, pos := pos, filled := true } :: after } }

/-- A level is entered (R242): its trip count, then its first iteration, an empty step, or nothing. -/
def enterLevel (st : Strand) (n : NestRun) (rest : List NestAct) : Except Trap (Option (Strand × NestRun)) :=
  let l := n.levels.length
  let v := nestLevel st.nestActive l
  let go (st : Strand) (trip : Nat) : Strand × NestRun :=
    if trip = 0 then (st, { n with todo := if lvZero v && lvDrain v then .step true :: rest else rest })
    else (st, { n with levels := n.levels ++ [(trip, 0)], todo := iteration st.nestActive l ++ rest })
  if lvRpqt v then
    match popRpq false st.rpq with
    | none => .ok none
    | some (x, q) => if 65535 < x.diff.toNat then .error (opField 0) else .ok (some (go { st with rpq := q } x.diff.toNat))
  else .ok (some (go st (lvTrip v)))

/-- The end of an iteration of the innermost level entered. -/
def endIteration (st : Strand) (n : NestRun) (rest : List NestAct) : Act (Strand × NestRun) := do
  let l := n.levels.length - 1
  let st ← if lvRett (nestLevel st.nestActive l) then pushRett st n.pos else .ok st
  match n.levels.getLast? with
  | none => .ok (st, { n with todo := rest })
  | some (trip, i) =>
    if i + 1 < trip then
      .ok (st, { n with levels := n.levels.dropLast ++ [(trip, i + 1)], todo := iteration st.nestActive l ++ rest })
    else .ok (st, { n with levels := n.levels.dropLast, todo := rest })

/-- The nest with its next action to come; it completes after the last. -/
def keepNest (st : Strand) (n : NestRun) : Strand :=
  { st with nest := if n.todo.isEmpty && st.drain.isNone then none else some n }

/-- The flushing that holds at the nest's `mnest` word (R33, R160, R163). -/
def nestFlush (n : NestRun) : Bool := flushMode n.lmode

/-- A fault in a step stops the nest: FLTPC names the `mnest` word in its overlay, FLTADDR the step (R244). -/
def raiseNest (s : State) (r : SRef) (st : Strand) (n : NestRun) (step : Nat) (t : Trap) : State :=
  let s := putStrand s r { st with nest := none }
  raiseAt s r ⟨{ t with addr := step }, Eng.code .m, n.index, n.ovl.toNat, none, none, s.clock⟩

/-- A step of the nest: its product, and the drain that follows it. -/
def nestProduct (s : State) (r : SRef) (st : Strand) (n : NestRun) (h : Word × Word) (empty : Bool)
    (rest : List NestAct) : Act State := do
  let x := { nestWord st.nestActive h n.levels empty with step := n.step + 1 }
  let gathers := x.kind == 3 && !empty
  await (!gathers || !st.fiq.isEmpty)
  let pop (y : Strand) : Strand := if gathers then { y with fiq := y.fiq.drop 1 } else y
  match product s r st (nestFlush n) x (st.fiq.headD ⟨0, 0⟩) n.pos with
  | .error (.trap t) => .ok (raiseNest s r (pop st) n n.step t)
  | .error e => .error e
  | .ok (.wait g) => .ok (putStrand s r { st with grant := some g })
  | .ok (.done st s old) =>
    let drains := empty || nestAny st.nestActive n.levels fun l trip i => lvDrain l && i + 1 == trip
    let n := { n with step := n.step + 1, tile := x.acc, old := some old, todo := if drains then .drain :: rest else rest }
    .ok (putStrand s r (keepNest (perfAdd (pop st) 0x73 1) n))

/-- What the nest does next. -/
def nestAct (s : State) (r : SRef) (st : Strand) (n : NestRun) (h : Word × Word) : Act State :=
  match st.drain with
  | some d => do
    let (st, s) ← drainStep s r st d
    .ok (putStrand s r (keepNest st n))
  | none =>
    match n.todo with
    | [] => .ok (putStrand s r { st with nest := none })
    | .enter :: rest =>
      (match enterLevel st n rest with
       | .ok (some (st, n)) => .ok (putStrand s r (keepNest st n))
       | .ok none => stall
       | .error t => .ok (raiseNest s r st n n.step t))
    | .fills k :: rest => do
      let st ← popTok st (some 0)
      .ok (putStrand s r (keepNest st { n with todo := if k ≤ 1 then rest else .fills (k - 1) :: rest }))
    | .step empty :: rest => nestProduct s r st n h empty rest
    | .drain :: rest =>
      (match headerDrain h with
       | none => .ok (putStrand s r (keepNest st { n with todo := rest }))
       | some f =>
         match startDrain st (nestFlush n) n.tile f n.pos with
         | .ok d => .ok (putStrand s r (keepNest { st with drain := some d } { n with todo := rest }))
         | .error (.trap t) => .ok (raiseNest s r st n (n.step - 1) t)
         | .error e => .error e)
    | .iterEnd :: rest => do
      let (st, n) ← endIteration st n rest
      .ok (putStrand s r (keepNest st n))

/-- A freeze or a forced save has stopped the strand's engines between words. -/
def stoppedMid (st : Strand) : Bool := st.frozen || st.halting

/-- A drain that a freeze or a forced save finds in progress goes on to its end (R34, R243). -/
def finishDrain (s : State) (r : SRef) (st : Strand) (d : Drain) : Act State := do
  let (st, s) ← drainStep s r st d
  match st.nest with
  | some n => .ok (putStrand s r (keepNest st n))
  | none => .ok (putStrand s r (if st.drain.isNone then stepPast s st .m else st))

/-- NEST_STEP: the nest of a strand that holds its block, is not stopped and whose region is not paused goes on; a strand
that is stopped finishes its drain. -/
def execNestStep (s : State) : Outcome State Fault Refusal :=
  let r := Walker.ref s.cur
  match getStrand s r with
  | none => .next s
  | some st =>
    let st := { settle s.clock st with free := s.freeCount }
    let s' := { s with freeCount := s.freeCount + 1 }
    match st.drain with
    | some d => if stoppedMid st then after s r (finishDrain s' r st d) else go s s' r st
    | none => if stoppedMid st then .next s else go s s' r st
where
  after (s : State) (r : SRef) : Act State → Outcome State Fault Refusal
    | .ok s' => .next (modStrand s' r fun q => modEng q .m fun en => { en with idle := 0 })
    | .error (.hold h) => .next (startHold s h)
    | .error _ => .next s
  go (s s' : State) (r : SRef) (st : Strand) : Outcome State Fault Refusal :=
    match st.nest, st.nestActive.hdr with
    | some n, some h => if !st.block || regionPaused s st then .next s else after s r (nestAct s' r st n h)
    | _, _ => .next s

end Sys2Proof.Machine
end

