-- ==== Sys2Proof/Machine/Micro.lean ====
section
/-! DEFINITION. Micro-routines (R347 to R369): the micro-word, the checks of a binding (R365), one step of a routine
(R356 to R363) and the words `bind` and the bound opcodes, with the events that step them.
-/

namespace Sys2Proof.Machine

open Host (Outcome)

abbrev MicroWord := BitVec 128

/-! ## The micro-word (R354) -/

def mf (w : MicroWord) (hi lo : Nat) : Nat := bits w.toNat hi lo

def mSeq (w : MicroWord) : Nat := mf w 127 124
def mTarget (w : MicroWord) : Nat := mf w 123 112
def mCond (w : MicroWord) : Nat := mf w 111 108
def mVop (w : MicroWord) : Nat := mf w 107 102
def mVty (w : MicroWord) : Nat := mf w 101 98
def mVa (w : MicroWord) : Nat := mf w 97 91
def mVb (w : MicroWord) : Nat := mf w 90 84
def mVd (w : MicroWord) : Nat := mf w 83 77
def mVmk (w : MicroWord) : Nat := mf w 76 75
def mBop (w : MicroWord) : Nat := mf w 74 72
def mBank (w : MicroWord) : Nat := mf w 71 67
def mBadr (w : MicroWord) : Nat := mf w 66 64
def mAop (w : MicroWord) : Nat := mf w 63 61
def mAreg (w : MicroWord) : Nat := mf w 60 58
def mAimm (w : MicroWord) : Word := (BitVec.ofNat 18 (mf w 57 40)).signExtend 64
def mTop (w : MicroWord) : Nat := mf w 39 37
def mTsel (w : MicroWord) : Nat := mf w 36 32
def mSop (w : MicroWord) : Nat := mf w 31 28
def mSd (w : MicroWord) : Nat := mf w 27 25
def mSa (w : MicroWord) : Nat := mf w 24 22
def mSimm (w : MicroWord) : Word := (BitVec.ofNat 12 (mf w 21 10)).signExtend 64

/-- SEQ has a jump target. -/
def mJumps (w : MicroWord) : Bool := decide (1 ≤ mSeq w) && decide (mSeq w ≤ 4)

/-! ## The bind-table entry (R349) -/

def entVal (e : Word) : Bool := e.getLsbD 63
def entEng (e : Word) : Nat := wbits e 62 60
def entLat (e : Word) : Nat := wbits e 59 56
def entRc (e : Word) : Nat := wbits e 55 52
def entSteps (e : Word) : Nat := wbits e 51 40
def entStart (e : Word) : Nat := wbits e 11 0

/-! ## The checks of a binding (R351, R358 to R365) -/

/-- The vector operands that a VOP takes: A, B and a destination. -/
def vopUses (vop : Nat) : Bool × Bool × Bool :=
  match vop with
  | 13 | 18 => (true, false, true)
  | 16 | 17 => (false, false, true)
  | 20 | 21 => (true, false, false)
  | _ => (true, true, true)

/-- Likewise of a BOP and of a TOP. -/
def bopUses (bop : Nat) : Bool × Bool × Bool :=
  match bop with
  | 1 => (false, false, true)
  | 2 => (true, false, false)
  | 3 => (false, true, true)
  | _ => (true, true, false)

def topUses (top : Nat) : Bool × Bool × Bool := if top = 3 then (true, false, false) else (false, false, true)

def mUses (w : MicroWord) : Bool × Bool × Bool :=
  if mVop w ≠ 0 then vopUses (mVop w)
  else if mBop w ≠ 0 then bopUses (mBop w)
  else if mTop w ≠ 0 then topUses (mTop w)
  else (false, false, false)

/-- A field as a mask where it is in use. -/
def fieldMask (use : Bool) (hi lo : Nat) : Nat := if use then (2 ^ (hi + 1 - lo) - 1) * 2 ^ lo else 0

/-- The bits that the word's parts use; every other bit must be zero. -/
def mUsed (w : MicroWord) : Nat :=
  let (a, b, d) := mUses w
  let vec := mVop w != 0
  let spm := mBop w != 0
  let sop := mSop w
  fieldMask true 127 124 ||| fieldMask true 107 102 ||| fieldMask true 74 72 ||| fieldMask true 39 37 |||
  fieldMask true 63 61 ||| fieldMask true 31 28 |||
  fieldMask (mJumps w || mSeq w == 7) 123 112 ||| fieldMask (mSeq w == 2 || mSeq w == 3) 111 108 |||
  fieldMask (vec || spm) 101 98 ||| fieldMask (vec || decide (3 ≤ mBop w)) 76 75 |||
  fieldMask a 97 91 ||| fieldMask b 90 84 ||| fieldMask d 83 77 |||
  fieldMask spm 71 67 ||| fieldMask (spm || mTop w != 0) 66 64 |||
  fieldMask (mAop w != 0) 60 40 ||| fieldMask (mTop w != 0) 36 32 |||
  fieldMask (1 ≤ sop && sop ≤ 6) 27 25 ||| fieldMask (2 ≤ sop || mAop w == 3 || mVop w == 17 || mSeq w == 7) 24 22 |||
  fieldMask (sop == 1 || sop == 2 || sop == 4) 21 10

/-- The types of a vector part (R358), by TY code. -/
def vopTypes (vop ty : Nat) : Bool :=
  let i := decide (ty < 8)
  let f := ty == 8 || ty == 9 || ty == 10
  let t := ty == 12 || ty == 13
  let b := ty == 14
  match vop with
  | 1 | 2 | 3 | 6 | 7 => i || f || t
  | 4 | 5 | 11 | 12 | 16 => i
  | 8 | 9 | 10 | 17 => i || b
  | 18 | 19 => ty == 4 || ty == 5 || b
  | _ => i || f || t || b

/-- The types of a scratchpad part (R359). -/
def bopTypes (bop ty : Nat) : Bool :=
  match bop with
  | 1 | 2 => decide (ty < 15) && ty != 11
  | 5 => ty == 4 || ty == 9 || ty == 10
  | _ => decide (ty < 6) || (decide (8 ≤ ty) && decide (ty ≤ 10)) || ty == 12 || ty == 14

/-- The engines and RC bit of a part (R364); engines by TAG code. -/
def vopEng (vop eng : Nat) : Bool :=
  if vop ≤ 7 || vop = 17 || vop = 20 then eng == 2 else eng == 1 || eng == 2 || eng == 4

def bopEng (bop eng : Nat) : Bool := if bop = 1 ∨ bop = 3 then eng == 1 || eng == 4 else eng == 4

def topEng (top eng : Nat) : Bool := if top = 1 then eng == 3 else eng == 2 || eng == 3

def sopEng (sop eng : Nat) : Bool := sop != 8 || eng == 0 || eng == 1 || eng == 4

/-- An operand names a queue of its own (R355). -/
def queueOperand (c : Nat) : Bool := (decide (64 ≤ c) && decide (c ≤ 67)) || (decide (73 ≤ c) && decide (c ≤ 77))

/-- A source that the table of R364 allows the engine. -/
def srcOk (eng c : Nat) : Bool :=
  (decide (c < 64) && eng == 2) ||
  match c with
  | 64 | 65 | 70 | 71 => eng == 2
  | 68 => eng != 0
  | 74 | 76 | 77 => eng == 4
  | 75 => eng == 1
  | c => decide (80 ≤ c) && decide (c ≤ 87) && eng != 0

/-- A destination that it allows. -/
def dstOk (eng c : Nat) : Bool :=
  (decide (c < 64) && eng == 2) ||
  match c with
  | 66 => eng == 2 || eng == 3
  | 67 | 69 => eng == 2
  | 73 => eng == 1
  | c => decide (80 ≤ c) && decide (c ≤ 87) && eng != 0

/-- An operand field of a word: allowed, with RC bit 55 for a queue, and with the limits of the entry's LAT (R351). -/
def operandOk (ent : Word) (first dest : Bool) (c : Nat) : Bool :=
  (if dest then dstOk (entEng ent) c else srcOk (entEng ent) c) &&
  (!queueOperand c || (bit (entRc ent) 3 && (entLat ent == 0 || entLat ent == 15 || first))) &&
  !(dest && entLat ent == 0 && (decide (c < 64) || c == 69))

/-- The checks of R365 on one micro-word of a routine. -/
def microWordOk (ent : Word) (first : Bool) (w : MicroWord) : Bool :=
  let eng := entEng ent
  let rc := entRc ent
  let lat := entLat ent
  let short := lat != 0 && lat != 15
  let (a, b, d) := mUses w
  w.toNat &&& (2 ^ 128 - 1 - mUsed w) == 0 &&
  (mSeq w != 5 && decide (mSeq w ≤ 8)) && (!(mSeq w == 2 || mSeq w == 3) || decide (mCond w ≤ 3)) &&
  decide (boolNat (mVop w != 0) + boolNat (mBop w != 0) + boolNat (mTop w != 0) ≤ 1) &&
  (mSeq w != 7 || (mTarget w == 0x20 && mVop w == 0 && mBop w == 0 && mTop w == 0 && mAop w == 0 && mSop w == 0)) &&
  (!short || (mSeq w != 4 && mSeq w != 8 && mBop w == 0 && mTop w == 0)) &&
  (mVop w == 0 || (decide (mVop w ≤ 21) && vopTypes (mVop w) (mVty w) && vopEng (mVop w) eng && bit rc 0 &&
    !(lat == 0 && mVop w == 20))) &&
  (mBop w == 0 || (decide (mBop w ≤ 5) && bopTypes (mBop w) (mVty w) && bopEng (mBop w) eng && bit rc 1)) &&
  (mTop w == 0 || (decide (mTop w ≤ 3) && decide (mTsel w ≤ 18) && topEng (mTop w) eng && bit rc 2)) &&
  decide (mAop w ≤ 3) && (mAop w == 0 || eng != 0) &&
  decide (mSop w ≤ 8) && sopEng (mSop w) eng && !(mSop w == 8 && lat == 0) &&
  (!a || operandOk ent first false (mVa w)) && (!b || operandOk ent first false (mVb w)) &&
  (!d || operandOk ent first true (mVd w))

def wcsWord (m : FMap MicroWord) (a : Nat) : MicroWord := (fget m a).getD 0

/-- The run from an address: its last address, where one is found by 4095. `far` is the highest target so far. -/
def scanEnd (m : FMap MicroWord) : Nat → Nat → Nat → Option Nat
  | 0, _, _ => none
  | fuel + 1, a, far =>
    if 4095 < a then none
    else
      let w := wcsWord m a
      let far := if mJumps w then max far (mTarget w) else far
      if (mSeq w == 1 || mSeq w == 6 || mSeq w == 7) && decide (far ≤ a) then some a else scanEnd m fuel (a + 1) far

/-- The micro-words of a routine's run, with their addresses. -/
def routineRun (m : FMap MicroWord) (start : Nat) : Option (List (Nat × MicroWord)) :=
  (scanEnd m 4096 start start).map fun last =>
    (List.range (last + 1 - start)).map fun i => (start + i, wcsWord m (start + i))

/-- R365 on an entry with VAL set. -/
def bindOk (m : FMap MicroWord) (ent : Word) : Bool :=
  decide (entEng ent ≤ 4) && entSteps ent != 0 && wbits ent 39 12 == 0 &&
  (entLat ent == 0 || entLat ent == 15 || decide (entSteps ent ≤ entLat ent - 1)) &&
  match routineRun m (entStart ent) with
  | none => false
  | some run =>
    let last := entStart ent + run.length - 1
    run.all fun p =>
      microWordOk ent (p.1 == entStart ent) p.2 &&
        (!mJumps p.2 || (decide (entStart ent ≤ mTarget p.2) && decide (mTarget p.2 ≤ last)))

/-- The partition's share on the cell is there and no image is on its way into it (R352). -/
def shareReady (c : Context) : Bool := c.share.isSome && !c.wcsBusy

/-- A copy into the partition's share has started and is not complete: a `bind` checks the words it leaves (R90). -/
def wcsCopied (s : State) (cell part : Nat) : Bool :=
  (getCell s cell).chans.toList.any fun x => match x with
    | some run => run.cmd.part == part && match run.cmd.op with | .copy dst .. => dst.space == .wcs | _ => false
    | none => false

/-- `bind` (R343): the entry before goes to g(GA), BINDST records OPC and VAL. -/
def execBind (lat : BitVec 4) (ga gb : BitVec 5) (n : BitVec 6) (s : State) : Outcome State Fault Refusal :=
  issueWith s Tk.none fun w st s' => do
    let e ← readG st 0 gb
    let c := getCtx s' w.cell st.part
    await (shareReady c && !wcsCopied s' w.cell st.part)
    check (!entVal e || bindOk c.wcs e) { cause := .microIllegal }
    let old := c.bindTab.get n.toFin
    let st := writeWord s.clock st .c lat (.g ga) old
    let st := { st with bindst := BitVec.ofNat 9 (0xC0 + n.toNat + 256 * boolNat (entVal e)), oldBinds := noteBind st n old }
    let s' := putCtx s' w.cell st.part { c with bindTab := c.bindTab.set n.toFin (if entVal e then e else 0) }
    .ok (countC (putStrand s' (Walker.ref w) (stepPast s' st .c)) (Walker.ref w))

/-! ## Operands of a step (R355) -/

/-- The D, A and B fields of the bound word that a routine serves. -/
def boundFields : Instr → Nat × Nat × Nat
  | .boundOpcode _ _ _ d a b _ => (d.toNat, a.toNat, b.toNat)
  | _ => (0, 0, 0)

/-- `oa`, `ob` and `od` stand for the operand that the word's field names. -/
def resolveOperand (m : Micro) (c : Nat) : Nat :=
  let (d, a, b) := boundFields m.word
  if c = 69 then d else if c = 70 then a else if c = 71 then b else c

/-- An index vector as a source: its indexes, and EN to `mmask`. -/
def indexSource (m : Micro) (x : IndexVec) : Nat × Micro := (x.idx.toNat, { m with mmask := x.en.setWidth 1024 })

/-- A source of a step, with its pops. -/
def microSrc (st : Strand) (m : Micro) (salt c : Nat) : Act (Nat × Strand × Micro) :=
  let c := resolveOperand m c
  if c < 64 then do
    let x ← readReg st .v salt (.v (rotV st (BitVec.ofNat 6 c)))
    .ok (x.toNat, st, m)
  else match c with
    | 64 => do
      let (l, st) ← readSrc st salt 1 .lq
      .ok (l.headD 0, st, m)
    | 65 => do
      let (l, st) ← readSrc st salt 1 .lqKeep
      .ok (l.headD 0, st, m)
    | 74 => do
      let (l, st) ← takeSq st 1
      .ok (sqNat l, st, m)
    | 75 =>
      (match st.iql with
       | [] => stall
       | x :: rest => .ok ((indexSource m x).1, { st with iql := rest }, (indexSource m x).2))
    | 76 | 77 =>
      (match st.iqs with
       | [] => stall
       | x :: rest => .ok ((indexSource m x).1, if c = 76 then { st with iqs := rest } else st, (indexSource m x).2))
    | c => .ok (if 80 ≤ c then (m.mt.get (Fin.ofNat 8 (c - 80))).toNat else 0, st, m)

/-- A destination of a step: `mask` has the bits of enabled lanes. -/
def microDst (clock : Nat) (st : Strand) (m : Micro) (c x mask : Nat) : Act (Strand × Micro) :=
  let c := resolveOperand m c
  if c < 64 then do
    let r := rotV st (BitVec.ofNat 6 c)
    await (!regOut st (.v r))
    .ok (writeReg clock st .v 15 (.v r) (BitVec.ofNat 4096 x) (BitVec.ofNat 4096 mask), m)
  else match c with
    | 66 => do
      let st ← pushSq st [x &&& mask]
      .ok (st, m)
    | 67 => do
      let st ← pushVcq st (x &&& mask)
      .ok (st, m)
    | 73 => do
      let st ← pushLq st [{ data := BitVec.ofNat 4096 (x &&& mask) }]
      .ok (st, m)
    | c =>
      let i := Fin.ofNat 8 (c - 80)
      let k := BitVec.ofNat 4096 mask
      .ok (st, { m with mt := m.mt.set i ((m.mt.get i &&& ~~~k) ||| (BitVec.ofNat 4096 x &&& k)) })

/-- The lanes of a part (R354). -/
def microLanes (st : Strand) (e : Eng) (m : Micro) (vmk : Nat) : Act Nat := do
  let all := 2 ^ 1024 - 1
  let word ← if vmk == 1 || vmk == 3 || e != .v then .ok all else lanesOf st .em
  .ok (match vmk with
    | 0 => word
    | 1 => m.mmask.toNat
    | 2 => m.mmask.toNat &&& word
    | _ => all)

/-! ## The parts of a step -/

/-- AOP (R360). -/
def addressPart (m : Micro) (w : MicroWord) : Micro :=
  let i := Fin.ofNat 8 (mAreg w)
  match mAop w with
  | 1 => { m with ag := m.ag.set i (mAimm w) }
  | 2 => { m with ag := m.ag.set i (m.ag.get i + mAimm w) }
  | 3 => { m with ag := m.ag.set i (m.ms.get (Fin.ofNat 8 (mSa w)) + mAimm w) }
  | _ => m

/-- Parts 1 to 6 of the scalar unit: the value, with Z and N. -/
def putMs (m : Micro) (w : MicroWord) (x : Word) : Micro :=
  { m with ms := m.ms.set (Fin.ofNat 8 (mSd w)) x, z := x == 0, n := x.getLsbD 63 }

/-- `msout` of a routine of S at a place: it comes after the older results of the register and before those of younger words,
behind the place that the bound word keeps for it (R30, R351). -/
def outB (st : Strand) (n : BitVec 4) (x : Word) : Strand :=
  let st := landReg st (.b n) st.pending []
  landBits st (.b n) (x.setWidth 4096) (fullMask (.b n)) false

/-- SOP (R362). `msout` writes the register that the word's D names. -/
def scalarPart (clock : Nat) (st : Strand) (e : Eng) (m : Micro) (w : MicroWord) : Strand × Micro :=
  let a := m.ms.get (Fin.ofNat 8 (mSa w))
  let d := m.ms.get (Fin.ofNat 8 (mSd w))
  match mSop w with
  | 1 => (st, putMs m w (mSimm w))
  | 2 => (st, putMs m w (a + mSimm w))
  | 3 => (st, putMs m w (d + a))
  | 4 => (st, putMs m w (a &&& mSimm w))
  | 5 => (st, putMs m w (d <<< (a.toNat % 64)))
  | 6 => (st, putMs m w (((m.mt.get (Fin.ofNat 8 (mSa w))).setWidth 32).setWidth 64))
  | 7 => (st, { m with mlc := a.setWidth 32 })
  | 8 =>
    let n := (boundFields m.word).1
    (match e with
     | .c => writeWord clock st e 15 (.g (BitVec.ofNat 5 n)) a
     | .l => writeWord clock st e 15 (.a (BitVec.ofNat 4 n)) a
     | _ => outB st (BitVec.ofNat 4 n) a, m)
  | _ => (st, m)

/-- One lane of the two-source arithmetic of VOP 1 to 7. -/
def kArith (vop : Nat) (t : Ty) (mode : RMode) (flush : Bool) (x y : Nat) : Nat × BitVec 6 :=
  if t.isInt then
    let a := intVal t x
    let b := intVal t y
    (match vop with
     | 1 => fitInt t false (a + b)
     | 2 => fitInt t false (a - b)
     | 3 => fitInt t false (a * b)
     | 4 => fitInt t true (a + b)
     | 5 => fitInt t true (a - b)
     | 6 => fitInt t false (min a b)
     | _ => fitInt t false (max a b), 0)
  else
    let a := decodeV t flush x
    let b := decodeV t flush y
    let (v, f) := match vop with
      | 1 => addFV mode a b
      | 2 => addFV mode a b.neg
      | 3 => mulFV a b
      | 6 => minFV false a b
      | _ => minFV true a b
    let (r, g) := encodeV t mode flush v
    (r, f ||| g)

/-- Lane `i` of the other vector parts: `l` holds A's lanes, `y` is B's lane. -/
def kOther (vop : Nat) (t : Ty) (en imm : Nat) (l : List Nat) (i x y : Nat) : Nat :=
  let full := 2 ^ t.width - 1
  match vop with
  | 8 => x &&& y
  | 9 => x ||| y
  | 10 => x ^^^ y
  | 11 => x * 2 ^ (y % t.width) % 2 ^ t.width
  | 12 => x / 2 ^ (y % t.width)
  | 13 => x
  | 14 => if x = y then full else 0
  | 15 => l.getD (y % t.count) 0
  | 16 => i % 2 ^ t.width
  | 17 => imm % 2 ^ t.width
  | 18 => if (List.range i).any fun j => bit en j && l.getD j 0 == x then full else 0
  | _ => x

/-- The minimum of `kminm` (R358). -/
def kMinimum (en : Nat) (a b : List Nat) : Nat :=
  (filterBelow 128 fun i => bit en i && b.getD i 0 != 0).foldl (fun m i => min m (a.getD i 0)) 0xFFFFFFFF

/-- The results of a vector part by lane, with their flags. -/
def kResults (vop : Nat) (t : Ty) (mode : RMode) (flush : Bool) (en imm : Nat) (a b : List Nat) :
    List (Nat × BitVec 6) :=
  if vop = 19 then List.replicate t.count (kMinimum en a b, 0)
  else (List.range t.count).map fun i =>
    if !bit en i then (0, 0)
    else
      let x := a.getD i 0
      let y := b.getD i 0
      if vop ≤ 7 then kArith vop t mode flush x y else (kOther vop t en imm a i x y, 0)

def lanesAt (t : Ty) (x : Nat) : List Nat := (List.range t.count).map fun i => elem x t.width i

/-- A part reads a t6 container that holds no t6 code (R157): in the enabled lanes, of `kperm` in every lane of A, whose B
holds indexes (log entry 32). -/
def microT6 (vop : Nat) (t : Ty) (en : Nat) (a b : List Nat) : Bool :=
  if vop = 15 then badT6 t (2 ^ 1024 - 1) a
  else if vop ≤ 7 || vop = 14 then badT6 t en a || badT6 t en b
  else (vop == 13 || vop == 20 || vop == 21) && badT6 t en a

/-- VOP (R358). Sources are read before the lanes are formed, so that an index vector's EN counts. -/
def vectorPart (clock pos : Nat) (st : Strand) (e : Eng) (m : Micro) (w : MicroWord) : Act (Strand × Micro) := do
  let vop := mVop w
  let t := tyCodes.getD (mVty w) .b
  let (ua, ub, _) := vopUses vop
  let (a, st, m) ← if ua then microSrc st m 0 (mVa w) else .ok (0, st, m)
  let (b, st, m) ← if ub then microSrc st m 2 (mVb w) else .ok (0, st, m)
  let en ← microLanes st e m (mVmk w)
  let la := lanesAt t a
  let lb := lanesAt t b
  check (!microT6 vop t en la lb) (opField 0)
  let imm := (m.ms.get (Fin.ofNat 8 (mSa w))).toNat
  if vop = 20 || vop = 21 then
    let mask := packElems 1 (la.zipIdx.map fun p => boolNat (bit en p.2 && p.1 != 0))
    let m := { m with vf := mask != 0 }
    if vop = 21 then .ok (st, { m with mmask := BitVec.ofNat 1024 mask })
    else .ok (writeMask clock st 15 .cm mask, m)
  else
    let res := kResults vop t (rmodeOf st e .lmode) (flushes st e) en imm la lb
    let st := raiseFlags st pos (unionFlags res)
    let m := { m with vf := res.zipIdx.any fun p => bit en p.2 && p.1.1 != 0 }
    let x := packElems t.width (res.map (·.1))
    microDst clock st m (mVd w) x (if vop = 19 then 2 ^ 4096 - 1 else spread t.width t.count (bit en))

/-- Element bytes of a scratchpad part, and the type in which BOP 5 adds. -/
def bopBytes (bop ty : Nat) : Nat := if bop = 5 then 4 else (tyCodes.getD ty .b).width / 8

def bopAdd (ty : Nat) : AddTy := if ty = 4 then .i32 else if ty = 10 then .f32 else .bf16

/-- Alignment and R109 on the lanes of a part; the lowest failing address is reported. -/
def checkMicroLanes (s : State) (cell part ad e : Nat) (gs : List Seg) : Act Unit :=
  match gs with
  | [] => .ok ()
  | g :: rest =>
    if ad % e ≠ 0 then trap (alignTrap (rest.foldl (fun b (x : Seg) => min b x.addr) g.addr))
    else checkLanes s cell part gs

/-- Where a step's scratchpad accesses stand: a read of L waits for stores over all of scratchpad (R120, R364), a write
of S for the reads of L before its word (R110). -/
def microOrder (st : Strand) (e : Eng) (pos : Nat) (x : Option SEntry) (writes : Bool) : Act Unit :=
  if e = .l then awaitStores st (getEng st .l).seen pos [⟨0, spmSize⟩]
  else match x with
    | some x => await (!writes || readsPast st x)
    | none => .ok ()

/-- BOP (R359). -/
def scratchPart (s : State) (r : SRef) (pos : Nat) (x : Option SEntry) (st : Strand) (e : Eng) (m : Micro)
    (w : MicroWord) : Act (Strand × State × Micro) := do
  let ad := (m.ag.get (Fin.ofNat 8 (mBadr w)) + BitVec.ofNat 64 (mBank w * 0x10000))
  let bop := mBop w
  microOrder st e pos x (bop != 1 && bop != 3)
  if bop = 1 then
    let t6 := mVty w == 13
    let g : Seg := ⟨ad.toNat, if t6 then 384 else 512⟩
    check (ad.toNat % (if t6 then 8 else 512) == 0) (alignTrap ad.toNat)
    checkSegs s r.cell st.part [g]
    checkRows s r.cell ad.toNat [g]
    let v := spmRead s r.cell g
    let (st, m) ← microDst s.clock st m (mVd w) (if t6 then unpackT6 v 512 else v) (2 ^ 4096 - 1)
    .ok (st, chargeRows s r [g], m)
  else if bop = 2 then
    let g : Seg := ⟨ad.toNat, 512⟩
    check (ad.toNat % 512 == 0) (alignTrap ad.toNat)
    checkSegs s r.cell st.part [g]
    let (a, st, m) ← microSrc st m 0 (mVa w)
    .ok (st, chargeRows (spmWrite s r.cell g a) r [g], m)
  else
    let n := bopBytes bop (mVty w)
    let (a, st, m) ← if bop = 3 then .ok (0, st, m) else microSrc st m 0 (mVa w)
    let (b, st, m) ← microSrc st m 2 (mVb w)
    let en ← microLanes st e m (mVmk w)
    let l := laneSegs ⟨BitVec.ofNat 128 en, BitVec.ofNat 4096 b⟩ ad n
    let gs := l.map (·.2)
    checkMicroLanes s r.cell st.part ad.toNat n gs
    if bop = 4 then .ok () else checkRows s r.cell ad.toNat gs
    if bop = 3 then
      let v := packElems (8 * n) ((List.range 128).map fun i =>
        match l.lookup i with | some g => spmRead s r.cell g | none => 0)
      let (st, m) ← microDst s.clock st m (mVd w) v (2 ^ 4096 - 1)
      .ok (st, chargeRows s r gs, m)
    else if bop = 4 then .ok (st, chargeRows (writeLanes s r.cell n a l) r gs, m)
    else .ok (st, chargeRows (addLanes s r.cell (bopAdd (mVty w)) a l) r gs, m)

/-- The slot or tile that TSEL names. -/
def tileSelect (m : Micro) (w : MicroWord) : Act Nat := do
  let (d, a, b) := boundFields m.word
  let n := match mTsel w with | 16 => a | 17 => b | 18 => d | n => n
  check (decide (n ≤ 15)) (opField 0)
  .ok n

/-- TOP (R361). -/
def tilePart (s : State) (r : SRef) (st : Strand) (e : Eng) (m : Micro) (w : MicroWord) : Act (Strand × State × Micro) := do
  let n ← tileSelect m w
  check ((getCell s r.cell).mu == some st.part) (foreignTrap 0)
  let off := (m.ag.get (Fin.ofNat 8 (mBadr w))).toNat
  if mTop w = 1 then
    check (off % 512 == 0 && decide (off < 8192)) (opField off)
    let x := raceSlot st n 0 0 (getOm st (BitVec.ofNat 5 n))
    check (x.state == .filled || x.state == .refilling) { cause := .opmState }
    await x.phys.isSome
    slotPoison st n x
    let (st, m) ← microDst s.clock st m (mVd w) (elem x.data.toNat 4096 (off / 512)) (2 ^ 4096 - 1)
    .ok (st, s, m)
  else
    check (off % 2 == 0 && decide (off < 64)) (opField off)
    let k := BitVec.ofNat 4 n
    if mTop w = 2 then
      let x := if e = .m then getAcc st k else raceTile st k
      await (!x.held || x.phys.isSome)
      check (!x.poison) (tilePoison st k)
      let (st, m) ← microDst s.clock st m (mVd w) (elem x.data.toNat 4096 (off / 2)) (2 ^ 4096 - 1)
      .ok (st, s, m)
    else
      let (a, st, m) ← microSrc st m 0 (mVa w)
      let (st, s) ← needTile s r.cell st k
      let put (x : BitVec 131072) : BitVec 131072 :=
        BitVec.ofNat 131072 (x.toNat - elem x.toNat 4096 (off / 2) * 2 ^ (4096 * (off / 2)) + a * 2 ^ (4096 * (off / 2)))
      .ok (patchTile st k put, s, m)

/-! ## One step (R356, R363, R366) -/

/-- What a step comes to: the routine goes on, it has ended, or it raises a fault after which it goes on. -/
inductive MicroOut where
  | go (st : Strand) (s : State) (m : Micro)
  | fin (st : Strand) (s : State)
  | raised (m : Micro) (t : Trap)
deriving DecidableEq, Repr

def microCond (m : Micro) (c : Nat) : Bool :=
  match c with
  | 0 => m.z
  | 1 => m.n
  | 2 => m.vf
  | _ => m.mlc == 0

/-- SEQ after the parts (R363): where the routine goes. -/
def microNext (m : Micro) (w : MicroWord) : Micro :=
  let next := { m with mpc := m.mpc + 1 }
  let jump := { m with mpc := m.mpc / 4096 * 4096 + mTarget w }
  match mSeq w with
  | 1 => jump
  | 2 => if microCond m (mCond w) then jump else next
  | 3 => if microCond m (mCond w) then next else jump
  | 4 =>
    let k := m.mlc - 1
    if k = 0 then { next with mlc := k } else { jump with mlc := k }
  | _ => next

/-- A step of the routine of an engine; `pos` is the bound word's place and `x` its entry at S's data stage. -/
def microStep (s : State) (r : SRef) (e : Eng) (st : Strand) (m : Micro) (pos : Nat) (x : Option SEntry) :
    Act MicroOut := do
  check (decide (m.steps < entSteps m.entry)) { cause := .stepBound }
  let w := wcsWord (getCtx s r.cell st.part).wcs (m.mpc % 4096)
  if mSeq w = 7 then
    .ok (.raised { m with mpc := m.mpc + 1, steps := m.steps + 1 }
      { cause := .trap, addr := (m.ms.get (Fin.ofNat 8 (mSa w))).toNat })
  else do
    let m := addressPart m w
    let (st, m) := scalarPart s.clock st e m w
    let (st, s, m) ←
      if mVop w ≠ 0 then do
        let (st, m) ← vectorPart s.clock pos st e m w
        .ok (st, s, m)
      else if mBop w ≠ 0 then scratchPart s r pos x st e m w
      else if mTop w ≠ 0 then tilePart s r st e m w
      else .ok (st, s, m)
    if mSeq w = 6 then .ok (.fin st s)
    else .ok (.go st s { microNext m w with steps := m.steps + 1 })

/-! ## Bound words (R350, R357, R364) -/

/-- The state that a routine starts from (R357). -/
def microStart (i : Instr) (index : Nat) (entry imm ms1 ms2 : Word) : Micro :=
  { word := i, index := index, entry := entry, mpc := entStart entry, mlc := 0,
    ms := #v[imm, ms1, ms2, 0, 0, 0, 0, 0], ag := Vector.replicate 8 0, mt := Vector.replicate 8 0, mmask := 0,
    z := false, n := false, vf := false, steps := 0 }

/-- `ms1` and `ms2` of an engine's bound word. -/
def boundRegs (st : Strand) (e : Eng) (a b : BitVec 7) : Act (Word × Word) :=
  match e with
  | .c => do
    let x ← readG st 0 (a.setWidth 5)
    let y ← readG st 1 (b.setWidth 5)
    .ok (x, y)
  | .l => do
    let x ← readA st 0 (a.setWidth 4)
    let y ← readA st 1 (b.setWidth 4)
    .ok (x, y)
  | .s => do
    let x ← readB st 0 (a.setWidth 4)
    let y ← readB st 1 (b.setWidth 4)
    .ok (x, y)
  | .m => .ok (a.setWidth 64, b.setWidth 64)
  | .v => .ok (0, 0)

/-- The routine of an entry writes scratchpad (R364). -/
def routineStores (c : Context) (entry : Word) : Bool :=
  ((routineRun c.wcs (entStart entry)).getD []).any fun p => mBop p.2 == 2 || mBop p.2 == 4 || mBop p.2 == 5

/-- The routine of an entry holds an `msout`. -/
def routineOuts (c : Context) (entry : Word) : Bool :=
  ((routineRun c.wcs (entStart entry)).getD []).any fun p => mSop p.2 == 8

/-- The place that a bound word of S keeps for its register result until its routine has ended (R30, R351). -/
def keepOut (clock : Nat) (st : Strand) (c : Context) (entry : Word) (h : Hdr) (d : BitVec 7) : Strand :=
  if routineOuts c entry then
    let r : Reg := .b (d.setWidth 4)
    { st with pending := st.pending ++ [⟨.s, (getEng st .s).passed, r, none, fullMask r, clock, h.lat.toNat, false⟩] }
  else st

/-- The routine of a bound word of S has ended: the place goes, and what waited behind it lands. -/
def dropOut (st : Strand) (pos : Nat) : Strand :=
  let gone (p : Pending) : Bool := p.eng == .s && p.pos == pos && p.val.isNone
  let rs := (st.pending.filter gone).map (·.reg)
  let st := { st with pending := st.pending.filter fun p => !gone p }
  rs.foldl (fun st r => landReg st r st.pending []) st

/-- The word of S that the data stage takes next (R118). -/
def nextStore (st : Strand) : Option SEntry := st.stores.find? fun x => !x.sent

/-- The strand without an entry of the table. -/
def dropStore (st : Strand) (x : SEntry) : Strand :=
  { st with stores := st.stores.filter fun y => !(y.pos == x.pos && !y.sent) }

/-- A bound word starts its routine; the engine stays at the word until the routine ends. A word of S waits at the data
stage. One of L waits for the outcome of a lean. One with a latency bound issues when its first step can run. -/
def execBoundOpcode (n : BitVec 6) (e : Eng) (h : Hdr) (d a b : BitVec 7) (imm : BitVec 24) (s : State) :
    Outcome State Fault Refusal :=
  let i := Instr.boundOpcode n e h d a b imm
  if e = .s then
    issueWith s Tk.none fun w st s' => do
      let c := getCtx s' w.cell st.part
      let entry := boundEntry c st .s n
      let (x, y) ← boundRegs st .s a b
      let e : SEntry :=
        { blankEntry st i with entered := routineStores c entry, lo := 0, hi := spmSize, ea := x,
                               desc := y.setWidth 256 ||| (entry.setWidth 256 <<< 64) }
      let st ← enterStore (keepOut s.clock st c entry h d) e
      .ok (putStrand s' (Walker.ref w) (stepPast s' st .s))
  else
    issueWith s h.tk fun w st s' => do
      await (w.eng != .l || st.lean.isNone)
      if w.eng = .m then quietM st
      let entry := boundEntry (getCtx s' w.cell st.part) st w.eng n
      let (x, y) ← boundRegs st w.eng a b
      let en := getEng st w.eng
      let m := microStart i en.pc entry (imm.setWidth 64) x y
      if entLat entry ≠ 0 && entLat entry ≠ 15 then
        match microStep s' (Walker.ref w) w.eng st m en.passed none with
        | .error .stall => stall
        | _ => .ok ()
      .ok (putStrand s' (Walker.ref w) (modEng st w.eng fun x => { x with micro := some m }))

/-- The fault of a routine, at its home engine and bound word (R367). -/
def microFault (s : State) (st : Strand) (e : Eng) (m : Micro) (t : Trap) : QFault :=
  ⟨t, Eng.code e, m.index, st.overlay.toNat, none, some (m.mpc % 4096, m.steps), s.clock⟩

/-- The end of a routine: the engine goes past the word, or S retires the entry `x`. -/
def endRoutine (s : State) (w : Walker) (st : Strand) (x : Option SEntry) : State :=
  let r := Walker.ref w
  let st := modEng st w.eng fun x => { x with micro := none }
  match w.eng with
  | .s => putStrand s r (match x with | some x => dropOut (dropStore st x) x.pos | none => st)
  | .c => countC (putStrand s r (stepPast s st .c)) r
  | .v => chargeStrand (putStrand s r (stepPast s st .v)) r (centiNj 80)
  | e => putStrand s r (stepPast s st e)

/-- MICRO_STEP: a step of the routine that the current engine runs. -/
def execMicroStep (s : State) : Outcome State Fault Refusal :=
  let w := s.cur
  let r := Walker.ref w
  match getStrand s r with
  | none => .next s
  | some st0 =>
    let st := { settle s.clock st0 with free := s.freeCount }
    match (getEng st w.eng).micro with
    | none => .next s
    | some m =>
      if stoppedMid st || st.loading.isSome || (w.eng != .s && (!st.block || regionPaused s st)) then .next s
      else
        let x := if w.eng = .s then nextStore st else none
        let pos := match x with | some x => x.pos | none => (getEng st w.eng).passed
        match microStep { s with freeCount := s.freeCount + 1 } r w.eng st m pos x with
        | .error .stall => .next s
        | .error (.hold h) => .next (startHold s h)
        | .error (.trap t) => .next (raiseAt s r (microFault s st w.eng m t))
        | .ok (.raised m' t) =>
          .next (raiseAt (putStrand s r (modEng st w.eng fun x => { x with micro := some m' })) r
            (microFault s st w.eng m t))
        | .ok (.go st s m) => .next (putStrand s r (modEng st w.eng fun x => { x with micro := some m, idle := 0 }))
        | .ok (.fin st s) => .next (endRoutine s w st x)

/-! ## The data stage of S (R118) -/

/-- The token bits of a word of S. -/
def storeTk : Instr → Tk
  | .nop _ tk | .stq tk _ _ _ | .stqs tk _ _ _ _ | .sts tk _ _ _ | .stsa tk _ _ _ | .stpk tk _ _ _ _ |
    .stmq tk _ _ _ _ _ _ | .stmqSc tk _ _ _ _ _ _ | .stmqAdd tk _ _ _ _ _ _ | .bput tk _ _ => tk
  | .badd h _ _ _ | .bset h _ _ | .bsetH h _ _ | .bsetQ h _ _ | .boundOpcode _ _ h _ _ _ _ => h.tk
  | _ => Tk.none

/-- The head entry takes its tokens and its effect, or a bound word starts its routine. -/
def dataStage (s : State) (r : SRef) (st : Strand) (x : SEntry) : Act State := do
  let st ← takeTokens st .s x.pos (storeTk x.word)
  match x.word with
  | .boundOpcode _ _ _ _ _ _ imm =>
    let m := microStart x.word x.index (x.desc.extractLsb' 64 64) (imm.setWidth 64) x.ea (x.desc.setWidth 64)
    .ok (putStrand s r (modEng st .s fun en => { en with micro := some m }))
  | _ => storeData s r (dropStore st x) x

/-- STORE_DATA_STAGE: the oldest word of S that waits for the data stage. A fault leaves it there. A strand that is
stopped, or whose context is being made ready, waits (R34, R353). -/
def execStoreDataStage (s : State) : Outcome State Fault Refusal :=
  let r := Walker.ref s.cur
  match getStrand s r with
  | none => .next s
  | some st0 =>
    let st := { settle s.clock st0 with free := s.freeCount }
    match nextStore st with
    | none => .next s
    | some x =>
      if stoppedMid st || st.loading.isSome || (getEng st .s).micro.isSome then .next s
      else match dataStage { s with freeCount := s.freeCount + 1 } r st x with
        | .ok s' => .next s'
        | .error .stall => .next s
        | .error (.hold h) => .next (startHold s h)
        | .error (.trap t) => .next (raiseLate s r .s x.index t)

/-! ## Landings and token pushes (R28, R36) -/

/-- RESULT_LANDS: a result whose value is known lands, after the older results of its register. -/
def execResultLands (r : SRef) (k : Nat) (s : State) : Outcome State Fault Refusal :=
  match getStrand s r with
  | none => .next s
  | some st =>
    match st.pending[k]? with
    | none => .next s
    | some p =>
      match p.val with
      | none => .next s
      | some x =>
        if (st.pending.take k).any fun q => q.reg == p.reg then .next s
        else .next (putStrand s r { landBits st p.reg x p.mask p.poison with pending := st.pending.eraseIdx k })

/-- TOKEN_PUSH: a reserved place is filled once the word that holds it is complete. A word on a leaning arm pushes
nothing before the outcome (R121), and a copy's place is its completion's (R93). -/
def execTokenPush (r : SRef) (k : Nat) (s : State) : Outcome State Fault Refusal :=
  match getStrand s r with
  | none => .next s
  | some st =>
    let n := k / 8
    let l := getTok st.tok n
    match l[k % 8]? with
    | none => .next s
    | some p =>
      let leaning := p.eng == .l && match st.lean with | some ln => decide (ln.saved.passed ≤ p.pos) | none => false
      if p.filled || p.copy.isSome || leaning || !wordDone st p.eng p.pos || decide ((getEng st p.eng).passed ≤ p.pos) then
        .next s
      else .next (putStrand s r { st with tok := putTok st.tok n (l.set (k % 8) { p with filled := true }) })

end Sys2Proof.Machine
end

