-- ==== Sys2Proof/Machine/CollAlu.lean ====
section
/-! DEFINITION. Arithmetic of the collective engine: the reduction ALU (R302) and the tenant operators (R370, R371).
-/

namespace Sys2Proof.Machine

open Host (Outcome)

/-! ## The ALU (R302) -/

def collTy (code : Nat) : Ty := tyCodes.getD code .b

/-- OPR 0 to 5 on one element of each side, the local one first. -/
def aluElem (t : Ty) (opr x y : Nat) : Nat :=
  match opr with
  | 0 => (kArith 1 t .ne false x y).1
  | 1 => (kArith 6 t .ne false x y).1
  | 2 => (kArith 7 t .ne false x y).1
  | 3 => x &&& y
  | 4 => x ||| y
  | _ => x ^^^ y

/-- The reduction of `n` bytes. -/
def aluBytes (t : Ty) (opr : Nat) : Nat → List Byte → List Byte → List Byte
  | 0, _, _ => []
  | n + 1, l, r =>
    let k := t.width / 8
    if l.isEmpty then []
    else toBytes (aluElem t opr (ofBytes (l.take k)) (ofBytes (r.take k))) k ++ aluBytes t opr n (l.drop k) (r.drop k)

/-! ## Tenant operators (R371) -/

/-- The state of an operator: `loc`, `rcv` and `res`, the micro-temporaries, the scalar unit and the counter. -/
structure OpRun where
  pc : Nat
  loc : Row
  rcv : Row
  res : Row
  mt : Vector Row 8
  ms : Vector Word 8
  mlc : BitVec 32
  z : Bool
  n : Bool
  vf : Bool
deriving DecidableEq, Repr

def opOperand (c : Nat) (dest : Bool) : Bool :=
  (decide (80 ≤ c) && decide (c ≤ 90)) || (!dest && c == 68)

/-- The limits of R371 on one micro-word, beside those of R365. -/
def opWordOk (w : MicroWord) : Bool :=
  let (a, b, d) := mUses w
  w.toNat &&& (2 ^ 128 - 1 - mUsed w) == 0 &&
  (decide (mSeq w ≤ 4) || mSeq w == 6) && (!(mSeq w == 2 || mSeq w == 3) || decide (mCond w ≤ 3)) &&
  mBop w == 0 && mTop w == 0 && mAop w == 0 && decide (mSop w ≤ 7) &&
  (decide (mVop w ≤ 15) || mVop w == 17) && (mVop w == 0 || mVty w == 15 || vopTypes (mVop w) (mVty w)) &&
  (!a || opOperand (mVa w) false) &&
  (!b || opOperand (mVb w) false) && (!d || opOperand (mVd w) true)

/-- An operator record's entry (R370) with its routine in the share. -/
def operatorOk (m : FMap MicroWord) (e : Word) : Bool :=
  entVal e && entEng e == 0 && entLat e == 0 && entRc e == 1 && entSteps e != 0 && wbits e 39 12 == 0 &&
  decide (entStart e < 1024) &&
  match routineRun m (entStart e) with
  | none => false
  | some run =>
    let last := entStart e + run.length - 1
    decide (last < 1024) && run.all fun p =>
      opWordOk p.2 && (!mJumps p.2 || (decide (entStart e ≤ mTarget p.2) && decide (mTarget p.2 ≤ last)))

def opSource (o : OpRun) (c : Nat) : Nat :=
  if 80 ≤ c ∧ c ≤ 87 then (o.mt.get (Fin.ofNat 8 (c - 80))).toNat
  else match c with
    | 88 => o.loc.toNat
    | 89 => o.rcv.toNat
    | 90 => o.res.toNat
    | _ => 0

/-- Writes the masked bits of a destination. -/
def opDest (o : OpRun) (c x mask : Nat) : OpRun :=
  let k := BitVec.ofNat 4096 mask
  let put (old : Row) : Row := (old &&& ~~~k) ||| (BitVec.ofNat 4096 x &&& k)
  match c with
  | 88 => { o with loc := put o.loc }
  | 89 => { o with rcv := put o.rcv }
  | 90 => { o with res := put o.res }
  | c =>
    let i := Fin.ofNat 8 (c - 80)
    { o with mt := o.mt.set i (put (o.mt.get i)) }

/-- The vector part: lanes of the step's length, or none where VMK takes `mmask`, which no part of an operator sets.
`none` is a fault of the step. -/
def opVector (ty : Nat) (lanes : Nat → Nat) (o : OpRun) (w : MicroWord) : Option OpRun :=
  let code := if mVty w = 15 then ty else mVty w
  let t := collTy code
  let (ua, ub, _) := vopUses (mVop w)
  let la := lanesAt t (if ua then opSource o (mVa w) else 0)
  let lb := lanesAt t (if ub then opSource o (mVb w) else 0)
  let en := match mVmk w with | 0 => lanes t.width | 3 => 2 ^ 1024 - 1 | _ => 0
  if !vopTypes (mVop w) code || (decide (mVop w ≤ 7) && (badT6 t en la || badT6 t en lb)) then none
  else
    let imm := (o.ms.get (Fin.ofNat 8 (mSa w))).toNat
    let res := kResults (mVop w) t .ne false en imm la lb
    let o := { o with vf := res.zipIdx.any fun p => bit en p.2 && p.1.1 != 0 }
    some (opDest o (mVd w) (packElems t.width (res.map (·.1))) (spread t.width t.count (bit en)))

/-- The scalar part, SOP 1 to 7. -/
def opScalar (o : OpRun) (w : MicroWord) : OpRun :=
  let a := o.ms.get (Fin.ofNat 8 (mSa w))
  let d := o.ms.get (Fin.ofNat 8 (mSd w))
  let put (x : Word) : OpRun := { o with ms := o.ms.set (Fin.ofNat 8 (mSd w)) x, z := x == 0, n := x.getLsbD 63 }
  match mSop w with
  | 1 => put (mSimm w)
  | 2 => put (a + mSimm w)
  | 3 => put (d + a)
  | 4 => put (a &&& mSimm w)
  | 5 => put (d <<< (a.toNat % 64))
  | 6 => put (((o.mt.get (Fin.ofNat 8 (mSa w))).setWidth 32).setWidth 64)
  | 7 => { o with mlc := a.setWidth 32 }
  | _ => o

def opCond (o : OpRun) (c : Nat) : Bool :=
  match c with
  | 0 => o.z
  | 1 => o.n
  | 2 => o.vf
  | _ => o.mlc == 0

/-- SEQ 0 to 4. -/
def opNext (o : OpRun) (w : MicroWord) : OpRun :=
  let next := { o with pc := o.pc + 1 }
  let jump := { o with pc := mTarget w }
  match mSeq w with
  | 1 => jump
  | 2 => if opCond o (mCond w) then jump else next
  | 3 => if opCond o (mCond w) then next else jump
  | 4 =>
    let k := o.mlc - 1
    if k = 0 then { next with mlc := k } else { jump with mlc := k }
  | _ => next

/-- Runs an operator for at most STEPS steps; `none` is FAULT. -/
def runOperator (m : FMap MicroWord) (ty : Nat) (lanes : Nat → Nat) : Nat → OpRun → Option Row
  | 0, _ => none
  | fuel + 1, o =>
    let w := wcsWord m o.pc
    let o := opScalar o w
    match (if mVop w = 0 then some o else opVector ty lanes o w) with
    | none => none
    | some o => if mSeq w = 6 then some o.res else runOperator m ty lanes fuel (opNext o w)

/-- The operator over a reduction, in groups of 512 bytes. -/
def operatorBytes (m : FMap MicroWord) (e : Word) (ty : Nat) : Nat → List Byte → List Byte → Option (List Byte)
  | 0, _, _ => some []
  | fuel + 1, l, r =>
    if l.isEmpty then some []
    else
      let n := min 512 l.length
      let loc := BitVec.ofNat 4096 (ofBytes (l.take 512))
      let start : OpRun :=
        { pc := entStart e, loc := loc, rcv := BitVec.ofNat 4096 (ofBytes (r.take 512)), res := loc,
          mt := Vector.replicate 8 0, ms := Vector.replicate 8 0, mlc := 0, z := false, n := false, vf := false }
      match runOperator m ty (fun w => 2 ^ (8 * n / w) - 1) (entSteps e) start with
      | none => none
      | some x => (operatorBytes m e ty fuel (l.drop 512) (r.drop 512)).map (toBytes x.toNat n ++ ·)

/-- op(local, received) over a range (R302); `none` is FAULT. -/
def reduceBytes (c : CollPart) (ty opr : Nat) (l r : List Byte) : Option (List Byte) :=
  if opr < 8 then some (aluBytes (collTy ty) opr l.length l r)
  else operatorBytes c.store (c.opTab.get (Fin.ofNat 8 (opr - 8))) ty (l.length / 512 + 1) l r

end Sys2Proof.Machine
end

