-- ==== Sys2Proof/Machine/Coll.lean ====
section
/-! DEFINITION. The collective engine (R296 to R315): groups, control blocks and programs, aborts, the commands of a
strand and the start of a collective.
-/

namespace Sys2Proof.Machine

open Host (Outcome)

/-! ## Parts of the engine -/

def getColl (s : State) (d part : Nat) : CollPart := (fget (getDie s d).coll part).getD {}

def putColl (s : State) (d part : Nat) (c : CollPart) : State :=
  modDie s d fun x => { x with coll := fset x.coll part c }

def modColl (s : State) (d part : Nat) (f : CollPart → CollPart) : State := putColl s d part (f (getColl s d part))

def getSlot (s : State) (r : CRef) : Option CollSlot := fget (getColl s r.die r.part).slots r.slot

def putSlot (s : State) (r : CRef) (x : CollSlot) : State :=
  modColl s r.die r.part fun c => { c with slots := fset c.slots r.slot x }

def modSlot (s : State) (r : CRef) (f : CollSlot → CollSlot) : State :=
  match getSlot s r with
  | some x => putSlot s r (f x)
  | none => s

def modRun (s : State) (r : CRef) (f : CollRun → CollRun) : State :=
  modSlot s r fun x => { x with run := x.run.map f }

/-- Every group slot of the package. -/
def allSlots (s : State) : List (CRef × CollSlot) :=
  (List.range 4).flatMap fun d => (getDie s d).coll.flatMap fun (p, c) => c.slots.map fun (k, x) => (⟨d, p, k⟩, x)

/-- The package and die of a member entry (R299). -/
def memberPkg (e : Nat) : Nat := e / 4 % 1024

def memberDie (e : Nat) : Nat := e % 4

def Group.size (g : Group) : Nat := g.members.length

def memberOf (g : Group) (rank : Nat) : Nat := g.members.getD rank 0

def routeOf (s : State) (pkg : Nat) : Option Route := s.hub.routes.find? fun r => r.pkg.toNat == pkg

def portUp (s : State) (p : Nat) : Bool := s.hub.portsUp.getLsbD p

/-- The port that carries traffic to a package, while it is up (R291). -/
def portOf (s : State) (pkg : Nat) : Option Nat :=
  match routeOf s pkg with
  | some r => if portUp s r.port then some r.port else none
  | none => none

def ownPkg (s : State) : Nat := s.hub.pkg.toNat

/-! ## Result records (R298) -/

def collRecord (seq tag : BitVec 16) (stat cause place step : Nat) : Word :=
  BitVec.ofNat 64 (seq.toNat * 2 ^ 48 + tag.toNat * 2 ^ 32 + stat * 2 ^ 20 + cause * 2 ^ 16 + place * 2 ^ 15 + step)

def giveResult (s : State) (cmd : CollCmd) (w : Word) : State :=
  modByUid s cmd.uid fun st => { st with results := fillRecord st.results cmd.id w }

/-! ## Headers and the log (R300, R308, R413) -/

/-- The header of a message in four doublewords. -/
def headerWords (m : CollMsg) : List Word :=
  [BitVec.ofNat 64 (m.wgid.toNat * 2 ^ 48 + m.dtag.toNat * 2 ^ 32 + m.seq.toNat * 2 ^ 16),
   BitVec.ofNat 64 (m.src * 2 ^ 32 + m.dst), BitVec.ofNat 64 (m.step * 2 ^ 32 + m.count),
   BitVec.ofNat 64 (m.ty.toNat * 2 ^ 4 + m.op.toNat)]

/-- A MISMATCH (R308) on the detecting die. -/
def logMismatch (s : State) (r : CRef) (m : CollMsg) : State :=
  addLog s r.die (logEntry s 0x41 0 r.part 0xFF 5 0 none (headerWords m))

/-- A message that names no group (R300): the sending package stands in PKG. -/
def logNoGroup (s : State) (die : Nat) (m : CollMsg) : State :=
  addLog s die (logEntry { s with hub := { s.hub with pkg := m.fromPkg } } 0x43 0 0 0xFF 5 0 none (headerWords m))

/-! ## Control blocks (R301) -/

def cbTag (b : List Word) : BitVec 16 := BitVec.ofNat 16 (wbits (blk b 0) 63 48)
def cbSlot (b : List Word) : Nat := wbits (blk b 0) 47 44
def cbTy (b : List Word) : Nat := wbits (blk b 0) 43 40
def cbOpr (b : List Word) : Nat := wbits (blk b 0) 39 36
def cbDet (b : List Word) : Bool := (blk b 0).getLsbD 35
def cbFab (b : List Word) : Bool := (blk b 0).getLsbD 34
def cbBar (b : List Word) : Bool := (blk b 0).getLsbD 33

def cbMask (b : List Word) : BitVec 16 :=
  let m := BitVec.ofNat 16 (wbits (blk b 0) 31 16)
  if m = 0 then 0xFFFF else m

/-- The time-out in cell cycles; TMO 0 means 10,000 µs. -/
def cbTmo (b : List Word) : Nat :=
  let t := wbits (blk b 0) 15 0
  4000 * (if t = 0 then 10000 else t)

def cbProg (b : List Word) : Nat := wbits (blk b 1) 53 0
def cbSteps (b : List Word) : Nat := wbits (blk b 2) 11 0 + 1
def bufKind (b : List Word) (k : Nat) : Nat := wbits (blk b (8 + 2 * k)) 63 62
def bufBase (b : List Word) (k : Nat) : Nat := wbits (blk b (8 + 2 * k)) 53 0
def bufCh (b : List Word) (k : Nat) : Nat := wbits (blk b (9 + 2 * k)) 63 48
def bufSize (b : List Word) (k : Nat) : Nat := wbits (blk b (9 + 2 * k)) 31 0

/-- A buffer descriptor holds no illegal field. BASE is aligned where memory or staging uses it. -/
def bufOk (b : List Word) (k : Nat) : Bool :=
  bufKind b k != 3 && wbits (blk b (8 + 2 * k)) 61 54 == 0 && wbits (blk b (9 + 2 * k)) 47 32 == 0 &&
    (bufKind b k == 0 || bufBase b k % 64 == 0)

/-- Every field of a block is legal, with the checks of R302 on type and operation. -/
def blockOk (c : CollPart) (b : List Word) : Bool :=
  let ty := cbTy b
  let opr := cbOpr b
  !(blk b 0).getLsbD 32 && wbits (blk b 1) 63 54 == 0 && wbits (blk b 2) 63 12 == 0 &&
    (List.range 5).all (fun i => blk b (3 + i) == 0) && (List.range 16).all (bufOk b) && cbProg b % 8 == 0 &&
    [4, 5, 8, 9, 10, 11].contains ty && opr != 6 && opr != 7 &&
    (!(decide (3 ≤ opr) && decide (opr ≤ 5)) || ty == 4 || ty == 5) &&
    (decide (opr < 8) || (c.ops && entVal (c.opTab.get (Fin.ofNat 8 (opr - 8))) && ty != 11))

/-! ## Programs (R303, R304, R306) -/

def csOp (w : Word) : Nat := wbits w 63 60
def csPeer (w : Word) : Nat := wbits w 59 56
def csK (w : Word) : Nat := wbits w 55 40
def csMode (w : Word) : Nat := wbits w 39 38
def csCtr (w : Word) : Nat := wbits w 37 36
def csBuf (w : Word) : Nat := wbits w 35 32
def csLen (w : Word) : Nat := wbits w 31 16
def csOff (w : Word) : Nat := wbits w 15 0

/-- A step that is legal by itself (R304, R305). -/
def stepOk (w : Word) : Bool :=
  match csOp w with
  | 0 | 1 | 2 | 7 => decide (csPeer w ≤ 4) && (csLen w != 0 || csMode w != 0 || (csBuf w == 0 && csOff w == 0))
  | 3 => csPeer w == 0 && wbits w 55 44 == 0 && (csLen w != 0 || csMode w != 0 || (csBuf w == 0 && csOff w == 0))
  | 4 | 8 => wbits w 59 0 == 0
  | 5 => decide (csPeer w ≤ 1) && csMode w == 0 && csBuf w == 0 && csLen w == 0
  | 6 => wbits w 59 38 == 0 && wbits w 35 0 == 0
  | _ => false

/-- The loops of a program open and close as R306 says; `opened` holds the counters of open loops. -/
def loopsOk : List Nat → List Word → Bool
  | _, [] => true
  | opened, w :: ws =>
    match csOp w with
    | 5 => !opened.contains (csCtr w) && loopsOk (csCtr w :: opened) ws
    | 6 => opened.contains (csCtr w) && loopsOk (opened.filter (· != csCtr w)) ws
    | 8 => opened.isEmpty && loopsOk opened ws
    | _ => loopsOk opened ws

def programOk (p : List Word) : Bool := p.all stepOk && loopsOk [] p

/-! ## Aborts (R309 to R311) -/

/-- The children of a member in the binomial tree rooted at `root` (R310). -/
def abortChildren (g : Group) (root : Nat) : List Nat :=
  let n := Group.size g
  let u := (g.rank + n - root) % n
  (List.range 12).filterMap fun j =>
    if decide (u < 2 ^ j) && decide (u + 2 ^ j < n) then some ((root + u + 2 ^ j) % n) else none

/-- A message of the abort tree to a rank. -/
def abortMsg (g : Group) (rank root : Nat) (seq : BitVec 16) (cause : BitVec 4) : NetMsg :=
  .abort (memberPkg (memberOf g rank)) (memberDie (memberOf g rank))
    ⟨g.wgid, g.dtag, seq, root, cause, g.rank, BitVec.ofNat 10 (memberPkg (memberOf g g.rank))⟩

def ackMsg (g : Group) (rank root : Nat) (seq : BitVec 16) (cause : BitVec 4) : NetMsg :=
  .ack (memberPkg (memberOf g rank)) (memberDie (memberOf g rank))
    ⟨g.wgid, g.dtag, seq, root, cause, g.rank, BitVec.ofNat 10 (memberPkg (memberOf g g.rank))⟩

def sendNet (s : State) (l : List NetMsg) : State := modHub s fun h => { h with net := h.net ++ l }

/-- The sequence after a collective has ended; aborts that the comparison of R308 would take for newer are forgotten. -/
def advanceSeq (x : CollSlot) : CollSlot :=
  let q := x.group.seq + 1
  { x with group := { x.group with seq := q }, aborted := x.aborted.filter fun a => decide ((q - a).toNat < 2 ^ 15) }

/-- The index of the step that runs: the oldest under way, or the one waited at (R298). -/
def runningStep (r : CollRun) : Nat :=
  match r.active with
  | a :: _ => a.index
  | [] => r.pc % 4096

/-- An abort whose children have all acknowledged: it acknowledges to its parent and ends the collective here (R310,
R311). -/
def settleAbort (s : State) (r : CRef) (a : Aborting) : State :=
  match getSlot s r with
  | none => s
  | some x =>
    let s := match a.parent with
      | some p => sendNet s [ackMsg x.group p a.root a.seq a.cause]
      | none => s
    let rest := x.aborts.filter fun b => b.seq != a.seq
    if a.silent then putSlot s r { x with aborts := rest, aborted := x.aborted ++ [a.seq] }
    else match a.cmd with
      | some (cmd, tag) =>
        let s := putSlot s r (advanceSeq { x with aborts := rest, aborted := x.aborted ++ [a.seq] })
        giveResult s cmd (collRecord a.seq tag 2 a.cause.toNat 0 a.step)
      | none => putSlot s r { x with aborts := rest ++ [{ a with parent := none }] }

/-- Ends every abort of a slot that has no child left to wait for. -/
def settleAborts (s : State) (r : CRef) : State :=
  match getSlot s r with
  | none => s
  | some x => (x.aborts.filter fun a => a.children.isEmpty).foldl (fun s a => settleAbort s r a) s

/-- An abort of (group, seq) starts here, detected or received (R309, R310): everything of the collective is dropped. -/
def startAbort (s : State) (r : CRef) (seq : BitVec 16) (root : Nat) (cause : BitVec 4) (parent : Option Nat) : State :=
  match getSlot s r with
  | none => s
  | some x =>
    if x.aborts.any fun a => a.seq == seq then s
    else
      let kids := abortChildren x.group root
      let mine := seq == x.group.seq
      let run := if mine then x.run else none
      let a : Aborting :=
        { seq := seq, root := root, cause := cause, parent := parent, children := kids, since := s.clock,
          tmo := match run with | some q => cbTmo q.block | none => cbTmo [],
          step := match run with | some q => runningStep q | none => 0,
          cmd := run.map fun q => (q.cmd, cbTag q.block), silent := decide (2 ^ 15 ≤ (seq - x.group.seq).toNat) }
      let x := { x with run := if mine then none else x.run, held := x.held.filter (fun m => m.2.seq != seq),
                        aborts := x.aborts ++ [a] }
      let s := sendNet (dropReads (putSlot s r x) r.part) (kids.map fun k => abortMsg x.group k root seq cause)
      settleAborts s r

/-- The member detects a failure of the collective that it runs or is next to start (R309). -/
def detect (s : State) (r : CRef) (cause : BitVec 4) : State :=
  match getSlot s r with
  | none => s
  | some x => startAbort s r x.group.seq x.group.rank cause none

def causeMismatch : BitVec 4 := 1
def causeTimeout : BitVec 4 := 2
def causeLink : BitVec 4 := 3
def causeSwitch : BitVec 4 := 4
def causeFault : BitVec 4 := 5

/-- A failed access of the engine: logged as R84 says, and FAULT. -/
def collFault (s : State) (r : CRef) (t : Trap) : State :=
  detect (dropAnswers (if trapLogged t then logTrap s r.die r.part t else s) r.part t.addr) r causeFault

/-! ## Reads and writes of buffers (R73, R296, R305) -/

/-- Bytes of a partition's staging space on an engine. -/
def stagingSize (c : CollPart) : Nat := 65536 * c.shares

/-- The strand that a collective is charged to and counted for, which may have departed (R376, R401). -/
def CollCmd.payer (cmd : CollCmd) (part : Nat) : Payer := ⟨cmd.cell, part, cmd.rcb, none, cmd.uid⟩

/-- A range of a buffer: kind 2 is staging. -/
def readRange (s : State) (r : CRef) (cmd : CollCmd) (b : List Word) (k off len : Nat) : Act (List Byte × State) :=
  let a := bufBase b k + 64 * off
  if len = 0 then .ok ([], s)
  else if bufKind b k = 2 then
    .ok ((List.range (64 * len)).map fun i => mread (getColl s r.die r.part).staging (a + i), s)
  else do
    let (ps, s) ← runOf s r.die none r.part .copyRead a (64 * len)
    let (bs, s) ← readPieces r.die r.part ps s
    .ok (bs, touchPieces s (cmd.payer r.part) false ps)

def writeRange (s : State) (r : CRef) (cmd : CollCmd) (b : List Word) (k off : Nat) (bs : List Byte) : Act State :=
  let a := bufBase b k + 64 * off
  if bs.isEmpty then .ok s
  else if bufKind b k = 2 then
    .ok (modColl s r.die r.part fun c => { c with staging := writeN c.staging a bs.length (ofBytes bs) })
  else do
    let (ps, s) ← runOf s r.die none r.part .copyWrite a bs.length
    let s ← writePieces r.die r.part ps bs s
    .ok (touchPieces s (cmd.payer r.part) true ps)

/-- The checks of R305 on a range of a buffer. -/
def rangeOk (c : CollPart) (b : List Word) (k off len : Nat) : Bool :=
  len == 0 || (bufKind b k != 0 && decide (off + len ≤ bufSize b k) &&
    (bufKind b k != 2 || decide (bufBase b k + 64 * (off + len) ≤ stagingSize c)))

/-! ## The commands (R297, R299 to R301) -/

/-- A command takes a place of the result FIFO and goes to the engine of the cell's die (R297, R336). -/
def pushColl (s : State) (mk : Strand → Act CollOp) : Outcome State Fault Refusal :=
  issueWith s Tk.none fun w st s' => do
    let op ← mk st
    await (decide (st.results.length < 8))
    let (id, s') := freshId s'
    let cmd : CollCmd := ⟨st.uid, w.cell, st.sid.rcb, id, (getEng st .c).passed, (getEng st .c).seen, op⟩
    let s' := modColl s' (dieOf w.cell) st.part fun c => { c with cmds := c.cmds ++ [cmd] }
    .ok (countC (putStrand s' (Walker.ref w) (stepPast s' { st with results := st.results ++ [⟨id, none⟩] } .c))
      (Walker.ref w))

def execPushGset (gb : BitVec 5) (s : State) : Outcome State Fault Refusal :=
  pushColl s fun st => do
    let a ← readG st 0 gb
    .ok (.gset a)

def execPushGfree (gb : BitVec 5) (s : State) : Outcome State Fault Refusal :=
  pushColl s fun st => do
    let a ← readG st 0 gb
    .ok (.gfree (a.setWidth 4))

def execPushCrun (gb : BitVec 5) (s : State) : Outcome State Fault Refusal :=
  pushColl s fun st => do
    let a ← readG st 0 gb
    .ok (.crun a)

/-- A read of the engine for a command: none when it fails, with the entry of R84. -/
def readFor (s : State) (die part va n : Nat) : Act (Option (List Byte) × State) :=
  match readVirt s die none part .copyRead va n with
  | .ok (bs, s) => .ok (some bs, s)
  | .error (.trap t) => .ok (none, dropAnswers (if trapLogged t then logTrap s die part t else s) part t.addr)
  | .error e => .error e

/-- A group descriptor whose reserved bits are zero and whose rank is in range: slot, group and list address (R299). -/
def groupDesc (w : List Word) : Option (Nat × Group × Nat × Nat) :=
  let n := wbits (blk w 0) 47 37 + 1
  let rank := wbits (blk w 0) 36 26
  let list := wbits (blk w 1) 53 0
  if wbits (blk w 0) 21 0 = 0 && wbits (blk w 1) 63 54 = 0 && wbits (blk w 2) 63 16 = 0 && blk w 3 = 0 &&
      decide (rank < n) && list % 4 = 0 then
    some (wbits (blk w 0) 25 22,
      ⟨BitVec.ofNat 16 (wbits (blk w 0) 63 48), 0, rank, [], BitVec.ofNat 16 (wbits (blk w 2) 15 0)⟩, list, n)
  else none

/-- The tests of R300 on the member list. -/
def membersOk (s : State) (die : Nat) (g : Group) : Bool :=
  g.members.all (fun e => decide (e < 4096) && (memberPkg e == ownPkg s || (routeOf s (memberPkg e)).isSome)) &&
    decide g.members.Nodup && memberOf g g.rank == 4 * ownPkg s + die

/-- GSET (R300). -/
def runGset (s : State) (die part : Nat) (cmd : CollCmd) (va : Nat) : Act State := do
  let refuse (s : State) : State := giveResult s cmd (collRecord 0 0 3 0 0 0)
  if va % 32 ≠ 0 then .ok (refuse s)
  else
    let (d, s) ← readFor s die part va 32
    match d with
    | none => .ok (refuse s)
    | some bs =>
      match groupDesc (toDwords bs 4) with
      | none => .ok (refuse s)
      | some (k, g, list, n) =>
        if (getSlot s ⟨die, part, k⟩).isSome then .ok (refuse s)
        else
          let (l, s) ← readFor s die part list (4 * n)
          match l with
          | none => .ok (refuse s)
          | some lb =>
            let g := { g with dtag := (getPart s part).dtag,
                              members := (List.range n).map fun i => ofBytes ((lb.drop (4 * i)).take 4) }
            if !membersOk s die g then .ok (refuse s)
            else .ok (giveResult (putSlot s ⟨die, part, k⟩ { group := g }) cmd (collRecord g.seq 0 4 0 0 0))

/-- GFREE (R300). -/
def runGfree (s : State) (die part : Nat) (cmd : CollCmd) (k : Nat) : State :=
  match getSlot s ⟨die, part, k⟩ with
  | none => giveResult s cmd (collRecord 0 0 3 0 0 0)
  | some x =>
    if x.run.isSome || !x.waiting.isEmpty || x.aborts.any (fun a => a.cmd.isSome) then
      giveResult s cmd (collRecord 0 0 6 0 0 0)
    else
      giveResult (modColl s die part fun c => { c with slots := ferase c.slots k }) cmd (collRecord 0 0 5 0 0 0)

/-- CRUN (R301): the block is read, and the collective waits for its turn in its slot. -/
def runCrun (s : State) (die part : Nat) (cmd : CollCmd) (va : Nat) : Act State := do
  let refuse (s : State) (tag : BitVec 16) : State := giveResult s cmd (collRecord 0 tag 3 0 0 0)
  if va % 64 ≠ 0 then .ok (refuse s 0)
  else
    let (d, s) ← readFor s die part va 320
    match d with
    | none => .ok (refuse s 0)
    | some bs =>
      let b := toDwords bs 40
      match getSlot s ⟨die, part, cbSlot b⟩ with
      | none => .ok (refuse s (cbTag b))
      | some x => .ok (putSlot s ⟨die, part, cbSlot b⟩ { x with waiting := x.waiting ++ [(cmd, b)] })

def runCmd (s : State) (die part : Nat) (cmd : CollCmd) : Act State :=
  match cmd.op with
  | .gset va => runGset s die part cmd va.toNat
  | .gfree k => .ok (runGfree s die part cmd k.toNat)
  | .crun va => runCrun s die part cmd va.toNat

/-- The strand's stores before the `push` have performed (R279). -/
def collReady (s : State) (cmd : CollCmd) : Bool :=
  match findUid s cmd.uid with
  | some st => storesPerformed st .c cmd.seen cmd.pos
  | none => true

/-! ## The start of a collective -/

/-- A reduction that the switches can grant (R312). -/
def fabricKind (b : List Word) : Bool :=
  cbFab b && !cbDet b && decide (cbOpr b ≤ 2) && [4, 5, 9, 10].contains (cbTy b)

/-- Starts the waiting collective of a slot. One whose sequence is being aborted gives the abort its record; an illegal
block or program is FAULT before any message (R309, R311). -/
def startColl (s : State) (r : CRef) : State :=
  match getSlot s r with
  | none => s
  | some x =>
    match x.waiting, x.run with
    | (cmd, b) :: rest, none =>
      let took : State := putSlot s r { x with waiting := rest }
      if x.aborts.any fun a => a.seq == x.group.seq && a.cmd.isSome then s
      else if x.aborts.any fun a => a.seq == x.group.seq then
        settleAborts (putSlot s r { x with waiting := rest, aborts := x.aborts.map fun a =>
          if a.seq == x.group.seq then { a with cmd := some (cmd, cbTag b), step := 0 } else a }) r
      else
        let run : CollRun :=
          { cmd := cmd, block := b, prog := [], pc := 0, counters := Vector.replicate 4 0, loops := [], active := [],
            heard := [], told := [], sent := [], waitSince := none, inFabric := fabricKind b }
        let begin_ (s : State) (p : List Word) : State :=
          modSlot s r fun y => { y with waiting := rest, run := some { run with prog := p } }
        if !blockOk (getColl s r.die r.part) b then detect (begin_ took []) r causeFault
        else match readVirt s r.die none r.part .copyRead (cbProg b) (8 * cbSteps b) with
          | .error (.hold h) => startHold s h
          | .error .stall => s
          | .error (.trap t) => collFault (begin_ s []) r t
          | .ok (bs, s) =>
            let p := toDwords bs (cbSteps b)
            if programOk p then begin_ s p else detect (begin_ s p) r causeFault
    | _, _ => s

/-- The commands of a partition on an engine, in the order of each strand. -/
def pumpCmds (die part : Nat) : List CollCmd → List Nat → State → State
  | [], _, s => s
  | c :: cs, blocked, s =>
    if blocked.contains c.uid || !collReady s c then pumpCmds die part cs (c.uid :: blocked) s
    else match runCmd s die part c with
      | .ok s => pumpCmds die part cs blocked (modColl s die part fun x => { x with cmds := x.cmds.filter fun q => q.id != c.id })
      | .error (.hold h) => pumpCmds die part cs (c.uid :: blocked) (startHold s h)
      | .error _ => pumpCmds die part cs (c.uid :: blocked) s

/-- The engine takes up what its strands have pushed, as time passes. -/
def pumpColl (s : State) (die part : Nat) : State :=
  let s := pumpCmds die part (getColl s die part).cmds [] s
  (List.range 16).foldl (fun s k => startColl s ⟨die, part, k⟩) s

def pumpAll (s : State) : State :=
  (List.range 4).foldl (fun s d => (getDie s d).coll.foldl (fun s p => pumpColl s d p.1) s) s

end Sys2Proof.Machine
end

