-- ==== Sys2Proof/Machine/CollSteps.lean ====
section
/-! DEFINITION. The steps of a running collective (R303 to R308), its messages, its end, and the events of aborts and of
in-fabric reductions (R309 to R312).
-/

namespace Sys2Proof.Machine

open Host (Outcome)

/-! ## Resolution (R305) -/

/-- Peer and receive peer, or none for a rank that no member has. -/
def peersOf (n rank v : Nat) (w : Word) : Option (Nat × Nat) :=
  let k := csK w
  let up (x : Nat) : Nat := (rank + x) % n
  let down (x : Nat) : Nat := (rank + n - x % n) % n
  match csPeer w with
  | 0 => if k < n then some (k, k) else none
  | 1 => some (up k, down k)
  | 2 => some (down k, up k)
  | 3 => if rank ^^^ k < n then some (rank ^^^ k, rank ^^^ k) else none
  | _ => some (up (k * 2 ^ v % n), down (k * 2 ^ v % n))

/-- Offset and length of a step in 64-byte units. -/
def rangeOf (b : List Word) (n rank v : Nat) (w : Word) : Nat × Nat :=
  let ch := bufCh b (csBuf w)
  let off := match csMode w with
    | 0 => csOff w
    | 1 => csOff w + ch * ((rank + n - v % n) % n)
    | 2 => csOff w + ch * ((rank + n - v % n + 1) % n)
    | _ => csOff w + ch * ((rank + v) % n)
  (off % 2 ^ 32, if csLen w ≠ 0 then csLen w else if csMode w ≠ 0 then ch else 0)

/-- How many messages have been counted for a rank. -/
def countOf (l : List (Nat × Nat)) (rank : Nat) : Nat := (l.lookup rank).getD 0

def bump (l : List (Nat × Nat)) (rank : Nat) : List (Nat × Nat) :=
  (rank, countOf l rank + 1) :: l.filter fun p => p.1 != rank

/-- A step that runs, or none when a check of R305 fails. -/
def resolveStep (c : CollPart) (x : CollSlot) (r : CollRun) (w : Word) (clock : Nat) : Option CStep :=
  let n := Group.size x.group
  let v := r.counters.get (Fin.ofNat 4 (csCtr w))
  let (off, len) := rangeOf r.block n x.group.rank v w
  let src := if csOp w = 3 then bits w.toNat 43 40 else 0
  if len = 0 && (csBuf w ≠ 0 || csOff w ≠ 0) then none
  else if !rangeOk c r.block (csBuf w) off len || (csOp w = 3 && !rangeOk c r.block src off len) then none
  else match (if csOp w = 3 then some (0, 0) else peersOf n x.group.rank v w) with
    | none => none
    | some (peer, rpeer) =>
      let from_ := if csOp w = 2 then rpeer else peer
      some ⟨csOp w, r.pc, from_, countOf r.heard from_, peer, countOf r.told peer, csBuf w, off, len, src, clock, none⟩

/-! ## Ranges under way (R307) -/

/-- A run of bytes: its kind of buffer, first byte and length. -/
abbrev BufRange := Nat × Nat × Nat

def bufRange (b : List Word) (k off len : Nat) : BufRange := (bufKind b k, bufBase b k + 64 * off, 64 * len)

def stepReads (b : List Word) (a : CStep) : List BufRange :=
  match a.op with
  | 1 => []
  | 3 => [bufRange b a.source a.off a.len]
  | _ => [bufRange b a.buf a.off a.len]

def stepWrites (b : List Word) (a : CStep) : List BufRange :=
  if a.op = 0 || a.msg.isSome then [] else [bufRange b a.buf a.off a.len]

def rangesMeet (l m : List BufRange) : Bool :=
  l.any fun p => m.any fun q => p.1 == q.1 && decide (p.2.1 < q.2.1 + q.2.2) && decide (q.2.1 < p.2.1 + p.2.2)

/-- An earlier step holds a later one. -/
def stepHolds (b : List Word) (y x : CStep) : Bool :=
  rangesMeet (stepWrites b x) (stepReads b y ++ stepWrites b y) || rangesMeet (stepReads b x) (stepWrites b y)

/-- No earlier step under way holds step `i`. -/
def stepFree (r : CollRun) (i : Nat) (a : CStep) : Bool := !((r.active.take i).any fun y => stepHolds r.block y a)

/-! ## Messages -/

/-- Every access of the strand before the `push`, in the classes of CMASK, has performed (R314). -/
def barReady (s : State) (r : CollRun) : Bool :=
  !cbBar r.block ||
  match findUid s r.cmd.uid with
  | none => true
  | some st =>
    let m := cbMask r.block
    issuedBefore st .c r.cmd.seen &&
      !(st.accs.any fun a => decide (a.pos < r.cmd.pos) && inClass m a.cls) &&
      !(st.stores.any fun x => x.mem && decide (x.pos < r.cmd.pos) && inClass m x.cls)

/-- Sends the header of a step. The message's number is kept until it is known to be written (R307). A peer without a
port has lost it (R309). -/
def sendHeader (s : State) (r : CRef) (x : CollSlot) (q : CollRun) (a : CStep) : Option (Nat × State) :=
  let e := memberOf x.group a.dst
  let here := memberPkg e == ownPkg s
  if !here && (portOf s (memberPkg e)).isNone then none
  else
    let (id, s) := freshId s
    let m : CollMsg :=
      { wgid := x.group.wgid, dtag := x.group.dtag, seq := x.group.seq, src := x.group.rank, dst := a.dst, step := a.ord,
        count := a.len, ty := BitVec.ofNat 4 (cbTy q.block), op := BitVec.ofNat 4 (cbOpr q.block), fromPkg := s.hub.pkg,
        data := [] }
    let s := sendNet s [.coll id (memberPkg e) (memberDie e) m]
    let s := if here then s else chargeFor s (q.cmd.payer r.part) (centiNj 90)
    some (id, modRun s r fun y => { y with sent := y.sent ++ [(id, if here then none else portOf s (memberPkg e))] })

/-- A message by its number, travelling or in staging. -/
def travelling (s : State) (id : Nat) : Option (Nat × CollMsg) :=
  s.hub.net.findSome? fun m =>
    match m with
    | .coll k pkg _ x => if k = id then some (pkg, x) else none
    | _ => none

/-- A receiver of this package has started the step that takes the message, and asks for its data. -/
def askedHere (s : State) (id : Nat) : Bool :=
  (allSlots s).any fun p =>
    match p.2.held.lookup id, p.2.run with
    | some m, some q => m.seq == p.2.group.seq && q.active.any fun a =>
        a.op != 0 && a.op != 3 && a.msg.isNone && a.src == m.src && a.nth == m.step
    | _, _ => false

/-- The data of a message is asked for: by a receiver here, or by one of another package. -/
def asked (s : State) (id : Nat) : Bool :=
  match travelling s id with
  | some (pkg, _) => pkg != ownPkg s
  | none => askedHere s id

/-- The data follows its header. -/
def giveData (s : State) (id : Nat) (bs : List Byte) : State :=
  let s := modHub s fun h => { h with net := h.net.map fun m =>
    match m with
    | .coll k pkg die x => if k = id then .coll k pkg die { x with data := bs } else .coll k pkg die x
    | m => m }
  (allSlots s).foldl (fun s p => modSlot s p.1 fun x =>
    { x with held := x.held.map fun (k, m) => if k = id then (k, { m with data := bs }) else (k, m) }) s

/-- A message has been written at its receiver: its sender here, or in its package, learns it. -/
def tellWritten (s : State) (id : Nat) (m : CollMsg) : State :=
  if m.fromPkg = s.hub.pkg then
    (allSlots s).foldl (fun s p => modRun s p.1 fun q => { q with sent := q.sent.filter fun e => e.1 != id }) s
  else sendNet s [.written m.fromPkg.toNat m]

/-! ## Steps (R307) -/

def dropStep (s : State) (r : CRef) (i : Nat) : State := modRun s r fun q => { q with active := q.active.eraseIdx i }

/-- What an access comes to for a step: go on, wait for a page, or FAULT. -/
def collAct {α : Type} (s : State) (r : CRef) (a : Act α) (go : α → State) : State :=
  match a with
  | .ok x => go x
  | .error (.hold h) => startHold s h
  | .error (.trap t) => collFault s r t
  | .error .stall => s

/-- The range is read out to its receiver. -/
def readOut (s : State) (r : CRef) (q : CollRun) (i : Nat) (a : CStep) (id : Nat) : State :=
  collAct s r (readRange s r q.cmd q.block a.buf a.off a.len) fun (bs, s) =>
    let away := match travelling s id with | some (pkg, _) => pkg != ownPkg s | none => false
    let s := if away then countFor s (q.cmd.payer r.part) (.remote 0) (64 * a.len) (64 * a.len) a.len else s
    dropStep (giveData s id bs) r i

/-- The message that a receiving step takes. -/
def matching (x : CollSlot) (a : CStep) : Option (Nat × CollMsg) :=
  x.held.find? fun p => p.2.seq == x.group.seq && p.2.src == a.src && p.2.step == a.nth

/-- A header that its step does not fit (R308). -/
def mismatched (q : CollRun) (a : CStep) (m : CollMsg) : Bool :=
  m.count != a.len || m.ty.toNat != cbTy q.block || m.op.toNat != cbOpr q.block

/-- The bytes that a receiving step writes: the data, or op(range, data). `none` is FAULT. -/
def receivedBytes (s : State) (r : CRef) (q : CollRun) (a : CStep) (data : List Byte) :
    Act (Option (List Byte) × State) :=
  if a.op = 1 then .ok (some data, s)
  else do
    let (l, s) ← readRange s r q.cmd q.block a.buf a.off a.len
    let s := chargeFor s (q.cmd.payer r.part) (centiNj (200 * ((a.len + 7) / 8)))
    .ok (reduceBytes (getColl s r.die r.part) (cbTy q.block) (cbOpr q.block) l data, s)

/-- After the write of RRS: its header goes out, and its data when asked for. -/
def sendOn (s : State) (r : CRef) (q : CollRun) (i : Nat) (a : CStep) : State :=
  match getSlot s r with
  | none => s
  | some x =>
    match sendHeader s r x q a with
    | none => detect s r causeLink
    | some (id, s) =>
      if a.len = 0 then dropStep s r i
      else modRun s r fun q => { q with active := q.active.set i { a with msg := some id } }

/-- The residue check of the collective's next reduction fails: nothing is written, and the collective ends in FAULT
(R417). -/
def upsetColl (s : State) (r : CRef) : State :=
  collFault { s with upsets := s.upsets.erase (.coll r) } r { cause := .uncorrectable, detail := 3 }

/-- RECV, REDUCE or the first part of RRS takes its message (R307, R308). -/
def takeMessage (s : State) (r : CRef) (q : CollRun) (i : Nat) (a : CStep) (id : Nat) (m : CollMsg) : State :=
  if mismatched q a m then detect (logMismatch s r m) r causeMismatch
  else if m.data.length ≠ 64 * m.count || !stepFree q i a then s
  else if a.op ≠ 1 && s.upsets.contains (.coll r) then upsetColl s r
  else collAct s r (do
      let (bs, s) ← receivedBytes s r q a m.data
      match bs with
      | none => .ok (none, s)
      | some bs => do
        let s ← writeRange s r q.cmd q.block a.buf a.off bs
        .ok (some (), s)) fun (done, s) =>
    match done with
    | none => detect s r causeFault
    | some _ =>
      let s := if m.fromPkg = s.hub.pkg then s else countFor s (q.cmd.payer r.part) (.remote 0) (64 * a.len) 0 0
      let s := tellWritten (modSlot s r fun x => { x with held := x.held.filter fun p => p.1 != id }) id m
      if a.op = 2 then sendOn s r q i a else dropStep s r i

/-- COPY (R307). -/
def copyStep (s : State) (r : CRef) (q : CollRun) (i : Nat) (a : CStep) : State :=
  collAct s r (do
      let (bs, s) ← readRange s r q.cmd q.block a.source a.off a.len
      writeRange s r q.cmd q.block a.buf a.off bs) fun s => dropStep s r i

/-- A step under way can go on now. -/
def stepReady (s : State) (x : CollSlot) (q : CollRun) (i : Nat) (a : CStep) : Bool :=
  match a.msg, a.op with
  | some id, _ => asked s id && stepFree q i a
  | none, 3 => stepFree q i a
  | none, _ =>
    match matching x a with
    | some (_, m) => mismatched q a m || (m.data.length == 64 * m.count && stepFree q i a)
    | none => false

/-- A step under way goes on. -/
def goStep (s : State) (r : CRef) (x : CollSlot) (q : CollRun) (i : Nat) (a : CStep) : State :=
  match a.msg, a.op with
  | some id, _ => readOut s r q i a id
  | none, 3 => copyStep s r q i a
  | none, _ =>
    match matching x a with
    | some (id, m) => takeMessage s r q i a id m
    | none => s

/-- A step runs for the strand that pushed the command (R401). -/
def countStep (s : State) (r : CRef) : State :=
  match (getSlot s r).bind (·.run) with
  | some q => modByUid s q.cmd.uid fun st => perfAdd st 0x15 1
  | none => s

/-- The step at the program counter starts (R307): SEND sends its header at once. -/
def startStep (s : State) (r : CRef) (x : CollSlot) (q : CollRun) (w : Word) : State :=
  match resolveStep (getColl s r.die r.part) x q w s.clock with
  | none => detect s r causeFault
  | some a =>
    let sends := a.op == 0 || a.op == 2
    let hears := a.op == 1 || a.op == 2 || a.op == 7
    let q' := { q with pc := q.pc + 1, told := if sends then bump q.told a.dst else q.told,
                       heard := if hears then bump q.heard a.src else q.heard }
    if sends && q.told.isEmpty && !barReady s q then s
    else if a.op = 0 then
      match sendHeader (modRun (countStep s r) r fun _ => q') r x q a with
        | none => detect s r causeLink
        | some (id, s) =>
          if a.len = 0 then s else modRun s r fun y => { y with active := y.active ++ [{ a with msg := some id }] }
    else modRun (countStep s r) r fun _ => { q' with active := q.active ++ [a] }

/-- A moving step of a program: the first of its kind that is under way and can go on, or else the next step. -/
def moveStep (s : State) (r : CRef) (op : Nat) : Outcome State Fault Refusal :=
  match getSlot s r with
  | none => .next s
  | some x =>
    match x.run with
    | none => .next s
    | some q =>
      if q.inFabric then .next s
      else match q.active.zipIdx.find? fun p => p.1.op == op && stepReady s x q p.2 p.1 with
        | some (a, i) => .next (goStep s r x q i a)
        | none =>
          match q.prog[q.pc]? with
          | some w => if csOp w = op then .next (startStep s r x q w) else .next s
          | none => .next s

def execSend (r : CRef) (s : State) : Outcome State Fault Refusal := moveStep s r 0

def execRecv (r : CRef) (s : State) : Outcome State Fault Refusal := moveStep s r 1

def execRrs (r : CRef) (s : State) : Outcome State Fault Refusal := moveStep s r 2

def execCollCopy (r : CRef) (s : State) : Outcome State Fault Refusal := moveStep s r 3

def execReduce (r : CRef) (s : State) : Outcome State Fault Refusal := moveStep s r 7

/-- A running program whose next step has the operation. -/
def atStep (s : State) (r : CRef) (op : Nat) (f : CollSlot → CollRun → Word → State) : Outcome State Fault Refusal :=
  match getSlot s r with
  | none => .next s
  | some x =>
    match x.run with
    | none => .next s
    | some q =>
      match q.prog[q.pc]? with
      | some w => if csOp w = op && !q.inFabric then .next (f x q w) else .next s
      | none => .next s

/-- WAIT (R307). -/
def execCollWait (r : CRef) (s : State) : Outcome State Fault Refusal :=
  atStep s r 4 fun _ q _ =>
    if q.sent.isEmpty && !(q.active.any fun a => a.op == 0 || a.op == 2) then
      modRun (countStep s r) r fun q => { q with pc := q.pc + 1, waitSince := none }
    else modRun s r fun q => { q with waitSince := q.waitSince.or (some s.clock) }

/-- The index after the next ENDL that names a counter (R306). -/
def afterEndl (p : List Word) (ctr : Nat) : Nat → Nat → Option Nat
  | 0, _ => none
  | fuel + 1, i =>
    match p[i]? with
    | none => none
    | some w => if csOp w = 6 && csCtr w = ctr then some (i + 1) else afterEndl p ctr fuel (i + 1)

/-- LOOP (R306). A counter whose loop is open makes it illegal. -/
def execCollLoop (r : CRef) (s : State) : Outcome State Fault Refusal :=
  atStep s r 5 fun x q w =>
    let c := csCtr w
    let n := Group.size x.group
    let t := if csPeer w = 0 then csK w else n - csK w
    if q.loops.any fun l => l.1 == c then detect s r causeFault
    else
      let q := { q with counters := q.counters.set (Fin.ofNat 4 c) (csOff w) }
      if t = 0 then
        match afterEndl q.prog c q.prog.length (q.pc + 1) with
        | some i => modRun (countStep s r) r fun _ => { q with pc := i }
        | none => detect s r causeFault
      else modRun (countStep s r) r fun _ => { q with pc := q.pc + 1, loops := (c, q.pc + 1, t) :: q.loops }

/-- ENDL (R306). -/
def execCollEndl (r : CRef) (s : State) : Outcome State Fault Refusal :=
  atStep s r 6 fun _ q w =>
    let c := csCtr w
    let i := Fin.ofNat 4 c
    match q.loops.find? fun l => l.1 == c with
    | none => detect s r causeFault
    | some (_, body, left) =>
      let rest := q.loops.filter fun l => l.1 != c
      let q := { q with counters := q.counters.set i (q.counters.get i + 1) }
      modRun (countStep s r) r fun _ =>
        if 1 < left then { q with pc := body, loops := (c, body, left - 1) :: rest }
        else { q with pc := q.pc + 1, loops := rest }

/-- The collective completes at the member: a barrier collective drops the L1 lines of its cell, the record is given and
the sequence advances (R311, R314). -/
def finishColl (s : State) (r : CRef) (x : CollSlot) (q : CollRun) (place : Nat) : State :=
  let s := if cbBar q.block then dropL1 s q.cmd.cell r.part else s
  let s := putSlot s r (advanceSeq { x with run := none })
  giveResult s q.cmd (collRecord x.group.seq (cbTag q.block) 0 0 place 0)

/-- END (R307, R308, R311). A program that runs past its last step has no END and is illegal. -/
def execCollEnd (r : CRef) (s : State) : Outcome State Fault Refusal :=
  match getSlot s r with
  | none => .next s
  | some x =>
    match x.run with
    | none => .next s
    | some q =>
      if q.inFabric then .next s
      else match q.prog[q.pc]? with
        | none => .next (detect s r causeFault)
        | some w =>
          if csOp w ≠ 8 then .next s
          else if !q.active.isEmpty || !q.sent.isEmpty || !barReady s q then
            .next (modRun s r fun q => { q with waitSince := q.waitSince.or (some s.clock) })
          else match x.held.find? fun p => p.2.seq == x.group.seq with
            | some (_, m) => .next (detect (logMismatch s r m) r causeMismatch)
            | none => .next (finishColl (countStep s r) r x q 0)

/-- COLL_TIMEOUT (R307): a receive, an RRS that has still to be read out, a WAIT or END has waited longer than TMO. -/
def execCollTimeout (r : CRef) (s : State) : Outcome State Fault Refusal :=
  match (getSlot s r).bind (·.run) with
  | none => .next s
  | some q =>
    let late (t : Nat) : Bool := decide (t + cbTmo q.block < s.clock)
    if (q.active.any fun a => (a.op == 1 || a.op == 2 || a.op == 7) && late a.since) ||
        (match q.waitSince with | some t => late t | none => false) then .next (detect s r causeTimeout)
    else .next s

/-! ## Arrivals (R300, R308, R310) -/

/-- The slot of a die that holds a wire group under a domain tag. -/
def findGroup (s : State) (die : Nat) (wgid dtag : BitVec 16) : Option (CRef × CollSlot) :=
  (allSlots s).find? fun p => p.1.die == die && p.2.group.wgid == wgid && p.2.group.dtag == dtag

/-- The sender of a message that named no group aborts with MISMATCH (R300). -/
def errorToSender (s : State) (id : Nat) (m : CollMsg) : State :=
  if m.fromPkg = s.hub.pkg then
    match (allSlots s).find? fun p => match p.2.run with | some q => q.sent.any fun e => e.1 == id | none => false with
    | some (r, _) => detect s r causeMismatch
    | none => s
  else sendNet s [.error m.fromPkg.toNat m]

/-- A header at its receiver (R308). -/
def deliverColl (s : State) (die id : Nat) (m : CollMsg) : State :=
  match findGroup s die m.wgid m.dtag with
  | none => errorToSender (logNoGroup s die m) id m
  | some (r, x) =>
    let d := (m.seq - x.group.seq).toNat
    if 2 ^ 15 ≤ d || x.aborts.any (fun a => a.seq == m.seq) then s
    else if d ≤ 1 then putSlot s r { x with held := x.held ++ [(id, m)] }
    else detect (logMismatch s r m) r causeMismatch

/-- The first travelling entry that satisfies `p`, and the rest. -/
def takeNet (s : State) (p : NetMsg → Bool) : Option (NetMsg × State) :=
  match s.hub.net.findIdx? p with
  | none => none
  | some i =>
    match s.hub.net[i]? with
    | some m => some (m, modHub s fun h => { h with net := h.net.eraseIdx i })
    | none => none

/-- COLL_MESSAGE_ARRIVE: a message of this package, or one of another with its data. -/
def execCollMessageArrive (die : Nat) (m : CollMsg) (s : State) : Outcome State Fault Refusal :=
  if m.fromPkg = s.hub.pkg then
    match takeNet s fun e => match e with
      | .coll _ pkg d x => pkg == ownPkg s && d == die && x == m
      | _ => false with
    | some (.coll id _ _ x, s) => .next (deliverColl s die id x)
    | _ => .next s
  else if m.data.length = 64 * m.count && (routeOf s m.fromPkg.toNat).isSome then
    let (id, s) := freshId s
    .next (deliverColl s die id m)
  else .next s

/-- A message that names no group is logged, and one of another package is answered with an error (R300). A sender of this
package has dropped the collective already. -/
def refuseAbort (s : State) (die : Nat) (m : CollMsg) : State :=
  let s := logNoGroup s die m
  if m.fromPkg = s.hub.pkg then s else sendNet s [.error m.fromPkg.toNat m]

/-- A message of the abort tree has come: one of this package that travels, or one of another package. -/
def takeAbort (s : State) (a : CollAbort) (mine : NetMsg) : Option State :=
  if a.fromPkg = s.hub.pkg then (takeNet s (· == mine)).map (·.2) else some s

/-- The header that a message of the abort tree carries. -/
def abortHeader (a : CollAbort) : CollMsg :=
  { wgid := a.wgid, dtag := a.dtag, seq := a.seq, src := a.src, dst := 0, step := 0, count := 0, ty := 0, op := 0,
    fromPkg := a.fromPkg, data := [] }

/-- ABORT_RECEIVE (R310): the first ABORT of a collective ends it here; a second is acknowledged at once. -/
def execAbortReceive (die : Nat) (a : CollAbort) (s : State) : Outcome State Fault Refusal :=
  match takeAbort s a (.abort (ownPkg s) die a) with
  | none => .next s
  | some s =>
    match findGroup s die a.wgid a.dtag with
    | none => .next (refuseAbort s die (abortHeader a))
    | some (r, x) =>
      let n := Group.size x.group
      if n ≤ a.root || n ≤ a.src then .next s
      else if x.aborted.contains a.seq || x.aborts.any (fun b => b.seq == a.seq) then
        .next (sendNet s [ackMsg x.group a.src a.root a.seq a.cause])
      else .next (startAbort s r a.seq a.root a.cause (some a.src))

/-- A child is no longer waited for. -/
def dropChild (s : State) (r : CRef) (seq : BitVec 16) (child : Nat) : State :=
  settleAborts (modSlot s r fun x => { x with aborts := x.aborts.map fun b =>
    if b.seq == seq then { b with children := b.children.filter (· != child) } else b }) r

/-- ABORT_ACK (R310, R311). -/
def execAbortAck (die : Nat) (a : CollAbort) (s : State) : Outcome State Fault Refusal :=
  match takeAbort s a (.ack (ownPkg s) die a) with
  | none => .next s
  | some s =>
    match findGroup s die a.wgid a.dtag with
    | none => .next (refuseAbort s die (abortHeader a))
    | some (r, _) => .next (dropChild s r a.seq a.src)

/-- ABORT_GIVE_UP (R310): a child has not acknowledged within TMO. -/
def execAbortGiveUp (r : CRef) (child : Nat) (s : State) : Outcome State Fault Refusal :=
  match getSlot s r with
  | none => .next s
  | some x =>
    match x.aborts.find? fun a => a.children.contains child && decide (a.since + a.tmo ≤ s.clock) with
    | some a => .next (dropChild s r a.seq child)
    | none => .next s

/-! ## In the fabric (R309, R312) -/

/-- SWITCH_FAILURE: the switch that holds the context of a waiting reduction fails. -/
def execSwitchFailure (r : CRef) (s : State) : Outcome State Fault Refusal :=
  match (getSlot s r).bind (·.run) with
  | some q => if q.inFabric then .next (detect s r causeSwitch) else .next s
  | none => .next s

/-- IN_FABRIC_GRANT: with a grant the switches' result goes to its buffer; without one the program runs. -/
def execInFabricGrant (r : CRef) (granted : Bool) (result : List Byte) (s : State) : Outcome State Fault Refusal :=
  match getSlot s r with
  | none => .next s
  | some x =>
    match x.run with
    | none => .next s
    | some q =>
      if !q.inFabric then .next s
      else if !granted then .next (modRun s r fun q => { q with inFabric := false })
      else
        let c := getColl s r.die r.part
        let n := bufSize q.block 0
        let d := if bufKind q.block 1 = 0 then 0 else 1
        if !barReady s q then .next s
        else if !rangeOk c q.block 0 0 n || !rangeOk c q.block d 0 n then .next (detect s r causeFault)
        else if result.length ≠ 64 * n then .next s
        else .next (collAct s r (do
            let (_, s) ← readRange s r q.cmd q.block 0 0 n
            writeRange s r q.cmd q.block d 0 result) fun s =>
          match getSlot s r with
          | some x => finishColl s r x q 1
          | none => s)

end Sys2Proof.Machine
end

