-- ==== Sys2Proof/Machine/Fabric.lean ====
section
/-! DEFINITION. What leaves the package and what comes back (R76, R290 to R295): remote and host requests, ports, the
pull of migrating pages (R81 to R83), invalidations (R80) and the requests of other packages (R67).
-/

namespace Sys2Proof.Machine

open Host (Outcome)

/-! ## Requests that leave -/

/-- The host port stands as port 16 among the ports. -/
def hostPort : Nat := 16

/-- The home of an access is off the package. -/
def awayHome (h : Home) : Bool := !homeLocal h

/-- C finds the line of a load of another package in L1 (R74). -/
def hitsL1 (s : State) (r : SRef) (st : Strand) (a : Access) : Bool :=
  l1Load a && !a.acq && (findLine s r.cell st.part a.home a.msa (a.pa / 128)).isSome

def isFence : AccKind → Bool
  | .fence .. => true
  | _ => false

/-- A store that leaves the package is past every ordering point on its way (R266). -/
def passPoints (s : State) (r : SRef) (a : Access) : State :=
  if a.kind = .store then
    let (t, s) := freshId s
    let pass (b : Access) : Access :=
      if b.id = a.id then { b with reach := b.reach ++ List.replicate (pointsOf r.cell a - b.reach.length) t } else b
    modStrand s r fun st => { st with accs := st.accs.map pass }
  else s

/-- An access whose earlier accesses have performed leaves for its home, behind what has entered before it at the ordering
points of its way (R266). A package that the route table does not hold answers with an error (R290); one whose port is down
waits for the next port (R292). -/
def departOne (s : State) (r : SRef) (st : Strand) (a : Access) : State :=
  if isFence a.kind || homeLocal a.home || (s.hub.remotes.any fun q => q.id == a.id) || !mayPerform st a ||
      hitsL1 s r st a || !pathClear s r.cell a (pointsOf r.cell a) then s
  else
    let leave (pkg : BitVec 10) (port : Nat) : State :=
      modHub (passPoints s r a) fun h => { h with remotes := h.remotes ++ [⟨a.id, pkg, port, s.clock⟩] }
    match a.home with
    | .host => leave 0 hostPort
    | .remote pkg =>
      (match routeOf s pkg.toNat with
       | none => performAway s r st a .error
       | some e => if portUp s e.port then leave pkg e.port else s)
    | _ => s

/-- The answer to a unit's request has come: the effect that waits for it finds it (R76, R293). -/
def endUnit (s : State) (u : UnitReq) (e : AwayEnd) : State :=
  modHub s fun h => { h with away := h.away.filter (fun x => x.id != u.id),
                             answers := if u.req.posted then h.answers else h.answers ++ [(u.req, e)] }

/-- A unit's request leaves as an access does. -/
def departUnit (s : State) (u : UnitReq) : State :=
  let leave (port : Nat) : State := modHub s fun h =>
    { h with away := h.away.map fun x => if x.id = u.id then { x with sent := some (port, s.clock) } else x }
  match u.sent, u.req.home with
  | some _, _ => s
  | none, .remote pkg =>
    (match routeOf s pkg.toNat with
     | none => endUnit s u (.reply .error)
     | some e => if portUp s e.port then leave e.port else s)
  | none, _ => leave hostPort

/-- As time passes, every request that may leave does. -/
def departAll (s : State) : State :=
  let s := s.strands.foldl (fun s p => p.2.accs.foldl (fun s a =>
    match getStrand s ⟨p.1 / 4, p.1 % 4⟩ with
    | some st => if st.accs.contains a then departOne s ⟨p.1 / 4, p.1 % 4⟩ st a else s
    | none => s) s) s
  s.hub.away.foldl departUnit s

/-- Bytes that the answer to an access carries: a line for a load that may allocate L1 (R74), the value of a load or
the old value of an atomic, nothing for a store. -/
def answerBytes (a : Access) : Nat :=
  if l1Load a then 128 else if a.kind = .store then 0 else a.size

def answerFits (a : Access) : Reply → Bool
  | .data bs => bs.length == answerBytes a
  | _ => true

def dropRemote (s : State) (id : Nat) : State :=
  modHub s fun h => { h with remotes := h.remotes.filter fun q => q.id != id }

/-- A unit's request that has left through a port of the kind `p`. -/
def unitOut (s : State) (id : Nat) (p : Nat → Bool) : Option UnitReq :=
  s.hub.away.find? fun u => u.id == id && match u.sent with | some (port, _) => p port | none => false

/-- What a unit reads comes whole, and a write is answered without data. -/
def unitFits (q : AwayReq) : Reply → Bool
  | .data bs => bs.length == if q.data.isSome then 0 else q.len
  | _ => true

/-- An answer for a request through a port of the kind `p`. -/
def answerAway (s : State) (id : Nat) (p : Nat → Bool) (reply : Reply) : State :=
  match unitOut s id p with
  | some u => if unitFits u.req reply then endUnit s u (.reply reply) else s
  | none =>
  if s.hub.remotes.any fun q => q.id == id && p q.port then
    match accessOwner s id with
    | some (r, st, a) => if answerFits a reply then performAway (dropRemote s id) r st a reply else s
    | none => dropRemote s id
  else s

/-- A request of a strand that got no answer, or was outstanding on a port that went down (R76, R293). -/
def failRemote (s : State) (id : Nat) : State :=
  match accessOwner s id with
  | some (r, st, a) => failAccess (dropRemote s id) r st a { cause := .uncorrectable, detail := 5 }
  | none => dropRemote s id

/-- The same of a strand's or a unit's request. -/
def failAway (s : State) (id : Nat) : State :=
  match s.hub.away.find? fun u => u.id == id with
  | some u => endUnit s u .lost
  | none => failRemote s id

/-- A collective message has been answered: written at its receiver, or refused (R300, R307). -/
def answerColl (s : State) (id : Nat) (reply : Reply) : State :=
  match (allSlots s).find? fun p =>
      match p.2.run with | some q => q.sent.any fun e => e.1 == id && e.2.isSome | none => false with
  | none => s
  | some (r, _) =>
    match reply with
    | .error => detect s r causeMismatch
    | _ => modRun s r fun q => { q with sent := q.sent.filter fun e => e.1 != id }

/-- REMOTE_RESPONSE (R293). A late answer finds nothing and is discarded. -/
def execRemoteResponse (id : Nat) (reply : Reply) (s : State) : Outcome State Fault Refusal :=
  if (s.hub.remotes.any fun q => q.id == id) || (s.hub.away.any fun u => u.id == id) then
    .next (answerAway s id (fun p => p != hostPort) reply)
  else .next (answerColl s id reply)

/-- A request that left `n` cycles ago or more, through the host port or through another one. -/
def overdue (s : State) (id n : Nat) (host : Bool) : Bool :=
  let late (port t : Nat) : Bool := (port == hostPort) == host && decide (t + n ≤ s.clock)
  (s.hub.remotes.any fun q => q.id == id && late q.port q.since) ||
    s.hub.away.any fun u => u.id == id && match u.sent with | some (port, t) => late port t | none => false

/-- REMOTE_TIMEOUT (R293): 100 µs without an answer. -/
def execRemoteTimeout (id : Nat) (s : State) : Outcome State Fault Refusal :=
  if overdue s id 400000 false then .next (failAway s id) else .next s

/-- HOST_COMPLETION (R76). -/
def execHostCompletion (id : Nat) (reply : Reply) (s : State) : Outcome State Fault Refusal :=
  .next (answerAway s id (fun p => p == hostPort) reply)

/-- HOST_COMPLETION_TIMEOUT (R76): 50 ms without a completion. -/
def execHostCompletionTimeout (id : Nat) (s : State) : Outcome State Fault Refusal :=
  if overdue s id 200000000 true then .next (failAway s id) else .next s

/-! ## Ports (R291, R292, R295) -/

/-- A member that had a message on the port, or was due one, whether or not its collective has started (R309). -/
def lostOn (port : Nat) (lost : List CRef) (p : CRef × CollSlot) : Bool :=
  lost.contains p.1 || match p.2.run with
    | some q => q.sent.any fun e => e.2 == some port
    | none => false

/-- A port goes down: its requests fail, its attempts at pulls fail, the collectives with messages on it abort, and its
routes go over to the next port. -/
def dropPort (s : State) (port : Nat) (lost : List CRef) : State :=
  let s := modHub s fun h =>
    { h with portsUp := h.portsUp &&& ~~~(BitVec.ofNat 16 (2 ^ port)),
             routes := h.routes.map fun r => if r.port == port then { r with port := r.next, next := r.port } else r }
  let s := ((s.hub.remotes.filter fun q => q.port == port).map (·.id)).foldl failRemote s
  let s := (s.hub.away.filter fun u => match u.sent with | some (p, _) => p == port | none => false).foldl
    (fun s u => endUnit s u .lost) s
  let s := { s with dies := s.dies.map fun d => { d with pulls := d.pulls.map fun p =>
    if p.port == port then { p with attempt := none } else p } }
  ((allSlots s).filter (lostOn port lost)).foldl (fun s p => detect s p.1 causeLink) s

/-- PORT_DOWN (R292). -/
def execPortDown (port : Nat) (lost : List CRef) (s : State) : Outcome State Fault Refusal :=
  if portUp s port then .next (dropPort s port lost) else .next s

/-- The count of failed replays of a link. -/
def setReplays (s : State) (port n : Nat) : State :=
  modHub s fun h => { h with replays := h.replays.set (Fin.ofNat 16 port) n }

/-- EPNER_FLIT_RECEIVE (R295): after a first failure and three failed replays of a flit its link is down. -/
def execEpnerFlitReceive (port : Nat) (ok : FlitCheck) (s : State) : Outcome State Fault Refusal :=
  if !portUp s port then .next s
  else
    match ok with
    | .good => .next (setReplays s port 0)
    | .bad lost =>
      let n := s.hub.replays.get (Fin.ofNat 16 port) + 1
      if 4 ≤ n then .next (dropPort (setReplays s port 0) port lost) else .next (setReplays s port n)

/-! ## Invalidation (R80) -/

/-- A cached translation of a partition lies in a range of virtual addresses. -/
def xlatIn (part base len p va level : Nat) : Bool :=
  p == part && decide (va < base + len) && decide (base < va + pageSize level)

/-- Every cache of the package drops the partition's entries that overlap a range. -/
def invalidateRange (s : State) (part base len : Nat) : State :=
  let keep (e : TlbEntry) : Bool := !xlatIn part base len e.part e.va e.level
  let keepW (e : WalkEntry) : Bool := !xlatIn part base len e.part e.va e.level
  let cell (c : Cell) : Cell := { c with tlb := c.tlb.filter keep }
  { s with cells := s.cells.map fun (k, c) => (k, cell c),
           dies := s.dies.map fun d => { d with tlb := d.tlb.filter keep, walk := d.walk.filter keepW } }

/-- A page at a level, by an address in it, lies in a range. -/
def pageIn (base len va level : Nat) : Bool := xlatIn 0 base len 0 (va / pageSize level * pageSize level) level

/-- A strand has an access or a store of S in flight whose page lies in a range. -/
def strandIn (part base len : Nat) (st : Strand) : Bool :=
  st.part == part && ((st.accs.any fun a => !isFence a.kind && pageIn base len a.va a.level) ||
    st.stores.any fun x => x.mem && x.tgt != 0 && pageIn base len x.ea.toNat x.level)

/-- An access in flight that was translated in a range, or a copy whose channel holds such a translation, started or not
(R80, R104). -/
def inFlightIn (s : State) (part base len : Nat) : Bool :=
  (s.strands.any fun p => strandIn part base len p.2) ||
    (s.ctxs.any fun p => p.2.departed.any (strandIn part base len)) ||
    s.cells.any fun p => p.2.chans.toList.any fun c =>
      match c with
      | some run => run.pages.any fun e => xlatIn part base len e.2.x.leaf.part e.2.x.leaf.va e.2.x.leaf.level
      | none => false

/-- A value for the strand word that waits for it, resident or departed (R29, R344). -/
def answerWord0 (s : State) (uid pos : Nat) (x : Int) : State :=
  modByUid s uid fun st => answerPending st pos (BitVec.ofInt 64 x)

/-- A new scrub joins the queue (R428); frames without an owner are not yet given (R423). -/
def queueScrub (s : State) (x : Scrub) : State := modHub s fun h => { h with scrubs := h.scrubs ++ [x] }

/-- Takes frames from a partition: their entries go invalid and they are scrubbed before they join the pool (R430). -/
def takeFrames (s : State) (part : Nat) (fs : List Nat) : State :=
  let s := modHub s fun h =>
    { h with owners := fs.foldl (fun o f => fset o f ⟨false, part, part, 0⟩) h.owners, unmarked := h.unmarked ++ fs }
  let s := modPart s part fun p => { p with frames := p.frames.filter fun f => !fs.contains f }
  queueScrub s ⟨part, 1, fs.length, 0, fs, false, 0, []⟩

/-- INVALIDATION_COMPLETE (R80): no access translated in the range is in flight, and no cache holds an entry of it. -/
def execInvalidationComplete (k : Nat) (s : State) : Outcome State Fault Refusal :=
  match s.hub.invals[k]? with
  | none => .next s
  | some v =>
    if inFlightIn s v.part v.base v.len then .next s
    else
      let s := invalidateRange (modHub s fun h => { h with invals := h.invals.eraseIdx k }) v.part v.base v.len
      let s := match v.take with
        | some (first, n) => takeFrames s v.part ((List.range n).map (· + first))
        | none => s
      let s := match v.caller with
        | some (uid, pos) => answerWord0 s uid pos 0
        | none => s
      .next (if v.mgmt then modHub s fun h => { h with readyReply := some [] } else s)

/-! ## Pulls (R82, R83) -/

/-- The ports with a path to a package that are up, the route's own first. -/
def pathPorts (s : State) (pkg : Nat) : List Nat :=
  match routeOf s pkg with
  | some r => ([r.port, r.next].filter (portUp s)).dedup
  | none => []

/-- The port after one in round-robin order. -/
def nextPort (l : List Nat) (p : Nat) : Option Nat :=
  match l with
  | [] => none
  | x :: _ =>
    match l.findIdx? (· == p) with
    | some i => l[(i + 1) % l.length]?
    | none => some x

/-- A pull between attempts starts the next one until 2 ms have passed; `port` 16 stands for none so far (R83). -/
def attemptPull (s : State) (p : Pull) : Pull :=
  match p.attempt with
  | some _ => p
  | none =>
    if p.since + 8000000 ≤ s.clock then p
    else match nextPort (pathPorts s (pteHome p.pte)) p.port with
    | some q => { p with port := q, attempt := some s.clock }
    | none => p

def attemptAll (s : State) : State :=
  { s with dies := s.dies.map fun d => { d with pulls := d.pulls.map (attemptPull s) } }

def dropPull (s : State) (die k : Nat) : State := modDie s die fun d => { d with pulls := d.pulls.eraseIdx k }

/-- The upper doubleword of a leaf with MIG, HOME and SFRAME. -/
def migUpper (p : BitVec 128) (mig home sframe : Nat) : Nat :=
  bits p.toNat 117 106 * 2 ^ 42 + home * 2 ^ 54 + mig * 2 ^ 40 + sframe

/-- The attempt of a pull ends without the page; the next one goes over the next port (R83). -/
def endAttempt (s : State) (die k : Nat) (p : Pull) : State :=
  modDie s die fun d => { d with pulls := d.pulls.set k { p with attempt := none } }

/-- PULL_DATA_ARRIVE (R82): the page, then the leaf in one write, then the invalidation of its entries. What waits finds
the page when it tries again. An error or poisoned data ends the attempt (R83). -/
def execPullDataArrive (die k : Nat) (reply : Reply) (s : State) : Outcome State Fault Refusal :=
  match (getDie s die).pulls[k]? with
  | none => .next s
  | some p =>
    match p.attempt, reply with
    | none, _ => .next s
    | some _, .error => .next (endAttempt s die k p)
    | some _, .poison => .next (endAttempt s die k p)
    | some _, .data page =>
      if page.length ≠ pageBytes then .next s
      else
        let s := memWrite (dropPull s die k) (pteFrame p.pte) pageBytes (ofBytes page)
        let s := memWrite s (p.pteAddr + 8) 8 (migUpper p.pte 0 s.hub.pkg.toNat 0)
        let s := modPart s p.part fun x => { x with counters := { x.counters with fabb := x.counters.fabb + pageBytes } }
        .next (invalidateRange s p.part p.va pageBytes)

/-- PULL_ATTEMPT_TIMEOUT (R83): 50 µs. -/
def execPullAttemptTimeout (die k : Nat) (s : State) : Outcome State Fault Refusal :=
  match (getDie s die).pulls[k]? with
  | none => .next s
  | some p =>
    match p.attempt with
    | some t =>
      if t + 200000 ≤ s.clock then .next (endAttempt s die k p) else .next s
    | none => .next s

/-- PULL_GIVE_UP (R83): 2 ms after the first request the page is lost, and its lines are poisoned. What waits meets
MIGLOST when it tries again. -/
def execPullGiveUp (die k : Nat) (s : State) : Outcome State Fault Refusal :=
  match (getDie s die).pulls[k]? with
  | none => .next s
  | some p =>
    if p.since + 8000000 ≤ s.clock then
      let s := memWrite (dropPull s die k) (p.pteAddr + 8) 8
        (migUpper p.pte 2 (pteHome p.pte) (pteSframe p.pte / 2 ^ 14))
      let s := modHub s fun h =>
        { h with linePoison := (linesOf (pteFrame p.pte) pageBytes).foldl insertNew h.linePoison }
      .next (invalidateRange s p.part p.va pageBytes)
    else .next s

/-! ## Requests of other packages (R59, R67, R75) -/

/-- Bytes that a remote request touches. -/
def remoteBytes : RemoteOp → Nat
  | .load n => n
  | .store bs => bs.length
  | .atomic _ w _ _ _ => Sz.bytes w
  | .pull => pageBytes

/-- The frames of a run are populated and hold the requester's domain tag (R59, R67). -/
def remoteAllowed (s : State) (q : RemoteReq) : Bool :=
  let n := remoteBytes q.op
  (routeOf s q.pkg.toNat).isSome && n != 0 && (linesOf q.addr n).all fun l =>
    populated s (l * 128) &&
      match fget s.hub.owners (frameOf (l * 128)) with
      | some o => o.valid && o.dtag == q.dtag
      | none => false

/-- The lines of a remote request pass the home slice's L2 as a package's own do (R15, R71); a memory-side atomic drops its
line there (R75). -/
def touchHome (s : State) (pa n : Nat) (msa : Bool) : State :=
  if pa < Config.secondBase then
    if msa then (linesOf pa n).foldl l2Drop s else l2Read s (linesOf pa n)
  else s

/-- The request performs at its home, with its answer. Poisoned data answers poisoned (R293). -/
def remotePerform (s : State) (q : RemoteReq) : Reply × State :=
  let n := remoteBytes q.op
  let poisoned := linePoisoned s q.addr n
  match q.op with
  | .load _ | .pull =>
    if poisoned then (.poison, s)
    else
      let s := settleLines s q.addr n
      (.data ((List.range n).map fun i => memByte s (q.addr + i)), touchHome s q.addr n false)
  | .store bs => (.data [], touchHome (memWrite s q.addr n (ofBytes bs)) q.addr n false)
  | .atomic op w v expect msa =>
    if poisoned then (.poison, s)
    else
      let (old, s) := atomicAt s q.addr n msa fun old => amoNew op (Sz.bytes w) old v.toNat expect.toNat
      (.data (toBytes old n), touchHome s q.addr n msa)

/-- REMOTE_REQUEST_ARRIVE. -/
def execRemoteRequestArrive (q : RemoteReq) (s : State) : Outcome State Fault Refusal :=
  if remoteAllowed s q then
    let (r, s) := remotePerform s q
    .next (sendNet s [.reply q.pkg.toNat r])
  else .next (sendNet s [.reply q.pkg.toNat .error])

end Sys2Proof.Machine
end

