-- ==== Sys2Proof/Machine/Place.lean ====
section
/-! DEFINITION. The die scheduler's placing of strands (R380 to R385, R399, R400): dispatch, the loader's work at a
placement (R352, R353, R370, R394), resuming, the end of a strand and of a launch, and the boot mailboxes.
-/

namespace Sys2Proof.Machine

open Host (Outcome)

/-! ## Slots -/

/-- The box of a slot in its partition's function (R384, R444). -/
def getBox (s : State) (part key : Nat) : Mailbox := (fget (getFn s part).boxes key).getD {}

def modBox (s : State) (part key : Nat) (f : Mailbox → Mailbox) : State :=
  modFn s part fun x => { x with boxes := fset x.boxes key (f ((fget x.boxes key).getD {})) }

/-- A mailbox's STAT changes, with its message (R384, R447). -/
def setStat (s : State) (part key : Nat) (stat : BitVec 4) (cause : Nat) : State :=
  sendMsix (modBox s part key fun b => { b with stat := stat, cause := BitVec.ofNat 32 cause }) part 0

/-- The partition runs and the package has not stopped (R427, R450, R451). -/
def mayDispatch (s : State) (part : Nat) : Bool := s.hub.rdy && !s.hub.shut && partActive s part

/-- The slot belongs to the partition's context on a cell in service. -/
def slotOf (s : State) (part : Nat) (r : SRef) : Bool :=
  let c := getCell s r.cell
  c.slots.get (Fin.ofNat 4 r.slot) == some part && !c.fenced && !c.testing

/-- The slot could take a strand of a placement set, window and mask, were it free (R385). -/
def couldTake (s : State) (part : Nat) (r : SRef) (place : List Word) (win : Nat) (emask : BitVec 5) : Bool :=
  slotOf s part r && placeHas place r.cell && ownsUnits s r.cell part emask && decide (win ≤ (getCtx s r.cell part).win)

/-- No strand is in the slot and no mailbox has it reserved (R384). -/
def slotFree (s : State) (part : Nat) (r : SRef) : Bool := (getStrand s r).isNone && !(getBox s part (SRef.key r)).go

/-- Every slot of the package. -/
def allSlotRefs : List SRef := (List.range 768).map fun k => ⟨k / 4, k % 4⟩

/-- The slots that a strand could be placed in now, ascending. -/
def freeSlots (s : State) (part : Nat) (place : List Word) (win : Nat) (emask : BitVec 5) : List SRef :=
  allSlotRefs.filter fun r => couldTake s part r place win emask && slotFree s part r

/-- The effective placement set of a region. -/
def placeOf (s : State) (part rcb : Nat) : List Word :=
  match regionOf s part rcb with | some x => x.place | none => []

/-- The effective priority of a region. -/
def prioOf (s : State) (part rcb : Nat) : Nat :=
  match regionOf s part rcb with | some x => x.prio | none => 0

/-- A strand of the launch is not yet dispatched. -/
def undispatched (l : Launch) : Bool := !l.complete && decide (l.next < Launch.total l)

/-- A strand comes into a slot, whose bank it has not written yet: registers parked there move on (R139). -/
def enterSlot (s : State) (r : SRef) (st : Strand) : State :=
  putStrand (moveAllParked (saveParked (inBank r.slot) s st) r.cell (inBank r.slot)) r
    { moveParked (inBank r.slot) st with resident := s.clock, readySince := s.clock, vWritten := 0 }

/-- What a departed strand has lost of the bank of its slot to the registers that another strand has written there: its live
registers are in the save area, the others read as zero (R135, R397). -/
def displace (slot : Nat) (written : BitVec 64) (d : Strand) : Strand :=
  if d.vHome = some slot then
    { d with vOut := d.vOut ||| (written &&& ~~~d.dead.v),
             v := Vector.ofFn fun (i : Fin 64) => if (written &&& d.dead.v).getLsbD i then 0 else d.v.get i }
  else d

/-- Vector registers go to a strand's save area. -/
def saveRegs (s : State) (d : Strand) (names : BitVec 64) : State :=
  ((List.range 64).filter names.getLsbD).foldl (fun s n => saveReg s d.area n (d.v.get (Fin.ofNat 64 n))) s

/-- A strand leaves a slot: the departed strands' registers that it has displaced there are saved (R135; log entry 83). -/
def leaveBank (s : State) (r : SRef) (st : Strand) : State :=
  let here := (s.ctxs.filter fun x => x.1 / 64 == r.cell).flatMap fun x => x.2.departed.filter fun d => d.vHome == some r.slot
  let s := here.foldl (fun s d => saveRegs s d (st.vWritten &&& ~~~d.dead.v &&& ~~~d.vOut)) s
  let move (x : Nat × Context) : Nat × Context :=
    if x.1 / 64 = r.cell then (x.1, { x.2 with departed := x.2.departed.map (displace r.slot st.vWritten) }) else x
  { s with ctxs := s.ctxs.map move }

/-- The save pool has areas left (R399). -/
def areasLeft (s : State) (part n : Nat) : Bool := decide ((getPart s part).saveUsed + n ≤ (getPart s part).saveAreas)

def takeAreas (s : State) (part n : Nat) : State := modPart s part fun p => { p with saveUsed := p.saveUsed + n }

/-- The strands of a partition, resident and departed. -/
def strandsOf (s : State) (part : Nat) : List Strand :=
  (s.strands.map (·.2) ++ s.ctxs.flatMap fun x => x.2.departed).filter fun st => st.part == part

/-- The lowest free save area of a partition's pool, 16 to a frame (R399; log entry 83). -/
def freeArea (s : State) (part : Nat) : Nat :=
  let used := (strandsOf s part).map (·.area)
  let all := (getPart s part).pool.flatMap fun f => (List.range 16).map fun k => f * Config.frameSize + k * 2 ^ 20
  (all.find? fun a => !used.contains a).getD 0

/-- A strand with the start state of R380; everything not named is zero. -/
def startStrand (part uid seq : Nat) (sid : StrandId) (emask : BitVec 5) : Strand :=
  { uid := uid, part := part, sid := sid, emask := emask, overlay := sid.entry, loading := some (true, seq) }

/-! ## Dispatch (R380, R382, R383) -/

/-- Strand `i` of a launch. -/
def launchSid (l : Launch) (i : Nat) : StrandId where
  launch := l.number
  x := BitVec.ofNat 16 (i % l.gx)
  y := BitVec.ofNat 16 (i / l.gx % l.gy)
  z := BitVec.ofNat 16 (i / l.gx / l.gy)
  gx := BitVec.ofNat 16 l.gx
  gy := BitVec.ofNat 16 l.gy
  gz := BitVec.ofNat 16 l.gz
  argb := l.argb
  rcb := l.rcb
  image := l.image
  entry := l.entry
  cores := l.cores

/-- An undispatched strand of a producer could use the slot, so that a strand of the launch may not have it (R383). -/
def producerWants (s : State) (part : Nat) (l : Launch) (r : SRef) : Bool :=
  l.prods.any fun n =>
    match launchOf s part n with
    | some q => undispatched q && couldTake s part r (placeOf s part q.rcb) q.win q.emask
    | none => false

def modLaunch (s : State) (part number : Nat) (f : Launch → Launch) : State :=
  modPart s part fun p => { p with launches := p.launches.map fun l => if l.number == number then f l else l }

/-- Places the launch's next strand. -/
def placeNext (s : State) (part number : Nat) (r : SRef) : State :=
  match launchOf s part number with
  | none => s
  | some l =>
    let (uid, s) := freshId s
    let s := modLaunch s part number fun l => { l with next := l.next + 1 }
    enterSlot (takeAreas s part 1) r
      { startStrand part uid uid (launchSid l l.next) l.emask with area := freeArea s part }

/-- The strand that launched has performed every access before its `launch` word (R342). -/
def launchQuiet (s : State) (l : Launch) : Bool :=
  match l.after with
  | none => true
  | some (uid, pos, seen) => match findUid s uid with | some st => quietBefore st seen pos | none => true

/-- STRAND_DISPATCH: the next strand of a launch goes to a slot; a co-resident gang is placed as a whole, its first strand
there and the others in the lowest free slots (R382). -/
def execStrandDispatch (part launch : Nat) (r : SRef) (s : State) : Outcome State Fault Refusal :=
  match launchOf s part launch with
  | none => .next s
  | some l =>
    let free := (freeSlots s part (placeOf s part l.rcb) l.win l.emask).filter fun q => !producerWants s part l q
    let n := if l.cores then Launch.total l else 1
    if !mayDispatch s part || !undispatched l || !free.contains r || !areasLeft s part n || free.length < n ||
        !launchQuiet s l then .next s
    else .next ((r :: (free.erase r).take (n - 1)).foldl (fun s q => placeNext s part launch q) s)

/-! ## Placement: the loader (R352, R370, R394) -/

/-- A fault of a unit that names no engine (R405). -/
def raiseUnit (s : State) (r : SRef) (t : Trap) : State :=
  match getStrand s r with
  | none => s
  | some st => raiseAt s r ⟨t, 5, (getEng st .c).pc, st.overlay.toNat, none, none, s.clock⟩

/-- Micro-words from address 0. -/
def wcsOf (l : List (BitVec 128)) : FMap (BitVec 128) := (l.zipIdx.filter fun p => p.1 != 0).map fun p => (p.2, p.1)

/-- Installs the bind records that pass, and names those that fail (R352). -/
def installBinds (m : FMap (BitVec 128)) : List (Nat × Word) → Vector Word 64 → Vector Word 64 × List Nat
  | [], t => (t, [])
  | (op, e) :: rest, t =>
    if !entVal e || bindOk m e then installBinds m rest (t.set (Fin.ofNat 64 (op - 0xC0)) (if entVal e then e else 0))
    else
      let (t, bad) := installBinds m rest t
      (t, op :: bad)

/-- Installs operator records (R370). -/
def installOprs (m : FMap (BitVec 128)) : List (Nat × Word) → Vector Word 8 → Vector Word 8 × List Nat
  | [], t => (t, [])
  | (op, e) :: rest, t =>
    if operatorOk m e then installOprs m rest (t.set (Fin.ofNat 8 (op - 8)) e)
    else
      let (t, bad) := installOprs m rest t
      (t, op :: bad)

/-- The operators of the partition's first strand on a die. An operator that fails makes a log entry (R370). -/
def loadOperators (s : State) (die part : Nat) (im : Image) : State :=
  let c := getColl s die part
  if c.loaded || !c.ops then s
  else
    let m := wcsOf (im.wcs.take 1024)
    let (t, bad) := installOprs m im.oprs c.opTab
    let s := putColl s die part { c with store := m, opTab := t, loaded := true }
    bad.foldl (fun s op => addLog s die (logEntry s (Cause.code .microIllegal) 0 part 0xFF 5 op none [])) s

/-- Some other strand of the context that is not itself loading runs, or a departed one has a suspended routine: the
image may not change (R352, R353). -/
def imageInUse (s : State) (r : SRef) (part : Nat) : Bool :=
  (s.strands.any fun (k, q) => k / 4 == r.cell && k != SRef.key r && q.part == part && q.loading.isNone) ||
    (getCtx s r.cell part).departed.any fun d => d.engs.toList.any fun e => e.micro.isSome

/-- The context takes an image: share and bind table, no overlay resident. A record that fails raises MICROILLEGAL. -/
def installImage (s : State) (r : SRef) (part : Nat) (im : Image) : State :=
  let c := getCtx s r.cell part
  let m := wcsOf im.wcs
  let (t, bad) := installBinds m im.binds (Vector.replicate 64 0)
  let s := putCtx s r.cell part
    { c with image := some im, overlays := [], wcs := m, bindTab := t, shareCopied := false }
  bad.foldl (fun s op => raiseUnit s r { cause := .microIllegal, addr := op, logged := true }) s

/-- The strand's engines start, at the entry word when it starts afresh. A mailbox strand runs (R380, R384). -/
def startEngines (s : State) (r : SRef) (fresh : Bool) (entry : Nat) : State :=
  let s := modStrand s r fun st =>
    let st := if fresh then (maskEngs st).foldl (fun st e => modEng st e fun en => { en with pc := entry }) st else st
    { st with loading := none, readySince := s.clock }
  match getStrand s r with
  | some st =>
    (match st.box with
     | some k => if (getBox s st.part k).stat = 1 then setStat s st.part k 2 0 else s
     | none => s)
  | none => s

/-- The overlay of a strand that is being placed, and then its engines. -/
def placeOverlay (s : State) (r : SRef) (st : Strand) (im : Image) (fresh : Bool) (seq : Nat) : State :=
  match im.overlays[st.overlay.toNat]? with
  | none => raiseUnit s r illegalTrap
  | some o =>
    if mustWait s r st im st.overlay.toNat seq then s
    else match loadOverlay s r.cell st.part im st.overlay.toNat with
      | .ok s => startEngines s r fresh o.entry
      | .error .stall => s
      | .error (.hold h) => startHold s h
      | .error (.trap t) => raiseUnit s r t

/-- PLACEMENT_LOAD: what the loader engine does before a placed strand starts or resumes. -/
def execPlacementLoad (s : State) : Outcome State Fault Refusal :=
  let r := Walker.ref s.cur
  match getStrand s r with
  | none => .next s
  | some st =>
    match st.loading with
    | none => .next s
    | some (fresh, seq) =>
      if st.frozen then .next s
      else
        let c := getCtx s r.cell st.part
        match c.image with
        | some im =>
          if im.addr = st.sid.image && !c.shareCopied then
            .next (placeOverlay (loadOperators s (dieOf r.cell) st.part im) r st im fresh seq)
          else if imageInUse s r st.part then .next s
          else change s r st c
        | none => change s r st c
where
  change (s : State) (r : SRef) (st : Strand) (c : Context) : Outcome State Fault Refusal :=
    match readImage imageRoom s (dieOf r.cell) st.part st.sid.image c.win with
    | .ok (some im, s) => .next (installImage s r st.part im)
    | .ok (none, s) => .next (raiseUnit s r illegalTrap)
    | .error .stall => .next s
    | .error (.hold h) => .next (startHold s h)
    | .error (.trap t) => .next (raiseUnit s r { t with addr := st.sid.image })

/-! ## Departure and return (R134, R399, R400) -/

/-- A strand leaves its slot. Its large state stays in place, but for what is dead (R134, R397); commands that have not
started are saved with it (R107). -/
def depart (s : State) (r : SRef) (st : Strand) (dead : Dead) : State :=
  let st := landAll st st.pending []
  let s := leaveBank s r st
  let st := { st with block := false, endBlock := false, preempt := none, request := none, halting := false,
                      vHome := some r.slot, vOut := st.vOut &&& ~~~dead.v, dead := dead }
  let mine := (getCell s r.cell).fifo.filter fun c => c.uid == st.uid
  let s := modCell s r.cell fun c => { c with fifo := c.fifo.filter fun x => x.uid != st.uid }
  dropStrand (modCtx s r.cell st.part fun c =>
    { c with departed := c.departed ++ [st], savedCmds := c.savedCmds ++ mine }) r

/-- The departed strands of a partition, with their cells. -/
def departedOf (s : State) (part : Nat) : List (Nat × Strand) :=
  (s.ctxs.filter fun x => x.1 % 64 == part).flatMap fun x => x.2.departed.map fun d => (x.1 / 64, d)

/-- A departed strand could be placed in the slot, were it free. -/
def couldResume (s : State) (part : Nat) (r : SRef) (d : Strand) : Bool :=
  let win := match (getCtx s r.cell part).image with
    | some im => if im.addr = d.sid.image then im.win else 0
    | none => 0
  couldTake s part r (placeOf s part d.sid.rcb) win d.emask

/-- The live registers of a departed strand that are still in a bank go to its save area. -/
def saveBank (s : State) (d : Strand) : State := saveRegs s d (~~~d.dead.v &&& ~~~d.vOut)

/-- Places of a strand's large state on another cell are given up: everything is saved (R400). -/
def saveAll (s : State) (uid : Nat) (d : Strand) : Strand × State :=
  let s := saveParked (fun _ => true) (saveBank s d) d
  let s := (List.range 32).foldl (fun s n =>
    let x := d.om.get (Fin.ofNat 32 n)
    if x.phys.isSome then saveSlot s d.area n x else s) s
  let s := (List.range 16).foldl (fun s n =>
    let x := d.acc.get (Fin.ofNat 16 n)
    if x.phys.isSome then saveTile s d.area n x else s) s
  let om (x : OmSlot) : OmSlot := { x with phys := none }
  let acc (x : AccTile) : AccTile := { x with phys := none }
  let free (h : Option Holder) : Option Holder := match h with | some x => if x.uid = uid then none else h | none => none
  let clear (x : Nat × Cell) : Nat × Cell := (x.1, { x.2 with om := x.2.om.map free, acc := x.2.acc.map free })
  ({ moveParked (fun _ => true) d with om := d.om.map om, acc := d.acc.map acc, vHome := none, vOut := ~~~d.dead.v },
   { s with cells := s.cells.map clear })

/-- A register that its departure did not keep reads as zero, or as it was if it has not been displaced: the choice is free
(R397). `inBank` says that the strand returns to the bank where its registers lie. -/
def goneReg (draw : Nat) (inBank : Bool) (dead : Dead) : Reg → Bool
  | .g n => dead.g.getLsbD n.toNat && !(Config.freeBits draw).getLsbD n.toNat
  | .sd n => dead.sd.getLsbD n.toNat && !(Config.freeBits draw).getLsbD (32 + n.toNat)
  | .mk n => dead.masks.getLsbD n && !(Config.freeBits draw).getLsbD (48 + n)
  | .v n => dead.v.getLsbD n.toNat && !(inBank && (Config.freeBits draw).getLsbD (128 + n.toNat))
  | _ => false

/-- The same of a pattern context. -/
def gonePat (draw : Nat) (dead : Dead) (n : Nat) : Bool := dead.pat.getLsbD n && !(Config.freeBits draw).getLsbD (64 + n)

/-- A strand as it resumes, without what its departure at a lull point did not keep (R397). -/
def reviveDead (draw : Nat) (inBank : Bool) (d : Strand) : Strand :=
  let gone := goneReg draw inBank d.dead
  { d with
    g := Vector.ofFn fun (i : Fin 32) => if gone (.g (BitVec.ofFin i)) then 0 else d.g.get i
    sd := Vector.ofFn fun (i : Fin 16) => if gone (.sd (BitVec.ofFin i)) then 0 else d.sd.get i
    saved := Vector.ofFn fun (i : Fin 6) => if gone (.mk i) then 0 else d.saved.get i
    v := Vector.ofFn fun (i : Fin 64) => if gone (.v (BitVec.ofFin i)) then 0 else d.v.get i
    pat := Vector.ofFn fun (i : Fin 16) => if gonePat draw d.dead i then 0 else d.pat.get i
    poisoned := d.poisoned.filter fun r => !gone r
    fresh := d.fresh.filter fun r => !gone r
    dead := {} }

/-- The saved commands of a departed strand. -/
def savedOf (s : State) (cell : Nat) (d : Strand) : List CopyCmd :=
  (getCtx s cell d.part).savedCmds.filter fun c => c.uid == d.uid

/-- A departed strand comes back to a slot, on the cell it left or on another. Its saved commands enter the FIFO behind those
of other strands (R107; log entry 83). -/
def resumeOne (s : State) (from_ : Nat) (d : Strand) (r : SRef) : State :=
  let (d, s) := if from_ = r.cell then (d, s) else saveAll s d.uid d
  let home := decide (d.vHome = some r.slot)
  let s := if home then s else saveBank s d
  let (seq, s) := freshId s
  let old := getCtx s from_ d.part
  let cmds := savedOf s from_ d
  let s := putCtx s from_ d.part { old with departed := old.departed.filter (fun x => x.uid != d.uid),
                                            savedCmds := old.savedCmds.filter fun c => c.uid != d.uid }
  let s := modCell s r.cell fun c => { c with fifo := c.fifo ++ cmds }
  let fresh := match d.loading with | some (b, _) => b | none => false
  let awake (en : EngState) : EngState := if en.stop = .atLull then { en with stop := .no } else en
  let out := if home then d.vOut else ~~~d.dead.v
  enterSlot { s with freeCount := s.freeCount + 1 } r
    { reviveDead s.freeCount home d with engs := d.engs.map awake, vOut := out, vHome := none, loading := some (fresh, seq) }

/-- Started copies and outstanding collective commands of a strand keep it on its cell (R107, R315). -/
def staysOn (s : State) (cell : Nat) (d : Strand) : Bool :=
  !(chansOf s cell d.uid).isEmpty || d.results.any fun p => p.rec?.isNone

/-- An undispatched strand of a producer of the strand's launch could use the slot (R383). -/
def producerFirst (s : State) (part : Nat) (r : SRef) (d : Strand) : Bool :=
  match launchOf s part d.sid.launch with | some l => producerWants s part l r | none => false

/-- Whether a departed strand may take the slot now. -/
def mayResume (s : State) (part : Nat) (r : SRef) (x : Nat × Strand) : Bool :=
  couldResume s part r x.2 && slotFree s part r && (x.1 == r.cell || !staysOn s x.1 x.2) && !producerFirst s part r x.2

/-- Slots for the other strands of a gang, each with its strand, ascending. -/
def gangSlots (s : State) (part : Nat) : List (Nat × Strand) → List SRef → Option (List (Nat × Strand × SRef))
  | [], _ => some []
  | x :: rest, free =>
    match free.find? (fun q => mayResume s part q x) with
    | none => none
    | some q => (gangSlots s part rest (free.erase q)).map fun l => (x.1, x.2, q) :: l

/-- The saved commands of strands that resume together fit into the FIFOs of their cells (R85, R107). -/
def fifoRoom (s : State) (l : List (Nat × Strand × SRef)) : Bool :=
  l.all fun x =>
    let here := l.filter fun y => y.2.2.cell == x.2.2.cell
    decide ((getCell s x.2.2.cell).fifo.length + (here.map fun y => (savedOf s y.1 y.2.1).length).sum ≤ 16)

def resumeAll (s : State) (l : List (Nat × Strand × SRef)) : State :=
  if fifoRoom s l then l.foldl (fun s y => resumeOne s y.1 y.2.1 y.2.2) s else s

/-- STRAND_RESUME: departed strand `k` of the slot's partition resumes there. The strands of a gang resume together, and
none while another of them is still resident (R382). -/
def execStrandResume (r : SRef) (k : Nat) (s : State) : Outcome State Fault Refusal :=
  match (getCell s r.cell).slots.get (Fin.ofNat 4 r.slot) with
  | none => .next s
  | some part =>
    match (departedOf s part)[k]? with
    | none => .next s
    | some x =>
      if !mayDispatch s part || !mayResume s part r x then .next s
      else if !x.2.sid.cores then .next (resumeAll s [(x.1, x.2, r)])
      else if !(gangOf s part x.2.sid.launch).isEmpty then .next s
      else
        let others := (departedOf s part).filter fun y => y.2.sid.launch == x.2.sid.launch && y.2.uid != x.2.uid
        match gangSlots s part others (allSlotRefs.erase r) with
        | none => .next s
        | some l => .next (resumeAll s ((x.1, x.2, r) :: l))

/-! ## The end of a strand (R333, R411, R412) -/

/-- Every physical slot and tile of a strand becomes free (R227, R411). -/
def releaseHeld (s : State) (uid : Nat) : State :=
  let free (h : Option Holder) : Option Holder := match h with | some x => if x.uid = uid then none else h | none => none
  let clear (x : Nat × Cell) : Nat × Cell := (x.1, { x.2 with om := x.2.om.map free, acc := x.2.acc.map free })
  { s with cells := s.cells.map clear }

/-- The strand leaves the machine, resident or departed. -/
def dropUid (s : State) (uid : Nat) : State :=
  let s := match strandByUid s uid with | some (r, st) => leaveBank s r st | none => s
  let clear (x : Nat × Context) : Nat × Context :=
    (x.1, { x.2 with departed := x.2.departed.filter (fun d => d.uid != uid),
                     savedCmds := x.2.savedCmds.filter fun c => c.uid != uid })
  { s with strands := s.strands.filter (fun p => p.2.uid != uid), ctxs := s.ctxs.map clear }

/-- The strand counts as ended in its launch, its save area is freed and its resources are released. -/
def retire (s : State) (st : Strand) (failed : Bool) : State :=
  let s := markTriggered s st
  let s := if st.sid.launch = 0 then s else
    modLaunch s st.part st.sid.launch fun l => { l with ended := l.ended + 1, failed := l.failed || failed }
  let s := modPart s st.part fun p => { p with saveUsed := p.saveUsed - 1 }
  dropUid (releaseHeld s st.uid) st.uid

/-- Copies of a strand that are queued or under way on its cell. -/
def copiesLeft (s : State) (cell uid : Nat) : Bool :=
  !(chansOf s cell uid).isEmpty || (getCell s cell).fifo.any fun c => c.uid == uid

/-- STRAND_END: every engine has stopped at `exit`; the checks of R113 apply, and the started copies complete (R412). -/
def execStrandEnd (s : State) : Outcome State Fault Refusal :=
  let r := Walker.ref s.cur
  match getStrand s r with
  | none => .next s
  | some st =>
    if st.frozen || st.loading.isSome || !allStopped st .atExit || st.accs.any (fun a => !isFence a.kind) ||
        !st.stores.isEmpty then .next s
    else if !drainedFor st (maskEngs st) then .next (raiseDrain s r st)
    else if copiesLeft s r.cell st.uid then .next s
    else
      let s := countRegion s (dieOf r.cell) st.part st.sid.rcb 1 1
      let s := countRegion s (dieOf r.cell) st.part st.sid.rcb 2 st.scc.toNat
      let s := retire s st false
      .next (match st.box with
        | some k => setStat s st.part k 4 0
        | none => s)

/-! ## The end of a launch (R381) -/

/-- Every earlier launch of the region is complete. -/
def earlierComplete (p : Partition) (l : Launch) : Bool :=
  (p.launches.takeWhile fun q => q.number != l.number).all fun q => q.rcb != l.rcb || q.complete

/-- The completion flag as a release store at domain scope: every access of the launch's strands has performed. -/
def storeCflag (s : State) (part : Nat) (l : Launch) : Act State :=
  if l.cflag = 0 then .ok s
  else writeVirt s l.die none part .unitWrite l.cflag (toBytes (l.number + 2 ^ 32 * boolNat l.failed) 8)

/-- Counter updates of a partition that have not performed (R377). -/
def addsLeft (s : State) (part : Nat) : Bool := s.hub.adds.any fun c => c.part == part

/-- LAUNCH_COMPLETE: the energy of the launch's region and of those above it is counted and every update has performed before
the flag is written. A flag store that fails is logged with the flag's address. -/
def execLaunchComplete (part launch : Nat) (s : State) : Outcome State Fault Refusal :=
  match launchOf s part launch with
  | none => .next s
  | some l =>
    if l.complete || l.ended < Launch.total l || !earlierComplete (getPart s part) l || !partActive s part ||
        addsLeft s part then .next s
    else
      let s := flushChain s l.die part l.rcb
      let done (s : State) : State := modLaunch s part launch fun l => { l with complete := true }
      if addsLeft s part then .next s
      else match storeCflag s part l with
        | .ok s => .next (done s)
        | .error .stall => .next s
        | .error (.hold h) => .next (startHold s h)
        | .error (.trap t) => .next (done (dropAnswers (logTrap s l.die part { t with addr := l.cflag }) part t.addr))

/-! ## Boot mailboxes (R384) -/

/-- The image that a mailbox names: its address and what its handle's region holds from there on, by the check of `cpyh`
(R101), or the cause. -/
def boxImage (s : State) (part : Nat) (b : Mailbox) : Except Cause (Nat × Nat) :=
  let handle := wbits b.word0 63 32
  let off := wbits b.word0 31 0
  let h := getHandle s part (handle / 2 ^ 20)
  if !h.val || handle % 2 ^ 20 = 0 || h.gen.toNat ≠ handle % 2 ^ 20 then .error .staleHandle
  else if !(h.r && h.x) || h.len.toNat < off then .error .permission
  else .ok (h.base.toNat + off, h.len.toNat - off)

/-- A mailbox start is refused. -/
def refuseBox (s : State) (part key : Nat) (c : Cause) : State := setStat s part key 3 (Cause.code c)

/-- A mailbox start that a fault ends; the fault is logged where its cause is (R84). -/
def failBox (s : State) (r : SRef) (part : Nat) (t : Trap) : State :=
  let s := if trapLogged t then logTrap s (dieOf r.cell) part t else s
  refuseBox (dropAnswers s part t.addr) part (SRef.key r) t.cause

/-- The record of a mailbox strand: a gang of one in the root region. -/
def boxSid (part : Nat) (b : Mailbox) (image : Nat) : StrandId :=
  ⟨0, 0, 0, 0, 1, 1, 1, b.argb, Config.rootRcb part, image, b.entry, false⟩

/-- The mailbox goes on waiting for its start. -/
def keepGo (s : State) (part key : Nat) : State := modBox s part key fun b => { b with go := true }

/-- The checks of the image of a mailbox, and the strand's placement. -/
def startBox (s : State) (part : Nat) (r : SRef) (b : Mailbox) : State :=
  let key := SRef.key r
  match boxImage s part b with
  | .error c => failBox s r part { cause := c, addr := b.word0.toNat }
  | .ok (addr, lim) =>
    match readImage lim s (dieOf r.cell) part addr (getCtx s r.cell part).win with
    | .error (.trap t) => failBox s r part t
    | .error (.hold h) => keepGo (startHold s h) part key
    | .error .stall => keepGo s part key
    | .ok (none, s) => refuseBox s part key .illegal
    | .ok (some im, s) =>
      if im.overlays.length ≤ b.entry.toNat || !ownsUnits s r.cell part im.emask then refuseBox s part key .illegal
      else match admitRegion s (dieOf r.cell) part (Config.rootRcb part) with
        | .ok (.ok, s) =>
          let (uid, s) := freshId s
          enterSlot (takeAreas s part 1) r
            { startStrand part uid uid (boxSid part b addr) im.emask with box := some key, area := freeArea s part }
        | .ok (_, s) => keepGo s part key
        | .error (.hold h) => keepGo (startHold s h) part key
        | .error _ => keepGo s part key

/-- Sends a request to a strand, and to every strand of a co-resident gang (R382). -/
def requestStop (s : State) (st : Strand) : State :=
  let ask (q : Strand) : Strand :=
    if q.request.isNone && q.preempt.isNone && (q.uid == st.uid ||
        (st.sid.cores && q.part == st.part && q.sid.launch == st.sid.launch)) then { q with request := some s.clock }
    else q
  { s with strands := s.strands.map fun (k, q) => (k, ask q) }

/-- MAILBOX_GO: the strand in the slot is asked to leave; when the slot is free, the mailbox starts its strand. -/
def execMailboxGo (part : Nat) (r : SRef) (s : State) : Outcome State Fault Refusal :=
  let b := getBox s part (SRef.key r)
  if !b.go || !slotOf s part r || !mayDispatch s part then .next s
  else match getStrand s r with
    | some st => .next (if st.request.isNone && st.preempt.isNone then requestStop s st else s)
    | none =>
      if !areasLeft s part 1 then .next s
      else
        let s := modBox s part (SRef.key r) fun b => { b with go := false }
        let s := if b.stat = 1 then s else setStat s part (SRef.key r) 1 0
        .next (startBox s part r b)

end Sys2Proof.Machine
end

