-- ==== Sys2Proof/Machine/Preempt.lean ====
section
/-! DEFINITION. Sharing and taking away a slot: blocks (R386), slices and pre-emption requests (R390, R396), stops at lull
points and forced saves (R396 to R398), and the accounting periods (R375, R439).
-/

namespace Sys2Proof.Machine

open Host (Outcome)

/-! ## Blocks (R386) -/

/-- A strand is ready: placed, neither frozen nor halted for a forced save nor paused, its C not held by a `wait`. -/
def readyStrand (s : State) (st : Strand) : Bool :=
  st.loading.isNone && !st.frozen && !st.halting && !st.waitHeld && !regionPaused s st

/-- The resident strands of a context. -/
def residents (s : State) (cell part : Nat) : List (SRef × Strand) :=
  s.strands.filterMap fun (k, st) => if k / 4 == cell && st.part == part then some (⟨k / 4, k % 4⟩, st) else none

/-- The priority of a strand for its next block: 15 after it has waited 1 ms. -/
def blockPrio (s : State) (st : Strand) : Nat :=
  if st.readySince + 4000000 ≤ s.clock then 15 else prioOf s st.part st.sid.rcb

/-- The strand that the sequencer gives the block to. -/
def nextHolder (s : State) (l : List (SRef × Strand)) : Option (SRef × Strand) :=
  firstBy (fun a b => decide (blockPrio s b.2 < blockPrio s a.2) ||
    (blockPrio s a.2 == blockPrio s b.2 && decide (a.2.readySince < b.2.readySince)))
    (l.filter fun x => !x.2.block && readyStrand s x.2)

/-- The outgoing strand stops at an instruction boundary, and its results land (R34). -/
def leaveBlock (s : State) (st : Strand) : Strand :=
  let st := landAll st st.pending []
  perfAdd { st with block := false, endBlock := false, readySince := s.clock } 0x03 1

def giveBlock (s : State) (r : SRef) : State :=
  modStrand s r fun st => { st with block := true, endBlock := false, blockSince := s.clock, readySince := s.clock }

/-- BLOCK_SWITCH: the block of the context of the current walker's strand passes on, when it has ended or nobody holds
it. With no other ready strand the holder keeps it. -/
def execBlockSwitch (s : State) : Outcome State Fault Refusal :=
  match getStrand s (Walker.ref s.cur) with
  | none => .next s
  | some me =>
    let l := residents s s.cur.cell me.part
    match l.find? (fun x => x.2.block), nextHolder s l with
    | none, some x => .next (giveBlock s x.1)
    | none, none => .next s
    | some h, some x =>
      if h.2.endBlock || h.2.frozen || h.2.halting then .next (giveBlock (putStrand s h.1 (leaveBlock s h.2)) x.1) else .next s
    | some h, none => if h.2.endBlock then .next (putStrand s h.1 { h.2 with endBlock := false }) else .next s

/-- BLOCK_TIME_EXPIRY: the strand has held the block for 50 µs and another strand of the context is ready. -/
def execBlockTimeExpiry (s : State) : Outcome State Fault Refusal :=
  .next (modStrand s (Walker.ref s.cur) fun st =>
    if st.block && decide (st.blockSince + 200000 ≤ s.clock) && (nextHolder s (residents s s.cur.cell st.part)).isSome then
      { st with endBlock := true }
    else st)

/-! ## Requests (R390) -/

/-- The priorities of the strands of a partition that wait for a slot. -/
def waiters (s : State) (part : Nat) (r : SRef) : List Nat :=
  ((getPart s part).launches.filter fun l =>
      undispatched l && couldTake s part r (placeOf s part l.rcb) l.win l.emask && !producerWants s part l r).map
    (fun l => prioOf s part l.rcb) ++
  ((departedOf s part).filter fun x => !(x.2.frozen && x.2.delivered.isSome) && couldResume s part r x.2).map fun x =>
    prioOf s part x.2.sid.rcb

/-- SLICE_EXPIRY: the strand has been resident for its slice, and one of equal or higher priority waits for its slot. -/
def execSliceExpiry (s : State) : Outcome State Fault Refusal :=
  let r := Walker.ref s.cur
  match getStrand s r with
  | none => .next s
  | some st =>
    match regionOf s st.part st.sid.rcb with
    | none => .next s
    | some g =>
      if g.slice ≠ 0 && decide (st.resident + 4000 * g.slice ≤ s.clock) &&
          (waiters s st.part r).any (fun p => decide (g.prio ≤ p)) then .next (requestStop s st)
      else .next s

/-- The other grounds for a request: a paused region with a waiter, a mailbox, a partition being torn down, a cell under test
(R390, R419). -/
def stopWanted (s : State) (r : SRef) (st : Strand) : Bool :=
  (regionPaused s st && !(waiters s st.part r).isEmpty) || (getBox s st.part (SRef.key r)).go ||
    (getPart s st.part).st == .tearing || (getCell s r.cell).testing

/-! ## The request reaches C (R396, R328) -/

/-- The words that an engine had passed when it entered the kernel it runs. -/
def kernelStart (en : EngState) (p : Ploop) : Nat := en.passed - p.pass * p.len - (en.pc - p.first)

/-- Iterations that an engine's kernel has started, the pass it runs included. -/
def startedIters (en : EngState) (p : Ploop) : Nat := p.started + boolNat (en.sg.getLsbD 0)

/-- An engine against the kernel that C runs: in it with its state, ahead of it, or still to reach it. -/
inductive KernelPlace where
  | inside (p : Ploop)
  | ahead
  | behind
deriving DecidableEq, Repr

def kernelPlace (c : EngState) (pc : Ploop) (en : EngState) : KernelPlace :=
  match en.ploop with
  | some p => if kernelStart en p = kernelStart c pc then .inside p
    else if kernelStart c pc < kernelStart en p then .ahead else .behind
  | none => if c.passed ≤ en.passed then .ahead else .behind

/-- The clamp of a kernel that C runs: an engine inside takes it at its next pass end, one that is still to enter the
kernel finds the record in its BQ. C stalls while such a BQ holds 64 (R111, R318). -/
def clampKernel (st : Strand) (c : EngState) (pc : Ploop) : Act Strand :=
  let places := (maskEngs st).map fun e => (e, kernelPlace c pc (getEng st e))
  let reach (x : Eng × KernelPlace) : Nat :=
    match x.2 with | .inside p => startedIters (getEng st x.1) p | .ahead => pc.n | .behind => 0
  let lim := min pc.lim ((places.map reach).foldl max 0)
  let set (st : Strand) (x : Eng × KernelPlace) : Act Strand :=
    match x.2 with
    | .inside p => .ok (modEng st x.1 fun en => { en with ploop := some { p with lim := min p.lim lim } })
    | .ahead => .ok st
    | .behind => do
      await (decide ((getEng st x.1).bq.length < 64))
      .ok (modEng st x.1 fun en => { en with bq := en.bq ++ [.clamp lim] })
  if lim < pc.lim then places.foldlM set st else .ok st

/-- C starts the stop: the stop word is the first lull point that no engine has passed. -/
def startStop (s : State) (r : SRef) (st : Strand) (since : Nat) : Act Strand :=
  let from_ := ((maskEngs st).map fun e => (getEng st e).passed).foldl max 0
  let st := { st with preempt := some ⟨since, from_⟩ }
  let c := getEng st .c
  match c.ploop with
  | some p => if (lullAt (getCtx s r.cell st.part) st (p.first + p.len)).isSome then clampKernel st c p else .ok st
  | none => .ok st

/-- PREEMPTION_REQUEST. -/
def execPreemptionRequest (s : State) : Outcome State Fault Refusal :=
  let r := Walker.ref s.cur
  match getStrand s r with
  | none => .next s
  | some st =>
    if st.preempt.isSome then .next s
    else match st.request with
      | some t => .next (match startStop s r st t with | .ok st => putStrand s r st | .error _ => s)
      | none => if stopWanted s r st then .next (requestStop s st) else .next s

/-! ## Stops (R396 to R398) -/

/-- What a lull entry does not mark live (R395). -/
def deadOf (l : Lull) : Dead := { g := ~~~l.lg, sd := ~~~l.lsd, masks := ~~~l.lmk, pat := ~~~l.lpat, v := ~~~l.lv }

/-- The slots and tiles that are not live are released (R397). -/
def dropTiles (s : State) (cell : Nat) (l : Lull) (st : Strand) : Strand × State :=
  let oms := (List.range 32).filter fun n => !l.lom.getLsbD n && (getOm st (BitVec.ofNat 5 n)).state != .notHeld
  let accs := (List.range 16).filter fun n => !l.lacc.getLsbD n && (getAcc st (BitVec.ofNat 4 n)).held
  let x := oms.foldl (fun (x : Strand × State) n => freeOm x.2 cell x.1 (BitVec.ofNat 5 n)) (st, s)
  accs.foldl (fun (x : Strand × State) n => freeAcc x.2 cell x.1 (BitVec.ofNat 4 n)) x

/-- Every engine has stopped at the lull point with its earlier words complete. -/
def atLull (st : Strand) : Bool :=
  st.preempt.isSome && !st.frozen && !st.halting && allStopped st .atLull && (maskEngs st).all (engDone st) && st.lean.isNone

/-- LULL_STOP: the strand has stopped; its state is saved lazily (R134, R396, R397). -/
def execLullStop (s : State) : Outcome State Fault Refusal :=
  let r := Walker.ref s.cur
  match getStrand s r with
  | none => .next s
  | some st =>
    if !atLull st then .next s
    else match lullAt (getCtx s r.cell st.part) st (getEng st .c).pc with
      | none => .next s
      | some l =>
        let s := countRegion s (dieOf r.cell) st.part st.sid.rcb 3 1
        let (st, s) := dropTiles s r.cell l (perfAdd st 0x04 1)
        .next (depart s r st (deadOf l))

/-- A result that lands only after the strand has resumed: that of a bound word of S before its data stage, or of a call that
waits on a fault. -/
def landsLater (st : Strand) (p : Pending) : Bool :=
  p.eng == .s || (p.eng == .c && st.calls.any fun c => c.pos == p.pos && c.failed)

/-- Every result that has been issued has landed, and nothing of the strand stands in the middle of a word: no predicate runs,
no fill, no call and no access that may perform is left, and a drain waits for room in SQ (R34, R212, R398). -/
def savable (s : State) (st : Strand) : Bool :=
  st.pred.isNone && st.fills.isEmpty && (st.drain.isNone || decide (8 ≤ st.sq.length)) &&
    (st.pending.all fun p => p.val.isSome || landsLater st p) && (st.calls.all fun c => c.failed) &&
    !(st.accs.any fun a => mayPerform st a || s.hub.remotes.any fun q => q.id == a.id)

/-- FORCED_SAVE: the deadline has passed, or the strand is frozen: the engines stop, what has been issued ends, and then all
state is kept (R398, R403). -/
def execForcedSave (s : State) : Outcome State Fault Refusal :=
  let r := Walker.ref s.cur
  match getStrand s r with
  | none => .next s
  | some st =>
    match st.preempt with
    | none => .next s
    | some p =>
      if !st.frozen && decide (s.clock < p.since + lullCycles s st) then .next s
      else
        let st := if st.halting then st else releaseSeen { st with halting := true }
        if savable s st then
          let s := countRegion s (dieOf r.cell) st.part st.sid.rcb 4 1
          .next (depart s r (perfAdd st 0x05 1) {})
        else .next (putStrand s r st)

/-! ## Periods of 1 ms (R375, R439) -/

def periodCycles : Nat := 4000000

/-- A balance stops its region (R439). -/
def exhausted (ebud : Nat) (balance : Int) : Bool := ebud != unlimited && decide (balance ≤ 0)

/-- A cached region with the values of its reread blocks: those that take effect from the period that has begun, EBUD with the
charges made in it so far (R375, R439). -/
def rereadEntry (old new : Region) : Region :=
  let b := old.balance + ((new.ebud * energyUnit : Nat) - (old.ebud * energyUnit : Nat) : Int)
  { old with block := new.block, prio := new.prio, slice := new.slice, ebud := new.ebud, place := new.place,
             fdh := new.fdh, fhnd := new.fhnd, lulldl := new.lulldl, cntr := new.cntr, balance := b,
             paused := exhausted new.ebud b }

/-- A block as it now stands in memory, with what was validated of it (R375); `none` where the reread fails R374. -/
def rereadBlock (die part : Nat) (r : Region) (s : State) : Act (Option Block × State) := do
  let (b, s) ← readBlock s die part r.addr
  .ok (b.bind fun w => if blkOk part (r.addr == Config.rootRcb part) w then some (keepFixed r.block w) else none, s)

/-- The blocks of a chain as they now stand, or none when one of them fails. -/
def rereadChain (die part : Nat) : List Region → State → Act (Option (List Block) × State)
  | [], s => .ok (some [], s)
  | r :: rest, s => do
    let (b, s) ← rereadBlock die part r s
    let (l, s) ← rereadChain die part rest s
    .ok (b.bind fun x => l.map fun l => x :: l, s)

/-- Rereads one region and its ancestors. A reread that fails keeps the values and is logged. -/
def rereadOne (die : Nat) (s : State) (r : Region) : Act State := do
  let (c, s) ← rereadChain die r.part (regionChain (getDie s die).regions r.part 8 r.addr) s
  match c with
  | some chain =>
    let new := regionEntry r.part r.addr chain
    .ok (modDie s die fun d => { d with regions := d.regions.map fun q =>
      if q.addr == r.addr && q.part == r.part then rereadEntry q new else q })
  | none => .ok (addLog s die (logEntry s 0x40 0 r.part 0xFF 5 r.addr none [BitVec.ofNat 64 r.addr]))

/-- REGION_REREAD: once in each period a die's scheduler rereads the regions that it caches. -/
def execRegionReread (die : Nat) (s : State) : Outcome State Fault Refusal :=
  let d := die % 4
  if s.hub.period ≤ (getDie s d).reread then .next s
  else match (getDie s d).regions.foldlM (rereadOne d) s with
    | .ok s' => .next (modDie s' d fun x => { x with reread := s.hub.period })
    | .error (.hold h) => .next (startHold s h)
    | .error _ => .next s

/-- ENERGY_PERIOD_START: each balance is set to EBUD less the debt carried over, regions whose balances are positive go on,
and counter 6 takes the charges of the period before (R377, R439). -/
def execEnergyPeriodStart (s : State) : Outcome State Fault Refusal :=
  if (s.hub.period + 1) * periodCycles ≤ s.clock then
    let s := (List.range 4).foldl (fun s d => (getDie s d).regions.foldl (fun s r => flushEnergy s d r) s) s
    let set (r : Region) : Region :=
      let b : Int := (r.ebud * energyUnit : Nat) + min 0 r.balance
      { r with balance := b, paused := exhausted r.ebud b }
    let s := { s with dies := s.dies.map fun d =>
      { d with regions := d.regions.map set, lastEnergy := d.energy, energy := 0 } }
    .next (modHub s fun h => { h with period := h.period + 1 })
  else .next s

end Sys2Proof.Machine
end

