-- ==== Sys2Proof/Machine/Faults.lean ====
section
/-! DEFINITION. Faults after they are raised (R403 to R412): delivery to the handler or the host and the three actions; and
the detectors and logs of R413 to R419: watchdog, patrol scrub, log drain and the test of a cell.
-/

namespace Sys2Proof.Machine

open Host (Outcome)

/-! ## Delivery (R409, R410) -/

/-- The strand as its oldest queued fault is delivered to a place (R404, R405). -/
def deliverFault (st : Strand) (q : QFault) (place : FaultPlace) : Strand :=
  { st with faults := st.faults.drop 1, delivered := some ⟨q, place⟩, fltCause := fltCauseOf q (1 < st.faults.length),
            fltAddr := BitVec.ofNat 64 q.trap.addr, fltPc := fltPcOf q }

/-- The function's fault window has a free entry. -/
def windowOpen (f : Fn) : Bool := decide ((f.faultHead - f.faultTail).toNat < 64)

/-- The record goes to the fault window of the partition's function; while it is full the fault waits. -/
def deliverHost (s : State) (r : SRef) (st : Strand) (q : QFault) : State :=
  let f := getFn s st.part
  if !windowOpen f then s
  else
    let k := Fin.ofNat 64 f.faultHead.toNat
    let rec_ := faultRecord s r st q (1 < st.faults.length)
    let s := modFn s st.part fun f => { f with window := f.window.set k rec_, faultHead := f.faultHead + 1 }
    putStrand (sendMsix s st.part 1) r (deliverFault st q (.window k))

/-- The lowest free entry of a fault area. -/
def freeEntry (p : Partition) (area : Nat) : Option Nat :=
  let used := (p.faultAreas.lookup area).getD []
  (List.range 64).find? fun i => !used.contains i

def takeEntry (s : State) (part area i : Nat) : State :=
  modPart s part fun p => { p with faultAreas := fset p.faultAreas area (i :: (p.faultAreas.lookup area).getD []) }

def freeEntryAt (s : State) (part addr : Nat) : State :=
  let drop (x : Nat × List Nat) : Nat × List Nat :=
    if x.1 ≤ addr && addr < x.1 + 4096 then (x.1, x.2.filter fun i => i != (addr - x.1) / 64) else x
  modPart s part fun p => { p with faultAreas := p.faultAreas.map drop }

/-- The handler's record as the scheduler launches it: a gang of one in the faulting region, with the entry as its
argument. -/
def handlerRecord (w : List Word) (rcb entry : Nat) : List Word :=
  let ext := BitVec.ofNat 64 (wbits (blk w 3) 15 0 + 0x0001000100010000)
  ((w.set 0 (BitVec.ofNat 64 rcb)).set 2 (BitVec.ofNat 64 entry)).set 3 ext

/-- What a delivery to a handler comes to: delivered, waiting, or to be treated as FDH 0. -/
inductive HandlerTry where
  | done (s : State)
  | wait (s : State)
  | host (s : State)
deriving DecidableEq, Repr

/-- The scheduler's own failed access in a fault's delivery, logged where its cause is (R84). -/
def failUnit (s : State) (die part : Nat) (t : Trap) : State :=
  dropAnswers (if trapLogged t then logTrap s die part t else s) part t.addr

/-- Reads FHND, writes the record to the lowest free entry of its area and launches the handler. A handler that cannot be read
or whose area cannot be written is as one that is refused (log entry 31). -/
def deliverHandler (s : State) (r : SRef) (st : Strand) (q : QFault) (fhnd : Nat) : HandlerTry :=
  let die := dieOf r.cell
  let act : Act (Option State) := do
    let (w, s1) ← readWords s die none st.part .unitRead fhnd 8
    match launchRecOf w with
    | none => .ok none
    | some l =>
      match freeEntry (getPart s1 st.part) l.argb with
      | none => stall
      | some i => do
        let va := l.argb + 64 * i
        let (x, s1) ← translate s1 die none st.part .unitWrite (BitVec.ofNat 64 va)
        let bs := dwordsToBytes (faultRecord s1 r st q (1 < st.faults.length))
        let s1 ← writeVirt s1 die none st.part .unitWrite va bs
        let (ans, s1) ← acceptLaunch s1 die st.part (handlerRecord w st.sid.rcb va) (some st.uid) none
        match ans with
        | .code _ => .ok none
        | .number n =>
          let place : FaultPlace := .area (homeOfPte x.leaf.pte) va x.pa n
          .ok (some (putStrand (takeEntry s1 st.part l.argb i) r (deliverFault st q place)))
  match act with
  | .ok (some s') => .done s'
  | .ok none => .host s
  | .error .stall => .wait s
  | .error (.hold h) => .wait (startHold s h)
  | .error (.trap t) => .host (failUnit s die st.part t)

/-- The strand belongs to a handler launch. -/
def isHandler (s : State) (st : Strand) : Bool :=
  match launchOf s st.part st.sid.launch with
  | some l => l.handlerOf.isSome
  | none => false

/-- FAULT_DELIVER: the oldest fault of a frozen strand, when none before it is unresolved and no predicate runs (R212). A
handler that fails is logged once, when the host's window takes the fault in its place. -/
def execFaultDeliver (s : State) : Outcome State Fault Refusal :=
  let r := Walker.ref s.cur
  match getStrand s r with
  | none => .next s
  | some st =>
    match st.faults, st.delivered, st.pred with
    | q :: _, none, none =>
      (match regionOf s st.part st.sid.rcb with
       | some g =>
         if g.fdh && !isHandler s st then
           match deliverHandler s r st q g.fhnd with
           | .done s' => .next s'
           | .wait s' => .next s'
           | .host s' => .next (if windowOpen (getFn s st.part) then deliverHost s' r st q else s)
         else .next (deliverHost s r st q)
       | none => .next (deliverHost s r st q))
    | _, _, _ => .next s

/-! ## Actions (R411, R412) -/

/-- The cell of a strand, resident or departed. -/
def cellOfUid (s : State) (uid : Nat) : Nat :=
  match strandByUid s uid with
  | some (r, _) => r.cell
  | none =>
    match s.ctxs.find? (fun x => x.2.departed.any fun d => d.uid == uid) with
    | some x => x.1 / 64
    | none => 0

/-- Stores that have been issued perform. -/
def flushStores (s : State) (uid : Nat) : State :=
  match strandByUid s uid with
  | none => s
  | some (r, st) =>
    st.accs.foldl (fun s a =>
      if a.kind = .store && homeLocal a.home then
        match getStrand s r with
        | some q => performStore s r q a .pass
        | none => s
      else s) s

/-- Commands saved at the departure are dropped, with their pins (R411). -/
def dropSaved (s : State) (cell part uid : Nat) : State :=
  let mine := (getCtx s cell part).savedCmds.filter fun c => c.uid == uid
  let s := mine.foldl (fun s cmd =>
    match cmd.op with
    | .copy dst src .. => dropPin (dropPin s part dst.slot) part src.slot
    | _ => s) s
  modCtx s cell part fun c => { c with savedCmds := c.savedCmds.filter fun c => c.uid != uid }

/-- The strand's work outside its slot is given up: issued stores perform, copies end, resources are released. -/
def giveUp (s : State) (uid part : Nat) : State :=
  let cell := cellOfUid s uid
  releaseHeld (dropSaved (abandonCopies (dropReads (flushStores s uid) part) cell uid) cell part uid) uid

/-- Terminate: the strand ends with a cause (R411). -/
def terminateUid (s : State) (uid cause : Nat) : State :=
  match findUid s uid with
  | none => s
  | some st =>
    let cell := cellOfUid s uid
    let s := giveUp s uid st.part
    let s := countRegion s (dieOf cell) st.part st.sid.rcb 5 1
    let s := retire s st true
    match st.box with
    | some k => setStat s st.part k 5 cause
    | none => s

/-- Restart: the state of R380 again, with the same STRANDID, in the same slot (R411). -/
def restartUid (s : State) (uid : Nat) : State :=
  match findUid s uid with
  | none => s
  | some st =>
    let s := giveUp s uid st.part
    let (new, s) := freshId s
    let ask := match st.preempt with | some p => some p.since | none => st.request
    modByUid s uid fun st =>
      { startStrand st.part new new st.sid st.emask with
        triggered := st.triggered, box := st.box, request := ask, resident := st.resident, readySince := s.clock,
        area := st.area, vWritten := st.vWritten }

/-- Resume: the fault is resolved; the next queued one is delivered before any engine issues. A faulting channel goes on,
and a call that met the fault (R105, R404). -/
def resumeUid (s : State) (uid : Nat) (q : QFault) : State :=
  let cell := cellOfUid s uid
  let s := modByUid s uid fun st =>
    { st with delivered := none, frozen := !st.faults.isEmpty, readySince := s.clock,
              calls := st.calls.map fun c => { c with failed := false } }
  match q.chan with
  | none => s
  | some ch =>
    match getChan s cell ch with
    | some run => if run.cmd.uid = uid then setChan s cell ch (some { run with faulted := false }) else s
    | none => s

/-- Applies an ACTION to a strand with a delivered fault. -/
def applyAction (s : State) (uid action : Nat) : State :=
  match findUid s uid with
  | none => s
  | some st =>
    match st.delivered with
    | none => s
    | some d =>
      let cls := Cause.cls d.fault.trap.cause
      let ended := allStopped st .atExit
      if action = 1 && cls = .resumable && !ended then resumeUid s uid d.fault
      else if action = 2 && cls ≠ .terminal && !ended then restartUid s uid
      else terminateUid s uid (Cause.code d.fault.trap.cause)

/-- Every strand, resident or departed. -/
def allStrands (s : State) : List Strand := s.strands.map (·.2) ++ s.ctxs.flatMap fun x => x.2.departed

/-- Applies the ACTION of an entry of a fault window. -/
def resolveEntry (s : State) (part k : Nat) : State :=
  let mine (st : Strand) : Bool :=
    st.part == part && match st.delivered with | some d => d.place == .window k | none => false
  match (allStrands s).find? mine with
  | none => s
  | some st => applyAction s st.uid (wbits (((getFn s part).window.get (Fin.ofNat 64 k)).getD 7 0) 1 0)

/-- A function's windows answer: the device is ready, and a virtual function is enabled (R443, R450). -/
def fnServes (s : State) (fn : Nat) : Bool := s.hub.rdy && (fn == 0 || (getFn s fn).enabled)

/-- FAULT_TAIL_WRITE (R410): TAIL above HEAD is ignored. -/
def execFaultTailWrite (part : Nat) (tail : BitVec 32) (s : State) : Outcome State Fault Refusal :=
  let f := getFn s part
  let n := (tail - f.faultTail).toNat
  if !fnServes s part || (f.faultHead - f.faultTail).toNat < n then .next s
  else
    let s := modFn s part fun f => { f with faultTail := tail }
    .next ((List.range n).foldl (fun s i => resolveEntry s part ((f.faultTail.toNat + i) % 64)) s)

/-- The record of a strand's fault lies in a handler's area and the handler's launch is complete: where it lies. -/
def handlerDone (s : State) (st : Strand) : Option (Home × Nat × Nat) :=
  match st.delivered with
  | some ⟨_, .area home va pa n⟩ =>
    (match launchOf s st.part n with
     | some l => if l.complete then some (home, va, pa) else none
     | none => none)
  | _ => none

/-- The ACTION of a record, read with an acquire; one that cannot be read is 00, terminate (log entry 31). -/
def readAction (s : State) (part : Nat) (home : Home) (va pa : Nat) : Act (Nat × State) :=
  let q : AwayReq := ⟨part, 0, home, va + 56, pa + 56, 8, none, false, false⟩
  if homeLocal home then
    let s := settleLines s (pa + 56) 8
    .ok (if linePoisoned s (pa + 56) 8 then 0 else memN s (pa + 56) 1 % 4, s)
  else match takeAnswer s q with
    | .ok (bs, s) => .ok ((bs.getD 0 0).toNat % 4, s)
    | .error (.trap t) => .ok (0, failUnit s 0 part t)
    | .error e => .error e

/-- FAULT_HANDLER_COMPLETE (R409): the ACTION of the first strand whose handler has completed is read and applied, and its
entry is freed. -/
def execFaultHandlerComplete (s : State) : Outcome State Fault Refusal :=
  match (allStrands s).find? (fun st => (handlerDone s st).isSome) with
  | none => .next s
  | some st =>
    match handlerDone s st with
    | none => .next s
    | some (home, va, pa) =>
      match readAction s st.part home va pa with
      | .ok (a, s) => .next (applyAction (freeEntryAt s st.part va) st.uid a)
      | .error (.hold h) => .next (startHold s h)
      | .error _ => .next s

/-! ## Detectors and logs (R413 to R418) -/

/-- A copy that has made no progress for 10 ms raises WATCHDOG with DETAIL 7 as a fault of its channel (R406, R418). -/
def copyWatchdog (s : State) (cell ch : Nat) : State :=
  match getChan s cell ch with
  | some run =>
    if run.faulted || run.idle < 40000000 then s
    else raiseChan s cell ch { run with idle := 0 } { cause := .watchdog, detail := 7 }
  | none => s

/-- WATCHDOG (R418): the engine of a strand that holds its block, or a channel of the copy engine, has made no progress for
10 ms. -/
def execWatchdog (w : Watched) (s : State) : Outcome State Fault Refusal :=
  match w with
  | .channel cell ch => .next (copyWatchdog s cell ch)
  | .engine w =>
  match getStrand s (Walker.ref w) with
  | none => .next s
  | some st =>
    let en := getEng st w.eng
    if !inMask st w.eng || !st.block || st.frozen || en.idle < 40000000 then .next s
    else
      let s := putStrand s (Walker.ref w) (modEng st w.eng fun en => { en with idle := 0 })
      .next (raiseAt s (Walker.ref w)
        ⟨{ cause := .watchdog, detail := 1 + Eng.code w.eng }, Eng.code w.eng, en.pc, st.overlay.toNat, none, none, s.clock⟩)

def logIndex : LogId → Nat
  | .die d => d % 4
  | .hub => 4

/-- ERROR_LOG_DRAIN (R414). -/
def execErrorLogDrain (log : LogId) (s : State) : Outcome State Fault Refusal := .next (drainLog s (logIndex log))

/-- PATROL_SCRUB (R415): a line of HBM or the second tier is found destroyed; it is poisoned and logged, and nothing is
raised. -/
def execPatrolScrub (addr : Nat) (s : State) : Outcome State Fault Refusal :=
  if !populated s addr then .next s
  else
    let part := match fget s.hub.owners (frameOf addr) with | some o => if o.valid then o.owner else 0 | none => 0
    let s := modHub s fun h => { h with linePoison := insertNew h.linePoison (addr / 128) }
    let log := if addr < Config.secondBase then homeDie addr else 4
    .next (addLog s log (logEntry s 0x42 2 part 0xFF 5 0 (some addr) []))

/-! ## Cells under test (R419) -/

/-- The reply of a management command that has ended; MGMT_COMMAND_COMPLETE writes it. -/
def endCommand (s : State) (l : List Word) : State := modHub s fun h => { h with readyReply := some l }

/-- A CELLTEST of the cell runs. -/
def testCommand (s : State) (cell : Nat) : Bool :=
  s.hub.busy && s.hub.code == 0x0C && s.hub.readyReply.isNone && (s.hub.cmd.get 0).toNat == cell

/-- Contexts of a cell lose everything but their departed strands, whose state is saved. -/
def clearContexts (s : State) (cell : Nat) : State :=
  let all := (s.ctxs.filter fun x => x.1 / 64 == cell).flatMap fun x => x.2.departed
  let move (d : Strand) : Strand := (saveAll s d.uid d).1
  let clear (x : Nat × Context) : Nat × Context :=
    if x.1 / 64 = cell then (x.1, { departed := x.2.departed.map move, savedCmds := x.2.savedCmds }) else x
  let s := all.foldl (fun s d => (saveAll s d.uid d).2) s
  { s with ctxs := s.ctxs.map clear }

/-- The cell is fenced: its bit is recorded, its resources are scrubbed and taken from their partitions. -/
def fenceCell (s : State) (cell : Nat) : State :=
  let s := putCell (clearContexts s cell) cell { fenced := true }
  let out (x : Nat × Partition) : Nat × Partition := (x.1, { x.2 with cells := x.2.cells.filter (· != cell) })
  let s := modHub s fun h => { h with fenceStore := insertNew h.fenceStore cell, parts := h.parts.map out }
  sendMsix s 0 5

/-- A departed strand of the cell that can resume on no cell (R419). -/
def stranded (s : State) (cell : Nat) : List Nat :=
  ((s.ctxs.filter fun x => x.1 / 64 == cell).flatMap fun x => x.2.departed).filterMap fun d =>
    if allSlotRefs.any fun r => couldResume s d.part r d then none else some d.uid

/-- CELL_TEST_COMPLETE: the self-test runs when no strand and no copy is left on the cell. -/
def execCellTestComplete (cell : Nat) (pass : Bool) (s : State) : Outcome State Fault Refusal :=
  let c := getCell s cell
  if !c.testing || (s.strands.any fun p => p.1 / 4 == cell) || c.chans.toList.any (·.isSome) then .next s
  else
    let reply := testCommand s cell
    let s := if pass then putCell s cell { c with testing := false, ueTimes := [] } else
      let s := fenceCell s cell
      (stranded s cell).foldl (fun s uid => terminateUid s uid (Cause.code .uncorrectable)) s
    .next (if reply then endCommand s [0, BitVec.ofNat 64 (boolNat (!pass))] else s)

end Sys2Proof.Machine
end

