-- ==== Sys2Proof/Machine/Sha.lean ====
section
/-! DEFINITION. SHA-256 over byte lists (R434 to R436, R449). The constants are computed from their defining roots of
primes; the eight words of the state are one 256-bit number, so that a round shifts it by one word.
-/

namespace Sys2Proof.Machine

abbrev W32 := BitVec 32

/-! ## The constants -/

/-- The largest number of `n` bits whose power `k` is at most `x`. -/
def rootBelow (k x : Nat) : Nat → Nat → Nat
  | 0, r => r
  | n + 1, r => rootBelow k x n (if (r + 2 ^ n) ^ k ≤ x then r + 2 ^ n else r)

/-- The first 32 bits of the fraction of the root of degree `k` of a prime. -/
def rootFraction (k p : Nat) : W32 := BitVec.ofNat 32 (rootBelow k (p * 2 ^ (32 * k)) 38 0)

/-- The first 64 primes: those below 312. -/
def shaPrimes : List Nat :=
  filterBelow 312 fun n => decide (1 < n) && (List.range n).all fun d => decide (d < 2) || n % d != 0

def shaK : List W32 := shaPrimes.map (rootFraction 3)

/-- The state: word 0 in the top bits, as the digest is written. -/
abbrev Sha := BitVec 256

/-- Words joined, the first in the top bits. -/
def shaJoin (l : List W32) : Sha := BitVec.ofNat 256 (packElems 32 (l.reverse.map BitVec.toNat))

def shaStart : Sha := shaJoin ((shaPrimes.take 8).map (rootFraction 2))

/-! ## Rounds -/

/-- Word `i` of the state, 0 the top one. -/
def shaAt (s : Sha) (i : Nat) : W32 := s.extractLsb' (32 * (7 - i)) 32

/-- The rotations of a word, exclusive-ored. -/
def spun (x : W32) (l : List Nat) : W32 := l.foldl (fun y n => y ^^^ x.rotateRight n) 0

/-- A round: every word moves one place down, the fourth and the first taking their sums in. `kw` is constant plus
message word. -/
def shaRound (s : Sha) (kw : W32) : Sha :=
  let x := shaAt s
  let pick := x 6 ^^^ (x 4 &&& (x 5 ^^^ x 6))
  let most := (x 0 &&& (x 1 ||| x 2)) ||| (x 1 &&& x 2)
  let t := kw + x 7 + pick + spun (x 4) [6, 11, 25]
  shaJoin [t + most + spun (x 0) [2, 13, 22], x 0, x 1, x 2, x 3 + t, x 4, x 5, x 6]

/-- The message schedule of a block, latest word first: `n` more words. -/
def shaSchedule : Nat → List W32 → List W32
  | 0, l => l
  | n + 1, l =>
    let back := fun i => l.getD (i - 1) 0
    let near := spun (back 2) [17, 19] ^^^ (back 2 >>> 10)
    let far := spun (back 15) [7, 18] ^^^ (back 15 >>> 3)
    shaSchedule n ((near + back 7 + far + back 16) :: l)

def shaBlock (s : Sha) (w : List W32) : Sha :=
  let kws := shaK.zipWith (· + ·) (shaSchedule 48 w.reverse).reverse
  let t := kws.foldl shaRound s
  shaJoin ((List.range 8).map fun i => shaAt s i + shaAt t i)

/-! ## Messages -/

/-- A big-endian number of a byte list. -/
def ofBytesBig (l : List Byte) : Nat := ofBytes l.reverse

/-- The message with its padding: a one bit, zeros, and the length in bits. -/
def shaPad (l : List Byte) : List Byte :=
  let z := (119 - l.length % 64) % 64
  l ++ 0x80 :: List.replicate z 0 ++ (toBytes (8 * l.length) 8).reverse

def shaBlocks : Nat → List Byte → Sha → Sha
  | 0, _, s => s
  | n + 1, l, s =>
    let words := (List.range 16).map fun i => BitVec.ofNat 32 (ofBytesBig ((l.drop (4 * i)).take 4))
    shaBlocks n (l.drop 64) (shaBlock s words)

/-- The digest as 32 bytes. -/
def sha256 (l : List Byte) : List Byte :=
  let p := shaPad l
  (toBytes (shaBlocks (p.length / 64) p shaStart).toNat 32).reverse

end Sys2Proof.Machine
end

