-- ==== Sys2Proof/Machine/Partitions.lean ====
section
/-! DEFINITION. Partitions (R420 to R429): usage records and seals (R433 to R436), creation (R422 to R426), teardown and
scrubbing (R427, R428).
-/

namespace Sys2Proof.Machine

open Host (Outcome)

/-! ## Usage records and seals (R434 to R436) -/

/-- The 128 bytes of the next record of a partition. -/
def recordBytes (s : State) (kind part : Nat) : List Byte :=
  let p := getPart s part
  dwordsToBytes ([BitVec.ofNat 64 s.hub.mseq, BitVec.ofNat 64 (timeNs s), recordHead kind part p.pser] ++
    counterWords p.counters) ++ toBytes s.hub.chainHead.toNat 32

/-- A record joins the chain and is kept until it is acknowledged; one that ends a batch of 64 calls for a seal. -/
def emitRecord (s : State) (kind part : Nat) : State :=
  let bs := recordBytes s kind part
  let n := s.hub.mseq
  let hash : BitVec 256 := BitVec.ofNat 256 (ofBytes (sha256 bs))
  let s := modHub s fun h =>
    { h with mseq := n + 1, chainHead := hash, records := h.records ++ [(n, bs)],
             unsealed := if n % 64 = 63 then h.unsealed ++ [(n, hash)] else h.unsealed }
  sendMsix s 0 4

/-- The store holds 65,536 records and 1,024 seals; while it is full periodic records are not created. -/
def storeFull (s : State) : Bool := decide (65536 ≤ s.hub.records.length) || decide (1024 ≤ s.hub.seals.length)

def accounted : PState → Bool
  | .active | .tearing | .scrubbing => true
  | _ => false

/-- USAGE_RECORD_EMIT: once each second of TIME, a record for each partition in state 2, 3 or 4. -/
def execUsageRecordEmit (s : State) : Outcome State Fault Refusal :=
  let now := timeNs s / 1000000000
  if now ≤ s.hub.lastRecord then .next s
  else
    let s := modHub s fun h => { h with lastRecord := now }
    if storeFull s then .next s
    else .next ((List.range 64).foldl (fun s p => if accounted (getPart s p).st then emitRecord s 0 p else s) s)

/-- A signature of 3,604 bytes under the next one-time key (R432). -/
def signBytes (s : State) (l : List Byte) : List Byte × State :=
  (((Config.sign s.hub.sigIndex l) ++ List.replicate 3604 0).take 3604, modHub s fun h => { h with sigIndex := h.sigIndex + 1 })

/-- SEAL_COMPLETE: the root of trust signs the oldest batch: its RSEQ and the hash of its last record. -/
def execSealComplete (s : State) : Outcome State Fault Refusal :=
  match s.hub.unsealed with
  | [] => .next s
  | (n, hash) :: rest =>
    let (sig, s) := signBytes s (toBytes n 8 ++ toBytes hash.toNat 32)
    let s := modHub s fun h =>
      { h with unsealed := rest, seals := h.seals ++ [(h.sseq, sig)], sseq := h.sseq + 1 }
    .next (sendMsix s 0 4)

/-! ## Creation requests (R424) -/

structure CellReq where
  cell : Nat
  au : Bool
  vu : Bool
  mu : Bool
  slots : Nat
  banks : Nat
deriving DecidableEq, Repr

structure CreateReq where
  dtag : BitVec 16
  root : Nat
  fabq : Nat
  savea : Nat
  ops : Bool
  stg : Nat
  lulldl : Nat
  cells : List CellReq
  frames : List Nat
deriving DecidableEq, Repr

/-- A cell record, or none when a reserved bit is set or its cell does not exist. -/
def cellReqOf (a b : Word) : Option CellReq :=
  if wbits a 55 53 = 0 && wbits a 47 32 = 0 && b = 0 && decide (wbits a 63 56 < Config.cells) then
    some ⟨wbits a 63 56, a.getLsbD 52, a.getLsbD 51, a.getLsbD 50, wbits a 49 48 + 1, wbits a 31 0⟩
  else none

/-- The frames of a range, or none when it breaks its limits or leaves the populated ranges (R58). -/
def frameRange (s : State) (a b : Word) : Option (List Nat) :=
  let fs := (List.range (wbits b 31 0)).map (· + wbits a 27 0)
  if wbits a 63 28 = 0 && wbits b 63 32 = 0 && wbits b 31 0 ≠ 0 && populated s (wbits a 27 0 * Config.frameSize) &&
      fs.all (fun f => populated s (f * Config.frameSize)) then some fs
  else none

/-- A creation request within the limits of its fields (R424). -/
def createReqOf (s : State) (w : List Word) : Option CreateReq :=
  let d := blk w
  let nc := wbits (d 0) 31 16
  let nf := wbits (d 0) 15 0
  let lull := wbits (d 3) 31 0
  if wbits (d 0) 47 32 = 0 && decide (1 ≤ nc ∧ nc ≤ 192) && decide (1 ≤ nf ∧ nf ≤ 4096) && wbits (d 1) 63 52 = 0 &&
      wbits (d 1) 13 0 = 0 && wbits (d 2) 47 32 ≠ 0 && wbits (d 2) 31 9 = 0 && wbits (d 2) 7 5 = 0 &&
      decide (wbits (d 2) 4 0 ≤ 24) && wbits (d 3) 63 32 = 0 && decide (lull ≤ 1000000) &&
      d 4 = 0 && d 5 = 0 && d 6 = 0 && d 7 = 0 && w.length = 8 + 2 * nc + 2 * nf then do
    let cells ← (List.range nc).mapM fun i => cellReqOf (d (8 + 2 * i)) (d (9 + 2 * i))
    let frames ← (List.range nf).mapM fun i => frameRange s (d (8 + 2 * nc + 2 * i)) (d (9 + 2 * nc + 2 * i))
    if (cells.map (·.cell)).Nodup then
      some ⟨BitVec.ofNat 16 (wbits (d 0) 63 48), wbits (d 1) 51 14 * 2 ^ 14, wbits (d 2) 63 48, wbits (d 2) 47 32,
        (d 2).getLsbD 8, wbits (d 2) 4 0, if lull = 0 then 100 else lull, cells, frames.flatten.dedup⟩
    else none
  else none

/-! ## Step 1 (R423, R426) -/

/-- A resource is free, held by a partition being torn down, or taken. -/
inductive Avail where
  | free | later | taken
deriving DecidableEq, Repr

def Avail.and : Avail → Avail → Avail
  | .taken, _ | _, .taken => .taken
  | .later, _ | _, .later => .later
  | .free, .free => .free

/-- The partition is being torn down or scrubbed. -/
def leaving (s : State) (p : Nat) : Bool := (getPart s p).st == .tearing || (getPart s p).st == .scrubbing

def availOwner (s : State) : Option Nat → Avail
  | none => .free
  | some p => if leaving s p then .later else .taken

def availUnit (s : State) (wanted : Bool) (o : Option Nat) : Avail := if wanted then availOwner s o else .free

/-- Slots of a cell: enough free ones, or enough once the partitions being torn down have gone. -/
def availSlots (s : State) (c : Cell) (n : Nat) : Avail :=
  let st := c.slots.toList.map (availOwner s)
  if decide (n ≤ (st.filter (· == .free)).length) then .free
  else if decide (n ≤ (st.filter (· != .taken)).length) then .later else .taken

def availCell (s : State) (q : CellReq) : Avail :=
  let c := getCell s q.cell
  if c.fenced || c.testing then .taken
  else
    let banks := (List.range 32).map fun i => availUnit s (bit q.banks i) (c.banks.get (Fin.ofNat 32 i))
    banks.foldl Avail.and (((availUnit s q.au c.au).and (availUnit s q.vu c.vu)).and
      ((availUnit s q.mu c.mu).and (availSlots s c q.slots)))

/-- A frame of the pool, one that a scrub will bring there, or another's. -/
def availFrame (s : State) (f : Nat) : Avail :=
  if inPool s f then .free
  else if s.hub.unmarked.contains f then .later
  else match fget s.hub.owners f with
    | some o => if o.valid && leaving s o.owner then .later else .taken
    | none => .taken

/-- Staging and operator shares of the engines: 24 and 16 (R296, R370). -/
def availShares (s : State) (q : CreateReq) : Avail :=
  let held (keep : Nat → Bool) := (getDie s 0).coll.filter fun x => keep x.1
  let stg (l : FMap CollPart) := (l.map fun x => x.2.shares).sum
  let ops (l : FMap CollPart) := (l.filter fun x => x.2.ops).length
  let fits (l : FMap CollPart) := decide (stg l + q.stg ≤ 24) && (!q.ops || decide (ops l < 16))
  if fits (held fun _ => true) then .free else if fits (held fun p => !leaving s p) then .later else .taken

def availAll (s : State) (q : CreateReq) : Avail :=
  (q.frames.map (availFrame s)).foldl Avail.and ((q.cells.map (availCell s)).foldl Avail.and (availShares s q))

/-! ## Steps 2 to 8 -/

/-- The entries of a table that are not zero, by index. -/
def tableEntries (s : State) (table : Nat) : List (Nat × BitVec 128) :=
  let ix := ((s.mem.filter fun x => decide (table ≤ x.1) && decide (x.1 < table + 16384)).map fun x => (x.1 - table) / 16).dedup
  ix.map fun i => (i, BitVec.ofNat 128 (memN s (table + 16 * i) 16))

/-- The tables reachable from a table, itself first (R425). -/
def tablesOf (s : State) : Nat → Nat → Nat → List Nat
  | 0, _, _ => []
  | fuel + 1, level, table =>
    table :: (tableEntries s table).flatMap fun x =>
      if pteKind x.2 = 1 && decide (level < 3) then tablesOf s fuel (level + 1) (pteFrame x.2) else []

/-- A leaf of a new partition (R425). -/
def leafOk (s : State) (part level : Nat) (p : BitVec 128) : Bool :=
  pteFields s p && ptePlace s level p && pteMig p == 0 && pteOwned s part level p &&
    (pteTier p != 3 || (routeOf s (pteHome p)).isSome)

/-- Validation from a table (R425): the tables seen, or the physical address of the failing entry. -/
def checkTable (s : State) (part : Nat) (frames : List Nat) : Nat → Nat → Nat → List Nat → Except Nat (List Nat)
  | 0, _, _, seen => .ok seen
  | fuel + 1, level, table, seen =>
    (tableEntries s table).foldlM (fun seen x =>
      let here := table + 16 * x.1
      let p := x.2
      if pteKind p = 0 then .ok seen
      else if pteReserved p || pteKind p = 3 || !pteShape s level p then .error here
      else if pteKind p = 1 then
        if !frames.contains (frameOf (pteFrame p)) || seen.contains (pteFrame p) then .error here
        else checkTable s part frames fuel (level + 1) (pteFrame p) (pteFrame p :: seen)
      else if leafOk s part level p then .ok seen else .error here) seen

/-- The owner entries of frames name a partition. -/
def setOwner (s : State) (part : Nat) (fs : List Nat) : State :=
  let tag := (getPart s part).dtag
  modHub s fun h => { h with owners := fs.foldl (fun o f => fset o f ⟨true, part, part, tag⟩) h.owners }

/-- Frames go from one partition to the service partition (R423, step 4). -/
def moveToService (s : State) (part : Nat) (fs : List Nat) : State :=
  let s := modPart s part fun p => { p with frames := p.frames.filter (fun f => !fs.contains f), svcFrames := p.svcFrames ++ fs }
  modPart (setOwner s 0 fs) 0 fun p => { p with frames := p.frames ++ fs }

/-- The i-th populated HBM frame (R58). -/
def hbmFrame (i : Nat) : Nat := i / Config.hbmFrames * 4096 + i % Config.hbmFrames

/-- The lowest frames of the pool in HBM, without some. -/
def poolFrames (s : State) (skip : List Nat) : Nat → Nat → Nat → List Nat
  | 0, _, _ => []
  | _, 0, _ => []
  | fuel + 1, n + 1, i =>
    if inPool s (hbmFrame i) && !skip.contains (hbmFrame i) then hbmFrame i :: poolFrames s skip fuel n (i + 1)
    else poolFrames s skip fuel (n + 1) (i + 1)

/-- Frames for a partition's handle table and save areas (R100, R399). -/
def serviceNeed (q : CreateReq) : Nat := 1 + (q.savea + 15) / 16

/-- The root region block that the management controller writes (R373; the fields that R373 leaves open are log entry
27). -/
def rootBlock (part lulldl : Nat) : List Word :=
  let root := BitVec.ofNat 64 (2 ^ 63 + 2 ^ 62 + part * 2 ^ 56 + 0xFF * 2 ^ 36)
  [root, BitVec.ofNat 64 unlimited, 0, BitVec.allOnes 64, BitVec.allOnes 64, BitVec.allOnes 64, 0,
   BitVec.ofNat 64 (part * 2 ^ 58 + lulldl)] ++ List.replicate 24 0

/-- Step 8: the root's block goes to memory, where the partition's tables map its address (R372, R373; log entry 27). -/
def writeRoot (s : State) (part : Nat) : State :=
  match writeVirt s 0 none part .copyRead (Config.rootRcb part) (dwordsToBytes (getPart s part).rootRcb) with
  | .ok s => s
  | .error _ => s

/-- The first slots of a cell that nobody holds become a partition's. -/
def claimSlots (part : Nat) (v : Vector (Option Nat) 4) (n : Nat) : Vector (Option Nat) 4 :=
  (((List.range 4).filter fun i => (v.get (Fin.ofNat 4 i)).isNone).take n).foldl
    (fun v i => v.set (Fin.ofNat 4 i) (some part)) v

/-- The lowest WCS share of a cell that no context holds (R347). -/
def freeShare (s : State) (cell : Nat) : Nat :=
  let used := (s.ctxs.filter fun x => x.1 / 64 == cell).filterMap fun x => x.2.share
  ((List.range 4).find? fun k => !used.contains k).getD 0

/-- Step 7 on one cell: the context with its share, its slots, units and banks. -/
def createContext (s : State) (part : Nat) (q : CellReq) : State :=
  let own (wanted : Bool) (o : Option Nat) : Option Nat := if wanted then some part else o
  let s := putCtx s q.cell part { win := Config.windowPerSlot * q.slots, share := some (freeShare s q.cell) }
  modCell s q.cell fun c =>
    { c with au := own q.au c.au, vu := own q.vu c.vu, mu := own q.mu c.mu, slots := claimSlots part c.slots q.slots,
             banks := Vector.ofFn fun (i : Fin 32) => own (bit q.banks i) (c.banks.get i) }

/-- Steps 2 to 8 for a partition number, or the failing step with the entry's address. -/
def createSteps (s : State) (part : Nat) (q : CreateReq) : Except (Nat × Nat) State :=
  let s := modHub s fun h => { h with keys := h.keys ||| BitVec.ofNat 64 (2 ^ part), pser := h.pser + 1 }
  let counters := if part = 0 then (getPart s 0).counters else {}
  let s := putPart s part { st := .creating, dtag := q.dtag, pser := s.hub.pser, root := q.root, fabq := q.fabq,
                            saveAreas := q.savea, cells := q.cells.map (·.cell), counters := counters }
  let s := giveFrames s part q.frames
  let tables := ((tablesOf s 4 0 q.root).map frameOf).dedup.filter fun f => q.frames.contains f
  let s := moveToService s part tables
  if !q.frames.contains (frameOf q.root) then .error (5, q.root)
  else match checkTable s part q.frames 4 0 q.root [q.root] with
    | .error a => .error (5, a)
    | .ok _ =>
      let extra := poolFrames s q.frames (12 * Config.hbmFrames) (serviceNeed q) 0
      if extra.length < serviceNeed q then .error (6, 0)
      else
        let s := giveFrames s 0 extra
        let s := modPart s part fun p => { p with svcFrames := p.svcFrames ++ extra, pool := extra.drop 1 }
        let s := (List.range 4).foldl (fun s d => putColl s d part { shares := q.stg, ops := q.ops }) s
        let s := q.cells.foldl (fun s c => createContext s part c) s
        let s := modPart s part fun p => { p with st := .active, rootRcb := rootBlock part q.lulldl }
        .ok (modFn (writeRoot s part) part fun _ => { enabled := true })

/-- The earlier steps undone: the key slot is zeroised and the frames return to the pool after scrubbing. -/
def undoCreate (s : State) (part : Nat) (q : CreateReq) : State :=
  let s := modHub s fun h => { h with pser := h.pser + 1, unmarked := h.unmarked ++ q.frames }
  queueScrub (putPart s part {}) ⟨part, 1, q.frames.length, 0, q.frames, false, 0, []⟩

/-- What a CREATE comes to. -/
inductive CreateTry where
  | wait (s : State)
  | fails (s : State) (step addr : Nat)
  | done (s : State) (part : Nat)
deriving DecidableEq, Repr

/-- The partition number of a creation: the one set aside for it, or the lowest free one. -/
def newPart (s : State) : Option Nat :=
  let l := (List.range 63).map (· + 1)
  match l.find? fun p => (getPart s p).st == .creating with
  | some p => some p
  | none => l.find? fun p => (getPart s p).st == .free

/-- Carries out a creation request (R423). It waits for what a partition being torn down still holds (R426). -/
def tryCreate (s : State) (w : List Word) : CreateTry :=
  match createReqOf s w with
  | none => .fails s 1 0
  | some q =>
    match newPart s, availAll s q with
    | none, _ => if (List.range 64).any (leaving s) then .wait s else .fails s 1 0
    | some p, .taken => .fails (putPart s p {}) 1 0
    | some p, .later => .wait (modPart s p fun x => { x with st := .creating })
    | some p, .free =>
      match createSteps s p q with
      | .ok s' => .done (emitRecord s' 1 p) p
      | .error (step, a) => .fails (undoCreate s p q) step a

/-! ## Teardown (R427) -/

/-- Step 1 begins: nothing is dispatched any more, and the resident strands are asked to stop (R390). -/
def beginTeardown (s : State) (part : Nat) : State :=
  let s := modPart s part fun p => { p with st := .tearing }
  ((s.strands.map (·.2)).filter fun st => st.part == part).foldl requestStop s

/-- Step 1 ends: every strand ends, resident or departed, and collectives that have not started are dropped. -/
def endStrands (s : State) (part : Nat) : State :=
  let s := (strandsOf s part).foldl (fun s st => terminateUid s st.uid 0) s
  let idle (x : Nat × CollSlot) : Nat × CollSlot := (x.1, { x.2 with waiting := [] })
  (List.range 4).foldl (fun s d =>
    if (fget (getDie s d).coll part).isSome then
      modColl s d part fun c => { c with cmds := [], slots := c.slots.map idle }
    else s) s

/-- Step 2: every copy has been abandoned and every collective of the partition has ended. -/
def quietPart (s : State) (part : Nat) : Bool :=
  !(s.cells.any fun x => x.2.chans.toList.any fun c => match c with | some r => r.cmd.part == part | none => false) &&
    !((allSlots s).any fun x => x.1.part == part && (x.2.run.isSome || !x.2.aborts.isEmpty)) &&
    !(s.hub.bputs.any fun b => b.part == part)

/-- Lines written under a zeroised key can no longer be read as data (R68). -/
def zeroiseKey (s : State) (part : Nat) (fs : List Nat) : State :=
  modHub s fun h =>
    { h with keys := h.keys &&& ~~~(BitVec.ofNat 64 (2 ^ part)), keyGen := h.keyGen + 1,
             deadFrames := fs.foldl (fun m f => fset m f (h.keyGen + 1)) h.deadFrames }

/-- The caches of the package drop what they hold of a partition. -/
def dropCaches (s : State) (part : Nat) : State :=
  let cell (x : Nat × Cell) : Nat × Cell :=
    (x.1, { x.2 with l1 := x.2.l1.filter (fun l => l.part != part), tlb := x.2.tlb.filter (fun e => e.part != part),
                     prefetch := x.2.prefetch.filter fun e => e.part != part })
  let die (d : Die) : Die :=
    { d with tlb := d.tlb.filter (fun e => e.part != part), walk := d.walk.filter (fun e => e.part != part),
             regions := d.regions.filter (fun e => e.part != part), pulls := d.pulls.filter fun e => e.part != part }
  let hub := { s.hub with away := s.hub.away.filter (fun u => u.req.part != part),
                          answers := s.hub.answers.filter (fun a => a.1.part != part),
                          adds := s.hub.adds.filter fun c => c.part != part }
  { s with cells := s.cells.map cell, dies := s.dies.map die, hub := hub }

/-- What a scrub clears of a partition after its frames, phase by phase (R428; log entry 56): its banks; its operand
slots, tiles, vector banks and IMEM windows; its WCS, staging and operator shares; its handle table and save areas. -/
def scrubAreas (s : State) (part : Nat) : List Nat :=
  let mine (o : Option Nat) : Bool := o == some part
  let slots (c : Cell) : Nat := (c.slots.toList.filter mine).length
  let sumOf (f : Cell → Nat) : Nat := (s.cells.map fun x => f x.2).sum
  let shares := ((List.range 4).map fun d => (getColl s d part).shares + boolNat (getColl s d part).ops).sum
  [sumOf fun c => (c.banks.toList.filter mine).length, sumOf fun c => 2 * slots c + (if mine c.mu then 48 else 0),
   sumOf (fun c => min 1 (slots c)) + shares, 1 + (getPart s part).saveAreas]

/-- The scrub of all that a partition holds, from its first frame. -/
def partScrub (s : State) (part : Nat) : Scrub :=
  let fs := (getPart s part).frames ++ (getPart s part).svcFrames
  ⟨part, 1, fs.length, 0, fs, true, 0, scrubAreas s part⟩

/-- Steps 3 and 4, and the scrub of step 5 queued. -/
def finishTeardown (s : State) (part : Nat) : State :=
  let s := zeroiseKey (modFn s part fun _ => {}) part (getPart s part).frames
  let s := modHub (dropCaches s part) fun h => { h with invals := h.invals.filter fun v => v.part != part }
  queueScrub (modPart s part fun p => { p with st := .scrubbing, launches := [] }) (partScrub s part)

/-! ## Scrubbing (R422, R427, R428) -/

/-- Frames read as zeros, without poison, and are in the pool. -/
def zeroFrames (s : State) (fs : List Nat) : State :=
  let out (f : Nat) : Bool := fs.contains f
  { s with
    mem := s.mem.filter fun x => !out (frameOf x.1)
    hub := { s.hub with
      linePoison := s.hub.linePoison.filter fun l => !out (frameOf (l * 128))
      unmarked := s.hub.unmarked.filter fun f => !out f
      owners := s.hub.owners.filter (fun x => !out x.1)
      mixed := s.hub.mixed.filter fun x => !out (frameOf (x.1 * 128))
      deadFrames := s.hub.deadFrames.filter fun x => !out x.1 } }

/-- A cell gives up, zeroed, what a partition owned there. -/
def clearCell (part : Nat) (c : Cell) : Cell :=
  let drop (o : Option Nat) : Option Nat := if o = some part then none else o
  let mine (bank : Nat) : Bool := c.banks.get (Fin.ofNat 32 bank) == some part
  { c with au := drop c.au, vu := drop c.vu, mu := drop c.mu, slots := c.slots.map drop, banks := c.banks.map drop,
           spm := c.spm.filter (fun x => !mine (x.1 / 65536)), spmPoison := c.spmPoison.filter (fun r => !mine (r / 128)),
           spmFresh := c.spmFresh.filter fun r => !mine (r / 128) }

/-- Everything that a partition held is zeroed and free; its final record is emitted (R427, R434). -/
def freePart (s : State) (part : Nat) : State :=
  let p := getPart s part
  let s := zeroFrames s (p.frames ++ p.svcFrames)
  let s := { s with cells := s.cells.map (fun x => (x.1, clearCell part x.2)),
                    ctxs := s.ctxs.filter (fun x => x.1 % 64 != part),
                    dies := s.dies.map fun d => { d with coll := d.coll.filter fun x => x.1 != part } }
  let s := modPart s 0 fun q => { q with frames := q.frames.filter fun f => !p.svcFrames.contains f }
  putPart (emitRecord s 2 part) part {}

/-- Cycles in which a frame of 16 MiB is zeroed at 400 GB/s, twice as many in the second tier (R427). An area of the later
phases is taken as a frame of HBM (log entry 56). -/
def scrubCycles (x : Scrub) : Nat :=
  if x.phase = 1 && decide (Config.secondBase / Config.frameSize ≤ x.frames.getD x.done 0) then 335544 else 167772

/-- Units of a phase are finished as the time spent on them allows. -/
def scrubUnits : Nat → Scrub → Scrub
  | 0, x => x
  | k + 1, x => if scrubCycles x ≤ x.left then scrubUnits k { x with done := x.done + 1, left := x.left - scrubCycles x } else x

/-- The scrub under way goes on for a time (R428). -/
def advanceScrub (n : Nat) : List Scrub → List Scrub
  | [] => []
  | x :: rest => scrubUnits (x.total - x.done) { x with left := x.left + n } :: rest

/-- A scrub has finished: its frames are in the pool again, or the whole partition is gone. -/
def finishScrub (s : State) (x : Scrub) (rest : List Scrub) : State :=
  let s := modHub s fun h => { h with scrubs := rest }
  if x.final then freePart s x.part else zeroFrames s x.frames

/-- The next phase of a scrub (R428). -/
def nextPhase (x : Scrub) : Option Scrub :=
  (x.later[x.phase - 1]?).map fun n => { x with phase := x.phase + 1, total := n, done := 0, left := 0 }

/-- SCRUB_COMPLETE: the oldest scrub has done all the units of its phase: the next phase begins, or the scrub has finished. -/
def execScrubComplete (s : State) : Outcome State Fault Refusal :=
  match s.hub.scrubs with
  | [] => .next s
  | x :: rest =>
    if x.done < x.total then .next s
    else match nextPhase x with
      | some y => .next (modHub s fun h => { h with scrubs := y :: rest })
      | none => .next (finishScrub s x rest)

end Sys2Proof.Machine
end

