-- ==== Sys2Proof/Machine/Manage.lean ====
section
/-! DEFINITION. The management function (R448, R449, R452): the thirteen commands of the doorbell and their end.
-/

namespace Sys2Proof.Machine

open Host (Outcome)

/-! ## Starting and ending a command -/

/-- ACCERR of a function becomes set, with its message (R444, R446, R447). -/
def setAccErr (s : State) (fn : Nat) : State :=
  if (getFn s fn).accErr then s else sendMsix (modFn s fn fun f => { f with accErr := true }) fn 2

/-- Doubleword `i` of the command area. -/
def cmdWord (s : State) (i : Nat) : Word := s.hub.cmd.get (Fin.ofNat 32 i)

/-- Every byte that a command does not use is zero: `used` holds the used bits of the first doublewords. -/
def unusedZero (s : State) (used : List Nat) : Bool :=
  (List.range 32).all fun i => (cmdWord s i).toNat / (used.getD i 0 + 1) == 0

/-- A status as a reply doubleword. -/
def statusWord (x : Int) : Word := BitVec.ofInt 64 x

/-- Writing a code to the doorbell (R448, R449): BUSY discards it with ACCERR; before RDY and after a halt only the
firmware commands are served; a byte that should be zero refuses it. -/
def startCommand (s : State) (code : Nat) (early : Bool) (used : List Nat) (body : State → State) :
    Outcome State Fault Refusal :=
  if s.hub.busy then .next (setAccErr s 0)
  else
    let s := modHub s fun h => { h with busy := true, code := BitVec.ofNat 16 code, readyReply := none }
    if !s.hub.rdy && !early then .next (endCommand s [statusWord (-4)])
    else if !unusedZero s used then .next (endCommand s [statusWord (-3)])
    else .next (body s)

/-- A refusal, −1. -/
def refuseCommand (s : State) : State := endCommand s [statusWord (-1)]

def byteMask (n : Nat) : Nat := 2 ^ (8 * n) - 1

/-! ## CREATE and TEARDOWN -/

/-- A creation goes on: its reply names the partition, or the failing step and entry. -/
def goCreate (s : State) (w : List Word) : State :=
  match tryCreate s w with
  | .wait s => modHub s fun h => { h with creating := some w }
  | .fails s step a =>
    endCommand (modHub s fun h => { h with creating := none }) [statusWord (-2), BitVec.ofNat 64 step, BitVec.ofNat 64 a]
  | .done s p => endCommand (modHub s fun h => { h with creating := none }) [0, BitVec.ofNat 64 p]

/-- CREATE: `req` is the request as the controller read it from the host. A request of another length than the command
names is no answer to its read. -/
def execCreate (req : List Word) (s : State) : Outcome State Fault Refusal :=
  if !s.hub.busy && 8 * req.length ≠ (cmdWord s 1).toNat && unusedZero s [byteMask 8, byteMask 4] then .next s
  else
    startCommand s 0x01 false [byteMask 8, byteMask 4] fun s =>
      if (cmdWord s 0).toNat % 64 ≠ 0 then refuseCommand s else goCreate s req

/-- TEARDOWN: the reply comes once scrubbing has been queued. -/
def execTeardown (s : State) : Outcome State Fault Refusal :=
  startCommand s 0x02 false [byteMask 1] fun s =>
    let p := (cmdWord s 0).toNat
    if decide (1 ≤ p ∧ p ≤ 63) && partActive s p then
      modHub (beginTeardown s p) fun h => { h with ending := some p }
    else refuseCommand s

/-! ## INVAL -/

/-- INVAL, with the operands of the descriptor of R431. -/
def execMgmtInval (s : State) : Outcome State Fault Refusal :=
  startCommand s 0x03 false [byteMask 1, byteMask 7, byteMask 8] fun s =>
    let p := (cmdWord s 0).toNat
    let base := (cmdWord s 1).toNat
    let len := (cmdWord s 2).toNat
    if 64 ≤ p || 2 ^ 54 ≤ base then endCommand s [statusWord (-3)]
    else if !partActive s p || 2 ^ 54 < base + len then refuseCommand s
    else if len = 0 then endCommand s [0]
    else modHub s fun h => { h with invals := h.invals ++ [⟨p, base, len, none, none, true⟩] }

/-! ## Logs, records and seals -/

/-- Entries drained from a log and not yet read. -/
def drainedOf (s : State) (d : Nat) : List (List Word) := (fget s.hub.drained d).getD []

/-- LOGREAD: the oldest entries, up to the number wanted; they leave the log. -/
def execLogread (s : State) : Outcome State Fault Refusal :=
  startCommand s 0x04 false [byteMask 2] fun s =>
    let x := (cmdWord s 0).toNat
    let d := bits x 7 0
    let n := bits x 15 8
    if 4 < d || n = 0 || 3 < n then refuseCommand s
    else
      let s := (List.range (n - (drainedOf s d).length)).foldl (fun s _ => drainLog s d) s
      let l := (drainedOf s d).take n
      let s := modHub s fun h => { h with drained := fset h.drained d ((drainedOf s d).drop n) }
      endCommand s ([0, BitVec.ofNat 64 l.length] ++ l.flatMap fun e => (e ++ List.replicate 8 0).take 8)

/-- MACK: records up to an RSEQ go, with the seals that cover only such records. -/
def execMack (s : State) : Outcome State Fault Refusal :=
  startCommand s 0x05 false [byteMask 8] fun s =>
    let n := (cmdWord s 0).toNat
    if s.hub.mseq ≤ n then refuseCommand s
    else
      endCommand (modHub s fun h =>
        { h with records := h.records.filter (fun r => decide (n < r.1)),
                 seals := h.seals.filter fun x => decide (n < 64 * x.1 + 63) }) [0]

/-- Doublewords of part `i` of a byte string, 248 bytes each. -/
def partWords (bs : List Byte) (i : Nat) : List Word := toDwords ((bs.drop (248 * i)).take 248) 31

/-- MFETCH: a record, or a part of a seal, by number. -/
def execMfetch (s : State) : Outcome State Fault Refusal :=
  let isSeal := (cmdWord s 0).getLsbD 63
  startCommand s 0x06 false (if isSeal then [byteMask 8, byteMask 1] else [byteMask 8]) fun s =>
    let n := (cmdWord s 0).toNat % 2 ^ 63
    let k := (cmdWord s 1).toNat
    if isSeal then
      match s.hub.seals.lookup n with
      | some bs => if k ≤ 14 then endCommand s (0 :: partWords bs k) else refuseCommand s
      | none => refuseCommand s
    else match s.hub.records.lookup n with
      | some bs => endCommand s (0 :: toDwords bs 16)
      | none => refuseCommand s

/-! ## Attestation and firmware (R432, R449) -/

/-- The fenced-cell mask in three doublewords (R2). -/
def fencedWords (s : State) : List Word :=
  (List.range 3).map fun k => BitVec.ofNat 64 ((List.range 64).foldl (fun x i =>
    if (getCell s (64 * k + i)).fenced then x + 2 ^ i else x) 0)

/-- The attestation report for a nonce. -/
def reportBytes (s : State) (nonce : List Byte) : List Byte :=
  dwordsToBytes (BitVec.ofNat 64 s.hub.pkg.toNat :: fencedWords s) ++
    sha256 (Config.firmwarePart 0 s.hub.image) ++ sha256 (Config.firmwarePart 1 s.hub.image) ++ nonce ++
    List.replicate 128 0

/-- The report and its signature for a nonce: signed once for each new nonce. -/
def attestBytes (s : State) (nonce : List Byte) : List Byte × State :=
  let fresh : List Byte × State :=
    let (sig, s) := signBytes s (reportBytes s nonce)
    let bs := reportBytes s nonce ++ sig
    (bs, modHub s fun h => { h with report := some (nonce, bs) })
  match s.hub.report with
  | some (n, bs) => if n = nonce then (bs, s) else fresh
  | none => fresh

def execAttest (s : State) : Outcome State Fault Refusal :=
  startCommand s 0x07 false [byteMask 8, byteMask 8, byteMask 8, byteMask 8, byteMask 1] fun s =>
    let k := (cmdWord s 4).toNat
    if 15 < k then refuseCommand s
    else
      let (bs, s) := attestBytes s (dwordsToBytes ((List.range 4).map (cmdWord s)))
      endCommand s (0 :: partWords bs k)

/-- FWSTAGE: one block of 192 bytes. -/
def execFwstage (s : State) : Outcome State Fault Refusal :=
  startCommand s 0x08 true (byteMask 4 :: List.replicate 24 (byteMask 8)) fun s =>
    let bs := dwordsToBytes ((List.range 24).map fun i => cmdWord s (i + 1))
    endCommand (modHub s fun h => { h with staged := fset h.staged (cmdWord s 0).toNat bs }) [0]

/-- FWCOMMIT: `verified` says that the image's signature verifies. The blocks named must all have been staged. -/
def execFwcommit (verified : Bool) (s : State) : Outcome State Fault Refusal :=
  startCommand s 0x09 true [byteMask 4] fun s =>
    let n := (cmdWord s 0).toNat
    let blocks := s.hub.staged.filter fun x => decide (x.1 < n)
    if verified && n ≠ 0 && blocks.length = n then
      endCommand (modHub s fun h => { h with nextImage := some (blocks.flatMap (·.2)) }) [0]
    else refuseCommand s

/-! ## FABRIC and CAP -/

def routeOfWord (w : BitVec 32) : Option Route :=
  if w.toNat / 2 ^ 18 = 0 then some ⟨BitVec.ofNat 10 w.toNat, bits w.toNat 13 10, bits w.toNat 17 14⟩ else none

/-- The fabric table as package number, domain tag and routes, or none when it breaks its layout. -/
def fabricOf (t : List (BitVec 32)) : Option (BitVec 10 × BitVec 16 × List Route) :=
  let d := fun i => ((t.getD i 0).toNat : Nat)
  if d 0 / 2 ^ 10 % 2 ^ 6 = 0 && decide (1 ≤ d 0 / 2 ^ 16) && decide (d 0 / 2 ^ 16 ≤ 1023) && d 1 % 2 ^ 16 = 0 &&
      d 2 = 0 && d 3 = 0 && t.length = 4 + d 0 / 2 ^ 16 then do
    let l ← (t.drop 4).mapM routeOfWord
    some (BitVec.ofNat 10 (d 0), BitVec.ofNat 16 (d 1 / 2 ^ 16), l)
  else none

/-- FABRIC: the table as the controller read it. Refused while a partition other than 0 is active. -/
def execFabric (table : List (BitVec 32)) (s : State) : Outcome State Fault Refusal :=
  if !s.hub.busy && 4 * table.length ≠ (cmdWord s 1).toNat && unusedZero s [byteMask 8, byteMask 4] then .next s
  else
    startCommand s 0x0A false [byteMask 8, byteMask 4] fun s =>
      match fabricOf table with
      | none => refuseCommand s
      | some (pkg, tag, l) =>
        if (cmdWord s 0).toNat % 64 ≠ 0 || (List.range 63).any (fun i => partActive s (i + 1)) then refuseCommand s
        else
          let retag (o : FrameOwner) : FrameOwner := if o.valid && o.owner = 0 then { o with dtag := tag } else o
          let s := modPart s 0 fun p => { p with dtag := tag }
          endCommand (modHub s fun h =>
            { h with pkg := pkg, routes := l, owners := h.owners.map fun x => (x.1, retag x.2) }) [0]

/-- CAP (R451). -/
def execCap (s : State) : Outcome State Fault Refusal :=
  startCommand s 0x0B false [byteMask 4, byteMask 4] fun s =>
    let cap := (cmdWord s 0).toNat
    let reserve := (cmdWord s 1).toNat
    if decide (1200 ≤ cap ∧ cap ≤ 3000 ∧ 700 ≤ reserve ∧ reserve + 200 ≤ cap) then
      endCommand (modHub s fun h => { h with cap := cap, reserve := reserve }) [0]
    else refuseCommand s

/-! ## CELLTEST and TELEM -/

/-- CELLTEST (R419): a cell that is fenced already stays so. -/
def execCelltest (s : State) : Outcome State Fault Refusal :=
  startCommand s 0x0C false [byteMask 1] fun s =>
    let c := (cmdWord s 0).toNat
    if Config.cells ≤ c then refuseCommand s
    else if (getCell s c).fenced then endCommand s [0, 1]
    else modCell s c fun x => { x with testing := true }

/-- The telemetry block (R452). -/
def telemetry (s : State) : List Word :=
  (List.range 4).map (fun d =>
    let x := getDie s d
    BitVec.ofNat 64 (x.temp % 2 ^ 16 + x.lastEnergy / energyUnit % 2 ^ 32 * 2 ^ 16 + min x.delayed 0xFFFF * 2 ^ 48)) ++
  [BitVec.ofNat 64 (s.hub.hubTemp % 2 ^ 16 + s.hub.inlet % 2 ^ 16 * 2 ^ 16 + s.hub.flow % 2 ^ 16 * 2 ^ 32)] ++
  fencedWords s ++ [BitVec.ofNat 64 s.hub.stFrames]

def execTelem (s : State) : Outcome State Fault Refusal :=
  startCommand s 0x0D false [] fun s => endCommand s (0 :: telemetry s)

/-! ## The end of a command -/

/-- A CREATE or TEARDOWN that waits goes on. -/
def goOn (s : State) : State :=
  match s.hub.creating, s.hub.ending with
  | some w, _ => goCreate s w
  | none, some p =>
    if (strandsOf s p).isEmpty && quietPart s p then
      endCommand (modHub (finishTeardown s p) fun h => { h with ending := none }) [0]
    else endStrands s p
  | none, none => s

/-- MGMT_COMMAND_COMPLETE: the reply area is written, BUSY clears and vector 6 goes out. -/
def execMgmtCommandComplete (s : State) : Outcome State Fault Refusal :=
  if !s.hub.busy then .next s
  else match s.hub.readyReply with
    | none => .next (goOn s)
    | some l =>
      let s := modHub s fun h =>
        { h with reply := Vector.ofFn fun (i : Fin 32) => l.getD i 0, busy := false, readyReply := none }
      .next (sendMsix s 0 6)

end Sys2Proof.Machine
end

