-- ==== Sys2Proof/Machine/HostRegs.lean ====
section
/-! DEFINITION. The host's view of the device (R443 to R448): the windows of a function as the host reads them, and its
writes to the registers that have no row of their own.
-/

namespace Sys2Proof.Machine

open Host (Outcome)

/-! ## What the host reads -/

/-- Slots that a partition holds on the package. -/
def heldSlots (s : State) (part : Nat) : Nat :=
  (s.cells.map fun x => (x.2.slots.toList.filter (· == some part)).length).sum

/-- The status word (R445). -/
def statusReg (s : State) (fn : Nat) : Word :=
  BitVec.ofNat 64 (boolNat s.hub.rdy * 2 ^ 63 + pstateCode (getPart s fn).st * 2 ^ 60 + s.hub.pkg.toNat * 2 ^ 50 +
    (s.cells.filter fun x => x.2.fenced).length % 256 * 2 ^ 32 + heldSlots s fn)

/-- The error word (R446). -/
def errorReg (s : State) (fn : Nat) : Word :=
  BitVec.ofNat 64 (2 * boolNat (s.hub.halt && fn == 0) + boolNat (getFn s fn).accErr)

/-- The slot of a mailbox belongs to the function's partition (R444). -/
def boxMine (s : State) (fn key : Nat) : Bool := (getCell s (key / 4)).slots.get (Fin.ofNat 4 key) == some fn

/-- A doubleword of a mailbox as it reads (R384). -/
def boxReg (b : Mailbox) (i : Nat) : Word :=
  match i with
  | 0 => b.word0
  | 1 => b.argb.setWidth 64
  | 2 => BitVec.ofNat 64 (b.entry.toNat * 2 ^ 56 + b.stat.toNat * 2 ^ 4)
  | _ => BitVec.ofNat 64 (b.cause.toNat * 2 ^ 32)

/-- A doubleword of BAR0 at an offset that is a multiple of 8 (R444). -/
def bar0Word (s : State) (fn off : Nat) : Word :=
  let f := getFn s fn
  if off < 0x6000 then
    (if fnServes s fn && boxMine s fn (off / 32) then boxReg (getBox s fn (off / 32)) (off / 8 % 4) else 0)
  else if off = 0x6000 then statusReg s fn
  else if off = 0x6008 then errorReg s fn
  else if off = 0x6010 then (if fnServes s fn then f.faultHead ++ f.faultTail else 0)
  else if 0x7000 ≤ off && off < 0x8000 then
    (if fnServes s fn then (f.window.get (Fin.ofNat 64 ((off - 0x7000) / 64))).getD (off / 8 % 8) 0 else 0)
  else if 0x8000 ≤ off && off < 0x8080 then f.msixTable.get (Fin.ofNat 16 ((off - 0x8000) / 8))
  else if off = 0x9000 then f.msixPending.setWidth 64
  else 0

/-- A doubleword of the management function (R448). -/
def bar2Word (s : State) (off : Nat) : Word :=
  if off < 0x100 then cmdWord s (off / 8)
  else if off < 0x200 then s.hub.reply.get (Fin.ofNat 32 ((off - 0x100) / 8))
  else if off = 0x200 then BitVec.ofNat 64 (boolNat s.hub.busy * 2 ^ 63 + s.hub.code.toNat)
  else 0

/-! ## Accesses of the wrong shape (R444) -/

/-- The function answers at all. -/
def fnAnswers (s : State) (fn : Nat) : Bool := fn == 0 || (getFn s fn).enabled

/-- BAR_ACCESS_ERROR: a read is aborted, a write discarded; either sets ACCERR. -/
def execBarAccessError (fn : Nat) (_isRead : Bool) (s : State) : Outcome State Fault Refusal :=
  .next (if fnAnswers s fn then setAccErr s fn else s)

/-! ## Writes -/

/-- The doubleword that a write of 4 or 8 bytes leaves. -/
def mergeWord (old v : Word) (off size : Nat) : Word :=
  if size = 8 then v
  else if off % 8 = 0 then BitVec.ofNat 64 (old.toNat / 2 ^ 32 * 2 ^ 32 + v.toNat % 2 ^ 32)
  else BitVec.ofNat 64 (old.toNat % 2 ^ 32 + v.toNat % 2 ^ 32 * 2 ^ 32)

/-- A write to a mailbox doubleword (R384): the fields that software writes; GO starts nothing while STAT is 1 or 2. -/
def writeBox (b : Mailbox) (i : Nat) (v : Word) (go : Bool) : Mailbox :=
  match i with
  | 0 => { b with word0 := v }
  | 1 => { b with argb := v.setWidth 54 }
  | 2 => { b with entry := BitVec.ofNat 8 (wbits v 63 56), go := b.go || (go && b.stat != 1 && b.stat != 2) }
  | _ => b

/-- Unmasking a vector whose message is pending sends it (log entry 18). -/
def sendPending (f : Fn) : Fn :=
  let due := (List.range 8).filter fun v =>
    f.msixPending.getLsbD v && !(f.msixTable.get (Fin.ofNat 16 (2 * v + 1))).getLsbD 32
  { f with sent := f.sent ++ due,
           msixPending := due.foldl (fun x v => x &&& ~~~(BitVec.ofNat 8 (2 ^ v))) f.msixPending }

/-- A write to BAR0. The fault status word has its own row. -/
def writeBar0 (s : State) (fn off size : Nat) (v : Word) : State :=
  let at8 := off / 8 * 8
  let new := mergeWord (bar0Word s fn at8) v off size
  if off < 0x6000 then
    (if fnServes s fn && boxMine s fn (off / 32) then
       modBox s fn (off / 32) fun b => writeBox b (off / 8 % 4) new (new.getLsbD 0 && (size == 8 || off % 8 == 0))
     else s)
  else if at8 = 0x6008 then
    (if off % 8 = 0 && v.getLsbD 0 then modFn s fn fun f => { f with accErr := false } else s)
  else if 0x7000 ≤ off && off < 0x8000 then
    (if fnServes s fn && at8 % 64 = 56 then
       let k := Fin.ofNat 64 ((off - 0x7000) / 64)
       let action (w : Word) : Word := BitVec.ofNat 64 (w.toNat / 4 * 4 + new.toNat % 4)
       modFn s fn fun f => { f with window := f.window.set k ((f.window.get k).set 7 (action ((f.window.get k).getD 7 0))) }
     else s)
  else if 0x8000 ≤ off && off < 0x8080 then
    modFn s fn fun f => sendPending { f with msixTable := f.msixTable.set (Fin.ofNat 16 ((off - 0x8000) / 8)) new }
  else s

/-- A code that has a row of its own. -/
def knownCode (n : Nat) : Bool := decide (1 ≤ n) && decide (n ≤ 13)

/-- A write to the management function. A code without a command answers −1; one with a row of its own starts there. -/
def writeBar2 (s : State) (off size : Nat) (v : Word) : Outcome State Fault Refusal :=
  if off < 0x100 then
    .next (modHub s fun h => { h with cmd := h.cmd.set (Fin.ofNat 32 (off / 8)) (mergeWord (cmdWord s (off / 8)) v off size) })
  else if off = 0x200 then
    (if s.hub.busy then .next (setAccErr s 0)
     else if knownCode (wbits v 15 0) then .next s
     else startCommand s (wbits v 15 0) false [] refuseCommand)
  else .next s

/-- REGISTER_WRITE: a host write of `size` bytes to a BAR of a function. -/
def execRegisterWrite (fn bar off size : Nat) (v : Word) (s : State) : Outcome State Fault Refusal :=
  if !fnAnswers s fn then .next s
  else if (size ≠ 4 && size ≠ 8) || off % size ≠ 0 then .next (setAccErr s fn)
  else if bar = 0 && off < 0x10000 then .next (writeBar0 s fn off size v)
  else if bar = 2 && fn = 0 && off < 0x1000 then writeBar2 s off size v
  else .next s

end Sys2Proof.Machine
end

