-- ==== Sys2Proof/Machine/Reset.lean ====
section
/-! DEFINITION. Resets and bring-up (R428, R450), the loss of standby power (R428, R435), heat and telemetry (R451, R452).
-/

namespace Sys2Proof.Machine

open Host (Outcome)

/-! ## Heat and telemetry -/

/-- 100, 95 and 110 °C in units of 1/16 °C. -/
def hotTemp : Nat := 1600
def coolTemp : Nat := 1520
def stopTemp : Nat := 1760

/-- THERMAL_THROTTLE (R451): in each millisecond a hot die's share goes down by 5 %, and a cooled one's goes up. -/
def execThermalThrottle (die : Nat) (s : State) : Outcome State Fault Refusal :=
  let d := die % 4
  let x := getDie s d
  let hot := decide (hotTemp ≤ x.temp) || (x.hot && decide (coolTemp ≤ x.temp))
  if s.clock < x.throttleAt + 4000000 || (!hot && x.throttle = 0) then .next s
  else .next (modDie s d fun x =>
    { x with hot := hot, throttle := if hot then min 20 (x.throttle + 1) else x.throttle - 1, throttleAt := s.clock })

/-- THERMAL_SHUTDOWN (R451): every strand stops as terminate does, the event is logged, and the package waits for a
reset. -/
def execThermalShutdown (die : Nat) (s : State) : Outcome State Fault Refusal :=
  let d := die % 4
  if (getDie s d).temp < stopTemp || s.hub.shut then .next s
  else
    let s := (allStrands s).foldl (fun s st => terminateUid s st.uid 0) s
    let s := addLog s d (logEntry s Config.thermalCode.toNat 0 0 0xFF 5 0 none [])
    .next (modHub s fun h => { h with shut := true })

/-- The coolant breaks R451: above 45 °C at the inlet, or below 2.5 L/min. -/
def coolantBad (inlet flow : Nat) : Bool := decide (720 < inlet) || decide (flow < 2500)

/-- TELEMETRY_ALARM (R452): the sensors are read; vector 5 goes out when a die passes 100 °C or the coolant leaves its
limits. -/
def execTelemetryAlarm (x : Sensors) (s : State) : Outcome State Fault Refusal :=
  let passes := (List.range 4).any fun d =>
    decide ((getDie s d).temp < hotTemp) && decide (hotTemp ≤ x.die.getD d 0)
  let breaks := coolantBad x.inlet x.flow && !coolantBad s.hub.inlet s.hub.flow
  let s := (List.range 4).foldl (fun s d => modDie s d fun y => { y with temp := x.die.getD d 0 }) s
  let s := modHub s fun h => { h with hubTemp := x.hub, inlet := x.inlet, flow := x.flow }
  .next (if passes || breaks then sendMsix s 0 5 else s)

/-! ## Resets -/

/-- Partitions that a reset leaves to be scrubbed: every one that is not free, and not yet queued for its scrub (log entry
41). -/
def resetScrubs (s : State) : List Scrub :=
  (s.hub.parts.filter fun x => x.2.st != .free && !(s.hub.scrubs.any fun q => q.part == x.1 && q.final)).map fun x =>
    partScrub s x.1

/-- The hub after a reset: the always-on registers keep their values (R428, R429, R433). -/
def resetHub (s : State) : Hub :=
  let h := s.hub
  let stop (x : Nat × Partition) : Nat × Partition :=
    if x.2.st = .free then x else (x.1, { x.2 with st := .scrubbing, launches := [] })
  let scrubs := h.scrubs ++ resetScrubs s
  { stFrames := h.stFrames, owners := h.owners, keys := h.keys, keyGen := h.keyGen, deadFrames := h.deadFrames,
    unmarked := h.unmarked, parts := h.parts.map stop, pser := h.pser, mseq := h.mseq, sseq := h.sseq,
    chainHead := h.chainHead, scrubs := scrubs, records := h.records, seals := h.seals, unsealed := h.unsealed,
    sigIndex := h.sigIndex, lastRecord := h.lastRecord, staged := h.staged, nextImage := h.nextImage, image := h.image,
    fenceStore := h.fenceStore, standbyLost := h.standbyLost, linePoison := h.linePoison, period := h.period,
    hubTemp := h.hubTemp, inlet := h.inlet, flow := h.flow, fuses := h.fuses }

/-- A cell after a reset: its owned banks stay until they are scrubbed, and a fenced cell stays fenced (R419). -/
def resetCell (fenced : List Nat) (x : Nat × Cell) : Nat × Cell :=
  (x.1, if fenced.contains x.1 then { fenced := true } else {
    au := x.2.au, vu := x.2.vu, mu := x.2.mu, banks := x.2.banks, slots := x.2.slots, spm := x.2.spm,
    spmPoison := x.2.spmPoison, spmFresh := x.2.spmFresh })

def resetDie (n : Nat) (x : Die) : Die := { temp := x.temp, reread := n }

/-- The cells that are fenced after a reset: those of the fuse map, and those that the management controller has fenced (R2,
R419). -/
def fencedCells (h : Hub) : List Nat := h.fuses.getD [] ++ h.fenceStore

def fenceAll (s : State) (l : List Nat) : State := l.foldl (fun s c => modCell s c fun x => { x with fenced := true }) s

/-- Everything that runs is gone; the always-on registers, the memory and the clock stay. -/
def afterReset (s : State) : State :=
  { s with strands := [], ctxs := [], cells := s.cells.map (resetCell (fencedCells s.hub)),
           dies := s.dies.map (resetDie s.hub.period), hub := resetHub s, upsets := [] }

/-- The fuse map of the part is read: that of a 192-cell part is empty (R1, R2). What is fused stays. -/
def readFuses (s : State) (b : BringUp) : State :=
  let s := modHub s fun h => { h with fuses := some (h.fuses.getD (if fuseMapOk b.fuses then b.fuses else [])) }
  fenceAll s (fencedCells s.hub)

/-- Bring-up stops at a step that failed (R450). -/
def haltBringUp (s : State) : State := sendMsix (modHub s fun h => { h with halt := true }) 0 7

/-- Step 4: every scrub runs to its end. -/
def runScrubs : Nat → State → State
  | 0, s => s
  | n + 1, s =>
    match s.hub.scrubs with
    | [] => s
    | x :: rest => runScrubs n (finishScrub s x rest)

/-- Step 6: the service partition is created, and the first record after the reset or the loss of power is emitted. -/
def createService (s : State) (w : List Word) : Option State :=
  match createReqOf s w with
  | none => none
  | some q =>
    if availAll s q ≠ .free then none
    else match createSteps s 0 q with
      | .error _ => none
      | .ok s =>
        let s := emitRecord s (if s.hub.standbyLost then 4 else 3) 0
        some (modHub s fun h => { h with standbyLost := false })

/-- Steps 1 to 7 of bring-up (R450). -/
def bringUp (s : State) (link : Bool) (b : BringUp) : State :=
  if !link then haltBringUp s
  else
    let s := modHub s fun h => { h with linkUp := true, image := h.nextImage.getD h.image, nextImage := none }
    if !b.firmwareOk then haltBringUp s
    else if !b.memoryTrained then haltBringUp s
    else
      let s := modHub s fun h => { h with stFrames := min b.stFrames 61035 }
      let s := runScrubs s.hub.scrubs.length s
      let s := modHub s fun h => { h with portsUp := b.epnerUp }
      match createService s b.service with
      | none => haltBringUp s
      | some s => modHub s fun h => { h with rdy := true }

/-- COLD_RESET. -/
def execColdReset (b : BringUp) (s : State) : Outcome State Fault Refusal :=
  .next (bringUp (readFuses (afterReset s) b) b.linkTrained b)

/-- WARM_RESET: step 1 is skipped if the link stays up. -/
def execWarmReset (linkUp : Bool) (b : BringUp) (s : State) : Outcome State Fault Refusal :=
  .next (bringUp (readFuses (afterReset s) b) ((linkUp && s.hub.linkUp) || b.linkTrained) b)

/-- A partition's counters as its last record holds them (R435). -/
def lastCounters (s : State) (part : Nat) (c : Counters) : Counters :=
  let ours (r : Nat × List Byte) : Bool := wbits ((toDwords r.2 3).getD 2 0) 53 48 == part
  match s.hub.records.reverse.find? ours with
  | none => c
  | some r =>
    let d := fun i => ((toDwords r.2 16).getD i 0).toNat
    ⟨d 3, d 4, d 5, d 6, d 7, d 8, d 9, d 10, d 11⟩

/-- STANDBY_POWER_LOSS: every key slot is erased, scrubs start again, serial numbers start again at 1, and usage after the
last record is lost (R428, R429, R435). What runs is gone with the power. -/
def execStandbyPowerLoss (s : State) : Outcome State Fault Refusal :=
  let s := afterReset s
  let lost (x : Nat × Partition) : Nat × Partition := (x.1, { x.2 with counters := lastCounters s x.1 x.2.counters })
  let dead := (s.hub.owners.filter fun x => x.2.valid).map (·.1)
  .next (modHub s fun h =>
    { h with keys := 0, keyGen := h.keyGen + 1, pser := 0, standbyLost := true,
             deadFrames := dead.foldl (fun m f => fset m f (h.keyGen + 1)) h.deadFrames,
             scrubs := h.scrubs.map (fun x => { x with phase := 1, total := x.frames.length, done := 0, left := 0 }),
             parts := h.parts.map lost })

end Sys2Proof.Machine
end

