-- ==== Sys2Proof/Machine/Dispatch.lean ====
section
/-! DEFINITION. The meaning of every instruction: one arm for each constructor of `Instr`, each one direct call.
-/

namespace Sys2Proof.Machine

def exec (i : Instr) (s : State) : Host.Outcome State Fault Refusal :=
  match i with
  | .nop t tk => Sys2Proof.Machine.execNop t tk s
  | .add lat d a b => Sys2Proof.Machine.execAdd lat d a b s
  | .sub lat d a b => Sys2Proof.Machine.execSub lat d a b s
  | .mul lat d a b => Sys2Proof.Machine.execMul lat d a b s
  | .mulh lat d a b => Sys2Proof.Machine.execMulh lat d a b s
  | .mulhu lat d a b => Sys2Proof.Machine.execMulhu lat d a b s
  | .div lat d a b => Sys2Proof.Machine.execDiv lat d a b s
  | .divu lat d a b => Sys2Proof.Machine.execDivu lat d a b s
  | .rem lat d a b => Sys2Proof.Machine.execRem lat d a b s
  | .remu lat d a b => Sys2Proof.Machine.execRemu lat d a b s
  | .and lat d a b => Sys2Proof.Machine.execAnd lat d a b s
  | .or lat d a b => Sys2Proof.Machine.execOr lat d a b s
  | .xor lat d a b => Sys2Proof.Machine.execXor lat d a b s
  | .shl lat d a b => Sys2Proof.Machine.execShl lat d a b s
  | .shr lat d a b => Sys2Proof.Machine.execShr lat d a b s
  | .sra lat d a b => Sys2Proof.Machine.execSra lat d a b s
  | .min lat d a b => Sys2Proof.Machine.execMin lat d a b s
  | .max lat d a b => Sys2Proof.Machine.execMax lat d a b s
  | .minu lat d a b => Sys2Proof.Machine.execMinu lat d a b s
  | .maxu lat d a b => Sys2Proof.Machine.execMaxu lat d a b s
  | .clz lat d a => Sys2Proof.Machine.execClz lat d a s
  | .popc lat d a => Sys2Proof.Machine.execPopc lat d a s
  | .sel lat d a b c => Sys2Proof.Machine.execSel lat d a b c s
  | .cmp lat fn d a b => Sys2Proof.Machine.execCmp lat fn d a b s
  | .addi lat d a imm => Sys2Proof.Machine.execAddi lat d a imm s
  | .andi lat d a imm => Sys2Proof.Machine.execAndi lat d a imm s
  | .ori lat d a imm => Sys2Proof.Machine.execOri lat d a imm s
  | .xori lat d a imm => Sys2Proof.Machine.execXori lat d a imm s
  | .shi lat k d a n => Sys2Proof.Machine.execShi lat k d a n s
  | .li lat d imm => Sys2Proof.Machine.execLi lat d imm s
  | .lih lat d a imm => Sys2Proof.Machine.execLih lat d a imm s
  | .cmpi lat fn d a imm => Sys2Proof.Machine.execCmpi lat fn d a imm s
  | .br off => Sys2Proof.Machine.execBr off s
  | .brc c hint g off => Sys2Proof.Machine.execBrc c hint g off s
  | .call off => Sys2Proof.Machine.execCall off s
  | .jr g => Sys2Proof.Machine.execJr g s
  | .loop g off => Sys2Proof.Machine.execLoop g off s
  | .loopr off => Sys2Proof.Machine.execLoopr off s
  | .ploop stages words g len => Sys2Proof.Machine.execPloop stages words g len s
  | .waitFlag ga oc => Sys2Proof.Machine.execWaitFlag ga oc s
  | .waitTime ga => Sys2Proof.Machine.execWaitTime ga s
  | .trap imm => Sys2Proof.Machine.execTrap imm s
  | .fence sc k mask => Sys2Proof.Machine.execFence sc k mask s
  | .barrierComplete part launch => Sys2Proof.Machine.execBarrierComplete part launch s
  | .ovl n => Sys2Proof.Machine.execOvl n s
  | .pushHset gb ga x w r tag => Sys2Proof.Machine.execPushHset gb ga x w r tag s
  | .pushHfree gb tag => Sys2Proof.Machine.execPushHfree gb tag s
  | .pushHread gb tag => Sys2Proof.Machine.execPushHread gb tag s
  | .pushGset gb => Sys2Proof.Machine.execPushGset gb s
  | .pushGfree gb => Sys2Proof.Machine.execPushGfree gb s
  | .pushCrun gb => Sys2Proof.Machine.execPushCrun gb s
  | .popCpy lat ga => Sys2Proof.Machine.execPopCpy lat ga s
  | .popColl lat ga => Sys2Proof.Machine.execPopColl lat ga s
  | .mfst lat ga num => Sys2Proof.Machine.execMfst lat ga num s
  | .mtst num gb => Sys2Proof.Machine.execMtst num gb s
  | .qsend q gb => Sys2Proof.Machine.execQsend q gb s
  | .qrecv lat ga => Sys2Proof.Machine.execQrecv lat ga s
  | .launch lat ga gb => Sys2Proof.Machine.execLaunch lat ga gb s
  | .bind lat ga gb n => Sys2Proof.Machine.execBind lat ga gb n s
  | .sysInval lat ga gb => Sys2Proof.Machine.execSysInval lat ga gb s
  | .sysFgive lat ga gb => Sys2Proof.Machine.execSysFgive lat ga gb s
  | .sysFtake lat ga gb => Sys2Proof.Machine.execSysFtake lat ga gb s
  | .sysMread lat ga gb => Sys2Proof.Machine.execSysMread lat ga gb s
  | .ld lat sz sext oc cp aq d base off => Sys2Proof.Machine.execLd lat sz sext oc cp aq d base off s
  | .st sz oc cp rl d base off => Sys2Proof.Machine.execSt sz oc cp rl d base off s
  | .amo lat op dbl oc aq rl d base off => Sys2Proof.Machine.execAmo lat op dbl oc aq rl d base off s
  | .pfl xlat base off => Sys2Proof.Machine.execPfl xlat base off s
  | .aadd h d a imm => Sys2Proof.Machine.execAadd h d a imm s
  | .aset h d imm => Sys2Proof.Machine.execAset h d imm s
  | .asetH h d imm => Sys2Proof.Machine.execAsetH h d imm s
  | .asetQ h d imm => Sys2Proof.Machine.execAsetQ h d imm s
  | .sdset h sd w a second => Sys2Proof.Machine.execSdset h sd w a second s
  | .ldq tk t6 base off => Sys2Proof.Machine.execLdq tk t6 base off s
  | .ldqs tk sz sd base off => Sys2Proof.Machine.execLdqs tk sz sd base off s
  | .ldg tk sz base off => Sys2Proof.Machine.execLdg tk sz base off s
  | .ldpk tk sz base off => Sys2Proof.Machine.execLdpk tk sz base off s
  | .ldmq tk elem oc cp aq base off => Sys2Proof.Machine.execLdmq tk elem oc cp aq base off s
  | .omfill tk d sd base off => Sys2Proof.Machine.execOmfill tk d sd base off s
  | .omfillComplete r om => Sys2Proof.Machine.execOmfillComplete r om s
  | .cpy tk w => Sys2Proof.Machine.execCpy tk w s
  | .cpyh tk w => Sys2Proof.Machine.execCpyh tk w s
  | .copyStart cell => Sys2Proof.Machine.execCopyStart cell s
  | .copyComplete cell ch => Sys2Proof.Machine.execCopyComplete cell ch s
  | .copyChannelFault cell ch bytes => Sys2Proof.Machine.execCopyChannelFault cell ch bytes s
  | .rps tk toC toM dbl cnt base off => Sys2Proof.Machine.execRps tk toC toM dbl cnt base off s
  | .pf tk f base off => Sys2Proof.Machine.execPf tk f base off s
  | .badd h d a imm => Sys2Proof.Machine.execBadd h d a imm s
  | .bset h d imm => Sys2Proof.Machine.execBset h d imm s
  | .bsetH h d imm => Sys2Proof.Machine.execBsetH h d imm s
  | .bsetQ h d imm => Sys2Proof.Machine.execBsetQ h d imm s
  | .stq tk t6 base off => Sys2Proof.Machine.execStq tk t6 base off s
  | .stqs tk sz sd base off => Sys2Proof.Machine.execStqs tk sz sd base off s
  | .sts tk sz base off => Sys2Proof.Machine.execSts tk sz base off s
  | .stsa tk ty base off => Sys2Proof.Machine.execStsa tk ty base off s
  | .stpk tk sz reserve base off => Sys2Proof.Machine.execStpk tk sz reserve base off s
  | .stmq tk elem oc cp rl base off => Sys2Proof.Machine.execStmq tk elem oc cp rl base off s
  | .stmqSc tk dbl oc cp rl base off => Sys2Proof.Machine.execStmqSc tk dbl oc cp rl base off s
  | .stmqAdd tk ty oc cp rl base off => Sys2Proof.Machine.execStmqAdd tk ty oc cp rl base off s
  | .bput tk base off => Sys2Proof.Machine.execBput tk base off s
  | .bputErrorResponse k => Sys2Proof.Machine.execBputErrorResponse k s
  | .vmov c d a => Sys2Proof.Machine.execVmov c d a s
  | .vmovi h ty d imm => Sys2Proof.Machine.execVmovi h ty d imm s
  | .vidx h ty d stride imm => Sys2Proof.Machine.execVidx h ty d stride imm s
  | .vbcast c d a b => Sys2Proof.Machine.execVbcast c d a b s
  | .vbcastQ c d => Sys2Proof.Machine.execVbcastQ c d s
  | .vadd c d a b => Sys2Proof.Machine.execVadd c d a b s
  | .vsub c d a b => Sys2Proof.Machine.execVsub c d a b s
  | .vmul c d a b => Sys2Proof.Machine.execVmul c d a b s
  | .vfma c d a b x => Sys2Proof.Machine.execVfma c d a b x s
  | .vfms c d a b x => Sys2Proof.Machine.execVfms c d a b x s
  | .vmin c d a b => Sys2Proof.Machine.execVmin c d a b s
  | .vmax c d a b => Sys2Proof.Machine.execVmax c d a b s
  | .vabs c d a => Sys2Proof.Machine.execVabs c d a s
  | .vneg c d a => Sys2Proof.Machine.execVneg c d a s
  | .vadds c d a b => Sys2Proof.Machine.execVadds c d a b s
  | .vsubs c d a b => Sys2Proof.Machine.execVsubs c d a b s
  | .vmulh c d a b => Sys2Proof.Machine.execVmulh c d a b s
  | .vand c d a b => Sys2Proof.Machine.execVand c d a b s
  | .vor c d a b => Sys2Proof.Machine.execVor c d a b s
  | .vxor c d a b => Sys2Proof.Machine.execVxor c d a b s
  | .vshl c d a b => Sys2Proof.Machine.execVshl c d a b s
  | .vshr c d a b => Sys2Proof.Machine.execVshr c d a b s
  | .vsra c d a b => Sys2Proof.Machine.execVsra c d a b s
  | .vwmul c k4 d a b => Sys2Proof.Machine.execVwmul c k4 d a b s
  | .vwadd c k4 d a b => Sys2Proof.Machine.execVwadd c k4 d a b s
  | .vnarrow c k4 d a => Sys2Proof.Machine.execVnarrow c k4 d a s
  | .vcvt c dst d a => Sys2Proof.Machine.execVcvt c dst d a s
  | .vcmp c fn andCm a b => Sys2Proof.Machine.execVcmp c fn andCm a b s
  | .vclass c cls neg pos a => Sys2Proof.Machine.execVclass c cls neg pos a s
  | .vsel c d a b => Sys2Proof.Machine.execVsel c d a b s
  | .vperm c d a x => Sys2Proof.Machine.execVperm c d a x s
  | .vshuf c d a b x => Sys2Proof.Machine.execVshuf c d a b x s
  | .vrot c d a b => Sys2Proof.Machine.execVrot c d a b s
  | .vslide c d a b x => Sys2Proof.Machine.execVslide c d a b x s
  | .vred c fn d a => Sys2Proof.Machine.execVred c fn d a s
  | .vany c fn d => Sys2Proof.Machine.execVany c fn d s
  | .vcompress c d a => Sys2Proof.Machine.execVcompress c d a s
  | .vexpand c d a b => Sys2Proof.Machine.execVexpand c d a b s
  | .vconf c a => Sys2Proof.Machine.execVconf c a s
  | .vexp2 c d a => Sys2Proof.Machine.execVexp2 c d a s
  | .vlog2 c d a => Sys2Proof.Machine.execVlog2 c d a s
  | .vexp c d a => Sys2Proof.Machine.execVexp c d a s
  | .vlog c d a => Sys2Proof.Machine.execVlog c d a s
  | .vrcp c d a => Sys2Proof.Machine.execVrcp c d a s
  | .vrsqrt c d a => Sys2Proof.Machine.execVrsqrt c d a s
  | .vsqrt c d a => Sys2Proof.Machine.execVsqrt c d a s
  | .vtanh c d a => Sys2Proof.Machine.execVtanh c d a s
  | .vsigm c d a => Sys2Proof.Machine.execVsigm c d a s
  | .vorient2 w => Sys2Proof.Machine.execVorient2 w s
  | .vorient3 w => Sys2Proof.Machine.execVorient3 w s
  | .vincirc w => Sys2Proof.Machine.execVincirc w s
  | .vinsph w => Sys2Proof.Machine.execVinsph w s
  | .vsegx w => Sys2Proof.Machine.execVsegx w s
  | .vaccrd c d b => Sys2Proof.Machine.execVaccrd c d b s
  | .vaccwr c a b => Sys2Proof.Machine.execVaccwr c a b s
  | .vtoix c a => Sys2Proof.Machine.execVtoix c a s
  | .vtol c a => Sys2Proof.Machine.execVtol c a s
  | .vtos c a => Sys2Proof.Machine.execVtos c a s
  | .emsave h d fromCm => Sys2Proof.Machine.execEmsave h d fromCm s
  | .emrest h a => Sys2Proof.Machine.execEmrest h a s
  | .emcomb h op a => Sys2Proof.Machine.execEmcomb h op a s
  | .vspill tk a => Sys2Proof.Machine.execVspill tk a s
  | .vfill tk d a => Sys2Proof.Machine.execVfill tk d a s
  | .mclaim tk slots tile => Sys2Proof.Machine.execMclaim tk slots tile s
  | .mrel tk slots tile => Sys2Proof.Machine.execMrel tk slots tile s
  | .mzero tk acc qmask => Sys2Proof.Machine.execMzero tk acc qmask s
  | .mma w => Sys2Proof.Machine.execMma w s
  | .mmaq w fn => Sys2Proof.Machine.execMmaq w fn s
  | .mmas w pat voff => Sys2Proof.Machine.execMmas w pat voff s
  | .mmag w => Sys2Proof.Machine.execMmag w s
  | .matrixGrant die => Sys2Proof.Machine.execMatrixGrant die s
  | .mnset tk rec => Sys2Proof.Machine.execMnset tk rec s
  | .mnest tk => Sys2Proof.Machine.execMnest tk s
  | .mdrain tk acc fn => Sys2Proof.Machine.execMdrain tk acc fn s
  | .mpload tk w n1 => Sys2Proof.Machine.execMpload tk w n1 s
  | .mpbind tk pat ta => Sys2Proof.Machine.execMpbind tk pat ta s
  | .mtog tk => Sys2Proof.Machine.execMtog tk s
  | .boundOpcode n e h d a b imm => Sys2Proof.Machine.execBoundOpcode n e h d a b imm s
  | .resultLands r k => Sys2Proof.Machine.execResultLands r k s
  | .tokenPush r k => Sys2Proof.Machine.execTokenPush r k s
  | .send r => Sys2Proof.Machine.execSend r s
  | .recv r => Sys2Proof.Machine.execRecv r s
  | .rrs r => Sys2Proof.Machine.execRrs r s
  | .collCopy r => Sys2Proof.Machine.execCollCopy r s
  | .collWait r => Sys2Proof.Machine.execCollWait r s
  | .collLoop r => Sys2Proof.Machine.execCollLoop r s
  | .collEndl r => Sys2Proof.Machine.execCollEndl r s
  | .reduce r => Sys2Proof.Machine.execReduce r s
  | .collEnd r => Sys2Proof.Machine.execCollEnd r s
  | .collMessageArrive die m => Sys2Proof.Machine.execCollMessageArrive die m s
  | .collTimeout r => Sys2Proof.Machine.execCollTimeout r s
  | .abortReceive die a => Sys2Proof.Machine.execAbortReceive die a s
  | .abortAck die a => Sys2Proof.Machine.execAbortAck die a s
  | .switchFailure r => Sys2Proof.Machine.execSwitchFailure r s
  | .remoteResponse id reply => Sys2Proof.Machine.execRemoteResponse id reply s
  | .remoteTimeout id => Sys2Proof.Machine.execRemoteTimeout id s
  | .portDown port lost => Sys2Proof.Machine.execPortDown port lost s
  | .epnerFlitReceive port ok => Sys2Proof.Machine.execEpnerFlitReceive port ok s
  | .hostCompletion id reply => Sys2Proof.Machine.execHostCompletion id reply s
  | .hostCompletionTimeout id => Sys2Proof.Machine.execHostCompletionTimeout id s
  | .pullDataArrive die k reply => Sys2Proof.Machine.execPullDataArrive die k reply s
  | .pullAttemptTimeout die k => Sys2Proof.Machine.execPullAttemptTimeout die k s
  | .pullGiveUp die k => Sys2Proof.Machine.execPullGiveUp die k s
  | .invalidationComplete k => Sys2Proof.Machine.execInvalidationComplete k s
  | .strandDispatch part launch r => Sys2Proof.Machine.execStrandDispatch part launch r s
  | .launchComplete part launch => Sys2Proof.Machine.execLaunchComplete part launch s
  | .strandResume r k => Sys2Proof.Machine.execStrandResume r k s
  | .resourceRestore r res => Sys2Proof.Machine.execResourceRestore r res s
  | .mailboxGo part r => Sys2Proof.Machine.execMailboxGo part r s
  | .regionReread die => Sys2Proof.Machine.execRegionReread die s
  | .grantWindowStart die => Sys2Proof.Machine.execGrantWindowStart die s
  | .faultTailWrite part tail => Sys2Proof.Machine.execFaultTailWrite part tail s
  | .watchdog w => Sys2Proof.Machine.execWatchdog w s
  | .errorLogDrain log => Sys2Proof.Machine.execErrorLogDrain log s
  | .patrolScrub addr => Sys2Proof.Machine.execPatrolScrub addr s
  | .cellTestComplete cell pass => Sys2Proof.Machine.execCellTestComplete cell pass s
  | .create req => Sys2Proof.Machine.execCreate req s
  | .fwcommit verified => Sys2Proof.Machine.execFwcommit verified s
  | .fabric table => Sys2Proof.Machine.execFabric table s
  | .barAccessError fn isRead => Sys2Proof.Machine.execBarAccessError fn isRead s
  | .registerWrite fn bar off size v => Sys2Proof.Machine.execRegisterWrite fn bar off size v s
  | .coldReset b => Sys2Proof.Machine.execColdReset b s
  | .warmReset linkUp b => Sys2Proof.Machine.execWarmReset linkUp b s
  | .thermalThrottle die => Sys2Proof.Machine.execThermalThrottle die s
  | .thermalShutdown die => Sys2Proof.Machine.execThermalShutdown die s
  | .accessPerform r k c => Sys2Proof.Machine.execAccessPerform r k c s
  | .remoteRequestArrive q => Sys2Proof.Machine.execRemoteRequestArrive q s
  | .bputRowArrive k => Sys2Proof.Machine.execBputRowArrive k s
  | .abortGiveUp r child => Sys2Proof.Machine.execAbortGiveUp r child s
  | .inFabricGrant r granted result => Sys2Proof.Machine.execInFabricGrant r granted result s
  | .telemetryAlarm x => Sys2Proof.Machine.execTelemetryAlarm x s
  | .ret => Sys2Proof.Machine.execRet s
  | .loopEndReached => Sys2Proof.Machine.execLoopEndReached s
  | .waitTrig => Sys2Proof.Machine.execWaitTrig s
  | .waitCpy => Sys2Proof.Machine.execWaitCpy s
  | .waitColl => Sys2Proof.Machine.execWaitColl s
  | .waitFlagPoll => Sys2Proof.Machine.execWaitFlagPoll s
  | .waitConditionTrue => Sys2Proof.Machine.execWaitConditionTrue s
  | .yield => Sys2Proof.Machine.execYield s
  | .trig => Sys2Proof.Machine.execTrig s
  | .exit => Sys2Proof.Machine.execExit s
  | .sbar => Sys2Proof.Machine.execSbar s
  | .overlayRefill => Sys2Proof.Machine.execOverlayRefill s
  | .rpsPush => Sys2Proof.Machine.execRpsPush s
  | .branchOutcome => Sys2Proof.Machine.execBranchOutcome s
  | .storeDataStage => Sys2Proof.Machine.execStoreDataStage s
  | .predicateComplete => Sys2Proof.Machine.execPredicateComplete s
  | .mclaimRetry => Sys2Proof.Machine.execMclaimRetry s
  | .nestStep => Sys2Proof.Machine.execNestStep s
  | .productWordComplete => Sys2Proof.Machine.execProductWordComplete s
  | .microStep => Sys2Proof.Machine.execMicroStep s
  | .placementLoad => Sys2Proof.Machine.execPlacementLoad s
  | .strandEnd => Sys2Proof.Machine.execStrandEnd s
  | .blockSwitch => Sys2Proof.Machine.execBlockSwitch s
  | .blockTimeExpiry => Sys2Proof.Machine.execBlockTimeExpiry s
  | .sliceExpiry => Sys2Proof.Machine.execSliceExpiry s
  | .preemptionRequest => Sys2Proof.Machine.execPreemptionRequest s
  | .lullStop => Sys2Proof.Machine.execLullStop s
  | .forcedSave => Sys2Proof.Machine.execForcedSave s
  | .energyPeriodStart => Sys2Proof.Machine.execEnergyPeriodStart s
  | .faultDeliver => Sys2Proof.Machine.execFaultDeliver s
  | .faultHandlerComplete => Sys2Proof.Machine.execFaultHandlerComplete s
  | .scrubComplete => Sys2Proof.Machine.execScrubComplete s
  | .usageRecordEmit => Sys2Proof.Machine.execUsageRecordEmit s
  | .sealComplete => Sys2Proof.Machine.execSealComplete s
  | .teardown => Sys2Proof.Machine.execTeardown s
  | .mgmtInval => Sys2Proof.Machine.execMgmtInval s
  | .logread => Sys2Proof.Machine.execLogread s
  | .mack => Sys2Proof.Machine.execMack s
  | .mfetch => Sys2Proof.Machine.execMfetch s
  | .attest => Sys2Proof.Machine.execAttest s
  | .fwstage => Sys2Proof.Machine.execFwstage s
  | .cap => Sys2Proof.Machine.execCap s
  | .celltest => Sys2Proof.Machine.execCelltest s
  | .telem => Sys2Proof.Machine.execTelem s
  | .mgmtCommandComplete => Sys2Proof.Machine.execMgmtCommandComplete s
  | .standbyPowerLoss => Sys2Proof.Machine.execStandbyPowerLoss s

end Sys2Proof.Machine
end

