-- ==== Sys2Proof/Machine/Tick.lean ====
section
/-! DEFINITION. Time passing (R16, R401, R418, R433): the clock, the counts that follow it, and the units that act as it
passes without an event of their own in the opcode table.
-/

namespace Sys2Proof.Machine

/-! ## Strands -/

/-- The time of an engine counts towards its watchdog (R418): it is not stopped at the end of its work, C is not at a
`wait`, no access of it is away, and M has not just begun to wait for a grant. -/
def idleCounts (s : State) (st : Strand) (e : Eng) : Bool :=
  let en := getEng st e
  en.stop != .atExit && en.stop != .atLull && !(e == .c && st.wait.isSome) &&
    !(st.accs.any fun a => a.eng == e && awayHome a.home && !isFence a.kind) &&
    !(e == .m && match st.grant with | some g => !g.granted && decide (s.clock < g.since + 32000) | none => false)

/-- An engine that has words to issue and stands at the edge of the slip window. -/
def slipStalled (st : Strand) (e : Eng) : Bool := (getEng st e).stop == .no && !slipOk st e

/-- A resident strand after `n` cycles: SCC unless it is frozen, idle times and slip stalls while it holds its block, and
the time since which it is ready (R341, R386, R401, R403, R418). -/
def strandTime (s : State) (n : Nat) (st : Strand) : Strand :=
  let st := if st.frozen then st else { st with scc := st.scc + BitVec.ofNat 64 n }
  let st := if readyStrand s st && !st.block then st else { st with readySince := s.clock + n }
  if !st.block || st.frozen || regionPaused s st then st
  else
    let stalled := ((maskEngs st).filter (slipStalled st)).length
    let pulling := s.dies.toList.any fun d => d.pulls.any fun p => p.part == st.part
    let st := perfAdd st 0x02 (n * stalled)
    if pulling then st
    else (maskEngs st).foldl (fun st e =>
      if idleCounts s st e then modEng st e fun en => { en with idle := en.idle + n } else st) st

/-- The copies of a cell after `n` cycles: the time counts towards their watchdog while their strand holds its block and they
wait neither for a pull nor for an answer from outside the package (R418). -/
def copyTime (s : State) (n cell : Nat) (c : Cell) : Cell :=
  let waits (part : Nat) : Bool :=
    (s.dies.toList.any fun d => d.pulls.any fun p => p.part == part) || s.hub.away.any fun u => u.req.part == part
  let counts (run : CopyRun) : Bool :=
    !run.faulted && !waits run.cmd.part && s.strands.any fun x =>
      x.1 / 4 == cell && x.2.uid == run.cmd.uid && x.2.block && !x.2.frozen && !regionPaused s x.2
  { c with chans := c.chans.map fun x => x.map fun run => if counts run then { run with idle := run.idle + n } else run }

/-! ## Usage (R433) -/

/-- Adds `x` to a counter in units of `unit` through its fraction. -/
def carry (frac x unit : Nat) : Nat × Nat := ((frac + x) / unit, (frac + x) % unit)

/-- What a partition owns for `n` cycles. -/
def usageTime (s : State) (n part : Nat) (p : Partition) : Partition :=
  let owned (f : Cell → Option Nat) : Nat := (s.cells.filter fun c => f c.2 == some part).length
  let hbm := (p.frames.filter fun f => decide (f < Config.secondBase / Config.frameSize)).length
  let a := carry p.auFrac (n * owned (·.au)) 4000
  let v := carry p.vFrac (n * owned (·.vu)) 4000
  let m := carry p.mFrac (n * owned (·.mu)) 4000
  let h := carry p.hbmFrac (n * hbm) 4000000
  let t := carry p.stFrac (n * (p.frames.length - hbm)) 4000000
  let c := p.counters
  { p with auFrac := a.2, vFrac := v.2, mFrac := m.2, hbmFrac := h.2, stFrac := t.2,
           counters := { c with auus := c.auus + a.1, vus := c.vus + v.1, mus := c.mus + m.1,
                                hbmfms := c.hbmfms + h.1, stfms := c.stfms + t.1 } }

/-! ## The step -/

/-- Time passes by `n` cycles: the clock and what is counted with it, the scrub under way, the collective engines' command
queues, calls and counter updates that wait, prefetches, requests that leave the package and pulls between attempts. -/
def tickClock (s : State) (n : Nat) : State :=
  let strand (x : Nat × Strand) : Nat × Strand := (x.1, strandTime s n x.2)
  let part (x : Nat × Partition) : Nat × Partition :=
    (x.1, if accounted x.2.st then usageTime s n x.1 x.2 else x.2)
  let cell (x : Nat × Cell) : Nat × Cell := (x.1, copyTime s n x.1 x.2)
  let s := { s with clock := s.clock + n, strands := s.strands.map strand, cells := s.cells.map cell,
                    hub := { s.hub with parts := s.hub.parts.map part, scrubs := advanceScrub n s.hub.scrubs } }
  attemptAll (departAll (runPrefetches (pumpAdds (pumpCalls (pumpAll s)))))

end Sys2Proof.Machine
end

