-- ==== Sys2Proof/Machine/Schedule.lean ====
section
/-! DEFINITION. Who makes the next step (log entry 1). The schedule is input data of the model; when it is empty the
actors of the resident strands take turns in a fixed rotation, with time passing once in each round.
-/

namespace Sys2Proof.Machine

/-- An event that concerns no strand. -/
def unitEvent (i : Instr) : Actor := .event ⟨0, 0, .c⟩ i

/-- Large resources of a strand that are saved and not yet restored (R136). -/
def savedRes (st : Strand) : List LargeRes :=
  (((List.range 32).filter fun n =>
      let x := getOm st (BitVec.ofNat 5 n)
      x.state != .notHeld && x.phys.isNone).map fun n => .om (BitVec.ofNat 5 n)) ++
  (((List.range 16).filter fun n =>
      let x := getAcc st (BitVec.ofNat 4 n)
      x.held && x.phys.isNone).map fun n => .acc (BitVec.ofNat 4 n)) ++
  (((List.range 64).filter fun n => st.vOut.getLsbD n).map fun n => .v (BitVec.ofNat 6 n))

/-- The steps that a resident strand's own work can call for. -/
def strandActors (k : Nat) (st : Strand) : List Actor :=
  let r : SRef := ⟨k / 4, k % 4⟩
  let w : Walker := ⟨r.cell, r.slot, .c⟩
  (maskEngs st).map (fun e => Actor.engine { w with eng := e }) ++
  [.storeDataStage, .branchOutcome, .rpsPush, .nestStep, .productWordComplete, .predicateComplete, .mclaimRetry,
   .waitFlagPoll, .waitConditionTrue, .faultDeliver, .strandEnd, .lullStop, .forcedSave, .overlayRefill, .placementLoad,
   .blockTimeExpiry, .blockSwitch, .sliceExpiry, .preemptionRequest, .barrierComplete st.part st.sid.launch].map
     (Actor.event w) ++
  (if (getEng st .s).micro.isSome then [.event { w with eng := .s } .microStep] else []) ++
  (maskEngs st).map (fun e => .event w (.watchdog (.engine { w with eng := e }))) ++
  (savedRes st).map (fun x => .event w (.resourceRestore r x)) ++
  st.fills.map (fun f => .event w (.omfillComplete r f.om.toNat)) ++
  st.accs.map (fun a => .event w (.accessPerform r a.id .pass)) ++
  (List.range st.pending.length).map (fun i => .event w (.resultLands r i)) ++
  (List.range 48).filterMap (fun i =>
    match (getTok st.tok (i / 8))[i % 8]? with
    | some p => if p.filled then none else some (.event w (.tokenPush r i))
    | none => none)

/-- The steps that a cell's copy engine can take. -/
def cellActors (k : Nat) : List Actor :=
  unitEvent (.copyStart k) :: (List.range 16).flatMap fun ch =>
    [unitEvent (.copyComplete k ch), unitEvent (.watchdog (.channel k ch))]

/-- The steps of a die: its energy windows, its regions, its heat and the pulls that have gone on too long. -/
def dieActors (s : State) (d : Nat) : List Actor :=
  [.grantWindowStart d, .matrixGrant d, .regionReread d, .thermalThrottle d, .thermalShutdown d].map unitEvent ++
  (List.range (getDie s d).pulls.length).flatMap fun k =>
    [unitEvent (.pullAttemptTimeout d k), unitEvent (.pullGiveUp d k)]

/-- The steps that a collective can take. -/
def collActors (p : CRef × CollSlot) : List Actor :=
  let r := p.1
  [.recv r, .rrs r, .collCopy r, .reduce r, .send r, .collWait r, .collLoop r, .collEndl r, .collEnd r,
   .collTimeout r].map unitEvent ++
  p.2.aborts.flatMap fun a => a.children.map fun c => unitEvent (.abortGiveUp r c)

/-- What travels to this package arrives. -/
def netActors (s : State) : List Actor :=
  s.hub.net.filterMap fun m =>
    match m with
    | .coll _ pkg die x => if pkg = ownPkg s then some (unitEvent (.collMessageArrive die x)) else none
    | .abort pkg die a => if pkg = ownPkg s then some (unitEvent (.abortReceive die a)) else none
    | .ack pkg die a => if pkg = ownPkg s then some (unitEvent (.abortAck die a)) else none
    | _ => none

/-- The scheduler's steps for a partition: launches to place or to complete, strands to resume, mailboxes to start. -/
def partActors (s : State) (p : Nat) (x : Partition) : List Actor :=
  let slots := allSlotRefs.filter fun r => slotOf s p r
  (x.launches.filter fun l => !l.complete).flatMap (fun l =>
    unitEvent (.launchComplete p l.number) ::
      (if undispatched l then slots.map fun r => unitEvent (.strandDispatch p l.number r) else [])) ++
  (List.range (departedOf s p).length).flatMap (fun k => slots.map fun r => unitEvent (.strandResume r k)) ++
  ((getFn s p).boxes.filter fun b => b.2.go).map fun b => unitEvent (.mailboxGo p ⟨b.1 / 4, b.1 % 4⟩)

/-- The steps of the hub. -/
def hubActors (s : State) : List Actor :=
  [.energyPeriodStart, .faultHandlerComplete, .usageRecordEmit, .sealComplete, .scrubComplete,
   .mgmtCommandComplete].map unitEvent ++
  (List.range s.hub.invals.length).map (fun k => unitEvent (.invalidationComplete k)) ++
  s.hub.remotes.flatMap (fun q => [unitEvent (.remoteTimeout q.id), unitEvent (.hostCompletionTimeout q.id)]) ++
  s.hub.away.flatMap (fun q => [unitEvent (.remoteTimeout q.id), unitEvent (.hostCompletionTimeout q.id)]) ++
  (List.range s.hub.bputs.length).flatMap fun i => [unitEvent (.bputRowArrive i), unitEvent (.bputErrorResponse i)]

/-- The rotation of the default policy. -/
def actors (s : State) : List Actor :=
  .tick 1 :: s.strands.flatMap (fun p => strandActors p.1 p.2) ++ s.cells.flatMap (fun p => cellActors p.1) ++
    (List.range 4).flatMap (dieActors s) ++ (allSlots s).flatMap collActors ++ netActors s ++
    s.hub.parts.flatMap (fun p => partActors s p.1 p.2) ++ hubActors s

/-- The next actor: the head of the schedule, or the next of the rotation. -/
def nextActor (s : State) : Actor × State :=
  match s.schedule with
  | a :: rest => (a, { s with schedule := rest })
  | [] =>
    let l := actors s
    (l.getD (s.turn % l.length) (.tick 1), { s with turn := s.turn + 1 })

/-! ## Placing one instruction (the host's question) -/

/-- The engine that executes a word first: its TAG's, or C for a structural word. -/
def firstEng (w : Word) : Eng :=
  match wordTag w with
  | 1 => .l | 2 => .v | 3 => .m | 4 => .s | _ => .c

/-- A state in which the word stands at index 0 of a window of the service partition on cell 0, with a strand of all
five engines in slot 0 that holds its block (log entry 20). -/
def placeWord (s : State) (w : Word) : State :=
  let st : Strand := { emask := 0b11111, block := true }
  let c : Context := { win := Config.windowPerSlot, imem := fset [] 0 w }
  let s := putStrand s ⟨0, 0⟩ st
  let s := putCtx s 0 0 c
  { s with schedule := [.engine ⟨0, 0, firstEng w⟩] }

end Sys2Proof.Machine
end

