-- ==== Sys2Proof/Machine/Upset.lean ====
section
/-! DEFINITION. Hardware faults that come from outside the model's state (R415 to R417; log entry 80): an uncorrectable error
in a unit that carries poison, and the mismatch that a residue check or C's compare finds in what an engine does.
-/

namespace Sys2Proof.Machine

open Host (Outcome)

/-! ## Errors that nothing has detected (R415) -/

/-- The units that carry poison: the g, a, b and v registers among the registers, and what is held. -/
def decayReg : Reg → Bool
  | .g n => n != 0
  | .a _ | .b _ | .v _ => true
  | _ => false

/-- An entry of a queue takes an error, unless it is poisoned already. -/
def decaySq (x : SqEntry) : SqEntry := if x.poison then x else { x with poison := true, fresh := true }

def decayLq (x : LqEntry) : LqEntry := if x.poison || !x.filled then x else { x with poison := true, fresh := true }

/-- A unit takes an uncorrectable error that nothing has detected. A poisoned unit stays as it is. -/
def decayUnit (s : State) : PUnit → State
  | .reg uid r => modByUid s uid fun st =>
      if decayReg r && !st.poisoned.contains r then { st with poisoned := r :: st.poisoned, fresh := r :: st.fresh } else st
  | .slot uid n => modByUid s uid fun st =>
      let x := getOm st (BitVec.ofNat 5 n)
      if x.state == .notHeld || x.poison then st else putOm st (BitVec.ofNat 5 n) { x with poison := true, fresh := true }
  | .tile uid n => modByUid s uid fun st =>
      let x := getAcc st (BitVec.ofNat 4 n)
      if !x.held || x.poison then st else putAcc st (BitVec.ofNat 4 n) { x with poison := true, fresh := true }
  | .row cell r =>
      if 4096 ≤ r || (getCell s cell).spmPoison.contains r then s
      else modCell s cell fun c => { c with spmPoison := insertNew c.spmPoison r, spmFresh := insertNew c.spmFresh r }
  | .lq uid i => modByUid s uid fun st => { st with lq := st.lq.modify i decayLq }
  | .sq uid i => modByUid s uid fun st => { st with sq := st.sq.modify i decaySq }

/-! ## Mismatches (R417) -/

/-- Every register that LAT governs. -/
def allRegs : List Reg :=
  (List.range 32).map (fun n => .g (BitVec.ofNat 5 n)) ++ (List.range 16).map (fun n => .a (BitVec.ofNat 4 n)) ++
    (List.range 16).map (fun n => .b (BitVec.ofNat 4 n)) ++ (List.range 64).map (fun n => .v (BitVec.ofNat 6 n)) ++
    (List.range 16).map (fun n => .sd (BitVec.ofNat 4 n)) ++ [.em, .cm] ++ (List.range 6).map fun n => .mk (Fin.ofNat 6 n)

/-- The work that took strand `a` to strand `b` has written the register, or has a result on its way there. -/
def wroteReg (a b : Strand) (r : Reg) : Bool :=
  regBits a r != regBits b r || b.pending.any fun p => p.reg == r && !a.pending.contains p

/-- Strand `a` with every destination of the work that would have made it `b` poisoned; the other effects are dropped. A
result on its way to such a register lands poisoned. -/
def poisonWritten (a b : Strand) : Strand :=
  { a with
    pending := a.pending.map fun p => if wroteReg a b p.reg then { p with poison := true } else p
    poisoned := a.poisoned ++ (allRegs.filter (wroteReg a b)).filter fun r => !a.poisoned.contains r
    om := Vector.ofFn fun (i : Fin 32) =>
      if a.om.get i != b.om.get i && (a.om.get i).state != .notHeld then { a.om.get i with poison := true } else a.om.get i
    acc := Vector.ofFn fun (i : Fin 16) =>
      if a.acc.get i != b.acc.get i && (a.acc.get i).held then { a.acc.get i with poison := true } else a.acc.get i
    lq := a.lq ++ (b.lq.drop a.lq.length).map fun x => { x with poison := true }
    sq := a.sq ++ (b.sq.drop a.sq.length).map fun x => { x with poison := true } }

/-- The scratchpad rows of a cell that differ. -/
def rowsWritten (c d : Cell) : List Nat :=
  ((c.spm.filter fun x => !d.spm.contains x) ++ d.spm.filter fun x => !c.spm.contains x).map fun x => x.1 / 512

/-- The lines of memory that stores new in `b` would have written; a word of memory carries poison with its line (R415). -/
def linesWritten (a b : Strand) : List Nat :=
  (b.accs.filter fun x => x.kind == .store && homeLocal x.home && !(a.accs.any fun y => y.id == x.id)).flatMap fun x =>
    linesOf x.pa x.size

/-- The state before work of a strand that a check has stopped, with the work's destinations poisoned. -/
def stopWork (before after : State) (r : SRef) (a b : Strand) : State :=
  let rows := rowsWritten (getCell before r.cell) (getCell after r.cell)
  let s := modCell before r.cell fun c => { c with spmPoison := rows.foldl insertNew c.spmPoison }
  let s := modHub s fun h => { h with linePoison := (linesWritten a b).foldl insertNew h.linePoison }
  putStrand s r (poisonWritten a b)

/-- The mismatch that waits for an engine: whether an address adder or the engine's own check finds it. -/
def armed (s : State) (w : Walker) : Option Bool :=
  s.upsets.findSome? fun u => match u with | .engine v adder => if v = w then some adder else none | .coll _ => none

/-- The trap of a mismatch (R406): C's compare has DETAIL 4, every residue check 3. -/
def upsetTrap (e : Eng) (adder : Bool) : Trap :=
  { cause := .uncorrectable, detail := if e = .c && !adder then 4 else 3 }

/-- What an engine has done, unless a mismatch waits for it: then the work is stopped and UNCORRECTABLE raised as `raise`
does. Work that has not moved the strand, or has ended in a fault, leaves the mismatch to come. -/
def strike (before : State) (w : Walker) (raise : State → Trap → State) (o : Outcome State Fault Refusal) :
    Outcome State Fault Refusal :=
  match armed before w, o with
  | some adder, .next after =>
    (match getStrand before (Walker.ref w), getStrand after (Walker.ref w) with
     | some a, some b =>
       if b.frozen || a == b then o
       else
         let s := stopWork before after (Walker.ref w) (settle before.clock a) b
         .next (raise { s with upsets := s.upsets.erase (.engine w adder) } (upsetTrap w.eng adder))
     | _, _ => o)
  | _, _ => o

/-- The events that carry on an engine's work behind its program counter: the engine, and how its fault is raised. -/
def lateWork (s : State) (w : Walker) (i : Instr) : Option (Walker × (State → Trap → State)) :=
  let r := Walker.ref w
  match getStrand s r with
  | none => none
  | some st =>
    match i with
    | .storeDataStage => (nextStore st).map fun x => ({ w with eng := .s }, fun s t => raiseLate s r .s x.index t)
    | .nestStep => st.nest.map fun n => ({ w with eng := .m }, fun s t =>
        match getStrand s r with | some q => raiseNest s r q n n.step t | none => s)
    | .predicateComplete => st.pred.map fun p => ({ w with eng := .v }, fun s t =>
        raiseLate (modStrand s r fun q => { q with pred := none }) r .v p.index t)
    | .microStep => (getEng st w.eng).micro.map fun m => (w, fun s t =>
        if w.eng = .s then raiseLate s r .s m.index t else raiseWord s w t)
    | _ => none

/-- An event, with a mismatch in an engine's work that it carries on. -/
def strikeEvent (s : State) (w : Walker) (i : Instr) (o : Outcome State Fault Refusal) : Outcome State Fault Refusal :=
  match s.upsets, lateWork s w i with
  | [], _ => o
  | _, some (v, raise) => strike s v raise o
  | _, none => o

end Sys2Proof.Machine
end

