-- ==== Sys2Proof/Machine/Step.lean ====
section
/-! DEFINITION. One step of the package: the next actor of the schedule moves.
-/

namespace Sys2Proof.Machine

open Host (Outcome)

/-- The turn of an engine, with `exec` for the word it issues. -/
def stepEngine (s : State) (w : Walker) : Outcome State Fault Refusal :=
  let s := { s with cur := w }
  match turn s w with
  | .idle => .next s
  | .set st => .next (putStrand s (Walker.ref w) st)
  | .fault t => .next (raiseTurn s w t)
  | .loopEnd => exec .loopEndReached s
  | .micro => strike s w (fun s t => raiseWord s w t) (exec .microStep s)
  | .run i => strike s w (fun s t => raiseWord s w t) (exec i s)

def step (s : State) : Outcome State Fault Refusal :=
  match nextActor s with
  | (.tick n, s') => .next (tickClock s' n)
  | (.event w i, s') => strikeEvent { s' with cur := w } w i (exec i { s' with cur := w })
  | (.engine w, s') => stepEngine s' w
  | (.advance r id, s') => .next (advanceAccess s' r id)
  | (.upset u, s') => .next { s' with upsets := s'.upsets ++ [u] }
  | (.decay u, s') => .next (decayUnit s' u)

/-- The state with an instruction's word where the next step fetches it (log entry 20). Instruction words are 64
bits, so the bits from `nbits` up are zero. -/
def State.withFetchWord (s : State) (nbits w : Nat) : State := placeWord s (BitVec.ofNat 64 (w % 2 ^ nbits))

end Sys2Proof.Machine
end

