-- ==== Sys2Proof/Safety.lean ====
section
/-! DEFINITION. What counts as a safe run, and the terms in which claims speak of a strand: its state as a word finds
it, what a register will hold, what a word leaves as it was.
-/

namespace Sys2Proof

open Machine

/-- A step from the state answers a next state. -/
def SafeStep (s : State) : Prop := ∃ t, step s = .next t

/-- The machine takes k steps from the state without a stop. -/
def SafeRun : Nat → State → Prop
  | 0, _ => True
  | k + 1, s => ∃ t, step s = .next t ∧ SafeRun k t

/-! ## A strand as a word finds it -/

/-- The strand of the current walker with every result landed whose bound has passed (R28). -/
def standing (s : State) : Option Strand := (getStrand s (Walker.ref s.cur)).map (settle s.clock)

/-- The current walker is the engine `e` of a resident strand, which a word finds as `st`. -/
def AtEngine (s : State) (e : Eng) (st : Strand) : Prop := s.cur.eng = e ∧ standing s = some st

/-- A register can be read: nothing is on its way to it, it is not poisoned, and it is in its register file (R28, R136,
R415). -/
def Readable (st : Strand) (r : Reg) : Prop :=
  regOut st r = false ∧ (∀ p ∈ st.pending, p.reg ≠ r) ∧ r ∉ st.poisoned

/-- The value of a C register. -/
def gNow (st : Strand) (n : BitVec 5) : Word := (regBits st (.g n)).setWidth 64

/-! ## Registers after the results on their way -/

/-- What a result on its way leaves of a register's value. -/
def landOne (r : Reg) (v : BitVec 4096) (p : Pending) : BitVec 4096 :=
  if p.reg = r then
    match p.val with
    | some x => (v &&& ~~~p.mask) ||| (x &&& p.mask)
    | none => v
  else v

/-- What a register holds once the results on their way that have a value have landed, oldest first (R28). -/
def latest (st : Strand) (r : Reg) : BitVec 4096 := st.pending.foldl (landOne r) (regBits st r)

def gLater (st : Strand) (n : BitVec 5) : Word := (latest st (.g n)).setWidth 64
def aLater (st : Strand) (n : BitVec 4) : Word := (latest st (.a n)).setWidth 64
def bLater (st : Strand) (n : BitVec 4) : Word := (latest st (.b n)).setWidth 64

/-- Every flag that a word of the strand has raised (R149 to R151). -/
def allFlags (st : Strand) : BitVec 6 := st.flagLog.foldl (fun x p => x ||| p.2) st.flags

/-! ## Frames -/

/-- A strand without its registers with their poison, the results on their way, flags, engines and counts. -/
def restOf (st : Strand) : Strand :=
  { st with g := Vector.replicate 32 0, a := Vector.replicate 16 0, b := Vector.replicate 16 0,
            v := Vector.replicate 64 0, sd := Vector.replicate 16 0, em := 0, cm := 0, saved := Vector.replicate 6 0,
            vWritten := 0, poisoned := [], fresh := [], pending := [], flags := 0, flagLog := [], engs := Vector.replicate 5 {},
            perf := Vector.replicate 16 0, free := 0 }

/-- Nothing outside the current strand changes but counts and charges: not memory, the cells with their scratchpads, the
contexts, the clock or any other strand. -/
def SameElsewhere (s t : State) : Prop :=
  t.mem = s.mem ∧ t.cells = s.cells ∧ t.ctxs = s.ctxs ∧ t.clock = s.clock ∧
    ∀ k, k ≠ SRef.key (Walker.ref s.cur) → fget t.strands k = fget s.strands k

/-- The other engines of the strand are as they were. -/
def SameOthers (e : Eng) (st u : Strand) : Prop := ∀ x, x ≠ e → getEng u x = getEng st x

/-! ## Completion -/

/-- The word completes at engine `e` and leaves the strand as `u` in the state `t`: the engine goes on to the next word
(R26, R317). -/
def Goes (i : Instr) (s : State) (st : Strand) (e : Eng) (t : State) (u : Strand) : Prop :=
  exec i s = .next t ∧ getStrand t (Walker.ref s.cur) = some u ∧ (getEng u e).pc = (getEng st e).pc + 1 ∧
    (getEng u e).passed = (getEng st e).passed + 1

end Sys2Proof
end

