-- ==== Sys2Proof/Certificates/Slice0/Obligations.lean ====
section
/-! DEFINITION. The statements about the GB2 for the provers: decoding, the step, each family of words with its results
and its frame, the events of the units, faults, reset, and what every step keeps.
-/

namespace Sys2Proof.Claims

open Sys2Proof Machine

/-- A word of C completes, writes `f` of the C registers to g(d), raises the flags `fl`, and changes nothing else but
counts and charges. A write to `g0` is discarded (R39, R319). -/
def GivesG (i : Instr) (d : BitVec 5) (srcs : List (BitVec 5)) (f : (BitVec 5 → Word) → Word)
    (fl : (BitVec 5 → Word) → BitVec 6 := fun _ => 0) : Prop :=
  ∀ s st, AtEngine s .c st → (∀ n ∈ srcs, Readable st (.g n)) →
    ∃ t u, Goes i s st .c t u ∧ (d ≠ 0 → gLater u d = f (gNow st)) ∧
      (∀ r, r ≠ .g d ∨ d = 0 → latest u r = latest st r) ∧ allFlags u = allFlags st ||| fl (gNow st) ∧
      restOf u = restOf st ∧ SameOthers .c st u ∧ SameElsewhere s t

/-- A word of C or tagged ALL completes at engine `e`, which goes on at `pc`; registers and all else of the strand but its
engines are as they were, and so is everything outside it but counts and charges. -/
def Jumps (i : Instr) (s : State) (st : Strand) (e : Eng) (pc : Nat) (t : State) (u : Strand) : Prop :=
  exec i s = .next t ∧ getStrand t (Walker.ref s.cur) = some u ∧ (getEng u e).pc = pc ∧
    (getEng u e).passed = (getEng st e).passed + 1 ∧ (∀ r, latest u r = latest st r) ∧ restOf u = restOf st ∧
    allFlags u = allFlags st ∧ SameElsewhere s t

/-- C has sent one record to the BQ of every other engine of the mask (R318), and the other engines are otherwise as they
were. -/
def Sends (x : BqRec) (st u : Strand) : Prop :=
  ∀ e, e ≠ .c → getEng u e = if inMask st e then { getEng st e with bq := (getEng st e).bq ++ [x] } else getEng st e

/-- No BQ is full. -/
def BqRoom (st : Strand) : Prop := ∀ e, e ≠ .c → inMask st e → (getEng st e).bq.length < 64

/-- The engine has a record at the head of its BQ and is not leaning. -/
def HasRecord (st : Strand) (e : Eng) (x : BqRec) (rest : List BqRec) : Prop :=
  e ≠ .c ∧ st.lean = none ∧ (getEng st e).bq = x :: rest

/-- The word raises a fault at engine `e` (R403, R404): the strand freezes and the fault is queued with its cause, its
FLTADDR, the engine and the word's index. L reports no fault while it leans (R121), and a fault inside a routine names the
bound word (R405). -/
def Traps (i : Instr) (s : State) (st : Strand) (e : Eng) (cause : Cause) (addr : Nat) : Prop :=
  (getEng st e).micro = none → (e = .l → st.lean = none) →
    ∃ t u q, exec i s = .next t ∧ getStrand t (Walker.ref s.cur) = some u ∧ u.frozen = true ∧
      u.faults = addFault st.faults q ∧ q.trap.cause = cause ∧ q.trap.addr = addr ∧ q.eng = Eng.code e ∧
      q.word = (getEng st e).pc

/-- 1 when a comparison holds, else 0. -/
def truth (p : Prop) [Decidable p] : Word := if p then 1 else 0

end Sys2Proof.Claims

open Sys2Proof Sys2Proof.Machine Sys2Proof.Claims

/-! ## Integer words of C -/

/-- R320: the R-format words of C give the results of its table. -/
def Sys2Proof.Claims.IntegerRegisterWords : Prop :=
  ∀ (lat : BitVec 4) (d a b c : BitVec 5),
    GivesG (.add lat d a b) d [a, b] (fun g => g a + g b) ∧
    GivesG (.sub lat d a b) d [a, b] (fun g => g a - g b) ∧
    GivesG (.mul lat d a b) d [a, b] (fun g => BitVec.ofNat 64 ((g a).toNat * (g b).toNat)) ∧
    GivesG (.mulh lat d a b) d [a, b]
      (fun g => ((g a).signExtend 128 * (g b).signExtend 128).extractLsb' 64 64) ∧
    GivesG (.mulhu lat d a b) d [a, b] (fun g => ((g a).setWidth 128 * (g b).setWidth 128).extractLsb' 64 64) ∧
    GivesG (.and lat d a b) d [a, b] (fun g => g a &&& g b) ∧
    GivesG (.or lat d a b) d [a, b] (fun g => g a ||| g b) ∧
    GivesG (.xor lat d a b) d [a, b] (fun g => g a ^^^ g b) ∧
    GivesG (.shl lat d a b) d [a, b] (fun g => g a <<< ((g b).toNat % 64)) ∧
    GivesG (.shr lat d a b) d [a, b] (fun g => g a >>> ((g b).toNat % 64)) ∧
    GivesG (.sra lat d a b) d [a, b] (fun g => (g a).sshiftRight ((g b).toNat % 64)) ∧
    GivesG (.min lat d a b) d [a, b] (fun g => if (g b).toInt < (g a).toInt then g b else g a) ∧
    GivesG (.max lat d a b) d [a, b] (fun g => if (g b).toInt < (g a).toInt then g a else g b) ∧
    GivesG (.minu lat d a b) d [a, b] (fun g => if (g b).toNat < (g a).toNat then g b else g a) ∧
    GivesG (.maxu lat d a b) d [a, b] (fun g => if (g b).toNat < (g a).toNat then g a else g b) ∧
    GivesG (.clz lat d a) d [a]
      (fun g => BitVec.ofNat 64 (((List.range 64).find? fun n => (g a).getLsbD (63 - n)).getD 64)) ∧
    GivesG (.popc lat d a) d [a] (fun g => BitVec.ofNat 64 ((List.range 64).countP fun n => (g a).getLsbD n)) ∧
    GivesG (.sel lat d a b c) d [a, b, c] (fun g => if g a = 0 then g c else g b) ∧
    GivesG (.cmp lat .eq d a b) d [a, b] (fun g => truth (g a = g b)) ∧
    GivesG (.cmp lat .ne d a b) d [a, b] (fun g => truth (g a ≠ g b)) ∧
    GivesG (.cmp lat .lt d a b) d [a, b] (fun g => truth ((g a).toInt < (g b).toInt)) ∧
    GivesG (.cmp lat .le d a b) d [a, b] (fun g => truth ((g a).toInt ≤ (g b).toInt)) ∧
    GivesG (.cmp lat .ltu d a b) d [a, b] (fun g => truth ((g a).toNat < (g b).toNat)) ∧
    GivesG (.cmp lat .leu d a b) d [a, b] (fun g => truth ((g a).toNat ≤ (g b).toNat))

/-- R321: quotient and remainder, truncated toward zero, with IDZ for a zero divisor. -/
def Sys2Proof.Claims.DivisionWords : Prop :=
  ∀ (lat : BitVec 4) (d a b : BitVec 5),
    let idz := fun g : BitVec 5 → Word => if g b = 0 then (0x20 : BitVec 6) else 0
    GivesG (.div lat d a b) d [a, b]
      (fun g => if g b = 0 then 0 else if (g a).toInt = -2 ^ 63 ∧ (g b).toInt = -1 then BitVec.ofInt 64 (-2 ^ 63)
        else BitVec.ofInt 64 ((g a).toInt.tdiv (g b).toInt)) idz ∧
    GivesG (.rem lat d a b) d [a, b]
      (fun g => if g b = 0 then g a else if (g a).toInt = -2 ^ 63 ∧ (g b).toInt = -1 then 0
        else BitVec.ofInt 64 ((g a).toInt - (g a).toInt.tdiv (g b).toInt * (g b).toInt)) idz ∧
    GivesG (.divu lat d a b) d [a, b]
      (fun g => if g b = 0 then 0 else BitVec.ofNat 64 ((g a).toNat / (g b).toNat)) idz ∧
    GivesG (.remu lat d a b) d [a, b]
      (fun g => if g b = 0 then g a else BitVec.ofNat 64 ((g a).toNat - (g a).toNat / (g b).toNat * (g b).toNat)) idz

/-- R322: the I-format words of C. -/
def Sys2Proof.Claims.IntegerImmediateWords : Prop :=
  ∀ (lat : BitVec 4) (d a : BitVec 5) (imm : BitVec 27) (n : BitVec 6),
    GivesG (.addi lat d a imm) d [a] (fun g => g a + imm.signExtend 64) ∧
    GivesG (.andi lat d a imm) d [a] (fun g => g a &&& imm.signExtend 64) ∧
    GivesG (.ori lat d a imm) d [a] (fun g => g a ||| imm.signExtend 64) ∧
    GivesG (.xori lat d a imm) d [a] (fun g => g a ^^^ imm.signExtend 64) ∧
    GivesG (.shi lat .shl d a n) d [a] (fun g => g a <<< n.toNat) ∧
    GivesG (.shi lat .shr d a n) d [a] (fun g => g a >>> n.toNat) ∧
    GivesG (.shi lat .sra d a n) d [a] (fun g => (g a).sshiftRight n.toNat) ∧
    GivesG (.li lat d imm) d [] (fun _ => imm.signExtend 64) ∧
    GivesG (.lih lat d a imm) d [a] (fun g => (0 : BitVec 10) ++ imm ++ (g a).extractLsb' 0 27) ∧
    GivesG (.cmpi lat .eq d a imm) d [a] (fun g => truth (g a = imm.signExtend 64)) ∧
    GivesG (.cmpi lat .ne d a imm) d [a] (fun g => truth (g a ≠ imm.signExtend 64)) ∧
    GivesG (.cmpi lat .lt d a imm) d [a] (fun g => truth ((g a).toInt < imm.toInt)) ∧
    GivesG (.cmpi lat .le d a imm) d [a] (fun g => truth ((g a).toInt ≤ imm.toInt)) ∧
    GivesG (.cmpi lat .ltu d a imm) d [a] (fun g => truth ((g a).toNat < (imm.signExtend 64).toNat)) ∧
    GivesG (.cmpi lat .leu d a imm) d [a] (fun g => truth ((g a).toNat ≤ (imm.signExtend 64).toNat))

/-! ## Branches, calls and loops -/

/-- R323: `br` and `brc` at C and at the engines that take C's record, `jr` likewise. The target of an offset counts from
the branch word. -/
def Sys2Proof.Claims.BranchWords : Prop :=
  ∀ s st e (off : BitVec 32) (target : Nat), AtEngine s e st →
    (target : Int) = (getEng st e).pc + off.toInt →
    (∃ t u, Jumps (.br off) s st e target t u ∧ SameOthers e st u) ∧
    (∀ c hint g, e = .c → Readable st (.g g) → BqRoom st →
      ∃ t u, Jumps (.brc c hint g off) s st .c (if bcond c (gNow st g) then target else (getEng st .c).pc + 1) t u ∧
        Sends (.taken (bcond c (gNow st g))) st u) ∧
    (∀ c hint g b rest, HasRecord st e (.taken b) rest →
      ∃ t u, Jumps (.brc c hint g off) s st e (if b then target else (getEng st e).pc + 1) t u ∧
        (getEng u e).bq = rest ∧ SameOthers e st u) ∧
    (∀ g, e = .c → Readable st (.g g) → BqRoom st → (gNow st g).toNat < 2 ^ 15 →
      (gNow st g).toNat < (getCtx s s.cur.cell st.part).win →
      ∃ t u, Jumps (.jr g) s st .c (gNow st g).toNat t u ∧ Sends (.target (gNow st g).toNat) st u) ∧
    (∀ g n rest, HasRecord st e (.target n) rest →
      ∃ t u, Jumps (.jr g) s st e n t u ∧ (getEng u e).bq = rest ∧ SameOthers e st u)

/-- R323: what each condition of `brc` tests, and that a `jr` beyond the window raises OPFIELD and sends no record. -/
def Sys2Proof.Claims.BranchConditions : Prop :=
  (∀ x : Word, (bcond .z x = true ↔ x = 0) ∧ (bcond .nz x = true ↔ x ≠ 0) ∧ (bcond .lt x = true ↔ x.toInt < 0) ∧
    (bcond .ge x = true ↔ 0 ≤ x.toInt) ∧ (bcond .gt x = true ↔ 0 < x.toInt) ∧ (bcond .le x = true ↔ x.toInt ≤ 0)) ∧
  (∀ s st g, AtEngine s .c st → Readable st (.g g) →
    (2 ^ 15 ≤ (gNow st g).toNat ∨ (getCtx s s.cur.cell st.part).win ≤ (gNow st g).toNat) →
    Traps (.jr g) s st .c .opField (gNow st g).toNat)

/-- R324: `call` and `ret` at every engine, with the return stack of 16 entries. -/
def Sys2Proof.Claims.CallWords : Prop :=
  ∀ s st e (off : BitVec 32) (target : Nat), AtEngine s e st →
    (target : Int) = (getEng st e).pc + off.toInt →
    ((getEng st e).ret.length < 16 →
      ∃ t u, Jumps (.call off) s st e target t u ∧ SameOthers e st u ∧
        (getEng u e).ret = ((getEng st e).pc + 1) :: (getEng st e).ret) ∧
    (16 ≤ (getEng st e).ret.length → Traps (.call off) s st e .opField 0) ∧
    ((getEng st e).ret = [] → Traps .ret s st e .opField 0) ∧
    (∀ n rest, (getEng st e).ret = n :: rest → n < (getCtx s s.cur.cell st.part).win →
      ∃ t u, Jumps .ret s st e n t u ∧ SameOthers e st u ∧ (getEng u e).ret = rest)

/-- R325, R326: a loop with a positive trip count opens an entry, one with none skips its body; C reads the count from a
register or takes it from RPQ, every other engine takes it from C's record. -/
def Sys2Proof.Claims.LoopWords : Prop :=
  ∀ s st e (off : BitVec 32) (stop n : Nat), AtEngine s e st → (stop : Int) = (getEng st e).pc + off.toInt →
    let opened := fun (i : Instr) (P : Strand → Prop) =>
      ((0 < n → (getEng st e).loops.length < 4 →
          ∃ t u, Jumps i s st e ((getEng st e).pc + 1) t u ∧ P u ∧
            (getEng u e).loops = ⟨(getEng st e).pc + 1, stop, n, (getEng st e).ret.length⟩ :: (getEng st e).loops) ∧
        (n = 0 → ∃ t u, Jumps i s st e stop t u ∧ P u ∧ (getEng u e).loops = (getEng st e).loops))
    (∀ g, e = .c → Readable st (.g g) → BqRoom st → (gNow st g).toInt.toNat = n →
      (gNow st g).toInt ≤ 0xFFFFFFFF → opened (.loop g off) (Sends (.trip n) st)) ∧
    (∀ g rest, HasRecord st e (.trip n) rest →
      opened (.loop g off) (fun u => (getEng u e).bq = rest ∧ SameOthers e st u) ∧
      opened (.loopr off) (fun u => (getEng u e).bq = rest ∧ SameOthers e st u)) ∧
    (∀ x rest, e = .c → BqRoom st → st.rpq = x :: rest → x.toC = true → x.diff.toNat = n → n ≤ 0xFFFFFFFF →
      ∃ t u, exec (.loopr off) s = .next t ∧ getStrand t (Walker.ref s.cur) = some u ∧
        u.rpq = (if x.toM then { x with toC := false } :: rest else rest) ∧ Sends (.trip n) st u ∧
        (0 < n → (getEng st e).loops.length < 4 → (getEng u e).pc = (getEng st e).pc + 1) ∧
        (n = 0 → (getEng u e).pc = stop))

/-- R326: at the end of the innermost loop an engine goes back to its start while passes remain, and otherwise pops the
entry. -/
def Sys2Proof.Claims.LoopEnd : Prop :=
  ∀ s st l rest, getStrand s (Walker.ref s.cur) = some st → (getEng st s.cur.eng).loops = l :: rest →
    (getEng st s.cur.eng).arrived = true → (getEng st s.cur.eng).pc = l.stop →
    (getEng st s.cur.eng).ret.length = l.depth →
    ∃ t u, exec .loopEndReached s = .next t ∧ getStrand t (Walker.ref s.cur) = some u ∧ t.mem = s.mem ∧
      SameOthers s.cur.eng st u ∧
      (1 < l.left → (getEng u s.cur.eng).pc = l.start ∧
        (getEng u s.cur.eng).loops = { l with left := l.left - 1 } :: rest) ∧
      (l.left ≤ 1 → (getEng u s.cur.eng).pc = l.stop ∧ (getEng u s.cur.eng).loops = rest)

/-- R327: `ploop` with N iterations starts its kernel at iteration 0 with only stage 0 live; a trip of 0 or less skips it. -/
def Sys2Proof.Claims.PipelinedLoop : Prop :=
  ∀ s st (stages : BitVec 3) (words : BitVec 2) (g : BitVec 5) (len : BitVec 6) (n : Nat), AtEngine s .c st →
    let ws := (List.range (words.toNat + 1)).map fun i =>
      (fetchWord (getCtx s s.cur.cell st.part) ((getEng st .c).pc + 1 + i)).toNat
    let first := (getEng st .c).pc + words.toNat + 2
    stagesOk ws (stages.toNat + 1) (len.toNat + 1) = true → (getEng st .c).clamped = none → Readable st (.g g) →
    BqRoom st → (gNow st g).toInt ≤ 0xFFFFFFFF → (gNow st g).toInt.toNat = n →
    (n = 0 → ∃ t u, Jumps (.ploop stages words g len) s st .c (first + len.toNat + 1) t u ∧ Sends (.trip 0) st u) ∧
    (0 < n → ∃ t u, Jumps (.ploop stages words g len) s st .c first t u ∧ Sends (.trip n) st u ∧
      (getEng u .c).sg = 1 ∧
      (getEng u .c).ploop = some ⟨(getEng st .c).pc, stages.toNat + 1, first, len.toNat + 1, ws, n, n, 0, 0⟩)

/-- R121, R122: the outcome of a leaning branch confirms what L did on its arm, or undoes it and sends L the other way.
After the confirmation the held commands are issued one by one, oldest first, and the lean ends with the fault that the arm
recorded, or with none. -/
def Obligations.LeanOutcome : Prop :=
  ∀ s st ln, getStrand s (Walker.ref s.cur) = some st → st.lean = some ln →
    (∀ b rest, ln.confirmed = false → (getEng st .l).bq = .taken b :: rest →
      ∃ t u, exec .branchOutcome s = .next t ∧ getStrand t (Walker.ref s.cur) = some u ∧ t.mem = s.mem ∧
        (getEng u .l).bq = rest ∧
        (b = ln.taken → (∀ x ∈ u.lq, x.spec = false) ∧ u.lq.length = st.lq.length ∧ u.a = st.a) ∧
        (b ≠ ln.taken → u.lean = none ∧ u.lq = st.lq.filter (fun x => !x.spec) ∧ u.a = ln.a ∧ u.sd = ln.sd ∧
          u.iql = ln.iql ++ st.iql ∧ (getEng u .l).passed = ln.saved.passed + 1)) ∧
    (ln.confirmed = true → ln.held = [] → ln.fault = none →
      exec .branchOutcome s = .next (putStrand s (Walker.ref s.cur) { st with lean := none })) ∧
    (∀ q, ln.confirmed = true → ln.held = [] → ln.fault = some q →
      ∃ t u, exec .branchOutcome s = .next t ∧ getStrand t (Walker.ref s.cur) = some u ∧ u.lean = none ∧
        u.frozen = true ∧ t.mem = s.mem) ∧
    (∀ c rest t, ln.confirmed = true → ln.held = c :: rest →
      (let st' := { st with lean := some { ln with held := rest } }
       issueHeld (putStrand s (Walker.ref s.cur) st') (Walker.ref s.cur) st' c = .ok t) →
      exec .branchOutcome s = .next t)

/-! ## Strand words -/

namespace Sys2Proof.Claims

open Sys2Proof Machine

/-- A `wait` goes on when its condition holds; otherwise C stays at the word and the block ends (R330, R386). -/
def Waits (i : Instr) (s : State) (st : Strand) (c : WaitCond) (holds : Prop) : Prop :=
  (holds → ∃ t u, Goes i s st .c t u ∧ u.wait = none ∧ SameElsewhere s t ∧ ∀ r, latest u r = latest st r) ∧
  (¬ holds → ∃ t u, exec i s = .next t ∧ getStrand t (Walker.ref s.cur) = some u ∧
    (getEng u .c).pc = (getEng st .c).pc ∧ u.wait = some c ∧ u.waitHeld = true ∧ u.endBlock = true ∧ SameElsewhere s t)

/-- An effective address of the current strand passes the checks of a use and translates (R57, R64, R69). -/
def Maps (s : State) (st : Strand) (u : Use) (ea : Word) (x : Xlat) : Prop :=
  ∃ s', translate s (dieOf s.cur.cell) (some s.cur.cell) st.part u ea = .ok (x, s')

/-- An engine stops at the word (R333 to R335): its program counter stays. -/
def StopsAt (i : Instr) (s : State) (st : Strand) (e : Eng) (why : Stopped) (t : State) (u : Strand) : Prop :=
  exec i s = .next t ∧ getStrand t (Walker.ref s.cur) = some u ∧ (getEng u e).stop = why ∧
    (getEng u e).pc = (getEng st e).pc ∧ SameOthers e st u ∧ (∀ r, latest u r = latest st r) ∧ t.mem = s.mem

end Sys2Proof.Claims

/-- R330: the conditions of `wait` that C tests itself. -/
def Sys2Proof.Claims.WaitWords : Prop :=
  ∀ s st, AtEngine s .c st →
    Waits .waitTrig s st .trig
      (∀ l, launchOf s st.part st.sid.launch = some l → ∀ n ∈ l.prods, producerDone s st.part n = true) ∧
    (ownsAu s s.cur.cell st.part = true → Waits .waitCpy s st .cpy (∃ p ∈ st.out, p.rec? ≠ none)) ∧
    (ownsAu s s.cur.cell st.part = false → Traps .waitCpy s st .c .foreign 0) ∧
    Waits .waitColl s st .coll (∃ p ∈ st.results, p.rec? ≠ none) ∧
    (∀ ga, Readable st (.g ga) →
      Waits (.waitTime ga) s st (.time (gNow st ga)) ((gNow st ga).toNat ≤ timeNs s))

/-- R330: `wait.flag` loads the flag word, goes on when it read nonzero, and gives up the block when it read zero; the
sequencer then repeats the load, and a condition that has come true makes the strand ready. -/
def Sys2Proof.Claims.FlagWait : Prop :=
  (∀ s st ga oc, AtEngine s .c st →
    (∀ v, st.flagRead = some v → v ≠ 0 →
      ∃ t u, Goes (.waitFlag ga oc) s st .c t u ∧ u.wait = none ∧ u.flagRead = none) ∧
    (st.flagRead = some 0 → ∃ t u, exec (.waitFlag ga oc) s = .next t ∧ getStrand t (Walker.ref s.cur) = some u ∧
      (getEng u .c).pc = (getEng st .c).pc ∧ u.endBlock = true ∧ u.waitHeld = true ∧ u.flagRead = none) ∧
    (∀ x, st.flagRead = none → (∀ a ∈ st.accs, a.flag = false) → Readable st (.g ga) → (gNow st ga).toNat % 8 = 0 →
      Maps s st .scalarRead (gNow st ga) x →
      ∃ t u a, exec (.waitFlag ga oc) s = .next t ∧ getStrand t (Walker.ref s.cur) = some u ∧ u.accs = st.accs ++ [a] ∧
        a.flag = true ∧ a.acq = true ∧ a.kind = .load ∧ a.cls = oc ∧ a.pa = x.pa ∧ a.size = 8 ∧ t.mem = s.mem)) ∧
  (∀ s st va cls x, getStrand s (Walker.ref s.cur) = some st → st.wait = some (.flag va cls) → st.block = false →
    st.waitHeld = true → st.frozen = false → (∀ a ∈ st.accs, a.flag = false) → va.toNat % 8 = 0 →
    Maps s st .scalarRead va x →
    ∃ t u a, exec .waitFlagPoll s = .next t ∧ getStrand t (Walker.ref s.cur) = some u ∧ u.accs = st.accs ++ [a] ∧
      a.flag = true ∧ a.acq = false ∧ a.kind = .load ∧ a.cls = cls ∧ a.pa = x.pa ∧ a.size = 8 ∧ t.mem = s.mem) ∧
  (∀ s st c, getStrand s (Walker.ref s.cur) = some st → st.wait = some c → waitHolds s st c = true →
    ∃ t u, exec .waitConditionTrue s = .next t ∧ getStrand t (Walker.ref s.cur) = some u ∧ u.waitHeld = false ∧
      u.wait = some c ∧ t.mem = s.mem)

/-- R331: `yield` ends the block with the strand still ready; `trig` marks the strand as triggered and counts it once at
its launch. -/
def Obligations.YieldAndTrig : Prop :=
  (∀ w, decode w = .ok .yield ↔ w = pack [(8, 0x29), (3, 0), (4, 0), (4, 0), (45, 0)]) ∧
  (∀ w, decode w = .ok .trig ↔ w = pack [(8, 0x2A), (3, 0), (4, 0), (4, 0), (45, 0)]) ∧
  ∀ s st, AtEngine s .c st →
    (∃ t u, Goes .yield s st .c t u ∧ u.endBlock = true ∧ u.waitHeld = st.waitHeld ∧ u.wait = st.wait ∧
      SameElsewhere s t ∧ ∀ r, latest u r = latest st r) ∧
    (∃ t u, Goes .trig s st .c t u ∧ u.triggered = true ∧ SameElsewhere s t ∧ (∀ r, latest u r = latest st r) ∧
      ∀ l, launchOf s st.part st.sid.launch = some l → ∃ l', launchOf t st.part st.sid.launch = some l' ∧
        l'.triggered = l.triggered + (if st.triggered ∨ st.sid.launch = 0 then 0 else 1))

/-- R332: `trap` raises TRAP with its immediate as FLTADDR; the strand is frozen and resumes at the word after it. -/
def Obligations.TrapWord : Prop :=
  (∀ w (imm : BitVec 16), decode w = .ok (.trap imm) ↔
    w = pack [(8, 0x2C), (3, 0), (4, 0), (4, 0), (5, 0), (5, 0), (4, 0), (15, 0), (16, imm.toNat)]) ∧
  ∀ s st (imm : BitVec 16), AtEngine s .c st →
    ∃ t u q, Goes (.trap imm) s st .c t u ∧ u.frozen = true ∧ u.faults = addFault st.faults q ∧
      q.trap.cause = .trap ∧ q.trap.addr = imm.toNat ∧ q.eng = 0 ∧ q.word = (getEng st .c).pc

/-- R333 to R335: an engine stops at `exit` and `sbar` when its own earlier words are complete, where `exit` leaves a
stream of `rps` to the check of R113, and at `ovl` at once, M when its nest has ended (R243). C raises QUEUEPROTO at an
`sbar` outside a co-resident launch. -/
def Sys2Proof.Claims.StopWords : Prop :=
  ∀ s st e, AtEngine s e st →
    (engDone { st with rps := none } e = true → ∃ t u, StopsAt .exit s st e .atExit t u) ∧
    (engDone { st with rps := none } e = false → exec .exit s = .next s) ∧
    (engDone st e = true → (e = .c → st.sid.cores = true) → ∃ t u, StopsAt .sbar s st e .atSbar t u) ∧
    (e = .c → st.sid.cores = false → Traps .sbar s st .c .queueProto 0) ∧
    (∀ (n : BitVec 8) im, (getCtx s s.cur.cell st.part).image = some im → n.toNat < im.overlays.length →
      (e = .l → st.lean = none) → (e = .m → st.nest = none ∧ st.drain = none) →
      ∃ t u, StopsAt (.ovl n) s st e .atOvl t u ∧
        ((∀ x, x ≠ e → inMask st x = true → (getEng st x).stop = .atOvl) → ∃ k, u.ovlWant = some (n, k)))

/-- R287, R334: a superstep barrier completes when every strand of the launch that has not ended stands at it with its
accesses performed; every engine of them then goes on. -/
def Sys2Proof.Claims.BarrierCompletes : Prop :=
  ∀ s part launch l, launchOf s part launch = some l → (s.strands.map (·.1)).Nodup →
    gangOf s part launch ≠ [] → (∀ p ∈ gangOf s part launch, arrived p.2 = true ∧ p.2.frozen = false) →
    (∀ b ∈ s.hub.bputs, b.part = part → b.launch = launch → b.refused = true) →
    (gangOf s part launch).length + l.ended = l.gx * l.gy * l.gz →
    ∃ t, exec (.barrierComplete part launch) s = .next t ∧ t.mem = s.mem ∧
      ∀ p ∈ gangOf s part launch, ∃ u, getStrand t p.1 = some u ∧
        ∀ e, inMask p.2 e = true → (getEng u e).stop = .no ∧ (getEng u e).pc = (getEng p.2 e).pc + 1

/-- R335, R394: the refill of an overlay, and where every engine goes on. -/
def Sys2Proof.Claims.OverlayRefills : Prop :=
  ∀ s st im o n k s', getStrand s (Walker.ref s.cur) = some st → st.frozen = false → st.ovlWant = some (n, k) →
    (getCtx s s.cur.cell st.part).image = some im → im.overlays[n.toNat]? = some o →
    trailEngs im st.overlay.toNat = [] → mustWait s (Walker.ref s.cur) st im n.toNat k = false →
    ((getCtx s s.cur.cell st.part).overlays.contains n.toNat = true ∨ freeChan (getCell s s.cur.cell) ≠ none) →
    loadOverlay s s.cur.cell st.part im n.toNat = .ok s' →
    ∃ t u, exec .overlayRefill s = .next t ∧ getStrand t (Walker.ref s.cur) = some u ∧ u.overlay.toNat = n.toNat ∧
      u.ovlWant = none ∧ t.mem = s.mem ∧ (getCtx t s.cur.cell st.part).imem = (getCtx s' s.cur.cell st.part).imem ∧
      ∀ e, inMask st e = true → (getEng u e).pc = o.entry ∧ (getEng u e).stop = .no

/-- R272: a `fence` joins the accesses in flight with its kind, scope and classes. -/
def Sys2Proof.Claims.FenceWord : Prop :=
  ∀ s st sc k mask, AtEngine s .c st →
    ∃ t u a, Goes (.fence sc k mask) s st .c t u ∧ u.accs = st.accs ++ [a] ∧ a.kind = .fence k sc mask ∧
      a.pos = (getEng st .c).passed ∧ SameElsewhere s t ∧ ∀ r, latest u r = latest st r

/-! ## State registers, queues and commands of C -/

/-- R339 to R341: what `mfst` reads. -/
def Sys2Proof.Claims.StateRegisterReads : Prop :=
  ∀ s st (lat : BitVec 4) (ga : BitVec 5), AtEngine s .c st → ga ≠ 0 →
    let reads := fun (num : BitVec 10) (x : Word) =>
      ∃ t u, Goes (.mfst lat ga num) s st .c t u ∧ gLater u ga = x ∧ SameElsewhere s t ∧ restOf u = restOf st
    reads 0x000 (st.slipw.setWidth 64) ∧ reads 0x001 ((getEng st .c).lmode.setWidth 64) ∧
    (doneBefore st (getEng st .c).passed = true → reads 0x002 ((flagsBefore st (getEng st .c).passed).setWidth 64)) ∧
    reads 0x003 ((getEng st .c).rset.setWidth 64) ∧ reads 0x004 st.scc ∧
    reads 0x005 (BitVec.ofNat 64 (s.clock / 4)) ∧
    reads 0x006 ((0 : BitVec 16) ++ st.sid.z ++ st.sid.y ++ st.sid.x) ∧
    reads 0x007 ((0 : BitVec 16) ++ st.sid.gz ++ st.sid.gy ++ st.sid.gx) ∧
    reads 0x008 (st.sid.argb.setWidth 64) ∧
    reads 0x009 ((0 : BitVec 48) ++ (getEng st .c).sg ++ (0 : BitVec 3) ++ (getEng st .c).rrb) ∧
    reads 0x00C st.fltCause ∧ reads 0x00D st.fltAddr ∧ reads 0x00E st.fltPc ∧
    reads 0x030 (st.bindst.setWidth 64) ∧
    ∀ k : Fin 16, reads (BitVec.ofNat 10 (0x10 + k.val)) (st.perf.get k)

/-- R8, R9, R339, R341: what `mtst` writes; a write of a read-only register is ignored. -/
def Sys2Proof.Claims.StateRegisterWrites : Prop :=
  ∀ s st (gb : BitVec 5), AtEngine s .c st → Readable st (.g gb) → BqRoom st →
    let x := gNow st gb
    let writes := fun (num : BitVec 10) (P : Strand → Prop) =>
      ∃ t u, Goes (.mtst num gb) s st .c t u ∧ P u ∧ SameElsewhere s t ∧ ∀ r, latest u r = latest st r
    (16 ≤ x.toNat % 2 ^ 13 → x.toNat % 2 ^ 13 ≤ 4096 →
      writes 0x000 fun u => u.slipw.toNat = x.toNat % 2 ^ 13 ∧ SameOthers .c st u) ∧
    ((x.getLsbD 1 = true → x.getLsbD 0 = true) →
      writes 0x001 fun u => (getEng u .c).lmode = x.setWidth 4 ∧ Sends (.lmode (x.setWidth 4)) st u) ∧
    (writes 0x003 fun u => (getEng u .c).rset = x.setWidth 16 ∧ Sends (.rset (x.setWidth 16)) st u) ∧
    ((getEng st .c).ploop = none →
      writes 0x009 fun u => (getEng u .c).rrb = x.setWidth 5 ∧ (getEng u .c).sg = x.extractLsb' 8 8 ∧
        Sends (.rrb (x.setWidth 16)) st u) ∧
    (doneBefore st (getEng st .c).passed = true → writes 0x002 fun u => u.flags = x.setWidth 6) ∧
    (writes 0x00D fun u => u.fltAddr = x) ∧
    (∀ num ∈ [0x004, 0x005, 0x006, 0x007, 0x008, 0x00A, 0x00B, 0x020, 0x021, (0x030 : BitVec 10)],
      writes num fun u => restOf u = restOf st ∧ SameOthers .c st u ∧ allFlags u = allFlags st)

/-- R339, R429: the service range is read in the service partition alone; a number without a register raises ILLEGAL. -/
def Sys2Proof.Claims.StateRegisterFaults : Prop :=
  ∀ s st (lat : BitVec 4) (ga gb : BitVec 5) (num : BitVec 10), AtEngine s .c st →
    (0x100 ≤ num.toNat → num.toNat ≤ 0x17F → st.part ≠ 0 →
      Traps (.mfst lat ga num) s st .c .permission 0 ∧ Traps (.mtst num gb) s st .c .permission 0) ∧
    (0x144 ≤ num.toNat → num.toNat ≤ 0x17F → st.part = 0 → Traps (.mfst lat ga num) s st .c .illegal 0) ∧
    ((0x022 ≤ num.toNat ∧ num.toNat < 0x030 ∨ 0x031 ≤ num.toNat ∧ num.toNat < 0x100 ∨ 0x180 ≤ num.toNat) →
      Traps (.mfst lat ga num) s st .c .illegal 0 ∧ Traps (.mtst num gb) s st .c .illegal 0)

/-- R111, R338: `qsend` pushes to the queue it names while that holds fewer than eight, and `qrecv` pops VCQ. -/
def Sys2Proof.Claims.ScalarQueueWords : Prop :=
  ∀ s st, AtEngine s .c st →
    (∀ q gb, Readable st (.g gb) → (getSq st q).length < 8 →
      ∃ t u, Goes (.qsend q gb) s st .c t u ∧ getSq u q = getSq st q ++ [gNow st gb] ∧
        (∀ p, p ≠ q → getSq u p = getSq st p) ∧ SameElsewhere s t ∧ SameOthers .c st u ∧ ∀ r, latest u r = latest st r) ∧
    (∀ lat ga x rest, st.vcq = x :: rest →
      ∃ t u, Goes (.qrecv lat ga) s st .c t u ∧ u.vcq = rest ∧ (ga ≠ 0 → gLater u ga = x) ∧
        (∀ r, r ≠ .g ga → latest u r = latest st r) ∧ SameElsewhere s t ∧ SameOthers .c st u) ∧
    (∀ q gb, Readable st (.g gb) → 8 ≤ (getSq st q).length → exec (.qsend q gb) s = .next s) ∧
    (∀ lat ga, st.vcq = [] → exec (.qrecv lat ga) s = .next s)

/-- R337: `pop` takes the oldest record of its FIFO, in the order in which the records came. -/
def Sys2Proof.Claims.RecordPops : Prop :=
  ∀ s st lat ga x (rest : List OutPlace), AtEngine s .c st →
    (ownsAu s s.cur.cell st.part = true → takeRecord st.out = some (x, rest) →
      ∃ t u, Goes (.popCpy lat ga) s st .c t u ∧ u.out = rest ∧ u.results = st.results ∧ (ga ≠ 0 → gLater u ga = x) ∧
        t.mem = s.mem ∧ ∀ r, r ≠ .g ga → latest u r = latest st r) ∧
    (takeRecord st.results = some (x, rest) →
      ∃ t u, Goes (.popColl lat ga) s st .c t u ∧ u.results = rest ∧ u.out = st.out ∧ (ga ≠ 0 → gLater u ga = x) ∧
        t.mem = s.mem ∧ ∀ r, r ≠ .g ga → latest u r = latest st r) ∧
    (st.results = [] → st.lean = none → (∀ e, inMask st e = true → (getEng st .c).passed ≤ (getEng st e).passed) →
      Traps (.popColl lat ga) s st .c .queueProto 0)

/-! ## Scalar accesses -/

namespace Sys2Proof.Claims

open Sys2Proof Machine

/-- A word of C issues one access of `n` bytes at `ea`, whose page is `x`. -/
def IssuesAccess (i : Instr) (s : State) (st : Strand) (k : AccKind) (cls : BitVec 4) (ea : Word) (n : Nat) (x : Xlat)
    (P : Strand → Access → Prop) : Prop :=
  ∃ t u a, Goes i s st .c t u ∧ u.accs = st.accs ++ [a] ∧ a.kind = k ∧ a.cls = cls ∧ a.va = ea.toNat ∧ a.pa = x.pa ∧
    a.size = n ∧ a.pos = (getEng st .c).passed ∧ a.home = homeOfPte x.leaf.pte ∧ a.mtype = pteType x.leaf.pte ∧
    (∀ r, latest u r = latest st r) ∧ t.mem = s.mem ∧ SameOthers .c st u ∧ P u a

end Sys2Proof.Claims

/-- R345, R346: `ld`, `st` and `amo` issue one access each at g(BASE) + sext(OFF18); the register of a load or an atomic
waits for it (LAT 15, R28). `pfl` completes without one. -/
def Sys2Proof.Claims.ScalarAccessWords : Prop :=
  ∀ s st (lat oc : BitVec 4) cp (d base : BitVec 5) (off : BitVec 18) x, AtEngine s .c st → Readable st (.g base) →
    let ea := gNow st base + off.signExtend 64
    let waits := fun (u : Strand) => d ≠ 0 → ∃ p ∈ u.pending, p.reg = .g d ∧ p.val = none ∧ p.lat = 15
    (∀ sz sx aq, ea.toNat % Sz.bytes sz = 0 → Maps s st .scalarRead ea x →
      IssuesAccess (.ld lat sz sx oc cp aq d base off) s st .load oc ea (Sz.bytes sz) x
        fun u a => a.acq = aq ∧ a.sext = sx ∧ waits u) ∧
    (∀ sz rl, ea.toNat % Sz.bytes sz = 0 → Maps s st .scalarWrite ea x → Readable st (.g d) →
      IssuesAccess (.st sz oc cp rl d base off) s st .store oc ea (Sz.bytes sz) x
        fun u a => a.rel = rl ∧ a.data = (gNow st d).setWidth 4096 ∧ u.pending = st.pending) ∧
    (∀ op dbl aq rl, ea.toNat % (if dbl then 8 else 4) = 0 → Maps s st .scalarAtomic ea x → Readable st (.g d) →
      Readable st (.g (d + 1)) →
      IssuesAccess (.amo lat op dbl oc aq rl d base off) s st .atomic oc ea (if dbl then 8 else 4) x
        fun u a => a.acq = aq ∧ a.rel = rl ∧ waits u ∧
          (op ≠ .cas → a.data = (gNow st d).setWidth 4096) ∧
          (op = .cas → a.data = (gNow st (d + 1)).setWidth 4096 ∧ a.op = some (.amo .cas (gNow st d)))) ∧
    (∀ xl, ∃ t u, Goes (.pfl xl base off) s st .c t u ∧ u.accs = st.accs ∧ t.mem = s.mem ∧
      ∀ r, latest u r = latest st r)

/-- R57: a scalar access that is not aligned to its size raises ALIGN at its effective address. -/
def Sys2Proof.Claims.ScalarAlignment : Prop :=
  ∀ s st (lat oc : BitVec 4) cp (d base : BitVec 5) (off : BitVec 18), AtEngine s .c st → Readable st (.g base) →
    let ea := gNow st base + off.signExtend 64
    (∀ sz sx aq, ea.toNat % Sz.bytes sz ≠ 0 → Traps (.ld lat sz sx oc cp aq d base off) s st .c .align ea.toNat) ∧
    (∀ sz rl, ea.toNat % Sz.bytes sz ≠ 0 → Traps (.st sz oc cp rl d base off) s st .c .align ea.toNat) ∧
    (∀ op dbl aq rl, ea.toNat % (if dbl then 8 else 4) ≠ 0 →
      Traps (.amo lat op dbl oc aq rl d base off) s st .c .align ea.toNat)

/-- R5, R266, R283: an access to memory of this package, on lines that only one place has performed atomics on (R75),
performs when nothing earlier is before it on its way: a store and an atomic change the bytes at their physical
address, little-endian, and no other byte; a load and an atomic leave the list of accesses with their value delivered. -/
def Obligations.AccessPerforms : Prop :=
  ∀ s r st a, getStrand s r = some st → st.accs.find? (fun b => b.id == a.id) = some a → mayPerform st a = true →
    (a.home = .hbm ∨ a.home = .second) → (∀ l ∈ s.hub.linePoison, l * 128 + 128 ≤ a.pa ∨ a.pa + a.size ≤ l * 128) →
    (∀ m ∈ s.hub.mixed, m.1 * 128 + 128 ≤ a.pa ∨ a.pa + max 1 a.size ≤ m.1 * 128) → pathClear s r.cell a 4 = true →
    memWf s.mem = true →
    ∃ t u, exec (.accessPerform r a.id .pass) s = .next t ∧ getStrand t r = some u ∧
      (∀ b ∈ u.accs, b.id ≠ a.id) ∧
      (∀ j, (j < a.pa ∨ a.pa + a.size ≤ j) → mread t.mem j = mread s.mem j) ∧
      (a.kind = .load → t.mem = s.mem) ∧
      (a.kind = .store → readN t.mem a.pa a.size = a.data.toNat % 256 ^ a.size) ∧
      (a.kind = .atomic → readN t.mem a.pa a.size = combine a.op a.size (memN s a.pa a.size) a.data % 256 ^ a.size) ∧
      (∀ n, a.kind = .load ∨ a.kind = .atomic → a.dest = .reg n → n ≠ 0 → a.flag = false →
        (l1Load a = true → findLine s r.cell st.part a.home a.msa (a.pa / 128) = none) →
        (∀ p ∈ st.pending, p.reg = .g n → p.eng = a.eng ∧ p.pos = a.pos ∧ p.val = none ∧ p.mask = fullMask (.g n)) →
        (∃ p ∈ st.pending, p.reg = .g n) →
        regBits u (.g n) = loadValue a (memN s a.pa a.size) &&& fullMask (.g n))

/-! ## Tokens and landings -/

namespace Sys2Proof.Claims

open Sys2Proof Machine

/-- A token FIFO has a filled place at its head. -/
def HasToken (st : Strand) (n : Option Nat) : Prop := ∃ k p rest, n = some k ∧ getTok st.tok k = p :: rest ∧ p.filled = true

/-- A token FIFO has room for a place. -/
def TokenRoom (st : Strand) (n : Option Nat) : Prop := ∃ k, n = some k ∧ (getTok st.tok k).length < 8

/-- The token bits of a word of L, V or M can act now (R36). A word of L that pops waits for the outcome of a lean (log
entry 28). -/
def TokensReady (st : Strand) (e : Eng) (tk : Tk) : Prop :=
  (tk.pbp = true → HasToken st (tokInPrev e)) ∧ (tk.pbn = true → HasToken st (tokInNext e)) ∧
    (tk.pap = true → TokenRoom st (tokOutPrev e)) ∧ (tk.pan = true → TokenRoom st (tokOutNext e)) ∧
    (e = .l → (tk.pbp = true ∨ tk.pbn = true) → st.lean = none)

end Sys2Proof.Claims

/-- R35, R36: what the token bits of a word take and reserve, shown on `nop`, which has no other effect. A word whose token
is not there waits. -/
def Sys2Proof.Claims.TokenWords : Prop :=
  ∀ s st e t tk, AtEngine s e st → e = .l ∨ e = .v ∨ e = .m →
    (TokensReady st e tk → ∃ t' u, Goes (.nop t tk) s st e t' u ∧
      (∀ k, tk.pbp = true → tokInPrev e = some k → getTok u.tok k = (getTok st.tok k).tail) ∧
      (∀ k, tk.pbn = true → tokInNext e = some k → getTok u.tok k = (getTok st.tok k).tail) ∧
      (∀ k, tk.pap = true → tokOutPrev e = some k → getTok u.tok k =
        getTok st.tok k ++ [{ eng := e, pos := (getEng st e).passed }]) ∧
      (∀ k, tk.pan = true → tokOutNext e = some k → getTok u.tok k =
        getTok st.tok k ++ [{ eng := e, pos := (getEng st e).passed }]) ∧
      (∀ r, latest u r = latest st r) ∧ SameElsewhere s t' ∧ SameOthers e st u) ∧
    (∀ k, tk.pbp = true → tokInPrev e = some k → getTok st.tok k = [] → exec (.nop t tk) s = .next s)

/-- R52, R118: `nop` at C, and at S, where its token bits wait for the data stage. -/
def Sys2Proof.Claims.NopWord : Prop :=
  ∀ s st t tk,
    (AtEngine s .c st → ∃ t' u, Goes (.nop t tk) s st .c t' u ∧ restOf u = restOf st ∧ (∀ r, latest u r = latest st r) ∧
      SameElsewhere s t' ∧ SameOthers .c st u) ∧
    (AtEngine s .s st → st.stores.length < 64 → ∃ t' u, Goes (.nop t tk) s st .s t' u ∧
      (∀ r, latest u r = latest st r) ∧ SameElsewhere s t' ∧ SameOthers .s st u ∧
      (tk = Tk.none → u.stores = st.stores) ∧
      (tk ≠ Tk.none → ∃ x, u.stores = st.stores ++ [x] ∧ x.word = .nop t tk ∧ x.entered = false))

/-- R28, R36: a result whose value is known lands behind the older results of its register; the place of a token is filled
once its word is complete. -/
def Sys2Proof.Claims.LandingsAndPushes : Prop :=
  (∀ s r st k p x, getStrand s r = some st → st.pending[k]? = some p → p.val = some x →
    (∀ q ∈ st.pending.take k, q.reg ≠ p.reg) → p.reg ≠ .g 0 → p.mask = fullMask p.reg →
    ∃ t u, exec (.resultLands r k) s = .next t ∧ getStrand t r = some u ∧ regBits u p.reg = x &&& fullMask p.reg ∧
      u.pending = st.pending.eraseIdx k ∧ (∀ q, q ≠ p.reg → regBits u q = regBits st q) ∧ t.mem = s.mem ∧
      t.cells = s.cells) ∧
  (∀ s r st n i p, getStrand s r = some st → n < 6 → i < 8 → (getTok st.tok n)[i]? = some p → p.filled = false →
    p.copy = none → (p.eng = .l → st.lean = none) → wordDone st p.eng p.pos = true → p.pos < (getEng st p.eng).passed →
    ∃ t u, exec (.tokenPush r (8 * n + i)) s = .next t ∧ getStrand t r = some u ∧
      getTok u.tok n = (getTok st.tok n).set i { p with filled := true } ∧ u.pending = st.pending ∧ t.mem = s.mem)

/-! ## The load engine -/

namespace Sys2Proof.Claims

open Sys2Proof Machine

def aNow (st : Strand) (n : BitVec 4) : Word := (regBits st (.a n)).setWidth 64
def bNow (st : Strand) (n : BitVec 4) : Word := (regBits st (.b n)).setWidth 64
def sdNow (st : Strand) (n : BitVec 4) : Desc := (regBits st (.sd n)).setWidth 256

/-- The word completes at `e` and leaves register `r` with the value `x`, every other register as it was, and memory and
scratchpad as they were. -/
def SetsReg (i : Instr) (s : State) (st : Strand) (e : Eng) (r : Reg) (x : Word) (P : Strand → Prop) : Prop :=
  ∃ t u, Goes i s st e t u ∧ (latest u r).setWidth 64 = x ∧ (∀ q, q ≠ r → latest u q = latest st q) ∧
    SameElsewhere s t ∧ SameOthers e st u ∧ P u

/-- The scratchpad runs lie in banks that the strand's partition owns (R109). -/
def SpmOk (s : State) (st : Strand) (gs : List Seg) : Prop := checkSegs s s.cur.cell st.part gs = .ok ()

/-- A scratchpad read of L may go: no store of S before it is under way in those bytes (R120). -/
def ReadOk (st : Strand) (gs : List Seg) : Prop :=
  awaitStores st (getEng st .l).seen (getEng st .l).passed gs = .ok ()

/-- Bytes of the cell's scratchpad, little-endian. -/
def spmBytes (s : State) (a n : Nat) : Nat := readN (getCell s s.cur.cell).spm a n

/-- Memory and every cell's scratchpad, with what is poisoned there, are as they were. -/
def DataAsWas (s t : State) : Prop :=
  t.mem = s.mem ∧ ∀ k, (getCell t k).spm = (getCell s k).spm ∧ (getCell t k).spmPoison = (getCell s k).spmPoison

/-- The word of L completes and appends entries with these data to LQ, and changes no register, memory or scratchpad. -/
def LoadsLq (i : Instr) (s : State) (st : Strand) (P : List Row → Prop) : Prop :=
  ∃ t u l, Goes i s st .l t u ∧ u.lq = st.lq ++ l ∧ (∀ x ∈ l, x.filled = true ∧ x.spec = st.lean.isSome) ∧
    P (l.map (·.data)) ∧ (∀ r, latest u r = latest st r) ∧ DataAsWas s t ∧ SameOthers .l st u

end Sys2Proof.Claims

/-- R114 to R117: the address-register words of L. -/
def Sys2Proof.Claims.LoadRegisterWords : Prop :=
  ∀ s st (h : Hdr) (d a : BitVec 4) (imm : BitVec 27), AtEngine s .l st → TokensReady st .l h.tk →
    (Readable st (.a a) → SetsReg (.aadd h d a imm) s st .l (.a d) (aNow st a + imm.signExtend 64) fun _ => True) ∧
    SetsReg (.aset h d imm) s st .l (.a d) (imm.signExtend 64) (fun _ => True) ∧
    (Readable st (.a d) → SetsReg (.asetH h d imm) s st .l (.a d)
      ((0 : BitVec 10) ++ imm ++ (aNow st d).extractLsb' 0 27) fun _ => True) ∧
    (∀ x rest, st.lean = none → st.qL = x :: rest →
      SetsReg (.asetQ h d imm) s st .l (.a d) (x + imm.signExtend 64) fun u => u.qL = rest) ∧
    (∀ sd (w : BitVec 2) b second, Readable st (.a a) → Readable st (.a b) → second = none ∨ second = some b →
      ∃ t u, Goes (.sdset h sd w a second) s st .l t u ∧ (∀ q, q ≠ .sd sd → latest u q = latest st q) ∧
        SameElsewhere s t ∧ ∀ k < 4, (latest u (.sd sd)).extractLsb' (64 * k) 64 =
          if k = w.toNat then aNow st a &&& sdBits k
          else if second = some b ∧ k = w.toNat + 1 then aNow st b &&& sdBits k
          else (latest st (.sd sd)).extractLsb' (64 * k) 64)

/-- R123, R157: `ldq` appends a row of scratchpad to LQ, or 512 six-bit elements, each in its own byte. -/
def Sys2Proof.Claims.RowLoads : Prop :=
  ∀ s st tk (base : BitVec 4) (off : BitVec 18), AtEngine s .l st → TokensReady st .l tk → Readable st (.a base) →
    st.lq.length < 8 →
    (let ea := (aNow st base + off.signExtend 64).toNat
     ea % 512 = 0 → SpmOk s st [⟨ea, 512⟩] → ReadOk st [⟨ea, 512⟩] →
      LoadsLq (.ldq tk none base off) s st fun l => l = [BitVec.ofNat 4096 (spmBytes s ea 512)]) ∧
    (∀ sd, Readable st (.sd sd) → sdTy (sdNow st sd) = 13 → sdBsf (sdNow st sd) = 0 →
      let ea := (aNow st base + off.signExtend 64 + BitVec.ofNat 64 (sdBase (sdNow st sd))).toNat
      ea % 8 = 0 → SpmOk s st [⟨ea, 384⟩] → ReadOk st [⟨ea, 384⟩] →
      LoadsLq (.ldq tk (some sd) base off) s st fun l => ∃ x, l = [x] ∧
        ∀ j < 512, elem x.toNat 8 j = elem (spmBytes s ea 384) 6 j)

/-- R124: strided and gathered elements; a disabled lane of a gather is zero. -/
def Sys2Proof.Claims.StridedAndGatheredLoads : Prop :=
  ∀ s st tk sz (base : BitVec 4) (off : BitVec 18), AtEngine s .l st → TokensReady st .l tk → Readable st (.a base) →
    let e := Sz.bytes sz
    (∀ sd, Readable st (.sd sd) → sdTy (sdNow st sd) ≠ 15 → st.lq.length < 8 →
      let ea := aNow st base + off.signExtend 64 + BitVec.ofNat 64 (sdBase (sdNow st sd))
      let gs := stridedSegs ea (sdNow st sd) e (512 / e)
      (∀ g ∈ gs, g.addr % e = 0) → SpmOk s st gs → ReadOk st gs →
      LoadsLq (.ldqs tk sz sd base off) s st fun l => ∃ x, l = [x] ∧
        ∀ i < 512 / e, elem x.toNat (8 * e) i = spmBytes s (offset64 ea (sdEstr (sdNow st sd) * i)) e) ∧
    (∀ ix rest, st.iql = ix :: rest → st.lq.length + (if e = 8 then 2 else 1) ≤ 8 →
      let ea := aNow st base + off.signExtend 64
      let gs := (laneSegs ix ea e).map (·.2)
      ea.toNat % e = 0 → SpmOk s st gs → ReadOk st gs →
      LoadsLq (.ldg tk sz base off) s st fun l => l.length = (if e = 8 then 2 else 1) ∧
        ∀ i < 128, elem ((l.getD (if e = 8 then i / 64 else 0) 0).toNat) (8 * e) (if e = 8 then i % 64 else i) =
          if ix.en.getLsbD i then spmBytes s (offset64 ea (ixLane ix i * e : Nat)) e else 0)

/-- R126: `ldpk` spreads a packed record: a set bit of its mask takes the next element, a clear bit gives zero; a header of
another length raises OPFIELD. -/
def Sys2Proof.Claims.PackedLoads : Prop :=
  ∀ s st tk sz (base : BitVec 4) (off : BitVec 18), AtEngine s .l st → TokensReady st .l tk → Readable st (.a base) →
    st.lq.length < 8 →
    let e := Sz.bytes sz
    let n := 512 / e
    let ea := (aNow st base + off.signExtend 64).toNat
    let mask := spmBytes s (ea + 4) (n / 8)
    let len := 4 + n / 8 + popcount mask n * e
    ea % 8 = 0 → SpmOk s st [⟨ea, 4 + n / 8⟩] → ReadOk st [⟨ea, n / 8 + 4 + n * e⟩] →
    (spmBytes s ea 4 = len → SpmOk s st [⟨ea + (4 + n / 8), popcount mask n * e⟩] →
      LoadsLq (.ldpk tk sz base off) s st fun l => ∃ x, l = [x] ∧
        ∀ i < n, elem x.toNat (8 * e) i = if bit mask i then spmBytes s (ea + (4 + n / 8) + popcount mask i * e) e else 0) ∧
    (tk = Tk.none → spmBytes s ea 4 ≠ len → Traps (.ldpk tk sz base off) s st .l .opField ea)

/-- R124: `ldmq` issues its access and keeps a place of LQ for the data. -/
def Sys2Proof.Claims.MemoryLoads : Prop :=
  ∀ s st tk (sz : Option Sz) oc cp aq (base : BitVec 4) (off : BitVec 18) x, AtEngine s .l st → TokensReady st .l tk →
    Readable st (.a base) → st.lq.length < 8 → st.lean = none →
    let ea := aNow st base + off.signExtend 64
    let n := match sz with | some z => Sz.bytes z | none => 512
    ea.toNat % n = 0 → Maps s st (if sz.isSome then .elemRead else .rowRead) ea x →
    ∃ t u a y, Goes (.ldmq tk sz oc cp aq base off) s st .l t u ∧ u.accs = st.accs ++ [a] ∧ a.kind = .load ∧
      a.pa = x.pa ∧ a.size = n ∧ a.cls = oc ∧ a.acq = aq ∧ a.dest = .lq a.id ∧ u.lq = st.lq ++ [y] ∧ y.filled = false ∧
      y.id = a.id ∧ t.mem = s.mem ∧ (∀ r, latest u r = latest st r) ∧ SameOthers .l st u

/-- R127, R220: `omfill` of a held slot that lies in the cell starts a fill of it, and the slot is filled when the fill
completes. -/
def Sys2Proof.Claims.SlotFills : Prop :=
  (∀ s st tk (d : BitVec 5) (sd base : BitVec 4) (off : BitVec 18), AtEngine s .l st → TokensReady st .l tk →
    Readable st (.a base) → Readable st (.sd sd) → st.lean = none → descOk (sdNow st sd) = true →
    (getOm st d).state ≠ .notHeld → (getOm st d).state ≠ .speculative → (getOm st d).phys ≠ none →
    let ea := aNow st base + off.signExtend 64 + BitVec.ofNat 64 (sdBase (sdNow st sd))
    let gs := fillRows (sdNow st sd) ea ++ fillScales (sdNow st sd)
    SpmOk s st gs → ReadOk st gs →
    ∃ t u f, Goes (.omfill tk d sd base off) s st .l t u ∧ u.fills = st.fills ++ [f] ∧ f.om = d ∧ f.dropped = false ∧
      f.slot.desc = sdNow st sd ∧ (getOm u d).phys = (getOm st d).phys ∧
      (getOm u d).state = (if (getOm st d).state = .filled then .refilling else (getOm st d).state) ∧
      DataAsWas s t ∧ ∀ r, latest u r = latest st r) ∧
  (∀ s r st n f, getStrand s r = some st → n < 32 → st.fills.find? (fun f => f.om == BitVec.ofNat 5 n) = some f →
    f.dropped = false → f.spec = false →
    (∀ g ∈ st.fills.erase f, g.om = BitVec.ofNat 5 n → g.dropped = true) →
    ∃ t u, exec (.omfillComplete r n) s = .next t ∧ getStrand t r = some u ∧ u.fills = st.fills.erase f ∧
      (getOm u (BitVec.ofNat 5 n)).state = .filled ∧ (getOm u (BitVec.ofNat 5 n)).data = f.slot.data ∧
      (getOm u (BitVec.ofNat 5 n)).desc = f.slot.desc ∧ (getOm u (BitVec.ofNat 5 n)).scale = f.slot.scale ∧
      (getOm u (BitVec.ofNat 5 n)).nf = f.slot.nf ∧ (getOm u (BitVec.ofNat 5 n)).tog = f.slot.tog ∧
      (getOm u (BitVec.ofNat 5 n)).phys = (getOm st (BitVec.ofNat 5 n)).phys ∧ t.mem = s.mem)

/-- R108, R128: a row-pointer stream, its differences one by one, and a prefetch, which enters
its queue of eight, or is dropped when that is full, and changes no register or memory. -/
def Sys2Proof.Claims.RowPointersAndPrefetch : Prop :=
  (∀ s st tk toC toM dbl (cnt base : BitVec 4) (off : BitVec 18), AtEngine s .l st → TokensReady st .l tk →
    Readable st (.a cnt) → Readable st (.a base) → st.lean = none → st.rps = none →
    let e := if dbl then 8 else 4
    let n := (aNow st cnt).toNat + 1
    let ea := (aNow st base + off.signExtend 64).toNat
    ea % e = 0 → ea + n * e ≤ 2 ^ 21 → 0 < (aNow st cnt).toNat → SpmOk s st [⟨ea, n * e⟩] → ReadOk st (ptrSegs ea e n) →
    spmPoisoned s s.cur.cell (ptrSegs ea e n) = false →
    ∃ t u run, Goes (.rps tk toC toM dbl cnt base off) s st .l t u ∧ u.rps = some run ∧ run.prev = spmBytes s ea e ∧
      run.ptrs = (List.range (n - 1)).map (fun j => spmBytes s (ea + e * (j + 1)) e) ∧ run.toC = toC ∧ run.toM = toM ∧
      DataAsWas s t) ∧
  (∀ s st run p rest, getStrand s (Walker.ref s.cur) = some st → st.rps = some run → run.ptrs = p :: rest →
    run.prev ≤ p → st.rpq.length < 16 →
    ∃ t u, exec .rpsPush s = .next t ∧ getStrand t (Walker.ref s.cur) = some u ∧ t.mem = s.mem ∧
      u.rpq = st.rpq ++ [⟨BitVec.ofNat 64 (p - run.prev), rest.isEmpty, run.toC, run.toM⟩] ∧
      (u.rps = none ↔ rest = [])) ∧
  (∀ s st tk f (base : BitVec 4) (off : BitVec 18), AtEngine s .l st → TokensReady st .l tk → Readable st (.a base) →
    let queue := fun (s : State) => (getCell s s.cur.cell).prefetch
    ∃ t u, Goes (.pf tk f base off) s st .l t u ∧ u.lq = st.lq ∧ u.accs = st.accs ∧ t.mem = s.mem ∧
      (∀ r, latest u r = latest st r) ∧ queue t = if (queue s).length < 8 then
        queue s ++ [⟨Walker.ref s.cur, st.uid, st.part, aNow st base + off.signExtend 64, PfForm.lines f⟩] else queue s)

/-! ## The store engine -/

namespace Sys2Proof.Claims

open Sys2Proof Machine

/-- The address stage of a word of S leaves an entry for the data stage (R118, R119) and changes no register, memory or
scratchpad. -/
def Enters (i : Instr) (s : State) (st : Strand) (P : SEntry → Prop) : Prop :=
  ∃ t u x, Goes i s st .s t u ∧ u.stores = st.stores ++ [x] ∧ x.word = i ∧ x.pos = (getEng st .s).passed ∧
    x.index = (getEng st .s).pc ∧ (∀ r, latest u r = latest st r) ∧ t.mem = s.mem ∧
    (∀ k, (getCell t k).spm = (getCell s k).spm) ∧ SameOthers .s st u ∧ P x

/-- A range of scratchpad in the pending-store table. -/
def InSpm (x : SEntry) (lo n : Nat) : Prop := x.entered = true ∧ x.mem = false ∧ x.lo = lo ∧ x.hi = lo + n

end Sys2Proof.Claims

/-- R114, R115, R118: the address-register words of S; one with token bits leaves an entry for its data stage. -/
def Sys2Proof.Claims.StoreRegisterWords : Prop :=
  ∀ s st (h : Hdr) (d a : BitVec 4) (imm : BitVec 27), AtEngine s .s st → st.stores.length < 64 →
    let entry := fun (i : Instr) (u : Strand) =>
      (tkPops h.tk || tkPushes h.tk) = true → ∃ x, u.stores = st.stores ++ [x] ∧ x.word = i ∧ x.entered = false
    (Readable st (.b a) →
      SetsReg (.badd h d a imm) s st .s (.b d) (bNow st a + imm.signExtend 64) (entry (.badd h d a imm))) ∧
    SetsReg (.bset h d imm) s st .s (.b d) (imm.signExtend 64) (entry (.bset h d imm)) ∧
    (Readable st (.b d) → SetsReg (.bsetH h d imm) s st .s (.b d)
      ((0 : BitVec 10) ++ imm ++ (bNow st d).extractLsb' 0 27) (entry (.bsetH h d imm))) ∧
    (∀ x rest, st.qS = x :: rest →
      SetsReg (.bsetQ h d imm) s st .s (.b d) (x + imm.signExtend 64) fun u => u.qS = rest ∧ entry (.bsetQ h d imm) u)

/-- R118, R119, R129 to R133: the address stage of the storing words of S and the range that each enters. -/
def Obligations.StoreAddressStage : Prop :=
  ∀ s st tk (base : BitVec 4) (off : BitVec 18) sz oc cp rl, AtEngine s .s st → st.stores.length < 64 →
    Readable st (.b base) →
    let ea := bNow st base + off.signExtend 64
    (ea.toNat % 512 = 0 → SpmOk s st [⟨ea.toNat, 512⟩] →
      Enters (.stq tk none base off) s st fun x => InSpm x ea.toNat 512) ∧
    (∀ sd, Readable st (.sd sd) → sdTy (sdNow st sd) = 13 → sdBsf (sdNow st sd) = 0 →
      let ea' := (ea + BitVec.ofNat 64 (sdBase (sdNow st sd))).toNat
      ea' % 8 = 0 → SpmOk s st [⟨ea', 384⟩] → Enters (.stq tk (some sd) base off) s st fun x => InSpm x ea' 384) ∧
    (∀ sd, Readable st (.sd sd) → sdTy (sdNow st sd) ≠ 15 →
      let ea' := ea + BitVec.ofNat 64 (sdBase (sdNow st sd))
      let gs := stridedSegs ea' (sdNow st sd) (Sz.bytes sz) (512 / Sz.bytes sz)
      (∀ g ∈ gs, g.addr % Sz.bytes sz = 0) → SpmOk s st gs →
      Enters (.stqs tk sz sd base off) s st fun x => InSpm x 0 (2 ^ 21) ∧ x.ea = ea' ∧ x.desc = sdNow st sd) ∧
    (ea.toNat % Sz.bytes sz = 0 → Enters (.sts tk sz base off) s st fun x => InSpm x 0 (2 ^ 21) ∧ x.ea = ea) ∧
    (∀ ty, ea.toNat % AddTy.bytes ty = 0 →
      Enters (.stsa tk ty base off) s st fun x => InSpm x 0 (2 ^ 21) ∧ x.ea = ea) ∧
    (∀ rv, ea.toNat % 8 = 0 → SpmOk s st [⟨ea.toNat, 8 * rv.toNat⟩] →
      Enters (.stpk tk sz rv base off) s st fun x => InSpm x ea.toNat (8 * rv.toNat)) ∧
    (∀ (el : Option Sz) xl, let n := match el with | some z => Sz.bytes z | none => 512
      ea.toNat % n = 0 → Maps s st (if el.isSome then .elemWrite else .rowWrite) ea xl →
      Enters (.stmq tk el oc cp rl base off) s st fun x =>
        x.entered = true ∧ x.mem = true ∧ x.lo = xl.pa ∧ x.hi = xl.pa + n ∧ x.cls = oc) ∧
    (∀ dbl, Enters (.stmqSc tk dbl oc cp rl base off) s st fun x =>
      x.entered = true ∧ x.mem = true ∧ x.lo = 0 ∧ x.hi = 2 ^ 64 ∧ x.ea = ea) ∧
    (∀ ty, Enters (.stmqAdd tk ty oc cp rl base off) s st fun x =>
      x.entered = true ∧ x.mem = true ∧ x.lo = 0 ∧ x.hi = 2 ^ 64 ∧ x.ea = ea) ∧
    (st.sid.cores = true → ea.toNat < 2 ^ 40 → ea.toNat / 2 ^ 21 % 2 ^ 11 = 0 → ea.toNat / 2 ^ 32 < 192 →
      (getCell s (ea.toNat / 2 ^ 32)).fenced = false → ea.toNat % 512 = 0 →
      Enters (.bput tk base off) s st fun x => x.entered = false ∧ x.ea = ea) ∧
    (st.sid.cores = false → Traps (.bput tk base off) s st .s .queueProto 0)

namespace Sys2Proof.Claims

open Sys2Proof Machine

/-- The data stage has reached the entry of S: the strand, not stopped, with its context ready and no routine at S, with its
due results landed. `rest` are the other entries. -/
def AtDataStage (s : State) (st : Strand) (x : SEntry) (rest : List SEntry) : Prop :=
  standing s = some st ∧ nextStore st = some x ∧ (dropStore st x).stores = rest ∧ stoppedMid st = false ∧
    st.loading = none ∧ (getEng st .s).micro = none

/-- Scratchpad of the current cell after a store: the bytes of the runs may change, every other byte of it and every other
cell's scratchpad stays, and so does memory. -/
def SpmFrame (s t : State) (gs : List Seg) : Prop :=
  t.mem = s.mem ∧ (∀ k, k ≠ s.cur.cell → (getCell t k).spm = (getCell s k).spm) ∧
    ∀ j, (∀ g ∈ gs, j < g.addr ∨ g.addr + g.len ≤ j) →
      mread (getCell t s.cur.cell).spm j = mread (getCell s s.cur.cell).spm j

/-- SQ entries for the data stage, unpoisoned. -/
def SqHead (st : Strand) (n : Nat) : Prop := n ≤ st.sq.length ∧ ∀ y ∈ st.sq.take n, y.poison = false

end Sys2Proof.Claims

/-- R110, R118, R129: the data stage of the row and strided forms stores what SQ holds and retires the entry. -/
def Sys2Proof.Claims.ScratchpadStores : Prop :=
  ∀ s st x rest, AtDataStage s st x rest → storeTk x.word = Tk.none → SqHead st 1 → readsPast st x = true →
    memWf (getCell s s.cur.cell).spm = true →
    let d : Nat := ((st.sq.map fun (y : SqEntry) => y.data).headD 0).toNat
    let stores := fun (gs : List Seg) (P : State → Prop) =>
      ∃ t u, exec .storeDataStage s = .next t ∧ getStrand t (Walker.ref s.cur) = some u ∧ u.stores = rest ∧
        u.sq = st.sq.drop 1 ∧ SpmFrame s t gs ∧ P t
    (∀ tk base off, x.word = .stq tk none base off →
      stores [⟨x.lo, 512⟩] fun t => readN (getCell t s.cur.cell).spm x.lo 512 = d) ∧
    (∀ tk sd base off, x.word = .stq tk (some sd) base off → (∀ j < 512, elem d 8 j < 64) →
      stores [⟨x.lo, 384⟩] fun t => ∀ j < 512, elem (readN (getCell t s.cur.cell).spm x.lo 384) 6 j = elem d 8 j) ∧
    (∀ tk sz sd base off, x.word = .stqs tk sz sd base off →
      let e := Sz.bytes sz
      let gs := stridedSegs x.ea x.desc e (512 / e)
      stores gs fun t => (gs.map (·.addr)).Nodup → (∀ g ∈ gs, g.addr % e = 0) →
        ∀ i < 512 / e, readN (getCell t s.cur.cell).spm (offset64 x.ea (sdEstr x.desc * i)) e = elem d (8 * e) i)

/-- R129, R130, R132: the data stage of the scatter forms: of lanes that name one element the highest is left, `stsa` adds
to what lay there, and the memory forms put one access for each enabled lane in flight and keep their entry until those
have performed. -/
def Sys2Proof.Claims.ScatterStores : Prop :=
  ∀ s st x rest ix iqs, AtDataStage s st x rest → storeTk x.word = Tk.none → readsPast st x = true →
    st.iqs = ix :: iqs → memWf (getCell s s.cur.cell).spm = true →
    let lanes := fun e => laneSegs ix x.ea e
    let data := fun e i => elem (sqNat (st.sq.take (if e = 8 then 2 else 1))) (8 * e) i
    let stores := fun e (P : State → Strand → Prop) =>
      SqHead st (if e = 8 then 2 else 1) → ∃ t u, exec .storeDataStage s = .next t ∧
        getStrand t (Walker.ref s.cur) = some u ∧ u.iqs = iqs ∧ P t u
    (∀ tk sz base off, x.word = .sts tk sz base off → x.ea.toNat % Sz.bytes sz = 0 →
      SpmOk s st ((lanes (Sz.bytes sz)).map (·.2)) →
      stores (Sz.bytes sz) fun t u => u.stores = rest ∧ SpmFrame s t ((lanes (Sz.bytes sz)).map (·.2)) ∧
        ∀ p ∈ lanes (Sz.bytes sz), (∀ q ∈ lanes (Sz.bytes sz), q.2 = p.2 → q.1 ≤ p.1) →
          readN (getCell t s.cur.cell).spm p.2.addr (Sz.bytes sz) = data (Sz.bytes sz) p.1) ∧
    (∀ tk ty base off, x.word = .stsa tk ty base off → x.ea.toNat % AddTy.bytes ty = 0 → repeatedIndex ix = none →
      SpmOk s st ((lanes (AddTy.bytes ty)).map (·.2)) →
      spmPoisoned s s.cur.cell ((lanes (AddTy.bytes ty)).map (·.2)) = false →
      stores (AddTy.bytes ty) fun t u => u.stores = rest ∧ SpmFrame s t ((lanes (AddTy.bytes ty)).map (·.2)) ∧
        ∀ p ∈ lanes (AddTy.bytes ty), readN (getCell t s.cur.cell).spm p.2.addr (AddTy.bytes ty) =
          addElem ty (spmBytes s p.2.addr (AddTy.bytes ty)) (data (AddTy.bytes ty) p.1) % 256 ^ AddTy.bytes ty) ∧
    (∀ tk dbl oc cp rl base off, x.word = .stmqSc tk dbl oc cp rl base off →
      (∀ p ∈ lanes (if dbl then 8 else 4), p.2.addr % (if dbl then 8 else 4) = 0) →
      (∀ l n, ∃ accs s', memLanes (Walker.ref s.cur) st x .store .rowWrite cp rl none (if dbl then 8 else 4)
        (sqNat (st.sq.take (if dbl then 2 else 1))) (lanes (if dbl then 8 else 4))
        { s with strands := l, freeCount := n } = .ok (accs, s')) →
      stores (if dbl then 8 else 4) fun t u => t.mem = s.mem ∧
        u.stores = (if lanes (if dbl then 8 else 4) = [] then rest else { x with sent := true } :: rest) ∧
        ∃ accs, u.accs = st.accs ++ accs ∧ accs.length = (lanes (if dbl then 8 else 4)).length ∧
          ∀ a ∈ accs, a.kind = .store)

/-- R133: a row of `bput` is written at its target when the partition owns the bank there, and is refused otherwise; the
error response raises FOREIGN at the issuer. -/
def Obligations.BputRows : Prop :=
  (∀ s k b, s.hub.bputs[k]? = some b → b.refused = false →
    ((getCell s b.cell).banks.get (Fin.ofNat 32 (b.off / 65536)) = some b.part → memWf (getCell s b.cell).spm = true →
      ∃ t, exec (.bputRowArrive k) s = .next t ∧ t.hub.bputs = s.hub.bputs.eraseIdx k ∧
        readN (getCell t b.cell).spm b.off 512 = b.row.toNat ∧ t.mem = s.mem ∧
        ∀ j, (j < b.off ∨ b.off + 512 ≤ j) → mread (getCell t b.cell).spm j = mread (getCell s b.cell).spm j) ∧
    ((getCell s b.cell).banks.get (Fin.ofNat 32 (b.off / 65536)) ≠ some b.part →
      ∃ t, exec (.bputRowArrive k) s = .next t ∧ t.hub.bputs = s.hub.bputs.set k { b with refused := true } ∧
        t.cells = s.cells ∧ t.mem = s.mem)) ∧
  (∀ s k b r st, s.hub.bputs[k]? = some b → b.refused = true → strandByUid s b.uid = some (r, st) →
    getStrand s r = some st →
    ∃ t u q, exec (.bputErrorResponse k) s = .next t ∧ getStrand t r = some u ∧ u.frozen = true ∧
      u.faults = addFault st.faults q ∧ q.trap.cause = .foreign ∧ q.trap.addr = b.addr.toNat ∧ q.eng = 4 ∧
      q.word = b.index ∧ t.hub.bputs = s.hub.bputs.eraseIdx k)

/-! ## The vector engine -/

namespace Sys2Proof.Claims

open Sys2Proof Machine

/-- What an operand of `k` registers gives, with what stands in LQ before and after it (R39). -/
def Source (st : Strand) (k : Nat) (x : VSrc) (lq : List LqEntry) (regs : List Nat) (lq' : List LqEntry) : Prop :=
  let heads := k ≤ lq.length ∧ (∀ y ∈ lq.take k, y.filled = true ∧ y.spec = false ∧ y.poison = false) ∧
    regs = (lq.take k).map fun y => y.data.toNat
  match x with
  | .v n => (∀ j < k, Readable st (.v (groupV st n j))) ∧ lq' = lq ∧
      regs = (List.range k).map fun j => (regBits st (.v (groupV st n j))).toNat
  | .lq => heads ∧ lq' = lq.drop k
  | .lqKeep => heads ∧ lq' = lq
  | .vz => regs = List.replicate k 0 ∧ lq' = lq

/-- The operands of a word, each of so many registers, read in order. -/
def Operands (st : Strand) : List (Nat × VSrc) → List LqEntry → List (List Nat) → List LqEntry → Prop
  | [], lq, ops, lq' => ops = [] ∧ lq' = lq
  | (k, x) :: rest, lq, ops, lq' =>
    ∃ regs mid ops', Source st k x lq regs mid ∧ Operands st rest mid ops' lq' ∧ ops = regs :: ops'

/-- The lanes that a word enables (R172). -/
def laneOn (st : Strand) (m : Mk) (i : Nat) : Bool :=
  match m with
  | .all => true
  | .em => (regBits st .em).getLsbD i
  | .emCm => (regBits st .em).getLsbD i && (regBits st .cm).getLsbD i
  | .emNotCm => (regBits st .em).getLsbD i && !(regBits st .cm).getLsbD i

def LanesKnown (st : Strand) (m : Mk) : Prop :=
  (m ≠ .all → Readable st .em) ∧ (m = .emCm ∨ m = .emNotCm → Readable st .cm)

/-- A destination of `n` registers or SQ entries can take a result (R39, R111, R136, R212). -/
def DstRoom (st : Strand) (d : VDst) (n : Nat) : Prop :=
  match d with
  | .v m => ∀ j < n, regOut st (.v (groupV st m j)) = false
  | .sq => st.sq.length + n ≤ 8 ∧ st.pred = none
  | .vcq => st.vcq.length < 8

/-- The registers of a destination before and after a word, or the SQ entries that it has pushed. -/
def dstBefore (st : Strand) (d : VDst) (n : Nat) : List Nat :=
  match d with
  | .v m => (List.range n).map fun j => (latest st (.v (groupV st m j))).toNat
  | _ => List.replicate n 0

def dstAfter (st u : Strand) (d : VDst) (n : Nat) : List Nat :=
  match d with
  | .v m => (List.range n).map fun j => (latest u (.v (groupV st m j))).toNat
  | _ => (u.sq.drop st.sq.length).map fun (y : SqEntry) => y.data.toNat

/-- What else a word of V leaves: registers other than its destination, the queues it does not name, and the rest of the
strand. -/
def DstFrame (st u : Strand) (d : VDst) (n : Nat) : Prop :=
  (∀ r, (∀ m, d = .v m → ∀ j < n, r ≠ .v (groupV st m j)) → latest u r = latest st r) ∧
    (d ≠ .sq → u.sq = st.sq) ∧ (d ≠ .vcq → u.vcq = st.vcq) ∧
    (d = .sq → ∃ l : List SqEntry, u.sq = st.sq ++ l ∧ l.length = n ∧ ∀ y ∈ l, y.poison = false) ∧
    restOf u = restOf { st with lq := u.lq, sq := u.sq, vcq := u.vcq, qV := u.qV, tok := u.tok }

/-- The word completes at V, having read its operands, and leaves everything else outside its strand. -/
def VDone (i : Instr) (s : State) (st : Strand) (lq' : List LqEntry) (t : State) (u : Strand) : Prop :=
  Goes i s st .v t u ∧ u.lq = lq' ∧ SameElsewhere s t ∧ SameOthers .v st u

/-- The union of the flags of the enabled lanes below `n`. -/
def laneFlags (on : Nat → Bool) (n : Nat) (f : Nat → BitVec 6) : BitVec 6 :=
  ((List.range n).filter on).foldl (fun x i => x ||| f i) 0

/-- A word of V that gives each enabled lane `f` of its operands: `n` lanes of `w` bits, which `view` reads from the
`nd` registers of the destination. A disabled lane keeps its value in a register and is zero in SQ (R173). -/
def LaneWord (i : Instr) (s : State) (st : Strand) (h : Hdr) (lanes : Mk) (d : VDst) (nd : Nat)
    (srcs : List (Nat × VSrc)) (n w : Nat) (view : List Nat → List Nat) (f : List (List Nat) → Nat → Nat × BitVec 6)
    (ok : List (List Nat) → Prop := fun _ => True) : Prop :=
  ∀ ops lq', TokensReady st .v h.tk → Operands st srcs st.lq ops lq' → LanesKnown st lanes → d ≠ .vcq →
    DstRoom st d nd → ok ops →
    ∃ t u, VDone i s st lq' t u ∧ DstFrame st u d nd ∧ u.qV = st.qV ∧
      allFlags u = allFlags st ||| laneFlags (laneOn st lanes) n (fun i => (f ops i).2) ∧
      ∀ i < n, (view (dstAfter st u d nd)).getD i 0 =
        if laneOn st lanes i then (f ops i).1 % 2 ^ w else (view (dstBefore st d nd)).getD i 0

/-- Element `i` of operand `k`. -/
def arg (t : Ty) (ops : List (List Nat)) (k i : Nat) : Nat := (elemsOf t (ops.getD k [])).getD i 0

/-- No enabled t6 container has bit 7 or 6 set (R157). -/
def T6Ok (st : Strand) (c : VCtl) (ops : List (List Nat)) : Prop :=
  c.ty = .t6 → ∀ k < ops.length, ∀ i < 512, laneOn st c.lanes i = true → arg .t6 ops k i < 64

/-- An element-wise word: every operand and the destination are of the word's type (R173). -/
def Elementwise (i : Instr) (s : State) (st : Strand) (c : VCtl) (d : VDst) (srcs : List VSrc)
    (f : (Nat → Nat) → Nat × BitVec 6) : Prop :=
  LaneWord i s st c.h c.lanes d c.ty.regs (srcs.map fun x => (c.ty.regs, x)) c.ty.count c.ty.width (elemsOf c.ty)
    (fun ops j => f fun k => arg c.ty ops k j) (T6Ok st c)

/-- A word that moves or combines bits element by element, whatever they stand for. -/
def BitLanes (i : Instr) (s : State) (st : Strand) (c : VCtl) (d : VDst) (srcs : List VSrc) (f : (Nat → Nat) → Nat) :
    Prop :=
  LaneWord i s st c.h c.lanes d c.ty.regs (srcs.map fun x => (c.ty.regs, x)) c.ty.count c.ty.width (elemsOf c.ty)
    fun ops j => (f fun k => arg c.ty ops k j, 0)

/-- The number that an integer element holds (R140). -/
def intOf (t : Ty) (x : Nat) : Int :=
  if t.isSigned = true then (BitVec.ofNat t.width x).toInt else (x % 2 ^ t.width : Nat)

/-- An exact result wrapped, or clamped to the type's range (R142). -/
def fit (t : Ty) (sat : Bool) (z : Int) : Nat :=
  (BitVec.ofInt t.width (if sat then max t.lo (min t.hi z) else z)).toNat

end Sys2Proof.Claims

/-- R142, R176, R177: the arithmetic words on integer types. No flag is raised. -/
def Sys2Proof.Claims.VectorIntegerWords : Prop :=
  ∀ s st (c : VCtl) d a b x, AtEngine s .v st → c.ty.isInt = true →
    let word := fun (i : Instr) (srcs : List VSrc) (sat : Bool) (f : (Nat → Int) → Int) =>
      Elementwise i s st c d srcs fun l => (fit c.ty sat (f fun k => intOf c.ty (l k)), 0)
    word (.vadd c d a b) [a, b] c.sat (fun l => l 0 + l 1) ∧
    word (.vsub c d a b) [a, b] c.sat (fun l => l 0 - l 1) ∧
    word (.vmul c d a b) [a, b] c.sat (fun l => l 0 * l 1) ∧
    word (.vfma c d a b x) [a, b, x] c.sat (fun l => l 0 * l 1 + l 2) ∧
    word (.vfms c d a b x) [a, b, x] c.sat (fun l => l 0 * l 1 - l 2) ∧
    word (.vmin c d a b) [a, b] c.sat (fun l => min (l 0) (l 1)) ∧
    word (.vmax c d a b) [a, b] c.sat (fun l => max (l 0) (l 1)) ∧
    word (.vabs c d a) [a] c.sat (fun l => |l 0|) ∧
    word (.vneg c d a) [a] c.sat (fun l => -l 0) ∧
    word (.vadds c d a b) [a, b] true (fun l => l 0 + l 1) ∧
    word (.vsubs c d a b) [a, b] true (fun l => l 0 - l 1) ∧
    word (.vmulh c d a b) [a, b] false (fun l => l 0 * l 1 / 2 ^ c.ty.width)

/-- R178, R182, R187: logic, shifts, moves and selection. -/
def Sys2Proof.Claims.VectorBitWords : Prop :=
  ∀ s st (c : VCtl) d a b, AtEngine s .v st →
    let w := c.ty.width
    let word := fun (i : Instr) (srcs : List VSrc) (f : (Nat → Nat) → Nat) => BitLanes i s st c d srcs f
    word (.vand c d a b) [a, b] (fun l => l 0 &&& l 1) ∧
    word (.vor c d a b) [a, b] (fun l => l 0 ||| l 1) ∧
    word (.vxor c d a b) [a, b] (fun l => l 0 ^^^ l 1) ∧
    word (.vshl c d a b) [a, b] (fun l => (BitVec.ofNat w (l 0) <<< (l 1 % w)).toNat) ∧
    word (.vshr c d a b) [a, b] (fun l => (BitVec.ofNat w (l 0) >>> (l 1 % w)).toNat) ∧
    word (.vsra c d a b) [a, b] (fun l => ((BitVec.ofNat w (l 0)).sshiftRight (l 1 % w)).toNat) ∧
    Elementwise (.vmov c d a) s st c d [a] (fun l => (l 0, 0)) ∧
    (Readable st .cm → LaneWord (.vsel c d a b) s st c.h c.lanes d c.ty.regs [(c.ty.regs, a), (c.ty.regs, b)] c.ty.count w
      (elemsOf c.ty) (fun ops i => (if (regBits st .cm).getLsbD i then arg c.ty ops 0 i else arg c.ty ops 1 i, 0))
      (T6Ok st c))

namespace Sys2Proof.Claims

open Sys2Proof Machine

/-- A lane of an arithmetic word on a floating-point or tapered type: the operands are decoded, `op` gives the exact
result and its flags, and the result is rounded once (R174). -/
def roundedLane (st : Strand) (c : VCtl) (op : RMode → (Nat → FV) → FV × BitVec 6) (l : Nat → Nat) : Nat × BitVec 6 :=
  let m := rmodeOf st .v c.rm
  let fl := flushes st .v
  let r := op m fun k => decodeV c.ty fl (l k)
  let e := encodeV c.ty m fl r.1
  (e.1, r.2 ||| e.2)

/-- The rational number that a finite value stands for. -/
def ratOf : FV → ℚ
  | .num neg m e => (if neg then -1 else 1) * m * 2 ^ e
  | _ => 0

def IsNum (x : FV) : Prop := ∃ n m e, x = .num n m e

end Sys2Proof.Claims

/-- R144, R174, R176: the arithmetic words on floating-point and tapered types round one exact result; a NaN operand gives
the canonical NaN, NaR on tapered types; `vneg` and `vabs` change a number's sign bit alone (R177). -/
def Obligations.VectorFloatWords : Prop :=
  ∀ s st (c : VCtl) d a b x, AtEngine s .v st → (c.ty.isF || c.ty.isT) = true →
    let word := fun (i : Instr) (srcs : List VSrc) (op : RMode → (Nat → FV) → FV × BitVec 6) =>
      Elementwise i s st c d srcs (roundedLane st c op)
    word (.vadd c d a b) [a, b] (fun m l => addFV m (l 0) (l 1)) ∧
    word (.vsub c d a b) [a, b] (fun m l => addFV m (l 0) (l 1).neg) ∧
    word (.vmul c d a b) [a, b] (fun _ l => mulFV (l 0) (l 1)) ∧
    word (.vfma c d a b x) [a, b, x] (fun m l => fmaFV m (l 0) (l 1) (l 2)) ∧
    word (.vfms c d a b x) [a, b, x] (fun m l => fmaFV m (l 0) (l 1) (l 2).neg) ∧
    word (.vmin c d a b) [a, b] (fun _ l => minFV false (l 0) (l 1)) ∧
    word (.vmax c d a b) [a, b] (fun _ l => minFV true (l 0) (l 1)) ∧
    (c.ty.isF = true →
      let sign := fun (neg : Bool) (l : Nat → Nat) =>
        let f := fmtOf c.ty
        match decodeF f (flushes st .v) (l 0) with
        | .nan sig => (fNan f, if sig then (1 : BitVec 6) else 0)
        | .num n 0 _ => (fZero f (neg && !n), 0)
        | _ => ((if neg then BitVec.ofNat c.ty.width (l 0) ^^^ BitVec.intMin c.ty.width
            else BitVec.ofNat c.ty.width (l 0) &&& ~~~BitVec.intMin c.ty.width).toNat, 0)
      Elementwise (.vneg c d a) s st c d [a] (sign true) ∧ Elementwise (.vabs c d a) s st c d [a] (sign false)) ∧
    (c.ty.isT = true →
      let n := if c.ty = .t6 then 5 else 7
      let sign := fun (neg : Bool) (l : Nat → Nat) =>
        let y := l 0 % 2 ^ (n + 1)
        (if y = 2 ^ n ∨ neg = true ∧ y = 0 then y else if neg then (y + 2 ^ n) % 2 ^ (n + 1) else y % 2 ^ n, (0 : BitVec 6))
      Elementwise (.vneg c d a) s st c d [a] (sign true) ∧ Elementwise (.vabs c d a) s st c d [a] (sign false)) ∧
    (∀ ops lq', TokensReady st .v c.h.tk → Operands st [(c.ty.regs, a), (c.ty.regs, b)] st.lq ops lq' →
      LanesKnown st c.lanes → ¬ T6Ok st c ops → Traps (.vadd c d a b) s st .v .opField 0)

/-- R144, R146: the exact operations behind the words: on finite values the sum, product and fused product of rational
numbers, an invalid operation and a NaN operand a NaN, and the flags they raise. -/
def Sys2Proof.Claims.ExactOperations : Prop :=
  (∀ m x y z, IsNum x → IsNum y → IsNum z →
    IsNum (addFV m x y).1 ∧ ratOf (addFV m x y).1 = ratOf x + ratOf y ∧ (addFV m x y).2 = 0 ∧
    IsNum (mulFV x y).1 ∧ ratOf (mulFV x y).1 = ratOf x * ratOf y ∧ (mulFV x y).2 = 0 ∧
    IsNum (fmaFV m x y z).1 ∧ ratOf (fmaFV m x y z).1 = ratOf x * ratOf y + ratOf z ∧ (fmaFV m x y z).2 = 0 ∧
    ratOf (minFV false x y).1 = min (ratOf x) (ratOf y) ∧ ratOf (minFV true x y).1 = max (ratOf x) (ratOf y) ∧
    (ltFV false x y = true ↔ ratOf x < ratOf y) ∧ (eqFV x y = true ↔ ratOf x = ratOf y)) ∧
  (∀ m x y, x.isNan = true ∨ y.isNan = true →
    (addFV m x y).1.isNan = true ∧ (mulFV x y).1.isNan = true ∧ (minFV false x y).1.isNan = true ∧
    (minFV true x y).1.isNan = true ∧
    ∀ op ∈ [(addFV m x y).2, (mulFV x y).2, (minFV false x y).2, (minFV true x y).2],
      (op = 1 ↔ x = .nan true ∨ y = .nan true) ∧ (op = 0 ↔ ¬ (x = .nan true ∨ y = .nan true))) ∧
  (∀ m n, addFV m (.inf n) (.inf !n) = (.nan false, 1) ∧ addFV m (.inf n) (.inf n) = (.inf n, 0)) ∧
  (∀ m n b e x, addFV m (.inf n) (.num b x e) = (.inf n, 0) ∧ addFV m (.num b x e) (.inf n) = (.inf n, 0) ∧
    mulFV (.inf n) (.num b 0 e) = (.nan false, 1) ∧ mulFV (.num b 0 e) (.inf n) = (.nan false, 1) ∧
    mulFV (.inf n) (.num b (x + 1) e) = (.inf (n != b), 0) ∧ mulFV (.num b (x + 1) e) (.inf n) = (.inf (n != b), 0)) ∧
  (∀ f ∈ [fmt16, fmtBf, fmt32, fmt64], ∀ m fl sig, encodeF f m fl (.nan sig) = (fNan f, 0))

/-- R144, R145, R147: the one rounding of a result, in each mode and format, with subnormals honoured: no value of the
format lies closer, or between, and halfway cases go to the even code; a rounded value beyond the range becomes an infinity
or the largest value as the mode gives. -/
def Sys2Proof.Claims.FloatRounding : Prop :=
  ∀ f ∈ [fmt16, fmtBf, fmt32, fmt64], ∀ (neg : Bool) (m : Nat) (e : Int), 0 < m →
    let x := ratOf (.num neg m e)
    let code := fun mode => (encodeF f mode false (.num neg m e)).1
    let val := fun y => decodeF f false y
    let most : ℚ := (2 ^ (f.mb + 1) - 1) * 2 ^ ((fmtBias f : Int) - f.mb)
    let half : ℚ := 2 ^ ((fmtBias f : Int) - f.mb - 1)
    (∀ mode, code mode < 2 ^ fmtWidth f ∧ (code mode).testBit (f.eb + f.mb) = neg) ∧
    (IsNum (val (code .rz)) ∧ |ratOf (val (code .rz))| ≤ |x| ∧
      ∀ y, IsNum (val y) → |ratOf (val y)| ≤ |x| → |ratOf (val y)| ≤ |ratOf (val (code .rz))|) ∧
    ((x < -most → code .rd = fInf f true) ∧ (-most ≤ x → IsNum (val (code .rd)) ∧ ratOf (val (code .rd)) ≤ x ∧
      ∀ y, IsNum (val y) → ratOf (val y) ≤ x → ratOf (val y) ≤ ratOf (val (code .rd)))) ∧
    ((most < x → code .ru = fInf f false) ∧ (x ≤ most → IsNum (val (code .ru)) ∧ x ≤ ratOf (val (code .ru)) ∧
      ∀ y, IsNum (val y) → x ≤ ratOf (val y) → ratOf (val (code .ru)) ≤ ratOf (val y))) ∧
    ((most + half ≤ |x| → code .ne = fInf f neg) ∧ (|x| < most + half → IsNum (val (code .ne)) ∧
      ∀ y, IsNum (val y) → |x - ratOf (val (code .ne))| ≤ |x - ratOf (val y)| ∧
        (|x - ratOf (val (code .ne))| = |x - ratOf (val y)| → ratOf (val y) = ratOf (val (code .ne)) ∨ code .ne % 2 = 0)))

namespace Sys2Proof.Claims

open Sys2Proof Machine

/-- The elements of a destination of `k` registers of width `w`, interleaved (R169). -/
def interleaved (w k n : Nat) (regs : List Nat) : List Nat := elemsOfGroup w k n regs

/-- The type that a widening gives (R179). -/
def widened (t : Ty) (k4 : Bool) : Ty :=
  if t.isF then .f32
  else match t.isSigned, t.width * factor k4 with
    | true, 8 => .i8 | true, 16 => .i16 | true, _ => .i32
    | false, 8 => .u8 | false, 16 => .u16 | false, _ => .u32

end Sys2Proof.Claims

/-- R179 to R181: widening, narrowing and conversion, with the interleave of R169. A conversion to an integer type rounds
and clamps (R143); one to a floating-point or tapered type rounds the exact value once. -/
def Sys2Proof.Claims.VectorConversions : Prop :=
  ∀ s st (c : VCtl) (k4 : Bool) (dst : Ty) d a b, AtEngine s .v st →
    let m := rmodeOf st .v c.rm
    let fl := flushes st .v
    (widenOk c.ty k4 = true →
      let t := widened c.ty k4
      let k := factor k4
      let word := fun (i : Instr) (fi : Int → Int → Int) (ff : FV → FV → FV × BitVec 6) =>
        LaneWord i s st c.h c.lanes d k [(1, a), (1, b)] c.ty.count t.width (interleaved t.width k c.ty.count)
          fun ops j =>
            if c.ty.isInt then (fit t false (fi (intOf c.ty (arg c.ty ops 0 j)) (intOf c.ty (arg c.ty ops 1 j))), 0)
            else
              let r := ff (decodeV c.ty fl (arg c.ty ops 0 j)) (decodeV c.ty fl (arg c.ty ops 1 j))
              let e := encodeV .f32 m fl r.1
              (e.1, r.2 ||| e.2)
      word (.vwmul c k4 d a b) (· * ·) mulFV ∧ word (.vwadd c k4 d a b) (· + ·) (addFV m)) ∧
    (narrowOk c.ty k4 = true →
      let w := c.ty.width
      let k := factor k4
      LaneWord (.vnarrow c k4 d a) s st c.h c.lanes d 1 [(k, a)] c.ty.count w (elemsOf c.ty) fun ops j =>
        let y := (interleaved (k * w) k c.ty.count (ops.getD 0 [])).getD j 0
        (fit c.ty c.sat (if c.ty.isSigned then (BitVec.ofNat (k * w) y).toInt else (y : Int)), 0)) ∧
    (cvtOk c.ty dst = true →
      let n := max c.ty.count dst.count
      let given := fun regs => if c.ty = .f64 ∨ dst = .f64 then elemsOf c.ty regs
        else interleaved c.ty.width (cvtSrcRegs c.ty dst) (cvtSrcRegs c.ty dst * c.ty.count) regs
      let into := fun regs => if c.ty = .f64 ∨ dst = .f64 then elemsOf dst regs
        else interleaved dst.width (cvtDstRegs c.ty dst) (cvtDstRegs c.ty dst * dst.count) regs
      LaneWord (.vcvt c dst d a) s st c.h c.lanes d (cvtDstRegs c.ty dst) [(cvtSrcRegs c.ty dst, a)] n dst.width into
        (fun ops j =>
          let v := decodeV c.ty fl ((given (ops.getD 0 [])).getD j 0)
          if dst.isInt then toIntType dst m v
          else
            let e := encodeV dst m fl v
            (e.1, e.2 ||| sigNv v))
        fun ops => c.ty = .t6 → ∀ j < n, laneOn st c.lanes j = true → (given (ops.getD 0 [])).getD j 0 < 64) ∧
    (∀ t v, t.isInt = true → IsNum v →
      let x := ratOf v
      let z := fun mode => (toIntType t mode v).1
      z .rd = fit t true ⌊x⌋ ∧ z .ru = fit t true ⌈x⌉ ∧ z .rz = fit t true (if x < 0 then ⌈x⌉ else ⌊x⌋) ∧
      z .ne = fit t true (if x - ⌊x⌋ < 1 / 2 ∨ x - ⌊x⌋ = 1 / 2 ∧ ⌊x⌋ % 2 = 0 then ⌊x⌋ else ⌊x⌋ + 1))

/-- R157, R183, R184, R188, R189: immediates, broadcasts and permutes. -/
def Sys2Proof.Claims.VectorMoves : Prop :=
  ∀ s st (c : VCtl) d a b x (imm : BitVec 27) (stride : BitVec 7), AtEngine s .v st →
    let t := c.ty
    let n := t.count
    let word := fun (i : Instr) (lanes : Mk) (srcs : List (Nat × VSrc)) (f : List (List Nat) → Nat → Nat)
        (ok : List (List Nat) → Prop) =>
      LaneWord i s st c.h lanes d t.regs srcs n t.width (elemsOf t) (fun ops j => (f ops j, 0)) ok
    let any := fun (_ : List (List Nat)) => True
    let whole := fun (k : Nat) (ops : List (List Nat)) => t = .t6 → ∀ i < k, ∀ j < n, arg t ops i j < 64
    let low := fun (ops : List (List Nat)) (k : Nat) => (ops.getD k []).getD 0 0 % 2 ^ 32
    let index := fun (regs : List Nat) (i : Nat) =>
      if t.width = 8 ∨ t.width = 4 then elem (regs.getD (i / 256) 0) 16 (i % 256)
      else if t.width = 64 then elem (regs.getD 0 0) 32 i else elem (regs.getD 0 0) t.width i
    let pair := fun (ops : List (List Nat)) (j : Nat) => if j < n then arg t ops 0 j else arg t ops 1 (j - n)
    (t.isInt = true → word (.vmovi c.h t d imm) .em [] (fun _ _ => fit t false imm.toInt) any) ∧
    (t.isT = true → word (.vmovi c.h t d imm) .em [] (fun _ _ => imm.toNat % 256) any) ∧
    (t.isF = true → word (.vmovi c.h t d imm) .em []
      (fun _ _ => (encodeF (fmtOf t) .ne false (decodeF fmt32 false (imm.toNat * 32))).1) any) ∧
    word (.vidx c.h t d stride imm) .em [] (fun _ i => fit t false (imm.toInt + i * stride.toNat)) any ∧
    word (.vbcast c d a b) c.lanes [(t.regs, a), (t.regs, b)] (fun ops _ => arg t ops 0 (low ops 1 % n))
      (fun ops => t = .t6 → arg t ops 0 (low ops 1 % n) < 64) ∧
    word (.vperm c d a x) c.lanes [(t.regs, a), (indexRegs t, x)]
      (fun ops i => arg t ops 0 (index (ops.getD 1 []) i % n)) (whole 1) ∧
    word (.vshuf c d a b x) c.lanes [(t.regs, a), (t.regs, b), (indexRegs t, x)]
      (fun ops i => pair ops (index (ops.getD 2 []) i % (2 * n))) (whole 2) ∧
    word (.vrot c d a b) c.lanes [(t.regs, a), (t.regs, b)] (fun ops i => arg t ops 0 ((i + low ops 1) % n)) (whole 1) ∧
    word (.vslide c d a b x) c.lanes [(t.regs, a), (t.regs, b), (t.regs, x)]
      (fun ops i => pair ops (i + min (low ops 2) n)) (whole 2) ∧
    (∀ y rest, TokensReady st .v c.h.tk → st.qV = y :: rest → LanesKnown st c.lanes → d ≠ .vcq → DstRoom st d t.regs →
      ∃ t' u, VDone (.vbcastQ c d) s st st.lq t' u ∧ DstFrame st u d t.regs ∧ u.qV = rest ∧ allFlags u = allFlags st ∧
        ∀ i < n, (elemsOf t (dstAfter st u d t.regs)).getD i 0 =
          if laneOn st c.lanes i then y.toNat % 2 ^ t.width else (elemsOf t (dstBefore st d t.regs)).getD i 0) ∧
    (∀ ops lq', TokensReady st .v c.h.tk → Operands st [(1, a), (1, b)] st.lq ops lq' → c.lanes = .all →
      t.width ∈ [8, 16, 32] → d ≠ .vcq → DstRoom st d 1 →
      (t = .t6 → ∀ j < popcount ((ops.getD 0 []).getD 0 0) n, arg t ops 1 j < 64) →
      ∃ t' u, VDone (.vexpand c d a b) s st lq' t' u ∧ DstFrame st u d 1 ∧ allFlags u = allFlags st ∧
        ∀ i < n, (elemsOf t (dstAfter st u d 1)).getD i 0 =
          let mask := (ops.getD 0 []).getD 0 0
          if mask.testBit i then elem ((ops.getD 1 []).getD 0 0) t.width (((List.range i).filter mask.testBit).length)
          else 0) ∧
    (∀ ops lq', TokensReady st .v c.h.tk → Operands st [(1, a)] st.lq ops lq' → LanesKnown st c.lanes →
      t.width ∈ [8, 16, 32] → d ≠ .vcq → DstRoom st d 2 → T6Ok st c ops →
      ∃ t' u, VDone (.vcompress c d a) s st lq' t' u ∧ DstFrame st u d 2 ∧ allFlags u = allFlags st ∧
        (∀ i < 4096, ((dstAfter st u d 2).getD 0 0).testBit i = (decide (i < n) && laneOn st c.lanes i)) ∧
        let on := (List.range n).filter (laneOn st c.lanes)
        ∀ j < n, elem ((dstAfter st u d 2).getD 1 0) t.width j = if j < on.length then arg t ops 0 (on.getD j 0) else 0)

namespace Sys2Proof.Claims

open Sys2Proof Machine

/-- A word that writes all of one mask register: bit `j` is `f j`. -/
def MaskWord (i : Instr) (s : State) (st : Strand) (r : Reg) (srcs : List (Nat × VSrc)) (lanes : Mk) (tk : Tk)
    (f : List (List Nat) → Nat → Bool) (fl : List (List Nat) → BitVec 6 := fun _ => 0)
    (ok : List (List Nat) → Prop := fun _ => True) : Prop :=
  ∀ ops lq', TokensReady st .v tk → Operands st srcs st.lq ops lq' → LanesKnown st lanes → ok ops →
    ∃ t u, VDone i s st lq' t u ∧ (∀ j < 1024, (latest u r).getLsbD j = f ops j) ∧
      (∀ q, q ≠ r → latest u q = latest st q) ∧ restOf u = restOf { st with lq := lq', tok := u.tok } ∧
      allFlags u = allFlags st ||| fl ops

end Sys2Proof.Claims

/-- R171, R185, R186, R195, R198: compares, classes and conflicts write `cm`; the mask words move and combine masks. -/
def Sys2Proof.Claims.MaskWords : Prop :=
  ∀ s st (c : VCtl) (fn : VCmp) (andCm : Bool) (cls : BitVec 5) (neg pos : Bool) (a b : VSrc) (h : Hdr) (n : BitVec 3),
    AtEngine s .v st →
    let t := c.ty
    let regs := fun (l : List VSrc) => l.map fun x => (t.regs, x)
    let on := laneOn st c.lanes
    let oldCm := fun j => (regBits st .cm).getLsbD j
    let cmp := fun (x y : FV) => match fn with
      | .eq => eqFV x y
      | .ne => !eqFV x y
      | .lt => !(x.isNan || y.isNan) && ltFV false x y
      | .le => !(x.isNan || y.isNan) && (ltFV false x y || eqFV x y)
      | .gt => !(x.isNan || y.isNan) && ltFV false y x
      | .ge => !(x.isNan || y.isNan) && (ltFV false y x || eqFV x y)
      | .un => x.isNan || y.isNan
      | .ord => !(x.isNan || y.isNan)
    let val := decodeV t (flushes st .v)
    let nv := fun (x y : FV) => x == .nan true || y == .nan true ||
      (fn == .lt || fn == .le || fn == .gt || fn == .ge) && (x.isNan || y.isNan)
    let saved : Reg := .mk (Fin.ofNat 6 n.toNat)
    let sel := fun (m : MaskSel) (j : Nat) => match m with
      | .mk k => (regBits st (.mk (Fin.ofNat 6 k.toNat))).getLsbD j
      | .cm => (regBits st .cm).getLsbD j
      | .ones => true
    let selOk := fun (m : MaskSel) => match m with
      | .mk k => Readable st (.mk (Fin.ofNat 6 k.toNat))
      | .cm => Readable st .cm
      | .ones => True
    let em := fun j => (regBits st .em).getLsbD j
    ((andCm = true → Readable st .cm) →
      MaskWord (.vcmp c fn andCm a b) s st .cm (regs [a, b]) c.lanes c.h.tk
        (fun ops j => decide (j < t.count) && on j && cmp (val (arg t ops 0 j)) (val (arg t ops 1 j)) &&
          (!andCm || oldCm j))
        (fun ops => laneFlags on t.count fun j =>
          if nv (val (arg t ops 0 j)) (val (arg t ops 1 j)) then 1 else 0)
        (T6Ok st c)) ∧
    MaskWord (.vclass c cls neg pos a) s st .cm (regs [a]) c.lanes c.h.tk
      (fun ops j => decide (j < t.count) && on j && (
        let x := arg t ops 0 j
        let v := decodeV t false x
        let sign := x.testBit (if t.isT then (if t = .t6 then 5 else 7) else t.width - 1)
        let k := match v with
          | .nan _ => 0
          | .inf _ => 1
          | .num _ 0 _ => 2
          | .num _ m _ => if t.isF && decide (m < 2 ^ (fmtOf t).mb) then 3 else 4
        cls.getLsbD k && (k != 0 || !neg && !pos) && (!neg || sign) && (!pos || !sign)))
      (fun _ => 0) (T6Ok st c) ∧
    (t.width = 32 → MaskWord (.vconf c a) s st .cm (regs [a]) c.lanes c.h.tk
      fun ops j => decide (j < 128) && on j &&
        (List.range j).any fun k => on k && arg t ops 0 k == arg t ops 0 j) ∧
    (∀ fromCm, Readable st (if fromCm then .cm else .em) →
      MaskWord (.emsave h n fromCm) s st saved [] .all h.tk
        fun _ j => (regBits st (if fromCm then .cm else .em)).getLsbD j) ∧
    (∀ m, selOk m → MaskWord (.emrest h m) s st .em [] .all h.tk fun _ j => sel m j) ∧
    (∀ m op, selOk m → Readable st .em → MaskWord (.emcomb h op m) s st .em [] .all h.tk fun _ j =>
      match op with
      | .and => em j && sel m j
      | .andn => em j && !sel m j
      | .or => em j || sel m j
      | .xor => em j != sel m j)

/-- R165, R190 to R192: reductions and queries, with their result in VCQ or in element 0 of a register. -/
def Sys2Proof.Claims.VectorScalarResults : Prop :=
  ∀ s st (c : VCtl) (d : VDst) (a : VSrc), AtEngine s .v st → d ≠ .sq →
    let t := c.ty
    let on := (List.range t.count).filter (laneOn st c.lanes)
    let gives := fun (i : Instr) (srcs : List (Nat × VSrc)) (k : Nat) (f : List (List Nat) → Nat × BitVec 6)
        (wide : Nat → Nat) (ok : Prop) =>
      ∀ ops lq', TokensReady st .v c.h.tk → Operands st srcs st.lq ops lq' → LanesKnown st c.lanes → DstRoom st d k → ok →
        ∃ t' u, VDone i s st lq' t' u ∧ DstFrame st u d k ∧ allFlags u = allFlags st ||| (f ops).2 ∧
          (d = .vcq → u.vcq = st.vcq ++ [BitVec.ofNat 64 (wide (f ops).1)]) ∧
          ∀ m, d = .v m → ∀ j < k, (latest u (.v (groupV st m j))).toNat =
            if k = 2 then (f ops).1 / 2 ^ (32 * j) % 2 ^ 32 else (f ops).1
    let red := fun (fn : VRedFn) (f : List (List Nat) → Nat × BitVec 6) =>
      gives (.vred c fn d a) [(t.regs, a)] t.regs f
        (fun x => if t.isSigned then (BitVec.ofInt 64 (intOf t x)).toNat else x) True
    let vals := fun (ops : List (List Nat)) => on.map fun j => arg t ops 0 j
    let ints := fun (ops : List (List Nat)) => (vals ops).map (intOf t)
    (t.isInt = true →
      (c.sat = false → red .add fun ops => (fit t false (ints ops).sum, 0)) ∧
      red .min (fun ops => (fit t false ((ints ops).foldl min t.hi), 0)) ∧
      red .max (fun ops => (fit t false ((ints ops).foldl max t.lo), 0))) ∧
    (t.isInt = true ∨ t = .b →
      red .and (fun ops => ((vals ops).foldl (· &&& ·) (2 ^ t.width - 1), 0)) ∧
      red .or (fun ops => ((vals ops).foldl (· ||| ·) 0, 0)) ∧
      red .xor (fun ops => ((vals ops).foldl (· ^^^ ·) 0, 0))) ∧
    ((t.isF = true ∨ t.isInt = true) → ∀ fn ∈ [VRedFn.add, VRedFn.min, VRedFn.max],
      red fn fun ops => reduceTree (redLane c fn st) t.count.log2
        ((List.range t.count).map fun j => if laneOn st c.lanes j then arg t ops 0 j else redIdentity fn t)) ∧
    (let cm := fun j => (regBits st .cm).getLsbD j
     let any := fun (fn : VAnyFn) (x : Nat) => gives (.vany c fn d) [] t.regs (fun _ => (x, 0)) id (Readable st .cm)
     any .any (if ∃ j ∈ on, cm j = true then 1 else 0) ∧ any .all (if ∀ j ∈ on, cm j = true then 1 else 0) ∧
     any .cnt (on.countP cm) ∧ any .first ((on.find? cm).getD (2 ^ 64 - 1)))

/-! ## Special functions and predicates -/

/-- R202 to R204: the special functions complete lane by lane, with the values of R203 for special operands; the bounded
functions stay in their range whatever value the device returns, and `vsqrt` is correctly rounded. -/
def Sys2Proof.Claims.SpecialFunctionWords : Prop :=
  (∀ s st (c : VCtl) d a, AtEngine s .v st → c.ty.isF = true →
    let word := fun (i : Instr) (k : SpecialFn) =>
      LaneWord i s st c.h c.lanes d c.ty.regs [(c.ty.regs, a)] c.ty.count c.ty.width (elemsOf c.ty)
        fun ops j => specialLane k c.ty (rmodeOf st .v c.rm) (flushes st .v) (arg c.ty ops 0 j)
    word (.vexp2 c d a) specExp2 ∧ word (.vlog2 c d a) specLog2 ∧ word (.vexp c d a) specExp ∧
    word (.vlog c d a) specLog ∧ word (.vrcp c d a) specRcp ∧ word (.vrsqrt c d a) specRsqrt ∧
    word (.vsqrt c d a) specSqrt ∧ word (.vtanh c d a) specTanh ∧ word (.vsigm c d a) specSigm) ∧
  (∀ t m fl, t.isF = true →
    let f := fmtOf t
    let one := fmtBias f * 2 ^ f.mb
    let half := (fmtBias f - 1) * 2 ^ f.mb
    let minus := fun x => x + 2 ^ (f.eb + f.mb)
    let nv := (fNan f, (1 : BitVec 6))
    -- the values at −∞, −0, +0 and +∞
    let row := fun (k : SpecialFn) (w x y z : Nat × BitVec 6) =>
      specialLane k t m fl (fInf f true) = w ∧ specialLane k t m fl (minus 0) = x ∧ specialLane k t m fl 0 = y ∧
        specialLane k t m fl (fInf f false) = z
    row specExp2 (0, 0) (one, 0) (one, 0) (fInf f false, 0) ∧ row specExp (0, 0) (one, 0) (one, 0) (fInf f false, 0) ∧
    row specLog2 nv (fInf f true, 2) (fInf f true, 2) (fInf f false, 0) ∧
    row specLog nv (fInf f true, 2) (fInf f true, 2) (fInf f false, 0) ∧
    row specRcp (minus 0, 0) (fInf f true, 2) (fInf f false, 2) (0, 0) ∧
    row specRsqrt nv (fInf f true, 2) (fInf f false, 2) (0, 0) ∧
    row specSqrt nv (minus 0, 0) (0, 0) (fInf f false, 0) ∧
    row specTanh (minus one, 0) (minus 0, 0) (0, 0) (one, 0) ∧ row specSigm (0, 0) (half, 0) (half, 0) (one, 0) ∧
    ∀ k ∈ [specExp2, specLog2, specExp, specLog, specRcp, specRsqrt, specSqrt, specTanh, specSigm], ∀ x,
      (∀ sig, decodeF f fl x = .nan sig → specialLane k t m fl x = (fNan f, if sig then 1 else 0)) ∧
      (∀ b e, k ∈ [specLog2, specLog, specRsqrt, specSqrt] → decodeF f fl x = .num true (b + 1) e →
        specialLane k t m fl x = nv) ∧
      (IsNum (decodeF f fl x) → k = specTanh → (specialLane k t m fl x).1 % 2 ^ (f.eb + f.mb) ≤ one) ∧
      (IsNum (decodeF f fl x) → k = specSigm → (specialLane k t m fl x).1 ≤ one)) ∧
  (∀ f ∈ [fmt16, fmtBf, fmt32, fmt64], ∀ (m : Nat) (e : Int), 0 < m →
    let x : ℝ := Real.sqrt (ratOf (.num false m e))
    let val := fun mode => ((ratOf (decodeF f false (fnSqrt f mode false m e).1) : ℚ) : ℝ)
    let inRange := (m.log2 + e) / 2 < fmtBias f ∧ (1 - fmtBias f - f.mb : Int) ≤ (m.log2 + e) / 2
    inRange →
      (val .rz = val .rd ∧ val .rd ≤ x ∧ x ≤ val .ru) ∧
      ∀ y, IsNum (decodeF f false y) → let v : ℝ := ((ratOf (decodeF f false y) : ℚ) : ℝ)
        (v ≤ x → v ≤ val .rd) ∧ (x ≤ v → val .ru ≤ v) ∧ |x - val .ne| ≤ |x - v|)

namespace Sys2Proof.Claims

open Sys2Proof Machine

/-- The exact coordinates of a lane's points, `d` for each. -/
def ptsOf (d : Nat) (l : List FV) (k j : Nat) : ℚ := ratOf (l.getD (k * d + j) (.num false 0 0))

/-- The determinants of R207, over the rows that it lists. -/
def det2 (p : Nat → Nat → ℚ) : ℚ := Matrix.det !![p 0 0, p 0 1, 1; p 1 0, p 1 1, 1; p 2 0, p 2 1, 1]

def det3 (p : Nat → Nat → ℚ) : ℚ :=
  Matrix.det (Matrix.of fun (i j : Fin 4) => if j = 3 then 1 else p i j)

def detCirc (p : Nat → Nat → ℚ) : ℚ :=
  Matrix.det (Matrix.of fun (i j : Fin 4) => if j = 3 then 1 else if j = 2 then p i 0 ^ 2 + p i 1 ^ 2 else p i j)

def detSph (p : Nat → Nat → ℚ) : ℚ :=
  Matrix.det (Matrix.of fun (i j : Fin 5) =>
    if j = 4 then 1 else if j = 3 then p i 0 ^ 2 + p i 1 ^ 2 + p i 2 ^ 2 else p i j)

/-- The code of a sign (R209). -/
def signCode (x : ℚ) : Nat := if 0 < x then 1 else if x < 0 then 15 else 0

/-- A point of the segment from point `a` to point `b`. -/
def OnSegment (p : Nat → Nat → ℚ) (a b : Nat) (x y : ℚ) : Prop :=
  ∃ t : ℚ, 0 ≤ t ∧ t ≤ 1 ∧ x = p a 0 + t * (p b 0 - p a 0) ∧ y = p a 1 + t * (p b 1 - p a 1)

end Sys2Proof.Claims

/-- R207 to R210, R214, R217: a lane returns the sign of the exact determinant, or of the segments' meeting; with
identifiers a zero is decided by the tie-break and marked; a coordinate that is not finite gives 0x8000_0000. -/
def Obligations.GeometricSigns : Prop :=
  ∀ (f64 : Bool) (coords : List Nat) (ids : Option (List Nat)),
    let f := if f64 then fmt64 else fmt32
    let vals := coords.map (decodeF f false)
    let code := fun k => (geoEval k f64 coords ids).1
    (∀ k, (∃ v ∈ vals, ¬ IsNum v) → code k = 0x80000000) ∧
    ((∀ v ∈ vals, IsNum v) →
      (∀ p ∈ [(Geo.orient2, 6, 3, det2 (ptsOf 2 vals)), (.orient3, 12, 4, det3 (ptsOf 3 vals)),
          (.incirc, 8, 4, detCirc (ptsOf 2 vals)), (.insph, 15, 5, detSph (ptsOf 3 vals))],
        coords.length = p.2.1 →
          (p.2.2.2 ≠ 0 ∨ ids = none → code p.1 = signCode p.2.2.2) ∧
          (p.2.2.2 = 0 → ∀ l, ids = some l → l.length = p.2.2.1 → code p.1 = 0x11 ∨ code p.1 = 0x1F)) ∧
      (coords.length = 8 → ids = none →
        let p := ptsOf 2 vals
        let o := fun a b c => det2 fun i => p (if i = 0 then a else if i = 1 then b else c)
        let cross := o 0 1 2 * o 0 1 3 < 0 ∧ o 2 3 0 * o 2 3 1 < 0
        let meet := ∃ x y, OnSegment p 0 1 x y ∧ OnSegment p 2 3 x y
        (cross → code .segx = 1) ∧ (¬ meet → code .segx = 15) ∧ (meet → ¬ cross → code .segx = 0)))

/-- R33, R205, R206, R210, R212: a predicate reads its coordinates at issue and runs; its result comes as one write or one
SQ entry when it completes, and NONFINITE follows where the word asks for it. -/
def Sys2Proof.Claims.PredicateWords : Prop :=
  (∀ s st (w : GeoWord), AtEngine s .v st → TokensReady st .v w.tk → st.pred = none → LanesKnown st w.lanes →
    (∀ n, Readable st (.v n)) → (w.d = .sq → st.sq.length < 8) →
    let per := if w.f64 then 2 else 1
    let t : Ty := if w.f64 then .f64 else .f32
    let reg := fun (n : BitVec 6) (j : Nat) => (regBits st (.v (groupV st n j))).toNat
    let coord := fun (m i : Nat) =>
      (elemsOf t ((List.range per).map fun j => reg (w.a + BitVec.ofNat 6 (per * m)) j)).getD i 0
    let starts := fun (k : Geo) (i : Instr) =>
      ∃ u t' run, Goes i s st .v t' u ∧ SameElsewhere s t' ∧ SameOthers .v st u ∧ u.pred = some run ∧ run.word = i ∧
        u.sq = st.sq ∧ u.lq = st.lq ∧ (∀ r, latest u r = latest st r) ∧ run.toSq = (w.d == .sq) ∧
        (∀ n, w.d = .v n → ∃ x, u.pending = st.pending ++ [x] ∧ x.reg = .v (groupV st n 0) ∧ x.val = none ∧ x.lat = 15) ∧
        (∀ i < 128, elem run.wmask.toNat 32 i = if laneOn st w.lanes i then 2 ^ 32 - 1 else 0) ∧
        (∀ i < 128, laneOn st w.lanes i = true → elem run.value.toNat 32 i =
          (geoEval k w.f64 ((List.range (k.points * k.dim)).map fun m => coord m i)
            (w.ids.map fun b => (List.range k.points).map fun m => elem (reg b m) 32 i)).1) ∧
        (w.nf = true → (∃ i < 128, laneOn st w.lanes i = true ∧ elem run.value.toNat 32 i = 0x80000000) → run.nf ≠ none) ∧
        (w.nf = true → ∀ lane, run.nf = some lane → elem run.value.toNat 32 lane = 0x80000000 ∧
          ∀ i < lane, laneOn st w.lanes i = true → elem run.value.toNat 32 i ≠ 0x80000000) ∧
        (w.nf = false → run.nf = none)
    starts .orient2 (.vorient2 w) ∧ starts .orient3 (.vorient3 w) ∧ starts .incirc (.vincirc w) ∧
    starts .insph (.vinsph w) ∧ starts .segx (.vsegx w)) ∧
  (∀ s st run, getStrand s (Walker.ref s.cur) = some st → st.pred = some run →
    ∃ t u, exec .predicateComplete s = .next t ∧ getStrand t (Walker.ref s.cur) = some u ∧ u.pred = none ∧
      (run.nf = none → t.mem = s.mem) ∧
      (run.toSq = true → u.sq = st.sq ++ [{ data := run.value &&& run.wmask, poison := run.poison }]) ∧
      (run.toSq = false → u.sq = st.sq ∧ ∀ n, run.dst = [.v n] →
        (∀ p ∈ st.pending, p.reg = .v n → p.eng = .v ∧ p.pos = run.pos ∧ p.val = none ∧ p.mask = run.wmask) →
        (∃ p ∈ st.pending, p.reg = .v n) → (∀ p ∈ st.pending, p.val = none → p.eng = .v → p.pos = run.pos → p.reg = .v n) →
        regBits u (.v n) = (regBits st (.v n) &&& ~~~run.wmask) ||| (run.value &&& run.wmask)) ∧
      (∀ lane, run.nf = some lane → u.frozen = true ∧ ∃ q, u.faults = addFault st.faults q ∧
        q.trap.cause = .nonFinite ∧ q.trap.addr = lane ∧ q.eng = 2 ∧ q.word = run.index))

/-! ## Accumulator columns, index vectors and spilled registers -/

/-- R112, R197: an index vector is every element with the enabled lanes, sent to the queue that the word names while that
holds fewer than four. -/
def Sys2Proof.Claims.IndexSends : Prop :=
  ∀ s st (c : VCtl) a ops lq', AtEngine s .v st → TokensReady st .v c.h.tk → Operands st [(1, a)] st.lq ops lq' →
    LanesKnown st c.lanes →
    -- entries that L has popped on a leaning arm keep their places (R111, R122)
    let full := fun (q : Strand → List IndexVec) (keeps : Bool) =>
      4 ≤ (q st).length + (match st.lean with | some ln => if keeps then ln.iql.length else 0 | none => 0)
    let sends := fun (i : Instr) (q : Strand → List IndexVec) (keeps : Bool) (others : List (Strand → List IndexVec)) =>
      ¬ full q keeps → ∃ t u x, VDone i s st lq' t u ∧ q u = q st ++ [x] ∧ (∀ p ∈ others, p u = p st) ∧
        x.idx.toNat = (ops.getD 0 []).getD 0 0 ∧ (∀ j < 128, x.en.getLsbD j = laneOn st c.lanes j) ∧
        (∀ r, latest u r = latest st r) ∧ u.sq = st.sq ∧ allFlags u = allFlags st
    let waits := fun (i : Instr) (q : Strand → List IndexVec) (keeps : Bool) => full q keeps → exec i s = .next s
    sends (.vtoix c a) (·.fiq) false [(·.iql), (·.iqs)] ∧ sends (.vtol c a) (·.iql) true [(·.fiq), (·.iqs)] ∧
    sends (.vtos c a) (·.iqs) false [(·.fiq), (·.iql)] ∧
    waits (.vtoix c a) (·.fiq) false ∧ waits (.vtol c a) (·.iql) true ∧ waits (.vtos c a) (·.iqs) false

/-- R53, R196: `vaccrd` and `vaccwr` move a column pair of a tile, `vaccrd` of one that no word of M is writing; an odd
column or one beyond the store raises OPFIELD, and without the matrix unit they raise FOREIGN. -/
def Sys2Proof.Claims.AccumulatorColumns : Prop :=
  ∀ s st (c : VCtl) (d : VDst) a b (k : Nat), AtEngine s .v st → TokensReady st .v c.h.tk → LanesKnown st c.lanes →
    let col := fun (ops : List (List Nat)) (n : Nat) => (ops.getD n []).getD 0 0 % 2 ^ 32
    let tile := BitVec.ofNat 4 (k / 64)
    let x := getAcc st tile
    -- element i of the pair of a tile: rows of column k, then of column k + 1
    let pair := fun (data : BitVec 131072) (i : Nat) => elem data.toNat 32 (64 * (k % 64) + i)
    (c.ty.width = 32 → c.ty ≠ .f64 →
      (∀ ops lq', Operands st [(1, b)] st.lq ops lq' → col ops 0 = k →
        (k % 2 = 0 → k < 1024 → (getCell s s.cur.cell).mu = some st.part → (x.held = true → x.phys ≠ none) →
          x.poison = false → tileOlds st tile = [] → d ≠ .vcq → DstRoom st d 1 →
          ∃ t u, VDone (.vaccrd c d b) s st lq' t u ∧ DstFrame st u d 1 ∧ allFlags u = allFlags st ∧
            ∀ i < 128, (elemsOf c.ty (dstAfter st u d 1)).getD i 0 =
              if laneOn st c.lanes i then pair x.data i else (elemsOf c.ty (dstBefore st d 1)).getD i 0) ∧
        ((k % 2 ≠ 0 ∨ 1024 ≤ k) → Traps (.vaccrd c d b) s st .v .opField k) ∧
        (k % 2 = 0 → k < 1024 → (getCell s s.cur.cell).mu ≠ some st.part →
          Traps (.vaccrd c d b) s st .v .foreign k)) ∧
      (∀ ops lq', Operands st [(1, a), (1, b)] st.lq ops lq' → col ops 1 = k →
        (k % 2 = 0 → k < 1024 → (getCell s s.cur.cell).mu = some st.part → x.held = true → x.phys ≠ none →
          ∃ t u, VDone (.vaccwr c a b) s st lq' t u ∧ (∀ r, latest u r = latest st r) ∧ u.sq = st.sq ∧
            (∀ n, n ≠ tile → getAcc u n = getAcc st n) ∧ (getAcc u tile).phys = x.phys ∧ (getAcc u tile).held = true ∧
            (∀ i < 128, pair (getAcc u tile).data i =
              if laneOn st c.lanes i then arg c.ty ops 0 i else pair x.data i) ∧
            ∀ j < 4096, (j < 64 * (k % 64) ∨ 64 * (k % 64) + 128 ≤ j) →
              elem (getAcc u tile).data.toNat 32 j = elem x.data.toNat 32 j) ∧
        ((k % 2 ≠ 0 ∨ 1024 ≤ k) → Traps (.vaccwr c a b) s st .v .opField k)))

/-- R199, R200: a spilled register is kept by its number until it is filled back once. One that is parked in the strand's save
area is written there, at its row, and no other byte of memory changes. -/
def Sys2Proof.Claims.SpillAndFill : Prop :=
  ∀ s st tk (d : VDst) (a : BitVec 6), AtEngine s .v st → TokensReady st .v tk →
    let n := (groupV st a 0).toNat
    let kept := fun (st : Strand) (m : Nat) => (st.spill.find? fun e => e.1 == m).map fun e => e.2.2
    let place := st.area + 0x18000 + 512 * n
    (Readable st (.v (groupV st a 0)) → memWf s.mem = true →
      ∃ t u, Goes (.vspill tk a) s st .v t u ∧ u.lq = st.lq ∧ SameOthers .v st u ∧
        SameElsewhere { s with mem := t.mem } t ∧
        (t.mem = s.mem ∨ readN t.mem place 512 = (regBits st (.v (groupV st a 0))).toNat) ∧
        (∀ j, (j < place ∨ place + 512 ≤ j) → mread t.mem j = mread s.mem j) ∧
        (∀ r, latest u r = latest st r) ∧ u.sq = st.sq ∧
        kept u n = some (regBits st (.v (groupV st a 0))) ∧ ∀ m, m ≠ n → kept u m = kept st m) ∧
    (∀ x, kept st n = some x → d ≠ .vcq → DstRoom st d 1 →
      ∃ t u, VDone (.vfill tk d a) s st st.lq t u ∧ dstAfter st u d 1 = [x.toNat] ∧ kept u n = none ∧
        (∀ m, m ≠ n → kept u m = kept st m) ∧
        (∀ r, (∀ m, d = .v m → r ≠ .v (groupV st m 0)) → latest u r = latest st r)) ∧
    (kept st n = none → Traps (.vfill tk d a) s st .v .opField 0)

/-! ## Copies and handles -/

namespace Sys2Proof.Claims

open Sys2Proof Machine

/-- The shape that a register names (R91): rows, bytes of a row. -/
def ShapeIs (dim2 : Bool) (shp : Word) (rows len : Nat) : Prop :=
  if dim2 then
    shp.extractLsb' 40 24 = 0 ∧ rows = (shp.extractLsb' 24 16).toNat ∧ len = (shp.extractLsb' 0 24).toNat ∧
      rows * len ≤ 2 ^ 24
  else shp.extractLsb' 25 39 = 0 ∧ rows = 1 ∧ len = (shp.extractLsb' 0 25).toNat ∧ len ≤ 2 ^ 24

/-- The five registers that a copy word reads (R91, R96). -/
def copyRegs (st : Strand) (w : CpyWord) : CopyRegs :=
  let r := fun (i : Nat) => aNow st (BitVec.ofNat 4 (4 * w.ga.toNat + i))
  ⟨r 0, r 1, r 2, if w.dim2 then r 3 else 0, match w.flag with | some f => aNow st f | none => 0⟩

/-- A side of a copy at issue (R87, R92, R98, R101): an empty copy checks nothing, a virtual address is kept for the start,
a handle is captured when its slot is valid, of its generation and permits the use, and the bytes lie in its region. -/
def SideOk (s : State) (st : Strand) (handles toDst toCode dim2 : Bool) (rows len : Nat) (sp : Space) (reg : Word)
    (stride : Int) (x : CopySide) : Prop :=
  if rows = 0 ∨ len = 0 then x = ⟨sp, reg.toNat, stride, none⟩
  else if sp = .mem ∧ handles = true then
    let slot := (reg.extractLsb' 52 12).toNat
    let h := getHandle s st.part slot
    let off := (reg.extractLsb' 0 32).toNat
    h.val = true ∧ h.gen = reg.extractLsb' 32 20 ∧ h.gen ≠ 0 ∧ h.pin ≠ 0xFFFF ∧
      (if toDst then h.w = true else h.r = true ∧ (toCode = true → h.x = true)) ∧
      (∀ i < rows, 0 ≤ off + i * stride ∧ off + i * stride + len ≤ h.len.toNat) ∧
      x = ⟨.mem, h.base.toNat + off, stride, some slot⟩
  else (sp ≠ .mem → checkSide s s.cur.cell st.part ⟨rows, len, dim2⟩ ⟨sp, reg.toNat, stride, none⟩ = .ok ()) ∧
    x = ⟨sp, reg.toNat, stride, none⟩

/-- How often a slot is captured by two sides. -/
def captures (n : Nat) (a b : CopySide) : Nat := (if a.slot = some n then 1 else 0) + if b.slot = some n then 1 else 0

end Sys2Proof.Claims

/-- R86, R91, R96 to R98, R101: `cpy` and `cpyh` put a command into the cell's copy engine with the sides as captured, take
the places of its record and token, and pin the handles they capture; a stale handle raises STALEHANDLE. -/
def Sys2Proof.Claims.CopyWords : Prop :=
  ∀ s st tk (w : CpyWord) (handles : Bool) rows len dst src, AtEngine s .l st → TokensReady st .l tk →
    (∀ n, Readable st (.a n)) → st.lean = none →
    let i : Instr := if handles then .cpyh tk w else .cpy tk w
    let g := copyRegs st w
    let toCode := w.dsp == .imem || w.dsp == .wcs
    let stride := fun (k : Nat) => if w.dim2 then (g.str.extractLsb' (32 * k) 32).toInt else 0
    (ShapeIs w.dim2 g.shp rows len → (w.flag ≠ none → g.flag.toNat % 8 = 0) →
      SideOk s st handles true toCode w.dim2 rows len w.dsp g.dst (stride 0) dst →
      SideOk s st handles false toCode w.dim2 rows len w.ssp g.src (stride 1) src →
      (∀ n, captures n dst src = 2 → (getHandle s st.part n).pin ≠ 0xFFFE) →
      (getCell s s.cur.cell).fifo.length < 16 → (getEng st .l).seen.ccmd ≤ (getEng st .c).passed →
      (w.out = true → st.out.length < 16) →
      (w.tok = true → st.tok.lm.length + (if tk.pan then 1 else 0) < 8) →
      ∃ t u cmd, Goes i s st .l t u ∧ (getCell t s.cur.cell).fifo = (getCell s s.cur.cell).fifo ++ [cmd] ∧
        cmd.uid = st.uid ∧ cmd.part = st.part ∧ cmd.chan = w.ch.toNat ∧ cmd.tag = w.tag ∧ cmd.out = w.out ∧
        cmd.index = (getEng st .l).pc ∧ cmd.pos = (getEng st .l).passed ∧
        cmd.op = .copy dst src rows len w.dim2 w.tok (if w.flag = none then none else some g.flag) w.oc
          (getEng st .l).rset ∧
        u.out = (if w.out then st.out ++ [⟨cmd.id, none⟩] else st.out) ∧
        (w.tok = true → ∃ l p, u.tok.lm = l ++ [p] ∧ p.copy = some cmd.id ∧ p.filled = false) ∧
        (∀ n, (getHandle t st.part n).pin = (getHandle s st.part n).pin + captures n dst src) ∧
        (∀ r, latest u r = latest st r) ∧ t.mem = s.mem ∧ SameOthers .l st u) ∧
    (w.dim2 = false → 2 ^ 24 < (g.shp.extractLsb' 0 25).toNat → Traps i s st .l .opField g.shp.toNat) ∧
    (handles = true → ShapeIs w.dim2 g.shp rows len → rows ≠ 0 → len ≠ 0 → w.flag = none → w.dsp = .mem →
      (getHandle s st.part (g.dst.extractLsb' 52 12).toNat).val = false →
      Traps i s st .l .staleHandle g.dst.toNat)

namespace Sys2Proof.Claims

open Sys2Proof Machine

/-- A command of the copy engine may leave the head of the FIFO (R86). -/
def HeadReady (s : State) (c : Nat) (cmd : CopyCmd) (rest : List CopyCmd) : Prop :=
  (getCell s c).fifo = cmd :: rest ∧ commandReady s cmd = true ∧
    ∀ ch : Fin 16, ∀ run, (getCell s c).chans.get ch = some run → run.started = true ∨ run.faulted = true

end Sys2Proof.Claims

/-- R86, R102, R104: the head of the FIFO starts when its strand's stores have performed and its channel is free: a copy
translates its pages in order and starts, or faults at one and keeps those before it; a handle command takes its effect
and gives its record. -/
def Sys2Proof.Claims.CopyStarts : Prop :=
  ∀ s c cmd rest, HeadReady s c cmd rest →
    let ch := Fin.ofNat 16 cmd.chan
    (∀ dst src rows len dim2 tok flag oc rset, cmd.op = .copy dst src rows len dim2 tok flag oc rset →
      (getCell s c).chans.get ch = none → dst.space ≠ .wcs →
      (let s₀ := setChan (modCell s c fun x => { x with fifo := rest }) c cmd.chan
        (some { cmd := cmd, pages := [], faulted := false, started := false, bytes := 0 })
       let starts := fun (ps : List (CopyPart × Piece)) (ok : Bool) =>
        ∃ t run, exec (.copyStart c) s = .next t ∧ (getCell t c).chans.get ch = some run ∧ run.cmd = cmd ∧
          run.started = ok ∧ run.faulted = !ok ∧ run.pages = ps
       (∀ ps s', translateCuts c cmd.part (CopyOp.toCode cmd.op) (copyCuts cmd.op) s₀ = (ps, s', none) → starts ps true) ∧
       (∀ ps s' f, translateCuts c cmd.part (CopyOp.toCode cmd.op) (copyCuts cmd.op) s₀ = (ps, s', some (.trap f)) →
        starts ps false))) ∧
    (∀ dst src rows len dim2 tok flag oc rset run, cmd.op = .copy dst src rows len dim2 tok flag oc rset →
      (getCell s c).chans.get ch = some run → exec (.copyStart c) s = .next s) ∧
    -- the handle table
    (∀ base len slot x w r, cmd.op = .hset base len slot x w r →
      let h := getHandle s cmd.part slot.toNat
      (h.val = false → base.toNat + len.toNat ≤ 2 ^ 54 → h.pin = 0 →
        ∃ t, exec (.copyStart c) s = .next t ∧ (getCell t c).fifo = rest ∧ t.mem = s.mem ∧
          getHandle t cmd.part slot.toNat =
            { h with val := true, x := x, w := w, r := r, len := len.setWidth 54, base := base.setWidth 54 } ∧
          ∀ n, n ≠ slot.toNat → getHandle t cmd.part n = getHandle s cmd.part n) ∧
      ((h.val = true ∨ h.pin ≠ 0 ∨ 2 ^ 54 < base.toNat + len.toNat) →
        ∃ t, exec (.copyStart c) s = .next t ∧ (getCell t c).fifo = rest ∧
          ∀ n, getHandle t cmd.part n = getHandle s cmd.part n)) ∧
    (∀ hd, cmd.op = .hfree hd →
      let slot := (hd.extractLsb' 20 12).toNat
      let h := getHandle s cmd.part slot
      h.val = true → h.gen = hd.extractLsb' 0 20 →
        ∃ t, exec (.copyStart c) s = .next t ∧ (getCell t c).fifo = rest ∧
          (getHandle t cmd.part slot).val = false ∧ (getHandle t cmd.part slot).pin = h.pin ∧
          (getHandle t cmd.part slot).gen = if h.gen = 0xFFFFF then 1 else h.gen + 1) ∧
    (∀ slot, cmd.op = .hread slot → ∃ t, exec (.copyStart c) s = .next t ∧ (getCell t c).fifo = rest ∧
      ∀ n, getHandle t cmd.part n = getHandle s cmd.part n)

/-- R92 to R94, R101, R105: a copy from scratchpad to scratchpad of its cell moves its bytes, frees its channel and pushes
its record; an uncorrectable error stops a copy part way, at the end of a destination word (R24), poisons the place and
freezes the strand. -/
def Sys2Proof.Claims.CopyCompletes : Prop :=
  ∀ s c ch run r st dst src len tok oc rset, (getCell s c).chans.get (Fin.ofNat 16 ch) = some run → ch < 16 →
    run.cmd.chan = ch → run.started = true → run.faulted = false → run.pages = [] →
    src.addr + len ≤ 2 ^ 21 → dst.addr + len ≤ 2 ^ 21 →
    run.cmd.op = .copy dst src 1 len false tok none oc rset → 0 < len → dst.space = .spm → src.space = .spm →
    dst.slot = none → src.slot = none →
    spmPoisoned s c [⟨src.addr, len⟩] = false → strandByUid s run.cmd.uid = some (r, st) → getStrand s r = some st →
    memWf (getCell s c).spm = true →
    (∃ t u, exec (.copyComplete c ch) s = .next t ∧ getStrand t r = some u ∧ t.mem = s.mem ∧
      (getCell t c).chans.get (Fin.ofNat 16 ch) = none ∧
      readN (getCell t c).spm dst.addr len = readN (getCell s c).spm src.addr len ∧
      (∀ j, (j < dst.addr ∨ dst.addr + len ≤ j) → mread (getCell t c).spm j = mread (getCell s c).spm j) ∧
      (∀ k, k ≠ c → (getCell t k).spm = (getCell s k).spm) ∧
      u.out = (if run.cmd.out then fillRecord st.out run.cmd.id
        (BitVec.ofNat 64 (len * 2 ^ 24 + ch * 2 ^ 16 + run.cmd.tag.toNat)) else st.out) ∧
      (tok = true → u.tok.lm = st.tok.lm.map fun p => if p.copy = some run.cmd.id then { p with filled := true } else p) ∧
      (tok = false → u.tok = st.tok) ∧ (∀ x, latest u x = latest st x)) ∧
    (∀ n, n < len →
      ∃ t u q, exec (.copyChannelFault c ch n) s = .next t ∧ getStrand t r = some u ∧ u.frozen = true ∧
        u.faults = addFault st.faults q ∧ q.trap.cause = .uncorrectable ∧ q.chan = some ch ∧ q.eng = 1 ∧
        q.word = run.cmd.index ∧ q.trap.addr = src.addr + n ∧ (src.addr + n) / 512 ∈ (getCell t c).spmPoison ∧
        (∃ run', (getCell t c).chans.get (Fin.ofNat 16 ch) = some run' ∧ run'.faulted = true ∧ run'.bytes ≤ n ∧
          (run'.bytes = 0 ∨ (dst.addr + run'.bytes) % 8 = 0)) ∧
        ∀ j, (j < dst.addr ∨ dst.addr + n ≤ j) → mread (getCell t c).spm j = mread (getCell s c).spm j)

/-- R102, R336: `push` sends a handle command to the copy engine of the cell; without the access unit it raises FOREIGN. -/
def Sys2Proof.Claims.HandlePushes : Prop :=
  ∀ s st (gb ga : BitVec 5) (tag : BitVec 16), AtEngine s .c st → (∀ n, Readable st (.g n)) →
    let hands := fun (i : Instr) (op : CopyOp) =>
      (ownsAu s s.cur.cell st.part = true → (getCell s s.cur.cell).fifo.length < 16 → st.out.length < 16 →
        (inMask st .l = true → (getEng st .c).seen.lcmd ≤ surePassed st .l) →
        ∃ t u cmd, Goes i s st .c t u ∧ (getCell t s.cur.cell).fifo = (getCell s s.cur.cell).fifo ++ [cmd] ∧
          cmd.op = op ∧ cmd.tag = tag ∧ cmd.uid = st.uid ∧ cmd.part = st.part ∧ cmd.out = true ∧
          u.out = st.out ++ [⟨cmd.id, none⟩] ∧ (∀ r, latest u r = latest st r) ∧ t.mem = s.mem ∧ SameOthers .c st u) ∧
      (ownsAu s s.cur.cell st.part = false → Traps i s st .c .foreign 0)
    (∀ x w r, hands (.pushHset gb ga x w r tag)
      (.hset (gNow st ga) (gNow st (ga + 1)) ((gNow st gb).setWidth 12) x w r)) ∧
    hands (.pushHfree gb tag) (.hfree ((gNow st gb).setWidth 32)) ∧
    hands (.pushHread gb tag) (.hread ((gNow st gb).setWidth 12))

/-! ## Launches, bindings and service calls -/

namespace Sys2Proof.Claims

open Sys2Proof Machine

/-- A word of C completes with a result for a register. -/
def Answers (i : Instr) (s : State) (st : Strand) (ga : BitVec 5) (x : Word) (P : State → Prop) : Prop :=
  ∃ t u, Goes i s st .c t u ∧ (ga ≠ 0 → gLater u ga = x) ∧ (∀ r, r ≠ .g ga → latest u r = latest st r) ∧
    SameOthers .c st u ∧ P t

/-- The word of C goes on with a call: its record of `n` bytes at `a`, whose page is `x`, is being read, and the answer comes
to g(ga) later (LAT 15, R28). -/
def CallsUnit (i : Instr) (s : State) (st : Strand) (ga : BitVec 5) (a : Word) (n : Nat) (x : Xlat) : Prop :=
  ∃ t u acc c, Goes i s st .c t u ∧ u.accs = st.accs ++ [acc] ∧ acc.kind = .load ∧ acc.cls = 0 ∧ acc.va = a.toNat ∧
    acc.pa = x.pa ∧ acc.size = n ∧ acc.dest = .call ∧ u.calls = st.calls ++ [c] ∧ c.word = i ∧ c.addr = a.toNat ∧
    c.pos = (getEng st .c).passed ∧ c.rec? = none ∧ c.failed = false ∧
    (ga ≠ 0 → ∃ p ∈ u.pending, p.reg = .g ga ∧ p.eng = .c ∧ p.pos = (getEng st .c).passed ∧ p.val = none ∧ p.lat = 15) ∧
    (∀ r, latest u r = latest st r) ∧ t.mem = s.mem ∧ SameOthers .c st u

end Sys2Proof.Claims

/-- R342, R378, R379: `launch` goes on while its record is read, and the number of the launch that the scheduler has accepted,
or −1, −2 or −3, comes to its register; a record that is not aligned to 64 raises ALIGN. -/
def Sys2Proof.Claims.LaunchWord : Prop :=
  (∀ s st lat (ga gb : BitVec 5), AtEngine s .c st → Readable st (.g gb) →
    let a := gNow st gb
    (a.toNat % 64 ≠ 0 → Traps (.launch lat ga gb) s st .c .align a.toNat) ∧
    (∀ x, a.toNat % 64 = 0 → Maps s st .scalarRead a x → CallsUnit (.launch lat ga gb) s st ga a 64 x)) ∧
  -- a call whose record has come is served, and its answer lands
  (∀ s r st c w x s1 v q (n : BitVec 5), getStrand s r = some st → c.rec? = some w →
    serveCall s r st c w = .ok (.value x, s1) → getStrand s1 r = some v → q ∈ v.pending → q.reg = .g n → n ≠ 0 →
    q.eng = .c → q.pos = c.pos → q.val = none → q.mask = fullMask (.g n) →
    (∀ p ∈ v.pending, p.reg = .g n ∨ p.eng = .c ∧ p.pos = c.pos → p = q) →
    let t := takeCall s r st c
    ∃ u, getStrand t r = some u ∧ gLater u n = x ∧ (∀ y ∈ u.calls, y.pos ≠ c.pos) ∧ t.mem = s1.mem ∧ t.hub = s1.hub ∧
      ∀ p, getPart t p = getPart s1 p) ∧
  (∀ s r st c w after, (∃ lat ga gb, c.word = .launch lat ga gb) → after = some (st.uid, c.pos, c.seen) → ∀ ans s1,
    acceptLaunch s (dieOf r.cell) st.part w none after = .ok (ans, s1) →
    serveCall s r st c w = .ok (.value (answerWord ans), s1)) ∧
  (∀ s die part w h after, launchRecOf w = none → acceptLaunch s die part w h after = .ok (.code (-2), s)) ∧
  (∀ s die part w h after l s1, launchRecOf w = some l →
    (admitRegion s die part l.rcb = .ok (.refused, s1) → acceptLaunch s die part w h after = .ok (.code (-1), s1)) ∧
    (admitRegion s die part l.rcb = .ok (.full, s1) → acceptLaunch s die part w h after = .ok (.code (-3), s1)) ∧
    (∀ im s2, admitRegion s die part l.rcb = .ok (.ok, s1) →
      readImageAs .copyRead imageRoom s1 die part l.image 32768 = .ok (some im, s2) →
      let place := match cachedRegion s1 die part l.rcb with | some r => r.place | none => []
      let n := launchNumber ((getPart s2 part).lastLaunch + 1)
      (launchFits s2 part l place im = false → acceptLaunch s die part w h after = .ok (.code (-2), s2)) ∧
      (launchFits s2 part l place im = true →
        ∃ t x, acceptLaunch s die part w h after = .ok (.number n, t) ∧ 1 ≤ n ∧ n < 2 ^ 32 ∧ launchOf t part n = some x ∧
          x.gx = l.gx ∧ x.gy = l.gy ∧ x.gz = l.gz ∧ x.emask = im.emask ∧ x.next = 0 ∧ x.ended = 0 ∧
          x.complete = false ∧ x.cflag = l.cflag ∧ x.rcb = l.rcb ∧ x.after = after)))

/-- R54, R343, R365: `bind` puts a checked entry into the context's table and answers the one before; it serves the words
that follow it, while an engine still before it goes on with the entries it had; an entry that breaks a check raises
MICROILLEGAL. -/
def Sys2Proof.Claims.BindWord : Prop :=
  ∀ s st lat (ga gb : BitVec 5) (n : BitVec 6), AtEngine s .c st → Readable st (.g gb) →
    let c := getCtx s s.cur.cell st.part
    let e := gNow st gb
    shareReady c = true → wcsCopied s s.cur.cell st.part = false →
      ((e.getLsbD 63 = true → bindOk c.wcs e = true) →
        Answers (.bind lat ga gb n) s st ga (c.bindTab.get n.toFin) fun t =>
          (getCtx t s.cur.cell st.part) =
            { c with bindTab := c.bindTab.set n.toFin (if e.getLsbD 63 then e else 0) } ∧ t.mem = s.mem ∧
          ∃ u, getStrand t (Walker.ref s.cur) = some u ∧
            u.bindst = (if e.getLsbD 63 then 0x100 else 0) ||| (0xC0 + n.setWidth 9) ∧
            (∀ x m, inMask st x = true → (getEng st x).passed < (getEng st .c).passed →
              boundEntry (getCtx t s.cur.cell st.part) u x m = boundEntry c st x m) ∧
            ((∀ b ∈ st.oldBinds, b.1 ≤ (getEng st .c).passed) → ∀ x, (getEng st .c).passed ≤ (getEng st x).passed →
              boundEntry (getCtx t s.cur.cell st.part) u x n = if e.getLsbD 63 then e else 0)) ∧
      (e.getLsbD 63 = true → bindOk c.wcs e = false → Traps (.bind lat ga gb n) s st .c .microIllegal 0)

/-- R344, R430, R431: the service calls belong to the service partition; a malformed descriptor answers −3, a partition that
is not active −1, and each call has its effect. -/
def Sys2Proof.Claims.ServiceCalls : Prop :=
  (∀ s st lat (ga gb : BitVec 5), AtEngine s .c st → Readable st (.g gb) →
    let calls : List Instr := [.sysInval lat ga gb, .sysFgive lat ga gb, .sysFtake lat ga gb, .sysMread lat ga gb]
    let a := gNow st gb
    (st.part ≠ 0 → ∀ i ∈ calls, Traps i s st .c .permission 0) ∧
    (st.part = 0 → a.toNat % 32 ≠ 0 →
      ∀ i ∈ calls, Answers i s st ga (BitVec.ofInt 64 (-3)) fun t => t.mem = s.mem) ∧
    (∀ x, st.part = 0 → a.toNat % 32 = 0 → Maps s st .scalarRead a x → ∀ i ∈ calls, CallsUnit i s st ga a 32 x)) ∧
  (∀ s r st c d lat (ga gb : BitVec 5),
    let calls : List Instr := [.sysInval lat ga gb, .sysFgive lat ga gb, .sysFtake lat ga gb, .sysMread lat ga gb]
    let p := ((d.getD 0 0).extractLsb' 0 6).toNat
    let active := (getPart s p).st = .active
    let gives := fun (i : Instr) (k : Int) =>
      c.word = i → serveCall s r st c d = .ok (.value (BitVec.ofInt 64 k), s)
    let waits := fun (i : Instr) (base len : Nat) (take : Option (Nat × Nat)) =>
      c.word = i → ∃ t v, serveCall s r st c d = .ok (.later, t) ∧ t.hub.invals = s.hub.invals ++ [v] ∧ v.part = p ∧
        v.base = base ∧ v.len = len ∧ v.take = take ∧ v.caller = some (st.uid, c.pos) ∧ t.mem = s.mem
    ((d.getD 0 0).extractLsb' 6 58 ≠ 0 → ∀ i ∈ calls, gives i (-3)) ∧
    ((d.getD 0 0).extractLsb' 6 58 = 0 →
      -- INVAL
      (let base := ((d.getD 1 0).extractLsb' 0 54).toNat
       let len := (d.getD 2 0).toNat
       (d.getD 1 0).extractLsb' 54 10 = 0 → d.getD 3 0 = 0 →
        (¬ active → gives (.sysInval lat ga gb) (-1)) ∧
        (active → 2 ^ 54 < base + len → gives (.sysInval lat ga gb) (-2)) ∧
        (active → len = 0 → base + len ≤ 2 ^ 54 → gives (.sysInval lat ga gb) 0) ∧
        (active → 0 < len → base + len ≤ 2 ^ 54 → waits (.sysInval lat ga gb) base len none)) ∧
      -- FGIVE and FTAKE
      (let first := ((d.getD 1 0).extractLsb' 0 28).toNat
       let n := (d.getD 2 0).toNat
       let fs := (List.range n).map (· + first)
       (d.getD 1 0).extractLsb' 28 36 = 0 → n < 2 ^ 32 → d.getD 3 0 = 0 → n ≠ 0 →
        (¬ active → gives (.sysFgive lat ga gb) (-1) ∧ gives (.sysFtake lat ga gb) (-1)) ∧
        (active → (∃ f ∈ fs, inPool s f = false) → gives (.sysFgive lat ga gb) (-2)) ∧
        (active → (∀ f ∈ fs, inPool s f = true) → c.word = .sysFgive lat ga gb →
          ∃ t, serveCall s r st c d = .ok (.value 0, t) ∧ t.mem = s.mem ∧
            (getPart t p).frames = (getPart s p).frames ++ fs ∧
            ∀ f, fget t.hub.owners f =
              if f ∈ fs then some ⟨true, p, p, (getPart s p).dtag⟩ else fget s.hub.owners f) ∧
        (active → (∀ f ∈ fs, ∃ o, fget s.hub.owners f = some o ∧ o.valid = true ∧ o.owner = p) →
          waits (.sysFtake lat ga gb) 0 (2 ^ 54) (some (first, n))) ∧
        (active → (∃ f ∈ fs, ¬ ∃ o, fget s.hub.owners f = some o ∧ o.valid = true ∧ o.owner = p) →
          gives (.sysFtake lat ga gb) (-2))) ∧
      -- MREAD: class 0 stores of the strand to the result area
      (d.getD 1 0 = 0 →
        (¬ active → gives (.sysMread lat ga gb) (-1)) ∧
        (active → c.word = .sysMread lat ga gb → ∀ ps s1 v,
          let q := getPart s p
          let k := q.counters
          let ws := [BitVec.ofNat 64 (p * 2 ^ 48 + q.pser.toNat)] ++
            [k.auus, k.vus, k.mus, k.ccyc, k.energy, k.hbmfms, k.stfms, k.fabb, k.hostb].map (BitVec.ofNat 64) ++
            List.replicate 6 0
          let place := c.addr + 16
          runOf s (dieOf r.cell) (some r.cell) st.part .scalarWrite place 128 = .ok (ps, s1) → getStrand s1 r = some v →
            ∃ t u l, serveCall s r st c d = .ok (.value 0, t) ∧ getStrand t r = some u ∧ t.mem = s1.mem ∧
              u.accs = v.accs ++ l ∧ (l.map fun (a : Access) => (a.kind, a.cls, a.pos, a.pa, a.size, a.data)) =
                ps.map fun (y : Piece) => (.store, 0, c.pos, y.x.pa, y.len,
                  BitVec.ofNat 4096 (ofBytes (((dwordsToBytes ws).drop (y.va - place)).take y.len)))))))

/-! ## The matrix engine -/

namespace Sys2Proof.Claims

open Sys2Proof Machine

/-- M runs no nest and no drain (R243). -/
def Quiet (st : Strand) : Prop := st.nest = none ∧ st.drain = none

/-- The slots `lo` to `hi` that a claim or release names. -/
def Named (slots : Option (BitVec 5 × BitVec 5)) (n : BitVec 5) : Prop :=
  ∃ lo hi, slots = some (lo, hi) ∧ lo.toNat ≤ n.toNat ∧ n.toNat ≤ hi.toNat

/-- The places that a claim takes are free in the cell. -/
def PlacesFree (s : State) (slots : Option (BitVec 5 × BitVec 5)) (tile : Option (BitVec 4)) : Prop :=
  (∀ lo hi, slots = some (lo, hi) →
    hi.toNat + 1 - lo.toNat ≤ (getCell s s.cur.cell).om.toList.countP fun (x : Option Holder) => x.isNone) ∧
    (tile ≠ none → ∃ x ∈ (getCell s s.cur.cell).acc.toList, x = none)

/-- No tile or slot is free, and no departed strand of the context holds one. -/
def NoPlace (s : State) (st : Strand) : Prop :=
  (∀ x ∈ (getCell s s.cur.cell).om.toList, x ≠ none) ∧ (getCtx s s.cur.cell st.part).departed = []

end Sys2Proof.Claims

/-- R135, R139, R220, R225 to R228, R233: claims and releases of slots and tiles, where nothing of memory changes unless
registers parked in the tile go to their save areas, the zeroing of a tile, a claim that waits and
tries again, and the completion of words that wrote a tile. -/
def Sys2Proof.Claims.MatrixResources : Prop :=
  (∀ s st tk slots tile, AtEngine s .m st → TokensReady st .m tk → Quiet st →
    ((∀ n, Named slots n → (getOm st n).state = .notHeld) → (∀ t, tile = some t → (getAcc st t).held = false) →
      (PlacesFree s slots tile →
        ∃ t u, Goes (.mclaim tk slots tile) s st .m t u ∧
          ((∀ p ∈ parkedOn s s.cur.cell, ∀ k c, p ≠ .tile k c) → t.mem = s.mem) ∧ (∀ r, latest u r = latest st r) ∧
          SameOthers .m st u ∧
          (∀ n, (Named slots n → (getOm u n).state = .claimed ∧ ∃ j : Fin 32, (getOm u n).phys = some j.val ∧
              (getCell t s.cur.cell).om.get j = some ⟨st.uid, n.toNat⟩) ∧
            (¬ Named slots n → getOm u n = getOm st n)) ∧
          (∀ k, (tile = some k → (getAcc u k).held = true ∧ (getAcc u k).data = 0 ∧
              ∃ j : Fin 16, (getAcc u k).phys = some j.val ∧
                (getCell t s.cur.cell).acc.get j = some ⟨st.uid, k.toNat⟩) ∧
            (tile ≠ some k → getAcc u k = getAcc st k))) ∧
      (NoPlace s st → (∃ n, Named slots n) → exec (.mclaim tk slots tile) s = .next s)) ∧
    (((∃ n, Named slots n ∧ (getOm st n).state ≠ .notHeld) ∨ ∃ t, tile = some t ∧ (getAcc st t).held = true) →
      Traps (.mclaim tk slots tile) s st .m .opmState 0) ∧
    (engDone st .m = true →
      ((∀ n, Named slots n → (getOm st n).state ≠ .notHeld) → (∀ t, tile = some t → (getAcc st t).held = true) →
        ∃ t u, Goes (.mrel tk slots tile) s st .m t u ∧ t.mem = s.mem ∧ (∀ r, latest u r = latest st r) ∧
          SameOthers .m st u ∧ (∀ n, Named slots n → getOm u n = {}) ∧ (∀ n, ¬ Named slots n → getOm u n = getOm st n) ∧
          (∀ k, getAcc u k = if tile = some k then {} else getAcc st k)) ∧
      ((∃ n, Named slots n ∧ (getOm st n).state = .notHeld) →
        Traps (.mrel tk slots tile) s st .m .opmState 0)) ∧
    (∀ acc qmask, (getAcc st acc).held = true → (getAcc st acc).phys ≠ none →
      ∃ t u w, Goes (.mzero tk acc qmask) s st .m t u ∧ SameElsewhere s t ∧ SameOthers .m st u ∧
        u.mwords = st.mwords ++ [w] ∧ w.pos = (getEng st .m).passed ∧ (∀ r, latest u r = latest st r) ∧
        (∀ k, k ≠ acc → getAcc u k = getAcc st k) ∧
        ∀ r < 64, ∀ c < 64, tileElem (getAcc u acc) r c =
          if qmask.getLsbD (2 * (r / 32) + c / 32) then 0 else tileElem (getAcc st acc) r c)) ∧
  (∀ s tk slots tile, turn s { s.cur with eng := .m } = .run (.mclaim tk slots tile) →
    ∃ t, exec (.mclaim tk slots tile) { s with cur := { s.cur with eng := .m } } = .next t ∧
      exec .mclaimRetry s = .next { t with cur := s.cur }) ∧
  (∀ s st, getStrand s (Walker.ref s.cur) = some st →
    ∃ t u, exec .productWordComplete s = .next t ∧ getStrand t (Walker.ref s.cur) = some u ∧
      u = { st with mwords := st.mwords.drop 1 } ∧ SameElsewhere s t)

namespace Sys2Proof.Claims

open Sys2Proof Machine

/-- A slot that products read: filled, with no fill that races, in its place, not poisoned (R220, R230). -/
def SlotReady (st : Strand) (n : BitVec 5) : Prop :=
  (getOm st n).state = .filled ∧ (getOm st n).phys ≠ none ∧ (getOm st n).poison = false

/-- The strand with the draw of free values of the word that issues now (R224; log entry 34). -/
def drawn (s : State) (st : Strand) : Strand := { st with free := s.freeCount }

/-- A slot of unscaled integers (R116, R223). -/
def IntSlot (x : OmSlot) : Prop := sdTy x.desc ∈ [0, 1, 6, 7] ∧ sdBsf x.desc = 0

/-- The integer at (r, c) of a slot, or of its transpose. -/
def intAt (x : OmSlot) (transposed : Bool) (r c : Nat) : Int :=
  let w := slotWidth (sdTy x.desc)
  let y := if transposed then slotElem x c r else slotElem x r c
  if sdTy x.desc = 0 ∨ sdTy x.desc = 6 then (BitVec.ofNat w y).toInt else y

/-- Rows and columns of a slot, or of its transpose. -/
def dims (x : OmSlot) (transposed : Bool) : Nat × Nat :=
  if transposed then (sdCols x.desc, sdRows x.desc) else (sdRows x.desc, sdCols x.desc)

/-- A product word has its energy: the grant has been given, or the share covers the charge and no word waits (R441). -/
def HasEnergy (s : State) (st : Strand) (x : StepWord) (ix : IndexVec) : Prop :=
  (∃ g, st.grant = some g ∧ g.granted = true) ∨
    st.grant = none ∧ grantWaits s (dieOf s.cur.cell) = [] ∧
      ∀ l, stepProds (drawn s st) x (flushes st .m) ix = .ok l →
        (prodsCharge l : Int) ≤ (getDie (rollWindow s (dieOf s.cur.cell)) (dieOf s.cur.cell)).share

/-- The tile that a word writes is in its place and not poisoned. -/
def TileReady (st : Strand) (acc : BitVec 4) : Prop :=
  (getAcc st acc).held = true ∧ (getAcc st acc).phys ≠ none ∧ (getAcc st acc).poison = false

/-- The word completes: the elements of its tile where `on` holds take `f` of the sum of products, by the accumulate mode,
wrapped to 32 bits; every other element and tile stays (R162, R218, R229). -/
def IntResult (i : Instr) (s : State) (st : Strand) (w : MmWord) (on : Nat → Nat → Prop) (sum : Nat → Nat → Int)
    (fiq : List IndexVec) : Prop :=
  ∃ t u x, Goes i s st .m t u ∧ SameElsewhere s t ∧ SameOthers .m st u ∧ (∀ r, latest u r = latest st r) ∧
    u.om = st.om ∧ u.fiq = fiq ∧ u.grant = none ∧ u.mwords = st.mwords ++ [x] ∧ x.pos = (getEng st .m).passed ∧
    allFlags u = allFlags st ∧ (∀ k, k ≠ w.acc → getAcc u k = getAcc st k) ∧
    ∀ r < 64, ∀ c < 64,
      let old := tileElem (getAcc st w.acc) r c
      (on r c → tileElem (getAcc u w.acc) r c = (BitVec.ofInt 32 (match w.am with
        | .over => sum r c
        | .acc => old + sum r c
        | .sub => old - sum r c)).toNat) ∧
      (¬ on r c → tileElem (getAcc u w.acc) r c = old)

/-- Element (r, c) lies in an enabled quadrant. -/
def quadOn (w : MmWord) (r c : Nat) : Prop := w.qmask.getLsbD (2 * (r / 32) + c / 32) = true

end Sys2Proof.Claims

/-- R218, R223, R229, R231, R232, R257: the product words on unscaled integers: dense, quad, gathered and by a pattern. -/
def Sys2Proof.Claims.IntegerProducts : Prop :=
  ∀ s st (w : MmWord) (fn : BitVec 16), AtEngine s .m st → TokensReady st .m w.tk → Quiet st → TileReady st w.acc →
    (let a := getOm st w.oma
     let b := getOm st w.omb
     let m := (dims a w.ta).1
     let k := (dims a w.ta).2
     let n := (dims b w.tb).2
     SlotReady st w.oma → SlotReady st w.omb → IntSlot a → IntSlot b → HasEnergy s st (wordStep w 0 0 0) ⟨0, 0⟩ →
      (k = (dims b w.tb).1 → m ≤ 64 → n ≤ 64 →
        IntResult (.mma w) s st w (fun r c => r < m ∧ c < n ∧ quadOn w r c)
          (fun r c => ((List.range k).map fun j => intAt a w.ta r j * intAt b w.tb j c).sum) st.fiq) ∧
      (k ≠ (dims b w.tb).1 → Traps (.mma w) s st .m .opField 0)) ∧
    (let na := fun q => BitVec.ofNat 5 (w.oma.toNat + fn.toNat / 2 ^ (4 * q) % 4)
     let nb := fun q => BitVec.ofNat 5 (w.omb.toNat + fn.toNat / 2 ^ (4 * q + 2) % 4)
     let a := fun q => getOm st (na q)
     let b := fun q => getOm st (nb q)
     let quad := fun r c => 2 * (r / 32) + c / 32
     HasEnergy s st (wordStep w 1 0 fn.toNat) ⟨0, 0⟩ →
      (∀ q < 4, w.qmask.getLsbD q = true → w.oma.toNat + fn.toNat / 2 ^ (4 * q) % 4 < 32 ∧
        w.omb.toNat + fn.toNat / 2 ^ (4 * q + 2) % 4 < 32 ∧ SlotReady st (na q) ∧ SlotReady st (nb q) ∧ IntSlot (a q) ∧
        IntSlot (b q) ∧
        (dims (a q) w.ta).2 = (dims (b q) w.tb).1 ∧ (dims (a q) w.ta).1 ≤ 32 ∧ (dims (b q) w.tb).2 ≤ 32) →
      IntResult (.mmaq w fn) s st w
        (fun r c => r % 32 < (dims (a (quad r c)) w.ta).1 ∧ c % 32 < (dims (b (quad r c)) w.tb).2 ∧ quadOn w r c)
        (fun r c => ((List.range (dims (a (quad r c)) w.ta).2).map fun j =>
          intAt (a (quad r c)) w.ta (r % 32) j * intAt (b (quad r c)) w.tb j (c % 32)).sum) st.fiq) ∧
    (∀ ix rest, st.fiq = ix :: rest →
      let a := getOm st w.oma
      let b := getOm st w.omb
      let m := (dims a w.ta).1
      let k := (dims a w.ta).2
      let n := (dims b false).2
      SlotReady st w.oma → SlotReady st w.omb → IntSlot a → IntSlot b → HasEnergy s st (wordStep w 3 0 0) ix →
        m ≤ 64 → k ≤ 128 → n ≤ 64 →
        (∀ j < k, ix.en.getLsbD j = true → ixLane ix j < sdRows b.desc) →
        IntResult (.mmag w) s st w (fun r c => r < m ∧ c < n ∧ quadOn w r c)
          (fun r c => ((List.range k).map fun j =>
            if ix.en.getLsbD j then intAt a w.ta r j * intAt b false (ixLane ix j) c else 0).sum) rest) ∧
    -- `mmas`: the values of the pattern lie one after another in slot A (R252, R257)
    (∀ (pat : BitVec 4) (voff : BitVec 16),
      let a := getOm st w.oma
      let b := getOm st w.omb
      let ctx := st.pat.get pat.toFin
      let sets := patSets st ctx
      let m := if w.ta then patCols ctx else patRows ctx
      let k := if w.ta then patRows ctx else patCols ctx
      let n := (dims b w.tb).2
      let value := fun (r c : Nat) =>
        if bit (sets.getD r 0) c then
          let p := voff.toNat + valueNumber sets r c
          intAt a false (p / sdCols a.desc) (p % sdCols a.desc)
        else 0
      SlotReady st w.oma → SlotReady st w.omb → IntSlot a → IntSlot b →
        HasEnergy s st (wordStep w 2 pat.toNat voff.toNat) (st.fiq.headD ⟨0, 0⟩) →
        patValid ctx = true → (w.ta = true → patColord ctx = true) → m ≤ 64 → n ≤ 64 → k ≤ (dims b w.tb).1 →
        voff.toNat + (sets.map ones).sum ≤ sdRows a.desc * sdCols a.desc →
        IntResult (.mmas w pat voff) s st w (fun r c => r < m ∧ c < n ∧ quadOn w r c)
          (fun r c => ((List.range k).map fun j =>
            (if w.ta then value j r else value r j) * intAt b w.tb j c).sum) st.fiq) ∧
    ((getOm st w.oma).state = .notHeld ∨ (getOm st w.oma).state = .claimed → Traps (.mma w) s st .m .opmState 0)

/-- R162, R219, R229, R230, R256, R257, R440, R441: a product word of any type completes with every element as the feeder's
lines give it; without energy it waits with its request, and the pattern form needs a valid context. -/
def Sys2Proof.Claims.ProductWords : Prop :=
  (∀ s st (w : MmWord) (fn : BitVec 16) (pat : BitVec 4), AtEngine s .m st → TokensReady st .m w.tk → Quiet st →
    ∀ p ∈ [(Instr.mma w, wordStep w 0 0 0), (.mmaq w fn, wordStep w 1 0 fn.toNat),
        (.mmas w pat fn, wordStep w 2 pat.toNat fn.toNat), (.mmag w, wordStep w 3 0 0)],
      let ix := st.fiq.headD ⟨0, 0⟩
      let gathers := p.2.kind = 3
      (gathers → st.fiq ≠ []) →
      (∀ l, stepProds (drawn s st) p.2 (flushes st .m) ix = .ok l → TileReady st w.acc → HasEnergy s st p.2 ix →
        ∃ t u, Goes p.1 s st .m t u ∧ SameElsewhere s t ∧ SameOthers .m st u ∧ (∀ r, latest u r = latest st r) ∧
          u.om = st.om ∧ u.fiq = (if p.2.kind = 3 then st.fiq.drop 1 else st.fiq) ∧ u.grant = none ∧
          (getAcc u w.acc).data = (runProds (getAcc st w.acc) (flushes st .m) w.am l).1.data ∧
          (∀ k, k ≠ w.acc → getAcc u k = getAcc st k) ∧
          allFlags u = allFlags st ||| (runProds (getAcc st w.acc) (flushes st .m) w.am l).2) ∧
      (∀ l, stepProds (drawn s st) p.2 (flushes st .m) ix = .ok l → TileReady st w.acc → st.grant = none →
        (getDie (rollWindow s (dieOf s.cur.cell)) (dieOf s.cur.cell)).share < prodsCharge l →
        ∃ t u g, exec p.1 s = .next t ∧ getStrand t (Walker.ref s.cur) = some u ∧ u.grant = some g ∧
          g.granted = false ∧ g.charge = prodsCharge l ∧ (getEng u .m).pc = (getEng st .m).pc ∧
          u.acc = st.acc ∧ u.fiq = st.fiq) ∧
      (∀ tr, stepProds (drawn s st) p.2 (flushes st .m) ix = .error (.trap tr) →
        (∀ y, tr.unit = some y → isFresh s y = false) → Traps p.1 s st .m tr.cause tr.addr)) ∧
  -- an element of the result, for at most one chunk of 32 products: both roundings of R162
  (∀ (flush : Bool) (am : Am) (old : Nat) (a b : List (Option FV)), a.length ≤ 32 → a.length = b.length → a ≠ [] →
    (∀ x ∈ a, ∃ v, x = some v ∧ IsNum v) → (∀ x ∈ b, ∃ v, x = some v ∧ IsNum v) →
    ∃ sum, IsNum sum ∧
      ratOf sum = ((a.zip b).map fun p => ratOf (p.1.getD (.nan false)) * ratOf (p.2.getD (.nan false))).sum ∧
      let e := encodeF fmt32 .ne flush sum
      let acc := decodeF fmt32 flush old
      let sv := decodeF fmt32 flush e.1
      (am = .over → (accumulate false flush am old a b).val = e.1) ∧
      (am = .acc → (accumulate false flush am old a b).val = (encodeF fmt32 .ne flush (addFV .ne acc sv).1).1) ∧
      (am = .sub → (accumulate false flush am old a b).val = (encodeF fmt32 .ne flush (addFV .ne acc sv.neg).1).1))

/-- R440, R441: a new window gives a die its share; its grants go to a word that has waited 8 µs, then to the word of the
lowest TA + TB, while the share covers it. -/
def Sys2Proof.Claims.EnergyGrants : Prop :=
  (∀ s die, (∃ t, exec (.grantWindowStart die) s = .next t) ∧ ∃ t, exec (.matrixGrant die) s = .next t) ∧
  (∀ s die,
    let d := die % 4
    let x := getDie s d
    (x.window < s.clock / 4000 → ∃ t, exec (.grantWindowStart die) s = .next t ∧ (getDie t d).window = s.clock / 4000 ∧
      (getDie t d).share = windowShare s d - x.overdraft ∧ (getDie t d).overdraft = 0 ∧ (getDie t d).granting = true ∧
      t.mem = s.mem ∧ t.strands = s.strands ∧ ∀ k < 4, k ≠ d → getDie t k = getDie s k) ∧
    (s.clock / 4000 ≤ x.window → exec (.grantWindowStart die) s = .next s)) ∧
  (∀ s die,
    let d := die % 4
    let x := getDie s d
    let start := 4000 * x.window
    (x.granting = false → exec (.matrixGrant die) s = .next s) ∧
    (∀ key g st, x.granting = true → getStrand s ⟨key / 4, key % 4⟩ = some st →
      grantWaits s d = [(key, g)] → g.since ≤ start →
      (start < g.since + 32000 → (g.charge : Int) ≤ x.share →
        ∃ t u, exec (.matrixGrant die) s = .next t ∧ getStrand t ⟨key / 4, key % 4⟩ = some u ∧
          u.grant = some { g with granted := true } ∧ (getDie t d).share = x.share - g.charge ∧ t.mem = s.mem) ∧
      (start < g.since + 32000 → x.share < g.charge →
        ∃ t, exec (.matrixGrant die) s = .next t ∧ t.strands = s.strands ∧ (getDie t d).granting = false) ∧
      (g.since + 32000 ≤ start →
        ∃ t u, exec (.matrixGrant die) s = .next t ∧ getStrand t ⟨key / 4, key % 4⟩ = some u ∧
          u.grant = some { g with granted := true } ∧ (getDie t d).share = x.share - g.charge)))

/-- R235 to R237: a drain forms its entries at once, pushes them one by one and then clears its tile where asked; `mtog`
pushes the toggle densities and states of the slots. -/
def Obligations.Drains : Prop :=
  (∀ s st tk (acc : BitVec 4) (f : DrainFn), AtEngine s .m st → st.nest = none →
    (TokensReady st .m tk → st.drain = none → TileReady st acc →
      ∃ t u d, exec (.mdrain tk acc f) s = .next t ∧ getStrand t (Walker.ref s.cur) = some u ∧ u.drain = some d ∧
        d.tile = acc ∧ d.clear = f.clr ∧ d.pos = (getEng st .m).passed ∧ (getEng u .m).pc = (getEng st .m).pc ∧
        d.entries.length = f.dty.width ∧ t.mem = s.mem ∧ u.acc = st.acc ∧
        -- a plain fp32 drain gives the elements row by row
        (f.int = false → f.dty = .f32 → f.scale = 0 → f.relu = false → ∀ e < 32, ∀ j < 128,
          elem (d.entries.getD e 0) 32 j = tileElem (getAcc st acc) (2 * e + j / 64) (j % 64)) ∧
        -- integers with ReLU clamp to the type
        (f.int = true → f.dty.isInt = true → f.scale = 0 → ∀ e < f.dty.width, ∀ j < 4096 / f.dty.width,
          elem (d.entries.getD e 0) f.dty.width j =
            let z := (BitVec.ofNat 32 (tileElem (getAcc st acc) (64 / f.dty.width * e + j / 64) (j % 64))).toInt
            fit f.dty true (if f.relu then max 0 z else z))) ∧
    (∀ d x rest, st.drain = some d → d.entries = x :: rest → st.sq.length < 8 → st.pred = none →
      ∃ t u, exec (.mdrain tk acc f) s = .next t ∧ getStrand t (Walker.ref s.cur) = some u ∧
        u.sq = st.sq ++ [{ data := BitVec.ofNat 4096 x }] ∧ u.drain = some { d with entries := rest } ∧
        (getEng u .m).pc = (getEng st .m).pc ∧ t.mem = s.mem) ∧
    (∀ d, st.drain = some d → d.entries = [] → (getAcc st d.tile).held = true →
      ∃ t u, Goes (.mdrain tk acc f) s st .m t u ∧ u.drain = none ∧ u.sq = st.sq ∧ t.mem = s.mem ∧
        (getAcc u d.tile).data = if d.clear then 0 else (getAcc st d.tile).data)) ∧
  (∀ s st tk, AtEngine s .m st → TokensReady st .m tk → Quiet st → engDone st .m = true → st.sq.length < 8 →
    st.pred = none →
    ∃ t u x, Goes (.mtog tk) s st .m t u ∧ u.sq = st.sq ++ [x] ∧ SameElsewhere s t ∧ (∀ r, latest u r = latest st r) ∧
      ∀ n : BitVec 5, let o := getOm st n
        elem x.data.toNat 8 n.toNat = (if o.state = .filled ∨ o.state = .refilling then o.tog.toNat else 0) ∧
        elem x.data.toNat 8 (32 + n.toNat) = match o.state with
          | .notHeld => 0 | .claimed => 1 | .filled => 2 | .speculative => 3 | .refilling => 4)

namespace Sys2Proof.Claims

open Sys2Proof Machine

/-- The running nest of the current strand, which holds its block, is not stopped and is not paused (R242, R243). -/
def NestAt (s : State) (st : Strand) (n : NestRun) : Prop :=
  standing s = some st ∧ st.nest = some n ∧ st.nestActive.hdr ≠ none ∧ stoppedMid st = false ∧ st.block = true ∧
    regionPaused s st = false ∧ st.drain = none

/-- The nest takes an action that leaves memory and registers, with this run to go on. -/
def NestGoes (s : State) (st : Strand) (P : Strand → Prop) : Prop :=
  ∃ t u, exec .nestStep s = .next t ∧ getStrand t (Walker.ref s.cur) = some u ∧ t.mem = s.mem ∧
    (∀ r, latest u r = latest st r) ∧ u.acc = st.acc ∧ P u

end Sys2Proof.Claims

/-- R239, R240, R242 to R244: the nest table, the start of a nest, and how it walks its levels. -/
def Sys2Proof.Claims.LoopNests : Prop :=
  (∀ s st tk (rec : NestRec) x y rest, AtEngine s .m st → TokensReady st .m tk → st.qM = x :: y :: rest →
    ((match rec with | .level _ => levelOk (x, y) | .header => headerOk (x, y)) = true →
      ∃ t u, Goes (.mnset tk rec) s st .m t u ∧ u.qM = rest ∧ u.nestActive = st.nestActive ∧ SameElsewhere s t ∧
        (∀ n, rec = .level n → n.toNat < 6 → u.nestShadow.hdr = st.nestShadow.hdr ∧
          u.nestShadow.levels = st.nestShadow.levels.set (Fin.ofNat 6 n.toNat) (x, y)) ∧
        (rec = .header → u.nestShadow = { st.nestShadow with hdr := some (x, y) })) ∧
    ((match rec with | .level _ => levelOk (x, y) | .header => headerOk (x, y)) = false →
      Traps (.mnset tk rec) s st .m .opField 0)) ∧
  (∀ s st tk, AtEngine s .m st → TokensReady st .m tk → Quiet st →
    (st.nestShadow.hdr ≠ none → ∃ t u n, Goes (.mnest tk) s st .m t u ∧ u.nestActive = st.nestShadow ∧ u.nest = some n ∧
      n.levels = [] ∧ n.step = 0 ∧ n.todo = [.enter] ∧ n.index = (getEng st .m).pc ∧ SameElsewhere s t) ∧
    (st.nestShadow.hdr = none → Traps (.mnest tk) s st .m .opField 0)) ∧
  (∀ s st n, NestAt s st n →
    let l := n.levels.length
    let v := st.nestActive.levels.get (Fin.ofNat 6 l)
    let trip := (v.1.extractLsb' 32 16).toNat
    let zero := v.1.getLsbD 60
    let drains := v.1.getLsbD 59
    let fills := (if v.1.getLsbD 62 then 1 else 0) + if v.1.getLsbD 61 then 1 else 0
    -- a level with an immediate trip count is entered
    (∀ rest, n.todo = .enter :: rest → v.1.getLsbD 63 = false → 0 < trip → l < 6 →
      NestGoes s st fun u => u.nest = some { n with
        levels := n.levels ++ [(trip, 0)],
        todo := (if fills = 0 then [] else [.fills fills]) ++ [if l = 5 then .step false else .enter, .iterEnd] ++ rest }) ∧
    (∀ rest, n.todo = .enter :: rest → v.1.getLsbD 63 = false → trip = 0 → (zero && drains) = false → rest ≠ [] →
      NestGoes s st fun u => u.nest = some { n with todo := rest }) ∧
    (∀ rest, n.todo = .enter :: rest → v.1.getLsbD 63 = false → trip = 0 → (zero && drains) = true →
      NestGoes s st fun u => u.nest = some { n with todo := .step true :: rest }) ∧
    -- a token from L
    (∀ k rest p toks, n.todo = .fills k :: rest → rest ≠ [] → st.tok.lm = p :: toks → p.filled = true →
      NestGoes s st fun u => u.tok.lm = toks ∧
        u.nest = some { n with todo := if k ≤ 1 then rest else .fills (k - 1) :: rest }) ∧
    -- the end of an iteration of the innermost level
    (∀ rest ls c i, n.todo = .iterEnd :: rest → n.levels = ls ++ [(c, i)] →
      let w := st.nestActive.levels.get (Fin.ofNat 6 ls.length)
      let k := (if w.1.getLsbD 62 then 1 else 0) + if w.1.getLsbD 61 then 1 else 0
      w.1.getLsbD 58 = false →
      (i + 1 < c → NestGoes s st fun u => u.nest = some { n with
        levels := ls ++ [(c, i + 1)],
        todo := (if k = 0 then [] else [.fills k]) ++ [if ls.length = 5 then .step false else .enter, .iterEnd] ++ rest }) ∧
      (c ≤ i + 1 → rest ≠ [] → NestGoes s st fun u => u.nest = some { n with levels := ls, todo := rest }) ∧
      (c ≤ i + 1 → rest = [] → NestGoes s st fun u => u.nest = none)))

/-- R246 to R248, R254, R255: a pattern program is checked and stored with the contexts that it reaches made invalid, and
`mpbind` binds a context to a stored program. -/
def Sys2Proof.Claims.PatternWords : Prop :=
  (∀ s st tk (w n1 : BitVec 8) x rest, AtEngine s .m st → (st.mpWords = [] → TokensReady st .m tk) → Quiet st →
    engDone st .m = true → st.qM = x :: rest →
    let n := n1.toNat + 1
    let got := st.mpWords ++ [x]
    let word := fun i => (if i % 2 = 0 then (got.getD (i / 2) 0).setWidth 32
      else ((got.getD (i / 2) 0) >>> 32).setWidth 32 : BitVec 32)
    let ws := (List.range n).map word
    -- entries are popped one by one, until the last
    (got.length < (n + 1) / 2 →
      ∃ t u, exec (.mpload tk w n1) s = .next t ∧ getStrand t (Walker.ref s.cur) = some u ∧ u.qM = rest ∧
        u.mpWords = got ∧ (getEng u .m).pc = (getEng st .m).pc ∧ SameElsewhere s t ∧ ∀ r, latest u r = latest st r) ∧
    (got.length = (n + 1) / 2 → w.toNat + n ≤ 256 → patProgramOk 0 ws = true →
      ∃ t u, Goes (.mpload tk w n1) s st .m t u ∧ u.qM = rest ∧ u.mpWords = [] ∧ SameElsewhere s t ∧
        (∀ r, latest u r = latest st r) ∧ (∀ i : Fin 256, u.patStore.get i =
          if w.toNat ≤ i.val ∧ i.val < w.toNat + n then word (i.val - w.toNat) else st.patStore.get i) ∧
        (u.patStart.getLsbD w.toNat = true) ∧
        ∀ c : Fin 16, u.pat.get c = st.pat.get c ∨ patValid (u.pat.get c) = false) ∧
    (got.length = (n + 1) / 2 → patProgramOk 0 ws = false → Traps (.mpload tk w n1) s st .m .pattern 0)) ∧
  (∀ s st tk (pat : BitVec 4) ta e rest, AtEngine s .m st → TokensReady st .m tk → Quiet st → engDone st .m = true →
    st.qM = e :: rest →
    (∀ x, bindCheck st pat ta e = .ok x →
      (patValid x = true ∧ patColord x = ta ∧ patStartOf x = (e.extractLsb' 0 8).toNat ∧
        patRows x = (e.extractLsb' 8 6).toNat + 1 ∧ patCols x = (e.extractLsb' 14 8).toNat + 1) ∧
      ∃ t u, Goes (.mpbind tk pat ta) s st .m t u ∧ u.qM = rest ∧ SameElsewhere s t ∧
        u.pat = st.pat.set pat.toFin x ∧ ∀ r, latest u r = latest st r) ∧
    (e.extractLsb' 22 42 ≠ 0 → Traps (.mpbind tk pat ta) s st .m .opField 0) ∧
    (∀ tr, bindCheck st pat ta e = .error tr → Traps (.mpbind tk pat ta) s st .m tr.cause tr.addr)) ∧
  -- the mixing function is a bijection, and the Feistel permutation one of the columns below K (R251)
  (Function.Bijective h32 ∧ ∀ seed k, seed < 2 ^ 16 → 0 < k → k ≤ 256 →
    ∀ x < k, feistelPerm seed k x < k ∧ ∀ y < k, feistelPerm seed k x = feistelPerm seed k y → x = y)

/-! ## Bound opcodes and micro-routines -/

namespace Sys2Proof.Claims

open Sys2Proof Machine

/-- The registers that a bound word of an engine hands to its routine as ms1 and ms2 (R357). -/
def boundArgs (st : Strand) (e : Eng) (a b : BitVec 7) : Word × Word :=
  match e with
  | .c => (gNow st (a.setWidth 5), gNow st (b.setWidth 5))
  | .l => (aNow st (a.setWidth 4), aNow st (b.setWidth 4))
  | .s => (bNow st (a.setWidth 4), bNow st (b.setWidth 4))
  | .m => (a.setWidth 64, b.setWidth 64)
  | .v => (0, 0)

def ArgsReadable (st : Strand) (e : Eng) : Prop :=
  ∀ n, (e = .c → Readable st (.g n)) ∧ (e = .l → Readable st (.a (n.setWidth 4))) ∧
    (e = .s → Readable st (.b (n.setWidth 4)))

/-- The routine of the current engine at a micro-word of the context's share. -/
def AtMicro (s : State) (st : Strand) (m : Micro) (w : MicroWord) : Prop :=
  standing s = some st ∧ (getEng st s.cur.eng).micro = some m ∧ stoppedMid st = false ∧ st.loading = none ∧
    (s.cur.eng = .s ∨ st.block = true ∧ regionPaused s st = false) ∧
    w = (fget (getCtx s s.cur.cell st.part).wcs (m.mpc % 4096)).getD 0

/-- The micro-word has no vector, scratchpad or tile part. -/
def NoParts (w : MicroWord) : Prop := mVop w = 0 ∧ mBop w = 0 ∧ mTop w = 0

end Sys2Proof.Claims

/-- R350, R357, R364: a bound word starts its routine with the base state; S keeps it for the data stage, which starts it
there. The engine stays at the word until the routine ends. -/
def Sys2Proof.Claims.BoundWords : Prop :=
  (∀ s st (n : BitVec 6) e h d a b (imm : BitVec 24), AtEngine s e st → ArgsReadable st e →
    let i : Instr := .boundOpcode n e h d a b imm
    let entry := boundEntry (getCtx s s.cur.cell st.part) st e n
    let base : Micro :=
      { word := i, index := (getEng st e).pc, entry := entry, mpc := (entry.extractLsb' 0 12).toNat, mlc := 0,
        ms := #v[imm.setWidth 64, (boundArgs st e a b).1, (boundArgs st e a b).2, 0, 0, 0, 0, 0],
        ag := Vector.replicate 8 0, mt := Vector.replicate 8 0, mmask := 0, z := false, n := false, vf := false,
        steps := 0 }
    (e ≠ .s → (e = .c → h.tk = Tk.none) → TokensReady st e h.tk → (e = .l → st.lean = none) → (e = .m → Quiet st) →
      entry.extractLsb' 56 4 = 0 ∨ entry.extractLsb' 56 4 = 15 →
      ∃ t u, exec i s = .next t ∧ getStrand t (Walker.ref s.cur) = some u ∧ (getEng u e).micro = some base ∧
        (getEng u e).pc = (getEng st e).pc ∧ (∀ r, latest u r = latest st r) ∧ SameElsewhere s t ∧ SameOthers e st u) ∧
    (e = .s → st.stores.length < 64 → Enters i s st fun x =>
      x.ea = (boundArgs st .s a b).1 ∧ x.entered = routineStores (getCtx s s.cur.cell st.part) entry)) ∧
  (∀ s st x rest n h d a b (imm : BitVec 24), AtDataStage s st x rest → x.word = .boundOpcode n .s h d a b imm →
    h.tk = Tk.none →
    ∃ t u m, exec .storeDataStage s = .next t ∧ getStrand t (Walker.ref s.cur) = some u ∧
      (getEng u .s).micro = some m ∧ m.word = x.word ∧ m.index = x.index ∧ m.ms.get 0 = imm.setWidth 64 ∧
      m.ms.get 1 = x.ea ∧ u.stores = st.stores ∧ t.mem = s.mem)

/-- R354, R356, R360, R362, R363, R366: a step of a routine: the address and scalar units, where the routine goes next, its
end, its trap and its bound on steps. -/
def Sys2Proof.Claims.MicroSteps : Prop :=
  ∀ s st m w, AtMicro s st m w → NoParts w →
    let e := s.cur.eng
    let steps := (m.entry.extractLsb' 40 12).toNat
    let field := fun (lo n : Nat) => (w.extractLsb' lo n).toNat
    let ms := fun k => m.ms.get (Fin.ofNat 8 k)
    let simm := (w.extractLsb' 10 12).signExtend 64
    let aimm := (w.extractLsb' 40 18).signExtend 64
    let sop := field 28 4
    let seq := field 124 4
    let value := match sop with
      | 1 => some simm
      | 2 => some (ms (field 22 3) + simm)
      | 3 => some (ms (field 25 3) + ms (field 22 3))
      | 4 => some (ms (field 22 3) &&& simm)
      | 5 => some (ms (field 25 3) <<< ((ms (field 22 3)).toNat % 64))
      | 6 => some (((m.mt.get (Fin.ofNat 8 (field 22 3))).setWidth 32).setWidth 64)
      | _ => none
    let z := match value with | some x => x == 0 | none => m.z
    let neg := match value with | some x => x.getLsbD 63 | none => m.n
    let lc := if sop = 7 then (ms (field 22 3)).setWidth 32 else m.mlc
    let jump := m.mpc / 4096 * 4096 + field 112 12
    let cond := match field 108 4 with | 0 => z | 1 => neg | 2 => m.vf | _ => lc == 0
    (m.steps < steps → seq ≤ 4 ∨ seq = 8 → sop ≤ 7 →
      ∃ t u m', exec .microStep s = .next t ∧ getStrand t (Walker.ref s.cur) = some u ∧ (getEng u e).micro = some m' ∧
        (getEng u e).pc = (getEng st e).pc ∧ (∀ r, latest u r = latest st r) ∧ SameElsewhere s t ∧ m'.steps = m.steps + 1 ∧
        (∀ x, value = some x → m'.ms = m.ms.set (Fin.ofNat 8 (field 25 3)) x) ∧ (value = none → m'.ms = m.ms) ∧
        m'.z = z ∧ m'.n = neg ∧ m'.mt = m.mt ∧ m'.mmask = m.mmask ∧
        m'.ag = (match field 61 3 with
          | 1 => m.ag.set (Fin.ofNat 8 (field 58 3)) aimm
          | 2 => m.ag.set (Fin.ofNat 8 (field 58 3)) (m.ag.get (Fin.ofNat 8 (field 58 3)) + aimm)
          | 3 => m.ag.set (Fin.ofNat 8 (field 58 3)) (ms (field 22 3) + aimm)
          | _ => m.ag) ∧
        m'.mlc = (if seq = 4 then lc - 1 else lc) ∧
        m'.mpc = (match seq with
          | 1 => jump
          | 2 => if cond then jump else m.mpc + 1
          | 3 => if cond then m.mpc + 1 else jump
          | 4 => if lc - 1 = 0 then m.mpc + 1 else jump
          | _ => m.mpc + 1)) ∧
    -- msout of an engine with words of 64 bits
    (m.steps < steps → seq = 0 → sop = 8 → ∀ n hh d a b imm, m.word = .boundOpcode n e hh d a b imm →
      ∃ t u, exec .microStep s = .next t ∧ getStrand t (Walker.ref s.cur) = some u ∧
        (e = .c → d.setWidth 5 ≠ (0 : BitVec 5) → gLater u (d.setWidth 5) = ms (field 22 3)) ∧
        (e = .l → aLater u (d.setWidth 4) = ms (field 22 3)) ∧
        (e = .s → bNow u (d.setWidth 4) = ms (field 22 3))) ∧
    -- the end of a routine
    (m.steps < steps → seq = 6 → sop = 0 →
      ∃ t u, exec .microStep s = .next t ∧ getStrand t (Walker.ref s.cur) = some u ∧ (getEng u e).micro = none ∧
        SameElsewhere s t ∧ (∀ r, latest u r = latest st r) ∧
        (e ≠ .s → (getEng u e).pc = (getEng st e).pc + 1 ∧ (getEng u e).passed = (getEng st e).passed + 1) ∧
        (e = .s → ∀ x, nextStore st = some x → u.stores = (dropStore st x).stores)) ∧
    -- a trap of the routine, which goes on at the next micro-word, and the bound on its steps
    (let raises := fun (c : Cause) (addr : Nat) (P : Strand → Prop) =>
      ∃ t u q, exec .microStep s = .next t ∧ getStrand t (Walker.ref s.cur) = some u ∧ u.frozen = true ∧
        u.faults = addFault st.faults q ∧ q.trap.cause = c ∧ q.trap.addr = addr ∧ q.eng = Eng.code e ∧
        q.word = m.index ∧ q.mic = some (m.mpc % 4096, m.steps) ∧ P u
     (m.steps < steps → seq = 7 → raises .trap (ms (field 22 3)).toNat fun u =>
        (getEng u e).micro = some { m with mpc := m.mpc + 1, steps := m.steps + 1 }) ∧
     (steps ≤ m.steps → raises .stepBound 0 fun u => (getEng u e).micro = some m))

/-- R358: the lanes of a routine's vector part between its own tile registers: `mt` operands, all lanes, no queue. -/
def Sys2Proof.Claims.MicroVectorParts : Prop :=
  ∀ s st m w, AtMicro s st m w →
    let field := fun (lo n : Nat) => (w.extractLsb' lo n).toNat
    let steps := (m.entry.extractLsb' 40 12).toNat
    let a := field 91 7
    let b := field 84 7
    let d := field 77 7
    let vop := field 102 6
    let t := tyCodes.getD (field 98 4) .b
    let e := s.cur.eng
    m.steps < steps → field 124 4 = 0 → field 61 3 = 0 → field 28 4 = 0 → 80 ≤ a → a < 88 → 80 ≤ b → b < 88 → 80 ≤ d →
    d < 88 → field 75 2 = 3 → t.isInt = true → 1 ≤ vop → vop ≤ 16 →
      ∃ t' u m', exec .microStep s = .next t' ∧ getStrand t' (Walker.ref s.cur) = some u ∧ (getEng u e).micro = some m' ∧
        SameElsewhere s t' ∧ (∀ r, latest u r = latest st r) ∧ m'.mpc = m.mpc + 1 ∧
        (∀ k : Fin 8, k.val ≠ d - 80 → m'.mt.get k = m.mt.get k) ∧
        ∀ i < t.count,
          let x := fun (j : Nat) => elem (m.mt.get (Fin.ofNat 8 (a - 80))).toNat t.width j
          let y := elem (m.mt.get (Fin.ofNat 8 (b - 80))).toNat t.width i
          elem (m'.mt.get (Fin.ofNat 8 (d - 80))).toNat t.width i = match vop with
            | 1 => fit t false (Claims.intOf t (x i) + Claims.intOf t y)
            | 2 => fit t false (Claims.intOf t (x i) - Claims.intOf t y)
            | 3 => fit t false (Claims.intOf t (x i) * Claims.intOf t y)
            | 4 => fit t true (Claims.intOf t (x i) + Claims.intOf t y)
            | 5 => fit t true (Claims.intOf t (x i) - Claims.intOf t y)
            | 6 => fit t false (min (Claims.intOf t (x i)) (Claims.intOf t y))
            | 7 => fit t false (max (Claims.intOf t (x i)) (Claims.intOf t y))
            | 8 => x i &&& y
            | 9 => x i ||| y
            | 10 => x i ^^^ y
            | 11 => x i * 2 ^ (y % t.width) % 2 ^ t.width
            | 12 => x i / 2 ^ (y % t.width)
            | 13 => x i
            | 14 => if x i = y then 2 ^ t.width - 1 else 0
            | 15 => x (y % t.count)
            | _ => i % 2 ^ t.width

/-! ## Collectives -/

namespace Sys2Proof.Claims

open Sys2Proof Machine

/-- A field of a doubleword. -/
def fieldOf (w : Word) (lo n : Nat) : Nat := (w.extractLsb' lo n).toNat

/-- A result record of the collective engine (R298). -/
def resultRecord (seq tag : BitVec 16) (stat cause : Nat) (place : Bool) (step : Nat) : Word :=
  seq ++ tag ++ (0 : BitVec 8) ++ BitVec.ofNat 4 stat ++ BitVec.ofNat 4 cause ++ BitVec.ofBool place ++ (0 : BitVec 3) ++
    BitVec.ofNat 12 step

/-- The record of a command goes to the result FIFO of the strand that pushed it (R297). -/
def Recorded (s t : State) (cmd : CollCmd) (w : Word) : Prop :=
  ∀ r st, getStrand s r = some st → st.uid = cmd.uid → (∃ p ∈ st.results, p.id = cmd.id) →
    ∃ u, getStrand t r = some u ∧ u.results = st.results.filter (fun p => p.id != cmd.id) ++ [⟨cmd.id, some w⟩]

/-- A collective runs its program in a group slot. -/
def Runs (s : State) (r : CRef) (x : CollSlot) (q : CollRun) : Prop :=
  getSlot s r = some x ∧ x.run = some q ∧ q.inFabric = false

/-- An event takes a running collective to `q'` and touches neither memory nor a cell. -/
def RunGoes (i : Instr) (s : State) (r : CRef) (x : CollSlot) (q' : CollRun) : Prop :=
  ∃ t, exec i s = .next t ∧ getSlot t r = some { x with run := some q' } ∧ t.mem = s.mem ∧ t.cells = s.cells

/-- A rank is a child of another in the binomial tree of `n` ranks rooted at `root` (R310). -/
def TreeChild (n root rank child : Nat) : Prop :=
  ∃ j, (rank + n - root) % n < 2 ^ j ∧ (rank + n - root) % n + 2 ^ j < n ∧
    child = (root + (rank + n - root) % n + 2 ^ j) % n

/-- The ABORT that a member sends to a rank, and its acknowledgement (R310). -/
def abortTo (g : Group) (pkg : BitVec 10) (k root : Nat) (seq : BitVec 16) (cause : BitVec 4) : NetMsg :=
  .abort ((g.members.getD k 0) / 4 % 1024) ((g.members.getD k 0) % 4) ⟨g.wgid, g.dtag, seq, root, cause, g.rank, pkg⟩

def ackTo (g : Group) (pkg : BitVec 10) (k root : Nat) (seq : BitVec 16) (cause : BitVec 4) : NetMsg :=
  .ack ((g.members.getD k 0) / 4 % 1024) ((g.members.getD k 0) % 4) ⟨g.wgid, g.dtag, seq, root, cause, g.rank, pkg⟩

/-- A group as GSET installs it on this engine (R299, R300). -/
def GroupOk (s : State) (g : Group) : Prop :=
  g.rank < g.members.length ∧ g.members.length ≤ 2048 ∧ g.members.getD g.rank 0 / 4 % 1024 = s.hub.pkg.toNat

/-- The running collective of a slot ends here with a cause (R309 to R311): everything of it is dropped; the ABORT goes to
the children, and without children the record is given at once and the sequence advances. -/
def EndsWith (s t : State) (r : CRef) (x : CollSlot) (q : CollRun) (root : Nat) (cause : BitVec 4)
    (parent : Option Nat) : Prop :=
  GroupOk s x.group → root < x.group.members.length → x.aborts = [] →
    ((∃ k, TreeChild x.group.members.length root x.group.rank k) → ∃ x' a, getSlot t r = some x' ∧ x'.run = none ∧
      x'.group = x.group ∧ x'.aborts = [a] ∧ a.seq = x.group.seq ∧ a.root = root ∧ a.cause = cause ∧ a.parent = parent ∧
      (∀ k, k ∈ a.children ↔ TreeChild x.group.members.length root x.group.rank k) ∧
      (∀ m ∈ x'.held, m.2.seq ≠ x.group.seq) ∧
      ∀ k ∈ a.children, abortTo x.group s.hub.pkg k root x.group.seq cause ∈ t.hub.net) ∧
    ((¬ ∃ k, TreeChild x.group.members.length root x.group.rank k) → ∃ x', getSlot t r = some x' ∧ x'.run = none ∧
      x'.group = { x.group with seq := x.group.seq + 1 } ∧ x'.aborts = [] ∧
      (∀ p, parent = some p → ackTo x.group s.hub.pkg p root x.group.seq cause ∈ t.hub.net) ∧
      (q.active = [] → q.pc < 4096 →
        Recorded s t q.cmd (resultRecord x.group.seq (cbTag q.block) 2 cause.toNat false q.pc)))

/-- A step's peer and receive peer (R305). Ranks are taken modulo n. -/
def Peers (x : CollSlot) (q : CollRun) (w : Word) (peer rpeer : Nat) : Prop :=
  let n := x.group.members.length
  let rank := x.group.rank
  let k := fieldOf w 40 16
  let at_ := fun (z : Int) => (z % n).toNat
  let far := k * 2 ^ q.counters.get (Fin.ofNat 4 (fieldOf w 36 2))
  peer < n ∧ rpeer < n ∧
    match fieldOf w 56 4 with
     | 0 => peer = k ∧ rpeer = k
     | 1 => peer = at_ (rank + k) ∧ rpeer = at_ (rank - k)
     | 2 => peer = at_ (rank - k) ∧ rpeer = at_ (rank + k)
     | 3 => peer = rank ^^^ k ∧ rpeer = rank ^^^ k
     | 4 => peer = at_ (rank + far) ∧ rpeer = at_ (rank - far)
     | _ => False

/-- A step's offset and length in 64-byte units (R305). Chunk indices are taken modulo n. -/
def StepRange (x : CollSlot) (q : CollRun) (w : Word) (off len : Nat) : Prop :=
  let rank := x.group.rank
  let v := q.counters.get (Fin.ofNat 4 (fieldOf w 36 2))
  let ch := fieldOf (q.block.getD (9 + 2 * fieldOf w 32 4) 0) 48 16
  let at_ := fun (z : Int) => (z % x.group.members.length).toNat
  off = (fieldOf w 0 16 + match fieldOf w 38 2 with
      | 0 => 0
      | 1 => ch * at_ (rank - v)
      | 2 => ch * at_ (rank - v + 1)
      | _ => ch * at_ (rank + v)) % 2 ^ 32 ∧
  len = if fieldOf w 16 16 ≠ 0 then fieldOf w 16 16 else if fieldOf w 38 2 ≠ 0 then ch else 0

/-- A range within a buffer: memory within SIZE, staging within the partition's space too (R296, R305). -/
def RangeFits (s : State) (r : CRef) (q : CollRun) (k off len : Nat) : Prop :=
  let w0 := q.block.getD (8 + 2 * k) 0
  let w1 := q.block.getD (9 + 2 * k) 0
  len = 0 ∨ fieldOf w0 62 2 ≠ 0 ∧ off + len ≤ fieldOf w1 0 32 ∧
    (fieldOf w0 62 2 = 2 → fieldOf w0 0 54 + 64 * (off + len) ≤ 65536 * (getColl s r.die r.part).shares)

/-- A buffer is in the staging space at this byte offset. -/
def InStaging (q : CollRun) (k base : Nat) : Prop :=
  fieldOf (q.block.getD (8 + 2 * k) 0) 62 2 = 2 ∧ fieldOf (q.block.getD (8 + 2 * k) 0) 0 54 = base

end Sys2Proof.Claims

/-- R297, R336: a `push` to the collective engine takes a place of the result FIFO; a ninth waits. -/
def Sys2Proof.Claims.CollectivePushes : Prop :=
  ∀ s st gb, AtEngine s .c st → Readable st (.g gb) →
    let pushes := fun (i : Instr) (op : CollOp) =>
      (st.results.length < 8 → ∃ t u c, Goes i s st .c t u ∧ u.results = st.results ++ [⟨c.id, none⟩] ∧ c.op = op ∧
        c.uid = st.uid ∧ c.cell = s.cur.cell ∧ (getColl t (dieOf s.cur.cell) st.part).cmds =
          (getColl s (dieOf s.cur.cell) st.part).cmds ++ [c] ∧ SameElsewhere s t ∧ ∀ r, latest u r = latest st r) ∧
      (8 ≤ st.results.length → exec i s = .next s)
    pushes (.pushGset gb) (.gset (gNow st gb)) ∧ pushes (.pushGfree gb) (.gfree ((gNow st gb).setWidth 4)) ∧
    pushes (.pushCrun gb) (.crun (gNow st gb))

/-- R300, R301: what GFREE answers, and that GSET and CRUN refuse an operand that is not aligned. -/
def Sys2Proof.Claims.CollectiveCommands : Prop :=
  (∀ s d part cmd k, d < 4 →
    (getSlot s ⟨d, part, k⟩ = none →
      Recorded s (runGfree s d part cmd k) cmd (resultRecord 0 0 3 0 false 0)) ∧
    (∀ x, getSlot s ⟨d, part, k⟩ = some x → x.run ≠ none ∨ x.waiting ≠ [] →
      Recorded s (runGfree s d part cmd k) cmd (resultRecord 0 0 6 0 false 0) ∧
      getSlot (runGfree s d part cmd k) ⟨d, part, k⟩ = some x) ∧
    (∀ x, getSlot s ⟨d, part, k⟩ = some x → x.run = none → x.waiting = [] → x.aborts = [] →
      ((getColl s d part).slots.map (·.1)).Nodup →
      Recorded s (runGfree s d part cmd k) cmd (resultRecord 0 0 5 0 false 0) ∧
      getSlot (runGfree s d part cmd k) ⟨d, part, k⟩ = none)) ∧
  (∀ s d part cmd va, va % 32 ≠ 0 → ∃ t, runGset s d part cmd va = .ok t ∧ t.dies = s.dies ∧
    Recorded s t cmd (resultRecord 0 0 3 0 false 0)) ∧
  (∀ s d part cmd va, va % 64 ≠ 0 → ∃ t, runCrun s d part cmd va = .ok t ∧ t.dies = s.dies ∧
    Recorded s t cmd (resultRecord 0 0 3 0 false 0))

/-- R306, R307, R311, R314: WAIT, LOOP, ENDL and END. -/
def Sys2Proof.Claims.CollectiveControl : Prop :=
  ∀ s r x q w, Runs s r x q → q.prog[q.pc]? = some w →
    let c := fieldOf w 36 2
    let op := fieldOf w 60 4
    (op = 4 → q.active = [] → (q.sent = [] → RunGoes (.collWait r) s r x { q with pc := q.pc + 1, waitSince := none }) ∧
      (q.sent ≠ [] → RunGoes (.collWait r) s r x { q with waitSince := some (q.waitSince.getD s.clock) })) ∧
    (op = 5 → (∀ l ∈ q.loops, l.1 ≠ c) →
      let n := x.group.members.length
      let trips := if fieldOf w 56 4 = 0 then fieldOf w 40 16 else n - fieldOf w 40 16
      let counters := q.counters.set (Fin.ofNat 4 c) (fieldOf w 0 16)
      (0 < trips → RunGoes (.collLoop r) s r x
        { q with pc := q.pc + 1, counters := counters, loops := (c, q.pc + 1, trips) :: q.loops }) ∧
      (∀ j y, trips = 0 → q.pc < j → q.prog[j]? = some y → fieldOf y 60 4 = 6 → fieldOf y 36 2 = c →
        (∀ i z, q.pc < i → i < j → q.prog[i]? = some z → ¬ (fieldOf z 60 4 = 6 ∧ fieldOf z 36 2 = c)) →
        RunGoes (.collLoop r) s r x { q with pc := j + 1, counters := counters })) ∧
    (∀ body left, op = 6 → q.loops.find? (fun l => l.1 == c) = some (c, body, left) →
      let i := Fin.ofNat 4 c
      let counters := q.counters.set i (q.counters.get i + 1)
      let rest := q.loops.filter fun l => l.1 != c
      (1 < left → RunGoes (.collEndl r) s r x
        { q with pc := body, counters := counters, loops := (c, body, left - 1) :: rest }) ∧
      (left ≤ 1 → RunGoes (.collEndl r) s r x { q with pc := q.pc + 1, counters := counters, loops := rest })) ∧
    (op = 8 → q.active = [] → q.sent = [] → barReady s q = true → (∀ m ∈ x.held, m.2.seq ≠ x.group.seq) →
      ∃ t x', exec (.collEnd r) s = .next t ∧ getSlot t r = some x' ∧ x'.run = none ∧
        x'.group = { x.group with seq := x.group.seq + 1 } ∧ x'.waiting = x.waiting ∧ x'.held = x.held ∧ t.mem = s.mem ∧
        Recorded s t q.cmd (resultRecord x.group.seq (cbTag q.block) 0 0 false 0) ∧
        (cbBar q.block = true → ∀ l ∈ (getCell t q.cmd.cell).l1, l.part ≠ r.part) ∧
        (cbBar q.block = false → t.cells = s.cells))

/-- R305, R307, R308: the steps that move data, as they start: what they take from which rank and send to which, and the
range; SEND's header goes out at once. A failed check is a FAULT. -/
def Sys2Proof.Claims.CollectiveStepStarts : Prop :=
  ∀ s r x q w peer rpeer off len, Runs s r x q → q.prog[q.pc]? = some w → q.active = [] → x.group.rank < x.group.members.length →
    let op := fieldOf w 60 4
    let buf := fieldOf w 32 4
    let fits := RangeFits s r q buf off len ∧ (len = 0 → buf = 0 ∧ fieldOf w 0 16 = 0)
    let starts := fun (i : Instr) (src : Nat) (P : CStep → Prop) =>
      ∃ a heard told, RunGoes i s r x { q with pc := q.pc + 1, active := [a], heard := heard, told := told } ∧
        a.op = op ∧ a.index = q.pc ∧ a.src = src ∧ a.nth = countOf q.heard src ∧ a.buf = buf ∧ a.off = off ∧ a.len = len ∧
        a.since = s.clock ∧ a.msg = none ∧ (∀ k, countOf heard k = countOf q.heard k + if k = src then 1 else 0) ∧ P a
    (Peers x q w peer rpeer → StepRange x q w off len → fits →
      (op = 1 → starts (.recv r) peer fun _ => True) ∧
      (op = 7 → starts (.reduce r) peer fun _ => True) ∧
      (op = 2 → q.told ≠ [] ∨ barReady s q = true →
        starts (.rrs r) rpeer fun a => a.dst = peer ∧ a.ord = countOf q.told peer) ∧
      (op = 0 → q.told ≠ [] ∨ barReady s q = true → memberPkg (x.group.members.getD peer 0) = s.hub.pkg.toNat →
        ∃ t q' m id, exec (.send r) s = .next t ∧ getSlot t r = some { x with run := some q' } ∧ q'.pc = q.pc + 1 ∧
          t.mem = s.mem ∧ t.hub.net = s.hub.net ++
            [.coll id s.hub.pkg.toNat (memberDie (x.group.members.getD peer 0)) m] ∧ q'.sent = q.sent ++ [(id, none)] ∧
          m.wgid = x.group.wgid ∧ m.dtag = x.group.dtag ∧ m.seq = x.group.seq ∧ m.src = x.group.rank ∧ m.dst = peer ∧
          m.step = countOf q.told peer ∧ m.count = len ∧ m.ty.toNat = cbTy q.block % 16 ∧ m.op.toNat = cbOpr q.block % 16 ∧
          m.data = [] ∧ (len = 0 → q'.active = []) ∧
          (0 < len → ∃ a, q'.active = [a] ∧ a.msg = some id ∧ a.op = 0 ∧ a.buf = buf ∧ a.off = off ∧ a.len = len))) ∧
    (op = 3 → StepRange x q w off len →
      (fits → RangeFits s r q (fieldOf w 40 4) off len →
        ∃ a, RunGoes (.collCopy r) s r x { q with pc := q.pc + 1, active := [a] } ∧ a.op = 3 ∧ a.buf = buf ∧ a.off = off ∧
          a.len = len ∧ a.source = fieldOf w 40 4) ∧
      (¬ (fits ∧ RangeFits s r q (fieldOf w 40 4) off len) → ∃ t, exec (.collCopy r) s = .next t ∧ t.mem = s.mem ∧
        EndsWith s t r x q x.group.rank 5 none)) ∧
    (Peers x q w peer rpeer → StepRange x q w off len → ¬ fits → op = 1 →
      ∃ t, exec (.recv r) s = .next t ∧ t.mem = s.mem ∧ EndsWith s t r x q x.group.rank 5 none)

/-- R302, R307, R417: the steps that move data, as they take their message, write and read out; `receivedBytes`,
`readRange` and `writeRange` of the model give the bytes and reach the buffer. -/
def Sys2Proof.Claims.CollectiveStepEffects : Prop :=
  ∀ s r x q a, Runs s r x q → q.active = [a] →
    let find := fun (m : Nat × CollMsg) => m.2.seq == x.group.seq && m.2.src == a.src && m.2.step == a.nth
    let taken := fun (i : Instr) =>
      a.msg = none → ∀ id m, x.held.find? find = some (id, m) →
        (a.op = 1 ∨ .coll r ∉ s.upsets → m.count = a.len → m.ty.toNat = cbTy q.block → m.op.toNat = cbOpr q.block →
          m.data.length = 64 * m.count →
          ∀ bs s1 s2, receivedBytes s r q a m.data = .ok (some bs, s1) →
            writeRange s1 r q.cmd q.block a.buf a.off bs = .ok s2 →
            (a.op = 2 → memberPkg (x.group.members.getD a.dst 0) = s.hub.pkg.toNat) →
            ∃ t x' q', exec i s = .next t ∧ getSlot t r = some x' ∧ x'.run = some q' ∧ q'.pc = q.pc ∧ t.mem = s2.mem ∧
              (getColl t r.die r.part).staging = (getColl s2 r.die r.part).staging ∧
              x'.held = x.held.filter (fun p => p.1 != id) ∧ (a.op ≠ 2 ∨ a.len = 0 → q'.active = []) ∧
              (a.op = 2 → ∃ k h, NetMsg.coll k s.hub.pkg.toNat (memberDie (x.group.members.getD a.dst 0)) h ∈ t.hub.net ∧
                h.src = x.group.rank ∧ h.dst = a.dst ∧ h.step = a.ord ∧ h.count = a.len ∧ h.seq = x.group.seq ∧
                (0 < a.len → q'.active = [{ a with msg := some k }]))) ∧
        -- the residue check of a reduction fails: nothing is written (R417)
        (a.op ≠ 1 → .coll r ∈ s.upsets → m.count = a.len → m.ty.toNat = cbTy q.block → m.op.toNat = cbOpr q.block →
          m.data.length = 64 * m.count →
          ∃ t, exec i s = .next t ∧ t.mem = s.mem ∧ EndsWith s t r x q x.group.rank 5 none) ∧
        (m.count ≠ a.len ∨ m.ty.toNat ≠ cbTy q.block ∨ m.op.toNat ≠ cbOpr q.block →
          ∃ t, exec i s = .next t ∧ t.mem = s.mem ∧ EndsWith s t r x q x.group.rank 1 none)
    let readOut := fun (i : Instr) =>
      ∀ id bs s1, a.msg = some id → asked s id = true → readRange s r q.cmd q.block a.buf a.off a.len = .ok (bs, s1) →
        ∃ t x' q', exec i s = .next t ∧ getSlot t r = some x' ∧ x'.run = some q' ∧ q'.active = [] ∧ q'.pc = q.pc ∧
          t.mem = s1.mem ∧ ∀ pkg die m, NetMsg.coll id pkg die m ∈ s.hub.net →
            NetMsg.coll id pkg die { m with data := bs } ∈ t.hub.net
    (a.op = 1 → taken (.recv r)) ∧ (a.op = 7 → taken (.reduce r)) ∧ (a.op = 2 → taken (.rrs r)) ∧
    (a.op = 0 → readOut (.send r)) ∧ (a.op = 2 → readOut (.rrs r)) ∧
    (a.op = 3 → a.msg = none → ∀ bs s1 s2, readRange s r q.cmd q.block a.source a.off a.len = .ok (bs, s1) →
      writeRange s1 r q.cmd q.block a.buf a.off bs = .ok s2 →
      ∃ t x' q', exec (.collCopy r) s = .next t ∧ getSlot t r = some x' ∧ x'.run = some q' ∧ q'.active = [] ∧
        q'.pc = q.pc ∧ t.mem = s2.mem ∧ (getColl t r.die r.part).staging = (getColl s2 r.die r.part).staging) ∧
    -- ranges of the staging space, and what RECV, REDUCE and RRS put there
    (∀ base off len bs, InStaging q a.buf base → r.die < 4 → bs.length = 64 * len →
      memWf (getColl s r.die r.part).staging = true →
      (∃ l, readRange s r q.cmd q.block a.buf off len = .ok (l, s) ∧ l.length = 64 * len ∧
        ∀ j < 64 * len, l.getD j 0 = mread (getColl s r.die r.part).staging (base + 64 * off + j)) ∧
      (∃ s', writeRange s r q.cmd q.block a.buf off bs = .ok s' ∧ s'.mem = s.mem ∧
        (∀ j < 64 * len, mread (getColl s' r.die r.part).staging (base + 64 * off + j) = bs.getD j 0) ∧
        ∀ j, (j < base + 64 * off ∨ base + 64 * (off + len) ≤ j) →
          mread (getColl s' r.die r.part).staging j = mread (getColl s r.die r.part).staging j))

/-- R302: the reduction ALU: op(local, received) on each element. Integer sums wrap; floating-point sums are rounded to
nearest even with subnormals honoured. -/
def Sys2Proof.Claims.ReductionOperations : Prop :=
  ∀ c ty opr (l r : List Byte), opr ≤ 5 → ty ∈ [4, 5, 8, 9, 10, 11] → (3 ≤ opr → ty = 4 ∨ ty = 5) → l.length % 64 = 0 →
    r.length = l.length →
    ∃ bs, reduceBytes c ty opr l r = some bs ∧ bs.length = l.length ∧
      let t := collTy ty
      ∀ i < l.length / (t.width / 8),
        let x := elem (ofBytes l) t.width i
        let y := elem (ofBytes r) t.width i
        let v := decodeV t false
        elem (ofBytes bs) t.width i =
          if opr = 3 then x &&& y else if opr = 4 then x ||| y else if opr = 5 then x ^^^ y
          else if t.isInt = true then
            Claims.fit t false (if opr = 0 then Claims.intOf t x + Claims.intOf t y
              else if opr = 1 then min (Claims.intOf t x) (Claims.intOf t y) else max (Claims.intOf t x) (Claims.intOf t y))
          else (encodeV t .ne false (if opr = 0 then (addFV .ne (v x) (v y)).1 else (minFV (opr == 2) (v x) (v y)).1)).1

/-- R307, R309 to R311: the time-out, a failing switch, and how aborts spread, are acknowledged and given up. -/
def Sys2Proof.Claims.CollectiveAborts : Prop :=
  (∀ s r x q t0, Runs s r x q → q.waitSince = some t0 → t0 + cbTmo q.block < s.clock →
    ∃ t, exec (.collTimeout r) s = .next t ∧ t.mem = s.mem ∧ EndsWith s t r x q x.group.rank 2 none) ∧
  (∀ s r x q, Runs s r x q → q.waitSince = none → q.active = [] → exec (.collTimeout r) s = .next s) ∧
  (∀ s r x q, getSlot s r = some x → x.run = some q → q.inFabric = true →
    ∃ t, exec (.switchFailure r) s = .next t ∧ t.mem = s.mem ∧ EndsWith s t r x q x.group.rank 4 none) ∧
  -- an ABORT from another package
  (∀ s r x (a : CollAbort), a.fromPkg ≠ s.hub.pkg → findGroup s r.die a.wgid a.dtag = some (r, x) → getSlot s r = some x →
    a.root < x.group.members.length → a.src < x.group.members.length →
    (∀ q, x.run = some q → a.seq = x.group.seq → a.seq ∉ x.aborted →
      ∃ t, exec (.abortReceive r.die a) s = .next t ∧ t.mem = s.mem ∧ EndsWith s t r x q a.root a.cause (some a.src)) ∧
    (a.seq ∈ x.aborted → ∃ t, exec (.abortReceive r.die a) s = .next t ∧ t.mem = s.mem ∧ getSlot t r = some x ∧
      t.hub.net = s.hub.net ++
        [.ack (memberPkg (x.group.members.getD a.src 0)) (memberDie (x.group.members.getD a.src 0))
          ⟨x.group.wgid, x.group.dtag, a.seq, a.root, a.cause, x.group.rank,
            BitVec.ofNat 10 (memberPkg (x.group.members.getD x.group.rank 0))⟩])) ∧
  (∀ s d (a : CollAbort), d < 4 → a.fromPkg ≠ s.hub.pkg → findGroup s d a.wgid a.dtag = none → (logOf s d).length < 4096 →
    ∃ t e, exec (.abortReceive d a) s = .next t ∧ t.mem = s.mem ∧ logOf t d = logOf s d ++ [e] ∧
      fieldOf (e.getD 1 0) 56 8 = 0x43) ∧
  -- the last child is no longer waited for
  (∀ s r x b child, getSlot s r = some x → x.aborts = [b] → b.children = [child] → b.silent = false → GroupOk s x.group →
    let ends := fun (t : State) =>
      (∀ cmd tag, b.cmd = some (cmd, tag) → b.step < 4096 → ∃ x', getSlot t r = some x' ∧ x'.aborts = [] ∧
        x'.group = { x.group with seq := x.group.seq + 1 } ∧
        Recorded s t cmd (resultRecord b.seq tag 2 b.cause.toNat false b.step)) ∧
      (b.cmd = none → ∃ x', getSlot t r = some x' ∧ x'.group = x.group ∧ x'.run = x.run) ∧
      ∀ p, b.parent = some p → ackTo x.group s.hub.pkg p b.root b.seq b.cause ∈ t.hub.net
    (∀ a : CollAbort, a.fromPkg ≠ s.hub.pkg → findGroup s r.die a.wgid a.dtag = some (r, x) → a.seq = b.seq →
      a.src = child → ∃ t, exec (.abortAck r.die a) s = .next t ∧ t.mem = s.mem ∧ ends t) ∧
    (b.since + b.tmo ≤ s.clock → ∃ t, exec (.abortGiveUp r child) s = .next t ∧ t.mem = s.mem ∧ ends t))

/-- R300, R308, R312: a header at its receiver, and the switches' answer to an in-fabric reduction. -/
def Sys2Proof.Claims.CollectiveArrivals : Prop :=
  (∀ s d m, d < 4 → m.fromPkg ≠ s.hub.pkg → m.data.length = 64 * m.count →
    (∃ e ∈ s.hub.routes, e.pkg = m.fromPkg) →
    (∀ r x, findGroup s d m.wgid m.dtag = some (r, x) → getSlot s r = some x → (∀ b ∈ x.aborts, b.seq ≠ m.seq) →
      let dist := (m.seq - x.group.seq).toNat
      (dist ≤ 1 → ∃ t id, exec (.collMessageArrive d m) s = .next t ∧ t.mem = s.mem ∧
        getSlot t r = some { x with held := x.held ++ [(id, m)] }) ∧
      (2 ≤ dist → dist < 2 ^ 15 → ∀ q, x.run = some q → ∃ t, exec (.collMessageArrive d m) s = .next t ∧ t.mem = s.mem ∧
        EndsWith s t r x q x.group.rank 1 none) ∧
      (2 ^ 15 ≤ dist → ∃ t, exec (.collMessageArrive d m) s = .next t ∧ t.mem = s.mem ∧ t.dies = s.dies)) ∧
    (findGroup s d m.wgid m.dtag = none → (logOf s d).length < 4096 →
      ∃ t e, exec (.collMessageArrive d m) s = .next t ∧ t.mem = s.mem ∧ logOf t d = logOf s d ++ [e] ∧
        fieldOf (e.getD 1 0) 56 8 = 0x43 ∧ fieldOf (e.getD 1 0) 38 10 = m.fromPkg.toNat ∧
        NetMsg.error m.fromPkg.toNat m ∈ t.hub.net)) ∧
  (∀ s r x q result, getSlot s r = some x → x.run = some q → q.inFabric = true →
    RunGoes (.inFabricGrant r false result) s r x { q with inFabric := false } ∧
    (let n := fieldOf (q.block.getD 9 0) 0 32
     let d := if fieldOf (q.block.getD 10 0) 62 2 = 0 then 0 else 1
     barReady s q = true → RangeFits s r q 0 0 n → RangeFits s r q d 0 n → result.length = 64 * n →
     ∀ bs s1 s2, readRange s r q.cmd q.block 0 0 n = .ok (bs, s1) →
       writeRange s1 r q.cmd q.block d 0 result = .ok s2 →
       ∃ t x', exec (.inFabricGrant r true result) s = .next t ∧ t.mem = s2.mem ∧ getSlot t r = some x' ∧ x'.run = none ∧
         x'.group = { x.group with seq := x.group.seq + 1 } ∧
         Recorded s2 t q.cmd (resultRecord x.group.seq (cbTag q.block) 0 0 true 0)))

/-! ## The fabric, the host and what comes back -/

namespace Sys2Proof.Claims

open Sys2Proof Machine

/-- A fault is queued at a strand, which freezes (R403, R404). -/
def Raised (t : State) (r : SRef) (st : Strand) (P : QFault → Prop) : Prop :=
  ∃ u q, getStrand t r = some u ∧ u.frozen = true ∧ u.faults = addFault st.faults q ∧ P q

/-- An access that has left the package, and the strand that made it; its number is no other request's. -/
def OutThere (s : State) (r : SRef) (st : Strand) (a : Access) (q : Remote) : Prop :=
  accessOwner s a.id = some (r, st, a) ∧ q ∈ s.hub.remotes ∧ q.id = a.id ∧
    (∀ x ∈ s.hub.remotes, x.id = a.id → x = q) ∧ ∀ u ∈ s.hub.away, u.id ≠ a.id

/-- Such an access whose fault is not one that waits for an outcome of C (R121). -/
def Away (s : State) (r : SRef) (st : Strand) (a : Access) (q : Remote) : Prop :=
  OutThere s r st a q ∧ (a.eng = .l → st.lean = none)

/-- A request that a unit has sent (R76, R293), and the state in which its answer is there for what waits for it. -/
def UnitOut (s : State) (u : UnitReq) (port since : Nat) : Prop :=
  s.hub.away.find? (fun x => x.id == u.id) = some u ∧ u.sent = some (port, since) ∧ ∀ x ∈ s.hub.remotes, x.id ≠ u.id

def unitEnded (s : State) (u : UnitReq) (e : AwayEnd) : State :=
  { s with hub := { s.hub with
      away := s.hub.away.filter fun x => x.id != u.id,
      answers := if u.req.posted then s.hub.answers else s.hub.answers ++ [(u.req, e)] } }

/-- The access and its request are gone. -/
def Answered (t : State) (r : SRef) (a : Access) : Prop :=
  (∀ x ∈ t.hub.remotes, x.id ≠ a.id) ∧ ∃ u, getStrand t r = some u ∧ ∀ b ∈ u.accs, b.id ≠ a.id

/-- What comes back for a request: its data, or an error with its fault (R76, R290, R293). A load of L carries a poisoned
answer into LQ. -/
def Replies (s : State) (r : SRef) (st : Strand) (a : Access) (i : Reply → Instr) (bad : Cause) : Prop :=
  (∀ bs, bs.length = answerBytes a → ∃ t, exec (i (.data bs)) s = .next t ∧ Answered t r a ∧ t.mem = s.mem ∧
    ∀ n u, a.dest = .reg n → n ≠ 0 → a.flag = false → getStrand t r = some u →
      (∃ p ∈ st.pending, p.reg = .g n) →
      (∀ p ∈ st.pending, p.reg = .g n → p.eng = a.eng ∧ p.pos = a.pos ∧ p.val = none ∧ p.mask = fullMask (.g n)) →
      regBits u (.g n) = loadValue a (if l1Load a then ofBytes (bs.take 128) / 2 ^ (8 * (a.pa % 128))
        else ofBytes (bs.take a.size)) &&& fullMask (.g n)) ∧
  (∃ t, exec (i .error) s = .next t ∧ Answered t r a ∧
    Raised t r st fun q => q.trap.cause = .permission ∧ q.trap.addr = a.va ∧ q.word = a.index ∧ q.eng = Eng.code a.eng) ∧
  (∃ t, exec (i .poison) s = .next t ∧ Answered t r a ∧
    ((∀ n, a.dest ≠ .lq n) → Raised t r st fun q => q.trap.cause = bad ∧ q.trap.addr = a.va ∧ q.word = a.index))

end Sys2Proof.Claims

/-- R76, R290, R293: the answers to requests of another package and of the host, and requests that get none. -/
def Sys2Proof.Claims.AnswersFromAway : Prop :=
  (∀ s r st a q, Away s r st a q →
    ((∃ pkg, a.home = .remote pkg) → q.port < 16 → Replies s r st a (.remoteResponse a.id) .poison) ∧
    (a.home = .host → q.port = 16 → Replies s r st a (.hostCompletion a.id) .uncorrectable) ∧
    ((∀ n, a.dest ≠ .lq n) →
      let fails := fun (i : Instr) => ∃ t, exec i s = .next t ∧ Answered t r a ∧
        Raised t r st fun q => q.trap.cause = .uncorrectable ∧ q.trap.addr = a.va ∧ q.word = a.index
      (q.port < 16 → q.since + 400000 ≤ s.clock → fails (.remoteTimeout a.id)) ∧
      (q.port = 16 → q.since + 200000000 ≤ s.clock → fails (.hostCompletionTimeout a.id))) ∧
    (q.port < 16 → s.clock < q.since + 400000 → exec (.remoteTimeout a.id) s = .next s) ∧
    (q.port = 16 → s.clock < q.since + 200000000 → exec (.hostCompletionTimeout a.id) s = .next s)) ∧
  -- on an arm that L has leant into, the fault of a read waits for the outcome
  (∀ s r st a q ln, OutThere s r st a q → a.eng = .l → (∃ n, a.dest = .lq n) → st.lean = some ln → ln.saved.passed ≤ a.pos →
    q.port < 16 → ∃ t u ln', exec (.remoteResponse a.id .error) s = .next t ∧ Answered t r a ∧ getStrand t r = some u ∧
      u.frozen = st.frozen ∧ u.faults = st.faults ∧ u.lean = some ln' ∧
      ∃ f, ln'.fault = some f ∧ (ln.fault = none → f.trap.cause = .permission ∧ f.trap.addr = a.va ∧ f.word = a.index)) ∧
  -- a unit's request
  (∀ s u port since, UnitOut s u port since →
    let ends := fun (i : Instr) (e : AwayEnd) => exec i s = .next (unitEnded s u e)
    (port < 16 → (∀ reply, (∀ bs, reply = .data bs → bs.length = if u.req.data.isSome then 0 else u.req.len) →
        ends (.remoteResponse u.id reply) (.reply reply)) ∧
      (since + 400000 ≤ s.clock → ends (.remoteTimeout u.id) .lost)) ∧
    (port = 16 → (∀ reply, (∀ bs, reply = .data bs → bs.length = if u.req.data.isSome then 0 else u.req.len) →
        ends (.hostCompletion u.id reply) (.reply reply)) ∧
      (since + 200000000 ≤ s.clock → ends (.hostCompletionTimeout u.id) .lost))) ∧
  -- an answer that comes too late is discarded
  (∀ s id reply, (∀ x ∈ s.hub.remotes, x.id ≠ id) → (∀ u ∈ s.hub.away, u.id ≠ id) → (∀ d, (getDie s d).coll = []) →
    exec (.remoteResponse id reply) s = .next s ∧ exec (.hostCompletion id reply) s = .next s)

/-- R59, R67, R75: a request of another package performs at its home when every frame of its range is populated and owned
under its domain tag; any other request is answered with an error and does nothing. -/
def Sys2Proof.Claims.RemoteRequests : Prop :=
  ∀ s (q : RemoteReq),
    let n := remoteBytes q.op
    let performs := fun (mem : Mem → Prop) (answer : Reply) =>
      ∃ t, exec (.remoteRequestArrive q) s = .next t ∧ mem t.mem ∧ t.strands = s.strands ∧ t.cells = s.cells ∧
        t.hub.net = s.hub.net ++ [.reply q.pkg.toNat answer]
    let bytes := (List.range n).map fun i => mread s.mem (q.addr + i)
    let writes := fun (v : Nat) (m : Mem) => readN m q.addr n = v % 256 ^ n ∧
      ∀ j, (j < q.addr ∨ q.addr + n ≤ j) → mread m j = mread s.mem j
    ((∃ e ∈ s.hub.routes, e.pkg = q.pkg) → 0 < n →
      (∀ j < n, populated s (q.addr + j) = true ∧
        ∃ o, fget s.hub.owners ((q.addr + j) / Config.frameSize) = some o ∧ o.valid = true ∧ o.dtag = q.dtag) →
      (∀ l ∈ s.hub.linePoison, l * 128 + 128 ≤ q.addr ∨ q.addr + n ≤ l * 128) → memWf s.mem = true →
      s.hub.deadFrames = [] → s.hub.mixed = [] → (∀ k, q.op = .load k → performs (· = s.mem) (.data bytes)) ∧
      (q.op = .pull → performs (· = s.mem) (.data bytes)) ∧
      (∀ bs, q.op = .store bs → performs (writes (ofBytes bs)) (.data [])) ∧
      (∀ op w v x msa, q.op = .atomic op w v x msa →
        performs (writes (amoNew op n (ofBytes bytes) v.toNat x.toNat)) (.data bytes))) ∧
    ((∃ j < n, ∀ o, fget s.hub.owners ((q.addr + j) / Config.frameSize) = some o → o.valid = false ∨ o.dtag ≠ q.dtag) ∨
      (∀ e ∈ s.hub.routes, e.pkg ≠ q.pkg) →
      performs (· = s.mem) .error)

/-- R291, R292, R295, R309: a port goes down: routes go over to their next port, the requests on it fail, collectives with
a message on it abort with LINK. A link goes down after the third failed replay of a flit. -/
def Sys2Proof.Claims.PortsGoDown : Prop :=
  ∀ s (port : Nat) lost, port < 16 →
    (s.hub.portsUp.getLsbD port = false → exec (.portDown port lost) s = .next s ∧
      ∀ ok, exec (.epnerFlitReceive port ok) s = .next s) ∧
    (s.hub.portsUp.getLsbD port = true →
      (∃ t, exec (.portDown port lost) s = .next t ∧ t.hub.portsUp = s.hub.portsUp &&& ~~~(BitVec.twoPow 16 port) ∧
        t.hub.routes = s.hub.routes.map (fun e => if e.port = port then { e with port := e.next, next := e.port } else e) ∧
        (∀ q ∈ t.hub.remotes, q.port ≠ port) ∧ (∀ u ∈ t.hub.away, ∀ since, u.sent ≠ some (port, since)) ∧
        ((s.hub.remotes.map (·.id)).Nodup → ∀ q ∈ s.hub.remotes, q.port ≠ port → q ∈ t.hub.remotes) ∧
        (∀ r st a q, Away s r st a q → s.hub.remotes.filter (fun x => x.port == port) = [q] → (∀ n, a.dest ≠ .lq n) →
          Raised t r st fun f => f.trap.cause = .uncorrectable ∧ f.trap.addr = a.va) ∧
        (∀ r x q, r.die < 4 → allSlots s = [(r, x)] → getSlot s r = some x → x.run = some q →
          r ∈ lost ∨ (∃ e ∈ q.sent, e.2 = some port) → EndsWith s t r x q x.group.rank 3 none) ∧
        -- a member due to receive over it whose collective has not started
        (∀ r x, r.die < 4 → allSlots s = [(r, x)] → getSlot s r = some x → x.run = none → r ∈ lost → GroupOk s x.group →
          x.aborts = [] → ∃ x' a, getSlot t r = some x' ∧ x'.run = none ∧ x'.group = x.group ∧ x'.aborts = [a] ∧
            a.seq = x.group.seq ∧ a.root = x.group.rank ∧ a.cause = 3 ∧ a.parent = none ∧ a.cmd = none ∧
            (∀ k, k ∈ a.children ↔ TreeChild x.group.members.length x.group.rank x.group.rank k) ∧
            ∀ k ∈ a.children, abortTo x.group s.hub.pkg k x.group.rank x.group.seq 3 ∈ t.hub.net)) ∧
      (∃ t, exec (.epnerFlitReceive port .good) s = .next t ∧ t.hub.replays.get (Fin.ofNat 16 port) = 0 ∧ t.mem = s.mem ∧
        t.hub.portsUp = s.hub.portsUp) ∧
      (s.hub.replays.get (Fin.ofNat 16 port) < 3 → ∃ t, exec (.epnerFlitReceive port (.bad lost)) s = .next t ∧
        t.hub.replays.get (Fin.ofNat 16 port) = s.hub.replays.get (Fin.ofNat 16 port) + 1 ∧ t.mem = s.mem ∧
        t.hub.portsUp = s.hub.portsUp) ∧
      (3 ≤ s.hub.replays.get (Fin.ofNat 16 port) → ∃ t, exec (.epnerFlitReceive port (.bad lost)) s = .next t ∧
        t.hub.portsUp = s.hub.portsUp &&& ~~~(BitVec.twoPow 16 port) ∧ ∀ q ∈ t.hub.remotes, q.port ≠ port))

namespace Sys2Proof.Claims

open Sys2Proof Machine

/-- No translation cache of the package holds an entry of the partition that overlaps the range (R80). -/
def Forgotten (t : State) (part base len : Nat) : Prop :=
  let out := fun (p va level : Nat) => ¬ (p = part ∧ va < base + len ∧ base < va + pageSize level)
  (∀ d, (∀ e ∈ (getDie t d).tlb, out e.part e.va e.level) ∧ ∀ e ∈ (getDie t d).walk, out e.part e.va e.level) ∧
    ∀ c ∈ t.cells, ∀ e ∈ c.2.tlb, out e.part e.va e.level

end Sys2Proof.Claims

/-- R80, R82, R83: an invalidation completes when no access translated in its range is in flight; a pulled page is written
before its leaf; an attempt is given up after 50 µs and the page after 2 ms. -/
def Sys2Proof.Claims.InvalidationsAndPulls : Prop :=
  (∀ s k v, s.hub.invals[k]? = some v →
    (inFlightIn s v.part v.base v.len = true → exec (.invalidationComplete k) s = .next s) ∧
    (inFlightIn s v.part v.base v.len = false → ∃ t, exec (.invalidationComplete k) s = .next t ∧
      t.hub.invals = s.hub.invals.eraseIdx k ∧ Forgotten t v.part v.base v.len ∧ t.mem = s.mem ∧
      (v.mgmt = true → t.hub.readyReply = some []) ∧
      (∀ first n, v.take = some (first, n) → ∀ f, first ≤ f → f < first + n →
        (∃ o, fget t.hub.owners f = some o ∧ o.valid = false) ∧ f ∉ (getPart t v.part).frames) ∧
      (∀ uid pos r st n w, v.caller = some (uid, pos) → getStrand s r = some st → st.uid = uid → n ≠ 0 →
        st.pending = [⟨.c, pos, .g n, none, fullMask (.g n), w, 15, false⟩] →
        ∃ u, getStrand t r = some u ∧ gNow u n = 0 ∧ u.pending = []))) ∧
  (∀ s d k p, d < 4 → (getDie s d).pulls[k]? = some p →
    (∀ page, p.attempt = none → exec (.pullDataArrive d k page) s = .next s) ∧
    (p.attempt ≠ none → ∀ reply, reply = .error ∨ reply = .poison → ∃ t, exec (.pullDataArrive d k reply) s = .next t ∧
      t.mem = s.mem ∧ (getDie t d).pulls = (getDie s d).pulls.set k { p with attempt := none }) ∧
    (∀ page : List Byte, p.attempt ≠ none → page.length = 2 ^ 14 → memWf s.mem = true →
      p.pteAddr + 16 ≤ pteFrame p.pte ∨ pteFrame p.pte + 2 ^ 14 ≤ p.pteAddr →
      ∃ t, exec (.pullDataArrive d k (.data page)) s = .next t ∧ (getDie t d).pulls = (getDie s d).pulls.eraseIdx k ∧
        readN t.mem (pteFrame p.pte) (2 ^ 14) = ofBytes page ∧ Forgotten t p.part p.va (2 ^ 14) ∧
        (let upper := readN t.mem (p.pteAddr + 8) 8
         upper / 2 ^ 40 % 4 = 0 ∧ upper / 2 ^ 54 = s.hub.pkg.toNat ∧ upper % 2 ^ 40 = 0) ∧
        ∀ j, (j < p.pteAddr + 8 ∨ p.pteAddr + 16 ≤ j) → (j < pteFrame p.pte ∨ pteFrame p.pte + 2 ^ 14 ≤ j) →
          mread t.mem j = mread s.mem j) ∧
    (∀ b, p.attempt = some b →
      (b + 200000 ≤ s.clock → ∃ t, exec (.pullAttemptTimeout d k) s = .next t ∧ t.mem = s.mem ∧
        (getDie t d).pulls = (getDie s d).pulls.set k { p with attempt := none }) ∧
      (s.clock < b + 200000 → exec (.pullAttemptTimeout d k) s = .next s)) ∧
    (s.clock < p.since + 8000000 → exec (.pullGiveUp d k) s = .next s) ∧
    (p.since + 8000000 ≤ s.clock → memWf s.mem = true → ∃ t, exec (.pullGiveUp d k) s = .next t ∧
      (getDie t d).pulls = (getDie s d).pulls.eraseIdx k ∧ readN t.mem (p.pteAddr + 8) 8 / 2 ^ 40 % 4 = 2 ∧
      Forgotten t p.part p.va (2 ^ 14) ∧
      ∀ l, pteFrame p.pte ≤ 128 * l → 128 * l < pteFrame p.pte + 2 ^ 14 → l ∈ t.hub.linePoison))

/-- R134, R136: a saved large resource of a resident strand comes back with its contents. -/
def Sys2Proof.Claims.ResourcesComeBack : Prop :=
  ∀ s r st, getStrand s r = some st →
    (∀ n : BitVec 6, st.vOut.getLsbD n.toNat = true → ∃ t u, exec (.resourceRestore r (.v n)) s = .next t ∧
      getStrand t r = some u ∧ u.vOut = st.vOut &&& ~~~(BitVec.twoPow 64 n.toNat) ∧ u.v = st.v ∧ t.mem = s.mem) ∧
    (∀ n : BitVec 5, (getOm st n).state ≠ .notHeld → (getOm st n).phys = none →
      (∃ x ∈ (getCell s r.cell).om.toList, x = none) → ∃ t u j, exec (.resourceRestore r (.om n)) s = .next t ∧
      getStrand t r = some u ∧ getOm u n = { getOm st n with phys := some j } ∧
      (getCell t r.cell).om.get (Fin.ofNat 32 j) = some ⟨st.uid, n.toNat⟩ ∧ t.mem = s.mem) ∧
    (∀ n : BitVec 4, (getAcc st n).held = true → (getAcc st n).phys = none →
      (∃ x ∈ (getCell s r.cell).acc.toList, x = none) → ∃ t u j, exec (.resourceRestore r (.acc n)) s = .next t ∧
      getStrand t r = some u ∧ getAcc u n = { getAcc st n with phys := some j } ∧
      (getCell t r.cell).acc.get (Fin.ofNat 16 j) = some ⟨st.uid, n.toNat⟩ ∧
      ((∀ p ∈ parkedOn s r.cell, ∀ k i, p ≠ .tile k i) → t.mem = s.mem))

/-! ## Scheduling -/

namespace Sys2Proof.Claims

open Sys2Proof Machine

/-- The state that a strand starts with (R380): everything is zero or empty but what the rule lists. -/
def Fresh (u : Strand) : Prop :=
  u.slipw = 256 ∧ u.flags = 0 ∧ u.em = BitVec.allOnes 1024 ∧ u.cm = 0 ∧ (∀ r, r ≠ .em → regBits u r = 0) ∧
    (∀ e, (getEng u e).lmode = 0 ∧ (getEng u e).rset = 0 ∧ (getEng u e).loops = [] ∧ (getEng u e).ret = [] ∧
      (getEng u e).bq = [] ∧ (getEng u e).stop = .no ∧ (getEng u e).micro = none ∧ (getEng u e).passed = 0) ∧
    (∀ n, (getOm u n).state = .notHeld) ∧ (∀ n, (getAcc u n).held = false) ∧ (∀ k, u.pat.get k = 0) ∧
    (∀ k, u.perf.get k = 0) ∧ u.scc = 0 ∧ u.lq = [] ∧ u.sq = [] ∧ u.iql = [] ∧ u.iqs = [] ∧ u.fiq = [] ∧ u.vcq = [] ∧
    u.rpq = [] ∧ u.tok = {} ∧ u.stores = [] ∧ u.accs = [] ∧ u.pending = [] ∧ u.faults = [] ∧ u.frozen = false ∧
    u.spill = []

/-- Strand `i` of a launch (R380). -/
def StrandOf (u : Strand) (part : Nat) (l : Launch) (i : Nat) : Prop :=
  u.part = part ∧ u.emask = l.emask ∧ u.overlay = l.entry ∧ u.sid.launch = l.number ∧ u.sid.argb = l.argb ∧
    u.sid.rcb = l.rcb ∧ u.sid.image = l.image ∧ u.sid.cores = l.cores ∧ u.sid.x = BitVec.ofNat 16 (i % l.gx) ∧
    u.sid.y = BitVec.ofNat 16 (i / l.gx % l.gy) ∧ u.sid.z = BitVec.ofNat 16 (i / l.gx / l.gy) ∧
    u.sid.gx = BitVec.ofNat 16 l.gx ∧ u.sid.gy = BitVec.ofNat 16 l.gy ∧ u.sid.gz = BitVec.ofNat 16 l.gz

/-- The slots that a launch's next strand may take now (R383 to R385). -/
def openSlots (s : State) (part : Nat) (l : Launch) : List SRef :=
  (freeSlots s part (placeOf s part l.rcb) l.win l.emask).filter fun q => !producerWants s part l q

/-- Dispatch may go on for a launch: the package runs, the partition is active, a strand is left, and the save pool has
an area for each strand to place (R399, R427, R450), and the accesses before the `launch` word have performed (R342). -/
def Dispatchable (s : State) (part : Nat) (l : Launch) (n : Nat) : Prop :=
  s.hub.rdy = true ∧ s.hub.shut = false ∧ (getPart s part).st = .active ∧ l.complete = false ∧
    l.next < l.gx * l.gy * l.gz ∧ (getPart s part).saveUsed + n ≤ (getPart s part).saveAreas ∧
    launchQuiet s l = true

/-- No register is parked in a bank of a cell (R137), so that none moves when a strand enters a slot (R139). -/
def NoBankParked (s : State) (cell : Nat) : Prop := ∀ p ∈ parkedOn s cell, ∀ k n, p ≠ .bank k n

end Sys2Proof.Claims

/-- R380, R382, R383, R385, R399: dispatch of a launch's strands, one by one or as a co-resident gang. -/
def Sys2Proof.Claims.StrandDispatches : Prop :=
  ∀ s part launch r l, launchOf s part launch = some l → l.number = launch →
    (r ∉ openSlots s part l → exec (.strandDispatch part launch r) s = .next s) ∧
    (Dispatchable s part l 1 → r ∈ openSlots s part l → l.cores = false →
      ∃ t u l', exec (.strandDispatch part launch r) s = .next t ∧ getStrand t r = some u ∧ StrandOf u part l l.next ∧
        Fresh u ∧ u.loading ≠ none ∧ u.area = freeArea s part ∧ launchOf t part launch = some l' ∧ l'.next = l.next + 1 ∧
        (getPart t part).saveUsed = (getPart s part).saveUsed + 1 ∧ (NoBankParked s r.cell → t.mem = s.mem) ∧
        t.cells = s.cells ∧
        ∀ k, k ≠ SRef.key r → (fget t.strands k).isSome = (fget s.strands k).isSome) ∧
    (l.cores = true → (openSlots s part l).length < l.gx * l.gy * l.gz →
      exec (.strandDispatch part launch r) s = .next s) ∧
    (Dispatchable s part l (l.gx * l.gy * l.gz) → l.cores = true → l.next = 0 → r ∈ openSlots s part l →
      l.gx * l.gy * l.gz ≤ (openSlots s part l).length →
      ∃ t u l', exec (.strandDispatch part launch r) s = .next t ∧ getStrand t r = some u ∧ StrandOf u part l 0 ∧
        launchOf t part launch = some l' ∧ l'.next = l.gx * l.gy * l.gz ∧
        (getPart t part).saveUsed = (getPart s part).saveUsed + l.gx * l.gy * l.gz ∧
        ((∀ c, NoBankParked s c) → t.mem = s.mem))

/-- R352, R380, R391, R394: what the loader does before a placed strand issues: the image, when no other strand runs
another one, then its overlay, then the engines. A share that a copy has overwritten (R90) is loaded again. -/
def Sys2Proof.Claims.PlacementLoads : Prop :=
  ∀ s st fresh seq, getStrand s (Walker.ref s.cur) = some st → st.loading = some (fresh, seq) → st.frozen = false →
    st.box = none →
    let c := getCtx s s.cur.cell st.part
    let coll := getColl s (dieOf s.cur.cell) st.part
    let ready := fun (im : Image) => c.image = some im ∧ im.addr = st.sid.image ∧ c.shareCopied = false ∧
      (coll.loaded = true ∨ coll.ops = false)
    (∀ im o, ready im → im.overlays[st.overlay.toNat]? = some o →
      mustWait s (Walker.ref s.cur) st im st.overlay.toNat seq = true →
      exec .placementLoad s = .next s) ∧
    (∀ im o s', ready im → im.overlays[st.overlay.toNat]? = some o →
      mustWait s (Walker.ref s.cur) st im st.overlay.toNat seq = false →
      loadOverlay s s.cur.cell st.part im st.overlay.toNat = .ok s' →
      getStrand s' (Walker.ref s.cur) = some st →
      ∃ t u, exec .placementLoad s = .next t ∧ getStrand t (Walker.ref s.cur) = some u ∧ u.loading = none ∧
        t.mem = s'.mem ∧ (getCtx t s.cur.cell st.part).imem = (getCtx s' s.cur.cell st.part).imem ∧
        ∀ e, (getEng u e).pc = if fresh = true ∧ inMask st e = true then o.entry else (getEng st e).pc) ∧
    (∀ im, ready im → im.overlays[st.overlay.toNat]? = none →
      ∃ t, exec .placementLoad s = .next t ∧ Raised t (Walker.ref s.cur) st fun q => q.trap.cause = .illegal ∧ q.eng = 5) ∧
    ((∀ im, c.image = some im → im.addr ≠ st.sid.image ∨ c.shareCopied = true) → c.image ≠ none →
      imageInUse s (Walker.ref s.cur) st.part = true →
      exec .placementLoad s = .next s) ∧
    ((∀ im, c.image = some im → (im.addr ≠ st.sid.image ∨ c.shareCopied = true) ∧ imageInUse s (Walker.ref s.cur) st.part = false) →
      (∀ im s', readImage imageRoom s (dieOf s.cur.cell) st.part st.sid.image c.win = .ok (some im, s') →
        getCtx s' s.cur.cell st.part = c → getStrand s' (Walker.ref s.cur) = some st →
        ∃ t, exec .placementLoad s = .next t ∧
          (let c' := getCtx t s.cur.cell st.part
           c'.image = some im ∧ c'.overlays = [] ∧ c'.shareCopied = false ∧ (∀ k, (fget c'.wcs k).getD 0 = im.wcs.getD k 0) ∧
           (im.binds = [] → c'.bindTab = Vector.replicate 64 0 ∧ getStrand t (Walker.ref s.cur) = some st) ∧
           ∀ op e, im.binds = [(op, e)] → 0xC0 ≤ op → op < 0x100 →
            ((entVal e = true → bindOk c'.wcs e = true) → c'.bindTab.get (Fin.ofNat 64 (op - 0xC0)) = if entVal e then e else 0) ∧
            (entVal e = true → bindOk c'.wcs e = false → Raised t (Walker.ref s.cur) st fun q =>
              q.trap.cause = .microIllegal ∧ q.trap.addr = op ∧ q.trap.logged = true))) ∧
      (∀ s', readImage imageRoom s (dieOf s.cur.cell) st.part st.sid.image c.win = .ok (none, s') →
        getStrand s' (Walker.ref s.cur) = some st →
        ∃ t, exec .placementLoad s = .next t ∧ Raised t (Walker.ref s.cur) st fun q => q.trap.cause = .illegal))

namespace Sys2Proof.Claims

open Sys2Proof Machine

/-- The register of a departed strand was live at the lull point where it left (R395, R397). -/
def keptReg (d : Strand) : Reg → Prop
  | .g n => d.dead.g.getLsbD n.toNat = false
  | .v n => d.dead.v.getLsbD n.toNat = false
  | .sd n => d.dead.sd.getLsbD n.toNat = false
  | .mk n => d.dead.masks.getLsbD n = false
  | _ => True

end Sys2Proof.Claims

/-- R397, R399, R400: a departed strand resumes with its state, but for what was dead where it left: that reads as it was or
as zero. On another cell everything that it held in place is saved first. -/
def Sys2Proof.Claims.StrandsResume : Prop :=
  ∀ s r k part cell (d : Strand), (getCell s r.cell).slots.get (Fin.ofNat 4 r.slot) = some part →
    (departedOf s part)[k]? = some (cell, d) → d.sid.cores = false →
    (mayResume s part r (cell, d) = false ∨ fifoRoom s [(cell, d, r)] = false → exec (.strandResume r k) s = .next s) ∧
    (mayDispatch s part = true → mayResume s part r (cell, d) = true → fifoRoom s [(cell, d, r)] = true →
      ∃ t u, exec (.strandResume r k) s = .next t ∧ getStrand t r = some u ∧ u.uid = d.uid ∧ u.sid = d.sid ∧
        u.frozen = d.frozen ∧ u.faults = d.faults ∧ u.flags = d.flags ∧ u.scc = d.scc ∧ u.perf = d.perf ∧ u.lq = d.lq ∧
        u.sq = d.sq ∧ u.tok = d.tok ∧ u.stores = d.stores ∧ u.lean = d.lean ∧ u.nest = d.nest ∧
        (∀ x, (keptReg d x → regBits u x = regBits d x) ∧ (regBits u x = regBits d x ∨ regBits u x = 0)) ∧
        (∀ k : Fin 16, (d.dead.pat.getLsbD k = false → u.pat.get k = d.pat.get k) ∧
          (u.pat.get k = d.pat.get k ∨ u.pat.get k = 0)) ∧ u.dead = {} ∧ u.loading ≠ none ∧
        (cell = r.cell → d.vHome = some r.slot → NoBankParked s cell → u.vOut = d.vOut ∧ t.mem = s.mem) ∧
        (cell ≠ r.cell ∨ d.vHome ≠ some r.slot → u.vOut = ~~~d.dead.v) ∧
        (∀ e, (getEng u e).pc = (getEng d e).pc ∧ (getEng u e).ploop = (getEng d e).ploop ∧
          (getEng u e).micro = (getEng d e).micro ∧
          (getEng u e).stop = if (getEng d e).stop = .atLull then .no else (getEng d e).stop) ∧
        (∀ n, (getOm u n).state = (getOm d n).state ∧ (getOm u n).data = (getOm d n).data) ∧
        (∀ n, (getAcc u n).held = (getAcc d n).held ∧ (getAcc u n).data = (getAcc d n).data) ∧
        (cell ≠ r.cell → ∀ n, (getOm u n).phys = none))

/-- R113, R333, R377, R412: a strand ends when every engine has stopped at `exit` and its copies have completed; one whose
queues are not empty raises QUEUEPROTO. -/
def Sys2Proof.Claims.StrandsEnd : Prop :=
  ∀ s st, getStrand s (Walker.ref s.cur) = some st →
    ((∃ e, inMask st e = true ∧ (getEng st e).stop ≠ .atExit) → exec .strandEnd s = .next s) ∧
    (st.frozen = false → st.loading = none → (∀ e, inMask st e = true → (getEng st e).stop = .atExit) →
      (∀ a ∈ st.accs, isFence a.kind = true) → st.stores = [] →
      (drainedFor st (maskEngs st) = false → ∃ t, exec .strandEnd s = .next t ∧
        Raised t (Walker.ref s.cur) st fun q => q.trap.cause = .queueProto ∧ q.eng = 5) ∧
      (drainedFor st (maskEngs st) = true → copiesLeft s s.cur.cell st.uid = true → exec .strandEnd s = .next s) ∧
      (drainedFor st (maskEngs st) = true → copiesLeft s s.cur.cell st.uid = false →
        (∀ g, regionOf s st.part st.sid.rcb = some g → g.cntr = 0) → bankHeld s s.cur.cell s.cur.slot = false →
        (∀ k x, (k, x) ∈ s.strands → x.uid = st.uid → k = SRef.key (Walker.ref s.cur)) →
        (s.strands.map (·.1)).Nodup →
        ∃ t, exec .strandEnd s = .next t ∧ getStrand t (Walker.ref s.cur) = none ∧ t.mem = s.mem ∧
          (getPart t st.part).saveUsed = (getPart s st.part).saveUsed - 1 ∧
          (∀ h ∈ (getCell t s.cur.cell).om.toList, ∀ x, h = some x → x.uid ≠ st.uid) ∧
          (∀ h ∈ (getCell t s.cur.cell).acc.toList, ∀ x, h = some x → x.uid ≠ st.uid) ∧
          (∀ k, k ≠ SRef.key (Walker.ref s.cur) → fget t.strands k = fget s.strands k) ∧
          (∀ l, st.sid.launch ≠ 0 → launchOf s st.part st.sid.launch = some l →
            ∃ l', launchOf t st.part st.sid.launch = some l' ∧ l'.ended = l.ended + 1 ∧ l'.failed = l.failed) ∧
          ∀ k, st.box = some k → (getBox t st.part k).stat = 4))

/-- R381: a launch completes when its strands have ended and every earlier launch of its region is complete; its flag is
stored with its number and status. -/
def Sys2Proof.Claims.LaunchesComplete : Prop :=
  ∀ s part launch l, launchOf s part launch = some l → l.number = launch →
    let run := fun (P : State → Prop) => ∃ t, exec (.launchComplete part launch) s = .next t ∧ P t
    let done := fun (t : State) => ∃ l', launchOf t part launch = some l' ∧ l'.complete = true ∧ l'.ended = l.ended
    (l.ended < l.gx * l.gy * l.gz → exec (.launchComplete part launch) s = .next s) ∧
    (l.complete = true → exec (.launchComplete part launch) s = .next s) ∧
    (earlierComplete (getPart s part) l = false ∨ addsLeft s part = true → exec (.launchComplete part launch) s = .next s) ∧
    (l.complete = false → l.gx * l.gy * l.gz ≤ l.ended → earlierComplete (getPart s part) l = true →
      (getPart s part).st = .active → addsLeft s part = false → (∀ d, ∀ g ∈ (getDie s d).regions, g.used < 1638400) →
      (l.cflag = 0 → run fun t => done t ∧ t.mem = s.mem) ∧
      (l.cflag ≠ 0 →
        let store := writeVirt s l.die none part .unitWrite l.cflag (toBytes (l.number + 2 ^ 32 * (if l.failed then 1 else 0)) 8)
        (∀ s', store = .ok s' → getPart s' part = getPart s part → run fun t => done t ∧ t.mem = s'.mem) ∧
        (∀ trap, store = .error (.trap trap) → run fun t => done t ∧ t.mem = s.mem) ∧
        ∀ h, store = .error (.hold h) → run (· = startHold s h)))

/-- R384: GO asks a strand in the slot to leave; when the slot is free the mailbox's image is checked and its strand
placed. -/
def Sys2Proof.Claims.MailboxStarts : Prop :=
  ∀ s part r, (getBox s part (SRef.key r)).go = true → slotOf s part r = true → mayDispatch s part = true →
    let b := getBox s part (SRef.key r)
    let h := getHandle s part (wbits b.word0 63 32 / 2 ^ 20)
    (∀ st, getStrand s r = some st → st.request = none → st.preempt = none →
      ∃ t u, exec (.mailboxGo part r) s = .next t ∧ getStrand t r = some u ∧ u.request = some s.clock ∧ t.mem = s.mem) ∧
    (getStrand s r = none → (getPart s part).saveUsed + 1 ≤ (getPart s part).saveAreas →
      let refused := fun (c : Nat) => ∃ t, exec (.mailboxGo part r) s = .next t ∧ getStrand t r = none ∧
        (getBox t part (SRef.key r)).stat = 3 ∧ (getBox t part (SRef.key r)).cause = BitVec.ofNat 32 c ∧
        (getBox t part (SRef.key r)).go = false
      (h.val = false ∨ wbits b.word0 63 32 % 2 ^ 20 = 0 ∨ h.gen.toNat ≠ wbits b.word0 63 32 % 2 ^ 20 → refused 0x0C) ∧
      (h.val = true → wbits b.word0 63 32 % 2 ^ 20 ≠ 0 → h.gen.toNat = wbits b.word0 63 32 % 2 ^ 20 →
        (h.r = false ∨ h.x = false ∨ h.len.toNat < wbits b.word0 31 0 + 64 → refused 0x09) ∧
        (h.r = true → h.x = true → wbits b.word0 31 0 + 64 ≤ h.len.toNat →
          let addr := h.base.toNat + wbits b.word0 31 0
          let s0 := setStat (modBox s part (SRef.key r) fun b => { b with go := false }) part (SRef.key r) 1 0
          let image := readImage (h.len.toNat - wbits b.word0 31 0) s0 (dieOf r.cell) part addr (getCtx s r.cell part).win
          b.stat ≠ 1 → (∀ trap, image = .error (.trap trap) → refused (Cause.code trap.cause)) ∧
           (∀ s1, image = .ok (none, s1) → getStrand s1 r = none → (getBox s1 part (SRef.key r)).go = false → refused 0x01) ∧
           ∀ im s1 s2, image = .ok (some im, s1) →
            b.entry.toNat < im.overlays.length → ownsUnits s1 r.cell part im.emask = true →
            admitRegion s1 (dieOf r.cell) part (Config.rootRcb part) = .ok (.ok, s2) →
            ∃ t u, exec (.mailboxGo part r) s = .next t ∧ getStrand t r = some u ∧ Fresh u ∧ u.part = part ∧
              u.emask = im.emask ∧ u.overlay = b.entry ∧ u.sid.launch = 0 ∧ u.sid.argb = b.argb ∧ u.sid.image = addr ∧
              u.sid.rcb = Config.rootRcb part ∧ u.box = some (SRef.key r) ∧ u.loading ≠ none)))

/-- R386: the block of a context passes to the ready strand of the highest priority; the outgoing strand's results land; a
strand that has held the block for 50 µs gives it up when another is ready. -/
def Sys2Proof.Claims.BlocksPassOn : Prop :=
  (∀ s me, getStrand s (Walker.ref s.cur) = some me → (s.strands.map (·.1)).Nodup →
    let l := residents s s.cur.cell me.part
    let takes := fun (x : SRef × Strand) (t : State) =>
      ∃ u, getStrand t x.1 = some u ∧ u.block = true ∧ u.endBlock = false ∧ u.blockSince = s.clock
    (∀ x, (∀ y ∈ l, y.2.block = false) → nextHolder s l = some x →
      ∃ t, exec .blockSwitch s = .next t ∧ takes x t ∧ t.mem = s.mem) ∧
    (∀ h x, l.find? (fun y => y.2.block) = some h → nextHolder s l = some x →
      ((h.2.endBlock = true ∨ h.2.frozen = true ∨ h.2.halting = true) → ∃ t u, exec .blockSwitch s = .next t ∧ takes x t ∧
        getStrand t h.1 = some u ∧ u.block = false ∧ (∀ r, latest u r = latest h.2 r) ∧
        (∀ p ∈ u.pending, p.val = none ∨ ∃ q ∈ u.pending, q.reg = p.reg ∧ q.val = none) ∧ t.mem = s.mem) ∧
      (h.2.endBlock = false → h.2.frozen = false → h.2.halting = false → exec .blockSwitch s = .next s)) ∧
    (∀ h, l.find? (fun y => y.2.block) = some h → nextHolder s l = none → h.2.endBlock = true →
      ∃ t u, exec .blockSwitch s = .next t ∧ getStrand t h.1 = some u ∧ u.block = true ∧ u.endBlock = false ∧
        t.mem = s.mem) ∧
    (∀ x, nextHolder s l = some x → x ∈ l ∧ x.2.block = false ∧ readyStrand s x.2 = true ∧
      ∀ y ∈ l, y.2.block = false → readyStrand s y.2 = true → blockPrio s y.2 ≤ blockPrio s x.2 ∧
        (blockPrio s y.2 = blockPrio s x.2 → x.2.readySince ≤ y.2.readySince)) ∧
    (∃ t u, exec .blockTimeExpiry s = .next t ∧ getStrand t (Walker.ref s.cur) = some u ∧ t.mem = s.mem ∧
      (me.block = true → me.blockSince + 200000 ≤ s.clock → nextHolder s l ≠ none → u.endBlock = true) ∧
      (me.block = false ∨ s.clock < me.blockSince + 200000 ∨ nextHolder s l = none → u = me))) ∧
  (∀ s st, readyStrand s st = true ↔ st.loading = none ∧ st.frozen = false ∧ st.halting = false ∧
    st.waitHeld = false ∧ regionPaused s st = false) ∧
  (∀ s st, (st.readySince + 4000000 ≤ s.clock → blockPrio s st = 15) ∧
    (s.clock < st.readySince + 4000000 → blockPrio s st = prioOf s st.part st.sid.rcb))

/-- R382, R390, R396: slice expiry and the other grounds send a request, to a whole gang at once; the request starts the
stop at the first lull point that no engine has passed. -/
def Sys2Proof.Claims.PreemptionRequests : Prop :=
  ∀ s st, getStrand s (Walker.ref s.cur) = some st →
    (∀ g, regionOf s st.part st.sid.rcb = some g →
      (g.slice ≠ 0 → st.resident + 4000 * g.slice ≤ s.clock → (∃ p ∈ waiters s st.part (Walker.ref s.cur), g.prio ≤ p) →
        ∃ t, exec .sliceExpiry s = .next t ∧ t.mem = s.mem ∧
          ∀ k q, fget s.strands k = some q → q.request = none → q.preempt = none →
            q.uid = st.uid ∨ st.sid.cores = true ∧ q.part = st.part ∧ q.sid.launch = st.sid.launch →
            ∃ u, fget t.strands k = some u ∧ u.request = some s.clock) ∧
      (g.slice = 0 ∨ s.clock < st.resident + 4000 * g.slice ∨ (∀ p ∈ waiters s st.part (Walker.ref s.cur), p < g.prio) →
        exec .sliceExpiry s = .next s)) ∧
    (st.preempt ≠ none → exec .preemptionRequest s = .next s) ∧
    (∀ since, st.preempt = none → st.request = some since → (getEng st .c).ploop = none →
      ∃ t u p, exec .preemptionRequest s = .next t ∧ getStrand t (Walker.ref s.cur) = some u ∧ u.preempt = some p ∧
        p.since = since ∧ (∀ e, inMask st e = true → (getEng st e).passed ≤ p.from_) ∧
        ((∃ e, inMask st e = true ∧ (getEng st e).passed = p.from_) ∨ maskEngs st = []) ∧ u.engs = st.engs ∧
        t.mem = s.mem) ∧
    (st.preempt = none → st.request = none → (getBox s st.part (SRef.key (Walker.ref s.cur))).go = true →
      ∃ t u, exec .preemptionRequest s = .next t ∧ getStrand t (Walker.ref s.cur) = some u ∧ u.request = some s.clock)

namespace Sys2Proof.Claims

open Sys2Proof Machine

/-- The strand has left its slot with its state kept in its context (R134, R398). -/
def Departed (s t : State) (st d : Strand) : Prop :=
  d ∈ (getCtx t s.cur.cell st.part).departed ∧ d.uid = st.uid ∧ d.sid = st.sid ∧ d.block = false ∧
    d.preempt = none ∧ d.request = none ∧ d.halting = false ∧ d.faults = st.faults ∧ d.frozen = st.frozen ∧ d.engs = st.engs ∧
    d.scc = st.scc ∧ d.flags = st.flags ∧ getStrand t (Walker.ref s.cur) = none

/-- No counter area takes an event of the strand, and no departed strand's registers lie in the bank of its slot: its
departure then writes no memory. -/
def QuietExit (s : State) (st : Strand) : Prop :=
  (∀ g, regionOf s st.part st.sid.rcb = some g → g.cntr = 0) ∧ bankHeld s s.cur.cell s.cur.slot = false

/-- The strand as a forced save finds it: it has stopped issuing, and what it has issued waits for no other word of it. -/
def haltedForm (st : Strand) : Strand := if st.halting then st else releaseSeen { st with halting := true }

end Sys2Proof.Claims

/-- R396, R397, R398: a strand whose engines have all stopped at a lull point departs with what the entry marks live; a
forced save after the deadline, or of a frozen strand, keeps all of its state. -/
def Sys2Proof.Claims.StrandsDepart : Prop :=
  ∀ s st p, getStrand s (Walker.ref s.cur) = some st → st.preempt = some p → (s.strands.map (·.1)).Nodup →
    (∀ l, lullAt (getCtx s s.cur.cell st.part) st (getEng st .c).pc = some l → st.frozen = false → st.halting = false →
      st.lean = none →
      (∀ e, inMask st e = true → (getEng st e).stop = .atLull ∧ engDone st e = true) →
      QuietExit s st → st.pending = [] →
      ∃ t d, exec .lullStop s = .next t ∧ Departed s t st d ∧ t.mem = s.mem ∧
        d.dead = { g := ~~~l.lg, sd := ~~~l.lsd, masks := ~~~l.lmk, pat := ~~~l.lpat, v := ~~~l.lv } ∧ d.vHome = some s.cur.slot ∧
        (∀ n : Fin 32, l.lg.getLsbD n = true → d.g.get n = st.g.get n) ∧
        (∀ n : Fin 32, d.g.get n = st.g.get n ∨ d.g.get n = 0) ∧
        (∀ n : Fin 64, l.lv.getLsbD n = true → d.v.get n = st.v.get n) ∧
        (∀ n : Fin 64, d.v.get n = st.v.get n ∨ d.v.get n = 0) ∧
        (∀ n : Fin 16, l.lsd.getLsbD n = true → d.sd.get n = st.sd.get n) ∧
        (∀ n : Fin 6, l.lmk.getLsbD n = true → d.saved.get n = st.saved.get n) ∧
        (∀ n : Fin 16, l.lpat.getLsbD n = true → d.pat.get n = st.pat.get n) ∧
        (∀ n : BitVec 5, (l.lom.getLsbD n.toNat = true → getOm d n = getOm st n) ∧
          (l.lom.getLsbD n.toNat = false → (getOm d n).state = .notHeld)) ∧
        (∀ n : BitVec 4, (l.lacc.getLsbD n.toNat = true → getAcc d n = getAcc st n) ∧
          (l.lacc.getLsbD n.toNat = false → (getAcc d n).held = false)) ∧ d.a = st.a ∧ d.b = st.b ∧ d.em = st.em) ∧
    ((∃ e, inMask st e = true ∧ (getEng st e).stop ≠ .atLull) → exec .lullStop s = .next s) ∧
    ((st.frozen = true ∨ p.since + lullCycles s st ≤ s.clock) → savable s (haltedForm st) = false →
      ∃ t, exec .forcedSave s = .next t ∧ getStrand t (Walker.ref s.cur) = some (haltedForm st) ∧ t.mem = s.mem) ∧
    ((st.frozen = true ∨ p.since + lullCycles s st ≤ s.clock) → savable s (haltedForm st) = true → QuietExit s st →
      ∃ t d, exec .forcedSave s = .next t ∧ Departed s t st d ∧ t.mem = s.mem ∧ (∀ r, latest d r = latest st r) ∧
        d.om = st.om ∧ d.acc = st.acc ∧ d.pat = st.pat ∧ d.lq = st.lq ∧ d.sq = st.sq ∧ d.iql = st.iql ∧ d.iqs = st.iqs ∧
        d.fiq = st.fiq ∧ d.qL = st.qL ∧ d.qS = st.qS ∧ d.qV = st.qV ∧ d.qM = st.qM ∧ d.vcq = st.vcq ∧ d.rpq = st.rpq ∧
        d.tok = st.tok ∧ d.dead = {} ∧ d.stores = (haltedForm st).stores ∧ d.accs = (haltedForm st).accs ∧
        d.lean = st.lean ∧ d.nest = st.nest) ∧
    (st.frozen = false → s.clock < p.since + lullCycles s st → exec .forcedSave s = .next s)

/-- R374, R375, R376, R439: at the start of a 1 ms period each region's balance is its EBUD less the debt it carries, and a
region with a positive balance goes on; a die rereads its regions once in each period, and new values take effect at once,
a new EBUD with the charges made so far in the period. -/
def Sys2Proof.Claims.PeriodStarts : Prop :=
  (∀ s, s.clock < (s.hub.period + 1) * 4000000 → exec .energyPeriodStart s = .next s) ∧
  (∀ s, (s.hub.period + 1) * 4000000 ≤ s.clock → (∀ d, ∀ r ∈ (getDie s d).regions, r.used = 0) →
    ∃ t, exec .energyPeriodStart s = .next t ∧ t.hub.period = s.hub.period + 1 ∧ t.mem = s.mem ∧
      ∀ d, (getDie t d).energy = 0 ∧ (getDie t d).lastEnergy = (getDie s d).energy ∧
        (getDie t d).regions = (getDie s d).regions.map fun r =>
          { r with balance := r.ebud * 1638400 + min 0 r.balance,
                   paused := decide (r.ebud ≠ 2 ^ 40 - 1 ∧ (r.ebud : Int) * 1638400 + min 0 r.balance ≤ 0) }) ∧
  (∀ s d, d < 4 → s.hub.period ≤ (getDie s d).reread → exec (.regionReread d) s = .next s) ∧
  (∀ s d r, d < 4 → (getDie s d).reread < s.hub.period → (getDie s d).regions = [r] → r.parent = 0 →
    let read := readWords s d none r.part .copyRead r.addr 32
    let done := fun (s' t : State) => exec (.regionReread d) s = .next t ∧ t.mem = s'.mem ∧ (getDie t d).reread = s.hub.period
    (∀ new s', read = .ok (new, s') → (getDie s' d).regions = [r] → (logOf s' d).length < 4096 → s'.hub.period = s.hub.period →
      (blkOk r.part (r.addr == Config.rootRcb r.part) new = false →
        ∃ t e, done s' t ∧ (getDie t d).regions = [r] ∧ logOf t d = logOf s' d ++ [e]) ∧
      (blkOk r.part (r.addr == Config.rootRcb r.part) new = true →
        let w := keepFixed r.block new
        let eff := regionEntry r.part r.addr [w]
        let b : Int := r.balance + ((eff.ebud : Int) - r.ebud) * 1638400
        ∃ t, done s' t ∧ (getDie t d).regions =
          [{ r with block := w, prio := eff.prio, slice := eff.slice, ebud := eff.ebud, place := eff.place, fdh := eff.fdh,
                    fhnd := eff.fhnd, lulldl := eff.lulldl, cntr := eff.cntr, balance := b,
                    paused := decide (eff.ebud ≠ 2 ^ 40 - 1 ∧ b ≤ 0) }])) ∧
    (∀ trap, read = .error (.trap trap) → (logOf s d).length < 4096 →
      ∃ t e, done s t ∧ (getDie t d).regions = [r] ∧ logOf t d = logOf s d ++ [e]) ∧
    ∀ h, read = .error (.hold h) → exec (.regionReread d) s = .next (startHold s h))

/-! ## Faults, reliability -/

namespace Sys2Proof.Claims

open Sys2Proof Machine

/-- A message of a function goes out, or is marked pending while its vector is masked (R447). -/
def Messaged (s t : State) (fn vec : Nat) : Prop :=
  let f := getFn s fn
  let g := getFn t fn
  if (f.msixTable.get (Fin.ofNat 16 (2 * vec + 1))).getLsbD 32 = true then
    g.msixPending = f.msixPending ||| BitVec.ofNat 8 (2 ^ vec) ∧ g.sent = f.sent
  else g.sent = f.sent ++ [vec] ∧ g.msixPending = f.msixPending

/-- The oldest fault of a strand is delivered to a place (R404, R405). -/
def DeliveredTo (t : State) (r : SRef) (st : Strand) (q : QFault) (rest : List QFault) (place : FaultPlace) : Prop :=
  ∃ u, getStrand t r = some u ∧ u.delivered = some ⟨q, place⟩ ∧ u.faults = rest ∧ u.frozen = st.frozen ∧
    u.fltCause = fltCauseOf q (!rest.isEmpty) ∧ u.fltAddr = BitVec.ofNat 64 q.trap.addr ∧ u.fltPc = fltPcOf q

/-- Delivery to the host's fault window: an entry, HEAD and vector 1; while the window is full the fault waits. `s'` is the
state with what went before it, a log entry at most. -/
def ToHostFrom (s s' : State) (r : SRef) (st : Strand) (q : QFault) (rest : List QFault) : Prop :=
  let f := getFn s st.part
  (64 ≤ (f.faultHead - f.faultTail).toNat → exec .faultDeliver s = .next s) ∧
  ((f.faultHead - f.faultTail).toNat < 64 → ∃ t, exec .faultDeliver s = .next t ∧ t.mem = s'.mem ∧
    DeliveredTo t r st q rest (.window (f.faultHead.toNat % 64)) ∧ (getFn t st.part).faultHead = f.faultHead + 1 ∧
    (getFn t st.part).faultTail = f.faultTail ∧ Messaged s' t st.part 1 ∧
    (getFn t st.part).window = f.window.set (Fin.ofNat 64 f.faultHead.toNat) (faultRecord s r st q (!rest.isEmpty)))

def ToHost (s : State) (r : SRef) (st : Strand) (q : QFault) (rest : List QFault) : Prop := ToHostFrom s s r st q rest

/-- The one strand of the machine whose delivered fault stands at a place, resident in `r`; its uid is its own. -/
def FaultAt (s : State) (r : SRef) (st : Strand) (d : Delivered) : Prop :=
  getStrand s r = some st ∧ r.slot < 4 ∧ st.delivered = some d ∧
    (∀ x ∈ allStrands s, x.part = st.part → (∃ q, x.delivered = some ⟨q, d.place⟩) → x = st) ∧
    (∀ k x, (k, x) ∈ s.strands → x.uid = st.uid → k = SRef.key r ∧ x = st) ∧
    (∀ p ∈ s.ctxs, ∀ x ∈ p.2.departed, x.uid ≠ st.uid) ∧ (s.strands.map (·.1)).Nodup

/-- What an ACTION does to a strand with a delivered fault of the machine's cores (R411, R412). -/
def Acted (s t : State) (r : SRef) (st : Strand) (q : QFault) (action : Nat) : Prop :=
  let cls := Cause.cls q.trap.cause
  let ended := allStopped st .atExit
  (action = 1 → cls = .resumable → ended = false →
    getStrand t r = some { st with delivered := none, frozen := !st.faults.isEmpty, readySince := s.clock,
                                   calls := st.calls.map fun c => { c with failed := false } } ∧
      t.mem = s.mem ∧ (q.chan = none → t.cells = s.cells) ∧
      ∀ ch run, q.chan = some ch → ch < 16 → getChan s r.cell ch = some run → run.cmd.uid = st.uid →
        getChan t r.cell ch = some { run with faulted := false }) ∧
  (st.accs = [] → copiesLeft s r.cell st.uid = false →
    (action = 2 → cls ≠ .terminal → ended = false →
      ∃ u, getStrand t r = some u ∧ Fresh u ∧ u.sid = st.sid ∧ u.part = st.part ∧ u.emask = st.emask ∧ u.box = st.box ∧
        u.loading ≠ none ∧ t.mem = s.mem) ∧
    ((action ≠ 1 ∨ cls ≠ .resumable ∨ ended = true) → (action ≠ 2 ∨ cls = .terminal ∨ ended = true) →
      getStrand t r = none ∧ (getPart t st.part).saveUsed = (getPart s st.part).saveUsed - 1 ∧
        ((∀ g, regionOf s st.part st.sid.rcb = some g → g.cntr = 0) → bankHeld s r.cell r.slot = false → t.mem = s.mem) ∧
        (∀ l, st.sid.launch ≠ 0 → launchOf s st.part st.sid.launch = some l →
          ∃ l', launchOf t st.part st.sid.launch = some l' ∧ l'.ended = l.ended + 1 ∧ l'.failed = true) ∧
        ∀ k, st.box = some k → (getBox t st.part k).stat = 5 ∧
          (getBox t st.part k).cause = BitVec.ofNat 32 (Cause.code q.trap.cause)))

end Sys2Proof.Claims

/-- R84, R212, R403 to R405, R408 to R410: the oldest queued fault goes to the region's handler or to the host's window, not
before a running predicate has ended. A queued fault keeps the order of detection: in one cycle the lower TAG first, then the
channels; 24 wait. -/
def Sys2Proof.Claims.FaultsDelivered : Prop :=
  (∀ l q, (addFault l q).length = min (l.length + 1) 24) ∧
  (∀ l q, l.length < 24 → (∀ x ∈ l, x.cycle < q.cycle ∨ x.cycle = q.cycle ∧ faultRank x ≤ faultRank q) →
    addFault l q = l ++ [q]) ∧
  (∀ l x r q, l.length + r.length < 23 → x.cycle = q.cycle →
    (q.chan = none ∧ x.chan ≠ none ∨ q.chan = none ∧ x.chan = none ∧ q.eng < x.eng) →
    q.eng < 8 → (∀ y ∈ l, y.cycle < q.cycle) → addFault (l ++ x :: r) q = l ++ q :: x :: r) ∧
  ∀ s st, getStrand s (Walker.ref s.cur) = some st →
    (st.delivered ≠ none → exec .faultDeliver s = .next s) ∧ (st.faults = [] → exec .faultDeliver s = .next s) ∧
    (st.pred ≠ none → exec .faultDeliver s = .next s) ∧
    ∀ q rest, st.faults = q :: rest → st.delivered = none → st.pred = none →
      let r := Walker.ref s.cur
      (regionOf s st.part st.sid.rcb = none → ToHost s r st q rest) ∧
      ∀ g, regionOf s st.part st.sid.rcb = some g →
        (g.fdh = false ∨ isHandler s st = true → ToHost s r st q rest) ∧
        (g.fdh = true → isHandler s st = false →
          let failed := fun (e : Trap) => ToHostFrom s (failUnit s (dieOf r.cell) st.part e) r st q rest
          let read := readWords s (dieOf r.cell) none st.part .unitRead g.fhnd 8
          (∀ e, read = .error (.trap e) → failed e) ∧
          (∀ h, read = .error (.hold h) → exec .faultDeliver s = .next (startHold s h)) ∧
          ∀ w s1, read = .ok (w, s1) →
          (launchRecOf w = none → ToHost s r st q rest) ∧
          ∀ l, launchRecOf w = some l →
            (freeEntry (getPart s1 st.part) l.argb = none → exec .faultDeliver s = .next s) ∧
            ∀ i, freeEntry (getPart s1 st.part) l.argb = some i →
              let place := Machine.translate s1 (dieOf r.cell) none st.part .unitWrite (BitVec.ofNat 64 (l.argb + 64 * i))
              (∀ e, place = .error (.trap e) → failed e) ∧
              ∀ x s2, place = .ok (x, s2) →
              let write := writeVirt s2 (dieOf r.cell) none st.part .unitWrite (l.argb + 64 * i)
                (dwordsToBytes (faultRecord s2 r st q (!rest.isEmpty)))
              (∀ e, write = .error (.trap e) → failed e) ∧
              ∀ s3 ans s4, write = .ok s3 →
              acceptLaunch s3 (dieOf r.cell) st.part (handlerRecord w st.sid.rcb (l.argb + 64 * i)) (some st.uid) none =
                .ok (ans, s4) →
              (∀ c, ans = .code c → ToHost s r st q rest) ∧
              ∀ n, ans = .number n → ∃ t, exec .faultDeliver s = .next t ∧ t.mem = s4.mem ∧
                DeliveredTo t r st q rest (.area (homeOfPte x.leaf.pte) (l.argb + 64 * i) x.pa n))

/-- R409 to R412: the ACTION of an entry that the host passes, or that a handler leaves, is applied to the strand. -/
def Sys2Proof.Claims.FaultsResolved : Prop :=
  -- the host moves TAIL past one entry
  (∀ s part tail, let f := getFn s part
    (fnServes s part = false → exec (.faultTailWrite part tail) s = .next s) ∧
    ((f.faultHead - f.faultTail).toNat < (tail - f.faultTail).toNat → exec (.faultTailWrite part tail) s = .next s) ∧
    (fnServes s part = true → tail = f.faultTail + 1 → f.faultHead ≠ f.faultTail →
      (∀ r st q, FaultAt s r st ⟨q, .window (f.faultTail.toNat % 64)⟩ → st.part = part →
        ∃ t, exec (.faultTailWrite part tail) s = .next t ∧ (getFn t part).faultTail = tail ∧
          (getFn t part).faultHead = f.faultHead ∧
          Acted s t r st q (wbits ((f.window.get (Fin.ofNat 64 f.faultTail.toNat)).getD 7 0) 1 0)))) ∧
  -- a handler completes
  (∀ s, (∀ x ∈ allStrands s, handlerDone s x = none) → exec .faultHandlerComplete s = .next s) ∧
  (∀ s r st q home va pa n l, FaultAt s r st ⟨q, .area home va pa n⟩ → (∀ x ∈ allStrands s, x ≠ st → handlerDone s x = none) →
    launchOf s st.part n = some l → l.complete = true →
    let resolved := fun (s' : State) (action : Nat) => ∃ t, exec .faultHandlerComplete s = .next t ∧ Acted s' t r st q action ∧
      ∀ area used, (getPart s st.part).faultAreas = [(area, used)] → area ≤ va → va < area + 4096 →
        (getPart t st.part).faultAreas = [(area, used.filter fun i => i != (va - area) / 64)]
    (homeLocal home = true → s.hub.mixed = [] →
      resolved s (if linePoisoned s (pa + 56) 8 = true then 0 else memN s (pa + 56) 1 % 4)) ∧
    (homeLocal home = false →
      let read := takeAnswer s ⟨st.part, 0, home, va + 56, pa + 56, 8, none, false, false⟩
      (∀ bs s', read = .ok (bs, s') → resolved s' ((bs.getD 0 0).toNat % 4)) ∧
      ∀ h, read = .error (.hold h) → exec .faultHandlerComplete s = .next (startHold s h)))

/-- R414, R415, R418, R419: the watchdog, the logs, the patrol scrub and the test of a cell. -/
def Sys2Proof.Claims.DetectorsAct : Prop :=
  (∀ s w st, getStrand s (Walker.ref w) = some st →
    ((getEng st w.eng).idle < 40000000 ∨ st.frozen = true ∨ st.block = false → exec (.watchdog (.engine w)) s = .next s) ∧
    (40000000 ≤ (getEng st w.eng).idle → inMask st w.eng = true → st.block = true → st.frozen = false →
      ∃ t, exec (.watchdog (.engine w)) s = .next t ∧ Raised t (Walker.ref w) st fun q => q.trap.cause = .watchdog ∧
        q.trap.detail = 1 + Eng.code w.eng ∧ q.eng = Eng.code w.eng ∧ q.word = (getEng st w.eng).pc)) ∧
  (∀ s cell ch run, ch < 16 → getChan s cell ch = some run →
    (run.faulted = true ∨ run.idle < 40000000 → exec (.watchdog (.channel cell ch)) s = .next s) ∧
    (run.faulted = false → 40000000 ≤ run.idle → ∀ r st, strandByUid s run.cmd.uid = some (r, st) → getStrand s r = some st →
      ∃ t, exec (.watchdog (.channel cell ch)) s = .next t ∧ getChan t cell ch = some { run with faulted := true, idle := 0 } ∧
        Raised t r st fun q => q.trap.cause = .watchdog ∧ q.trap.detail = 7 ∧ q.eng = 1 ∧ q.chan = some ch ∧
          q.word = run.cmd.index)) ∧
  (∀ s log, let k := logIndex log
    (logOf s k = [] → exec (.errorLogDrain log) s = .next s) ∧
    ∀ e rest, logOf s k = e :: rest → ∃ t, exec (.errorLogDrain log) s = .next t ∧ logOf t k = rest ∧
      drainedOf t k = drainedOf s k ++ [e] ∧ t.mem = s.mem ∧ t.strands = s.strands ∧
      ∀ j ≤ 4, j ≠ k → logOf t j = logOf s j ∧ drainedOf t j = drainedOf s j) ∧
  (∀ s addr, (populated s addr = false → exec (.patrolScrub addr) s = .next s) ∧
    (populated s addr = true → ∃ t, exec (.patrolScrub addr) s = .next t ∧ t.strands = s.strands ∧ t.mem = s.mem ∧
      addr / 128 ∈ t.hub.linePoison ∧ (∀ l, l ≠ addr / 128 → (l ∈ t.hub.linePoison ↔ l ∈ s.hub.linePoison)) ∧
      let part := match fget s.hub.owners (frameOf addr) with | some o => if o.valid then o.owner else 0 | none => 0
      (logOf t (if addr < Config.secondBase then homeDie addr else 4)).getLast? =
        some (logEntry s 0x42 2 part 0xFF 5 0 (some addr) []))) ∧
  (∀ s cell pass, let c := getCell s cell
    (c.testing = false → exec (.cellTestComplete cell pass) s = .next s) ∧
    ((∃ k st, (k, st) ∈ s.strands ∧ k / 4 = cell) → exec (.cellTestComplete cell pass) s = .next s) ∧
    (c.testing = true → (∀ k st, (k, st) ∈ s.strands → k / 4 ≠ cell) → (∀ ch : Fin 16, c.chans.get ch = none) →
      ∃ t, exec (.cellTestComplete cell pass) s = .next t ∧ t.clock = s.clock ∧
        (pass = true → getCell t cell = { c with testing := false, ueTimes := [] } ∧ t.mem = s.mem ∧
          t.strands = s.strands ∧ (testCommand s cell = true → t.hub.readyReply = some [0, 0])) ∧
        (pass = false → (getCell t cell).fenced = true ∧ cell ∈ t.hub.fenceStore ∧
          (∀ p, cell ∉ (getPart t p).cells) ∧ (testCommand s cell = true → t.hub.readyReply = some [0, 1]))))

/-! ## Metering, scrubbing -/

/-- R433 to R436: usage records, one second apart, numbered and chained; seals over each batch of 64. -/
def Sys2Proof.Claims.RecordsAndSeals : Prop :=
  (∀ s, let now := timeNs s / 1000000000
    let due := (List.range 64).filter fun p => accounted (getPart s p).st
    (now ≤ s.hub.lastRecord → exec .usageRecordEmit s = .next s) ∧
    (s.hub.lastRecord < now → ∃ t, exec .usageRecordEmit s = .next t ∧ t.hub.lastRecord = now ∧ t.mem = s.mem ∧
      t.strands = s.strands ∧
      (storeFull s = true → t.hub.records = s.hub.records ∧ t.hub.mseq = s.hub.mseq) ∧
      (storeFull s = false → t.hub.mseq = s.hub.mseq + due.length ∧
        t.hub.records.map (·.1) = s.hub.records.map (·.1) ++ (List.range due.length).map (s.hub.mseq + ·) ∧
        (∀ r ∈ t.hub.records, r ∈ s.hub.records ∨ r.2.length = 128) ∧
        ∀ p, due = [p] → t.hub.records = s.hub.records ++ [(s.hub.mseq, recordBytes s 0 p)] ∧
          t.hub.chainHead = BitVec.ofNat 256 (ofBytes (sha256 (recordBytes s 0 p))) ∧ Messaged s t 0 4 ∧
          t.hub.unsealed = if s.hub.mseq % 64 = 63 then s.hub.unsealed ++ [(s.hub.mseq, t.hub.chainHead)]
            else s.hub.unsealed))) ∧
  (∀ s, (s.hub.unsealed = [] → exec .sealComplete s = .next s) ∧
    ∀ n hash rest, s.hub.unsealed = (n, hash) :: rest → ∃ t sig, exec .sealComplete s = .next t ∧
      t.hub.unsealed = rest ∧ t.hub.seals = s.hub.seals ++ [(s.hub.sseq, sig)] ∧ t.hub.sseq = s.hub.sseq + 1 ∧
      sig.length = 3604 ∧ t.hub.sigIndex = s.hub.sigIndex + 1 ∧ Messaged s t 0 4 ∧ t.hub.records = s.hub.records ∧
      t.mem = s.mem)

/-- R422, R427, R428, R434: a scrub goes on to its next phase; at its end its frames read as zeros, and a partition that
ends gives up all that it held. -/
def Sys2Proof.Claims.ScrubsEnd : Prop :=
  ∀ s, (s.hub.scrubs = [] → exec .scrubComplete s = .next s) ∧
    ∀ x rest, s.hub.scrubs = x :: rest →
      (x.done < x.total → exec .scrubComplete s = .next s) ∧
      (x.total ≤ x.done → ∀ n, x.later[x.phase - 1]? = some n → ∃ t, exec .scrubComplete s = .next t ∧ t.mem = s.mem ∧
        t.hub.scrubs = { x with phase := x.phase + 1, total := n, done := 0, left := 0 } :: rest) ∧
      (x.total ≤ x.done → x.later[x.phase - 1]? = none → ∃ t, exec .scrubComplete s = .next t ∧ t.hub.scrubs = rest ∧
        let p := getPart s x.part
        let fs := if x.final then p.frames ++ p.svcFrames else x.frames
        (∀ a, frameOf a ∈ fs → mread t.mem a = 0) ∧ (∀ a, frameOf a ∉ fs → mread t.mem a = mread s.mem a) ∧
        (∀ l ∈ t.hub.linePoison, frameOf (l * 128) ∉ fs) ∧ (∀ f ∈ fs, fget t.hub.owners f = none) ∧
        (∀ f ∈ fs, f ∉ t.hub.unmarked) ∧
        (x.final = true → (getPart t x.part).st = .free ∧ t.hub.mseq = s.hub.mseq + 1 ∧
          (∀ k c, (k, c) ∈ t.cells → c.au ≠ some x.part ∧ c.vu ≠ some x.part ∧ c.mu ≠ some x.part ∧
            (∀ i : Fin 4, c.slots.get i ≠ some x.part) ∧ ∀ i : Fin 32, c.banks.get i ≠ some x.part) ∧
          (∀ k c, (k, c) ∈ t.ctxs → k % 64 ≠ x.part) ∧ ∀ d, ∀ y ∈ (getDie t d).coll, y.1 ≠ x.part) ∧
        (x.final = false → t.hub.parts = s.hub.parts ∧ t.cells = s.cells ∧ t.ctxs = s.ctxs))

/-! ## Management, the host's registers, resets -/

namespace Sys2Proof.Claims

open Sys2Proof Machine

/-- The thirteen commands: the row, its code, whether it is served before RDY, and the bits of the command area that its
operands use (R448, R449). -/
def commandTable (s : State) (req : List Word) (ok : Bool) (table : List (BitVec 32)) :
    List (Instr × Nat × Bool × List Nat) :=
  let d := byteMask 8
  [(.create req, 1, false, [d, byteMask 4]), (.teardown, 2, false, [byteMask 1]),
   (.mgmtInval, 3, false, [byteMask 1, byteMask 7, d]), (.logread, 4, false, [byteMask 2]), (.mack, 5, false, [d]),
   (.mfetch, 6, false, if (cmdWord s 0).getLsbD 63 then [d, byteMask 1] else [d]),
   (.attest, 7, false, [d, d, d, d, byteMask 1]), (.fwstage, 8, true, byteMask 4 :: List.replicate 24 d),
   (.fwcommit ok, 9, true, [byteMask 4]), (.fabric table, 10, false, [d, byteMask 4]),
   (.cap, 11, false, [byteMask 4, byteMask 4]), (.celltest, 12, false, [byteMask 1]), (.telem, 13, false, [])]

/-- The state in which a command that has been accepted runs. -/
def begun (s : State) (code : Nat) : State :=
  modHub s fun h => { h with busy := true, code := BitVec.ofNat 16 code, readyReply := none }

/-- A command is accepted: the doorbell is free, the device is ready, and the unused bytes are zero. -/
def Accepts (s : State) (used : List Nat) : Prop :=
  s.hub.busy = false ∧ s.hub.rdy = true ∧ unusedZero s used = true

/-- A command ends with a reply; nothing but the hub changes. -/
def Ends (i : Instr) (s : State) (reply : List Word) (P : State → Prop) : Prop :=
  ∃ t, exec i s = .next t ∧ t.hub.busy = true ∧ t.hub.readyReply = some reply ∧ t.mem = s.mem ∧ t.strands = s.strands ∧
    t.cells = s.cells ∧ t.dies = s.dies ∧ t.clock = s.clock ∧ P t

/-- A command refused with −1. -/
def Declined (i : Instr) (s : State) : Prop :=
  Ends i s [BitVec.ofInt 64 (-1)] fun t => t.hub.parts = s.hub.parts ∧ t.hub.fns = s.hub.fns ∧
    t.hub.records = s.hub.records ∧ t.hub.owners = s.hub.owners ∧ t.hub.cap = s.hub.cap ∧ t.hub.nextImage = s.hub.nextImage

end Sys2Proof.Claims

/-- R448, R449: the doorbell: BUSY turns a command away with ACCERR, before RDY only the firmware commands are served
(−4), and a byte that should be zero answers −3. A controller read of another length than a command names is none of this
machine's inputs. -/
def Sys2Proof.Claims.DoorbellGates : Prop :=
  ∀ s req ok table i code early used, (i, code, early, used) ∈ commandTable s req ok table →
    (s.hub.busy = true → ∃ t, exec i s = .next t ∧ (getFn t 0).accErr = true ∧ t.hub.busy = true ∧
      t.hub.cmd = s.hub.cmd ∧ t.hub.reply = s.hub.reply ∧ t.hub.readyReply = s.hub.readyReply ∧ t.hub.code = s.hub.code ∧
      t.mem = s.mem ∧ ((getFn s 0).accErr = false → Messaged s t 0 2)) ∧
    (s.hub.busy = false → (code = 1 → 8 * req.length = (cmdWord s 1).toNat) →
      (code = 10 → 4 * table.length = (cmdWord s 1).toNat) →
      (s.hub.rdy = false → early = false →
        Ends i s [BitVec.ofInt 64 (-4)] fun t => t.hub.code = BitVec.ofNat 16 code ∧ t.hub.parts = s.hub.parts) ∧
      ((s.hub.rdy = true ∨ early = true) → unusedZero s used = false →
        Ends i s [BitVec.ofInt 64 (-3)] fun t => t.hub.code = BitVec.ofNat 16 code ∧ t.hub.parts = s.hub.parts))

/-- R423 to R426, R448: CREATE: a request that breaks its layout or asks for what is taken fails step 1; one whose steps
succeed makes an active partition. -/
def Sys2Proof.Claims.CreatesPartitions : Prop :=
  ∀ s req, Accepts s [byteMask 8, byteMask 4] → 8 * req.length = (cmdWord s 1).toNat →
    let s0 := Claims.begun s 1
    let failed := fun (step addr : Nat) => ∃ t, exec (.create req) s = .next t ∧
      t.hub.readyReply = some [BitVec.ofInt 64 (-2), BitVec.ofNat 64 step, BitVec.ofNat 64 addr] ∧ t.mem = s.mem ∧
      t.strands = s.strands
    ((cmdWord s 0).toNat % 64 ≠ 0 → Declined (.create req) s) ∧
    ((cmdWord s 0).toNat % 64 = 0 →
      (createReqOf s0 req = none → failed 1 0) ∧
      ∀ q, createReqOf s0 req = some q → (∀ p < 64, (getPart s p).st ≠ .creating) →
        (availAll s0 q = .taken → (∃ p, newPart s0 = some p) → failed 1 0) ∧
        (availAll s0 q = .later → ∀ p, newPart s0 = some p → ∃ t, exec (.create req) s = .next t ∧
          t.hub.readyReply = none ∧ t.hub.creating = some req ∧ (getPart t p).st = .creating) ∧
        ∀ p, newPart s0 = some p → availAll s0 q = .free →
          (1 ≤ p ∧ p ≤ 63 ∧ (getPart s p).st = .free ∧ ∀ x, 1 ≤ x → x < p → (getPart s x).st ≠ .free) ∧
          (∀ e, createSteps s0 p q = .error e → failed e.1 e.2 ∧
            ∃ t, exec (.create req) s = .next t ∧ (getPart t p).st = .free ∧
              ∃ x ∈ t.hub.scrubs, x.frames = q.frames ∧ x.final = false) ∧
          (∀ s', createSteps s0 p q = .ok s' → ∃ t, exec (.create req) s = .next t ∧
            t.hub.readyReply = some [0, BitVec.ofNat 64 p] ∧ t.hub.creating = none ∧
            (getPart t p).st = .active ∧ (getPart t p).dtag = q.dtag ∧ (getPart t p).root = q.root ∧
            (getPart t p).fabq = q.fabq ∧ (getPart t p).saveAreas = q.savea ∧ (getPart t p).saveUsed = 0 ∧
            (getPart t p).cells = q.cells.map (·.cell) ∧ (getPart t p).rootRcb = rootBlock p q.lulldl ∧
            (getPart t p).pser = s.hub.pser + 1 ∧ t.hub.pser = s.hub.pser + 1 ∧ t.hub.keys.getLsbD p = true ∧
            (getFn t p).enabled = true ∧ t.hub.mseq = s.hub.mseq + 1 ∧
            (∀ f ∈ q.frames, ∃ o, fget t.hub.owners f = some o ∧ o.valid = true ∧ (o.owner = p ∨ o.owner = 0)) ∧
            (∀ f ∈ (getPart t p).frames, f ∈ q.frames) ∧
            (∀ c ∈ q.cells, (getCtx t c.cell p).win = Config.windowPerSlot * c.slots ∧
              (c.au = true → (getCell t c.cell).au = some p) ∧ (c.vu = true → (getCell t c.cell).vu = some p) ∧
              (c.mu = true → (getCell t c.cell).mu = some p)) ∧ t.mem = s'.mem ∧ t.strands = s.strands))

/-- R390, R427, R430, R448: TEARDOWN stops dispatch and asks every resident strand of the partition to stop; INVAL is
queued. -/
def Sys2Proof.Claims.TearsDownAndInvalidates : Prop :=
  (∀ s, Accepts s [byteMask 1] → let p := (cmdWord s 0).toNat
    (p = 0 ∨ 64 ≤ p ∨ (getPart s p).st ≠ .active → Declined .teardown s) ∧
    (1 ≤ p → p < 64 → (getPart s p).st = .active → ∃ t, exec .teardown s = .next t ∧ (getPart t p).st = .tearing ∧
      t.hub.ending = some p ∧ t.hub.readyReply = none ∧ t.hub.busy = true ∧ t.mem = s.mem ∧
      ∀ k q, fget s.strands k = some q → q.part = p → q.request = none → q.preempt = none →
        ∃ u, fget t.strands k = some u ∧ u.request = some s.clock)) ∧
  (∀ s, Accepts s [byteMask 1, byteMask 7, byteMask 8] →
    let p := (cmdWord s 0).toNat
    let base := (cmdWord s 1).toNat
    let len := (cmdWord s 2).toNat
    (64 ≤ p ∨ 2 ^ 54 ≤ base → Ends .mgmtInval s [BitVec.ofInt 64 (-3)] fun t => t.hub.invals = s.hub.invals) ∧
    (p < 64 → base < 2 ^ 54 →
      ((getPart s p).st ≠ .active ∨ 2 ^ 54 < base + len → Declined .mgmtInval s) ∧
      ((getPart s p).st = .active → base + len ≤ 2 ^ 54 →
        (len = 0 → Ends .mgmtInval s [0] fun t => t.hub.invals = s.hub.invals) ∧
        (len ≠ 0 → ∃ t, exec .mgmtInval s = .next t ∧ t.hub.readyReply = none ∧ t.hub.busy = true ∧
          t.hub.invals = s.hub.invals ++ [⟨p, base, len, none, none, true⟩] ∧ t.mem = s.mem ∧ t.strands = s.strands))))

/-- R413, R414, R435, R448: LOGREAD takes the oldest entries of a log; MACK lets records and seals go; MFETCH answers
them. -/
def Sys2Proof.Claims.LogAndRecordCommands : Prop :=
  (∀ s, Accepts s [byteMask 2] →
    let d := (cmdWord s 0).toNat % 256
    let n := (cmdWord s 0).toNat / 256
    let all := drainedOf s d ++ logOf s d
    let reply := [0, BitVec.ofNat 64 (min n all.length)] ++ (all.take n).flatMap fun e => (e ++ List.replicate 8 0).take 8
    (4 < d ∨ n = 0 ∨ 3 < n → Declined .logread s) ∧
    (d ≤ 4 → 1 ≤ n → n ≤ 3 → ∃ t, exec .logread s = .next t ∧ t.hub.readyReply = some reply ∧
      drainedOf t d ++ logOf t d = all.drop n ∧ t.mem = s.mem ∧ t.strands = s.strands)) ∧
  (∀ s, Accepts s [byteMask 8] → let n := (cmdWord s 0).toNat
    (s.hub.mseq ≤ n → Declined .mack s) ∧
    (n < s.hub.mseq → Ends .mack s [0] fun t => (∀ r, r ∈ t.hub.records ↔ r ∈ s.hub.records ∧ n < r.1) ∧
      (∀ x, x ∈ t.hub.seals ↔ x ∈ s.hub.seals ∧ n < 64 * x.1 + 63) ∧ t.hub.unsealed = s.hub.unsealed ∧
      t.hub.chainHead = s.hub.chainHead)) ∧
  (∀ s, let n := (cmdWord s 0).toNat % 2 ^ 63
    let k := (cmdWord s 1).toNat
    ((cmdWord s 0).getLsbD 63 = false → Accepts s [byteMask 8] →
      (s.hub.records.lookup n = none → Declined .mfetch s) ∧
      ∀ bs, s.hub.records.lookup n = some bs →
        Ends .mfetch s (0 :: toDwords bs 16) fun t => t.hub.records = s.hub.records) ∧
    ((cmdWord s 0).getLsbD 63 = true → Accepts s [byteMask 8, byteMask 1] →
      (s.hub.seals.lookup n = none ∨ 14 < k → Declined .mfetch s) ∧
      ∀ bs, s.hub.seals.lookup n = some bs → k ≤ 14 →
        Ends .mfetch s (0 :: partWords bs k) fun t => t.hub.seals = s.hub.seals))

/-- R432, R449: attestation, signed once for each new nonce; firmware staged in blocks and taken at the next reset. -/
def Sys2Proof.Claims.AttestationAndFirmware : Prop :=
  (∀ s, Accepts s [byteMask 8, byteMask 8, byteMask 8, byteMask 8, byteMask 1] →
    let k := (cmdWord s 4).toNat
    let nonce := dwordsToBytes ((List.range 4).map (cmdWord s))
    (15 < k → Declined .attest s) ∧
    (k ≤ 15 →
      (∀ bs, s.hub.report = some (nonce, bs) →
        Ends .attest s (0 :: partWords bs k) fun t => t.hub.report = s.hub.report ∧ t.hub.sigIndex = s.hub.sigIndex) ∧
      ((∀ bs, s.hub.report ≠ some (nonce, bs)) → ∃ sig, sig.length = 3604 ∧
        Ends .attest s (0 :: partWords (reportBytes s nonce ++ sig) k) fun t =>
          t.hub.report = some (nonce, reportBytes s nonce ++ sig) ∧ t.hub.sigIndex = s.hub.sigIndex + 1))) ∧
  (∀ s, s.hub.busy = false → unusedZero s (byteMask 4 :: List.replicate 24 (byteMask 8)) = true →
    Ends .fwstage s [0] fun t =>
      fget t.hub.staged (cmdWord s 0).toNat = some (dwordsToBytes ((List.range 24).map fun i => cmdWord s (i + 1))) ∧
      (∀ n, n ≠ (cmdWord s 0).toNat → fget t.hub.staged n = fget s.hub.staged n) ∧ t.hub.nextImage = s.hub.nextImage) ∧
  (∀ s ok, s.hub.busy = false → unusedZero s [byteMask 4] = true →
    let n := (cmdWord s 0).toNat
    let blocks := s.hub.staged.filter fun x => decide (x.1 < n)
    (ok = false ∨ n = 0 ∨ blocks.length ≠ n → Declined (.fwcommit ok) s) ∧
    (ok = true → n ≠ 0 → blocks.length = n →
      Ends (.fwcommit ok) s [0] fun t => t.hub.nextImage = some (blocks.flatMap (·.2)) ∧ t.hub.image = s.hub.image))

/-- R2, R419, R449, R451, R452: the fabric table, the power cap, the test of a cell, telemetry. -/
def Sys2Proof.Claims.FabricCapTestTelemetry : Prop :=
  (∀ s table, Accepts s [byteMask 8, byteMask 4] → 4 * table.length = (cmdWord s 1).toNat →
    (fabricOf table = none ∨ (cmdWord s 0).toNat % 64 ≠ 0 ∨ (∃ p, 1 ≤ p ∧ p ≤ 63 ∧ (getPart s p).st = .active) →
      Declined (.fabric table) s) ∧
    ∀ pkg tag l, fabricOf table = some (pkg, tag, l) → (cmdWord s 0).toNat % 64 = 0 →
      (∀ p, 1 ≤ p → p ≤ 63 → (getPart s p).st ≠ .active) →
      Ends (.fabric table) s [0] fun t => t.hub.pkg = pkg ∧ t.hub.routes = l ∧ (getPart t 0).dtag = tag ∧
        ∀ f o, fget s.hub.owners f = some o → fget t.hub.owners f = some
          (if o.valid = true ∧ o.owner = 0 then { o with dtag := tag } else o)) ∧
  (∀ s, Accepts s [byteMask 4, byteMask 4] →
    let cap := (cmdWord s 0).toNat
    let reserve := (cmdWord s 1).toNat
    (cap < 1200 ∨ 3000 < cap ∨ reserve < 700 ∨ cap < reserve + 200 → Declined .cap s) ∧
    (1200 ≤ cap → cap ≤ 3000 → 700 ≤ reserve → reserve + 200 ≤ cap →
      Ends .cap s [0] fun t => t.hub.cap = cap ∧ t.hub.reserve = reserve)) ∧
  (∀ s, Accepts s [byteMask 1] → let c := (cmdWord s 0).toNat
    (192 ≤ c → Declined .celltest s) ∧
    (c < 192 → ((getCell s c).fenced = true → Ends .celltest s [0, 1] fun _ => True) ∧
      ((getCell s c).fenced = false → ∃ t, exec .celltest s = .next t ∧ t.hub.readyReply = none ∧ t.hub.busy = true ∧
        getCell t c = { getCell s c with testing := true } ∧ t.mem = s.mem ∧ t.strands = s.strands))) ∧
  (∀ s, Accepts s [] → Ends .telem s (0 :: telemetry s) fun _ => True)

/-- R427, R448: the end of a command: the reply area, BUSY, vector 6; a command that waits goes on. -/
def Sys2Proof.Claims.CommandsEnd : Prop :=
  ∀ s, (s.hub.busy = false → exec .mgmtCommandComplete s = .next s) ∧
    (s.hub.busy = true →
      (∀ l, s.hub.readyReply = some l → ∃ t, exec .mgmtCommandComplete s = .next t ∧ t.hub.busy = false ∧
        t.hub.readyReply = none ∧ (∀ k : Fin 32, t.hub.reply.get k = l.getD k.val 0) ∧ Messaged s t 0 6 ∧
        t.mem = s.mem ∧ t.strands = s.strands ∧ t.hub.parts = s.hub.parts ∧ t.hub.cmd = s.hub.cmd) ∧
      (s.hub.readyReply = none → s.hub.creating = none → s.hub.ending = none →
        exec .mgmtCommandComplete s = .next s) ∧
      (s.hub.readyReply = none → s.hub.creating = none → ∀ p, s.hub.ending = some p →
        -- every strand ends, and collectives that have not started are dropped; then the copies and collectives that run end
        (strandsOf s p ≠ [] ∨ quietPart s p = false → ∃ t, exec .mgmtCommandComplete s = .next t ∧ t.hub.readyReply = none ∧
          t.hub.ending = some p ∧ t.hub.busy = true ∧ (∀ x ∈ allStrands t, x.part ≠ p) ∧
          ∀ d, (getColl t d p).cmds = [] ∨ (fget (getDie t d).coll p).isNone) ∧
        (strandsOf s p = [] → quietPart s p = true → ∃ t, exec .mgmtCommandComplete s = .next t ∧ t.hub.readyReply = some [0] ∧
          t.hub.ending = none ∧ (getPart t p).st = .scrubbing ∧ (p < 64 → t.hub.keys.getLsbD p = false) ∧
          (getFn t p).enabled = false ∧ t.mem = s.mem ∧
          let fs := (getPart s p).frames ++ (getPart s p).svcFrames
          t.hub.scrubs = s.hub.scrubs ++ [⟨p, 1, fs.length, 0, fs, true, 0, scrubAreas s p⟩] ∧
          (∀ x ∈ t.cells, (∀ l ∈ x.2.l1, l.part ≠ p) ∧ ∀ e ∈ x.2.tlb, e.part ≠ p) ∧
          ∀ d, ∀ e ∈ (getDie t d).tlb, e.part ≠ p)))

/-- R384, R410, R444 to R447: the host's writes. -/
def Obligations.HostWrites : Prop :=
  (∀ s fn isRead, (fnAnswers s fn = false → exec (.barAccessError fn isRead) s = .next s) ∧
    (fnAnswers s fn = true → ∃ t, exec (.barAccessError fn isRead) s = .next t ∧ (getFn t fn).accErr = true ∧
      ((getFn s fn).accErr = false → Messaged s t fn 2) ∧ ((getFn s fn).accErr = true → t = s))) ∧
  (∀ s fn bar off size v,
    let run := fun (P : State → Prop) =>
      ∃ t, exec (.registerWrite fn bar off size v) s = .next t ∧ t.mem = s.mem ∧ t.strands = s.strands ∧ P t
    (fnAnswers s fn = false → exec (.registerWrite fn bar off size v) s = .next s) ∧
    (fnAnswers s fn = true →
      ((size ≠ 4 ∧ size ≠ 8) ∨ off % size ≠ 0 → run fun t => (getFn t fn).accErr = true) ∧
      -- mailboxes
      (bar = 0 → size = 8 → off % 8 = 0 → off < 0x6000 →
        (fnServes s fn = true → boxMine s fn (off / 32) = true → run fun t =>
          let b := getBox s fn (off / 32)
          let c := getBox t fn (off / 32)
          (∀ k, k ≠ off / 32 → getBox t fn k = getBox s fn k) ∧ c.stat = b.stat ∧ c.cause = b.cause ∧
          c.word0 = (if off / 8 % 4 = 0 then v else b.word0) ∧
          c.argb = (if off / 8 % 4 = 1 then v.setWidth 54 else b.argb) ∧
          c.entry = (if off / 8 % 4 = 2 then BitVec.ofNat 8 (v.toNat / 2 ^ 56) else b.entry) ∧
          (c.go = true ↔ b.go = true ∨ (off / 8 % 4 = 2 ∧ v.getLsbD 0 = true ∧ b.stat ≠ 1 ∧ b.stat ≠ 2))) ∧
        (fnServes s fn = false ∨ boxMine s fn (off / 32) = false →
          exec (.registerWrite fn bar off size v) s = .next s)) ∧
      -- the error word
      (bar = 0 → size = 8 → off = 0x6008 → run fun t =>
        (getFn t fn).accErr = ((getFn s fn).accErr && !v.getLsbD 0) ∧ (getFn t fn).window = (getFn s fn).window) ∧
      -- a fault window entry: only ACTION is writable
      (bar = 0 → size = 8 → off % 8 = 0 → 0x7000 ≤ off → off < 0x8000 → fnServes s fn = true →
        (off % 64 = 56 → run fun t => (
          let k := Fin.ofNat 64 ((off - 0x7000) / 64);
          ((getFn t fn).window.get k) = ((getFn s fn).window.get k).set 7
            (BitVec.ofNat 64 ((((getFn s fn).window.get k).getD 7 0).toNat / 4 * 4 + v.toNat % 4)) ∧
          ∀ j, j ≠ k → (getFn t fn).window.get j = (getFn s fn).window.get j)) ∧
        (off % 64 ≠ 56 → exec (.registerWrite fn bar off size v) s = .next s)) ∧
      -- the MSI-X table
      (bar = 0 → size = 8 → off % 8 = 0 → 0x8000 ≤ off → off < 0x8080 → run fun t =>
        (getFn t fn).msixTable.get (Fin.ofNat 16 ((off - 0x8000) / 8)) = v ∧
        ∀ j, j ≠ Fin.ofNat 16 ((off - 0x8000) / 8) → (getFn t fn).msixTable.get j = (getFn s fn).msixTable.get j) ∧
      -- the command area and the doorbell
      (bar = 2 → fn = 0 → size = 8 → off % 8 = 0 → off < 0x100 → run fun t =>
        cmdWord t (off / 8) = v ∧ ∀ k, k < 32 → k ≠ off / 8 → cmdWord t k = cmdWord s k) ∧
      (bar = 2 → fn = 0 → size = 8 → off = 0x200 →
        (s.hub.busy = true → run fun t => (getFn t 0).accErr = true ∧ t.hub.busy = true) ∧
        (s.hub.busy = false → s.hub.rdy = true → unusedZero s [] = true → knownCode (v.toNat % 2 ^ 16) = false →
          run fun t => t.hub.busy = true ∧ t.hub.readyReply = some [BitVec.ofInt 64 (-1)]))))

/-- R428, R429, R433, R450: what a reset ends, what outlives it, and the steps of bring-up. -/
def Sys2Proof.Claims.ResetsBringUp : Prop :=
  ∀ s b (i : Instr) (link : Bool), (i = .coldReset b ∧ link = b.linkTrained ∨
      ∃ up, i = .warmReset up b ∧ link = ((up && s.hub.linkUp) || b.linkTrained)) →
    ∃ t, exec i s = .next t ∧ t.strands = [] ∧ t.clock = s.clock ∧ t.hub.busy = false ∧ t.hub.shut = false ∧
      t.hub.sigIndex = s.hub.sigIndex ∧ t.hub.sseq = s.hub.sseq ∧ t.hub.fenceStore = s.hub.fenceStore ∧ t.upsets = [] ∧
      t.hub.fuses = some (s.hub.fuses.getD (if fuseMapOk b.fuses then b.fuses else [])) ∧
      (∀ k c, (k, c) ∈ t.cells → k ∈ s.hub.fenceStore → c.fenced = true) ∧
      (∀ l, t.hub.fuses = some l → ∀ k ∈ l, (getCell t k).fenced = true) ∧
      (t.hub.rdy = true ∨ t.hub.halt = true) ∧ (t.hub.rdy = true → t.hub.halt = false) ∧
      (link = false ∨ b.firmwareOk = false ∨ b.memoryTrained = false → t.hub.rdy = false ∧ t.mem = s.mem ∧
        t.hub.mseq = s.hub.mseq ∧ t.hub.chainHead = s.hub.chainHead ∧ t.hub.owners = s.hub.owners ∧
        7 ∈ (getFn t 0).sent) ∧
      (link = false → t.hub.image = s.hub.image ∧ t.hub.nextImage = s.hub.nextImage) ∧
      (link = true → t.hub.image = s.hub.nextImage.getD s.hub.image ∧ t.hub.nextImage = none) ∧
      (link = true → b.firmwareOk = true → b.memoryTrained = true → t.hub.stFrames = min b.stFrames 61035 ∧
        t.hub.portsUp = b.epnerUp ∧ t.hub.scrubs = [] ∧ (∀ p, p ≠ 0 → (getPart t p).st = .free)) ∧
      (t.hub.rdy = true → (getPart t 0).st = .active ∧ s.hub.mseq < t.hub.mseq ∧ t.hub.standbyLost = false ∧
        (getFn t 0).enabled = true)

/-- R428, R429, R435: the loss of standby power erases every key and the serial numbers, and ends what runs. -/
def Sys2Proof.Claims.StandbyPowerLost : Prop :=
  ∀ s, ∃ t, exec .standbyPowerLoss s = .next t ∧ t.strands = [] ∧ t.hub.rdy = false ∧ t.hub.keys = 0 ∧ t.hub.pser = 0 ∧
    t.hub.standbyLost = true ∧ t.hub.fuses = s.hub.fuses ∧ t.hub.mseq = s.hub.mseq ∧ t.hub.chainHead = s.hub.chainHead ∧
    t.hub.records = s.hub.records ∧ (∀ x ∈ t.hub.scrubs, x.done = 0) ∧
    (∀ f o, fget s.hub.owners f = some o → o.valid = true → (fget t.hub.deadFrames f).isSome = true) ∧
    ∀ p, (getPart s p).st ≠ .free → (getPart t p).st = .scrubbing ∧
      ∃ x ∈ t.hub.scrubs, x.part = p ∧ x.final = true

/-- R440, R451, R452: the lowering of a hot die's share, the stop at 110 °C and the sensors. -/
def Sys2Proof.Claims.HeatActs : Prop :=
  (∀ s die, let d := die % 4
    let x := getDie s d
    let hot := 1600 ≤ x.temp ∨ (x.hot = true ∧ 1520 ≤ x.temp)
    (s.clock < x.throttleAt + 4000000 → exec (.thermalThrottle die) s = .next s) ∧
    (x.throttleAt + 4000000 ≤ s.clock →
      (¬ hot → x.throttle = 0 → exec (.thermalThrottle die) s = .next s) ∧
      (hot ∨ 0 < x.throttle → ∃ t, exec (.thermalThrottle die) s = .next t ∧ (getDie t d).throttleAt = s.clock ∧
        (hot → (getDie t d).throttle = min 20 (x.throttle + 1) ∧ (getDie t d).hot = true) ∧
        (¬ hot → (getDie t d).throttle = x.throttle - 1 ∧ (getDie t d).hot = false) ∧
        (∀ e < 4, e ≠ d → getDie t e = getDie s e) ∧ t.mem = s.mem ∧ t.hub = s.hub ∧ t.strands = s.strands))) ∧
  (∀ s die, let d := die % 4
    ((getDie s d).temp < 1760 ∨ s.hub.shut = true → exec (.thermalShutdown die) s = .next s) ∧
    (1760 ≤ (getDie s d).temp → s.hub.shut = false → ∃ t, exec (.thermalShutdown die) s = .next t ∧ t.hub.shut = true ∧
      allStrands t = [] ∧ (logOf t d) ≠ [] ∧ t.clock = s.clock)) ∧
  (∀ s x, ∃ t, exec (.telemetryAlarm x) s = .next t ∧ (∀ d < 4, (getDie t d).temp = x.die.getD d 0) ∧
    t.hub.hubTemp = x.hub ∧ t.hub.inlet = x.inlet ∧ t.hub.flow = x.flow ∧ t.mem = s.mem ∧ t.strands = s.strands ∧
    let passes := ∃ d < 4, (getDie s d).temp < 1600 ∧ 1600 ≤ x.die.getD d 0
    let breaks := (720 < x.inlet ∨ x.flow < 2500) ∧ ¬ (720 < s.hub.inlet ∨ s.hub.flow < 2500)
    (passes ∨ breaks → Messaged s t 0 5) ∧ (¬ passes → ¬ breaks → t.hub.fns = s.hub.fns))

/-! ## The machine as a whole -/

namespace Sys2Proof.Claims

open Sys2Proof Machine

/-- Memory, every scratchpad and every staging area are in canonical form. -/
def Canonical (s : State) : Prop :=
  memWf s.mem = true ∧ (∀ x ∈ s.cells, memWf x.2.spm = true) ∧
    ∀ d, ∀ x ∈ (getDie s d).coll, memWf x.2.staging = true

/-- Every event of the schedule is an event of the opcode table and no instruction word. -/
def EventsOnly (s : State) : Prop := ∀ a ∈ s.schedule, ∀ w i, a = .event w i → encode i = none

/-- The next turn is that of engine `w` of a resident strand, in the state `s'`. -/
def TurnOf (s s' : State) (w : Walker) (st : Strand) : Prop :=
  ∃ s1, nextActor s = (.engine w, s1) ∧ s' = { s1 with cur := w } ∧ getStrand s' (Walker.ref w) = some st

/-- The engine stands before a word of its window and nothing keeps it from it: no kernel or loop ends here, no pre-emption
stops it, no micro-routine is under way. -/
def BeforeWord (s : State) (w : Walker) (st : Strand) : Prop :=
  let c := getCtx s w.cell st.part
  let en := getEng st w.eng
  mayIssue s st w.eng = true ∧ en.micro = none ∧ atPassEnd en = false ∧ lullStops s c st en = false ∧
    en.clamped = none ∧ atLoopEnd en = false ∧ en.pc < c.win ∧ en.ploop = none

end Sys2Proof.Claims

/-- R25 to R27, R43, R54, R350: an engine that may issue runs the word at its program counter as decoded, a bound opcode
once C has caught up; it passes another engine's word; a word that breaks R43 faults. Events, time, stores that pass an
ordering point and hardware errors are steps too (log entries 1 and 80: the schedule is the model's). -/
def Obligations.StepRunsDecodedWord : Prop :=
  (∀ s s' w st, Claims.TurnOf s s' w st → Claims.BeforeWord s' w st → s'.upsets = [] →
    let c := getCtx s' w.cell st.part
    let en := getEng st w.eng
    let x := fetchWord c en.pc
    let mine := wordTag x = Eng.code w.eng ∨ wordTag x = 5
    (∀ i, mine → wordOp x < 0xC0 → decode x = .ok i → targetOk c en.pc i = true → step s = exec i s') ∧
    (∀ i, mine → 0xC0 ≤ wordOp x → (w.eng = .c ∨ en.passed ≤ (getEng st .c).passed) →
      entVal (bindEntry c st w.eng (wordOp x)) = true → wordTag x = wbits (bindEntry c st w.eng (wordOp x)) 62 60 →
      decode x = .ok i →
      (wbits (bindEntry c st w.eng (wordOp x)) 59 56 = 0 ∧ wbits x 52 49 = 0 ∨
        wbits (bindEntry c st w.eng (wordOp x)) 59 56 ≠ 0 ∧ wbits (bindEntry c st w.eng (wordOp x)) 59 56 ≤ wbits x 52 49) →
      step s = exec i s') ∧
    (wordTag x < 5 → wordTag x ≠ Eng.code w.eng → (sendsMode x = false ∨ w.eng = .c) →
      ∃ t u, step s = .next t ∧ getStrand t (Walker.ref w) = some u ∧ (getEng u w.eng).pc = en.pc + 1 ∧
        (getEng u w.eng).passed = en.passed + 1 ∧ t.mem = s'.mem ∧ (∀ r, regBits u r = regBits st r) ∧
        ∀ e, e ≠ w.eng → getEng u e = getEng st e) ∧
    (∀ err, (w.eng ≠ .l ∨ st.lean = none) → mine ∨ 6 ≤ wordTag x → wordOp x < 0xC0 →
      decode x = .error err ∨ err = .illegal ∧ (∃ i, parse x = some i ∧ targetOk c en.pc i = false) →
      (err = .latBound → ∀ i, parse x = some i → targetOk c en.pc i = true) →
      ∃ t, step s = .next t ∧ Claims.Raised t (Walker.ref w) st fun q => q.eng = Eng.code w.eng ∧ q.word = en.pc ∧
        q.trap.cause = if err = .latBound then .latBound else .illegal)) ∧
  (∀ s w s1, nextActor s = (.engine w, s1) → getStrand s1 (Walker.ref w) = none → step s = .next { s1 with cur := w }) ∧
  (∀ s s' w st, Claims.TurnOf s s' w st → mayIssue s' st w.eng = false → step s = .next s') ∧
  (∀ s w i s1, nextActor s = (.event w i, s1) → s1.upsets = [] → step s = exec i { s1 with cur := w }) ∧
  (∀ s r id s1, nextActor s = (.advance r id, s1) → step s = .next (advanceAccess s1 r id)) ∧
  (∀ s u s1, nextActor s = (.upset u, s1) → step s = .next { s1 with upsets := s1.upsets ++ [u] }) ∧
  (∀ s u s1, nextActor s = (.decay u, s1) → step s = .next (decayUnit s1 u)) ∧
  (∀ s n s1, nextActor s = (.tick n, s1) → step s = .next (tickClock s1 n)) ∧
  (∀ s a rest, s.schedule = a :: rest → nextActor s = (a, { s with schedule := rest }))

/-- R415, R417 (log entry 80: that an error comes is an input): a mismatch in an engine's word stops the word, poisons the
registers that it would have written and raises UNCORRECTABLE; an error that nothing has detected poisons its unit. -/
def Sys2Proof.Claims.ErrorsStrike : Prop :=
  (∀ s s' w st i adder after b, Claims.TurnOf s s' w st → Claims.BeforeWord s' w st → s'.upsets = [.engine w adder] →
    let c := getCtx s' w.cell st.part
    let en := getEng st w.eng
    let x := fetchWord c en.pc
    wordTag x = Eng.code w.eng ∨ wordTag x = 5 → wordOp x < 0xC0 → decode x = .ok i → targetOk c en.pc i = true →
    exec i s' = .next after → getStrand after (Walker.ref w) = some b → b.frozen = false → b ≠ st →
    (w.eng = .l → st.lean = none) →
    ∃ t u, step s = .next t ∧ t.upsets = [] ∧ t.mem = s'.mem ∧ getStrand t (Walker.ref w) = some u ∧
      (Claims.Raised t (Walker.ref w) st fun q => q.trap.cause = .uncorrectable ∧ q.eng = Eng.code w.eng ∧ q.word = en.pc ∧
        q.trap.detail = if w.eng = .c ∧ adder = false then 4 else 3) ∧
      (∀ r, latest u r = latest st r) ∧
      ∀ r ∈ allRegs, regBits b r ≠ regBits (settle s'.clock st) r → r ∈ u.poisoned) ∧
  (∀ s uid r k st, strandByUid s uid = some (k, st) → r ∉ st.poisoned → decayReg r = true →
    ∃ u, strandByUid (decayUnit s (.reg uid r)) uid = some (k, u) ∧
      u = { st with poisoned := r :: st.poisoned, fresh := r :: st.fresh }) ∧
  (∀ s cell r, r < 4096 → r ∉ (getCell s cell).spmPoison →
    r ∈ (getCell (decayUnit s (.row cell r)) cell).spmPoison ∧ r ∈ (getCell (decayUnit s (.row cell r)) cell).spmFresh ∧
      (decayUnit s (.row cell r)).mem = s.mem)

/-- R25 to R28, R43: words that the chapters work out decode to what they stand for (`add g3, g1, g2`, `brc.nz.ln top, g4`,
`ld.e8.acq g4, [g3+0x10] %2` and `mma.ov acc3, om4, om5 <p >n`), and a TAG of 110 and a LAT below the bound are refused. -/
def Obligations.WordsDecode : Prop :=
  decode 0x010200C082000000 = .ok (.add 1 3 1 2) ∧
  decode 0x21A00510FFFFFFFD = .ok (.brc .nz .notTaken 4 0xFFFFFFFD) ∧
  decode 0x381E041060C80010 = .ok (.ld 15 .e8 false 2 .normal true 4 3 0x10) ∧
  decode 0xAB612642FFC40000 = .ok (.mma ⟨⟨true, false, false, true⟩, 3, 4, 5, 15, false, false, .over⟩) ∧
  decode 0x01C200C082000000 = .error .illegal ∧ decode 0x010000C082000000 = .error .latBound

/-- Decoding gives back every well-formed instruction from its word, with every operand at every value that the encoding
admits; and a word decodes only to a well-formed instruction that encodes to it. -/
def Obligations.DecodeEncodeAgree : Prop :=
  (∀ i w, wellFormed i = true → encode i = some w → decode w = .ok i) ∧
  (∀ i w, decode w = .ok i → wellFormed i = true ∧ encode i = some w)

/-- Every step keeps memory, the scratchpads and the staging areas in canonical form. -/
def Obligations.StepKeepsMemoryCanonical : Prop :=
  ∀ s t, Claims.Canonical s → step s = .next t → Claims.Canonical t

/-- With only events in its schedule, or with none at all, the machine never stops: no instruction, event or fault of the
table ends a run (R403; log entry 1). -/
def Obligations.MachineNeverStops : Prop :=
  (∀ s, Claims.EventsOnly s → ∃ t, step s = .next t ∧ Claims.EventsOnly t) ∧ (∀ k, SafeRun k State.reset)

/-- R16, R386: time only passes: no word and no event moves the clock, and a step never turns it back. -/
def Obligations.ClockNeverTurnsBack : Prop :=
  (∀ i s t, exec i s = .next t → t.clock = s.clock) ∧ ∀ s t, step s = .next t → s.clock ≤ t.clock

/-- The machine right after reset, before bring-up: nothing runs, no partition exists, no frame is owned, the device is
not ready; a handle slot has GEN 1 (R100), LMODE is 0 (R31, R145), power cap and reserve as R451 gives them. Values that
the specification leaves open are those of log entries 4, 5, 10, 11 and 12. -/
def Obligations.ResetState : Prop :=
  let s := State.reset
  Claims.Canonical s ∧ s.strands = [] ∧ s.ctxs = [] ∧ (∀ a, mread s.mem a = 0) ∧
  (∀ p, (getPart s p).st = .free) ∧ (∀ f, fget s.hub.owners f = none) ∧
  s.upsets = [] ∧ s.hub.fuses = none ∧ s.hub.away = [] ∧ s.hub.mixed = [] ∧ s.hub.stFrames = 0 ∧
   s.hub.rdy = false ∧ s.hub.halt = false ∧ s.hub.busy = false ∧ s.hub.shut = false ∧
  s.hub.cap = 3000 ∧ s.hub.reserve = 700 ∧ s.hub.mseq = 0 ∧ s.hub.sseq = 0 ∧ s.hub.chainHead = 0 ∧ s.hub.pser = 0 ∧
  (∀ p n, (getHandle s p n).gen = 1 ∧ (getHandle s p n).val = false ∧ (getHandle s p n).pin = 0) ∧
  (∀ c, (getCell s c).fenced = false) ∧ (∀ fn, (getFn s fn).accErr = false ∧ (getFn s fn).faultHead = 0 ∧
    (getFn s fn).faultTail = 0)

/-! ## The claims above, joined for the provers -/

/-- R320 to R322: the integer words of C; only a division by zero raises a flag, and none faults. -/
def Obligations.IntegerWords : Prop :=
  Claims.IntegerRegisterWords ∧ Claims.DivisionWords ∧ Claims.IntegerImmediateWords

/-- R323, R324: branches, their records in the BQs, and calls with their return stacks. -/
def Obligations.BranchesAndCalls : Prop :=
  Claims.BranchWords ∧ Claims.BranchConditions ∧ Claims.CallWords

/-- R325 to R327: loops and the pipelined loop. -/
def Obligations.LoopsRun : Prop :=
  Claims.LoopWords ∧ Claims.LoopEnd ∧ Claims.PipelinedLoop

/-- R330: what `wait` waits for, and the poll of a flag in memory. -/
def Obligations.WaitsAndFlags : Prop :=
  Claims.WaitWords ∧ Claims.FlagWait

/-- R113, R243, R287, R333 to R335, R394: `exit`, `sbar`, `ovl`, the superstep barrier and the refill of an overlay. -/
def Obligations.StopsBarriersOverlays : Prop :=
  Claims.StopWords ∧ Claims.BarrierCompletes ∧ Claims.OverlayRefills

/-- R28, R57, R272, R345, R346: fences and the scalar accesses of C with their alignment. -/
def Obligations.FencesAndScalarAccesses : Prop :=
  Claims.FenceWord ∧ Claims.ScalarAccessWords ∧ Claims.ScalarAlignment

/-- R8, R9, R339 to R341, R429: the state registers as `mfst` and `mtst` read and write them, and where they fault. -/
def Obligations.StateRegisters : Prop :=
  Claims.StateRegisterReads ∧ Claims.StateRegisterWrites ∧ Claims.StateRegisterFaults

/-- R111, R337, R338: the scalar queues and the records that C pops. -/
def Obligations.QueuesAndRecords : Prop :=
  Claims.ScalarQueueWords ∧ Claims.RecordPops

/-- R28, R35, R36, R52, R118: tokens, `nop`, results that land and tokens that fill. -/
def Obligations.TokensAndLandings : Prop :=
  Claims.TokenWords ∧ Claims.NopWord ∧ Claims.LandingsAndPushes

/-- R114 to R118: the register words of L and S. -/
def Obligations.EngineRegisterWords : Prop :=
  Claims.LoadRegisterWords ∧ Claims.StoreRegisterWords

/-- R123, R124, R126, R157: the loads of L from the scratchpad. -/
def Obligations.RowStridedPackedLoads : Prop :=
  Claims.RowLoads ∧ Claims.StridedAndGatheredLoads ∧ Claims.PackedLoads

/-- R108, R124, R127, R128, R220: the loads of L from memory, slot fills, row pointers and prefetches. -/
def Obligations.MemoryLoadsAndFills : Prop :=
  Claims.MemoryLoads ∧ Claims.SlotFills ∧ Claims.RowPointersAndPrefetch

/-- R110, R118, R129, R130, R132: what the stores of S write at their data stage. -/
def Obligations.ScratchpadAndScatterStores : Prop :=
  Claims.ScratchpadStores ∧ Claims.ScatterStores

/-- R142, R176 to R178, R182, R187: the integer and bit words of V. -/
def Obligations.VectorIntegerAndBitWords : Prop :=
  Claims.VectorIntegerWords ∧ Claims.VectorBitWords

/-- R144 to R147: exact results and their rounding. -/
def Obligations.FloatArithmetic : Prop :=
  Claims.ExactOperations ∧ Claims.FloatRounding

/-- R143, R157, R169, R179 to R181, R183, R184, R188, R189: conversions, widenings and moves between lanes. -/
def Obligations.ConversionsAndMoves : Prop :=
  Claims.VectorConversions ∧ Claims.VectorMoves

/-- R165, R171, R185, R186, R190 to R192, R195, R198: masks, comparisons and scalar results. -/
def Obligations.MasksAndScalarResults : Prop :=
  Claims.MaskWords ∧ Claims.VectorScalarResults

/-- R33, R202 to R206, R210, R212: special functions and the words of the geometric predicates. -/
def Obligations.SpecialAndPredicateWords : Prop :=
  Claims.SpecialFunctionWords ∧ Claims.PredicateWords

/-- R53, R112, R196, R197, R199, R200: index sends, accumulator columns, spill and fill. -/
def Obligations.IndexColumnsAndSpill : Prop :=
  Claims.IndexSends ∧ Claims.AccumulatorColumns ∧ Claims.SpillAndFill

/-- R24, R86, R91 to R94, R96 to R98, R101, R102, R104, R105: copies from their words to their completion. -/
def Obligations.CopiesRun : Prop :=
  Claims.CopyWords ∧ Claims.CopyStarts ∧ Claims.CopyCompletes

/-- R102, R297, R336: the commands that C pushes. -/
def Obligations.CommandPushes : Prop :=
  Claims.HandlePushes ∧ Claims.CollectivePushes

/-- R342, R344, R378, R379, R430, R431: launches and the calls of the service partition. -/
def Obligations.LaunchesAndServiceCalls : Prop :=
  Claims.LaunchWord ∧ Claims.ServiceCalls

/-- R54, R343, R350, R357, R364, R365: the bind table and the words bound through it. -/
def Obligations.BindingsAndBoundWords : Prop :=
  Claims.BindWord ∧ Claims.BoundWords

/-- R135, R139, R218, R220, R223, R225 to R229, R231 to R233, R257: claims, releases, zeroing and integer products. -/
def Obligations.MatrixResourcesAndIntegers : Prop :=
  Claims.MatrixResources ∧ Claims.IntegerProducts

/-- R162, R219, R229, R230, R256, R257, R440, R441: products and the energy grants that gate them. -/
def Obligations.ProductsAndGrants : Prop :=
  Claims.ProductWords ∧ Claims.EnergyGrants

/-- R239, R240, R242 to R244, R246 to R248, R254, R255: loop nests and computed sparsity. -/
def Obligations.NestsAndPatterns : Prop :=
  Claims.LoopNests ∧ Claims.PatternWords

/-- R354, R356, R358, R360, R362, R363, R366: the micro-steps of a bound routine. -/
def Obligations.MicroRoutines : Prop :=
  Claims.MicroSteps ∧ Claims.MicroVectorParts

/-- R300, R301, R306, R307, R311, R314: groups, the start of a collective and its control steps. -/
def Obligations.CollectiveCommandsAndControl : Prop :=
  Claims.CollectiveCommands ∧ Claims.CollectiveControl

/-- R302, R305, R307, R308, R417: the steps of a collective that move and reduce data. -/
def Obligations.CollectiveStepsRun : Prop :=
  Claims.CollectiveStepStarts ∧ Claims.CollectiveStepEffects

/-- R300, R302, R307 to R312: reductions, aborts and what arrives. -/
def Obligations.CollectiveReductionAndAborts : Prop :=
  Claims.ReductionOperations ∧ Claims.CollectiveAborts ∧ Claims.CollectiveArrivals

/-- R59, R67, R75, R76, R290 to R293, R295, R309: requests between packages and to the host. -/
def Obligations.FabricAnswers : Prop :=
  Claims.AnswersFromAway ∧ Claims.RemoteRequests ∧ Claims.PortsGoDown

/-- R80, R82, R83, R134, R136: invalidations, page pulls and restored resources. -/
def Obligations.InvalidationsPullsAndResources : Prop :=
  Claims.InvalidationsAndPulls ∧ Claims.ResourcesComeBack

/-- R380, R382 to R385, R399: strands placed from launches and mailboxes. -/
def Obligations.DispatchAndMailboxes : Prop :=
  Claims.StrandDispatches ∧ Claims.MailboxStarts

/-- R90, R352, R380, R391, R394, R397, R399, R400: what is loaded before a strand issues, and its resumption. -/
def Obligations.PlacementAndResume : Prop :=
  Claims.PlacementLoads ∧ Claims.StrandsResume

/-- R113, R333, R377, R381, R412: the end of strands and of launches. -/
def Obligations.EndsAndCompletion : Prop :=
  Claims.StrandsEnd ∧ Claims.LaunchesComplete

/-- R374 to R376, R386, R439: who holds the block, and what each period begins with. -/
def Obligations.BlocksAndPeriods : Prop :=
  Claims.BlocksPassOn ∧ Claims.PeriodStarts

/-- R382, R390, R396 to R398: requests to leave, stops at lull points and forced saves. -/
def Obligations.PreemptionAndDeparture : Prop :=
  Claims.PreemptionRequests ∧ Claims.StrandsDepart

/-- R84, R212, R403 to R405, R408 to R412: where a fault goes and what its ACTION does. -/
def Obligations.FaultsDeliveredAndResolved : Prop :=
  Claims.FaultsDelivered ∧ Claims.FaultsResolved

/-- R414, R415, R417 to R419, R440, R451, R452: the watchdog, the logs, the scrub, the test of a cell, heat and
sensors. -/
def Obligations.DetectorsAndHeat : Prop :=
  Claims.DetectorsAct ∧ Claims.HeatActs ∧ Claims.ErrorsStrike

/-- R422, R427, R428, R433 to R436: usage records, seals and the end of a scrub. -/
def Obligations.RecordsSealsAndScrubs : Prop :=
  Claims.RecordsAndSeals ∧ Claims.ScrubsEnd

/-- R390, R423 to R427, R430, R448: partitions are created and torn down. -/
def Obligations.CreationAndTeardown : Prop :=
  Claims.CreatesPartitions ∧ Claims.TearsDownAndInvalidates

/-- R2, R413, R414, R419, R427, R432, R435, R448, R449, R451, R452: the doorbell, its commands and their end. -/
def Obligations.ManagementCommands : Prop :=
  Claims.DoorbellGates ∧ Claims.LogAndRecordCommands ∧ Claims.AttestationAndFirmware ∧ Claims.FabricCapTestTelemetry ∧ Claims.CommandsEnd

/-- R428, R429, R433, R435, R450: resets, bring-up and the loss of standby power. -/
def Obligations.Resets : Prop :=
  Claims.ResetsBringUp ∧ Claims.StandbyPowerLost
end

