-- ==== Sys2Proof/Laws/Memory.lean ====
section
/-! SUPPORT. Maps by key and byte memory: what a read gives after a write, and that every memory operation keeps the
canonical form.
-/

namespace Sys2Proof.Machine

/-! ## Maps by key -/

/-- Strictly rising keys. -/
def rising {α : Type} (m : FMap α) : Prop := m.Pairwise fun a b => a.1 < b.1

@[simp] theorem fget_nil {α : Type} (k : Nat) : fget ([] : FMap α) k = none := rfl

theorem fget_cons {α : Type} (k' : Nat) (v : α) (t : FMap α) (k : Nat) :
    fget ((k', v) :: t) k = if k = k' then some v else fget t k := by
  by_cases h : k = k'
  · simp [fget, h]
  · have : (k == k') = false := by simpa using h
    simp [fget, List.lookup_cons, h, this]

@[simp] theorem fget_fset_same {α : Type} (m : FMap α) (k : Nat) (v : α) : fget (fset m k v) k = some v := by
  induction m with
  | nil => simp [fset, fget_cons]
  | cons p t ih =>
    obtain ⟨k', v'⟩ := p
    simp only [fset]
    split
    · simp [fget_cons]
    · split
      · simp [fget_cons]
      · rename_i h; simp [fget_cons, h, ih]

theorem fget_fset_other {α : Type} (m : FMap α) (k j : Nat) (v : α) (h : j ≠ k) : fget (fset m k v) j = fget m j := by
  induction m with
  | nil => simp [fset, fget_cons, h]
  | cons p t ih =>
    obtain ⟨k', v'⟩ := p
    simp only [fset]
    split
    · simp [fget_cons, h]
    · split
      · rename_i hk; subst hk; simp [fget_cons, h]
      · simp [fget_cons, ih]

theorem fget_ferase_other {α : Type} (m : FMap α) (k j : Nat) (h : j ≠ k) : fget (ferase m k) j = fget m j := by
  induction m with
  | nil => rfl
  | cons p t ih =>
    obtain ⟨k', v'⟩ := p
    simp only [ferase]
    split
    · rename_i hk; subst hk; simp [fget_cons, h]
    · simp [fget_cons, ih]

theorem mem_fset {α : Type} {m : FMap α} {k : Nat} {v : α} {p : Nat × α} (h : p ∈ fset m k v) :
    p = (k, v) ∨ p ∈ m := by
  induction m with
  | nil => simpa [fset] using h
  | cons q t ih =>
    obtain ⟨k', v'⟩ := q
    simp only [fset] at h
    split at h
    · simpa using h
    · split at h
      · simp at h ⊢; tauto
      · simp at h ⊢
        rcases h with h | h
        · exact .inr (.inl h)
        · rcases ih h with h | h
          · exact .inl h
          · exact .inr (.inr h)

theorem mem_ferase {α : Type} {m : FMap α} {k : Nat} {p : Nat × α} (h : p ∈ ferase m k) : p ∈ m := by
  induction m with
  | nil => exact h
  | cons q t ih =>
    obtain ⟨k', v'⟩ := q
    simp only [ferase] at h
    split at h
    · exact .tail _ h
    · simp at h ⊢; exact h.imp id ih

theorem rising_fset {α : Type} {m : FMap α} (h : rising m) (k : Nat) (v : α) : rising (fset m k v) := by
  induction m with
  | nil => simp [fset, rising]
  | cons q t ih =>
    obtain ⟨k', v'⟩ := q
    obtain ⟨h1, h2⟩ := List.pairwise_cons.mp h
    simp only [fset]
    split
    · rename_i hk
      refine List.pairwise_cons.mpr ⟨fun p hp => ?_, h⟩
      rcases List.mem_cons.mp hp with rfl | hp
      · exact hk
      · exact Nat.lt_trans hk (h1 p hp)
    · split
      · rename_i hk; subst hk
        exact List.pairwise_cons.mpr ⟨h1, h2⟩
      · refine List.pairwise_cons.mpr ⟨fun p hp => ?_, ih h2⟩
        rcases mem_fset hp with rfl | hp
        · show k' < k; omega
        · exact h1 p hp

theorem rising_ferase {α : Type} {m : FMap α} (h : rising m) (k : Nat) : rising (ferase m k) := by
  induction m with
  | nil => exact h
  | cons q t ih =>
    obtain ⟨h1, h2⟩ := List.pairwise_cons.mp h
    simp only [ferase]
    split
    · exact h2
    · exact List.pairwise_cons.mpr ⟨fun p hp => h1 p (mem_ferase hp), ih h2⟩

theorem fget_ferase_same {α : Type} {m : FMap α} (h : rising m) (k : Nat) : fget (ferase m k) k = none := by
  induction m with
  | nil => rfl
  | cons q t ih =>
    obtain ⟨k', v'⟩ := q
    obtain ⟨h1, h2⟩ := List.pairwise_cons.mp h
    simp only [ferase]
    split
    · rename_i hk; subst hk
      clear ih h h2
      induction t with
      | nil => rfl
      | cons q t ih =>
        obtain ⟨k', v'⟩ := q
        have hk : k < k' := h1 (k', v') (.head _)
        rw [fget_cons, if_neg (by omega)]
        exact ih fun p hp => h1 p (.tail _ hp)
    · rename_i hk
      simp [fget_cons, hk, ih h2]

/-! ## The canonical form -/

theorem memWf_iff (m : Mem) : memWf m = true ↔ rising m ∧ ∀ p ∈ m, p.2 ≠ 0 := by
  induction m with
  | nil => simp [memWf, rising]
  | cons p t ih =>
    obtain ⟨a, b⟩ := p
    cases t with
    | nil => simp [memWf, rising]
    | cons q t =>
      obtain ⟨a', b'⟩ := q
      simp only [memWf, Bool.and_eq_true, bne_iff_ne, ne_eq, decide_eq_true_eq, ih, rising, List.pairwise_cons,
        List.mem_cons, forall_eq_or_imp]
      constructor
      · rintro ⟨⟨hb, hlt⟩, ⟨h1, h2⟩, hb', h3⟩
        exact ⟨⟨⟨hlt, fun p hp => Nat.lt_trans hlt (h1 p hp)⟩, h1, h2⟩, hb, hb', h3⟩
      · rintro ⟨⟨⟨hlt, _⟩, h1, h2⟩, hb, hb', h3⟩
        exact ⟨⟨hb, hlt⟩, ⟨h1, h2⟩, hb', h3⟩

theorem mwrite_wf {m : Mem} (h : memWf m) (a : Nat) (b : Byte) : memWf (mwrite m a b) := by
  obtain ⟨h1, h2⟩ := (memWf_iff m).mp h
  unfold mwrite
  split
  · exact (memWf_iff _).mpr ⟨rising_ferase h1 a, fun p hp => h2 p (mem_ferase hp)⟩
  · rename_i hb
    refine (memWf_iff _).mpr ⟨rising_fset h1 a b, fun p hp => ?_⟩
    rcases mem_fset hp with rfl | hp
    · exact hb
    · exact h2 p hp

theorem writeN_wf {m : Mem} (h : memWf m) (a n v : Nat) : memWf (writeN m a n v) := by
  induction n generalizing m a v with
  | zero => exact h
  | succ n ih => exact ih (mwrite_wf h a _) (a + 1) (v / 256)

theorem filter_wf {m : Mem} (h : memWf m) (p : Nat × Byte → Bool) : memWf (m.filter p) := by
  obtain ⟨h1, h2⟩ := (memWf_iff m).mp h
  exact (memWf_iff _).mpr ⟨List.Pairwise.filter p h1, fun q hq => h2 q (List.mem_of_mem_filter hq)⟩

/-! ## Reads after writes -/

theorem mread_mwrite_same {m : Mem} (h : memWf m) (a : Nat) (b : Byte) : mread (mwrite m a b) a = b := by
  unfold mread mwrite
  split
  · rename_i hb; rw [fget_ferase_same ((memWf_iff m).mp h).1]; exact hb.symm
  · simp

theorem mread_mwrite_other (m : Mem) (a j : Nat) (b : Byte) (h : j ≠ a) : mread (mwrite m a b) j = mread m j := by
  unfold mread mwrite
  split
  · rw [fget_ferase_other m a j h]
  · rw [fget_fset_other m a j b h]

/-- A write of `n` bytes leaves every byte outside them as it was. -/
theorem mread_writeN_outside (m : Mem) (a n v j : Nat) (h : j < a ∨ a + n ≤ j) :
    mread (writeN m a n v) j = mread m j := by
  induction n generalizing m a v with
  | zero => rfl
  | succ n ih =>
    rw [writeN, ih (mwrite m a _) (a + 1) (v / 256) (by omega), mread_mwrite_other m a j _ (by omega)]

/-- Reading back the `n` bytes written gives the value modulo their width. -/
theorem readN_writeN {m : Mem} (h : memWf m) (a n v : Nat) : readN (writeN m a n v) a n = v % 256 ^ n := by
  induction n generalizing m a v with
  | zero => simp [readN, Nat.mod_one]
  | succ n ih =>
    rw [writeN, readN, mread_writeN_outside _ _ _ _ _ (by omega), mread_mwrite_same h,
      ih (mwrite_wf h a _) (a + 1) (v / 256)]
    have : (256 : Nat) ^ (n + 1) = 256 * 256 ^ n := by ring
    rw [this, Nat.mod_mul, BitVec.toNat_ofNat]

end Sys2Proof.Machine
end

