-- ==== Sys2Proof/Laws/State.lean ====
section
/-! SUPPORT. What each update of the state leaves in each field, true by definition, so that no later proof unfolds a
record update.
-/

namespace Sys2Proof.Machine

/-! ## `putStrand` -/

@[simp] theorem putStrand_schedule (s : State) (r : SRef) (x : Strand) : (putStrand s r x).schedule = s.schedule := rfl
@[simp] theorem putStrand_upsets (s : State) (r : SRef) (x : Strand) : (putStrand s r x).upsets = s.upsets := rfl
@[simp] theorem putStrand_turn (s : State) (r : SRef) (x : Strand) : (putStrand s r x).turn = s.turn := rfl
@[simp] theorem putStrand_cur (s : State) (r : SRef) (x : Strand) : (putStrand s r x).cur = s.cur := rfl
@[simp] theorem putStrand_clock (s : State) (r : SRef) (x : Strand) : (putStrand s r x).clock = s.clock := rfl
@[simp] theorem putStrand_freeCount (s : State) (r : SRef) (x : Strand) : (putStrand s r x).freeCount = s.freeCount := rfl
@[simp] theorem putStrand_nextId (s : State) (r : SRef) (x : Strand) : (putStrand s r x).nextId = s.nextId := rfl
@[simp] theorem putStrand_mem (s : State) (r : SRef) (x : Strand) : (putStrand s r x).mem = s.mem := rfl
@[simp] theorem putStrand_strands (s : State) (r : SRef) (x : Strand) : (putStrand s r x).strands = fset s.strands (SRef.key r) x := rfl
@[simp] theorem putStrand_cells (s : State) (r : SRef) (x : Strand) : (putStrand s r x).cells = s.cells := rfl
@[simp] theorem putStrand_ctxs (s : State) (r : SRef) (x : Strand) : (putStrand s r x).ctxs = s.ctxs := rfl
@[simp] theorem putStrand_dies (s : State) (r : SRef) (x : Strand) : (putStrand s r x).dies = s.dies := rfl
@[simp] theorem putStrand_hub (s : State) (r : SRef) (x : Strand) : (putStrand s r x).hub = s.hub := rfl

/-! ## `dropStrand` -/

@[simp] theorem dropStrand_schedule (s : State) (r : SRef) : (dropStrand s r).schedule = s.schedule := rfl
@[simp] theorem dropStrand_upsets (s : State) (r : SRef) : (dropStrand s r).upsets = s.upsets := rfl
@[simp] theorem dropStrand_turn (s : State) (r : SRef) : (dropStrand s r).turn = s.turn := rfl
@[simp] theorem dropStrand_cur (s : State) (r : SRef) : (dropStrand s r).cur = s.cur := rfl
@[simp] theorem dropStrand_clock (s : State) (r : SRef) : (dropStrand s r).clock = s.clock := rfl
@[simp] theorem dropStrand_freeCount (s : State) (r : SRef) : (dropStrand s r).freeCount = s.freeCount := rfl
@[simp] theorem dropStrand_nextId (s : State) (r : SRef) : (dropStrand s r).nextId = s.nextId := rfl
@[simp] theorem dropStrand_mem (s : State) (r : SRef) : (dropStrand s r).mem = s.mem := rfl
@[simp] theorem dropStrand_strands (s : State) (r : SRef) : (dropStrand s r).strands = ferase s.strands (SRef.key r) := rfl
@[simp] theorem dropStrand_cells (s : State) (r : SRef) : (dropStrand s r).cells = s.cells := rfl
@[simp] theorem dropStrand_ctxs (s : State) (r : SRef) : (dropStrand s r).ctxs = s.ctxs := rfl
@[simp] theorem dropStrand_dies (s : State) (r : SRef) : (dropStrand s r).dies = s.dies := rfl
@[simp] theorem dropStrand_hub (s : State) (r : SRef) : (dropStrand s r).hub = s.hub := rfl

/-! ## `putCell` -/

@[simp] theorem putCell_schedule (s : State) (c : Nat) (x : Cell) : (putCell s c x).schedule = s.schedule := rfl
@[simp] theorem putCell_upsets (s : State) (c : Nat) (x : Cell) : (putCell s c x).upsets = s.upsets := rfl
@[simp] theorem putCell_turn (s : State) (c : Nat) (x : Cell) : (putCell s c x).turn = s.turn := rfl
@[simp] theorem putCell_cur (s : State) (c : Nat) (x : Cell) : (putCell s c x).cur = s.cur := rfl
@[simp] theorem putCell_clock (s : State) (c : Nat) (x : Cell) : (putCell s c x).clock = s.clock := rfl
@[simp] theorem putCell_freeCount (s : State) (c : Nat) (x : Cell) : (putCell s c x).freeCount = s.freeCount := rfl
@[simp] theorem putCell_nextId (s : State) (c : Nat) (x : Cell) : (putCell s c x).nextId = s.nextId := rfl
@[simp] theorem putCell_mem (s : State) (c : Nat) (x : Cell) : (putCell s c x).mem = s.mem := rfl
@[simp] theorem putCell_strands (s : State) (c : Nat) (x : Cell) : (putCell s c x).strands = s.strands := rfl
@[simp] theorem putCell_cells (s : State) (c : Nat) (x : Cell) : (putCell s c x).cells = fset s.cells c x := rfl
@[simp] theorem putCell_ctxs (s : State) (c : Nat) (x : Cell) : (putCell s c x).ctxs = s.ctxs := rfl
@[simp] theorem putCell_dies (s : State) (c : Nat) (x : Cell) : (putCell s c x).dies = s.dies := rfl
@[simp] theorem putCell_hub (s : State) (c : Nat) (x : Cell) : (putCell s c x).hub = s.hub := rfl

/-! ## `putCtx` -/

@[simp] theorem putCtx_schedule (s : State) (c p : Nat) (x : Context) : (putCtx s c p x).schedule = s.schedule := rfl
@[simp] theorem putCtx_upsets (s : State) (c p : Nat) (x : Context) : (putCtx s c p x).upsets = s.upsets := rfl
@[simp] theorem putCtx_turn (s : State) (c p : Nat) (x : Context) : (putCtx s c p x).turn = s.turn := rfl
@[simp] theorem putCtx_cur (s : State) (c p : Nat) (x : Context) : (putCtx s c p x).cur = s.cur := rfl
@[simp] theorem putCtx_clock (s : State) (c p : Nat) (x : Context) : (putCtx s c p x).clock = s.clock := rfl
@[simp] theorem putCtx_freeCount (s : State) (c p : Nat) (x : Context) : (putCtx s c p x).freeCount = s.freeCount := rfl
@[simp] theorem putCtx_nextId (s : State) (c p : Nat) (x : Context) : (putCtx s c p x).nextId = s.nextId := rfl
@[simp] theorem putCtx_mem (s : State) (c p : Nat) (x : Context) : (putCtx s c p x).mem = s.mem := rfl
@[simp] theorem putCtx_strands (s : State) (c p : Nat) (x : Context) : (putCtx s c p x).strands = s.strands := rfl
@[simp] theorem putCtx_cells (s : State) (c p : Nat) (x : Context) : (putCtx s c p x).cells = s.cells := rfl
@[simp] theorem putCtx_ctxs (s : State) (c p : Nat) (x : Context) : (putCtx s c p x).ctxs = fset s.ctxs (ctxKey c p) x := rfl
@[simp] theorem putCtx_dies (s : State) (c p : Nat) (x : Context) : (putCtx s c p x).dies = s.dies := rfl
@[simp] theorem putCtx_hub (s : State) (c p : Nat) (x : Context) : (putCtx s c p x).hub = s.hub := rfl

/-! ## `putDie` -/

@[simp] theorem putDie_schedule (s : State) (d : Nat) (x : Die) : (putDie s d x).schedule = s.schedule := rfl
@[simp] theorem putDie_upsets (s : State) (d : Nat) (x : Die) : (putDie s d x).upsets = s.upsets := rfl
@[simp] theorem putDie_turn (s : State) (d : Nat) (x : Die) : (putDie s d x).turn = s.turn := rfl
@[simp] theorem putDie_cur (s : State) (d : Nat) (x : Die) : (putDie s d x).cur = s.cur := rfl
@[simp] theorem putDie_clock (s : State) (d : Nat) (x : Die) : (putDie s d x).clock = s.clock := rfl
@[simp] theorem putDie_freeCount (s : State) (d : Nat) (x : Die) : (putDie s d x).freeCount = s.freeCount := rfl
@[simp] theorem putDie_nextId (s : State) (d : Nat) (x : Die) : (putDie s d x).nextId = s.nextId := rfl
@[simp] theorem putDie_mem (s : State) (d : Nat) (x : Die) : (putDie s d x).mem = s.mem := rfl
@[simp] theorem putDie_strands (s : State) (d : Nat) (x : Die) : (putDie s d x).strands = s.strands := rfl
@[simp] theorem putDie_cells (s : State) (d : Nat) (x : Die) : (putDie s d x).cells = s.cells := rfl
@[simp] theorem putDie_ctxs (s : State) (d : Nat) (x : Die) : (putDie s d x).ctxs = s.ctxs := rfl
@[simp] theorem putDie_dies (s : State) (d : Nat) (x : Die) : (putDie s d x).dies = s.dies.set (Fin.ofNat 4 d) x := rfl
@[simp] theorem putDie_hub (s : State) (d : Nat) (x : Die) : (putDie s d x).hub = s.hub := rfl

/-! ## `modDie` -/

@[simp] theorem modDie_schedule (s : State) (d : Nat) (f : Die → Die) : (modDie s d f).schedule = s.schedule := rfl
@[simp] theorem modDie_upsets (s : State) (d : Nat) (f : Die → Die) : (modDie s d f).upsets = s.upsets := rfl
@[simp] theorem modDie_turn (s : State) (d : Nat) (f : Die → Die) : (modDie s d f).turn = s.turn := rfl
@[simp] theorem modDie_cur (s : State) (d : Nat) (f : Die → Die) : (modDie s d f).cur = s.cur := rfl
@[simp] theorem modDie_clock (s : State) (d : Nat) (f : Die → Die) : (modDie s d f).clock = s.clock := rfl
@[simp] theorem modDie_freeCount (s : State) (d : Nat) (f : Die → Die) : (modDie s d f).freeCount = s.freeCount := rfl
@[simp] theorem modDie_nextId (s : State) (d : Nat) (f : Die → Die) : (modDie s d f).nextId = s.nextId := rfl
@[simp] theorem modDie_mem (s : State) (d : Nat) (f : Die → Die) : (modDie s d f).mem = s.mem := rfl
@[simp] theorem modDie_strands (s : State) (d : Nat) (f : Die → Die) : (modDie s d f).strands = s.strands := rfl
@[simp] theorem modDie_cells (s : State) (d : Nat) (f : Die → Die) : (modDie s d f).cells = s.cells := rfl
@[simp] theorem modDie_ctxs (s : State) (d : Nat) (f : Die → Die) : (modDie s d f).ctxs = s.ctxs := rfl
@[simp] theorem modDie_dies (s : State) (d : Nat) (f : Die → Die) : (modDie s d f).dies = s.dies.set (Fin.ofNat 4 d) (f (getDie s d)) := rfl
@[simp] theorem modDie_hub (s : State) (d : Nat) (f : Die → Die) : (modDie s d f).hub = s.hub := rfl

/-! ## `modCell` -/

@[simp] theorem modCell_schedule (s : State) (c : Nat) (f : Cell → Cell) : (modCell s c f).schedule = s.schedule := rfl
@[simp] theorem modCell_upsets (s : State) (c : Nat) (f : Cell → Cell) : (modCell s c f).upsets = s.upsets := rfl
@[simp] theorem modCell_turn (s : State) (c : Nat) (f : Cell → Cell) : (modCell s c f).turn = s.turn := rfl
@[simp] theorem modCell_cur (s : State) (c : Nat) (f : Cell → Cell) : (modCell s c f).cur = s.cur := rfl
@[simp] theorem modCell_clock (s : State) (c : Nat) (f : Cell → Cell) : (modCell s c f).clock = s.clock := rfl
@[simp] theorem modCell_freeCount (s : State) (c : Nat) (f : Cell → Cell) : (modCell s c f).freeCount = s.freeCount := rfl
@[simp] theorem modCell_nextId (s : State) (c : Nat) (f : Cell → Cell) : (modCell s c f).nextId = s.nextId := rfl
@[simp] theorem modCell_mem (s : State) (c : Nat) (f : Cell → Cell) : (modCell s c f).mem = s.mem := rfl
@[simp] theorem modCell_strands (s : State) (c : Nat) (f : Cell → Cell) : (modCell s c f).strands = s.strands := rfl
@[simp] theorem modCell_cells (s : State) (c : Nat) (f : Cell → Cell) : (modCell s c f).cells = fset s.cells c (f (getCell s c)) := rfl
@[simp] theorem modCell_ctxs (s : State) (c : Nat) (f : Cell → Cell) : (modCell s c f).ctxs = s.ctxs := rfl
@[simp] theorem modCell_dies (s : State) (c : Nat) (f : Cell → Cell) : (modCell s c f).dies = s.dies := rfl
@[simp] theorem modCell_hub (s : State) (c : Nat) (f : Cell → Cell) : (modCell s c f).hub = s.hub := rfl

/-! ## `modCtx` -/

@[simp] theorem modCtx_schedule (s : State) (c p : Nat) (f : Context → Context) : (modCtx s c p f).schedule = s.schedule := rfl
@[simp] theorem modCtx_upsets (s : State) (c p : Nat) (f : Context → Context) : (modCtx s c p f).upsets = s.upsets := rfl
@[simp] theorem modCtx_turn (s : State) (c p : Nat) (f : Context → Context) : (modCtx s c p f).turn = s.turn := rfl
@[simp] theorem modCtx_cur (s : State) (c p : Nat) (f : Context → Context) : (modCtx s c p f).cur = s.cur := rfl
@[simp] theorem modCtx_clock (s : State) (c p : Nat) (f : Context → Context) : (modCtx s c p f).clock = s.clock := rfl
@[simp] theorem modCtx_freeCount (s : State) (c p : Nat) (f : Context → Context) : (modCtx s c p f).freeCount = s.freeCount := rfl
@[simp] theorem modCtx_nextId (s : State) (c p : Nat) (f : Context → Context) : (modCtx s c p f).nextId = s.nextId := rfl
@[simp] theorem modCtx_mem (s : State) (c p : Nat) (f : Context → Context) : (modCtx s c p f).mem = s.mem := rfl
@[simp] theorem modCtx_strands (s : State) (c p : Nat) (f : Context → Context) : (modCtx s c p f).strands = s.strands := rfl
@[simp] theorem modCtx_cells (s : State) (c p : Nat) (f : Context → Context) : (modCtx s c p f).cells = s.cells := rfl
@[simp] theorem modCtx_ctxs (s : State) (c p : Nat) (f : Context → Context) : (modCtx s c p f).ctxs = fset s.ctxs (ctxKey c p) (f (getCtx s c p)) := rfl
@[simp] theorem modCtx_dies (s : State) (c p : Nat) (f : Context → Context) : (modCtx s c p f).dies = s.dies := rfl
@[simp] theorem modCtx_hub (s : State) (c p : Nat) (f : Context → Context) : (modCtx s c p f).hub = s.hub := rfl

/-! ## `modHub` -/

@[simp] theorem modHub_schedule (s : State) (f : Hub → Hub) : (modHub s f).schedule = s.schedule := rfl
@[simp] theorem modHub_upsets (s : State) (f : Hub → Hub) : (modHub s f).upsets = s.upsets := rfl
@[simp] theorem modHub_turn (s : State) (f : Hub → Hub) : (modHub s f).turn = s.turn := rfl
@[simp] theorem modHub_cur (s : State) (f : Hub → Hub) : (modHub s f).cur = s.cur := rfl
@[simp] theorem modHub_clock (s : State) (f : Hub → Hub) : (modHub s f).clock = s.clock := rfl
@[simp] theorem modHub_freeCount (s : State) (f : Hub → Hub) : (modHub s f).freeCount = s.freeCount := rfl
@[simp] theorem modHub_nextId (s : State) (f : Hub → Hub) : (modHub s f).nextId = s.nextId := rfl
@[simp] theorem modHub_mem (s : State) (f : Hub → Hub) : (modHub s f).mem = s.mem := rfl
@[simp] theorem modHub_strands (s : State) (f : Hub → Hub) : (modHub s f).strands = s.strands := rfl
@[simp] theorem modHub_cells (s : State) (f : Hub → Hub) : (modHub s f).cells = s.cells := rfl
@[simp] theorem modHub_ctxs (s : State) (f : Hub → Hub) : (modHub s f).ctxs = s.ctxs := rfl
@[simp] theorem modHub_dies (s : State) (f : Hub → Hub) : (modHub s f).dies = s.dies := rfl
@[simp] theorem modHub_hub (s : State) (f : Hub → Hub) : (modHub s f).hub = f s.hub := rfl

/-! ## `putPart` -/

@[simp] theorem putPart_schedule (s : State) (p : Nat) (x : Partition) : (putPart s p x).schedule = s.schedule := rfl
@[simp] theorem putPart_upsets (s : State) (p : Nat) (x : Partition) : (putPart s p x).upsets = s.upsets := rfl
@[simp] theorem putPart_turn (s : State) (p : Nat) (x : Partition) : (putPart s p x).turn = s.turn := rfl
@[simp] theorem putPart_cur (s : State) (p : Nat) (x : Partition) : (putPart s p x).cur = s.cur := rfl
@[simp] theorem putPart_clock (s : State) (p : Nat) (x : Partition) : (putPart s p x).clock = s.clock := rfl
@[simp] theorem putPart_freeCount (s : State) (p : Nat) (x : Partition) : (putPart s p x).freeCount = s.freeCount := rfl
@[simp] theorem putPart_nextId (s : State) (p : Nat) (x : Partition) : (putPart s p x).nextId = s.nextId := rfl
@[simp] theorem putPart_mem (s : State) (p : Nat) (x : Partition) : (putPart s p x).mem = s.mem := rfl
@[simp] theorem putPart_strands (s : State) (p : Nat) (x : Partition) : (putPart s p x).strands = s.strands := rfl
@[simp] theorem putPart_cells (s : State) (p : Nat) (x : Partition) : (putPart s p x).cells = s.cells := rfl
@[simp] theorem putPart_ctxs (s : State) (p : Nat) (x : Partition) : (putPart s p x).ctxs = s.ctxs := rfl
@[simp] theorem putPart_dies (s : State) (p : Nat) (x : Partition) : (putPart s p x).dies = s.dies := rfl
@[simp] theorem putPart_hub_rdy (s : State) (p : Nat) (x : Partition) : (putPart s p x).hub.rdy = s.hub.rdy := rfl
@[simp] theorem putPart_hub_halt (s : State) (p : Nat) (x : Partition) : (putPart s p x).hub.halt = s.hub.halt := rfl
@[simp] theorem putPart_hub_linkUp (s : State) (p : Nat) (x : Partition) : (putPart s p x).hub.linkUp = s.hub.linkUp := rfl
@[simp] theorem putPart_hub_pkg (s : State) (p : Nat) (x : Partition) : (putPart s p x).hub.pkg = s.hub.pkg := rfl
@[simp] theorem putPart_hub_routes (s : State) (p : Nat) (x : Partition) : (putPart s p x).hub.routes = s.hub.routes := rfl
@[simp] theorem putPart_hub_portsUp (s : State) (p : Nat) (x : Partition) : (putPart s p x).hub.portsUp = s.hub.portsUp := rfl
@[simp] theorem putPart_hub_replays (s : State) (p : Nat) (x : Partition) : (putPart s p x).hub.replays = s.hub.replays := rfl
@[simp] theorem putPart_hub_stFrames (s : State) (p : Nat) (x : Partition) : (putPart s p x).hub.stFrames = s.hub.stFrames := rfl
@[simp] theorem putPart_hub_owners (s : State) (p : Nat) (x : Partition) : (putPart s p x).hub.owners = s.hub.owners := rfl
@[simp] theorem putPart_hub_keys (s : State) (p : Nat) (x : Partition) : (putPart s p x).hub.keys = s.hub.keys := rfl
@[simp] theorem putPart_hub_keyGen (s : State) (p : Nat) (x : Partition) : (putPart s p x).hub.keyGen = s.hub.keyGen := rfl
@[simp] theorem putPart_hub_deadFrames (s : State) (p : Nat) (x : Partition) : (putPart s p x).hub.deadFrames = s.hub.deadFrames := rfl
@[simp] theorem putPart_hub_unmarked (s : State) (p : Nat) (x : Partition) : (putPart s p x).hub.unmarked = s.hub.unmarked := rfl
@[simp] theorem putPart_hub_parts (s : State) (p : Nat) (x : Partition) : (putPart s p x).hub.parts = fset s.hub.parts p x := rfl
@[simp] theorem putPart_hub_pser (s : State) (p : Nat) (x : Partition) : (putPart s p x).hub.pser = s.hub.pser := rfl
@[simp] theorem putPart_hub_mseq (s : State) (p : Nat) (x : Partition) : (putPart s p x).hub.mseq = s.hub.mseq := rfl
@[simp] theorem putPart_hub_sseq (s : State) (p : Nat) (x : Partition) : (putPart s p x).hub.sseq = s.hub.sseq := rfl
@[simp] theorem putPart_hub_chainHead (s : State) (p : Nat) (x : Partition) : (putPart s p x).hub.chainHead = s.hub.chainHead := rfl
@[simp] theorem putPart_hub_scrubs (s : State) (p : Nat) (x : Partition) : (putPart s p x).hub.scrubs = s.hub.scrubs := rfl
@[simp] theorem putPart_hub_invals (s : State) (p : Nat) (x : Partition) : (putPart s p x).hub.invals = s.hub.invals := rfl
@[simp] theorem putPart_hub_records (s : State) (p : Nat) (x : Partition) : (putPart s p x).hub.records = s.hub.records := rfl
@[simp] theorem putPart_hub_seals (s : State) (p : Nat) (x : Partition) : (putPart s p x).hub.seals = s.hub.seals := rfl
@[simp] theorem putPart_hub_unsealed (s : State) (p : Nat) (x : Partition) : (putPart s p x).hub.unsealed = s.hub.unsealed := rfl
@[simp] theorem putPart_hub_sigIndex (s : State) (p : Nat) (x : Partition) : (putPart s p x).hub.sigIndex = s.hub.sigIndex := rfl
@[simp] theorem putPart_hub_lastRecord (s : State) (p : Nat) (x : Partition) : (putPart s p x).hub.lastRecord = s.hub.lastRecord := rfl
@[simp] theorem putPart_hub_fns (s : State) (p : Nat) (x : Partition) : (putPart s p x).hub.fns = s.hub.fns := rfl
@[simp] theorem putPart_hub_cmd (s : State) (p : Nat) (x : Partition) : (putPart s p x).hub.cmd = s.hub.cmd := rfl
@[simp] theorem putPart_hub_reply (s : State) (p : Nat) (x : Partition) : (putPart s p x).hub.reply = s.hub.reply := rfl
@[simp] theorem putPart_hub_busy (s : State) (p : Nat) (x : Partition) : (putPart s p x).hub.busy = s.hub.busy := rfl
@[simp] theorem putPart_hub_code (s : State) (p : Nat) (x : Partition) : (putPart s p x).hub.code = s.hub.code := rfl
@[simp] theorem putPart_hub_readyReply (s : State) (p : Nat) (x : Partition) : (putPart s p x).hub.readyReply = s.hub.readyReply := rfl
@[simp] theorem putPart_hub_staged (s : State) (p : Nat) (x : Partition) : (putPart s p x).hub.staged = s.hub.staged := rfl
@[simp] theorem putPart_hub_nextImage (s : State) (p : Nat) (x : Partition) : (putPart s p x).hub.nextImage = s.hub.nextImage := rfl
@[simp] theorem putPart_hub_image (s : State) (p : Nat) (x : Partition) : (putPart s p x).hub.image = s.hub.image := rfl
@[simp] theorem putPart_hub_report (s : State) (p : Nat) (x : Partition) : (putPart s p x).hub.report = s.hub.report := rfl
@[simp] theorem putPart_hub_cap (s : State) (p : Nat) (x : Partition) : (putPart s p x).hub.cap = s.hub.cap := rfl
@[simp] theorem putPart_hub_reserve (s : State) (p : Nat) (x : Partition) : (putPart s p x).hub.reserve = s.hub.reserve := rfl
@[simp] theorem putPart_hub_hubTemp (s : State) (p : Nat) (x : Partition) : (putPart s p x).hub.hubTemp = s.hub.hubTemp := rfl
@[simp] theorem putPart_hub_inlet (s : State) (p : Nat) (x : Partition) : (putPart s p x).hub.inlet = s.hub.inlet := rfl
@[simp] theorem putPart_hub_flow (s : State) (p : Nat) (x : Partition) : (putPart s p x).hub.flow = s.hub.flow := rfl
@[simp] theorem putPart_hub_fenceStore (s : State) (p : Nat) (x : Partition) : (putPart s p x).hub.fenceStore = s.hub.fenceStore := rfl
@[simp] theorem putPart_hub_standbyLost (s : State) (p : Nat) (x : Partition) : (putPart s p x).hub.standbyLost = s.hub.standbyLost := rfl
@[simp] theorem putPart_hub_log (s : State) (p : Nat) (x : Partition) : (putPart s p x).hub.log = s.hub.log := rfl
@[simp] theorem putPart_hub_remotes (s : State) (p : Nat) (x : Partition) : (putPart s p x).hub.remotes = s.hub.remotes := rfl
@[simp] theorem putPart_hub_away (s : State) (p : Nat) (x : Partition) : (putPart s p x).hub.away = s.hub.away := rfl
@[simp] theorem putPart_hub_answers (s : State) (p : Nat) (x : Partition) : (putPart s p x).hub.answers = s.hub.answers := rfl
@[simp] theorem putPart_hub_adds (s : State) (p : Nat) (x : Partition) : (putPart s p x).hub.adds = s.hub.adds := rfl
@[simp] theorem putPart_hub_mixed (s : State) (p : Nat) (x : Partition) : (putPart s p x).hub.mixed = s.hub.mixed := rfl
@[simp] theorem putPart_hub_fuses (s : State) (p : Nat) (x : Partition) : (putPart s p x).hub.fuses = s.hub.fuses := rfl
@[simp] theorem putPart_hub_bputs (s : State) (p : Nat) (x : Partition) : (putPart s p x).hub.bputs = s.hub.bputs := rfl
@[simp] theorem putPart_hub_net (s : State) (p : Nat) (x : Partition) : (putPart s p x).hub.net = s.hub.net := rfl
@[simp] theorem putPart_hub_linePoison (s : State) (p : Nat) (x : Partition) : (putPart s p x).hub.linePoison = s.hub.linePoison := rfl
@[simp] theorem putPart_hub_period (s : State) (p : Nat) (x : Partition) : (putPart s p x).hub.period = s.hub.period := rfl
@[simp] theorem putPart_hub_creating (s : State) (p : Nat) (x : Partition) : (putPart s p x).hub.creating = s.hub.creating := rfl
@[simp] theorem putPart_hub_ending (s : State) (p : Nat) (x : Partition) : (putPart s p x).hub.ending = s.hub.ending := rfl
@[simp] theorem putPart_hub_drained (s : State) (p : Nat) (x : Partition) : (putPart s p x).hub.drained = s.hub.drained := rfl
@[simp] theorem putPart_hub_shut (s : State) (p : Nat) (x : Partition) : (putPart s p x).hub.shut = s.hub.shut := rfl

/-! ## `modPart` -/

@[simp] theorem modPart_schedule (s : State) (p : Nat) (f : Partition → Partition) : (modPart s p f).schedule = s.schedule := rfl
@[simp] theorem modPart_upsets (s : State) (p : Nat) (f : Partition → Partition) : (modPart s p f).upsets = s.upsets := rfl
@[simp] theorem modPart_turn (s : State) (p : Nat) (f : Partition → Partition) : (modPart s p f).turn = s.turn := rfl
@[simp] theorem modPart_cur (s : State) (p : Nat) (f : Partition → Partition) : (modPart s p f).cur = s.cur := rfl
@[simp] theorem modPart_clock (s : State) (p : Nat) (f : Partition → Partition) : (modPart s p f).clock = s.clock := rfl
@[simp] theorem modPart_freeCount (s : State) (p : Nat) (f : Partition → Partition) : (modPart s p f).freeCount = s.freeCount := rfl
@[simp] theorem modPart_nextId (s : State) (p : Nat) (f : Partition → Partition) : (modPart s p f).nextId = s.nextId := rfl
@[simp] theorem modPart_mem (s : State) (p : Nat) (f : Partition → Partition) : (modPart s p f).mem = s.mem := rfl
@[simp] theorem modPart_strands (s : State) (p : Nat) (f : Partition → Partition) : (modPart s p f).strands = s.strands := rfl
@[simp] theorem modPart_cells (s : State) (p : Nat) (f : Partition → Partition) : (modPart s p f).cells = s.cells := rfl
@[simp] theorem modPart_ctxs (s : State) (p : Nat) (f : Partition → Partition) : (modPart s p f).ctxs = s.ctxs := rfl
@[simp] theorem modPart_dies (s : State) (p : Nat) (f : Partition → Partition) : (modPart s p f).dies = s.dies := rfl
@[simp] theorem modPart_hub_rdy (s : State) (p : Nat) (f : Partition → Partition) : (modPart s p f).hub.rdy = s.hub.rdy := rfl
@[simp] theorem modPart_hub_halt (s : State) (p : Nat) (f : Partition → Partition) : (modPart s p f).hub.halt = s.hub.halt := rfl
@[simp] theorem modPart_hub_linkUp (s : State) (p : Nat) (f : Partition → Partition) : (modPart s p f).hub.linkUp = s.hub.linkUp := rfl
@[simp] theorem modPart_hub_pkg (s : State) (p : Nat) (f : Partition → Partition) : (modPart s p f).hub.pkg = s.hub.pkg := rfl
@[simp] theorem modPart_hub_routes (s : State) (p : Nat) (f : Partition → Partition) : (modPart s p f).hub.routes = s.hub.routes := rfl
@[simp] theorem modPart_hub_portsUp (s : State) (p : Nat) (f : Partition → Partition) : (modPart s p f).hub.portsUp = s.hub.portsUp := rfl
@[simp] theorem modPart_hub_replays (s : State) (p : Nat) (f : Partition → Partition) : (modPart s p f).hub.replays = s.hub.replays := rfl
@[simp] theorem modPart_hub_stFrames (s : State) (p : Nat) (f : Partition → Partition) : (modPart s p f).hub.stFrames = s.hub.stFrames := rfl
@[simp] theorem modPart_hub_owners (s : State) (p : Nat) (f : Partition → Partition) : (modPart s p f).hub.owners = s.hub.owners := rfl
@[simp] theorem modPart_hub_keys (s : State) (p : Nat) (f : Partition → Partition) : (modPart s p f).hub.keys = s.hub.keys := rfl
@[simp] theorem modPart_hub_keyGen (s : State) (p : Nat) (f : Partition → Partition) : (modPart s p f).hub.keyGen = s.hub.keyGen := rfl
@[simp] theorem modPart_hub_deadFrames (s : State) (p : Nat) (f : Partition → Partition) : (modPart s p f).hub.deadFrames = s.hub.deadFrames := rfl
@[simp] theorem modPart_hub_unmarked (s : State) (p : Nat) (f : Partition → Partition) : (modPart s p f).hub.unmarked = s.hub.unmarked := rfl
@[simp] theorem modPart_hub_parts (s : State) (p : Nat) (f : Partition → Partition) : (modPart s p f).hub.parts = fset s.hub.parts p (f (getPart s p)) := rfl
@[simp] theorem modPart_hub_pser (s : State) (p : Nat) (f : Partition → Partition) : (modPart s p f).hub.pser = s.hub.pser := rfl
@[simp] theorem modPart_hub_mseq (s : State) (p : Nat) (f : Partition → Partition) : (modPart s p f).hub.mseq = s.hub.mseq := rfl
@[simp] theorem modPart_hub_sseq (s : State) (p : Nat) (f : Partition → Partition) : (modPart s p f).hub.sseq = s.hub.sseq := rfl
@[simp] theorem modPart_hub_chainHead (s : State) (p : Nat) (f : Partition → Partition) : (modPart s p f).hub.chainHead = s.hub.chainHead := rfl
@[simp] theorem modPart_hub_scrubs (s : State) (p : Nat) (f : Partition → Partition) : (modPart s p f).hub.scrubs = s.hub.scrubs := rfl
@[simp] theorem modPart_hub_invals (s : State) (p : Nat) (f : Partition → Partition) : (modPart s p f).hub.invals = s.hub.invals := rfl
@[simp] theorem modPart_hub_records (s : State) (p : Nat) (f : Partition → Partition) : (modPart s p f).hub.records = s.hub.records := rfl
@[simp] theorem modPart_hub_seals (s : State) (p : Nat) (f : Partition → Partition) : (modPart s p f).hub.seals = s.hub.seals := rfl
@[simp] theorem modPart_hub_unsealed (s : State) (p : Nat) (f : Partition → Partition) : (modPart s p f).hub.unsealed = s.hub.unsealed := rfl
@[simp] theorem modPart_hub_sigIndex (s : State) (p : Nat) (f : Partition → Partition) : (modPart s p f).hub.sigIndex = s.hub.sigIndex := rfl
@[simp] theorem modPart_hub_lastRecord (s : State) (p : Nat) (f : Partition → Partition) : (modPart s p f).hub.lastRecord = s.hub.lastRecord := rfl
@[simp] theorem modPart_hub_fns (s : State) (p : Nat) (f : Partition → Partition) : (modPart s p f).hub.fns = s.hub.fns := rfl
@[simp] theorem modPart_hub_cmd (s : State) (p : Nat) (f : Partition → Partition) : (modPart s p f).hub.cmd = s.hub.cmd := rfl
@[simp] theorem modPart_hub_reply (s : State) (p : Nat) (f : Partition → Partition) : (modPart s p f).hub.reply = s.hub.reply := rfl
@[simp] theorem modPart_hub_busy (s : State) (p : Nat) (f : Partition → Partition) : (modPart s p f).hub.busy = s.hub.busy := rfl
@[simp] theorem modPart_hub_code (s : State) (p : Nat) (f : Partition → Partition) : (modPart s p f).hub.code = s.hub.code := rfl
@[simp] theorem modPart_hub_readyReply (s : State) (p : Nat) (f : Partition → Partition) : (modPart s p f).hub.readyReply = s.hub.readyReply := rfl
@[simp] theorem modPart_hub_staged (s : State) (p : Nat) (f : Partition → Partition) : (modPart s p f).hub.staged = s.hub.staged := rfl
@[simp] theorem modPart_hub_nextImage (s : State) (p : Nat) (f : Partition → Partition) : (modPart s p f).hub.nextImage = s.hub.nextImage := rfl
@[simp] theorem modPart_hub_image (s : State) (p : Nat) (f : Partition → Partition) : (modPart s p f).hub.image = s.hub.image := rfl
@[simp] theorem modPart_hub_report (s : State) (p : Nat) (f : Partition → Partition) : (modPart s p f).hub.report = s.hub.report := rfl
@[simp] theorem modPart_hub_cap (s : State) (p : Nat) (f : Partition → Partition) : (modPart s p f).hub.cap = s.hub.cap := rfl
@[simp] theorem modPart_hub_reserve (s : State) (p : Nat) (f : Partition → Partition) : (modPart s p f).hub.reserve = s.hub.reserve := rfl
@[simp] theorem modPart_hub_hubTemp (s : State) (p : Nat) (f : Partition → Partition) : (modPart s p f).hub.hubTemp = s.hub.hubTemp := rfl
@[simp] theorem modPart_hub_inlet (s : State) (p : Nat) (f : Partition → Partition) : (modPart s p f).hub.inlet = s.hub.inlet := rfl
@[simp] theorem modPart_hub_flow (s : State) (p : Nat) (f : Partition → Partition) : (modPart s p f).hub.flow = s.hub.flow := rfl
@[simp] theorem modPart_hub_fenceStore (s : State) (p : Nat) (f : Partition → Partition) : (modPart s p f).hub.fenceStore = s.hub.fenceStore := rfl
@[simp] theorem modPart_hub_standbyLost (s : State) (p : Nat) (f : Partition → Partition) : (modPart s p f).hub.standbyLost = s.hub.standbyLost := rfl
@[simp] theorem modPart_hub_log (s : State) (p : Nat) (f : Partition → Partition) : (modPart s p f).hub.log = s.hub.log := rfl
@[simp] theorem modPart_hub_remotes (s : State) (p : Nat) (f : Partition → Partition) : (modPart s p f).hub.remotes = s.hub.remotes := rfl
@[simp] theorem modPart_hub_away (s : State) (p : Nat) (f : Partition → Partition) : (modPart s p f).hub.away = s.hub.away := rfl
@[simp] theorem modPart_hub_answers (s : State) (p : Nat) (f : Partition → Partition) : (modPart s p f).hub.answers = s.hub.answers := rfl
@[simp] theorem modPart_hub_adds (s : State) (p : Nat) (f : Partition → Partition) : (modPart s p f).hub.adds = s.hub.adds := rfl
@[simp] theorem modPart_hub_mixed (s : State) (p : Nat) (f : Partition → Partition) : (modPart s p f).hub.mixed = s.hub.mixed := rfl
@[simp] theorem modPart_hub_fuses (s : State) (p : Nat) (f : Partition → Partition) : (modPart s p f).hub.fuses = s.hub.fuses := rfl
@[simp] theorem modPart_hub_bputs (s : State) (p : Nat) (f : Partition → Partition) : (modPart s p f).hub.bputs = s.hub.bputs := rfl
@[simp] theorem modPart_hub_net (s : State) (p : Nat) (f : Partition → Partition) : (modPart s p f).hub.net = s.hub.net := rfl
@[simp] theorem modPart_hub_linePoison (s : State) (p : Nat) (f : Partition → Partition) : (modPart s p f).hub.linePoison = s.hub.linePoison := rfl
@[simp] theorem modPart_hub_period (s : State) (p : Nat) (f : Partition → Partition) : (modPart s p f).hub.period = s.hub.period := rfl
@[simp] theorem modPart_hub_creating (s : State) (p : Nat) (f : Partition → Partition) : (modPart s p f).hub.creating = s.hub.creating := rfl
@[simp] theorem modPart_hub_ending (s : State) (p : Nat) (f : Partition → Partition) : (modPart s p f).hub.ending = s.hub.ending := rfl
@[simp] theorem modPart_hub_drained (s : State) (p : Nat) (f : Partition → Partition) : (modPart s p f).hub.drained = s.hub.drained := rfl
@[simp] theorem modPart_hub_shut (s : State) (p : Nat) (f : Partition → Partition) : (modPart s p f).hub.shut = s.hub.shut := rfl

/-! ## `modFn` -/

@[simp] theorem modFn_schedule (s : State) (n : Nat) (f : Fn → Fn) : (modFn s n f).schedule = s.schedule := rfl
@[simp] theorem modFn_upsets (s : State) (n : Nat) (f : Fn → Fn) : (modFn s n f).upsets = s.upsets := rfl
@[simp] theorem modFn_turn (s : State) (n : Nat) (f : Fn → Fn) : (modFn s n f).turn = s.turn := rfl
@[simp] theorem modFn_cur (s : State) (n : Nat) (f : Fn → Fn) : (modFn s n f).cur = s.cur := rfl
@[simp] theorem modFn_clock (s : State) (n : Nat) (f : Fn → Fn) : (modFn s n f).clock = s.clock := rfl
@[simp] theorem modFn_freeCount (s : State) (n : Nat) (f : Fn → Fn) : (modFn s n f).freeCount = s.freeCount := rfl
@[simp] theorem modFn_nextId (s : State) (n : Nat) (f : Fn → Fn) : (modFn s n f).nextId = s.nextId := rfl
@[simp] theorem modFn_mem (s : State) (n : Nat) (f : Fn → Fn) : (modFn s n f).mem = s.mem := rfl
@[simp] theorem modFn_strands (s : State) (n : Nat) (f : Fn → Fn) : (modFn s n f).strands = s.strands := rfl
@[simp] theorem modFn_cells (s : State) (n : Nat) (f : Fn → Fn) : (modFn s n f).cells = s.cells := rfl
@[simp] theorem modFn_ctxs (s : State) (n : Nat) (f : Fn → Fn) : (modFn s n f).ctxs = s.ctxs := rfl
@[simp] theorem modFn_dies (s : State) (n : Nat) (f : Fn → Fn) : (modFn s n f).dies = s.dies := rfl
@[simp] theorem modFn_hub_rdy (s : State) (n : Nat) (f : Fn → Fn) : (modFn s n f).hub.rdy = s.hub.rdy := rfl
@[simp] theorem modFn_hub_halt (s : State) (n : Nat) (f : Fn → Fn) : (modFn s n f).hub.halt = s.hub.halt := rfl
@[simp] theorem modFn_hub_linkUp (s : State) (n : Nat) (f : Fn → Fn) : (modFn s n f).hub.linkUp = s.hub.linkUp := rfl
@[simp] theorem modFn_hub_pkg (s : State) (n : Nat) (f : Fn → Fn) : (modFn s n f).hub.pkg = s.hub.pkg := rfl
@[simp] theorem modFn_hub_routes (s : State) (n : Nat) (f : Fn → Fn) : (modFn s n f).hub.routes = s.hub.routes := rfl
@[simp] theorem modFn_hub_portsUp (s : State) (n : Nat) (f : Fn → Fn) : (modFn s n f).hub.portsUp = s.hub.portsUp := rfl
@[simp] theorem modFn_hub_replays (s : State) (n : Nat) (f : Fn → Fn) : (modFn s n f).hub.replays = s.hub.replays := rfl
@[simp] theorem modFn_hub_stFrames (s : State) (n : Nat) (f : Fn → Fn) : (modFn s n f).hub.stFrames = s.hub.stFrames := rfl
@[simp] theorem modFn_hub_owners (s : State) (n : Nat) (f : Fn → Fn) : (modFn s n f).hub.owners = s.hub.owners := rfl
@[simp] theorem modFn_hub_keys (s : State) (n : Nat) (f : Fn → Fn) : (modFn s n f).hub.keys = s.hub.keys := rfl
@[simp] theorem modFn_hub_keyGen (s : State) (n : Nat) (f : Fn → Fn) : (modFn s n f).hub.keyGen = s.hub.keyGen := rfl
@[simp] theorem modFn_hub_deadFrames (s : State) (n : Nat) (f : Fn → Fn) : (modFn s n f).hub.deadFrames = s.hub.deadFrames := rfl
@[simp] theorem modFn_hub_unmarked (s : State) (n : Nat) (f : Fn → Fn) : (modFn s n f).hub.unmarked = s.hub.unmarked := rfl
@[simp] theorem modFn_hub_parts (s : State) (n : Nat) (f : Fn → Fn) : (modFn s n f).hub.parts = s.hub.parts := rfl
@[simp] theorem modFn_hub_pser (s : State) (n : Nat) (f : Fn → Fn) : (modFn s n f).hub.pser = s.hub.pser := rfl
@[simp] theorem modFn_hub_mseq (s : State) (n : Nat) (f : Fn → Fn) : (modFn s n f).hub.mseq = s.hub.mseq := rfl
@[simp] theorem modFn_hub_sseq (s : State) (n : Nat) (f : Fn → Fn) : (modFn s n f).hub.sseq = s.hub.sseq := rfl
@[simp] theorem modFn_hub_chainHead (s : State) (n : Nat) (f : Fn → Fn) : (modFn s n f).hub.chainHead = s.hub.chainHead := rfl
@[simp] theorem modFn_hub_scrubs (s : State) (n : Nat) (f : Fn → Fn) : (modFn s n f).hub.scrubs = s.hub.scrubs := rfl
@[simp] theorem modFn_hub_invals (s : State) (n : Nat) (f : Fn → Fn) : (modFn s n f).hub.invals = s.hub.invals := rfl
@[simp] theorem modFn_hub_records (s : State) (n : Nat) (f : Fn → Fn) : (modFn s n f).hub.records = s.hub.records := rfl
@[simp] theorem modFn_hub_seals (s : State) (n : Nat) (f : Fn → Fn) : (modFn s n f).hub.seals = s.hub.seals := rfl
@[simp] theorem modFn_hub_unsealed (s : State) (n : Nat) (f : Fn → Fn) : (modFn s n f).hub.unsealed = s.hub.unsealed := rfl
@[simp] theorem modFn_hub_sigIndex (s : State) (n : Nat) (f : Fn → Fn) : (modFn s n f).hub.sigIndex = s.hub.sigIndex := rfl
@[simp] theorem modFn_hub_lastRecord (s : State) (n : Nat) (f : Fn → Fn) : (modFn s n f).hub.lastRecord = s.hub.lastRecord := rfl
@[simp] theorem modFn_hub_fns (s : State) (n : Nat) (f : Fn → Fn) : (modFn s n f).hub.fns = fset s.hub.fns n (f (getFn s n)) := rfl
@[simp] theorem modFn_hub_cmd (s : State) (n : Nat) (f : Fn → Fn) : (modFn s n f).hub.cmd = s.hub.cmd := rfl
@[simp] theorem modFn_hub_reply (s : State) (n : Nat) (f : Fn → Fn) : (modFn s n f).hub.reply = s.hub.reply := rfl
@[simp] theorem modFn_hub_busy (s : State) (n : Nat) (f : Fn → Fn) : (modFn s n f).hub.busy = s.hub.busy := rfl
@[simp] theorem modFn_hub_code (s : State) (n : Nat) (f : Fn → Fn) : (modFn s n f).hub.code = s.hub.code := rfl
@[simp] theorem modFn_hub_readyReply (s : State) (n : Nat) (f : Fn → Fn) : (modFn s n f).hub.readyReply = s.hub.readyReply := rfl
@[simp] theorem modFn_hub_staged (s : State) (n : Nat) (f : Fn → Fn) : (modFn s n f).hub.staged = s.hub.staged := rfl
@[simp] theorem modFn_hub_nextImage (s : State) (n : Nat) (f : Fn → Fn) : (modFn s n f).hub.nextImage = s.hub.nextImage := rfl
@[simp] theorem modFn_hub_image (s : State) (n : Nat) (f : Fn → Fn) : (modFn s n f).hub.image = s.hub.image := rfl
@[simp] theorem modFn_hub_report (s : State) (n : Nat) (f : Fn → Fn) : (modFn s n f).hub.report = s.hub.report := rfl
@[simp] theorem modFn_hub_cap (s : State) (n : Nat) (f : Fn → Fn) : (modFn s n f).hub.cap = s.hub.cap := rfl
@[simp] theorem modFn_hub_reserve (s : State) (n : Nat) (f : Fn → Fn) : (modFn s n f).hub.reserve = s.hub.reserve := rfl
@[simp] theorem modFn_hub_hubTemp (s : State) (n : Nat) (f : Fn → Fn) : (modFn s n f).hub.hubTemp = s.hub.hubTemp := rfl
@[simp] theorem modFn_hub_inlet (s : State) (n : Nat) (f : Fn → Fn) : (modFn s n f).hub.inlet = s.hub.inlet := rfl
@[simp] theorem modFn_hub_flow (s : State) (n : Nat) (f : Fn → Fn) : (modFn s n f).hub.flow = s.hub.flow := rfl
@[simp] theorem modFn_hub_fenceStore (s : State) (n : Nat) (f : Fn → Fn) : (modFn s n f).hub.fenceStore = s.hub.fenceStore := rfl
@[simp] theorem modFn_hub_standbyLost (s : State) (n : Nat) (f : Fn → Fn) : (modFn s n f).hub.standbyLost = s.hub.standbyLost := rfl
@[simp] theorem modFn_hub_log (s : State) (n : Nat) (f : Fn → Fn) : (modFn s n f).hub.log = s.hub.log := rfl
@[simp] theorem modFn_hub_remotes (s : State) (n : Nat) (f : Fn → Fn) : (modFn s n f).hub.remotes = s.hub.remotes := rfl
@[simp] theorem modFn_hub_away (s : State) (n : Nat) (f : Fn → Fn) : (modFn s n f).hub.away = s.hub.away := rfl
@[simp] theorem modFn_hub_answers (s : State) (n : Nat) (f : Fn → Fn) : (modFn s n f).hub.answers = s.hub.answers := rfl
@[simp] theorem modFn_hub_adds (s : State) (n : Nat) (f : Fn → Fn) : (modFn s n f).hub.adds = s.hub.adds := rfl
@[simp] theorem modFn_hub_mixed (s : State) (n : Nat) (f : Fn → Fn) : (modFn s n f).hub.mixed = s.hub.mixed := rfl
@[simp] theorem modFn_hub_fuses (s : State) (n : Nat) (f : Fn → Fn) : (modFn s n f).hub.fuses = s.hub.fuses := rfl
@[simp] theorem modFn_hub_bputs (s : State) (n : Nat) (f : Fn → Fn) : (modFn s n f).hub.bputs = s.hub.bputs := rfl
@[simp] theorem modFn_hub_net (s : State) (n : Nat) (f : Fn → Fn) : (modFn s n f).hub.net = s.hub.net := rfl
@[simp] theorem modFn_hub_linePoison (s : State) (n : Nat) (f : Fn → Fn) : (modFn s n f).hub.linePoison = s.hub.linePoison := rfl
@[simp] theorem modFn_hub_period (s : State) (n : Nat) (f : Fn → Fn) : (modFn s n f).hub.period = s.hub.period := rfl
@[simp] theorem modFn_hub_creating (s : State) (n : Nat) (f : Fn → Fn) : (modFn s n f).hub.creating = s.hub.creating := rfl
@[simp] theorem modFn_hub_ending (s : State) (n : Nat) (f : Fn → Fn) : (modFn s n f).hub.ending = s.hub.ending := rfl
@[simp] theorem modFn_hub_drained (s : State) (n : Nat) (f : Fn → Fn) : (modFn s n f).hub.drained = s.hub.drained := rfl
@[simp] theorem modFn_hub_shut (s : State) (n : Nat) (f : Fn → Fn) : (modFn s n f).hub.shut = s.hub.shut := rfl

/-! ## `putEng` -/

@[simp] theorem putEng_uid (st : Strand) (e : Eng) (x : EngState) : (putEng st e x).uid = st.uid := rfl
@[simp] theorem putEng_part (st : Strand) (e : Eng) (x : EngState) : (putEng st e x).part = st.part := rfl
@[simp] theorem putEng_sid (st : Strand) (e : Eng) (x : EngState) : (putEng st e x).sid = st.sid := rfl
@[simp] theorem putEng_emask (st : Strand) (e : Eng) (x : EngState) : (putEng st e x).emask = st.emask := rfl
@[simp] theorem putEng_overlay (st : Strand) (e : Eng) (x : EngState) : (putEng st e x).overlay = st.overlay := rfl
@[simp] theorem putEng_g (st : Strand) (e : Eng) (x : EngState) : (putEng st e x).g = st.g := rfl
@[simp] theorem putEng_a (st : Strand) (e : Eng) (x : EngState) : (putEng st e x).a = st.a := rfl
@[simp] theorem putEng_b (st : Strand) (e : Eng) (x : EngState) : (putEng st e x).b = st.b := rfl
@[simp] theorem putEng_v (st : Strand) (e : Eng) (x : EngState) : (putEng st e x).v = st.v := rfl
@[simp] theorem putEng_sd (st : Strand) (e : Eng) (x : EngState) : (putEng st e x).sd = st.sd := rfl
@[simp] theorem putEng_em (st : Strand) (e : Eng) (x : EngState) : (putEng st e x).em = st.em := rfl
@[simp] theorem putEng_cm (st : Strand) (e : Eng) (x : EngState) : (putEng st e x).cm = st.cm := rfl
@[simp] theorem putEng_saved (st : Strand) (e : Eng) (x : EngState) : (putEng st e x).saved = st.saved := rfl
@[simp] theorem putEng_poisoned (st : Strand) (e : Eng) (x : EngState) : (putEng st e x).poisoned = st.poisoned := rfl
@[simp] theorem putEng_fresh (st : Strand) (e : Eng) (x : EngState) : (putEng st e x).fresh = st.fresh := rfl
@[simp] theorem putEng_pending (st : Strand) (e : Eng) (x : EngState) : (putEng st e x).pending = st.pending := rfl
@[simp] theorem putEng_free (st : Strand) (e : Eng) (x : EngState) : (putEng st e x).free = st.free := rfl
@[simp] theorem putEng_engs (st : Strand) (e : Eng) (x : EngState) : (putEng st e x).engs = st.engs.set (Eng.idx e) x := rfl
@[simp] theorem putEng_lq (st : Strand) (e : Eng) (x : EngState) : (putEng st e x).lq = st.lq := rfl
@[simp] theorem putEng_sq (st : Strand) (e : Eng) (x : EngState) : (putEng st e x).sq = st.sq := rfl
@[simp] theorem putEng_iql (st : Strand) (e : Eng) (x : EngState) : (putEng st e x).iql = st.iql := rfl
@[simp] theorem putEng_iqs (st : Strand) (e : Eng) (x : EngState) : (putEng st e x).iqs = st.iqs := rfl
@[simp] theorem putEng_fiq (st : Strand) (e : Eng) (x : EngState) : (putEng st e x).fiq = st.fiq := rfl
@[simp] theorem putEng_qL (st : Strand) (e : Eng) (x : EngState) : (putEng st e x).qL = st.qL := rfl
@[simp] theorem putEng_qS (st : Strand) (e : Eng) (x : EngState) : (putEng st e x).qS = st.qS := rfl
@[simp] theorem putEng_qV (st : Strand) (e : Eng) (x : EngState) : (putEng st e x).qV = st.qV := rfl
@[simp] theorem putEng_qM (st : Strand) (e : Eng) (x : EngState) : (putEng st e x).qM = st.qM := rfl
@[simp] theorem putEng_vcq (st : Strand) (e : Eng) (x : EngState) : (putEng st e x).vcq = st.vcq := rfl
@[simp] theorem putEng_rpq (st : Strand) (e : Eng) (x : EngState) : (putEng st e x).rpq = st.rpq := rfl
@[simp] theorem putEng_rps (st : Strand) (e : Eng) (x : EngState) : (putEng st e x).rps = st.rps := rfl
@[simp] theorem putEng_tok (st : Strand) (e : Eng) (x : EngState) : (putEng st e x).tok = st.tok := rfl
@[simp] theorem putEng_accs (st : Strand) (e : Eng) (x : EngState) : (putEng st e x).accs = st.accs := rfl
@[simp] theorem putEng_stores (st : Strand) (e : Eng) (x : EngState) : (putEng st e x).stores = st.stores := rfl
@[simp] theorem putEng_out (st : Strand) (e : Eng) (x : EngState) : (putEng st e x).out = st.out := rfl
@[simp] theorem putEng_results (st : Strand) (e : Eng) (x : EngState) : (putEng st e x).results = st.results := rfl
@[simp] theorem putEng_calls (st : Strand) (e : Eng) (x : EngState) : (putEng st e x).calls = st.calls := rfl
@[simp] theorem putEng_om (st : Strand) (e : Eng) (x : EngState) : (putEng st e x).om = st.om := rfl
@[simp] theorem putEng_fills (st : Strand) (e : Eng) (x : EngState) : (putEng st e x).fills = st.fills := rfl
@[simp] theorem putEng_acc (st : Strand) (e : Eng) (x : EngState) : (putEng st e x).acc = st.acc := rfl
@[simp] theorem putEng_mwords (st : Strand) (e : Eng) (x : EngState) : (putEng st e x).mwords = st.mwords := rfl
@[simp] theorem putEng_drain (st : Strand) (e : Eng) (x : EngState) : (putEng st e x).drain = st.drain := rfl
@[simp] theorem putEng_grant (st : Strand) (e : Eng) (x : EngState) : (putEng st e x).grant = st.grant := rfl
@[simp] theorem putEng_nestShadow (st : Strand) (e : Eng) (x : EngState) : (putEng st e x).nestShadow = st.nestShadow := rfl
@[simp] theorem putEng_nestActive (st : Strand) (e : Eng) (x : EngState) : (putEng st e x).nestActive = st.nestActive := rfl
@[simp] theorem putEng_nest (st : Strand) (e : Eng) (x : EngState) : (putEng st e x).nest = st.nest := rfl
@[simp] theorem putEng_patStore (st : Strand) (e : Eng) (x : EngState) : (putEng st e x).patStore = st.patStore := rfl
@[simp] theorem putEng_patStart (st : Strand) (e : Eng) (x : EngState) : (putEng st e x).patStart = st.patStart := rfl
@[simp] theorem putEng_pat (st : Strand) (e : Eng) (x : EngState) : (putEng st e x).pat = st.pat := rfl
@[simp] theorem putEng_mpWords (st : Strand) (e : Eng) (x : EngState) : (putEng st e x).mpWords = st.mpWords := rfl
@[simp] theorem putEng_arrayUntil (st : Strand) (e : Eng) (x : EngState) : (putEng st e x).arrayUntil = st.arrayUntil := rfl
@[simp] theorem putEng_spill (st : Strand) (e : Eng) (x : EngState) : (putEng st e x).spill = st.spill := rfl
@[simp] theorem putEng_vHome (st : Strand) (e : Eng) (x : EngState) : (putEng st e x).vHome = st.vHome := rfl
@[simp] theorem putEng_vOut (st : Strand) (e : Eng) (x : EngState) : (putEng st e x).vOut = st.vOut := rfl
@[simp] theorem putEng_vWritten (st : Strand) (e : Eng) (x : EngState) : (putEng st e x).vWritten = st.vWritten := rfl
@[simp] theorem putEng_dead (st : Strand) (e : Eng) (x : EngState) : (putEng st e x).dead = st.dead := rfl
@[simp] theorem putEng_area (st : Strand) (e : Eng) (x : EngState) : (putEng st e x).area = st.area := rfl
@[simp] theorem putEng_pred (st : Strand) (e : Eng) (x : EngState) : (putEng st e x).pred = st.pred := rfl
@[simp] theorem putEng_lean (st : Strand) (e : Eng) (x : EngState) : (putEng st e x).lean = st.lean := rfl
@[simp] theorem putEng_slipw (st : Strand) (e : Eng) (x : EngState) : (putEng st e x).slipw = st.slipw := rfl
@[simp] theorem putEng_flags (st : Strand) (e : Eng) (x : EngState) : (putEng st e x).flags = st.flags := rfl
@[simp] theorem putEng_flagLog (st : Strand) (e : Eng) (x : EngState) : (putEng st e x).flagLog = st.flagLog := rfl
@[simp] theorem putEng_scc (st : Strand) (e : Eng) (x : EngState) : (putEng st e x).scc = st.scc := rfl
@[simp] theorem putEng_bindst (st : Strand) (e : Eng) (x : EngState) : (putEng st e x).bindst = st.bindst := rfl
@[simp] theorem putEng_oldBinds (st : Strand) (e : Eng) (x : EngState) : (putEng st e x).oldBinds = st.oldBinds := rfl
@[simp] theorem putEng_fltCause (st : Strand) (e : Eng) (x : EngState) : (putEng st e x).fltCause = st.fltCause := rfl
@[simp] theorem putEng_fltAddr (st : Strand) (e : Eng) (x : EngState) : (putEng st e x).fltAddr = st.fltAddr := rfl
@[simp] theorem putEng_fltPc (st : Strand) (e : Eng) (x : EngState) : (putEng st e x).fltPc = st.fltPc := rfl
@[simp] theorem putEng_perf (st : Strand) (e : Eng) (x : EngState) : (putEng st e x).perf = st.perf := rfl
@[simp] theorem putEng_frozen (st : Strand) (e : Eng) (x : EngState) : (putEng st e x).frozen = st.frozen := rfl
@[simp] theorem putEng_faults (st : Strand) (e : Eng) (x : EngState) : (putEng st e x).faults = st.faults := rfl
@[simp] theorem putEng_delivered (st : Strand) (e : Eng) (x : EngState) : (putEng st e x).delivered = st.delivered := rfl
@[simp] theorem putEng_triggered (st : Strand) (e : Eng) (x : EngState) : (putEng st e x).triggered = st.triggered := rfl
@[simp] theorem putEng_wait (st : Strand) (e : Eng) (x : EngState) : (putEng st e x).wait = st.wait := rfl
@[simp] theorem putEng_waitHeld (st : Strand) (e : Eng) (x : EngState) : (putEng st e x).waitHeld = st.waitHeld := rfl
@[simp] theorem putEng_flagRead (st : Strand) (e : Eng) (x : EngState) : (putEng st e x).flagRead = st.flagRead := rfl
@[simp] theorem putEng_endBlock (st : Strand) (e : Eng) (x : EngState) : (putEng st e x).endBlock = st.endBlock := rfl
@[simp] theorem putEng_block (st : Strand) (e : Eng) (x : EngState) : (putEng st e x).block = st.block := rfl
@[simp] theorem putEng_blockSince (st : Strand) (e : Eng) (x : EngState) : (putEng st e x).blockSince = st.blockSince := rfl
@[simp] theorem putEng_readySince (st : Strand) (e : Eng) (x : EngState) : (putEng st e x).readySince = st.readySince := rfl
@[simp] theorem putEng_resident (st : Strand) (e : Eng) (x : EngState) : (putEng st e x).resident = st.resident := rfl
@[simp] theorem putEng_preempt (st : Strand) (e : Eng) (x : EngState) : (putEng st e x).preempt = st.preempt := rfl
@[simp] theorem putEng_halting (st : Strand) (e : Eng) (x : EngState) : (putEng st e x).halting = st.halting := rfl
@[simp] theorem putEng_ovlWant (st : Strand) (e : Eng) (x : EngState) : (putEng st e x).ovlWant = st.ovlWant := rfl
@[simp] theorem putEng_loading (st : Strand) (e : Eng) (x : EngState) : (putEng st e x).loading = st.loading := rfl
@[simp] theorem putEng_request (st : Strand) (e : Eng) (x : EngState) : (putEng st e x).request = st.request := rfl
@[simp] theorem putEng_box (st : Strand) (e : Eng) (x : EngState) : (putEng st e x).box = st.box := rfl

/-! ## `modEng` -/

@[simp] theorem modEng_uid (st : Strand) (e : Eng) (f : EngState → EngState) : (modEng st e f).uid = st.uid := rfl
@[simp] theorem modEng_part (st : Strand) (e : Eng) (f : EngState → EngState) : (modEng st e f).part = st.part := rfl
@[simp] theorem modEng_sid (st : Strand) (e : Eng) (f : EngState → EngState) : (modEng st e f).sid = st.sid := rfl
@[simp] theorem modEng_emask (st : Strand) (e : Eng) (f : EngState → EngState) : (modEng st e f).emask = st.emask := rfl
@[simp] theorem modEng_overlay (st : Strand) (e : Eng) (f : EngState → EngState) : (modEng st e f).overlay = st.overlay := rfl
@[simp] theorem modEng_g (st : Strand) (e : Eng) (f : EngState → EngState) : (modEng st e f).g = st.g := rfl
@[simp] theorem modEng_a (st : Strand) (e : Eng) (f : EngState → EngState) : (modEng st e f).a = st.a := rfl
@[simp] theorem modEng_b (st : Strand) (e : Eng) (f : EngState → EngState) : (modEng st e f).b = st.b := rfl
@[simp] theorem modEng_v (st : Strand) (e : Eng) (f : EngState → EngState) : (modEng st e f).v = st.v := rfl
@[simp] theorem modEng_sd (st : Strand) (e : Eng) (f : EngState → EngState) : (modEng st e f).sd = st.sd := rfl
@[simp] theorem modEng_em (st : Strand) (e : Eng) (f : EngState → EngState) : (modEng st e f).em = st.em := rfl
@[simp] theorem modEng_cm (st : Strand) (e : Eng) (f : EngState → EngState) : (modEng st e f).cm = st.cm := rfl
@[simp] theorem modEng_saved (st : Strand) (e : Eng) (f : EngState → EngState) : (modEng st e f).saved = st.saved := rfl
@[simp] theorem modEng_poisoned (st : Strand) (e : Eng) (f : EngState → EngState) : (modEng st e f).poisoned = st.poisoned := rfl
@[simp] theorem modEng_fresh (st : Strand) (e : Eng) (f : EngState → EngState) : (modEng st e f).fresh = st.fresh := rfl
@[simp] theorem modEng_pending (st : Strand) (e : Eng) (f : EngState → EngState) : (modEng st e f).pending = st.pending := rfl
@[simp] theorem modEng_free (st : Strand) (e : Eng) (f : EngState → EngState) : (modEng st e f).free = st.free := rfl
@[simp] theorem modEng_engs (st : Strand) (e : Eng) (f : EngState → EngState) : (modEng st e f).engs = st.engs.set (Eng.idx e) (f (getEng st e)) := rfl
@[simp] theorem modEng_lq (st : Strand) (e : Eng) (f : EngState → EngState) : (modEng st e f).lq = st.lq := rfl
@[simp] theorem modEng_sq (st : Strand) (e : Eng) (f : EngState → EngState) : (modEng st e f).sq = st.sq := rfl
@[simp] theorem modEng_iql (st : Strand) (e : Eng) (f : EngState → EngState) : (modEng st e f).iql = st.iql := rfl
@[simp] theorem modEng_iqs (st : Strand) (e : Eng) (f : EngState → EngState) : (modEng st e f).iqs = st.iqs := rfl
@[simp] theorem modEng_fiq (st : Strand) (e : Eng) (f : EngState → EngState) : (modEng st e f).fiq = st.fiq := rfl
@[simp] theorem modEng_qL (st : Strand) (e : Eng) (f : EngState → EngState) : (modEng st e f).qL = st.qL := rfl
@[simp] theorem modEng_qS (st : Strand) (e : Eng) (f : EngState → EngState) : (modEng st e f).qS = st.qS := rfl
@[simp] theorem modEng_qV (st : Strand) (e : Eng) (f : EngState → EngState) : (modEng st e f).qV = st.qV := rfl
@[simp] theorem modEng_qM (st : Strand) (e : Eng) (f : EngState → EngState) : (modEng st e f).qM = st.qM := rfl
@[simp] theorem modEng_vcq (st : Strand) (e : Eng) (f : EngState → EngState) : (modEng st e f).vcq = st.vcq := rfl
@[simp] theorem modEng_rpq (st : Strand) (e : Eng) (f : EngState → EngState) : (modEng st e f).rpq = st.rpq := rfl
@[simp] theorem modEng_rps (st : Strand) (e : Eng) (f : EngState → EngState) : (modEng st e f).rps = st.rps := rfl
@[simp] theorem modEng_tok (st : Strand) (e : Eng) (f : EngState → EngState) : (modEng st e f).tok = st.tok := rfl
@[simp] theorem modEng_accs (st : Strand) (e : Eng) (f : EngState → EngState) : (modEng st e f).accs = st.accs := rfl
@[simp] theorem modEng_stores (st : Strand) (e : Eng) (f : EngState → EngState) : (modEng st e f).stores = st.stores := rfl
@[simp] theorem modEng_out (st : Strand) (e : Eng) (f : EngState → EngState) : (modEng st e f).out = st.out := rfl
@[simp] theorem modEng_results (st : Strand) (e : Eng) (f : EngState → EngState) : (modEng st e f).results = st.results := rfl
@[simp] theorem modEng_calls (st : Strand) (e : Eng) (f : EngState → EngState) : (modEng st e f).calls = st.calls := rfl
@[simp] theorem modEng_om (st : Strand) (e : Eng) (f : EngState → EngState) : (modEng st e f).om = st.om := rfl
@[simp] theorem modEng_fills (st : Strand) (e : Eng) (f : EngState → EngState) : (modEng st e f).fills = st.fills := rfl
@[simp] theorem modEng_acc (st : Strand) (e : Eng) (f : EngState → EngState) : (modEng st e f).acc = st.acc := rfl
@[simp] theorem modEng_mwords (st : Strand) (e : Eng) (f : EngState → EngState) : (modEng st e f).mwords = st.mwords := rfl
@[simp] theorem modEng_drain (st : Strand) (e : Eng) (f : EngState → EngState) : (modEng st e f).drain = st.drain := rfl
@[simp] theorem modEng_grant (st : Strand) (e : Eng) (f : EngState → EngState) : (modEng st e f).grant = st.grant := rfl
@[simp] theorem modEng_nestShadow (st : Strand) (e : Eng) (f : EngState → EngState) : (modEng st e f).nestShadow = st.nestShadow := rfl
@[simp] theorem modEng_nestActive (st : Strand) (e : Eng) (f : EngState → EngState) : (modEng st e f).nestActive = st.nestActive := rfl
@[simp] theorem modEng_nest (st : Strand) (e : Eng) (f : EngState → EngState) : (modEng st e f).nest = st.nest := rfl
@[simp] theorem modEng_patStore (st : Strand) (e : Eng) (f : EngState → EngState) : (modEng st e f).patStore = st.patStore := rfl
@[simp] theorem modEng_patStart (st : Strand) (e : Eng) (f : EngState → EngState) : (modEng st e f).patStart = st.patStart := rfl
@[simp] theorem modEng_pat (st : Strand) (e : Eng) (f : EngState → EngState) : (modEng st e f).pat = st.pat := rfl
@[simp] theorem modEng_mpWords (st : Strand) (e : Eng) (f : EngState → EngState) : (modEng st e f).mpWords = st.mpWords := rfl
@[simp] theorem modEng_arrayUntil (st : Strand) (e : Eng) (f : EngState → EngState) : (modEng st e f).arrayUntil = st.arrayUntil := rfl
@[simp] theorem modEng_spill (st : Strand) (e : Eng) (f : EngState → EngState) : (modEng st e f).spill = st.spill := rfl
@[simp] theorem modEng_vHome (st : Strand) (e : Eng) (f : EngState → EngState) : (modEng st e f).vHome = st.vHome := rfl
@[simp] theorem modEng_vOut (st : Strand) (e : Eng) (f : EngState → EngState) : (modEng st e f).vOut = st.vOut := rfl
@[simp] theorem modEng_vWritten (st : Strand) (e : Eng) (f : EngState → EngState) : (modEng st e f).vWritten = st.vWritten := rfl
@[simp] theorem modEng_dead (st : Strand) (e : Eng) (f : EngState → EngState) : (modEng st e f).dead = st.dead := rfl
@[simp] theorem modEng_area (st : Strand) (e : Eng) (f : EngState → EngState) : (modEng st e f).area = st.area := rfl
@[simp] theorem modEng_pred (st : Strand) (e : Eng) (f : EngState → EngState) : (modEng st e f).pred = st.pred := rfl
@[simp] theorem modEng_lean (st : Strand) (e : Eng) (f : EngState → EngState) : (modEng st e f).lean = st.lean := rfl
@[simp] theorem modEng_slipw (st : Strand) (e : Eng) (f : EngState → EngState) : (modEng st e f).slipw = st.slipw := rfl
@[simp] theorem modEng_flags (st : Strand) (e : Eng) (f : EngState → EngState) : (modEng st e f).flags = st.flags := rfl
@[simp] theorem modEng_flagLog (st : Strand) (e : Eng) (f : EngState → EngState) : (modEng st e f).flagLog = st.flagLog := rfl
@[simp] theorem modEng_scc (st : Strand) (e : Eng) (f : EngState → EngState) : (modEng st e f).scc = st.scc := rfl
@[simp] theorem modEng_bindst (st : Strand) (e : Eng) (f : EngState → EngState) : (modEng st e f).bindst = st.bindst := rfl
@[simp] theorem modEng_oldBinds (st : Strand) (e : Eng) (f : EngState → EngState) : (modEng st e f).oldBinds = st.oldBinds := rfl
@[simp] theorem modEng_fltCause (st : Strand) (e : Eng) (f : EngState → EngState) : (modEng st e f).fltCause = st.fltCause := rfl
@[simp] theorem modEng_fltAddr (st : Strand) (e : Eng) (f : EngState → EngState) : (modEng st e f).fltAddr = st.fltAddr := rfl
@[simp] theorem modEng_fltPc (st : Strand) (e : Eng) (f : EngState → EngState) : (modEng st e f).fltPc = st.fltPc := rfl
@[simp] theorem modEng_perf (st : Strand) (e : Eng) (f : EngState → EngState) : (modEng st e f).perf = st.perf := rfl
@[simp] theorem modEng_frozen (st : Strand) (e : Eng) (f : EngState → EngState) : (modEng st e f).frozen = st.frozen := rfl
@[simp] theorem modEng_faults (st : Strand) (e : Eng) (f : EngState → EngState) : (modEng st e f).faults = st.faults := rfl
@[simp] theorem modEng_delivered (st : Strand) (e : Eng) (f : EngState → EngState) : (modEng st e f).delivered = st.delivered := rfl
@[simp] theorem modEng_triggered (st : Strand) (e : Eng) (f : EngState → EngState) : (modEng st e f).triggered = st.triggered := rfl
@[simp] theorem modEng_wait (st : Strand) (e : Eng) (f : EngState → EngState) : (modEng st e f).wait = st.wait := rfl
@[simp] theorem modEng_waitHeld (st : Strand) (e : Eng) (f : EngState → EngState) : (modEng st e f).waitHeld = st.waitHeld := rfl
@[simp] theorem modEng_flagRead (st : Strand) (e : Eng) (f : EngState → EngState) : (modEng st e f).flagRead = st.flagRead := rfl
@[simp] theorem modEng_endBlock (st : Strand) (e : Eng) (f : EngState → EngState) : (modEng st e f).endBlock = st.endBlock := rfl
@[simp] theorem modEng_block (st : Strand) (e : Eng) (f : EngState → EngState) : (modEng st e f).block = st.block := rfl
@[simp] theorem modEng_blockSince (st : Strand) (e : Eng) (f : EngState → EngState) : (modEng st e f).blockSince = st.blockSince := rfl
@[simp] theorem modEng_readySince (st : Strand) (e : Eng) (f : EngState → EngState) : (modEng st e f).readySince = st.readySince := rfl
@[simp] theorem modEng_resident (st : Strand) (e : Eng) (f : EngState → EngState) : (modEng st e f).resident = st.resident := rfl
@[simp] theorem modEng_preempt (st : Strand) (e : Eng) (f : EngState → EngState) : (modEng st e f).preempt = st.preempt := rfl
@[simp] theorem modEng_halting (st : Strand) (e : Eng) (f : EngState → EngState) : (modEng st e f).halting = st.halting := rfl
@[simp] theorem modEng_ovlWant (st : Strand) (e : Eng) (f : EngState → EngState) : (modEng st e f).ovlWant = st.ovlWant := rfl
@[simp] theorem modEng_loading (st : Strand) (e : Eng) (f : EngState → EngState) : (modEng st e f).loading = st.loading := rfl
@[simp] theorem modEng_request (st : Strand) (e : Eng) (f : EngState → EngState) : (modEng st e f).request = st.request := rfl
@[simp] theorem modEng_box (st : Strand) (e : Eng) (f : EngState → EngState) : (modEng st e f).box = st.box := rfl

end Sys2Proof.Machine
end

