-- ==== Sys2Proof/Laws/Ops.lean ====
section
/-! SUPPORT. The shared operations on strands, registers and the issue of a word: for each, once, everything that it
can do.
-/

namespace Sys2Proof.Machine

open Host (Outcome)

/-! ## Strands, cells and engines -/

@[simp] theorem getStrand_putStrand (s : State) (r : SRef) (x : Strand) : getStrand (putStrand s r x) r = some x := by
  simp [getStrand]

theorem getStrand_putStrand_other (s : State) (r q : SRef) (x : Strand) (h : SRef.key q ≠ SRef.key r) :
    getStrand (putStrand s r x) q = getStrand s q := by
  simp [getStrand, fget_fset_other _ _ _ _ h]

@[simp] theorem getCell_putCell (s : State) (c : Nat) (x : Cell) : getCell (putCell s c x) c = x := by
  simp [getCell]

@[simp] theorem getCell_putStrand (s : State) (r : SRef) (x : Strand) (c : Nat) :
    getCell (putStrand s r x) c = getCell s c := rfl

@[simp] theorem getCtx_putStrand (s : State) (r : SRef) (x : Strand) (c p : Nat) :
    getCtx (putStrand s r x) c p = getCtx s c p := rfl

@[simp] theorem getCtx_putCtx (s : State) (c p : Nat) (x : Context) : getCtx (putCtx s c p x) c p = x := by
  simp [getCtx]

@[simp] theorem getPart_putPart (s : State) (p : Nat) (x : Partition) : getPart (putPart s p x) p = x := by
  simp [getPart]

theorem vget_set_same {α : Type} {n : Nat} (v : Vector α n) (i : Fin n) (x : α) (h : i.val < n) :
    (v.set i.val x h).get i = x := by
  show (v.set i.val x h)[i.val] = x
  simp

theorem vget_set_other {α : Type} {n : Nat} (v : Vector α n) (i j : Fin n) (x : α) (h : i.val < n) (hne : j ≠ i) :
    (v.set i.val x h).get j = v.get j := by
  show (v.set i.val x h)[j.val] = v[j.val]
  have : i.val ≠ j.val := fun k => hne (Fin.ext k.symm)
  simp [this]

theorem idx_inj {e f : Eng} (h : Eng.idx e = Eng.idx f) : e = f := by
  cases e <;> cases f <;> simp [Eng.idx] at h ⊢

@[simp] theorem getEng_putEng (st : Strand) (e : Eng) (x : EngState) : getEng (putEng st e x) e = x :=
  vget_set_same _ _ _ (Eng.idx e).isLt

theorem getEng_putEng_other (st : Strand) (e f : Eng) (x : EngState) (h : f ≠ e) :
    getEng (putEng st e x) f = getEng st f :=
  vget_set_other _ _ _ _ (Eng.idx e).isLt fun k => h (idx_inj k)

@[simp] theorem getEng_modEng (st : Strand) (e : Eng) (f : EngState → EngState) :
    getEng (modEng st e f) e = f (getEng st e) := getEng_putEng _ _ _

theorem getEng_modEng_other (st : Strand) (e g : Eng) (f : EngState → EngState) (h : g ≠ e) :
    getEng (modEng st e f) g = getEng st g := getEng_putEng_other _ _ _ _ h

/-! ## Registers -/

theorem toFin_ne {n : Nat} {a b : BitVec n} (h : a ≠ b) : a.toFin ≠ b.toFin := fun k => h (BitVec.toFin_inj.mp k)

theorem regBits_setRegBits_other (st : Strand) (r q : Reg) (x : BitVec 4096) (h : q ≠ r) :
    regBits (setRegBits st r x) q = regBits st q := by
  cases r <;> cases q <;> simp only [setRegBits, regBits, ne_eq, Reg.g.injEq, Reg.a.injEq, Reg.b.injEq, Reg.v.injEq,
    Reg.sd.injEq, Reg.mk.injEq, not_true_eq_false] at h ⊢ <;> first
    | rw [vget_set_other _ _ _ _ _ (toFin_ne h)]
    | rw [vget_set_other _ _ _ _ _ h]
    | (split <;> first
        | rfl
        | (split <;> first
            | rfl
            | rw [vget_set_other _ _ _ _ _ (toFin_ne h)]))

/-- What a whole write leaves: the bits of the register's width, and nothing in `g0` (R39). -/
theorem regBits_setRegBits_same (st : Strand) (r : Reg) (x : BitVec 4096) :
    regBits (setRegBits st r x) r = if r = .g 0 then 0 else x &&& fullMask r := by
  have key : ∀ w ≤ 4096, (x.setWidth w).setWidth 4096 = x &&& BitVec.ofNat 4096 (2 ^ w - 1) := by
    intro w hw
    apply BitVec.eq_of_toNat_eq
    have : 2 ^ w ≤ 2 ^ 4096 := Nat.pow_le_pow_right (by decide) hw
    have h0 : 0 < 2 ^ w := Nat.two_pow_pos w
    rw [BitVec.toNat_and, BitVec.toNat_ofNat, Nat.mod_eq_of_lt (a := 2 ^ w - 1) (by omega),
      Nat.and_two_pow_sub_one_eq_mod]
    simp only [BitVec.toNat_setWidth]
    exact Nat.mod_eq_of_lt (Nat.lt_of_lt_of_le (Nat.mod_lt _ h0) this)
  have full : x &&& BitVec.ofNat 4096 (2 ^ 4096 - 1) = x := by
    have := key 4096 (Nat.le_refl _)
    rw [← this]; simp
  cases r <;> simp only [setRegBits, regBits, fullMask, regWidth, reduceCtorEq, if_false, Reg.g.injEq]
  case g n =>
    by_cases h : n = 0
    · simp [h]
    · simp only [h, if_false, vget_set_same]; exact key 64 (by decide)
  case a => rw [vget_set_same]; exact key 64 (by decide)
  case b => rw [vget_set_same]; exact key 64 (by decide)
  case v => rw [vget_set_same]; exact full.symm
  case sd => rw [vget_set_same]; exact key 256 (by decide)
  case em => exact key 1024 (by decide)
  case cm => exact key 1024 (by decide)
  case mk => rw [vget_set_same]; exact key 1024 (by decide)

/-- A register's bits lie within its width. -/
theorem regBits_width (st : Strand) (r : Reg) : regBits st r &&& fullMask r = regBits st r := by
  have key : ∀ w ≤ 4096, ∀ y : BitVec w, y.setWidth 4096 &&& BitVec.ofNat 4096 (2 ^ w - 1) = y.setWidth 4096 := by
    intro w hw y
    apply BitVec.eq_of_toNat_eq
    have : 2 ^ w ≤ 2 ^ 4096 := Nat.pow_le_pow_right (by decide) hw
    have h0 : 0 < 2 ^ w := Nat.two_pow_pos w
    have hy := y.isLt
    rw [BitVec.toNat_and, BitVec.toNat_ofNat, Nat.mod_eq_of_lt (a := 2 ^ w - 1) (by omega),
      Nat.and_two_pow_sub_one_eq_mod]
    simp only [BitVec.toNat_setWidth]
    rw [Nat.mod_eq_of_lt (Nat.lt_of_lt_of_le hy this), Nat.mod_eq_of_lt hy]
  cases r <;> simp only [regBits, fullMask, regWidth]
  case g n =>
    by_cases h : n = 0
    · simp [h]
    · simp only [h, if_false]; exact key 64 (by decide) _
  case v n => simpa using key 4096 (Nat.le_refl _) (st.v.get n.toFin)
  all_goals first
    | exact key 64 (by decide) _
    | exact key 256 (by decide) _
    | exact key 1024 (by decide) _

/-! ## Landing of results (R28 to R34) -/

/-- Two values agree in the bits of a register. -/
def sameIn (r : Reg) (x y : BitVec 4096) : Prop := x &&& fullMask r = y &&& fullMask r

theorem sameIn_landOne {r : Reg} {x y : BitVec 4096} (h : sameIn r x y) (p : Pending) :
    sameIn r (landOne r x p) (landOne r y p) := by
  unfold landOne
  split
  · split
    · unfold sameIn at *
      ext i hi
      have h1 := congrArg (fun y : BitVec 4096 => y.getLsbD i) h
      simp only [BitVec.getLsbD_and] at h1
      cases hA : (fullMask r).getLsbD i <;> simp_all [← BitVec.getLsbD_eq_getElem]
    · exact h
  · exact h

theorem sameIn_foldl {r : Reg} (l : List Pending) {x y : BitVec 4096} (h : sameIn r x y) :
    sameIn r (l.foldl (landOne r) x) (l.foldl (landOne r) y) := by
  induction l generalizing x y with
  | nil => exact h
  | cons p t ih => exact ih (sameIn_landOne h p)

theorem foldl_landOne_skip (r : Reg) (l : List Pending) (x : BitVec 4096) (h : ∀ p ∈ l, p.reg ≠ r) :
    l.foldl (landOne r) x = x := by
  induction l generalizing x with
  | nil => rfl
  | cons p t ih =>
    have hp : landOne r x p = x := by simp [landOne, h p (.head _)]
    rw [List.foldl_cons, hp]
    exact ih x fun q hq => h q (.tail _ hq)

theorem regBits_poisoned (st : Strand) (l : List Reg) (r : Reg) : regBits { st with poisoned := l } r = regBits st r := by
  cases r <;> rfl

theorem regBits_fresh (st : Strand) (l k : List Reg) (r : Reg) :
    regBits { st with poisoned := l, fresh := k } r = regBits st r := by cases r <;> rfl

theorem regBits_pending (st : Strand) (l : List Pending) (r : Reg) :
    regBits { st with pending := l } r = regBits st r := by cases r <;> rfl

theorem landBits_regBits (st : Strand) (q : Reg) (x m : BitVec 4096) (b : Bool) (r : Reg) :
    regBits (landBits st q x m b) r = regBits (setRegBits st q ((regBits st q &&& ~~~m) ||| (x &&& m))) r := by
  unfold landBits
  simp only []
  split
  · exact regBits_poisoned _ _ _
  · split
    · exact regBits_fresh _ _ _ _
    · rfl

/-- A landing leaves every other register, and gives its own the bits of `landOne`. -/
theorem regBits_landBits_other (st : Strand) (q r : Reg) (x m : BitVec 4096) (b : Bool) (h : r ≠ q) :
    regBits (landBits st q x m b) r = regBits st r := by
  rw [landBits_regBits, regBits_setRegBits_other _ _ _ _ h]

theorem regBits_landBits_same (st : Strand) (p : Pending) (x : BitVec 4096) (hv : p.val = some x) (h0 : p.reg ≠ .g 0) :
    sameIn p.reg (regBits (landBits st p.reg x p.mask p.poison) p.reg) (landOne p.reg (regBits st p.reg) p) := by
  rw [landBits_regBits, regBits_setRegBits_same, if_neg h0]
  simp only [landOne, hv, if_true, sameIn]
  rw [BitVec.and_assoc, BitVec.and_self]

/-- Landing what is due to one register leaves the latest value of every other. -/
theorem latest_landReg_other (r q : Reg) (h : q ≠ r) (l kept : List Pending) (st : Strand) :
    latest (landReg st r l kept) q = (kept.reverse ++ l).foldl (landOne q) (regBits st q) := by
  induction l generalizing kept st with
  | nil => simp [landReg, latest, regBits_pending]
  | cons p t ih =>
    unfold landReg
    split
    · split
      · rename_i x hv hc
        simp only [Bool.and_eq_true, decide_eq_true_eq] at hc
        rw [ih, regBits_landBits_other _ _ _ _ _ _ h]
        have : ∀ y, landOne q y p = y := fun y => by simp [landOne, hc.1, h.symm]
        simp [List.foldl_append, this]
      · rw [ih]; simp
    · rw [ih]; simp

/-- Landing what is due to one register leaves its own latest value. -/
theorem latest_landReg_same (r : Reg) (h0 : r ≠ .g 0) (l kept : List Pending) (st : Strand) :
    sameIn r (latest (landReg st r l kept) r) ((kept.reverse ++ l).foldl (landOne r) (regBits st r)) := by
  induction l generalizing kept st with
  | nil => simp [landReg, latest, regBits_pending, sameIn]
  | cons p t ih =>
    unfold landReg
    split
    · split
      · rename_i x hv hc
        simp only [Bool.and_eq_true, decide_eq_true_eq, Bool.not_eq_true', List.any_eq_false, beq_iff_eq] at hc
        obtain ⟨hr, hk⟩ := hc
        have e := regBits_landBits_same st p x hv (hr ▸ h0)
        rw [hr] at e
        have hk' : ∀ y, kept.reverse.foldl (landOne r) y = y := fun y =>
          foldl_landOne_skip r _ y fun q hq => hk q (List.mem_reverse.mp hq)
        have := ih kept (landBits st r x p.mask p.poison)
        simp only [List.foldl_append, List.foldl_cons, hk'] at this ⊢
        exact this.trans (sameIn_foldl t e)
      · have := ih (p :: kept) st; simpa using this
    · have := ih (p :: kept) st; simpa using this

theorem latest_writeReg_other (clock : Nat) (st : Strand) (e : Eng) (lat : Nat) (r q : Reg) (x m : BitVec 4096)
    (h : q ≠ r) : latest (writeReg clock st e lat r x m) q = latest st q := by
  have hp : ∀ y (p : Pending), p.reg = r → landOne q y p = y := fun y p hp => by simp [landOne, hp, h.symm]
  unfold writeReg
  simp only []
  split
  · rw [latest_landReg_other r q h]
    simp [latest, regBits_pending, List.foldl_append, hp]
  · simp [latest, regBits_pending, List.foldl_append, hp]

/-- The latest value of a register after a result to it. -/
theorem latest_writeReg_same (clock : Nat) (st : Strand) (e : Eng) (lat : Nat) (r : Reg) (x m : BitVec 4096)
    (h0 : r ≠ .g 0) :
    sameIn r (latest (writeReg clock st e lat r x m) r) ((latest st r &&& ~~~m) ||| (x &&& m)) := by
  unfold writeReg
  simp only []
  split
  · have := latest_landReg_same r h0 (st.pending ++ [{ eng := e, pos := (getEng st e).passed, reg := r, val := some x, mask := m, issued := clock, lat := lat }]) []
      { st with pending := st.pending ++ [{ eng := e, pos := (getEng st e).passed, reg := r, val := some x, mask := m, issued := clock, lat := lat }] }
    simpa [latest, regBits_pending, List.foldl_append, landOne] using this
  · simp [latest, regBits_pending, List.foldl_append, landOne, sameIn]

/-- The bits of a register that a wider value keeps. -/
theorem sameIn_setWidth {r : Reg} {x y : BitVec 4096} (h : sameIn r x y) (w : Nat) (hw : w = regWidth r) :
    x.setWidth w = y.setWidth w := by
  subst hw
  apply BitVec.eq_of_getLsbD_eq
  intro i hi
  have hle : regWidth r ≤ 4096 := by cases r <;> simp [regWidth]
  have h1 := congrArg (fun y : BitVec 4096 => y.getLsbD i) h
  have hm : (fullMask r).getLsbD i = true := by
    simp only [fullMask, BitVec.getLsbD_ofNat, Nat.testBit_two_pow_sub_one, Bool.and_eq_true, decide_eq_true_eq]
    omega
  simp only [BitVec.getLsbD_and, hm, Bool.and_true] at h1
  simp [hi, h1]

end Sys2Proof.Machine
end

