-- ==== Sys2Proof/Laws/Issue.lean ====
section
/-! SUPPORT. The issue of a word: what its charge and its counts leave, and the state it answers when its body takes
effect, waits or traps.
-/

namespace Sys2Proof.Machine

open Host (Outcome)

/-! ## Charges and counts -/

@[simp] theorem charge_mem (s : State) (c p rcb : Nat) (m : Bool) (x : Nat) : (charge s c p rcb m x).mem = s.mem := rfl
@[simp] theorem charge_strands (s : State) (c p rcb : Nat) (m : Bool) (x : Nat) :
    (charge s c p rcb m x).strands = s.strands := rfl
@[simp] theorem charge_cells (s : State) (c p rcb : Nat) (m : Bool) (x : Nat) :
    (charge s c p rcb m x).cells = s.cells := rfl
@[simp] theorem charge_ctxs (s : State) (c p rcb : Nat) (m : Bool) (x : Nat) :
    (charge s c p rcb m x).ctxs = s.ctxs := rfl
@[simp] theorem charge_clock (s : State) (c p rcb : Nat) (m : Bool) (x : Nat) :
    (charge s c p rcb m x).clock = s.clock := rfl
@[simp] theorem charge_cur (s : State) (c p rcb : Nat) (m : Bool) (x : Nat) : (charge s c p rcb m x).cur = s.cur := rfl

/-- A charge leaves everything but regions, shares and counters. -/
theorem chargeStrand_same (s : State) (r : SRef) (x : Nat) :
    (chargeStrand s r x).mem = s.mem ∧ (chargeStrand s r x).strands = s.strands ∧
      (chargeStrand s r x).cells = s.cells ∧ (chargeStrand s r x).ctxs = s.ctxs ∧
      (chargeStrand s r x).clock = s.clock ∧ (chargeStrand s r x).cur = s.cur := by
  unfold chargeStrand
  split <;> simp

@[simp] theorem chargeStrand_mem (s : State) (r : SRef) (x : Nat) : (chargeStrand s r x).mem = s.mem :=
  (chargeStrand_same s r x).1
@[simp] theorem chargeStrand_strands (s : State) (r : SRef) (x : Nat) : (chargeStrand s r x).strands = s.strands :=
  (chargeStrand_same s r x).2.1
@[simp] theorem chargeStrand_cells (s : State) (r : SRef) (x : Nat) : (chargeStrand s r x).cells = s.cells :=
  (chargeStrand_same s r x).2.2.1
@[simp] theorem chargeStrand_ctxs (s : State) (r : SRef) (x : Nat) : (chargeStrand s r x).ctxs = s.ctxs :=
  (chargeStrand_same s r x).2.2.2.1
@[simp] theorem chargeStrand_clock (s : State) (r : SRef) (x : Nat) : (chargeStrand s r x).clock = s.clock :=
  (chargeStrand_same s r x).2.2.2.2.1
@[simp] theorem chargeStrand_cur (s : State) (r : SRef) (x : Nat) : (chargeStrand s r x).cur = s.cur :=
  (chargeStrand_same s r x).2.2.2.2.2

@[simp] theorem getStrand_chargeStrand (s : State) (r q : SRef) (x : Nat) :
    getStrand (chargeStrand s r x) q = getStrand s q := by simp [getStrand]

@[simp] theorem getEng_perfAdd (st : Strand) (evt n : Nat) (e : Eng) : getEng (perfAdd st evt n) e = getEng st e := rfl

@[simp] theorem regBits_perfAdd (st : Strand) (evt n : Nat) (r : Reg) : regBits (perfAdd st evt n) r = regBits st r := by
  cases r <;> rfl

@[simp] theorem latest_perfAdd (st : Strand) (evt n : Nat) (r : Reg) : latest (perfAdd st evt n) r = latest st r := by
  simp only [latest, regBits_perfAdd]; rfl

@[simp] theorem restOf_perfAdd (st : Strand) (evt n : Nat) : restOf (perfAdd st evt n) = restOf st := rfl

@[simp] theorem allFlags_perfAdd (st : Strand) (evt n : Nat) : allFlags (perfAdd st evt n) = allFlags st := rfl

/-- A counted C word: one more of PERF event 0x01 at its strand, and counts and charges elsewhere. -/
theorem countC_same (s : State) (r : SRef) :
    (countC s r).mem = s.mem ∧ (countC s r).cells = s.cells ∧ (countC s r).ctxs = s.ctxs ∧
      (countC s r).clock = s.clock ∧ (countC s r).cur = s.cur ∧
      getStrand (countC s r) r = (getStrand s r).map (perfAdd · 1 1) ∧
      ∀ q, SRef.key q ≠ SRef.key r → getStrand (countC s r) q = getStrand s q := by
  unfold countC
  split
  · rename_i h; simp [h]
  · rename_i st h
    refine ⟨by simp, by simp, by simp, by simp, by simp, ?_, fun q hq => ?_⟩
    · rw [h, getStrand_chargeStrand]
      simp [getStrand]
    · simp [getStrand, fget_fset_other _ _ _ _ hq]

/-! ## Moving past a word -/

@[simp] theorem regBits_modEng (st : Strand) (e : Eng) (f : EngState → EngState) (r : Reg) :
    regBits (modEng st e f) r = regBits st r := by cases r <;> rfl

@[simp] theorem latest_modEng (st : Strand) (e : Eng) (f : EngState → EngState) (r : Reg) :
    latest (modEng st e f) r = latest st r := by simp only [latest, regBits_modEng]; rfl

@[simp] theorem restOf_modEng (st : Strand) (e : Eng) (f : EngState → EngState) : restOf (modEng st e f) = restOf st :=
  rfl

@[simp] theorem latest_stepPast (s : State) (st : Strand) (e : Eng) (r : Reg) :
    latest (stepPast s st e) r = latest st r := latest_modEng _ _ _ _

@[simp] theorem restOf_stepPast (s : State) (st : Strand) (e : Eng) : restOf (stepPast s st e) = restOf st := rfl

@[simp] theorem allFlags_stepPast (s : State) (st : Strand) (e : Eng) : allFlags (stepPast s st e) = allFlags st := rfl

@[simp] theorem getEng_stepPast_pc (s : State) (st : Strand) (e : Eng) :
    (getEng (stepPast s st e) e).pc = (getEng st e).pc + 1 := by simp [stepPast]

@[simp] theorem getEng_stepPast_passed (s : State) (st : Strand) (e : Eng) :
    (getEng (stepPast s st e) e).passed = (getEng st e).passed + 1 := by simp [stepPast]

theorem getEng_stepPast_other (s : State) (st : Strand) (e f : Eng) (h : f ≠ e) :
    getEng (stepPast s st e) f = getEng st f := getEng_modEng_other _ _ _ _ h

/-! ## Issue -/

/-- The strand as the body of a word receives it. -/
def atIssue (s : State) (st : Strand) : Strand := { st with free := s.freeCount }

/-- A strand that stands at an engine is the one in its slot with its due results landed. -/
theorem atEngine_strand {s : State} {e : Eng} {st : Strand} (h : AtEngine s e st) :
    ∃ x, getStrand s (Walker.ref s.cur) = some x ∧ settle s.clock x = st := by
  simpa [standing, Option.map_eq_some_iff] using h.2

theorem takeTokens_none (st : Strand) (e : Eng) (pos : Nat) : takeTokens st e pos Tk.none = .ok st := rfl

/-- Everything that an issue at a resident strand answers. -/
theorem issueWith_eq {s : State} {e : Eng} {st : Strand} (h : AtEngine s e st) (tk : Tk)
    (body : Walker → Strand → State → Act State) :
    issueWith s tk body =
      match (do
        let st' ← takeTokens (atIssue s st) e (getEng st e).passed tk
        body s.cur st' (putStrand { s with freeCount := s.freeCount + 1 } (Walker.ref s.cur) st') : Act State) with
      | .ok t => .next t
      | .error .stall => .next s
      | .error (.hold x) => .next (startHold s x)
      | .error (.trap t) => .next (raiseWord s s.cur t) := by
  obtain ⟨x, h1, rfl⟩ := atEngine_strand h
  simp only [issueWith, h1, h.1]
  rfl

/-- A word without token bits whose body takes effect. -/
theorem issueWith_ok {s : State} {e : Eng} {st : Strand} (h : AtEngine s e st)
    (body : Walker → Strand → State → Act State) {t : State}
    (hb : body s.cur (atIssue s st)
      (putStrand { s with freeCount := s.freeCount + 1 } (Walker.ref s.cur) (atIssue s st)) = .ok t) :
    issueWith s Tk.none body = .next t := by
  rw [issueWith_eq h, takeTokens_none]
  simp only [bind, Except.bind]
  rw [hb]

/-- A word whose body raises a fault has no effect but the fault (R34). -/
theorem issueWith_trap {s : State} {e : Eng} {st : Strand} (h : AtEngine s e st)
    (body : Walker → Strand → State → Act State) {t : Trap}
    (hb : body s.cur (atIssue s st)
      (putStrand { s with freeCount := s.freeCount + 1 } (Walker.ref s.cur) (atIssue s st)) = .error (.trap t)) :
    issueWith s Tk.none body = .next (raiseWord s s.cur t) := by
  rw [issueWith_eq h, takeTokens_none]
  simp only [bind, Except.bind]
  rw [hb]

/-- A word that must wait leaves the state as it is. -/
theorem issueWith_stall {s : State} {e : Eng} {st : Strand} (h : AtEngine s e st)
    (body : Walker → Strand → State → Act State)
    (hb : body s.cur (atIssue s st)
      (putStrand { s with freeCount := s.freeCount + 1 } (Walker.ref s.cur) (atIssue s st)) = .error .stall) :
    issueWith s Tk.none body = .next s := by
  rw [issueWith_eq h, takeTokens_none]
  simp only [bind, Except.bind]
  rw [hb]

/-- An issue stops the machine only without a resident strand. -/
theorem issueWith_next_or_noStrand (s : State) (tk : Tk) (body : Walker → Strand → State → Act State) :
    (∃ t, issueWith s tk body = .next t) ∨ issueWith s tk body = .fault .noStrand := by
  unfold issueWith
  simp only []
  split
  · exact .inr rfl
  · left
    split <;> exact ⟨_, rfl⟩

/-- A C word local to its strand: the strand it leaves, and that nothing else changes but counts and charges. -/
theorem issueC_ok {s : State} {st st' : Strand} (h : AtEngine s .c st) (body : Walker → Strand → Act Strand)
    (hb : body s.cur (atIssue s st) = .ok st') :
    ∃ t, issueC s body = .next t ∧
      getStrand t (Walker.ref s.cur) = some (perfAdd (stepPast s st' .c) 1 1) ∧ SameElsewhere s t := by
  have hc := h.1
  have hi := issueWith_ok h (fun w st s' => do
    let st' ← body w st
    .ok (countC (putStrand s' (Walker.ref w) (stepPast s' st' w.eng)) (Walker.ref w)))
    (t := countC (putStrand (putStrand { s with freeCount := s.freeCount + 1 } (Walker.ref s.cur) (atIssue s st))
      (Walker.ref s.cur) (stepPast s st' .c)) (Walker.ref s.cur))
    (by simp only [hb, bind, Except.bind, hc]; rfl)
  obtain ⟨h1, h2, h3, h4, -, h5, h6⟩ := countC_same
    (putStrand (putStrand { s with freeCount := s.freeCount + 1 } (Walker.ref s.cur) (atIssue s st))
      (Walker.ref s.cur) (stepPast s st' .c)) (Walker.ref s.cur)
  refine ⟨_, hi, by simp [h5], h1, h2, h3, h4, fun k hk => ?_⟩
  have := h6 ⟨0, k⟩ (by simpa [SRef.key] using hk)
  simp only [getStrand, SRef.key, Nat.mul_zero, Nat.zero_add] at this
  rw [this]
  have hk' : k ≠ 4 * (Walker.ref s.cur).cell + (Walker.ref s.cur).slot := hk
  simp [fget_fset_other _ _ _ _ hk', SRef.key]

/-! ## Reads -/

theorem readReg_ok {st : Strand} {r : Reg} (h : Readable st r) (e : Eng) (salt : Nat) :
    readReg st e salt r = .ok (regBits st r) := by
  obtain ⟨h1, h2, h3⟩ := h
  have hf : st.pending.filter (fun p => p.reg == r) = [] := by
    rw [List.filter_eq_nil_iff]; intro p hp; simpa using h2 p hp
  simp [readReg, h1, hf, h3]

theorem readable_atIssue {s : State} {st : Strand} {r : Reg} (h : Readable st r) : Readable (atIssue s st) r := by
  obtain ⟨h1, h2, h3⟩ := h
  exact ⟨by cases r <;> exact h1, h2, h3⟩

@[simp] theorem regBits_atIssue (s : State) (st : Strand) (r : Reg) : regBits (atIssue s st) r = regBits st r := by
  cases r <;> rfl

@[simp] theorem latest_atIssue (s : State) (st : Strand) (r : Reg) : latest (atIssue s st) r = latest st r := by
  simp only [latest, regBits_atIssue]; rfl

theorem readG_ok {s : State} {st : Strand} {n : BitVec 5} (h : Readable st (.g n)) (salt : Nat) :
    readG (atIssue s st) salt n = .ok (gNow st n) := by
  simp [readG, readReg_ok (readable_atIssue h), bind, Except.bind, gNow]

/-! ## Results of 64 bits -/

theorem restOf_landBits (st : Strand) (r : Reg) (x m : BitVec 4096) (b : Bool) :
    restOf (landBits st r x m b) = restOf st := by
  have h : ∀ y, restOf (setRegBits st r y) = restOf st := by
    intro y; cases r <;> first | rfl | (simp only [setRegBits]; split <;> rfl)
  have hp : ∀ (s2 : Strand) l, restOf { s2 with poisoned := l } = restOf s2 := fun _ _ => rfl
  have hf : ∀ (s2 : Strand) l k, restOf { s2 with poisoned := l, fresh := k } = restOf s2 := fun _ _ _ => rfl
  unfold landBits
  simp only []
  split
  · rw [hp, h]
  · split
    · rw [hf, h]
    · rw [h]

theorem restOf_landReg (r : Reg) (l kept : List Pending) (st : Strand) : restOf (landReg st r l kept) = restOf st := by
  induction l generalizing kept st with
  | nil => rfl
  | cons p t ih =>
    unfold landReg
    split
    · split
      · rw [ih, restOf_landBits]
      · exact ih _ _
    · exact ih _ _

theorem engs_landBits (st : Strand) (r : Reg) (x m : BitVec 4096) (b : Bool) : (landBits st r x m b).engs = st.engs := by
  have h : ∀ y, (setRegBits st r y).engs = st.engs := by
    intro y; cases r <;> first | rfl | (simp only [setRegBits]; split <;> rfl)
  unfold landBits
  simp only []
  split
  · exact h _
  · split <;> exact h _

theorem flags_landBits (st : Strand) (r : Reg) (x m : BitVec 4096) (b : Bool) :
    (landBits st r x m b).flags = st.flags ∧ (landBits st r x m b).flagLog = st.flagLog := by
  have h : ∀ y, (setRegBits st r y).flags = st.flags ∧ (setRegBits st r y).flagLog = st.flagLog := by
    intro y; cases r <;> first | exact ⟨rfl, rfl⟩ | (simp only [setRegBits]; split <;> exact ⟨rfl, rfl⟩)
  unfold landBits
  simp only []
  split
  · exact h _
  · split <;> exact h _

/-- Landing writes registers only. -/
theorem landReg_same (r : Reg) (l kept : List Pending) (st : Strand) :
    (landReg st r l kept).engs = st.engs ∧ (landReg st r l kept).flags = st.flags ∧
      (landReg st r l kept).flagLog = st.flagLog := by
  induction l generalizing kept st with
  | nil => exact ⟨rfl, rfl, rfl⟩
  | cons p t ih =>
    unfold landReg
    split
    · split
      · obtain ⟨h1, h2, h3⟩ := ih kept (landBits st r _ p.mask p.poison)
        exact ⟨h1.trans (engs_landBits _ _ _ _ _), h2.trans (flags_landBits _ _ _ _ _).1,
          h3.trans (flags_landBits _ _ _ _ _).2⟩
      · exact ih _ _
    · exact ih _ _

theorem writeReg_same (clock : Nat) (st : Strand) (e : Eng) (lat : Nat) (r : Reg) (x m : BitVec 4096) :
    restOf (writeReg clock st e lat r x m) = restOf st ∧ (writeReg clock st e lat r x m).engs = st.engs ∧
      allFlags (writeReg clock st e lat r x m) = allFlags st := by
  unfold writeReg
  simp only []
  split
  · obtain ⟨h1, h2, h3⟩ := landReg_same r (st.pending ++ [{ eng := e, pos := (getEng st e).passed, reg := r, val := some x, mask := m, issued := clock, lat := lat }]) []
      { st with pending := st.pending ++ [{ eng := e, pos := (getEng st e).passed, reg := r, val := some x, mask := m, issued := clock, lat := lat }] }
    refine ⟨(restOf_landReg _ _ _ _).trans rfl, h1, ?_⟩
    simp only [allFlags, h2, h3]
  · exact ⟨rfl, rfl, rfl⟩

/-- A 64-bit result writes nothing but its register. -/
theorem writeWord_same (clock : Nat) (st : Strand) (e : Eng) (lat : BitVec 4) (r : Reg) (x : Word) :
    restOf (writeWord clock st e lat r x) = restOf st ∧ (writeWord clock st e lat r x).engs = st.engs ∧
      allFlags (writeWord clock st e lat r x) = allFlags st := by
  unfold writeWord
  split
  · split
    · exact ⟨rfl, rfl, rfl⟩
    · exact writeReg_same _ _ _ _ _ _ _
  · exact writeReg_same _ _ _ _ _ _ _

theorem getEng_writeWord (clock : Nat) (st : Strand) (e : Eng) (lat : BitVec 4) (r : Reg) (x : Word) (f : Eng) :
    getEng (writeWord clock st e lat r x) f = getEng st f := by
  simp only [getEng, (writeWord_same clock st e lat r x).2.1]

/-- Every other register keeps its latest value, and so does `g0` (R39). -/
theorem latest_writeWord_other (clock : Nat) (st : Strand) (e : Eng) (lat : BitVec 4) (r q : Reg) (x : Word)
    (h : q ≠ r ∨ r = .g 0) : latest (writeWord clock st e lat r x) q = latest st q := by
  unfold writeWord
  rcases h with h | h
  · split
    · split
      · rfl
      · exact latest_writeReg_other _ _ _ _ _ _ _ _ h
    · exact latest_writeReg_other _ _ _ _ _ _ _ _ h
  · subst h; rfl

/-- The register written holds the result. -/
theorem latest_writeWord_same (clock : Nat) (st : Strand) (e : Eng) (lat : BitVec 4) (r : Reg) (x : Word)
    (hw : regWidth r = 64) (h0 : r ≠ .g 0) : (latest (writeWord clock st e lat r x) r).setWidth 64 = x := by
  have key : (latest (writeReg clock st e lat.toNat r (x.setWidth 4096) (fullMask r)) r).setWidth 64 = x := by
    have h := sameIn_setWidth (latest_writeReg_same clock st e lat.toNat r (x.setWidth 4096) (fullMask r) h0) 64 hw.symm
    rw [h]
    apply BitVec.eq_of_getLsbD_eq
    intro i hi
    have hm : (fullMask r).getLsbD i = true := by
      simp only [fullMask, hw, BitVec.getLsbD_ofNat, Nat.testBit_two_pow_sub_one, Bool.and_eq_true, decide_eq_true_eq]
      omega
    simp [hi, hm]
  unfold writeWord
  split
  · rename_i n
    have hn : n ≠ 0 := fun k => h0 (by rw [k])
    rw [if_neg hn]; exact key
  · exact key

end Sys2Proof.Machine
end

