-- ==== Sys2Proof/Laws/Access.lean ====
section
/-! SUPPORT. Translation and memory: they neither read nor change a strand, and a write of memory changes the bytes it
names and no other.
-/

namespace Sys2Proof.Machine

/-- The state with other strands and another count of free values. -/
def withStrands (s : State) (l : FMap Strand) (n : Nat) : State := { s with strands := l, freeCount := n }

theorem memN_withStrands (s : State) (l : FMap Strand) (n pa k : Nat) :
    memN (withStrands s l n) pa k = memN s pa k := by
  induction k generalizing pa with
  | zero => rfl
  | succ k ih => simp only [memN, ih]; rfl

theorem walkFrom_withStrands (s : State) (l : FMap Strand) (n die part va : Nat) (fuel : Nat) :
    ∀ level table seen, walkFrom (withStrands s l n) die part va fuel level table seen =
      walkFrom s die part va fuel level table seen := by
  induction fuel with
  | zero => intros; rfl
  | succ k ih =>
    intro level table seen
    have hp : readPte (withStrands s l n) die part va level table = readPte s die part va level table := by
      simp only [readPte, memN_withStrands]; rfl
    simp only [walkFrom, hp, ih]
    rfl

theorem l2Read_withStrands (l : FMap Strand) (n : Nat) (lines : List Nat) (s : State) :
    l2Read (withStrands s l n) lines = withStrands (l2Read s lines) l n := by
  induction lines generalizing s with
  | nil => rfl
  | cons x t ih =>
    have h : l2Has (withStrands s l n) x = l2Has s x := rfl
    have ha : l2Add (withStrands s l n) x = withStrands (l2Add s x) l n := rfl
    simp only [l2Read, List.foldl_cons, h] at ih ⊢
    cases l2Has s x
    · simpa [ha] using ih (l2Add s x)
    · simpa using ih s

/-- Reads through L2 change the L2 of the dies and nothing else. -/
theorem l2Read_same (lines : List Nat) (s : State) :
    (l2Read s lines).mem = s.mem ∧ (l2Read s lines).strands = s.strands ∧ (l2Read s lines).cells = s.cells ∧
      (l2Read s lines).ctxs = s.ctxs ∧ (l2Read s lines).hub = s.hub ∧ (l2Read s lines).clock = s.clock ∧
      (l2Read s lines).cur = s.cur ∧ (l2Read s lines).freeCount = s.freeCount ∧ (l2Read s lines).nextId = s.nextId := by
  induction lines generalizing s with
  | nil => simp [l2Read]
  | cons x t ih =>
    simp only [l2Read, List.foldl_cons] at ih ⊢
    cases l2Has s x
    · simpa [l2Add, modDie, putDie] using ih (l2Add s x)
    · simpa using ih s

theorem lookupLeaf_withStrands (s : State) (l : FMap Strand) (n die : Nat) (cell : Option Nat) (part va : Nat) :
    lookupLeaf (withStrands s l n) die cell part va =
      (lookupLeaf s die cell part va).map fun p => (p.1, withStrands p.2 l n) := by
  have hw := walkFrom_withStrands s l n die part va 4 0 (getPart s part).root {}
  have hl := l2Read_withStrands l n
  have hd : getDie (withStrands s l n) die = getDie s die := rfl
  cases cell with
  | none =>
    simp only [lookupLeaf, hd]
    cases tlbFind (getDie s die).tlb part va with
    | some e => rfl
    | none =>
      simp only []
      rw [show (getPart (withStrands s l n) part).root = (getPart s part).root from rfl, hw]
      cases walkFrom s die part va 4 0 (getPart s part).root {} <;> simp only [hl] <;> rfl
  | some c =>
    simp only [lookupLeaf, hd, show getCell (withStrands s l n) c = getCell s c from rfl]
    cases tlbFind (getCell s c).tlb part va with
    | some e => rfl
    | none =>
      simp only []
      cases tlbFind (getDie s die).tlb part va with
      | some e => rfl
      | none =>
        simp only []
        rw [show (getPart (withStrands s l n) part).root = (getPart s part).root from rfl, hw]
        cases walkFrom s die part va 4 0 (getPart s part).root {} <;> simp only [hl] <;> rfl

/-- Translation does not depend on the strands and does not change them. -/
theorem translate_withStrands (s : State) (l : FMap Strand) (n die : Nat) (cell : Option Nat) (part : Nat) (u : Use)
    (ea : Word) :
    translate (withStrands s l n) die cell part u ea =
      (translate s die cell part u ea).map fun p => (p.1, withStrands p.2 l n) := by
  unfold translate
  rw [lookupLeaf_withStrands]
  split
  · rfl
  · cases lookupLeaf s die cell part ea.toNat with
    | error t => rfl
    | ok p =>
      simp only [Except.map]
      cases useLeaf u ea.toNat p.1 with
      | error t => rfl
      | ok pa => simp only []; split <;> rfl

/-- What a lookup changes: caches of the cell and of the die. -/
theorem lookupLeaf_same {s : State} {die : Nat} {cell : Option Nat} {part va : Nat} {e : TlbEntry} {t : State}
    (h : lookupLeaf s die cell part va = .ok (e, t)) :
    t.mem = s.mem ∧ t.strands = s.strands ∧ t.ctxs = s.ctxs ∧ t.hub = s.hub ∧ t.clock = s.clock ∧ t.cur = s.cur ∧
      t.freeCount = s.freeCount ∧ t.nextId = s.nextId := by
  unfold lookupLeaf at h
  cases cell with
  | none =>
    simp only [] at h
    split at h
    · injection h with h; injection h with h1 h2; subst h2; simp
    · split at h
      · cases h
      · injection h with h; injection h with h1 h2; subst h2; simp [l2Read_same]
  | some c =>
    simp only [] at h
    split at h
    · injection h with h; injection h with h1 h2; subst h2; simp
    · split at h
      · injection h with h; injection h with h1 h2; subst h2; simp
      · split at h
        · cases h
        · injection h with h; injection h with h1 h2; subst h2; simp [l2Read_same]

/-- What a translation changes: caches of the cell and of the die. -/
theorem translate_same {s : State} {die : Nat} {cell : Option Nat} {part : Nat} {u : Use} {ea : Word} {x : Xlat}
    {t : State} (h : translate s die cell part u ea = .ok (x, t)) :
    t.mem = s.mem ∧ t.strands = s.strands ∧ t.ctxs = s.ctxs ∧ t.hub = s.hub ∧ t.clock = s.clock ∧ t.cur = s.cur ∧
      t.freeCount = s.freeCount ∧ t.nextId = s.nextId := by
  unfold translate at h
  split at h
  · cases h
  · split at h
    · cases h
    · rename_i hl
      split at h
      · cases h
      · split at h
        · cases h
        · injection h with h; injection h with h1 h2; subst h2
          exact lookupLeaf_same hl

/-! ## Memory -/

/-- A write of memory changes the bytes it names and keeps the canonical form. -/
theorem memWrite_mem (s : State) (pa n v : Nat) : (memWrite s pa n v).mem = writeN s.mem pa n v := rfl

theorem memWrite_outside (s : State) (pa n v j : Nat) (h : j < pa ∨ pa + n ≤ j) :
    mread (memWrite s pa n v).mem j = mread s.mem j := mread_writeN_outside _ _ _ _ _ h

theorem memWrite_wf {s : State} (h : memWf s.mem) (pa n v : Nat) : memWf (memWrite s pa n v).mem := writeN_wf h _ _ _

/-- A write of scratchpad changes the bytes it names and keeps the canonical form. -/
theorem spmWrite_outside (s : State) (cell : Nat) (g : Seg) (v j : Nat) (h : j < g.addr ∨ g.addr + g.len ≤ j) :
    mread (getCell (spmWrite s cell g v) cell).spm j = mread (getCell s cell).spm j := by
  simp only [spmWrite, modCell, getCell_putCell]
  exact mread_writeN_outside _ _ _ _ _ h

theorem spmWrite_wf {s : State} {cell : Nat} (h : memWf (getCell s cell).spm) (g : Seg) (v : Nat) :
    memWf (getCell (spmWrite s cell g v) cell).spm := by
  simp only [spmWrite, modCell, getCell_putCell]
  exact writeN_wf h _ _ _

theorem spmRead_spmWrite {s : State} {cell : Nat} (h : memWf (getCell s cell).spm) (g : Seg) (v : Nat) :
    spmRead (spmWrite s cell g v) cell g = v % 256 ^ g.len := by
  simp only [spmRead, spmWrite, modCell, getCell_putCell]
  exact readN_writeN h _ _ _

end Sys2Proof.Machine
end

