-- ==== Sys2Proof/Laws/Control.lean ====
section
/-! SUPPORT. Records through BQ, the words tagged ALL, and the raising of a fault.
-/

namespace Sys2Proof.Machine

open Host (Outcome)

/-! ## Records (R318) -/

theorem foldl_modEng_getEng (f : EngState → EngState) (l : List Eng) (hl : l.Nodup) (st : Strand) (e : Eng) :
    getEng (l.foldl (fun st e => modEng st e f) st) e = if e ∈ l then f (getEng st e) else getEng st e := by
  induction l generalizing st with
  | nil => simp
  | cons x t ih =>
    obtain ⟨hx, ht⟩ := List.nodup_cons.mp hl
    rw [List.foldl_cons, ih ht]
    by_cases h : e = x
    · subst h; simp [hx]
    · simp [h, getEng_modEng_other _ _ _ _ h]

theorem foldl_modEng_same (f : EngState → EngState) (l : List Eng) (st : Strand) :
    (∀ r, latest (l.foldl (fun st e => modEng st e f) st) r = latest st r) ∧
      restOf (l.foldl (fun st e => modEng st e f) st) = restOf st ∧
      allFlags (l.foldl (fun st e => modEng st e f) st) = allFlags st := by
  induction l generalizing st with
  | nil => exact ⟨fun _ => rfl, rfl, rfl⟩
  | cons x t ih =>
    obtain ⟨h1, h2, h3⟩ := ih (modEng st x f)
    exact ⟨fun r => (h1 r).trans (latest_modEng _ _ _ _), h2, h3⟩

theorem mem_maskEngs (st : Strand) (e : Eng) : e ∈ maskEngs st ↔ inMask st e = true := by
  have : e ∈ allEngs := by cases e <;> simp [allEngs]
  simp [maskEngs, this]

theorem maskEngs_nodup (st : Strand) : (maskEngs st).Nodup :=
  List.Nodup.filter _ (by decide)

/-- A record goes to the BQ of every other engine of the mask when each has room. -/
theorem sendBq_ok (st : Strand) (x : BqRec)
    (h : ∀ e, e ≠ .c → inMask st e = true → (getEng st e).bq.length < 64) :
    ∃ u, sendBq st x = .ok u ∧ getEng u .c = getEng st .c ∧
      (∀ e, e ≠ .c → getEng u e =
        if inMask st e then { getEng st e with bq := (getEng st e).bq ++ [x] } else getEng st e) ∧
      (∀ r, latest u r = latest st r) ∧ restOf u = restOf st ∧ allFlags u = allFlags st := by
  have hn : ((maskEngs st).filter (· != .c)).any (fun e => decide (64 ≤ (getEng st e).bq.length)) = false := by
    rw [List.any_eq_false]
    intro e he
    simp only [List.mem_filter, mem_maskEngs, bne_iff_ne, ne_eq] at he
    have := h e he.2 he.1
    simp only [decide_eq_true_eq]; omega
  refine ⟨_, by rw [sendBq]; simp only [hn]; rfl, ?_, ?_, foldl_modEng_same _ _ _⟩
  · rw [foldl_modEng_getEng _ _ (List.Nodup.filter _ (maskEngs_nodup st))]
    simp
  · intro e he
    rw [foldl_modEng_getEng _ _ (List.Nodup.filter _ (maskEngs_nodup st))]
    simp [mem_maskEngs, he]

/-- The head of the BQ of an engine that does not lean. -/
theorem takeBq_ok (st : Strand) (e : Eng) (x : BqRec) (rest : List BqRec) (h : (getEng st e).bq = x :: rest)
    (hl : st.lean = none) : takeBq st e = .ok (x, modEng st e fun en => { en with bq := rest }) := by
  simp [takeBq, hl, h]

/-! ## Words tagged ALL -/

/-- A word tagged ALL at an engine: the strand it leaves, counted at C. -/
theorem issueAll_ok {s : State} {e : Eng} {st st' : Strand} (h : AtEngine s e st) (body : Walker → Strand → Act Strand)
    (hb : body s.cur (atIssue s st) = .ok st') :
    ∃ t u, issueAll s body = .next t ∧ getStrand t (Walker.ref s.cur) = some u ∧ (∀ x, getEng u x = getEng st' x) ∧
      (∀ r, latest u r = latest st' r) ∧ restOf u = restOf st' ∧ allFlags u = allFlags st' ∧ SameElsewhere s t := by
  have hi := issueWith_ok h (fun w st s' => do
    let st' ← body w st
    let s'' := putStrand s' (Walker.ref w) st'
    .ok (if w.eng = .c then countC s'' (Walker.ref w) else s''))
    (t := if e = .c then countC (putStrand (putStrand { s with freeCount := s.freeCount + 1 } (Walker.ref s.cur)
        (atIssue s st)) (Walker.ref s.cur) st') (Walker.ref s.cur)
      else putStrand (putStrand { s with freeCount := s.freeCount + 1 } (Walker.ref s.cur) (atIssue s st))
        (Walker.ref s.cur) st')
    (by simp only [hb, bind, Except.bind, h.1])
  have other : ∀ k, k ≠ SRef.key (Walker.ref s.cur) →
      fget (putStrand (putStrand { s with freeCount := s.freeCount + 1 } (Walker.ref s.cur) (atIssue s st))
        (Walker.ref s.cur) st').strands k = fget s.strands k := fun k hk => by
    simp [fget_fset_other _ _ _ _ hk]
  by_cases he : e = .c
  · rw [if_pos he] at hi
    obtain ⟨h1, h2, h3, h4, -, h5, h6⟩ := countC_same
      (putStrand (putStrand { s with freeCount := s.freeCount + 1 } (Walker.ref s.cur) (atIssue s st))
        (Walker.ref s.cur) st') (Walker.ref s.cur)
    refine ⟨_, perfAdd st' 1 1, hi, by simp [h5], fun _ => rfl, by simp, rfl, rfl, h1, h2, h3, h4, fun k hk => ?_⟩
    have := h6 ⟨0, k⟩ (by simpa [SRef.key] using hk)
    simp only [getStrand, SRef.key, Nat.mul_zero, Nat.zero_add] at this
    rw [this]
    exact other k hk
  · rw [if_neg he] at hi
    exact ⟨_, st', hi, by simp, fun _ => rfl, fun _ => rfl, rfl, rfl, rfl, rfl, rfl, rfl, other⟩

end Sys2Proof.Machine
end

