-- ==== Sys2Proof/Tests/Slice0.lean ====
section
/-! SUPPORT. Tests: words written out from the encodings of R26 to R41 decode to their instructions, an ill-formed term
for each check of well-formedness, the spec's worked values, and for each statement of Obligations.lean states and operands
that meet its hypotheses together.
-/

namespace Sys2Proof.Tests

open Sys2Proof Machine

set_option Elab.async false

/-! ## Words decode to their instructions -/

/-- No token. -/
def t0 : Tk := Tk.none

/-- Each word decodes to its instruction. -/
def reads (l : List (Word × Instr)) : Bool :=
  l.all fun p => match decode p.1 with | .ok i => decide (i = p.2) | .error _ => false

theorem test_decode_integer : reads
    [(0x010200C082000000, .add 1 3 1 2),
     (0x020200C082000000, .sub 1 3 1 2),
     (0x030600C082000000, .mul 3 3 1 2),
     (0x040800C082000000, .mulh 4 3 1 2),
     (0x050800C082000000, .mulhu 4 3 1 2),
     (0x061C00C082000000, .div 14 3 1 2),
     (0x071C00C082000000, .divu 14 3 1 2),
     (0x081C00C082000000, .rem 14 3 1 2),
     (0x091C00C082000000, .remu 14 3 1 2),
     (0x0A0200C082000000, .and 1 3 1 2),
     (0x0B0200C082000000, .or 1 3 1 2),
     (0x0C0200C082000000, .xor 1 3 1 2),
     (0x0D0200C082000000, .shl 1 3 1 2),
     (0x0E0200C082000000, .shr 1 3 1 2),
     (0x0F0200C082000000, .sra 1 3 1 2),
     (0x100200C082000000, .min 1 3 1 2),
     (0x110200C082000000, .max 1 3 1 2),
     (0x120200C082000000, .minu 1 3 1 2),
     (0x130200C082000000, .maxu 1 3 1 2),
     (0x140200C080000000, .clz 1 3 1),
     (0x150200C080000000, .popc 1 3 1),
     (0x160200C0823E0000, .sel 1 3 1 2 31),
     (0x170200C082005000, .cmp 1 .leu 3 1 2)] = true := by decide +kernel

theorem test_decode_immediate : reads
    [(0x180200C087FFFFFE, .addi 1 3 1 (-2)),
     (0x190200C087FFFFFE, .andi 1 3 1 (-2)),
     (0x1A0200C087FFFFFE, .ori 1 3 1 (-2)),
     (0x1B0200C087FFFFFE, .xori 1 3 1 (-2)),
     (0x1E0200C087FFFFFE, .lih 1 3 1 (-2)),
     (0x1C0200C09000003F, .shi 1 .sra 3 1 63),
     (0x1D0200C007FFFFFE, .li 1 3 (-2)),
     (0x1F0200C0A7FFFFFE, .cmpi 1 .ltu 3 1 (-2))] = true := by decide +kernel

theorem test_decode_branch : reads
    [(0x20A00000FFFFFFFD, .br (-3)),
     (0x21A00510FFFFFFFD, .brc .nz .notTaken 4 (-3)),
     (0x21A00D9000000007, .brc .le .taken 4 7),
     (0x22A0000000000009, .call 9),
     (0x23A0000000000000, .ret),
     (0x24A0007C00000000, .jr 31),
     (0x25A0001800000005, .loop 6 5),
     (0x26A000000000000E, .loopr 14),
     (0x27A0060028000006, .ploop 3 0 5 6)] = true := by decide +kernel

theorem test_decode_strand : reads
    [(0x2800000000000000, .waitTrig),
     (0x2800000080000000, .waitCpy),
     (0x2800000100000000, .waitColl),
     (0x2800050180000009, .waitFlag 5 9),
     (0x2800050200000000, .waitTime 5),
     (0x2900000000000000, .yield),
     (0x2A00000000000000, .trig),
     (0x2BA0000000000000, .exit),
     (0x2C0000000000FFFF, .trap 0xFFFF),
     (0x2D00000180020002, .fence .dom .rel 2),
     (0x2EA0000000000000, .sbar),
     (0x2FA00000000000FF, .ovl 255),
     (0x00A0000000000000, .nop .all Tk.none)] = true := by decide +kernel

theorem test_decode_queue : reads
    [(0x30000228000018B0, .pushHset 5 2 false true true 0x31),
     (0x3000002800001881, .pushHfree 5 0x31),
     (0x3000002800001882, .pushHread 5 0x31),
     (0x3000002880000000, .pushGset 5),
     (0x3000002880000001, .pushGfree 5),
     (0x3000002880000002, .pushCrun 5),
     (0x311E050000000000, .popCpy 15 5),
     (0x311E050080000000, .popColl 15 5),
     (0x320405000000017F, .mfst 2 5 0x17F),
     (0x3300000800000001, .mtst 1 1),
     (0x3400002980000000, .qsend .m 5),
     (0x351E050000000000, .qrecv 15 5),
     (0x361E0A0800000000, .launch 15 10 1),
     (0x371E05300000003F, .bind 15 5 6 63),
     (0x3C1E053000000001, .sysInval 15 5 6),
     (0x3C1E053000000002, .sysFgive 15 5 6),
     (0x3C1E053000000003, .sysFtake 15 5 6),
     (0x3C1E053000000004, .sysMread 15 5 6)] = true := by decide +kernel

theorem test_decode_scalar : reads
    [(0x381E041060C80010, .ld 15 .e8 false 2 .normal true 4 3 0x10),
     (0x381E00106223FFFF, .ld 15 .e1 true 0 .stream false 4 3 (-1)),
     (0x39001E13E057FFFF, .st .e2 15 .bypass true 4 31 (-1)),
     (0x3A1E021072CC0000, .amo 15 .cas true 1 true true 4 3 0),
     (0x3B00000061800008, .pfl true 3 8),
     (0x3B00000060C00008, .pfl false 3 8)] = true := by decide +kernel

theorem test_decode_load : reads
    [(0x402200C087FFFFFE, .aadd ⟨1, t0⟩ 3 1 (-2)),
     (0x412200C007FFFFFE, .aset ⟨1, t0⟩ 3 (-2)),
     (0x412200C087FFFFFE, .asetH ⟨1, t0⟩ 3 (-2)),
     (0x412200C107FFFFFE, .asetQ ⟨1, t0⟩ 3 (-2)),
     (0x4222042980000006, .sdset ⟨1, t0⟩ 3 2 4 (some 5)),
     (0x4222040180000001, .sdset ⟨1, t0⟩ 3 1 4 none),
     (0x4320200041000400, .ldq ⟨false, false, false, true⟩ none 2 0x400),
     (0x432000004BC00000, .ldq t0 (some 5) 2 0),
     (0x442000004AC00000, .ldqs t0 .e8 5 2 0),
     (0x4520000040400000, .ldg t0 .e2 2 0),
     (0x4620000040800000, .ldpk t0 .e4 2 0),
     (0x4720060041180000, .ldmq t0 none 3 .bypass true 2 0),
     (0x4720000040C00000, .ldmq t0 (some .e8) 0 .normal false 2 0),
     (0x4820007C4B400000, .omfill t0 31 5 2 0),
     (0x49200449D4280051, .cpy t0 ⟨1, some 9, 3, true, false, .spm, .mem, 2, true, 0x51⟩),
     (0x4A200807AD00FFFF, .cpyh t0 ⟨2, none, 15, false, true, .wcs, .spm, 0, false, 0xFFFF⟩),
     (0x4B20808460800000, .rps ⟨false, true, false, false⟩ true false false 1 3 0),
     (0x4C20000041000040, .pf t0 .row 2 64)] = true := by decide +kernel

theorem test_decode_store : reads
    [(0x588200C087FFFFFE, .badd ⟨1, t0⟩ 3 1 (-2)),
     (0x598200C007FFFFFE, .bset ⟨1, t0⟩ 3 (-2)),
     (0x598200C087FFFFFE, .bsetH ⟨1, t0⟩ 3 (-2)),
     (0x598200C107FFFFFE, .bsetQ ⟨1, t0⟩ 3 (-2)),
     (0x5A80000041000200, .stq t0 none 2 512),
     (0x5A8000004BC00000, .stq t0 (some 5) 2 0),
     (0x5B8000004AC00000, .stqs t0 .e8 5 2 0),
     (0x5C80000040400000, .sts t0 .e2 2 0),
     (0x5D80003040800000, .stsa t0 .bf16 2 0),
     (0x5E80008020400000, .stpk t0 .e2 32 1 0),
     (0x5F80060041240000, .stmq t0 none 3 .stream true 2 0),
     (0x5F80000440C00000, .stmqSc t0 true 0 .normal false 2 0),
     (0x5F810428A0800040, .stmqAdd ⟨true, false, false, false⟩ .f32 2 .normal false 5 0x40),
     (0x6080000041000000, .bput t0 2 0)] = true := by decide +kernel

theorem test_decode_vectorArith : reads
    [(0x684200C080000E00, .vmov ⟨⟨1, t0⟩, .b, .em, .lmode, false⟩ (.v 3) (.v 1)),
     (0x6A4200C082000400, .vbcast ⟨⟨1, t0⟩, .i32, .em, .lmode, false⟩ (.v 3) (.v 1) (.v 2)),
     (0x6A42108000001400, .vbcastQ ⟨⟨1, t0⟩, .i32, .em, .lmode, false⟩ .sq),
     (0x694200C007FFFFFE, .vmovi ⟨1, t0⟩ .i8 (.v 3) (-2)),
     (0x6B4200C3AFFFFFFE, .vidx ⟨1, t0⟩ .u32 (.v 3) 7 (-2)),
     (0x6C4420C0C0000A40, .vadd ⟨⟨2, ⟨false, false, false, true⟩⟩, .f32, .emCm, .lmode, false⟩ (.v 3) (.v 1) .lq),
     (0x6D4400C082000C30, .vsub ⟨⟨2, t0⟩, .t8, .em, .ru, false⟩ (.v 3) (.v 1) (.v 2)),
     (0x6E46086002000A00, .vmul ⟨⟨3, t0⟩, .f32, .em, .lmode, false⟩ (.v 33) .lq (.v 2)),
     (0x6F4800C082080900, .vfma ⟨⟨4, t0⟩, .bf16, .em, .lmode, false⟩ (.v 3) (.v 1) (.v 2) (.v 4)),
     (0x704800C082080401, .vfms ⟨⟨4, t0⟩, .i32, .em, .lmode, true⟩ (.v 3) (.v 1) (.v 2) (.v 4)),
     (0x714400C082000800, .vmin ⟨⟨2, t0⟩, .f16, .em, .lmode, false⟩ (.v 3) (.v 1) (.v 2)),
     (0x724400C082000300, .vmax ⟨⟨2, t0⟩, .u16, .em, .lmode, false⟩ (.v 3) (.v 1) (.v 2)),
     (0x734200C080000600, .vabs ⟨⟨1, t0⟩, .i4, .em, .lmode, false⟩ (.v 3) (.v 1)),
     (0x744200C080000D00, .vneg ⟨⟨1, t0⟩, .t6, .em, .lmode, false⟩ (.v 3) (.v 1)),
     (0x754400C082000200, .vadds ⟨⟨2, t0⟩, .i16, .em, .lmode, false⟩ (.v 3) (.v 1) (.v 2)),
     (0x764400C082000200, .vsubs ⟨⟨2, t0⟩, .i16, .em, .lmode, false⟩ (.v 3) (.v 1) (.v 2)),
     (0x774600C082000200, .vmulh ⟨⟨3, t0⟩, .i16, .em, .lmode, false⟩ (.v 3) (.v 1) (.v 2)),
     (0x784200C082000EC0, .vand ⟨⟨1, t0⟩, .b, .all, .lmode, false⟩ (.v 3) (.v 1) (.v 2)),
     (0x794200C082000EC0, .vor ⟨⟨1, t0⟩, .b, .all, .lmode, false⟩ (.v 3) (.v 1) (.v 2)),
     (0x7A4200C082000EC0, .vxor ⟨⟨1, t0⟩, .b, .all, .lmode, false⟩ (.v 3) (.v 1) (.v 2)),
     (0x7B4200C082000180, .vshl ⟨⟨1, t0⟩, .u8, .emNotCm, .lmode, false⟩ (.v 3) (.v 1) (.v 2)),
     (0x7C4200C082000180, .vshr ⟨⟨1, t0⟩, .u8, .emNotCm, .lmode, false⟩ (.v 3) (.v 1) (.v 2)),
     (0x7D4200C082000180, .vsra ⟨⟨1, t0⟩, .u8, .emNotCm, .lmode, false⟩ (.v 3) (.v 1) (.v 2))] = true := by decide +kernel

theorem test_decode_vectorMove : reads
    [(0x7E46010082001100, .vwmul ⟨⟨3, t0⟩, .u8, .em, .lmode, false⟩ true (.v 4) (.v 1) (.v 2)),
     (0x7F44010082000800, .vwadd ⟨⟨2, t0⟩, .f16, .em, .lmode, false⟩ false (.v 4) (.v 1) (.v 2)),
     (0x804400C400001001, .vnarrow ⟨⟨2, t0⟩, .i8, .em, .lmode, true⟩ true (.v 3) (.v 8)),
     (0x814600C20000CA00, .vcvt ⟨⟨3, t0⟩, .f32, .em, .lmode, false⟩ .t8 (.v 3) (.v 4)),
     (0x82440000C4001900, .vcmp ⟨⟨2, t0⟩, .bf16, .em, .lmode, false⟩ .ne false (.v 1) .vz),
     (0x8244000082007A02, .vcmp ⟨⟨2, t0⟩, .f32, .em, .lmode, false⟩ .ord true (.v 1) (.v 2)),
     (0x8344000080015A02, .vclass ⟨⟨2, t0⟩, .f32, .em, .lmode, false⟩ 0x15 true false (.v 1)),
     (0x844200C082000400, .vsel ⟨⟨1, t0⟩, .i32, .em, .lmode, false⟩ (.v 3) (.v 1) (.v 2)),
     (0x854600C082000A00, .vperm ⟨⟨3, t0⟩, .f32, .em, .lmode, false⟩ (.v 3) (.v 1) (.v 2)),
     (0x864600C082080A00, .vshuf ⟨⟨3, t0⟩, .f32, .em, .lmode, false⟩ (.v 3) (.v 1) (.v 2) (.v 4)),
     (0x874400C082000A00, .vrot ⟨⟨2, t0⟩, .f32, .em, .lmode, false⟩ (.v 3) (.v 1) (.v 2)),
     (0x884400C082080A00, .vslide ⟨⟨2, t0⟩, .f32, .em, .lmode, false⟩ (.v 3) (.v 1) (.v 2) (.v 4)),
     (0x895010C080002400, .vred ⟨⟨8, t0⟩, .i32, .em, .lmode, false⟩ .max .vcq (.v 1)),
     (0x8A4810C000003400, .vany ⟨⟨4, t0⟩, .i32, .em, .lmode, false⟩ .first .vcq),
     (0x8B48308080000940, .vcompress ⟨⟨4, ⟨false, false, false, true⟩⟩, .bf16, .emCm, .lmode, false⟩ .sq (.v 1)),
     (0x8C4800C0820001C0, .vexpand ⟨⟨4, t0⟩, .u8, .all, .lmode, false⟩ (.v 3) (.v 1) (.v 2)),
     (0x8D4C000080000500, .vconf ⟨⟨6, t0⟩, .u32, .em, .lmode, false⟩ (.v 1))] = true := by decide +kernel

theorem test_decode_special : reads
    [(0x8E4C00C080000A00, .vexp2 ⟨⟨6, t0⟩, .f32, .em, .lmode, false⟩ (.v 3) (.v 1)),
     (0x8F4C00C080000A00, .vlog2 ⟨⟨6, t0⟩, .f32, .em, .lmode, false⟩ (.v 3) (.v 1)),
     (0x905000C080000A00, .vexp ⟨⟨8, t0⟩, .f32, .em, .lmode, false⟩ (.v 3) (.v 1)),
     (0x915000C080000A00, .vlog ⟨⟨8, t0⟩, .f32, .em, .lmode, false⟩ (.v 3) (.v 1)),
     (0x924A00C080000A00, .vrcp ⟨⟨5, t0⟩, .f32, .em, .lmode, false⟩ (.v 3) (.v 1)),
     (0x934A00C080000A00, .vrsqrt ⟨⟨5, t0⟩, .f32, .em, .lmode, false⟩ (.v 3) (.v 1)),
     (0x945400C080000A00, .vsqrt ⟨⟨10, t0⟩, .f32, .em, .lmode, false⟩ (.v 3) (.v 1)),
     (0x955400C080000A00, .vtanh ⟨⟨10, t0⟩, .f32, .em, .lmode, false⟩ (.v 3) (.v 1)),
     (0x965400C080000A00, .vsigm ⟨⟨10, t0⟩, .f32, .em, .lmode, false⟩ (.v 3) (.v 1)),
     (0x975E050008000A06, .vorient2 ⟨t0, false, .em, true, some 8, .v 20, 0⟩),
     (0x985E050028000A06, .vorient3 ⟨t0, false, .em, true, some 40, .v 20, 0⟩),
     (0x995E050028000A06, .vincirc ⟨t0, false, .em, true, some 40, .v 20, 0⟩),
     (0x9A5E050028000A06, .vinsph ⟨t0, false, .em, true, some 40, .v 20, 0⟩),
     (0x9B5E050028000A06, .vsegx ⟨t0, false, .em, true, some 40, .v 20, 0⟩),
     (0x9C4800C002000A00, .vaccrd ⟨⟨4, t0⟩, .f32, .em, .lmode, false⟩ (.v 3) (.v 2)),
     (0x9D40000082000A00, .vaccwr ⟨⟨0, t0⟩, .f32, .em, .lmode, false⟩ (.v 1) (.v 2)),
     (0x9E40000080000500, .vtoix ⟨⟨0, t0⟩, .u32, .em, .lmode, false⟩ (.v 1)),
     (0x9F40000080000500, .vtol ⟨⟨0, t0⟩, .u32, .em, .lmode, false⟩ (.v 1)),
     (0xA040000080000500, .vtos ⟨⟨0, t0⟩, .u32, .em, .lmode, false⟩ (.v 1)),
     (0xA142014080000000, .emsave ⟨1, t0⟩ 5 true),
     (0xA242000380000000, .emrest ⟨1, t0⟩ .ones),
     (0xA342000300003000, .emcomb ⟨1, t0⟩ .xor .cm),
     (0xA440001F80000000, .vspill t0 63),
     (0xA55E00DF80000000, .vfill t0 (.v 3) 63)] = true := by decide +kernel

theorem test_decode_matrix : reads
    [(0xA860043280000003, .mclaim t0 (some (3, 5)) (some 2)),
     (0xA960040000000002, .mrel t0 none (some 2)),
     (0xAA60040002400000, .mzero t0 2 9),
     (0xAB612642FFC40000, .mma ⟨⟨true, false, false, true⟩, 3, 4, 5, 15, false, false, .over⟩),
     (0xAC614000FCC00040, .mmaq ⟨⟨true, false, true, false⟩, 0, 0, 1, 3, false, false, .acc⟩ 0x40),
     (0xAD6008340BE40000, .mmas ⟨t0, 4, 3, 8, 15, true, false, .over⟩ 2 0),
     (0xAE600221FC480000, .mmag ⟨t0, 1, 2, 3, 1, false, false, .sub⟩),
     (0xAF60000280000000, .mnset t0 (.level 5)),
     (0xAF60000300000000, .mnset t0 .header),
     (0xB060000000000000, .mnest t0),
     (0xB160040003C04FF0, .mdrain t0 2 ⟨true, false, 0x7F, true, .i8⟩),
     (0xB260000000000110, .mpload t0 0x10 1),
     (0xB360000008200000, .mpbind t0 2 true),
     (0xB460000000000000, .mtog t0),
     (0xC45E818282000005, .boundOpcode 4 .v ⟨15, ⟨false, true, false, false⟩⟩ 6 5 2 5),
     (0xC520000200000000, .boundOpcode 5 .l ⟨0, t0⟩ 0 4 0 0)] = true := by decide +kernel

/-! ## Ill-formed instructions are refused -/

/-- None of the instructions is well formed. -/
def refused (l : List Instr) : Bool := l.all fun i => !wellFormed i

def vc (lat : BitVec 4) (ty : Ty) (lanes : Mk := .em) (rm : Rm := .lmode) (sat : Bool := false) (tk : Tk := t0) : VCtl :=
  ⟨⟨lat, tk⟩, ty, lanes, rm, sat⟩

/-- R28: a LAT below the bound of the opcode. -/
theorem test_illformed_latency : refused
    [.add 0 3 1 2, .sub 0 3 1 2, .mul 2 3 1 2, .mulh 3 3 1 2, .div 13 3 1 2, .and 0 3 1 2, .sel 0 3 1 2 4, .li 0 3 1,
     .popCpy 14 3, .mfst 1 3 0, .mfst 14 3 2, .launch 14 3 1, .bind 14 3 1 0, .sysInval 14 3 1,
     .ld 14 .e8 false 0 .normal false 3 1 0, .amo 14 .add true 0 false false 3 1 0, .aadd ⟨0, t0⟩ 1 2 0,
     .sdset ⟨0, t0⟩ 1 0 2 none, .badd ⟨0, t0⟩ 1 2 0, .vmov (vc 0 .b) (.v 1) (.v 2), .vadd (vc 1 .f32) (.v 1) (.v 2) (.v 3),
     .vmul (vc 2 .f32) (.v 1) (.v 2) (.v 3), .vfma (vc 3 .f32) (.v 1) (.v 2) (.v 3) (.v 4), .vred (vc 7 .i32) .add .vcq (.v 1),
     .vsqrt (vc 9 .f32) (.v 1) (.v 2), .vaccwr (vc 1 .f32) (.v 1) (.v 2), .vtol (vc 1 .u32) (.v 1), .emsave ⟨0, t0⟩ 1 true] =
    true := by decide +kernel

/-- R35: a token for a neighbour that the engine does not have. -/
theorem test_illformed_tokens : refused
    [.nop (.one .c) ⟨true, false, false, false⟩, .nop .all ⟨false, false, false, true⟩, .nop (.one .l) ⟨true, false, false, false⟩,
     .ldq ⟨false, false, true, false⟩ none 1 0, .stq ⟨false, true, false, false⟩ none 1 0, .bput ⟨false, false, false, true⟩ 1 0,
     .omfill ⟨true, false, false, false⟩ 1 1 1 0, .pf ⟨true, false, false, false⟩ .line 1 0,
     .cpy ⟨false, false, false, true⟩ ⟨0, none, 0, true, false, .spm, .mem, 0, false, 0⟩,
     .boundOpcode 0 .c ⟨15, ⟨true, false, false, false⟩⟩ 1 1 1 0] = true := by decide +kernel

/-- The fields of the words of C, L and S. -/
theorem test_illformed_scalar : refused
    [.loop 1 1, .loopr 0, .ploop 1 1 5 1, .pushHset 1 0 false true true 0, .pushHset 1 31 false true true 0, .mfst 15 3 0x0F,
     .mtst 0x180 1, .ld 15 .e8 true 0 .normal false 3 1 0, .amo 15 .fadd true 0 false false 2 1 0,
     .amo 15 .cas true 0 false false 3 1 0, .amo 15 .cas true 0 false false 0 1 0, .sdset ⟨1, t0⟩ 1 1 2 (some 3),
     .ldpk t0 .e8 1 0, .rps t0 false false true 1 2 0, .stpk t0 .e8 32 1 0, .stpk t0 .e2 0 1 0,
     .cpy t0 ⟨0, none, 0, false, false, .spm, .imem, 0, false, 0⟩, .cpyh t0 ⟨0, none, 0, false, false, .wcs, .mem, 0, true, 0⟩,
     .boundOpcode 0 .c ⟨15, t0⟩ 32 1 1 0, .boundOpcode 0 .l ⟨15, t0⟩ 1 16 1 0, .boundOpcode 0 .v ⟨15, t0⟩ 1 66 1 0,
     .boundOpcode 0 .v ⟨15, t0⟩ 65 1 1 0] = true := by decide +kernel

/-- The types, groups, operands, rounding and saturation of the words of V. -/
theorem test_illformed_vector : refused
    [.vadd (vc 2 .b) (.v 1) (.v 2) (.v 3), .vadd (vc 2 .i32 .em .ru) (.v 1) (.v 2) (.v 3),
     .vadd (vc 2 .f32 .em .lmode true) (.v 1) (.v 2) (.v 3), .vadd (vc 2 .f32) .vcq (.v 2) (.v 3),
     .vadd (vc 2 .f64) (.v 1) (.v 2) (.v 4), .vadd (vc 2 .f64) (.v 0) (.v 3) (.v 4), .vadd (vc 2 .f64) (.v 0) .lqKeep (.v 4),
     .vmin (vc 2 .f32 .em .rz) (.v 1) (.v 2) (.v 3), .vadds (vc 2 .f32) (.v 1) (.v 2) (.v 3), .vand (vc 1 .f32) (.v 1) (.v 2) (.v 3),
     .vshl (vc 1 .b) (.v 1) (.v 2) (.v 3), .vbcast (vc 1 .f64) (.v 2) (.v 4) (.v 1), .vrot (vc 2 .f64) (.v 2) (.v 4) (.v 1), .vwmul (vc 3 .i32) false (.v 2) (.v 1) (.v 1), .vwmul (vc 3 .f16) true (.v 4) (.v 1) (.v 1),
     .vwmul (vc 3 .i8) true (.v 2) (.v 1) (.v 1), .vnarrow (vc 2 .i16) true (.v 1) (.v 4), .vnarrow (vc 2 .i8) false (.v 1) (.v 3),
     .vcvt (vc 3 .f32) .f32 (.v 1) (.v 2), .vcvt (vc 3 .f32) .b (.v 1) (.v 2), .vcvt (vc 3 .f64) .f16 (.v 1) (.v 2),
     .vcvt (vc 3 .i4) .f32 (.v 8) (.v 2), .vcvt (vc 3 .i32 .em .lmode true) .f32 (.v 1) (.v 2), .vcvt (vc 3 .i8) .f32 (.v 2) (.v 1),
     .vcmp (vc 2 .i32) .un false (.v 1) (.v 2), .vcmp (vc 2 .b) .lt false (.v 1) (.v 2), .vclass (vc 2 .i32) 1 false false (.v 1),
     .vclass (vc 2 .f32) 0 false false (.v 1), .vclass (vc 2 .f32) 4 true true (.v 1), .vsel (vc 1 .i32 .emCm) (.v 1) (.v 2) (.v 3),
     .vperm (vc 3 .i8) (.v 1) (.v 2) (.v 3), .vshuf (vc 3 .i4) (.v 1) (.v 2) (.v 3) (.v 2), .vred (vc 8 .t8) .add .vcq (.v 1),
     .vred (vc 8 .i32) .add .sq (.v 1), .vred (vc 8 .i32 .em .lmode true) .max .vcq (.v 1), .vany (vc 4 .i32) .any .sq,
     .vcompress (vc 4 .i4) (.v 2) (.v 1), .vcompress (vc 4 .i8) (.v 1) (.v 1), .vexpand (vc 4 .u8) (.v 1) (.v 2) (.v 3),
     .vconf (vc 6 .f32) (.v 1), .vexp2 (vc 6 .f64) (.v 2) (.v 4), .vrcp (vc 5 .i32) (.v 1) (.v 2), .vrcp (vc 5 .f32 .em .rd) (.v 1) (.v 2),
     .vaccrd (vc 4 .u32) (.v 1) (.v 2), .vtol (vc 0 .i32) (.v 1), .emsave ⟨1, t0⟩ 6 true, .emrest ⟨1, t0⟩ (.mk 6),
     .emcomb ⟨1, t0⟩ .or (.mk 7), .vfill t0 .vcq 1, .vmovi ⟨1, t0⟩ .i8 (.v 1) 128, .vmovi ⟨1, t0⟩ .t6 (.v 1) 64,
     .vmovi ⟨1, t0⟩ .b (.v 1) 0, .vidx ⟨1, t0⟩ .f32 (.v 1) 1 0, .vorient2 ⟨t0, false, .em, false, none, .vcq, 0⟩,
     .vinsph ⟨t0, false, .em, false, none, .v 1, 50⟩, .vincirc ⟨t0, false, .em, false, some 61, .v 1, 0⟩,
     .vorient3 ⟨t0, true, .em, false, none, .v 1, 1⟩] = true := by decide +kernel

/-- The fields of the words of M. -/
theorem test_illformed_matrix : refused
    [.mclaim t0 (some (5, 3)) none, .mrel t0 none none, .mzero t0 1 0, .mma ⟨t0, 1, 2, 3, 0, false, false, .acc⟩,
     .mmaq ⟨t0, 1, 31, 3, 1, false, false, .acc⟩ 1, .mmaq ⟨t0, 1, 2, 3, 1, false, false, .acc⟩ 0x10,
     .mmag ⟨t0, 1, 2, 3, 15, false, true, .acc⟩, .mnset t0 (.level 6), .mpload t0 255 1,
     .mdrain t0 1 ⟨false, false, 0, false, .f64⟩, .mdrain t0 1 ⟨true, false, 0, false, .b⟩] = true := by decide +kernel

/-- An event that names a unit which does not exist. -/
theorem test_illformed_events : refused
    [.barrierComplete 64 1, .omfillComplete ⟨192, 0⟩ 1, .omfillComplete ⟨0, 0⟩ 32, .copyStart 192, .copyComplete 0 16,
     .matrixGrant 4, .resultLands ⟨0, 4⟩ 0, .send ⟨4, 0, 0⟩, .recv ⟨0, 64, 0⟩, .collEnd ⟨0, 0, 16⟩, .abortAck 4 ⟨0, 0, 0, 0, 0, 0, 0⟩,
     .portDown 16 [], .pullDataArrive 0 0 (.data []), .pullDataArrive 4 0 .error, .pullGiveUp 4 0, .strandDispatch 64 1 ⟨0, 0⟩, .launchComplete 64 1,
     .faultTailWrite 64 0, .watchdog (.engine ⟨192, 0, .c⟩), .watchdog (.channel 0 16), .errorLogDrain (.die 4), .cellTestComplete 192 true, .barAccessError 64 true,
     .registerWrite 64 0 0 8 0, .thermalThrottle 4, .coldReset ⟨true, true, true, 0, 0, [1, 2, 3], []⟩,
     .warmReset true ⟨true, true, true, 0, 0, [0, 1, 2, 3, 4, 50, 100, 150], []⟩] = true := by decide +kernel

/-! ## The spec's worked values -/

/-- R156: each value rounds to its code of t8 with its flags; −0.3 and 1.0 × 10⁻⁵ are their fp32 patterns. -/
theorem test_t8_encodings :
    [(FV.num false 3 0), .num false 13 0, .num false 27 (-1), decodeF fmt32 false 0xBE99999A, .num false 2560 0, .num false 2600 0,
      .num false 5000 0, decodeF fmt32 false 0x3727C5AC].map (encodeT .t8) =
    [(0x58, 0), (0x6D, 0), (0x6E, 0x10), (0xA3, 0x10), (0x7E, 0x10), (0x7F, 0x10), (0x7F, 0x14), (0x01, 0x18)] := by
  decide +kernel

/-- R152: the code 0x6B of t8 is 11.0. -/
theorem test_t8_decoding : decodeT .t8 0x6B = .num false 11 0 := by decide +kernel

/-- R143: conversions from fp32 to int8. -/
theorem test_to_int8 :
    [toIntType .i8 .ne (decodeF fmt32 false 0x40600000), toIntType .i8 .rz (decodeF fmt32 false 0x40200000),
      toIntType .i8 .ne (decodeF fmt32 false 0xC3480000), toIntType .i8 .ne (decodeF fmt32 false 0x7FC00000),
      toIntType .i8 .ne (decodeF fmt32 false 0x80000000)] =
    [(4, 0x10), (2, 0x10), (0x80, 0x01), (0, 0x01), (0, 0)] := by decide +kernel

/-- R157: the elements 1.0, −2.0, 0.5 and NaR of t6 in memory and in their containers. -/
theorem test_t6_packing : packElems 6 [0x10, 0x38, 0x08, 0x20] = 0x808E10 ∧ unpackT6 0x808E10 4 = 0x20083810 := by
  decide +kernel

/-- FIPS 180-4: the digest of "abc". -/
theorem test_sha_abc : (sha256 [0x61, 0x62, 0x63]).take 4 = [0xBA, 0x78, 0x16, 0xBF] := by decide +kernel


/-! ## States and operands that meet the hypotheses of the statements -/

/-! ## Small states for the witnesses -/

/-- A strand with all five engines that holds its block. -/
def strand0 : Strand := { uid := 1, emask := 0b11111, block := true }

/-- A cell whose units, banks and slots belong to the service partition, with one page of 16 KiB at 0 mapped. -/
def cell0 : Cell :=
  { au := some 0, vu := some 0, mu := some 0, banks := Vector.replicate 32 (some 0), slots := Vector.replicate 4 (some 0),
    tlb := [⟨0, 0, 3, 0, 0x1E⟩] }

/-- The strand in slot 0 of cell 0, at the turn of an engine. -/
def on (e : Eng) (st : Strand) : State :=
  { State.reset with cur := ⟨0, 0, e⟩, strands := [(0, st)], ctxs := [(0, { win := 100 })], cells := [(0, cell0)] }

theorem settle_none (c : Nat) (st : Strand) (h : st.pending = []) : settle c st = st := by
  cases st
  simp only at h
  subst h
  rfl

theorem at_on (e : Eng) (st : Strand) (h : st.pending = []) : AtEngine (on e st) e st :=
  ⟨rfl, congrArg some (settle_none 0 st h)⟩

/-- Nothing is on its way to a register, poisoned or out of its file. -/
def Plain (st : Strand) : Prop := st.pending = [] ∧ st.poisoned = [] ∧ st.vOut = 0

theorem readable_of_plain {st : Strand} (h : Plain st) (r : Reg) : Readable st r := by
  obtain ⟨h1, h2, h3⟩ := h
  refine ⟨?_, by simp [h1], by simp [h2]⟩
  cases r <;> simp [regOut, h3]

theorem tokens_none (st : Strand) (e : Eng) : Claims.TokensReady st e Tk.none := by
  simp [Claims.TokensReady, Tk.none]

theorem room_of_empty {st : Strand} (h : ∀ e, (getEng st e).bq.length < 64) : Claims.BqRoom st := fun e _ _ => h e

/-- An action answers this value. -/
def answers {α : Type} [DecidableEq α] (x : Act (α × State)) (a : α) : Bool :=
  match x with
  | .ok p => decide (p.1 = a)
  | .error _ => false

theorem exists_of_answers {α : Type} [DecidableEq α] {x : Act (α × State)} {a : α} (h : answers x a = true) :
    ∃ s', x = .ok (a, s') := by
  unfold answers at h
  split at h
  · next p => exact ⟨p.2, by rw [← of_decide_eq_true h]⟩
  · simp at h

/-- An action succeeds. -/
def succeeds {α : Type} (x : Act α) : Bool := match x with | .ok _ => true | .error _ => false

theorem exists_of_succeeds {α : Type} {x : Act α} (h : succeeds x = true) : ∃ t, x = .ok t := by
  cases x with
  | ok t => exact ⟨t, rfl⟩
  | error _ => exact absurd h (by simp [succeeds])

/-- The leaf of the mapped page. -/
def page0 : TlbEntry := ⟨0, 0, 3, 0, 0x1E⟩

/-- A strand with an engine changed. -/
def withEng (e : Eng) (x : EngState) (st : Strand := strand0) : Strand := putEng st e x

/-! ## Words of C -/

/-- IntegerWords, the register words of the other engines apart. -/
theorem witness_IntegerWords : AtEngine (on .c strand0) .c strand0 ∧ ∀ n, Readable strand0 (.g n) :=
  ⟨at_on _ _ rfl, fun _ => readable_of_plain ⟨rfl, rfl, rfl⟩ _⟩

/-- A branch at C, at the last offset of the window, and at L with C's record. -/
theorem witness_BranchWords :
    let st := withEng .l { bq := [.taken true] } { strand0 with g := strand0.g.set 1 99 }
    (AtEngine (on .c st) .c st ∧ (99 : Int) = (getEng st .c).pc + (99 : BitVec 32).toInt ∧ Readable st (.g 1) ∧
      Claims.BqRoom st ∧ (gNow st 1).toNat < 2 ^ 15 ∧ (gNow st 1).toNat < (getCtx (on .c st) 0 st.part).win) ∧
    AtEngine (on .l st) .l st ∧ Claims.HasRecord st .l (.taken true) [] :=
  ⟨⟨at_on _ _ rfl, by decide, readable_of_plain ⟨rfl, rfl, rfl⟩ _, room_of_empty (by intro e; cases e <;> decide),
    by decide +kernel, by decide +kernel⟩, at_on _ _ rfl, by decide, rfl, rfl⟩

/-- A `jr` to the first word beyond the window. -/
theorem witness_BranchConditions :
    let st := { strand0 with g := strand0.g.set 1 100 }
    AtEngine (on .c st) .c st ∧ Readable st (.g 1) ∧ (getCtx (on .c st) 0 st.part).win ≤ (gNow st 1).toNat ∧
      (getEng st .c).micro = none ∧ st.lean = none :=
  ⟨at_on _ _ rfl, readable_of_plain ⟨rfl, rfl, rfl⟩ _, by decide +kernel, rfl, rfl⟩

/-- Return stacks of 15, 16 and no entries, and an entry to return to. -/
theorem witness_CallWords :
    let st := fun l => withEng .m { ret := l }
    (∀ l, AtEngine (on .m (st l)) .m (st l)) ∧ (getEng (st (List.replicate 15 7)) .m).ret.length < 16 ∧
      16 ≤ (getEng (st (List.replicate 16 7)) .m).ret.length ∧ (getEng (st []) .m).ret = [] ∧
      (getEng (st [99]) .m).ret = [99] ∧ 99 < (getCtx (on .m (st [99])) 0 0).win ∧
      (5 : Int) = (getEng (st []) .m).pc + (5 : BitVec 32).toInt :=
  ⟨fun _ => at_on _ _ rfl, by decide, by decide, rfl, rfl, by decide +kernel, by decide⟩

/-- A loop of one pass at C, one of none at V from C's record, and a count from RPQ. -/
theorem witness_LoopWords :
    let st := withEng .v { bq := [.trip 0] } { strand0 with g := strand0.g.set 1 1, rpq := [⟨1, true, true, false⟩] }
    (AtEngine (on .c st) .c st ∧ Readable st (.g 1) ∧ Claims.BqRoom st ∧ (gNow st 1).toInt.toNat = 1 ∧
      (gNow st 1).toInt ≤ 0xFFFFFFFF ∧ (getEng st .c).loops.length < 4) ∧
    (AtEngine (on .v st) .v st ∧ Claims.HasRecord st .v (.trip 0) []) ∧
    ∃ x rest, st.rpq = x :: rest ∧ x.toC = true ∧ x.diff.toNat = 1 :=
  ⟨⟨at_on _ _ rfl, readable_of_plain ⟨rfl, rfl, rfl⟩ _, room_of_empty (by intro e; cases e <;> decide), by decide +kernel,
    by decide +kernel, by decide⟩, ⟨at_on _ _ rfl, by decide, rfl, rfl⟩, _, _, rfl, rfl, by decide⟩

/-- The end of a loop with two passes left, and with one. -/
theorem witness_LoopEnd : ∀ n,
    let st := withEng .s { loops := [⟨2, 5, n, 0⟩], arrived := true, pc := 5 }
    getStrand (on .s st) ⟨0, 0⟩ = some st ∧ (getEng st .s).loops = [⟨2, 5, n, 0⟩] ∧ (getEng st .s).arrived = true ∧
      (getEng st .s).pc = 5 ∧ (getEng st .s).ret.length = 0 :=
  fun _ => ⟨rfl, rfl, rfl, rfl, rfl⟩

/-- A kernel of one word in one stage, with one iteration. -/
theorem witness_PipelinedLoop :
    let st := { strand0 with g := strand0.g.set 5 1 }
    AtEngine (on .c st) .c st ∧
      stagesOk ((List.range 1).map fun i => (fetchWord (getCtx (on .c st) 0 0) (1 + i)).toNat) 1 1 = true ∧
      (getEng st .c).clamped = none ∧ Readable st (.g 5) ∧ Claims.BqRoom st ∧ (gNow st 5).toInt ≤ 0xFFFFFFFF ∧
      (gNow st 5).toInt.toNat = 1 ∧ (gNow strand0 5).toInt.toNat = 0 :=
  ⟨at_on _ _ rfl, by decide +kernel, rfl, readable_of_plain ⟨rfl, rfl, rfl⟩ _, room_of_empty (by intro e; cases e <;> decide),
    by decide +kernel, by decide +kernel, by decide +kernel⟩

/-- L on the arm of a branch that is taken, and on one that is not, with the outcome there. -/
theorem witness_LeanOutcome : ∀ b,
    let ln : LeanRun := ⟨true, 0, 5, {}, strand0.a, strand0.sd, [], [], [], none, false⟩
    let st := withEng .l { bq := [.taken b] } { strand0 with lean := some ln }
    getStrand (on .l st) ⟨0, 0⟩ = some st ∧ st.lean = some ln ∧ ln.confirmed = false ∧ (getEng st .l).bq = [.taken b] :=
  fun _ => ⟨rfl, rfl, rfl, rfl⟩

/-- A confirmed arm with nothing held, without and with a recorded fault; and one that holds a copy of 512 bytes of scratchpad. -/
theorem witness_LeanOutcome_confirmed :
    let q : QFault := ⟨{ cause := .align }, 1, 3, 0, none, none, 0⟩
    let ln := fun (held : List HeldCmd) (fault : Option QFault) =>
      (⟨true, 0, 5, {}, strand0.a, strand0.sd, [], [], held, fault, true⟩ : LeanRun)
    let c : HeldCmd := ⟨.cpy t0 ⟨0, none, 0, false, false, .spm, .spm, 0, false, 7⟩, 3, 3, [0x1FFE00, 0, 512, 0, 0], {}, 0⟩
    (∀ f ∈ [none, some q], (ln [] f).confirmed = true ∧ (ln [] f).held = [] ∧ (ln [] f).fault = f) ∧
    (let st := { strand0 with lean := some (ln [c] none) }
     getStrand (on .l st) ⟨0, 0⟩ = some st ∧
      (let st' := { st with lean := some { ln [c] none with held := [] } }
       ∃ t, issueHeld (putStrand (on .l st) ⟨0, 0⟩ st') ⟨0, 0⟩ st' c = .ok t)) :=
  ⟨by decide, rfl, exists_of_succeeds (by decide +kernel)⟩

/-! ## Strand words -/

/-- A record of a copy is there, and none of a collective; the copy unit is the partition's; a time is reached. -/
theorem witness_WaitWords :
    let st := { strand0 with out := [⟨1, some 0⟩] }
    AtEngine (on .c st) .c st ∧ ownsAu (on .c st) 0 st.part = true ∧ (∃ p ∈ st.out, p.rec? ≠ none) ∧
      (¬ ∃ p ∈ st.results, p.rec? ≠ none) ∧ Readable st (.g 1) ∧ (gNow st 1).toNat ≤ timeNs (on .c st) ∧
      ownsAu { on .c st with cells := [] } 0 st.part = false :=
  ⟨at_on _ _ rfl, by decide +kernel, ⟨_, List.mem_singleton.2 rfl, by decide⟩, by simp [strand0],
    readable_of_plain ⟨rfl, rfl, rfl⟩ _, by decide +kernel, by decide +kernel⟩

/-- The first load of a flag at the last doubleword of a page, a flag that read zero and one that read otherwise; the
sequencer's own load; a condition that holds. -/
theorem witness_FlagWait :
    (let st := { strand0 with g := strand0.g.set 1 0x3FF8 }
     AtEngine (on .c st) .c st ∧ st.flagRead = none ∧ (∀ a ∈ st.accs, a.flag = false) ∧ Readable st (.g 1) ∧
      (gNow st 1).toNat % 8 = 0 ∧ Claims.Maps (on .c st) st .scalarRead (gNow st 1) ⟨page0, 0x3FF8⟩) ∧
    (∀ v, let st := { strand0 with flagRead := some v }
      AtEngine (on .c st) .c st ∧ st.flagRead = some v) ∧
    (let st := { strand0 with wait := some (.flag 0x3FF8 0), block := false, waitHeld := true }
     getStrand (on .c st) ⟨0, 0⟩ = some st ∧ st.frozen = false ∧
      Claims.Maps (on .c st) st .scalarRead 0x3FF8 ⟨page0, 0x3FF8⟩) ∧
    (let st := { strand0 with wait := some (.time 0) }
     getStrand (on .c st) ⟨0, 0⟩ = some st ∧ waitHolds (on .c st) st (.time 0) = true) :=
  ⟨⟨at_on _ _ rfl, rfl, by simp [strand0], readable_of_plain ⟨rfl, rfl, rfl⟩ _, by decide +kernel,
    exists_of_answers (by decide +kernel)⟩, fun _ => ⟨at_on _ _ rfl, rfl⟩,
    ⟨rfl, rfl, exists_of_answers (by decide +kernel)⟩, rfl, by decide +kernel⟩

/-- YieldAndTrig, TrapWord, FenceWord. -/
theorem witness_YieldAndTrig : AtEngine (on .c strand0) .c strand0 ∧ launchOf (on .c strand0) 0 0 = none :=
  ⟨at_on _ _ rfl, by decide +kernel⟩

theorem witness_TrapWord : AtEngine (on .c strand0) .c strand0 ∧ (getEng strand0 .c).micro = none := ⟨at_on _ _ rfl, rfl⟩

theorem witness_FenceWord : AtEngine (on .c strand0) .c strand0 := at_on _ _ rfl

/-- An engine whose words are done, one with a result under way, C of a co-resident strand, and L at `ovl` of the last
overlay of an image. -/
theorem witness_StopWords :
    (AtEngine (on .v strand0) .v strand0 ∧ engDone { strand0 with rps := none } .v = true ∧ engDone strand0 .v = true ∧
      strand0.nest = none ∧ strand0.drain = none) ∧
    (let st := { strand0 with mwords := [⟨0, 0, []⟩] }
     AtEngine (on .m st) .m st ∧ engDone { st with rps := none } .m = false) ∧
    (let st := { strand0 with sid := { strand0.sid with cores := true } }
     AtEngine (on .c st) .c st ∧ engDone st .c = true ∧ st.sid.cores = true ∧ strand0.sid.cores = false) ∧
    (let im : Image := ⟨0, 100, 1, [⟨0, 0, 10, 0, 0⟩], [], [], [], []⟩
     let s := { on .l strand0 with ctxs := [(0, { win := 100, image := some im })] }
     AtEngine s .l strand0 ∧ (getCtx s 0 0).image = some im ∧ 0 < im.overlays.length ∧ strand0.lean = none) :=
  ⟨⟨at_on _ _ rfl, by decide +kernel, by decide +kernel, rfl, rfl⟩, ⟨at_on _ _ rfl, by decide +kernel⟩,
    ⟨at_on _ _ rfl, by decide +kernel, rfl, rfl⟩, at_on _ _ rfl, rfl, by decide, rfl⟩

/-- A launch of one strand that stands at its barrier. -/
def gang1 : State :=
  let eng : EngState := { stop := .atSbar }
  let st := { strand0 with engs := Vector.replicate 5 eng, sid := { strand0.sid with launch := 1, cores := true } }
  let l : Launch := ⟨1, 0, 0, 0, 0, 0, 1, 1, 1, true, 31, 100, 0, [], 1, 0, 0, false, false, none, none⟩
  let p : Partition := { st := .active, launches := [l], saveAreas := 4, saveUsed := 1 }
  let s := on .c st
  { s with hub := { s.hub with parts := [(0, p)], rdy := true } }

theorem witness_BarrierCompletes :
    (launchOf gang1 0 1).isSome = true ∧ (gang1.strands.map (·.1)).Nodup ∧ gangOf gang1 0 1 ≠ [] ∧
      (∀ p ∈ gangOf gang1 0 1, arrived p.2 = true ∧ p.2.frozen = false) ∧ gang1.hub.bputs = [] ∧
      (gangOf gang1 0 1).length = 1 :=
  ⟨by decide +kernel, by decide, by decide +kernel, by decide +kernel, rfl, by decide +kernel⟩

/-- A strand that asks for overlay 1, which is resident. -/
theorem witness_OverlayRefills :
    let im : Image := ⟨0, 100, 1, [⟨0, 0, 10, 0, 0⟩, ⟨80, 0, 10, 3, 0⟩], [], [], [], []⟩
    let st := { strand0 with ovlWant := some (1, 7) }
    let s := { on .c st with ctxs := [(0, { win := 100, image := some im, overlays := [1] })] }
    getStrand s ⟨0, 0⟩ = some st ∧ st.frozen = false ∧ (getCtx s 0 0).image = some im ∧
      (im.overlays[(1 : BitVec 8).toNat]?).isSome = true ∧ trailEngs im 0 = [] ∧ mustWait s ⟨0, 0⟩ st im 1 7 = false ∧
      (getCtx s 0 0).overlays.contains 1 = true ∧ freeChan (getCell s 0) ≠ none ∧ loadOverlay s 0 0 im 1 = .ok s :=
  ⟨rfl, rfl, rfl, by decide, by decide, by decide +kernel, by decide +kernel, by decide +kernel, rfl⟩

/-! ## State registers, queues, accesses, tokens -/

theorem witness_StateRegisterReads :
    AtEngine (on .c strand0) .c strand0 ∧ doneBefore strand0 (getEng strand0 .c).passed = true ∧ (1 : BitVec 5) ≠ 0 :=
  ⟨at_on _ _ rfl, by decide +kernel, by decide⟩

/-- The least and greatest SLIPW, and the LMODE values 0 and 3. -/
theorem witness_StateRegisterWrites :
    let st := fun x => { strand0 with g := strand0.g.set 1 x }
    (∀ x, AtEngine (on .c (st x)) .c (st x) ∧ Readable (st x) (.g 1)) ∧ Claims.BqRoom (st 0) ∧
      16 ≤ (gNow (st 16) 1).toNat % 2 ^ 13 ∧ (gNow (st 4096) 1).toNat % 2 ^ 13 ≤ 4096 ∧
      ((gNow (st 3) 1).getLsbD 1 = true → (gNow (st 3) 1).getLsbD 0 = true) ∧ (getEng (st 0) .c).ploop = none ∧
      doneBefore (st 0) (getEng (st 0) .c).passed = true :=
  ⟨fun _ => ⟨at_on _ _ rfl, readable_of_plain ⟨rfl, rfl, rfl⟩ _⟩, room_of_empty (by intro e; cases e <;> decide),
    by decide +kernel, by decide +kernel, by decide +kernel, rfl, by decide +kernel⟩

/-- A strand of partition 5 and one of the service partition. -/
theorem witness_StateRegisterFaults :
    (let st := { strand0 with part := 5 }
     AtEngine (on .c st) .c st ∧ st.part ≠ 0) ∧ AtEngine (on .c strand0) .c strand0 ∧ strand0.part = 0 ∧
      (getEng strand0 .c).micro = none :=
  ⟨⟨at_on _ _ rfl, by decide⟩, at_on _ _ rfl, rfl, rfl⟩

/-- A queue with seven entries takes one more, one with eight does not; VCQ with an entry and without. -/
theorem witness_ScalarQueueWords :
    let st := fun (n : Nat) (l : List Word) => { strand0 with qV := List.replicate n 0, vcq := l }
    (∀ n l, AtEngine (on .c (st n l)) .c (st n l) ∧ Readable (st n l) (.g 1)) ∧ (getSq (st 7 []) .v).length < 8 ∧
      8 ≤ (getSq (st 8 []) .v).length ∧ (st 0 [5]).vcq = [5] ∧ (st 0 []).vcq = [] :=
  ⟨fun _ _ => ⟨at_on _ _ rfl, readable_of_plain ⟨rfl, rfl, rfl⟩ _⟩, by decide, by decide, rfl, rfl⟩

/-- Two places of which the second is filled; a filled result; no result with every engine caught up. -/
theorem witness_RecordPops :
    let st := { strand0 with out := [⟨1, none⟩, ⟨2, some 7⟩], results := [⟨3, some 8⟩] }
    AtEngine (on .c st) .c st ∧ ownsAu (on .c st) 0 st.part = true ∧ takeRecord st.out = some (7, [⟨1, none⟩]) ∧
      takeRecord st.results = some (8, []) ∧ AtEngine (on .c strand0) .c strand0 ∧ strand0.results = [] ∧
      strand0.lean = none ∧ (∀ e, inMask strand0 e = true → (getEng strand0 .c).passed ≤ (getEng strand0 e).passed) :=
  ⟨at_on _ _ rfl, by decide +kernel, rfl, rfl, at_on _ _ rfl, rfl, rfl, by intro e; cases e <;> decide⟩

/-- Reads, writes and atomics at the last doubleword of a page, and an address one byte on. -/
theorem witness_ScalarAccessWords :
    let st := { strand0 with g := strand0.g.set 3 0x3FF7 }
    let ea := gNow st 3 + (1 : BitVec 18).signExtend 64
    AtEngine (on .c st) .c st ∧ Readable st (.g 3) ∧ Readable st (.g 4) ∧ ea.toNat % Sz.bytes .e8 = 0 ∧
      ∀ u ∈ [Use.scalarRead, .scalarWrite, .scalarAtomic], Claims.Maps (on .c st) st u ea ⟨page0, 0x3FF8⟩ := by
  refine ⟨at_on _ _ rfl, readable_of_plain ⟨rfl, rfl, rfl⟩ _, readable_of_plain ⟨rfl, rfl, rfl⟩ _, by decide +kernel, ?_⟩
  intro u hu
  fin_cases hu <;> exact exists_of_answers (by decide +kernel)

theorem witness_ScalarAlignment :
    let st := { strand0 with g := strand0.g.set 3 1 }
    AtEngine (on .c st) .c st ∧ Readable st (.g 3) ∧ (gNow st 3 + (0 : BitVec 18).signExtend 64).toNat % Sz.bytes .e2 ≠ 0 ∧
      (getEng st .c).micro = none :=
  ⟨at_on _ _ rfl, readable_of_plain ⟨rfl, rfl, rfl⟩ _, by decide +kernel, rfl⟩

/-- An access of C to HBM, with a register that waits for it. -/
def access0 (k : AccKind) : Access :=
  ⟨9, .c, 0, 0, 0, k, 0, 8, 8, 8, 5, .hbm, .normal, false, false, .normal, false, false, 0, .reg 4, false,
    some (.amo .add 0), false, {}, 3, []⟩

theorem witness_AccessPerforms : ∀ k ∈ [AccKind.load, .store, .atomic],
    let a := access0 k
    let st := { strand0 with accs := [a], pending := [⟨.c, 0, .g 4, none, fullMask (.g 4), 0, 15, false⟩] }
    getStrand (on .c st) ⟨0, 0⟩ = some st ∧ st.accs.find? (fun b => b.id == a.id) = some a ∧ mayPerform st a = true ∧
      a.home = .hbm ∧ (on .c st).hub.linePoison = [] ∧ memWf (on .c st).mem = true ∧ a.dest = .reg 4 ∧ a.flag = false ∧
      findLine (on .c st) 0 st.part a.home a.msa (a.pa / 128) = none ∧ (on .c st).hub.mixed = [] ∧
      pathClear (on .c st) 0 a 4 = true ∧
      (∀ p ∈ st.pending, p.reg = .g 4 → p.eng = a.eng ∧ p.pos = a.pos ∧ p.val = none ∧ p.mask = fullMask (.g 4)) ∧
      ∃ p ∈ st.pending, p.reg = .g 4 := by
  intro k hk
  fin_cases hk <;>
    exact ⟨rfl, rfl, by decide +kernel, rfl, rfl, rfl, rfl, rfl, by decide +kernel, rfl, by decide +kernel, by simp [access0],
      _, List.mem_singleton.2 rfl, rfl⟩

/-- A token from L and room for one to S, at V; and no token. -/
theorem witness_TokenWords :
    let place : TokPlace := { eng := .l, pos := 0, filled := true }
    let st := { strand0 with tok := { mv := [{ place with eng := .m }] } }
    (AtEngine (on .v st) .v st ∧ Claims.TokensReady st .v ⟨true, false, false, true⟩) ∧
      AtEngine (on .v strand0) .v strand0 ∧ tokInPrev .v = some 2 ∧ getTok strand0.tok 2 = [] :=
  ⟨⟨at_on _ _ rfl, fun _ => ⟨2, _, _, rfl, rfl, rfl⟩, by simp, by simp, fun _ => ⟨4, rfl, by decide⟩, by simp⟩,
    at_on _ _ rfl, rfl, rfl⟩

theorem witness_NopWord :
    AtEngine (on .c strand0) .c strand0 ∧ AtEngine (on .s strand0) .s strand0 ∧ strand0.stores.length < 64 :=
  ⟨at_on _ _ rfl, at_on _ _ rfl, by decide⟩

/-- A result with its value, behind none of its register. -/
theorem witness_Landings :
    let p : Pending := ⟨.v, 0, .v 63, some 5, fullMask (.v 63), 0, 15, false⟩
    let st := { strand0 with pending := [p] }
    getStrand (on .v st) ⟨0, 0⟩ = some st ∧ st.pending[0]? = some p ∧ p.val = some 5 ∧
      (∀ q ∈ st.pending.take 0, q.reg ≠ p.reg) ∧ p.reg ≠ .g 0 ∧ p.mask = fullMask p.reg := by
  refine ⟨rfl, rfl, rfl, ?_, ?_, ?_⟩ <;> simp

/-- A place of a word of L that has completed. -/
theorem witness_Pushes :
    let p : TokPlace := { eng := .l, pos := 0 }
    let st := withEng .l { passed := 1 } { strand0 with tok := { lm := [p] } }
    getStrand (on .l st) ⟨0, 0⟩ = some st ∧ (getTok st.tok 0)[0]? = some p ∧ p.filled = false ∧ p.copy = none ∧
      st.lean = none ∧ wordDone st p.eng p.pos = true ∧ p.pos < (getEng st p.eng).passed :=
  ⟨rfl, rfl, rfl, rfl, rfl, by decide +kernel, by decide +kernel⟩

/-! ## The load and store engines -/

def passes (x : Act Unit) : Bool :=
  match x with
  | .ok _ => true
  | .error _ => false

theorem ok_of_passes {x : Act Unit} (h : passes x = true) : x = .ok () := by
  unfold passes at h
  split at h <;> simp_all

/-- A strand with an address register of L or S set. -/
def withA (n : Fin 16) (x : Word) (st : Strand := strand0) : Strand := { st with a := st.a.set n x }
def withB (n : Fin 16) (x : Word) (st : Strand := strand0) : Strand := { st with b := st.b.set n x }

theorem witness_LoadRegisterWords :
    let st := { strand0 with qL := [5] }
    AtEngine (on .l st) .l st ∧ Claims.TokensReady st .l t0 ∧ (∀ r, Readable st r) ∧ st.lean = none ∧ st.qL = [5] :=
  ⟨at_on _ _ rfl, tokens_none _ _, readable_of_plain ⟨rfl, rfl, rfl⟩, rfl, rfl⟩

/-- The last row of the scratchpad, with one place left in LQ, and 384 bytes at its start through a t6 descriptor. -/
theorem witness_RowLoads :
    (let st := withA 2 0x1FFE00 { strand0 with lq := List.replicate 7 ⟨0, true, false, false, 0, false⟩ }
     AtEngine (on .l st) .l st ∧ Claims.TokensReady st .l t0 ∧ Readable st (.a 2) ∧ st.lq.length < 8 ∧
      (Claims.aNow st 2 + (0 : BitVec 18).signExtend 64).toNat % 512 = 0 ∧ Claims.SpmOk (on .l st) st [⟨0x1FFE00, 512⟩] ∧
      Claims.ReadOk st [⟨0x1FFE00, 512⟩]) ∧
    (let st := { strand0 with sd := strand0.sd.set 1 (BitVec.ofNat 256 (13 * 2 ^ 192)) }
     AtEngine (on .l st) .l st ∧ Readable st (.sd 1) ∧ sdTy (Claims.sdNow st 1) = 13 ∧ sdBsf (Claims.sdNow st 1) = 0 ∧
      Claims.SpmOk (on .l st) st [⟨0, 384⟩] ∧ Claims.ReadOk st [⟨0, 384⟩]) :=
  ⟨⟨at_on _ _ rfl, tokens_none _ _, readable_of_plain ⟨rfl, rfl, rfl⟩ _, by decide, by decide +kernel,
    ok_of_passes (by decide +kernel), ok_of_passes (by decide +kernel)⟩,
    at_on _ _ rfl, readable_of_plain ⟨rfl, rfl, rfl⟩ _, by decide +kernel, by decide +kernel,
    ok_of_passes (by decide +kernel), ok_of_passes (by decide +kernel)⟩

/-- Elements of eight bytes one after another, and two enabled lanes of a gather. -/
theorem witness_StridedAndGatheredLoads :
    (let st := { strand0 with sd := strand0.sd.set 1 (BitVec.ofNat 256 (8 * 2 ^ 64)) }
     let gs := stridedSegs 0 (Claims.sdNow st 1) 8 64
     AtEngine (on .l st) .l st ∧ Claims.TokensReady st .l t0 ∧ (∀ r, Readable st r) ∧ st.lq.length < 8 ∧
      (∀ g ∈ gs, g.addr % 8 = 0) ∧ sdTy (Claims.sdNow st 1) ≠ 15 ∧ Claims.SpmOk (on .l st) st gs ∧ Claims.ReadOk st gs) ∧
    (let ix : IndexVec := ⟨3, 7⟩
     let st := { strand0 with iql := [ix] }
     let gs := (laneSegs ix 0 4).map (·.2)
     AtEngine (on .l st) .l st ∧ (∀ r, Readable st r) ∧ st.iql = [ix] ∧ gs = [⟨28, 4⟩, ⟨0, 4⟩] ∧
      Claims.SpmOk (on .l st) st gs ∧ Claims.ReadOk st gs) :=
  ⟨⟨at_on _ _ rfl, tokens_none _ _, readable_of_plain ⟨rfl, rfl, rfl⟩, by decide, by decide +kernel, by decide +kernel,
    ok_of_passes (by decide +kernel), ok_of_passes (by decide +kernel)⟩,
    at_on _ _ rfl, readable_of_plain ⟨rfl, rfl, rfl⟩, rfl, by decide +kernel,
    ok_of_passes (by decide +kernel), ok_of_passes (by decide +kernel)⟩

/-- A cell whose scratchpad starts with these bytes. -/
def onSpm (e : Eng) (st : Strand) (l : List (Nat × Byte)) : State :=
  { on e st with cells := [(0, { cell0 with spm := l })] }

/-- An empty record of halves (36 bytes) and a header of another length. -/
theorem witness_PackedLoads :
    let s := onSpm .l strand0 [(0, 36)]
    AtEngine s .l strand0 ∧ Claims.TokensReady strand0 .l t0 ∧ Readable strand0 (.a 2) ∧ strand0.lq.length < 8 ∧
      Claims.spmBytes s 0 4 = 4 + 256 / 8 + popcount (Claims.spmBytes s 4 32) 256 * 2 ∧
      Claims.SpmOk s strand0 [⟨0, 36⟩] ∧ Claims.ReadOk strand0 [⟨0, 548⟩] ∧ Claims.SpmOk s strand0 [⟨36, 0⟩] ∧
      Claims.spmBytes (on .l strand0) 0 4 ≠ 36 ∧ (getEng strand0 .l).micro = none ∧ strand0.lean = none :=
  ⟨at_on .l strand0 rfl, tokens_none _ _, readable_of_plain ⟨rfl, rfl, rfl⟩ _, by decide, by decide +kernel,
    ok_of_passes (by decide +kernel), ok_of_passes (by decide +kernel), ok_of_passes (by decide +kernel), by decide +kernel,
    rfl, rfl⟩

/-- A row and an element of memory. -/
theorem witness_MemoryLoads :
    let st := withA 2 0x3E00
    AtEngine (on .l st) .l st ∧ Claims.TokensReady st .l t0 ∧ Readable st (.a 2) ∧ st.lq.length < 8 ∧ st.lean = none ∧
      (Claims.aNow st 2 + (0 : BitVec 18).signExtend 64).toNat % 512 = 0 ∧
      ∀ u ∈ [Use.rowRead, .elemRead],
        Claims.Maps (on .l st) st u (Claims.aNow st 2 + (0 : BitVec 18).signExtend 64) ⟨page0, 0x3E00⟩ := by
  refine ⟨at_on _ _ rfl, tokens_none _ _, readable_of_plain ⟨rfl, rfl, rfl⟩ _, by decide, rfl, by decide +kernel, ?_⟩
  intro u hu
  fin_cases hu <;> exact exists_of_answers (by decide +kernel)

/-- A filled slot and a claimed one that are filled again with an 8-bit element, and a fill that completes. -/
theorem witness_SlotFills :
    (∀ x ∈ [OmState.filled, .claimed],
      let st := { strand0 with om := strand0.om.set 3 { state := x, phys := some 0 } }
      AtEngine (on .l st) .l st ∧ Claims.TokensReady st .l t0 ∧ (∀ r, Readable st r) ∧ st.lean = none ∧
        descOk (Claims.sdNow st 1) = true ∧ (getOm st 3).state = x ∧ x ≠ .notHeld ∧ x ≠ .speculative ∧
        (getOm st 3).phys ≠ none ∧ Claims.SpmOk (on .l st) st (fillRows (Claims.sdNow st 1) 0 ++ fillScales (Claims.sdNow st 1)) ∧
        Claims.ReadOk st (fillRows (Claims.sdNow st 1) 0 ++ fillScales (Claims.sdNow st 1))) ∧
    (let f : Fill := ⟨31, 0, { state := .filled }, false, false⟩
     let st := { strand0 with fills := [f] }
     getStrand (on .l st) ⟨0, 0⟩ = some st ∧ st.fills.find? (fun f => f.om == BitVec.ofNat 5 31) = some f ∧
      f.dropped = false ∧ f.spec = false ∧ st.fills.erase f = []) := by
  refine ⟨?_, rfl, rfl, rfl, rfl, by decide +kernel⟩
  intro x hx
  fin_cases hx <;>
    exact ⟨at_on _ _ rfl, tokens_none _ _, readable_of_plain ⟨rfl, rfl, rfl⟩, rfl, by decide +kernel, by decide +kernel,
      by decide, by decide, by decide +kernel, ok_of_passes (by decide +kernel), ok_of_passes (by decide +kernel)⟩

/-- A stream over one row, at the end of the scratchpad; a pointer that follows another. -/
theorem witness_RowPointersAndPrefetch :
    (let st := withA 1 1 (withA 3 0x1FFFF8)
     AtEngine (on .l st) .l st ∧ Claims.TokensReady st .l t0 ∧ (∀ r, Readable st r) ∧ st.lean = none ∧ st.rps = none ∧
      (Claims.aNow st 1).toNat = 1 ∧ (Claims.aNow st 3 + (0 : BitVec 18).signExtend 64).toNat + 2 * 4 ≤ 2 ^ 21 ∧
      Claims.SpmOk (on .l st) st [⟨0x1FFFF8, 2 * 4⟩] ∧ Claims.ReadOk st (ptrSegs 0x1FFFF8 4 2) ∧
      spmPoisoned (on .l st) 0 (ptrSegs 0x1FFFF8 4 2) = false) ∧
    (let run : RpsRun := ⟨0, 0, 0, 4, 5, [5], true, false⟩
     let st := { strand0 with rps := some run }
     getStrand (on .l st) ⟨0, 0⟩ = some st ∧ st.rps = some run ∧ run.ptrs = [5] ∧ run.prev ≤ 5 ∧ st.rpq.length < 16) :=
  ⟨⟨at_on _ _ rfl, tokens_none _ _, readable_of_plain ⟨rfl, rfl, rfl⟩, rfl, rfl, by decide +kernel, by decide +kernel,
    ok_of_passes (by decide +kernel), ok_of_passes (by decide +kernel), by decide +kernel⟩,
    rfl, rfl, rfl, by decide, by decide⟩

theorem witness_StoreRegisterWords :
    let st := { strand0 with qS := [5] }
    AtEngine (on .s st) .s st ∧ (∀ r, Readable st r) ∧ st.stores.length < 64 ∧ st.qS = [5] :=
  ⟨at_on _ _ rfl, readable_of_plain ⟨rfl, rfl, rfl⟩, by decide, rfl⟩

/-- The last row of the scratchpad, a mapped row of memory and a row of cell 191. -/
theorem witness_StoreAddressStage :
    (let st := withB 2 0x1FFE00
     AtEngine (on .s st) .s st ∧ st.stores.length < 64 ∧ (∀ r, Readable st r) ∧
      (Claims.bNow st 2 + (0 : BitVec 18).signExtend 64).toNat = 0x1FFE00 ∧ Claims.SpmOk (on .s st) st [⟨0x1FFE00, 512⟩] ∧
      Claims.SpmOk (on .s st) st [⟨0x1FFE00, 8 * 64⟩] ∧ Claims.SpmOk (on .s st) st (stridedSegs 0x1FFE00 (Claims.sdNow st 1) 8 64) ∧
      st.sid.cores = false) ∧
    (∀ u ∈ [Use.rowWrite, .elemWrite], Claims.Maps (on .s (withB 2 0x3E00)) (withB 2 0x3E00) u
      (Claims.bNow (withB 2 0x3E00) 2 + (0 : BitVec 18).signExtend 64) ⟨page0, 0x3E00⟩) ∧
    (let st := withB 2 (191 * 2 ^ 32 + 0x1FFE00) { strand0 with sid := { strand0.sid with cores := true } }
     let ea := (Claims.bNow st 2 + (0 : BitVec 18).signExtend 64).toNat
     AtEngine (on .s st) .s st ∧ st.sid.cores = true ∧ ea < 2 ^ 40 ∧ ea / 2 ^ 21 % 2 ^ 11 = 0 ∧ ea / 2 ^ 32 < 192 ∧
      (getCell (on .s st) (ea / 2 ^ 32)).fenced = false ∧ ea % 512 = 0) := by
  refine ⟨⟨at_on _ _ rfl, by decide, readable_of_plain ⟨rfl, rfl, rfl⟩, by decide +kernel, ok_of_passes (by decide +kernel),
    ok_of_passes (by decide +kernel), ok_of_passes (by decide +kernel), rfl⟩, ?_,
    at_on _ _ rfl, rfl, by decide +kernel, by decide +kernel, by decide +kernel, by decide +kernel, by decide +kernel⟩
  intro u hu
  fin_cases hu <;> exact exists_of_answers (by decide +kernel)

/-- A word at S's data stage. -/
def entry0 (i : Instr) : SEntry := ⟨i, 0, 0, true, false, 0, 512, 0, 0, 0, 0, 0, 0, 0, {}, 3, false⟩

/-- A row with 0x3F in its first byte, for the row, t6 and strided forms. -/
theorem witness_ScratchpadStores : ∀ i ∈ [Instr.stq t0 none 1 0, .stq t0 (some 1) 1 0, .stqs t0 .e8 1 1 0],
    let st := { strand0 with stores := [entry0 i], sq := [⟨0x3F, false, false⟩] }
    Claims.AtDataStage (on .s st) st (entry0 i) [] ∧ storeTk (entry0 i).word = Tk.none ∧ Claims.SqHead st 1 ∧
      readsPast st (entry0 i) = true ∧ memWf (getCell (on .s st) 0).spm = true ∧ (∀ j < 512, elem 0x3F 8 j < 64) := by
  have h : ∀ j < 512, elem 0x3F 8 j < 64 := by decide +kernel
  intro i hi
  fin_cases hi <;>
    exact ⟨⟨congrArg some (settle_none 0 _ rfl), rfl, rfl, by decide +kernel, rfl, rfl⟩, rfl, ⟨by simp, by simp⟩, by decide +kernel, by decide +kernel, h⟩

/-- Two lanes of one element for `sts` and the memory form, and of two elements for `stsa`. -/
theorem witness_ScatterStores : ∀ p ∈ [(Instr.sts t0 .e4 1 0, (⟨3, 0⟩ : IndexVec)), (.stsa t0 .i32 1 0, ⟨3, 1⟩),
      (.stmqSc t0 false 0 .normal false 1 0, ⟨3, 0⟩)],
    let st := { strand0 with stores := [entry0 p.1], sq := [⟨5, false, false⟩], iqs := [p.2] }
    let lanes := laneSegs p.2 0 4
    Claims.AtDataStage (on .s st) st (entry0 p.1) [] ∧ readsPast st (entry0 p.1) = true ∧ st.iqs = [p.2] ∧
      Claims.SqHead st 1 ∧ Claims.SpmOk (on .s st) st (lanes.map (·.2)) ∧
      spmPoisoned (on .s st) 0 (lanes.map (·.2)) = false ∧ (p.1 = .stsa t0 .i32 1 0 → repeatedIndex p.2 = none) ∧
      (∀ q ∈ lanes, q.2.addr % 4 = 0) := by
  intro p hp
  fin_cases hp <;>
    exact ⟨⟨congrArg some (settle_none 0 _ rfl), rfl, rfl, by decide +kernel, rfl, rfl⟩, by decide +kernel, rfl, ⟨by simp, by simp⟩,
      ok_of_passes (by decide +kernel), by decide +kernel, by decide +kernel, by decide +kernel⟩

/-- A row on its way to a bank of the partition, one to another cell's, and one refused. -/
theorem witness_BputRows :
    let b := fun cell refused => (⟨1, 1, 0, 0, 0, cell, 0x1FFE00, 7, 0x1FFE00, refused⟩ : Bput)
    let s := { on .s strand0 with hub := { (on .s strand0).hub with bputs := [b 0 false, b 5 false, b 5 true] } }
    s.hub.bputs[0]? = some (b 0 false) ∧ (getCell s 0).banks.get (Fin.ofNat 32 (0x1FFE00 / 65536)) = some 0 ∧
      memWf (getCell s 0).spm = true ∧ (getCell s 5).banks.get (Fin.ofNat 32 (0x1FFE00 / 65536)) ≠ some 0 ∧
      s.hub.bputs[2]? = some (b 5 true) ∧ strandByUid s 1 = some (⟨0, 0⟩, strand0) ∧ getStrand s ⟨0, 0⟩ = some strand0 :=
  ⟨rfl, by decide +kernel, by decide +kernel, by decide +kernel, rfl, rfl, rfl⟩

set_option maxRecDepth 20000 in
/-- The lanes of the memory form translate, whatever the strands and the count of free values. -/
theorem witness_ScatterStores_memory :
    let st := { strand0 with stores := [entry0 (.stmqSc t0 false 0 .normal false 1 0)], sq := [⟨5, false, false⟩], iqs := [⟨3, 0⟩] }
    ∀ l n, ∃ accs s', memLanes ⟨0, 0⟩ st (entry0 (.stmqSc t0 false 0 .normal false 1 0)) .store .rowWrite .normal false none 4
      5 [(0, ⟨0, 4⟩), (1, ⟨0, 4⟩)] { on .s st with strands := l, freeCount := n } = .ok (accs, s') :=
  fun _ _ => ⟨_, _, rfl⟩

/-! ## The vector engine -/

/-- A strand with one entry in LQ and a row in v1. -/
def vstrand (x : Row := 1) : Strand := { strand0 with lq := [⟨5, true, false, false, 0, false⟩], v := strand0.v.set 1 x }

theorem lanes_known {st : Strand} (h : Plain st) (m : Mk) : Claims.LanesKnown st m :=
  ⟨fun _ => readable_of_plain h _, fun _ => readable_of_plain h _⟩

theorem dst_room_v {st : Strand} (h : Plain st) (d : BitVec 6) (n : Nat) : Claims.DstRoom st (.v d) n :=
  fun _ _ => (readable_of_plain h _).1

theorem reg_v1 (x : Row) (st : Strand) (h : st.v = strand0.v.set 1 x) : regBits st (.v (groupV st 1 0)) = x := by
  have e : groupV st 1 0 = 1 := by simp [groupV, rotV]
  rw [e]
  simp only [regBits, h]
  exact Vector.getElem_set_self (by decide)

/-- v1 as the one operand of a word. -/
theorem operand_v1 (x : Row) {st : Strand} (h : Plain st) (hv : st.v = strand0.v.set 1 x) :
    Claims.Operands st [(1, .v 1)] st.lq [[x.toNat]] st.lq :=
  ⟨[x.toNat], st.lq, [], ⟨fun _ _ => readable_of_plain h _, rfl,
    congrArg (fun y => [BitVec.toNat y]) (reg_v1 x st hv).symm⟩, ⟨rfl, rfl⟩, rfl⟩

/-- v1 and the head of LQ as the operands of a word. -/
theorem operands_v1_lq (x : Row) {st : Strand} (h : Plain st) (hv : st.v = strand0.v.set 1 x)
    (hl : st.lq = [⟨5, true, false, false, 0, false⟩]) :
    Claims.Operands st [(1, .v 1), (1, .lq)] st.lq [[x.toNat], [5]] [] :=
  ⟨[x.toNat], st.lq, [[5]], ⟨fun _ _ => readable_of_plain h _, rfl,
    congrArg (fun y => [BitVec.toNat y]) (reg_v1 x st hv).symm⟩,
    ⟨[5], [], [], ⟨⟨by simp [hl], by simp [hl], by rw [hl]; decide +kernel⟩, by simp [hl]⟩, ⟨rfl, rfl⟩, rfl⟩, rfl⟩

/-- VectorIntegerWords and VectorBitWords, with one place left in SQ. -/
theorem witness_VectorIntegerAndBitWords :
    let st := { vstrand with sq := List.replicate 7 ⟨0, false, false⟩ }
    AtEngine (on .v st) .v st ∧ (vc 2 .i8 .emCm).ty.isInt = true ∧ Claims.TokensReady st .v t0 ∧ Claims.LanesKnown st .emCm ∧
      Claims.DstRoom st .sq 1 ∧ Claims.DstRoom st (.v 3) 1 ∧ Readable st .cm ∧
      ∃ ops lq', Claims.Operands st [(1, .v 1), (1, .lq)] st.lq ops lq' ∧ Claims.T6Ok st (vc 2 .i8 .emCm) ops :=
  ⟨at_on _ _ rfl, rfl, tokens_none _ _, lanes_known ⟨rfl, rfl, rfl⟩ _, ⟨by decide, rfl⟩, dst_room_v ⟨rfl, rfl, rfl⟩ _ _,
    readable_of_plain ⟨rfl, rfl, rfl⟩ _, _, _, operands_v1_lq 1 ⟨rfl, rfl, rfl⟩ rfl rfl, fun h => nomatch h⟩

/-- A floating-point word, a tapered one, and a t6 word with a container that has bit 6 set. -/
theorem witness_VectorFloatWords :
    AtEngine (on .v (vstrand 64)) .v (vstrand 64) ∧ (Ty.f32.isF || Ty.f32.isT) = true ∧ (Ty.t6.isF || Ty.t6.isT) = true ∧
      Claims.TokensReady (vstrand 64) .v t0 ∧ Claims.LanesKnown (vstrand 64) .all ∧ Claims.DstRoom (vstrand 64) .sq 1 ∧
      Claims.Operands (vstrand 64) [(1, .v 1), (1, .lq)] (vstrand 64).lq [[(64 : Row).toNat], [5]] [] ∧
      Claims.T6Ok (vstrand 64) (vc 2 .f32 .all) [[(64 : Row).toNat], [5]] ∧ ¬ Claims.T6Ok (vstrand 64) (vc 2 .t6 .all) [[(64 : Row).toNat], [5]] ∧
      (getEng (vstrand 64) .v).micro = none :=
  ⟨at_on _ _ rfl, rfl, rfl, tokens_none _ _, lanes_known ⟨rfl, rfl, rfl⟩ _, ⟨by decide, rfl⟩, operands_v1_lq 64 ⟨rfl, rfl, rfl⟩ rfl rfl,
    (fun h => nomatch h), fun h => absurd (h rfl 0 (by decide) 0 (by decide) rfl) (by decide +kernel), rfl⟩

theorem witness_ExactOperations :
    Claims.IsNum (.num false 1 0) ∧ (FV.nan true).isNan = true ∧ fmt32 ∈ [fmt16, fmtBf, fmt32, fmt64] :=
  ⟨⟨_, _, _, rfl⟩, rfl, by simp⟩

/-- One, in each format. -/
theorem witness_FloatRounding : ∀ f ∈ [fmt16, fmtBf, fmt32, fmt64],
    0 < 1 ∧ decodeF f false (fmtBias f * 2 ^ f.mb) = .num false (2 ^ f.mb) (-(f.mb : Int)) := by decide +kernel

/-- Types that the conversions take, and a t6 source whose containers are legal. -/
theorem witness_VectorConversions :
    widenOk .u8 true = true ∧ widenOk .f16 false = true ∧ narrowOk .i8 true = true ∧ cvtOk .f32 .t8 = true ∧
      cvtOk .f64 .i32 = true ∧ cvtOk .t6 .f16 = true ∧ AtEngine (on .v (vstrand 1)) .v (vstrand 1) ∧
      Claims.TokensReady (vstrand 1) .v t0 ∧ Claims.LanesKnown (vstrand 1) .em ∧ Claims.DstRoom (vstrand 1) (.v 4) 4 ∧
      Claims.Operands (vstrand 1) [(4, .vz)] (vstrand 1).lq [[0, 0, 0, 0]] (vstrand 1).lq ∧ Claims.IsNum (.num true 3 (-1)) :=
  ⟨rfl, rfl, rfl, rfl, rfl, rfl, at_on _ _ rfl, tokens_none _ _, lanes_known ⟨rfl, rfl, rfl⟩ _, dst_room_v ⟨rfl, rfl, rfl⟩ _ _,
    ⟨_, _, _, ⟨rfl, rfl⟩, ⟨rfl, rfl⟩, rfl⟩, ⟨_, _, _, rfl⟩⟩

/-- A scalar from C, and the operands of the permutes, of `vexpand` and of `vcompress`. -/
theorem witness_VectorMoves :
    let st := { vstrand 1 with qV := [7] }
    AtEngine (on .v st) .v st ∧ st.qV = [7] ∧ Claims.TokensReady st .v t0 ∧ Claims.LanesKnown st .em ∧
      Claims.DstRoom st .sq 2 ∧ (vc 4 .u8 .all).lanes = .all ∧ Ty.u8.width ∈ [8, 16, 32] ∧
      Claims.Operands st [(1, .v 1), (1, .lq)] st.lq [[(1 : Row).toNat], [5]] [] ∧ Ty.i32.isInt = true ∧ Ty.t8.isT = true ∧ Ty.f32.isF = true ∧
      (∀ k < 2, ∀ i < 512, Claims.arg .t6 [[(1 : Row).toNat], [5]] k i < 64) ∧ Claims.T6Ok st (vc 4 .u8 .all) [[(1 : Row).toNat], [5]] :=
  ⟨at_on _ _ rfl, rfl, tokens_none _ _, lanes_known ⟨rfl, rfl, rfl⟩ _, ⟨by decide, rfl⟩, rfl, by decide,
    operands_v1_lq 1 ⟨rfl, rfl, rfl⟩ rfl rfl, rfl, rfl, rfl, by decide +kernel, fun h => nomatch h⟩

theorem witness_MaskWords :
    AtEngine (on .v (vstrand 1)) .v (vstrand 1) ∧ Claims.TokensReady (vstrand 1) .v t0 ∧ (∀ r, Readable (vstrand 1) r) ∧
      Claims.LanesKnown (vstrand 1) .em ∧ Claims.Operands (vstrand 1) [(1, .v 1), (1, .lq)] (vstrand 1).lq [[(1 : Row).toNat], [5]] [] ∧
      Claims.T6Ok (vstrand 1) (vc 2 .t6 .em) [[(1 : Row).toNat], [5]] ∧ Ty.u32.width = 32 := by
  have h : ∀ k < 2, ∀ i < 512, Claims.arg .t6 [[(1 : Row).toNat], [5]] k i < 64 := by decide +kernel
  exact ⟨at_on _ _ rfl, tokens_none _ _, readable_of_plain ⟨rfl, rfl, rfl⟩, lanes_known ⟨rfl, rfl, rfl⟩ _,
    operands_v1_lq 1 ⟨rfl, rfl, rfl⟩ rfl rfl, fun _ k hk i hi _ => h k hk i hi, rfl⟩

/-- VCQ with one place left, and a register. -/
theorem witness_VectorScalarResults :
    let st := { vstrand 1 with vcq := List.replicate 7 0 }
    AtEngine (on .v st) .v st ∧ Claims.TokensReady st .v t0 ∧ Claims.LanesKnown st .em ∧ Claims.DstRoom st .vcq 1 ∧
      Claims.DstRoom st (.v 3) 1 ∧ Readable st .cm ∧ ∃ ops lq', Claims.Operands st [(1, .v 1)] st.lq ops lq' :=
  ⟨at_on _ _ rfl, tokens_none _ _, lanes_known ⟨rfl, rfl, rfl⟩ _, (by decide : 7 < 8), dst_room_v ⟨rfl, rfl, rfl⟩ _ _,
    readable_of_plain ⟨rfl, rfl, rfl⟩ _, _, _, operand_v1 1 ⟨rfl, rfl, rfl⟩ rfl⟩

/-- The special functions on fp32, and a root in range. -/
theorem witness_SpecialFunctionWords :
    AtEngine (on .v (vstrand 1)) .v (vstrand 1) ∧ Ty.f32.isF = true ∧ Claims.TokensReady (vstrand 1) .v t0 ∧
      Claims.LanesKnown (vstrand 1) .em ∧ Claims.DstRoom (vstrand 1) .sq 1 ∧
      decodeF fmt32 false 0x7FA00000 = .nan true ∧ decodeF fmt32 false 0xBF800000 = .num true 0x800000 (-23) ∧
      ((2 : Nat).log2 + 0) / 2 < fmtBias fmt32 ∧ (1 - fmtBias fmt32 - fmt32.mb : Int) ≤ ((2 : Nat).log2 + 0) / 2 :=
  ⟨at_on _ _ rfl, rfl, tokens_none _ _, lanes_known ⟨rfl, rfl, rfl⟩ _, ⟨by decide, rfl⟩, by decide +kernel, by decide +kernel,
    by decide, by decide⟩

/-- fp32 codes of 0 to 3. -/
def f32s (l : List Nat) : List Nat := l.map fun n => [0, 0x3F800000, 0x40000000, 0x40400000].getD n 0

/-- A triangle, three points of a line with identifiers, a coordinate that is infinite, and segments that cross, that
touch at an end and that do not meet. -/
theorem witness_GeometricSigns :
    (∀ v ∈ (f32s [0, 0, 1, 0, 0, 1]).map (decodeF fmt32 false), ∃ n m e, v = .num n m e) ∧
      (f32s [0, 0, 1, 0, 0, 1]).length = 6 ∧ (geoEval .orient2 false (f32s [0, 0, 1, 0, 0, 1]) none).1 = 1 ∧
      (geoEval .orient2 false (f32s [0, 0, 1, 0, 2, 0]) none).1 = 0 ∧
      (geoEval .orient2 false (f32s [0, 0, 1, 0, 2, 0]) (some [7, 3, 5])).1 ∈ [0x11, 0x1F] ∧
      (geoEval .orient2 false [0x7F800000, 0, 0, 0, 0, 0] none).1 = 0x80000000 ∧
      (geoEval .segx false (f32s [0, 0, 2, 2, 0, 2, 2, 0]) none).1 = 1 ∧
      (geoEval .segx false (f32s [0, 0, 2, 0, 2, 0, 3, 3]) none).1 = 0 ∧
      (geoEval .segx false (f32s [0, 0, 1, 0, 0, 1, 1, 1]) none).1 = 15 := by
  refine ⟨?_, rfl, by decide +kernel, by decide +kernel, by decide +kernel, by decide +kernel, by decide +kernel,
    by decide +kernel, by decide +kernel⟩
  have h : ((f32s [0, 0, 1, 0, 0, 1]).map (decodeF fmt32 false)).all (fun v => match v with | .num .. => true | _ => false) =
    true := by decide +kernel
  intro v hv
  have := List.all_eq_true.1 h v hv
  cases v <;> simp_all

/-- A predicate at issue, and one that runs. -/
theorem witness_PredicateWords :
    (AtEngine (on .v strand0) .v strand0 ∧ Claims.TokensReady strand0 .v t0 ∧ strand0.pred = none ∧
      Claims.LanesKnown strand0 .em ∧ (∀ n, Readable strand0 (.v n)) ∧ strand0.sq.length < 8) ∧
    (let run : PredRun := ⟨.vorient2 ⟨t0, false, .em, false, none, .v 20, 0⟩, 0, 0, [.v 20], false, 0, 0, 0, 0, 0, 0, some 3, false⟩
     let st := { strand0 with pred := some run, pending := [⟨.v, 0, .v 20, none, 0, 0, 15, false⟩] }
     getStrand (on .v st) ⟨0, 0⟩ = some st ∧ st.pred = some run ∧ run.nf = some 3 ∧ run.dst = [.v 20] ∧
      (∀ p ∈ st.pending, p.reg = .v 20 → p.eng = .v ∧ p.pos = run.pos ∧ p.val = none ∧ p.mask = run.wmask)) :=
  ⟨⟨at_on _ _ rfl, tokens_none _ _, rfl, lanes_known ⟨rfl, rfl, rfl⟩ _, fun _ => readable_of_plain ⟨rfl, rfl, rfl⟩ _,
    by decide⟩, rfl, rfl, rfl, rfl, by simp⟩

/-- Queues of index vectors with three entries and with four, and IQL with three while L on an arm has popped one. -/
theorem witness_IndexSends :
    let st := fun (n : Nat) => { vstrand 1 with fiq := List.replicate n ⟨0, 0⟩ }
    (∀ n, AtEngine (on .v (st n)) .v (st n) ∧ Claims.TokensReady (st n) .v t0 ∧ Claims.LanesKnown (st n) .em ∧
      ∃ ops lq', Claims.Operands (st n) [(1, .v 1)] (st n).lq ops lq') ∧ (st 3).fiq.length < 4 ∧ 4 ≤ (st 4).fiq.length ∧
      (let ln : LeanRun := ⟨true, 0, 5, {}, strand0.a, strand0.sd, [], [⟨0, 0⟩], [], none, false⟩
       let s := { st 0 with iql := List.replicate 3 ⟨0, 0⟩, lean := some ln }
       AtEngine (on .v s) .v s ∧ 4 ≤ s.iql.length + ln.iql.length) :=
  ⟨fun _ => ⟨at_on _ _ rfl, tokens_none _ _, lanes_known ⟨rfl, rfl, rfl⟩ _, _, _,
    operand_v1 1 ⟨rfl, rfl, rfl⟩ rfl⟩, by decide, by decide, at_on _ _ rfl, by decide⟩

/-- A strand that holds tile 15, with a column number in v1. -/
def cstrand (x : Row) : Strand := { vstrand x with acc := strand0.acc.set 15 { held := true, phys := some 0 } }

/-- The last column pair of a held tile, an odd column and the one beyond the store, and a cell without the matrix unit. -/
theorem witness_AccumulatorColumns :
    (∀ x, AtEngine (on .v (cstrand x)) .v (cstrand x) ∧ Claims.TokensReady (cstrand x) .v t0 ∧
      Claims.LanesKnown (cstrand x) .em ∧ Claims.DstRoom (cstrand x) (.v 3) 1 ∧
      Claims.Operands (cstrand x) [(1, .v 1)] (cstrand x).lq [[x.toNat]] (cstrand x).lq ∧
      (getCell (on .v (cstrand x)) 0).mu = some (cstrand x).part) ∧
    ((1022 : Row).toNat % 2 ^ 32 = 1022 ∧ (1023 : Row).toNat % 2 ^ 32 = 1023 ∧ (1024 : Row).toNat % 2 ^ 32 = 1024) ∧
      (getAcc (cstrand 1022) (BitVec.ofNat 4 (1022 / 64))).held = true ∧
      (getAcc (cstrand 1022) (BitVec.ofNat 4 (1022 / 64))).phys ≠ none ∧ tileOlds (cstrand 1022) 15 = [] ∧ Ty.f32.width = 32 ∧
      (getCell { on .v (cstrand 1022) with cells := [] } 0).mu ≠ some 0 :=
  ⟨fun x => ⟨at_on _ _ rfl, tokens_none _ _, lanes_known ⟨rfl, rfl, rfl⟩ _, dst_room_v ⟨rfl, rfl, rfl⟩ _ _,
    operand_v1 x ⟨rfl, rfl, rfl⟩ rfl, rfl⟩, by decide +kernel, by decide +kernel, by decide +kernel, by decide +kernel, rfl, by decide +kernel⟩

theorem witness_SpillAndFill :
    let st := { strand0 with spill := [(63, .save, 5)] }
    AtEngine (on .v st) .v st ∧ Claims.TokensReady st .v t0 ∧ (∀ r, Readable st r) ∧ Claims.DstRoom st .sq 1 ∧
      (groupV st 31 0).toNat = 31 ∧ (st.spill.find? fun e => e.1 == 31) = none ∧
      (strand0.spill.find? fun e => e.1 == 63) = none ∧ memWf (on .v st).mem = true :=
  ⟨at_on _ _ rfl, tokens_none _ _, readable_of_plain ⟨rfl, rfl, rfl⟩, ⟨by decide, rfl⟩, by decide +kernel, by decide, by decide, rfl⟩

/-! ## Copies, launches, bindings and service calls -/

/-- An action answers a value and a state of which this holds. -/
def holds {α : Type} (x : Act (α × State)) (P : α → State → Bool) : Bool :=
  match x with
  | .ok p => P p.1 p.2
  | .error _ => false

theorem exists_of_holds {α : Type} {x : Act (α × State)} {P : α → State → Bool} (h : holds x P = true) :
    ∃ a s', x = .ok (a, s') ∧ P a s' = true := by
  unfold holds at h
  split at h
  · next p => exact ⟨p.1, p.2, rfl, h⟩
  · simp at h

/-- A memory that holds these doublewords. -/
def memOf (l : List (Nat × Word)) : Mem := l.foldl (fun m p => writeN m p.1 8 p.2.toNat) []

theorem at_st {s : State} {e : Eng} {st : Strand} (h1 : s.cur = ⟨0, 0, e⟩) (h2 : s.strands = [(0, st)]) (h3 : st.pending = []) :
    AtEngine s e st := by
  refine ⟨by rw [h1], ?_⟩
  have : getStrand s (Walker.ref s.cur) = some st := by rw [h1]; simp [getStrand, h2]; rfl
  rw [standing, this]
  exact congrArg some (settle_none _ st h3)

/-- A copy of 512 bytes of scratchpad with a record, a token and a flag; of a page; through a valid handle and a stale
one; and one byte more than a copy may have. -/
def cpyWord (dsp ssp : Space) (flag : Option (BitVec 4)) : CpyWord := ⟨0, flag, 15, true, true, dsp, ssp, 0, false, 7⟩

def cpyStrand (shp : Word) : Strand :=
  { withA 0 0x1FFE00 (withA 2 shp (withA 9 64)) with out := List.replicate 15 ⟨0, none⟩ }

theorem shape_1d {shp : Word} {n : Nat}
    (h : shp.extractLsb' 25 39 = 0 ∧ (1 = 1 ∧ n = (shp.extractLsb' 0 25).toNat ∧ n ≤ 2 ^ 24)) : Claims.ShapeIs false shp 1 n :=
  ⟨h.1, h.2.1, h.2.2.1, h.2.2.2⟩

theorem witness_CopyWords :
    (let st := cpyStrand 512
     let w := cpyWord .spm .spm (some 9)
     let g := Claims.copyRegs st w
     AtEngine (on .l st) .l st ∧ Claims.TokensReady st .l t0 ∧ (∀ n, Readable st (.a n)) ∧ st.lean = none ∧
      Claims.ShapeIs false (g.shp) 1 512 ∧ g.flag.toNat % 8 = 0 ∧
      Claims.SideOk (on .l st) st false true false false 1 512 .spm g.dst 0 ⟨.spm, 0x1FFE00, 0, none⟩ ∧
      Claims.SideOk (on .l st) st false false false false 1 512 .spm g.src 0 ⟨.spm, 0, 0, none⟩ ∧
      (∀ n, Claims.captures n ⟨.spm, 0x1FFE00, 0, none⟩ ⟨.spm, 0, 0, none⟩ ≠ 2) ∧
      (getCell (on .l st) 0).fifo.length < 16 ∧ (getEng st .l).seen.ccmd ≤ (getEng st .c).passed ∧ st.out.length < 16 ∧
      st.tok.lm.length + 1 ≤ 8) ∧
    (let st := cpyStrand 0x1000000
     AtEngine (on .l st) .l st ∧ Claims.ShapeIs false (Claims.copyRegs st (cpyWord .mem .mem none)).shp 1 (2 ^ 24)) ∧
    (let st := cpyStrand 0x1000001
     2 ^ 24 < ((Claims.copyRegs st (cpyWord .mem .mem none)).shp.extractLsb' 0 25).toNat) ∧
    (let st := withA 0 0x0010000000100000 (cpyStrand 1)
     let s := { on .l st with hub := { parts := [(0, { handles := [(1, ⟨1, 0xFFFE, false, true, false, true, 0x100001, 0x5000⟩)] })] } }
     let g := Claims.copyRegs st (cpyWord .mem .spm none)
     AtEngine s .l st ∧ Claims.SideOk s st true true false false 1 1 .mem (g.dst ||| 1 <<< 32) 0 ⟨.mem, 0x105000, 0, some 1⟩) ∧
    (let st := withA 0 0x0010000100100000 (cpyStrand 1)
     (getHandle (on .l st) st.part ((Claims.copyRegs st (cpyWord .mem .spm none)).dst.extractLsb' 52 12).toNat).val = false) := by
  refine ⟨⟨at_on _ _ rfl, tokens_none _ _, fun _ => readable_of_plain ⟨rfl, rfl, rfl⟩ _, rfl, shape_1d (by decide +kernel), by decide +kernel,
    ?_, ?_, fun n => by simp [Claims.captures], by decide +kernel, by decide +kernel, by decide +kernel, by decide +kernel⟩,
    ⟨at_on _ _ rfl, shape_1d (by decide +kernel)⟩, by decide +kernel, ⟨at_st rfl rfl rfl, ?_⟩, by decide +kernel⟩
  · exact ⟨fun _ => ok_of_passes (by decide +kernel), rfl⟩
  · exact ⟨fun _ => ok_of_passes (by decide +kernel), rfl⟩
  · refine ⟨by decide +kernel, by decide +kernel, by decide +kernel, by decide +kernel, by decide +kernel, ?_, by decide +kernel⟩
    intro i hi
    obtain rfl : i = 0 := by omega
    decide +kernel

/-- A command of strand 1 at the head of the FIFO. -/
def cmdOf (op : CopyOp) : CopyCmd := ⟨5, 1, 0, 0, 0, {}, 15, 7, 256, true, op⟩

def fifoS (op : CopyOp) (hs : FMap HandleSlot) : State :=
  { on .l strand0 with cells := [(0, { cell0 with fifo := [cmdOf op] })], hub := { parts := [(0, { handles := hs })] } }

theorem head_ready (op : CopyOp) (hs : FMap HandleSlot) : Claims.HeadReady (fifoS op hs) 0 (cmdOf op) [] := by
  refine ⟨rfl, rfl, ?_⟩
  intro ch run h
  have : (getCell (fifoS op hs) 0).chans = Vector.replicate 16 none := rfl
  simp [this, Vector.get] at h

def spmCopy (len : Nat) : CopyOp := .copy ⟨.spm, 512, 0, none⟩ ⟨.spm, 0, 0, none⟩ 1 len false true none 0 0

def pageCopy : CopyOp := .copy ⟨.spm, 512, 0, none⟩ ⟨.mem, 0x10000, 0, none⟩ 1 512 false true none 0 0

/-- The state in which the head of the FIFO of `fifoS` has come to its channel. -/
def onChan (op : CopyOp) : State :=
  setChan (modCell (fifoS op []) 0 fun x => { x with fifo := [] }) 0 15
    (some { cmd := cmdOf op, pages := [], faulted := false, started := false, bytes := 0 })

theorem cuts_whole {x : List (CopyPart × Piece) × State × Option Stop} (h : x.2.2.isNone = true) :
    ∃ ps s', x = (ps, s', none) := by
  obtain ⟨ps, s', e⟩ := x
  cases e with
  | none => exact ⟨ps, s', rfl⟩
  | some _ => simp at h

theorem cuts_fault {x : List (CopyPart × Piece) × State × Option Stop}
    (h : (match x.2.2 with | some (.trap _) => true | _ => false) = true) : ∃ ps s' f, x = (ps, s', some (.trap f)) := by
  obtain ⟨ps, s', e⟩ := x
  match e, h with
  | some (.trap f), _ => exact ⟨ps, s', f, rfl⟩

/-- A copy whose channel is free and whose pages are there, and one that meets a fault; a slot that is free, held, or pinned;
the last generation of a handle. -/
theorem witness_CopyStarts :
    (∀ op ∈ [spmCopy 512, pageCopy], Claims.HeadReady (fifoS op []) 0 (cmdOf op) [] ∧
      (getCell (fifoS op []) 0).chans.get 15 = none) ∧
    (∃ ps s', translateCuts 0 0 (CopyOp.toCode (spmCopy 512)) (copyCuts (spmCopy 512)) (onChan (spmCopy 512)) = (ps, s', none)) ∧
    (∃ ps s' f, translateCuts 0 0 (CopyOp.toCode pageCopy) (copyCuts pageCopy) (onChan pageCopy) =
      (ps, s', some (.trap f))) ∧
    Claims.HeadReady (fifoS (.hset 0x4000 (2 ^ 54 - 0x4000) 5 false true true) []) 0
      (cmdOf (.hset 0x4000 (2 ^ 54 - 0x4000) 5 false true true)) [] ∧
    (getHandle (fifoS (.hset 0x4000 (2 ^ 54 - 0x4000) 5 false true true) []) 0 5).val = false ∧
    (0x4000 : Word).toNat + (2 ^ 54 - 0x4000 : Word).toNat ≤ 2 ^ 54 ∧
    2 ^ 54 < (0x4001 : Word).toNat + (2 ^ 54 - 0x4000 : Word).toNat ∧
    Claims.HeadReady (fifoS (.hfree 0x005FFFFF) [(5, { gen := 0xFFFFF, val := true, pin := 1 })]) 0 (cmdOf (.hfree 0x005FFFFF)) [] ∧
    (getHandle (fifoS (.hfree 0x005FFFFF) [(5, { gen := 0xFFFFF, val := true, pin := 1 })]) 0
      ((0x005FFFFF : BitVec 32).extractLsb' 20 12).toNat).val = true ∧
    Claims.HeadReady (fifoS (.hread 5) []) 0 (cmdOf (.hread 5)) [] := by
  refine ⟨?_, cuts_whole (by decide +kernel), cuts_fault (by decide +kernel), head_ready _ _, rfl, by decide, by decide,
    head_ready _ _, by decide +kernel, head_ready _ _⟩
  intro op h
  simp only [List.mem_cons, List.not_mem_nil, or_false] at h
  rcases h with rfl | rfl <;> exact ⟨head_ready _ _, rfl⟩

theorem witness_CopyCompletes :
    let st := { strand0 with out := [⟨5, none⟩] }
    let run : CopyRun := { cmd := cmdOf (spmCopy 3), pages := [], faulted := false, started := true, bytes := 0 }
    let s := { on .l st with cells := [(0, { cell0 with spm := [(2, 9)], chans := (Vector.replicate 16 none).set 15 (some run) })] }
    (getCell s 0).chans.get (Fin.ofNat 16 15) = some run ∧ run.cmd.chan = 15 ∧ run.started = true ∧ run.faulted = false ∧
      run.pages = [] ∧ 0 + 3 ≤ 2 ^ 21 ∧ 512 + 3 ≤ 2 ^ 21 ∧
      run.cmd.op = .copy ⟨.spm, 512, 0, none⟩ ⟨.spm, 0, 0, none⟩ 1 3 false true none 0 0 ∧ spmPoisoned s 0 [⟨0, 3⟩] = false ∧
      strandByUid s run.cmd.uid = some (⟨0, 0⟩, st) ∧ getStrand s ⟨0, 0⟩ = some st ∧ memWf (getCell s 0).spm = true :=
  ⟨rfl, rfl, rfl, rfl, rfl, by decide, by decide, rfl, rfl, rfl, rfl, rfl⟩

theorem witness_HandlePushes :
    AtEngine (on .c strand0) .c strand0 ∧ (∀ n, Readable strand0 (.g n)) ∧ ownsAu (on .c strand0) 0 0 = true ∧
      (getCell (on .c strand0) 0).fifo.length < 16 ∧ strand0.out.length < 16 ∧ strand0.lean = none ∧
      (getEng strand0 .c).seen.lcmd ≤ surePassed strand0 .l ∧
      ownsAu { on .c strand0 with cells := [] } 0 0 = false :=
  ⟨at_on _ _ rfl, fun _ => readable_of_plain ⟨rfl, rfl, rfl⟩ _, rfl, by decide, by decide, rfl, by decide +kernel, rfl⟩

/-- An image of one word with C alone, at 0x1000. -/
def imageWords : List (Nat × Word) :=
  [(0x1000, 0x000000014E524731), (0x1008, 0x0064000000000001), (0x1010, 0x40), (0x1018, 0x40), (0x1040, 0), (0x1048, 0)]

/-- A launch record at an address: its region, its ENTRY and one strand of the image. -/
def recordWords (a : Nat) (rcb : Word) (entry : Nat) : List (Nat × Word) :=
  [(a, rcb), (a + 8, BitVec.ofNat 64 (entry * 2 ^ 56 + 0x1000)), (a + 24, 0x0001000100010000)]

def region0 (a : Nat) : Region := ⟨a, 0, [], 0, 0, 0, 0, [1, 0, 0], false, 0, 100, 0, 0, 0, false, 0⟩

def part0 (ls : List Launch) : Partition := { st := .active, cells := [0], launches := ls }

/-- Partition 0 with one cell, page 0 and region 256 in die 0. -/
def launchS (st : Strand) (rs : List Region) (ls : List Launch) (mem : List (Nat × Word)) : State :=
  { on .c st with
    mem := memOf mem
    dies := (Vector.replicate 4 {}).set 0 ({ tlb := [page0], regions := rs } : Die)
    hub := { parts := [(0, part0 ls)] } }

def launch0 : Launch := ⟨1, 0, 1, 0, 0, 0, 1, 1, 1, false, 1, 1, 0, [], 0, 0, 0, false, false, none, none⟩

/-- The root region block of partition 0, and a host page that holds it, since its place is not known. -/
def rootBlock : List Word := [0xC0000FF000000000, 0, 0, 0, 0, 0, 0, 100] ++ List.replicate 24 0

def rootLeaf : TlbEntry := ⟨0, Config.rootRcb 0 / pageSize 3 * pageSize 3, 3, 0, 0x0020000000000000000000000000001E⟩

def rootReq : AwayReq :=
  ⟨0, 0, .host, Config.rootRcb 0, 0 + Config.rootRcb 0 % pageSize 3, 256, none, false, false⟩

/-- A full cache of regions with a launch, in a state in which the host has answered a read of the root region block. -/
def fullS : State :=
  { launchS strand0 [] [] [] with
    dies := (Vector.replicate 4 {}).set 0 ({ tlb := [rootLeaf], regions := List.replicate 256 (region0 1) } : Die)
    hub := { parts := [(0, part0 [launch0])], answers := [(rootReq, .reply (.data (dwordsToBytes rootBlock)))] } }

theorem root_bound : Config.rootRcb 0 + 256 ≤ 2 ^ 54 := by
  have := (Config.rootRcbUnit 0).isLt
  simp only [Config.rootRcb]
  omega

theorem root_aligned : Config.rootRcb 0 % 256 = 0 := by simp [Config.rootRcb]

theorem root_translate (s : State) (h : (getDie s 0).tlb = [rootLeaf]) :
    translate s 0 none 0 .copyRead (BitVec.ofNat 64 (Config.rootRcb 0)) =
      .ok (⟨rootLeaf, 0 + Config.rootRcb 0 % pageSize 3⟩, modDie s 0 fun d => { d with tlb := touch d.tlb rootLeaf 16384 }) := by
  have hb := root_bound
  have hn : (BitVec.ofNat 64 (Config.rootRcb 0)).toNat = Config.rootRcb 0 := by simp; omega
  have hf : tlbFind [rootLeaf] 0 (Config.rootRcb 0) = some rootLeaf := by simp [tlbFind, rootLeaf]
  have hl : lookupLeaf s 0 none 0 (Config.rootRcb 0) =
      .ok (rootLeaf, modDie s 0 fun d => { d with tlb := touch d.tlb rootLeaf 16384 }) := by
    simp only [lookupLeaf, h, hf]
  have hu : useLeaf .copyRead (Config.rootRcb 0) rootLeaf = .ok (0 + Config.rootRcb 0 % pageSize 3) := by
    have h1 : ¬ pteMig rootLeaf.pte = 2 := by decide +kernel
    have h2 : (!usePerm .copyRead rootLeaf.pte) = false := by decide +kernel
    have h3 : (!useType .copyRead (pteType rootLeaf.pte)) = false := by decide +kernel
    have h4 : pteFrame rootLeaf.pte = 0 := by decide +kernel
    simp only [useLeaf, h1, h2, h3, h4, if_false, Bool.false_eq_true, show rootLeaf.level = 3 from rfl]
  have hm : ¬ pteMig rootLeaf.pte = 1 := by decide +kernel
  simp only [Machine.translate, hn, if_neg (show ¬ 2 ^ 54 ≤ Config.rootRcb 0 by omega), hl, hu, if_neg hm]

theorem root_words : toDwords ((List.range 256).map fun i => (dwordsToBytes rootBlock).getD i 0) 32 = rootBlock := by
  decide +kernel

/-- The root region block is read from the host's answer. -/
theorem root_read (s : State) (h : (getDie s 0).tlb = [rootLeaf])
    (ha : s.hub.answers = [(rootReq, .reply (.data (dwordsToBytes rootBlock)))]) :
    readBlock s 0 0 (Config.rootRcb 0) = .ok (some rootBlock,
      modHub (modDie s 0 fun d => { d with tlb := touch d.tlb rootLeaf 16384 }) fun x => { x with answers := [] }) := by
  have hb := root_bound
  have hal := root_aligned
  have hk : min 256 (pageBytes - Config.rootRcb 0 % pageBytes) = 256 := by simp only [pageBytes]; omega
  have hl : homeLocal (Piece.home ⟨Config.rootRcb 0, 256, ⟨rootLeaf, 0 + Config.rootRcb 0 % pageSize 3⟩⟩) = false := by decide +kernel
  have hh : Piece.home ⟨Config.rootRcb 0, 256, ⟨rootLeaf, 0 + Config.rootRcb 0 % pageSize 3⟩⟩ = .host := by decide +kernel
  have hr : runOf s 0 none 0 .copyRead (Config.rootRcb 0) 256 =
      .ok ([⟨Config.rootRcb 0, 256, ⟨rootLeaf, 0 + Config.rootRcb 0 % pageSize 3⟩⟩],
        modDie s 0 fun d => { d with tlb := touch d.tlb rootLeaf 16384 }) := by
    have h54 : decide (2 ^ 54 ≤ Config.rootRcb 0) = false := by simp; omega
    simp only [runOf, h54, Bool.and_false, Bool.false_eq_true, if_false, show pagesOf 256 = 1 + 1 from rfl, translateRun, hk,
      root_translate s h, bind, Except.bind, Nat.sub_self, if_true, show ¬ (256 = 0) by decide]
  have ht : takeAnswer (modDie s 0 fun d => { d with tlb := touch d.tlb rootLeaf 16384 }) rootReq =
      .ok (dwordsToBytes rootBlock,
        modHub (modDie s 0 fun d => { d with tlb := touch d.tlb rootLeaf 16384 }) fun x => { x with answers := [] }) := by
    have hh : ∀ t : State, t.hub.answers = [(rootReq, .reply (.data (dwordsToBytes rootBlock)))] →
        takeAnswer t rootReq = .ok (dwordsToBytes rootBlock, modHub t fun x => { x with answers := [] }) := by
      intro t h
      simp only [takeAnswer, h, List.find?, BEq.rfl]
      simp [modHub, h]
    exact hh _ ha
  have hq : awayReq 0 0 ⟨Config.rootRcb 0, 256, ⟨rootLeaf, 0 + Config.rootRcb 0 % pageSize 3⟩⟩ none = rootReq := by
    simp only [awayReq, hh, rootReq]
  simp only [readBlock, readWords, readVirt, show 8 * 32 = 256 from rfl, hr, bind, Except.bind, readPieces, readPiece, hl, hq, ht,
    Bool.false_eq_true, if_false, List.append_nil, root_words]

theorem root_chain (s : State) (h : (getDie s 0).tlb = [rootLeaf])
    (ha : s.hub.answers = [(rootReq, .reply (.data (dwordsToBytes rootBlock)))])
    (hc : cachedRegion (modHub (modDie s 0 fun d => { d with tlb := touch d.tlb rootLeaf 16384 }) fun x =>
      { x with answers := [] }) 0 0 (Config.rootRcb 0) = none) (f : Nat) :
    readChain 0 0 (f + 1) (Config.rootRcb 0) s = .ok (some [(Config.rootRcb 0, rootBlock)],
      modHub (modDie s 0 fun d => { d with tlb := touch d.tlb rootLeaf 16384 }) fun x => { x with answers := [] }) := by
  have h2 : blkOk 0 true rootBlock = true := by decide +kernel
  simp only [readChain, root_aligned, root_read s h ha, bind, Except.bind, BEq.rfl, h2, hc, ne_eq, not_true_eq_false, if_true,
    if_false, Bool.not_true, Bool.false_eq_true]

/-- A record that is read and accepted, one that is not aligned, one with an entry that the image lacks, a region that is
refused and a full cache. -/
theorem witness_LaunchWord :
    (let st := { strand0 with g := strand0.g.set 3 0x800 }
     let s := launchS st [region0 256] [] (recordWords 0x800 256 0 ++ imageWords)
     AtEngine s .c st ∧ Readable st (.g 3) ∧ gNow st 3 = 0x800 ∧
      Claims.Maps s st .scalarRead 0x800 ⟨page0, 0x800⟩ ∧
      ∃ rec_ s1, readWords s 0 (some 0) 0 .scalarRead 0x800 8 = .ok (rec_, s1) ∧
        ∃ s2, acceptLaunch s1 0 0 rec_ none none = .ok (.number 1, s2)) ∧
    (gNow { strand0 with g := strand0.g.set 3 0x820 } 3).toNat % 64 ≠ 0 ∧
    launchRecOf [256, 0, 0, 32] = none ∧
    (let s := launchS strand0 [region0 256] [] imageWords
     let l : LaunchRec := ⟨256, 0, 0x1000, 0, 1, 1, 1, false, 0, 0, []⟩
     let l' : LaunchRec := { l with entry := 1 }
     launchRecOf [256, 0x1000, 0, 0x0001000100010000] = some l ∧
      launchRecOf [256, 0x0100000000001000, 0, 0x0001000100010000] = some l' ∧
      ∃ a s1, admitRegion s 0 0 l.rcb = .ok (a, s1) ∧ a = .ok ∧ ∃ im s2, readImageAs .copyRead imageRoom s1 0 0 l.image 32768 = .ok (some im, s2) ∧
        launchFits s2 0 l [1, 0, 0] im = true ∧ launchFits s2 0 l' [1, 0, 0] im = false) ∧
    (∃ s1, admitRegion (launchS strand0 [] [] []) 0 0 3 = .ok (.refused, s1)) ∧
    (∃ s1, admitRegion fullS 0 0 (Config.rootRcb 0) = .ok (.full, s1)) := by
  refine ⟨⟨at_st rfl rfl rfl, readable_of_plain ⟨rfl, rfl, rfl⟩ _, by decide +kernel, exists_of_answers (by decide +kernel), ?_⟩,
    by decide +kernel, by decide +kernel, ?_, exists_of_answers (by decide +kernel), ?_⟩
  · obtain ⟨a, s', h, h'⟩ := exists_of_holds (P := fun r s1 => answers (acceptLaunch s1 0 0 r none none) (.number 1))
      (show holds (readWords (launchS { strand0 with g := strand0.g.set 3 0x800 } [region0 256] []
        (recordWords 0x800 256 0 ++ imageWords)) 0 (some 0) 0 .scalarRead 0x800 8) _ = true by decide +kernel)
    exact ⟨a, s', h, exists_of_answers h'⟩
  · refine ⟨by decide +kernel, by decide +kernel, ?_⟩
    obtain ⟨a, s', h, h'⟩ := exists_of_holds (P := fun (r : RegionAnswer) s1 => decide (r = .ok) && holds (readImageAs .copyRead imageRoom s1 0 0 0x1000 32768) fun im s2 =>
        match im with
        | some im => launchFits s2 0 ⟨256, 0, 0x1000, 0, 1, 1, 1, false, 0, 0, []⟩ [1, 0, 0] im &&
            !launchFits s2 0 ⟨256, 1, 0x1000, 0, 1, 1, 1, false, 0, 0, []⟩ [1, 0, 0] im
        | none => false)
      (show holds (admitRegion (launchS strand0 [region0 256] [] imageWords) 0 0 256) _ = true by decide +kernel)
    simp only [Bool.and_eq_true, decide_eq_true_eq] at h'
    obtain ⟨im, s2, h2, h3⟩ := exists_of_holds h'.2
    refine ⟨a, s', h, h'.1, ?_⟩
    cases im with
    | none => simp at h3
    | some im =>
      simp only [Bool.and_eq_true, Bool.not_eq_true'] at h3
      exact ⟨im, s2, h2, h3.1, h3.2⟩
  · have h0 : ∀ s : State, (getDie s 0).regions = List.replicate 256 (region0 1) → cachedRegion s 0 0 (Config.rootRcb 0) = none := by
      intro s h2
      have h1 : (1 : Nat) ≠ Config.rootRcb 0 := by simp only [Config.rootRcb]; omega
      rw [cachedRegion, h2, List.find?_eq_none]
      intro x hx
      simp [(List.mem_replicate.1 hx).2, region0, h1]
    have h4 := h0 (modHub (modDie fullS 0 fun d => { d with tlb := touch d.tlb rootLeaf 16384 }) fun x => { x with answers := [] }) rfl
    have h1 := root_chain fullS rfl rfl h4 7
    have h2 := h0 fullS rfl
    have h3 : admitRegion fullS 0 0 (Config.rootRcb 0) = (do
        let (c, s) ← readChain 0 0 8 (Config.rootRcb 0) fullS
        match c with
        | none =>
          .ok (.refused, addLog s 0 (logEntry s 0x40 0 0 0xFF 5 (Config.rootRcb 0) none [BitVec.ofNat 64 (Config.rootRcb 0)]))
        | some chain =>
          let fresh := ((entriesOf 0 chain).filter fun e => (cachedRegion s 0 0 e.addr).isNone).map (inheritRegion s)
          match makeRoom s 0 (chain.map (·.1)) fresh.length 256 (getDie s 0).regions with
          | none => .ok (.full, s)
          | some l => .ok (.ok, modDie s 0 fun d => { d with regions := fresh ++ l })) := by
      rw [admitRegion, h2]
      cases cachedWhole fullS 0 0 (Config.rootRcb 0) <;> rfl
    apply exists_of_answers
    rw [h3, h1]
    simp only [bind, Except.bind, entriesOf, List.map, List.filter, regionEntry, h4, Option.isNone]
    decide +kernel

/-- A share with one routine of one micro-word that ends at once, and an entry that names it; an entry without steps. -/
theorem witness_BindWord :
    let st := { strand0 with g := strand0.g.set 3 0x8000010000000000 }
    let c : Context := { win := 100, share := some 0, wcs := [(0, 0x10000000000000000000000000000000)] }
    let s := { on .c st with ctxs := [(0, c)] }
    AtEngine s .c st ∧ Readable st (.g 3) ∧ shareReady (getCtx s 0 0) = true ∧ wcsCopied s 0 0 = false ∧ (gNow st 3).getLsbD 63 = true ∧
      bindOk (getCtx s 0 0).wcs (gNow st 3) = true ∧ (0x8000000000000000 : Word).getLsbD 63 = true ∧
      bindOk (getCtx s 0 0).wcs 0x8000000000000000 = false ∧ st.oldBinds = [] ∧
      (let u := putEng st .c { passed := 3 }
       inMask u .v = true ∧ (getEng u .v).passed < (getEng u .c).passed) :=
  ⟨at_st rfl rfl rfl, readable_of_plain ⟨rfl, rfl, rfl⟩ _, rfl, by decide +kernel, by decide +kernel, by decide +kernel, by decide, by decide +kernel, rfl, by decide⟩

/-- A call whose record has come, with the register that awaits its answer. -/
def call0 (i : Instr) (w : List Word) : Call := ⟨0, 0, {}, i, 4, 0x840, some w, false⟩

def callStrand (i : Instr) (w : List Word) : Strand :=
  { strand0 with g := strand0.g.set 3 0x840, calls := [call0 i w], pending := [⟨.c, 0, .g 4, none, fullMask (.g 4), 0, 15, false⟩] }

/-- A strand of the service partition, which is active; frame 9 is owned. -/
def svcS (i : Instr) (w : List Word) : State :=
  let s := launchS (callStrand i w) [] [] []
  { s with hub := { s.hub with owners := [(9, ⟨true, 0, 0, 0⟩)] } }

/-- A launch whose record breaks a field is answered with −2, which lands in g4. -/
theorem witness_LaunchWord_answer :
    let i : Instr := .launch 15 4 3
    let w : List Word := [0x8000000000000000]
    let s := svcS i w
    let q : Pending := ⟨.c, 0, .g 4, none, fullMask (.g 4), 0, 15, false⟩
    getStrand s ⟨0, 0⟩ = some (callStrand i w) ∧ (call0 i w).rec? = some w ∧
      acceptLaunch s (dieOf 0) (callStrand i w).part w none (some ((callStrand i w).uid, (call0 i w).pos, (call0 i w).seen)) =
        .ok (.code (-2), s) ∧
      serveCall s ⟨0, 0⟩ (callStrand i w) (call0 i w) w = .ok (.value (answerWord (.code (-2))), s) ∧
      q ∈ (callStrand i w).pending ∧ q.reg = .g 4 ∧ (4 : BitVec 5) ≠ 0 ∧ q.eng = .c ∧ q.pos = (call0 i w).pos ∧ q.val = none ∧
      q.mask = fullMask (.g 4) ∧ ∀ p ∈ (callStrand i w).pending, p.reg = .g 4 ∨ p.eng = .c ∧ p.pos = (call0 i w).pos → p = q := by
  refine ⟨rfl, rfl, ?_, ?_, List.mem_singleton.2 rfl, rfl, by decide, rfl, rfl, rfl, rfl, fun p h _ => List.mem_singleton.1 h⟩
  · have h : launchRecOf [0x8000000000000000] = none := by decide +kernel
    simp only [acceptLaunch, h]
  · have h : launchRecOf [0x8000000000000000] = none := by decide +kernel
    simp only [serveCall, call0, acceptLaunch, h]
    rfl

/-- A strand of another partition; descriptors that are not aligned, malformed or name a partition that is not active; a range
up to the end of the address space and one beyond it; frames of the pool, a frame that is owned; an area for the counters. -/
theorem witness_ServiceCalls :
    (let st := { strand0 with g := strand0.g.set 3 0x840 }
     let s := launchS st [] [] []
     AtEngine s .c st ∧ Readable st (.g 3) ∧ st.part = 0 ∧ gNow st 3 = 0x840 ∧ (0x840 : Word).toNat % 32 = 0 ∧
      Claims.Maps s st .scalarRead 0x840 ⟨page0, 0x840⟩) ∧
    ({ strand0 with part := 1 } : Strand).part ≠ 0 ∧ (0x848 : Word).toNat % 32 ≠ 0 ∧ (64 : Word).extractLsb' 6 58 ≠ 0 ∧
    (let s := svcS (.sysMread 15 4 3) [0, 0, 0, 0]
     (getPart s 5).st ≠ .active ∧ (getPart s 0).st = .active ∧ inPool s 7 = true ∧ inPool s 8 = true ∧ inPool s 9 = false ∧
      fget s.hub.owners 9 = some ⟨true, 0, 0, 0⟩ ∧ fget s.hub.owners 8 = none ∧
      ∃ ps s1, runOf s (dieOf 0) (some 0) 0 .scalarWrite ((call0 (.sysMread 15 4 3) [0, 0, 0, 0]).addr + 16) 128 = .ok (ps, s1) ∧
        (getStrand s1 ⟨0, 0⟩).isSome = true) ∧
    (2 ^ 54 - 1 : Word).extractLsb' 54 10 = 0 ∧ ((2 ^ 54 - 1 : Word).extractLsb' 0 54).toNat + (1 : Word).toNat ≤ 2 ^ 54 ∧
    2 ^ 54 < ((2 ^ 54 - 1 : Word).extractLsb' 0 54).toNat + (2 : Word).toNat :=
  ⟨⟨at_st rfl rfl rfl, readable_of_plain ⟨rfl, rfl, rfl⟩ _, rfl, by decide +kernel, by decide, exists_of_answers (by decide +kernel)⟩,
    by decide, by decide, by decide,
    ⟨by decide +kernel, by decide +kernel, by decide +kernel, by decide +kernel, by decide +kernel, by decide +kernel, by decide +kernel,
      exists_of_holds (by decide +kernel)⟩, by decide, by decide, by decide⟩

/-! ## The matrix engine -/

/-- A strand whose tile 15 and slots 30 and 31 are held: one element of i8 each. -/
def slot1 : OmSlot := { state := .filled, phys := some 1, data := 1 }

def mstrand : Strand :=
  { strand0 with om := (strand0.om.set 31 slot1).set 30 slot1, acc := strand0.acc.set 15 { held := true, phys := some 0 } }

def turnRuns (x : Turn) (i : Instr) : Bool := match x with | .run j => decide (j = i) | _ => false

theorem run_of_turn {x : Turn} {i : Instr} (h : turnRuns x i = true) : x = .run i := by
  unfold turnRuns at h
  split at h
  · rw [of_decide_eq_true h]
  · simp at h

/-- A claim of the last slots and the last tile, with places and without; slots that are held and not held; a `mclaim` that
tries again; a product word that waits to complete. -/
theorem witness_MatrixResources :
    (AtEngine (on .m strand0) .m strand0 ∧ Claims.TokensReady strand0 .m t0 ∧ Claims.Quiet strand0 ∧
      (∀ n, Claims.Named (some (30, 31)) n → (getOm strand0 n).state = .notHeld) ∧ (getAcc strand0 15).held = false ∧
      Claims.PlacesFree (on .m strand0) (some (30, 31)) (some 15) ∧ parkedOn (on .m strand0) 0 = [] ∧ Claims.Named (some (30, 31)) 31) ∧
    (let s := { on .m strand0 with cells := [(0, { cell0 with om := Vector.replicate 32 (some ⟨9, 0⟩) })] }
     AtEngine s .m strand0 ∧ Claims.NoPlace s strand0) ∧
    (AtEngine (on .m mstrand) .m mstrand ∧ (getOm mstrand 31).state ≠ .notHeld ∧ (getAcc mstrand 15).held = true ∧
      (getAcc mstrand 15).phys ≠ none ∧ engDone mstrand .m = true ∧ (∀ n, Claims.Named (some (30, 31)) n → (getOm mstrand n).state ≠ .notHeld) ∧
      (getOm mstrand 29).state = .notHeld) ∧
    (let s := { State.reset.withFetchWord 64 0xA860043280000003 with cur := ⟨0, 0, .c⟩ }
     turn s { s.cur with eng := .m } = .run (.mclaim t0 (some (3, 5)) (some 2))) ∧
    getStrand (on .m strand0) (Walker.ref (on .m strand0).cur) = some strand0 := by
  refine ⟨⟨at_on _ _ rfl, tokens_none _ _, ⟨rfl, rfl⟩, fun n _ => ?_, rfl, ⟨?_, fun _ => ⟨none, ?_, rfl⟩⟩, rfl,
    30, 31, rfl, by decide, by decide⟩, ⟨at_st rfl rfl rfl, fun x hx => ?_, rfl⟩,
    ⟨at_on _ _ rfl, by decide +kernel, by decide +kernel, by decide +kernel, by decide +kernel, ?_, by decide +kernel⟩,
    run_of_turn (by decide +kernel), rfl⟩
  · have h : ∀ n : BitVec 5, (getOm strand0 n).state = .notHeld := by decide +kernel
    exact h n
  · intro lo hi h
    obtain ⟨rfl, rfl⟩ : lo = 30 ∧ hi = 31 := by simpa [eq_comm] using h
    decide +kernel
  · show none ∈ (Vector.replicate 16 none).toList
    simp
  · have : x ∈ (Vector.replicate 32 (some (⟨9, 0⟩ : Holder))).toList := hx
    simp at this
    simp [this]
  · rintro n ⟨lo, hi, h, h1, h2⟩
    obtain ⟨rfl, rfl⟩ : lo = 30 ∧ hi = 31 := by simpa [eq_comm] using h
    have hn : ∀ n : BitVec 5, 30 ≤ n.toNat → (getOm mstrand n).state ≠ .notHeld := by decide +kernel
    exact hn n h1

/-- A strand whose matrix words have their energy, with an index vector. -/
def gstrand : Strand := { mstrand with grant := some ⟨0, 0, 0, true⟩, fiq := [⟨1, 0⟩] }

def mw : MmWord := ⟨t0, 15, 30, 31, 15, false, false, .acc⟩

/-- Products of one row and column with their energy granted; sizes that do not meet; a slot not held. -/
theorem witness_IntegerProducts :
    AtEngine (on .m gstrand) .m gstrand ∧ Claims.TokensReady gstrand .m mw.tk ∧ Claims.Quiet gstrand ∧
      Claims.TileReady gstrand mw.acc ∧ Claims.SlotReady gstrand mw.oma ∧ Claims.SlotReady gstrand mw.omb ∧
      Claims.IntSlot (getOm gstrand mw.oma) ∧ Claims.IntSlot (getOm gstrand mw.omb) ∧
      (∀ x ix, Claims.HasEnergy (on .m gstrand) gstrand x ix) ∧
      (Claims.dims (getOm gstrand 30) false) = (1, 1) ∧ (Claims.dims (getOm gstrand 31) false) = (1, 1) ∧
      (∀ q < 4, mw.oma.toNat + (0 : BitVec 16).toNat / 2 ^ (4 * q) % 4 < 32 ∧ mw.omb.toNat + (0 : BitVec 16).toNat / 2 ^ (4 * q + 2) % 4 < 32) ∧
      gstrand.fiq = [⟨1, 0⟩] ∧ (∀ j < 1, (1 : BitVec 128).getLsbD j = true → ixLane ⟨1, 0⟩ j < sdRows (getOm gstrand 31).desc) ∧
      (Claims.dims { slot1 with desc := BitVec.ofNat 256 (2 ^ 208) } false).2 ≠ (Claims.dims (getOm gstrand 31) false).1 ∧
      (getOm gstrand 29).state = .notHeld :=
  ⟨at_on _ _ rfl, tokens_none _ _, ⟨rfl, rfl⟩, ⟨by decide +kernel, by decide +kernel, by decide +kernel⟩,
    ⟨by decide +kernel, by decide +kernel, by decide +kernel⟩, ⟨by decide +kernel, by decide +kernel, by decide +kernel⟩,
    ⟨by decide +kernel, by decide +kernel⟩, ⟨by decide +kernel, by decide +kernel⟩, fun _ _ => .inl ⟨_, rfl, rfl⟩, by decide +kernel, by decide +kernel, by decide, rfl, by decide +kernel,
    by decide +kernel, by decide +kernel⟩

/-- A pattern of one row and column, as its rows and as its columns, with a value for each of its places. -/
theorem witness_IntegerProducts_pattern :
    let x : PatCtx := BitVec.ofNat 160 (2 ^ 159 + 2 ^ 158)
    let st := { gstrand with pat := gstrand.pat.set 15 x, patStore := gstrand.patStore.set 0 0xF8000000 }
    AtEngine (on .m st) .m st ∧ patValid (st.pat.get 15) = true ∧ patColord (st.pat.get 15) = true ∧ patCols (st.pat.get 15) = 1 ∧
      patRows (st.pat.get 15) = 1 ∧ (Claims.dims (getOm st 31) false) = (1, 1) ∧
      ((patSets st (st.pat.get 15)).map ones).sum ≤ sdRows (getOm st 30).desc * sdCols (getOm st 30).desc ∧
      Claims.IntSlot (getOm st 30) :=
  ⟨at_on _ _ rfl, by decide +kernel, by decide +kernel, by decide +kernel, by decide +kernel, by decide +kernel, by decide +kernel,
    ⟨by decide +kernel, by decide +kernel⟩⟩

/-- A product on one element, with its energy granted, and with a share below its charge; a slot that is not held; and an
element of fp32. -/
theorem witness_ProductWords :
    (AtEngine (on .m gstrand) .m gstrand ∧ Claims.TokensReady gstrand .m mw.tk ∧ Claims.Quiet gstrand ∧
      Claims.TileReady gstrand mw.acc ∧ (∀ x ix, Claims.HasEnergy (on .m gstrand) gstrand x ix) ∧
      ∃ l, stepProds (Claims.drawn (on .m gstrand) gstrand) (wordStep mw 0 0 0) (flushes gstrand .m) ⟨1, 0⟩ = .ok l) ∧
    (let s := { on .m mstrand with dies := Vector.replicate 4 { share := 0 } }
     AtEngine s .m mstrand ∧ mstrand.grant = none ∧
      ∃ l, stepProds (Claims.drawn s mstrand) (wordStep mw 0 0 0) (flushes mstrand .m) ⟨0, 0⟩ = .ok l ∧
        decide ((getDie (rollWindow s (dieOf 0)) (dieOf 0)).share < prodsCharge l) = true) ∧
    (∃ tr, stepProds (Claims.drawn (on .m strand0) strand0) (wordStep mw 0 0 0) (flushes strand0 .m) ⟨0, 0⟩ = .error (.trap tr) ∧
      tr.unit = none) ∧
    ([some (FV.num true 3 (-1))].length ≤ 32 ∧ Claims.IsNum (.num true 3 (-1))) := by
  have key : ∀ (x : Act (List Prod)) (P : List Prod → Bool),
      (match x with | .ok l => P l | .error _ => false) = true → ∃ l, x = .ok l ∧ P l = true := by
    intro x P h
    split at h
    · next l => exact ⟨l, rfl, h⟩
    · simp at h
  have err : ∀ x : Act (List Prod), (match x with | .error (.trap tr) => tr.unit.isNone | _ => false) = true →
      ∃ tr, x = .error (.trap tr) ∧ tr.unit = none := by
    intro x h
    split at h
    · next tr => exact ⟨tr, rfl, by simpa using h⟩
    · simp at h
  refine ⟨⟨at_on _ _ rfl, tokens_none _ _, ⟨rfl, rfl⟩, ⟨by decide +kernel, by decide +kernel, by decide +kernel⟩, fun _ _ => .inl ⟨_, rfl, rfl⟩, ?_⟩,
    ⟨at_st rfl rfl rfl, rfl, ?_⟩, err _ (by decide +kernel), by decide, ⟨_, _, _, rfl⟩⟩
  · obtain ⟨l, h, -⟩ := key (stepProds (Claims.drawn (on .m gstrand) gstrand) (wordStep mw 0 0 0) (flushes gstrand .m) ⟨1, 0⟩)
      (fun _ => true) (by decide +kernel)
    exact ⟨l, h⟩
  · exact key (stepProds (Claims.drawn (on .m mstrand) mstrand) (wordStep mw 0 0 0) (flushes mstrand .m) ⟨0, 0⟩)
      (fun l => decide ((0 : Int) < prodsCharge l)) (by decide +kernel)

/-- A new window; a word that waits within 8 µs, without and with the share for it, and one that has waited 8 µs. -/
theorem witness_EnergyGrants :
    let s := fun (clock window : Nat) (share : Int) =>
      let st := { mstrand with grant := some ⟨4000, 3, 70, false⟩ }
      { on .m st with clock := clock, dies := Vector.replicate 4 { window := window, granting := true, share := share } }
    ((getDie (s 8000 1 0) 0).window < 8000 / 4000 ∧ 8000 / 4000 ≤ (getDie (s 8000 2 0) 0).window) ∧
      (∀ c w x, (getDie (s c w x) 0).granting = true ∧ grantWaits (s c w x) 0 = [(0, ⟨4000, 3, 70, false⟩)]) ∧
      4000 ≤ 4000 * (getDie (s 8000 8 70) 0).window ∧ 4000 * (getDie (s 8000 8 70) 0).window < 4000 + 32000 ∧
      ((70 : Nat) : Int) ≤ (getDie (s 8000 8 70) 0).share ∧ (getDie (s 8000 8 69) 0).share < (70 : Nat) ∧
      4000 + 32000 ≤ 4000 * (getDie (s 8000 9 0) 0).window ∧ (getDie (on .m mstrand) 0).granting = false :=
  ⟨⟨by decide, by decide⟩, fun _ _ _ => ⟨rfl, rfl⟩, by decide, by decide, by decide, by decide, by decide, rfl⟩

/-- A drain of the last tile, one under way with a place left in SQ, one that has pushed all. -/
theorem witness_Drains :
    (AtEngine (on .m mstrand) .m mstrand ∧ mstrand.nest = none ∧ Claims.TokensReady mstrand .m t0 ∧ mstrand.drain = none ∧
      Claims.TileReady mstrand 15) ∧
    (let st := { mstrand with drain := some ⟨0, 15, true, [5]⟩, sq := List.replicate 7 { data := 0 } }
     AtEngine (on .m st) .m st ∧ st.nest = none ∧ st.drain = some ⟨0, 15, true, 5 :: []⟩ ∧ st.sq.length < 8 ∧ st.pred = none) ∧
    (let st := { mstrand with drain := some ⟨0, 15, true, []⟩ }
     AtEngine (on .m st) .m st ∧ st.drain = some ⟨0, 15, true, []⟩ ∧ (getAcc st 15).held = true) ∧
    (Claims.Quiet mstrand ∧ engDone mstrand .m = true ∧ mstrand.sq.length < 8 ∧ mstrand.pred = none) :=
  ⟨⟨at_on _ _ rfl, rfl, tokens_none _ _, rfl, ⟨by decide +kernel, by decide +kernel, by decide +kernel⟩⟩, ⟨at_on _ _ rfl, rfl, rfl, by decide, rfl⟩,
    ⟨at_on _ _ rfl, rfl, by decide +kernel⟩, ⟨rfl, rfl⟩, by decide +kernel, by decide, rfl⟩

/-! ## Nests, patterns and micro-routines -/

/-- Words 0 and 1 of level records: trip count 65535, 0, 0 with an empty step, with two tokens, and a reserved bit; and a
header. -/
def lev (n : Word) : Word × Word := (n, 0)
def hdr0 : Word × Word := (0x0000FF8000000000, 0)

def nstrand (n : NestRun) (x : Word × Word) : Strand :=
  { strand0 with nest := some n, nestActive := { hdr := some hdr0, levels := Vector.replicate 6 x } }

def nrun (todo : List NestAct) (levels : List (Nat × Nat)) : NestRun := ⟨0, 0, 0, 0, 0, levels, 0, none, todo⟩

theorem nest_at (n : NestRun) (x : Word × Word) : Claims.NestAt (on .m (nstrand n x)) (nstrand n x) n :=
  ⟨congrArg some (settle_none 0 _ rfl), rfl, Option.some_ne_none _, rfl, rfl, rfl, rfl⟩

/-- Records that are well formed and not; a nest that starts and one that lacks its header; and a running nest at each of its
actions: levels 0 and 5 entered, a trip count of 0 with and without its empty step, a token, the end of an iteration that is
not the last, that is the last of an inner level and of the outermost. -/
theorem witness_LoopNests :
    (let st := { strand0 with qM := [0x0000FFFF00000000, 0] }
     AtEngine (on .m st) .m st ∧ Claims.TokensReady st .m t0 ∧ st.qM = [0x0000FFFF00000000, 0] ∧
      levelOk (0x0000FFFF00000000, 0) = true ∧ headerOk hdr0 = true ∧ levelOk (1, 0) = false ∧ headerOk (0, 0) = false) ∧
    (let st := { strand0 with nestShadow := { hdr := some hdr0 } }
     AtEngine (on .m st) .m st ∧ Claims.TokensReady st .m t0 ∧ Claims.Quiet st ∧ st.nestShadow.hdr ≠ none ∧
      strand0.nestShadow.hdr = none) ∧
    (∀ n x, Claims.NestAt (on .m (nstrand n x)) (nstrand n x) n) ∧
    (let v := (lev 0x0000FFFF00000000).1
     v.getLsbD 63 = false ∧ 0 < (v.extractLsb' 32 16).toNat ∧ (nrun [.enter] []).levels.length < 6 ∧
      (nrun [.enter] (List.replicate 5 (1, 0))).levels.length < 6) ∧
    (let v := (lev 0).1
     v.getLsbD 63 = false ∧ (v.extractLsb' 32 16).toNat = 0 ∧ (v.getLsbD 60 && v.getLsbD 59) = false ∧
      ((0x1800000000000000 : Word).getLsbD 60 && (0x1800000000000000 : Word).getLsbD 59) = true ∧
      ((0x1800000000000000 : Word).extractLsb' 32 16).toNat = 0) ∧
    (let st := { nstrand (nrun [.fills 2, .step false] []) (lev 0) with tok := { lm := [{ eng := .l, pos := 0, filled := true }] } }
     Claims.NestAt (on .m st) st (nrun [.fills 2, .step false] []) ∧ st.tok.lm = [{ eng := .l, pos := 0, filled := true }]) ∧
    (let n := nrun [.iterEnd, .iterEnd] [(1, 0), (2, 1)]
     n.levels = [(1, 0)] ++ [(2, 1)] ∧ (lev 0x100000000).1.getLsbD 58 = false ∧ 0 + 1 < 2 ∧ 2 ≤ 1 + 1) :=
  ⟨⟨at_on _ _ rfl, tokens_none _ _, rfl, by decide +kernel, by decide +kernel, by decide +kernel, by decide +kernel⟩,
    ⟨at_on _ _ rfl, tokens_none _ _, ⟨rfl, rfl⟩, Option.some_ne_none _, rfl⟩, nest_at, by decide, by decide,
    ⟨⟨congrArg some (settle_none 0 _ rfl), rfl, Option.some_ne_none _, rfl, rfl, by decide +kernel, rfl⟩, rfl⟩, by decide⟩

/-- A program of two words at the end of the store, a program without its `pend`; a binding of a stored program, an entry with a
reserved bit, an entry that names no program; the ends of the ranges of the hash. -/
theorem witness_PatternWords :
    (let st := { strand0 with qM := [0xF800000008000000] }
     AtEngine (on .m st) .m st ∧ Claims.TokensReady st .m t0 ∧ Claims.Quiet st ∧ engDone st .m = true ∧
      st.mpWords = [] ∧ (st.mpWords ++ [(0xF800000008000000 : Word)]).length = (((1 : BitVec 8).toNat + 1) + 1) / 2 ∧
      (st.mpWords ++ [(0xF800000008000000 : Word)]).length < (((2 : BitVec 8).toNat + 1) + 1) / 2 ∧
      (254 : BitVec 8).toNat + ((1 : BitVec 8).toNat + 1) ≤ 256 ∧
      patProgramOk 0 ((List.range 2).map fun i => (if i % 2 = 0 then (st.qM.getD (i / 2) 0).setWidth 32
        else ((st.qM.getD (i / 2) 0) >>> 32).setWidth 32 : BitVec 32)) = true ∧
      patProgramOk 0 [0x08000000, 0x08000000] = false) ∧
    (let st := { strand0 with
      qM := [254], patStore := (strand0.patStore.set 254 0x08000000).set 255 0xF8000000, patStart := BitVec.ofNat 256 (2 ^ 254) }
     AtEngine (on .m st) .m st ∧ Claims.TokensReady st .m t0 ∧ Claims.Quiet st ∧ engDone st .m = true ∧ st.qM = [254] ∧
      (∃ x, bindCheck st 15 false 254 = .ok x) ∧ (0x400000 : Word).extractLsb' 22 42 ≠ 0 ∧
      ∃ tr, bindCheck st 15 false 255 = .error tr) ∧
    (2 ^ 16 - 1 < 2 ^ 16 ∧ 0 < 256 ∧ 256 ≤ 256 ∧ 255 < 256) := by
  have good : ∀ x : Except Trap PatCtx, (match x with | .ok _ => true | .error _ => false) = true → ∃ y, x = .ok y := by
    intro x h
    split at h
    · next y => exact ⟨y, rfl⟩
    · simp at h
  have bad : ∀ x : Except Trap PatCtx, (match x with | .ok _ => false | .error _ => true) = true → ∃ y, x = .error y := by
    intro x h
    split at h
    · simp at h
    · next y => exact ⟨y, rfl⟩
  exact ⟨⟨at_on _ _ rfl, tokens_none _ _, ⟨rfl, rfl⟩, by decide +kernel, rfl, by decide, by decide, by decide, by decide +kernel, by decide +kernel⟩,
    ⟨at_on _ _ rfl, tokens_none _ _, ⟨rfl, rfl⟩, by decide +kernel, rfl, good _ (by decide +kernel), by decide, bad _ (by decide +kernel)⟩,
    by decide⟩

/-- A bound word of each engine, with an entry whose LAT is 0, and of S at the data stage. -/
theorem witness_BoundWords :
    (∀ e : Eng, AtEngine (on e strand0) e strand0 ∧ Claims.ArgsReadable strand0 e ∧ Claims.TokensReady strand0 e Tk.none) ∧
      strand0.lean = none ∧ Claims.Quiet strand0 ∧ strand0.stores.length < 64 ∧
      (∀ e : Eng, (boundEntry (getCtx (on e strand0) 0 0) strand0 e 63).extractLsb' 56 4 = 0) ∧
    (let x := entry0 (.boundOpcode 63 .s ⟨0, Tk.none⟩ 0 0 0 0)
     let st := { strand0 with stores := [x] }
     Claims.AtDataStage (on .s st) st x []) :=
  ⟨fun e => ⟨at_on _ _ rfl, fun _ => ⟨fun _ => readable_of_plain ⟨rfl, rfl, rfl⟩ _, fun _ => readable_of_plain ⟨rfl, rfl, rfl⟩ _,
      fun _ => readable_of_plain ⟨rfl, rfl, rfl⟩ _⟩, tokens_none _ _⟩, rfl, ⟨rfl, rfl⟩, by decide, fun e => by cases e <;> rfl,
    congrArg some (settle_none 0 _ rfl), by decide +kernel, rfl, rfl, rfl, rfl⟩

/-- C in a routine whose entry permits one step, at micro-word 0. -/
def micro0 (steps : Nat) : Micro :=
  ⟨.boundOpcode 63 .c ⟨0, Tk.none⟩ 31 0 0 0, 0, 0x0000010000000000, 0, 0, Vector.replicate 8 0, Vector.replicate 8 0,
    Vector.replicate 8 0, 0, false, false, false, steps⟩

def microStrand (steps : Nat) : Strand := withEng .c { micro := some (micro0 steps) }

def microState (steps : Nat) (w : MicroWord) : State :=
  { on .c (microStrand steps) with ctxs := [(0, { win := 100, wcs := [(0, w)] })] }

theorem at_micro (steps : Nat) (w : MicroWord) : Claims.AtMicro (microState steps w) (microStrand steps) (micro0 steps) w :=
  ⟨congrArg some (settle_none 0 _ rfl), rfl, rfl, rfl, .inr ⟨rfl, rfl⟩, rfl⟩

/-- A micro-word that does nothing, `msout`, the end of a routine, its trap, and a routine at its bound. -/
theorem witness_MicroSteps :
    (∀ n w, Claims.AtMicro (microState n w) (microStrand n) (micro0 n) w) ∧
      (∀ w ∈ [(0 : MicroWord), BitVec.ofNat 128 (8 * 2 ^ 28), BitVec.ofNat 128 (6 * 2 ^ 124), BitVec.ofNat 128 (7 * 2 ^ 124)],
        Claims.NoParts w) ∧
      ((micro0 0).entry.extractLsb' 40 12).toNat = 1 ∧ ((BitVec.ofNat 128 (8 * 2 ^ 28)).extractLsb' 28 4).toNat = 8 ∧
      ((BitVec.ofNat 128 (6 * 2 ^ 124)).extractLsb' 124 4).toNat = 6 ∧
      ((BitVec.ofNat 128 (7 * 2 ^ 124)).extractLsb' 124 4).toNat = 7 := by
  refine ⟨at_micro, fun w hw => ?_, by decide, by decide, by decide, by decide⟩
  fin_cases hw <;> exact ⟨by decide +kernel, by decide +kernel, by decide +kernel⟩

/-- The last vector operation, on the first and last tile registers. -/
theorem witness_MicroVectorParts :
    let w : MicroWord := BitVec.ofNat 128 (16 * 2 ^ 102 + 80 * 2 ^ 91 + 80 * 2 ^ 84 + 87 * 2 ^ 77 + 3 * 2 ^ 75)
    let field := fun (lo n : Nat) => (w.extractLsb' lo n).toNat
    Claims.AtMicro (microState 0 w) (microStrand 0) (micro0 0) w ∧ field 124 4 = 0 ∧ field 61 3 = 0 ∧ field 28 4 = 0 ∧
      field 91 7 = 80 ∧ field 84 7 = 80 ∧ field 77 7 = 87 ∧ field 75 2 = 3 ∧ (tyCodes.getD (field 98 4) .b).isInt = true ∧
      field 102 6 = 16 :=
  ⟨at_micro _ _, by decide +kernel⟩

/-! ## Collectives -/

/-- A group of ranks 0 and 1 on dies 0 and 1 of this package, as rank 0. -/
def grp : Group := ⟨1, 5, 0, [0, 1], 0⟩

def ccmd : CollCmd := ⟨1, 0, 256, 5, 0, {}, .crun 0⟩

/-- A block whose buffer 0 holds two units of staging: type 4, sums. -/
def block0 : List Word :=
  [0x0000040000000000, 0, 0, 0, 0, 0, 0, 0, 0x8000000000000000, 0x0001000000000002, 0, 0]

def crun0 (prog : List Word) : CollRun :=
  ⟨ccmd, block0, prog, 0, Vector.replicate 4 0, [], [], [], [], [], none, false⟩

def slot0 (q : CollRun) : CollSlot := { group := grp, run := some q }

def cref : CRef := ⟨0, 0, 0⟩

/-- Die 0 with this slot, a share of the staging space, and a strand that waits for the record. -/
def collS (x : CollSlot) : State :=
  { on .c { strand0 with results := [⟨5, none⟩] } with
    dies := (Vector.replicate 4 {}).set 0 ({ coll := [(0, { shares := 1, slots := [(0, x)] })] } : Die) }

theorem runs (q : CollRun) (h : q.inFabric = false) : Claims.Runs (collS (slot0 q)) cref (slot0 q) q := ⟨rfl, rfl, h⟩

/-- Seven records and eight. -/
theorem witness_CollectivePushes :
    let st := fun n => { strand0 with results := List.replicate n ⟨0, none⟩ }
    (∀ n, AtEngine (on .c (st n)) .c (st n) ∧ Readable (st n) (.g 3)) ∧ (st 7).results.length < 8 ∧ 8 ≤ (st 8).results.length :=
  ⟨fun _ => ⟨at_on _ _ rfl, readable_of_plain ⟨rfl, rfl, rfl⟩ _⟩, by decide, by decide⟩

/-- No group, a group with a collective, and one at rest; addresses one unit off; a strand that waits for the record. -/
theorem witness_CollectiveCommands :
    let s := collS { group := grp }
    getSlot s ⟨3, 0, 0⟩ = none ∧ getSlot (collS (slot0 (crun0 []))) cref = some (slot0 (crun0 [])) ∧ (slot0 (crun0 [])).run ≠ none ∧
      getSlot s cref = some { group := grp } ∧ ((getColl s 0 0).slots.map (·.1)).Nodup ∧ 16 % 32 ≠ 0 ∧ 32 % 64 ≠ 0 ∧
      ∃ st, getStrand s ⟨0, 0⟩ = some st ∧ st.uid = ccmd.uid ∧ ∃ p ∈ st.results, p.id = ccmd.id :=
  ⟨rfl, rfl, Option.some_ne_none _, rfl, by decide +kernel, by decide, by decide, _, rfl, rfl, _, List.mem_singleton.2 rfl, rfl⟩

/-- WAIT with and without a header under way; loops of no pass and of one; the last pass and one before it; END. -/
theorem witness_CollectiveControl :
    (∀ prog, Claims.Runs (collS (slot0 (crun0 prog))) cref (slot0 (crun0 prog)) (crun0 prog)) ∧
      (let q := crun0 [0x4000000000000000]
       q.prog[q.pc]? = some 0x4000000000000000 ∧ Claims.fieldOf 0x4000000000000000 60 4 = 4 ∧ q.active = [] ∧ q.sent = [] ∧
        ({ q with sent := [(3, none)] } : CollRun).sent ≠ []) ∧
      (let w : Word := 0x5000000000000000
       let e : Word := 0x6000000000000000
       Claims.fieldOf w 60 4 = 5 ∧ Claims.fieldOf w 40 16 = 0 ∧ 0 < Claims.fieldOf 0x5000010000000000 40 16 ∧
        (crun0 [w, e]).prog[1]? = some e ∧ Claims.fieldOf e 60 4 = 6 ∧ Claims.fieldOf e 36 2 = Claims.fieldOf w 36 2) ∧
      (let q := { crun0 [0x6000000000000000] with loops := [(0, 0, 1)] }
       Claims.Runs (collS (slot0 q)) cref (slot0 q) q ∧ q.loops.find? (fun l => l.1 == 0) = some (0, 0, 1) ∧
        [(0, 0, 2)].find? (fun (l : Nat × Nat × Nat) => l.1 == 0) = some (0, 0, 2)) ∧
      (let q := crun0 [0x8000000000000000]
       Claims.fieldOf 0x8000000000000000 60 4 = 8 ∧ barReady (collS (slot0 q)) q = true ∧ ∀ m ∈ (slot0 q).held, m.2.seq ≠ grp.seq) := by
  refine ⟨fun _ => runs _ rfl, by decide, by decide +kernel, ⟨runs _ rfl, by decide, by decide⟩, by decide, by decide +kernel, ?_⟩
  intro m hm
  simp [slot0] at hm

theorem peers_next {x : CollSlot} {q : CollRun} {w : Word} {p rp : Nat} (h : Claims.fieldOf w 56 4 = 1)
    (h1 : p < x.group.members.length ∧ rp < x.group.members.length)
    (h2 : p = (((x.group.rank : Int) + (Claims.fieldOf w 40 16 : Nat)) % (x.group.members.length : Nat)).toNat)
    (h3 : rp = (((x.group.rank : Int) - (Claims.fieldOf w 40 16 : Nat)) % (x.group.members.length : Nat)).toNat) :
    Claims.Peers x q w p rp := by
  refine ⟨h1.1, h1.2, ?_⟩
  rw [h]
  exact ⟨h2, h3⟩

/-- Steps with the next rank, of the two units of buffer 0, of a unit beyond them, and COPY. -/
theorem witness_CollectiveStepStarts :
    (∀ prog, Claims.Runs (collS (slot0 (crun0 prog))) cref (slot0 (crun0 prog)) (crun0 prog) ∧ (crun0 prog).active = []) ∧
      grp.rank < grp.members.length ∧
      (∀ w ∈ [(0x1100010000020000 : Word), 0x7100010000020000, 0x2100010000020000, 0x0100010000020000],
        let q := crun0 [w]
        q.prog[q.pc]? = some w ∧ Claims.Peers (slot0 q) q w 1 1 ∧ Claims.StepRange (slot0 q) q w 0 2 ∧
          Claims.RangeFits (collS (slot0 q)) cref q 0 0 2) ∧
      Claims.fieldOf 0x3000000000020000 60 4 = 3 ∧
      Claims.StepRange (slot0 (crun0 [0x3000000000020000])) (crun0 [0x3000000000020000]) 0x3000000000020000 0 2 ∧
      Claims.StepRange (slot0 (crun0 [0x1100010000030000])) (crun0 [0x1100010000030000]) 0x1100010000030000 0 3 ∧
      ¬ Claims.RangeFits (collS (slot0 (crun0 []))) cref (crun0 []) 0 0 3 ∧ barReady (collS (slot0 (crun0 []))) (crun0 []) = true ∧
      memberPkg (grp.members.getD 1 0) = (collS (slot0 (crun0 []))).hub.pkg.toNat := by
  refine ⟨fun _ => ⟨runs _ rfl, rfl⟩, by decide, fun w hw => ?_, by decide, ?_, ?_, ?_, by decide +kernel, by decide⟩
  · fin_cases hw <;> exact ⟨rfl, peers_next (by decide +kernel) (by decide +kernel) (by decide +kernel) (by decide +kernel), ⟨by decide +kernel, by decide +kernel⟩,
      .inr ⟨by decide +kernel, by decide +kernel, by decide +kernel⟩⟩
  · exact ⟨by decide +kernel, by decide +kernel⟩
  · exact ⟨by decide +kernel, by decide +kernel⟩
  · unfold Claims.RangeFits
    decide +kernel

/-- A message of one unit from rank 1, and one of another length. -/
def cmsg (count : Nat) : CollMsg := ⟨1, 5, 0, 1, 0, 0, count, 4, 0, 0, List.replicate 64 1⟩

def cstep (op : Nat) (msg : Option Nat) : CStep := ⟨op, 0, 1, 0, 1, 0, 0, 0, 1, 0, 0, msg⟩

def csrun (op : Nat) (msg : Option Nat) : CollRun := { crun0 [] with active := [cstep op msg] }

def csslot (op count : Nat) : CollSlot := { slot0 (csrun op none) with held := [(9, cmsg count)] }

theorem witness_CollectiveStepEffects :
    (∀ op ∈ [1, 2, 3, 7], ∀ n, Claims.Runs (collS (csslot op n)) cref (csslot op n) (csrun op none)) ∧
      (∀ op ∈ [1, 2, 7],
        (csslot op 1).held.find? (fun m => m.2.seq == grp.seq && m.2.src == (cstep op none).src && m.2.step == (cstep op none).nth) =
          some (9, cmsg 1) ∧
        ∃ bs s1, receivedBytes (collS (csslot op 1)) cref (csrun op none) (cstep op none) (cmsg 1).data = .ok (bs, s1) ∧
          decide (bs = some (List.replicate 64 1)) = true) ∧
      ((cmsg 1).count = 1 ∧ (cmsg 1).ty.toNat = cbTy block0 ∧ (cmsg 1).op.toNat = cbOpr block0 ∧ (cmsg 1).data.length = 64 * 1) ∧
      (cmsg 2).count ≠ 1 ∧
      (∀ op ∈ [0, 2], Claims.Runs (collS (slot0 (csrun op (some 7)))) cref (slot0 (csrun op (some 7))) (csrun op (some 7))) ∧
      (let q := csrun 0 (some 7)
       let s := { collS (slot0 q) with hub := { net := [.coll 7 1 0 (cmsg 1)] } }
       asked s 7 = true ∧ ∃ bs s1, readRange s cref ccmd block0 0 0 1 = .ok (bs, s1)) ∧
      (Claims.InStaging (csrun 1 none) 0 0 ∧ (List.replicate 64 (1 : Byte)).length = 64 * 1 ∧
        memWf (getColl (collS (csslot 1 1)) 0 0).staging = true) := by
  refine ⟨fun op _ n => ⟨rfl, rfl, rfl⟩, fun op hop => ?_, by decide +kernel, by decide, fun op _ => ⟨rfl, rfl, rfl⟩,
    ⟨by decide +kernel, _, _, rfl⟩, ⟨by decide +kernel, by decide +kernel⟩, by decide, rfl⟩
  fin_cases hop <;> exact ⟨by decide +kernel, exists_of_holds (P := fun bs _ => decide (bs = some (List.replicate 64 1)))
    (by decide +kernel)⟩

/-- A line of each type, with integer operations only for the bitwise ones. -/
theorem witness_ReductionOperations :
    (0 ≤ 5 ∧ 4 ∈ [4, 5, 8, 9, 10, 11] ∧ 11 ∈ [4, 5, 8, 9, 10, 11] ∧ (3 ≤ 5 → 5 = 4 ∨ 5 = 5)) ∧
      (List.replicate 64 (0x80 : Byte)).length % 64 = 0 ∧ ([] : List Byte).length % 64 = 0 := by decide

/-- A collective that has waited past its limit, one in the switches, and aborts of this group, of one that ended and of none. -/
theorem witness_CollectiveAborts :
    (let q := { crun0 [] with waitSince := some 0 }
     let s := { collS (slot0 q) with clock := 40000001 }
     Claims.Runs s cref (slot0 q) q ∧ 0 + cbTmo q.block < s.clock) ∧
    (Claims.Runs (collS (slot0 (crun0 []))) cref (slot0 (crun0 [])) (crun0 []) ∧ (crun0 []).waitSince = none) ∧
    (let q := { crun0 [] with inFabric := true }
     getSlot (collS (slot0 q)) cref = some (slot0 q) ∧ q.inFabric = true) ∧
    (let a : CollAbort := ⟨1, 5, 0, 1, 3, 1, 7⟩
     let x := slot0 (crun0 [])
     a.fromPkg ≠ (collS x).hub.pkg ∧ findGroup (collS { x with group := grp }) 0 a.wgid a.dtag =
        some (cref, { x with group := grp }) ∧ a.root < grp.members.length ∧ a.src < grp.members.length ∧
      a.seq = grp.seq ∧ a.seq ∉ x.aborted ∧ a.seq ∈ ({ x with aborted := [0] } : CollSlot).aborted ∧
      findGroup (collS x) 3 a.wgid a.dtag = none ∧ (logOf (collS x) 3).length < 4096) ∧
    (let b : Aborting := ⟨0, 0, 3, none, [1], 0, 40000000, 0, some (ccmd, 7), false⟩
     let x : CollSlot := { group := grp, aborts := [b] }
     let s := { collS x with clock := 40000000 }
     getSlot s cref = some x ∧ x.aborts = [b] ∧ b.children = [1] ∧ b.silent = false ∧ Claims.GroupOk s x.group ∧
      b.since + b.tmo ≤ s.clock ∧ findGroup s 0 1 5 = some (cref, x)) :=
  ⟨⟨runs _ rfl, by decide +kernel⟩, ⟨runs _ rfl, rfl⟩, ⟨rfl, rfl⟩, by decide +kernel,
    ⟨rfl, rfl, rfl, rfl, ⟨by decide, by decide, by decide⟩, by decide, by decide +kernel⟩⟩

/-- Headers from another package for the sequence under way, the next, one too far and one gone by; of no group; and an answer
of the switches. -/
theorem witness_CollectiveArrivals :
    (let x := slot0 (crun0 [])
     let s := { collS { x with group := { grp with seq := 0xFFFF } } with hub := { routes := [⟨7, 0, 0⟩] } }
     let m := fun (q : BitVec 16) => ({ cmsg 1 with fromPkg := 7, seq := q } : CollMsg)
     (m 0).fromPkg ≠ s.hub.pkg ∧ (m 0).data.length = 64 * (m 0).count ∧ (∃ e ∈ s.hub.routes, e.pkg = (m 0).fromPkg) ∧
      findGroup s 0 1 5 = some (cref, { x with group := { grp with seq := 0xFFFF } }) ∧
      ((m 0).seq - 0xFFFF).toNat ≤ 1 ∧ 2 ≤ ((m 1).seq - 0xFFFF).toNat ∧ ((m 1).seq - 0xFFFF).toNat < 2 ^ 15 ∧
      2 ^ 15 ≤ ((m 0x7FFF).seq - 0xFFFF).toNat ∧ findGroup s 3 1 5 = none ∧ (logOf s 3).length < 4096) ∧
    (let q := { crun0 [] with inFabric := true, block := block0.set 10 0x8000000000000000 |>.set 11 2 }
     let s := collS (slot0 q)
     getSlot s cref = some (slot0 q) ∧ q.inFabric = true ∧ barReady s q = true ∧ Claims.RangeFits s cref q 0 0 2 ∧
      Claims.RangeFits s cref q 1 0 2 ∧ Claims.fieldOf (q.block.getD 9 0) 0 32 = 2 ∧
      ∃ bs s1, readRange s cref q.cmd q.block 0 0 2 = .ok (bs, s1)) := by
  refine ⟨by decide +kernel, rfl, rfl, by decide +kernel, ?_, ?_, by decide +kernel, _, _, rfl⟩
  · exact .inr ⟨by decide +kernel, by decide +kernel, by decide +kernel⟩
  · exact .inr ⟨by decide +kernel, by decide +kernel, by decide +kernel⟩

/-! ## The fabric, the host and what comes back -/

def awayAcc (h : Home) : Access := { access0 .load with home := h }

def awayStrand (h : Home) : Strand := { strand0 with accs := [awayAcc h] }

def awayS (h : Home) (port clock : Nat) : State :=
  { on .c (awayStrand h) with hub := { remotes := [⟨9, 1, port, 0⟩] }, clock := clock }

theorem away (h : Home) (port clock : Nat) : Claims.Away (awayS h port clock) ⟨0, 0⟩ (awayStrand h) (awayAcc h) ⟨9, 1, port, 0⟩ :=
  ⟨⟨rfl, List.mem_singleton.2 rfl, rfl, fun _ h _ => List.mem_singleton.1 h, fun _ h => absurd h List.not_mem_nil⟩,
    fun e => absurd (show Eng.c = Eng.l from e) (by decide)⟩

/-- A request of a unit for a read of 8 bytes, and a posted write. -/
def unit0 (h : Home) (data : Option (List Byte)) (port : Nat) : UnitReq :=
  ⟨9, ⟨0, 0, h, 0x100, 0x100, 8, data, false, data.isSome⟩, some (port, 0)⟩

/-- A read that L makes on an arm that it has leant into. -/
def leanAcc : Access := { awayAcc (.remote 1) with eng := .l, pos := 5, dest := .lq 3 }

def leanAway : Strand :=
  { strand0 with accs := [leanAcc], lean := some ⟨true, 0, 5, { passed := 4 }, strand0.a, strand0.sd, [], [], [], none, false⟩ }

theorem witness_AnswersFromAway_lean :
    let s := { on .l leanAway with hub := { remotes := [⟨9, 1, 3, 0⟩] } }
    Claims.OutThere s ⟨0, 0⟩ leanAway leanAcc ⟨9, 1, 3, 0⟩ ∧ leanAcc.eng = .l ∧ (∃ n, leanAcc.dest = .lq n) ∧
      (∃ ln, leanAway.lean = some ln ∧ ln.saved.passed ≤ leanAcc.pos ∧ ln.fault = none) :=
  ⟨⟨rfl, List.mem_singleton.2 rfl, rfl, fun _ h _ => List.mem_singleton.1 h, fun _ h => absurd h List.not_mem_nil⟩, rfl, ⟨3, rfl⟩,
    _, rfl, by decide, rfl⟩

theorem witness_AnswersFromAway_units : ∀ h data port,
    Claims.UnitOut { State.reset with hub := { away := [unit0 h data port] }, clock := 200000000 } (unit0 h data port) port 0 :=
  fun _ _ _ => ⟨by simp [unit0], rfl, fun _ h => absurd h List.not_mem_nil⟩

/-- A load of another package through port 15 and one of host memory, just in time and too late; and nothing under way. -/
theorem witness_AnswersFromAway :
    (∀ h port clock, Claims.Away (awayS h port clock) ⟨0, 0⟩ (awayStrand h) (awayAcc h) ⟨9, 1, port, 0⟩) ∧
      (awayAcc (.remote 1)).home = .remote 1 ∧ (awayAcc .host).home = .host ∧ (∀ n h, (awayAcc h).dest ≠ .lq n) ∧
      (awayS (.remote 1) 15 400000).clock = 0 + 400000 ∧ (awayS .host 16 199999999).clock < 0 + 200000000 ∧
      (∀ x ∈ State.reset.hub.remotes, x.id ≠ 9) ∧ (∀ u ∈ State.reset.hub.away, u.id ≠ 9) ∧ ∀ d, (getDie State.reset d).coll = [] := by
  refine ⟨away, rfl, rfl, fun n h => by simp [awayAcc, access0], rfl, by decide, fun x hx => absurd hx List.not_mem_nil,
    fun x hx => absurd hx List.not_mem_nil, fun d => ?_⟩
  simp [getDie, State.reset, Vector.get]

/-- A line of a frame that package 7 may reach, and one under another domain tag. -/
theorem witness_RemoteRequests :
    let s := { State.reset with hub := { routes := [⟨7, 0, 1⟩], owners := [(0, ⟨true, 3, 3, 5⟩)] } }
    let q : RemoteReq := ⟨7, 5, 8, .load 128⟩
    (∃ e ∈ s.hub.routes, e.pkg = q.pkg) ∧ 0 < remoteBytes q.op ∧
      (∀ j < 128, populated s (q.addr + j) = true ∧ (q.addr + j) / Config.frameSize = 0) ∧
      (fget s.hub.owners 0 = some ⟨true, 3, 3, 5⟩ ∧ (⟨true, 3, 3, 5⟩ : FrameOwner).dtag = q.dtag) ∧ memWf s.mem = true ∧
      s.hub.linePoison = [] ∧ s.hub.deadFrames = [] ∧ s.hub.mixed = [] ∧ (⟨true, 3, 3, 5⟩ : FrameOwner).dtag ≠ ({ q with dtag := 6 } : RemoteReq).dtag ∧
      ∀ e ∈ s.hub.routes, e.pkg ≠ ({ q with pkg := 8 } : RemoteReq).pkg := by
  refine ⟨⟨_, List.mem_singleton.2 rfl, rfl⟩, by decide, by decide +kernel, ⟨rfl, rfl⟩, rfl, rfl, rfl, rfl, by decide, by decide⟩

/-- Port 15 up, with a request on it and with a collective's message on it; port 14 down; two and three failed replays. -/
theorem witness_PortsGoDown :
    (let s := { awayS (.remote 1) 15 0 with
      hub := { remotes := [⟨9, 1, 15, 0⟩], portsUp := 0x8000, replays := (Vector.replicate 16 2).set 15 3 } }
     s.hub.portsUp.getLsbD 15 = true ∧ s.hub.portsUp.getLsbD 14 = false ∧ s.hub.replays.get (Fin.ofNat 16 14) < 3 ∧
      3 ≤ s.hub.replays.get (Fin.ofNat 16 15) ∧ (s.hub.remotes.map (·.id)).Nodup ∧
      Claims.Away s ⟨0, 0⟩ (awayStrand (.remote 1)) (awayAcc (.remote 1)) ⟨9, 1, 15, 0⟩ ∧
      s.hub.remotes.filter (fun x => x.port == 15) = [⟨9, 1, 15, 0⟩]) ∧
    (let q := { crun0 [] with sent := [(3, some 15)] }
     allSlots (collS (slot0 q)) = [(cref, slot0 q)] ∧ getSlot (collS (slot0 q)) cref = some (slot0 q) ∧
      (collS (slot0 q)).hub.portsUp.getLsbD 15 = true ∧ ∃ e ∈ q.sent, e.2 = some 15) ∧
    (let x : CollSlot := { group := grp }
     allSlots (collS x) = [(cref, x)] ∧ getSlot (collS x) cref = some x ∧ x.run = none ∧ x.aborts = [] ∧
      Claims.GroupOk (collS x) x.group) :=
  ⟨⟨by decide, by decide, by decide, by decide, by decide,
      ⟨⟨rfl, List.mem_singleton.2 rfl, rfl, fun _ h _ => List.mem_singleton.1 h, fun _ h => absurd h List.not_mem_nil⟩,
        fun h => absurd h (by decide)⟩, by decide⟩,
    ⟨by decide +kernel, rfl, by decide, _, List.mem_singleton.2 rfl, rfl⟩, by decide +kernel, rfl, rfl, rfl, by decide, by decide, by decide⟩

/-- An invalidation with an access of a strand in its range and without, by a strand that waits; a page whose attempt is under
way, in time and too late, and one given up. -/
theorem witness_InvalidationsAndPulls :
    (let v : Inval := ⟨0, 0, 1, some (1, 5), some (9, 1), true⟩
     let wait : Pending := ⟨.c, 5, .g 4, none, fullMask (.g 4), 0, 15, false⟩
     let st := { strand0 with pending := [wait] }
     let s := { on .c st with hub := { invals := [v] } }
     s.hub.invals[0]? = some v ∧ inFlightIn s 0 0 1 = false ∧ getStrand s ⟨0, 0⟩ = some st ∧ st.uid = 1 ∧ st.pending = [wait] ∧
      inFlightIn { on .c { strand0 with accs := [{ access0 .load with va := 0 }] } with hub := { invals := [v] } } 0 0 1 = true) ∧
    (let p : Pull := ⟨0, 0x4000, BitVec.ofNat 128 0x401E, 0x10, 0, 1, some 0⟩
     let s := fun (c : Nat) => { State.reset with clock := c, dies := (Vector.replicate 4 {}).set 3 ({ pulls := [p] } : Die) }
     (∀ c, (getDie (s c) 3).pulls[0]? = some p) ∧ p.attempt ≠ none ∧ (List.replicate (2 ^ 14) (0 : Byte)).length = 2 ^ 14 ∧
      p.pteAddr + 16 ≤ pteFrame p.pte ∧ 0 + 200000 ≤ (s 200000).clock ∧ (s 199999).clock < 0 + 200000 ∧
      (s 7999999).clock < p.since + 8000000 ∧ p.since + 8000000 ≤ (s 8000000).clock ∧ memWf (s 0).mem = true) :=
  ⟨⟨rfl, by decide +kernel, rfl, rfl, rfl, by decide +kernel⟩, fun _ => rfl, Option.some_ne_none _, List.length_replicate .., by decide +kernel,
    by decide, by decide, by decide, by decide, rfl⟩

/-- A strand whose last registers, slots and tiles are saved, with places free. -/
theorem witness_ResourcesComeBack :
    let st := { strand0 with
      vOut := BitVec.ofNat 64 (2 ^ 63), om := strand0.om.set 31 ({ state := .filled } : OmSlot), acc := strand0.acc.set 15 ({ held := true } : AccTile) }
    parkedOn (on .c st) 0 = [] ∧ getStrand (on .c st) ⟨0, 0⟩ = some st ∧ st.vOut.getLsbD (63 : BitVec 6).toNat = true ∧
      ((getOm st 31).state ≠ .notHeld ∧ (getOm st 31).phys = none ∧ ∃ x ∈ (getCell (on .c st) 0).om.toList, x = none) ∧
      ((getAcc st 15).held = true ∧ (getAcc st 15).phys = none ∧ ∃ x ∈ (getCell (on .c st) 0).acc.toList, x = none) := by
  have h1 : none ∈ (Vector.replicate 32 (none : Option Holder)).toList := by simp
  have h2 : none ∈ (Vector.replicate 16 (none : Option Holder)).toList := by simp
  exact ⟨rfl, rfl, by decide +kernel, ⟨by decide +kernel, by decide +kernel, none, h1, rfl⟩, by decide +kernel, by decide +kernel, none, h2, rfl⟩

/-! ## Scheduling -/

/-- A launch of partition 0 in region 256, with one strand to place. -/
def launch1 (cores : Bool) (gx next ended : Nat) : Launch :=
  { number := 4294967295, die := 0, rcb := 256, entry := 0, image := 0x1000, argb := 0, gx := gx, gy := 1, gz := 1, cores := cores,
    emask := 1, win := 100, cflag := 8, prods := [], next := next, ended := ended, triggered := 0, failed := false,
    complete := false, handlerOf := none }

/-- The package runs; partition 0 has cell 0 and a save pool of four areas; no strand is resident. -/
def schedS (ls : List Launch) : State :=
  { on .c strand0 with
    strands := [], mem := memOf imageWords, dies := (Vector.replicate 4 {}).set 0 ({ tlb := [page0], regions := [region0 256] } : Die),
    hub := { rdy := true, parts := [(0, { part0 ls with saveAreas := 4 })] } }

/-- Slot 3 is free on its cell; a gang of four that fits and one of five that does not; a slot of another cell. -/
theorem witness_StrandDispatches :
    (∀ l ∈ [launch1 false 1 0 0, launch1 true 4 0 0, launch1 true 5 0 0], launchOf (schedS [l]) 0 4294967295 = some l ∧
      l.number = 4294967295 ∧ Claims.openSlots (schedS [l]) 0 l = [⟨0, 0⟩, ⟨0, 1⟩, ⟨0, 2⟩, ⟨0, 3⟩]) ∧
      Claims.Dispatchable (schedS [launch1 false 1 0 0]) 0 (launch1 false 1 0 0) 1 ∧
      Claims.Dispatchable (schedS [launch1 true 4 0 0]) 0 (launch1 true 4 0 0) 4 ∧ (launch1 true 4 0 0).next = 0 := by
  refine ⟨fun l hl => ?_, ⟨rfl, rfl, rfl, rfl, by decide, by decide⟩, ⟨rfl, rfl, rfl, rfl, by decide, by decide⟩, rfl⟩
  fin_cases hl <;> exact ⟨by decide +kernel, rfl, by decide +kernel⟩

/-- The image at 0x1000, with one overlay and a lull point at its only word. -/
def image0 (addr : Nat) : Image := ⟨addr, 100, 1, [⟨0, 0, 1, 0, 0⟩], [⟨0, 0, 1, 0x8000, 1, 1, 1, 1, 1⟩], [], [], []⟩

/-- A strand with C alone in region 256, of launch 4294967295. -/
def lstrand : Strand :=
  { uid := 1, block := true, sid := ⟨4294967295, 0, 0, 0, 1, 1, 1, 0, 256, 0x1000, 0, false⟩ }

/-- The partition with strands in slots, and a context that holds an image or none. -/
def placeS (l : List (Nat × Strand)) (im : Option Image) (departed : List Strand) : State :=
  { schedS [launch1 false 2 1 0] with
    strands := l, ctxs := [(0, { win := 100, image := im, overlays := [0], departed := departed })] }

/-- A strand that is placed: its image there with its overlay resident; an overlay that the image lacks; another image that a
strand runs; no image, and one that reads well or is malformed. -/
theorem witness_PlacementLoads :
    let st := { lstrand with loading := some (true, 0), block := false }
    (let s := placeS [(0, st)] (some (image0 0x1000)) []
     getStrand s (Walker.ref s.cur) = some st ∧ st.loading = some (true, 0) ∧ st.frozen = false ∧ st.box = none ∧
      (getColl s 0 0).ops = false ∧ (image0 0x1000).overlays[st.overlay.toNat]? = some ⟨0, 0, 1, 0, 0⟩ ∧
      (getCtx s 0 0).image = some (image0 0x1000) ∧ (image0 0x1000).addr = st.sid.image ∧ (getCtx s 0 0).shareCopied = false ∧
      mustWait s (Walker.ref s.cur) st (image0 0x1000) st.overlay.toNat 0 = false ∧
      loadOverlay s 0 0 (image0 0x1000) 0 = .ok s) ∧
    (let im := { image0 0x1000 with overlays := [⟨0, 0, 1, 0, 0⟩, ⟨0, 0, 1, 0, 0⟩] }
     let s := placeS [(0, { st with overlay := 1 }), (1, { lstrand with uid := 2 })] (some im) []
     mustWait s ⟨0, 0⟩ { st with overlay := 1 } im 1 0 = true) ∧
    (image0 0x1000).overlays[({ st with overlay := 1 } : Strand).overlay.toNat]? = none ∧
    (let s := placeS [(0, st), (1, { lstrand with uid := 2 })] (some (image0 0x2000)) []
     (image0 0x2000).addr ≠ st.sid.image ∧ imageInUse s (Walker.ref s.cur) 0 = true) ∧
    (let s := placeS [(0, st)] none []
     imageInUse s (Walker.ref s.cur) 0 = false ∧ ∃ im s', readImage imageRoom s 0 0 st.sid.image 100 = .ok (im, s') ∧
      (im.isSome && decide (getStrand s' ⟨0, 0⟩ = some st) && decide (getCtx s' 0 0 = getCtx s 0 0)) = true) ∧
    (let s := placeS [(0, { st with sid := { st.sid with image := 0x2000 } })] none []
     ∃ im s', readImage imageRoom s 0 0 0x2000 100 = .ok (im, s') ∧
      (im.isNone && decide (getStrand s' ⟨0, 0⟩ = some { st with sid := { st.sid with image := 0x2000 } })) = true) :=
  ⟨⟨rfl, rfl, rfl, rfl, rfl, rfl, rfl, rfl, rfl, by decide +kernel, rfl⟩, by decide +kernel, by decide +kernel, ⟨by decide, by decide +kernel⟩,
    ⟨by decide +kernel, exists_of_holds (P := fun (im : Option Image) s' => im.isSome &&
      decide (getStrand s' ⟨0, 0⟩ = some { lstrand with loading := some (true, 0), block := false }) &&
      decide (getCtx s' 0 0 = { win := 100, image := none, overlays := [0], departed := [] })) (by decide +kernel)⟩,
    exists_of_holds (P := fun (im : Option Image) s' => im.isNone && decide (getStrand s' ⟨0, 0⟩ = some { lstrand with
      loading := some (true, 0), block := false, sid := { lstrand.sid with image := 0x2000 } })) (by decide +kernel)⟩

/-- A departed strand with a free slot on its cell, and with the slot taken. -/
theorem witness_StrandsResume :
    let s := placeS [] (some (image0 0x1000)) [lstrand]
    let s' := placeS [(3, { lstrand with uid := 2 })] (some (image0 0x1000)) [lstrand]
    (getCell s 0).slots.get (Fin.ofNat 4 3) = some 0 ∧ (departedOf s 0)[0]? = some (0, lstrand) ∧ lstrand.sid.cores = false ∧
      mayDispatch s 0 = true ∧ mayResume s 0 ⟨0, 3⟩ (0, lstrand) = true ∧ fifoRoom s [(0, lstrand, ⟨0, 3⟩)] = true ∧ mayResume s' 0 ⟨0, 3⟩ (0, lstrand) = false ∧
      (departedOf s' 0)[0]? = some (0, lstrand) :=
  ⟨rfl, rfl, rfl, rfl, by decide +kernel, by decide +kernel, by decide +kernel, rfl⟩

/-- A strand that has stopped at `exit`: with nothing left, with an entry in a queue, with a copy queued; and one that goes on. -/
theorem witness_StrandsEnd :
    let st := withEng .c { stop := .atExit } { lstrand with sid := { lstrand.sid with rcb := 512 }, box := some 3 }
    let s := placeS [(0, st)] none []
    (getStrand s (Walker.ref s.cur) = some st ∧ st.frozen = false ∧ st.loading = none ∧
      (∀ e, inMask st e = true → (getEng st e).stop = .atExit) ∧ (∀ a ∈ st.accs, isFence a.kind = true) ∧ st.stores = [] ∧ drainedFor st (maskEngs st) = true ∧
      copiesLeft s 0 1 = false ∧ regionOf s 0 512 = none ∧ bankHeld s 0 s.cur.slot = false ∧ (∀ k x, (k, x) ∈ s.strands → x.uid = 1 → k = SRef.key (Walker.ref s.cur)) ∧
      (s.strands.map (·.1)).Nodup) ∧
    (let st' := { st with vcq := [5] }
     drainedFor st' (maskEngs st') = false) ∧
    copiesLeft { s with cells := [(0, { cell0 with fifo := [cmdOf (.hread 5)] })] } 0 1 = true ∧
    (inMask lstrand .c = true ∧ (getEng lstrand .c).stop ≠ .atExit) := by
  refine ⟨⟨rfl, rfl, rfl, fun e => by cases e <;> decide +kernel, fun _ h => absurd h List.not_mem_nil, rfl, by decide +kernel,
    by decide +kernel, by decide +kernel, by decide +kernel, ?_, by decide⟩,
    by decide +kernel, by decide +kernel, by decide +kernel, by decide +kernel⟩
  intro k x h _
  have : (k, x) = (0, _) := List.mem_singleton.1 h
  simp only [Prod.mk.injEq] at this
  exact this.1

/-- A launch whose strands have ended, one with a strand left, one behind an earlier launch of its region; a flag that is stored
and one that cannot be. -/
theorem witness_LaunchesComplete :
    (let l := { launch1 false 1 1 1 with rcb := 512 }
     let s := schedS [l]
     launchOf s 0 4294967295 = some l ∧ l.number = 4294967295 ∧ l.complete = false ∧ l.gx * l.gy * l.gz ≤ l.ended ∧
      earlierComplete (getPart s 0) l = true ∧ (getPart s 0).st = .active ∧ regionOf s 0 512 = none ∧ l.cflag ≠ 0 ∧
      addsLeft s 0 = false ∧ (∀ g ∈ (getDie s 0).regions, g.used < 1638400) ∧
      (∃ s', writeVirt s 0 none 0 .unitWrite 8 (toBytes 4294967295 8) = .ok s' ∧ decide (getPart s' 0 = getPart s 0) = true) ∧
      ∃ trap, ∀ v, writeVirt s 0 none 0 .unitWrite (2 ^ 54) (toBytes v 8) = .error (.trap trap)) ∧
    (launch1 false 1 1 0).ended < (launch1 false 1 1 0).gx * (launch1 false 1 1 0).gy * (launch1 false 1 1 0).gz ∧
    earlierComplete (part0 [{ launch1 false 1 0 0 with number := 7 }, launch1 false 1 1 1]) (launch1 false 1 1 1) = false ∧
    ({ launch1 false 1 1 1 with complete := true } : Launch).complete = true := by
  have ok : ∀ (x : Act State) (P : State → Bool), (match x with | .ok s => P s | .error _ => false) = true →
      ∃ s, x = .ok s ∧ P s = true := by
    intro x P h
    split at h
    · next s => exact ⟨s, rfl, h⟩
    · simp at h
  obtain ⟨s', h1, h2⟩ := ok (writeVirt (schedS [{ launch1 false 1 1 1 with rcb := 512 }]) 0 none 0 .unitWrite 8 (toBytes 4294967295 8))
    (fun s' => decide (getPart s' 0 = getPart (schedS [{ launch1 false 1 1 1 with rcb := 512 }]) 0)) (by decide +kernel)
  exact ⟨⟨by decide +kernel, rfl, rfl, by decide, by decide +kernel, rfl, by decide +kernel, by decide, by decide +kernel, by decide +kernel, ⟨s', h1, h2⟩,
    xlatTrap 2 0 (2 ^ 54), fun v => rfl⟩, by decide, by decide, rfl⟩

/-- The root region of partition 0, cached. -/
def rootRegion : Region := region0 (Config.rootRcb 0)

/-- A mailbox whose GO is written, with a handle of 1 KiB on the image's page. -/
def boxS (l : List (Nat × Strand)) (word0 : Word) (h : HandleSlot) : State :=
  let s := placeS l none []
  { s with
    dies := (Vector.replicate 4 {}).set 0 ({ tlb := [page0], regions := [rootRegion] } : Die)
    hub := { s.hub with parts := [(0, { part0 [] with saveAreas := 4, handles := [(1, h)] })], fns := [(0, { boxes := [(3, { word0 := word0, go := true })] })] } }

def handle1 : HandleSlot := ⟨1, 0, true, false, true, true, 1024, 0x1000⟩

theorem admit_root {s : State} (h0 : (getDie s 0).regions = [rootRegion]) :
    ∃ s2, admitRegion s 0 0 (Config.rootRcb 0) = .ok (.ok, s2) := by
  have hc : cachedRegion s 0 0 (Config.rootRcb 0) = some rootRegion := by
    rw [cachedRegion, h0]
    simp [rootRegion, region0]
  have hw : cachedWhole s 0 0 (Config.rootRcb 0) = true := by
    rw [cachedWhole, h0]
    simp [regionChain, rootRegion, region0]
  rw [admitRegion, hc, hw]
  exact ⟨_, rfl⟩

/-- The state of an answer. -/
def stateOf {α : Type} (x : Act (α × State)) : State :=
  match x with
  | .ok p => p.2
  | .error _ => State.reset

theorem box_regions : (getDie (stateOf (readImage (1024 - 0) (setStat (modBox (boxS [] 0x0010000100000000 handle1) 0 3 fun b =>
    { b with go := false }) 0 3 1 0) 0 0 0x1000 100)) 0).regions = [rootRegion] := by
  rfl

/-- A slot with a strand to move on and a free one; a handle that is stale, that is too short and that serves. -/
theorem witness_MailboxStarts :
    (∀ l w h, (getBox (boxS l w h) 0 (SRef.key ⟨0, 3⟩)).go = true ∧ slotOf (boxS l w h) 0 ⟨0, 3⟩ = true ∧
      mayDispatch (boxS l w h) 0 = true) ∧
    (getStrand (boxS [(3, lstrand)] 0 {}) ⟨0, 3⟩ = some lstrand ∧ lstrand.request = none ∧ lstrand.preempt = none) ∧
    (let s := boxS [] 0x0010000100000000 handle1
     getStrand s ⟨0, 3⟩ = none ∧ (getPart s 0).saveUsed + 1 ≤ (getPart s 0).saveAreas ∧
      getHandle s 0 (wbits (0x0010000100000000 : Word) 63 32 / 2 ^ 20) = handle1 ∧ handle1.val = true ∧
      handle1.gen.toNat = wbits (0x0010000100000000 : Word) 63 32 % 2 ^ 20 ∧ handle1.r = true ∧ handle1.x = true ∧
      wbits (0x0010000100000000 : Word) 31 0 + 64 ≤ handle1.len.toNat ∧
      handle1.len.toNat < wbits (0x00100001000003C1 : Word) 31 0 + 64 ∧
      handle1.gen.toNat ≠ wbits (0x0010000200000000 : Word) 63 32 % 2 ^ 20 ∧
      ∃ im s1 s2, readImage (1024 - 0) (setStat (modBox s 0 3 fun b => { b with go := false }) 0 3 1 0) 0 0 0x1000 100 = .ok (some im, s1) ∧
        0 < im.overlays.length ∧ ownsUnits s1 0 0 im.emask = true ∧ admitRegion s1 0 0 (Config.rootRcb 0) = .ok (.ok, s2)) := by
  refine ⟨fun _ _ _ => ⟨rfl, rfl, rfl⟩, ⟨rfl, rfl, rfl⟩, rfl, by decide, by decide +kernel, rfl, by decide, rfl, rfl, by decide,
    by decide, by decide, ?_⟩
  obtain ⟨im, s1, h1, h2⟩ := exists_of_holds (P := fun (im : Option Image) s1 => match im with
      | some im => decide (0 < im.overlays.length) && ownsUnits s1 0 0 im.emask
      | none => false)
    (show holds (readImage (1024 - 0) (setStat (modBox (boxS [] 0x0010000100000000 handle1) 0 3 fun b => { b with go := false }) 0 3 1 0)
      0 0 0x1000 100) _ = true by decide +kernel)
  cases im with
  | none => simp at h2
  | some im =>
    simp only [Bool.and_eq_true, decide_eq_true_eq] at h2
    have h4 := box_regions
    rw [h1] at h4
    obtain ⟨s2, h3⟩ := admit_root h4
    exact ⟨im, s1, s2, h1, h2.1, h2.2, h3⟩

/-- Two strands of a context, of which none, or the first, holds the block; the end of a block, the end of its time, and a
strand that has waited 1 ms. -/
theorem witness_BlocksPassOn :
    let a := fun (block endBlock : Bool) => { lstrand with block := block, endBlock := endBlock }
    let b := { lstrand with uid := 2, block := false }
    let s := fun (block endBlock : Bool) (clock : Nat) => { placeS [(0, a block endBlock), (3, b)] none [] with clock := clock }
    (∀ x y c, getStrand (s x y c) (Walker.ref (s x y c).cur) = some (a x y) ∧ ((s x y c).strands.map (·.1)).Nodup ∧
      residents (s x y c) 0 0 = [(⟨0, 0⟩, a x y), (⟨0, 3⟩, b)]) ∧
    (nextHolder (s false false 0) (residents (s false false 0) 0 0)).isSome = true ∧
    (nextHolder (s true true 0) (residents (s true true 0) 0 0)).isSome = true ∧
    (a true true).endBlock = true ∧ (a true false).endBlock = false ∧ (a true false).frozen = false ∧
    (nextHolder (s true true 0) [(⟨0, 0⟩, a true true)]).isSome = false ∧
    (a true false).blockSince + 200000 ≤ (s true false 200000).clock ∧ (s true false 199999).clock < (a true false).blockSince + 200000 ∧
    b.readySince + 4000000 ≤ (s true false 4000000).clock ∧ (s true false 3999999).clock < b.readySince + 4000000 := by
  refine ⟨fun _ _ _ => ⟨rfl, (by decide : ([0, 3] : List Nat).Nodup), rfl⟩, by decide +kernel, by decide +kernel, rfl, rfl, rfl, by decide +kernel, by decide,
    by decide, by decide, by decide⟩

/-- A strand at the end of its slice with a strand of its launch that waits, just before it, and without a slice; a request, one
under way, and a mailbox that wants the slot. -/
theorem witness_PreemptionRequests :
    let g := { region0 256 with slice := 1 }
    let s := fun (clock : Nat) =>
      { placeS [(0, lstrand)] (some (image0 0x1000)) [] with clock := clock, dies := (Vector.replicate 4 {}).set 0 ({ regions := [g] } : Die) }
    (∀ c, getStrand (s c) (Walker.ref (s c).cur) = some lstrand ∧ regionOf (s c) 0 256 = some g) ∧ g.slice ≠ 0 ∧
      lstrand.resident + 4000 * g.slice ≤ (s 4000).clock ∧ (∃ p ∈ waiters (s 4000) 0 ⟨0, 0⟩, g.prio ≤ p) ∧
      (s 3999).clock < lstrand.resident + 4000 * g.slice ∧ (region0 256).slice = 0 ∧
      (({ lstrand with preempt := some ⟨0, 0⟩ } : Strand).preempt ≠ none) ∧
      (lstrand.preempt = none ∧ ({ lstrand with request := some 0 } : Strand).request = some 0 ∧ (getEng lstrand .c).ploop = none ∧
        lstrand.request = none) ∧
      (getBox { s 0 with hub := { fns := [(0, { boxes := [(0, { go := true })] })] } } 0 (SRef.key ⟨0, 0⟩)).go = true := by
  refine ⟨fun _ => ⟨rfl, rfl⟩, by decide, by decide, ⟨0, ?_, by decide⟩, by decide, rfl, Option.some_ne_none _, ⟨rfl, rfl, rfl, rfl⟩, rfl⟩
  decide +kernel

/-- C stopped at its lull point; a strand that has not stopped; a deadline that has passed, and not. -/
theorem witness_StrandsDepart :
    let st := withEng .c { stop := .atLull } { lstrand with preempt := some ⟨0, 0⟩, sid := { lstrand.sid with rcb := 512 } }
    let s := fun (clock : Nat) (x : Strand) => { placeS [(0, x)] (some (image0 0x1000)) [] with clock := clock }
    (∀ c x, getStrand (s c x) (Walker.ref (s c x).cur) = some x ∧ ((s c x).strands.map (·.1)).Nodup) ∧ st.preempt = some ⟨0, 0⟩ ∧ st.halting = false ∧
      bankHeld (s 0 st) 0 0 = false ∧ savable (s 400000 st) (Claims.haltedForm { st with calls := [call0 (.launch 15 4 3) []] }) = false ∧
      (∃ l, lullAt (getCtx (s 0 st) 0 0) st (getEng st .c).pc = some l) ∧ st.frozen = false ∧ st.lean = none ∧
      (∀ e, inMask st e = true → (getEng st e).stop = .atLull ∧ engDone st e = true) ∧ regionOf (s 0 st) 0 512 = none ∧
      st.pending = [] ∧ (inMask lstrand .c = true ∧ (getEng lstrand .c).stop ≠ .atLull) ∧
      0 + lullCycles (s 400000 st) st ≤ (s 400000 st).clock ∧ savable (s 400000 st) (Claims.haltedForm st) = true ∧
      (s 399999 st).clock < 0 + lullCycles (s 399999 st) st :=
  ⟨fun _ _ => ⟨rfl, (by decide : ([0] : List Nat).Nodup)⟩, rfl, rfl, by decide +kernel, by decide +kernel, ⟨⟨0, 0, 1, 0x8000, 1, 1, 1, 1, 1⟩, by decide +kernel⟩, rfl, rfl,
    fun e => by cases e <;> decide +kernel, by decide +kernel, rfl, by decide +kernel, by decide +kernel, by decide +kernel,
    by decide +kernel⟩

/-- The last cycle of a period and the first of the next; a die that has reread and one that has not, with a region that no
longer holds a valid block, and with the root. -/
theorem witness_PeriodStarts :
    let s := fun (clock period : Nat) (r : Region) =>
      let s := schedS []
      { s with
        clock := clock, dies := (Vector.replicate 4 {}).set 0 ({ tlb := [page0], regions := [r], reread := 4 } : Die),
        hub := { s.hub with period := period } }
    ((s 3999999 0 (region0 256)).clock < (0 + 1) * 4000000 ∧ (0 + 1) * 4000000 ≤ (s 4000000 0 (region0 256)).clock) ∧
      (∀ d, ∀ r ∈ (getDie (s 0 0 (region0 256)) d).regions, r.used = 0) ∧
      (∀ p r, (s 0 p r).hub.period = p ∧ (getDie (s 0 p r) 0).reread = 4 ∧ (logOf (s 0 p r) 0).length < 4096 ∧
        (getDie (s 0 p r) 0).regions = [r]) ∧ 4 ≤ (getDie (s 0 4 (region0 256)) 0).reread ∧
      (region0 1).addr ≠ Config.rootRcb 0 ∧ (region0 1).parent = 0 ∧
      (∃ w s', readWords (s 0 5 (region0 1)) 0 none 0 .copyRead 1 32 = .ok (w, s') ∧
        (!blkOk 0 false w && decide ((getDie s' 0).regions = [region0 1] ∧ (logOf s' 0).length < 4096 ∧ s'.hub.period = 5)) = true) ∧
      (∃ w s', readWords { s 0 5 (region0 1) with mem := memOf [(1, 0x8000000000000000), (17, 0x100)] } 0 none 0 .copyRead 1 32 = .ok (w, s') ∧
        (blkOk 0 false w && decide ((getDie s' 0).regions = [region0 1] ∧ (logOf s' 0).length < 4096 ∧ s'.hub.period = 5)) = true) ∧
      (∃ t, readWords (s 0 5 (region0 (2 ^ 54))) 0 none 0 .copyRead (2 ^ 54) 32 = .error (.trap t)) ∧
      (region0 (Config.rootRcb 0)).addr = Config.rootRcb 0 ∧ (region0 (Config.rootRcb 0)).parent = 0 := by
  refine ⟨⟨by decide, by decide⟩, fun d r h => ?_, fun _ _ => ⟨rfl, rfl, (by decide : ([] : List (List Word)).length < 4096), rfl⟩, by decide, ?_, rfl,
    exists_of_holds (P := fun w s' => !blkOk 0 false w &&
      decide ((getDie s' 0).regions = [region0 1] ∧ (logOf s' 0).length < 4096 ∧ s'.hub.period = 5)) (by decide +kernel),
    exists_of_holds (P := fun w s' => blkOk 0 false w &&
      decide ((getDie s' 0).regions = [region0 1] ∧ (logOf s' 0).length < 4096 ∧ s'.hub.period = 5)) (by decide +kernel),
    ⟨xlatTrap 2 0 (2 ^ 54), rfl⟩, rfl, rfl⟩
  rotate_left
  · show 1 ≠ Config.rootRcb 0
    simp only [Config.rootRcb]
    omega
  have hd : ∀ k : Fin 4, ∀ r ∈ ((Vector.replicate 4 ({} : Die)).set 0 ({ tlb := [page0], regions := [region0 256], reread := 4 } : Die)).get k |>.regions,
      r.used = 0 := by
    intro k
    fin_cases k <;> decide
  exact hd _ r h

/-! ## Faults, records and management -/

def qf (c : Cause) : QFault := ⟨{ cause := c, addr := 5 }, 0, 0, 0, none, none, 0⟩

/-- A strand with queued faults in a region with a handler record at 0x800, whose fault area is at 0x2000. -/
def faultS (st : Strand) (fdh : Bool) (mem : List (Nat × Word)) (f : Fn) : State :=
  let s := placeS [(0, st)] (some (image0 0x1000)) []
  { s with
    mem := memOf (mem ++ imageWords),
    dies := (Vector.replicate 4 {}).set 0 ({ tlb := [page0], regions := [{ region0 256 with fdh := fdh, fhnd := 0x800 }] } : Die),
    hub := { s.hub with fns := [(0, f)] } }

def fstrand : Strand := { lstrand with faults := [qf .align, qf .illegal], frozen := true }

theorem trap_of {α : Type} {x : Act α} (h : (match x with | .error (.trap _) => true | _ => false) = true) :
    ∃ e, x = .error (.trap e) := by
  split at h
  · next e => exact ⟨e, rfl⟩
  · simp at h

/-- The handler's record, with ARGB at 0x2000. -/
def handlerWords : List (Nat × Word) := recordWords 0x800 256 0 ++ [(0x810, 0x2000)]

/-- A window that is full and one with an entry left; a region without a handler, with one whose record cannot be read, is
malformed, or launches; and a handler's own strand. -/
theorem witness_FaultsDelivered :
    (∀ x ∈ [qf .align], x.cycle < ({ qf .illegal with cycle := 1 } : QFault).cycle ∨ x.cycle = 1 ∧ faultRank x ≤ 0) ∧
    (({ qf .align with chan := some 0 } : QFault).chan ≠ none ∧ (qf .illegal).chan = none ∧
      ({ qf .align with chan := some 0 } : QFault).cycle = (qf .illegal).cycle ∧ (qf .illegal).eng < 8) ∧
    (qf .illegal).eng < ({ qf .align with eng := 1 } : QFault).eng ∧
    (∀ b m f, getStrand (faultS fstrand b m f) (Walker.ref (faultS fstrand b m f).cur) = some fstrand ∧
      regionOf (faultS fstrand b m f) 0 256 = some { region0 256 with fdh := b, fhnd := 0x800 }) ∧
    fstrand.faults = [qf .align, qf .illegal] ∧ fstrand.delivered = none ∧ fstrand.pred = none ∧
    (({ faultHead := 64, faultTail := 0 } : Fn).faultHead - 0).toNat = 64 ∧ (({ faultHead := 0, faultTail := 0xFFFFFFC1 } : Fn).faultHead - 0xFFFFFFC1).toNat < 64 ∧
    regionOf (faultS { fstrand with sid := { fstrand.sid with rcb := 512 } } true [] {}) 0 512 = none ∧
    isHandler (faultS fstrand true [] {}) fstrand = false ∧
    (∃ e, readWords (faultS fstrand true [] {}) 0 none 0 .unitRead 0x40000 8 = .error (.trap e)) ∧
    (∃ e, Machine.translate (faultS fstrand true [] {}) 0 none 0 .unitWrite 0x40000 = .error (.trap e)) ∧
    (∃ w s1, readWords (faultS fstrand true [(0x818, 0xFFFF)] {}) 0 none 0 .unitRead 0x800 8 = .ok (w, s1) ∧
      (launchRecOf w).isNone = true) ∧
    (∃ w s1, readWords (faultS fstrand true handlerWords {}) 0 none 0 .unitRead 0x800 8 = .ok (w, s1) ∧
      (match launchRecOf w with
       | none => false
       | some l => decide (freeEntry (getPart s1 0) l.argb = some 0) &&
           holds (Machine.translate s1 0 none 0 .unitWrite (BitVec.ofNat 64 l.argb)) fun _ s2 =>
             match writeVirt s2 0 none 0 .unitWrite l.argb (dwordsToBytes (faultRecord s2 ⟨0, 0⟩ fstrand (qf .align) true)) with
             | .ok s3 => answers (acceptLaunch s3 0 0 (handlerRecord w 256 l.argb) (some 1) none) (.number 1)
             | .error _ => false) = true) :=
  ⟨by decide, by decide, by decide, fun _ _ _ => ⟨rfl, rfl⟩, rfl, rfl, rfl, by decide, by decide, by decide +kernel, by decide +kernel,
    trap_of (by decide +kernel), trap_of (by decide +kernel),
    exists_of_holds (P := fun w _ => (launchRecOf w).isNone) (by decide +kernel),
    exists_of_holds (P := fun w s1 => match launchRecOf w with
      | none => false
      | some l => decide (freeEntry (getPart s1 0) l.argb = some 0) &&
          holds (Machine.translate s1 0 none 0 .unitWrite (BitVec.ofNat 64 l.argb)) fun _ s2 =>
            match writeVirt s2 0 none 0 .unitWrite l.argb (dwordsToBytes (faultRecord s2 ⟨0, 0⟩ fstrand (qf .align) true)) with
            | .ok s3 => answers (acceptLaunch s3 0 0 (handlerRecord w 256 l.argb) (some 1) none) (.number 1)
            | .error _ => false) (by decide +kernel)⟩

theorem fault_at {st : Strand} {l : List (Nat × Word)} {f : Fn} {d : Delivered} (h : st.delivered = some d) :
    Claims.FaultAt (faultS st true l f) ⟨0, 0⟩ st d := by
  have hs : ∀ k x, (k, x) ∈ (faultS st true l f).strands → k = 0 ∧ x = st := by
    intro k x hx
    have : (k, x) = (0, st) := List.mem_singleton.1 hx
    simpa using this
  refine ⟨rfl, by decide, h, fun x hx _ _ => ?_, fun k x hx _ => hs k x hx, fun p hp x hx => ?_, (by decide : ([0] : List Nat).Nodup)⟩
  · have : x ∈ [st] := hx
    exact List.mem_singleton.1 this
  · obtain rfl : p = (0, _) := List.mem_singleton.1 hp
    cases hx

/-- TAIL moved past the one entry of a window, and above HEAD; a device that is not ready; and a handler that has completed. -/
theorem witness_FaultsResolved :
    let st := { fstrand with faults := [], delivered := some ⟨qf .align, .window 63⟩ }
    let f : Fn := { faultHead := 0xFFFFFFFF + 1, faultTail := 0xFFFFFFFF }
    Claims.FaultAt (faultS st true [] f) ⟨0, 0⟩ st ⟨qf .align, .window 63⟩ ∧ st.part = 0 ∧ fnServes (faultS st true [] f) 0 = true ∧
      f.faultTail.toNat % 64 = 63 ∧ f.faultHead ≠ f.faultTail ∧ (f.faultHead - f.faultTail).toNat < ((1 : BitVec 32) - f.faultTail).toNat ∧
      fnServes State.reset 0 = false ∧
    (let sh := { fstrand with faults := [], delivered := some ⟨qf .align, .area .hbm 0x2000 0x2000 7⟩ }
     let l := { launch1 false 1 1 1 with number := 7, argb := 0x2000, complete := true }
     let s := { faultS sh true [] {} with hub := { parts := [(0, part0 [l])] } }
     (∀ x ∈ allStrands s, x ≠ sh → handlerDone s x = none) ∧ launchOf s 0 7 = some l ∧ l.complete = true ∧
      (allStrands s).length = 1 ∧ s.hub.mixed = [] ∧ homeLocal .hbm = true) ∧
    (∀ home, Claims.FaultAt (faultS { fstrand with faults := [], delivered := some ⟨qf .align, .area home 0x2000 0x2000 7⟩ } true [] {}) ⟨0, 0⟩
      { fstrand with faults := [], delivered := some ⟨qf .align, .area home 0x2000 0x2000 7⟩ } ⟨qf .align, .area home 0x2000 0x2000 7⟩) ∧
    (let q : AwayReq := ⟨0, 0, .host, 0x2000 + 56, 0x2000 + 56, 8, none, false, false⟩
     homeLocal q.home = false ∧ (∃ h, takeAnswer State.reset q = .error (.hold h)) ∧
      ∃ s', takeAnswer { State.reset with hub := { answers := [(q, .reply (.data [1]))] } } q = .ok ([1], s')) := by
  refine ⟨fault_at rfl, rfl, rfl, by decide, by decide, by decide, rfl, ⟨?_, by decide +kernel, rfl, rfl, rfl, rfl⟩, fun _ => fault_at rfl, rfl,
    ⟨_, rfl⟩, ⟨_, rfl⟩⟩
  intro x hx hne
  exact absurd (List.mem_singleton.1 hx) hne

/-- 10 ms without progress, and a cycle less; a log with an entry and without; a frame that is populated and one that is not; a
cell under test with its command. -/
theorem witness_DetectorsAct :
    (let st := withEng .c { idle := 40000000 } strand0
     getStrand (on .c st) (Walker.ref ⟨0, 0, .c⟩) = some st ∧ 40000000 ≤ (getEng st .c).idle ∧ inMask st .c = true ∧
      st.block = true ∧ st.frozen = false ∧ (getEng (withEng .c { idle := 39999999 } strand0) .c).idle < 40000000) ∧
    (let s := { State.reset with hub := { log := [[1], [2]] } }
     logOf s (logIndex .hub) = [1] :: [[2]] ∧ logOf s (logIndex (.die 3)) = []) ∧
    (populated State.reset (2861 * Config.frameSize - 1) = true ∧ populated State.reset (2861 * Config.frameSize) = false) ∧
    (let s := { State.reset with
      cells := [(191, { cell0 with testing := true })],
      hub := { busy := true, code := 0x0C, cmd := (Vector.replicate 32 0).set 0 191 } }
     (getCell s 191).testing = true ∧ s.strands = [] ∧ (∀ ch : Fin 16, (getCell s 191).chans.get ch = none) ∧
      testCommand s 191 = true ∧ (getCell State.reset 191).testing = false) ∧
    (∃ k st, (k, st) ∈ (on .c strand0).strands ∧ k / 4 = 0) := by
  refine ⟨⟨rfl, by decide +kernel, rfl, rfl, rfl, by decide +kernel⟩, ⟨rfl, rfl⟩, by decide +kernel, ⟨rfl, rfl, fun ch => ?_, rfl, rfl⟩,
    0, strand0, List.mem_singleton.2 rfl, rfl⟩
  show (Vector.replicate 16 none).get ch = none
  simp [Vector.get]

/-- A copy that has made no progress for 10 ms, and its strand. -/
theorem witness_DetectorsAct_copy :
    let run : CopyRun := { cmd := cmdOf (spmCopy 3), pages := [], faulted := false, started := false, bytes := 0, idle := 40000000 }
    let s := { on .l strand0 with cells := [(0, { cell0 with chans := (Vector.replicate 16 none).set 15 (some run) })] }
    getChan s 0 15 = some run ∧ run.faulted = false ∧ 40000000 ≤ run.idle ∧ strandByUid s run.cmd.uid = some (⟨0, 0⟩, strand0) ∧
      getStrand s ⟨0, 0⟩ = some strand0 ∧ ({ run with idle := 39999999 } : CopyRun).idle < 40000000 :=
  ⟨rfl, rfl, by decide, rfl, rfl, by decide⟩

/-- A second that has gone by, with one partition; a store that is full; a batch to seal and none. -/
theorem witness_RecordsAndSeals :
    (let s := { schedS [] with clock := 4000000000 }
     s.hub.lastRecord < timeNs s / 1000000000 ∧ ((List.range 64).filter fun p => accounted (getPart s p).st) = [0] ∧ storeFull s = false) ∧
    (timeNs { schedS [] with clock := 3999999999 } / 1000000000 ≤ 0) ∧
    storeFull { State.reset with hub := { seals := List.replicate 1024 (0, []) } } = true ∧
    (({ unsealed := [(63, 0)] } : Hub).unsealed = (63, 0) :: []) ∧ State.reset.hub.unsealed = [] :=
  ⟨⟨by decide, by decide +kernel, by decide⟩, by decide, by decide +kernel, rfl, rfl⟩

/-- A scrub that has done its frames, one that has not, and none. -/
theorem witness_ScrubsEnd :
    (let x : Scrub := ⟨3, 5, 2, 2, [7, 8], true, 0, [1, 2, 3, 2]⟩
     let s := { State.reset with hub := { scrubs := [x] } }
     s.hub.scrubs = x :: [] ∧ x.total ≤ x.done ∧ x.later[x.phase - 1]? = none) ∧
    (let x : Scrub := ⟨3, 1, 2, 2, [7, 8], true, 0, [1, 2, 3, 2]⟩
     x.total ≤ x.done ∧ x.later[x.phase - 1]? = some 1) ∧
    (⟨3, 1, 2, 1, [7, 8], false, 0, []⟩ : Scrub).done < 2 ∧ State.reset.hub.scrubs = [] :=
  ⟨⟨rfl, by decide, rfl⟩, ⟨by decide, rfl⟩, by decide, rfl⟩

/-- A device that is ready, with these operands in the command area. -/
def mgmtS (cmd : List Word) (h : Hub := {}) : State :=
  { State.reset with hub := { h with rdy := true, cmd := Vector.ofFn fun (i : Fin 32) => cmd.getD i.val 0 } }

/-- Commands that are accepted, with BUSY set, before RDY, and with a byte too many. -/
theorem witness_DoorbellGates :
    let s := mgmtS [0, 96]
    (∀ req ok table, (Instr.create req, 1, false, [byteMask 8, byteMask 4]) ∈ Claims.commandTable s req ok table) ∧
      s.hub.busy = false ∧ s.hub.rdy = true ∧ 8 * (List.replicate 12 (0 : Word)).length = (cmdWord s 1).toNat ∧
      4 * (List.replicate 24 (0 : BitVec 32)).length = (cmdWord s 1).toNat ∧ unusedZero s [byteMask 8, byteMask 4] = true ∧
      unusedZero (mgmtS [0, 96, 1]) [byteMask 8, byteMask 4] = false ∧ State.reset.hub.rdy = false ∧
      ({ busy := true } : Hub).busy = true :=
  ⟨fun _ _ _ => List.mem_cons_self .., rfl, rfl, by decide +kernel, by decide +kernel, by decide +kernel, by decide +kernel, rfl, rfl⟩

/-- A request for a slot, the access unit and a bank of cell 0, with frame 1 and its root there, or in another frame. -/
def createReq (root : Word) : List Word :=
  [0x0007000000010001, root, 0x0000000100000000, 0, 0, 0, 0, 0, 0x0010000000000001, 0, 1, 1]

/-- What a request comes to: malformed, taken, to wait for, failing at step 5, and carried out. -/
theorem witness_CreatesPartitions :
    (∀ h, h.busy = false → Claims.Accepts (mgmtS [0, 96] h) [byteMask 8, byteMask 4]) ∧
    8 * (createReq 0x1000000).length = (cmdWord (mgmtS [0, 96]) 1).toNat ∧ (cmdWord (mgmtS [0, 96]) 0).toNat % 64 = 0 ∧
    (cmdWord (mgmtS [63, 96]) 0).toNat % 64 ≠ 0 ∧ createReqOf (Claims.begun (mgmtS [0, 96]) 1) (createReq 1) = none ∧
    (∀ p < 64, (getPart (mgmtS [0, 96]) p).st ≠ .creating) ∧
    (let s := Claims.begun (mgmtS [0, 96]) 1
     (match createReqOf s (createReq 0x1000000) with
      | some q => decide (availAll s q = .free) && decide (newPart s = some 1) &&
          (match createSteps s 1 q with | .ok _ => true | .error _ => false)
      | none => false) = true ∧
     (match createReqOf s (createReq 0x2000000) with
      | some q => decide (availAll s q = .free) && (match createSteps s 1 q with | .ok _ => false | .error e => e == (5, 0x2000000))
      | none => false) = true) ∧
    (∀ st ∈ [(PState.active, Avail.taken), (.tearing, .later)],
      let s := Claims.begun { mgmtS [0, 96] { parts := [(2, { st := st.1 })] } with cells := [(0, { au := some 2 })] } 1
      (match createReqOf s (createReq 0x1000000) with
       | some q => decide (availAll s q = st.2) && decide (newPart s = some 1)
       | none => false) = true) := by
  refine ⟨fun h hb => ⟨hb, rfl, ?_⟩, by decide +kernel, by decide +kernel, by decide +kernel, by decide +kernel, ?_,
    ⟨by decide +kernel, by decide +kernel⟩, ?_⟩
  · have : unusedZero (mgmtS [0, 96]) [byteMask 8, byteMask 4] = true := by decide +kernel
    exact this
  · intro p _
    exact (nofun : PState.free ≠ PState.creating)
  · intro st hst
    fin_cases hst <;> decide +kernel

theorem accepts (cmd : List Word) (used : List Nat) (h : unusedZero (mgmtS cmd) used = true) : Claims.Accepts (mgmtS cmd) used :=
  ⟨rfl, rfl, h⟩

/-- Partition 63 active, partition 64 and one that is not active; ranges that end at the end of the address space and one past it. -/
theorem witness_TearsDownAndInvalidates :
    (∀ n ∈ [(0 : Word), 63, 64], Claims.Accepts (mgmtS [n]) [byteMask 1]) ∧
    (getPart (mgmtS [63] { parts := [(63, { st := .active })] }) 63).st = .active ∧ (getPart (mgmtS [63]) 63).st ≠ .active ∧
    (∀ n ∈ [(1 : Word), 2], Claims.Accepts (mgmtS [63, 2 ^ 54 - 1, n]) [byteMask 1, byteMask 7, byteMask 8]) ∧
    (2 ^ 54 - 1 : Word).toNat < 2 ^ 54 ∧ (2 ^ 54 - 1 : Word).toNat + (1 : Word).toNat ≤ 2 ^ 54 ∧
    2 ^ 54 < (2 ^ 54 - 1 : Word).toNat + (2 : Word).toNat ∧ Claims.Accepts (mgmtS [64, 2 ^ 54, 0]) [byteMask 1, byteMask 7, byteMask 8] := by
  refine ⟨fun n hn => ?_, rfl, by decide, fun n hn => ?_, by decide, by decide, by decide, accepts _ _ (by decide +kernel)⟩
  · fin_cases hn <;> exact accepts _ _ (by decide +kernel)
  · fin_cases hn <;> exact accepts _ _ (by decide +kernel)

/-- Logs 4 and 5 with 3 entries; records and seals that are held and not; parts 14 and 15 of a seal. -/
theorem witness_LogAndRecordCommands :
    (∀ n ∈ [(0x304 : Word), 0x305, 0x004], Claims.Accepts (mgmtS [n]) [byteMask 2]) ∧
    ((0x304 : Word).toNat % 256 ≤ 4 ∧ (0x304 : Word).toNat / 256 = 3) ∧
    (∀ n ∈ [(4 : Word), 5], Claims.Accepts (mgmtS [n]) [byteMask 8]) ∧ ({ mseq := 5 } : Hub).mseq ≤ 5 ∧ 4 < ({ mseq := 5 } : Hub).mseq ∧
    (Claims.Accepts (mgmtS [4]) [byteMask 8] ∧ (cmdWord (mgmtS [4]) 0).getLsbD 63 = false ∧
      ({ records := [(4, [])] } : Hub).records.lookup 4 = some [] ∧ ({ records := [(4, [])] } : Hub).records.lookup 5 = none) ∧
    (Claims.Accepts (mgmtS [0x8000000000000004, 14]) [byteMask 8, byteMask 1] ∧
      (cmdWord (mgmtS [0x8000000000000004, 14]) 0).getLsbD 63 = true ∧
      Claims.Accepts (mgmtS [0x8000000000000004, 15]) [byteMask 8, byteMask 1]) := by
  refine ⟨fun n hn => ?_, by decide, fun n hn => ?_, by decide, by decide, ⟨accepts _ _ (by decide +kernel), by decide +kernel, rfl, rfl⟩,
    accepts _ _ (by decide +kernel), by decide +kernel, accepts _ _ (by decide +kernel)⟩
  · fin_cases hn <;> exact accepts _ _ (by decide +kernel)
  · fin_cases hn <;> exact accepts _ _ (by decide +kernel)

/-- Parts 15 and 16 of a report that is held and of one that is not; blocks staged and not. -/
theorem witness_AttestationAndFirmware :
    (∀ k ∈ [(15 : Word), 16], Claims.Accepts (mgmtS [1, 2, 3, 4, k]) [byteMask 8, byteMask 8, byteMask 8, byteMask 8, byteMask 1]) ∧
    (({ report := none } : Hub).report = none) ∧
    (let s := mgmtS [0, 7]
     s.hub.busy = false ∧ unusedZero s (byteMask 4 :: List.replicate 24 (byteMask 8)) = true) ∧
    (let s := mgmtS [1] { staged := [(0, [5])] }
     s.hub.busy = false ∧ unusedZero s [byteMask 4] = true ∧ (s.hub.staged.filter fun x => decide (x.1 < 1)).length = 1 ∧
      (s.hub.staged.filter fun x => decide (x.1 < 2)).length ≠ 2) := by
  refine ⟨fun k hk => ?_, rfl, ⟨rfl, by decide +kernel⟩, rfl, by decide +kernel, by decide, by decide⟩
  fin_cases hk <;> exact accepts _ _ (by decide +kernel)

/-- A table of one route and a malformed one; caps at the ends of their range; the last cell, one beyond it and a fenced one. -/
theorem witness_FabricCapTestTelemetry :
    (Claims.Accepts (mgmtS [0, 20]) [byteMask 8, byteMask 4] ∧ 4 * ([0x00010003, 0x00050000, 0, 0, 7] : List (BitVec 32)).length = (cmdWord (mgmtS [0, 20]) 1).toNat ∧
      fabricOf [0x00010003, 0x00050000, 0, 0, 7] = some (3, 5, [⟨7, 0, 0⟩]) ∧ fabricOf [0, 0, 0, 0, 7] = none ∧
      (∀ p, 1 ≤ p → p ≤ 63 → (getPart (mgmtS [0, 20]) p).st ≠ .active)) ∧
    (∀ x ∈ [((1200 : Word), (1000 : Word)), (3000, 2800), (1199, 700), (3001, 700), (1200, 1001), (1200, 699)],
      Claims.Accepts (mgmtS [x.1, x.2]) [byteMask 4, byteMask 4]) ∧
    ((1200 : Word).toNat = 1200 ∧ (1000 : Word).toNat + 200 ≤ 1200 ∧ 1200 < (1001 : Word).toNat + 200) ∧
    (∀ c ∈ [(191 : Word), 192], Claims.Accepts (mgmtS [c]) [byteMask 1]) ∧
    (getCell (mgmtS [191]) 191).fenced = false ∧ (getCell { mgmtS [191] with cells := [(191, { fenced := true })] } 191).fenced = true ∧
    Claims.Accepts (mgmtS []) [] := by
  refine ⟨⟨accepts _ _ (by decide +kernel), by decide +kernel, by decide +kernel, by decide +kernel,
    fun p _ _ => (nofun : PState.free ≠ PState.active)⟩, fun x hx => ?_, by decide, fun c hc => ?_, rfl, rfl, accepts _ _ (by decide +kernel)⟩
  · fin_cases hx <;> exact accepts _ _ (by decide +kernel)
  · fin_cases hc <;> exact accepts _ _ (by decide +kernel)

/-- A reply to write, a command that waits for another event, and a teardown that may and may not go on. -/
theorem witness_CommandsEnd :
    (({ busy := true, readyReply := some [0] } : Hub).readyReply = some [0] ∧ State.reset.hub.busy = false) ∧
    (let s := { State.reset with hub := { busy := true, ending := some 3 } }
     s.hub.busy = true ∧ s.hub.readyReply = none ∧ s.hub.creating = none ∧ s.hub.ending = some 3 ∧ quietPart s 3 = true ∧ strandsOf s 3 = [] ∧
      strandsOf { s with strands := [(0, { strand0 with part := 3 })] } 3 ≠ [] ∧
      quietPart { s with hub := { s.hub with bputs := [⟨1, 0, 3, 0, 0, 0, 0, 0, 0, false⟩] } } 3 = false) :=
  ⟨⟨rfl, rfl⟩, rfl, rfl, rfl, rfl, by decide +kernel, rfl, by decide +kernel, by decide +kernel⟩

/-- Functions that answer and do not; the last mailbox, of a slot that is the function's; the windows, the table and the doorbell. -/
theorem witness_HostWrites :
    (fnAnswers State.reset 0 = true ∧ fnAnswers State.reset 1 = false ∧ fnServes (mgmtS []) 0 = true ∧ fnServes State.reset 0 = false) ∧
    ((0x5FF8 % 8 = 0 ∧ 0x5FF8 < 0x6000) ∧ boxMine { mgmtS [] with cells := [(191, cell0)] } 0 (0x5FF8 / 32) = true ∧
      boxMine (mgmtS []) 0 (0x5FF8 / 32) = false) ∧
    (0x7FF8 % 64 = 56 ∧ 0x7FF8 < 0x8000 ∧ 0x7000 % 64 ≠ 56 ∧ 0x8078 < 0x8080 ∧ 0x8078 % 8 = 0 ∧ 0xF8 < 0x100) ∧
    ((mgmtS []).hub.busy = false ∧ unusedZero (mgmtS []) [] = true ∧ knownCode ((14 : Word).toNat % 2 ^ 16) = false ∧
      knownCode ((0x10000 : Word).toNat % 2 ^ 16) = false) := by
  refine ⟨by decide, ⟨by decide, rfl, rfl⟩, by decide, rfl, by decide +kernel, by decide, by decide⟩

/-- Both resets, with every step of bring-up passed and with each of the first three failed. -/
theorem witness_ResetsBringUp :
    let b : BringUp := ⟨true, true, true, 61035, 0xFFFF, [0, 48], []⟩
    (Instr.coldReset b = .coldReset b ∧ true = b.linkTrained) ∧
      (∃ up, Instr.warmReset true b = .warmReset up b ∧ true = ((up && State.reset.hub.linkUp) || b.linkTrained)) ∧
      b.firmwareOk = true ∧ b.memoryTrained = true ∧ (⟨false, false, false, 0, 0, [], []⟩ : BringUp).linkTrained = false :=
  ⟨⟨rfl, rfl⟩, ⟨true, rfl, rfl⟩, rfl, rfl, rfl⟩

/-- A die at 100 °C and just below, one between 95 and 100 °C that was hot; 1 ms after a change and just before; 110 °C. -/
theorem witness_HeatActs :
    let s := fun (temp : Nat) (hot : Bool) (n clock : Nat) =>
      { State.reset with clock := clock, dies := Vector.replicate 4 { temp := temp, hot := hot, throttle := n } }
    (getDie (s 1600 false 0 4000000) 0).throttleAt + 4000000 ≤ (s 1600 false 0 4000000).clock ∧
      (s 1600 false 0 3999999).clock < (getDie (s 1600 false 0 3999999) 0).throttleAt + 4000000 ∧
      1600 ≤ (getDie (s 1600 false 0 4000000) 0).temp ∧ (getDie (s 1599 false 0 4000000) 0).temp < 1600 ∧
      ((getDie (s 1520 true 1 4000000) 0).hot = true ∧ 1520 ≤ (getDie (s 1520 true 1 4000000) 0).temp) ∧
      0 < (getDie (s 1519 true 1 4000000) 0).throttle ∧ 1760 ≤ (getDie (s 1760 false 0 0) 0).temp ∧
      (s 1760 false 0 0).hub.shut = false ∧ (getDie (s 1759 false 0 0) 0).temp < 1760 :=
  ⟨by decide, by decide, by decide, by decide, by decide, by decide, by decide, rfl, by decide⟩

/-! ## The machine as a whole -/

/-- The word of the host's question stands where the next step fetches it, at its engine. -/
def fetchS (us : List Upset) : State :=
  { State.reset.withFetchWord 64 0x010200C082000000 with upsets := us }

def fetchStrand : Strand := { emask := 0b11111, block := true }

theorem fetch_turn (us : List Upset) :
    Claims.TurnOf (fetchS us) { fetchS us with schedule := [], cur := ⟨0, 0, .c⟩ } ⟨0, 0, .c⟩ fetchStrand ∧
      Claims.BeforeWord { fetchS us with schedule := [], cur := ⟨0, 0, .c⟩ } ⟨0, 0, .c⟩ fetchStrand :=
  ⟨⟨{ fetchS us with schedule := [] }, rfl, rfl, rfl⟩, rfl, rfl, rfl, rfl, rfl, rfl,
    show 0 < (getCtx (fetchS []) 0 0).win by decide +kernel, rfl⟩

theorem witness_StepRunsDecodedWord :
    let s' := fun us => { fetchS us with schedule := [], cur := ⟨0, 0, .c⟩ }
    (∀ us, Claims.TurnOf (fetchS us) (s' us) ⟨0, 0, .c⟩ fetchStrand ∧ Claims.BeforeWord (s' us) ⟨0, 0, .c⟩ fetchStrand) ∧
      (s' []).upsets = [] ∧ fetchWord (getCtx (s' []) 0 0) 0 = 0x010200C082000000 ∧
      decode 0x010200C082000000 = .ok (.add 1 3 1 2) ∧
      wordTag 0x010200C082000000 = Eng.code .c ∧ wordOp 0x010200C082000000 < 0xC0 ∧
      targetOk (getCtx (s' []) 0 0) 0 (.add 1 3 1 2) = true ∧ decode 0x01C200C082000000 = .error .illegal ∧
      (getStrand State.reset (Walker.ref ⟨0, 0, .c⟩)).isNone = true ∧
      -- another engine's word
      (wordTag 0x01800510FFFFFFFD < 5 → wordTag 0x01800510FFFFFFFD ≠ Eng.code .c → sendsMode 0x01800510FFFFFFFD = false) :=
  ⟨fetch_turn, rfl, by decide +kernel, by decide +kernel, by decide +kernel, by decide +kernel, by decide +kernel, by decide +kernel, rfl,
    fun _ _ => by decide +kernel⟩

/-- A bound word of C whose entry is valid, with LAT 0 and with a least LAT of 2. -/
theorem witness_StepRunsDecodedWord_bound :
    let i : Instr := .boundOpcode 0 .c ⟨2, Tk.none⟩ 0 0 0 0
    let x := (encode i).getD 0
    0xC0 ≤ wordOp x ∧ decode x = .ok i ∧ entVal 0x8200010000000000 = true ∧ wordTag x = wbits 0x8200010000000000 62 60 ∧
      wbits (0x8200010000000000 : Word) 59 56 ≠ 0 ∧ wbits (0x8200010000000000 : Word) 59 56 ≤ wbits x 52 49 ∧
      bindEntry { bindTab := (Vector.replicate 64 0).set 0 0x8200010000000000 } fetchStrand .c (wordOp x) = 0x8200010000000000 := by
  decide +kernel

/-- A mismatch meets an addition; a register and a row that are not poisoned. -/
theorem witness_ErrorsStrike :
    let s' : State := { fetchS [.engine ⟨0, 0, .c⟩ true] with schedule := [], cur := ⟨0, 0, .c⟩ }
    s'.upsets = [.engine ⟨0, 0, .c⟩ true] ∧
      (∃ after b, exec (.add 1 3 1 2) s' = .next after ∧ getStrand after (Walker.ref ⟨0, 0, .c⟩) = some b ∧ b.frozen = false ∧
        b ≠ fetchStrand) ∧
      (strandByUid (on .c strand0) 1 = some (⟨0, 0⟩, strand0) ∧ Reg.g 3 ∉ strand0.poisoned ∧ decayReg (.g 3) = true) ∧
      4095 ∉ (getCell State.reset 0).spmPoison := by
  refine ⟨rfl, ?_, ⟨rfl, List.not_mem_nil, rfl⟩, List.not_mem_nil⟩
  have h : ∀ o : Host.Outcome State Fault Refusal, (match o with
      | .next t => (match getStrand t ⟨0, 0⟩ with
        | some b => !b.frozen && decide ((getEng b .c).pc ≠ (getEng fetchStrand .c).pc)
        | none => false)
      | _ => false) = true → ∃ after b, o = .next after ∧ getStrand after ⟨0, 0⟩ = some b ∧ b.frozen = false ∧ b ≠ fetchStrand := by
    intro o h
    split at h
    · next t =>
      split at h
      · next b hb =>
        simp only [Bool.and_eq_true, Bool.not_eq_true', decide_eq_true_eq] at h
        exact ⟨t, b, rfl, hb, h.1, fun e => h.2 (by rw [e])⟩
      · simp at h
    · simp at h
  exact h _ (by decide +kernel)

theorem witness_DecodeEncodeAgree :
    wellFormed (.add 1 31 31 31) = true ∧ (encode (.add 1 31 31 31)).isSome = true := by decide +kernel

/-- The state after reset takes a step. -/
theorem witness_StepKeepsMemoryCanonical :
    Claims.Canonical State.reset ∧ Claims.EventsOnly State.reset ∧
      (match step State.reset with | .next _ => true | _ => false) = true := by
  refine ⟨⟨rfl, fun x hx => absurd hx List.not_mem_nil, fun d x hx => ?_⟩, fun a ha => absurd ha List.not_mem_nil, by decide +kernel⟩
  simp [getDie, State.reset, Vector.get] at hx

end Sys2Proof.Tests
end

namespace Sys2Proof.Proofs

open Host (Outcome)
open Sys2Proof Machine Claims

/-! ## Landing writes registers only -/

theorem landDue_same (clock : Nat) (l kept : List Pending) (st : Strand) :
    restOf (landDue clock st l kept) = restOf st ∧ (landDue clock st l kept).engs = st.engs := by
  induction l generalizing kept st with
  | nil => exact ⟨rfl, rfl⟩
  | cons p t ih =>
    unfold landDue
    split
    · split
      · obtain ⟨h1, h2⟩ := ih kept (landBits st p.reg _ p.mask p.poison)
        exact ⟨h1.trans (restOf_landBits _ _ _ _ _), h2.trans (engs_landBits _ _ _ _ _)⟩
      · exact ih _ _
    · exact ih _ _

theorem landAll_same (l kept : List Pending) (st : Strand) :
    restOf (landAll st l kept) = restOf st ∧ (landAll st l kept).engs = st.engs := by
  induction l generalizing kept st with
  | nil => exact ⟨rfl, rfl⟩
  | cons p t ih =>
    unfold landAll
    split
    · split
      · exact ih _ _
      · obtain ⟨h1, h2⟩ := ih kept (landBits st p.reg _ p.mask p.poison)
        exact ⟨h1.trans (restOf_landBits _ _ _ _ _), h2.trans (engs_landBits _ _ _ _ _)⟩
    · exact ih _ _

@[simp] theorem restOf_settle (clock : Nat) (st : Strand) : restOf (settle clock st) = restOf st :=
  (landDue_same clock st.pending [] st).1

@[simp] theorem getEng_settle (clock : Nat) (st : Strand) (e : Eng) : getEng (settle clock st) e = getEng st e := by
  simp only [getEng, settle, (landDue_same clock st.pending [] st).2]

@[simp] theorem faults_settle (clock : Nat) (st : Strand) : (settle clock st).faults = st.faults := by
  have h : (restOf (settle clock st)).faults = (restOf st).faults := by rw [restOf_settle]
  exact h

@[simp] theorem lean_settle (clock : Nat) (st : Strand) : (settle clock st).lean = st.lean := by
  have h : (restOf (settle clock st)).lean = (restOf st).lean := by rw [restOf_settle]
  exact h

@[simp] theorem faults_landAll (l kept : List Pending) (st : Strand) : (landAll st l kept).faults = st.faults := by
  have h : (restOf (landAll st l kept)).faults = (restOf st).faults := by rw [(landAll_same l kept st).1]
  exact h

/-! ## Raising a fault leaves the strands but the one that faults -/

@[simp] theorem startHold_strands (s : State) (h : Hold) : (startHold s h).strands = s.strands := by
  cases h with
  | pull d p => simp only [startHold]; split <;> simp
  | away q => simp only [startHold]; split <;> rfl

@[simp] theorem drainLog_strands (s : State) (d : Nat) : (drainLog s d).strands = s.strands := by
  unfold drainLog
  split
  · rfl
  · unfold setLog; split <;> rfl

@[simp] theorem setLog_strands (s : State) (d : Nat) (l : List (List Word)) : (setLog s d l).strands = s.strands := by
  unfold setLog; split <;> rfl

@[simp] theorem sendMsix_strands (s : State) (fn vec : Nat) : (sendMsix s fn vec).strands = s.strands := rfl

@[simp] theorem addLog_strands (s : State) (d : Nat) (e : List Word) : (addLog s d e).strands = s.strands := by
  unfold addLog
  simp only []
  split <;> split <;> simp

@[simp] theorem logFault_strands (s : State) (cell part : Nat) (q : QFault) :
    (logFault s cell part q).strands = s.strands := by
  unfold logFault; split <;> simp

@[simp] theorem noteError_strands (s : State) (cell : Nat) (t : Trap) : (noteError s cell t).strands = s.strands := by
  unfold noteError; split <;> rfl

@[simp] theorem setPend_strands (s : State) (st : Strand) : (setPend s st).strands = s.strands := by
  unfold setPend
  split
  · rfl
  · split
    · rfl
    · split
      · rfl
      · simp

@[simp] theorem getStrand_dropAnswers (s : State) (part va : Nat) (r : SRef) :
    getStrand (dropAnswers s part va) r = getStrand s r := rfl

/-- A queued fault freezes its strand (R403, R404). -/
theorem queueFault_strand {s : State} {r : SRef} {st : Strand} (h : getStrand s r = some st) (q : QFault) :
    ∃ u, getStrand (queueFault s r q) r = some u ∧ u.frozen = true ∧ u.faults = addFault st.faults q := by
  unfold queueFault
  simp only [h, getStrand_putStrand]
  exact ⟨_, rfl, rfl, by simp [releaseSeen]⟩

/-- A fault that no poisoned unit causes is queued as it is. -/
theorem raiseAt_strand {s : State} {r : SRef} {st : Strand} (h : getStrand s r = some st) (q : QFault)
    (hq : q.trap.unit = none) :
    ∃ u, getStrand (raiseAt s r q) r = some u ∧ u.frozen = true ∧ u.faults = addFault st.faults q := by
  have hl : getStrand (noteError (logFault s r.cell st.part q) r.cell q.trap) r = some st := by
    simpa [getStrand] using h
  unfold raiseAt firstDetection
  simp only [hq, h, getStrand_dropAnswers]
  exact queueFault_strand hl q

/-- A word that raises a fault: the strand freezes and the fault names the word. -/
theorem traps_of_raiseWord {i : Instr} {s : State} {st : Strand} {e : Eng} (h : AtEngine s e st) (t : Trap)
    (ht : t.unit = none) (hx : exec i s = .next (raiseWord s s.cur t)) : Traps i s st e t.cause t.addr := by
  intro hm hl
  obtain ⟨x, hs, rfl⟩ := atEngine_strand h
  simp only [getEng_settle] at hm
  simp only [lean_settle] at hl
  rw [hx]
  unfold raiseWord
  simp only [hs, h.1, hm, ite_self, Option.map_none]
  have raised := raiseAt_strand hs ⟨t, Eng.code e, (getEng x e).pc, x.overlay.toNat, none, none, s.clock⟩ ht
  obtain ⟨u, hu, hf, hq⟩ := raised
  refine ⟨_, u, _, rfl, ?_, hf, by rw [faults_settle]; exact hq, rfl, rfl, rfl, by rw [getEng_settle]⟩
  rw [← hu]
  split
  · next heq =>
    rw [hl rfl] at heq; cases heq
  · rfl

/-! ## A word of C -/

/-- A word of C whose body gives a strand completes with that strand, counted and moved past the word. -/
theorem goes_of_issueC {i : Instr} {s : State} {st st' : Strand} (h : AtEngine s .c st)
    {body : Walker → Strand → Act Strand} (hx : exec i s = issueC s body) (hb : body s.cur (atIssue s st) = .ok st')
    (hpc : (getEng st' .c).pc = (getEng st .c).pc) (hpassed : (getEng st' .c).passed = (getEng st .c).passed) :
    ∃ t, Goes i s st .c t (perfAdd (stepPast s st' .c) 1 1) ∧ SameElsewhere s t := by
  obtain ⟨t, ht, hu, hs⟩ := issueC_ok h body hb
  exact ⟨t, ⟨hx.trans ht, hu, by simp [hpc], by simp [hpassed]⟩, hs⟩

/-- A word of C whose body raises a fault. -/
theorem traps_of_issueC {i : Instr} {s : State} {st : Strand} (h : AtEngine s .c st)
    {body : Walker → Strand → Act Strand} (hx : exec i s = issueC s body) {t : Trap}
    (hb : body s.cur (atIssue s st) = .error (.trap t)) (ht : t.unit = none) : Traps i s st .c t.cause t.addr := by
  refine traps_of_raiseWord h t ht (hx.trans (issueWith_trap h _ ?_))
  simp only [hb]; rfl

@[simp] theorem getEng_atIssue (s : State) (st : Strand) (e : Eng) : getEng (atIssue s st) e = getEng st e := rfl

/-! ## `mfst` and `mtst` -/

theorem exec_mfst (lat : BitVec 4) (ga : BitVec 5) (num : BitVec 10) (s : State) :
    exec (.mfst lat ga num) s = execMfst lat ga num s := rfl

theorem exec_mtst (num : BitVec 10) (gb : BitVec 5) (s : State) : exec (.mtst num gb) s = execMtst num gb s := rfl

/-- `mfst` gives a register what the state register holds and changes nothing else. -/
theorem mfst_reads {s : State} {st : Strand} {lat : BitVec 4} {ga : BitVec 5} {num : BitVec 10} {x : Word}
    (h : AtEngine s .c st) (hg : ga ≠ 0) (hd : num = 2 → doneBefore st (getEng st .c).passed = true)
    (hx : lookupReg s (Walker.ref s.cur) (atIssue s st) num.toNat = .ok x) :
    ∃ t u, Goes (.mfst lat ga num) s st .c t u ∧ gLater u ga = x ∧ SameElsewhere s t ∧ restOf u = restOf st := by
  have hw : (num != 2 || doneBefore (atIssue s st) (getEng (atIssue s st) .c).passed) = true := by
    have hd' : num = 2 → doneBefore (atIssue s st) (getEng (atIssue s st) .c).passed = true := hd
    by_cases hn : num = 2
    · rw [hd' hn, Bool.or_true]
    · rw [bne_iff_ne.mpr hn, Bool.true_or]
  obtain ⟨t, ht, hs⟩ := goes_of_issueC (i := .mfst lat ga num) h (exec_mfst lat ga num s)
    (st' := writeWord s.clock (atIssue s st) .c lat (.g ga) x)
    (by simp only [hx, bind, Except.bind, await, hw, if_true])
    (by rw [getEng_writeWord]; rfl) (by rw [getEng_writeWord]; rfl)
  refine ⟨t, _, ht, ?_, hs, ?_⟩
  · rw [gLater, latest_perfAdd, latest_stepPast]
    exact latest_writeWord_same _ _ _ _ _ _ rfl (fun k => hg (Reg.g.inj k))
  · rw [restOf_perfAdd, restOf_stepPast, (writeWord_same _ _ _ _ _ _).1]; rfl

/-- `mtst` writes its state register. -/
theorem mtst_writes {s : State} {st st' : Strand} {gb : BitVec 5} {num : BitVec 10} {y : Word}
    (h : AtEngine s .c st) (hr : Readable st (.g gb))
    (hx : lookupReg s (Walker.ref s.cur) (atIssue s st) num.toNat = .ok y)
    (hw : writeState (atIssue s st) num.toNat (gNow st gb) = .ok st')
    (hpc : (getEng st' .c).pc = (getEng st .c).pc) (hpassed : (getEng st' .c).passed = (getEng st .c).passed) :
    ∃ t, Goes (.mtst num gb) s st .c t (perfAdd (stepPast s st' .c) 1 1) ∧ SameElsewhere s t :=
  goes_of_issueC h (exec_mtst num gb s)
    (by simp only [hx, bind, Except.bind, readG_ok hr, hw]) hpc hpassed

/-- The numbers below the service range are the state registers of the strand. -/
theorem lookupReg_state {s : State} {r : SRef} {st : Strand} {n : Nat} (h : n < 0x100) {x : Word}
    (hx : stateReg s r st n = some x) : lookupReg s r st n = .ok x := by
  have hn : (decide (0x100 ≤ n) && decide (n ≤ 0x17F)) = false := by simp; omega
  simp only [lookupReg, hn, hx]; rfl

theorem stateReg_perf (s : State) (r : SRef) (st : Strand) (k : Fin 16) :
    stateReg s r st (0x10 + k.val) = some (st.perf.get k) := by
  fin_cases k <;> rfl

theorem stateReg_none (s : State) (r : SRef) (st : Strand) {n : Nat}
    (h : 0x022 ≤ n ∧ n < 0x030 ∨ 0x031 ≤ n) : stateReg s r st n = none := by
  rw [stateReg, if_neg]
  · simp; omega
  all_goals omega

/-- The value of two fields side by side. -/
theorem toNat_append_eq_add {m n : Nat} (x : BitVec m) (y : BitVec n) :
    (x ++ y).toNat = x.toNat * 2 ^ n + y.toNat := by
  rw [BitVec.toNat_append, ← Nat.shiftLeft_add_eq_or_of_lt y.isLt, Nat.shiftLeft_eq]

/-- STRANDID and GRID: three 16-bit fields below 16 zero bits. -/
theorem ofNat_three_fields (x y z : BitVec 16) :
    BitVec.ofNat 64 (z.toNat * 2 ^ 32 + y.toNat * 2 ^ 16 + x.toNat) = (0 : BitVec 16) ++ z ++ y ++ x := by
  apply BitVec.eq_of_toNat_eq
  have h0 : (0 : BitVec 16).toNat = 0 := rfl
  simp only [toNat_append_eq_add, BitVec.toNat_ofNat, h0]
  omega

theorem ofNat_rrb_fields (sg : BitVec 8) (rrb : BitVec 5) :
    BitVec.ofNat 64 (sg.toNat * 2 ^ 8 + rrb.toNat) = (0 : BitVec 48) ++ sg ++ (0 : BitVec 3) ++ rrb := by
  apply BitVec.eq_of_toNat_eq
  have h48 : (0 : BitVec 48).toNat = 0 := rfl
  have h3 : (0 : BitVec 3).toNat = 0 := rfl
  simp only [toNat_append_eq_add, BitVec.toNat_ofNat, h48, h3]
  omega

theorem ofNat_timeNs (s : State) : BitVec.ofNat 64 (timeNs s) = BitVec.ofNat 64 (s.clock / 4) := by
  apply BitVec.eq_of_toNat_eq
  simp [timeNs]

/-- R339 to R341: the reads, each by the entry of the table for its number. -/
theorem stateRegisterReads : StateRegisterReads := by
  intro s st lat ga h hg
  have reads : ∀ (num : BitVec 10) (x : Word), num.toNat < 0x100 → num ≠ 2 →
      stateReg s (Walker.ref s.cur) (atIssue s st) num.toNat = some x →
      ∃ t u, Goes (.mfst lat ga num) s st .c t u ∧ gLater u ga = x ∧ SameElsewhere s t ∧ restOf u = restOf st :=
    fun num x hn h2 hx => mfst_reads h hg (fun k => absurd k h2) (lookupReg_state hn hx)
  refine ⟨reads 0x000 _ (by decide) (by decide) rfl, reads 0x001 _ (by decide) (by decide) rfl,
    fun hd => mfst_reads h hg (fun _ => hd) (lookupReg_state (by decide) rfl), reads 0x003 _ (by decide) (by decide) rfl,
    reads 0x004 _ (by decide) (by decide) rfl, reads 0x005 _ (by decide) (by decide) ?_,
    reads 0x006 _ (by decide) (by decide) ?_, reads 0x007 _ (by decide) (by decide) ?_,
    reads 0x008 _ (by decide) (by decide) rfl, reads 0x009 _ (by decide) (by decide) ?_,
    reads 0x00C _ (by decide) (by decide) rfl, reads 0x00D _ (by decide) (by decide) rfl,
    reads 0x00E _ (by decide) (by decide) rfl, reads 0x030 _ (by decide) (by decide) rfl, fun k => ?_⟩
  · exact congrArg some (ofNat_timeNs s)
  · exact congrArg some (ofNat_three_fields _ _ _)
  · exact congrArg some (ofNat_three_fields _ _ _)
  · exact congrArg some (ofNat_rrb_fields _ _)
  · have hk : (BitVec.ofNat 10 (0x10 + k.val)).toNat = 0x10 + k.val := by rw [BitVec.toNat_ofNat]; omega
    refine reads _ _ (by omega) (fun h2 => ?_) (by rw [hk]; exact stateReg_perf _ _ _ k)
    have := congrArg BitVec.toNat h2
    rw [hk, show (2 : BitVec 10).toNat = 2 from rfl] at this
    omega

/-- The latest values of registers rest on the registers and the results on their way. -/
theorem latest_congr {st u : Strand} (hp : u.pending = st.pending) (hr : ∀ r, regBits u r = regBits st r) (r : Reg) :
    latest u r = latest st r := by
  simp only [latest, hp, hr]

/-- The fields of a strand that `mtst` of a register without an effect leaves. -/
theorem mtst_keeps {s : State} {st : Strand} {gb : BitVec 5} {num : BitVec 10}
    (h : AtEngine s .c st) (hr : Readable st (.g gb)) {y : Word}
    (hx : lookupReg s (Walker.ref s.cur) (atIssue s st) num.toNat = .ok y) {st' : Strand}
    (hw : writeState (atIssue s st) num.toNat (gNow st gb) = .ok st') 
    (hE : ∀ e, getEng st' e = getEng st e) (hl : ∀ r, latest st' r = latest st r) :
    ∃ t u, Goes (.mtst num gb) s st .c t u ∧ u = perfAdd (stepPast s st' .c) 1 1 ∧ SameOthers .c st u ∧
      SameElsewhere s t ∧ ∀ r, latest u r = latest st r := by
  obtain ⟨t, ht, hs⟩ := mtst_writes h hr hx hw (by rw [hE]) (by rw [hE])
  refine ⟨t, _, ht, rfl, fun e he => ?_, hs, fun r => ?_⟩
  · rw [getEng_perfAdd, getEng_stepPast_other _ _ _ _ he, hE]
  · rw [latest_perfAdd, latest_stepPast, hl]

/-- A mode register of C: written at C, and a record to the BQ of every other engine (R318). -/
theorem mtst_sends {s : State} {st : Strand} {gb : BitVec 5} {num : BitVec 10}
    (h : AtEngine s .c st) (hr : Readable st (.g gb)) (hroom : BqRoom st) {y : Word}
    (hx : lookupReg s (Walker.ref s.cur) (atIssue s st) num.toNat = .ok y) (x : BqRec) (f : EngState → EngState)
    (hf : ∀ en, (f en).pc = en.pc ∧ (f en).passed = en.passed)
    (hw : writeState (atIssue s st) num.toNat (gNow st gb) =
      (sendBq (atIssue s st) x).bind fun u => .ok (modEng u .c f)) :
    ∃ t u, Goes (.mtst num gb) s st .c t u ∧
      getEng u .c = getEng (stepPast s (modEng st .c f) .c) .c ∧ Sends x st u ∧ 
      SameElsewhere s t ∧ ∀ r, latest u r = latest st r := by
  obtain ⟨u0, hu0, hc, ho, hl, -, -⟩ := sendBq_ok (atIssue s st) x hroom
  rw [hu0] at hw
  obtain ⟨t, ht, hs⟩ := mtst_writes h hr hx hw (by simp [hc, hf]) (by simp [hc, hf])
  refine ⟨t, _, ht, by simp [stepPast, hc], fun e he => ?_, hs, fun r => ?_⟩
  · rw [getEng_perfAdd, getEng_stepPast_other _ _ _ _ he, getEng_modEng_other _ _ _ _ he, ho e he]; rfl
  · rw [latest_perfAdd, latest_stepPast, latest_modEng, hl, latest_atIssue]

/-- R8, R9, R339, R341: the writes, each by `writeState` on its number. -/
theorem stateRegisterWrites : StateRegisterWrites := by
  intro s st gb h hr hroom
  have ignored : ∀ (num : BitVec 10) (y : Word), num.toNat < 0x100 →
      stateReg s (Walker.ref s.cur) (atIssue s st) num.toNat = some y →
      writeState (atIssue s st) num.toNat (gNow st gb) = .ok (atIssue s st) →
      ∃ t u, Goes (.mtst num gb) s st .c t u ∧ (restOf u = restOf st ∧ SameOthers .c st u ∧ allFlags u = allFlags st) ∧
        SameElsewhere s t ∧ ∀ r, latest u r = latest st r := by
    intro num y hn hx hw
    obtain ⟨t, u, hg, rfl, ho, hs, hl⟩ := mtst_keeps h hr (lookupReg_state hn hx) hw (fun _ => rfl) (latest_atIssue s st)
    exact ⟨t, _, hg, ⟨rfl, ho, rfl⟩, hs, hl⟩
  refine ⟨fun h1 h2 => ?_, fun hm => ?_, ?_, fun hp => ?_, fun hd => ?_, ?_, fun num hnum => ?_⟩
  case refine_1 =>
    have hv : wbits (gNow st gb) 12 0 = (gNow st gb).toNat % 2 ^ 13 := by simp [wbits, Machine.bits]
    have hw : writeState (atIssue s st) 0 (gNow st gb) =
        .ok { atIssue s st with slipw := BitVec.ofNat 13 ((gNow st gb).toNat % 2 ^ 13) } := by
      simp only [writeState, hv, h1, h2]; rfl
    obtain ⟨t, u, hg, rfl, ho, hs, hl⟩ := mtst_keeps (num := 0x000) h hr (lookupReg_state (by decide) rfl) hw
      (fun _ => rfl) (latest_congr rfl fun r => by cases r <;> rfl)
    refine ⟨t, _, hg, ⟨?_, ho⟩, hs, hl⟩
    show (BitVec.ofNat 13 ((gNow st gb).toNat % 2 ^ 13)).toNat = _
    rw [BitVec.toNat_ofNat, Nat.mod_mod]
  case refine_2 =>
    have hok : (!((gNow st gb).getLsbD 1 && !(gNow st gb).getLsbD 0)) = true := by
      cases h1 : (gNow st gb).getLsbD 1
      · rfl
      · rw [hm h1]; rfl
    obtain ⟨t, u, hg, hc, hsend, hs, hl⟩ := mtst_sends (num := 0x001) h hr hroom (lookupReg_state (by decide) rfl)
      (.lmode ((gNow st gb).setWidth 4)) (fun en => { en with lmode := (gNow st gb).setWidth 4 }) (fun _ => ⟨rfl, rfl⟩)
      (by show writeState _ 1 _ = _; simp only [writeState, check, hok]; rfl)
    exact ⟨t, u, hg, ⟨by rw [hc]; simp [stepPast], hsend⟩, hs, hl⟩
  case refine_3 =>
    obtain ⟨t, u, hg, hc, hsend, hs, hl⟩ := mtst_sends (num := 0x003) h hr hroom (lookupReg_state (by decide) rfl)
      (.rset ((gNow st gb).setWidth 16)) (fun en => { en with rset := (gNow st gb).setWidth 16 }) (fun _ => ⟨rfl, rfl⟩) rfl
    exact ⟨t, u, hg, ⟨by rw [hc]; simp [stepPast], hsend⟩, hs, hl⟩
  case refine_4 =>
    obtain ⟨t, u, hg, hc, hsend, hs, hl⟩ := mtst_sends (num := 0x009) h hr hroom (lookupReg_state (by decide) rfl)
      (.rrb ((gNow st gb).setWidth 16))
      (fun en => { en with rrb := (gNow st gb).setWidth 5, sg := ((gNow st gb) >>> 8).setWidth 8 }) (fun _ => ⟨rfl, rfl⟩)
      (by show writeState _ 9 _ = _; simp only [writeState, check, getEng_atIssue, hp]; rfl)
    refine ⟨t, u, hg, ⟨by rw [hc]; simp [stepPast], ?_, hsend⟩, hs, hl⟩
    rw [hc]
    simp only [stepPast, getEng_modEng]
    rfl
  case refine_5 =>
    have hd' : doneBefore (atIssue s st) (getEng (atIssue s st) .c).passed = true := hd
    obtain ⟨t, u, hg, rfl, -, hs, hl⟩ := mtst_keeps (num := 0x002) h hr (lookupReg_state (by decide) rfl)
      (st' := { atIssue s st with flags := (gNow st gb).setWidth 6
                                  flagLog := st.flagLog.filter fun p => decide ((getEng st .c).passed ≤ p.1) })
      (by show writeState _ 2 _ = _; simp only [writeState, await, hd']; rfl)
      (fun _ => rfl) (latest_congr rfl fun r => by cases r <;> rfl)
    exact ⟨t, _, hg, rfl, hs, hl⟩
  case refine_6 =>
    obtain ⟨t, u, hg, rfl, -, hs, hl⟩ := mtst_keeps (num := 0x00D) h hr (lookupReg_state (by decide) rfl)
      (st' := { atIssue s st with fltAddr := gNow st gb }) rfl (fun _ => rfl)
      (latest_congr rfl fun r => by cases r <;> rfl)
    exact ⟨t, _, hg, rfl, hs, hl⟩
  case refine_7 =>
    simp only [List.mem_cons, List.not_mem_nil, or_false] at hnum
    rcases hnum with rfl | rfl | rfl | rfl | rfl | rfl | rfl | rfl | rfl | rfl <;>
      exact ignored _ _ (by decide) rfl rfl

/-- A number in the service range, from outside the service partition. -/
theorem lookupReg_permission {s : State} {r : SRef} {st : Strand} {n : Nat} (h1 : 0x100 ≤ n) (h2 : n ≤ 0x17F)
    (hp : st.part ≠ 0) : lookupReg s r st n = .error (.trap { cause := .permission }) := by
  have hn : (decide (0x100 ≤ n) && decide (n ≤ 0x17F)) = true := by simp [h1, h2]
  simp only [lookupReg, hn, hp, if_true, ne_eq, not_false_eq_true]; rfl

/-- A number of the service range without a register. -/
theorem lookupReg_service_none {s : State} {r : SRef} {st : Strand} {n : Nat} (h1 : 0x144 ≤ n) (h2 : n ≤ 0x17F)
    (hp : st.part = 0) : lookupReg s r st n = .error (.trap illegalTrap) := by
  have hn : (decide (0x100 ≤ n) && decide (n ≤ 0x17F)) = true := by simp; omega
  have hx : serviceReg s n = none := by
    unfold serviceReg
    rw [if_neg (by omega)]
    split <;> first | omega | rfl
  simp only [lookupReg, hn, hp, hx, if_true, ne_eq, not_true_eq_false, if_false]; rfl

/-- A number outside the service range without a register. -/
theorem lookupReg_unassigned {s : State} {r : SRef} {st : Strand} {n : Nat}
    (h : 0x022 ≤ n ∧ n < 0x030 ∨ 0x031 ≤ n ∧ n < 0x100 ∨ 0x180 ≤ n) :
    lookupReg s r st n = .error (.trap illegalTrap) := by
  have hn : (decide (0x100 ≤ n) && decide (n ≤ 0x17F)) = false := by simp; omega
  have hx : stateReg s r st n = none := stateReg_none s r st (by omega)
  simp only [lookupReg, hn, hx]; rfl

/-- Both words raise what the lookup of their number raises. -/
theorem mfst_mtst_trap {s : State} {st : Strand} (lat : BitVec 4) (ga gb : BitVec 5) {num : BitVec 10} {t : Trap}
    (h : AtEngine s .c st) (ht : t.unit = none)
    (hx : lookupReg s (Walker.ref s.cur) (atIssue s st) num.toNat = .error (.trap t)) :
    Traps (.mfst lat ga num) s st .c t.cause t.addr ∧ Traps (.mtst num gb) s st .c t.cause t.addr :=
  ⟨traps_of_issueC h (exec_mfst lat ga num s) (by simp only [hx]; rfl) ht,
    traps_of_issueC h (exec_mtst num gb s) (by simp only [hx]; rfl) ht⟩

/-- R339, R429: the service range outside the service partition, and the numbers without a register. -/
theorem stateRegisterFaults : StateRegisterFaults := by
  intro s st lat ga gb num h
  refine ⟨fun h1 h2 hp => ?_, fun h1 h2 hp => ?_, fun hn => ?_⟩
  · exact mfst_mtst_trap lat ga gb h rfl (lookupReg_permission h1 h2 hp)
  · exact (mfst_mtst_trap lat ga gb h rfl (lookupReg_service_none h1 h2 hp)).1
  · exact mfst_mtst_trap lat ga gb h rfl (lookupReg_unassigned hn)

/-- Settles O24: each register as the model's table reads and writes it, and the numbers without one. -/
theorem stateRegisters : Obligations.StateRegisters :=
  ⟨stateRegisterReads, stateRegisterWrites, stateRegisterFaults⟩

end Sys2Proof.Proofs

namespace Sys2Proof.Proofs

open Host (Outcome)
open Sys2Proof Machine Claims

/-! ## What an access meets at its home -/

theorem mem_of_fget {α : Type} {m : FMap α} {k : Nat} {v : α} (h : fget m k = some v) : (k, v) ∈ m := by
  obtain ⟨l₁, l₂, rfl, -⟩ := List.lookup_eq_some_iff.mp h
  simp

/-- Memory as data depends on the bytes held and on the frames whose key is gone. -/
theorem memN_congr {s t : State} (hm : t.mem = s.mem) (hd : t.hub.deadFrames = s.hub.deadFrames) (pa n : Nat) :
    memN t pa n = memN s pa n := by
  induction n generalizing pa with
  | zero => rfl
  | succ n ih => simp only [memN, memByte, hm, hd, ih]

theorem linePoisoned_eq_false {s : State} {pa n : Nat}
    (h : ∀ l ∈ s.hub.linePoison, l * 128 + 128 ≤ pa ∨ pa + n ≤ l * 128) : linePoisoned s pa n = false := by
  rw [linePoisoned, List.any_eq_false]
  intro l hl
  have := h l hl
  simp only [Bool.and_eq_true, decide_eq_true_eq]
  omega

/-- No line of a range is one on which both places have performed atomics. -/
theorem fget_mixed_eq_none {s : State} {pa n l : Nat}
    (h : ∀ m ∈ s.hub.mixed, m.1 * 128 + 128 ≤ pa ∨ pa + max 1 n ≤ m.1 * 128) (h1 : pa < l * 128 + 128)
    (h2 : l * 128 < pa + max 1 n) : fget s.hub.mixed l = none := by
  cases hx : fget s.hub.mixed l with
  | none => rfl
  | some m =>
    have := h _ (mem_of_fget hx)
    simp only at this
    omega

theorem mem_linesOf {pa n l : Nat} (h : l ∈ linesOf pa n) : pa < l * 128 + 128 ∧ l * 128 < pa + max 1 n := by
  simp only [linesOf, List.mem_map, List.mem_range] at h
  obtain ⟨k, hk, rfl⟩ := h
  omega

theorem settleLines_eq_self {s : State} {pa n : Nat} (h : ∀ l ∈ linesOf pa n, fget s.hub.mixed l = none) :
    settleLines s pa n = s := by
  unfold settleLines
  generalize linesOf pa n = ls at h
  induction ls with
  | nil => rfl
  | cons l ls ih =>
    rw [List.foldl_cons, h l (.head _)]
    exact ih fun x hx => h x (.tail _ hx)

/-! ## Counts and charges at a home -/

/-- The state holds this memory, and in a slot a strand with the accesses and registers of `x`. -/
def HoldsStrand (t : State) (r : SRef) (m : Mem) (x : Strand) : Prop :=
  t.mem = m ∧ ∃ u, getStrand t r = some u ∧ u.accs = x.accs ∧ ∀ q, regBits u q = regBits x q

theorem HoldsStrand.put {s : State} {m : Mem} (hm : s.mem = m) (r : SRef) (x : Strand) :
    HoldsStrand (putStrand s r x) r m x :=
  ⟨hm, x, getStrand_putStrand s r x, rfl, fun _ => rfl⟩

theorem HoldsStrand.of_same {s t : State} {r : SRef} {m : Mem} {x : Strand} (h : HoldsStrand s r m x)
    (hm : t.mem = s.mem) (hs : t.strands = s.strands) : HoldsStrand t r m x := by
  obtain ⟨h1, u, hu, h2⟩ := h
  exact ⟨hm.trans h1, u, by rw [getStrand, hs]; exact hu, h2⟩

theorem HoldsStrand.perfFor {s : State} {r : SRef} {m : Mem} {x : Strand} (h : HoldsStrand s r m x) {p : Payer}
    (hp : p.ref = some r) (evt n : Nat) : HoldsStrand (perfFor s p evt n) r m x := by
  obtain ⟨h1, u, hu, h2, h3⟩ := h
  rw [Machine.perfFor, hp]
  simp only [modStrand, hu]
  exact ⟨h1, perfAdd u evt n, getStrand_putStrand _ _ _, h2, fun q => (regBits_perfAdd u evt n q).trans (h3 q)⟩

theorem HoldsStrand.chargeFor {s : State} {r : SRef} {m : Mem} {x : Strand} (h : HoldsStrand s r m x) (p : Payer)
    (c : Nat) : HoldsStrand (chargeFor s p c) r m x :=
  h.of_same rfl rfl

theorem payerAt_ref (s : State) (r : SRef) : (payerAt s r).ref = some r := by
  unfold payerAt; split <;> rfl

/-- Counting lines at a home moves counters and charges alone. -/
theorem HoldsStrand.touchLines {s : State} {r : SRef} {m : Mem} {x : Strand} (h : HoldsStrand s r m x) (hm : Home)
    (lines : List Nat) (alloc : Bool) : HoldsStrand (touchLines s r hm lines alloc) r m x := by
  have hp := payerAt_ref s r
  rw [Machine.touchLines, touchFor]
  generalize payerAt s r = p at hp
  induction lines generalizing s with
  | nil => exact h
  | cons l ls ih =>
    rw [List.foldl_cons]
    refine ih ?_
    cases hm with
    | hbm =>
      refine HoldsStrand.chargeFor ?_ _ _
      have h1 : HoldsStrand (if (l2Has s l || !alloc) = true then s else l2Add s l) r m x := by
        split
        · exact h
        · exact h.of_same rfl rfl
      split
      · exact h1.perfFor hp _ _
      · exact ((h1.perfFor hp _ _).perfFor hp _ _).perfFor hp _ _
    | second => exact (h.perfFor hp _ _).chargeFor _ _
    | host => exact h
    | remote _ => exact h

/-! ## The value of a load -/

theorem accs_deliver (st : Strand) (a : Access) (v : Nat) (p : Bool) : ∀ b ∈ (deliver st a v p).accs, b.id ≠ a.id := by
  intro b hb
  simp only [deliver, modEng_accs, retireStores, List.mem_filter, bne_iff_ne] at hb
  exact hb.2

/-- The bits of a register that a whole write gives. -/
theorem whole_write_bits (old x m : BitVec 4096) : ((old &&& ~~~m) ||| (x &&& m)) &&& m = x &&& m := by
  ext i hi
  simp only [BitVec.getElem_and, BitVec.getElem_or, BitVec.getElem_not]
  cases m[i] <;> simp

/-- When every result on its way to a register writes all of it with one value, that value lands. -/
theorem regBits_landReg_const {r : Reg} (h0 : r ≠ .g 0) (x : BitVec 4096) (l kept : List Pending) (st : Strand)
    (hk : ∀ q ∈ kept, q.reg ≠ r) (hl : ∀ p ∈ l, p.reg = r → p.val = some x ∧ p.mask = fullMask r) 
    (hx : (∃ p ∈ l, p.reg = r) ∨ regBits st r = x &&& fullMask r) :
    regBits (landReg st r l kept) r = x &&& fullMask r := by
  induction l generalizing kept st with
  | nil =>
    obtain ⟨p, hp, -⟩ | h := hx
    · cases hp
    · rw [landReg, regBits_pending, h]
  | cons p t ih =>
    have ht : ∀ q ∈ t, q.reg = r → q.val = some x ∧ q.mask = fullMask r := fun q hq => hl q (.tail _ hq)
    by_cases hp : p.reg = r
    · obtain ⟨hv, hm⟩ := hl p (.head _) hp
      have hn : (kept.any fun q => q.reg == r) = false := by
        rw [List.any_eq_false]; intro q hq; simpa using hk q hq
      simp only [landReg, hv, hp, hn, decide_true, Bool.not_false, Bool.and_self, if_true]
      refine ih _ _ hk ht (.inr ?_)
      rw [landBits_regBits, regBits_setRegBits_same, if_neg h0, hm, whole_write_bits]
    · have hkept : ∀ q ∈ p :: kept, q.reg ≠ r := by
        intro q hq
        rcases List.mem_cons.mp hq with rfl | hq
        · exact hp
        · exact hk q hq
      have hx' : (∃ q ∈ t, q.reg = r) ∨ regBits st r = x &&& fullMask r := by
        obtain ⟨q, hq, hr⟩ | h := hx
        · rcases List.mem_cons.mp hq with rfl | hq
          · exact absurd hr hp
          · exact .inl ⟨q, hq, hr⟩
        · exact .inr h
      have hstep : landReg st r (p :: t) kept = landReg st r t (p :: kept) := by
        simp only [landReg, hp, decide_false, Bool.false_and]
        split <;> rfl
      rw [hstep]
      exact ih _ _ hkept ht hx'

theorem regBits_retireStores (st : Strand) (r : Reg) : regBits (retireStores st) r = regBits st r := by
  cases r <;> rfl

theorem regBits_accs (st : Strand) (l : List Access) (r : Reg) : regBits { st with accs := l } r = regBits st r := by
  cases r <;> rfl

/-- A delivered value lands in the register that waits for it alone. -/
theorem regBits_deliver {st : Strand} {a : Access} {n : BitVec 5} (hd : a.dest = .reg n) (hn : n ≠ 0)
    (hf : a.flag = false)
    (hw : ∀ p ∈ st.pending, p.reg = .g n → p.eng = a.eng ∧ p.pos = a.pos ∧ p.val = none ∧ p.mask = fullMask (.g n))
    (hx : ∃ p ∈ st.pending, p.reg = .g n) (v : Nat) (b : Bool) :
    regBits (deliver st a v b) (.g n) = loadValue a v &&& fullMask (.g n) := by
  simp only [deliver, hd, hf, regBits_modEng, regBits_retireStores, regBits_accs]
  refine regBits_landReg_const (fun k => hn (Reg.g.inj k)) _ _ _ _ (fun _ h => by cases h) ?_ (.inl ?_)
  · intro q hq hr
    obtain ⟨p, hp, rfl⟩ := List.mem_map.mp hq
    have hpr : p.reg = .g n := by split at hr <;> exact hr
    obtain ⟨h1, h2, h3, h4⟩ := hw p hp hpr
    simp [h1, h2, h3, h4]
  · obtain ⟨p, hp, hr⟩ := hx
    refine ⟨_, List.mem_map.mpr ⟨p, hp, rfl⟩, ?_⟩
    split <;> exact hr

/-! ## Performing at memory of this package -/

/-- An acquire drops lines of L1 and leaves memory and the hub. -/
theorem dropL1_same (s : State) (b : Bool) (cell part : Nat) :
    (if b then dropL1 s cell part else s).mem = s.mem ∧ (if b then dropL1 s cell part else s).hub = s.hub := by
  cases b <;> exact ⟨rfl, rfl⟩

/-- C's L1 holds no line of the address after an acquire either. -/
theorem findLine_dropL1 {s : State} {cell part line : Nat} {h : Home} {msa : Bool}
    (hn : findLine s cell part h msa line = none) (b : Bool) :
    findLine (if b then dropL1 s cell part else s) cell part h msa line = none := by
  cases b
  · exact hn
  · simp only [findLine, if_true, dropL1, modCell, getCell_putCell, List.find?_eq_none, List.mem_filter] at hn ⊢
    exact fun x hx => hn x hx.1

/-- What a store or an atomic does to L1 lies in the cells. -/
theorem storeL1_cells (s : State) (r : SRef) (part : Nat) (a : Access) :
    ∃ cells, storeL1 s r part a = { s with cells := cells } := by
  unfold storeL1
  split
  · exact ⟨s.cells, rfl⟩
  · split
    · exact ⟨_, rfl⟩
    · split
      · exact ⟨_, rfl⟩
      · exact ⟨s.cells, rfl⟩

theorem storeL1_mem (s : State) (r : SRef) (part : Nat) (a : Access) : (storeL1 s r part a).mem = s.mem := by
  obtain ⟨cells, h⟩ := storeL1_cells s r part a
  rw [h]

/-- A load delivers the bytes at its address, or what a line of L1 holds, and changes no byte. -/
theorem performLoad_holds {s : State} (r : SRef) (st : Strand) {a : Access}
    (hp : linePoisoned s a.pa a.size = false) (hmix : ∀ l ∈ linesOf a.pa a.size, fget s.hub.mixed l = none) :
    ∃ v, HoldsStrand (performLoad s r st a .pass) r s.mem (deliver st a v false) ∧
      ((l1Load a = true → findLine s r.cell st.part a.home a.msa (a.pa / 128) = none) → v = memN s a.pa a.size) := by
  obtain ⟨hm, hh⟩ := dropL1_same s a.acq r.cell st.part
  have hl1 (hn : findLine s r.cell st.part a.home a.msa (a.pa / 128) = none) := findLine_dropL1 hn a.acq
  unfold performLoad
  generalize (if a.acq then dropL1 s r.cell st.part else s) = s' at *
  dsimp only
  generalize hhit : (if l1Load a then findLine s' r.cell st.part a.home a.msa (a.pa / 128) else none) = hit
  cases hit with
  | some l =>
    refine ⟨_, HoldsStrand.put hm r _, fun hn => ?_⟩
    split at hhit
    · next h1 => rw [hl1 (hn h1)] at hhit; cases hhit
    · cases hhit
  | none =>
    have hl : linePoisoned s' a.pa a.size = false := by simp only [linePoisoned, hh]; exact hp
    have hs : settleLines s' a.pa a.size = s' := settleLines_eq_self (by rw [hh]; exact hmix)
    simp only [hl, hs, bne_self_eq_false, Bool.false_and, Bool.false_eq_true, if_false]
    refine ⟨_, (HoldsStrand.put ?_ r _).touchLines _ _ _, fun _ => ?_⟩
    · split <;> exact hm
    · refine memN_congr ?_ ?_ _ _ <;> split <;> simp [hm, hh, addLine]

/-- A store writes its bytes. -/
theorem performStore_holds (s : State) (r : SRef) (st : Strand) (a : Access) :
    HoldsStrand (performStore s r st a .pass) r (writeN s.mem a.pa a.size a.data.toNat) (deliver st a 0 false) :=
  (HoldsStrand.put (storeL1_mem _ r st.part a) r _).touchLines _ _ _

/-- An atomic replaces its bytes and delivers the old ones. -/
theorem performAtomic_holds {s : State} (r : SRef) (st : Strand) {a : Access}
    (hp : linePoisoned s a.pa a.size = false) (hmix : fget s.hub.mixed (a.pa / 128) = none) :
    HoldsStrand (performAtomic s r st a .pass) r
      (writeN s.mem a.pa a.size (combine a.op a.size (memN s a.pa a.size) a.data))
      (deliver st a (memN s a.pa a.size) false) := by
  obtain ⟨hm, hh⟩ := dropL1_same s a.acq r.cell st.part
  unfold performAtomic
  generalize (if a.acq then dropL1 s r.cell st.part else s) = s' at *
  have hl : linePoisoned s' a.pa a.size = false := by simp only [linePoisoned, hh]; exact hp
  have hold := memN_congr hm (congrArg Hub.deadFrames hh) a.pa a.size
  have hmix' : fget s'.hub.mixed (a.pa / 128) = none := by rw [hh]; exact hmix
  simp only [hl, atomicAt, atomicLine, hmix', hold, ne_eq, not_true_eq_false, Bool.false_eq_true, if_false]
  refine HoldsStrand.touchLines ?_ _ _ _
  split
  · exact (HoldsStrand.put ((storeL1_mem _ r st.part a).trans (by rw [← hm]; rfl)) r _).of_same rfl rfl
  · exact HoldsStrand.put ((storeL1_mem _ r st.part a).trans (by rw [← hm]; rfl)) r _

/-- A fence only leaves the list of accesses. -/
theorem performFence_holds (s : State) (r : SRef) (st : Strand) (a : Access) (k : FenceKind) :
    HoldsStrand (performFence s r st a k) r s.mem { st with accs := st.accs.filter fun b => b.id != a.id } := by
  cases k <;> exact HoldsStrand.put rfl r _

/-- What the event does with an access to memory of this package that may perform. -/
theorem exec_accessPerform {s : State} {r : SRef} {st : Strand} {a : Access} (hst : getStrand s r = some st)
    (ha : st.accs.find? (fun b => b.id == a.id) = some a) (hmay : mayPerform st a = true)
    (hhome : a.home = .hbm ∨ a.home = .second) (hclear : pathClear s r.cell a 4 = true) :
    exec (.accessPerform r a.id .pass) s = .next (match a.kind with
      | .load => performLoad s r st a .pass
      | .store => performStore s r st a .pass
      | .atomic => performAtomic s r st a .pass
      | .fence k _ _ => performFence s r st a k) := by
  show execAccessPerform r a.id .pass s = _
  unfold execAccessPerform
  simp only [hst, ha, hmay, hclear, Bool.not_true, Bool.or_self, Bool.false_eq_true, if_false]
  rcases hhome with h | h <;> rw [h] <;> cases a.kind <;> rfl

/-- Settles O4, by the kind of the access. -/
theorem accessPerforms : Obligations.AccessPerforms := by
  intro s r st a hst ha hmay hhome hpois hmix hclear hwf
  have hp := linePoisoned_eq_false hpois
  have hlines : ∀ l ∈ linesOf a.pa a.size, fget s.hub.mixed l = none := fun l hl =>
    fget_mixed_eq_none hmix (mem_linesOf hl).1 (mem_linesOf hl).2
  have hline : fget s.hub.mixed (a.pa / 128) = none := fget_mixed_eq_none hmix (by omega) (by omega)
  rw [exec_accessPerform hst ha hmay hhome hclear]
  cases hk : a.kind with
  | load =>
    obtain ⟨v, ⟨hm, u, hu, hacc, hreg⟩, hv⟩ := performLoad_holds r st hp hlines
    refine ⟨_, u, rfl, hu, by rw [hacc]; exact accs_deliver _ _ _ _, fun j _ => by rw [hm], fun _ => hm, nofun, nofun, ?_⟩
    intro n _ hd hn hf hmiss hw hx
    rw [hreg, regBits_deliver hd hn hf hw hx, hv hmiss]
  | store =>
    obtain ⟨hm, u, hu, hacc, -⟩ := performStore_holds s r st a
    refine ⟨_, u, rfl, hu, by rw [hacc]; exact accs_deliver _ _ _ _, fun j hj => ?_, nofun, fun _ => ?_, nofun, nofun⟩
    · rw [hm, mread_writeN_outside _ _ _ _ _ hj]
    · rw [hm, readN_writeN hwf]
  | atomic =>
    obtain ⟨hm, u, hu, hacc, hreg⟩ := performAtomic_holds r st hp hline
    refine ⟨_, u, rfl, hu, by rw [hacc]; exact accs_deliver _ _ _ _, fun j hj => ?_, nofun, nofun, fun _ => ?_, ?_⟩
    · rw [hm, mread_writeN_outside _ _ _ _ _ hj]
    · rw [hm, readN_writeN hwf]
    · intro n _ hd hn hf _ hw hx
      rw [hreg, regBits_deliver hd hn hf hw hx]
  | fence k sc mask =>
    obtain ⟨hm, u, hu, hacc, -⟩ := performFence_holds s r st a k
    refine ⟨_, u, rfl, hu, ?_, fun j _ => by rw [hm], nofun, nofun, nofun, nofun⟩
    rw [hacc]
    intro b hb
    simpa using (List.mem_filter.mp hb).2

end Sys2Proof.Proofs

namespace Sys2Proof.Proofs

open Host (Outcome)
open Sys2Proof Machine Claims

/-! ## The doorbell (R448, R449) -/

/-- BUSY turns a command away with ACCERR. -/
theorem startCommand_busy {s : State} (h : s.hub.busy = true) (code : Nat) (early : Bool) (used : List Nat)
    (body : State → State) : startCommand s code early used body = .next (setAccErr s 0) := by
  rw [startCommand, if_pos h]

/-- Before RDY only the firmware commands are served. -/
theorem startCommand_notReady {s : State} (h : s.hub.busy = false) (hr : s.hub.rdy = false) (code : Nat)
    (used : List Nat) (body : State → State) :
    startCommand s code false used body = .next (endCommand (begun s code) [statusWord (-4)]) := by
  simp [startCommand, h, hr, begun]

/-- A byte that should be zero refuses a command. -/
theorem startCommand_badBytes {s : State} (h : s.hub.busy = false) {early : Bool}
    (hr : s.hub.rdy = true ∨ early = true) {used : List Nat} (hu : unusedZero s used = false) (code : Nat)
    (body : State → State) :
    startCommand s code early used body = .next (endCommand (begun s code) [statusWord (-3)]) := by
  have hu' : unusedZero (begun s code) used = false := hu
  have hr' : (!s.hub.rdy && !early) = false := by rcases hr with h | h <;> simp [h]
  simp only [startCommand, h, Bool.false_eq_true, if_false, modHub_hub, hr']
  rw [if_pos (by simpa [begun] using hu')]; rfl

/-- A command that is served, its unused bytes zero, runs. -/
theorem startCommand_runs {s : State} (h : s.hub.busy = false) {early : Bool}
    (hr : s.hub.rdy = true ∨ early = true) {used : List Nat} (hu : unusedZero s used = true) (code : Nat)
    (body : State → State) : startCommand s code early used body = .next (body (begun s code)) := by
  have hu' : unusedZero (begun s code) used = true := hu
  have hr' : (!s.hub.rdy && !early) = false := by rcases hr with h | h <;> simp [h]
  simp only [startCommand, h, Bool.false_eq_true, if_false, modHub_hub, hr']
  rw [if_neg (by simpa [begun] using hu')]; rfl

/-- Every command of the table goes through the doorbell, unless the controller's read is of another length than it
names. -/
theorem exec_command {s : State} {req : List Word} {ok : Bool} {table : List (BitVec 32)} {i : Instr} {code : Nat}
    {early : Bool} {used : List Nat} (hi : (i, code, early, used) ∈ commandTable s req ok table)
    (hlen : s.hub.busy = true ∨ (code = 1 → 8 * req.length = (cmdWord s 1).toNat) ∧
      (code = 10 → 4 * table.length = (cmdWord s 1).toNat)) :
    ∃ body, exec i s = startCommand s code early used body := by
  have create : (s.hub.busy = true ∨ 8 * req.length = (cmdWord s 1).toNat) → ∃ body, exec (.create req) s =
      startCommand s 1 false [byteMask 8, byteMask 4] body := by
    intro h
    refine ⟨_, if_neg ?_⟩
    rcases h with h | h <;> simp [h]
  have fabric : (s.hub.busy = true ∨ 4 * table.length = (cmdWord s 1).toNat) → ∃ body, exec (.fabric table) s =
      startCommand s 10 false [byteMask 8, byteMask 4] body := by
    intro h
    refine ⟨_, if_neg ?_⟩
    rcases h with h | h <;> simp [h]
  simp only [commandTable, List.mem_cons, Prod.mk.injEq, List.not_mem_nil, or_false] at hi
  rcases hi with h | h | h | h | h | h | h | h | h | h | h | h | h <;> obtain ⟨rfl, rfl, rfl, rfl⟩ := h
  · exact create (hlen.imp id fun h => h.1 rfl)
  iterate 4 · unfold exec; exact ⟨_, rfl⟩
  · unfold exec execMfetch; exact ⟨_, rfl⟩
  iterate 3 · unfold exec; exact ⟨_, rfl⟩
  · exact fabric (hlen.imp id fun h => h.2 rfl)
  iterate 3 · unfold exec; exact ⟨_, rfl⟩

@[simp] theorem getFn_modFn (s : State) (fn : Nat) (f : Fn → Fn) : getFn (modFn s fn f) fn = f (getFn s fn) := by
  simp [getFn, modFn]

/-- What a message leaves in its function's registers. -/
theorem getFn_sendMsix (s : State) (fn vec : Nat) :
    getFn (sendMsix s fn vec) fn =
      if ((getFn s fn).msixTable.get (Fin.ofNat 16 (2 * vec + 1))).getLsbD 32 then
        { getFn s fn with msixPending := (getFn s fn).msixPending ||| BitVec.ofNat 8 (2 ^ vec) }
      else { getFn s fn with sent := (getFn s fn).sent ++ [vec] } := getFn_modFn _ _ _

/-- A message is sent, or marked pending while its vector is masked (R447). -/
theorem messaged_sendMsix {s s' : State} {fn : Nat} (vec : Nat) (ht : (getFn s' fn).msixTable = (getFn s fn).msixTable)
    (hp : (getFn s' fn).msixPending = (getFn s fn).msixPending) (hs : (getFn s' fn).sent = (getFn s fn).sent) :
    Messaged s (sendMsix s' fn vec) fn vec := by
  unfold Messaged
  simp only [getFn_sendMsix, ht]
  split <;> simp [hp, hs]

theorem accErr_sendMsix (s : State) (fn vec : Nat) : (getFn (sendMsix s fn vec) fn).accErr = (getFn s fn).accErr := by
  rw [getFn_sendMsix]; split <;> rfl

/-- ACCERR becomes set and is signalled once (R444, R446, R447). -/
theorem setAccErr_spec (s : State) (fn : Nat) :
    (getFn (setAccErr s fn) fn).accErr = true ∧ ((getFn s fn).accErr = false → Messaged s (setAccErr s fn) fn 2) := by
  unfold setAccErr
  split
  · next h => exact ⟨h, fun h' => absurd (h.symm.trans h') nofun⟩
  · refine ⟨by rw [accErr_sendMsix, getFn_modFn], fun _ => messaged_sendMsix 2 ?_ ?_ ?_⟩ <;> rw [getFn_modFn]

/-- ACCERR changes nothing but its function's registers. -/
theorem setAccErr_same (s : State) (fn : Nat) :
    ∃ fns, setAccErr s fn = { s with hub := { s.hub with fns := fns } } := by
  unfold setAccErr
  split
  · exact ⟨s.hub.fns, rfl⟩
  · exact ⟨_, rfl⟩

/-- R448, R449: the checks of the doorbell in their order. -/
theorem doorbellGates : DoorbellGates := by
  intro s req ok table i code early used hi
  refine ⟨fun hb => ?_, fun hb h1 h10 => ?_⟩
  · obtain ⟨body, hx⟩ := exec_command hi (.inl hb)
    obtain ⟨hacc, hmsg⟩ := setAccErr_spec s 0
    obtain ⟨fns, hs⟩ := setAccErr_same s 0
    refine ⟨_, hx.trans (startCommand_busy hb _ _ _ _), hacc, ?_, ?_, ?_, ?_, ?_, ?_, hmsg⟩ <;> rw [hs]
    exact hb
  · obtain ⟨body, hx⟩ := exec_command hi (.inr ⟨h1, h10⟩)
    refine ⟨fun hr he => ?_, fun hr hu => ?_⟩
    · subst he
      exact ⟨_, hx.trans (startCommand_notReady hb hr _ _ _), rfl, rfl, rfl, rfl, rfl, rfl, rfl, rfl, rfl⟩
    · exact ⟨_, hx.trans (startCommand_badBytes hb hr hu _ _), rfl, rfl, rfl, rfl, rfl, rfl, rfl, rfl, rfl⟩

/-! ## Commands that have been accepted -/

theorem accepts_runs {s : State} {used : List Nat} (h : Accepts s used) (code : Nat) (early : Bool)
    (body : State → State) : startCommand s code early used body = .next (body (begun s code)) :=
  startCommand_runs h.1 (.inl h.2.1) h.2.2 code body

/-- A command that refuses its operands answers −1 and changes nothing else. -/
theorem declined_of {i : Instr} {s : State} (code : Nat) (h : exec i s = .next (refuseCommand (begun s code))) :
    Declined i s :=
  ⟨_, h, rfl, rfl, rfl, rfl, rfl, rfl, rfl, rfl, rfl, rfl, rfl, rfl, rfl⟩

/-- A command that is served and changes the hub alone ends with its reply. -/
theorem ends_of {i : Instr} {s : State} {reply : List Word} {P : State → Prop} (code : Nat) (f : Hub → Hub)
    (h : exec i s = .next (endCommand (modHub (begun s code) f) reply))
    (hf : (f (begun s code).hub).busy = true) (hP : P (endCommand (modHub (begun s code) f) reply)) :
    Ends i s reply P :=
  ⟨_, h, hf, rfl, rfl, rfl, rfl, rfl, rfl, hP⟩

/-- The unused bytes are zero: every operand fits its field. -/
theorem cmdWord_lt {s : State} {used : List Nat} (h : unusedZero s used = true) {i : Nat} (hi : i < 32) :
    (cmdWord s i).toNat < used.getD i 0 + 1 := by
  have := List.all_eq_true.mp h i (List.mem_range.mpr hi)
  rw [beq_iff_eq, Nat.div_eq_zero_iff] at this
  omega

/-! ## Logs, records and seals -/

/-- The oldest entries of a log that has been drained in part: what the management controller holds, then the log. -/
def logEntries (s : State) (d : Nat) : List (List Word) := drainedOf s d ++ logOf s d

theorem setLog_same (s : State) (d : Nat) (l : List (List Word)) :
    (setLog s d l).mem = s.mem ∧ (setLog s d l).strands = s.strands ∧ drainedOf (setLog s d l) d = drainedOf s d := by
  unfold setLog; split <;> exact ⟨rfl, rfl, rfl⟩

@[simp] theorem getDie_modDie (s : State) (d : Nat) (f : Die → Die) : getDie (modDie s d f) d = f (getDie s d) :=
  vget_set_same _ _ _ (Fin.ofNat 4 d).isLt

theorem logOf_setLog (s : State) (d : Nat) (l : List (List Word)) : logOf (setLog s d l) d = l := by
  by_cases h : d < 4
  · simp [logOf, setLog, h]
  · simp [logOf, setLog, h]

theorem drainedOf_set (s : State) (d : Nat) (l : List (List Word)) :
    drainedOf (modHub s fun h => { h with drained := fset h.drained d l }) d = l := by
  simp [drainedOf]

/-- Draining an entry moves it from the log to what is held, and leaves their sequence (R414). -/
theorem drainLog_spec (s : State) (d : Nat) :
    (drainLog s d).mem = s.mem ∧ (drainLog s d).strands = s.strands ∧ logEntries (drainLog s d) d = logEntries s d ∧
      min ((drainedOf s d).length + 1) (logEntries s d).length ≤ (drainedOf (drainLog s d) d).length := by
  unfold drainLog
  split
  · next h => refine ⟨rfl, rfl, rfl, ?_⟩; simp [logEntries, h]
  · next e rest h =>
    obtain ⟨h1, h2, h3⟩ := setLog_same s d rest
    have hd : drainedOf (modHub (setLog s d rest) fun h =>
        { h with drained := fset h.drained d ((fget h.drained d).getD [] ++ [e]) }) d = drainedOf s d ++ [e] := by
      rw [← h3]; simp [drainedOf]
    refine ⟨h1, h2, ?_, ?_⟩
    · rw [logEntries, hd]
      have hl : logOf (modHub (setLog s d rest) fun h =>
          { h with drained := fset h.drained d ((fget h.drained d).getD [] ++ [e]) }) d = rest := logOf_setLog s d rest
      rw [hl, logEntries, h, List.append_assoc]; rfl
    · rw [hd]; simp

theorem drainLog_repeat_spec (d : Nat) (l : List Nat) (s : State) :
    let t := l.foldl (fun s _ => drainLog s d) s
    t.mem = s.mem ∧ t.strands = s.strands ∧ logEntries t d = logEntries s d ∧
      min ((drainedOf s d).length + l.length) (logEntries s d).length ≤ (drainedOf t d).length := by
  induction l generalizing s with
  | nil => exact ⟨rfl, rfl, rfl, Nat.min_le_left _ _⟩
  | cons x l ih =>
    obtain ⟨h1, h2, h3, h4⟩ := drainLog_spec s d
    obtain ⟨i1, i2, i3, i4⟩ := ih (drainLog s d)
    refine ⟨i1.trans h1, i2.trans h2, i3.trans h3, ?_⟩
    rw [h3] at i4
    simp only [List.length_cons, List.foldl_cons] at i4 ⊢
    omega

/-- A first part that is long enough gives the first `n` entries of the whole. -/
theorem take_drop_append {α : Type} {a b : List α} {n : Nat} (h : min n (a ++ b).length ≤ a.length) :
    a.take n = (a ++ b).take n ∧ a.drop n ++ b = (a ++ b).drop n := by
  by_cases hn : n ≤ a.length
  · exact ⟨(List.take_append_of_le_length hn).symm, (List.drop_append_of_le_length hn).symm⟩
  · have hb : b = [] := by
      rw [List.length_append] at h
      exact List.eq_nil_of_length_eq_zero (by omega)
    subst hb
    simp

theorem exec_logread {s : State} (h : Accepts s [byteMask 2]) :
    exec .logread s = .next (
      let d := (cmdWord s 0).toNat % 256
      let n := (cmdWord s 0).toNat / 256
      if 4 < d ∨ n = 0 ∨ 3 < n then refuseCommand (begun s 4)
      else
        let t := (List.range (n - (drainedOf s d).length)).foldl (fun s _ => drainLog s d) (begun s 4)
        let l := (drainedOf t d).take n
        endCommand (modHub t fun h => { h with drained := fset h.drained d ((drainedOf t d).drop n) })
          ([0, BitVec.ofNat 64 l.length] ++ l.flatMap fun e => (e ++ List.replicate 8 0).take 8)) := by
  have hlt := cmdWord_lt h.2.2 (i := 0) (by decide)
  have hd : bits (cmdWord s 0).toNat 7 0 = (cmdWord s 0).toNat % 256 := by simp [Machine.bits]
  have hn : bits (cmdWord s 0).toNat 15 8 = (cmdWord s 0).toNat / 256 := by
    simp [Machine.bits, byteMask] at hlt ⊢; omega
  have hw : cmdWord (begun s 4) 0 = cmdWord s 0 := rfl
  have hdr : drainedOf (begun s 4) = drainedOf s := rfl
  show execLogread s = _
  unfold execLogread
  rw [accepts_runs h]
  simp only [hw, hd, hn, hdr, Bool.or_eq_true, decide_eq_true_eq, or_assoc]

/-- LOGREAD (R413, R414). -/
theorem logread_spec {s : State} (h : Accepts s [byteMask 2]) :
    let d := (cmdWord s 0).toNat % 256
    let n := (cmdWord s 0).toNat / 256
    let all := drainedOf s d ++ logOf s d
    let reply := [0, BitVec.ofNat 64 (min n all.length)] ++ (all.take n).flatMap fun e => (e ++ List.replicate 8 0).take 8
    (4 < d ∨ n = 0 ∨ 3 < n → Declined .logread s) ∧
    (d ≤ 4 → 1 ≤ n → n ≤ 3 → ∃ t, exec .logread s = .next t ∧ t.hub.readyReply = some reply ∧
      drainedOf t d ++ logOf t d = all.drop n ∧ t.mem = s.mem ∧ t.strands = s.strands) := by
  have hx := exec_logread h
  dsimp only at hx ⊢
  generalize (cmdWord s 0).toNat % 256 = d at *
  generalize (cmdWord s 0).toNat / 256 = n at *
  refine ⟨fun hbad => declined_of 4 (hx.trans (by rw [if_pos hbad])), fun h1 h2 h3 => ?_⟩
  rw [if_neg (by omega)] at hx
  obtain ⟨hm, hs, ha, hlen⟩ := drainLog_repeat_spec d (List.range (n - (drainedOf s d).length)) (begun s 4)
  generalize (List.range (n - (drainedOf s d).length)).foldl (fun s _ => drainLog s d) (begun s 4) = t at *
  have hpre : min n (drainedOf t d ++ logOf t d).length ≤ (drainedOf t d).length := by
    have : (logEntries (begun s 4) d).length = (drainedOf t d ++ logOf t d).length := by rw [← ha]; rfl
    have hd : drainedOf (begun s 4) d = drainedOf s d := rfl
    rw [this, List.length_range, hd] at hlen
    omega
  obtain ⟨htake, hdrop⟩ := take_drop_append hpre
  have hall : drainedOf t d ++ logOf t d = drainedOf s d ++ logOf s d := ha
  refine ⟨_, hx, ?_, ?_, hm, hs⟩
  · rw [htake, hall, List.length_take]; rfl
  · rw [← hall, ← hdrop]
    exact congrArg (· ++ logOf t d) (drainedOf_set t d _)

/-- MACK (R435). -/
theorem exec_mack {s : State} (h : Accepts s [byteMask 8]) :
    exec .mack s = .next (
      let n := (cmdWord s 0).toNat
      if s.hub.mseq ≤ n then refuseCommand (begun s 5)
      else endCommand (modHub (begun s 5) fun h =>
        { h with records := h.records.filter (fun r => decide (n < r.1)),
                 seals := h.seals.filter fun x => decide (n < 64 * x.1 + 63) }) [0]) := by
  show execMack s = _
  unfold execMack
  rw [accepts_runs h]; rfl

theorem mack_spec {s : State} (h : Accepts s [byteMask 8]) : let n := (cmdWord s 0).toNat
    (s.hub.mseq ≤ n → Declined .mack s) ∧
    (n < s.hub.mseq → Ends .mack s [0] fun t => (∀ r, r ∈ t.hub.records ↔ r ∈ s.hub.records ∧ n < r.1) ∧
      (∀ x, x ∈ t.hub.seals ↔ x ∈ s.hub.seals ∧ n < 64 * x.1 + 63) ∧ t.hub.unsealed = s.hub.unsealed ∧
      t.hub.chainHead = s.hub.chainHead) := by
  have hx := exec_mack h
  refine ⟨fun hn => declined_of 5 (hx.trans (congrArg _ (if_pos hn))), fun hn => ?_⟩
  refine ends_of 5 _ (hx.trans (congrArg _ (if_neg (Nat.not_le.mpr hn)))) rfl ⟨fun r => ?_, fun x => ?_, rfl, rfl⟩
  · exact List.mem_filter.trans (and_congr_right fun _ => decide_eq_true_iff)
  · exact List.mem_filter.trans (and_congr_right fun _ => decide_eq_true_iff)

/-- MFETCH of a record (R435). -/
theorem exec_mfetch_record {s : State} (h : Accepts s [byteMask 8]) (hk : (cmdWord s 0).getLsbD 63 = false) :
    exec .mfetch s = .next (
      match s.hub.records.lookup ((cmdWord s 0).toNat % 2 ^ 63) with
      | some bs => endCommand (begun s 6) (0 :: toDwords bs 16)
      | none => refuseCommand (begun s 6)) := by
  show execMfetch s = _
  unfold execMfetch
  simp only [hk, Bool.false_eq_true, if_false]
  rw [accepts_runs h]; rfl

/-- MFETCH of a part of a seal (R435). -/
theorem exec_mfetch_seal {s : State} (h : Accepts s [byteMask 8, byteMask 1]) (hk : (cmdWord s 0).getLsbD 63 = true) :
    exec .mfetch s = .next (
      match s.hub.seals.lookup ((cmdWord s 0).toNat % 2 ^ 63) with
      | some bs => if (cmdWord s 1).toNat ≤ 14 then endCommand (begun s 6) (0 :: partWords bs (cmdWord s 1).toNat)
        else refuseCommand (begun s 6)
      | none => refuseCommand (begun s 6)) := by
  show execMfetch s = _
  unfold execMfetch
  simp only [hk, if_true]
  rw [accepts_runs h]; rfl

/-- R413, R414, R435, R448: the commands on logs, records and seals. -/
theorem logAndRecordCommands : LogAndRecordCommands := by
  refine ⟨fun s h => logread_spec h, fun s h => mack_spec h, fun s => ⟨fun hk h => ?_, fun hk h => ?_⟩⟩
  · have hx := exec_mfetch_record h hk
    refine ⟨fun hn => declined_of 6 (hx.trans (by rw [hn])), fun bs hbs => ends_of 6 id (hx.trans (by rw [hbs]; rfl)) rfl rfl⟩
  · have hx := exec_mfetch_seal h hk
    refine ⟨fun hn => declined_of 6 (hx.trans ?_), fun bs hbs hle => ends_of 6 id (hx.trans ?_) rfl rfl⟩
    · split
      · next bs hbs =>
        rw [if_neg (hn.resolve_left (by rw [hbs]; nofun) |> Nat.not_le.mpr)]
      · rfl
    · rw [hbs]
      exact congrArg _ (if_pos hle)

/-! ## Attestation and firmware -/

theorem exec_attest {s : State} (h : Accepts s [byteMask 8, byteMask 8, byteMask 8, byteMask 8, byteMask 1]) :
    exec .attest s = .next (
      let k := (cmdWord s 4).toNat
      let x := attestBytes (begun s 7) (dwordsToBytes ((List.range 4).map (cmdWord s)))
      if 15 < k then refuseCommand (begun s 7) else endCommand x.2 (0 :: partWords x.1 k)) := by
  show execAttest s = _
  unfold execAttest
  rw [accepts_runs h]; rfl

/-- A nonce that has been signed gives its report again. -/
theorem attestBytes_known {s : State} {nonce bs : List Byte} (h : s.hub.report = some (nonce, bs)) :
    attestBytes s nonce = (bs, s) := by
  simp [attestBytes, h]

/-- A signature uses up a key and changes nothing that a report says. -/
theorem reportBytes_signBytes (s : State) (l nonce : List Byte) :
    reportBytes (signBytes s l).2 nonce = reportBytes s nonce := rfl

/-- A new nonce is signed with the next one-time key (R432). -/
theorem attestBytes_new {s : State} {nonce : List Byte} (h : ∀ bs, s.hub.report ≠ some (nonce, bs)) :
    attestBytes s nonce =
      (let bs := reportBytes s nonce ++ (signBytes s (reportBytes s nonce)).1
       (bs, modHub (signBytes s (reportBytes s nonce)).2 fun h => { h with report := some (nonce, bs) })) := by
  cases hr : s.hub.report with
  | none => simp only [attestBytes, hr, reportBytes_signBytes]
  | some x =>
    obtain ⟨n, bs⟩ := x
    have hn : n ≠ nonce := fun e => h bs (e ▸ hr)
    simp only [attestBytes, hr, if_neg hn, reportBytes_signBytes]

theorem signBytes_length (s : State) (l : List Byte) : (signBytes s l).1.length = 3604 := by
  simp only [signBytes, List.length_take, List.length_append, List.length_replicate]
  omega

theorem exec_fwstage {s : State} (hb : s.hub.busy = false)
    (hu : unusedZero s (byteMask 4 :: List.replicate 24 (byteMask 8)) = true) :
    exec .fwstage s = .next (
      let bs := dwordsToBytes ((List.range 24).map fun i => cmdWord s (i + 1))
      endCommand (modHub (begun s 8) fun h => { h with staged := fset h.staged (cmdWord s 0).toNat bs }) [0]) := by
  show execFwstage s = _
  unfold execFwstage
  rw [startCommand_runs hb (.inr rfl) hu]; rfl

theorem exec_fwcommit {s : State} (ok : Bool) (hb : s.hub.busy = false) (hu : unusedZero s [byteMask 4] = true) :
    exec (.fwcommit ok) s = .next (
      let n := (cmdWord s 0).toNat
      let blocks := s.hub.staged.filter fun x => decide (x.1 < n)
      if ok && n ≠ 0 && blocks.length = n then
        endCommand (modHub (begun s 9) fun h => { h with nextImage := some (blocks.flatMap (·.2)) }) [0]
      else refuseCommand (begun s 9)) := by
  show execFwcommit ok s = _
  unfold execFwcommit
  rw [startCommand_runs hb (.inr rfl) hu]; rfl

/-- R432, R449: attestation and the staging of firmware. -/
theorem attestationAndFirmware : AttestationAndFirmware := by
  refine ⟨fun s h => ?_, fun s hb hu => ?_, fun s ok hb hu => ?_⟩
  · have hx := exec_attest h
    refine ⟨fun hk => declined_of 7 (hx.trans (congrArg _ (if_pos hk))), fun hk => ⟨fun bs hbs => ?_, fun hn => ?_⟩⟩
    · refine ends_of 7 id (hx.trans (congrArg _ (if_neg (Nat.not_lt.mpr hk)) |>.trans ?_)) rfl ⟨rfl, rfl⟩
      rw [attestBytes_known (s := begun s 7) hbs]; rfl
    · refine ⟨_, signBytes_length (begun s 7) (reportBytes s (dwordsToBytes ((List.range 4).map (cmdWord s)))),
        ends_of 7 (fun h => { h with sigIndex := h.sigIndex + 1, report := some (_, _) })
          (hx.trans (congrArg _ (if_neg (Nat.not_lt.mpr hk)) |>.trans ?_)) rfl ⟨rfl, rfl⟩⟩
      rw [attestBytes_new (s := begun s 7) hn]; rfl
  · refine ends_of 8 _ (exec_fwstage hb hu) rfl ⟨?_, fun n hn => ?_, rfl⟩
    · exact fget_fset_same _ _ _
    · exact fget_fset_other _ _ _ _ hn
  · have hx := exec_fwcommit ok hb hu
    refine ⟨fun hbad => declined_of 9 (hx.trans (congrArg _ (if_neg ?_))), fun hok hn hlen =>
      ends_of 9 _ (hx.trans (congrArg _ (if_pos ?_))) rfl ⟨rfl, rfl⟩⟩
    · simp only [Bool.and_eq_true, decide_eq_true_eq]
      rintro ⟨⟨h1, h2⟩, h3⟩
      rcases hbad with h | h | h
      · rw [h] at h1; cases h1
      · exact h2 h
      · exact h h3
    · simp only [Bool.and_eq_true, decide_eq_true_eq]
      exact ⟨⟨hok, hn⟩, hlen⟩

/-! ## The fabric table, the power cap, the test of a cell, telemetry -/

/-- A frame of the service partition takes its new domain tag. -/
def retagOwner (tag : BitVec 16) (o : FrameOwner) : FrameOwner :=
  if o.valid && o.owner = 0 then { o with dtag := tag } else o

theorem fget_map {α β : Type} (f : α → β) (m : FMap α) (k : Nat) :
    fget (m.map fun x => (x.1, f x.2)) k = (fget m k).map f := by
  induction m with
  | nil => rfl
  | cons x m ih =>
    rw [List.map_cons, fget_cons, ih, show x = (x.1, x.2) from rfl, fget_cons]
    split <;> rfl

/-- FABRIC with a table that keeps its layout (R449). -/
theorem exec_fabric {s : State} {table : List (BitVec 32)} (h : Accepts s [byteMask 8, byteMask 4])
    (hlen : 4 * table.length = (cmdWord s 1).toNat) :
    exec (.fabric table) s = .next (
      match fabricOf table with
      | none => refuseCommand (begun s 10)
      | some (pkg, tag, l) =>
        if (cmdWord s 0).toNat % 64 ≠ 0 || (List.range 63).any (fun i => partActive s (i + 1)) then
          refuseCommand (begun s 10)
        else endCommand (modHub (modPart (begun s 10) 0 fun p => { p with dtag := tag }) fun h =>
          { h with pkg := pkg, routes := l, owners := h.owners.map fun x => (x.1, retagOwner tag x.2) }) [0]) := by
  show execFabric table s = _
  unfold execFabric
  rw [if_neg (by simp [hlen]), accepts_runs h]
  rfl

theorem any_partActive (s : State) :
    (List.range 63).any (fun i => partActive s (i + 1)) = true ↔ ∃ p, 1 ≤ p ∧ p ≤ 63 ∧ (getPart s p).st = .active := by
  simp only [List.any_eq_true, List.mem_range, partActive, beq_iff_eq]
  constructor
  · rintro ⟨i, hi, h⟩
    exact ⟨i + 1, by omega, by omega, h⟩
  · rintro ⟨p, h1, h2, h⟩
    exact ⟨p - 1, by omega, by rw [Nat.sub_add_cancel h1]; exact h⟩

theorem fabric_spec {s : State} {table : List (BitVec 32)} (h : Accepts s [byteMask 8, byteMask 4])
    (hlen : 4 * table.length = (cmdWord s 1).toNat) :
    (fabricOf table = none ∨ (cmdWord s 0).toNat % 64 ≠ 0 ∨ (∃ p, 1 ≤ p ∧ p ≤ 63 ∧ (getPart s p).st = .active) →
      Declined (.fabric table) s) ∧
    ∀ pkg tag l, fabricOf table = some (pkg, tag, l) → (cmdWord s 0).toNat % 64 = 0 →
      (∀ p, 1 ≤ p → p ≤ 63 → (getPart s p).st ≠ .active) →
      Ends (.fabric table) s [0] fun t => t.hub.pkg = pkg ∧ t.hub.routes = l ∧ (getPart t 0).dtag = tag ∧
        ∀ f o, fget s.hub.owners f = some o → fget t.hub.owners f = some
          (if o.valid = true ∧ o.owner = 0 then { o with dtag := tag } else o) := by
  have hx := exec_fabric h hlen
  refine ⟨fun hbad => declined_of 10 (hx.trans (congrArg _ ?_)), fun pkg tag l hf ha hp => ?_⟩
  · split
    · rfl
    · next hf =>
      refine if_pos ?_
      rw [Bool.or_eq_true, decide_eq_true_eq, any_partActive]
      exact hbad.resolve_left (by rw [hf]; nofun)
  · have hno : ¬ (decide ((cmdWord s 0).toNat % 64 ≠ 0) || (List.range 63).any fun i => partActive s (i + 1)) = true := by
      rw [Bool.or_eq_true, decide_eq_true_eq, any_partActive]
      rintro (h | ⟨p, h1, h2, h⟩)
      · exact h ha
      · exact hp p h1 h2 h
    simp only [hf, if_neg hno] at hx
    refine ⟨_, hx, rfl, rfl, ?_, ?_, ?_, ?_, ?_, rfl, rfl, ?_, fun f o ho => ?_⟩
    iterate 5 · simp [endCommand, begun]
    · exact congrArg Partition.dtag (getPart_putPart (begun s 10) 0 _)
    · show fget (s.hub.owners.map fun x => (x.1, retagOwner tag x.2)) f = _
      rw [fget_map, ho]
      simp [retagOwner]

theorem exec_cap {s : State} (h : Accepts s [byteMask 4, byteMask 4]) :
    exec .cap s = .next (
      let cap := (cmdWord s 0).toNat
      let reserve := (cmdWord s 1).toNat
      if decide (1200 ≤ cap ∧ cap ≤ 3000 ∧ 700 ≤ reserve ∧ reserve + 200 ≤ cap) then
        endCommand (modHub (begun s 11) fun h => { h with cap := cap, reserve := reserve }) [0]
      else refuseCommand (begun s 11)) := by
  show execCap s = _
  unfold execCap
  rw [accepts_runs h]; rfl

theorem exec_celltest {s : State} (h : Accepts s [byteMask 1]) :
    exec .celltest s = .next (
      let c := (cmdWord s 0).toNat
      if Config.cells ≤ c then refuseCommand (begun s 12)
      else if (getCell s c).fenced then endCommand (begun s 12) [0, 1]
      else modCell (begun s 12) c fun x => { x with testing := true }) := by
  show execCelltest s = _
  unfold execCelltest
  rw [accepts_runs h]; rfl

theorem exec_telem {s : State} (h : Accepts s []) :
    exec .telem s = .next (endCommand (begun s 13) (0 :: telemetry s)) := by
  show execTelem s = _
  unfold execTelem
  rw [accepts_runs h]; rfl

/-- R2, R419, R449, R451, R452: the four commands of the rack and of telemetry. -/
theorem fabricCapTestTelemetry : FabricCapTestTelemetry := by
  refine ⟨fun s table h hlen => fabric_spec h hlen, fun s h => ⟨fun hbad => ?_, fun h1 h2 h3 h4 => ?_⟩,
    fun s h => ⟨fun hc => ?_, fun hc => ⟨fun hf => ?_, fun hf => ?_⟩⟩, fun s h => ?_⟩
  · exact declined_of 11 ((exec_cap h).trans (congrArg _ (if_neg (by simp only [decide_eq_true_eq]; omega))))
  · exact ends_of 11 _ ((exec_cap h).trans (congrArg _ (if_pos (decide_eq_true ⟨h1, h2, h3, h4⟩)))) rfl ⟨rfl, rfl⟩
  · exact declined_of 12 ((exec_celltest h).trans (congrArg _ (if_pos hc)))
  · refine ends_of 12 id ((exec_celltest h).trans (congrArg _ ?_)) rfl trivial
    exact (if_neg (Nat.not_le.mpr hc)).trans (if_pos hf)
  · refine ⟨_, (exec_celltest h).trans (congrArg _ ((if_neg (Nat.not_le.mpr hc)).trans (if_neg ?_))), rfl, rfl, ?_, rfl,
      rfl⟩
    · rw [hf]; nofun
    · exact getCell_putCell (begun s 12) _ _
  · exact ends_of 13 id (exec_telem h) rfl trivial

/-! ## The end of a command (R427, R448) -/

theorem exec_mgmtCommandComplete (s : State) : exec .mgmtCommandComplete s = execMgmtCommandComplete s := rfl

/-- A reply that is ready goes to the reply area, BUSY clears and vector 6 goes out. -/
theorem exec_complete_reply {s : State} (hb : s.hub.busy = true) {l : List Word} (hl : s.hub.readyReply = some l) :
    exec .mgmtCommandComplete s = .next (sendMsix (modHub s fun h =>
      { h with reply := Vector.ofFn fun (i : Fin 32) => l.getD i 0, busy := false, readyReply := none }) 0 6) := by
  rw [exec_mgmtCommandComplete, execMgmtCommandComplete, hb, hl]; rfl

/-- A command without a reply yet goes on. -/
theorem exec_complete_wait {s : State} (hb : s.hub.busy = true) (hl : s.hub.readyReply = none) :
    exec .mgmtCommandComplete s = .next (goOn s) := by
  rw [exec_mgmtCommandComplete, execMgmtCommandComplete, hb, hl]; rfl

theorem goOn_idle {s : State} (hc : s.hub.creating = none) (he : s.hub.ending = none) : goOn s = s := by
  rw [goOn, hc, he]

/-- A teardown goes on to its end once no strand is left and the partition is quiet. -/
theorem goOn_teardown {s : State} (hc : s.hub.creating = none) {p : Nat} (he : s.hub.ending = some p) :
    goOn s = if (strandsOf s p).isEmpty && quietPart s p then
      endCommand (modHub (finishTeardown s p) fun h => { h with ending := none }) [0] else endStrands s p := by
  rw [goOn, hc, he]

/-! ### Steps 3 to 5 of a teardown -/

/-- What a scrub counts rests on the banks, slots and matrix units of the cells, the collective shares and the save
areas (R428). -/
theorem scrubAreas_congr {s t : State} {p : Nat} (hcells : t.cells.map (fun x => (x.2.banks, x.2.slots, x.2.mu)) =
      s.cells.map fun x => (x.2.banks, x.2.slots, x.2.mu))
    (hcoll : ∀ d, getColl t d p = getColl s d p) (hpart : getPart t p = getPart s p) :
    scrubAreas t p = scrubAreas s p := by
  have sum (f : Vector (Option Nat) 32 × Vector (Option Nat) 4 × Option Nat → Nat) :
      (t.cells.map fun x => f (x.2.banks, x.2.slots, x.2.mu)).sum =
        (s.cells.map fun x => f (x.2.banks, x.2.slots, x.2.mu)).sum := by
    have := congrArg (fun l => (l.map f).sum) hcells
    simpa only [List.map_map, Function.comp_def] using this
  have h1 := sum fun x => (x.1.toList.filter (· == some p)).length
  have h2 := sum fun x => 2 * (x.2.1.toList.filter (· == some p)).length + if x.2.2 == some p then 48 else 0
  have h3 := sum fun x => min 1 (x.2.1.toList.filter (· == some p)).length
  dsimp only at h1 h2 h3
  simp only [scrubAreas, hcoll, hpart, h1, h2, h3]

/-- Steps 3 and 4 of a teardown, before the scrub is queued. -/
def cleared (s : State) (p : Nat) : State :=
  modHub (dropCaches (zeroiseKey (modFn s p fun _ => {}) p (getPart s p).frames) p) fun h =>
    { h with invals := h.invals.filter fun v => v.part != p }

theorem finishTeardown_eq (s : State) (p : Nat) :
    finishTeardown s p = queueScrub (modPart (cleared s p) p fun x => { x with st := .scrubbing, launches := [] })
      (partScrub (cleared s p) p) := rfl

/-- What the caches of a die keep when a partition's entries are dropped. -/
theorem getDie_cleared (s : State) (p d : Nat) :
    (getDie (cleared s p) d).coll = (getDie s d).coll ∧ ∀ e ∈ (getDie (cleared s p) d).tlb, e.part ≠ p := by
  have h : getDie (cleared s p) d = (fun d : Die =>
      { d with tlb := d.tlb.filter (fun e => e.part != p), walk := d.walk.filter (fun e => e.part != p)
               regions := d.regions.filter (fun e => e.part != p), pulls := d.pulls.filter fun e => e.part != p })
      (getDie s d) := by
    show (s.dies.map _).get _ = _
    rw [Vector.get_eq_getElem, Vector.getElem_map]; rfl
  rw [h]
  refine ⟨rfl, fun e he => ?_⟩
  simpa using (List.mem_filter.mp he).2

theorem getPart_cleared (s : State) (p q : Nat) : getPart (cleared s p) q = getPart s q := by
  have h : (cleared s p).hub.parts = s.hub.parts := by simp [cleared, dropCaches, zeroiseKey]
  rw [getPart, getPart, h]

theorem partScrub_cleared (s : State) (p : Nat) : partScrub (cleared s p) p = partScrub s p := by
  have h : scrubAreas (cleared s p) p = scrubAreas s p :=
    scrubAreas_congr (by simp only [cleared, modHub_cells, dropCaches, List.map_map]; rfl)
      (fun d => by rw [getColl, getColl, (getDie_cleared s p d).1]) (getPart_cleared s p p)
  simp only [partScrub, h, getPart_cleared]

/-- The key slot of a partition is zeroised. -/
theorem getLsbD_zeroised (keys : Word) {p : Nat} (hp : p < 64) :
    (keys &&& ~~~(BitVec.ofNat 64 (2 ^ p))).getLsbD p = false := by
  simp only [BitVec.getLsbD_and, BitVec.getLsbD_not, BitVec.getLsbD_ofNat, Nat.testBit_two_pow_self, hp, decide_true,
    Bool.and_true, Bool.not_true, Bool.and_false]

theorem finishTeardown_spec (s : State) (p : Nat) :
    let t := finishTeardown s p
    (getPart t p).st = .scrubbing ∧ (p < 64 → t.hub.keys.getLsbD p = false) ∧ (getFn t p).enabled = false ∧
      t.mem = s.mem ∧
      (let fs := (getPart s p).frames ++ (getPart s p).svcFrames
       t.hub.scrubs = s.hub.scrubs ++ [⟨p, 1, fs.length, 0, fs, true, 0, scrubAreas s p⟩]) ∧
      (∀ x ∈ t.cells, (∀ l ∈ x.2.l1, l.part ≠ p) ∧ ∀ e ∈ x.2.tlb, e.part ≠ p) ∧
      ∀ d, ∀ e ∈ (getDie t d).tlb, e.part ≠ p := by
  intro t
  have ht : t = queueScrub (modPart (cleared s p) p fun x => { x with st := .scrubbing, launches := [] })
      (partScrub s p) := by rw [← partScrub_cleared]; exact finishTeardown_eq s p
  have hkeys : t.hub.keys = s.hub.keys &&& ~~~(BitVec.ofNat 64 (2 ^ p)) := by
    rw [ht]; simp [queueScrub, cleared, dropCaches, zeroiseKey]
  have hcells : t.cells = (cleared s p).cells := by rw [ht]; simp [queueScrub]
  have hdies : t.dies = (cleared s p).dies := by rw [ht]; simp [queueScrub]
  refine ⟨?_, fun hp => by rw [hkeys]; exact getLsbD_zeroised _ hp, ?_, ?_, ?_, fun x hx => ?_,
    fun d => by rw [getDie, hdies]; exact (getDie_cleared s p d).2⟩
  · rw [ht]
    exact congrArg Partition.st (getPart_putPart (cleared s p) p _)
  · rw [ht]; simp [getFn, queueScrub, cleared, dropCaches, zeroiseKey]
  · rw [ht]; simp [queueScrub, cleared, dropCaches, zeroiseKey]
  · rw [ht]; simp [queueScrub, cleared, dropCaches, zeroiseKey, partScrub]
  · rw [hcells] at hx
    simp only [cleared, modHub_cells, dropCaches, List.mem_map] at hx
    obtain ⟨y, -, rfl⟩ := hx
    refine ⟨fun l hl => ?_, fun e he => ?_⟩
    · simpa using (List.mem_filter.mp hl).2
    · simpa using (List.mem_filter.mp he).2

/-! ### Step 1 of a teardown: what the end of a strand leaves -/

/-- The command under way stays as it is, and every strand of `t` has the number and the partition of one of `s`: strands
may change or leave, none comes. -/
structure Dwindles (s t : State) : Prop where
  busy : t.hub.busy = s.hub.busy
  reply : t.hub.readyReply = s.hub.readyReply
  ending : t.hub.ending = s.hub.ending
  ids : ∀ x ∈ allStrands t, ∃ y ∈ allStrands s, y.uid = x.uid ∧ y.part = x.part

namespace Dwindles

theorem refl (s : State) : Dwindles s s := ⟨rfl, rfl, rfl, fun x hx => ⟨x, hx, rfl, rfl⟩⟩

theorem trans {s t u : State} (h : Dwindles s t) (k : Dwindles t u) : Dwindles s u := by
  refine ⟨k.busy.trans h.busy, k.reply.trans h.reply, k.ending.trans h.ending, fun x hx => ?_⟩
  obtain ⟨y, hy, hyu, hyp⟩ := k.ids x hx
  obtain ⟨z, hz, hzu, hzp⟩ := h.ids y hy
  exact ⟨z, hz, hzu.trans hyu, hzp.trans hyp⟩

theorem of_same {s t : State} (hs : t.strands = s.strands) (hc : t.ctxs = s.ctxs) (hb : t.hub.busy = s.hub.busy)
    (hr : t.hub.readyReply = s.hub.readyReply) (he : t.hub.ending = s.hub.ending) : Dwindles s t :=
  ⟨hb, hr, he, fun x hx => ⟨x, by simpa only [allStrands, hs, hc] using hx, rfl, rfl⟩⟩

theorem foldl {α : Type} {f : State → α → State} (h : ∀ s x, Dwindles s (f s x)) (l : List α) (s : State) :
    Dwindles s (l.foldl f s) := by
  induction l generalizing s with
  | nil => exact refl s
  | cons x l ih => exact (h s x).trans (ih (f s x))

/-- Every resident strand of `t` stands for a resident one of `s`, and every departed one for a departed one. -/
theorem of_ids {s t : State}
    (hs : ∀ x ∈ t.strands, ∃ y ∈ s.strands, y.2.uid = x.2.uid ∧ y.2.part = x.2.part)
    (hc : ∀ c ∈ t.ctxs, ∀ x ∈ c.2.departed, ∃ d ∈ s.ctxs, ∃ y ∈ d.2.departed, y.uid = x.uid ∧ y.part = x.part)
    (hb : t.hub.busy = s.hub.busy) (hr : t.hub.readyReply = s.hub.readyReply) (he : t.hub.ending = s.hub.ending) :
    Dwindles s t := by
  refine ⟨hb, hr, he, fun x hx => ?_⟩
  rcases List.mem_append.mp hx with hx | hx
  · obtain ⟨p, hp, rfl⟩ := List.mem_map.mp hx
    obtain ⟨y, hy, h⟩ := hs p hp
    exact ⟨y.2, List.mem_append_left _ (List.mem_map.mpr ⟨y, hy, rfl⟩), h⟩
  · obtain ⟨c, hcm, hx⟩ := List.mem_flatMap.mp hx
    obtain ⟨d, hd, y, hy, h⟩ := hc c hcm x hx
    exact ⟨y, List.mem_append_right _ (List.mem_flatMap.mpr ⟨d, hd, hy⟩), h⟩

theorem same_departed (s : State) : ∀ c ∈ s.ctxs, ∀ x ∈ c.2.departed,
    ∃ d ∈ s.ctxs, ∃ y ∈ d.2.departed, y.uid = x.uid ∧ y.part = x.part :=
  fun c hc x hx => ⟨c, hc, x, hx, rfl, rfl⟩

theorem same_resident (s : State) : ∀ x ∈ s.strands, ∃ y ∈ s.strands, y.2.uid = x.2.uid ∧ y.2.part = x.2.part :=
  fun x hx => ⟨x, hx, rfl, rfl⟩

/-- A strand that keeps its number and partition is put back. -/
theorem putStrand {s : State} {r : SRef} {q u : Strand} (hq : getStrand s r = some q) (hu : u.uid = q.uid)
    (hp : u.part = q.part) : Dwindles s (putStrand s r u) := by
  refine of_ids (fun x hx => ?_) (same_departed s) rfl rfl rfl
  rcases mem_fset hx with rfl | hx
  · exact ⟨_, mem_of_fget hq, hu.symm, hp.symm⟩
  · exact same_resident s x hx

theorem modStrand (s : State) (r : SRef) {f : Strand → Strand} (hf : ∀ x, (f x).uid = x.uid ∧ (f x).part = x.part) :
    Dwindles s (modStrand s r f) := by
  unfold Machine.modStrand
  split
  · next q hq => exact putStrand hq (hf q).1 (hf q).2
  · exact refl s

/-- Resident strands are filtered. -/
theorem filterStrands (s : State) (p : Nat × Strand → Bool) : Dwindles s { s with strands := s.strands.filter p } :=
  of_ids (fun x hx => same_resident s x (List.mem_filter.mp hx).1) (same_departed s) rfl rfl rfl

/-- The contexts map or drop departed strands, each left with its number and partition. -/
theorem mapCtxs (s : State) {f : Nat × Context → Nat × Context}
    (hf : ∀ c, ∀ x ∈ (f c).2.departed, ∃ y ∈ c.2.departed, y.uid = x.uid ∧ y.part = x.part) :
    Dwindles s { s with ctxs := s.ctxs.map f } := by
  refine of_ids (same_resident s) (fun c hc x hx => ?_) rfl rfl rfl
  obtain ⟨d, hd, rfl⟩ := List.mem_map.mp hc
  exact ⟨d, hd, hf d x hx⟩

theorem modByUid (s : State) (uid : Nat) {f : Strand → Strand} (hf : ∀ x, (f x).uid = x.uid ∧ (f x).part = x.part) :
    Dwindles s (modByUid s uid f) := by
  have hk : ∀ x : Strand, x.uid = (if x.uid == uid then f x else x).uid ∧
      x.part = (if x.uid == uid then f x else x).part := by
    intro x
    split
    · exact ⟨(hf x).1.symm, (hf x).2.symm⟩
    · exact ⟨rfl, rfl⟩
  refine of_ids (fun x hx => ?_) (fun c hc x hx => ?_) rfl rfl rfl
  · obtain ⟨y, hy, rfl⟩ := List.mem_map.mp hx
    exact ⟨y, hy, hk y.2⟩
  · obtain ⟨d, hd, rfl⟩ := List.mem_map.mp hc
    obtain ⟨y, hy, rfl⟩ := List.mem_map.mp hx
    exact ⟨d, hd, y, hy, hk y⟩

/-- A context changes but for its departed strands. -/
theorem modCtx (s : State) (cell part : Nat) {f : Context → Context} (hf : ∀ c, (f c).departed = c.departed) :
    Dwindles s (modCtx s cell part f) := by
  refine of_ids (same_resident s) (fun c hc x hx => ?_) rfl rfl rfl
  rcases mem_fset hc with rfl | hc
  · rw [hf, getCtx] at hx
    cases hg : fget s.ctxs (ctxKey cell part) with
    | none => rw [hg] at hx; cases hx
    | some d => rw [hg] at hx; exact ⟨_, mem_of_fget hg, x, hx, rfl, rfl⟩
  · exact same_departed s c hc x hx

theorem memWrite (s : State) (pa n v : Nat) : Dwindles s (memWrite s pa n v) := of_same rfl rfl rfl rfl rfl

theorem modCell (s : State) (c : Nat) (f : Cell → Cell) : Dwindles s (modCell s c f) := of_same rfl rfl rfl rfl rfl

theorem modPart (s : State) (p : Nat) (f : Partition → Partition) : Dwindles s (modPart s p f) :=
  of_same rfl rfl rfl rfl rfl

theorem modFn (s : State) (n : Nat) (f : Fn → Fn) : Dwindles s (modFn s n f) := of_same rfl rfl rfl rfl rfl

theorem dropAnswers (s : State) (part va : Nat) : Dwindles s (dropAnswers s part va) := of_same rfl rfl rfl rfl rfl

theorem dropReads (s : State) (part : Nat) : Dwindles s (dropReads s part) := of_same rfl rfl rfl rfl rfl

theorem charge (s : State) (c p rcb : Nat) (m : Bool) (x : Nat) : Dwindles s (charge s c p rcb m x) :=
  of_same rfl rfl (by simp [Machine.charge]) (by simp [Machine.charge]) (by simp [Machine.charge])

theorem perfFor (s : State) (p : Payer) (evt n : Nat) : Dwindles s (perfFor s p evt n) := by
  unfold Machine.perfFor
  split
  · exact modStrand _ _ fun _ => ⟨rfl, rfl⟩
  · exact modByUid _ _ fun _ => ⟨rfl, rfl⟩

theorem touchLines (s : State) (r : SRef) (h : Home) (lines : List Nat) (alloc : Bool) :
    Dwindles s (touchLines s r h lines alloc) := by
  refine foldl (fun s l => ?_) lines s
  cases h with
  | hbm =>
    refine trans ?_ (charge _ _ _ _ _ _)
    have h1 : Dwindles s (if (l2Has s l || !alloc) = true then s else l2Add s l) := by
      split
      · exact refl s
      · exact of_same rfl rfl rfl rfl rfl
    refine h1.trans ?_
    generalize (if (l2Has s l || !alloc) = true then s else l2Add s l) = s1
    split
    · exact perfFor _ _ _ _
    · exact (perfFor _ _ _ _).trans ((perfFor _ _ _ _).trans (perfFor _ _ _ _))
  | second => exact (perfFor _ _ _ _).trans (charge _ _ _ _ _ _)
  | host => exact refl s
  | remote _ => exact refl s

end Dwindles

theorem landReg_ids (st : Strand) (r : Reg) (l kept : List Pending) :
    (landReg st r l kept).uid = st.uid ∧ (landReg st r l kept).part = st.part := by
  have h := restOf_landReg r l kept st
  have hu : (restOf (landReg st r l kept)).uid = (restOf st).uid := by rw [h]
  have hp : (restOf (landReg st r l kept)).part = (restOf st).part := by rw [h]
  exact ⟨hu, hp⟩

/-- A delivered value leaves its strand's number and partition. -/
theorem deliver_ids (st : Strand) (a : Access) (v : Nat) (p : Bool) :
    (deliver st a v p).uid = st.uid ∧ (deliver st a v p).part = st.part := by
  have hflag : (if a.flag then flagValue st a v else st).uid = st.uid ∧
      (if a.flag then flagValue st a v else st).part = st.part := by
    unfold flagValue
    split
    · split
      · exact ⟨rfl, rfl⟩
      · split <;> exact ⟨rfl, rfl⟩
    · exact ⟨rfl, rfl⟩
  unfold deliver
  generalize (if a.flag then flagValue st a v else st) = x at hflag
  rw [← hflag.1, ← hflag.2]
  cases a.dest with
  | none => exact ⟨rfl, rfl⟩
  | reg n => exact landReg_ids _ _ _ _
  | lq id => exact ⟨rfl, rfl⟩
  | call => exact ⟨rfl, rfl⟩

namespace Dwindles

theorem performStore {s : State} {r : SRef} {st : Strand} (h : getStrand s r = some st) (a : Access) :
    Dwindles s (performStore s r st a .pass) := by
  obtain ⟨cells, hl⟩ := storeL1_cells (Machine.memWrite s a.pa a.size a.data.toNat) r st.part a
  have written : Dwindles s (Machine.storeL1 (Machine.memWrite s a.pa a.size a.data.toNat) r st.part a) := by
    rw [hl]; exact of_same rfl rfl rfl rfl rfl
  have hs : getStrand (Machine.storeL1 (Machine.memWrite s a.pa a.size a.data.toNat) r st.part a) r = some st := by
    rw [hl]; exact h
  obtain ⟨hu, hp⟩ := deliver_ids st a 0 false
  exact written.trans ((putStrand hs hu hp).trans (touchLines _ _ _ _ _))

theorem flushStores (s : State) (uid : Nat) : Dwindles s (flushStores s uid) := by
  unfold Machine.flushStores
  split
  · exact refl s
  · refine foldl (fun s a => ?_) _ s
    split
    · split
      · next q hq => exact performStore hq a
      · exact refl s
    · exact refl s

theorem dropPin (s : State) (part : Nat) (o : Option Nat) : Dwindles s (dropPin s part o) := by
  cases o with
  | none => exact refl s
  | some n => exact of_same rfl rfl rfl rfl rfl

theorem dropCommands (s : State) (cell uid : Nat) : Dwindles s (dropCommands s cell uid) := by
  unfold Machine.dropCommands
  refine trans (foldl (fun s cmd => ?_) _ s) (modCell _ _ _)
  split
  · exact (dropPin _ _ _).trans (dropPin _ _ _)
  · exact refl s

theorem giveRecord (s : State) (cmd : CopyCmd) (w : Word) : Dwindles s (giveRecord s cmd w) := by
  unfold Machine.giveRecord
  split
  · exact modByUid _ _ fun _ => ⟨rfl, rfl⟩
  · exact refl s

theorem abandonRun (s : State) (cell ch : Nat) : Dwindles s (abandonRun s cell ch) := by
  unfold Machine.abandonRun
  split
  · exact refl s
  · next run _ =>
    split
    · exact trans (trans (modCell _ _ _) (foldl (fun s p => dropAnswers s _ _) _ _))
        (trans ((dropPin _ _ _).trans (dropPin _ _ _)) (giveRecord _ _ _))
    · exact modCell _ _ _

theorem abandonCopies (s : State) (cell uid : Nat) : Dwindles s (abandonCopies s cell uid) :=
  (dropCommands s cell uid).trans (foldl (fun s ch => abandonRun s cell ch) _ _)

theorem dropSaved (s : State) (cell part uid : Nat) : Dwindles s (dropSaved s cell part uid) := by
  unfold Machine.dropSaved
  refine trans (foldl (fun s cmd => ?_) _ s) (modCtx _ _ _ fun _ => rfl)
  split
  · exact (dropPin _ _ _).trans (dropPin _ _ _)
  · exact refl s

theorem releaseHeld (s : State) (uid : Nat) : Dwindles s (releaseHeld s uid) := of_same rfl rfl rfl rfl rfl

theorem giveUp (s : State) (uid part : Nat) : Dwindles s (giveUp s uid part) :=
  (flushStores s uid).trans ((dropReads _ part).trans ((abandonCopies _ _ uid).trans
    ((dropSaved _ _ part uid).trans (releaseHeld _ uid))))

theorem sendMsix (s : State) (fn vec : Nat) : Dwindles s (sendMsix s fn vec) := modFn _ _ _

theorem setLog (s : State) (d : Nat) (l : List (List Word)) : Dwindles s (setLog s d l) := by
  unfold Machine.setLog; split <;> exact of_same rfl rfl rfl rfl rfl

theorem drainLog (s : State) (d : Nat) : Dwindles s (drainLog s d) := by
  unfold Machine.drainLog
  split
  · exact refl s
  · exact (setLog _ _ _).trans (of_same rfl rfl rfl rfl rfl)

theorem addLog (s : State) (d : Nat) (e : List Word) : Dwindles s (addLog s d e) := by
  refine trans (?_ : Dwindles s (if 4096 ≤ (logOf s d).length then Machine.drainLog s d else s)) ?_
  · split
    · exact drainLog _ _
    · exact refl s
  · unfold Machine.addLog
    dsimp only
    generalize (if 4096 ≤ (logOf s d).length then Machine.drainLog s d else s) = t
    split
    · exact (setLog _ _ _).trans (sendMsix _ _ _)
    · exact setLog _ _ _

theorem startHold (s : State) (h : Hold) : Dwindles s (startHold s h) := by
  cases h with
  | pull d p =>
    simp only [Machine.startHold]
    split
    · exact refl s
    · exact of_same rfl rfl rfl rfl rfl
  | away q =>
    simp only [Machine.startHold]
    split
    · exact refl s
    · exact of_same rfl rfl rfl rfl rfl

theorem swapLine (s : State) (line : Nat) (m : AtomicLine) : Dwindles s (swapLine s line m) :=
  of_same rfl rfl rfl rfl rfl

theorem atomicLine (s : State) (line : Nat) (msa : Bool) : Dwindles s (atomicLine s line msa).1 := by
  unfold Machine.atomicLine
  split
  · exact refl s
  · next m _ =>
    split
    · exact refl s
    · dsimp only
      split
      · exact swapLine _ _ _
      · exact of_same rfl rfl rfl rfl rfl

theorem atomicAt (s : State) (pa n : Nat) (msa : Bool) (f : Nat → Nat) : Dwindles s (atomicAt s pa n msa f).2 :=
  let u := (Machine.atomicLine s (pa / 128) msa).1
  ((atomicLine s (pa / 128) msa).trans (memWrite u pa n (f (memN u pa n)))).trans (of_same rfl rfl rfl rfl rfl)

theorem takeAnswer {s : State} {q : AwayReq} {bs : List Byte} {t : State} (h : takeAnswer s q = .ok (bs, t)) :
    Dwindles s t := by
  unfold Machine.takeAnswer at h
  dsimp only at h
  split at h
  case h_2 =>
    injection h with h; injection h with _ h; subst h
    exact of_same rfl rfl rfl rfl rfl
  case h_4 => split at h <;> cases h
  all_goals cases h

theorem addUnit {s : State} {c : CounterAdd} {t : State} (h : addUnit s c = .ok t) : Dwindles s t := by
  unfold Machine.addUnit at h
  simp only [bind, Except.bind] at h
  split at h
  · cases h
  split at h
  · cases h
  next x hx =>
  obtain ⟨-, hs, hc, hh, -⟩ := translate_same hx
  have h1 : Dwindles s x.2 := of_same hs hc (by rw [hh]) (by rw [hh]) (by rw [hh])
  split at h
  · split at h
    · cases h
    · injection h with h; subst h
      exact h1.trans (atomicAt _ _ _ _ _)
  · split at h
    · cases h
    · next y hy =>
      injection h with h; subst h
      exact h1.trans (takeAnswer hy)

theorem addVirt (s : State) (die part va n : Nat) : Dwindles s (addVirt s die part va n) := by
  unfold Machine.addVirt
  split
  · next t ht => exact addUnit ht
  · exact (addLog _ _ _).trans (dropAnswers _ _ _)
  · exact (startHold _ _).trans (of_same rfl rfl rfl rfl rfl)
  · exact refl s

theorem countRegion (s : State) (die part rcb k n : Nat) : Dwindles s (countRegion s die part rcb k n) := by
  unfold Machine.countRegion
  split
  · exact refl s
  · split
    · exact refl s
    · exact addVirt _ _ _ _ _

theorem markTriggered (s : State) (st : Strand) : Dwindles s (markTriggered s st) := by
  unfold Machine.markTriggered
  split
  · exact refl s
  · exact modPart _ _ _

theorem saveRegs (s : State) (d : Strand) (names : BitVec 64) : Dwindles s (saveRegs s d names) :=
  foldl (fun _ _ => memWrite _ _ _ _) _ s

/-- The bank of a slot passes to other strands: departed strands keep their numbers. -/
theorem leaveBank (s : State) (r : SRef) (st : Strand) : Dwindles s (leaveBank s r st) := by
  refine trans (foldl (fun s d => saveRegs s d _) _ s) (mapCtxs _ fun c x hx => ?_)
  split at hx
  · obtain ⟨y, hy, rfl⟩ := List.mem_map.mp hx
    refine ⟨y, hy, ?_⟩
    unfold displace
    split <;> exact ⟨rfl, rfl⟩
  · exact ⟨x, hx, rfl, rfl⟩

theorem dropUid (s : State) (uid : Nat) : Dwindles s (dropUid s uid) := by
  have h : Dwindles s (match strandByUid s uid with | some (r, st) => Machine.leaveBank s r st | none => s) := by
    split
    · exact leaveBank _ _ _
    · exact refl s
  refine h.trans (trans (filterStrands _ fun p => p.2.uid != uid) (mapCtxs _ fun c x hx => ?_))
  exact ⟨x, (List.mem_filter.mp hx).1, rfl, rfl⟩

theorem retire (s : State) (st : Strand) (failed : Bool) : Dwindles s (retire s st failed) := by
  unfold Machine.retire
  dsimp only
  refine (markTriggered s st).trans (trans ?_ (trans (modPart _ _ _) ((releaseHeld _ _).trans (dropUid _ _))))
  split
  · exact refl _
  · exact modPart _ _ _

theorem setStat (s : State) (part key : Nat) (stat : BitVec 4) (cause : Nat) : Dwindles s (setStat s part key stat cause) :=
  (modFn _ _ _).trans (sendMsix _ _ _)

theorem terminateUid (s : State) (uid cause : Nat) : Dwindles s (terminateUid s uid cause) := by
  unfold Machine.terminateUid
  split
  · exact refl s
  · next st _ =>
    have ended := (giveUp s uid st.part).trans ((countRegion _ (dieOf (cellOfUid s uid)) st.part st.sid.rcb 5 1).trans
      (retire _ st true))
    dsimp only
    split
    · exact ended.trans (setStat _ _ _ _ _)
    · exact ended

end Dwindles

/-- No strand of the machine has the number. -/
def NoUid (s : State) (uid : Nat) : Prop := ∀ x ∈ allStrands s, x.uid ≠ uid

theorem NoUid.of_dwindles {s t : State} {uid : Nat} (h : NoUid s uid) (k : Dwindles s t) : NoUid t uid := by
  intro x hx
  obtain ⟨y, hy, hu, -⟩ := k.ids x hx
  rw [← hu]
  exact h y hy

theorem noUid_dropUid (s : State) (uid : Nat) : NoUid (dropUid s uid) uid := by
  intro x hx
  rcases List.mem_append.mp hx with hx | hx
  · obtain ⟨y, hy, rfl⟩ := List.mem_map.mp hx
    simpa using (List.mem_filter.mp hy).2
  · obtain ⟨c, hc, hx⟩ := List.mem_flatMap.mp hx
    obtain ⟨d, -, rfl⟩ := List.mem_map.mp hc
    simpa using (List.mem_filter.mp hx).2

theorem noUid_retire (s : State) (st : Strand) (failed : Bool) : NoUid (retire s st failed) st.uid := by
  unfold retire
  exact noUid_dropUid _ _

theorem findUid_none {s : State} {uid : Nat} (h : findUid s uid = none) : NoUid s uid := by
  unfold findUid at h
  split at h
  · cases h
  · next hr =>
    rw [strandByUid, Option.map_eq_none_iff, List.find?_eq_none] at hr
    rw [List.find?_eq_none] at h
    intro x hx
    rcases List.mem_append.mp hx with hx | hx
    · obtain ⟨y, hy, rfl⟩ := List.mem_map.mp hx
      simpa using hr y hy
    · simpa using h x hx

theorem findUid_uid {s : State} {uid : Nat} {st : Strand} (h : findUid s uid = some st) : st.uid = uid := by
  unfold findUid at h
  split at h
  · next r q hr =>
    injection h with h; subst h
    obtain ⟨p, hp, hq⟩ := Option.map_eq_some_iff.mp hr
    injection hq with _ hq
    rw [← hq]
    simpa using List.find?_some hp
  · simpa using List.find?_some h

/-- A terminated strand is gone (R411). -/
theorem noUid_terminateUid (s : State) (uid cause : Nat) : NoUid (terminateUid s uid cause) uid := by
  unfold terminateUid
  split
  · next h => exact findUid_none h
  · next st h =>
    have hu := findUid_uid h
    dsimp only
    have gone : ∀ s', NoUid (retire s' st true) uid := fun s' => hu ▸ noUid_retire s' st true
    split
    · exact (gone _).of_dwindles (Dwindles.setStat _ _ _ _ _)
    · exact gone _

/-- Strands that are terminated in turn are gone. -/
theorem terminate_all (l : List Strand) (s : State) :
    let t := l.foldl (fun s st => terminateUid s st.uid 0) s
    Dwindles s t ∧ ∀ y ∈ l, NoUid t y.uid := by
  induction l generalizing s with
  | nil => exact ⟨Dwindles.refl s, fun _ h => absurd h List.not_mem_nil⟩
  | cons y l ih =>
    obtain ⟨h1, h2⟩ := ih (terminateUid s y.uid 0)
    refine ⟨(Dwindles.terminateUid s y.uid 0).trans h1, fun z hz => ?_⟩
    rcases List.mem_cons.mp hz with rfl | hz
    · exact (noUid_terminateUid s _ 0).of_dwindles h1
    · exact h2 z hz

/-- The commands of collectives that have not started on a die are dropped. -/
def dropCollCmds (part : Nat) (s : State) (d : Nat) : State :=
  if (fget (getDie s d).coll part).isSome then
    modColl s d part fun c => { c with cmds := [], slots := c.slots.map fun x => (x.1, { x.2 with waiting := [] }) }
  else s

theorem endStrands_eq (s : State) (part : Nat) :
    endStrands s part = (List.range 4).foldl (dropCollCmds part)
      ((strandsOf s part).foldl (fun s st => terminateUid s st.uid 0) s) := rfl

theorem dropCollCmds_same (part : Nat) (s : State) (d : Nat) :
    (dropCollCmds part s d).strands = s.strands ∧ (dropCollCmds part s d).ctxs = s.ctxs ∧
      (dropCollCmds part s d).hub = s.hub := by
  unfold dropCollCmds
  split <;> exact ⟨rfl, rfl, rfl⟩

/-- No command of the partition waits on a die. -/
def CollIdle (s : State) (part d : Nat) : Prop := (getColl s d part).cmds = [] ∨ (fget (getDie s d).coll part).isNone

theorem getDie_mod (s : State) (d : Nat) : getDie s (d % 4) = getDie s d :=
  congrArg s.dies.get (Fin.ext (Nat.mod_mod d 4))

theorem getDie_modDie_other (s : State) {d e : Nat} (f : Die → Die) (h : e % 4 ≠ d % 4) :
    getDie (modDie s d f) e = getDie s e :=
  vget_set_other _ _ _ _ (Fin.ofNat 4 d).isLt fun k => h (congrArg Fin.val k)

theorem collIdle_mod {s : State} {part d : Nat} : CollIdle s part (d % 4) ↔ CollIdle s part d := by
  simp only [CollIdle, getColl, getDie_mod]

theorem collIdle_dropCollCmds_same (part : Nat) (s : State) (d : Nat) : CollIdle (dropCollCmds part s d) part d := by
  unfold dropCollCmds
  split
  · left; simp [getColl, modColl, putColl]
  · next h => right; simpa using h

theorem collIdle_dropCollCmds {part : Nat} {s : State} {e : Nat} (h : CollIdle s part e) (d : Nat) :
    CollIdle (dropCollCmds part s d) part e := by
  by_cases he : e % 4 = d % 4
  · rw [← collIdle_mod, he, collIdle_mod]
    exact collIdle_dropCollCmds_same part s d
  · unfold dropCollCmds
    split
    · simpa only [CollIdle, getColl, modColl, putColl, getDie_modDie_other s _ he] using h
    · exact h

theorem collIdle_foldl (part : Nat) (l : List Nat) (s : State) (e : Nat) (h : CollIdle s part e ∨ e ∈ l) :
    CollIdle (l.foldl (dropCollCmds part) s) part e := by
  induction l generalizing s with
  | nil => exact h.resolve_right nofun
  | cons d l ih =>
    refine ih _ ?_
    rcases h with h | h
    · exact .inl (collIdle_dropCollCmds h d)
    · rcases List.mem_cons.mp h with rfl | h
      · exact .inl (collIdle_dropCollCmds_same part s e)
      · exact .inr h

/-- Step 1 of a teardown: no strand of the partition is left, nor a command of a collective (R427). -/
theorem endStrands_spec (s : State) (part : Nat) :
    Dwindles s (endStrands s part) ∧ (∀ x ∈ allStrands (endStrands s part), x.part ≠ part) ∧
      ∀ d, CollIdle (endStrands s part) part d := by
  rw [endStrands_eq]
  obtain ⟨h1, h2⟩ := terminate_all (strandsOf s part) s
  have h3 : Dwindles _ ((List.range 4).foldl (dropCollCmds part) _) :=
    Dwindles.foldl (fun s d => by
      obtain ⟨hs, hc, hh⟩ := dropCollCmds_same part s d
      exact Dwindles.of_same hs hc (by rw [hh]) (by rw [hh]) (by rw [hh])) (List.range 4)
      ((strandsOf s part).foldl (fun s st => terminateUid s st.uid 0) s)
  refine ⟨h1.trans h3, fun x hx hp => ?_, fun d => ?_⟩
  · obtain ⟨y, hy, hu, hyp⟩ := (h1.trans h3).ids x hx
    have hmem : y ∈ strandsOf s part := List.mem_filter.mpr ⟨hy, by simpa using hyp.trans hp⟩
    exact (h2 y hmem).of_dwindles h3 x hx hu.symm
  · rw [← collIdle_mod]
    exact collIdle_foldl part _ _ _ (.inr (List.mem_range.mpr (Nat.mod_lt d (by decide))))

/-- R427, R448: the end of a command; a teardown by its steps, `Dwindles` for the first. -/
theorem commandsEnd : CommandsEnd := by
  intro s
  refine ⟨fun hb => ?_, fun hb => ⟨fun l hl => ?_, fun hl hc he => ?_, fun hl hc p he => ⟨fun hbusy => ?_, fun hs hq => ?_⟩⟩⟩
  · rw [exec_mgmtCommandComplete, execMgmtCommandComplete, hb]; rfl
  · refine ⟨_, exec_complete_reply hb hl, ?_⟩
    generalize hs' : (modHub s fun h =>
      { h with reply := Vector.ofFn fun (i : Fin 32) => l.getD i 0, busy := false, readyReply := none }) = s'
    have hfn : getFn s' 0 = getFn s 0 := by rw [← hs']; simp [getFn]
    have hmsg : Messaged s (sendMsix s' 0 6) 0 6 := messaged_sendMsix 6 (by rw [hfn]) (by rw [hfn]) (by rw [hfn])
    refine ⟨?_, ?_, fun k => ?_, hmsg, ?_, ?_, ?_, ?_⟩
    case refine_3 => rw [← hs']; simp [sendMsix, Vector.get_eq_getElem]
    all_goals rw [← hs']; simp [sendMsix]
  · rw [exec_complete_wait hb hl, goOn_idle hc he]
  · have hgo : ((strandsOf s p).isEmpty && quietPart s p) ≠ true := by
      rw [ne_eq, Bool.and_eq_true, List.isEmpty_iff]
      rintro ⟨h1, h2⟩
      rcases hbusy with h | h
      · exact h h1
      · rw [h] at h2; cases h2
    obtain ⟨hd, hids, hcoll⟩ := endStrands_spec s p
    refine ⟨_, (exec_complete_wait hb hl).trans (congrArg _ ((goOn_teardown hc he).trans (if_neg hgo))),
      hd.reply.trans hl, hd.ending.trans he, hd.busy.trans hb, hids, hcoll⟩
  · have hgo : ((strandsOf s p).isEmpty && quietPart s p) = true := by rw [hs, hq]; rfl
    have hx := (exec_complete_wait hb hl).trans (congrArg _ ((goOn_teardown hc he).trans (if_pos hgo)))
    have spec := finishTeardown_spec s p
    generalize finishTeardown s p = u at hx spec
    obtain ⟨h1, h2, h3, h4, h5, h6, h7⟩ := spec
    exact ⟨_, hx, rfl, rfl, h1, h2, h3, h4, h5, h6, h7⟩

/-- Settles O59, assembled from its five parts. -/
theorem managementCommands : Obligations.ManagementCommands :=
  ⟨doorbellGates, logAndRecordCommands, attestationAndFirmware, fabricCapTestTelemetry, commandsEnd⟩

end Sys2Proof.Proofs

namespace Sys2Proof.Proofs

open Host (Outcome)
open Sys2Proof Machine

/-! # The clock (R16, R386)

Only `tickClock` writes the field `clock`. A lemma for each function that gives a state says that the state it
gives has the clock of the state it was given: as an equation where the state always comes out, under the
hypothesis that it comes out (`.ok`, `.next`, `some`) where the function can stop. The lemmas follow the order
of the model, so that each rests on those of the functions that it calls. -/

/-! ## Choices, folds and binds -/

@[simp] theorem ite_clock (c : Prop) [Decidable c] (s t : State) :
    (if c then s else t).clock = if c then s.clock else t.clock := apply_ite State.clock c s t

@[simp] theorem foldl_clock {α : Type} {f : State → α → State} (hf : ∀ s a, (f s a).clock = s.clock)
    (l : List α) (s : State) : (l.foldl f s).clock = s.clock := by
  induction l generalizing s with
  | nil => rfl
  | cons a l ih => exact (ih (f s a)).trans (hf s a)

theorem bind_eq_match {ε α β : Type} (x : Except ε α) (f : α → Except ε β) :
    x >>= f = match x with
      | .error e => .error e
      | .ok a => f a := by
  cases x <;> rfl

theorem bind_eq_ok {ε α β : Type} {x : Except ε α} {f : α → Except ε β} {b : β} :
    x >>= f = .ok b ↔ ∃ a, x = .ok a ∧ f a = .ok b := by
  cases x <;> simp [bind, Except.bind]

theorem foldl_snd_clock {α β : Type} {f : β × State → α → β × State} (hf : ∀ x a, (f x a).2.clock = x.2.clock)
    (l : List α) (x : β × State) : (l.foldl f x).2.clock = x.2.clock := by
  induction l generalizing x with
  | nil => rfl
  | cons a l ih => exact (ih (f x a)).trans (hf x a)

theorem foldlM_clock {α : Type} {f : State → α → Act State} (hf : ∀ s a t, f s a = .ok t → t.clock = s.clock)
    {l : List α} {s t : State} (h : l.foldlM f s = .ok t) : t.clock = s.clock := by
  induction l generalizing s with
  | nil => cases h; rfl
  | cons a l ih =>
    rw [List.foldlM_cons] at h
    obtain ⟨u, hu, h⟩ := bind_eq_ok.mp h
    exact (ih h).trans (hf _ _ _ hu)

/-! ## State operations and faults -/

@[simp] theorem countC_clock (s : State) (r : SRef) : (countC s r).clock = s.clock := by
  obtain ⟨-, -, -, hclock, -⟩ := countC_same s r
  exact hclock

@[simp] theorem modStrand_clock (s r f) : (modStrand s r f).clock = s.clock := by
  unfold modStrand
  split <;> simp

@[simp] theorem freshId_clock (s) : (freshId s).2.clock = s.clock := rfl

@[simp] theorem startHold_clock (s a) : (startHold s a).clock = s.clock := by unfold startHold; split <;> simp

@[simp] theorem dropAnswers_clock (s part va) : (dropAnswers s part va).clock = s.clock := rfl

@[simp] theorem dropReads_clock (s part) : (dropReads s part).clock = s.clock := rfl

@[simp] theorem modByUid_clock (s uid f) : (modByUid s uid f).clock = s.clock := rfl

@[simp] theorem chargeFor_clock (s p x) : (chargeFor s p x).clock = s.clock := rfl

@[simp] theorem perfFor_clock (s p evt n) : (perfFor s p evt n).clock = s.clock := by
  unfold perfFor
  split <;> simp

@[simp] theorem sendMsix_clock (s fn vec) : (sendMsix s fn vec).clock = s.clock := rfl

@[simp] theorem setLog_clock (s d l) : (setLog s d l).clock = s.clock := by simp [setLog]

@[simp] theorem drainLog_clock (s d) : (drainLog s d).clock = s.clock := by unfold drainLog; split <;> simp

@[simp] theorem addLog_clock (s d e) : (addLog s d e).clock = s.clock := by simp [addLog]

@[simp] theorem setPend_clock (s st) : (setPend s st).clock = s.clock := by
  unfold setPend
  split
  · simp
  · split <;> simp

@[simp] theorem queueFault_clock (s r q) : (queueFault s r q).clock = s.clock := by
  unfold queueFault
  split <;> simp

@[simp] theorem logFault_clock (s cell part q) : (logFault s cell part q).clock = s.clock := by
  simp [logFault]

@[simp] theorem noteError_clock (s cell t) : (noteError s cell t).clock = s.clock := by simp [noteError]

@[simp] theorem clearFresh_clock (s a) : (clearFresh s a).clock = s.clock := by
  unfold clearFresh
  split <;> simp

@[simp] theorem firstDetection_clock (s t) : (firstDetection s t).1.clock = s.clock := by
  grind [firstDetection, clearFresh_clock]

@[simp] theorem raiseAt_clock (s r q) : (raiseAt s r q).clock = s.clock := by
  grind [raiseAt, firstDetection_clock, dropAnswers_clock, queueFault_clock, noteError_clock, logFault_clock]

@[simp] theorem raiseWord_clock (s w t) : (raiseWord s w t).clock = s.clock := by
  grind [raiseWord, putStrand_clock, raiseAt_clock]

@[simp] theorem raiseLate_clock (s r e index t) : (raiseLate s r e index t).clock = s.clock := by
  unfold raiseLate
  split <;> simp

/-! ## The forms of issue -/

/-- For a body that may fall back on the state before its issue; `issueWith_clock` is for the others. -/
theorem issueWith_clock_of_eq {s t : State} {tk : Tk} {body : Walker → Strand → State → Act State}
    (hb : ∀ w st u t, u.clock = s.clock → body w st u = .ok t → t.clock = s.clock)
    (h : issueWith s tk body = .next t) : t.clock = s.clock := by
  unfold issueWith at h
  dsimp only at h
  split at h
  · cases h
  · split at h <;> cases h
    next hx =>
      obtain ⟨st', -, hx⟩ := bind_eq_ok.mp hx
      exact hb _ _ _ _ (by simp) hx
    all_goals simp

theorem issueWith_clock {s t : State} {tk : Tk} {body : Walker → Strand → State → Act State}
    (hb : ∀ w st u t, body w st u = .ok t → t.clock = u.clock) (h : issueWith s tk body = .next t) :
    t.clock = s.clock :=
  issueWith_clock_of_eq (fun w st u t hu hx => (hb w st u t hx).trans hu) h

theorem issueL_clock {s t : State} {tk : Tk} {body : SRef → Strand → State → Act (Strand × State)}
    (hb : ∀ r st u x t, body r st u = .ok (x, t) → t.clock = u.clock) (h : issueL s tk body = .next t) :
    t.clock = s.clock := by
  unfold issueL at h
  refine issueWith_clock (fun _ _ _ _ h => ?_) h
  simp only [bind_eq_ok, Prod.exists] at h
  grind [putStrand_clock]

theorem issueM_clock {s t : State} {tk : Tk} {body : SRef → Strand → State → Act (Strand × State)}
    (hb : ∀ r st u x t, body r st u = .ok (x, t) → t.clock = u.clock) (h : issueM s tk body = .next t) :
    t.clock = s.clock := by
  unfold issueM at h
  refine issueWith_clock (fun _ _ _ _ h => ?_) h
  simp only [bind_eq_ok, Prod.exists] at h
  grind [putStrand_clock]

theorem issueStore_clock {s t : State} {body : SRef → Strand → State → Act (SEntry × State)}
    (hb : ∀ r st u x t, body r st u = .ok (x, t) → t.clock = u.clock) (h : issueStore s body = .next t) :
    t.clock = s.clock := by
  unfold issueStore at h
  refine issueWith_clock (fun _ _ _ _ h => ?_) h
  simp only [bind_eq_ok, Prod.exists] at h
  grind [putStrand_clock]

theorem issueLocal_clock {s tk body t} (h : issueLocal s tk body = .next t) : t.clock = s.clock := by
  unfold issueLocal at h
  refine issueWith_clock (fun _ _ _ _ h => ?_) h
  simp only [bind_eq_ok] at h
  grind [putStrand_clock]

theorem issueCharged_clock {s tk cost body t} (h : issueCharged s tk cost body = .next t) :
    t.clock = s.clock := by
  unfold issueCharged at h
  refine issueWith_clock (fun _ _ _ _ h => ?_) h
  simp only [bind_eq_ok] at h
  grind [chargeStrand_clock, putStrand_clock]

theorem issueC_clock {s body t} (h : issueC s body = .next t) : t.clock = s.clock := by
  unfold issueC at h
  refine issueWith_clock (fun _ _ _ _ h => ?_) h
  simp only [bind_eq_ok] at h
  grind [countC_clock, putStrand_clock]

/-! ## Words of the control core -/

theorem binC_clock {s lat d a b f t} (h : binC s lat d a b f = .next t) : t.clock = s.clock := issueC_clock h

theorem unC_clock {s lat d a f t} (h : unC s lat d a f = .next t) : t.clock = s.clock := issueC_clock h

theorem divC_clock {s lat d a b signed pick t} (h : divC s lat d a b signed pick = .next t) :
    t.clock = s.clock :=
  issueC_clock h

theorem execNop_clock {t tk s u} (h : execNop t tk s = .next u) : u.clock = s.clock := by
  unfold execNop at h
  split at h
  · refine issueWith_clock (fun _ _ _ _ h => ?_) h
    grind [stall, putStrand_clock]
  · split at h
    · exact issueC_clock h
    · exact issueLocal_clock h

theorem issueAll_clock {s body t} (h : issueAll s body = .next t) : t.clock = s.clock := by
  unfold issueAll at h
  refine issueWith_clock (fun _ _ _ _ h => ?_) h
  simp only [bind_eq_ok] at h
  grind [putStrand_clock, countC_clock]

theorem execLoopEndReached_clock {s t} (h : execLoopEndReached s = .next t) : t.clock = s.clock := by
  cases h
  simp

@[simp] theorem raiseTurn_clock (s w t) : (raiseTurn s w t).clock = s.clock := by
  unfold raiseTurn
  split
  · simp
  · split <;> simp

/-! ## Translation and memory -/

@[simp] theorem memWrite_clock (s pa n v) : (memWrite s pa n v).clock = s.clock := rfl

@[simp] theorem l2Add_clock (s line) : (l2Add s line).clock = s.clock := rfl

@[simp] theorem l2Drop_clock (s line) : (l2Drop s line).clock = s.clock := rfl

@[simp] theorem l2Read_clock (s lines) : (l2Read s lines).clock = s.clock := by simp [l2Read]

theorem translate_clock {s die cell part u ea x t} (h : translate s die cell part u ea = .ok (x, t)) :
    t.clock = s.clock := by
  obtain ⟨-, -, -, -, hclock, -⟩ := translate_same h
  exact hclock

@[simp] theorem advanceAccess_clock (s r id) : (advanceAccess s r id).clock = s.clock := by
  unfold advanceAccess
  split
  · simp
  · split <;> simp

@[simp] theorem dropL1_clock (s cell part) : (dropL1 s cell part).clock = s.clock := rfl

@[simp] theorem dropLine_clock (s cell part k msa line) : (dropLine s cell part k msa line).clock = s.clock :=
  rfl

@[simp] theorem addLine_clock (s cell l) : (addLine s cell l).clock = s.clock := rfl

@[simp] theorem updateLine_clock (s cell part k msa pa n v) :
    (updateLine s cell part k msa pa n v).clock = s.clock :=
  rfl

@[simp] theorem storeL1_clock (s r part a) : (storeL1 s r part a).clock = s.clock := by simp [storeL1]

@[simp] theorem touchFor_clock (s p hm lines alloc) : (touchFor s p hm lines alloc).clock = s.clock :=
  foldl_clock (fun s l => by cases hm <;> simp) lines s

@[simp] theorem touchLines_clock (s r k lines alloc) : (touchLines s r k lines alloc).clock = s.clock := by
  simp [touchLines]

@[simp] theorem swapLine_clock (s line m) : (swapLine s line m).clock = s.clock := rfl

@[simp] theorem settleLines_clock (s pa n) : (settleLines s pa n).clock = s.clock :=
  foldl_clock (fun s l => by grind [swapLine_clock]) _ s

@[simp] theorem atomicLine_clock (s line msa) : (atomicLine s line msa).1.clock = s.clock := by
  grind [atomicLine, swapLine_clock]

@[simp] theorem atomicAt_clock (s pa size msa f) : (atomicAt s pa size msa f).2.clock = s.clock := by
  simp [atomicAt]

@[simp] theorem failAccess_clock (s r st a t) : (failAccess s r st a t).clock = s.clock := by
  grind [failAccess, putStrand_clock, addLog_clock, raiseLate_clock]

@[simp] theorem failCheck_clock (s r st a c) : (failCheck s r st a c).clock = s.clock := by simp [failCheck]

@[simp] theorem performLoad_clock (s r st a c) : (performLoad s r st a c).clock = s.clock := by
  grind [performLoad, dropL1_clock, putStrand_clock, failAccess_clock, failCheck_clock, settleLines_clock,
    addLine_clock, touchLines_clock]

@[simp] theorem performStore_clock (s r st a c) : (performStore s r st a c).clock = s.clock := by
  simp [performStore]

@[simp] theorem performAtomic_clock (s r st a c) : (performAtomic s r st a c).clock = s.clock := by
  simp [performAtomic]

@[simp] theorem performFence_clock (s r st a k) : (performFence s r st a k).clock = s.clock := by
  unfold performFence
  split <;> simp

theorem execAccessPerform_clock {r k c s t} (h : execAccessPerform r k c s = .next t) :
    t.clock = s.clock := by
  unfold execAccessPerform at h
  grind [performFence_clock, performLoad_clock, performStore_clock, performAtomic_clock]

@[simp] theorem countFor_clock (s p d n out sent) : (countFor s p d n out sent).clock = s.clock := by
  unfold countFor
  split <;> simp

@[simp] theorem countBytes_clock (s r a n) : (countBytes s r a n).clock = s.clock := by simp [countBytes]

@[simp] theorem performAway_clock (s r st a b) : (performAway s r st a b).clock = s.clock := by
  unfold performAway
  grind [failAccess_clock, dropL1_clock, addLine_clock, countBytes_clock, putStrand_clock, storeL1_clock]

/-! ## Scalar accesses and strand words -/

theorem accessC_clock {s k u cls cp size base off f t} (h : accessC s k u cls cp size base off f = .next t) :
    t.clock = s.clock := by
  unfold accessC at h
  refine issueWith_clock (fun _ _ _ _ h => ?_) h
  simp only [bind_eq_ok, Prod.exists] at h
  grind [→ translate_clock, freshId_clock, countC_clock, putStrand_clock]

@[simp] theorem prefetchLine_clock (s r st x) : (prefetchLine s r st x).clock = s.clock := by
  simp [prefetchLine]

theorem execPfl_clock {xlat base off s t} (h : execPfl xlat base off s = .next t) : t.clock = s.clock := by
  unfold execPfl at h
  refine issueWith_clock (fun _ _ _ _ h => ?_) h
  simp only [bind_eq_ok] at h
  grind [putStrand_clock, → translate_clock, prefetchLine_clock, countC_clock]

@[simp] theorem markTriggered_clock (s st) : (markTriggered s st).clock = s.clock := by simp [markTriggered]

theorem waitWord_clock {s cond t} (h : waitWord s cond = .next t) : t.clock = s.clock := by
  unfold waitWord at h
  refine issueWith_clock (fun _ _ _ _ h => ?_) h
  simp only [bind_eq_ok] at h
  grind [countC_clock, putStrand_clock]

theorem flagLoad_clock {s w st ea cls acq t} (h : flagLoad s w st ea cls acq = .ok t) :
    t.clock = s.clock := by
  grind [flagLoad, bind_eq_match, → translate_clock, freshId_clock, putStrand_clock]

theorem execWaitFlag_clock {ga oc s t} (h : execWaitFlag ga oc s = .next t) : t.clock = s.clock := by
  unfold execWaitFlag at h
  refine issueWith_clock (fun _ _ _ _ h => ?_) h
  grind [bind_eq_match, putStrand_clock, countC_clock, → flagLoad_clock]

theorem execWaitFlagPoll_clock {s t} (h : execWaitFlagPoll s = .next t) : t.clock = s.clock := by
  grind [execWaitFlagPoll, → flagLoad_clock, startHold_clock, raiseWord_clock]

theorem execWaitConditionTrue_clock {s t} (h : execWaitConditionTrue s = .next t) : t.clock = s.clock := by
  cases h
  simp

theorem execTrig_clock {s t} (h : execTrig s = .next t) : t.clock = s.clock := by
  unfold execTrig at h
  refine issueWith_clock (fun _ _ _ _ h => ?_) h
  grind [markTriggered_clock, countC_clock, putStrand_clock]

theorem execTrap_clock {imm s t} (h : execTrap imm s = .next t) : t.clock = s.clock := by
  unfold execTrap at h
  refine issueWith_clock (fun _ _ _ _ h => ?_) h
  grind [countC_clock, putStrand_clock, raiseAt_clock]

theorem execFence_clock {sc k mask s t} (h : execFence sc k mask s = .next t) : t.clock = s.clock := by
  unfold execFence at h
  refine issueWith_clock (fun _ _ _ _ h => ?_) h
  grind [freshId_clock, countC_clock, putStrand_clock]

theorem stopAt_clock {s why ready t} (h : stopAt s why ready = .next t) : t.clock = s.clock := by
  unfold stopAt at h
  refine issueWith_clock (fun _ _ _ _ h => ?_) h
  simp only [bind_eq_ok] at h
  grind [putStrand_clock, countC_clock]

theorem execOvl_clock {n s t} (h : execOvl n s = .next t) : t.clock = s.clock := by
  unfold execOvl at h
  refine issueWith_clock (fun _ _ _ _ h => ?_) h
  simp only [bind_eq_ok] at h
  grind [freshId_clock, putStrand_clock, countC_clock]

@[simp] theorem raiseDrain_clock (s r st) : (raiseDrain s r st).clock = s.clock := by simp [raiseDrain]

theorem execBarrierComplete_clock {part launch s t} (h : execBarrierComplete part launch s = .next t) :
    t.clock = s.clock := by
  unfold execBarrierComplete at h
  split at h
  · cases h; rfl
  · dsimp only at h
    split at h <;> cases h
    · rfl
    · exact foldl_clock (fun u p => by simp) _ s

/-! ## Runs of bytes and images -/

theorem translateRun_clock {die cell part u fuel va n s ps t}
    (h : translateRun die cell part u fuel va n s = .ok (ps, t)) : t.clock = s.clock := by
  induction fuel generalizing va n s ps with
  | zero => cases h; rfl
  | succ fuel ih => grind [translateRun, bind_eq_match, → translate_clock]

theorem runOf_clock {s die cell part u va n x' t} (h : runOf s die cell part u va n = .ok (x', t)) :
    t.clock = s.clock := by
  simp only [runOf] at h
  grind [trap, → translateRun_clock]

theorem takeAnswer_clock {s q x t} (h : takeAnswer s q = .ok (x, t)) : t.clock = s.clock := by
  unfold takeAnswer at h
  grind [trap, modHub_clock]

theorem readPiece_clock {s die part p x' t} (h : readPiece s die part p = .ok (x', t)) :
    t.clock = s.clock := by
  grind [readPiece, bind_eq_match, settleLines_clock, → takeAnswer_clock]

theorem readPieces_clock {die part ps s bs t} (h : readPieces die part ps s = .ok (bs, t)) :
    t.clock = s.clock := by
  induction ps generalizing s bs with
  | nil => cases h; rfl
  | cons p ps ih => grind [readPieces, bind_eq_match, → readPiece_clock]

theorem readVirt_clock {s die cell part u va n x' t} (h : readVirt s die cell part u va n = .ok (x', t)) :
    t.clock = s.clock := by
  grind [readVirt, bind_eq_match, → runOf_clock, → readPieces_clock]

theorem writePieces_clock {die part ps bs s t} (h : writePieces die part ps bs s = .ok t) :
    t.clock = s.clock := by
  induction ps generalizing bs s with
  | nil => cases h; rfl
  | cons p ps ih => grind [writePieces, bind_eq_match, → takeAnswer_clock, memWrite_clock]

theorem writeVirt_clock {s die cell part u va bs t} (h : writeVirt s die cell part u va bs = .ok t) :
    t.clock = s.clock := by
  grind [writeVirt, bind_eq_match, → runOf_clock, → writePieces_clock]

theorem readWords_clock {s die cell part u va n x' t} (h : readWords s die cell part u va n = .ok (x', t)) :
    t.clock = s.clock := by
  grind [readWords, bind_eq_match, → readVirt_clock]

theorem readImageAs_clock {u lim s die part addr winMax x' t}
    (h : readImageAs u lim s die part addr winMax = .ok (x', t)) : t.clock = s.clock := by
  unfold readImageAs at h
  obtain ⟨-, -, h⟩ := bind_eq_ok.mp h
  obtain ⟨⟨hw, s1⟩, h1, h⟩ := bind_eq_ok.mp h
  rw [← readWords_clock h1]
  dsimp only at h
  split at h
  · cases h; rfl
  obtain ⟨b, -, h⟩ := bind_eq_ok.mp h
  split at h
  · cases h; rfl
  obtain ⟨⟨ow, s2⟩, h2, h⟩ := bind_eq_ok.mp h
  rw [← readWords_clock h2]
  dsimp only at h
  split at h
  · cases h; rfl
  obtain ⟨b, -, h⟩ := bind_eq_ok.mp h
  split at h
  · cases h; rfl
  obtain ⟨⟨lw, s3⟩, h3, h⟩ := bind_eq_ok.mp h
  obtain ⟨⟨bw, s4⟩, h4, h⟩ := bind_eq_ok.mp h
  obtain ⟨⟨pw, s5⟩, h5, h⟩ := bind_eq_ok.mp h
  obtain ⟨⟨ww, s6⟩, h6, h⟩ := bind_eq_ok.mp h
  cases h
  rw [readWords_clock h6, readWords_clock h5, readWords_clock h4, readWords_clock h3]

theorem readImage_clock {lim s die part addr winMax x' t}
    (h : readImage lim s die part addr winMax = .ok (x', t)) : t.clock = s.clock := by
  grind [readImage, → readImageAs_clock]

theorem loadOverlay_clock {s cell part im n t} (h : loadOverlay s cell part im n = .ok t) :
    t.clock = s.clock := by
  simp only [loadOverlay] at h
  grind [trap, bind_eq_match, → readWords_clock, modCtx_clock]

theorem execOverlayRefill_clock {s t} (h : execOverlayRefill s = .next t) : t.clock = s.clock := by
  grind [execOverlayRefill, raiseDrain_clock, putStrand_clock, → loadOverlay_clock, modStrand_clock,
    startHold_clock, raiseAt_clock]

/-! ## Commands, regions, launches and service calls -/

theorem pushCopy_clock {s tag mk t} (h : pushCopy s tag mk = .next t) : t.clock = s.clock := by
  unfold pushCopy at h
  refine issueWith_clock (fun _ _ _ _ h => ?_) h
  simp only [bind_eq_ok] at h
  grind [freshId_clock, modCell_clock, countC_clock, putStrand_clock]

theorem popRecord_clock {s lat ga ready get put t} (h : popRecord s lat ga ready get put = .next t) :
    t.clock = s.clock := by
  unfold popRecord at h
  refine issueWith_clock (fun _ _ _ _ h => ?_) h
  grind [trap, stall, bind_eq_match, countC_clock, dropL1_clock, putStrand_clock]

theorem readBlock_clock {s die part addr x' t} (h : readBlock s die part addr = .ok (x', t)) :
    t.clock = s.clock := by
  grind [readBlock, → readWords_clock, dropAnswers_clock]

theorem readChain_clock {die part fuel addr s x' t} (h : readChain die part fuel addr s = .ok (x', t)) :
    t.clock = s.clock := by
  induction fuel generalizing addr s x' t with
  | zero => cases h; rfl
  | succ fuel ih =>
    unfold readChain at h
    split at h
    · cases h; rfl
    obtain ⟨⟨b, s1⟩, h1, h⟩ := bind_eq_ok.mp h
    rw [← readBlock_clock h1]
    dsimp only at h
    split at h
    · cases h; rfl
    split at h
    · cases h; rfl
    split at h
    · cases h; rfl
    obtain ⟨⟨rest, s2⟩, h2, h⟩ := bind_eq_ok.mp h
    cases h
    exact ih h2

theorem admitRegion_clock {s die part addr x' t} (h : admitRegion s die part addr = .ok (x', t)) :
    t.clock = s.clock := by
  unfold admitRegion at h
  split at h
  · cases h; simp
  · obtain ⟨⟨c, s1⟩, h1, h⟩ := bind_eq_ok.mp h
    rw [← readChain_clock h1]
    dsimp only at h
    split at h
    · cases h; simp
    · split at h <;> cases h <;> simp

@[simp] theorem logTrap_clock (s die part t) : (logTrap s die part t).clock = s.clock := by simp [logTrap]

theorem addUnit_clock {s c t} (h : addUnit s c = .ok t) : t.clock = s.clock := by
  simp only [addUnit, bind_eq_ok, Prod.exists, ite_eq_iff] at h
  grind [→ translate_clock, atomicAt_clock, → takeAnswer_clock]

@[simp] theorem addVirt_clock (s die part va n) : (addVirt s die part va n).clock = s.clock := by
  grind [addVirt, → addUnit_clock, dropAnswers_clock, logTrap_clock, modHub_clock, startHold_clock]

@[simp] theorem pumpAdds_clock (s) : (pumpAdds s).clock = s.clock := by simp [pumpAdds]

@[simp] theorem countRegion_clock (s die part rcb k n) :
    (countRegion s die part rcb k n).clock = s.clock := by
  unfold countRegion
  split <;> simp

@[simp] theorem flushEnergy_clock (s die r) : (flushEnergy s die r).clock = s.clock := by simp [flushEnergy]

@[simp] theorem flushChain_clock (s die part rcb) : (flushChain s die part rcb).clock = s.clock := by
  simp [flushChain]

@[simp] theorem appendLaunch_clock (s die part l im handlerOf after) :
    (appendLaunch s die part l im handlerOf after).2.clock = s.clock := by
  simp [appendLaunch]

theorem acceptLaunch_clock {s die part w handlerOf after x' t}
    (h : acceptLaunch s die part w handlerOf after = .ok (x', t)) : t.clock = s.clock := by
  unfold acceptLaunch at h
  split at h
  · cases h; rfl
  obtain ⟨⟨a, s1⟩, h1, h⟩ := bind_eq_ok.mp h
  rw [← admitRegion_clock h1]
  dsimp only at h
  split at h
  · cases h; rfl
  · cases h; rfl
  split at h
  · cases h; simp
  · cases h
  next him => cases h; exact readImageAs_clock him
  next him => grind [→ readImageAs_clock, appendLaunch_clock]

theorem callWord_clock {s word n ga gb ready early t} (h : callWord s word n ga gb ready early = .next t) :
    t.clock = s.clock := by
  unfold callWord at h
  refine issueWith_clock (fun _ _ _ _ h => ?_) h
  simp only [bind_eq_ok] at h
  grind [bind_eq_match, countC_clock, putStrand_clock, → translate_clock, freshId_clock]

theorem sysWord_clock {s word ga gb t} (h : sysWord s word ga gb = .next t) : t.clock = s.clock :=
  callWord_clock h

theorem sysCode_clock {x s x' t} (h : sysCode x s = .ok (x', t)) : t.clock = s.clock := by grind [sysCode]

theorem sysPending_clock {s v x' t} (h : sysPending s v = .ok (x', t)) : t.clock = s.clock := by
  grind [sysPending, modHub_clock]

theorem callInval_clock {s uid c d x' t} (h : callInval s uid c d = .ok (x', t)) : t.clock = s.clock := by
  grind [callInval, → sysCode_clock, → sysPending_clock]

@[simp] theorem giveFrames_clock (s part fs) : (giveFrames s part fs).clock = s.clock := rfl

theorem callFgive_clock {s d x' t} (h : callFgive s d = .ok (x', t)) : t.clock = s.clock := by
  grind [callFgive, → sysCode_clock, giveFrames_clock]

theorem callFtake_clock {s uid c d x' t} (h : callFtake s uid c d = .ok (x', t)) : t.clock = s.clock := by
  grind [callFtake, → sysCode_clock, → sysPending_clock]

theorem callMread_clock {s r st c d x' t} (h : callMread s r st c d = .ok (x', t)) : t.clock = s.clock := by
  unfold callMread at h
  dsimp only at h
  split at h
  · exact sysCode_clock h
  split at h
  · exact sysCode_clock h
  obtain ⟨⟨ps, s1⟩, h1, h⟩ := bind_eq_ok.mp h
  rw [← runOf_clock h1, sysCode_clock h]
  exact foldl_clock (fun u p => by simp) _ _

theorem serveCall_clock {s r st c w x' t} (h : serveCall s r st c w = .ok (x', t)) : t.clock = s.clock := by
  grind [serveCall, bind_eq_match, → acceptLaunch_clock, → callInval_clock, → callFgive_clock,
    → callFtake_clock, → callMread_clock]

@[simp] theorem takeCall_clock (s r st c) : (takeCall s r st c).clock = s.clock := by
  grind [takeCall, → serveCall_clock, modStrand_clock, startHold_clock, raiseLate_clock]

@[simp] theorem pumpCalls_clock (s) : (pumpCalls s).clock = s.clock :=
  foldl_clock (fun s p => by grind [takeCall_clock]) _ s

/-! ## Scratchpad and the copy engine -/

@[simp] theorem noteRows_clock (s r part e gs) : (noteRows s r part e gs).clock = s.clock := by
  simp [noteRows]

@[simp] theorem spmWrite_clock (s cell g v) : (spmWrite s cell g v).clock = s.clock := rfl

@[simp] theorem chargeRows_clock (s r gs) : (chargeRows s r gs).clock = s.clock := by simp [chargeRows]

@[simp] theorem setHandle_clock (s part slot h) : (setHandle s part slot h).clock = s.clock := rfl

@[simp] theorem addPin_clock (s part a) : (addPin s part a).clock = s.clock := by
  unfold addPin
  split <;> simp

@[simp] theorem dropPin_clock (s part a) : (dropPin s part a).clock = s.clock := by
  unfold dropPin
  split <;> simp

theorem issueCopy_clock {s r st index pos seen rset handles w g t}
    (h : issueCopy s r st index pos seen rset handles w g = .ok t) : t.clock = s.clock := by
  simp only [issueCopy, bind_eq_ok, ite_eq_iff] at h
  grind [freshId_clock, addPin_clock, modCell_clock, putStrand_clock]

@[simp] theorem giveRecord_clock (s cmd w) : (giveRecord s cmd w).clock = s.clock := by simp [giveRecord]

@[simp] theorem runHandle_clock (s cmd) : (runHandle s cmd).clock = s.clock := by
  unfold runHandle
  split <;> simp

@[simp] theorem translateCuts_clock (cell part code l s) :
    (translateCuts cell part code l s).2.1.clock = s.clock := by
  induction l generalizing s with
  | nil => rfl
  | cons c l ih => grind [translateCuts, → translate_clock]

@[simp] theorem setChan_clock (s cell ch r) : (setChan s cell ch r).clock = s.clock := rfl

@[simp] theorem raiseDeparted_clock (s cell uid q) : (raiseDeparted s cell uid q).clock = s.clock := by
  unfold raiseDeparted
  split <;> simp

@[simp] theorem raiseChan_clock (s cell ch run t) : (raiseChan s cell ch run t).clock = s.clock := by
  grind [raiseChan, dropAnswers_clock, setChan_clock, raiseDeparted_clock, raiseAt_clock]

@[simp] theorem tryRun_clock (s cell ch) : (tryRun s cell ch).clock = s.clock := by
  grind [tryRun, translateCuts_clock, setChan_clock, raiseChan_clock, startHold_clock]

@[simp] theorem clearBinds_clock (s cell part op) : (clearBinds s cell part op).clock = s.clock := by
  unfold clearBinds
  split <;> simp

@[simp] theorem startHead_clock (s cell) : (startHead s cell).clock = s.clock := by
  grind [startHead, modCell_clock, setChan_clock, tryRun_clock, clearBinds_clock, runHandle_clock]

theorem execCopyStart_clock {cell s t} (h : execCopyStart cell s = .next t) : t.clock = s.clock := by
  rw [← Outcome.next.inj h, startHead_clock]
  exact foldl_clock (fun u ch => tryRun_clock u cell ch) _ s

theorem sourceBytes_clock {s cell c src part ps x' t} (h : sourceBytes s cell c src part ps = .ok (x', t)) :
    t.clock = s.clock := by
  simp only [sourceBytes] at h
  grind [trap, → readPieces_clock]

@[simp] theorem writeSegs_clock (s cell gs bs) : (writeSegs s cell gs bs).clock = s.clock := by
  induction gs generalizing s bs with
  | nil => rfl
  | cons g gs ih => simp [writeSegs, ih]

theorem putBytes_clock {s cell part c dst ps bs t} (h : putBytes s cell part c dst ps bs = .ok t) :
    t.clock = s.clock := by
  grind [putBytes, → writePieces_clock, writeSegs_clock, modCtx_clock]

@[simp] theorem touchPieces_clock (s p writes ps) : (touchPieces s p writes ps).clock = s.clock := by
  simp [touchPieces]

theorem finishCopy_clock {s cell ch cmd flagPieces t} (h : finishCopy s cell ch cmd flagPieces = .ok t) :
    t.clock = s.clock := by
  grind [finishCopy, bind_eq_match, → writePieces_clock, setChan_clock, dropPin_clock, modByUid_clock,
    giveRecord_clock]

theorem moveCopy_clock {s cell ch run t} (h : moveCopy s cell ch run = .ok t) : t.clock = s.clock := by
  unfold moveCopy at h
  dsimp only at h
  split at h
  · obtain ⟨-, -, h⟩ := bind_eq_ok.mp h
    split at h
    · exact finishCopy_clock h
    obtain ⟨⟨bs, s1⟩, h1, h⟩ := bind_eq_ok.mp h
    obtain ⟨s2, h2, h⟩ := bind_eq_ok.mp h
    rw [finishCopy_clock h, ← sourceBytes_clock h1, ← putBytes_clock h2]
    simp
  · cases h; rfl

theorem execCopyComplete_clock {cell ch s t} (h : execCopyComplete cell ch s = .next t) :
    t.clock = s.clock := by
  grind [execCopyComplete, → moveCopy_clock, raiseChan_clock, startHold_clock]

theorem execCopyChannelFault_clock {cell ch bytes s t} (h : execCopyChannelFault cell ch bytes s = .next t) :
    t.clock = s.clock := by
  unfold execCopyChannelFault at h
  split at h
  · cases h; rfl
  split at h
  · cases h; rfl
  split at h
  · dsimp only at h
    split at h
    · cases h; rfl
    split at h <;> cases h
    · simp
    · simp
    · rfl
    next hx =>
      obtain ⟨⟨bs, s1⟩, h1, h2⟩ := bind_eq_ok.mp hx
      rw [raiseChan_clock, ← sourceBytes_clock h1, ← putBytes_clock h2]
      split
      · split <;> simp
      · rfl
      · simp
  · cases h; rfl

@[simp] theorem abandonRun_clock (s cell ch) : (abandonRun s cell ch).clock = s.clock := by
  unfold abandonRun
  split
  · rfl
  next run _ =>
    split
    · simp only [giveRecord_clock, dropPin_clock]
      exact (foldl_clock (fun u (p : _ × Piece) => dropAnswers_clock u run.cmd.part p.2.va) _ _).trans
        (setChan_clock _ _ _ _)
    · simp

@[simp] theorem dropCommands_clock (s cell uid) : (dropCommands s cell uid).clock = s.clock :=
  foldl_clock (fun s c => by split <;> simp) _ s

@[simp] theorem abandonCopies_clock (s cell uid) : (abandonCopies s cell uid).clock = s.clock := by
  simp [abandonCopies]

/-! ## The load engine -/

theorem regWord_clock {s k body t} (h : regWord s k body = .next t) : t.clock = s.clock := by
  unfold regWord at h
  refine issueWith_clock (fun _ _ _ _ h => ?_) h
  simp only [bind_eq_ok, Prod.exists] at h
  grind [putStrand_clock]

theorem execSdset_clock {k sd w a second s t} (h : execSdset k sd w a second s = .next t) :
    t.clock = s.clock := by
  unfold execSdset at h
  refine issueL_clock (fun _ _ _ _ _ h => ?_) h
  grind [bind_eq_match]

@[simp] theorem readRows_clock (s r st gs) : (readRows s r st gs).clock = s.clock := by simp [readRows]

theorem execLdq_clock {tk t6 base off s t} (h : execLdq tk t6 base off s = .next t) : t.clock = s.clock := by
  unfold execLdq at h
  refine issueL_clock (fun _ _ _ _ _ h => ?_) h
  cases t6 <;> simp only [bind_eq_ok] at h <;> grind [readRows_clock]

theorem execLdqs_clock {tk sz sd base off s t} (h : execLdqs tk sz sd base off s = .next t) :
    t.clock = s.clock := by
  unfold execLdqs at h
  refine issueL_clock (fun _ _ _ _ _ h => ?_) h
  simp only [bind_eq_ok] at h
  grind [readRows_clock]

theorem execLdg_clock {tk sz base off s t} (h : execLdg tk sz base off s = .next t) : t.clock = s.clock := by
  unfold execLdg at h
  refine issueL_clock (fun r st u x t h => ?_) h
  obtain ⟨a, -, h⟩ := bind_eq_ok.mp h
  obtain ⟨-, -, h⟩ := bind_eq_ok.mp h
  split at h
  · cases h
  · obtain ⟨-, -, h⟩ := bind_eq_ok.mp h
    obtain ⟨st', -, h⟩ := bind_eq_ok.mp h
    cases h
    simp

theorem execLdpk_clock {tk sz base off s t} (h : execLdpk tk sz base off s = .next t) :
    t.clock = s.clock := by
  unfold execLdpk at h
  refine issueL_clock (fun _ _ _ _ _ h => ?_) h
  simp only [bind_eq_ok] at h
  grind [readRows_clock]

theorem execLdmq_clock {tk elem oc cp aq base off s t} (h : execLdmq tk elem oc cp aq base off s = .next t) :
    t.clock = s.clock := by
  unfold execLdmq at h
  refine issueL_clock (fun _ _ _ _ _ h => ?_) h
  simp only [bind_eq_ok, Prod.exists] at h
  grind [→ translate_clock, freshId_clock]

theorem execOmfill_clock {tk d sd base off s t} (h : execOmfill tk d sd base off s = .next t) :
    t.clock = s.clock := by
  unfold execOmfill at h
  refine issueL_clock (fun _ _ _ _ _ h => ?_) h
  simp only [bind_eq_ok] at h
  grind [chargeStrand_clock, readRows_clock]

theorem execOmfillComplete_clock {r om s t} (h : execOmfillComplete r om s = .next t) :
    t.clock = s.clock := by
  grind [execOmfillComplete, putStrand_clock, modCell_clock]

theorem copyWord_clock {s tk i handles w t} (h : copyWord s tk i handles w = .next t) :
    t.clock = s.clock := by
  unfold copyWord at h
  refine issueL_clock (fun _ _ _ _ _ h => ?_) h
  grind [bind_eq_match, → issueCopy_clock]

theorem startRps_clock {s r st index pos seen dbl toC toM m ea x' t}
    (h : startRps s r st index pos seen dbl toC toM m ea = .ok (x', t)) : t.clock = s.clock := by
  simp only [startRps, bind_eq_ok] at h
  grind [chargeRows_clock]

theorem execRps_clock {tk toC toM dbl cnt base off s t}
    (h : execRps tk toC toM dbl cnt base off s = .next t) : t.clock = s.clock := by
  unfold execRps at h
  refine issueL_clock (fun _ _ _ _ _ h => ?_) h
  simp only [bind_eq_ok] at h
  grind [bind_eq_match, → startRps_clock]

theorem execRpsPush_clock {s t} (h : execRpsPush s = .next t) : t.clock = s.clock := by
  grind [execRpsPush, putStrand_clock, raiseLate_clock]

theorem execPf_clock {tk f base off s t} (h : execPf tk f base off s = .next t) : t.clock = s.clock := by
  unfold execPf at h
  refine issueL_clock (fun _ _ _ _ _ h => ?_) h
  simp only [bind_eq_ok] at h
  grind [modCell_clock]

@[simp] theorem runPrefetch_clock (s p) : (runPrefetch s p).clock = s.clock := by
  grind [runPrefetch, → translate_clock, touchFor_clock]

@[simp] theorem runPrefetches_clock (s) : (runPrefetches s).clock = s.clock := by simp [runPrefetches]

theorem issueHeld_clock {s r st c t} (h : issueHeld s r st c = .ok t) : t.clock = s.clock := by
  grind [issueHeld, bind_eq_match, → issueCopy_clock, → startRps_clock, putStrand_clock]

theorem execBranchOutcome_clock {s t} (h : execBranchOutcome s = .next t) : t.clock = s.clock := by
  unfold execBranchOutcome at h
  dsimp only at h
  split at h
  · cases h; rfl
  split at h
  · cases h; rfl
  split at h
  · split at h
    · split at h <;> cases h <;> simp
    · cases h; rfl
  split at h
  · split at h <;> cases h
    next hx => rw [issueHeld_clock hx, putStrand_clock]
    all_goals simp
  · split at h <;> cases h <;> simp

/-! ## The store engine -/

theorem regWordS_clock {s k i body t} (h : regWordS s k i body = .next t) : t.clock = s.clock := by
  unfold regWordS at h
  refine issueWith_clock (fun _ _ _ _ h => ?_) h
  grind [bind_eq_match, putStrand_clock]

theorem execStq_clock {tk t6 base off s t} (h : execStq tk t6 base off s = .next t) : t.clock = s.clock := by
  unfold execStq at h
  refine issueStore_clock (fun _ _ _ _ _ h => ?_) h
  cases t6 <;> simp only [bind_eq_ok] at h <;> grind

theorem execStqs_clock {tk sz sd base off s t} (h : execStqs tk sz sd base off s = .next t) :
    t.clock = s.clock := by
  unfold execStqs at h
  refine issueStore_clock (fun _ _ _ _ _ h => ?_) h
  simp only [bind_eq_ok] at h
  grind

theorem scatterEntry_clock {s i e base off t} (h : scatterEntry s i e base off = .next t) :
    t.clock = s.clock := by
  unfold scatterEntry at h
  refine issueStore_clock (fun _ _ _ _ _ h => ?_) h
  simp only [bind_eq_ok] at h
  grind

theorem execStpk_clock {tk sz reserve base off s t} (h : execStpk tk sz reserve base off s = .next t) :
    t.clock = s.clock := by
  unfold execStpk at h
  refine issueStore_clock (fun _ _ _ _ _ h => ?_) h
  simp only [bind_eq_ok] at h
  grind

theorem execStmq_clock {tk elem oc cp rl base off s t} (h : execStmq tk elem oc cp rl base off s = .next t) :
    t.clock = s.clock := by
  unfold execStmq at h
  refine issueStore_clock (fun _ _ _ _ _ h => ?_) h
  simp only [bind_eq_ok, Prod.exists] at h
  grind [→ translate_clock]

theorem memScatter_clock {s i oc base off t} (h : memScatter s i oc base off = .next t) :
    t.clock = s.clock := by
  unfold memScatter at h
  refine issueStore_clock (fun _ _ _ _ _ h => ?_) h
  simp only [bind_eq_ok] at h
  grind

theorem execBput_clock {tk base off s t} (h : execBput tk base off s = .next t) : t.clock = s.clock := by
  unfold execBput at h
  refine issueStore_clock (fun _ _ _ _ _ h => ?_) h
  simp only [bind_eq_ok] at h
  grind

@[simp] theorem writeLanes_clock (s cell e data l) : (writeLanes s cell e data l).clock = s.clock := by
  unfold writeLanes
  exact foldl_clock (fun s a => by grind [spmWrite_clock]) _ _

@[simp] theorem addLanes_clock (s cell ty data l) : (addLanes s cell ty data l).clock = s.clock := by
  unfold addLanes
  exact foldl_clock (fun s a => by grind [spmWrite_clock]) _ _

theorem memLanes_clock {r st x k u cp rl op e data l s as t}
    (h : memLanes r st x k u cp rl op e data l s = .ok (as, t)) : t.clock = s.clock := by
  induction l generalizing s as with
  | nil => cases h; rfl
  | cons p l ih =>
    simp only [memLanes, bind_eq_ok, Prod.exists] at h
    grind [→ translate_clock, freshId_clock]

theorem spmStore_clock {s : State} {r : SRef} {st x gs f t} (hf : ∀ u, (f u).clock = u.clock)
    (h : spmStore s r st x gs f = .ok t) : t.clock = s.clock := by
  obtain ⟨-, -, h⟩ := bind_eq_ok.mp h
  cases h
  simp [hf]

theorem storeData_clock {s r st x t} (h : storeData s r st x = .ok t) : t.clock = s.clock := by
  unfold storeData at h
  split at h
  case h_1 => -- stq
    obtain ⟨⟨d, st⟩, -, h⟩ := bind_eq_ok.mp h
    exact spmStore_clock (fun u => spmWrite_clock u _ _ _) h
  case h_2 => -- stq from a t6 container
    obtain ⟨⟨d, st⟩, -, h⟩ := bind_eq_ok.mp h
    obtain ⟨v, -, h⟩ := bind_eq_ok.mp h
    exact spmStore_clock (fun u => spmWrite_clock u _ _ _) h
  case h_3 => -- stqs
    obtain ⟨⟨d, st⟩, -, h⟩ := bind_eq_ok.mp h
    exact spmStore_clock (fun u => writeLanes_clock u _ _ _ _) h
  case h_4 => -- sts
    obtain ⟨⟨ix, d, st⟩, -, h⟩ := bind_eq_ok.mp h
    obtain ⟨-, -, h⟩ := bind_eq_ok.mp h
    exact spmStore_clock (fun u => writeLanes_clock u _ _ _ _) h
  case h_5 => -- stsa
    obtain ⟨head, -, h⟩ := bind_eq_ok.mp h
    obtain ⟨-, -, h⟩ := bind_eq_ok.mp h
    obtain ⟨⟨ix, d, st⟩, -, h⟩ := bind_eq_ok.mp h
    obtain ⟨-, -, h⟩ := bind_eq_ok.mp h
    obtain ⟨-, -, h⟩ := bind_eq_ok.mp h
    exact spmStore_clock (fun u => addLanes_clock u _ _ _ _) h
  case h_6 => -- stpk
    obtain ⟨⟨d, st⟩, -, h⟩ := bind_eq_ok.mp h
    obtain ⟨-, -, h⟩ := bind_eq_ok.mp h
    exact spmStore_clock (fun u => spmWrite_clock u _ _ _) h
  case h_7 => -- stmq
    obtain ⟨⟨d, st⟩, -, h⟩ := bind_eq_ok.mp h
    cases h
    simp
  case h_8 => -- stmqSc
    obtain ⟨⟨ix, d, st⟩, -, h⟩ := bind_eq_ok.mp h
    obtain ⟨⟨l, u⟩, hl, h⟩ := bind_eq_ok.mp h
    cases h
    exact (putStrand_clock _ _ _).trans (memLanes_clock hl)
  case h_9 => -- stmqAdd
    obtain ⟨⟨ix, d, st⟩, -, h⟩ := bind_eq_ok.mp h
    obtain ⟨⟨l, u⟩, hl, h⟩ := bind_eq_ok.mp h
    cases h
    exact (putStrand_clock _ _ _).trans (memLanes_clock hl)
  case h_10 => -- bput
    obtain ⟨⟨d, st⟩, -, h⟩ := bind_eq_ok.mp h
    cases h
    simp
  case h_11 => cases h; simp

theorem execBputRowArrive_clock {k s t} (h : execBputRowArrive k s = .next t) : t.clock = s.clock := by
  grind [execBputRowArrive, spmWrite_clock, modHub_clock, addLog_clock]

theorem execBputErrorResponse_clock {k s t} (h : execBputErrorResponse k s = .next t) :
    t.clock = s.clock := by
  grind [execBputErrorResponse, modHub_clock, queueFault_clock, modByUid_clock]

/-! ## The vector engine -/

theorem issueV_clock {s c body t} (h : issueV s c body = .next t) : t.clock = s.clock := issueCharged_clock h

theorem elementwise_clock {s c d srcs checkT6 f t} (h : elementwise s c d srcs checkT6 f = .next t) :
    t.clock = s.clock :=
  issueV_clock h

theorem arith2_clock {s c d a b fi ff t} (h : arith2 s c d a b fi ff = .next t) : t.clock = s.clock :=
  elementwise_clock h

theorem arith3_clock {s c d a b x sub t} (h : arith3 s c d a b x sub = .next t) : t.clock = s.clock :=
  elementwise_clock h

theorem intWord_clock {s c d a b f t} (h : intWord s c d a b f = .next t) : t.clock = s.clock :=
  elementwise_clock h

theorem bitWord_clock {s c d a b f t} (h : bitWord s c d a b f = .next t) : t.clock = s.clock :=
  elementwise_clock h

theorem widen_clock {s c k4 d a b fi ff t} (h : widen s c k4 d a b fi ff = .next t) : t.clock = s.clock :=
  issueV_clock h

theorem laneWord_clock {s k t d f u} (h : laneWord s k t d f = .next u) : u.clock = s.clock :=
  issueCharged_clock h

theorem formIndex_clock {s c a push t} (h : formIndex s c a push = .next t) : t.clock = s.clock :=
  issueV_clock h

theorem maskWord_clock {s k r f t} (h : maskWord s k r f = .next t) : t.clock = s.clock :=
  issueCharged_clock h

theorem specialWord_clock {s k c d a t} (h : specialWord s k c d a = .next t) : t.clock = s.clock :=
  issueCharged_clock h

theorem predicateWord_clock {s k i w t} (h : predicateWord s k i w = .next t) : t.clock = s.clock := by
  unfold predicateWord at h
  refine issueWith_clock (fun _ st u t h => ?_) h
  obtain ⟨-, -, h⟩ := bind_eq_ok.mp h
  obtain ⟨cs, -, h⟩ := bind_eq_ok.mp h
  dsimp only at h
  split at h <;> simp only [bind_eq_ok] at h <;> grind [chargeStrand_clock, putStrand_clock]

theorem execPredicateComplete_clock {s t} (h : execPredicateComplete s = .next t) : t.clock = s.clock := by
  grind [execPredicateComplete, putStrand_clock, raiseLate_clock]

/-! ## Slots, tiles and parked registers -/

@[simp] theorem saveSlot_clock (s area n x) : (saveSlot s area n x).clock = s.clock := by
  grind [saveSlot, memWrite_clock]

@[simp] theorem saveTile_clock (s area n x) : (saveTile s area n x).clock = s.clock := by simp [saveTile]

@[simp] theorem saveReg_clock (s area n x) : (saveReg s area n x).clock = s.clock := by simp [saveReg]

@[simp] theorem saveSpill_clock (s area n x) : (saveSpill s area n x).clock = s.clock := by simp [saveSpill]

@[simp] theorem saveParked_clock (p s st) : (saveParked p s st).clock = s.clock := by simp [saveParked]

@[simp] theorem moveAllParked_clock (s cell p) : (moveAllParked s cell p).clock = s.clock := by
  simp [moveAllParked]

theorem takeOmPlace_clock {s cell part uid name x' t} (h : takeOmPlace s cell part uid name = some (x', t)) :
    t.clock = s.clock := by
  grind [takeOmPlace, modCell_clock, saveSlot_clock, modCtx_clock]

theorem takeAccPlace_clock {s cell part uid name x' t}
    (h : takeAccPlace s cell part uid name = some (x', t)) : t.clock = s.clock := by
  grind [takeAccPlace, modCell_clock, moveAllParked_clock, saveTile_clock, modCtx_clock]

theorem claimOm_clock {s cell st n x' t} (h : claimOm s cell st n = .ok (x', t)) : t.clock = s.clock := by
  simp only [claimOm] at h
  grind [stall, → takeOmPlace_clock]

theorem claimAcc_clock {s cell st n x' t} (h : claimAcc s cell st n = .ok (x', t)) : t.clock = s.clock := by
  simp only [claimAcc] at h
  grind [stall, → takeAccPlace_clock]

theorem needTile_clock {s cell st n x' t} (h : needTile s cell st n = .ok (x', t)) : t.clock = s.clock := by
  simp only [needTile] at h
  grind [stall, → claimAcc_clock]

@[simp] theorem freeOm_clock (s cell st n) : (freeOm s cell st n).2.clock = s.clock := by
  grind [freeOm, modCell_clock]

@[simp] theorem freeAcc_clock (s cell st n) : (freeAcc s cell st n).2.clock = s.clock := by
  unfold freeAcc
  split <;> simp

theorem execResourceRestore_clock {r res s t} (h : execResourceRestore r res s = .next t) :
    t.clock = s.clock := by
  grind [execResourceRestore, putStrand_clock, → takeOmPlace_clock, → takeAccPlace_clock]

theorem claimOms_clock {s cell st l x t} (h : claimOms s cell st l = .ok (x, t)) : t.clock = s.clock := by
  induction l generalizing s st with
  | nil => cases h; rfl
  | cons n l ih => grind [claimOms, bind_eq_match, → claimOm_clock]

@[simp] theorem freeOms_clock (s cell st l) : (freeOms s cell st l).2.clock = s.clock := by
  induction l generalizing s st with
  | nil => rfl
  | cons n l ih => simp [freeOms, ih]

theorem execMclaim_clock {tk slots tile s t} (h : execMclaim tk slots tile s = .next t) :
    t.clock = s.clock := by
  unfold execMclaim at h
  refine issueM_clock (fun _ _ _ _ _ h => ?_) h
  simp only [bind_eq_ok, Prod.exists] at h
  grind [→ claimOms_clock, → claimAcc_clock]

theorem execMclaimRetry_clock {s t} (h : execMclaimRetry s = .next t) : t.clock = s.clock := by
  grind [execMclaimRetry, → execMclaim_clock]

theorem execMrel_clock {tk slots tile s t} (h : execMrel tk slots tile s = .next t) : t.clock = s.clock := by
  unfold execMrel at h
  refine issueM_clock (fun _ _ _ _ _ h => ?_) h
  simp only [bind_eq_ok] at h
  grind [freeOms_clock, freeAcc_clock]

theorem execMzero_clock {tk acc qmask s t} (h : execMzero tk acc qmask s = .next t) : t.clock = s.clock := by
  unfold execMzero at h
  refine issueM_clock (fun _ _ _ _ _ h => ?_) h
  simp only [bind_eq_ok, Prod.exists] at h
  grind [→ needTile_clock]

theorem execProductWordComplete_clock {s t} (h : execProductWordComplete s = .next t) :
    t.clock = s.clock := by
  cases h
  simp

theorem execVaccrd_clock {c d b s t} (h : execVaccrd c d b s = .next t) : t.clock = s.clock := by
  unfold execVaccrd at h
  refine issueWith_clock (fun _ _ _ _ h => ?_) h
  simp only [bind_eq_ok, Prod.exists] at h
  grind [chargeStrand_clock, putStrand_clock]

theorem execVaccwr_clock {c a b s t} (h : execVaccwr c a b s = .next t) : t.clock = s.clock := by
  unfold execVaccwr at h
  refine issueWith_clock (fun _ _ _ _ h => ?_) h
  simp only [bind_eq_ok, Prod.exists] at h
  grind [→ needTile_clock, chargeStrand_clock, putStrand_clock]

theorem execVspill_clock {tk a s t} (h : execVspill tk a s = .next t) : t.clock = s.clock := by
  unfold execVspill at h
  refine issueWith_clock (fun _ _ _ _ h => ?_) h
  simp only [bind_eq_ok] at h
  grind [saveSpill_clock, chargeStrand_clock, putStrand_clock]

theorem execVfill_clock {tk d a s t} (h : execVfill tk d a s = .next t) : t.clock = s.clock := by
  unfold execVfill at h
  refine issueWith_clock (fun _ _ _ _ h => ?_) h
  grind [trap, bind_eq_match, chargeStrand_clock, putStrand_clock]

/-! ## Patterns and matrix products -/

theorem faultAfter_clock {s w f t u} (h : faultAfter s w f t = .ok u) : u.clock = s.clock := by
  cases h
  simp

theorem execMpload_clock {tk w n1 s t} (h : execMpload tk w n1 s = .next t) : t.clock = s.clock := by
  unfold execMpload at h
  refine issueWith_clock_of_eq (fun _ _ _ _ hu h => ?_) h
  simp only [bind_eq_ok] at h
  grind [stall, putStrand_clock, → faultAfter_clock]

theorem execMpbind_clock {tk pat ta s t} (h : execMpbind tk pat ta s = .next t) : t.clock = s.clock := by
  unfold execMpbind at h
  refine issueWith_clock_of_eq (fun _ _ _ _ hu h => ?_) h
  simp only [bind_eq_ok] at h
  grind [stall, putStrand_clock, → faultAfter_clock]

@[simp] theorem giveGrant_clock (s d key g debt) : (giveGrant s d key g debt).clock = s.clock := by
  simp [giveGrant]

theorem execMatrixGrant_clock {die s t} (h : execMatrixGrant die s = .next t) : t.clock = s.clock := by
  grind [execMatrixGrant, giveGrant_clock, modDie_clock]

@[simp] theorem rollWindow_clock (s d) : (rollWindow s d).clock = s.clock := by simp [rollWindow]

theorem execGrantWindowStart_clock {die s t} (h : execGrantWindowStart die s = .next t) :
    t.clock = s.clock := by
  cases h
  simp

@[simp] theorem askGrant_clock (s r st charge tog) : (askGrant s r st charge tog).2.clock = s.clock := by
  unfold askGrant
  split
  · split <;> rfl
  · dsimp only
    split <;> simp

theorem product_done_clock {s r st flush x ix pos st' t old}
    (h : product s r st flush x ix pos = .ok (.done st' t old)) : t.clock = s.clock := by
  unfold product at h
  obtain ⟨l, -, h⟩ := bind_eq_ok.mp h
  obtain ⟨⟨st1, s1⟩, h1, h⟩ := bind_eq_ok.mp h
  obtain ⟨-, -, h⟩ := bind_eq_ok.mp h
  rw [← needTile_clock h1]
  dsimp only at h
  split at h
  · cases h
  next ha =>
    cases h
    rw [charge_clock, ← askGrant_clock s1 r st1 (prodsCharge l) (prodsTog l), ha]

theorem productWord_clock {s tk x gathers t} (h : productWord s tk x gathers = .next t) :
    t.clock = s.clock := by
  unfold productWord at h
  refine issueWith_clock_of_eq (fun _ _ u _ hu h => ?_) h
  obtain ⟨-, -, h⟩ := bind_eq_ok.mp h
  obtain ⟨-, -, h⟩ := bind_eq_ok.mp h
  dsimp only at h
  split at h
  · exact faultAfter_clock h
  · cases h
  · cases h
    simp
  next hp =>
    cases h
    rw [putStrand_clock, product_done_clock hp, hu]

/-! ## Drains and nests -/

theorem drainStep_clock {s r st d x' t} (h : drainStep s r st d = .ok (x', t)) : t.clock = s.clock := by
  grind [drainStep, bind_eq_match, chargeStrand_clock]

theorem execMdrain_clock {tk acc f s t} (h : execMdrain tk acc f s = .next t) : t.clock = s.clock := by
  unfold execMdrain at h
  split at h
  · refine issueWith_clock (fun _ _ u t h => ?_) h
    obtain ⟨-, -, h⟩ := bind_eq_ok.mp h
    obtain ⟨d, -, h⟩ := bind_eq_ok.mp h
    cases h
    simp
  · refine issueWith_clock (fun _ _ u t h => ?_) h
    obtain ⟨-, -, h⟩ := bind_eq_ok.mp h
    obtain ⟨⟨st1, s1⟩, h1, h⟩ := bind_eq_ok.mp h
    cases h
    exact (putStrand_clock _ _ _).trans (drainStep_clock h1)

theorem execMtog_clock {tk s t} (h : execMtog tk s = .next t) : t.clock = s.clock := by
  unfold execMtog at h
  refine issueM_clock (fun _ _ _ _ _ h => ?_) h
  simp only [bind_eq_ok] at h
  grind [chargeStrand_clock]

theorem execMnset_clock {tk rec s t} (h : execMnset tk rec s = .next t) : t.clock = s.clock := by
  unfold execMnset at h
  refine issueWith_clock_of_eq (fun _ _ _ _ hu h => ?_) h
  grind [stall, putStrand_clock, → faultAfter_clock]

theorem execMnest_clock {tk s t} (h : execMnest tk s = .next t) : t.clock = s.clock := by
  unfold execMnest at h
  refine issueM_clock (fun _ _ _ _ _ h => ?_) h
  simp only [bind_eq_ok] at h
  grind

@[simp] theorem raiseNest_clock (s r st n step t) : (raiseNest s r st n step t).clock = s.clock := by
  simp [raiseNest]

theorem nestProduct_clock {s r st n hdr empty rest t} (h : nestProduct s r st n hdr empty rest = .ok t) :
    t.clock = s.clock := by
  unfold nestProduct at h
  obtain ⟨-, -, h⟩ := bind_eq_ok.mp h
  dsimp only at h
  split at h
  · cases h; simp
  · cases h
  · cases h; simp
  next hp =>
    cases h
    exact (putStrand_clock _ _ _).trans (product_done_clock hp)

theorem nestAct_clock {s r st n hdr t} (h : nestAct s r st n hdr = .ok t) : t.clock = s.clock := by
  simp only [nestAct] at h
  grind [stall, bind_eq_match, → drainStep_clock, putStrand_clock, raiseNest_clock, → nestProduct_clock]

theorem finishDrain_clock {s r st d t} (h : finishDrain s r st d = .ok t) : t.clock = s.clock := by
  grind [finishDrain, bind_eq_match, → drainStep_clock, putStrand_clock]

theorem execNestStep.after_clock {s : State} {r : SRef} {a : Act State} {t : State}
    (ha : ∀ u, a = .ok u → u.clock = s.clock) (h : execNestStep.after s r a = .next t) :
    t.clock = s.clock := by
  unfold execNestStep.after at h
  split at h <;> cases h
  · simpa using ha _ rfl
  · simp
  · rfl

/-- `s'` is the state `s` after the count of issue slots. -/
theorem execNestStep.go_clock {s s' : State} {r : SRef} {st : Strand} {t : State} (hs : s'.clock = s.clock)
    (h : execNestStep.go s s' r st = .next t) : t.clock = s.clock := by
  unfold execNestStep.go at h
  split at h
  · split at h
    · cases h; rfl
    · exact after_clock (fun u hu => (nestAct_clock hu).trans hs) h
  · cases h; rfl

theorem execNestStep_clock {s t} (h : execNestStep s = .next t) : t.clock = s.clock := by
  unfold execNestStep at h
  dsimp only at h
  split at h
  · cases h; rfl
  split at h
  · split at h
    · refine execNestStep.after_clock (fun u hu => ?_) h
      exact (finishDrain_clock hu).trans rfl
    · refine execNestStep.go_clock ?_ h
      rfl
  · split at h
    · cases h; rfl
    · refine execNestStep.go_clock ?_ h
      rfl

/-! ## Micro-routines -/

theorem execBind_clock {lat ga gb n s t} (h : execBind lat ga gb n s = .next t) : t.clock = s.clock := by
  unfold execBind at h
  refine issueWith_clock (fun _ _ _ _ h => ?_) h
  simp only [bind_eq_ok] at h
  grind [putCtx_clock, countC_clock, putStrand_clock]

theorem scratchPart_clock {s r pos x st e m w x' t m'}
    (h : scratchPart s r pos x st e m w = .ok (x', t, m')) : t.clock = s.clock := by
  simp only [scratchPart, bind_eq_ok, Prod.exists, ite_eq_iff] at h
  grind [chargeRows_clock, spmWrite_clock, writeLanes_clock, addLanes_clock]

theorem tilePart_clock {s r st e m w x' t m'} (h : tilePart s r st e m w = .ok (x', t, m')) :
    t.clock = s.clock := by
  simp only [tilePart, bind_eq_ok, Prod.exists, ite_eq_iff] at h
  grind [→ needTile_clock]

theorem execBoundOpcode_clock {n e hdr d a b imm s t} (h : execBoundOpcode n e hdr d a b imm s = .next t) :
    t.clock = s.clock := by
  unfold execBoundOpcode at h
  dsimp only at h
  split at h
  · refine issueWith_clock (fun _ _ u t h => ?_) h
    obtain ⟨⟨x, y⟩, -, h⟩ := bind_eq_ok.mp h
    obtain ⟨st', -, h⟩ := bind_eq_ok.mp h
    cases h
    simp
  · refine issueWith_clock (fun _ _ u t h => ?_) h
    simp only [bind_eq_ok] at h
    grind [stall, putStrand_clock, bind_eq_match]

@[simp] theorem endRoutine_clock (s w st x) : (endRoutine s w st x).clock = s.clock := by
  unfold endRoutine
  split <;> simp

theorem microStep_clock {s r e st m pos x o} (h : microStep s r e st m pos x = .ok o) :
    (∀ st' t m', o = .go st' t m' → t.clock = s.clock) ∧ ∀ st' t, o = .fin st' t → t.clock = s.clock := by
  unfold microStep at h
  obtain ⟨-, -, h⟩ := bind_eq_ok.mp h
  dsimp only at h
  split at h
  · cases h; simp
  split at h
  · obtain ⟨⟨st1, m1⟩, -, h⟩ := bind_eq_ok.mp h
    obtain ⟨_, h1, h⟩ := bind_eq_ok.mp h
    cases h1
    split at h <;> cases h <;> simp
  split at h
  · obtain ⟨⟨st1, s1, m1⟩, h1, h⟩ := bind_eq_ok.mp h
    rw [← scratchPart_clock h1]
    split at h <;> cases h <;> simp
  split at h
  · obtain ⟨⟨st1, s1, m1⟩, h1, h⟩ := bind_eq_ok.mp h
    rw [← tilePart_clock h1]
    split at h <;> cases h <;> simp
  · split at h <;> cases h <;> simp

theorem execMicroStep_clock {s t} (h : execMicroStep s = .next t) : t.clock = s.clock := by
  unfold execMicroStep at h
  dsimp only at h
  split at h
  · cases h; rfl
  split at h
  · cases h; rfl
  split at h
  · cases h; rfl
  split at h <;> cases h
  · rfl
  · simp
  · simp
  · simp
  next hx => simpa using (microStep_clock hx).1 _ _ _ rfl
  next hx => simpa using (microStep_clock hx).2 _ _ rfl

theorem dataStage_clock {s r st x t} (h : dataStage s r st x = .ok t) : t.clock = s.clock := by
  grind [dataStage, bind_eq_match, putStrand_clock, → storeData_clock]

theorem execStoreDataStage_clock {s t} (h : execStoreDataStage s = .next t) : t.clock = s.clock := by
  grind [execStoreDataStage, → dataStage_clock, startHold_clock, raiseLate_clock]

theorem execResultLands_clock {r k s t} (h : execResultLands r k s = .next t) : t.clock = s.clock := by
  grind [execResultLands, putStrand_clock]

theorem execTokenPush_clock {r k s t} (h : execTokenPush r k s = .next t) : t.clock = s.clock := by
  grind [execTokenPush, putStrand_clock]

/-! ## Collectives -/

@[simp] theorem putColl_clock (s d part c) : (putColl s d part c).clock = s.clock := rfl

@[simp] theorem modColl_clock (s d part f) : (modColl s d part f).clock = s.clock := rfl

@[simp] theorem putSlot_clock (s r x) : (putSlot s r x).clock = s.clock := rfl

@[simp] theorem modSlot_clock (s r f) : (modSlot s r f).clock = s.clock := by unfold modSlot; split <;> simp

@[simp] theorem modRun_clock (s r f) : (modRun s r f).clock = s.clock := by simp [modRun]

@[simp] theorem giveResult_clock (s cmd w) : (giveResult s cmd w).clock = s.clock := rfl

@[simp] theorem logMismatch_clock (s r m) : (logMismatch s r m).clock = s.clock := by simp [logMismatch]

@[simp] theorem logNoGroup_clock (s die m) : (logNoGroup s die m).clock = s.clock := by simp [logNoGroup]

@[simp] theorem sendNet_clock (s l) : (sendNet s l).clock = s.clock := rfl

@[simp] theorem settleAbort_clock (s r a) : (settleAbort s r a).clock = s.clock := by
  grind [settleAbort, sendNet_clock, putSlot_clock, giveResult_clock]

@[simp] theorem settleAborts_clock (s r) : (settleAborts s r).clock = s.clock := by
  unfold settleAborts
  split <;> simp

@[simp] theorem startAbort_clock (s r seq root cause parent) :
    (startAbort s r seq root cause parent).clock = s.clock := by
  unfold startAbort
  split <;> simp

@[simp] theorem detect_clock (s r cause) : (detect s r cause).clock = s.clock := by
  unfold detect
  split <;> simp

@[simp] theorem collFault_clock (s r t) : (collFault s r t).clock = s.clock := by simp [collFault]

theorem readRange_clock {s r cmd b k off len x' t} (h : readRange s r cmd b k off len = .ok (x', t)) :
    t.clock = s.clock := by
  grind [readRange, bind_eq_match, → runOf_clock, → readPieces_clock, touchPieces_clock]

theorem writeRange_clock {s r cmd b k off bs t} (h : writeRange s r cmd b k off bs = .ok t) :
    t.clock = s.clock := by
  grind [writeRange, bind_eq_match, modColl_clock, → runOf_clock, → writePieces_clock, touchPieces_clock]

theorem pushColl_clock {s mk t} (h : pushColl s mk = .next t) : t.clock = s.clock := by
  unfold pushColl at h
  refine issueWith_clock (fun _ _ _ _ h => ?_) h
  simp only [bind_eq_ok] at h
  grind [freshId_clock, modColl_clock, countC_clock, putStrand_clock]

theorem readFor_clock {s die part va n x' t} (h : readFor s die part va n = .ok (x', t)) :
    t.clock = s.clock := by
  grind [readFor, → readVirt_clock, dropAnswers_clock, logTrap_clock]

theorem runGset_clock {s die part cmd va t} (h : runGset s die part cmd va = .ok t) : t.clock = s.clock := by
  unfold runGset at h
  dsimp only at h
  split at h
  · cases h; simp
  obtain ⟨⟨d, s1⟩, h1, h⟩ := bind_eq_ok.mp h
  rw [← readFor_clock h1]
  dsimp only at h
  split at h
  · cases h; simp
  split at h
  · cases h; simp
  split at h
  · cases h; simp
  obtain ⟨⟨l, s2⟩, h2, h⟩ := bind_eq_ok.mp h
  rw [← readFor_clock h2]
  dsimp only at h
  split at h
  · cases h; simp
  split at h <;> cases h <;> simp

@[simp] theorem runGfree_clock (s die part cmd k) : (runGfree s die part cmd k).clock = s.clock := by
  unfold runGfree
  split <;> simp

theorem runCrun_clock {s die part cmd va t} (h : runCrun s die part cmd va = .ok t) : t.clock = s.clock := by
  simp only [runCrun, bind_eq_ok, Prod.exists, ite_eq_iff] at h
  grind [giveResult_clock, → readFor_clock, putSlot_clock]

theorem runCmd_clock {s die part cmd t} (h : runCmd s die part cmd = .ok t) : t.clock = s.clock := by
  grind [runCmd, → runGset_clock, runGfree_clock, → runCrun_clock]

@[simp] theorem startColl_clock (s r) : (startColl s r).clock = s.clock := by
  grind [startColl, putSlot_clock, settleAborts_clock, modSlot_clock, detect_clock, → readVirt_clock,
    startHold_clock, collFault_clock]

@[simp] theorem pumpCmds_clock (die part : Nat) (l : List CollCmd) (blocked : List Nat) (s : State) :
    (pumpCmds die part l blocked s).clock = s.clock := by
  induction l generalizing blocked s with
  | nil => rfl
  | cons c cs ih =>
    unfold pumpCmds
    split
    · exact ih _ _
    split
    next hr => rw [ih, modColl_clock, runCmd_clock hr]
    · rw [ih, startHold_clock]
    · exact ih _ _

@[simp] theorem pumpColl_clock (s die part) : (pumpColl s die part).clock = s.clock := by simp [pumpColl]

@[simp] theorem pumpAll_clock (s) : (pumpAll s).clock = s.clock := by simp [pumpAll]

theorem sendHeader_clock {s r x q a x' t} (h : sendHeader s r x q a = some (x', t)) : t.clock = s.clock := by
  grind [sendHeader, freshId_clock, sendNet_clock, chargeFor_clock, modRun_clock]

@[simp] theorem giveData_clock (s id bs) : (giveData s id bs).clock = s.clock := by simp [giveData]

@[simp] theorem tellWritten_clock (s id m) : (tellWritten s id m).clock = s.clock := by simp [tellWritten]

@[simp] theorem dropStep_clock (s r i) : (dropStep s r i).clock = s.clock := by simp [dropStep]

theorem collAct_clock {α : Type} {s : State} {r : CRef} {a : Act α} {go : α → State}
    (hg : ∀ x, a = .ok x → (go x).clock = s.clock) : (collAct s r a go).clock = s.clock := by
  unfold collAct
  split
  · exact hg _ rfl
  all_goals simp

@[simp] theorem readOut_clock (s r q i a id) : (readOut s r q i a id).clock = s.clock := by
  unfold readOut
  refine collAct_clock fun ⟨bs, u⟩ h => ?_
  rw [← readRange_clock h]
  dsimp only
  rw [dropStep_clock, giveData_clock]
  split <;> split <;> simp

theorem receivedBytes_clock {s r q a data x' t} (h : receivedBytes s r q a data = .ok (x', t)) :
    t.clock = s.clock := by
  grind [receivedBytes, bind_eq_match, → readRange_clock, chargeFor_clock]

@[simp] theorem sendOn_clock (s r q i a) : (sendOn s r q i a).clock = s.clock := by
  grind [sendOn, → sendHeader_clock, detect_clock, dropStep_clock, modRun_clock]

@[simp] theorem upsetColl_clock (s r) : (upsetColl s r).clock = s.clock := by simp [upsetColl]

@[simp] theorem takeMessage_clock (s r q i a id m) : (takeMessage s r q i a id m).clock = s.clock := by
  unfold takeMessage
  split
  · simp
  split
  · rfl
  split
  · simp
  refine collAct_clock fun ⟨done, u⟩ h => ?_
  obtain ⟨⟨bs, s1⟩, h1, h⟩ := bind_eq_ok.mp h
  rw [← receivedBytes_clock h1]
  dsimp only at h
  split at h
  · cases h; simp
  · obtain ⟨s2, h2, h⟩ := bind_eq_ok.mp h
    rw [← writeRange_clock h2]
    cases h
    dsimp only
    split <;> split <;> simp

@[simp] theorem copyStep_clock (s r q i a) : (copyStep s r q i a).clock = s.clock := by
  unfold copyStep
  refine collAct_clock fun u h => ?_
  obtain ⟨⟨bs, s1⟩, h1, h⟩ := bind_eq_ok.mp h
  rw [dropStep_clock, ← readRange_clock h1, ← writeRange_clock h]

@[simp] theorem goStep_clock (s r x q i a) : (goStep s r x q i a).clock = s.clock := by
  grind [goStep, readOut_clock, copyStep_clock, takeMessage_clock]

@[simp] theorem countStep_clock (s r) : (countStep s r).clock = s.clock := by unfold countStep; split <;> simp

@[simp] theorem startStep_clock (s r x q w) : (startStep s r x q w).clock = s.clock := by
  grind [startStep, detect_clock, → sendHeader_clock, modRun_clock, countStep_clock]

theorem moveStep_clock {s r op t} (h : moveStep s r op = .next t) : t.clock = s.clock := by
  unfold moveStep at h
  grind [goStep_clock, startStep_clock]

theorem atStep_clock {s t : State} {r : CRef} {op : Nat} {f : CollSlot → CollRun → Word → State}
    (hf : ∀ x q w, (f x q w).clock = s.clock) (h : atStep s r op f = .next t) : t.clock = s.clock := by
  grind [atStep]

theorem execCollWait_clock {r s t} (h : execCollWait r s = .next t) : t.clock = s.clock := by
  refine atStep_clock (fun x q w => ?_) h
  split <;> simp

theorem execCollLoop_clock {r s t} (h : execCollLoop r s = .next t) : t.clock = s.clock := by
  refine atStep_clock (fun x q w => ?_) h
  grind [detect_clock, modRun_clock, countStep_clock]

theorem execCollEndl_clock {r s t} (h : execCollEndl r s = .next t) : t.clock = s.clock := by
  refine atStep_clock (fun x q w => ?_) h
  dsimp only
  split <;> simp

@[simp] theorem finishColl_clock (s r x q place) : (finishColl s r x q place).clock = s.clock := by
  simp [finishColl]

theorem execCollEnd_clock {r s t} (h : execCollEnd r s = .next t) : t.clock = s.clock := by
  unfold execCollEnd at h
  split at h
  · cases h; rfl
  split at h
  · cases h; rfl
  split at h
  · cases h; rfl
  split at h
  · cases h; simp
  split at h
  · cases h; rfl
  split at h
  · cases h; simp
  split at h <;> cases h <;> simp

theorem execCollTimeout_clock {r s t} (h : execCollTimeout r s = .next t) : t.clock = s.clock := by
  grind [execCollTimeout, detect_clock]

@[simp] theorem errorToSender_clock (s id m) : (errorToSender s id m).clock = s.clock := by
  grind [errorToSender, detect_clock, sendNet_clock]

@[simp] theorem deliverColl_clock (s die id m) : (deliverColl s die id m).clock = s.clock := by
  unfold deliverColl
  split <;> simp

theorem takeNet_clock {s p x' t} (h : takeNet s p = some (x', t)) : t.clock = s.clock := by
  grind [takeNet, modHub_clock]

theorem execCollMessageArrive_clock {die m s t} (h : execCollMessageArrive die m s = .next t) :
    t.clock = s.clock := by
  grind [execCollMessageArrive, → takeNet_clock, deliverColl_clock, freshId_clock]

@[simp] theorem refuseAbort_clock (s die m) : (refuseAbort s die m).clock = s.clock := by simp [refuseAbort]

theorem takeAbort_clock {s a mine t} (h : takeAbort s a mine = some t) : t.clock = s.clock := by
  unfold takeAbort at h
  split at h
  · obtain ⟨⟨m, u⟩, hu, rfl⟩ := Option.map_eq_some_iff.mp h
    exact takeNet_clock hu
  · cases h; rfl

theorem execAbortReceive_clock {die a s t} (h : execAbortReceive die a s = .next t) : t.clock = s.clock := by
  grind [execAbortReceive, → takeAbort_clock, refuseAbort_clock, sendNet_clock, startAbort_clock]

@[simp] theorem dropChild_clock (s r seq child) : (dropChild s r seq child).clock = s.clock := by
  simp [dropChild]

theorem execAbortAck_clock {die a s t} (h : execAbortAck die a s = .next t) : t.clock = s.clock := by
  grind [execAbortAck, → takeAbort_clock, refuseAbort_clock, dropChild_clock]

theorem execAbortGiveUp_clock {r child s t} (h : execAbortGiveUp r child s = .next t) :
    t.clock = s.clock := by
  grind [execAbortGiveUp, dropChild_clock]

theorem execSwitchFailure_clock {r s t} (h : execSwitchFailure r s = .next t) : t.clock = s.clock := by
  grind [execSwitchFailure, detect_clock]

theorem execInFabricGrant_clock {r granted result s t} (h : execInFabricGrant r granted result s = .next t) :
    t.clock = s.clock := by
  unfold execInFabricGrant at h
  split at h
  · cases h; rfl
  split at h
  · cases h; rfl
  next q _ =>
    generalize (if bufKind q.block 1 = 0 then 0 else 1) = d at h
    dsimp only at h
    split at h
    · cases h; rfl
    split at h
    · cases h; simp
    split at h
    · cases h; rfl
    split at h
    · cases h; simp
    split at h <;> cases h
    · rfl
    refine collAct_clock fun u h => ?_
    obtain ⟨⟨bs, s1⟩, h1, h⟩ := bind_eq_ok.mp h
    rw [← readRange_clock h1, ← writeRange_clock h]
    split <;> simp

/-! ## The fabric and the host -/

@[simp] theorem passPoints_clock (s r a) : (passPoints s r a).clock = s.clock := by simp [passPoints]

@[simp] theorem departOne_clock (s r st a) : (departOne s r st a).clock = s.clock := by
  grind [departOne, modHub_clock, passPoints_clock, performAway_clock]

@[simp] theorem endUnit_clock (s u e) : (endUnit s u e).clock = s.clock := rfl

@[simp] theorem departUnit_clock (s u) : (departUnit s u).clock = s.clock := by
  grind [departUnit, modHub_clock, endUnit_clock]

@[simp] theorem departAll_clock (s) : (departAll s).clock = s.clock := by
  unfold departAll
  dsimp only
  refine (foldl_clock departUnit_clock _ _).trans ?_
  refine foldl_clock (fun u p => foldl_clock (fun u a => ?_) _ _) _ _
  split
  · split <;> simp
  · rfl

@[simp] theorem dropRemote_clock (s id) : (dropRemote s id).clock = s.clock := rfl

@[simp] theorem answerAway_clock (s id p reply) : (answerAway s id p reply).clock = s.clock := by
  grind [answerAway, endUnit_clock, performAway_clock, dropRemote_clock]

@[simp] theorem failRemote_clock (s id) : (failRemote s id).clock = s.clock := by
  unfold failRemote
  split <;> simp

@[simp] theorem failAway_clock (s id) : (failAway s id).clock = s.clock := by unfold failAway; split <;> simp

@[simp] theorem answerColl_clock (s id reply) : (answerColl s id reply).clock = s.clock := by
  unfold answerColl
  split
  · simp
  · split <;> simp

theorem execRemoteResponse_clock {id reply s t} (h : execRemoteResponse id reply s = .next t) :
    t.clock = s.clock := by
  grind [execRemoteResponse, answerAway_clock, answerColl_clock]

theorem execRemoteTimeout_clock {id s t} (h : execRemoteTimeout id s = .next t) : t.clock = s.clock := by
  grind [execRemoteTimeout, failAway_clock]

theorem execHostCompletion_clock {id reply s t} (h : execHostCompletion id reply s = .next t) :
    t.clock = s.clock := by
  cases h
  simp

theorem execHostCompletionTimeout_clock {id s t} (h : execHostCompletionTimeout id s = .next t) :
    t.clock = s.clock := by
  grind [execHostCompletionTimeout, failAway_clock]

@[simp] theorem dropPort_clock (s port lost) : (dropPort s port lost).clock = s.clock := by
  unfold dropPort
  refine (foldl_clock (fun u (p : CRef × _) => detect_clock u p.1 causeLink) _ _).trans ?_
  refine (foldl_clock (fun u x => endUnit_clock u x .lost) _ _).trans ?_
  exact (foldl_clock failRemote_clock _ _).trans (modHub_clock _ _)

theorem execPortDown_clock {port lost s t} (h : execPortDown port lost s = .next t) : t.clock = s.clock := by
  grind [execPortDown, dropPort_clock]

@[simp] theorem setReplays_clock (s port n) : (setReplays s port n).clock = s.clock := rfl

theorem execEpnerFlitReceive_clock {port ok s t} (h : execEpnerFlitReceive port ok s = .next t) :
    t.clock = s.clock := by
  unfold execEpnerFlitReceive at h
  grind [setReplays_clock, dropPort_clock]

@[simp] theorem invalidateRange_clock (s part base len) : (invalidateRange s part base len).clock = s.clock :=
  rfl

@[simp] theorem answerWord0_clock (s uid pos x) : (answerWord0 s uid pos x).clock = s.clock := rfl

@[simp] theorem queueScrub_clock (s x) : (queueScrub s x).clock = s.clock := rfl

@[simp] theorem takeFrames_clock (s part fs) : (takeFrames s part fs).clock = s.clock := rfl

theorem execInvalidationComplete_clock {k s t} (h : execInvalidationComplete k s = .next t) :
    t.clock = s.clock := by
  grind [execInvalidationComplete, invalidateRange_clock, modHub_clock, takeFrames_clock, answerWord0_clock]

@[simp] theorem attemptAll_clock (s) : (attemptAll s).clock = s.clock := rfl

@[simp] theorem dropPull_clock (s die k) : (dropPull s die k).clock = s.clock := rfl

@[simp] theorem endAttempt_clock (s die k p) : (endAttempt s die k p).clock = s.clock := rfl

theorem execPullDataArrive_clock {die k reply s t} (h : execPullDataArrive die k reply s = .next t) :
    t.clock = s.clock := by
  grind [execPullDataArrive, endAttempt_clock, memWrite_clock, dropPull_clock, modPart_clock,
    invalidateRange_clock]

theorem execPullAttemptTimeout_clock {die k s t} (h : execPullAttemptTimeout die k s = .next t) :
    t.clock = s.clock := by
  grind [execPullAttemptTimeout, endAttempt_clock]

theorem execPullGiveUp_clock {die k s t} (h : execPullGiveUp die k s = .next t) : t.clock = s.clock := by
  unfold execPullGiveUp at h
  split at h
  · cases h; rfl
  split at h
  · rw [← Outcome.next.inj h, invalidateRange_clock, modHub_clock, memWrite_clock, dropPull_clock]
  · cases h; rfl

@[simp] theorem touchHome_clock (s pa n msa) : (touchHome s pa n msa).clock = s.clock := by
  unfold touchHome
  split
  · split
    · exact foldl_clock l2Drop_clock _ _
    · exact l2Read_clock _ _
  · rfl

@[simp] theorem remotePerform_clock (s q) : (remotePerform s q).2.clock = s.clock := by
  grind [remotePerform, settleLines_clock, touchHome_clock, memWrite_clock, atomicAt_clock]

theorem execRemoteRequestArrive_clock {q s t} (h : execRemoteRequestArrive q s = .next t) :
    t.clock = s.clock := by
  grind [execRemoteRequestArrive, remotePerform_clock, sendNet_clock]

/-! ## Scheduling -/

@[simp] theorem modBox_clock (s part key f) : (modBox s part key f).clock = s.clock := rfl

@[simp] theorem setStat_clock (s part key stat cause) : (setStat s part key stat cause).clock = s.clock := rfl

@[simp] theorem enterSlot_clock (s r st) : (enterSlot s r st).clock = s.clock := by simp [enterSlot]

@[simp] theorem saveRegs_clock (s d names) : (saveRegs s d names).clock = s.clock := by simp [saveRegs]

@[simp] theorem leaveBank_clock (s r st) : (leaveBank s r st).clock = s.clock := by simp [leaveBank]

@[simp] theorem takeAreas_clock (s part n) : (takeAreas s part n).clock = s.clock := rfl

@[simp] theorem modLaunch_clock (s part number f) : (modLaunch s part number f).clock = s.clock := rfl

@[simp] theorem placeNext_clock (s part number r) : (placeNext s part number r).clock = s.clock := by
  unfold placeNext
  split <;> simp

theorem execStrandDispatch_clock {part launch r s t} (h : execStrandDispatch part launch r s = .next t) :
    t.clock = s.clock := by
  unfold execStrandDispatch at h
  split at h
  · cases h; rfl
  extract_lets free n at h
  split at h
  · cases h; rfl
  · rw [← Outcome.next.inj h]
    exact foldl_clock (fun u q => placeNext_clock u part launch q) _ _

@[simp] theorem raiseUnit_clock (s r t) : (raiseUnit s r t).clock = s.clock := by
  unfold raiseUnit
  split <;> simp

@[simp] theorem loadOperators_clock (s die part im) : (loadOperators s die part im).clock = s.clock := by
  simp [loadOperators]

@[simp] theorem installImage_clock (s r part im) : (installImage s r part im).clock = s.clock := by
  simp [installImage]

@[simp] theorem startEngines_clock (s r fresh entry) : (startEngines s r fresh entry).clock = s.clock := by
  grind [startEngines, modStrand_clock, setStat_clock]

@[simp] theorem placeOverlay_clock (s r st im fresh seq) :
    (placeOverlay s r st im fresh seq).clock = s.clock := by
  grind [placeOverlay, raiseUnit_clock, → loadOverlay_clock, startEngines_clock, startHold_clock]

theorem execPlacementLoad.change_clock {s r st c t} (h : execPlacementLoad.change s r st c = .next t) :
    t.clock = s.clock := by
  unfold execPlacementLoad.change at h
  split at h <;> cases h
  next hx => exact (installImage_clock _ _ _ _).trans (readImage_clock hx)
  next hx => exact (raiseUnit_clock _ _ _).trans (readImage_clock hx)
  · rfl
  all_goals simp

theorem execPlacementLoad_clock {s t} (h : execPlacementLoad s = .next t) : t.clock = s.clock := by
  unfold execPlacementLoad at h
  dsimp only at h
  split at h
  · cases h; rfl
  split at h
  · cases h; rfl
  split at h
  · cases h; rfl
  split at h
  · split at h
    · cases h; simp
    · split at h
      · cases h; rfl
      · exact execPlacementLoad.change_clock h
  · exact execPlacementLoad.change_clock h

@[simp] theorem depart_clock (s r st dead) : (depart s r st dead).clock = s.clock := by simp [depart]

@[simp] theorem saveBank_clock (s d) : (saveBank s d).clock = s.clock := by simp [saveBank]

@[simp] theorem saveAll_clock (s uid d) : (saveAll s uid d).2.clock = s.clock := by simp [saveAll]

@[simp] theorem resumeOne_clock (s k d r) : (resumeOne s k d r).clock = s.clock := by
  grind [resumeOne, saveAll_clock, saveBank_clock, freshId_clock, putCtx_clock, modCell_clock,
    enterSlot_clock]

@[simp] theorem resumeAll_clock (s l) : (resumeAll s l).clock = s.clock := by simp [resumeAll]

theorem execStrandResume_clock {r k s t} (h : execStrandResume r k s = .next t) : t.clock = s.clock := by
  grind [execStrandResume, resumeAll_clock]

@[simp] theorem releaseHeld_clock (s uid) : (releaseHeld s uid).clock = s.clock := rfl

@[simp] theorem dropUid_clock (s uid) : (dropUid s uid).clock = s.clock := by unfold dropUid; split <;> simp

@[simp] theorem retire_clock (s st failed) : (retire s st failed).clock = s.clock := by simp [retire]

theorem execStrandEnd_clock {s t} (h : execStrandEnd s = .next t) : t.clock = s.clock := by
  grind [execStrandEnd, raiseDrain_clock, countRegion_clock, retire_clock, setStat_clock]

theorem storeCflag_clock {s part l t} (h : storeCflag s part l = .ok t) : t.clock = s.clock := by
  grind [storeCflag, → writeVirt_clock]

theorem execLaunchComplete_clock {part launch s t} (h : execLaunchComplete part launch s = .next t) :
    t.clock = s.clock := by
  grind [execLaunchComplete, flushChain_clock, modLaunch_clock, → storeCflag_clock, startHold_clock,
    dropAnswers_clock, logTrap_clock]

@[simp] theorem refuseBox_clock (s part key c) : (refuseBox s part key c).clock = s.clock := rfl

@[simp] theorem failBox_clock (s r part t) : (failBox s r part t).clock = s.clock := by simp [failBox]

@[simp] theorem keepGo_clock (s part key) : (keepGo s part key).clock = s.clock := rfl

@[simp] theorem startBox_clock (s part r b) : (startBox s part r b).clock = s.clock := by
  grind [startBox, failBox_clock, → readImage_clock, keepGo_clock, startHold_clock, refuseBox_clock,
    → admitRegion_clock, freshId_clock, enterSlot_clock, takeAreas_clock]

@[simp] theorem requestStop_clock (s st) : (requestStop s st).clock = s.clock := rfl

theorem execMailboxGo_clock {part r s t} (h : execMailboxGo part r s = .next t) : t.clock = s.clock := by
  grind [execMailboxGo, requestStop_clock, modBox_clock, setStat_clock, startBox_clock]

@[simp] theorem giveBlock_clock (s r) : (giveBlock s r).clock = s.clock := by simp [giveBlock]

theorem execBlockSwitch_clock {s t} (h : execBlockSwitch s = .next t) : t.clock = s.clock := by
  grind [execBlockSwitch, giveBlock_clock, putStrand_clock]

theorem execBlockTimeExpiry_clock {s t} (h : execBlockTimeExpiry s = .next t) : t.clock = s.clock := by
  cases h
  simp

theorem execSliceExpiry_clock {s t} (h : execSliceExpiry s = .next t) : t.clock = s.clock := by
  grind [execSliceExpiry, requestStop_clock]

theorem execPreemptionRequest_clock {s t} (h : execPreemptionRequest s = .next t) : t.clock = s.clock := by
  grind [execPreemptionRequest, putStrand_clock, requestStop_clock]

@[simp] theorem dropTiles_clock (s cell l st) : (dropTiles s cell l st).2.clock = s.clock := by
  unfold dropTiles
  refine (foldl_snd_clock (fun x n => freeAcc_clock x.2 cell x.1 _) _ _).trans ?_
  exact foldl_snd_clock (fun x n => freeOm_clock x.2 cell x.1 _) _ _

theorem execLullStop_clock {s t} (h : execLullStop s = .next t) : t.clock = s.clock := by
  grind [execLullStop, countRegion_clock, dropTiles_clock, depart_clock]

theorem execForcedSave_clock {s t} (h : execForcedSave s = .next t) : t.clock = s.clock := by
  grind [execForcedSave, countRegion_clock, depart_clock, putStrand_clock]

theorem rereadBlock_clock {die part r s x' t} (h : rereadBlock die part r s = .ok (x', t)) :
    t.clock = s.clock := by
  grind [rereadBlock, bind_eq_match, → readBlock_clock]

theorem rereadChain_clock {die part l s x' t} (h : rereadChain die part l s = .ok (x', t)) :
    t.clock = s.clock := by
  induction l generalizing s x' t with
  | nil => cases h; rfl
  | cons r rest ih =>
    unfold rereadChain at h
    obtain ⟨⟨b, s1⟩, h1, h⟩ := bind_eq_ok.mp h
    obtain ⟨⟨l, s2⟩, h2, h⟩ := bind_eq_ok.mp h
    cases h
    exact (ih h2).trans (rereadBlock_clock h1)

theorem rereadOne_clock {die s r t} (h : rereadOne die s r = .ok t) : t.clock = s.clock := by
  grind [rereadOne, bind_eq_match, → rereadChain_clock, modDie_clock, addLog_clock]

theorem execRegionReread_clock {die s t} (h : execRegionReread die s = .next t) : t.clock = s.clock := by
  unfold execRegionReread at h
  dsimp only at h
  split at h
  · cases h; rfl
  split at h <;> cases h
  next hx => exact (modDie_clock _ _ _).trans (foldlM_clock (fun _ _ _ h => rereadOne_clock h) hx)
  · simp
  · rfl

theorem execEnergyPeriodStart_clock {s t} (h : execEnergyPeriodStart s = .next t) : t.clock = s.clock := by
  unfold execEnergyPeriodStart at h
  split at h
  · rw [← Outcome.next.inj h, modHub_clock]
    exact foldl_clock (fun u d => foldl_clock (fun v r => flushEnergy_clock v d r) _ _) _ _
  · cases h; rfl

/-! ## Faults after they are raised -/

@[simp] theorem deliverHost_clock (s r st q) : (deliverHost s r st q).clock = s.clock := by simp [deliverHost]

@[simp] theorem takeEntry_clock (s part area i) : (takeEntry s part area i).clock = s.clock := rfl

@[simp] theorem freeEntryAt_clock (s part addr) : (freeEntryAt s part addr).clock = s.clock := rfl

@[simp] theorem failUnit_clock (s die part t) : (failUnit s die part t).clock = s.clock := by simp [failUnit]

theorem deliverHandler_clock {s r st q fhnd u} (h : deliverHandler s r st q fhnd = .done u ∨
    deliverHandler s r st q fhnd = .wait u ∨ deliverHandler s r st q fhnd = .host u) : u.clock = s.clock := by
  unfold deliverHandler at h
  dsimp only at h
  split at h
  · next hx =>
    simp only [HandlerTry.done.injEq, reduceCtorEq, or_false] at h
    subst h
    obtain ⟨⟨w, s1⟩, h1, hx⟩ := bind_eq_ok.mp hx
    rw [← readWords_clock h1]
    dsimp only at hx
    split at hx
    · cases hx
    split at hx
    · cases hx
    obtain ⟨⟨x, s2⟩, h2, hx⟩ := bind_eq_ok.mp hx
    obtain ⟨s3, h3, hx⟩ := bind_eq_ok.mp hx
    obtain ⟨⟨ans, s4⟩, h4, hx⟩ := bind_eq_ok.mp hx
    rw [← translate_clock h2, ← writeVirt_clock h3, ← acceptLaunch_clock h4]
    dsimp only at hx
    split at hx <;> cases hx
    simp
  all_goals
    simp only [HandlerTry.wait.injEq, HandlerTry.host.injEq, reduceCtorEq, or_false, false_or] at h
    subst h
    simp

theorem execFaultDeliver_clock {s t} (h : execFaultDeliver s = .next t) : t.clock = s.clock := by
  unfold execFaultDeliver at h
  dsimp only at h
  split at h
  · cases h; rfl
  split at h
  · split at h
    · split at h
      · split at h <;> cases h
        next hd => exact deliverHandler_clock (.inl hd)
        next hd => exact deliverHandler_clock (.inr (.inl hd))
        next hd =>
          split
          · exact (deliverHost_clock _ _ _ _).trans (deliverHandler_clock (.inr (.inr hd)))
          · rfl
      · cases h; simp
    · cases h; simp
  · cases h; rfl

@[simp] theorem flushStores_clock (s uid) : (flushStores s uid).clock = s.clock := by
  unfold flushStores
  split
  · rfl
  · refine foldl_clock (fun u a => ?_) _ _
    split
    · split <;> simp
    · rfl

@[simp] theorem dropSaved_clock (s cell part uid) : (dropSaved s cell part uid).clock = s.clock := by
  unfold dropSaved
  exact foldl_clock (fun s a => by split <;> simp) _ _

@[simp] theorem giveUp_clock (s uid part) : (giveUp s uid part).clock = s.clock := by simp [giveUp]

@[simp] theorem terminateUid_clock (s uid cause) : (terminateUid s uid cause).clock = s.clock := by
  unfold terminateUid
  split
  · simp
  · split <;> simp

@[simp] theorem restartUid_clock (s uid) : (restartUid s uid).clock = s.clock := by
  unfold restartUid
  split <;> simp

@[simp] theorem resumeUid_clock (s uid q) : (resumeUid s uid q).clock = s.clock := by
  grind [resumeUid, modByUid_clock, setChan_clock]

@[simp] theorem applyAction_clock (s uid action) : (applyAction s uid action).clock = s.clock := by
  unfold applyAction
  split
  · simp
  · split <;> simp

@[simp] theorem resolveEntry_clock (s part k) : (resolveEntry s part k).clock = s.clock := by
  grind [resolveEntry, applyAction_clock]

theorem execFaultTailWrite_clock {part tail s t} (h : execFaultTailWrite part tail s = .next t) :
    t.clock = s.clock := by
  unfold execFaultTailWrite at h
  dsimp only at h
  split at h <;> rw [← Outcome.next.inj h]
  rw [foldl_clock (fun u i => resolveEntry_clock u part _), modFn_clock]

theorem readAction_clock {s part home va pa x' t} (h : readAction s part home va pa = .ok (x', t)) :
    t.clock = s.clock := by
  grind [readAction, settleLines_clock, → takeAnswer_clock, failUnit_clock]

theorem execFaultHandlerComplete_clock {s t} (h : execFaultHandlerComplete s = .next t) :
    t.clock = s.clock := by
  grind [execFaultHandlerComplete, → readAction_clock, applyAction_clock, freeEntryAt_clock, startHold_clock]

@[simp] theorem copyWatchdog_clock (s cell ch) : (copyWatchdog s cell ch).clock = s.clock := by
  unfold copyWatchdog
  split <;> simp

theorem execWatchdog_clock {w s t} (h : execWatchdog w s = .next t) : t.clock = s.clock := by
  unfold execWatchdog at h
  grind [copyWatchdog_clock, putStrand_clock, raiseAt_clock]

theorem execErrorLogDrain_clock {log s t} (h : execErrorLogDrain log s = .next t) : t.clock = s.clock := by
  cases h
  simp

theorem execPatrolScrub_clock {addr s t} (h : execPatrolScrub addr s = .next t) : t.clock = s.clock := by
  grind [execPatrolScrub, modHub_clock, addLog_clock]

@[simp] theorem endCommand_clock (s l) : (endCommand s l).clock = s.clock := rfl

@[simp] theorem clearContexts_clock (s cell) : (clearContexts s cell).clock = s.clock := by
  simp [clearContexts]

@[simp] theorem fenceCell_clock (s cell) : (fenceCell s cell).clock = s.clock := by simp [fenceCell]

theorem execCellTestComplete_clock {cell pass s t} (h : execCellTestComplete cell pass s = .next t) :
    t.clock = s.clock := by
  have hf (u : State) (uid : Nat) : (terminateUid u uid (Cause.code .uncorrectable)).clock = u.clock :=
    terminateUid_clock u uid _
  unfold execCellTestComplete at h
  dsimp only at h
  split at h
  · cases h; rfl
  rw [← Outcome.next.inj h]
  split <;> split <;> simp [foldl_clock hf]

/-! ## Partitions -/

@[simp] theorem emitRecord_clock (s kind part) : (emitRecord s kind part).clock = s.clock := rfl

theorem execUsageRecordEmit_clock {s t} (h : execUsageRecordEmit s = .next t) : t.clock = s.clock := by
  unfold execUsageRecordEmit at h
  dsimp only at h
  split at h
  · cases h; rfl
  split at h <;> rw [← Outcome.next.inj h]
  · simp
  · refine (foldl_clock (fun u p => ?_) _ _).trans (modHub_clock _ _)
    split <;> simp

@[simp] theorem signBytes_clock (s l) : (signBytes s l).2.clock = s.clock := rfl

theorem execSealComplete_clock {s t} (h : execSealComplete s = .next t) : t.clock = s.clock := by
  grind [execSealComplete, signBytes_clock, modHub_clock, sendMsix_clock]

@[simp] theorem moveToService_clock (s part fs) : (moveToService s part fs).clock = s.clock := rfl

@[simp] theorem writeRoot_clock (s part) : (writeRoot s part).clock = s.clock := by
  grind [writeRoot, → writeVirt_clock]

@[simp] theorem createContext_clock (s part q) : (createContext s part q).clock = s.clock := rfl

theorem createSteps_clock {s part q t} (h : createSteps s part q = .ok t) : t.clock = s.clock := by
  have hcoll (u : State) (d : Nat) : (putColl u d part { shares := q.stg, ops := q.ops }).clock = u.clock :=
    putColl_clock u d part _
  unfold createSteps at h
  extract_lets s1 counters s2 s3 tables s4 extra s5 s6 s7 s8 s9 at h
  split at h
  · cases h
  split at h
  · cases h
  split at h
  · cases h
  rw [← Except.ok.inj h]
  have h4 : s4.clock = s.clock := by simp [s4, s3, s2, s1]
  have h6 : s6.clock = s.clock := by simp [s6, s5, h4]
  have h7 : s7.clock = s.clock := (foldl_clock hcoll _ _).trans h6
  have h8 : s8.clock = s.clock := (foldl_clock (fun u c => createContext_clock u part c) _ _).trans h7
  simp [s9, h8]

@[simp] theorem undoCreate_clock (s part q) : (undoCreate s part q).clock = s.clock := rfl

@[simp] theorem beginTeardown_clock (s part) : (beginTeardown s part).clock = s.clock := by
  unfold beginTeardown
  exact foldl_clock (fun s a => by grind [requestStop_clock]) _ _

@[simp] theorem endStrands_clock (s part) : (endStrands s part).clock = s.clock := by simp [endStrands]

@[simp] theorem zeroiseKey_clock (s part fs) : (zeroiseKey s part fs).clock = s.clock := rfl

@[simp] theorem dropCaches_clock (s part) : (dropCaches s part).clock = s.clock := rfl

@[simp] theorem finishTeardown_clock (s part) : (finishTeardown s part).clock = s.clock := by
  simp [finishTeardown]

@[simp] theorem zeroFrames_clock (s fs) : (zeroFrames s fs).clock = s.clock := rfl

@[simp] theorem freePart_clock (s part) : (freePart s part).clock = s.clock := rfl

@[simp] theorem finishScrub_clock (s x rest) : (finishScrub s x rest).clock = s.clock := by simp [finishScrub]

theorem execScrubComplete_clock {s t} (h : execScrubComplete s = .next t) : t.clock = s.clock := by
  grind [execScrubComplete, modHub_clock, finishScrub_clock]

/-! ## The management function -/

@[simp] theorem setAccErr_clock (s fn) : (setAccErr s fn).clock = s.clock := by simp [setAccErr]

@[simp] theorem refuseCommand_clock (s) : (refuseCommand s).clock = s.clock := rfl

theorem tryCreate_clock {s w u} (h : tryCreate s w = .wait u ∨ (∃ step a, tryCreate s w = .fails u step a) ∨
    ∃ p, tryCreate s w = .done u p) : u.clock = s.clock := by
  unfold tryCreate at h
  split at h
  · simp_all
  split at h
  · split at h <;> simp_all
  · simp only [reduceCtorEq, CreateTry.fails.injEq, false_or, exists_false, or_false] at h
    obtain ⟨_, _, rfl, -⟩ := h
    simp
  · simp only [reduceCtorEq, CreateTry.wait.injEq, exists_false, or_false] at h
    subst h
    simp
  · split at h
    next hx =>
      simp only [reduceCtorEq, CreateTry.done.injEq, exists_false, false_or] at h
      obtain ⟨_, rfl, -⟩ := h
      exact (emitRecord_clock _ _ _).trans (createSteps_clock hx)
    · simp only [reduceCtorEq, CreateTry.fails.injEq, false_or, exists_false, or_false] at h
      obtain ⟨_, _, rfl, -⟩ := h
      simp

theorem startCommand_clock {s t : State} {code : Nat} {early : Bool} {used : List Nat} {body : State → State}
    (hf : ∀ u, (body u).clock = u.clock) (h : startCommand s code early used body = .next t) :
    t.clock = s.clock := by
  unfold startCommand at h
  split at h
  · cases h; simp
  · dsimp only at h
    split at h
    · cases h; simp
    · split at h <;> cases h <;> simp [hf]

@[simp] theorem goCreate_clock (s w) : (goCreate s w).clock = s.clock := by
  unfold goCreate
  split
  next hx => exact (modHub_clock _ _).trans (tryCreate_clock (.inl hx))
  next hx =>
    rw [endCommand_clock, modHub_clock]
    exact tryCreate_clock (.inr (.inl ⟨_, _, hx⟩))
  next hx =>
    rw [endCommand_clock, modHub_clock]
    exact tryCreate_clock (.inr (.inr ⟨_, hx⟩))

theorem execCreate_clock {req s t} (h : execCreate req s = .next t) : t.clock = s.clock := by
  unfold execCreate at h
  split at h
  · cases h; rfl
  · refine startCommand_clock (fun u => ?_) h
    split <;> simp

theorem execTeardown_clock {s t} (h : execTeardown s = .next t) : t.clock = s.clock := by
  refine startCommand_clock (fun u => ?_) h
  dsimp only
  split <;> simp

theorem execMgmtInval_clock {s t} (h : execMgmtInval s = .next t) : t.clock = s.clock := by
  refine startCommand_clock (fun u => ?_) h
  dsimp only
  split
  · simp
  split
  · simp
  split <;> simp

theorem execLogread_clock {s t} (h : execLogread s = .next t) : t.clock = s.clock := by
  refine startCommand_clock (fun u => ?_) h
  dsimp only
  split <;> simp

theorem execMack_clock {s t} (h : execMack s = .next t) : t.clock = s.clock := by
  refine startCommand_clock (fun u => ?_) h
  dsimp only
  split <;> simp

theorem execMfetch_clock {s t} (h : execMfetch s = .next t) : t.clock = s.clock := by
  unfold execMfetch at h
  refine startCommand_clock (fun u => ?_) h
  dsimp only
  split
  · split
    · split <;> simp
    · simp
  · split <;> simp

@[simp] theorem attestBytes_clock (s nonce) : (attestBytes s nonce).2.clock = s.clock := by
  grind [attestBytes, signBytes_clock, modHub_clock]

theorem execAttest_clock {s t} (h : execAttest s = .next t) : t.clock = s.clock := by
  refine startCommand_clock (fun u => ?_) h
  dsimp only
  split <;> simp

theorem execFwstage_clock {s t} (h : execFwstage s = .next t) : t.clock = s.clock :=
  startCommand_clock (fun u => by simp) h

theorem execFwcommit_clock {verified s t} (h : execFwcommit verified s = .next t) : t.clock = s.clock := by
  refine startCommand_clock (fun u => ?_) h
  dsimp only
  split <;> simp

theorem execFabric_clock {table s t} (h : execFabric table s = .next t) : t.clock = s.clock := by
  unfold execFabric at h
  split at h
  · cases h; rfl
  · refine startCommand_clock (fun u => ?_) h
    split
    · simp
    · split <;> simp

theorem execCap_clock {s t} (h : execCap s = .next t) : t.clock = s.clock := by
  refine startCommand_clock (fun u => ?_) h
  dsimp only
  split <;> simp

theorem execCelltest_clock {s t} (h : execCelltest s = .next t) : t.clock = s.clock := by
  refine startCommand_clock (fun u => ?_) h
  dsimp only
  split
  · simp
  · split <;> simp

theorem execTelem_clock {s t} (h : execTelem s = .next t) : t.clock = s.clock :=
  startCommand_clock (fun u => by simp) h

@[simp] theorem goOn_clock (s) : (goOn s).clock = s.clock := by unfold goOn; split <;> simp

theorem execMgmtCommandComplete_clock {s t} (h : execMgmtCommandComplete s = .next t) :
    t.clock = s.clock := by
  grind [execMgmtCommandComplete, goOn_clock, modHub_clock, sendMsix_clock]

/-! ## The host's registers, resets and sensors -/

theorem execBarAccessError_clock {fn isRead s t} (h : execBarAccessError fn isRead s = .next t) :
    t.clock = s.clock := by
  cases h
  simp

@[simp] theorem writeBar0_clock (s fn off size v) : (writeBar0 s fn off size v).clock = s.clock := by
  simp [writeBar0]

theorem writeBar2_clock {s off size v t} (h : writeBar2 s off size v = .next t) : t.clock = s.clock := by
  unfold writeBar2 at h
  split at h
  · cases h; simp
  split at h
  · split at h
    · cases h; simp
    split at h
    · cases h; rfl
    · exact startCommand_clock refuseCommand_clock h
  · cases h; rfl

theorem execRegisterWrite_clock {fn bar off size v s t}
    (h : execRegisterWrite fn bar off size v s = .next t) : t.clock = s.clock := by
  grind [execRegisterWrite, setAccErr_clock, writeBar0_clock, → writeBar2_clock]

theorem execThermalThrottle_clock {die s t} (h : execThermalThrottle die s = .next t) :
    t.clock = s.clock := by
  grind [execThermalThrottle, modDie_clock]

theorem execThermalShutdown_clock {die s t} (h : execThermalShutdown die s = .next t) :
    t.clock = s.clock := by
  unfold execThermalShutdown at h
  dsimp only at h
  split at h <;> rw [← Outcome.next.inj h]
  simp

theorem execTelemetryAlarm_clock {x s t} (h : execTelemetryAlarm x s = .next t) : t.clock = s.clock := by
  have hf (u : State) (d : Nat) : (modDie u d fun y => { y with temp := x.die.getD d 0 }).clock = u.clock :=
    modDie_clock u d _
  unfold execTelemetryAlarm at h
  rw [← Outcome.next.inj h]
  split
  · exact (sendMsix_clock _ _ _).trans ((modHub_clock _ _).trans (foldl_clock hf _ _))
  · exact (modHub_clock _ _).trans (foldl_clock hf _ _)

@[simp] theorem fenceAll_clock (s l) : (fenceAll s l).clock = s.clock := by
  unfold fenceAll
  exact foldl_clock (fun s a => by grind [modCell_clock]) _ _

@[simp] theorem afterReset_clock (s) : (afterReset s).clock = s.clock := rfl

@[simp] theorem readFuses_clock (s b) : (readFuses s b).clock = s.clock := by simp [readFuses]

@[simp] theorem haltBringUp_clock (s) : (haltBringUp s).clock = s.clock := rfl

@[simp] theorem runScrubs_clock (n : Nat) (s : State) : (runScrubs n s).clock = s.clock := by
  induction n generalizing s with
  | zero => rfl
  | succ n ih =>
    unfold runScrubs
    split
    · rfl
    · rw [ih, finishScrub_clock]

theorem createService_clock {s w t} (h : createService s w = some t) : t.clock = s.clock := by
  unfold createService at h
  grind [→ createSteps_clock, emitRecord_clock, modHub_clock]

@[simp] theorem bringUp_clock (s link b) : (bringUp s link b).clock = s.clock := by
  grind [bringUp, haltBringUp_clock, modHub_clock, runScrubs_clock, → createService_clock]

theorem execColdReset_clock {b s t} (h : execColdReset b s = .next t) : t.clock = s.clock := by cases h; simp

theorem execWarmReset_clock {linkUp b s t} (h : execWarmReset linkUp b s = .next t) : t.clock = s.clock := by
  cases h
  simp

theorem execStandbyPowerLoss_clock {s t} (h : execStandbyPowerLoss s = .next t) : t.clock = s.clock := by
  cases h
  simp

/-! ## Upsets -/

@[simp] theorem stopWork_clock (before after : State) (r a b) :
    (stopWork before after r a b).clock = before.clock := by
  simp [stopWork]

/-- An upset that strikes discards what the word did and raises its fault on the state before the word. -/
theorem strike_clock {s t : State} {w : Walker} {raise : State → Trap → State}
    {o : Outcome State Fault Refusal} (hr : ∀ u x, u.clock = s.clock → (raise u x).clock = s.clock)
    (ho : ∀ u, o = .next u → u.clock = s.clock) (h : strike s w raise o = .next t) : t.clock = s.clock := by
  unfold strike at h
  split at h
  · split at h
    · split at h
      · exact ho _ h
      · cases h
        exact hr _ _ (by simp)
    · exact ho _ h
  · exact ho _ h

theorem lateWork_clock {s w i v raise} (h : lateWork s w i = some (v, raise)) (u : State) (x : Trap) :
    (raise u x).clock = u.clock := by
  unfold lateWork at h
  dsimp only at h
  split at h
  · cases h
  · split at h
    all_goals simp only [Option.map_eq_some_iff, Prod.mk.injEq, reduceCtorEq] at h
    all_goals obtain ⟨_, -, -, rfl⟩ := h
    · simp
    · dsimp only
      split <;> simp
    · simp
    · dsimp only
      split <;> simp

theorem strikeEvent_clock {s t : State} {w : Walker} {i : Instr} {o : Outcome State Fault Refusal}
    (ho : ∀ u, o = .next u → u.clock = s.clock) (h : strikeEvent s w i o = .next t) : t.clock = s.clock := by
  unfold strikeEvent at h
  split at h
  · exact ho _ h
  · next hl _ => exact strike_clock (fun u x hu => (lateWork_clock hl u x).trans hu) ho h
  · exact ho _ h

/-! ## Every instruction

A word given by one of the shared forms above keeps the clock by the lemma of that form. -/

theorem exec_clock {i : Instr} {s t : State} (h : exec i s = .next t) : t.clock = s.clock := by
  unfold exec at h
  cases i with
  | add | sub | mul | mulh | mulhu | and | or | xor | shl | shr | sra | min | max | minu | maxu | cmp
  => exact binC_clock h
  | div | divu | rem | remu => exact divC_clock h
  | clz | popc | addi | andi | ori | xori | shi | lih | cmpi => exact unC_clock h
  | sel | li | mfst | mtst | qsend | qrecv | yield => exact issueC_clock h
  | br | brc | call | jr | loop | loopr | ploop | ret => exact issueAll_clock h
  | waitTime | waitTrig | waitCpy | waitColl => exact waitWord_clock h
  | pushHset | pushHfree | pushHread => exact pushCopy_clock h
  | pushGset | pushGfree | pushCrun => exact pushColl_clock h
  | popCpy | popColl => exact popRecord_clock h
  | launch => exact callWord_clock h
  | sysInval | sysFgive | sysFtake | sysMread => exact sysWord_clock h
  | ld | st | amo => exact accessC_clock h
  | aadd | aset | asetH | asetQ => exact regWord_clock h
  | cpy | cpyh => exact copyWord_clock h
  | badd | bset | bsetH | bsetQ => exact regWordS_clock h
  | sts | stsa => exact scatterEntry_clock h
  | stmqSc | stmqAdd => exact memScatter_clock h
  | vmov | vabs | vneg => exact elementwise_clock h
  | vmovi | vidx => exact laneWord_clock h
  | vbcast | vbcastQ | vnarrow | vcmp | vclass | vsel | vperm | vshuf | vrot | vslide | vred | vany
  | vcompress | vexpand | vconf => exact issueV_clock h
  | vadd | vsub | vmul | vmin | vmax => exact arith2_clock h
  | vfma | vfms => exact arith3_clock h
  | vadds | vsubs | vmulh => exact intWord_clock h
  | vand | vor | vxor | vshl | vshr | vsra => exact bitWord_clock h
  | vwmul | vwadd => exact widen_clock h
  | vcvt => exact issueCharged_clock h
  | vexp2 | vlog2 | vexp | vlog | vrcp | vrsqrt | vsqrt | vtanh | vsigm => exact specialWord_clock h
  | vorient2 | vorient3 | vincirc | vinsph | vsegx => exact predicateWord_clock h
  | vtoix | vtol | vtos => exact formIndex_clock h
  | emsave | emrest | emcomb => exact maskWord_clock h
  | mma | mmaq | mmas | mmag => exact productWord_clock h
  | send | recv | rrs | collCopy | reduce => exact moveStep_clock h
  | exit | sbar => exact stopAt_clock h
  | nop => exact execNop_clock h
  | waitFlag => exact execWaitFlag_clock h
  | trap => exact execTrap_clock h
  | fence => exact execFence_clock h
  | barrierComplete => exact execBarrierComplete_clock h
  | ovl => exact execOvl_clock h
  | bind => exact execBind_clock h
  | pfl => exact execPfl_clock h
  | sdset => exact execSdset_clock h
  | ldq => exact execLdq_clock h
  | ldqs => exact execLdqs_clock h
  | ldg => exact execLdg_clock h
  | ldpk => exact execLdpk_clock h
  | ldmq => exact execLdmq_clock h
  | omfill => exact execOmfill_clock h
  | omfillComplete => exact execOmfillComplete_clock h
  | copyStart => exact execCopyStart_clock h
  | copyComplete => exact execCopyComplete_clock h
  | copyChannelFault => exact execCopyChannelFault_clock h
  | rps => exact execRps_clock h
  | pf => exact execPf_clock h
  | stq => exact execStq_clock h
  | stqs => exact execStqs_clock h
  | stpk => exact execStpk_clock h
  | stmq => exact execStmq_clock h
  | bput => exact execBput_clock h
  | bputErrorResponse => exact execBputErrorResponse_clock h
  | vaccrd => exact execVaccrd_clock h
  | vaccwr => exact execVaccwr_clock h
  | vspill => exact execVspill_clock h
  | vfill => exact execVfill_clock h
  | mclaim => exact execMclaim_clock h
  | mrel => exact execMrel_clock h
  | mzero => exact execMzero_clock h
  | matrixGrant => exact execMatrixGrant_clock h
  | mnset => exact execMnset_clock h
  | mnest => exact execMnest_clock h
  | mdrain => exact execMdrain_clock h
  | mpload => exact execMpload_clock h
  | mpbind => exact execMpbind_clock h
  | mtog => exact execMtog_clock h
  | boundOpcode => exact execBoundOpcode_clock h
  | resultLands => exact execResultLands_clock h
  | tokenPush => exact execTokenPush_clock h
  | collWait => exact execCollWait_clock h
  | collLoop => exact execCollLoop_clock h
  | collEndl => exact execCollEndl_clock h
  | collEnd => exact execCollEnd_clock h
  | collMessageArrive => exact execCollMessageArrive_clock h
  | collTimeout => exact execCollTimeout_clock h
  | abortReceive => exact execAbortReceive_clock h
  | abortAck => exact execAbortAck_clock h
  | switchFailure => exact execSwitchFailure_clock h
  | remoteResponse => exact execRemoteResponse_clock h
  | remoteTimeout => exact execRemoteTimeout_clock h
  | portDown => exact execPortDown_clock h
  | epnerFlitReceive => exact execEpnerFlitReceive_clock h
  | hostCompletion => exact execHostCompletion_clock h
  | hostCompletionTimeout => exact execHostCompletionTimeout_clock h
  | pullDataArrive => exact execPullDataArrive_clock h
  | pullAttemptTimeout => exact execPullAttemptTimeout_clock h
  | pullGiveUp => exact execPullGiveUp_clock h
  | invalidationComplete => exact execInvalidationComplete_clock h
  | strandDispatch => exact execStrandDispatch_clock h
  | launchComplete => exact execLaunchComplete_clock h
  | strandResume => exact execStrandResume_clock h
  | resourceRestore => exact execResourceRestore_clock h
  | mailboxGo => exact execMailboxGo_clock h
  | regionReread => exact execRegionReread_clock h
  | grantWindowStart => exact execGrantWindowStart_clock h
  | faultTailWrite => exact execFaultTailWrite_clock h
  | watchdog => exact execWatchdog_clock h
  | errorLogDrain => exact execErrorLogDrain_clock h
  | patrolScrub => exact execPatrolScrub_clock h
  | cellTestComplete => exact execCellTestComplete_clock h
  | create => exact execCreate_clock h
  | fwcommit => exact execFwcommit_clock h
  | fabric => exact execFabric_clock h
  | barAccessError => exact execBarAccessError_clock h
  | registerWrite => exact execRegisterWrite_clock h
  | coldReset => exact execColdReset_clock h
  | warmReset => exact execWarmReset_clock h
  | thermalThrottle => exact execThermalThrottle_clock h
  | thermalShutdown => exact execThermalShutdown_clock h
  | accessPerform => exact execAccessPerform_clock h
  | remoteRequestArrive => exact execRemoteRequestArrive_clock h
  | bputRowArrive => exact execBputRowArrive_clock h
  | abortGiveUp => exact execAbortGiveUp_clock h
  | inFabricGrant => exact execInFabricGrant_clock h
  | telemetryAlarm => exact execTelemetryAlarm_clock h
  | loopEndReached => exact execLoopEndReached_clock h
  | waitFlagPoll => exact execWaitFlagPoll_clock h
  | waitConditionTrue => exact execWaitConditionTrue_clock h
  | trig => exact execTrig_clock h
  | overlayRefill => exact execOverlayRefill_clock h
  | rpsPush => exact execRpsPush_clock h
  | branchOutcome => exact execBranchOutcome_clock h
  | storeDataStage => exact execStoreDataStage_clock h
  | predicateComplete => exact execPredicateComplete_clock h
  | mclaimRetry => exact execMclaimRetry_clock h
  | nestStep => exact execNestStep_clock h
  | productWordComplete => exact execProductWordComplete_clock h
  | microStep => exact execMicroStep_clock h
  | placementLoad => exact execPlacementLoad_clock h
  | strandEnd => exact execStrandEnd_clock h
  | blockSwitch => exact execBlockSwitch_clock h
  | blockTimeExpiry => exact execBlockTimeExpiry_clock h
  | sliceExpiry => exact execSliceExpiry_clock h
  | preemptionRequest => exact execPreemptionRequest_clock h
  | lullStop => exact execLullStop_clock h
  | forcedSave => exact execForcedSave_clock h
  | energyPeriodStart => exact execEnergyPeriodStart_clock h
  | faultDeliver => exact execFaultDeliver_clock h
  | faultHandlerComplete => exact execFaultHandlerComplete_clock h
  | scrubComplete => exact execScrubComplete_clock h
  | usageRecordEmit => exact execUsageRecordEmit_clock h
  | sealComplete => exact execSealComplete_clock h
  | teardown => exact execTeardown_clock h
  | mgmtInval => exact execMgmtInval_clock h
  | logread => exact execLogread_clock h
  | mack => exact execMack_clock h
  | mfetch => exact execMfetch_clock h
  | attest => exact execAttest_clock h
  | fwstage => exact execFwstage_clock h
  | cap => exact execCap_clock h
  | celltest => exact execCelltest_clock h
  | telem => exact execTelem_clock h
  | mgmtCommandComplete => exact execMgmtCommandComplete_clock h
  | standbyPowerLoss => exact execStandbyPowerLoss_clock h

/-! ## A step of the package -/

@[simp] theorem nextActor_clock (s : State) : (nextActor s).2.clock = s.clock := by
  unfold nextActor
  split <;> rfl

@[simp] theorem decayUnit_clock (s : State) (u : Machine.PUnit) : (decayUnit s u).clock = s.clock := by
  cases u <;> simp only [decayUnit, modByUid_clock]
  split <;> simp

theorem stepEngine_clock {s t : State} {w : Walker} (h : stepEngine s w = .next t) : t.clock = s.clock := by
  have hcur : ({ s with cur := w } : State).clock = s.clock := rfl
  unfold stepEngine at h
  generalize ({ s with cur := w } : State) = u at h hcur
  rw [← hcur]
  dsimp only at h
  split at h
  · cases h; rfl
  · cases h; simp
  · cases h; simp
  · exact exec_clock h
  · exact strike_clock (fun v x hv => (raiseWord_clock v w x).trans hv) (fun _ => exec_clock) h
  · exact strike_clock (fun v x hv => (raiseWord_clock v w x).trans hv) (fun _ => exec_clock) h

@[simp] theorem tickClock_clock (s : State) (n : Nat) : (tickClock s n).clock = s.clock + n := by
  simp [tickClock]

/-- Time passes in a tick only: every other actor leaves the clock as it is. -/
theorem step_clock {s t : State} (h : step s = .next t) :
    t.clock = s.clock ∨ ∃ n, t.clock = s.clock + n := by
  rw [← nextActor_clock s]
  unfold step at h
  generalize nextActor s = x at h
  obtain ⟨a, u⟩ := x
  cases a with
  | tick n => exact .inr ⟨n, Outcome.next.inj h ▸ tickClock_clock u n⟩
  | event w i => exact .inl ((strikeEvent_clock (s := { u with cur := w }) (fun _ => exec_clock) h).trans rfl)
  | engine w => exact .inl (stepEngine_clock h)
  | advance r id => exact .inl (Outcome.next.inj h ▸ advanceAccess_clock u r id)
  | upset x => exact .inl (Outcome.next.inj h ▸ rfl)
  | decay x => exact .inl (Outcome.next.inj h ▸ decayUnit_clock u x)

/-- Settles O16: every instruction leaves the clock as it is (`exec_clock`), and of the actors of a step only a
tick moves it, forward (`step_clock`). -/
theorem clockNeverTurnsBack : Obligations.ClockNeverTurnsBack := by
  refine ⟨fun _ _ _ => exec_clock, fun s t h => ?_⟩
  obtain heq | ⟨n, hn⟩ := step_clock h <;> omega

end Sys2Proof.Proofs

namespace Sys2Proof.Proofs
open Sys2Proof

/-! # Decoding and encoding (R25 to R52)

A field of a word that `pack` has laid out is a slice of the one entry that it lies in. So each parser, run on the word
that the encoder has made of its operands, gives the operands back; `decode` then has nothing left to refuse. -/

/-! ## Fields of a packed word -/

/-- Bits lo + n - 1 : lo of a number. -/
def slice (x lo n : Nat) : Nat := x / 2 ^ lo % 2 ^ n

theorem slice_above {acc n v lo k : Nat} (hv : v < 2 ^ n) (h : n ≤ lo) :
    slice (acc * 2 ^ n + v) lo k = slice acc (lo - n) k := by
  have hl : 2 ^ lo = 2 ^ n * 2 ^ (lo - n) := by rw [← Nat.pow_add]; congr 1; omega
  have hq : (acc * 2 ^ n + v) / 2 ^ n = acc := by
    rw [Nat.mul_comm, Nat.mul_add_div (Nat.two_pow_pos n), Nat.div_eq_of_lt hv, Nat.add_zero]
  rw [slice, slice, hl, ← Nat.div_div_eq_div_mul, hq]

theorem slice_within {acc n v lo k : Nat} (h : lo + k ≤ n) : slice (acc * 2 ^ n + v) lo k = slice v lo k := by
  obtain ⟨m, rfl⟩ := Nat.exists_eq_add_of_le h
  have hn : acc * 2 ^ (lo + k + m) = 2 ^ lo * (2 ^ k * (acc * 2 ^ m)) := by rw [Nat.pow_add, Nat.pow_add]; ring
  rw [slice, slice, hn, Nat.mul_add_div (Nat.two_pow_pos lo), Nat.mul_add_mod]

theorem slice_self {v k : Nat} (h : v < 2 ^ k) : slice v 0 k = v := by
  rw [slice, Nat.pow_zero, Nat.div_one, Nat.mod_eq_of_lt h]

theorem slice_mod_word {N lo n : Nat} (h : lo + n ≤ 64) : slice (N % 2 ^ 64) lo n = slice N lo n := by
  have hs := slice_within (acc := N / 2 ^ 64) (v := N % 2 ^ 64) h
  rwa [Nat.mul_comm, Nat.div_add_mod, eq_comm] at hs

theorem field_ofNat {N lo n : Nat} (h : lo + n ≤ 64) :
    field (BitVec.ofNat 64 N) lo n = BitVec.ofNat n (slice N lo n) := by
  apply BitVec.eq_of_toNat_eq
  have hs := slice_mod_word (N := N) h
  simp only [slice] at hs
  simp only [field, BitVec.toNat_ofNat, slice, hs, Nat.mod_mod]

theorem flag_ofNat {N i : Nat} (h : i < 64) : flag (BitVec.ofNat 64 N) i = decide (slice N i 1 = 1) := by
  have hs := slice_mod_word (N := N) (lo := i) (n := 1) h
  rw [slice, Nat.pow_one] at hs
  rw [flag, BitVec.toNat_ofNat, hs]

/-- A field of a word is its slice of the entry of the format in which it lies. -/
theorem packed_fields :
    (∀ n v fs, pack ((n, v) :: fs) = BitVec.ofNat 64 (fs.foldl (fun acc f => acc * 2 ^ f.1 + f.2) v)) ∧
    (∀ (acc : Nat) (f : Nat × Nat) fs, (f :: fs).foldl (fun acc f => acc * 2 ^ f.1 + f.2) acc =
      fs.foldl (fun acc f => acc * 2 ^ f.1 + f.2) (acc * 2 ^ f.1 + f.2)) ∧
    (∀ acc : Nat, ([] : List (Nat × Nat)).foldl (fun acc f => acc * 2 ^ f.1 + f.2) acc = acc) ∧
    (∀ N lo n, lo + n ≤ 64 → field (BitVec.ofNat 64 N) lo n = BitVec.ofNat n (slice N lo n)) ∧
    (∀ N i, i < 64 → flag (BitVec.ofNat 64 N) i = decide (slice N i 1 = 1)) ∧
    (∀ acc n v lo k, v < 2 ^ n → n ≤ lo → slice (acc * 2 ^ n + v) lo k = slice acc (lo - n) k) ∧
    (∀ acc n v lo k, lo + k ≤ n → slice (acc * 2 ^ n + v) lo k = slice v lo k) ∧
    (∀ v k, v < 2 ^ k → slice v 0 k = v) ∧
    (∀ n (x : BitVec n), BitVec.ofNat n x.toNat = x) ∧ (∀ n v, v < 2 ^ n → (BitVec.ofNat n v).toNat = v) :=
  ⟨fun n v fs => by rw [pack, List.foldl_cons, Nat.zero_mul, Nat.zero_add], fun _ _ _ => rfl, fun _ => rfl,
    fun _ _ _ => field_ofNat, fun _ _ => flag_ofNat, fun _ _ _ _ _ => slice_above, fun _ _ _ _ _ => slice_within,
    fun _ _ => slice_self, fun _ x => by rw [BitVec.ofNat_toNat, BitVec.setWidth_eq],
    fun _ _ h => by rw [BitVec.toNat_ofNat, Nat.mod_eq_of_lt h]⟩

/-- The entries of each format, high bits first (R25, R37). -/
theorem format_entries :
    (∀ op tag lat tk d a b c fn ty mk rm md, encR op tag lat tk d a b c fn ty mk rm md =
      pack [(8, op), (3, tag), (4, lat), (4, tk), (7, d), (7, a), (7, b), (7, c), (5, fn), (4, ty), (2, mk), (2, rm),
        (4, md)]) ∧
    (∀ op tag lat tk d a ty imm, encI op tag lat tk d a ty imm =
      pack [(8, op), (3, tag), (4, lat), (4, tk), (7, d), (7, a), (4, ty), (27, imm)]) ∧
    (∀ op tag lat tk oc d base sd sz cp aq rl off, encM op tag lat tk oc d base sd sz cp aq rl off =
      pack [(8, op), (3, tag), (4, lat), (4, tk), (4, oc), (7, d), (5, base), (4, sd), (3, sz), (2, cp), (1, aq),
        (1, rl), (18, off)]) ∧
    (∀ op cond lv lt g off, encB op cond lv lt g off =
      pack [(8, op), (3, 5), (4, 0), (4, 0), (4, cond), (1, lv), (1, lt), (5, g), (2, 0), (32, off)]) ∧
    (∀ op tag lat tk ga gb qid imm, encQ op tag lat tk ga gb qid imm =
      pack [(8, op), (3, tag), (4, lat), (4, tk), (5, ga), (5, gb), (4, qid), (31, imm)]) ∧
    (∀ op tk acc oma omb pat qmask ta tb am fn, encN op tk acc oma omb pat qmask ta tb am fn =
      pack [(8, op), (3, 3), (4, 0), (4, tk), (4, acc), (5, oma), (5, omb), (5, pat), (4, qmask), (1, ta), (1, tb),
        (2, am), (18, fn)]) :=
  ⟨fun _ _ _ _ _ _ _ _ _ _ _ _ _ => rfl, fun _ _ _ _ _ _ _ _ => rfl, fun _ _ _ _ _ _ _ _ _ _ _ _ _ => rfl,
    fun _ _ _ _ _ _ => rfl, fun _ _ _ _ _ _ _ _ => rfl, fun _ _ _ _ _ _ _ _ _ _ _ => rfl⟩

/-- The readers of the formats, each by its place in the word (R25, R37). -/
theorem reader_fields (w : Word) :
    opOf w = (field w 56 8).toNat ∧ hdrOf w = ⟨latOf w, tkOf w⟩ ∧ latOf w = field w 49 4 ∧
    tkOf w = ⟨flag w 48, flag w 47, flag w 46, flag w 45⟩ ∧ (∀ lo, greg w lo = field w lo 5) ∧
    (∀ lo, areg w lo = field w lo 4) ∧ rD w = field w 38 7 ∧ rA w = field w 31 7 ∧ rB w = field w 24 7 ∧
    rC w = field w 17 7 ∧ rFn w = (field w 12 5).toNat ∧ iImm w = field w 0 27 ∧ mOff w = field w 0 18 ∧
    mSz w = (field w 22 3).toNat :=
  ⟨rfl, rfl, rfl, rfl, fun _ => rfl, fun _ => rfl, rfl, rfl, rfl, rfl, rfl, rfl, rfl, rfl⟩

/-! ## Codes -/

theorem bit_lt (x : Bool) : Bool.bit x < 2 := by cases x <;> decide

theorem decide_bit (x : Bool) : decide (Bool.bit x = 1) = x := by cases x <;> rfl

theorem slice_bit (x : Bool) : decide (slice (Bool.bit x) 0 1 = 1) = x := by cases x <;> rfl

theorem tkCode_lt (t : Tk) : t.code < 16 := by
  have h1 := bit_lt t.pbp; have h2 := bit_lt t.pbn; have h3 := bit_lt t.pap; have h4 := bit_lt t.pan
  simp only [Tk.code]; omega

theorem tk_of_code (t : Tk) :
    (⟨decide (slice t.code 3 1 = 1), decide (slice t.code 2 1 = 1), decide (slice t.code 1 1 = 1),
      decide (slice t.code 0 1 = 1)⟩ : Tk) = t := by
  obtain ⟨a, b, c, d⟩ := t
  cases a <;> cases b <;> cases c <;> cases d <;> rfl

theorem ofCode_codeOf {α : Type} [DecidableEq α] {tbl : List α} {x : α} (h : x ∈ tbl) :
    ofCode tbl (codeOf tbl x) = some x := List.getElem?_idxOf h

theorem codeOf_lt {α : Type} [DecidableEq α] {tbl : List α} {x : α} (h : x ∈ tbl) :
    codeOf tbl x < tbl.length := List.idxOf_lt_length_iff.mpr h

theorem mem_tyCodes (x : Ty) : x ∈ tyCodes := by cases x <;> decide
theorem mem_mkCodes (x : Mk) : x ∈ mkCodes := by cases x <;> decide
theorem mem_rmCodes (x : Rm) : x ∈ rmCodes := by cases x <;> decide
theorem mem_engCodes (x : Eng) : x ∈ engCodes := by cases x <;> decide
theorem mem_icmpCodes (x : ICmp) : x ∈ icmpCodes := by cases x <;> decide
theorem mem_shiftCodes (x : ShiftKind) : x ∈ shiftCodes := by cases x <;> decide
theorem mem_scopeCodes (x : Scope) : x ∈ scopeCodes := by cases x <;> decide
theorem mem_fenceCodes (x : FenceKind) : x ∈ fenceCodes := by cases x <;> decide
theorem mem_cpCodes (x : Cp) : x ∈ cpCodes := by cases x <;> decide
theorem mem_szCodes (x : Sz) : x ∈ szCodes := by cases x <;> decide
theorem mem_amoCodes (x : AmoOp) : x ∈ amoCodes := by cases x <;> decide
theorem mem_addTyCodes (x : AddTy) : x ∈ addTyCodes := by cases x <;> decide
theorem mem_squeueCodes (x : SQueue) : x ∈ squeueCodes := by cases x <;> decide
theorem mem_vcmpCodes (x : VCmp) : x ∈ vcmpCodes := by cases x <;> decide
theorem mem_vredCodes (x : VRedFn) : x ∈ vredCodes := by cases x <;> decide
theorem mem_vanyCodes (x : VAnyFn) : x ∈ vanyCodes := by cases x <;> decide
theorem mem_maskOpCodes (x : MaskOp) : x ∈ maskOpCodes := by cases x <;> decide
theorem mem_amCodes (x : Am) : x ∈ amCodes := by cases x <;> decide
theorem mem_spaceCodes (x : Space) : x ∈ spaceCodes := by cases x <;> decide
theorem mem_condCodes (x : BCond) : x ∈ condCodes := by cases x <;> decide

theorem tagCode_lt (t : Tag) : t.code < 6 := by
  cases t with
  | one e => cases e <;> decide
  | all => decide

theorem tagOf_code (t : Tag) : tagOf t.code = some t := by
  cases t with
  | one e => cases e <;> rfl
  | all => rfl

theorem tag_codes :
    (Tag.one .c).code = 0 ∧ (Tag.one .l).code = 1 ∧ (Tag.one .v).code = 2 ∧ (Tag.one .m).code = 3 ∧
      (Tag.one .s).code = 4 ∧ Tag.all.code = 5 := by decide

theorem vsrcCode_lt (a : VSrc) : a.code < 128 := by
  cases a <;> simp only [VSrc.code] <;> omega

theorem vdstCode_lt (d : VDst) : d.code < 128 := by
  cases d <;> simp only [VDst.code] <;> omega

theorem ofNat7_toNat {n : Nat} (h : n < 128) : (BitVec.ofNat 7 n).toNat = n := by
  rw [BitVec.toNat_ofNat]; omega

theorem vsrcOf_code (a : VSrc) : vsrcOf (BitVec.ofNat 7 a.code) = some a := by
  cases a with
  | v n =>
    have hn : (BitVec.ofNat 7 n.toNat).toNat = n.toNat := ofNat7_toNat (by omega)
    rw [vsrcOf, VSrc.code, hn, if_pos n.isLt, BitVec.ofNat_toNat, BitVec.setWidth_eq]
  | lq => rfl
  | lqKeep => rfl
  | vz => rfl

theorem vdstOf_code (d : VDst) : vdstOf (BitVec.ofNat 7 d.code) = some d := by
  cases d with
  | v n =>
    have hn : (BitVec.ofNat 7 n.toNat).toNat = n.toNat := ofNat7_toNat (by omega)
    rw [vdstOf, VDst.code, hn, if_pos n.isLt, BitVec.ofNat_toNat, BitVec.setWidth_eq]
  | sq => rfl
  | vcq => rfl

theorem maskSelCode_lt (a : MaskSel) : a.code < 128 := by
  cases a <;> simp only [MaskSel.code] <;> omega

theorem maskSelOf_code {a : MaskSel} (h : ∀ n, a = .mk n → n.toNat ≤ 5) :
    maskSelOf (BitVec.ofNat 7 a.code) = some a := by
  cases a with
  | mk n =>
    have hn : (BitVec.ofNat 7 n.toNat).toNat = n.toNat := ofNat7_toNat (by omega)
    have := h n rfl
    rw [maskSelOf, MaskSel.code, hn, if_pos (by omega), BitVec.ofNat_toNat, BitVec.setWidth_eq]
  | cm => rfl
  | ones => rfl

/-! ## From the fields of a word to its decoding -/

/-- The word has this opcode and this tag code, and the opcode's parser reads the instruction from it. -/
abbrev Reads (p : Word → Option Instr) (op tag : Nat) (w : Word) (i : Instr) : Prop :=
  opOf w = op ∧ (field w 53 3).toNat = tag ∧ p w = some i

/-- A well-formed instruction is decoded from its word when the opcode's parser reads it there and the word has a tag
that the opcode takes. -/
theorem decode_of_parse {i : Instr} {w : Word} (t : Tag) (hwf : wellFormed i = true) (henc : encode i = some w)
    (htag : (field w 53 3).toNat = t.code) (hop : opAssigned (opOf w) = true) (hmatch : tagMatches (opOf w) t = true)
    (hp : parse w = some i) : decode w = .ok i := by
  have hf : fieldsOk w = some i := by simp [fieldsOk, hp, hwf, henc]
  simp [decode, htag, tagOf_code, hop, hmatch, hf]

/-- The instruction is decoded from its word. -/
def Decodes (i : Instr) : Prop := ∀ w, wellFormed i = true → encode i = some w → decode w = .ok i

/-- No word encodes an event. -/
theorem decodes_event {i : Instr} (h : encode i = none) : Decodes i := fun w _ hw => by rw [h] at hw; cases hw

theorem decodes_of_reads {i : Instr} {x : Word} {p : Word → Option Instr} {op : Nat} (t : Tag)
    (henc : encode i = some x) (hlookup : opTable.lookup op = some p) (hhome : op = 0 ∨ homeOf op = some t)
    (hbase : op < 0xC0) (h : wellFormed i = true → Reads p op t.code x i) : Decodes i := by
  intro w hwf hw
  obtain rfl := Option.some.inj (henc.symm.trans hw)
  obtain ⟨hop, htag, hp⟩ := h hwf
  refine decode_of_parse t hwf henc htag ?_ ?_ ?_
  · simp [opAssigned, hop, hlookup]
  · rcases hhome with rfl | hhome
    · simp [tagMatches, hop]
    · simp [tagMatches, hop, hbase, hhome]
  · rw [parse, hop, if_neg (by omega), hlookup]; exact hp

/-! ## Words of C in the R and I formats -/

theorem decodes_rrr {mk : BitVec 4 → BitVec 5 → BitVec 5 → BitVec 5 → Instr} {op : Nat} {lat : BitVec 4}
    {d a b : BitVec 5}
    (henc : encode (mk lat d a b) = some (encC op lat d a b))
    (hlookup : opTable.lookup op = some (cRrr mk)) (hhome : homeOf op = some (.one .c)) (hbase : op < 0xC0) :
    Decodes (mk lat d a b) := by
  refine decodes_of_reads (.one .c) henc hlookup (.inr hhome) hbase fun _ => ?_
  simp (disch := omega) only [Reads, cRrr, encC, format_entries, reader_fields, packed_fields, tag_codes,
    Nat.reduceSub, and_self]

theorem decodes_rr {mk : BitVec 4 → BitVec 5 → BitVec 5 → Instr} {op : Nat} {lat : BitVec 4} {d a : BitVec 5}
    (henc : encode (mk lat d a) = some (encC op lat d a 0))
    (hlookup : opTable.lookup op = some (cRr mk)) (hhome : homeOf op = some (.one .c)) (hbase : op < 0xC0) :
    Decodes (mk lat d a) := by
  refine decodes_of_reads (.one .c) henc hlookup (.inr hhome) hbase fun _ => ?_
  simp (disch := omega) only [Reads, cRr, encC, format_entries, reader_fields, packed_fields, tag_codes,
    Nat.reduceSub, and_self]

theorem decodes_ri {mk : BitVec 4 → BitVec 5 → BitVec 5 → BitVec 27 → Instr} {op : Nat} {lat : BitVec 4}
    {d a : BitVec 5} {imm : BitVec 27}
    (henc : encode (mk lat d a imm) = some (encCi op lat d a 0 imm.toNat))
    (hlookup : opTable.lookup op = some (cRi mk)) (hhome : homeOf op = some (.one .c)) (hbase : op < 0xC0) :
    Decodes (mk lat d a imm) := by
  refine decodes_of_reads (.one .c) henc hlookup (.inr hhome) hbase fun _ => ?_
  simp (disch := omega) only [Reads, cRi, encCi, format_entries, reader_fields, packed_fields, tag_codes,
    Nat.reduceSub, and_self]

theorem decodes_nop (t : Tag) (tk : Tk) : Decodes (.nop t tk) := by
  have ht := tagCode_lt t
  have htk := tkCode_lt tk
  refine decodes_of_reads t rfl (op := 0) rfl (.inl rfl) (by decide) fun _ => ?_
  simp (disch := omega) only [Reads, format_entries, reader_fields, packed_fields, Nat.reduceSub, tk_of_code, true_and]
  simp only [Nat.zero_mul, Nat.zero_add, tagOf_code, Option.map_some, and_self]

theorem decodes_sel (lat : BitVec 4) (d a b c : BitVec 5) : Decodes (.sel lat d a b c) := by
  refine decodes_of_reads (.one .c) rfl (op := 0x16) rfl (.inr rfl) (by decide) fun _ => ?_
  simp (disch := omega) only [Reads, encC, format_entries, reader_fields, packed_fields, tag_codes, Nat.reduceSub,
    and_self]

theorem decodes_cmp (lat : BitVec 4) (fn : ICmp) (d a b : BitVec 5) : Decodes (.cmp lat fn d a b) := by
  have hfn : codeOf icmpCodes fn < 6 := codeOf_lt (mem_icmpCodes fn)
  refine decodes_of_reads (.one .c) rfl (op := 0x17) rfl (.inr rfl) (by decide) fun _ => ?_
  simp (disch := omega) only [Reads, encC, format_entries, reader_fields, packed_fields, tag_codes, Nat.reduceSub,
    ofCode_codeOf (mem_icmpCodes fn), Option.map_some, and_self]

theorem decodes_shi (lat : BitVec 4) (k : ShiftKind) (d a : BitVec 5) (n : BitVec 6) : Decodes (.shi lat k d a n) := by
  have hk : codeOf shiftCodes k < 3 := codeOf_lt (mem_shiftCodes k)
  refine decodes_of_reads (.one .c) rfl (op := 0x1C) rfl (.inr rfl) (by decide) fun _ => ?_
  simp (disch := omega) only [Reads, encCi, format_entries, reader_fields, packed_fields, tag_codes, Nat.reduceSub,
    ofCode_codeOf (mem_shiftCodes k), Option.map_some, and_self]

theorem decodes_li (lat : BitVec 4) (d : BitVec 5) (imm : BitVec 27) : Decodes (.li lat d imm) := by
  refine decodes_of_reads (.one .c) rfl (op := 0x1D) rfl (.inr rfl) (by decide) fun _ => ?_
  simp (disch := omega) only [Reads, encCi, format_entries, reader_fields, packed_fields, tag_codes, Nat.reduceSub,
    and_self]

theorem decodes_cmpi (lat : BitVec 4) (fn : ICmp) (d a : BitVec 5) (imm : BitVec 27) : Decodes
    (.cmpi lat fn d a imm) := by
  have hfn : codeOf icmpCodes fn < 6 := codeOf_lt (mem_icmpCodes fn)
  refine decodes_of_reads (.one .c) rfl (op := 0x1F) rfl (.inr rfl) (by decide) fun _ => ?_
  simp (disch := omega) only [Reads, encCi, format_entries, reader_fields, packed_fields, tag_codes, Nat.reduceSub,
    ofCode_codeOf (mem_icmpCodes fn), Option.map_some, and_self]

/-! ## Branches and loops -/

theorem decodes_br (off : BitVec 32) : Decodes (.br off) := by
  refine decodes_of_reads .all rfl (op := 0x20) rfl (.inr rfl) (by decide) fun _ => ?_
  simp (disch := omega) only [Reads, format_entries, reader_fields, packed_fields, tag_codes, Nat.reduceSub,
    and_self]

theorem decodes_brc (c : BCond) (hint : Lean) (g : BitVec 5) (off : BitVec 32) : Decodes (.brc c hint g off) := by
  have hc : codeOf condCodes c < 6 := codeOf_lt (mem_condCodes c)
  have hv := bit_lt (hint != .none)
  have ht := bit_lt (hint == .taken)
  refine decodes_of_reads .all rfl (op := 0x21) rfl (.inr rfl) (by decide) fun _ => ?_
  simp (disch := omega) only [Reads, brcW, format_entries, reader_fields, packed_fields, Nat.reduceSub, decide_bit,
    Nat.add_sub_cancel, ofCode_codeOf (mem_condCodes c), Nat.succ_ne_zero, if_false]
  cases hint <;> exact ⟨trivial, rfl, rfl⟩

theorem decodes_call (off : BitVec 32) : Decodes (.call off) := by
  refine decodes_of_reads .all rfl (op := 0x22) rfl (.inr rfl) (by decide) fun _ => ?_
  simp (disch := omega) only [Reads, format_entries, reader_fields, packed_fields, tag_codes, Nat.reduceSub,
    and_self]

theorem decodes_ret : Decodes .ret := by
  refine decodes_of_reads .all rfl (op := 0x23) rfl (.inr rfl) (by decide) fun _ => ?_
  simp (disch := omega) only [Reads, format_entries, reader_fields, packed_fields, tag_codes, Nat.reduceSub,
    and_self]

theorem decodes_jr (g : BitVec 5) : Decodes (.jr g) := by
  refine decodes_of_reads .all rfl (op := 0x24) rfl (.inr rfl) (by decide) fun _ => ?_
  simp (disch := omega) only [Reads, format_entries, reader_fields, packed_fields, tag_codes, Nat.reduceSub,
    and_self]

theorem decodes_loop (g : BitVec 5) (off : BitVec 32) : Decodes (.loop g off) := by
  refine decodes_of_reads .all rfl (op := 0x25) rfl (.inr rfl) (by decide) fun _ => ?_
  simp (disch := omega) only [Reads, format_entries, reader_fields, packed_fields, tag_codes, Nat.reduceSub,
    and_self]

theorem decodes_loopr (off : BitVec 32) : Decodes (.loopr off) := by
  refine decodes_of_reads .all rfl (op := 0x26) rfl (.inr rfl) (by decide) fun _ => ?_
  simp (disch := omega) only [Reads, format_entries, reader_fields, packed_fields, tag_codes, Nat.reduceSub,
    and_self]

theorem decodes_ploop (stages : BitVec 3) (words : BitVec 2) (g : BitVec 5) (len : BitVec 6) : Decodes
    (.ploop stages words g len) := by
  refine decodes_of_reads .all rfl (op := 0x27) rfl (.inr rfl) (by decide) fun _ => ?_
  simp (disch := omega) only [Reads, format_entries, reader_fields, packed_fields, tag_codes, Nat.reduceSub,
    and_self]

/-! ## Words of C in the Q and M formats -/

theorem decodes_waitTrig : Decodes .waitTrig := by
  refine decodes_of_reads (.one .c) rfl (op := 0x28) rfl (.inr rfl) (by decide) fun _ => ?_
  simp (disch := omega) only [Reads, waitW, format_entries, reader_fields, packed_fields, tag_codes, Nat.reduceSub,
    and_self]

theorem decodes_waitCpy : Decodes .waitCpy := by
  refine decodes_of_reads (.one .c) rfl (op := 0x28) rfl (.inr rfl) (by decide) fun _ => ?_
  simp (disch := omega) only [Reads, waitW, format_entries, reader_fields, packed_fields, tag_codes, Nat.reduceSub,
    and_self]

theorem decodes_waitColl : Decodes .waitColl := by
  refine decodes_of_reads (.one .c) rfl (op := 0x28) rfl (.inr rfl) (by decide) fun _ => ?_
  simp (disch := omega) only [Reads, waitW, format_entries, reader_fields, packed_fields, tag_codes, Nat.reduceSub,
    and_self]

theorem decodes_waitFlag (ga : BitVec 5) (oc : BitVec 4) : Decodes (.waitFlag ga oc) := by
  refine decodes_of_reads (.one .c) rfl (op := 0x28) rfl (.inr rfl) (by decide) fun _ => ?_
  simp (disch := omega) only [Reads, waitW, format_entries, reader_fields, packed_fields, tag_codes, Nat.reduceSub,
    and_self]

theorem decodes_waitTime (ga : BitVec 5) : Decodes (.waitTime ga) := by
  refine decodes_of_reads (.one .c) rfl (op := 0x28) rfl (.inr rfl) (by decide) fun _ => ?_
  simp (disch := omega) only [Reads, waitW, format_entries, reader_fields, packed_fields, tag_codes, Nat.reduceSub,
    and_self]

theorem decodes_yield : Decodes .yield := by
  refine decodes_of_reads (.one .c) rfl (op := 0x29) rfl (.inr rfl) (by decide) fun _ => ?_
  simp (disch := omega) only [Reads, format_entries, reader_fields, packed_fields, tag_codes, Nat.reduceSub,
    and_self]

theorem decodes_trig : Decodes .trig := by
  refine decodes_of_reads (.one .c) rfl (op := 0x2A) rfl (.inr rfl) (by decide) fun _ => ?_
  simp (disch := omega) only [Reads, format_entries, reader_fields, packed_fields, tag_codes, Nat.reduceSub,
    and_self]

theorem decodes_exit : Decodes .exit := by
  refine decodes_of_reads .all rfl (op := 0x2B) rfl (.inr rfl) (by decide) fun _ => ?_
  simp (disch := omega) only [Reads, format_entries, reader_fields, packed_fields, tag_codes, Nat.reduceSub,
    and_self]

theorem decodes_trap (imm : BitVec 16) : Decodes (.trap imm) := by
  refine decodes_of_reads (.one .c) rfl (op := 0x2C) rfl (.inr rfl) (by decide) fun _ => ?_
  simp (disch := omega) only [Reads, format_entries, reader_fields, packed_fields, tag_codes, Nat.reduceSub,
    and_self]

theorem decodes_fence (sc : Scope) (k : FenceKind) (mask : BitVec 16) : Decodes (.fence sc k mask) := by
  have hsc : codeOf scopeCodes sc < 4 := codeOf_lt (mem_scopeCodes sc)
  have hk : codeOf fenceCodes k < 3 := codeOf_lt (mem_fenceCodes k)
  refine decodes_of_reads (.one .c) rfl (op := 0x2D) rfl (.inr rfl) (by decide) fun _ => ?_
  simp (disch := omega) only [Reads, format_entries, reader_fields, packed_fields, tag_codes, Nat.reduceSub,
    ofCode_codeOf (mem_scopeCodes sc), ofCode_codeOf (mem_fenceCodes k), Option.bind_eq_bind, Option.bind_some,
    Option.pure_def, and_self]

theorem decodes_sbar : Decodes .sbar := by
  refine decodes_of_reads .all rfl (op := 0x2E) rfl (.inr rfl) (by decide) fun _ => ?_
  simp (disch := omega) only [Reads, format_entries, reader_fields, packed_fields, tag_codes, Nat.reduceSub,
    and_self]

theorem decodes_ovl (n : BitVec 8) : Decodes (.ovl n) := by
  refine decodes_of_reads .all rfl (op := 0x2F) rfl (.inr rfl) (by decide) fun _ => ?_
  simp (disch := omega) only [Reads, format_entries, reader_fields, packed_fields, tag_codes, Nat.reduceSub,
    and_self]

theorem decodes_pushHset (gb ga : BitVec 5) (x v r : Bool) (tag : BitVec 16) :
    Decodes (.pushHset gb ga x v r tag) := by
  have hx := bit_lt x
  have hv := bit_lt v
  have hr := bit_lt r
  have hcode : ∀ imm, imm = tag.toNat * 128 + 64 * Bool.bit x + 32 * Bool.bit v + 16 * Bool.bit r →
      slice imm 0 4 = 0 ∧ slice imm 7 16 = tag.toNat ∧ slice imm 6 1 = Bool.bit x ∧ slice imm 5 1 = Bool.bit v ∧
      slice imm 4 1 = Bool.bit r := by simp only [slice]; omega
  refine decodes_of_reads (.one .c) rfl (op := 0x30) rfl (.inr rfl) (by decide) fun _ => ?_
  simp (disch := omega) only [Reads, pushW, format_entries, reader_fields, packed_fields, tag_codes, Nat.reduceSub,
    hcode _ rfl, decide_bit, and_self]

theorem decodes_pushHfree (gb : BitVec 5) (tag : BitVec 16) : Decodes (.pushHfree gb tag) := by
  refine decodes_of_reads (.one .c) rfl (op := 0x30) rfl (.inr rfl) (by decide) fun _ => ?_
  have h0 : slice (tag.toNat * 128 + 1) 0 4 = 1 := by rw [slice]; omega
  have h7 : slice (tag.toNat * 128 + 1) 7 16 = tag.toNat := by rw [slice]; omega
  simp (disch := omega) only [Reads, pushW, format_entries, reader_fields, packed_fields, tag_codes, Nat.reduceSub,
    h0, h7,
    and_self]

theorem decodes_pushHread (gb : BitVec 5) (tag : BitVec 16) : Decodes (.pushHread gb tag) := by
  refine decodes_of_reads (.one .c) rfl (op := 0x30) rfl (.inr rfl) (by decide) fun _ => ?_
  have h0 : slice (tag.toNat * 128 + 2) 0 4 = 2 := by rw [slice]; omega
  have h7 : slice (tag.toNat * 128 + 2) 7 16 = tag.toNat := by rw [slice]; omega
  simp (disch := omega) only [Reads, pushW, format_entries, reader_fields, packed_fields, tag_codes, Nat.reduceSub,
    h0, h7,
    and_self]

theorem decodes_pushGset (gb : BitVec 5) : Decodes (.pushGset gb) := by
  refine decodes_of_reads (.one .c) rfl (op := 0x30) rfl (.inr rfl) (by decide) fun _ => ?_
  simp (disch := omega) only [Reads, pushW, format_entries, reader_fields, packed_fields, tag_codes, Nat.reduceSub,
    and_self]

theorem decodes_pushGfree (gb : BitVec 5) : Decodes (.pushGfree gb) := by
  refine decodes_of_reads (.one .c) rfl (op := 0x30) rfl (.inr rfl) (by decide) fun _ => ?_
  simp (disch := omega) only [Reads, pushW, format_entries, reader_fields, packed_fields, tag_codes, Nat.reduceSub,
    and_self]

theorem decodes_pushCrun (gb : BitVec 5) : Decodes (.pushCrun gb) := by
  refine decodes_of_reads (.one .c) rfl (op := 0x30) rfl (.inr rfl) (by decide) fun _ => ?_
  simp (disch := omega) only [Reads, pushW, format_entries, reader_fields, packed_fields, tag_codes, Nat.reduceSub,
    and_self]

theorem decodes_popCpy (lat : BitVec 4) (ga : BitVec 5) : Decodes (.popCpy lat ga) := by
  refine decodes_of_reads (.one .c) rfl (op := 0x31) rfl (.inr rfl) (by decide) fun _ => ?_
  simp (disch := omega) only [Reads, format_entries, reader_fields, packed_fields, tag_codes, Nat.reduceSub,
    and_self]

theorem decodes_popColl (lat : BitVec 4) (ga : BitVec 5) : Decodes (.popColl lat ga) := by
  refine decodes_of_reads (.one .c) rfl (op := 0x31) rfl (.inr rfl) (by decide) fun _ => ?_
  simp (disch := omega) only [Reads, format_entries, reader_fields, packed_fields, tag_codes, Nat.reduceSub,
    and_self]

theorem decodes_mfst (lat : BitVec 4) (ga : BitVec 5) (num : BitVec 10) : Decodes (.mfst lat ga num) := by
  refine decodes_of_reads (.one .c) rfl (op := 0x32) rfl (.inr rfl) (by decide) fun _ => ?_
  simp (disch := omega) only [Reads, format_entries, reader_fields, packed_fields, tag_codes, Nat.reduceSub,
    and_self]

theorem decodes_mtst (num : BitVec 10) (gb : BitVec 5) : Decodes (.mtst num gb) := by
  refine decodes_of_reads (.one .c) rfl (op := 0x33) rfl (.inr rfl) (by decide) fun _ => ?_
  simp (disch := omega) only [Reads, format_entries, reader_fields, packed_fields, tag_codes, Nat.reduceSub,
    and_self]

theorem decodes_qsend (q : SQueue) (gb : BitVec 5) : Decodes (.qsend q gb) := by
  have hq : codeOf squeueCodes q < 4 := codeOf_lt (mem_squeueCodes q)
  refine decodes_of_reads (.one .c) rfl (op := 0x34) rfl (.inr rfl) (by decide) fun _ => ?_
  simp (disch := omega) only [Reads, format_entries, reader_fields, packed_fields, tag_codes, Nat.reduceSub,
    ofCode_codeOf (mem_squeueCodes q), Option.map_some, and_self]

theorem decodes_qrecv (lat : BitVec 4) (ga : BitVec 5) : Decodes (.qrecv lat ga) := by
  refine decodes_of_reads (.one .c) rfl (op := 0x35) rfl (.inr rfl) (by decide) fun _ => ?_
  simp (disch := omega) only [Reads, format_entries, reader_fields, packed_fields, tag_codes, Nat.reduceSub,
    and_self]

theorem decodes_launch (lat : BitVec 4) (ga gb : BitVec 5) : Decodes (.launch lat ga gb) := by
  refine decodes_of_reads (.one .c) rfl (op := 0x36) rfl (.inr rfl) (by decide) fun _ => ?_
  simp (disch := omega) only [Reads, format_entries, reader_fields, packed_fields, tag_codes, Nat.reduceSub,
    and_self]

theorem decodes_bind (lat : BitVec 4) (ga gb : BitVec 5) (n : BitVec 6) : Decodes (.bind lat ga gb n) := by
  refine decodes_of_reads (.one .c) rfl (op := 0x37) rfl (.inr rfl) (by decide) fun _ => ?_
  simp (disch := omega) only [Reads, format_entries, reader_fields, packed_fields, tag_codes, Nat.reduceSub,
    and_self]

theorem decodes_ld (lat : BitVec 4) (sz : Sz) (sx : Bool) (oc : BitVec 4) (cp : Cp) (aq : Bool) (d base : BitVec 5)
    (off : BitVec 18) : Decodes (.ld lat sz sx oc cp aq d base off) := by
  have hsz : codeOf szCodes sz < 4 := codeOf_lt (mem_szCodes sz)
  have hcp : codeOf cpCodes cp < 3 := codeOf_lt (mem_cpCodes cp)
  have hsx := bit_lt sx
  have haq := bit_lt aq
  refine decodes_of_reads (.one .c) rfl (op := 0x38) rfl (.inr rfl) (by decide) fun _ => ?_
  simp (disch := omega) only [Reads, format_entries, reader_fields, packed_fields, tag_codes, Nat.reduceSub,
    decide_bit, ofCode_codeOf (mem_szCodes sz), ofCode_codeOf (mem_cpCodes cp), Option.bind_eq_bind,
    Option.bind_some, Option.pure_def, and_self]

theorem decodes_st (sz : Sz) (oc : BitVec 4) (cp : Cp) (rl : Bool) (d base : BitVec 5) (off : BitVec 18) : Decodes
    (.st sz oc cp rl d base off) := by
  have hsz : codeOf szCodes sz < 4 := codeOf_lt (mem_szCodes sz)
  have hcp : codeOf cpCodes cp < 3 := codeOf_lt (mem_cpCodes cp)
  have hrl := bit_lt rl
  refine decodes_of_reads (.one .c) rfl (op := 0x39) rfl (.inr rfl) (by decide) fun _ => ?_
  simp (disch := omega) only [Reads, format_entries, reader_fields, packed_fields, tag_codes, Nat.reduceSub,
    decide_bit, ofCode_codeOf (mem_szCodes sz), ofCode_codeOf (mem_cpCodes cp), Option.bind_eq_bind,
    Option.bind_some, Option.pure_def, and_self]

theorem two_add_bit_eq (x : Bool) : (2 + Bool.bit x == 3) = x := by cases x <;> rfl

theorem decodes_amo (lat : BitVec 4) (op : AmoOp) (dbl : Bool) (oc : BitVec 4) (aq rl : Bool) (d base : BitVec 5)
    (off : BitVec 18) : Decodes (.amo lat op dbl oc aq rl d base off) := by
  have hamo : codeOf amoCodes op < 12 := codeOf_lt (mem_amoCodes op)
  have hdbl := bit_lt dbl
  have haq := bit_lt aq
  have hrl := bit_lt rl
  refine decodes_of_reads (.one .c) rfl (op := 0x3A) rfl (.inr rfl) (by decide) fun _ => ?_
  simp (disch := omega) only [Reads, format_entries, reader_fields, packed_fields, tag_codes, Nat.reduceSub,
    decide_bit, two_add_bit_eq, ofCode_codeOf (mem_amoCodes op), Option.bind_eq_bind, Option.bind_some,
    Option.pure_def, and_self]

theorem decodes_pfl (xlat : Bool) (base : BitVec 5) (off : BitVec 18) : Decodes (.pfl xlat base off) := by
  refine decodes_of_reads (.one .c) rfl (op := 0x3B) rfl (.inr rfl) (by decide) fun _ => ?_
  have hsz : (if xlat then 6 else 3) < 8 := by cases xlat <;> decide
  simp (disch := omega) only [Reads, format_entries, reader_fields, packed_fields, tag_codes, Nat.reduceSub, true_and]
  cases xlat <;> rfl

theorem decodes_sysInval (lat : BitVec 4) (ga gb : BitVec 5) : Decodes (.sysInval lat ga gb) := by
  refine decodes_of_reads (.one .c) rfl (op := 0x3C) rfl (.inr rfl) (by decide) fun _ => ?_
  simp (disch := omega) only [Reads, sysW, format_entries, reader_fields, packed_fields, tag_codes, Nat.reduceSub,
    and_self]

theorem decodes_sysFgive (lat : BitVec 4) (ga gb : BitVec 5) : Decodes (.sysFgive lat ga gb) := by
  refine decodes_of_reads (.one .c) rfl (op := 0x3C) rfl (.inr rfl) (by decide) fun _ => ?_
  simp (disch := omega) only [Reads, sysW, format_entries, reader_fields, packed_fields, tag_codes, Nat.reduceSub,
    and_self]

theorem decodes_sysFtake (lat : BitVec 4) (ga gb : BitVec 5) : Decodes (.sysFtake lat ga gb) := by
  refine decodes_of_reads (.one .c) rfl (op := 0x3C) rfl (.inr rfl) (by decide) fun _ => ?_
  simp (disch := omega) only [Reads, sysW, format_entries, reader_fields, packed_fields, tag_codes, Nat.reduceSub,
    and_self]

theorem decodes_sysMread (lat : BitVec 4) (ga gb : BitVec 5) : Decodes (.sysMread lat ga gb) := by
  refine decodes_of_reads (.one .c) rfl (op := 0x3C) rfl (.inr rfl) (by decide) fun _ => ?_
  simp (disch := omega) only [Reads, sysW, format_entries, reader_fields, packed_fields, tag_codes, Nat.reduceSub,
    and_self]

/-! ## Words of L and S -/

theorem decodes_aadd (h : Hdr) (d a : BitVec 4) (imm : BitVec 27) : Decodes (.aadd h d a imm) := by
  have htk := tkCode_lt h.tk
  refine decodes_of_reads (.one .l) rfl (op := 0x40) rfl (.inr rfl) (by decide) fun _ => ?_
  simp (disch := omega) only [Reads, encA, format_entries, reader_fields, packed_fields, tag_codes, Nat.reduceSub,
    tk_of_code, and_self]

theorem decodes_aset (h : Hdr) (d : BitVec 4) (imm : BitVec 27) : Decodes (.aset h d imm) := by
  have htk := tkCode_lt h.tk
  refine decodes_of_reads (.one .l) rfl (op := 0x41) rfl (.inr rfl) (by decide) fun _ => ?_
  simp (disch := omega) only [Reads, asetW, encA, format_entries, reader_fields, packed_fields, tag_codes,
    Nat.reduceSub, tk_of_code, and_self]

theorem decodes_asetH (h : Hdr) (d : BitVec 4) (imm : BitVec 27) : Decodes (.asetH h d imm) := by
  have htk := tkCode_lt h.tk
  refine decodes_of_reads (.one .l) rfl (op := 0x41) rfl (.inr rfl) (by decide) fun _ => ?_
  simp (disch := omega) only [Reads, asetW, encA, format_entries, reader_fields, packed_fields, tag_codes,
    Nat.reduceSub, tk_of_code, and_self]

theorem decodes_asetQ (h : Hdr) (d : BitVec 4) (imm : BitVec 27) : Decodes (.asetQ h d imm) := by
  have htk := tkCode_lt h.tk
  refine decodes_of_reads (.one .l) rfl (op := 0x41) rfl (.inr rfl) (by decide) fun _ => ?_
  simp (disch := omega) only [Reads, asetW, encA, format_entries, reader_fields, packed_fields, tag_codes,
    Nat.reduceSub, tk_of_code, and_self]

theorem decodes_badd (h : Hdr) (d a : BitVec 4) (imm : BitVec 27) : Decodes (.badd h d a imm) := by
  have htk := tkCode_lt h.tk
  refine decodes_of_reads (.one .s) rfl (op := 0x58) rfl (.inr rfl) (by decide) fun _ => ?_
  simp (disch := omega) only [Reads, encA, format_entries, reader_fields, packed_fields, tag_codes, Nat.reduceSub,
    tk_of_code, and_self]

theorem decodes_bset (h : Hdr) (d : BitVec 4) (imm : BitVec 27) : Decodes (.bset h d imm) := by
  have htk := tkCode_lt h.tk
  refine decodes_of_reads (.one .s) rfl (op := 0x59) rfl (.inr rfl) (by decide) fun _ => ?_
  simp (disch := omega) only [Reads, asetW, encA, format_entries, reader_fields, packed_fields, tag_codes,
    Nat.reduceSub, tk_of_code, and_self]

theorem decodes_bsetH (h : Hdr) (d : BitVec 4) (imm : BitVec 27) : Decodes (.bsetH h d imm) := by
  have htk := tkCode_lt h.tk
  refine decodes_of_reads (.one .s) rfl (op := 0x59) rfl (.inr rfl) (by decide) fun _ => ?_
  simp (disch := omega) only [Reads, asetW, encA, format_entries, reader_fields, packed_fields, tag_codes,
    Nat.reduceSub, tk_of_code, and_self]

theorem decodes_bsetQ (h : Hdr) (d : BitVec 4) (imm : BitVec 27) : Decodes (.bsetQ h d imm) := by
  have htk := tkCode_lt h.tk
  refine decodes_of_reads (.one .s) rfl (op := 0x59) rfl (.inr rfl) (by decide) fun _ => ?_
  simp (disch := omega) only [Reads, asetW, encA, format_entries, reader_fields, packed_fields, tag_codes,
    Nat.reduceSub, tk_of_code, and_self]

theorem decodes_sdset (h : Hdr) (sd : BitVec 4) (x : BitVec 2) (a : BitVec 4) (second : Option (BitVec 4)) :
    Decodes (.sdset h sd x a second) := by
  have htk := tkCode_lt h.tk
  have hs := bit_lt second.isSome
  have h0 : slice (4 * Bool.bit second.isSome + x.toNat) 0 2 = x.toNat := by rw [slice]; omega
  have h2 : slice (4 * Bool.bit second.isSome + x.toNat) 2 1 = Bool.bit second.isSome := by rw [slice]; omega
  refine decodes_of_reads (.one .l) rfl (op := 0x42) rfl (.inr rfl) (by decide) fun _ => ?_
  cases second <;> simp (disch := omega) only [Reads, format_entries, reader_fields, packed_fields, tag_codes,
    Nat.reduceSub, tk_of_code, h0, h2, decide_bit, true_and] <;> rfl

theorem decodes_ldq (tk : Tk) (t6 : Option (BitVec 4)) (base : BitVec 4) (off : BitVec 18) :
    Decodes (.ldq tk t6 base off) := by
  have htk := tkCode_lt tk
  cases t6 <;> refine decodes_of_reads (.one .l) rfl (op := 0x43) rfl (.inr rfl) (by decide) fun _ => ?_ <;>
    simp (disch := omega) only [Reads, ldqW, encLS, format_entries, reader_fields, packed_fields, tag_codes,
      Nat.reduceSub, tk_of_code, if_true, Nat.reduceEqDiff, if_false, and_self]

theorem decodes_stq (tk : Tk) (t6 : Option (BitVec 4)) (base : BitVec 4) (off : BitVec 18) :
    Decodes (.stq tk t6 base off) := by
  have htk := tkCode_lt tk
  cases t6 <;> refine decodes_of_reads (.one .s) rfl (op := 0x5A) rfl (.inr rfl) (by decide) fun _ => ?_ <;>
    simp (disch := omega) only [Reads, ldqW, encLS, format_entries, reader_fields, packed_fields, tag_codes,
      Nat.reduceSub, tk_of_code, if_true, Nat.reduceEqDiff, if_false, and_self]

theorem decodes_ldqs (tk : Tk) (sz : Sz) (sd base : BitVec 4) (off : BitVec 18) : Decodes
    (.ldqs tk sz sd base off) := by
  have htk := tkCode_lt tk
  have hsz : codeOf szCodes sz < 4 := codeOf_lt (mem_szCodes sz)
  refine decodes_of_reads (.one .l) rfl (op := 0x44) rfl (.inr rfl) (by decide) fun _ => ?_
  simp (disch := omega) only [Reads, encLS, format_entries, reader_fields, packed_fields, tag_codes, Nat.reduceSub,
    tk_of_code, ofCode_codeOf (mem_szCodes sz), Option.map_some, and_self]

theorem decodes_stqs (tk : Tk) (sz : Sz) (sd base : BitVec 4) (off : BitVec 18) : Decodes
    (.stqs tk sz sd base off) := by
  have htk := tkCode_lt tk
  have hsz : codeOf szCodes sz < 4 := codeOf_lt (mem_szCodes sz)
  refine decodes_of_reads (.one .s) rfl (op := 0x5B) rfl (.inr rfl) (by decide) fun _ => ?_
  simp (disch := omega) only [Reads, encLS, format_entries, reader_fields, packed_fields, tag_codes, Nat.reduceSub,
    tk_of_code, ofCode_codeOf (mem_szCodes sz), Option.map_some, and_self]

theorem decodes_ldg (tk : Tk) (sz : Sz) (base : BitVec 4) (off : BitVec 18) : Decodes (.ldg tk sz base off) := by
  have htk := tkCode_lt tk
  have hsz : codeOf szCodes sz < 4 := codeOf_lt (mem_szCodes sz)
  refine decodes_of_reads (.one .l) rfl (op := 0x45) rfl (.inr rfl) (by decide) fun _ => ?_
  simp (disch := omega) only [Reads, encLS, format_entries, reader_fields, packed_fields, tag_codes, Nat.reduceSub,
    tk_of_code, ofCode_codeOf (mem_szCodes sz), Option.map_some, and_self]

theorem decodes_ldpk (tk : Tk) (sz : Sz) (base : BitVec 4) (off : BitVec 18) : Decodes (.ldpk tk sz base off) := by
  have htk := tkCode_lt tk
  have hsz : codeOf szCodes sz < 4 := codeOf_lt (mem_szCodes sz)
  refine decodes_of_reads (.one .l) rfl (op := 0x46) rfl (.inr rfl) (by decide) fun _ => ?_
  simp (disch := omega) only [Reads, encLS, format_entries, reader_fields, packed_fields, tag_codes, Nat.reduceSub,
    tk_of_code, ofCode_codeOf (mem_szCodes sz), Option.map_some, and_self]

theorem decodes_sts (tk : Tk) (sz : Sz) (base : BitVec 4) (off : BitVec 18) : Decodes (.sts tk sz base off) := by
  have htk := tkCode_lt tk
  have hsz : codeOf szCodes sz < 4 := codeOf_lt (mem_szCodes sz)
  refine decodes_of_reads (.one .s) rfl (op := 0x5C) rfl (.inr rfl) (by decide) fun _ => ?_
  simp (disch := omega) only [Reads, encLS, format_entries, reader_fields, packed_fields, tag_codes, Nat.reduceSub,
    tk_of_code, ofCode_codeOf (mem_szCodes sz), Option.map_some, and_self]

theorem szOrRow_lt (e : Option Sz) : szOrRow e < 5 := by
  cases e with
  | none => decide
  | some z => cases z <;> decide

theorem elemOrRow_szOrRow (e : Option Sz) : elemOrRow (szOrRow e) = some e := by
  cases e with
  | none => rfl
  | some z => cases z <;> rfl

theorem decodes_ldmq (tk : Tk) (e : Option Sz) (oc : BitVec 4) (cp : Cp) (aq : Bool) (base : BitVec 4)
    (off : BitVec 18) : Decodes (.ldmq tk e oc cp aq base off) := by
  have htk := tkCode_lt tk
  have hsz := szOrRow_lt e
  have hcp : codeOf cpCodes cp < 3 := codeOf_lt (mem_cpCodes cp)
  have haq := bit_lt aq
  refine decodes_of_reads (.one .l) rfl (op := 0x47) rfl (.inr rfl) (by decide) fun _ => ?_
  simp (disch := omega) only [Reads, encLS, format_entries, reader_fields, packed_fields, tag_codes, Nat.reduceSub,
    tk_of_code, elemOrRow_szOrRow, ofCode_codeOf (mem_cpCodes cp), decide_bit, Option.bind_eq_bind, Option.bind_some,
    Option.pure_def, and_self]

theorem decodes_omfill (tk : Tk) (d : BitVec 5) (sd base : BitVec 4) (off : BitVec 18) : Decodes
    (.omfill tk d sd base off) := by
  have htk := tkCode_lt tk
  refine decodes_of_reads (.one .l) rfl (op := 0x48) rfl (.inr rfl) (by decide) fun _ => ?_
  simp (disch := omega) only [Reads, encLS, format_entries, reader_fields, packed_fields, tag_codes, Nat.reduceSub,
    tk_of_code, and_self]

theorem decodes_copy {mk : Tk → CpyWord → Instr} {op : Nat} {tk : Tk} {x : CpyWord}
    (henc : encode (mk tk x) = some (encCpy op tk x)) (hlookup : opTable.lookup op = some (cpyW mk))
    (hhome : homeOf op = some (.one .l)) (hbase : op < 0xC0) : Decodes (mk tk x) := by
  obtain ⟨ga, fl, ch, tok, out, dsp, ssp, oc, dim2, tag⟩ := x
  have htk := tkCode_lt tk
  have hd : codeOf spaceCodes dsp < 4 := codeOf_lt (mem_spaceCodes dsp)
  have hs : codeOf spaceCodes ssp < 4 := codeOf_lt (mem_spaceCodes ssp)
  have htok := bit_lt tok
  have hout := bit_lt out
  have hdim := bit_lt dim2
  have hfl := bit_lt fl.isSome
  have hga : slice (4 * ga.toNat) 2 2 = ga.toNat := by rw [slice]; omega
  refine decodes_of_reads (.one .l) henc hlookup (.inr hhome) hbase fun _ => ?_
  cases fl <;> simp (disch := omega) only [Reads, cpyW, encCpy, head, List.cons_append, List.nil_append, reader_fields,
    packed_fields, tag_codes, Nat.reduceSub, tk_of_code, hga, ofCode_codeOf (mem_spaceCodes dsp),
    ofCode_codeOf (mem_spaceCodes ssp), decide_bit, Option.bind_eq_bind, Option.bind_some, Option.pure_def,
    true_and] <;>
    rfl

theorem decodes_rps (tk : Tk) (toC toM dbl : Bool) (cnt base : BitVec 4) (off : BitVec 18) :
    Decodes (.rps tk toC toM dbl cnt base off) := by
  have htk := tkCode_lt tk
  have hc := bit_lt toC
  have hm := bit_lt toM
  have hdbl := bit_lt dbl
  have h0 : slice (64 * Bool.bit toM + 32 * Bool.bit toC + cnt.toNat) 0 4 = cnt.toNat := by rw [slice]; omega
  have h5 : slice (64 * Bool.bit toM + 32 * Bool.bit toC + cnt.toNat) 5 1 = Bool.bit toC := by rw [slice]; omega
  have h6 : slice (64 * Bool.bit toM + 32 * Bool.bit toC + cnt.toNat) 6 1 = Bool.bit toM := by rw [slice]; omega
  refine decodes_of_reads (.one .l) rfl (op := 0x4B) rfl (.inr rfl) (by decide) fun _ => ?_
  simp (disch := omega) only [Reads, encLS, format_entries, reader_fields, packed_fields, tag_codes, Nat.reduceSub,
    tk_of_code, h0, h5, h6, decide_bit, two_add_bit_eq, and_self]

theorem decodes_pf (tk : Tk) (f : PfForm) (base : BitVec 4) (off : BitVec 18) : Decodes (.pf tk f base off) := by
  have htk := tkCode_lt tk
  cases f <;> refine decodes_of_reads (.one .l) rfl (op := 0x4C) rfl (.inr rfl) (by decide) fun _ => ?_ <;>
    simp (disch := omega) only [Reads, encLS, format_entries, reader_fields, packed_fields, tag_codes, Nat.reduceSub,
      tk_of_code, and_self]

theorem addTySz_lt (t : AddTy) : t.sz < 4 := by cases t <;> decide

theorem decodes_stsa (tk : Tk) (ty : AddTy) (base : BitVec 4) (off : BitVec 18) : Decodes (.stsa tk ty base off) := by
  have htk := tkCode_lt tk
  have hty : codeOf addTyCodes ty < 4 := codeOf_lt (mem_addTyCodes ty)
  have hsz := addTySz_lt ty
  have h2 : slice (4 * codeOf addTyCodes ty) 2 2 = codeOf addTyCodes ty := by rw [slice]; omega
  refine decodes_of_reads (.one .s) rfl (op := 0x5D) rfl (.inr rfl) (by decide) fun _ => ?_
  simp (disch := omega) only [Reads, encLS, format_entries, reader_fields, packed_fields, tag_codes, Nat.reduceSub,
    tk_of_code, h2, ofCode_codeOf (mem_addTyCodes ty), Option.map_some, and_self]

theorem decodes_stpk (tk : Tk) (sz : Sz) (reserve : BitVec 7) (base : BitVec 4) (off : BitVec 18) : Decodes
    (.stpk tk sz reserve base off) := by
  have htk := tkCode_lt tk
  have hsz : codeOf szCodes sz < 4 := codeOf_lt (mem_szCodes sz)
  refine decodes_of_reads (.one .s) rfl (op := 0x5E) rfl (.inr rfl) (by decide) fun _ => ?_
  simp (disch := omega) only [Reads, encLS, format_entries, reader_fields, packed_fields, tag_codes, Nat.reduceSub,
    tk_of_code, ofCode_codeOf (mem_szCodes sz), Option.map_some, and_self]

theorem decodes_stmq (tk : Tk) (e : Option Sz) (oc : BitVec 4) (cp : Cp) (rl : Bool) (base : BitVec 4)
    (off : BitVec 18) : Decodes (.stmq tk e oc cp rl base off) := by
  have htk := tkCode_lt tk
  have hsz := szOrRow_lt e
  have hcp : codeOf cpCodes cp < 3 := codeOf_lt (mem_cpCodes cp)
  have hrl := bit_lt rl
  refine decodes_of_reads (.one .s) rfl (op := 0x5F) rfl (.inr rfl) (by decide) fun _ => ?_
  simp (disch := omega) only [Reads, stmqW, encLS, format_entries, reader_fields, packed_fields, tag_codes,
    Nat.reduceSub, tk_of_code, elemOrRow_szOrRow, ofCode_codeOf (mem_cpCodes cp), decide_bit, Option.bind_eq_bind,
    Option.bind_some, Option.pure_def, and_self]

theorem decodes_stmqSc (tk : Tk) (dbl : Bool) (oc : BitVec 4) (cp : Cp) (rl : Bool) (base : BitVec 4)
    (off : BitVec 18) : Decodes (.stmqSc tk dbl oc cp rl base off) := by
  have htk := tkCode_lt tk
  have hcp : codeOf cpCodes cp < 3 := codeOf_lt (mem_cpCodes cp)
  have hrl := bit_lt rl
  have hdbl := bit_lt dbl
  refine decodes_of_reads (.one .s) rfl (op := 0x5F) rfl (.inr rfl) (by decide) fun _ => ?_
  simp (disch := omega) only [Reads, stmqW, encLS, format_entries, reader_fields, packed_fields, tag_codes,
    Nat.reduceSub, tk_of_code, ofCode_codeOf (mem_cpCodes cp), decide_bit, Option.bind_eq_bind, Option.bind_some,
    Option.pure_def, true_and]
  cases dbl <;> rfl

theorem decodes_stmqAdd (tk : Tk) (ty : AddTy) (oc : BitVec 4) (cp : Cp) (rl : Bool) (base : BitVec 4)
    (off : BitVec 18) : Decodes (.stmqAdd tk ty oc cp rl base off) := by
  have htk := tkCode_lt tk
  have hcp : codeOf cpCodes cp < 3 := codeOf_lt (mem_cpCodes cp)
  have hty : codeOf addTyCodes ty < 4 := codeOf_lt (mem_addTyCodes ty)
  have hsz := addTySz_lt ty
  have hrl := bit_lt rl
  have h0 : slice (4 * codeOf addTyCodes ty + 2) 0 2 = 2 := by rw [slice]; omega
  have h2 : slice (4 * codeOf addTyCodes ty + 2) 2 2 = codeOf addTyCodes ty := by rw [slice]; omega
  refine decodes_of_reads (.one .s) rfl (op := 0x5F) rfl (.inr rfl) (by decide) fun _ => ?_
  simp (disch := omega) only [Reads, stmqW, encLS, format_entries, reader_fields, packed_fields, tag_codes,
    Nat.reduceSub, tk_of_code, h0, h2, ofCode_codeOf (mem_cpCodes cp), ofCode_codeOf (mem_addTyCodes ty), decide_bit,
    Option.bind_eq_bind, Option.bind_some, Option.pure_def, and_self]

theorem decodes_bput (tk : Tk) (base : BitVec 4) (off : BitVec 18) : Decodes (.bput tk base off) := by
  have htk := tkCode_lt tk
  refine decodes_of_reads (.one .s) rfl (op := 0x60) rfl (.inr rfl) (by decide) fun _ => ?_
  simp (disch := omega) only [Reads, encLS, format_entries, reader_fields, packed_fields, tag_codes, Nat.reduceSub,
    tk_of_code, and_self]

/-! ## Words of V -/

theorem vctlOf_fields {w : Word} {c : VCtl} (hh : hdrOf w = c.h) (hty : (field w 8 4).toNat = codeOf tyCodes c.ty)
    (hmk : (field w 6 2).toNat = codeOf mkCodes c.lanes) (hrm : (field w 4 2).toNat = codeOf rmCodes c.rm)
    (hsat : flag w 0 = c.sat) : vctlOf w = some c := by
  simp only [vctlOf, hh, hty, hmk, hrm, hsat, ofCode_codeOf (mem_tyCodes c.ty), ofCode_codeOf (mem_mkCodes c.lanes),
    ofCode_codeOf (mem_rmCodes c.rm), Option.bind_eq_bind, Option.bind_some, Option.pure_def]

/-- The fields of an R-format V word. -/
theorem encV_fields {op d a b x fn md : Nat} {c : VCtl} {w : Word} (hw : w = encV op c d a b x fn md) (hop : op < 256)
    (hd : d < 128) (ha : a < 128) (hb : b < 128) (hx : x < 128) (hfn : fn < 32) (hmd : md < 8) :
    (opOf w = op ∧ (field w 53 3).toNat = (Tag.one .v).code) ∧ vctlOf w = some c ∧ rD w = BitVec.ofNat 7 d ∧
      rA w = BitVec.ofNat 7 a ∧ rB w = BitVec.ofNat 7 b ∧ rC w = BitVec.ofNat 7 x ∧ field w 12 5 = BitVec.ofNat 5 fn ∧
      field w 12 4 = BitVec.ofNat 4 (slice fn 0 4) ∧ flag w 12 = decide (slice fn 0 1 = 1) ∧
      flag w 1 = decide (slice md 0 1 = 1) ∧ flag w 2 = decide (slice md 1 1 = 1) := by
  have htk := tkCode_lt c.h.tk
  have hty : codeOf tyCodes c.ty < 15 := codeOf_lt (mem_tyCodes c.ty)
  have hmk : codeOf mkCodes c.lanes < 4 := codeOf_lt (mem_mkCodes c.lanes)
  have hrm : codeOf rmCodes c.rm < 4 := codeOf_lt (mem_rmCodes c.rm)
  have hsat := bit_lt c.sat
  have h0 : slice (2 * md + Bool.bit c.sat) 0 1 = Bool.bit c.sat := by rw [slice]; omega
  have h1 : slice (2 * md + Bool.bit c.sat) 1 1 = slice md 0 1 := by simp only [slice]; omega
  have h2 : slice (2 * md + Bool.bit c.sat) 2 1 = slice md 1 1 := by simp only [slice]; omega
  subst hw
  refine ⟨?_, vctlOf_fields ?_ ?_ ?_ ?_ ?_, ?_⟩ <;>
  simp (disch := omega) only [encV, format_entries, reader_fields, packed_fields, tag_codes, Nat.reduceSub,
    tk_of_code, h0,
    h1, h2, decide_bit, and_self]

theorem decodes_vDA {mk : VCtl → VDst → VSrc → Instr} {op : Nat} {c : VCtl} {d : VDst} {a : VSrc}
    (henc : encode (mk c d a) = some (encV op c d.code a.code 0 0 0))
    (hlookup : opTable.lookup op = some (vDA mk)) (hhome : homeOf op = some (.one .v)) (hbase : op < 0xC0) :
    Decodes (mk c d a) := by
  obtain ⟨hop, hc, hd, ha, hb, hx, hfn, hfn4, hf, h1, h2⟩ := encV_fields (rfl : _ = encV op c d.code a.code 0 0 0)
    (by omega)
    (vdstCode_lt d) (vsrcCode_lt a) (by decide) (by decide) (by decide) (by decide)
  refine decodes_of_reads (.one .v) henc hlookup (.inr hhome) hbase fun _ => ⟨hop.1, hop.2, ?_⟩
  simp [vDA, hc, hd, ha, vdstOf_code, vsrcOf_code]

theorem decodes_vDAB {mk : VCtl → VDst → VSrc → VSrc → Instr} {op : Nat} {c : VCtl} {d : VDst} {a b : VSrc}
    (henc : encode (mk c d a b) = some (encV op c d.code a.code b.code 0 0))
    (hlookup : opTable.lookup op = some (vDAB mk)) (hhome : homeOf op = some (.one .v)) (hbase : op < 0xC0) :
    Decodes (mk c d a b) := by
  obtain ⟨hop, hc, hd, ha, hb, hx, hfn, hfn4, hf, h1, h2⟩ := encV_fields
    (rfl : _ = encV op c d.code a.code b.code 0 0) (by omega)
    (vdstCode_lt d) (vsrcCode_lt a) (vsrcCode_lt b) (by decide) (by decide) (by decide)
  refine decodes_of_reads (.one .v) henc hlookup (.inr hhome) hbase fun _ => ⟨hop.1, hop.2, ?_⟩
  simp [vDAB, hc, hd, ha, hb, vdstOf_code, vsrcOf_code]

theorem decodes_vDABC {mk : VCtl → VDst → VSrc → VSrc → VSrc → Instr} {op : Nat} {c : VCtl} {d : VDst} {a b x : VSrc}
    (henc : encode (mk c d a b x) = some (encV op c d.code a.code b.code x.code 0))
    (hlookup : opTable.lookup op = some (vDABC mk)) (hhome : homeOf op = some (.one .v)) (hbase : op < 0xC0) :
    Decodes (mk c d a b x) := by
  obtain ⟨hop, hc, hd, ha, hb, hx, hfn, hfn4, hf, h1, h2⟩ := encV_fields
    (rfl : _ = encV op c d.code a.code b.code x.code 0) (by omega)
    (vdstCode_lt d) (vsrcCode_lt a) (vsrcCode_lt b) (vsrcCode_lt x) (by decide) (by decide)
  refine decodes_of_reads (.one .v) henc hlookup (.inr hhome) hbase fun _ => ⟨hop.1, hop.2, ?_⟩
  simp [vDABC, hc, hd, ha, hb, hx, vdstOf_code, vsrcOf_code]

theorem decodes_vA {mk : VCtl → VSrc → Instr} {op : Nat} {c : VCtl} {a : VSrc}
    (henc : encode (mk c a) = some (encV op c 0 a.code 0 0 0))
    (hlookup : opTable.lookup op = some (vA mk)) (hhome : homeOf op = some (.one .v)) (hbase : op < 0xC0) :
    Decodes (mk c a) := by
  obtain ⟨hop, hc, hd, ha, hb, hx, hfn, hfn4, hf, h1, h2⟩ := encV_fields (rfl : _ = encV op c 0 a.code 0 0 0) (by omega)
    (by decide) (vsrcCode_lt a) (by decide) (by decide) (by decide) (by decide)
  refine decodes_of_reads (.one .v) henc hlookup (.inr hhome) hbase fun _ => ⟨hop.1, hop.2, ?_⟩
  simp [vA, hc, ha, vsrcOf_code]

theorem decodes_vWide {mk : VCtl → Bool → VDst → VSrc → VSrc → Instr} {op : Nat} {c : VCtl} {k4 : Bool} {d : VDst}
    {a b : VSrc} (henc : encode (mk c k4 d a b) = some (encV op c d.code a.code b.code 0 (Bool.bit k4)))
    (hlookup : opTable.lookup op = some (vWide mk)) (hhome : homeOf op = some (.one .v)) (hbase : op < 0xC0) :
    Decodes (mk c k4 d a b) := by
  have hk := bit_lt k4
  obtain ⟨hop, hc, hd, ha, hb, -, -, -, hf, -, -⟩ := encV_fields
    (rfl : _ = encV op c d.code a.code b.code 0 (Bool.bit k4)) (by omega) (vdstCode_lt d) (vsrcCode_lt a)
    (vsrcCode_lt b) (by decide) (by omega) (by decide)
  refine decodes_of_reads (.one .v) henc hlookup (.inr hhome) hbase fun _ => ⟨hop.1, hop.2, ?_⟩
  simp [vWide, hc, hd, ha, hb, hf, vdstOf_code, vsrcOf_code, slice_bit]

theorem decodes_vmovi (h : Hdr) (ty : Ty) (d : VDst) (imm : BitVec 27) : Decodes (.vmovi h ty d imm) := by
  have htk := tkCode_lt h.tk
  have hty : codeOf tyCodes ty < 15 := codeOf_lt (mem_tyCodes ty)
  have hd := vdstCode_lt d
  refine decodes_of_reads (.one .v) rfl (op := 0x69) rfl (.inr rfl) (by decide) fun _ => ?_
  simp (disch := omega) only [Reads, format_entries, reader_fields, packed_fields, tag_codes, Nat.reduceSub,
    tk_of_code, vdstOf_code, ofCode_codeOf (mem_tyCodes ty), Option.bind_eq_bind, Option.bind_some, Option.pure_def,
    and_self]

theorem decodes_vidx (h : Hdr) (ty : Ty) (d : VDst) (s : BitVec 7) (imm : BitVec 27) : Decodes
    (.vidx h ty d s imm) := by
  have htk := tkCode_lt h.tk
  have hty : codeOf tyCodes ty < 15 := codeOf_lt (mem_tyCodes ty)
  have hd := vdstCode_lt d
  refine decodes_of_reads (.one .v) rfl (op := 0x6B) rfl (.inr rfl) (by decide) fun _ => ?_
  simp (disch := omega) only [Reads, format_entries, reader_fields, packed_fields, tag_codes, Nat.reduceSub,
    tk_of_code, vdstOf_code, ofCode_codeOf (mem_tyCodes ty), Option.bind_eq_bind, Option.bind_some, Option.pure_def,
    and_self]

theorem decodes_vbcast (c : VCtl) (d : VDst) (a b : VSrc) : Decodes (.vbcast c d a b) := by
  obtain ⟨hop, hc, hd, ha, hb, hx, hfn, hfn4, hf, h1, h2⟩ := encV_fields
    (rfl : _ = encV 0x6A c d.code a.code b.code 0 0) (by decide)
    (vdstCode_lt d) (vsrcCode_lt a) (vsrcCode_lt b) (by decide) (by decide) (by decide)
  refine decodes_of_reads (.one .v) rfl (op := 0x6A) rfl (.inr rfl) (by decide) fun _ => ⟨hop.1, hop.2, ?_⟩
  simp [rFn, hfn, vDAB, hc, hd, ha, hb, vdstOf_code, vsrcOf_code]

theorem decodes_vbcastQ (c : VCtl) (d : VDst) : Decodes (.vbcastQ c d) := by
  obtain ⟨hop, hc, hd, ha, hb, hx, hfn, hfn4, hf, h1, h2⟩ := encV_fields (rfl : _ = encV 0x6A c d.code 0 0 0 1)
    (by decide)
    (vdstCode_lt d) (by decide) (by decide) (by decide) (by decide) (by decide)
  refine decodes_of_reads (.one .v) rfl (op := 0x6A) rfl (.inr rfl) (by decide) fun _ => ⟨hop.1, hop.2, ?_⟩
  simp [rFn, hfn, hc, hd, vdstOf_code]

theorem decodes_vnarrow (c : VCtl) (k4 : Bool) (d : VDst) (a : VSrc) : Decodes (.vnarrow c k4 d a) := by
  have hk := bit_lt k4
  obtain ⟨hop, hc, hd, ha, hb, hx, hfn, hfn4, hf, h1, h2⟩ := encV_fields (rfl : _ = encV 0x80 c d.code a.code 0 0
    (Bool.bit k4)) (by decide)
    (vdstCode_lt d) (vsrcCode_lt a) (by decide) (by decide) (by omega) (by decide)
  refine decodes_of_reads (.one .v) rfl (op := 0x80) rfl (.inr rfl) (by decide) fun _ => ⟨hop.1, hop.2, ?_⟩
  simp [hc, hd, ha, hf, vdstOf_code, vsrcOf_code, slice_bit]

theorem decodes_vcvt (c : VCtl) (ty : Ty) (d : VDst) (a : VSrc) : Decodes (.vcvt c ty d a) := by
  have hty : codeOf tyCodes ty < 15 := codeOf_lt (mem_tyCodes ty)
  have hs : slice (codeOf tyCodes ty) 0 4 % 16 = codeOf tyCodes ty := by rw [slice]; omega
  obtain ⟨hop, hc, hd, ha, hb, hx, hfn, hfn4, hf, h1, h2⟩ := encV_fields (rfl : _ = encV 0x81 c d.code a.code 0 0
    (codeOf tyCodes ty)) (by decide)
    (vdstCode_lt d) (vsrcCode_lt a) (by decide) (by decide) (by omega) (by decide)
  refine decodes_of_reads (.one .v) rfl (op := 0x81) rfl (.inr rfl) (by decide) fun _ => ⟨hop.1, hop.2, ?_⟩
  simp [hc, hd, ha, hfn4, hs, ofCode_codeOf (mem_tyCodes ty), vdstOf_code, vsrcOf_code]

theorem bit_lt_eight (x : Bool) : Bool.bit x < 8 := Nat.lt_trans (bit_lt x) (by decide)

theorem decodes_vcmp (c : VCtl) (fn : VCmp) (m : Bool) (a b : VSrc) : Decodes (.vcmp c fn m a b) := by
  have hfn : codeOf vcmpCodes fn < 8 := codeOf_lt (mem_vcmpCodes fn)
  have hm : codeOf vcmpCodes fn % 32 = codeOf vcmpCodes fn := by omega
  obtain ⟨hop, hc, hd, ha, hb, hx, hf5, hfn4, hf, h1, h2⟩ := encV_fields (rfl : _ = encV 0x82 c 0 a.code b.code 0
    (codeOf vcmpCodes fn) (Bool.bit m)) (by decide)
    (by decide) (vsrcCode_lt a) (vsrcCode_lt b) (by decide) (by omega) (bit_lt_eight m)
  refine decodes_of_reads (.one .v) rfl (op := 0x82) rfl (.inr rfl) (by decide) fun _ => ⟨hop.1, hop.2, ?_⟩
  simp [rFn, hf5, hm, hc, ha, hb, h1, ofCode_codeOf (mem_vcmpCodes fn), vsrcOf_code, slice_bit]

theorem decodes_vclass (c : VCtl) (cls : BitVec 5) (neg pos : Bool) (a : VSrc) : Decodes (.vclass c cls neg pos a) := by
  have hn := bit_lt neg
  have hp := bit_lt pos
  have h0 : slice (Bool.bit neg + 2 * Bool.bit pos) 0 1 = Bool.bit neg := by rw [slice]; omega
  have h1' : slice (Bool.bit neg + 2 * Bool.bit pos) 1 1 = Bool.bit pos := by rw [slice]; omega
  obtain ⟨hop, hc, hd, ha, hb, hx, hfn, hfn4, hf, h1, h2⟩ := encV_fields
    (rfl : _ = encV 0x83 c 0 a.code 0 0 cls.toNat (Bool.bit neg + 2 * Bool.bit pos)) (by decide)
    (by decide) (vsrcCode_lt a) (by decide) (by decide) (by omega) (by omega)
  refine decodes_of_reads (.one .v) rfl (op := 0x83) rfl (.inr rfl) (by decide) fun _ => ⟨hop.1, hop.2, ?_⟩
  simp [hfn, hc, ha, h1, h2, h0, h1', vsrcOf_code, decide_bit]

theorem decodes_vred (c : VCtl) (fn : VRedFn) (d : VDst) (a : VSrc) : Decodes (.vred c fn d a) := by
  have hfn : codeOf vredCodes fn < 6 := codeOf_lt (mem_vredCodes fn)
  have hm : codeOf vredCodes fn % 32 = codeOf vredCodes fn := by omega
  obtain ⟨hop, hc, hd, ha, hb, hx, hf5, hfn4, hf, h1, h2⟩ := encV_fields (rfl : _ = encV 0x89 c d.code a.code 0 0
    (codeOf vredCodes fn)) (by decide)
    (vdstCode_lt d) (vsrcCode_lt a) (by decide) (by decide) (by omega) (by decide)
  refine decodes_of_reads (.one .v) rfl (op := 0x89) rfl (.inr rfl) (by decide) fun _ => ⟨hop.1, hop.2, ?_⟩
  simp [rFn, hf5, hm, hc, hd, ha, ofCode_codeOf (mem_vredCodes fn), vdstOf_code, vsrcOf_code]

theorem decodes_vany (c : VCtl) (fn : VAnyFn) (d : VDst) : Decodes (.vany c fn d) := by
  have hfn : codeOf vanyCodes fn < 4 := codeOf_lt (mem_vanyCodes fn)
  have hm : codeOf vanyCodes fn % 32 = codeOf vanyCodes fn := by omega
  obtain ⟨hop, hc, hd, ha, hb, hx, hf5, hfn4, hf, h1, h2⟩ := encV_fields (rfl : _ = encV 0x8A c d.code 0 0 0
    (codeOf vanyCodes fn)) (by decide)
    (vdstCode_lt d) (by decide) (by decide) (by decide) (by omega) (by decide)
  refine decodes_of_reads (.one .v) rfl (op := 0x8A) rfl (.inr rfl) (by decide) fun _ => ⟨hop.1, hop.2, ?_⟩
  simp [rFn, hf5, hm, hc, hd, ofCode_codeOf (mem_vanyCodes fn), vdstOf_code]

theorem decodes_geo {mk : GeoWord → Instr} {op : Nat} {x : GeoWord} (henc : encode (mk x) = some (encGeo op x))
    (hlookup : opTable.lookup op = some (geoW mk)) (hhome : homeOf op = some (.one .v)) (hbase : op < 0xC0) :
    Decodes (mk x) := by
  obtain ⟨tk, f64, lanes, nf, ids, d, a⟩ := x
  have htk := tkCode_lt tk
  have hd := vdstCode_lt d
  have hmk : codeOf mkCodes lanes < 4 := codeOf_lt (mem_mkCodes lanes)
  have hnf := bit_lt nf
  have hids := bit_lt ids.isSome
  have h1 : slice (4 * Bool.bit nf + 2 * Bool.bit ids.isSome) 1 1 = Bool.bit ids.isSome := by rw [slice]; omega
  have h2 : slice (4 * Bool.bit nf + 2 * Bool.bit ids.isSome) 2 1 = Bool.bit nf := by rw [slice]; omega
  refine decodes_of_reads (.one .v) henc hlookup (.inr hhome) hbase fun _ => ?_
  cases f64 <;> cases ids <;>
    simp (disch := omega) only [Reads, geoW, encGeo, format_entries, reader_fields, packed_fields, tag_codes,
      Nat.reduceSub, tk_of_code, h1, h2, vdstOf_code, ofCode_codeOf (mem_mkCodes lanes), decide_bit, if_true,
      Bool.false_eq_true, if_false, Option.bind_eq_bind, Option.bind_some, Option.pure_def, true_and] <;>
    rfl

theorem decodes_vaccrd (c : VCtl) (d : VDst) (b : VSrc) : Decodes (.vaccrd c d b) := by
  obtain ⟨hop, hc, hd, ha, hb, hx, hfn, hfn4, hf, h1, h2⟩ := encV_fields (rfl : _ = encV 0x9C c d.code 0 b.code 0 0)
    (by decide)
    (vdstCode_lt d) (by decide) (vsrcCode_lt b) (by decide) (by decide) (by decide)
  refine decodes_of_reads (.one .v) rfl (op := 0x9C) rfl (.inr rfl) (by decide) fun _ => ⟨hop.1, hop.2, ?_⟩
  simp [hc, hd, hb, vdstOf_code, vsrcOf_code]

theorem decodes_vaccwr (c : VCtl) (a b : VSrc) : Decodes (.vaccwr c a b) := by
  obtain ⟨hop, hc, hd, ha, hb, hx, hfn, hfn4, hf, h1, h2⟩ := encV_fields (rfl : _ = encV 0x9D c 0 a.code b.code 0 0)
    (by decide)
    (by decide) (vsrcCode_lt a) (vsrcCode_lt b) (by decide) (by decide) (by decide)
  refine decodes_of_reads (.one .v) rfl (op := 0x9D) rfl (.inr rfl) (by decide) fun _ => ⟨hop.1, hop.2, ?_⟩
  simp [hc, ha, hb, vsrcOf_code]

theorem decodes_emsave (h : Hdr) (d : BitVec 3) (fromCm : Bool) : Decodes (.emsave h d fromCm) := by
  have htk := tkCode_lt h.tk
  have hf := bit_lt fromCm
  refine decodes_of_reads (.one .v) rfl (op := 0xA1) rfl (.inr rfl) (by decide) fun _ => ?_
  simp (disch := omega) only [Reads, encMask, format_entries, reader_fields, packed_fields, tag_codes, Nat.reduceSub,
    tk_of_code, decide_bit, and_self]

theorem maskSelOf_code_of_wellFormed {a : MaskSel}
    (h : (match a with | .mk n => decide (n.toNat ≤ 5) | _ => true) = true) :
    maskSelOf (BitVec.ofNat 7 a.code) = some a :=
  maskSelOf_code fun n hn => by subst hn; exact of_decide_eq_true h

theorem decodes_emrest (h : Hdr) (a : MaskSel) : Decodes (.emrest h a) := by
  have htk := tkCode_lt h.tk
  have ha := maskSelCode_lt a
  refine decodes_of_reads (.one .v) rfl (op := 0xA2) rfl (.inr rfl) (by decide) fun hwf => ?_
  have hsel := maskSelOf_code_of_wellFormed ((Bool.and_eq_true _ _).mp hwf).2
  simp (disch := omega) only [Reads, encMask, format_entries, reader_fields, packed_fields, tag_codes, Nat.reduceSub,
    tk_of_code, hsel, Option.map_some, and_self]

theorem decodes_emcomb (h : Hdr) (op : MaskOp) (a : MaskSel) : Decodes (.emcomb h op a) := by
  have htk := tkCode_lt h.tk
  have ha := maskSelCode_lt a
  have hop : codeOf maskOpCodes op < 4 := codeOf_lt (mem_maskOpCodes op)
  refine decodes_of_reads (.one .v) rfl (op := 0xA3) rfl (.inr rfl) (by decide) fun hwf => ?_
  have hsel := maskSelOf_code_of_wellFormed ((Bool.and_eq_true _ _).mp hwf).2
  simp (disch := omega) only [Reads, encMask, format_entries, reader_fields, packed_fields, tag_codes, Nat.reduceSub,
    tk_of_code, hsel, ofCode_codeOf (mem_maskOpCodes op), Option.bind_eq_bind, Option.bind_some, Option.pure_def,
    and_self]

theorem decodes_vspill (tk : Tk) (a : BitVec 6) : Decodes (.vspill tk a) := by
  have htk := tkCode_lt tk
  refine decodes_of_reads (.one .v) rfl (op := 0xA4) rfl (.inr rfl) (by decide) fun _ => ?_
  simp (disch := omega) only [Reads, format_entries, reader_fields, packed_fields, tag_codes, Nat.reduceSub,
    tk_of_code, and_self]

theorem decodes_vfill (tk : Tk) (d : VDst) (a : BitVec 6) : Decodes (.vfill tk d a) := by
  have htk := tkCode_lt tk
  have hd := vdstCode_lt d
  refine decodes_of_reads (.one .v) rfl (op := 0xA5) rfl (.inr rfl) (by decide) fun _ => ?_
  simp (disch := omega) only [Reads, format_entries, reader_fields, packed_fields, tag_codes, Nat.reduceSub,
    tk_of_code, vdstOf_code, Option.map_some, and_self]

/-! ## Words of M -/

theorem decodes_claim {mk : Tk → Option (BitVec 5 × BitVec 5) → Option (BitVec 4) → Instr} {op : Nat} {tk : Tk}
    {slots : Option (BitVec 5 × BitVec 5)} {tile : Option (BitVec 4)}
    (henc : encode (mk tk slots tile) = some (encClaim op tk slots tile))
    (hlookup : opTable.lookup op = some (claimW mk)) (hhome : homeOf op = some (.one .m)) (hbase : op < 0xC0) :
    Decodes (mk tk slots tile) := by
  have htk := tkCode_lt tk
  have ht := bit_lt tile.isSome
  have hs := bit_lt slots.isSome
  have h0 : slice (2 * Bool.bit tile.isSome + Bool.bit slots.isSome) 0 1 = Bool.bit slots.isSome := by rw [slice]; omega
  have h1 : slice (2 * Bool.bit tile.isSome + Bool.bit slots.isSome) 1 1 = Bool.bit tile.isSome := by rw [slice]; omega
  refine decodes_of_reads (.one .m) henc hlookup (.inr hhome) hbase fun _ => ?_
  cases slots <;> cases tile <;>
    simp (disch := omega) only [Reads, claimW, encClaim, format_entries, reader_fields, packed_fields, tag_codes,
      Nat.reduceSub, tk_of_code, h0, h1, decide_bit, true_and] <;>
    rfl

theorem decodes_mzero (tk : Tk) (acc q : BitVec 4) : Decodes (.mzero tk acc q) := by
  have htk := tkCode_lt tk
  refine decodes_of_reads (.one .m) rfl (op := 0xAA) rfl (.inr rfl) (by decide) fun _ => ?_
  simp (disch := omega) only [Reads, format_entries, reader_fields, packed_fields, tag_codes, Nat.reduceSub,
    tk_of_code, and_self]

/-- The fields of a product word. -/
theorem encMm_fields {op pat fn : Nat} {x : MmWord} {w : Word} (hw : w = encMm op x pat fn) (hop : op < 256)
    (hpat : pat < 32) (hfn : fn < 2 ^ 16) :
    (opOf w = op ∧ (field w 53 3).toNat = (Tag.one .m).code) ∧ mmW w = some x ∧
      field w 26 4 = BitVec.ofNat 4 (slice pat 0 4) ∧ field w 0 16 = BitVec.ofNat 16 fn := by
  obtain ⟨tk, acc, oma, omb, qmask, ta, tb, am⟩ := x
  have htk := tkCode_lt tk
  have hta := bit_lt ta
  have htb := bit_lt tb
  have ham : codeOf amCodes am < 3 := codeOf_lt (mem_amCodes am)
  subst hw
  simp (disch := omega) only [mmW, encMm, format_entries, reader_fields, packed_fields, tag_codes, Nat.reduceSub,
    tk_of_code, decide_bit, ofCode_codeOf (mem_amCodes am), Option.bind_eq_bind, Option.bind_some, Option.pure_def,
    and_self]

theorem decodes_mma (x : MmWord) : Decodes (.mma x) := by
  obtain ⟨hop, hm, h26, h0⟩ := encMm_fields (rfl : _ = encMm 0xAB x 31 0) (by decide) (by decide) (by decide)
  refine decodes_of_reads (.one .m) rfl (op := 0xAB) rfl (.inr rfl) (by decide) fun _ => ⟨hop.1, hop.2, ?_⟩
  simp [hm]

theorem decodes_mmaq (x : MmWord) (fn : BitVec 16) : Decodes (.mmaq x fn) := by
  obtain ⟨hop, hm, h26, h0⟩ := encMm_fields (rfl : _ = encMm 0xAC x 31 fn.toNat) (by decide) (by decide) (fn.isLt)
  refine decodes_of_reads (.one .m) rfl (op := 0xAC) rfl (.inr rfl) (by decide) fun _ => ⟨hop.1, hop.2, ?_⟩
  simp [hm, h0]

theorem decodes_mmas (x : MmWord) (pat : BitVec 4) (voff : BitVec 16) : Decodes (.mmas x pat voff) := by
  obtain ⟨hop, hm, h26, h0⟩ := encMm_fields (rfl : _ = encMm 0xAD x pat.toNat voff.toNat) (by decide)
    (show pat.toNat < 32 by omega) (voff.isLt)
  refine decodes_of_reads (.one .m) rfl (op := 0xAD) rfl (.inr rfl) (by decide) fun _ => ⟨hop.1, hop.2, ?_⟩
  simp [hm, h26, h0, slice_self pat.isLt]

theorem decodes_mmag (x : MmWord) : Decodes (.mmag x) := by
  obtain ⟨hop, hm, h26, h0⟩ := encMm_fields (rfl : _ = encMm 0xAE x 31 0) (by decide) (by decide) (by decide)
  refine decodes_of_reads (.one .m) rfl (op := 0xAE) rfl (.inr rfl) (by decide) fun _ => ⟨hop.1, hop.2, ?_⟩
  simp [hm]

theorem decodes_mnset (tk : Tk) (rec : NestRec) : Decodes (.mnset tk rec) := by
  have htk := tkCode_lt tk
  refine decodes_of_reads (.one .m) rfl (op := 0xAF) rfl (.inr rfl) (by decide) fun hwf => ?_
  cases rec with
  | header =>
    simp (disch := omega) only [Reads, format_entries, reader_fields, packed_fields, tag_codes, Nat.reduceSub,
      tk_of_code, and_self]
  | level n =>
    have hn : n.toNat ≤ 5 := of_decide_eq_true hwf
    simp (disch := omega) only [Reads, format_entries, reader_fields, packed_fields, tag_codes, Nat.reduceSub,
      tk_of_code, and_self]

theorem decodes_mnest (tk : Tk) : Decodes (.mnest tk) := by
  have htk := tkCode_lt tk
  refine decodes_of_reads (.one .m) rfl (op := 0xB0) rfl (.inr rfl) (by decide) fun _ => ?_
  simp (disch := omega) only [Reads, format_entries, reader_fields, packed_fields, tag_codes, Nat.reduceSub,
    tk_of_code, and_self]

theorem decodes_mdrain (tk : Tk) (acc : BitVec 4) (f : DrainFn) : Decodes (.mdrain tk acc f) := by
  obtain ⟨relu, clr, scale, int, dty⟩ := f
  have htk := tkCode_lt tk
  have hr := bit_lt relu
  have hc := bit_lt clr
  have hi := bit_lt int
  have hty : codeOf tyCodes dty < 15 := codeOf_lt (mem_tyCodes dty)
  have hcode : drainCode ⟨relu, clr, scale, int, dty⟩ = 16384 * Bool.bit relu + 8192 * Bool.bit clr + 32 * scale.toNat +
    16 * Bool.bit int + codeOf tyCodes dty := rfl
  have h0 : slice (drainCode ⟨relu, clr, scale, int, dty⟩) 0 4 = codeOf tyCodes dty := by rw [slice]; omega
  have h4 : slice (drainCode ⟨relu, clr, scale, int, dty⟩) 4 1 = Bool.bit int := by rw [slice]; omega
  have h5 : slice (drainCode ⟨relu, clr, scale, int, dty⟩) 5 8 = scale.toNat := by rw [slice]; omega
  have h13 : slice (drainCode ⟨relu, clr, scale, int, dty⟩) 13 1 = Bool.bit clr := by rw [slice]; omega
  have h14 : slice (drainCode ⟨relu, clr, scale, int, dty⟩) 14 1 = Bool.bit relu := by rw [slice]; omega
  refine decodes_of_reads (.one .m) rfl (op := 0xB1) rfl (.inr rfl) (by decide) fun _ => ?_
  simp (disch := omega) only [Reads, drainFnOf, format_entries, reader_fields, packed_fields, tag_codes, Nat.reduceSub,
    tk_of_code, h0, h4, h5, h13, h14, decide_bit, ofCode_codeOf (mem_tyCodes dty), Option.bind_eq_bind,
    Option.bind_some,
    Option.pure_def, Option.map_some, and_self]

theorem decodes_mpload (tk : Tk) (x n1 : BitVec 8) : Decodes (.mpload tk x n1) := by
  have htk := tkCode_lt tk
  have h0 : slice (n1.toNat * 256 + x.toNat) 0 8 = x.toNat := by rw [slice]; omega
  have h8 : slice (n1.toNat * 256 + x.toNat) 8 8 = n1.toNat := by rw [slice]; omega
  refine decodes_of_reads (.one .m) rfl (op := 0xB2) rfl (.inr rfl) (by decide) fun _ => ?_
  simp (disch := omega) only [Reads, format_entries, reader_fields, packed_fields, tag_codes, Nat.reduceSub,
    tk_of_code, h0, h8, and_self]

theorem decodes_mpbind (tk : Tk) (pat : BitVec 4) (ta : Bool) : Decodes (.mpbind tk pat ta) := by
  have htk := tkCode_lt tk
  have ht := bit_lt ta
  refine decodes_of_reads (.one .m) rfl (op := 0xB3) rfl (.inr rfl) (by decide) fun _ => ?_
  simp (disch := omega) only [Reads, format_entries, reader_fields, packed_fields, tag_codes, Nat.reduceSub,
    tk_of_code, decide_bit, and_self]

theorem decodes_mtog (tk : Tk) : Decodes (.mtog tk) := by
  have htk := tkCode_lt tk
  refine decodes_of_reads (.one .m) rfl (op := 0xB4) rfl (.inr rfl) (by decide) fun _ => ?_
  simp (disch := omega) only [Reads, format_entries, reader_fields, packed_fields, tag_codes, Nat.reduceSub,
    tk_of_code, and_self]

/-! ## Bound words -/

theorem decodes_boundOpcode (n : BitVec 6) (e : Eng) (h : Hdr) (d a b : BitVec 7) (imm : BitVec 24) :
    Decodes (.boundOpcode n e h d a b imm) := by
  have htk := tkCode_lt h.tk
  have he : codeOf engCodes e < 5 := codeOf_lt (mem_engCodes e)
  have htag : (Tag.one e).code = codeOf engCodes e := rfl
  intro w hwf hw
  obtain rfl := Option.some.inj hw
  have hop : opOf (pack (head (0xC0 + n.toNat) (codeOf engCodes e) h.lat.toNat h.tk.code ++
      [(7, d.toNat), (7, a.toNat), (7, b.toNat), (24, imm.toNat)])) = 0xC0 + n.toNat := by
    simp (disch := omega) only [head, List.cons_append, List.nil_append, reader_fields, packed_fields, Nat.reduceSub]
  have hn : slice (0xC0 + n.toNat) 0 6 = n.toNat := by rw [slice]; omega
  refine decode_of_parse (.one e) hwf hw ?_ ?_ ?_ ?_
  · simp (disch := omega) only [head, List.cons_append, List.nil_append, packed_fields, Nat.reduceSub, htag]
  · simp [opAssigned, hop]
  · simp [tagMatches, hop]
  · rw [parse, hop, if_pos (by omega), parseBound]
    simp (disch := omega) only [head, List.cons_append, List.nil_append, reader_fields, packed_fields, Nat.reduceSub,
      ofCode_codeOf (mem_engCodes e), hn, tk_of_code, Option.map_some]

/-! ## Every instruction -/

/-- Every instruction is decoded from its word. -/
theorem decodes_all (i : Instr) : Decodes i := by
  cases i
  case nop t tk => exact decodes_nop t tk
  case add => exact decodes_rrr rfl rfl rfl (by decide)
  case sub => exact decodes_rrr rfl rfl rfl (by decide)
  case mul => exact decodes_rrr rfl rfl rfl (by decide)
  case mulh => exact decodes_rrr rfl rfl rfl (by decide)
  case mulhu => exact decodes_rrr rfl rfl rfl (by decide)
  case div => exact decodes_rrr rfl rfl rfl (by decide)
  case divu => exact decodes_rrr rfl rfl rfl (by decide)
  case rem => exact decodes_rrr rfl rfl rfl (by decide)
  case remu => exact decodes_rrr rfl rfl rfl (by decide)
  case and => exact decodes_rrr rfl rfl rfl (by decide)
  case or => exact decodes_rrr rfl rfl rfl (by decide)
  case xor => exact decodes_rrr rfl rfl rfl (by decide)
  case shl => exact decodes_rrr rfl rfl rfl (by decide)
  case shr => exact decodes_rrr rfl rfl rfl (by decide)
  case sra => exact decodes_rrr rfl rfl rfl (by decide)
  case min => exact decodes_rrr rfl rfl rfl (by decide)
  case max => exact decodes_rrr rfl rfl rfl (by decide)
  case minu => exact decodes_rrr rfl rfl rfl (by decide)
  case maxu => exact decodes_rrr rfl rfl rfl (by decide)
  case clz => exact decodes_rr rfl rfl rfl (by decide)
  case popc => exact decodes_rr rfl rfl rfl (by decide)
  case sel lat d a b c => exact decodes_sel lat d a b c
  case cmp lat fn d a b => exact decodes_cmp lat fn d a b
  case addi => exact decodes_ri rfl rfl rfl (by decide)
  case andi => exact decodes_ri rfl rfl rfl (by decide)
  case ori => exact decodes_ri rfl rfl rfl (by decide)
  case xori => exact decodes_ri rfl rfl rfl (by decide)
  case shi lat k d a n => exact decodes_shi lat k d a n
  case li lat d imm => exact decodes_li lat d imm
  case lih => exact decodes_ri rfl rfl rfl (by decide)
  case cmpi lat fn d a imm => exact decodes_cmpi lat fn d a imm
  case br off => exact decodes_br off
  case brc c hint g off => exact decodes_brc c hint g off
  case call off => exact decodes_call off
  case ret => exact decodes_ret
  case jr g => exact decodes_jr g
  case loop g off => exact decodes_loop g off
  case loopr off => exact decodes_loopr off
  case ploop stages words g len => exact decodes_ploop stages words g len
  case waitTrig => exact decodes_waitTrig
  case waitCpy => exact decodes_waitCpy
  case waitColl => exact decodes_waitColl
  case waitFlag ga oc => exact decodes_waitFlag ga oc
  case waitTime ga => exact decodes_waitTime ga
  case yield => exact decodes_yield
  case trig => exact decodes_trig
  case exit => exact decodes_exit
  case trap imm => exact decodes_trap imm
  case fence sc k mask => exact decodes_fence sc k mask
  case sbar => exact decodes_sbar
  case ovl n => exact decodes_ovl n
  case pushHset gb ga x w r tag => exact decodes_pushHset gb ga x w r tag
  case pushHfree gb tag => exact decodes_pushHfree gb tag
  case pushHread gb tag => exact decodes_pushHread gb tag
  case pushGset gb => exact decodes_pushGset gb
  case pushGfree gb => exact decodes_pushGfree gb
  case pushCrun gb => exact decodes_pushCrun gb
  case popCpy lat ga => exact decodes_popCpy lat ga
  case popColl lat ga => exact decodes_popColl lat ga
  case mfst lat ga num => exact decodes_mfst lat ga num
  case mtst num gb => exact decodes_mtst num gb
  case qsend q gb => exact decodes_qsend q gb
  case qrecv lat ga => exact decodes_qrecv lat ga
  case launch lat ga gb => exact decodes_launch lat ga gb
  case bind lat ga gb n => exact decodes_bind lat ga gb n
  case sysInval lat ga gb => exact decodes_sysInval lat ga gb
  case sysFgive lat ga gb => exact decodes_sysFgive lat ga gb
  case sysFtake lat ga gb => exact decodes_sysFtake lat ga gb
  case sysMread lat ga gb => exact decodes_sysMread lat ga gb
  case ld lat sz sx oc cp aq d base off => exact decodes_ld lat sz sx oc cp aq d base off
  case st sz oc cp rl d base off => exact decodes_st sz oc cp rl d base off
  case amo lat op dbl oc aq rl d base off => exact decodes_amo lat op dbl oc aq rl d base off
  case pfl xlat base off => exact decodes_pfl xlat base off
  case aadd h d a imm => exact decodes_aadd h d a imm
  case aset h d imm => exact decodes_aset h d imm
  case asetH h d imm => exact decodes_asetH h d imm
  case asetQ h d imm => exact decodes_asetQ h d imm
  case sdset h sd w a second => exact decodes_sdset h sd w a second
  case ldq tk t6 base off => exact decodes_ldq tk t6 base off
  case ldqs tk sz sd base off => exact decodes_ldqs tk sz sd base off
  case ldg tk sz base off => exact decodes_ldg tk sz base off
  case ldpk tk sz base off => exact decodes_ldpk tk sz base off
  case ldmq tk e oc cp aq base off => exact decodes_ldmq tk e oc cp aq base off
  case omfill tk d sd base off => exact decodes_omfill tk d sd base off
  case cpy => exact decodes_copy rfl rfl rfl (by decide)
  case cpyh => exact decodes_copy rfl rfl rfl (by decide)
  case rps tk toC toM dbl cnt base off => exact decodes_rps tk toC toM dbl cnt base off
  case pf tk f base off => exact decodes_pf tk f base off
  case badd h d a imm => exact decodes_badd h d a imm
  case bset h d imm => exact decodes_bset h d imm
  case bsetH h d imm => exact decodes_bsetH h d imm
  case bsetQ h d imm => exact decodes_bsetQ h d imm
  case stq tk t6 base off => exact decodes_stq tk t6 base off
  case stqs tk sz sd base off => exact decodes_stqs tk sz sd base off
  case sts tk sz base off => exact decodes_sts tk sz base off
  case stsa tk ty base off => exact decodes_stsa tk ty base off
  case stpk tk sz reserve base off => exact decodes_stpk tk sz reserve base off
  case stmq tk e oc cp rl base off => exact decodes_stmq tk e oc cp rl base off
  case stmqSc tk dbl oc cp rl base off => exact decodes_stmqSc tk dbl oc cp rl base off
  case stmqAdd tk ty oc cp rl base off => exact decodes_stmqAdd tk ty oc cp rl base off
  case bput tk base off => exact decodes_bput tk base off
  case vmov => exact decodes_vDA rfl rfl rfl (by decide)
  case vmovi h ty d imm => exact decodes_vmovi h ty d imm
  case vidx h ty d s imm => exact decodes_vidx h ty d s imm
  case vbcast c d a b => exact decodes_vbcast c d a b
  case vbcastQ c d => exact decodes_vbcastQ c d
  case vadd => exact decodes_vDAB rfl rfl rfl (by decide)
  case vsub => exact decodes_vDAB rfl rfl rfl (by decide)
  case vmul => exact decodes_vDAB rfl rfl rfl (by decide)
  case vfma => exact decodes_vDABC rfl rfl rfl (by decide)
  case vfms => exact decodes_vDABC rfl rfl rfl (by decide)
  case vmin => exact decodes_vDAB rfl rfl rfl (by decide)
  case vmax => exact decodes_vDAB rfl rfl rfl (by decide)
  case vabs => exact decodes_vDA rfl rfl rfl (by decide)
  case vneg => exact decodes_vDA rfl rfl rfl (by decide)
  case vadds => exact decodes_vDAB rfl rfl rfl (by decide)
  case vsubs => exact decodes_vDAB rfl rfl rfl (by decide)
  case vmulh => exact decodes_vDAB rfl rfl rfl (by decide)
  case vand => exact decodes_vDAB rfl rfl rfl (by decide)
  case vor => exact decodes_vDAB rfl rfl rfl (by decide)
  case vxor => exact decodes_vDAB rfl rfl rfl (by decide)
  case vshl => exact decodes_vDAB rfl rfl rfl (by decide)
  case vshr => exact decodes_vDAB rfl rfl rfl (by decide)
  case vsra => exact decodes_vDAB rfl rfl rfl (by decide)
  case vwmul => exact decodes_vWide rfl rfl rfl (by decide)
  case vwadd => exact decodes_vWide rfl rfl rfl (by decide)
  case vnarrow c k4 d a => exact decodes_vnarrow c k4 d a
  case vcvt c dst d a => exact decodes_vcvt c dst d a
  case vcmp c fn andCm a b => exact decodes_vcmp c fn andCm a b
  case vclass c cls neg pos a => exact decodes_vclass c cls neg pos a
  case vsel => exact decodes_vDAB rfl rfl rfl (by decide)
  case vperm => exact decodes_vDAB rfl rfl rfl (by decide)
  case vshuf => exact decodes_vDABC rfl rfl rfl (by decide)
  case vrot => exact decodes_vDAB rfl rfl rfl (by decide)
  case vslide => exact decodes_vDABC rfl rfl rfl (by decide)
  case vred c fn d a => exact decodes_vred c fn d a
  case vany c fn d => exact decodes_vany c fn d
  case vcompress => exact decodes_vDA rfl rfl rfl (by decide)
  case vexpand => exact decodes_vDAB rfl rfl rfl (by decide)
  case vconf => exact decodes_vA rfl rfl rfl (by decide)
  case vexp2 => exact decodes_vDA rfl rfl rfl (by decide)
  case vlog2 => exact decodes_vDA rfl rfl rfl (by decide)
  case vexp => exact decodes_vDA rfl rfl rfl (by decide)
  case vlog => exact decodes_vDA rfl rfl rfl (by decide)
  case vrcp => exact decodes_vDA rfl rfl rfl (by decide)
  case vrsqrt => exact decodes_vDA rfl rfl rfl (by decide)
  case vsqrt => exact decodes_vDA rfl rfl rfl (by decide)
  case vtanh => exact decodes_vDA rfl rfl rfl (by decide)
  case vsigm => exact decodes_vDA rfl rfl rfl (by decide)
  case vorient2 => exact decodes_geo rfl rfl rfl (by decide)
  case vorient3 => exact decodes_geo rfl rfl rfl (by decide)
  case vincirc => exact decodes_geo rfl rfl rfl (by decide)
  case vinsph => exact decodes_geo rfl rfl rfl (by decide)
  case vsegx => exact decodes_geo rfl rfl rfl (by decide)
  case vaccrd c d b => exact decodes_vaccrd c d b
  case vaccwr c a b => exact decodes_vaccwr c a b
  case vtoix => exact decodes_vA rfl rfl rfl (by decide)
  case vtol => exact decodes_vA rfl rfl rfl (by decide)
  case vtos => exact decodes_vA rfl rfl rfl (by decide)
  case emsave h d fromCm => exact decodes_emsave h d fromCm
  case emrest h a => exact decodes_emrest h a
  case emcomb h op a => exact decodes_emcomb h op a
  case vspill tk a => exact decodes_vspill tk a
  case vfill tk d a => exact decodes_vfill tk d a
  case mclaim => exact decodes_claim rfl rfl rfl (by decide)
  case mrel => exact decodes_claim rfl rfl rfl (by decide)
  case mzero tk acc q => exact decodes_mzero tk acc q
  case mma w => exact decodes_mma w
  case mmaq w fn => exact decodes_mmaq w fn
  case mmas w pat voff => exact decodes_mmas w pat voff
  case mmag w => exact decodes_mmag w
  case mnset tk rec => exact decodes_mnset tk rec
  case mnest tk => exact decodes_mnest tk
  case mdrain tk acc f => exact decodes_mdrain tk acc f
  case mpload tk w n1 => exact decodes_mpload tk w n1
  case mpbind tk pat ta => exact decodes_mpbind tk pat ta
  case mtog tk => exact decodes_mtog tk
  case boundOpcode n e h d a b imm => exact decodes_boundOpcode n e h d a b imm
  all_goals exact decodes_event rfl

/-! ## The converse -/

theorem fieldsOk_eq_some {w : Word} {i : Instr} (h : fieldsOk w = some i) :
    wellFormed i = true ∧ encode i = some w := by
  unfold fieldsOk at h
  split at h
  · split at h
    · next hok =>
      obtain rfl := Option.some.inj h
      simpa using hok
    · cases h
  · cases h

/-- A word decodes only to a well-formed instruction that encodes to it. -/
theorem encode_of_decode {w : Word} {i : Instr} (h : decode w = .ok i) : wellFormed i = true ∧ encode i = some w := by
  unfold decode at h
  split at h
  · cases h
  · split at h
    · cases h
    · split at h
      · cases h
      · split at h
        · next hf =>
          obtain rfl := Except.ok.inj h
          exact fieldsOk_eq_some hf
        · split at h <;> cases h

/-- Settles O13: each instruction's word is read back field by field, and `decode` itself tests the converse. -/
theorem decodeEncodeAgree : Obligations.DecodeEncodeAgree :=
  ⟨fun i w hwf henc => decodes_all i w hwf henc, fun _ _ h => encode_of_decode h⟩

end Sys2Proof.Proofs

namespace Sys2Proof.Proofs
open Host (Outcome)
open Sys2Proof Machine Claims

/-! # The turn of an engine (R25 to R27, R43, R54, R350) -/

/-- The instruction that a word decodes to is the one parsed from it. -/
theorem parse_of_decode {w : Word} {i : Instr} (h : decode w = .ok i) : parse w = some i := by
  unfold decode at h
  split at h
  · cases h
  · split at h
    · cases h
    · split at h
      · cases h
      · split at h
        · next hf =>
          obtain rfl := Except.ok.inj h
          unfold fieldsOk at hf
          split at hf
          · next hp =>
            split at hf
            · rw [hp]; exact hf
            · cases hf
          · cases hf
        · split at h <;> cases h

theorem wordTag_eq_field (w : Word) : wordTag w = (field w 53 3).toNat := by
  simp [wordTag, wbits, Machine.bits, field]

theorem tagOf_eq_none {c : Nat} (h : 6 ≤ c) : tagOf c = none := by
  have hc : engCodes[c]? = none := by simp [engCodes]; omega
  rw [tagOf, if_neg (by omega), ofCode, hc]; rfl

/-- A TAG of 110 or 111 is refused as an illegal word (R43). -/
theorem decode_of_bad_tag {w : Word} (h : 6 ≤ wordTag w) : decode w = .error .illegal := by
  rw [wordTag_eq_field] at h
  simp [decode, tagOf_eq_none h]

theorem engCode_lt (e : Eng) : Eng.code e < 5 := by cases e <;> decide

/-! ## The word at the program counter -/

/-- Before a word of its window, the turn of an engine is what it makes of the word. -/
theorem turn_eq_walkWord {s : State} {w : Walker} {st : Strand} (hst : getStrand s (Walker.ref w) = some st)
    (h : BeforeWord s w st) : turn s w = walkWord s (getCtx s w.cell st.part) st w.eng := by
  obtain ⟨hissue, hmicro, hpass, hlull, hclamped, hloop, -, -⟩ := h
  simp [turn, hst, hissue, hmicro, hpass, hlull, hclamped, hloop]

/-- A word that is the engine's to decode, when nothing of the bind table keeps it from it. -/
theorem walkWord_of_mine {s : State} {w : Walker} {st : Strand} (h : BeforeWord s w st) {x : Word}
    (hx : fetchWord (getCtx s w.cell st.part) (getEng st w.eng).pc = x)
    (hmine : wordTag x = Eng.code w.eng ∨ 5 ≤ wordTag x)
    (hbound : 0xC0 ≤ wordOp x → w.eng = .c ∨ (getEng st w.eng).passed ≤ (getEng st .c).passed) :
    walkWord s (getCtx s w.cell st.part) st w.eng =
      match decodeWord (getCtx s w.cell st.part) (bindEntry (getCtx s w.cell st.part) st w.eng (wordOp x))
        (getEng st w.eng).pc x with
      | .ok i => .run i
      | .error t => .fault t := by
  obtain ⟨-, -, -, -, -, -, hwin, hploop⟩ := h
  have hm : (wordTag x == Eng.code w.eng || decide (5 ≤ wordTag x)) = true := by simpa using hmine
  have hb : (decide (0xC0 ≤ wordOp x) && w.eng != .c &&
      decide ((getEng st .c).passed < (getEng st w.eng).passed)) = false := by
    simp only [Bool.and_eq_false_iff, decide_eq_false_iff_not, bne_eq_false_iff_eq]
    by_cases h0 : 0xC0 ≤ wordOp x
    · rcases hbound h0 with h1 | h1
      · exact .inl (.inr h1)
      · exact .inr (by omega)
    · exact .inl (.inl h0)
  rw [walkWord, if_neg (by omega)]
  simp only [hx, stageLive, hploop, hm, hb, Bool.not_true, Bool.false_eq_true, if_false, Option.isSome_none,
    Bool.false_and] <;> rfl

/-- A word of another engine is passed (R26). -/
theorem walkWord_of_other {s : State} {w : Walker} {st : Strand} (h : BeforeWord s w st) {x : Word}
    (hx : fetchWord (getCtx s w.cell st.part) (getEng st w.eng).pc = x)
    (h5 : wordTag x < 5) (hne : wordTag x ≠ Eng.code w.eng) (hmode : sendsMode x = false ∨ w.eng = .c) :
    walkWord s (getCtx s w.cell st.part) st w.eng =
      .set (stepPast s (modEng st w.eng fun en => noteSeen en x) w.eng) := by
  obtain ⟨-, -, -, -, -, -, hwin, hploop⟩ := h
  have hm : (wordTag x == Eng.code w.eng || decide (5 ≤ wordTag x)) = false := by
    simp only [Bool.or_eq_false_iff, beq_eq_false_iff_ne, decide_eq_false_iff_not]; exact ⟨hne, by omega⟩
  have hs : (sendsMode x && w.eng != .c) = false := by rcases hmode with h1 | h1 <;> simp [h1]
  rw [walkWord, if_neg (by omega)]
  simp [hx, stageLive, hploop, hm, skipWord, hs]

theorem noteSeen_same (en : EngState) (x : Word) :
    (noteSeen en x).pc = en.pc ∧ (noteSeen en x).passed = en.passed := by
  unfold noteSeen
  split
  · split
    · exact ⟨rfl, rfl⟩
    · split
      · exact ⟨rfl, rfl⟩
      · split <;> exact ⟨rfl, rfl⟩
    · exact ⟨rfl, rfl⟩
  · exact ⟨rfl, rfl⟩

/-! ## Decoding in the window -/

theorem tag_assigned {x : Word} (h : wordTag x < 6) : (decide (wordTag x = 6) || decide (wordTag x = 7)) = false := by
  simp; omega

/-- A base word that decodes, its target in the window. -/
theorem decodeWord_base {c : Context} {e x : Word} {pc : Nat} {i : Instr} (htag : wordTag x < 6) (hop : wordOp x < 0xC0)
    (hd : decode x = .ok i) (ht : targetOk c pc i = true) : decodeWord c e pc x = .ok i := by
  simp [decodeWord, tag_assigned htag, Nat.not_le.mpr hop, parse_of_decode hd, ht, hd]

/-- A bound word whose entry is valid, of its engine and within its latency bound (R349, R350). -/
theorem decodeWord_bound {c : Context} {e x : Word} {pc : Nat} {i : Instr} (htag : wordTag x < 6)
    (hop : 0xC0 ≤ wordOp x)
    (hv : entVal e = true) (he : wordTag x = wbits e 62 60) (hd : decode x = .ok i)
    (hl : wbits e 59 56 = 0 ∧ wbits x 52 49 = 0 ∨ wbits e 59 56 ≠ 0 ∧ wbits e 59 56 ≤ wbits x 52 49) :
    decodeWord c e pc x = .ok i := by
  have hv' : e.getLsbD 63 = true := hv
  have he' : ¬ wordTag x ≠ wbits e 62 60 := not_not.mpr he
  have hl' : (decide (wbits e 59 56 = 0) && decide (wbits x 52 49 = 0) ||
      decide (wbits e 59 56 ≠ 0) && decide (wbits e 59 56 ≤ wbits x 52 49)) = true := by simpa using hl
  simp only [decodeWord, tag_assigned htag, hop, hv', he', hd, hl', Bool.false_eq_true, if_false, if_true,
    Bool.not_true]

/-- A base word that decoding or the window refuses (R38, R43). -/
theorem decodeWord_refused {c : Context} {e x : Word} {pc : Nat} {err : DecodeErr} (hop : wordOp x < 0xC0)
    (hd : decode x = .error err ∨ err = .illegal ∧ ∃ i, parse x = some i ∧ targetOk c pc i = false)
    (ht : err = .latBound → ∀ i, parse x = some i → targetOk c pc i = true) :
    decodeWord c e pc x = .error { cause := if err = .latBound then .latBound else .illegal } := by
  by_cases htag : wordTag x < 6
  · simp only [decodeWord, tag_assigned htag, Nat.not_le.mpr hop, Bool.false_eq_true, if_false]
    rcases hd with hd | ⟨rfl, i, hi, hf⟩
    · cases err with
      | illegal => cases parse x <;> simp [hd, illegalTrap]
      | latBound =>
        cases hp : parse x with
        | none => simp [hd]
        | some i => simp [hd, ht rfl i hp]
    · simp [hi, hf, illegalTrap]
  · have herr : err = .illegal := by
      rcases hd with hd | hd
      · rw [decode_of_bad_tag (by omega)] at hd; exact (Except.error.inj hd).symm
      · exact hd.1
    have h8 : wordTag x < 8 := by rw [wordTag_eq_field]; omega
    have h67 : (decide (wordTag x = 6) || decide (wordTag x = 7)) = true := by simp; omega
    simp only [decodeWord, h67, if_true, herr]; rfl

/-! ## The step -/

theorem strike_unarmed {s : State} (h : s.upsets = []) (w : Walker) (raise : State → Trap → State)
    (o : Outcome State Fault Refusal) : strike s w raise o = o := by
  simp [strike, armed, h]

theorem strikeEvent_unarmed {s : State} (h : s.upsets = []) (w : Walker) (i : Instr) (o : Outcome State Fault Refusal) :
    strikeEvent s w i o = o := by
  simp [strikeEvent, h]

/-- The step of an engine's turn, in the state that the schedule leaves with the engine as the current walker. -/
theorem step_of_turnOf {s s' : State} {w : Walker} {st : Strand} (h : TurnOf s s' w st) :
    step s = match turn s' w with
      | .idle => .next s'
      | .set st => .next (putStrand s' (Walker.ref w) st)
      | .fault t => .next (raiseTurn s' w t)
      | .loopEnd => exec .loopEndReached s'
      | .micro => strike s' w (fun s t => raiseWord s w t) (exec .microStep s')
      | .run i => strike s' w (fun s t => raiseWord s w t) (exec i s') := by
  obtain ⟨s1, hs1, rfl, -⟩ := h
  rw [step, hs1]
  rfl

theorem step_runs {s s' : State} {w : Walker} {st : Strand} (h : TurnOf s s' w st) (hb : BeforeWord s' w st)
    (hu : s'.upsets = []) {i : Instr} (hw : walkWord s' (getCtx s' w.cell st.part) st w.eng = .run i) :
    step s = exec i s' := by
  have hst : getStrand s' (Walker.ref w) = some st := by obtain ⟨-, -, -, hst⟩ := h; exact hst
  rw [step_of_turnOf h, turn_eq_walkWord hst hb, hw]
  exact strike_unarmed hu _ _ _

/-- The fault of a word within the window, L not on a leaning arm. -/
theorem raiseTurn_raised {s : State} {w : Walker} {st : Strand} (hst : getStrand s (Walker.ref w) = some st)
    (hb : BeforeWord s w st) (hl : w.eng ≠ .l ∨ st.lean = none) {t : Trap} (ht : t.unit = none) :
    Raised (raiseTurn s w t) (Walker.ref w) st fun q =>
      q.eng = Eng.code w.eng ∧ q.word = (getEng st w.eng).pc ∧ q.trap.cause = t.cause := by
  obtain ⟨-, hmicro, -, -, -, -, hwin, -⟩ := hb
  obtain ⟨u, hu, hf, hq⟩ :=
    raiseAt_strand hst ⟨t, Eng.code w.eng, (getEng st w.eng).pc, st.overlay.toNat, none, none, s.clock⟩ ht
  refine ⟨u, _, ?_, hf, hq, rfl, rfl, rfl⟩
  rw [← hu]
  simp only [raiseTurn, hst, if_neg (Nat.not_le.mpr hwin), raiseWord, hmicro, ite_self, Option.map_none]
  split
  · next he hln => rcases hl with hl | hl
                   · exact absurd he hl
                   · rw [hl] at hln; cases hln
  · rfl

/-- The word that an engine passes changes nothing but its own place. -/
theorem step_passes {s s' : State} {w : Walker} {st : Strand} (h : TurnOf s s' w st) (hb : BeforeWord s' w st)
    {x : Word}
    (hx : fetchWord (getCtx s' w.cell st.part) (getEng st w.eng).pc = x)
    (h5 : wordTag x < 5) (hne : wordTag x ≠ Eng.code w.eng) (hmode : sendsMode x = false ∨ w.eng = .c) :
    ∃ t u, step s = .next t ∧ getStrand t (Walker.ref w) = some u ∧ (getEng u w.eng).pc = (getEng st w.eng).pc + 1 ∧
      (getEng u w.eng).passed = (getEng st w.eng).passed + 1 ∧ t.mem = s'.mem ∧ (∀ r, regBits u r = regBits st r) ∧
      ∀ e, e ≠ w.eng → getEng u e = getEng st e := by
  have hst : getStrand s' (Walker.ref w) = some st := by obtain ⟨-, -, -, hst⟩ := h; exact hst
  obtain ⟨hpc, hpassed⟩ := noteSeen_same (getEng st w.eng) x
  refine ⟨_, _, by rw [step_of_turnOf h, turn_eq_walkWord hst hb, walkWord_of_other hb hx h5 hne hmode],
    getStrand_putStrand _ _ _, ?_, ?_, rfl, fun r => ?_, fun e he => ?_⟩
  · rw [getEng_stepPast_pc, getEng_modEng, hpc]
  · rw [getEng_stepPast_passed, getEng_modEng, hpassed]
  · rw [stepPast, regBits_modEng, regBits_modEng]
  · rw [getEng_stepPast_other _ _ _ _ he, getEng_modEng_other _ _ _ _ he]

theorem step_faults {s s' : State} {w : Walker} {st : Strand} (h : TurnOf s s' w st) (hb : BeforeWord s' w st)
    (hl : w.eng ≠ .l ∨ st.lean = none) {t : Trap} (ht : t.unit = none)
    (hw : walkWord s' (getCtx s' w.cell st.part) st w.eng = .fault t) :
    ∃ u, step s = .next u ∧ Raised u (Walker.ref w) st fun q =>
      q.eng = Eng.code w.eng ∧ q.word = (getEng st w.eng).pc ∧ q.trap.cause = t.cause := by
  have hst : getStrand s' (Walker.ref w) = some st := by obtain ⟨-, -, -, hst⟩ := h; exact hst
  exact ⟨_, by rw [step_of_turnOf h, turn_eq_walkWord hst hb, hw], raiseTurn_raised hst hb hl ht⟩

theorem tag_lt_six_of_mine {x : Word} {e : Eng} (h : wordTag x = Eng.code e ∨ wordTag x = 5) : wordTag x < 6 := by
  have := engCode_lt e; omega

/-- Settles O11: the turn of an engine before a word comes to what it makes of the word, and each other actor of the
schedule has one effect. -/
theorem stepRunsDecodedWord : Obligations.StepRunsDecodedWord := by
  refine ⟨fun s s' w st h hb hu => ⟨fun i hmine hop hd ht => ?_, fun i hmine hop hc hv he hd hl => ?_,
      fun h5 hne hmode => step_passes h hb rfl h5 hne hmode, fun err hlean hmine hop hd ht => ?_⟩,
    fun s w s1 hn hst => ?_, fun s s' w st h hm => ?_, fun s w i s1 hn hu => ?_, fun s r id s1 hn => ?_,
    fun s u s1 hn => ?_, fun s u s1 hn => ?_, fun s n s1 hn => ?_, fun s a rest hs => ?_⟩
  · refine step_runs h hb hu ?_
    rw [walkWord_of_mine hb rfl (by omega) (by omega),
      decodeWord_base (tag_lt_six_of_mine hmine) hop hd ht]
  · refine step_runs h hb hu ?_
    rw [walkWord_of_mine hb rfl (by omega) fun _ => hc,
      decodeWord_bound (tag_lt_six_of_mine hmine) hop hv he hd hl]
  · have hw := walkWord_of_mine hb rfl (by omega) (by omega)
    rw [decodeWord_refused hop hd ht] at hw
    exact step_faults h hb hlean rfl hw
  · have ht : turn { s1 with cur := w } w = .idle := by
      rw [turn, show getStrand { s1 with cur := w } (Walker.ref w) = none from hst]
    rw [step, hn]; simp only [stepEngine, ht]
  · have hst : getStrand s' (Walker.ref w) = some st := by obtain ⟨-, -, -, hst⟩ := h; exact hst
    rw [step_of_turnOf h]; simp [turn, hst, hm]
  · rw [step, hn]; exact strikeEvent_unarmed (s := { s1 with cur := w }) hu _ _ _
  · rw [step, hn]
  · rw [step, hn]
  · rw [step, hn]
  · rw [step, hn]
  · rw [nextActor, hs]

/-! # Worked words and the state after reset -/

/-- Settles O12: the six words, run through the decoder. -/
theorem wordsDecode : Obligations.WordsDecode := by
  unfold Obligations.WordsDecode
  decide

/-- Settles O17: each part of the state after reset as `State.reset` gives it. -/
theorem resetState : Obligations.ResetState := by
  have hdie : ∀ d, getDie State.reset d = {} := fun d => by
    show (Vector.replicate 4 ({} : Die)).get (Fin.ofNat 4 d) = _
    simp [Vector.get]
  refine ⟨⟨rfl, nofun, fun d x hx => ?_⟩, rfl, rfl, fun _ => rfl, fun _ => rfl, fun _ => rfl, rfl, rfl, rfl, rfl, rfl,
    rfl,
    rfl, rfl, rfl, rfl, rfl, rfl, rfl, rfl, rfl, fun _ _ => ⟨rfl, rfl, rfl⟩, fun _ => rfl, fun _ => ⟨rfl, rfl, rfl⟩⟩
  rw [hdie] at hx
  cases hx

end Sys2Proof.Proofs


namespace Sys2Proof.Proofs

open Host (Outcome)
open Sys2Proof Machine Claims

/-! ## Words of C that change more than their strand -/

/-- The state that the body of a word receives, its strand with its due results landed. -/
def issued (s : State) (st : Strand) : State :=
  putStrand { s with freeCount := s.freeCount + 1 } (Walker.ref s.cur) (atIssue s st)

/-- A word of C that leaves its strand as `st'`, counted, in a state whose other parts are those of `s1`. -/
theorem goes_of_counted {i : Instr} {s : State} {st : Strand} (h : AtEngine s .c st)
    {body : Walker → Strand → State → Act State} (hx : exec i s = issueWith s Tk.none body) (s1 s2 : State)
    {st' : Strand}
    (hb : body s.cur (atIssue s st) (issued s st) =
      .ok (countC (putStrand s1 (Walker.ref s.cur) (stepPast s2 st' .c)) (Walker.ref s.cur)))
    (hE : getEng st' .c = getEng st .c) :
    ∃ t, Goes i s st .c t (perfAdd (stepPast s2 st' .c) 1 1) ∧ t.mem = s1.mem ∧ t.cells = s1.cells ∧ t.ctxs = s1.ctxs ∧
      t.clock = s1.clock ∧ ∀ k, k ≠ SRef.key (Walker.ref s.cur) → fget t.strands k = fget s1.strands k := by
  obtain ⟨h1, h2, h3, h4, -, h5, h6⟩ :=
    countC_same (putStrand s1 (Walker.ref s.cur) (stepPast s2 st' .c)) (Walker.ref s.cur)
  refine ⟨_, ⟨hx.trans (issueWith_ok h body hb), by simp [h5], by simp [hE], by simp [hE]⟩, h1, h2, h3, h4,
    fun k hk => ?_⟩
  have other := h6 ⟨0, k⟩ (by simpa [SRef.key] using hk)
  simp only [getStrand, SRef.key, Nat.mul_zero, Nat.zero_add] at other
  rw [other]
  exact fget_fset_other _ _ _ _ hk

/-- The other strands at issue are those before it. -/
theorem issued_strands_other (s : State) (st : Strand) {k : Nat} (hk : k ≠ SRef.key (Walker.ref s.cur)) :
    fget (issued s st).strands k = fget s.strands k := fget_fset_other _ _ _ _ hk

@[simp] theorem latest_accs (st : Strand) (l : List Access) (r : Reg) : latest { st with accs := l } r = latest st r :=
  latest_congr rfl (fun _ => regBits_accs _ _ _) r

/-- R272: the fence is the last access of its strand. -/
theorem fenceWord : FenceWord := by
  intro s st sc k mask h
  obtain ⟨t, hg, hm, hc, hx, hk, ho⟩ := goes_of_counted (i := .fence sc k mask) h
    (body := fun w st s' =>
      let (id, s') := freshId s'
      let en := getEng st .c
      let a : Access :=
        { id := id, eng := .c, pos := en.passed, index := en.pc, lane := 0, kind := .fence k sc mask, cls := 0, va := 0,
          pa := 0, size := 0, data := 0, home := .hbm, mtype := .normal, msa := false, repl := false, cp := .normal,
          acq := false, rel := false, rset := 0, dest := .none, sext := false, op := none, seen := en.seen }
      .ok (countC (putStrand s' (Walker.ref w) (stepPast s' { st with accs := st.accs ++ [a] } .c)) (Walker.ref w)))
    rfl (freshId (issued s st)).2 (freshId (issued s st)).2 rfl rfl
  refine ⟨t, _, _, hg, rfl, rfl, rfl, ⟨hm, hc, hx, hk, fun n hn => ?_⟩, fun r => ?_⟩
  · exact (ho n hn).trans (issued_strands_other s st hn)
  · rw [latest_perfAdd, latest_stepPast, latest_accs, latest_atIssue]

/-! ## Scalar accesses -/

/-- The translation of an effective address of the current strand at issue. -/
theorem translate_issued {s : State} {st : Strand} {u : Use} {ea : Word} {x : Xlat} (hm : Maps s st u ea x) :
    ∃ s', translate (issued s st) (dieOf s.cur.cell) (some s.cur.cell) st.part u ea = .ok (x, s') ∧ s'.mem = s.mem ∧
      s'.nextId = s.nextId ∧ s'.clock = s.clock := by
  obtain ⟨s1, h1⟩ := hm
  obtain ⟨hmem, -, -, -, hclock, -, -, hid⟩ := translate_same h1
  refine ⟨withStrands s1 (issued s st).strands (s.freeCount + 1), ?_, hmem, hid, hclock⟩
  have hw := translate_withStrands s (issued s st).strands (s.freeCount + 1) (dieOf s.cur.cell) (some s.cur.cell)
    st.part u ea
  rw [h1] at hw
  exact hw

/-- What a scalar word chooses of its access; the rest follows from the strand and the translation. -/
structure Chosen where
  acq : Bool
  rel : Bool
  data : BitVec 4096
  dest : AccDest
  sext : Bool
  op : Option AccOp

def Chosen.put (c : Chosen) (a : Access) : Access :=
  { a with acq := c.acq, rel := c.rel, data := c.data, dest := c.dest, sext := c.sext, op := c.op }

/-- What `accessC` does with an effective address that is aligned and maps. -/
theorem accessC_issues {i : Instr} {s : State} {st : Strand} {k : AccKind} {u : Use} {cls : BitVec 4} {cp : Cp}
    {size : Nat} {base : BitVec 5} {off : BitVec 18} {f : Strand → Access → Act (Strand × Access)} {x : Xlat}
    (h : AtEngine s .c st) (hx : exec i s = accessC s k u cls cp size base off f) (hb : Readable st (.g base))
    (ha : (gNow st base + off.signExtend 64).toNat % size = 0) (hm : Maps s st u (gNow st base + off.signExtend 64) x)
    {st' : Strand} (c : Chosen) {P : Strand → Access → Prop}
    (hf : f (atIssue s st) (newAccess (atIssue s st) .c s.nextId 0 k cls cp x (gNow st base + off.signExtend 64) size) =
      .ok (st', c.put (newAccess (atIssue s st) .c s.nextId 0 k cls cp x (gNow st base + off.signExtend 64) size)))
    (hE : ∀ e, getEng st' e = getEng st e) (hl : ∀ r, latest st' r = latest st r) (hacc : st'.accs = st.accs)
    (hP : ∀ w : Strand, w.pending = st'.pending →
      P w (c.put (newAccess (atIssue s st) .c s.nextId 0 k cls cp x (gNow st base + off.signExtend 64) size))) :
    IssuesAccess i s st k cls (gNow st base + off.signExtend 64) size x P := by
  generalize ha' : newAccess (atIssue s st) .c s.nextId 0 k cls cp x (gNow st base + off.signExtend 64) size = a
    at hf hP
  obtain ⟨s', ht, hmem, hid, hclock⟩ := translate_issued hm
  obtain ⟨t, hg, hmt, -, -, -, -⟩ := goes_of_counted h hx (freshId s').2 (freshId s').2
    (st' := { st' with accs := st'.accs ++ [c.put a] })
    (by
      simp only [readG_ok hb, alignedTo, ha, check, decide_true, if_true, bind, Except.bind]
      rw [show (atIssue s st).part = st.part from rfl, ht]
      simp only [freshId, hid, ha', hf])
    (hE .c)
  subst ha'
  refine ⟨t, _, c.put _, hg, congrArg (· ++ [_]) hacc, rfl, rfl, rfl, rfl, rfl, rfl, rfl, rfl, fun r => ?_,
    hmt.trans hmem, fun e he => ?_, hP _ rfl⟩
  · rw [latest_perfAdd, latest_stepPast, latest_accs, hl]
  · rw [getEng_perfAdd, getEng_stepPast_other _ _ _ _ he]
    exact hE e

/-- An effective address that is not aligned. -/
theorem accessC_traps {i : Instr} {s : State} {st : Strand} {k : AccKind} {u : Use} {cls : BitVec 4} {cp : Cp}
    {size : Nat} {base : BitVec 5} {off : BitVec 18} {f : Strand → Access → Act (Strand × Access)}
    (h : AtEngine s .c st) (hx : exec i s = accessC s k u cls cp size base off f) (hb : Readable st (.g base))
    (ha : (gNow st base + off.signExtend 64).toNat % size ≠ 0) :
    Traps i s st .c .align (gNow st base + off.signExtend 64).toNat := by
  refine traps_of_raiseWord h (alignTrap (gNow st base + off.signExtend 64).toNat) rfl
    (hx.trans (issueWith_trap h _ ?_))
  simp only [readG_ok hb, alignedTo, ha, check, decide_false, bind, Except.bind]
  rfl

@[simp] theorem getEng_awaitG (clock : Nat) (st : Strand) (d : BitVec 5) (e : Eng) :
    getEng (awaitG clock st d) e = getEng st e := by
  unfold awaitG; split <;> rfl

@[simp] theorem accs_awaitG (clock : Nat) (st : Strand) (d : BitVec 5) : (awaitG clock st d).accs = st.accs := by
  unfold awaitG; split <;> rfl

/-- A result that is to come changes no register. -/
@[simp] theorem latest_awaitG (clock : Nat) (st : Strand) (d : BitVec 5) (r : Reg) :
    latest (awaitG clock st d) r = latest st r := by
  unfold awaitG
  split
  · rfl
  · simp only [latest, List.foldl_append, List.foldl_cons, List.foldl_nil, landOne, ite_self, regBits_pending]

theorem awaitG_waits (clock : Nat) (st : Strand) {d : BitVec 5} (hd : d ≠ 0) :
    ∃ p ∈ (awaitG clock st d).pending, p.reg = .g d ∧ p.val = none ∧ p.lat = 15 := by
  rw [awaitG, if_neg hd]
  exact ⟨_, List.mem_append_right _ (.head _), rfl, rfl, rfl⟩

/-- The strand `x` but for its performance counters, with the memory `m`. -/
def StandsCounted (s : State) (r : SRef) (m : Mem) (x : Strand) : Prop :=
  s.mem = m ∧ ∃ p, getStrand s r = some { x with perf := p }

namespace StandsCounted

theorem of_same {s t : State} {r : SRef} {m : Mem} {x : Strand} (h : StandsCounted s r m x) (hm : t.mem = s.mem)
    (hs : t.strands = s.strands) : StandsCounted t r m x := by
  obtain ⟨h1, p, hp⟩ := h
  exact ⟨hm.trans h1, p, by rw [getStrand, hs]; exact hp⟩

theorem perfFor {s : State} {r : SRef} {m : Mem} {x : Strand} (h : StandsCounted s r m x) {p : Payer}
    (hp : p.ref = some r) (evt n : Nat) : StandsCounted (perfFor s p evt n) r m x := by
  obtain ⟨h1, u, hu⟩ := h
  rw [Machine.perfFor, hp]
  simp only [modStrand, hu]
  exact ⟨h1, (perfAdd { x with perf := u } evt n).perf, getStrand_putStrand _ _ _⟩

theorem chargeFor {s : State} {r : SRef} {m : Mem} {x : Strand} (h : StandsCounted s r m x) (p : Payer) (c : Nat) :
    StandsCounted (chargeFor s p c) r m x := h.of_same rfl rfl

theorem touchLines {s : State} {r : SRef} {m : Mem} {x : Strand} (h : StandsCounted s r m x) (hm : Home)
    (lines : List Nat) (alloc : Bool) : StandsCounted (touchLines s r hm lines alloc) r m x := by
  have hp := payerAt_ref s r
  rw [Machine.touchLines, touchFor]
  generalize payerAt s r = p at hp
  induction lines generalizing s with
  | nil => exact h
  | cons l ls ih =>
    rw [List.foldl_cons]
    refine ih ?_
    cases hm with
    | hbm =>
      refine chargeFor ?_ _ _
      have h1 : StandsCounted (if (l2Has s l || !alloc) = true then s else l2Add s l) r m x := by
        split
        · exact h
        · exact h.of_same rfl rfl
      split
      · exact h1.perfFor hp _ _
      · exact ((h1.perfFor hp _ _).perfFor hp _ _).perfFor hp _ _
    | second => exact (h.perfFor hp _ _).chargeFor _ _
    | host => exact h
    | remote _ => exact h

theorem prefetchLine {s : State} {r : SRef} {m : Mem} {x : Strand} (h : StandsCounted s r m x) (st : Strand)
    (y : Xlat) :
    StandsCounted (prefetchLine s r st y) r m x := by
  have dropped_or_read : ∀ (b : Bool) (l : L1Line) (k : Home) (lines : List Nat), StandsCounted
      (if b then s else Machine.touchLines (addLine s r.cell l) r k lines true) r m x := by
    intro b l k lines
    split
    · exact h
    · exact touchLines (of_same (t := addLine s r.cell l) h rfl rfl) _ _ _
  exact dropped_or_read _ _ _ _

theorem countC {s : State} {r : SRef} {m : Mem} {x : Strand} (h : StandsCounted s r m x) :
    StandsCounted (countC s r) r m x := by
  obtain ⟨h1, p, hp⟩ := h
  obtain ⟨hm, -, -, -, -, hs, -⟩ := countC_same s r
  exact ⟨hm.trans h1, (perfAdd { x with perf := p } 1 1).perf, by rw [hs, hp]; rfl⟩

end StandsCounted

theorem latest_perf (st : Strand) (p : Vector Word 16) (r : Reg) : latest { st with perf := p } r = latest st r :=
  latest_congr rfl (fun q => by cases q <;> rfl) r

/-- What `pfl` does with the address it forms, in the state that its completed word leaves. -/
def pflGo (xl : Bool) (s : State) (w : Walker) (st : Strand) (ea : Word) : State :=
  if !xl && ea.toNat % 8 ≠ 0 then s
  else match translate s (dieOf w.cell) (some w.cell) st.part .scalarRead ea with
    | .ok (x, s') => if xl then s' else prefetchLine s' (Walker.ref w) st x
    | .error _ => s

theorem exec_pfl (xl : Bool) (base : BitVec 5) (off : BitVec 18) (s : State) :
    exec (.pfl xl base off) s = issueWith s Tk.none (fun w st s' => do
      let b ← unlessTrap (readG st 0 base)
      let s' := putStrand s' (Walker.ref w) (stepPast s' st .c)
      .ok (countC (match b with | some b => pflGo xl s' w st (b + off.signExtend 64) | none => s')
        (Walker.ref w))) := rfl

/-- R346: a prefetch completes whatever its address does. -/
theorem pfl_goes {s : State} {st : Strand} (h : AtEngine s .c st) (xl : Bool) {base : BitVec 5} (off : BitVec 18)
    (hb : Readable st (.g base)) :
    ∃ t u, Goes (.pfl xl base off) s st .c t u ∧ u.accs = st.accs ∧ t.mem = s.mem ∧ ∀ r, latest u r = latest st r := by
  obtain ⟨s1, h1⟩ : ∃ s1, s1 = putStrand (issued s st) (Walker.ref s.cur)
      (stepPast (issued s st) (atIssue s st) .c) := ⟨_, rfl⟩
  have hs1 : StandsCounted s1 (Walker.ref s.cur) s.mem (stepPast (issued s st) (atIssue s st) .c) :=
    ⟨by rw [h1]; rfl, _, by rw [h1]; exact getStrand_putStrand _ _ _⟩
  have hgo : ∀ ea, StandsCounted (pflGo xl s1 s.cur (atIssue s st) ea) (Walker.ref s.cur) s.mem
      (stepPast (issued s st) (atIssue s st) .c) := by
    intro ea
    unfold pflGo
    split
    · exact hs1
    · split
      · next ht =>
        obtain ⟨hm, hs, -⟩ := translate_same ht
        have := hs1.of_same hm hs
        split
        · exact this
        · exact this.prefetchLine _ _
      · exact hs1
  have hx : exec (.pfl xl base off) s =
      .next (countC (pflGo xl s1 s.cur (atIssue s st) (gNow st base + off.signExtend 64)) (Walker.ref s.cur)) := by
    rw [exec_pfl]
    refine issueWith_ok h _ ?_
    rw [readG_ok hb, h1]
    rfl
  obtain ⟨hm, p, hp⟩ := (hgo (gNow st base + off.signExtend 64)).countC
  refine ⟨_, _, ⟨hx, hp, ?_, ?_⟩, rfl, hm, fun r => ?_⟩
  · exact getEng_stepPast_pc _ _ _
  · exact getEng_stepPast_passed _ _ _
  · rw [latest_perf, latest_stepPast, latest_atIssue]

theorem exec_ld (lat : BitVec 4) (sz : Sz) (sx : Bool) (oc : BitVec 4) (cp : Cp) (aq : Bool) (d base : BitVec 5)
    (off : BitVec 18) (s : State) : exec (.ld lat sz sx oc cp aq d base off) s =
      accessC s .load .scalarRead oc cp (Sz.bytes sz) base off (fun st a =>
        .ok (awaitG s.clock st d, { a with acq := aq, dest := destG d, sext := sx })) := rfl

theorem exec_st (sz : Sz) (oc : BitVec 4) (cp : Cp) (rl : Bool) (d base : BitVec 5) (off : BitVec 18) (s : State) :
    exec (.st sz oc cp rl d base off) s =
      accessC s .store .scalarWrite oc cp (Sz.bytes sz) base off (fun st a => do
        let v ← readG st 1 d
        .ok (st, { a with rel := rl, data := v.setWidth 4096 })) := rfl

theorem exec_cas (lat : BitVec 4) (dbl : Bool) (oc : BitVec 4) (aq rl : Bool) (d base : BitVec 5) (off : BitVec 18)
    (s : State) : exec (.amo lat .cas dbl oc aq rl d base off) s =
      accessC s .atomic .scalarAtomic oc .normal (if dbl then 8 else 4) base off (fun st a => do
        let v ← readG st 1 d
        let n ← readG st 2 (d + 1)
        .ok (awaitG s.clock st d,
          { a with acq := aq, rel := rl, data := n.setWidth 4096, dest := destG d, op := some (.amo .cas v) })) := rfl

theorem exec_amo (lat : BitVec 4) {op : AmoOp} (hop : op ≠ .cas) (dbl : Bool) (oc : BitVec 4) (aq rl : Bool)
    (d base : BitVec 5) (off : BitVec 18) (s : State) : exec (.amo lat op dbl oc aq rl d base off) s =
      accessC s .atomic .scalarAtomic oc .normal (if dbl then 8 else 4) base off (fun st a => do
        let v ← readG st 1 d
        .ok (awaitG s.clock st d,
          { a with acq := aq, rel := rl, data := v.setWidth 4096, dest := destG d, op := some (.amo op 0) })) := by
  cases op
  case cas => exact absurd rfl hop
  all_goals rfl

theorem exec_amo_access (lat : BitVec 4) (op : AmoOp) (dbl : Bool) (oc : BitVec 4) (aq rl : Bool) (d base : BitVec 5)
    (off : BitVec 18) (s : State) : ∃ f, exec (.amo lat op dbl oc aq rl d base off) s =
      accessC s .atomic .scalarAtomic oc .normal (if dbl then 8 else 4) base off f := by
  by_cases hop : op = .cas
  · exact ⟨_, hop ▸ exec_cas lat dbl oc aq rl d base off s⟩
  · exact ⟨_, exec_amo lat hop dbl oc aq rl d base off s⟩

/-- R345, R346: the accesses of `ld`, `st` and `amo`, by what each puts into its access. -/
theorem scalarAccessWords : ScalarAccessWords := by
  intro s st lat oc cp d base off x h hb
  have hE : ∀ e, getEng (awaitG s.clock (atIssue s st) d) e = getEng st e := fun e => getEng_awaitG _ _ _ e
  have hl : ∀ r, latest (awaitG s.clock (atIssue s st) d) r = latest st r :=
    fun r => (latest_awaitG _ _ _ r).trans (latest_atIssue s st r)
  have waits : ∀ u : Strand, u.pending = (awaitG s.clock (atIssue s st) d).pending → d ≠ 0 →
      ∃ p ∈ u.pending, p.reg = .g d ∧ p.val = none ∧ p.lat = 15 := fun u hp h0 => hp ▸ awaitG_waits s.clock _ h0
  refine ⟨fun sz sx aq ha hm => ?_, fun sz rl ha hm hd => ?_, fun op dbl aq rl ha hm hd hd1 => ?_,
    fun xl => pfl_goes h xl off hb⟩
  · exact accessC_issues h (exec_ld lat sz sx oc cp aq d base off s) hb ha hm ⟨aq, false, 0, destG d, sx, none⟩ rfl
      hE hl (accs_awaitG _ _ _) fun u hp => ⟨rfl, rfl, waits u hp⟩
  · exact accessC_issues h (exec_st sz oc cp rl d base off s) hb ha hm (st' := atIssue s st)
      ⟨false, rl, (gNow st d).setWidth 4096, .none, false, none⟩ (by rw [readG_ok hd]; rfl) (fun _ => rfl)
      (latest_atIssue s st) rfl fun u hp => ⟨rfl, rfl, hp⟩
  · by_cases hop : op = .cas
    · subst hop
      exact accessC_issues h (exec_cas lat dbl oc aq rl d base off s) hb ha hm
        ⟨aq, rl, (gNow st (d + 1)).setWidth 4096, destG d, false, some (.amo .cas (gNow st d))⟩
        (by rw [readG_ok hd, readG_ok hd1]; rfl) hE hl (accs_awaitG _ _ _)
        fun u hp => ⟨rfl, rfl, waits u hp, fun hne => absurd rfl hne, fun _ => ⟨rfl, rfl⟩⟩
    · exact accessC_issues h (exec_amo lat hop dbl oc aq rl d base off s) hb ha hm
        ⟨aq, rl, (gNow st d).setWidth 4096, destG d, false, some (.amo op 0)⟩
        (by rw [readG_ok hd]; rfl) hE hl (accs_awaitG _ _ _)
        fun u hp => ⟨rfl, rfl, waits u hp, fun _ => rfl, fun he => absurd he hop⟩

/-- R57: the alignment check of each. -/
theorem scalarAlignment : ScalarAlignment := by
  intro s st lat oc cp d base off h hb
  refine ⟨fun sz sx aq ha => accessC_traps h (exec_ld lat sz sx oc cp aq d base off s) hb ha,
    fun sz rl ha => accessC_traps h (exec_st sz oc cp rl d base off s) hb ha, fun op dbl aq rl ha => ?_⟩
  obtain ⟨f, hf⟩ := exec_amo_access lat op dbl oc aq rl d base off s
  exact accessC_traps h hf hb ha

/-- Settles O23: the fence, the accesses that C issues, and the refusal of an address that is not aligned. -/
theorem fencesAndScalarAccesses : Obligations.FencesAndScalarAccesses :=
  ⟨fenceWord, scalarAccessWords, scalarAlignment⟩

end Sys2Proof.Proofs


namespace Sys2Proof.Proofs

open Host (Outcome)
open Sys2Proof Machine Claims

/-! ## Token FIFOs (R35, R36) -/

theorem getTok_putTok (t : Tokens) {n k : Nat} (l : List TokPlace) (hn : n < 6) (hk : k < 6) :
    getTok (putTok t n l) k = if n = k then l else getTok t k := by
  interval_cases n <;> interval_cases k <;> rfl

/-- One token bit has acted: the FIFO it names, if it is set, is as `f` leaves it, and no other has changed. -/
def TokBit (b : Bool) (n : Option Nat) (f : List TokPlace → List TokPlace) (t t' : Tokens) : Prop :=
  ∀ k < 6, getTok t' k = if b = true ∧ n = some k then f (getTok t k) else getTok t k

theorem TokBit.same {b : Bool} {n : Option Nat} {f : List TokPlace → List TokPlace} {t t' : Tokens}
    (h : TokBit b n f t t') {k : Nat} (hk : k < 6) (hb : b = true) (hn : n = some k) :
    getTok t' k = f (getTok t k) := by
  rw [h k hk, if_pos ⟨hb, hn⟩]

theorem TokBit.other {b : Bool} {n : Option Nat} {f : List TokPlace → List TokPlace} {t t' : Tokens}
    (h : TokBit b n f t t') {k : Nat} (hk : k < 6) (hn : n ≠ some k) : getTok t' k = getTok t k := by
  rw [h k hk, if_neg fun x => hn x.2]

/-- A strand with other tokens. -/
def withTok (st : Strand) (t : Tokens) : Strand := { st with tok := t }

theorem popTok_bit {st : Strand} {b : Bool} {n : Option Nat} (hn : ∀ k, n = some k → k < 6)
    (h : b = true → HasToken st n) :
    ∃ t, (if b then popTok st n else .ok st) = .ok (withTok st t) ∧ TokBit b n List.tail st.tok t := by
  cases b with
  | false => exact ⟨st.tok, rfl, fun k _ => by simp⟩
  | true =>
    obtain ⟨j, p, rest, rfl, hj, hp⟩ := h rfl
    refine ⟨putTok st.tok j rest, by simp only [if_true, popTok, hj, hp]; rfl, fun k hk => ?_⟩
    rw [getTok_putTok _ _ (hn j rfl) hk]
    by_cases hjk : j = k
    · subst hjk; simp [hj]
    · simp [hjk]

theorem reserveTok_bit {st : Strand} {b : Bool} {n : Option Nat} (hn : ∀ k, n = some k → k < 6)
    (h : b = true → TokenRoom st n) (p : TokPlace) :
    ∃ t, (if b then reserveTok st n p else .ok st) = .ok (withTok st t) ∧ TokBit b n (· ++ [p]) st.tok t := by
  cases b with
  | false => exact ⟨st.tok, rfl, fun k _ => by simp⟩
  | true =>
    obtain ⟨j, rfl, hj⟩ := h rfl
    refine ⟨putTok st.tok j (getTok st.tok j ++ [p]), by simp only [if_true, reserveTok, hj]; rfl, fun k hk => ?_⟩
    rw [getTok_putTok _ _ (hn j rfl) hk]
    by_cases hjk : j = k
    · subst hjk; simp
    · simp [hjk]

/-- The FIFOs of an engine are four different ones of the six. -/
theorem tok_lt (e : Eng) : (∀ k, tokInPrev e = some k → k < 6) ∧ (∀ k, tokInNext e = some k → k < 6) ∧
    (∀ k, tokOutPrev e = some k → k < 6) ∧ ∀ k, tokOutNext e = some k → k < 6 := by
  cases e <;> simp [tokInPrev, tokInNext, tokOutPrev, tokOutNext]

theorem tok_distinct (e : Eng) (k : Nat) :
    (tokInPrev e = some k → tokInNext e ≠ some k ∧ tokOutPrev e ≠ some k ∧ tokOutNext e ≠ some k) ∧
    (tokInNext e = some k → tokOutPrev e ≠ some k ∧ tokOutNext e ≠ some k) ∧
    (tokOutPrev e = some k → tokOutNext e ≠ some k) := by
  cases e <;> simp [tokInPrev, tokInNext, tokOutPrev, tokOutNext] <;> omega

theorem hasToken_withTok {st : Strand} {n : Option Nat} (h : HasToken st n) {t : Tokens}
    (ht : ∀ k, n = some k → getTok t k = getTok st.tok k) : HasToken (withTok st t) n := by
  obtain ⟨k, p, rest, hn, hk, hp⟩ := h
  exact ⟨k, p, rest, hn, (ht k hn).trans hk, hp⟩

theorem tokenRoom_withTok {st : Strand} {n : Option Nat} (h : TokenRoom st n) {t : Tokens}
    (ht : ∀ k, n = some k → getTok t k = getTok st.tok k) : TokenRoom (withTok st t) n := by
  obtain ⟨k, hn, hk⟩ := h
  exact ⟨k, hn, (congrArg List.length (ht k hn)).trans_lt hk⟩

/-- The four token bits act one after the other. -/
theorem takeTokens_eq (st : Strand) (e : Eng) (pos : Nat) (tk : Tk) : takeTokens st e pos tk =
    (if tk.pbp then popTok st (tokInPrev e) else .ok st).bind fun st =>
    (if tk.pbn then popTok st (tokInNext e) else .ok st).bind fun st =>
    (if tk.pap then reserveTok st (tokOutPrev e) { eng := e, pos := pos } else .ok st).bind fun st =>
    if tk.pan then reserveTok st (tokOutNext e) { eng := e, pos := pos } else .ok st := by
  unfold takeTokens
  cases tk.pbp <;> cases tk.pbn <;> cases tk.pap <;> rfl

/-- What the token bits of a word leave of the FIFOs when they can all act (R36). -/
theorem takeTokens_ready {st : Strand} {e : Eng} {tk : Tk} (h : TokensReady st e tk) (pos : Nat) :
    ∃ t, takeTokens st e pos tk = .ok (withTok st t) ∧
      (∀ k, tk.pbp = true → tokInPrev e = some k → getTok t k = (getTok st.tok k).tail) ∧
      (∀ k, tk.pbn = true → tokInNext e = some k → getTok t k = (getTok st.tok k).tail) ∧
      (∀ k, tk.pap = true → tokOutPrev e = some k → getTok t k = getTok st.tok k ++ [{ eng := e, pos := pos }]) ∧
      (∀ k, tk.pan = true → tokOutNext e = some k → getTok t k = getTok st.tok k ++ [{ eng := e, pos := pos }]) := by
  obtain ⟨hip, hin, hop, hon, -⟩ := h
  obtain ⟨lip, lin, lop, lon⟩ := tok_lt e
  have apart := tok_distinct e
  obtain ⟨t1, h1, b1⟩ := popTok_bit lip hip
  have in_next : ∀ k, tokInNext e = some k → getTok t1 k = getTok st.tok k := fun k hk =>
    b1.other (lin k hk) fun hp => ((apart k).1 hp).1 hk
  obtain ⟨t2, h2, b2⟩ := popTok_bit (st := withTok st t1) lin fun hb => hasToken_withTok (hin hb) in_next
  have out_prev : ∀ k, tokOutPrev e = some k → getTok t2 k = getTok st.tok k := fun k hk =>
    (b2.other (lop k hk) fun hp => ((apart k).2.1 hp).1 hk).trans
      (b1.other (lop k hk) fun hp => ((apart k).1 hp).2.1 hk)
  obtain ⟨t3, h3, b3⟩ := reserveTok_bit (st := withTok st t2) lop (fun hb => tokenRoom_withTok (hop hb) out_prev)
    { eng := e, pos := pos }
  have out_next : ∀ k, tokOutNext e = some k → getTok t3 k = getTok st.tok k := fun k hk =>
    (b3.other (lon k hk) fun hp => (apart k).2.2 hp hk).trans
      ((b2.other (lon k hk) fun hp => ((apart k).2.1 hp).2 hk).trans
        (b1.other (lon k hk) fun hp => ((apart k).1 hp).2.2 hk))
  obtain ⟨t4, h4, b4⟩ := reserveTok_bit (st := withTok st t3) lon (fun hb => tokenRoom_withTok (hon hb) out_next)
    { eng := e, pos := pos }
  refine ⟨t4, ?_, fun k hb hk => ?_, fun k hb hk => ?_, fun k hb hk => ?_, fun k hb hk => ?_⟩
  · rw [takeTokens_eq, h1, Except.bind, h2, Except.bind]
    exact (congrArg (fun x => Except.bind x _) h3).trans h4
  · obtain ⟨n1, n2, n3⟩ := (apart k).1 hk
    rw [b4.other (lip k hk) n3, ← b1.same (lip k hk) hb hk]
    exact (b3.other (lip k hk) n2).trans (b2.other (lip k hk) n1)
  · obtain ⟨n1, n2⟩ := (apart k).2.1 hk
    rw [b4.other (lin k hk) n2, ← in_next k hk]
    exact (b3.other (lin k hk) n1).trans (b2.same (lin k hk) hb hk)
  · rw [b4.other (lop k hk) ((apart k).2.2 hk), ← out_prev k hk]
    exact b3.same (lop k hk) hb hk
  · rw [← out_next k hk]
    exact b4.same (lon k hk) hb hk

/-! ## Words local to their strand -/

/-- A word with token bits whose effect stays within its strand completes with the strand that its body gives. -/
theorem goes_of_issueLocal {i : Instr} {s : State} {e : Eng} {st st1 st' : Strand} (h : AtEngine s e st) {tk : Tk}
    {body : Walker → Strand → Act Strand} (hx : exec i s = issueLocal s tk body)
    (ht : takeTokens (atIssue s st) e (getEng st e).passed tk = .ok st1) (hb : body s.cur st1 = .ok st')
    (hE : getEng st' e = getEng st e) :
    ∃ t, Goes i s st e t (stepPast s st' e) ∧ SameElsewhere s t := by
  have hrun : exec i s = .next (putStrand (putStrand { s with freeCount := s.freeCount + 1 } (Walker.ref s.cur) st1)
      (Walker.ref s.cur) (stepPast s st' e)) := by
    rw [hx, issueLocal, issueWith_eq h, ht]
    simp only [bind, Except.bind, hb, h.1]
    rfl
  refine ⟨_, ⟨hrun, getStrand_putStrand _ _ _, by simp [hE], by simp [hE]⟩, rfl, rfl, rfl, rfl, fun k hk => ?_⟩
  exact (fget_fset_other _ _ _ _ hk).trans (fget_fset_other _ _ _ _ hk)

/-- A word whose tokens are not there waits (R36). -/
theorem issueWith_noToken {s : State} {e : Eng} {st : Strand} (h : AtEngine s e st) {tk : Tk}
    (body : Walker → Strand → State → Act State) {k : Nat} (hb : tk.pbp = true) (hk : tokInPrev e = some k)
    (h0 : getTok st.tok k = []) : issueWith s tk body = .next s := by
  have hp : popTok (atIssue s st) (tokInPrev e) = .error .stall := by
    rw [hk, popTok]
    simp only [show (atIssue s st).tok = st.tok from rfl, h0]
    rfl
  rw [issueWith_eq h]
  simp only [takeTokens, hb, if_true, hp, bind, Except.bind]

@[simp] theorem latest_withTok (st : Strand) (t : Tokens) (r : Reg) : latest (withTok st t) r = latest st r :=
  latest_congr rfl (fun q => by cases q <;> rfl) r

/-- `nop` at an engine that handles token bits at issue. -/
theorem exec_nop {s : State} {t : Tag} {tk : Tk} (hc : s.cur.eng ≠ .c) (hs : s.cur.eng ≠ .s) :
    exec (.nop t tk) s = issueLocal s tk (fun w st => do
      await (w.eng != .l || !(tk.pbp || tk.pbn) || st.lean.isNone)
      .ok st) := by
  show execNop t tk s = _
  rw [execNop, if_neg hs, if_neg hc]

/-- R35, R36: `nop` of L, V or M, by what its token bits leave. -/
theorem tokenWords : TokenWords := by
  intro s st e t tk h he
  have hc : s.cur.eng ≠ .c := by rw [h.1]; rcases he with rfl | rfl | rfl <;> decide
  have hs : s.cur.eng ≠ .s := by rw [h.1]; rcases he with rfl | rfl | rfl <;> decide
  refine ⟨fun hr => ?_, fun k hb hk h0 => ?_⟩
  · obtain ⟨T, hT, hip, hin, hop, hon⟩ := takeTokens_ready (st := atIssue s st) hr (getEng st e).passed
    have hlean : (e != .l || !(tk.pbp || tk.pbn) || (withTok (atIssue s st) T).lean.isNone) = true := by
      have hl := hr.2.2.2.2
      have hw : (withTok (atIssue s st) T).lean = st.lean := rfl
      by_cases hpop : e = .l ∧ (tk.pbp = true ∨ tk.pbn = true)
      · simp [hw, hl hpop.1 hpop.2]
      · simp only [not_and_or, not_or, Bool.not_eq_true] at hpop
        rcases hpop with hne | ⟨hp, hn⟩
        · simp [hne]
        · simp [hp, hn]
    obtain ⟨t', hg, hse⟩ := goes_of_issueLocal (i := .nop t tk) h (exec_nop hc hs) hT
      (st' := withTok (atIssue s st) T) (by rw [h.1]; simp only [await, hlean]; rfl) rfl
    refine ⟨t', _, hg, hip, hin, hop, hon, fun r => ?_, hse, fun x hx => ?_⟩
    · rw [latest_stepPast, latest_withTok, latest_atIssue]
    · rw [getEng_stepPast_other _ _ _ _ hx]; rfl
  · rw [exec_nop hc hs]
    exact issueWith_noToken h _ hb hk h0

/-! ## `nop` of C and S (R52, R118) -/

/-- The entry of a `nop` with token bits in the pending-store table, for the data stage (R118). -/
def nopEntry (t : Tag) (tk : Tk) (st : Strand) : SEntry :=
  ⟨.nop t tk, (getEng st .s).pc, (getEng st .s).passed, false, false, 0, 0, 0, 0, 0, 0, 0, 0, 0, (getEng st .s).seen,
    3, false⟩

/-- A word of S whose body leaves its strand as `st'`. -/
theorem goes_of_putStrand {i : Instr} {s : State} {e : Eng} {st st' : Strand} (h : AtEngine s e st)
    {body : Walker → Strand → State → Act State} (hx : exec i s = issueWith s Tk.none body)
    (hb : body s.cur (atIssue s st) (issued s st) =
      .ok (putStrand (issued s st) (Walker.ref s.cur) (stepPast (issued s st) st' e)))
    (hE : ∀ x, getEng st' x = getEng st x) :
    ∃ t, Goes i s st e t (stepPast (issued s st) st' e) ∧ SameElsewhere s t ∧
      SameOthers e st (stepPast (issued s st) st' e) := by
  refine ⟨_, ⟨hx.trans (issueWith_ok h body hb), getStrand_putStrand _ _ _, by simp [hE], by simp [hE]⟩,
    ⟨rfl, rfl, rfl, rfl, fun k hk => ?_⟩, fun x hx => ?_⟩
  · exact (fget_fset_other _ _ _ _ hk).trans (issued_strands_other s st hk)
  · rw [getEng_stepPast_other _ _ _ _ hx, hE]

theorem exec_nop_s {s : State} {t : Tag} {tk : Tk} (hs : s.cur.eng = .s) :
    exec (.nop t tk) s = issueWith s Tk.none fun w st s' =>
      if tk = Tk.none then .ok (putStrand s' (Walker.ref w) (stepPast s' st .s))
      else if 64 ≤ st.stores.length then stall
      else .ok (putStrand s' (Walker.ref w) (stepPast s'
    { st with stores := st.stores ++ [nopEntry t tk st] } .s)) := by
  show execNop t tk s = _
  rw [execNop, if_pos hs]
  rfl

theorem latest_stores (st : Strand) (l : List SEntry) (r : Reg) : latest { st with stores := l } r = latest st r :=
  latest_congr rfl (fun q => by cases q <;> rfl) r

/-- R52, R118: `nop` of C has no effect, and one of S with token bits waits for the data stage. -/
theorem nopWord : NopWord := by
  intro s st t tk
  refine ⟨fun h => ?_, fun h hroom => ?_⟩
  · have hx : exec (.nop t tk) s = issueC s fun _ st => .ok st := by
      show execNop t tk s = _
      rw [execNop, h.1]
      rfl
    obtain ⟨t', hg, hse⟩ := goes_of_issueC h hx rfl rfl rfl
    refine ⟨t', _, hg, rfl, fun r => ?_, hse, fun x hx => ?_⟩
    · rw [latest_perfAdd, latest_stepPast, latest_atIssue]
    · rw [getEng_perfAdd, getEng_stepPast_other _ _ _ _ hx]; rfl
  · by_cases htk : tk = Tk.none
    · obtain ⟨t', hg, hse, ho⟩ := goes_of_putStrand (st' := atIssue s st) h (exec_nop_s (t := t) (tk := tk) h.1)
        (by rw [if_pos htk]) (fun _ => rfl)
      refine ⟨t', _, hg, fun r => ?_, hse, ho, fun _ => rfl, fun hne => absurd htk hne⟩
      rw [latest_stepPast, latest_atIssue]
    · have hfull : ¬ 64 ≤ (atIssue s st).stores.length := Nat.not_le.mpr hroom
      obtain ⟨t', hg, hse, ho⟩ := goes_of_putStrand
        (st' := { atIssue s st with stores := st.stores ++ [nopEntry t tk st] }) h (exec_nop_s (t := t) (tk := tk) h.1)
        (by rw [if_neg htk, if_neg hfull]; rfl) (fun _ => rfl)
      refine ⟨t', _, hg, fun r => ?_, hse, ho, fun hn => absurd hn htk, fun _ => ⟨_, rfl, rfl, rfl⟩⟩
      rw [latest_stepPast, latest_stores, latest_atIssue]

/-! ## Landings and pushes -/

/-- R28, R36: a result lands behind the older ones of its register, and the place of a complete word is filled. -/
theorem landingsAndPushes : LandingsAndPushes := by
  refine ⟨fun s r st k p x hst hp hv hold h0 hm => ?_, fun s r st n i p hst hn hi hp hf hc hl hd hpos => ?_⟩
  · have none_older : ((st.pending.take k).any fun q => q.reg == p.reg) = false := by
      rw [List.any_eq_false]; intro q hq; simpa using hold q hq
    have hx : exec (.resultLands r k) s = .next (putStrand s r
        { landBits st p.reg x p.mask p.poison with pending := st.pending.eraseIdx k }) := by
      show execResultLands r k s = _
      simp only [execResultLands, hst, hp, hv, none_older, Bool.false_eq_true, if_false]
    refine ⟨_, _, hx, getStrand_putStrand _ _ _, ?_, rfl, fun q hq => ?_, rfl, rfl⟩
    · rw [regBits_pending, landBits_regBits, regBits_setRegBits_same, if_neg h0, hm, whole_write_bits]
    · rw [regBits_pending, regBits_landBits_other _ _ _ _ _ _ hq]
  · have hplace : (8 * n + i) / 8 = n ∧ (8 * n + i) % 8 = i := by omega
    have hx : exec (.tokenPush r (8 * n + i)) s = .next (putStrand s r
        { st with tok := putTok st.tok n ((getTok st.tok n).set i { p with filled := true }) }) := by
      show execTokenPush r (8 * n + i) s = _
      simp only [execTokenPush, hst, hplace, hp, hf, hc, hd, Nat.not_le.mpr hpos]
      rw [if_neg]
      by_cases he : p.eng = .l
      · simp [hl he]
      · simp [he]
    refine ⟨_, _, hx, getStrand_putStrand _ _ _, ?_, rfl, rfl⟩
    rw [getTok_putTok _ _ hn hn, if_pos rfl]

/-- Settles O26: the token bits of `nop`, `nop` at C and S, results that land and tokens that fill. -/
theorem tokensAndLandings : Obligations.TokensAndLandings :=
  ⟨tokenWords, nopWord, landingsAndPushes⟩

end Sys2Proof.Proofs


namespace Sys2Proof.Proofs

open Host (Outcome)
open Sys2Proof Machine Claims

/-! ## The fields of a bind-table entry -/

theorem entStart_eq (e : Word) : entStart e = (e.extractLsb' 0 12).toNat := by
  simp [entStart, wbits, Machine.bits]

theorem entLat_eq (e : Word) : entLat e = (e.extractLsb' 56 4).toNat := by
  simp [entLat, wbits, Machine.bits, Nat.shiftRight_eq_div_pow]

/-! ## The table and the engines that are before a `bind` (R54) -/

theorem vget_set (v : Vector Word 64) (n m : BitVec 6) (x : Word) :
    (v.set n.toFin x).get m.toFin = if m = n then x else v.get m.toFin := by
  by_cases h : m = n
  · subst h; rw [if_pos rfl]; exact vget_set_same _ _ _ _
  · rw [if_neg h]; exact vget_set_other _ _ _ _ _ (toFin_ne h)

/-- An engine still before a `bind` goes on with the entry it had. -/
theorem boundEntry_noteBind_before {c : Context} {st u : Strand} {x : Eng} (n m : BitVec 6) (y : Word)
    (hu : u.oldBinds = noteBind st n (c.bindTab.get n.toFin)) (hp : (getEng u x).passed = (getEng st x).passed)
    (hx : inMask st x = true) (hlt : (getEng st x).passed < (getEng st .c).passed) :
    boundEntry { c with bindTab := c.bindTab.set n.toFin y } u x m = boundEntry c st x m := by
  have kept : ∀ b : Nat × BitVec 6 × Word, (b.2.1 == m && decide ((getEng st x).passed < b.1)) = true →
      ((maskEngs st).any fun e => decide ((getEng st e).passed < b.1)) = true := by
    intro b hb
    simp only [Bool.and_eq_true] at hb
    exact List.any_eq_true.mpr ⟨x, (mem_maskEngs st x).mpr hx, hb.2⟩
  have found : u.oldBinds.find? (fun b => b.2.1 == m && decide ((getEng st x).passed < b.1)) =
      (st.oldBinds ++ [((getEng st .c).passed, n, c.bindTab.get n.toFin)]).find?
        (fun b => b.2.1 == m && decide ((getEng st x).passed < b.1)) := by
    rw [hu, noteBind, List.find?_filter]
    congr 1
    funext b
    cases hb : (b.2.1 == m && decide ((getEng st x).passed < b.1))
    · simp
    · simp only [kept b hb, and_self, decide_true]
  simp only [boundEntry, hp, found, List.find?_append, List.find?_cons, List.find?_nil, hlt, decide_true, Bool.and_true]
  cases st.oldBinds.find? (fun b => b.2.1 == m && decide ((getEng st x).passed < b.1)) with
  | some b => rfl
  | none =>
    by_cases hm : n = m
    · subst hm; simp
    · have hm' : (n == m) = false := by simpa using hm
      simp only [hm', Option.none_or]
      rw [vget_set, if_neg (Ne.symm hm)]

/-- The new entry serves an engine that no `bind` is ahead of. -/
theorem boundEntry_noteBind_after {c : Context} {st u : Strand} {x : Eng} (n : BitVec 6) (old y : Word)
    (hu : u.oldBinds = noteBind st n old) (hold : ∀ b ∈ st.oldBinds, b.1 ≤ (getEng st .c).passed)
    (hle : (getEng st .c).passed ≤ (getEng u x).passed) :
    boundEntry { c with bindTab := c.bindTab.set n.toFin y } u x n = y := by
  have hnone : u.oldBinds.find? (fun b => b.2.1 == n && decide ((getEng u x).passed < b.1)) = none := by
    rw [List.find?_eq_none]
    intro b hb
    rw [hu, noteBind] at hb
    have hle' : b.1 ≤ (getEng st .c).passed := by
      rcases List.mem_append.mp (List.mem_filter.mp hb).1 with h | h
      · exact hold b h
      · rw [List.mem_singleton.mp h]
    simp only [Bool.and_eq_true, decide_eq_true_eq, not_and, Nat.not_lt]
    intro _; omega
  simp only [boundEntry, hnone]
  rw [vget_set, if_pos rfl]

/-! ## `bind` -/

/-- What `bind` leaves of its strand. -/
def bound (clock : Nat) (st : Strand) (lat : BitVec 4) (ga : BitVec 5) (n : BitVec 6) (old e : Word) : Strand :=
  { writeWord clock st .c lat (.g ga) old with
    bindst := BitVec.ofNat 9 (0xC0 + n.toNat + 256 * boolNat (entVal e))
    oldBinds := noteBind (writeWord clock st .c lat (.g ga) old) n old }

theorem latest_bound (clock : Nat) (st : Strand) (lat : BitVec 4) (ga : BitVec 5) (n : BitVec 6) (old e : Word)
    (r : Reg) : latest (bound clock st lat ga n old e) r = latest (writeWord clock st .c lat (.g ga) old) r :=
  latest_congr rfl (fun q => by cases q <;> rfl) r

theorem getEng_bound (clock : Nat) (st : Strand) (lat : BitVec 4) (ga : BitVec 5) (n : BitVec 6) (old e : Word)
    (x : Eng) : getEng (bound clock st lat ga n old e) x = getEng st x :=
  getEng_writeWord clock st .c lat (.g ga) old x

theorem oldBinds_bound (clock : Nat) (st : Strand) (lat : BitVec 4) (ga : BitVec 5) (n : BitVec 6) (old e : Word) :
    (bound clock st lat ga n old e).oldBinds = noteBind st n old := by
  have hrest := (writeWord_same clock st .c lat (.g ga) old).1
  have hold : (restOf (writeWord clock st .c lat (.g ga) old)).oldBinds = (restOf st).oldBinds := by rw [hrest]
  have hmask : (restOf (writeWord clock st .c lat (.g ga) old)).emask = (restOf st).emask := by rw [hrest]
  have hold' : (writeWord clock st .c lat (.g ga) old).oldBinds = st.oldBinds := hold
  have hmask' : (writeWord clock st .c lat (.g ga) old).emask = st.emask := hmask
  have hin : inMask (writeWord clock st .c lat (.g ga) old) = inMask st := by funext e; simp only [inMask, hmask']
  simp only [bound, noteBind, maskEngs, hin, hold', getEng_writeWord]

/-- BINDST: the opcode, with the VAL bit of the entry above it. -/
theorem bindst_bits (n : BitVec 6) (e : Word) : BitVec.ofNat 9 (0xC0 + n.toNat + 256 * boolNat (entVal e)) =
    (if e.getLsbD 63 then 0x100 else 0) ||| (0xC0 + n.setWidth 9) := by
  have hv : entVal e = e.getLsbD 63 := rfl
  rw [hv]
  generalize e.getLsbD 63 = v
  revert n v
  decide

/-- What `bind` does at issue. -/
def bindBody (clock : Nat) (lat : BitVec 4) (ga gb : BitVec 5) (n : BitVec 6) (w : Walker) (st : Strand) (s : State) :
    Act State := do
  let e ← readG st 0 gb
  let c := getCtx s w.cell st.part
  await (shareReady c && !wcsCopied s w.cell st.part)
  check (!entVal e || bindOk c.wcs e) { cause := .microIllegal }
  let st := bound clock st lat ga n (c.bindTab.get n.toFin) e
  let s := putCtx s w.cell st.part { c with bindTab := c.bindTab.set n.toFin (if entVal e then e else 0) }
  .ok (countC (putStrand s (Walker.ref w) (stepPast s st .c)) (Walker.ref w))

theorem exec_bind (lat : BitVec 4) (ga gb : BitVec 5) (n : BitVec 6) (s : State) :
    exec (.bind lat ga gb n) s = issueWith s Tk.none (bindBody s.clock lat ga gb n) := rfl

section
variable {clock : Nat} {lat : BitVec 4} {ga gb : BitVec 5} {n : BitVec 6} {w : Walker} {st : Strand} {s : State}
  {e : Word} {c : Context}

theorem bindBody_ok (hr : readG st 0 gb = .ok e) (hc : getCtx s w.cell st.part = c) (hs : shareReady c = true)
    (hw : wcsCopied s w.cell st.part = false) (hok : (!entVal e || bindOk c.wcs e) = true) :
    bindBody clock lat ga gb n w st s =
      let t := putCtx s w.cell st.part { c with bindTab := c.bindTab.set n.toFin (if entVal e then e else 0) }
      .ok (countC (putStrand t (Walker.ref w) (stepPast t (bound clock st lat ga n (c.bindTab.get n.toFin) e) .c))
        (Walker.ref w)) := by
  have hrest := (writeWord_same clock st .c lat (.g ga) (c.bindTab.get n.toFin)).1
  have hpart : (restOf (writeWord clock st .c lat (.g ga) (c.bindTab.get n.toFin))).part = (restOf st).part := by
    rw [hrest]
  have hpart' : (bound clock st lat ga n (c.bindTab.get n.toFin) e).part = st.part := hpart
  simp only [bindBody, hr, hc, hs, hw, hok, hpart', await, check, bind, Except.bind, Bool.not_false, Bool.and_self,
    if_true]

theorem bindBody_trap (hr : readG st 0 gb = .ok e) (hc : getCtx s w.cell st.part = c) (hs : shareReady c = true)
    (hw : wcsCopied s w.cell st.part = false) (hbad : (!entVal e || bindOk c.wcs e) = false) :
    bindBody clock lat ga gb n w st s = .error (.trap { cause := .microIllegal }) := by
  simp only [bindBody, hr, hc, hs, hw, hbad, await, check, bind, Except.bind, Bool.not_false, Bool.and_self, if_true]
  rfl

end

/-- R54, R343, R365: what `bind` answers and leaves, and the entry that breaks a check. -/
theorem bindWord : BindWord := by
  intro s st lat ga gb n h hr c e hshare hcopied
  refine ⟨fun hok => ?_, fun hv hbad => ?_⟩
  · have hcheck : (!entVal e || bindOk c.wcs e) = true := by
      cases hv : entVal e
      · rfl
      · rw [hok hv]; rfl
    obtain ⟨t, hg, hm, -, hctx, -, -⟩ := goes_of_counted h (exec_bind lat ga gb n s) _ _
      (bindBody_ok (c := c) (e := e) (readG_ok hr 0) rfl hshare hcopied hcheck) (getEng_bound _ _ _ _ _ _ _ _)
    have hcell : getCtx t s.cur.cell st.part =
        { c with bindTab := c.bindTab.set n.toFin (if e.getLsbD 63 then e else 0) } := by
      rw [getCtx, hctx]; exact getCtx_putCtx _ _ _ _
    have hold := oldBinds_bound s.clock (atIssue s st) lat ga n (c.bindTab.get n.toFin) e
    refine ⟨t, _, hg, fun h0 => ?_, fun r hr => ?_, fun x hx => ?_, hcell, hm, _, hg.2.1, bindst_bits n e,
      fun x m hx hlt => ?_, fun hb x hx => ?_⟩
    · rw [gLater, latest_perfAdd, latest_stepPast, latest_bound]
      exact latest_writeWord_same _ _ _ _ _ _ rfl fun k => h0 (Reg.g.inj k)
    · rw [latest_perfAdd, latest_stepPast, latest_bound, latest_writeWord_other _ _ _ _ _ _ _ (.inl hr), latest_atIssue]
    · rw [getEng_perfAdd, getEng_stepPast_other _ _ _ _ hx, getEng_bound]; rfl
    · have hne : x ≠ .c := fun k => by subst k; exact absurd hlt (lt_irrefl _)
      rw [hcell]
      refine boundEntry_noteBind_before n m _ hold ?_ hx hlt
      rw [getEng_perfAdd, getEng_stepPast_other _ _ _ _ hne, getEng_bound]; rfl
    · rw [hcell]
      refine boundEntry_noteBind_after n _ _ hold hb ?_
      by_cases hc : x = .c
      · subst hc
        rw [getEng_perfAdd, getEng_stepPast_passed, getEng_bound]
        exact Nat.le_succ _
      · rw [getEng_perfAdd, getEng_stepPast_other _ _ _ _ hc, getEng_bound]
        exact hx
  · have hcheck : (!entVal e || bindOk c.wcs e) = false := by
      rw [show entVal e = true from hv, hbad]; rfl
    exact traps_of_raiseWord h { cause := .microIllegal } rfl ((exec_bind lat ga gb n s).trans
      (issueWith_trap h _ (bindBody_trap (c := c) (e := e) (readG_ok hr 0) rfl hshare hcopied hcheck)))

/-! ## Bound words -/

theorem readA_ok {s : State} {st : Strand} {n : BitVec 4} (h : Readable st (.a n)) (salt : Nat) :
    readA (atIssue s st) salt n = .ok (aNow st n) := by
  simp [readA, readReg_ok (readable_atIssue h), bind, Except.bind, aNow]

theorem readB_ok {s : State} {st : Strand} {n : BitVec 4} (h : Readable st (.b n)) (salt : Nat) :
    readB (atIssue s st) salt n = .ok (bNow st n) := by
  simp [readB, readReg_ok (readable_atIssue h), bind, Except.bind, bNow]

/-- The registers that a bound word reads at issue do not depend on the tokens. -/
theorem boundRegs_withTok (st : Strand) (t : Tokens) (e : Eng) (a b : BitVec 7) :
    boundRegs (withTok st t) e a b = boundRegs st e a b := by
  have hr : ∀ f salt r, readReg (withTok st t) f salt r = readReg st f salt r := fun f salt r => by cases r <;> rfl
  cases e <;> simp only [boundRegs, readG, readA, readB, hr]

theorem boundRegs_ok {s : State} {st : Strand} {e : Eng} (h : ArgsReadable st e) (a b : BitVec 7) :
    boundRegs (atIssue s st) e a b = .ok (boundArgs st e a b) := by
  have narrow : ∀ n : BitVec 7, (n.setWidth 5).setWidth 4 = n.setWidth 4 := by decide
  cases e with
  | c => simp only [boundRegs, readG_ok ((h _).1 rfl), bind, Except.bind]; rfl
  | l =>
    have hk : ∀ n : BitVec 7, Readable st (.a (n.setWidth 4)) := fun n => narrow n ▸ (h (n.setWidth 5)).2.1 rfl
    simp only [boundRegs, readA_ok (hk _), bind, Except.bind]; rfl
  | v => rfl
  | m => rfl
  | s =>
    have hk : ∀ n : BitVec 7, Readable st (.b (n.setWidth 4)) := fun n => narrow n ▸ (h (n.setWidth 5)).2.2 rfl
    simp only [boundRegs, readB_ok (hk _), bind, Except.bind]; rfl

/-- What a bound word of an engine other than S does at issue. -/
def boundBody (i : Instr) (n : BitVec 6) (a b : BitVec 7) (imm : BitVec 24) (w : Walker) (st : Strand) (s : State) :
    Act State := do
  await (w.eng != .l || st.lean.isNone)
  if w.eng = .m then quietM st
  let entry := boundEntry (getCtx s w.cell st.part) st w.eng n
  let (x, y) ← boundRegs st w.eng a b
  let en := getEng st w.eng
  let m := microStart i en.pc entry (imm.setWidth 64) x y
  if entLat entry ≠ 0 && entLat entry ≠ 15 then
    match microStep s (Walker.ref w) w.eng st m en.passed none with
    | .error .stall => stall
    | _ => .ok ()
  .ok (putStrand s (Walker.ref w) (modEng st w.eng fun x => { x with micro := some m }))

theorem exec_boundOpcode {n : BitVec 6} {e : Eng} {h : Hdr} {d a b : BitVec 7} {imm : BitVec 24} (s : State)
    (he : e ≠ .s) : exec (.boundOpcode n e h d a b imm) s =
      issueWith s h.tk (boundBody (.boundOpcode n e h d a b imm) n a b imm) := by
  show execBoundOpcode n e h d a b imm s = _
  rw [execBoundOpcode, if_neg he]
  rfl

section
variable {i : Instr} {n : BitVec 6} {a b : BitVec 7} {imm : BitVec 24} {w : Walker} {st : Strand} {s : State}
  {entry : Word} {x : Word × Word}

/-- A routine without a latency bound starts once its engine is free. -/
theorem boundBody_ok (hl : w.eng = .l → st.lean = none) (hm : w.eng = .m → Quiet st)
    (hentry : boundEntry (getCtx s w.cell st.part) st w.eng n = entry) (hregs : boundRegs st w.eng a b = .ok x)
    (hlat : entLat entry = 0 ∨ entLat entry = 15) :
    boundBody i n a b imm w st s = .ok (putStrand s (Walker.ref w) (modEng st w.eng fun y =>
      { y with micro := some (microStart i (getEng st w.eng).pc entry (imm.setWidth 64) x.1 x.2) })) := by
  have hlean : (w.eng != .l || st.lean.isNone) = true := by
    by_cases he : w.eng = .l
    · rw [hl he]; simp
    · simp [he]
  have hquiet : w.eng = .m → quietM st = .ok () := by
    intro he
    obtain ⟨h1, h2⟩ := hm he
    rw [quietM, h1, h2]; rfl
  have hnobound : (decide (entLat entry ≠ 0) && decide (entLat entry ≠ 15)) = false := by
    rcases hlat with h | h <;> simp [h]
  obtain ⟨x1, x2⟩ := x
  simp only [boundBody, hlean, hentry, hregs, hnobound, await, bind, Except.bind, if_true, Bool.false_eq_true, if_false]
  split
  · next he => rw [hquiet he]
  · rfl

end

/-- R350, R357, R364: a bound word of C, L, V or M starts its routine and stays. -/
theorem boundWord_starts {s : State} {st : Strand} {n : BitVec 6} {e : Eng} {h : Hdr} {d a b : BitVec 7}
    {imm : BitVec 24} (hat : AtEngine s e st) (hargs : ArgsReadable st e) (he : e ≠ .s) (htk : TokensReady st e h.tk)
    (hlean : e = .l → st.lean = none) (hquiet : e = .m → Quiet st) {entry : Word}
    (hentry : boundEntry (getCtx s s.cur.cell st.part) st e n = entry) (hlat : entLat entry = 0 ∨ entLat entry = 15) :
    ∃ t u, exec (.boundOpcode n e h d a b imm) s = .next t ∧ getStrand t (Walker.ref s.cur) = some u ∧
      (getEng u e).micro = some (microStart (.boundOpcode n e h d a b imm) (getEng st e).pc entry (imm.setWidth 64)
        (boundArgs st e a b).1 (boundArgs st e a b).2) ∧
      (getEng u e).pc = (getEng st e).pc ∧ (∀ r, latest u r = latest st r) ∧ SameElsewhere s t ∧ SameOthers e st u := by
  obtain ⟨T, hT, -⟩ := takeTokens_ready (st := atIssue s st) htk (getEng st e).passed
  obtain ⟨rfl, hst⟩ := hat
  have hbody := boundBody_ok (i := .boundOpcode n s.cur.eng h d a b imm) (n := n) (a := a) (b := b) (imm := imm)
    (w := s.cur) (st := withTok (atIssue s st) T)
    (s := putStrand { s with freeCount := s.freeCount + 1 } (Walker.ref s.cur) (withTok (atIssue s st) T))
    (entry := entry) hlean hquiet hentry ((boundRegs_withTok _ _ _ _ _).trans (boundRegs_ok hargs a b)) hlat
  have hx := (exec_boundOpcode (n := n) (h := h) (d := d) (a := a) (b := b) (imm := imm) s he).trans
    (issueWith_eq ⟨rfl, hst⟩ _ _)
  rw [hT] at hx
  simp only [bind, Except.bind] at hx
  rw [hbody] at hx
  refine ⟨_, _, hx, getStrand_putStrand _ _ _, ?_, ?_, fun r => ?_, ⟨rfl, rfl, rfl, rfl, fun k hk => ?_⟩,
    fun x hx => ?_⟩
  · rw [getEng_modEng]; rfl
  · rw [getEng_modEng]; rfl
  · rw [latest_modEng, latest_withTok, latest_atIssue]
  · exact (fget_fset_other _ _ _ _ hk).trans (fget_fset_other _ _ _ _ hk)
  · rw [getEng_modEng_other _ _ _ _ hx]; rfl

/-! ## Bound words of S -/

/-- A result that has no value changes no register. -/
theorem latest_keepOut (clock : Nat) (st : Strand) (c : Context) (entry : Word) (h : Hdr) (d : BitVec 7) (r : Reg) :
    latest (keepOut clock st c entry h d) r = latest st r := by
  unfold keepOut
  split
  · simp only [latest, List.foldl_append, List.foldl_cons, List.foldl_nil, landOne, ite_self, regBits_pending]
  · rfl

theorem keepOut_same (clock : Nat) (st : Strand) (c : Context) (entry : Word) (h : Hdr) (d : BitVec 7) :
    (keepOut clock st c entry h d).engs = st.engs ∧ (keepOut clock st c entry h d).stores = st.stores := by
  unfold keepOut
  split
  · exact ⟨rfl, rfl⟩
  · exact ⟨rfl, rfl⟩

/-- The entry that a bound word of S leaves for the data stage. -/
def boundEntryS (st : Strand) (i : Instr) (c : Context) (entry : Word) (x : Word × Word) : SEntry :=
  { blankEntry st i with entered := routineStores c entry, lo := 0, hi := spmSize, ea := x.1,
                         desc := x.2.setWidth 256 ||| (entry.setWidth 256 <<< 64) }

/-- What a bound word of S does at its address stage. -/
def boundBodyS (clock : Nat) (i : Instr) (n : BitVec 6) (h : Hdr) (d a b : BitVec 7) (w : Walker) (st : Strand)
    (s : State) : Act State := do
  let c := getCtx s w.cell st.part
  let entry := boundEntry c st .s n
  let x ← boundRegs st .s a b
  let st' ← enterStore (keepOut clock st c entry h d) (boundEntryS st i c entry x)
  .ok (putStrand s (Walker.ref w) (stepPast s st' .s))

theorem exec_boundOpcode_s (n : BitVec 6) (h : Hdr) (d a b : BitVec 7) (imm : BitVec 24) (s : State) :
    exec (.boundOpcode n .s h d a b imm) s =
      issueWith s Tk.none (boundBodyS s.clock (.boundOpcode n .s h d a b imm) n h d a b) := rfl

theorem boundBodyS_ok {clock : Nat} {i : Instr} {n : BitVec 6} {h : Hdr} {d a b : BitVec 7} {w : Walker} {st : Strand}
    {s : State} {c : Context} {entry : Word} {x : Word × Word} (hc : getCtx s w.cell st.part = c)
    (hentry : boundEntry c st .s n = entry) (hregs : boundRegs st .s a b = .ok x) (hroom : st.stores.length < 64) :
    boundBodyS clock i n h d a b w st s = .ok (putStrand s (Walker.ref w) (stepPast s
      { keepOut clock st c entry h d with stores := st.stores ++ [boundEntryS st i c entry x] } .s)) := by
  have hs := (keepOut_same clock st c entry h d).2
  simp only [boundBodyS, hc, hentry, hregs, enterStore, hs, hroom, await, decide_true, if_true, bind, Except.bind]

/-- R364: a bound word of S keeps its registers for the data stage. -/
theorem boundWord_enters {s : State} {st : Strand} {n : BitVec 6} {h : Hdr} {d a b : BitVec 7} {imm : BitVec 24}
    (hat : AtEngine s .s st) (hargs : ArgsReadable st .s) (hroom : st.stores.length < 64) :
    Enters (.boundOpcode n .s h d a b imm) s st fun x => x.ea = (boundArgs st .s a b).1 ∧ x.entered =
      routineStores (getCtx s s.cur.cell st.part) (boundEntry (getCtx s s.cur.cell st.part) st .s n) := by
  have hE := (keepOut_same s.clock (atIssue s st) (getCtx s s.cur.cell st.part)
    (boundEntry (getCtx s s.cur.cell st.part) st .s n) h d).1
  obtain ⟨t, hg, hse, ho⟩ := goes_of_putStrand hat (exec_boundOpcode_s n h d a b imm s)
    (boundBodyS_ok (c := getCtx s s.cur.cell st.part)
      (entry := boundEntry (getCtx s s.cur.cell st.part) st .s n) rfl rfl (boundRegs_ok hargs a b) hroom)
    (fun e => by simp only [getEng, hE]; rfl)
  have hcells := hse.2.1
  refine ⟨t, _, _, hg, rfl, rfl, rfl, rfl, fun r => ?_, hse.1, fun k => by simp only [getCell, hcells], ho, rfl, rfl⟩
  rw [latest_stepPast, latest_stores, latest_keepOut, latest_atIssue]

/-- R118, R364: the data stage starts the routine of a bound word of S and keeps its entry. -/
theorem boundWord_dataStage {s : State} {st : Strand} {x : SEntry} {rest : List SEntry} {n : BitVec 6} {h : Hdr}
    {d a b : BitVec 7} {imm : BitVec 24} (hat : AtDataStage s st x rest) (hw : x.word = .boundOpcode n .s h d a b imm)
    (htk : h.tk = Tk.none) :
    ∃ t u m, exec .storeDataStage s = .next t ∧ getStrand t (Walker.ref s.cur) = some u ∧
      (getEng u .s).micro = some m ∧ m.word = x.word ∧ m.index = x.index ∧ m.ms.get 0 = imm.setWidth 64 ∧
      m.ms.get 1 = x.ea ∧ u.stores = st.stores ∧ t.mem = s.mem := by
  obtain ⟨hst, hnext, -, hmid, hload, hmicro⟩ := hat
  obtain ⟨st0, h0, rfl⟩ : ∃ st0, getStrand s (Walker.ref s.cur) = some st0 ∧ settle s.clock st0 = st := by
    simpa [standing, Option.map_eq_some_iff] using hst
  have hnext' : nextStore (atIssue s (settle s.clock st0)) = some x := hnext
  have hgo : (stoppedMid (atIssue s (settle s.clock st0)) || (atIssue s (settle s.clock st0)).loading.isSome ||
      (getEng (atIssue s (settle s.clock st0)) .s).micro.isSome) = false := by
    show (stoppedMid (settle s.clock st0) || (settle s.clock st0).loading.isSome ||
      (getEng (settle s.clock st0) .s).micro.isSome) = false
    rw [hmid, hload, hmicro]; rfl
  have hstage : dataStage { s with freeCount := s.freeCount + 1 } (Walker.ref s.cur)
      (atIssue s (settle s.clock st0)) x =
      .ok (putStrand { s with freeCount := s.freeCount + 1 } (Walker.ref s.cur)
        (modEng (atIssue s (settle s.clock st0)) .s fun en => { en with micro := some (microStart x.word x.index
          (x.desc.extractLsb' 64 64) (imm.setWidth 64) x.ea (x.desc.setWidth 64)) })) := by
    have hnone : storeTk x.word = Tk.none := by rw [hw]; exact htk
    simp only [dataStage, hnone, takeTokens_none, bind, Except.bind]
    rw [hw]
  have hx : exec .storeDataStage s = .next (putStrand { s with freeCount := s.freeCount + 1 } (Walker.ref s.cur)
      (modEng (atIssue s (settle s.clock st0)) .s fun en => { en with micro := some (microStart x.word x.index
        (x.desc.extractLsb' 64 64) (imm.setWidth 64) x.ea (x.desc.setWidth 64)) })) := by
    show execStoreDataStage s = _
    simp only [execStoreDataStage, h0]
    rw [← atIssue, hnext']
    refine (if_neg (Bool.eq_false_iff.mp hgo)).trans ?_
    rw [hstage]
  refine ⟨_, _, _, hx, getStrand_putStrand _ _ _, by rw [getEng_modEng], rfl, rfl, rfl, rfl, rfl, rfl⟩

/-- R350, R357, R364: bound words at issue, and at the data stage of S. -/
theorem boundWords : BoundWords := by
  refine ⟨fun s st n e h d a b imm hat hargs => ⟨fun he _ htk hlean hquiet hlat => ?_, fun he hroom => ?_⟩,
    fun s st x rest n h d a b imm hat hw htk => boundWord_dataStage hat hw htk⟩
  · have hlat' : entLat (boundEntry (getCtx s s.cur.cell st.part) st e n) = 0 ∨
        entLat (boundEntry (getCtx s s.cur.cell st.part) st e n) = 15 := by
      rw [entLat_eq]
      rcases hlat with h0 | h15
      · exact .inl (by rw [h0]; rfl)
      · exact .inr (by rw [h15]; rfl)
    have hstart := boundWord_starts (h := h) (d := d) (a := a) (b := b) (imm := imm) hat hargs he htk hlean hquiet rfl
      hlat'
    simp only [microStart, entStart_eq] at hstart
    exact hstart
  · subst he
    exact boundWord_enters hat hargs hroom

/-- Settles O40: `bind`, and the words bound through its table. -/
theorem bindingsAndBoundWords : Obligations.BindingsAndBoundWords :=
  ⟨bindWord, boundWords⟩

end Sys2Proof.Proofs


namespace Sys2Proof.Proofs

open Host (Outcome)
open Sys2Proof Machine Claims

/-! ## Bits and elements of a wide word -/

theorem bit_eq_testBit (x n : Nat) : bit x n = x.testBit n := by
  simp [bit, Nat.testBit_eq_decide_div_mod_eq, beq_eq_decide]

theorem testBit_elem (x w i j : Nat) : (elem x w i).testBit j = (decide (j < w) && x.testBit (w * i + j)) := by
  rw [elem, Nat.testBit_mod_two_pow, Nat.testBit_div_two_pow, Nat.add_comm j]

theorem elem_lt (x w i : Nat) : elem x w i < 2 ^ w := Nat.mod_lt _ (Nat.two_pow_pos w)

/-- The elements of a packed word are those of the list. -/
theorem elem_packElems (w : Nat) (l : List Nat) (i : Nat) : elem (packElems w l) w i = l.getD i 0 % 2 ^ w := by
  have hw := Nat.two_pow_pos w
  induction l generalizing i with
  | nil => simp [packElems, elem]
  | cons x xs ih =>
    cases i with
    | zero => simp [elem, packElems]
    | succ i =>
      have hdrop : (x % 2 ^ w + 2 ^ w * packElems w xs) / 2 ^ w = packElems w xs := by
        rw [Nat.add_mul_div_left _ _ hw, Nat.div_eq_of_lt (Nat.mod_lt _ hw), Nat.zero_add]
      rw [elem, packElems, Nat.mul_succ, Nat.add_comm (w * i), Nat.pow_add, ← Nat.div_div_eq_div_mul, hdrop]
      exact ih i

/-- An element that lies within a register. -/
theorem elem_ofNat {n w i : Nat} (h : w * i + w ≤ n) (x : Nat) : elem (BitVec.ofNat n x).toNat w i = elem x w i := by
  apply Nat.eq_of_testBit_eq
  intro j
  rw [testBit_elem, testBit_elem, BitVec.testBit_toNat, BitVec.getLsbD_ofNat]
  by_cases hj : j < w
  · have : w * i + j < n := by omega
    rw [decide_eq_true this, Bool.true_and]
  · rw [decide_eq_false hj, Bool.false_and, Bool.false_and]

/-- The masked bits of `x` over `old` (R173). -/
def overlay (old x mask : BitVec 4096) : BitVec 4096 := (old &&& ~~~mask) ||| (x &&& mask)

@[simp] theorem overlay_allOnes (old x : BitVec 4096) : overlay old x (BitVec.allOnes 4096) = x := by
  simp only [overlay, BitVec.not_allOnes, BitVec.and_zero, BitVec.and_allOnes, BitVec.zero_or]

/-- A mask that holds all of an element or nothing of it selects the element. -/
theorem elem_overlay {w i : Nat} (h : w * i + w ≤ 4096) (old x mask : BitVec 4096) (on : Bool)
    (hm : elem mask.toNat w i = if on then 2 ^ w - 1 else 0) :
    elem (overlay old x mask).toNat w i = if on then elem x.toNat w i else elem old.toNat w i := by
  apply Nat.eq_of_testBit_eq
  intro j
  rw [testBit_elem]
  by_cases hj : j < w
  · have hlt : w * i + j < 4096 := by omega
    have hbit : mask.toNat.testBit (w * i + j) = on := by
      have := congrArg (fun y => Nat.testBit y j) hm
      simp only [testBit_elem, hj, decide_true, Bool.true_and] at this
      rw [this]
      cases on
      · simp
      · simp [Nat.testBit_two_pow_sub_one, hj]
    have hover : (overlay old x mask).toNat.testBit (w * i + j) =
        if on then x.toNat.testBit (w * i + j) else old.toNat.testBit (w * i + j) := by
      have hlsb : ∀ y : BitVec 4096, y.toNat.testBit (w * i + j) = y.getLsbD (w * i + j) := fun _ => rfl
      rw [hlsb] at hbit ⊢
      rw [hlsb, hlsb, overlay]
      simp only [BitVec.getLsbD_or, BitVec.getLsbD_and, BitVec.getLsbD_not, hlt, decide_true, Bool.true_and, hbit]
      cases on <;> simp
    rw [hover]
    cases on <;> simp [testBit_elem, hj]
  · cases on <;> simp [testBit_elem, hj]

/-! ## Elements of a register or a pair (R168) -/

/-- Element `i` of the registers `g 0`, `g 1` of a type. -/
def elemAt (t : Ty) (g : Nat → Nat) (i : Nat) : Nat :=
  match t with
  | .f64 => elem (g 0) 32 i + 2 ^ 32 * elem (g 1) 32 i
  | t => elem (g 0) t.width i

theorem elemAt_single {t : Ty} (ht : t ≠ .f64) (g : Nat → Nat) (i : Nat) : elemAt t g i = elem (g 0) t.width i := by
  cases t with
  | f64 => exact absurd rfl ht
  | _ => rfl

theorem elemsOf_single {t : Ty} (ht : t ≠ .f64) (regs : List Nat) :
    elemsOf t regs = (List.range t.count).map fun i => elem (regs.getD 0 0) t.width i := by
  cases t with
  | f64 => exact absurd rfl ht
  | _ => rfl

theorem length_elemsOf (t : Ty) (regs : List Nat) : (elemsOf t regs).length = t.count := by
  by_cases ht : t = .f64
  · subst ht; simp [elemsOf, Ty.count]
  · simp [elemsOf_single ht]

theorem getD_map_range (n i : Nat) (f : Nat → Nat) (h : i < n) : ((List.range n).map f).getD i 0 = f i := by
  simp [List.getD_eq_getElem?_getD, h]

theorem elemsOf_getD {t : Ty} {i : Nat} (hi : i < t.count) (regs : List Nat) :
    (elemsOf t regs).getD i 0 = elemAt t (fun j => regs.getD j 0) i := by
  by_cases ht : t = .f64
  · subst ht; exact getD_map_range _ _ _ hi
  · rw [elemsOf_single ht, getD_map_range _ _ _ hi, elemAt_single ht]

/-- An element lies within its register. -/
theorem elem_within {t : Ty} (ht : t ≠ .f64) {i : Nat} (hi : i < t.count) : t.width * i + t.width ≤ 4096 := by
  cases t <;> simp only [Ty.width, Ty.count, ne_eq, not_true_eq_false] at * <;> omega

/-- The mask of the enabled lanes of one register. -/
theorem elem_maskRegs {t : Ty} (ht : t ≠ .f64) (en : Nat) {i : Nat} (hi : i < t.count) :
    elem (BitVec.ofNat 4096 ((maskRegs t en).getD 0 0)).toNat t.width i = if bit en i then 2 ^ t.width - 1 else 0 := by
  have hregs : ∀ l, (regsOf t l).getD 0 0 = packElems t.width l := fun l => by
    cases t with
    | f64 => exact absurd rfl ht
    | _ => rfl
  have := Nat.two_pow_pos t.width
  rw [elem_ofNat (elem_within ht hi), maskRegs, hregs, elem_packElems, getD_map_range _ _ _ hi]
  split
  · exact Nat.mod_eq_of_lt (by omega)
  · exact Nat.zero_mod _

/-- Results over what stood there, in the enabled lanes alone (R173). -/
theorem elemAt_overlay (t : Ty) (vals : List Nat) (en : Nat) (old : Nat → BitVec 4096) {i : Nat} (hi : i < t.count) :
    elemAt t (fun j => (overlay (old j) (BitVec.ofNat 4096 ((regsOf t vals).getD j 0))
      (BitVec.ofNat 4096 ((maskRegs t en).getD j 0))).toNat) i =
      if bit en i then vals.getD i 0 % 2 ^ t.width else elemAt t (fun j => (old j).toNat) i := by
  by_cases ht : t = .f64
  · subst ht
    have h32 : 32 * i + 32 ≤ 4096 := by simp only [Ty.count] at hi; omega
    have h128 : i < 128 := hi
    have m0 : elem (BitVec.ofNat 4096 ((maskRegs .f64 en).getD 0 0)).toNat 32 i =
        if bit en i then 2 ^ 32 - 1 else 0 := by
      rw [elem_ofNat h32]
      show elem (packElems 32 ((List.range 128).map fun j => if bit en j then 2 ^ 64 - 1 else 0)) 32 i = _
      rw [elem_packElems, getD_map_range _ _ _ h128]
      split <;> rfl
    have m1 : elem (BitVec.ofNat 4096 ((maskRegs .f64 en).getD 1 0)).toNat 32 i =
        if bit en i then 2 ^ 32 - 1 else 0 := by
      rw [elem_ofNat h32]
      show elem (packElems 32 (((List.range 128).map fun j => if bit en j then 2 ^ 64 - 1 else 0).map
        (· / 2 ^ 32))) 32 i = _
      rw [elem_packElems, List.map_map, getD_map_range _ _ _ h128, Function.comp]
      split <;> rfl
    show elem _ 32 i + 2 ^ 32 * elem _ 32 i = _
    rw [elem_overlay h32 _ _ _ _ m0, elem_overlay h32 _ _ _ _ m1, elem_ofNat h32, elem_ofNat h32]
    cases bit en i
    · rfl
    · show elem (packElems 32 vals) 32 i + 2 ^ 32 * elem (packElems 32 (vals.map (· / 2 ^ 32))) 32 i = _
      have hmap : (vals.map (· / 2 ^ 32)).getD i 0 = vals.getD i 0 / 2 ^ 32 := by
        rw [List.getD_eq_getElem?_getD, List.getD_eq_getElem?_getD, List.getElem?_map]
        cases vals[i]? <;> rfl
      rw [elem_packElems, elem_packElems, hmap]
      simp only [Ty.width, if_true]
      omega
  · have hw := elem_within ht hi
    have hregs : ∀ l, (regsOf t l).getD 0 0 = packElems t.width l := fun l => by
      cases t with
      | f64 => exact absurd rfl ht
      | _ => rfl
    rw [elemAt_single ht, elemAt_single ht, elem_overlay hw _ _ _ _ (elem_maskRegs ht en hi), elem_ofNat hw,
      hregs, elem_packElems]

/-! ## Reading operands (R39, R170) -/

/-- The strand of a word that has taken its tokens, while it reads its operands: other tokens and another LQ. -/
def reading (s : State) (st : Strand) (T : Tokens) (lq : List LqEntry) : Strand :=
  { atIssue s st with tok := T, lq := lq }

section
variable {s : State} {st : Strand} {T : Tokens} {lq lq' : List LqEntry}

theorem readReg_reading {r : Reg} (h : Readable st r) (e : Eng) (salt : Nat) :
    readReg (reading s st T lq) e salt r = .ok (regBits st r) := by
  have hr : Readable (reading s st T lq) r := ⟨by cases r <;> exact h.1, h.2⟩
  rw [readReg_ok hr]
  cases r <;> rfl

theorem latest_reading (r : Reg) : latest (reading s st T lq) r = latest st r :=
  latest_congr rfl (fun q => by cases q <;> rfl) r

theorem readGroupV_ok {n : BitVec 6} {k : Nat} (h : ∀ j < k, Readable st (.v (groupV st n j))) (salt : Nat) :
    readGroupV (reading s st T lq) salt n k =
      .ok ((List.range k).map fun j => (regBits st (.v (groupV st n j))).toNat) := by
  induction k with
  | zero => rfl
  | succ k ih =>
    have hk : groupV (reading s st T lq) n k = groupV st n k := rfl
    rw [readGroupV, ih fun j hj => h j (Nat.lt_succ_of_lt hj)]
    simp only [bind, Except.bind, hk, readReg_reading (h k (Nat.lt_succ_self k)), List.range_succ, List.map_append,
      List.map_cons, List.map_nil]

theorem headLq_ok {k : Nat} (hk : k ≤ lq.length)
    (h : ∀ y ∈ lq.take k, y.filled = true ∧ y.spec = false ∧ y.poison = false) :
    headLq (reading s st T lq) k = .ok ((lq.take k).map fun y => y.data.toNat) := by
  have hfill : ((lq.take k).all fun x => x.filled && !x.spec) = true := by
    rw [List.all_eq_true]
    intro y hy
    obtain ⟨h1, h2, -⟩ := h y hy
    rw [h1, h2]; rfl
  have hpoison : (lq.take k).any (·.poison) = false := by
    rw [List.any_eq_false]
    intro y hy
    rw [(h y hy).2.2]; exact Bool.false_ne_true
  have hlen : (lq.take k).length = k := by rw [List.length_take]; exact Nat.min_eq_left hk
  show (do
    await (decide ((lq.take k).length = k) && (lq.take k).all fun x => x.filled && !x.spec)
    check (!((lq.take k).any (·.poison))) _
    .ok ((lq.take k).map (·.data.toNat)) : Act (List Nat)) = _
  simp only [hlen, hfill, hpoison, await, check, bind, Except.bind, decide_true, Bool.and_self, Bool.not_false, if_true]

/-- An operand is read, and LQ is left as the operand leaves it. -/
theorem readSrc_ok {k : Nat} {x : VSrc} {regs : List Nat} (h : Source st k x lq regs lq') (salt : Nat) :
    readSrc (reading s st T lq) salt k x = .ok (regs, reading s st T lq') := by
  cases x with
  | v n =>
    obtain ⟨hr, rfl, rfl⟩ := h
    simp only [readSrc, readGroupV_ok hr, bind, Except.bind]
  | lq =>
    obtain ⟨⟨hk, hy, rfl⟩, rfl⟩ := h
    simp only [readSrc, headLq_ok hk hy, bind, Except.bind]
    rfl
  | lqKeep =>
    obtain ⟨⟨hk, hy, rfl⟩, rfl⟩ := h
    simp only [readSrc, headLq_ok hk hy, bind, Except.bind]
  | vz =>
    obtain ⟨rfl, rfl⟩ := h
    rfl

/-- The operands of a word of one type, each as its elements. -/
theorem readSrcs_ok {t : Ty} {xs : List VSrc} {ops : List (List Nat)}
    (h : Operands st (xs.map fun x => (t.regs, x)) lq ops lq') (salt : Nat) :
    readSrcs t (reading s st T lq) salt xs = .ok (ops.map (elemsOf t), reading s st T lq') := by
  induction xs generalizing lq ops salt with
  | nil => obtain ⟨rfl, rfl⟩ := h; rfl
  | cons x xs ih =>
    obtain ⟨regs, mid, ops', hx, hrest, rfl⟩ := h
    simp only [readSrcs, readSrc_ok hx, ih hrest, bind, Except.bind, List.map_cons]

/-- The lanes of a word, as bits of the number that a word of V works with (R172). -/
theorem lanesOf_ok {m : Mk} (h : LanesKnown st m) :
    ∃ en, lanesOf (reading s st T lq) m = .ok en ∧ ∀ i < 1024, bit en i = laneOn st m i := by
  obtain ⟨hem, hcm⟩ := h
  have key : ∀ (x : BitVec 4096) (i : Nat), bit x.toNat i = x.getLsbD i := fun x i => bit_eq_testBit _ _
  cases m with
  | all =>
    refine ⟨_, rfl, fun i hi => ?_⟩
    rw [bit_eq_testBit, Nat.testBit_two_pow_sub_one]
    exact decide_eq_true hi
  | em =>
    refine ⟨_, by simp only [lanesOf, readReg_reading (hem nofun), bind, Except.bind], fun i _ => key _ i⟩
  | emCm =>
    refine ⟨_, by simp only [lanesOf, readReg_reading (hem nofun), readReg_reading (hcm (.inl rfl)), bind,
      Except.bind]; rfl,
      fun i _ => ?_⟩
    rw [bit_eq_testBit, Nat.testBit_and]; rfl
  | emNotCm =>
    refine ⟨_, by simp only [lanesOf, readReg_reading (hem nofun), readReg_reading (hcm (.inr rfl)), bind,
      Except.bind]; rfl,
      fun i hi => ?_⟩
    rw [bit_eq_testBit, Nat.testBit_and, Nat.sub_sub, Nat.add_comm 1,
      Nat.testBit_two_pow_sub_succ (Nat.mod_lt _ (Nat.two_pow_pos _)),
      Nat.testBit_mod_two_pow, decide_eq_true hi, Bool.true_and, Bool.true_and]
    rfl

end

/-! ## Writing a destination (R39, R173) -/

theorem rotV_inj {st : Strand} {a b : BitVec 6} (h : rotV st a = rotV st b) : a = b := by
  apply BitVec.eq_of_toNat_eq
  have ha := a.isLt
  have hb := b.isLt
  have h' := congrArg BitVec.toNat h
  by_cases hp : (getEng st .v).ploop.isSome = true
  · simp only [rotV, hp, Bool.true_and, decide_eq_true_eq] at h'
    split at h'
    · split at h'
      · simp only [BitVec.toNat_ofNat] at h'; omega
      · simp only [BitVec.toNat_ofNat] at h'; omega
    · split at h'
      · simp only [BitVec.toNat_ofNat] at h'; omega
      · exact h'
  · simpa only [rotV, hp, Bool.false_and, Bool.false_eq_true, if_false] using h'

/-- The registers of a group are different ones. -/
theorem groupV_inj {st : Strand} {n : BitVec 6} {i j : Nat} (hi : i < 64) (hj : j < 64)
    (h : groupV st n i = groupV st n j) : i = j := by
  have h' := congrArg BitVec.toNat (rotV_inj h)
  simp only [BitVec.toNat_add, BitVec.toNat_ofNat] at h'
  have := n.isLt
  omega

theorem groupV_congr {st u : Strand} (h : getEng u .v = getEng st .v) (n : BitVec 6) (k : Nat) :
    groupV u n k = groupV st n k := by
  simp only [groupV, rotV, h]

/-- The latest value of a vector register after a masked result to it. -/
theorem latest_writeReg_v (clock : Nat) (st : Strand) (e : Eng) (lat : Nat) (n : BitVec 6) (x m : BitVec 4096) :
    latest (writeReg clock st e lat (.v n) x m) (.v n) = overlay (latest st (.v n)) x m := by
  have h := latest_writeReg_same clock st e lat (.v n) x m nofun
  have hw := sameIn_setWidth h 4096 rfl
  rw [BitVec.setWidth_eq, BitVec.setWidth_eq] at hw
  exact hw

/-- Results to a group of registers write those registers and nothing else. -/
theorem writeGroupV_same (clock : Nat) (lat : BitVec 4) (n : BitVec 6) (k : Nat) (l : List (Nat × Nat)) (st : Strand) :
    let u := writeGroupV clock st lat n k l
    restOf u = restOf st ∧ u.engs = st.engs ∧ allFlags u = allFlags st ∧
      ∀ r, (∀ j < l.length, r ≠ .v (groupV st n (k + j))) → latest u r = latest st r := by
  induction l generalizing st k with
  | nil => exact ⟨rfl, rfl, rfl, fun _ _ => rfl⟩
  | cons p t ih =>
    obtain ⟨x, m⟩ := p
    obtain ⟨h1, h2, h3⟩ := writeReg_same clock st .v lat.toNat (.v (groupV st n k)) (BitVec.ofNat 4096 x)
      (BitVec.ofNat 4096 m)
    obtain ⟨g1, g2, g3, g4⟩ := ih (k + 1) (writeReg clock st .v lat.toNat (.v (groupV st n k)) (BitVec.ofNat 4096 x)
      (BitVec.ofNat 4096 m))
    refine ⟨g1.trans h1, g2.trans h2, g3.trans h3, fun r hr => ?_⟩
    rw [writeGroupV, g4 r fun j hj => ?_]
    · exact latest_writeReg_other _ _ _ _ _ _ _ _ (hr 0 (Nat.succ_pos _))
    · rw [groupV_congr (st := st) (by simp only [getEng, h2])]
      have := hr (j + 1) (Nat.succ_lt_succ hj)
      rwa [Nat.add_comm j, ← Nat.add_assoc] at this

theorem latest_writeGroupV (clock : Nat) (lat : BitVec 4) (n : BitVec 6) (k : Nat) (l : List (Nat × Nat)) (st : Strand)
    (hk : k + l.length ≤ 64) {j : Nat} (hj : j < l.length) :
    latest (writeGroupV clock st lat n k l) (.v (groupV st n (k + j))) =
      overlay (latest st (.v (groupV st n (k + j)))) (BitVec.ofNat 4096 (l.getD j (0, 0)).1)
        (BitVec.ofNat 4096 (l.getD j (0, 0)).2) := by
  induction l generalizing st k j with
  | nil => exact absurd hj (Nat.not_lt_zero _)
  | cons p t ih =>
    obtain ⟨x, m⟩ := p
    have hE := (writeReg_same clock st .v lat.toNat (.v (groupV st n k)) (BitVec.ofNat 4096 x)
      (BitVec.ofNat 4096 m)).2.1
    have hgroup : ∀ i, groupV (writeReg clock st .v lat.toNat (.v (groupV st n k)) (BitVec.ofNat 4096 x)
        (BitVec.ofNat 4096 m)) n i = groupV st n i := fun i => groupV_congr (by simp only [getEng, hE]) n i
    simp only [List.length_cons] at hk hj
    rw [writeGroupV]
    cases j with
    | zero =>
      rw [(writeGroupV_same clock lat n (k + 1) t _).2.2.2 _ fun i hi => ?_]
      · exact latest_writeReg_v _ _ _ _ _ _ _
      · rw [hgroup]
        intro heq
        have := groupV_inj (by omega) (by omega) (Reg.v.inj heq)
        omega
    | succ j =>
      have hstep := ih (k + 1) (writeReg clock st .v lat.toNat (.v (groupV st n k)) (BitVec.ofNat 4096 x)
        (BitVec.ofNat 4096 m)) (by omega) (by omega : j < t.length)
      have hne : (Reg.v (groupV st n (k + 1 + j))) ≠ .v (groupV st n k) := fun heq => by
        have := groupV_inj (by omega) (by omega) (Reg.v.inj heq)
        omega
      rw [hgroup, latest_writeReg_other _ _ _ _ _ _ _ _ hne] at hstep
      rw [show k + (j + 1) = k + 1 + j by omega]
      exact hstep

/-- What a word leaves that has written `n` registers or entries, `x j` in the bits `m j` of each, over the
strand `v`. -/
structure DstWritten (v u : Strand) (d : VDst) (n : Nat) (x m : Nat → BitVec 4096) : Prop where
  engs : u.engs = v.engs
  flags : allFlags u = allFlags v
  rest : restOf u = restOf { v with sq := u.sq }
  sq_other : d ≠ .sq → u.sq = v.sq
  sq : d = .sq → u.sq = v.sq ++ (List.range n).map fun j => { data := x j &&& m j }
  regs_other : ∀ r, (∀ a, d = .v a → ∀ j < n, r ≠ .v (groupV v a j)) → latest u r = latest v r
  regs : ∀ a, d = .v a → ∀ j < n, latest u (.v (groupV v a j)) = overlay (latest v (.v (groupV v a j))) (x j) (m j)

/-- A destination with room takes its results. -/
theorem writeDst_ok (clock : Nat) {v : Strand} (lat : BitVec 4) {d : VDst} {n : Nat} {xs ms : List Nat} (hd : d ≠ .vcq)
    (hroom : DstRoom v d n) (hx : xs.length = n) (hm : ms.length = n) (hn : n ≤ 64) :
    ∃ u, writeDst clock v lat d xs ms = .ok u ∧
      DstWritten v u d n (fun j => BitVec.ofNat 4096 (xs.getD j 0)) (fun j => BitVec.ofNat 4096 (ms.getD j 0)) := by
  have hlen : (xs.zip ms).length = n := by rw [List.length_zip, hx, hm, Nat.min_self]
  have hget : ∀ j < n, (xs.zip ms)[j]? = some (xs.getD j 0, ms.getD j 0) := by
    intro j hj
    have h1 : j < xs.length := hx ▸ hj
    have h2 : j < ms.length := hm ▸ hj
    simp [List.getD_eq_getElem?_getD, h1, h2]
  cases d with
  | vcq => exact absurd rfl hd
  | v a =>
    have hout : ((List.range xs.length).any fun k => regOut v (.v (groupV v a k))) = false := by
      rw [List.any_eq_false]
      intro j hj
      rw [hroom j (hx ▸ List.mem_range.mp hj)]; exact Bool.false_ne_true
    obtain ⟨h1, h2, h3, h4⟩ := writeGroupV_same clock lat a 0 (xs.zip ms) v
    have hsq : (restOf (writeGroupV clock v lat a 0 (xs.zip ms))).sq = (restOf v).sq := by rw [h1]
    refine ⟨writeGroupV clock v lat a 0 (xs.zip ms), ?_, h2, h3, ?_, fun _ => hsq, nofun, fun r hr => ?_,
      fun b hb j hj => ?_⟩
    · simp only [writeDst, hout, await, bind, Except.bind]; rfl
    · rw [h1, show (writeGroupV clock v lat a 0 (xs.zip ms)).sq = v.sq from hsq]
    · refine h4 r fun j hj => ?_
      rw [Nat.zero_add]
      exact hr a rfl j (hlen ▸ hj)
    · obtain rfl := VDst.v.inj hb
      have := latest_writeGroupV clock lat a 0 (xs.zip ms) v (by rw [hlen]; omega) (by rw [hlen]; exact hj : j < _)
      rw [Nat.zero_add, List.getD_eq_getElem?_getD, hget j hj] at this
      exact this
  | sq =>
    obtain ⟨hfree, hpred⟩ := hroom
    have hlist : ((xs.zip ms).map fun p => p.1 &&& p.2).map (fun x => ({ data := BitVec.ofNat 4096 x } : SqEntry)) =
        (List.range n).map fun j =>
          { data := BitVec.ofNat 4096 (xs.getD j 0) &&& BitVec.ofNat 4096 (ms.getD j 0) } := by
      apply List.ext_getElem?
      intro j
      by_cases hj : j < n
      · simp only [List.getElem?_map, hget j hj, List.getElem?_range hj, Option.map_some, BitVec.ofNat_and]
      · rw [List.getElem?_eq_none (by simp only [List.length_map, hlen]; omega),
          List.getElem?_eq_none (by simp only [List.length_map, List.length_range]; omega)]
    have hawait : (decide (v.sq.length + ((xs.zip ms).map fun p => p.1 &&& p.2).length ≤ 8) &&
      v.pred.isNone) = true := by
      rw [List.length_map, hlen, hpred, decide_eq_true hfree]; rfl
    refine ⟨{ v with sq := v.sq ++ (List.range n).map fun j =>
        { data := BitVec.ofNat 4096 (xs.getD j 0) &&& BitVec.ofNat 4096 (ms.getD j 0) } }, ?_, rfl, rfl, rfl,
      fun h => absurd rfl h, fun _ => rfl, fun r _ => ?_, nofun⟩
    · simp only [writeDst, pushSq, hawait, await, bind, Except.bind, if_true, hlist]
    · exact latest_congr rfl (fun q => by cases q <;> rfl) r

/-! ## Words of V -/

/-- A word that leaves its strand as `st'`, charged, in a state whose other parts are those of `s1`. -/
theorem goes_of_charged {i : Instr} {s : State} {e : Eng} {st st1 st' : Strand} (h : AtEngine s e st) {tk : Tk}
    {body : Walker → Strand → State → Act State} (hx : exec i s = issueWith s tk body)
    (ht : takeTokens (atIssue s st) e (getEng st e).passed tk = .ok st1) (s1 s2 : State) {cost : Nat}
    (hb : body s.cur st1 (putStrand { s with freeCount := s.freeCount + 1 } (Walker.ref s.cur) st1) =
      .ok (chargeStrand (putStrand s1 (Walker.ref s.cur) (stepPast s2 st' e)) (Walker.ref s.cur) cost))
    (hE : getEng st' e = getEng st e) :
    ∃ t, Goes i s st e t (stepPast s2 st' e) ∧ t.mem = s1.mem ∧ t.cells = s1.cells ∧ t.ctxs = s1.ctxs ∧
      t.clock = s1.clock ∧ ∀ k, k ≠ SRef.key (Walker.ref s.cur) → fget t.strands k = fget s1.strands k := by
  have hrun : exec i s = .next (chargeStrand (putStrand s1 (Walker.ref s.cur) (stepPast s2 st' e))
      (Walker.ref s.cur) cost) := by
    rw [hx, issueWith_eq h, ht]
    simp only [bind, Except.bind]
    rw [hb]
  refine ⟨_, ⟨hrun, by simp, by simp [hE], by simp [hE]⟩, by simp, by simp, by simp, by simp, fun k hk => ?_⟩
  rw [chargeStrand_strands]
  exact fget_fset_other _ _ _ _ hk

/-- A word of V whose effect stays within its strand. -/
theorem goes_of_issueCharged {i : Instr} {s : State} {e : Eng} {st st1 st' : Strand} (h : AtEngine s e st) {tk : Tk}
    {cost : Nat} {body : Walker → Strand → Act Strand} (hx : exec i s = issueCharged s tk cost body)
    (ht : takeTokens (atIssue s st) e (getEng st e).passed tk = .ok st1) (hb : body s.cur st1 = .ok st')
    (hE : getEng st' e = getEng st e) :
    ∃ t, Goes i s st e t (stepPast s st' e) ∧ SameElsewhere s t := by
  obtain ⟨t, hg, hm, hc, hctx, hk, ho⟩ := goes_of_charged h hx ht
    (putStrand { s with freeCount := s.freeCount + 1 } (Walker.ref s.cur) st1) s (st' := st') (cost := cost)
    (by simp only [hb, h.1, bind, Except.bind]; rfl) hE
  exact ⟨t, hg, hm, hc, hctx, hk, fun k hk => (ho k hk).trans (fget_fset_other _ _ _ _ hk)⟩

/-- A word of V that has taken its tokens waits. -/
theorem stalls_of_issueCharged {i : Instr} {s : State} {e : Eng} {st st1 : Strand} (h : AtEngine s e st) {tk : Tk}
    {cost : Nat} {body : Walker → Strand → Act Strand} (hx : exec i s = issueCharged s tk cost body)
    (ht : takeTokens (atIssue s st) e (getEng st e).passed tk = .ok st1) (hb : body s.cur st1 = .error .stall) :
    exec i s = .next s := by
  rw [hx, issueCharged, issueWith_eq h, ht]
  simp only [hb, bind, Except.bind]

/-- A word that has taken its tokens and whose body raises a fault. -/
theorem traps_of_issueWith {i : Instr} {s : State} {e : Eng} {st st1 : Strand} (h : AtEngine s e st) {tk : Tk}
    {body : Walker → Strand → State → Act State} (hx : exec i s = issueWith s tk body)
    (ht : takeTokens (atIssue s st) e (getEng st e).passed tk = .ok st1) {t : Trap}
    (hb : body s.cur st1 (putStrand { s with freeCount := s.freeCount + 1 } (Walker.ref s.cur) st1) = .error (.trap t))
    (hu : t.unit = none) : Traps i s st e t.cause t.addr := by
  refine traps_of_raiseWord h t hu ?_
  rw [hx, issueWith_eq h, ht]
  simp only [bind, Except.bind]
  rw [hb]

/-- The strand of a word whose tokens are there, as it begins to read its operands. -/
theorem takeTokens_reading {s : State} {st : Strand} {e : Eng} {tk : Tk} (h : TokensReady st e tk) :
    ∃ T, takeTokens (atIssue s st) e (getEng st e).passed tk = .ok (reading s st T st.lq) := by
  obtain ⟨T, hT, -⟩ := takeTokens_ready (st := atIssue s st) h (getEng st e).passed
  exact ⟨T, hT⟩

/-! ## What a destination holds after a word -/

/-- A strand that a word has read its operands from, and raised flags on, is the one it found but for tokens and LQ. -/
structure AsRead (st v : Strand) (lq : List LqEntry) : Prop where
  engs : v.engs = st.engs
  lq : v.lq = lq
  rest : restOf v = restOf { st with lq := v.lq, tok := v.tok }
  latest : ∀ r, latest v r = latest st r

theorem asRead_reading (s : State) (st : Strand) (T : Tokens) (lq : List LqEntry) : AsRead st (reading s st T lq) lq :=
  ⟨rfl, rfl, rfl, fun r => latest_reading r⟩

theorem allFlags_raiseFlags (st : Strand) (pos : Nat) (f : BitVec 6) :
    allFlags (raiseFlags st pos f) = allFlags st ||| f := by
  unfold raiseFlags
  split
  · next h => rw [h]; simp
  · simp only [allFlags, List.foldl_append, List.foldl_cons, List.foldl_nil]

theorem AsRead.flagV {st v : Strand} {lq : List LqEntry} (h : AsRead st v lq) (f : BitVec 6) :
    AsRead st (flagV v f) lq := by
  unfold Machine.flagV raiseFlags
  split
  · exact h
  · exact ⟨h.engs, h.lq, h.rest, fun r => (latest_congr rfl (fun q => by cases q <;> rfl) r).trans (h.latest r)⟩

section
variable {st v u : Strand} {lq : List LqEntry} {d : VDst} {n : Nat} {x m : Nat → BitVec 4096}

/-- A destination with room has it while its word is under way. -/
theorem AsRead.dstRoom (h : AsRead st v lq) (hroom : DstRoom st d n) : DstRoom v d n := by
  have hE : getEng v .v = getEng st .v := by simp only [getEng, h.engs]
  have hout : (restOf v).vOut = (restOf st).vOut := by rw [h.rest]; rfl
  have hsq : (restOf v).sq = (restOf st).sq := by rw [h.rest]; rfl
  have hpred : (restOf v).pred = (restOf st).pred := by rw [h.rest]; rfl
  have hvcq : (restOf v).vcq = (restOf st).vcq := by rw [h.rest]; rfl
  cases d with
  | v a =>
    intro j hj
    rw [groupV_congr hE, ← hroom j hj]
    exact congrArg (fun y : BitVec 64 => y.getLsbD _) hout
  | sq => exact ⟨(congrArg (fun y => y.length + n) hsq).trans_le hroom.1, hpred.trans hroom.2⟩
  | vcq => exact (congrArg List.length hvcq).trans_lt hroom

/-- The rest of the strand after a word of V. -/
theorem DstWritten.dstFrame (hw : DstWritten v u d n x m) (h : AsRead st v lq) :
    DstFrame st u d n := by
  have hE : getEng v .v = getEng st .v := by simp only [getEng, h.engs]
  have hvsq : v.sq = st.sq := by
    have : (restOf v).sq = (restOf st).sq := by rw [h.rest]; rfl
    exact this
  have hrest : restOf u = restOf { st with lq := v.lq, tok := v.tok, sq := u.sq } :=
    hw.rest.trans (congrArg (fun y : Strand => { y with sq := u.sq }) h.rest)
  have hvcq : (restOf u).vcq = (restOf st).vcq := by rw [hrest]; rfl
  refine ⟨fun r hr => ?_, fun hne => (hw.sq_other hne).trans hvsq, fun _ => hvcq, fun hsq => ?_, ?_⟩
  · rw [hw.regs_other r fun a ha j hj => by rw [groupV_congr hE]; exact hr a ha j hj, h.latest]
  · refine ⟨_, by rw [hw.sq hsq, hvsq], by rw [List.length_map, List.length_range], fun y hy => ?_⟩
    obtain ⟨j, -, rfl⟩ := List.mem_map.mp hy
    rfl
  · have hqV : (restOf u).qV = (restOf st).qV := by rw [hrest]; rfl
    have htok : (restOf u).tok = v.tok := by rw [hrest]; rfl
    have hlq : (restOf u).lq = v.lq := by rw [hrest]; rfl
    rw [hrest, show u.lq = v.lq from hlq, show u.tok = v.tok from htok, show u.vcq = st.vcq from hvcq,
      show u.qV = st.qV from hqV]

theorem DstWritten.lq_eq (hw : DstWritten v u d n x m) (h : AsRead st v lq) : u.lq = lq := by
  have : (restOf u).lq = (restOf v).lq := by rw [hw.rest]; rfl
  exact Eq.trans this h.lq

theorem DstWritten.qV_eq (hw : DstWritten v u d n x m) (h : AsRead st v lq) : u.qV = st.qV := by
  have h1 : (restOf u).qV = (restOf v).qV := by rw [hw.rest]; rfl
  have h2 : (restOf v).qV = (restOf st).qV := by rw [h.rest]; rfl
  exact Eq.trans h1 h2

/-- Each register or entry of the destination: the masked bits of the result over what stood there. -/
theorem DstWritten.dstAfter (hw : DstWritten v u d n x m) (h : AsRead st v lq) (hd : d ≠ .vcq) :
    dstAfter st u d n = (List.range n).map fun j =>
      (overlay (BitVec.ofNat 4096 ((dstBefore st d n).getD j 0)) (x j) (m j)).toNat := by
  have hE : getEng v .v = getEng st .v := by simp only [getEng, h.engs]
  cases d with
  | vcq => exact absurd rfl hd
  | v a =>
    refine List.map_congr_left fun j hj => ?_
    have hj' := List.mem_range.mp hj
    have hreg := hw.regs a rfl j hj'
    rw [groupV_congr hE, h.latest] at hreg
    rw [hreg, dstBefore, getD_map_range _ _ _ hj', BitVec.ofNat_toNat, BitVec.setWidth_eq]
  | sq =>
    have hvsq : v.sq = st.sq := by
      have : (restOf v).sq = (restOf st).sq := by rw [h.rest]; rfl
      exact this
    have hlist := hw.sq rfl
    rw [hvsq] at hlist
    simp only [Claims.dstAfter, hlist, List.drop_left, List.map_map]
    refine List.map_congr_left fun j hj => ?_
    have hj' := List.mem_range.mp hj
    have hzero : (dstBefore st .sq n).getD j 0 = 0 := by simp [dstBefore, List.getD_eq_getElem?_getD, hj']
    rw [hzero, show BitVec.ofNat 4096 0 = 0#4096 from rfl]
    simp only [Function.comp, overlay, BitVec.zero_and, BitVec.zero_or]

/-- Moving past a word changes nothing that a frame speaks of. -/
theorem dstAfter_stepPast (s : State) (st u : Strand) (e : Eng) (d : VDst) (n : Nat) :
    Claims.dstAfter st (stepPast s u e) d n = Claims.dstAfter st u d n := by
  cases d <;> simp only [Claims.dstAfter, latest_stepPast] <;> rfl

theorem dstFrame_stepPast {s : State} {e : Eng} (h : DstFrame st u d n) : DstFrame st (stepPast s u e) d n := by
  obtain ⟨h1, h2, h3, h4, h5⟩ := h
  exact ⟨fun r hr => (latest_stepPast _ _ _ _).trans (h1 r hr), h2, h3, h4, h5⟩

end

end Sys2Proof.Proofs


namespace Sys2Proof.Proofs

open Host (Outcome)
open Sys2Proof Machine Claims

/-! ## Operands one by one -/

/-- A register or LQ entry is of 4096 bits. -/
theorem source_getD_lt {st : Strand} {k : Nat} {x : VSrc} {lq lq' : List LqEntry} {regs : List Nat}
    (h : Source st k x lq regs lq') (j : Nat) : regs.getD j 0 < 2 ^ 4096 := by
  have bound : ∀ l : List (BitVec 4096), (l.map BitVec.toNat).getD j 0 < 2 ^ 4096 := by
    intro l
    rw [List.getD_eq_getElem?_getD, List.getElem?_map]
    cases l[j]? with
    | none => exact Nat.two_pow_pos _
    | some y => exact y.isLt
  cases x with
  | v n =>
    obtain ⟨-, -, rfl⟩ := h
    have := bound ((List.range k).map fun j => regBits st (.v (groupV st n j)))
    rwa [List.map_map] at this
  | lq =>
    obtain ⟨⟨-, -, rfl⟩, -⟩ := h
    have := bound ((lq.take k).map (·.data))
    rwa [List.map_map] at this
  | lqKeep =>
    obtain ⟨⟨-, -, rfl⟩, -⟩ := h
    have := bound ((lq.take k).map (·.data))
    rwa [List.map_map] at this
  | vz =>
    obtain ⟨rfl, -⟩ := h
    have hzero : (List.replicate k 0).getD j 0 = 0 := by
      rw [List.getD_eq_getElem?_getD, List.getElem?_replicate]
      split <;> rfl
    rw [hzero]
    exact Nat.two_pow_pos _

theorem operands_one {st : Strand} {k : Nat} {x : VSrc} {lq lq' : List LqEntry} {ops : List (List Nat)}
    (h : Operands st [(k, x)] lq ops lq') : ∃ regs, Source st k x lq regs lq' ∧ ops = [regs] := by
  obtain ⟨regs, mid, ops', hs, ⟨rfl, rfl⟩, rfl⟩ := h
  exact ⟨regs, hs, rfl⟩

theorem operands_two {st : Strand} {k₁ k₂ : Nat} {x y : VSrc} {lq lq' : List LqEntry} {ops : List (List Nat)}
    (h : Operands st [(k₁, x), (k₂, y)] lq ops lq') :
    ∃ as mid bs, Source st k₁ x lq as mid ∧ Source st k₂ y mid bs lq' ∧ ops = [as, bs] := by
  obtain ⟨as, mid, ops', hs, hrest, rfl⟩ := h
  obtain ⟨bs, hs2, rfl⟩ := operands_one hrest
  exact ⟨as, mid, bs, hs, hs2, rfl⟩

/-! ## Index vectors (R112, R197) -/

/-- What a word does with the index vector that its operand and lanes form. -/
def indexBody (c : VCtl) (a : VSrc) (push : Strand → IndexVec → Act Strand) (st : Strand) : Act Strand := do
  let (l, st) ← readSrc st 0 1 a
  let en ← lanesOf st c.lanes
  push st ⟨BitVec.ofNat 128 en, BitVec.ofNat 4096 (l.getD 0 0)⟩

theorem formIndex_eq (s : State) (c : VCtl) (a : VSrc) (push : Strand → IndexVec → Act Strand) :
    formIndex s c a push = issueCharged s c.h.tk (costV c.ty 80) fun _ st => indexBody c a push st := rfl

section
variable {s : State} {st : Strand} {c : VCtl} {a : VSrc} {lq' : List LqEntry} {ops : List (List Nat)}

/-- The index vector of a word. -/
theorem indexBody_ok (T : Tokens) (hops : Operands st [(1, a)] st.lq ops lq') (hl : LanesKnown st c.lanes) :
    ∃ x : IndexVec, x.idx.toNat = (ops.getD 0 []).getD 0 0 ∧ (∀ j < 128, x.en.getLsbD j = laneOn st c.lanes j) ∧
      ∀ push : Strand → IndexVec → Act Strand,
        indexBody c a push (reading s st T st.lq) = push (reading s st T lq') x := by
  obtain ⟨regs, hsrc, rfl⟩ := operands_one hops
  obtain ⟨en, hen, hbits⟩ := lanesOf_ok (s := s) (T := T) (lq := lq') hl
  refine ⟨⟨BitVec.ofNat 128 en, BitVec.ofNat 4096 (regs.getD 0 0)⟩, ?_, fun j hj => ?_, fun push => ?_⟩
  · rw [BitVec.toNat_ofNat]
    exact Nat.mod_eq_of_lt (source_getD_lt hsrc 0)
  · rw [BitVec.getLsbD_ofNat, decide_eq_true hj, Bool.true_and, ← bit_eq_testBit, hbits j (by omega)]
  · simp only [indexBody, readSrc_ok hsrc, hen, bind, Except.bind]

/-- A word whose queue takes its index vector. -/
theorem index_sent {i : Instr} {push : Strand → IndexVec → Act Strand} {put : Strand → IndexVec → Strand}
    (h : AtEngine s .v st) (htk : TokensReady st .v c.h.tk) (hops : Operands st [(1, a)] st.lq ops lq')
    (hl : LanesKnown st c.lanes) (hx : exec i s = formIndex s c a push)
    (hpush : ∀ T x, push (reading s st T lq') x = .ok (put (reading s st T lq') x))
    (hput : ∀ v x, (put v x).engs = v.engs ∧ (put v x).lq = v.lq ∧ ∀ r, latest (put v x) r = latest v r) :
    ∃ t x T, VDone i s st lq' t (stepPast s (put (reading s st T lq') x) .v) ∧ x.idx.toNat = (ops.getD 0 []).getD 0 0 ∧
      (∀ j < 128, x.en.getLsbD j = laneOn st c.lanes j) ∧
      ∀ r, latest (stepPast s (put (reading s st T lq') x) .v) r = latest st r := by
  obtain ⟨T, hT⟩ := takeTokens_reading (s := s) htk
  obtain ⟨x, hidx, hen, hbody⟩ := indexBody_ok (s := s) T hops hl
  obtain ⟨hengs, hlq, hlatest⟩ := hput (reading s st T lq') x
  have hE : ∀ e, getEng (put (reading s st T lq') x) e = getEng st e := fun e => by
    simp only [getEng, hengs]; rfl
  obtain ⟨t, hg, hse⟩ := goes_of_issueCharged h (hx.trans (formIndex_eq _ _ _ _)) hT ((hbody push).trans (hpush T x))
    (hE .v)
  refine ⟨t, x, T, ⟨hg, hlq, hse, fun e he => ?_⟩, hidx, hen, fun r => ?_⟩
  · rw [getEng_stepPast_other _ _ _ _ he, hE]
  · rw [latest_stepPast, hlatest, latest_reading]

/-- A word whose queue is full waits. -/
theorem index_waits {i : Instr} {push : Strand → IndexVec → Act Strand} (h : AtEngine s .v st)
    (htk : TokensReady st .v c.h.tk) (hops : Operands st [(1, a)] st.lq ops lq') (hl : LanesKnown st c.lanes)
    (hx : exec i s = formIndex s c a push) (hpush : ∀ T x, push (reading s st T lq') x = .error .stall) :
    exec i s = .next s := by
  obtain ⟨T, hT⟩ := takeTokens_reading (s := s) htk
  obtain ⟨x, -, -, hbody⟩ := indexBody_ok (s := s) T hops hl
  exact stalls_of_issueCharged h (hx.trans (formIndex_eq _ _ _ _)) hT ((hbody push).trans (hpush T x))

end

/-- The queue of index vectors holds four, with the places that L may give back (R111, R122). -/
def IndexFull (st : Strand) (q : Strand → List IndexVec) (keeps : Bool) : Prop :=
  4 ≤ (q st).length + (match st.lean with | some ln => if keeps then ln.iql.length else 0 | none => 0)

theorem indexFull_iff (st : Strand) (q : Strand → List IndexVec) : IndexFull st q false ↔ ¬ (q st).length < 4 := by
  unfold IndexFull
  cases st.lean <;> simp

def putFiq (st : Strand) (x : IndexVec) : Strand := { st with fiq := st.fiq ++ [x] }
def putIql (st : Strand) (x : IndexVec) : Strand := { st with iql := st.iql ++ [x] }
def putIqs (st : Strand) (x : IndexVec) : Strand := { st with iqs := st.iqs ++ [x] }

/-- The places of L's queue that a leaning arm may give back. -/
def heldIql (st : Strand) : Nat := match st.lean with | some ln => ln.iql.length | none => 0

theorem indexFull_iql_iff (st : Strand) : IndexFull st (·.iql) true ↔ ¬ st.iql.length + heldIql st < 4 := by
  unfold IndexFull heldIql
  cases st.lean <;> simp

def pushFiq (st : Strand) (x : IndexVec) : Act Strand := do
  await (decide (st.fiq.length < 4))
  .ok (putFiq st x)

def pushIql (st : Strand) (x : IndexVec) : Act Strand := do
  await (decide (st.iql.length + heldIql st < 4))
  .ok (putIql st x)

def pushIqs (st : Strand) (x : IndexVec) : Act Strand := do
  await (decide (st.iqs.length < 4))
  .ok (putIqs st x)

theorem exec_vtoix (c : VCtl) (a : VSrc) (s : State) : exec (.vtoix c a) s = formIndex s c a pushFiq := rfl
theorem exec_vtol (c : VCtl) (a : VSrc) (s : State) : exec (.vtol c a) s = formIndex s c a pushIql := rfl
theorem exec_vtos (c : VCtl) (a : VSrc) (s : State) : exec (.vtos c a) s = formIndex s c a pushIqs := rfl

theorem await_bind_true {α : Type} {b : Bool} (h : b = true) (x : Act α) : (do await b; x) = x := by
  subst h; rfl

theorem await_bind_false {α : Type} {b : Bool} (h : b = false) (x : Act α) : (do await b; x) = .error .stall := by
  subst h; rfl

theorem stepPast_queues (s : State) (st : Strand) (e : Eng) : (stepPast s st e).fiq = st.fiq ∧
    (stepPast s st e).iql = st.iql ∧ (stepPast s st e).iqs = st.iqs ∧ (stepPast s st e).sq = st.sq :=
  ⟨rfl, rfl, rfl, rfl⟩

/-- R112, R197: the three sends, each by the room of its queue. -/
theorem indexSends : IndexSends := by
  intro s st c a ops lq' h htk hops hl
  refine ⟨fun hfull => ?_, fun hfull => ?_, fun hfull => ?_, fun hfull => ?_, fun hfull => ?_, fun hfull => ?_⟩
  · have hroom : st.fiq.length < 4 := not_not.mp fun hn => hfull ((indexFull_iff st (·.fiq)).mpr hn)
    obtain ⟨t, x, T, hd, hidx, hen, hlat⟩ := index_sent (put := putFiq) h htk hops hl (exec_vtoix c a s)
      (fun T x => await_bind_true (decide_eq_true hroom) _)
      (fun v x => ⟨rfl, rfl, latest_congr rfl fun q => by cases q <;> rfl⟩)
    obtain ⟨hfiq, hiql, hiqs, hsq⟩ := stepPast_queues s (putFiq (reading s st T lq') x) .v
    refine ⟨t, _, x, hd, hfiq, fun p hp => ?_, hidx, hen, hlat, hsq, allFlags_stepPast _ _ _⟩
    rcases List.mem_pair.mp hp with rfl | rfl
    · exact hiql
    · exact hiqs
  · have hroom : st.iql.length + heldIql st < 4 := not_not.mp fun hn => hfull ((indexFull_iql_iff st).mpr hn)
    obtain ⟨t, x, T, hd, hidx, hen, hlat⟩ := index_sent (put := putIql) h htk hops hl (exec_vtol c a s)
      (fun T x => await_bind_true (decide_eq_true hroom) _)
      (fun v x => ⟨rfl, rfl, latest_congr rfl fun q => by cases q <;> rfl⟩)
    obtain ⟨hfiq, hiql, hiqs, hsq⟩ := stepPast_queues s (putIql (reading s st T lq') x) .v
    refine ⟨t, _, x, hd, hiql, fun p hp => ?_, hidx, hen, hlat, hsq, allFlags_stepPast _ _ _⟩
    rcases List.mem_pair.mp hp with rfl | rfl
    · exact hfiq
    · exact hiqs
  · have hroom : st.iqs.length < 4 := not_not.mp fun hn => hfull ((indexFull_iff st (·.iqs)).mpr hn)
    obtain ⟨t, x, T, hd, hidx, hen, hlat⟩ := index_sent (put := putIqs) h htk hops hl (exec_vtos c a s)
      (fun T x => await_bind_true (decide_eq_true hroom) _)
      (fun v x => ⟨rfl, rfl, latest_congr rfl fun q => by cases q <;> rfl⟩)
    obtain ⟨hfiq, hiql, hiqs, hsq⟩ := stepPast_queues s (putIqs (reading s st T lq') x) .v
    refine ⟨t, _, x, hd, hiqs, fun p hp => ?_, hidx, hen, hlat, hsq, allFlags_stepPast _ _ _⟩
    rcases List.mem_pair.mp hp with rfl | rfl
    · exact hfiq
    · exact hiql
  · exact index_waits h htk hops hl (exec_vtoix c a s) fun T x =>
      await_bind_false (decide_eq_false ((indexFull_iff st (·.fiq)).mp hfull)) _
  · exact index_waits h htk hops hl (exec_vtol c a s) fun T x =>
      await_bind_false (decide_eq_false ((indexFull_iql_iff st).mp hfull)) _
  · exact index_waits h htk hops hl (exec_vtos c a s) fun T x =>
      await_bind_false (decide_eq_false ((indexFull_iff st (·.iqs)).mp hfull)) _

/-! ## Accumulator columns (R53, R196) -/

/-- The check of a column of the accumulator store. -/
theorem accColumn_eq {s : State} {cell part : Nat} {b : List Nat} {k : Nat} (hk : b.getD 0 0 % 2 ^ 32 = k) :
    accColumn s cell part b =
      if k % 2 = 0 ∧ k < 1024 then (if (getCell s cell).mu = some part then .ok k else .error (.trap (foreignTrap k)))
      else .error (.trap (opField k)) := by
  have h1 : (k % 2 == 0 && decide (k < 1024)) = decide (k % 2 = 0 ∧ k < 1024) := by
    rw [Bool.decide_and]; rfl
  simp only [accColumn, hk, h1, check, bind, Except.bind]
  by_cases hok : k % 2 = 0 ∧ k < 1024
  · rw [if_pos hok, decide_eq_true hok, if_pos rfl]
    by_cases hmu : (getCell s cell).mu = some part
    · rw [if_pos hmu, hmu, beq_self_eq_true, if_pos rfl]
    · rw [if_neg hmu, if_neg (by simpa using hmu)]; rfl
  · rw [if_neg hok, decide_eq_false hok, if_neg Bool.false_ne_true]; rfl

/-- An element of a window of a number. -/
theorem elem_window {a n w i : Nat} (h : w * i + w ≤ n) (x j : Nat) (ha : a = w * j) :
    elem (x / 2 ^ a % 2 ^ n) w i = elem x w (j + i) := by
  subst ha
  apply Nat.eq_of_testBit_eq
  intro k
  rw [testBit_elem, testBit_elem, Nat.testBit_mod_two_pow, Nat.testBit_div_two_pow]
  by_cases hk : k < w
  · rw [decide_eq_true (show w * i + k < n by omega), Bool.true_and, Nat.mul_add,
      show w * i + k + w * j = w * j + w * i + k by omega]
  · rw [decide_eq_false hk, Bool.false_and, Bool.false_and]

/-- Two elements side by side are a window of twice the width. -/
theorem elem_add_elem (x w q : Nat) : elem x w q + 2 ^ w * elem x w (q + 1) = x / 2 ^ (w * q) % 2 ^ (w + w) := by
  rw [Nat.pow_add, Nat.mod_mul, Nat.div_div_eq_div_mul, ← Nat.pow_add, ← Nat.mul_succ]
  rfl

/-- Two columns side by side. -/
def pairBits (x q : Nat) : Nat := elem x 2048 q + 2 ^ 2048 * elem x 2048 (q + 1)

/-- Element `i` of a pair of columns: rows of the first, then of the second. -/
theorem elem_pairBits (x q : Nat) {i : Nat} (hi : i < 128) : elem (pairBits x q) 32 i = elem x 32 (64 * q + i) := by
  rw [pairBits, elem_add_elem]
  exact elem_window (by omega) x (64 * q) (by omega)

/-- What `vaccrd` does at issue. -/
def vaccrdBody (clock : Nat) (c : VCtl) (d : VDst) (b : VSrc) (w : Walker) (st : Strand) (s : State) : Act State := do
  let (bs, st) ← readSrc st 0 1 b
  let en ← lanesOf st c.lanes
  let col ← accColumn s w.cell st.part bs
  let x := raceTile st (BitVec.ofNat 4 (col / 64))
  await (!x.held || x.phys.isSome)
  check (!x.poison) (tilePoison st (BitVec.ofNat 4 (col / 64)))
  let st ← writeDst clock st c.h.lat d [pairBits x.data.toNat (col % 64)] (maskRegs c.ty en)
  .ok (chargeStrand (putStrand s (Walker.ref w) (stepPast s st .v)) (Walker.ref w) (costV c.ty 80))

theorem exec_vaccrd (c : VCtl) (d : VDst) (b : VSrc) (s : State) :
    exec (.vaccrd c d b) s = issueWith s c.h.tk (vaccrdBody s.clock c d b) := rfl

/-- What `vaccwr` does at issue. -/
def vaccwrBody (c : VCtl) (a b : VSrc) (w : Walker) (st : Strand) (s : State) : Act State := do
  let (as, st) ← readSrc st 0 1 a
  let (bs, st) ← readSrc st 2 1 b
  let en ← lanesOf st c.lanes
  let col ← accColumn s w.cell st.part bs
  let n := BitVec.ofNat 4 (col / 64)
  let (st, s) ← needTile s w.cell st n
  let changes := (List.range 128).filterMap fun i =>
    if bit en i then some (64 * (col % 64) + i, elem (as.getD 0 0) 32 i) else none
  let st := patchTile st n fun x => BitVec.ofNat 131072 (setElems x.toNat changes)
  .ok (chargeStrand (putStrand s (Walker.ref w) (stepPast s st .v)) (Walker.ref w) (costV c.ty 80))

theorem exec_vaccwr (c : VCtl) (a b : VSrc) (s : State) :
    exec (.vaccwr c a b) s = issueWith s c.h.tk (vaccwrBody c a b) := rfl

section
variable {s t : State} {st v : Strand} {c : VCtl} {a b : VSrc} {d : VDst} {w : Walker} {as bs : List Nat} {en k : Nat}
  {clock : Nat} {st1 : Strand}

/-- A column that fails its check raises what the check raises. -/
theorem vaccrdBody_trap {f : Trap} (hsrc : readSrc st 0 1 b = .ok (bs, v)) (hen : lanesOf v c.lanes = .ok en)
    (hcol : accColumn s w.cell v.part bs = .error (.trap f)) :
    vaccrdBody clock c d b w st s = .error (.trap f) := by
  simp only [vaccrdBody, hsrc, hen, hcol, bind, Except.bind]

theorem vaccrdBody_ok {u : Strand} {x : AccTile} (hsrc : readSrc st 0 1 b = .ok (bs, v))
    (hen : lanesOf v c.lanes = .ok en) (hcol : accColumn s w.cell v.part bs = .ok k)
    (hx : raceTile v (BitVec.ofNat 4 (k / 64)) = x) (hheld : x.held = true → x.phys ≠ none) (hpoison : x.poison = false)
    (hw : writeDst clock v c.h.lat d [pairBits x.data.toNat (k % 64)] (maskRegs c.ty en) = .ok u) :
    vaccrdBody clock c d b w st s =
      .ok (chargeStrand (putStrand s (Walker.ref w) (stepPast s u .v)) (Walker.ref w) (costV c.ty 80)) := by
  have hthere : (!x.held || x.phys.isSome) = true := by
    cases hh : x.held
    · rfl
    · rw [Option.isSome_iff_ne_none.mpr (hheld hh)]; rfl
  simp only [vaccrdBody, hsrc, hen, hcol, hx, hthere, hpoison, hw, await, check, bind, Except.bind, Bool.not_false,
    if_true]

theorem vaccwrBody_trap {f : Trap} (ha : readSrc st 0 1 a = .ok (as, st1)) (hb : readSrc st1 2 1 b = .ok (bs, v))
    (hen : lanesOf v c.lanes = .ok en) (hcol : accColumn s w.cell v.part bs = .error (.trap f)) :
    vaccwrBody c a b w st s = .error (.trap f) := by
  simp only [vaccwrBody, ha, hb, hen, hcol, bind, Except.bind]

/-- The elements that `vaccwr` writes. -/
def columnChanges (en k x : Nat) : List (Nat × Nat) :=
  (List.range 128).filterMap fun i => if bit en i then some (64 * (k % 64) + i, elem x 32 i) else none

theorem vaccwrBody_ok (ha : readSrc st 0 1 a = .ok (as, st1)) (hb : readSrc st1 2 1 b = .ok (bs, v))
    (hen : lanesOf v c.lanes = .ok en) (hcol : accColumn s w.cell v.part bs = .ok k)
    (hheld : (getAcc v (BitVec.ofNat 4 (k / 64))).held = true)
    (hphys : (getAcc v (BitVec.ofNat 4 (k / 64))).phys ≠ none) :
    vaccwrBody c a b w st s = .ok (chargeStrand (putStrand s (Walker.ref w) (stepPast s
      (patchTile v (BitVec.ofNat 4 (k / 64)) fun x => BitVec.ofNat 131072
        (setElems x.toNat (columnChanges en k (as.getD 0 0)))) .v)) (Walker.ref w) (costV c.ty 80)) := by
  have hneed : needTile s w.cell v (BitVec.ofNat 4 (k / 64)) = .ok (v, s) := by
    have hsome : (getAcc v (BitVec.ofNat 4 (k / 64))).phys.isNone = false := by
      cases hp : (getAcc v (BitVec.ofNat 4 (k / 64))).phys with
      | none => exact absurd hp hphys
      | some _ => rfl
    simp only [needTile, hheld, hsome, Bool.not_true, Bool.false_eq_true, if_false]
  simp only [vaccwrBody, ha, hb, hen, hcol, hneed, bind, Except.bind]
  rfl

end

/-! ### Tiles -/

/-- The bits of a number put together from three parts. -/
theorem testBit_three {hi e lo w p : Nat} (he : e < 2 ^ w) (hlo : lo < 2 ^ p) (k : Nat) :
    ((hi * 2 ^ w + e) * 2 ^ p + lo).testBit k =
      if k < p then lo.testBit k else if k - p < w then e.testBit (k - p) else hi.testBit (k - p - w) := by
  rw [Nat.mul_comm _ (2 ^ p), Nat.testBit_two_pow_mul_add _ hlo, Nat.mul_comm hi, Nat.testBit_two_pow_mul_add _ he]

/-- One element replaced; the others stay. -/
theorem elem_replace (x i v j : Nat) :
    elem (x - elem x 32 i * 2 ^ (32 * i) + v % 2 ^ 32 * 2 ^ (32 * i)) 32 j =
      if j = i then v % 2 ^ 32 else elem x 32 j := by
  have hp := Nat.two_pow_pos (32 * i)
  obtain ⟨hi, lo, hlo, hx⟩ : ∃ hi lo, lo < 2 ^ (32 * i) ∧ x = (hi * 2 ^ 32 + elem x 32 i) * 2 ^ (32 * i) + lo := by
    refine ⟨x / 2 ^ (32 * i) / 2 ^ 32, x % 2 ^ (32 * i), Nat.mod_lt _ hp, ?_⟩
    rw [elem, Nat.div_add_mod', Nat.div_add_mod']
  have hlt := elem_lt x 32 i
  have hvlt : v % 2 ^ 32 < 2 ^ 32 := Nat.mod_lt _ (Nat.two_pow_pos 32)
  generalize elem x 32 i = e at *
  generalize v % 2 ^ 32 = y at *
  have hnew : x - e * 2 ^ (32 * i) + y * 2 ^ (32 * i) = (hi * 2 ^ 32 + y) * 2 ^ (32 * i) + lo := by
    subst hx
    simp only [Nat.add_mul]
    omega
  apply Nat.eq_of_testBit_eq
  intro t
  have hbit : ∀ z : Nat, (if j = i then y else z).testBit t = if j = i then y.testBit t else z.testBit t := fun z => by
    split <;> rfl
  rw [hbit, testBit_elem, testBit_elem, hnew, testBit_three hvlt hlo]
  by_cases ht : t < 32
  · rw [hx, testBit_three hlt hlo]
    rcases Nat.lt_trichotomy j i with hji | hji | hji
    · rw [if_pos (show 32 * j + t < 32 * i by omega), if_neg (Nat.ne_of_lt hji),
        if_pos (show 32 * j + t < 32 * i by omega)]
    · subst hji
      rw [if_neg (show ¬ 32 * j + t < 32 * j by omega), if_pos (show 32 * j + t - 32 * j < 32 by omega), if_pos rfl,
        decide_eq_true ht, Bool.true_and, Nat.add_sub_cancel_left]
    · rw [if_neg (show ¬ 32 * j + t < 32 * i by omega), if_neg (show ¬ 32 * j + t - 32 * i < 32 by omega),
        if_neg (Nat.ne_of_gt hji), if_neg (show ¬ 32 * j + t < 32 * i by omega),
        if_neg (show ¬ 32 * j + t - 32 * i < 32 by omega)]
  · have hy : y.testBit t = false := by
      refine Nat.testBit_lt_two_pow (Nat.lt_of_lt_of_le hvlt (Nat.pow_le_pow_right (by decide) (by omega)))
    rw [decide_eq_false ht, Bool.false_and, Bool.false_and, hy, ite_self]

theorem elem_setElems_other {l : List (Nat × Nat)} {j : Nat} (h : ∀ p ∈ l, p.1 ≠ j) (x : Nat) :
    elem (setElems x l) 32 j = elem x 32 j := by
  induction l generalizing x with
  | nil => rfl
  | cons p t ih =>
    rw [setElems, ih fun q hq => h q (.tail _ hq), elem_replace, if_neg (h p (.head _)).symm]

theorem elem_setElems_mem {l : List (Nat × Nat)} (hl : (l.map (·.1)).Nodup) {j v : Nat} (h : (j, v) ∈ l) (x : Nat) :
    elem (setElems x l) 32 j = v % 2 ^ 32 := by
  induction l generalizing x with
  | nil => cases h
  | cons p t ih =>
    obtain ⟨hp, ht⟩ := List.nodup_cons.mp hl
    rcases List.mem_cons.mp h with rfl | h
    · rw [setElems, elem_setElems_other, elem_replace, if_pos rfl]
      rintro q hq rfl
      exact hp (List.mem_map.mpr ⟨q, hq, rfl⟩)
    · rw [setElems, ih ht h]

/-- The elements of a pair of columns after `vaccwr`, and that no other element changes. -/
theorem elem_columnChanges (en k y x : Nat) :
    (∀ i < 128, elem (setElems x (columnChanges en k y)) 32 (64 * (k % 64) + i) =
      if bit en i then elem y 32 i else elem x 32 (64 * (k % 64) + i)) ∧
    ∀ j, (j < 64 * (k % 64) ∨ 64 * (k % 64) + 128 ≤ j) →
      elem (setElems x (columnChanges en k y)) 32 j = elem x 32 j := by
  have hmem : ∀ p, p ∈ columnChanges en k y ↔
      ∃ i < 128, bit en i = true ∧ p = (64 * (k % 64) + i, elem y 32 i) := by
    intro p
    simp only [columnChanges, List.mem_filterMap, List.mem_range, Option.ite_none_right_eq_some, Option.some.injEq]
    exact ⟨fun ⟨i, hi, hb, he⟩ => ⟨i, hi, hb, he.symm⟩, fun ⟨i, hi, hb, he⟩ => ⟨i, hi, hb, he.symm⟩⟩
  have hnodup : ((columnChanges en k y).map (·.1)).Nodup := by
    rw [columnChanges, List.map_filterMap]
    refine List.Nodup.filterMap (fun i i' z hz hz' => ?_) List.nodup_range
    simp only [Option.mem_def, Option.map_eq_some_iff, Option.ite_none_right_eq_some, Option.some.injEq] at hz hz'
    obtain ⟨p, ⟨-, rfl⟩, rfl⟩ := hz
    obtain ⟨p', ⟨-, rfl⟩, hq⟩ := hz'
    simp only at hq
    omega
  refine ⟨fun i hi => ?_, fun j hj => elem_setElems_other (fun p hp => ?_) x⟩
  · by_cases hb : bit en i = true
    · rw [if_pos hb, elem_setElems_mem hnodup ((hmem _).mpr ⟨i, hi, hb, rfl⟩), Nat.mod_eq_of_lt (elem_lt _ _ _)]
    · rw [if_neg hb]
      refine elem_setElems_other (fun p hp => ?_) x
      obtain ⟨i', -, hb', rfl⟩ := (hmem p).mp hp
      intro heq
      have : i' = i := by simp only at heq; omega
      exact hb (this ▸ hb')
  · obtain ⟨i, hi, -, rfl⟩ := (hmem p).mp hp
    simp only
    omega

theorem getAcc_putAcc (st : Strand) (n m : BitVec 4) (x : AccTile) :
    getAcc (putAcc st n x) m = if m = n then x else getAcc st m := by
  by_cases h : m = n
  · subst h; rw [if_pos rfl]; exact vget_set_same _ _ _ m.toFin.isLt
  · rw [if_neg h]; exact vget_set_other _ _ _ _ n.toFin.isLt (toFin_ne h)

/-- Without words under way that write it, a tile is read as it stands (R53). -/
theorem raceTile_eq {st : Strand} {n : BitVec 4} (h : tileOlds st n = []) : raceTile st n = getAcc st n := by
  simp only [raceTile, h]
  rfl

/-! ### `vaccrd` and `vaccwr` -/

theorem elemsOf_w32 {t : Ty} (hw : t.width = 32) (ht : t ≠ .f64) :
    t.count = 128 ∧ t.regs = 1 ∧ ∀ regs i, i < 128 → (elemsOf t regs).getD i 0 = elem (regs.getD 0 0) 32 i := by
  have hc : t.count = 128 ∧ t.regs = 1 := by
    cases t with
    | f64 => exact absurd rfl ht
    | b | i32 | u32 | f32 => exact ⟨rfl, rfl⟩
    | _ => exact absurd hw (by decide)
  refine ⟨hc.1, hc.2, fun regs i hi => ?_⟩
  rw [elemsOf_getD (by rw [hc.1]; exact hi), elemAt_single ht, hw]

/-- The state in which a word of V reads its operands: its strand has taken the tokens. -/
def issuedV (s : State) (st : Strand) (T : Tokens) : State :=
  putStrand { s with freeCount := s.freeCount + 1 } (Walker.ref s.cur) (reading s st T st.lq)

section
variable {s : State} {st : Strand} {c : VCtl} {d : VDst} {a b : VSrc} {k : Nat} {lq' : List LqEntry}
  {ops : List (List Nat)}

/-- A word of V that leaves its strand as `u`, charged, and changes nothing outside it. -/
theorem vDone_of_charged {i : Instr} {tk : Tk} {body : Walker → Strand → State → Act State} {T : Tokens} {u : Strand}
    {cost : Nat} (h : AtEngine s .v st) (hx : exec i s = issueWith s tk body)
    (hT : takeTokens (atIssue s st) .v (getEng st .v).passed tk = .ok (reading s st T st.lq))
    (hb : body s.cur (reading s st T st.lq) (issuedV s st T) =
      .ok (chargeStrand (putStrand (issuedV s st T) (Walker.ref s.cur) (stepPast (issuedV s st T) u .v))
        (Walker.ref s.cur) cost))
    (hE : u.engs = st.engs) : ∃ t, VDone i s st u.lq t (stepPast (issuedV s st T) u .v) := by
  obtain ⟨t, hg, hm, hc, hctx, hk, ho⟩ := goes_of_charged h hx hT _ _ hb (by simp only [getEng, hE])
  refine ⟨t, hg, rfl, ⟨hm, hc, hctx, hk, fun n hn => ?_⟩, fun e he => ?_⟩
  · exact (ho n hn).trans (fget_fset_other _ _ _ _ hn)
  · rw [getEng_stepPast_other _ _ _ _ he]
    simp only [getEng, hE]

/-- R53, R196: `vaccrd` gives the enabled lanes the pair of columns. -/
theorem vaccrd_reads (h : AtEngine s .v st) (htk : TokensReady st .v c.h.tk) (hl : LanesKnown st c.lanes)
    (hw : c.ty.width = 32) (ht : c.ty ≠ .f64) (hops : Operands st [(1, b)] st.lq ops lq')
    (hcol : (ops.getD 0 []).getD 0 0 % 2 ^ 32 = k) (heven : k % 2 = 0) (hlt : k < 1024)
    (hmu : (getCell s s.cur.cell).mu = some st.part)
    (hheld : (getAcc st (BitVec.ofNat 4 (k / 64))).held = true → (getAcc st (BitVec.ofNat 4 (k / 64))).phys ≠ none)
    (hpoison : (getAcc st (BitVec.ofNat 4 (k / 64))).poison = false)
    (hold : tileOlds st (BitVec.ofNat 4 (k / 64)) = []) (hd : d ≠ .vcq) (hroom : DstRoom st d 1) :
    ∃ t u, VDone (.vaccrd c d b) s st lq' t u ∧ DstFrame st u d 1 ∧ allFlags u = allFlags st ∧
      ∀ i < 128, (elemsOf c.ty (dstAfter st u d 1)).getD i 0 =
        if laneOn st c.lanes i then elem (getAcc st (BitVec.ofNat 4 (k / 64))).data.toNat 32 (64 * (k % 64) + i)
        else (elemsOf c.ty (dstBefore st d 1)).getD i 0 := by
  obtain ⟨hcount, -, helems⟩ := elemsOf_w32 hw ht
  obtain ⟨T, hT⟩ := takeTokens_reading (s := s) htk
  obtain ⟨bs, hsrc, rfl⟩ := operands_one hops
  obtain ⟨en, hen, hbits⟩ := lanesOf_ok (s := s) (T := T) (lq := lq') hl
  have hread := asRead_reading s st T lq'
  have hmasks : (maskRegs c.ty en).length = 1 := by
    cases hty : c.ty with
    | f64 => exact absurd hty ht
    | _ => rfl
  obtain ⟨u, hu, hwr⟩ := writeDst_ok s.clock c.h.lat hd (hread.dstRoom hroom)
    (xs := [pairBits (getAcc st (BitVec.ofNat 4 (k / 64))).data.toNat (k % 64)]) rfl hmasks (by decide)
  have hcol' : bs.getD 0 0 % 2 ^ 32 = k := hcol
  have hcell : accColumn (issuedV s st T) s.cur.cell (reading s st T lq').part bs = .ok k := by
    rw [accColumn_eq hcol', if_pos ⟨heven, hlt⟩]
    exact if_pos hmu
  obtain ⟨t, hdone⟩ := vDone_of_charged h (exec_vaccrd c d b s) hT
    (vaccrdBody_ok (readSrc_ok hsrc 0) hen hcell (x := getAcc st (BitVec.ofNat 4 (k / 64))) (raceTile_eq hold) hheld
      hpoison hu) hwr.engs
  rw [hwr.lq_eq hread] at hdone
  refine ⟨t, _, hdone, dstFrame_stepPast (hwr.dstFrame hread), (allFlags_stepPast _ _ _).trans hwr.flags,
    fun i hi => ?_⟩
  have hmask := elem_maskRegs ht en (show i < c.ty.count by omega)
  rw [hw] at hmask
  rw [dstAfter_stepPast, hwr.dstAfter hread hd, helems _ _ hi, helems _ _ hi]
  show elem (overlay _ (BitVec.ofNat 4096 (pairBits _ _)) _).toNat 32 i = _
  rw [elem_overlay (by omega) _ _ _ _ hmask, hbits i (by omega), elem_ofNat (by omega), elem_pairBits _ _ hi,
    elem_ofNat (by omega)]

/-- R53, R196: what the check of a column raises, `vaccrd` raises. -/
theorem vaccrd_traps (h : AtEngine s .v st) (htk : TokensReady st .v c.h.tk) (hl : LanesKnown st c.lanes)
    (hops : Operands st [(1, b)] st.lq ops lq') (hcol : (ops.getD 0 []).getD 0 0 % 2 ^ 32 = k) :
    ((k % 2 ≠ 0 ∨ 1024 ≤ k) → Traps (.vaccrd c d b) s st .v .opField k) ∧
    (k % 2 = 0 → k < 1024 → (getCell s s.cur.cell).mu ≠ some st.part → Traps (.vaccrd c d b) s st .v .foreign k) := by
  obtain ⟨T, hT⟩ := takeTokens_reading (s := s) htk
  obtain ⟨bs, hsrc, rfl⟩ := operands_one hops
  obtain ⟨en, hen, -⟩ := lanesOf_ok (s := s) (T := T) (lq := lq') hl
  have hcol' : bs.getD 0 0 % 2 ^ 32 = k := hcol
  refine ⟨fun hbad => ?_, fun heven hlt hmu => ?_⟩
  · exact traps_of_issueWith h (exec_vaccrd c d b s) hT (vaccrdBody_trap (readSrc_ok hsrc 0) hen
      ((accColumn_eq hcol').trans (if_neg (by omega)))) rfl
  · exact traps_of_issueWith h (exec_vaccrd c d b s) hT (vaccrdBody_trap (readSrc_ok hsrc 0) hen
      ((accColumn_eq hcol').trans ((if_pos ⟨heven, hlt⟩).trans (if_neg hmu)))) rfl

/-- A patch of a tile leaves the other tiles, and its own but for the data. -/
theorem patchTile_same (v : Strand) (n : BitVec 4) (f : BitVec 131072 → BitVec 131072) :
    (patchTile v n f).engs = v.engs ∧ (patchTile v n f).lq = v.lq ∧ (patchTile v n f).sq = v.sq ∧
      (∀ r, latest (patchTile v n f) r = latest v r) ∧
      ∀ m, getAcc (patchTile v n f) m = if m = n then { getAcc v n with data := f (getAcc v n).data } else getAcc v m :=
  ⟨rfl, rfl, rfl, latest_congr rfl fun q => by cases q <;> rfl, fun m => getAcc_putAcc v n m _⟩

theorem getAcc_stepPast (s' : State) (v : Strand) (e : Eng) (n : BitVec 4) :
    getAcc (stepPast s' v e) n = getAcc v n := rfl

/-- R53, R196: `vaccwr` writes the pair of columns in the enabled lanes. -/
theorem vaccwr_writes (h : AtEngine s .v st) (htk : TokensReady st .v c.h.tk) (hl : LanesKnown st c.lanes)
    (hw : c.ty.width = 32) (ht : c.ty ≠ .f64) (hops : Operands st [(1, a), (1, b)] st.lq ops lq')
    (hcol : (ops.getD 1 []).getD 0 0 % 2 ^ 32 = k) (heven : k % 2 = 0) (hlt : k < 1024)
    (hmu : (getCell s s.cur.cell).mu = some st.part) (hheld : (getAcc st (BitVec.ofNat 4 (k / 64))).held = true)
    (hphys : (getAcc st (BitVec.ofNat 4 (k / 64))).phys ≠ none) :
    let tile := BitVec.ofNat 4 (k / 64)
    ∃ t u, VDone (.vaccwr c a b) s st lq' t u ∧ (∀ r, latest u r = latest st r) ∧ u.sq = st.sq ∧
      (∀ n, n ≠ tile → getAcc u n = getAcc st n) ∧ (getAcc u tile).phys = (getAcc st tile).phys ∧
      (getAcc u tile).held = true ∧
      (∀ i < 128, elem (getAcc u tile).data.toNat 32 (64 * (k % 64) + i) =
        if laneOn st c.lanes i then arg c.ty ops 0 i else elem (getAcc st tile).data.toNat 32 (64 * (k % 64) + i)) ∧
      ∀ j < 4096, (j < 64 * (k % 64) ∨ 64 * (k % 64) + 128 ≤ j) →
        elem (getAcc u tile).data.toNat 32 j = elem (getAcc st tile).data.toNat 32 j := by
  obtain ⟨-, -, helems⟩ := elemsOf_w32 hw ht
  obtain ⟨T, hT⟩ := takeTokens_reading (s := s) htk
  obtain ⟨as, mid, bs, hsrc, hsrc2, rfl⟩ := operands_two hops
  obtain ⟨en, hen, hbits⟩ := lanesOf_ok (s := s) (T := T) (lq := lq') hl
  have hcol' : bs.getD 0 0 % 2 ^ 32 = k := hcol
  have hcell : accColumn (issuedV s st T) s.cur.cell (reading s st T lq').part bs = .ok k := by
    rw [accColumn_eq hcol', if_pos ⟨heven, hlt⟩]
    exact if_pos hmu
  obtain ⟨hengs, hlq, hsq, hlatest, hacc⟩ := patchTile_same (reading s st T lq') (BitVec.ofNat 4 (k / 64)) fun x =>
    BitVec.ofNat 131072 (setElems x.toNat (columnChanges en k (as.getD 0 0)))
  obtain ⟨t, hdone⟩ := vDone_of_charged h (exec_vaccwr c a b s) hT
    (vaccwrBody_ok (readSrc_ok hsrc 0) (readSrc_ok hsrc2 2) hen hcell hheld hphys) hengs
  rw [hlq] at hdone
  have hsame := hacc (BitVec.ofNat 4 (k / 64))
  rw [if_pos rfl] at hsame
  obtain ⟨hin, hout⟩ := elem_columnChanges en k (as.getD 0 0) (getAcc st (BitVec.ofNat 4 (k / 64))).data.toNat
  refine ⟨t, _, hdone, fun r => ?_, hsq, fun n hn => ?_, ?_, ?_, fun i hi => ?_, fun j hj hc => ?_⟩
  · rw [latest_stepPast, hlatest, latest_reading]
  · exact (hacc n).trans (if_neg hn)
  · rw [getAcc_stepPast, hsame]; rfl
  · rw [getAcc_stepPast, hsame]; exact hheld
  · rw [getAcc_stepPast, hsame]
    refine (elem_ofNat (by omega) _).trans ((hin i hi).trans ?_)
    rw [hbits i (by omega)]
    exact if_congr Iff.rfl (helems _ i hi).symm rfl
  · rw [getAcc_stepPast, hsame]
    exact (elem_ofNat (by omega) _).trans (hout j hc)

theorem vaccwr_traps (h : AtEngine s .v st) (htk : TokensReady st .v c.h.tk) (hl : LanesKnown st c.lanes)
    (hops : Operands st [(1, a), (1, b)] st.lq ops lq') (hcol : (ops.getD 1 []).getD 0 0 % 2 ^ 32 = k)
    (hbad : k % 2 ≠ 0 ∨ 1024 ≤ k) : Traps (.vaccwr c a b) s st .v .opField k := by
  obtain ⟨T, hT⟩ := takeTokens_reading (s := s) htk
  obtain ⟨as, mid, bs, hsrc, hsrc2, rfl⟩ := operands_two hops
  obtain ⟨en, hen, -⟩ := lanesOf_ok (s := s) (T := T) (lq := lq') hl
  have hcol' : bs.getD 0 0 % 2 ^ 32 = k := hcol
  exact traps_of_issueWith h (exec_vaccwr c a b s) hT (vaccwrBody_trap (readSrc_ok hsrc 0) (readSrc_ok hsrc2 2) hen
    ((accColumn_eq hcol').trans (if_neg (by omega)))) rfl

end

/-- R53, R196: both words, by the check of their column. -/
theorem accumulatorColumns : AccumulatorColumns := by
  intro s st c d a b k h htk hl col tile x pair hw ht
  refine ⟨fun ops lq' hops hcol => ⟨fun heven hlt hmu hheld hpoison hold hd hroom => ?_, ?_⟩,
    fun ops lq' hops hcol => ⟨fun heven hlt hmu hheld hphys => ?_, ?_⟩⟩
  · exact vaccrd_reads h htk hl hw ht hops hcol heven hlt hmu hheld hpoison hold hd hroom
  · exact vaccrd_traps h htk hl hops hcol
  · exact vaccwr_writes h htk hl hw ht hops hcol heven hlt hmu hheld hphys
  · exact vaccwr_traps h htk hl hops hcol

/-! ## Spilled registers (R199, R200) -/

/-- The value that is kept of a spilled register. -/
def keptSpill (l : List (Nat × Parked × Row)) (m : Nat) : Option Row := (l.find? fun e => e.1 == m).map fun e => e.2.2

theorem keptSpill_filter (l : List (Nat × Parked × Row)) (n m : Nat) :
    keptSpill (l.filter fun e => e.1 != n) m = if m = n then none else keptSpill l m := by
  have hpred : ∀ e : Nat × Parked × Row, decide ((e.1 != n) = true ∧ (e.1 == m) = true) =
      if m = n then false else e.1 == m := by
    intro e
    rw [Bool.decide_and, Bool.decide_eq_true, Bool.decide_eq_true]
    by_cases hm : m = n
    · rw [if_pos hm, ← hm, bne, Bool.not_and_self]
    · rw [if_neg hm]
      by_cases he : e.1 = m
      · rw [he, beq_self_eq_true, Bool.and_true, bne_iff_ne]; exact hm
      · rw [beq_eq_false_iff_ne.mpr he, Bool.and_false]
  simp only [keptSpill, List.find?_filter, hpred]
  split
  · simp
  · rfl

theorem keptSpill_append (l : List (Nat × Parked × Row)) (n : Nat) (p : Parked) (x : Row) (m : Nat) :
    keptSpill (l.filter (fun e => e.1 != n) ++ [(n, p, x)]) m = if m = n then some x else keptSpill l m := by
  have h := keptSpill_filter l n m
  unfold keptSpill at h ⊢
  rw [List.find?_append]
  by_cases hm : m = n
  · subst hm
    rw [if_pos rfl, Option.map_eq_none_iff] at h
    rw [h, if_pos rfl, Option.none_or, List.find?_cons_of_pos (by exact beq_self_eq_true m)]
    rfl
  · rw [if_neg hm] at h ⊢
    rw [List.find?_cons_of_neg (by simpa using fun hn : n = m => hm hn.symm), List.find?_nil, Option.or_none, h]

/-- The register that a word of V names. -/
theorem groupV_zero (st : Strand) (a : BitVec 6) : groupV st a 0 = rotV st a := by
  rw [groupV, show BitVec.ofNat 6 0 = 0#6 from rfl, BitVec.add_zero]

/-- The state after a spill of `x` from register `n`: parked in the save area, it is written to memory. -/
def spilledTo (s : State) (area : Nat) (p : Parked) (n : BitVec 6) (x : Row) : State :=
  if p = .save then saveSpill s area n.toNat x else s

/-- The place that a spilled register is kept at. -/
def spillPlace (w : Walker) (st : Strand) (s : State) (n : BitVec 6) : Parked :=
  match spillOf st n with
  | some e => e.2.1
  | none => parkPlace s (Walker.ref w) st.part

/-- The strand once `x` is kept for register `n`. -/
def spilled (st : Strand) (n : BitVec 6) (p : Parked) (x : Row) : Strand :=
  { st with spill := st.spill.filter (fun e => e.1 != n.toNat) ++ [(n.toNat, p, x)] }

/-- What `vspill` does at issue. -/
def vspillBody (a : BitVec 6) (w : Walker) (st : Strand) (s : State) : Act State := do
  let x ← readReg st .v 0 (.v (rotV st a))
  let p := spillPlace w st s (rotV st a)
  let s := spilledTo s st.area p (rotV st a) x
  .ok (chargeStrand (putStrand s (Walker.ref w) (stepPast s (spilled st (rotV st a) p x) .v)) (Walker.ref w)
    (centiNj 80))

theorem exec_vspill (tk : Tk) (a : BitVec 6) (s : State) : exec (.vspill tk a) s = issueWith s tk (vspillBody a) := rfl

/-- The strand once register `n` has no value kept. -/
def unspilled (st : Strand) (n : BitVec 6) : Strand := { st with spill := st.spill.filter fun x => x.1 != n.toNat }

/-- What `vfill` does at issue. -/
def vfillBody (clock : Nat) (d : VDst) (a : BitVec 6) (w : Walker) (st : Strand) (s : State) : Act State :=
  match spillOf st (rotV st a) with
  | none => trap (opField 0)
  | some e => do
    let u ← writeDst clock st 15 d [e.2.2.toNat] [2 ^ 4096 - 1]
    .ok (chargeStrand (putStrand s (Walker.ref w) (stepPast s (unspilled u (rotV st a)) .v)) (Walker.ref w)
      (centiNj 80))

theorem exec_vfill (tk : Tk) (d : VDst) (a : BitVec 6) (s : State) :
    exec (.vfill tk d a) s = issueWith s tk (vfillBody s.clock d a) := rfl

theorem memWrite_same (s : State) (pa n v : Nat) : (memWrite s pa n v).cells = s.cells ∧
    (memWrite s pa n v).ctxs = s.ctxs ∧ (memWrite s pa n v).clock = s.clock ∧
      (memWrite s pa n v).strands = s.strands := ⟨rfl, rfl, rfl, rfl⟩

theorem spilledTo_same (s : State) (area : Nat) (p : Parked) (n : BitVec 6) (x : Row) :
    let t := spilledTo s area p n x
    t.cells = s.cells ∧ t.ctxs = s.ctxs ∧ t.clock = s.clock ∧ t.strands = s.strands := by
  intro t
  simp only [t, spilledTo]
  split
  · exact memWrite_same _ _ _ _
  · exact ⟨rfl, rfl, rfl, rfl⟩

/-- A spill writes the register's row of the save area, or nothing. -/
theorem spilledTo_mem {s : State} (hwf : memWf s.mem = true) (area : Nat) (p : Parked) (n : BitVec 6) (x : Row) :
    let t := spilledTo s area p n x
    let place := area + 0x18000 + 512 * n.toNat
    (t.mem = s.mem ∨ readN t.mem place 512 = x.toNat) ∧
      ∀ j, (j < place ∨ place + 512 ≤ j) → mread t.mem j = mread s.mem j := by
  intro t place
  simp only [t, spilledTo]
  split
  · refine ⟨.inr ?_, fun j hj => memWrite_outside _ _ _ _ _ hj⟩
    have hpow : ∀ m, 2 ^ (8 * m) = 256 ^ m := fun m => Nat.pow_mul 2 8 m
    have hlt : x.toNat < 256 ^ 512 := lt_of_lt_of_eq x.isLt (hpow 512)
    rw [saveSpill, memWrite_mem, readN_writeN hwf, Nat.mod_eq_of_lt hlt]
  · exact ⟨.inl rfl, fun _ _ => rfl⟩

section
variable {s : State} {st : Strand} {tk : Tk} {d : VDst} {a : BitVec 6}

theorem spill_stepPast (s' : State) (v : Strand) (e : Eng) : (stepPast s' v e).spill = v.spill ∧
    (stepPast s' v e).lq = v.lq := ⟨rfl, rfl⟩

/-- R199, R200: `vspill` keeps the register's value by its number. -/
theorem vspill_keeps (h : AtEngine s .v st) (htk : TokensReady st .v tk) (hr : Readable st (.v (rotV st a)))
    (hwf : memWf s.mem = true) :
    let n := (rotV st a).toNat
    let place := st.area + 0x18000 + 512 * n
    ∃ t u, Goes (.vspill tk a) s st .v t u ∧ u.lq = st.lq ∧ SameOthers .v st u ∧
      SameElsewhere { s with mem := t.mem } t ∧
      (t.mem = s.mem ∨ readN t.mem place 512 = (regBits st (.v (rotV st a))).toNat) ∧
      (∀ j, (j < place ∨ place + 512 ≤ j) → mread t.mem j = mread s.mem j) ∧
      (∀ r, latest u r = latest st r) ∧ u.sq = st.sq ∧
      ∀ m, keptSpill u.spill m = if m = n then some (regBits st (.v (rotV st a))) else keptSpill st.spill m := by
  intro n place
  obtain ⟨T, hT⟩ := takeTokens_reading (s := s) htk
  let p := spillPlace s.cur (reading s st T st.lq) (issuedV s st T) (rotV st a)
  let s1 := spilledTo (issuedV s st T) st.area p (rotV st a) (regBits st (.v (rotV st a)))
  let v := spilled (reading s st T st.lq) (rotV st a) p (regBits st (.v (rotV st a)))
  have hrot : rotV (reading s st T st.lq) a = rotV st a := rfl
  have hbody : vspillBody a s.cur (reading s st T st.lq) (issuedV s st T) =
      .ok (chargeStrand (putStrand s1 (Walker.ref s.cur) (stepPast s1 v .v)) (Walker.ref s.cur) (centiNj 80)) := by
    simp only [vspillBody, hrot, readReg_reading hr, bind, Except.bind]
    rfl
  obtain ⟨t, hg, hm, hc, hctx, hk, ho⟩ := goes_of_charged h (exec_vspill tk a s) hT s1 s1 hbody rfl
  obtain ⟨hc1, hctx1, hk1, hs1⟩ := spilledTo_same (issuedV s st T) st.area p (rotV st a) (regBits st (.v (rotV st a)))
  obtain ⟨hmem, hout⟩ := spilledTo_mem (s := issuedV s st T) hwf st.area p (rotV st a) (regBits st (.v (rotV st a)))
  obtain ⟨hspill, hlq⟩ := spill_stepPast s1 v .v
  refine ⟨t, _, hg, hlq, fun e he => getEng_stepPast_other _ _ _ _ he,
    ⟨rfl, hc.trans hc1, hctx.trans hctx1, hk.trans hk1, fun x hx => ?_⟩, ?_, fun j hj => ?_, fun r => ?_,
    (stepPast_queues _ _ _).2.2.2, fun m => ?_⟩
  · rw [ho x hx, hs1]
    exact fget_fset_other _ _ _ _ hx
  · rw [hm]; exact hmem
  · rw [hm]; exact hout j hj
  · rw [latest_stepPast]
    exact latest_congr rfl (fun q => by cases q <;> rfl) r
  · rw [hspill]; exact keptSpill_append _ _ _ _ _

theorem overlay_full (old x : BitVec 4096) : overlay old x (BitVec.ofNat 4096 (2 ^ 4096 - 1)) = x := by
  have hones : ∀ n, BitVec.ofNat n (2 ^ n - 1) = BitVec.allOnes n := fun n => BitVec.eq_of_toNat_eq (by
    rw [BitVec.toNat_ofNat, BitVec.toNat_allOnes, Nat.mod_eq_of_lt (Nat.sub_lt (Nat.two_pow_pos n) one_pos)])
  rw [hones, overlay_allOnes]

/-- R199, R200: `vfill` gives back the kept value, which is then kept no more. -/
theorem vfill_gives (h : AtEngine s .v st) (htk : TokensReady st .v tk) {x : Row}
    (hx : keptSpill st.spill (rotV st a).toNat = some x) (hd : d ≠ .vcq) (hroom : DstRoom st d 1) :
    ∃ t u, VDone (.vfill tk d a) s st st.lq t u ∧ dstAfter st u d 1 = [x.toNat] ∧
      (∀ m, keptSpill u.spill m = if m = (rotV st a).toNat then none else keptSpill st.spill m) ∧
      (∀ r, (∀ m, d = .v m → r ≠ .v (groupV st m 0)) → latest u r = latest st r) := by
  obtain ⟨T, hT⟩ := takeTokens_reading (s := s) htk
  obtain ⟨e, hfind, hval⟩ := Option.map_eq_some_iff.mp hx
  have hread := asRead_reading s st T st.lq
  obtain ⟨u, hu, hwr⟩ := writeDst_ok s.clock 15 hd (hread.dstRoom hroom) (xs := [x.toNat]) (ms := [2 ^ 4096 - 1])
    rfl rfl
    (by decide)
  have hrot : rotV (reading s st T st.lq) a = rotV st a := rfl
  have hspillOf : spillOf (reading s st T st.lq) (rotV st a) = some e := hfind
  have hbody : vfillBody s.clock d a s.cur (reading s st T st.lq) (issuedV s st T) =
      .ok (chargeStrand (putStrand (issuedV s st T) (Walker.ref s.cur)
        (stepPast (issuedV s st T) (unspilled u (rotV st a)) .v)) (Walker.ref s.cur) (centiNj 80)) := by
    simp only [vfillBody, hrot, hspillOf, hval, hu, bind, Except.bind]
  obtain ⟨t, hdone⟩ := vDone_of_charged h (exec_vfill tk d a s) hT hbody hwr.engs
  have hlq : (unspilled u (rotV st a)).lq = st.lq := hwr.lq_eq hread
  rw [hlq] at hdone
  have hlat : ∀ r, latest (stepPast (issuedV s st T) (unspilled u (rotV st a)) .v) r = latest u r := fun r =>
    (latest_stepPast _ _ _ _).trans (latest_congr rfl (fun q => by cases q <;> rfl) r)
  have hspill : u.spill = st.spill := by
    have h1 : (restOf u).spill = (restOf (reading s st T st.lq)).spill := by rw [hwr.rest]; rfl
    exact h1
  refine ⟨t, _, hdone, ?_, fun m => ?_, fun r hr => ?_⟩
  · have hafter : dstAfter st (stepPast (issuedV s st T) (unspilled u (rotV st a)) .v) d 1 = dstAfter st u d 1 := by
      cases d <;> simp only [Claims.dstAfter, hlat] <;> rfl
    rw [hafter, hwr.dstAfter hread hd]
    simp only [List.range_one, List.map_cons, List.map_nil, List.getD_cons_zero, overlay_full, BitVec.ofNat_toNat,
      BitVec.setWidth_eq]
  · rw [(spill_stepPast _ _ _).1, ← hspill]
    exact keptSpill_filter u.spill _ m
  · rw [hlat, (hwr.dstFrame hread).1 r]
    intro m hm j hj
    rw [Nat.lt_one_iff.mp hj]
    exact hr m hm

theorem vfill_traps (h : AtEngine s .v st) (htk : TokensReady st .v tk)
    (hx : keptSpill st.spill (rotV st a).toNat = none) : Traps (.vfill tk d a) s st .v .opField 0 := by
  obtain ⟨T, hT⟩ := takeTokens_reading (s := s) htk
  have hspillOf : spillOf (reading s st T st.lq) (rotV (reading s st T st.lq) a) = none := Option.map_eq_none_iff.mp hx
  have hbody : vfillBody s.clock d a s.cur (reading s st T st.lq) (issuedV s st T) = trap (opField 0) := by
    simp only [vfillBody, hspillOf]
  exact traps_of_issueWith h (exec_vfill tk d a s) hT hbody rfl

end

/-- R199, R200: spills and fills by the number of the register. -/
theorem spillAndFill : SpillAndFill := by
  intro s st tk d a h htk n kept place
  have hn : groupV st a 0 = rotV st a := groupV_zero st a
  refine ⟨fun hr hwf => ?_, fun x hx hd hroom => ?_, fun hx => ?_⟩
  · rw [hn] at hr
    obtain ⟨t, u, hg, hlq, hoth, hse, hmem, hout, hlat, hsq, hk⟩ := vspill_keeps h htk hr hwf
    simp only [n, place, hn]
    exact ⟨t, u, hg, hlq, hoth, hse, hmem, hout, hlat, hsq, (hk _).trans (if_pos rfl),
      fun m hm => (hk m).trans (if_neg hm)⟩
  · simp only [n, hn] at hx ⊢
    obtain ⟨t, u, hdone, hafter, hk, hlat⟩ := vfill_gives h htk hx hd hroom
    exact ⟨t, u, hdone, hafter, (hk _).trans (if_pos rfl), fun m hm => (hk m).trans (if_neg hm), hlat⟩
  · simp only [n, hn] at hx
    exact vfill_traps h htk hx

/-- Settles O36: index vectors go to the queue of their word, column pairs to and from the tiles, and a spilled register
is
kept by its number. -/
theorem indexColumnsAndSpill : Obligations.IndexColumnsAndSpill := by
  unfold Obligations.IndexColumnsAndSpill
  exact ⟨indexSends, accumulatorColumns, spillAndFill⟩

end Sys2Proof.Proofs


namespace Sys2Proof.Proofs

open Host (Outcome)
open Sys2Proof Machine Claims

/-! ## The integer square root (R203) -/

theorem isqrt_floor {x n r : Nat} (hle : r * r ≤ x) (hlt : x < (r + 2 ^ n) * (r + 2 ^ n)) :
    isqrt x n r * isqrt x n r ≤ x ∧ x < (isqrt x n r + 1) * (isqrt x n r + 1) := by
  induction n generalizing r with
  | zero => exact ⟨hle, hlt⟩
  | succ n ih =>
    rw [isqrt]
    split
    · next h =>
      refine ih h ?_
      rwa [Nat.add_assoc, ← Nat.two_mul, ← Nat.pow_succ']
    · next h => exact ih hle (Nat.lt_of_not_le h)

theorem sqrtNat_eq (x : Nat) : sqrtNat x = Nat.sqrt x := by
  refine Nat.eq_sqrt.mpr (isqrt_floor (Nat.zero_le _) ?_)
  rw [Nat.zero_add, ← Nat.pow_add]
  exact Nat.lt_of_lt_of_le Nat.lt_log2_self (Nat.pow_le_pow_right two_pos (by omega))

/-- An integer that lies where a real lies among the even integers. -/
structure Tracks (M : Nat) (Y : ℝ) : Prop where
  le : ∀ d : Nat, 2 * d ≤ M ↔ 2 * (d : ℝ) ≤ Y
  ge : ∀ d : Nat, M ≤ 2 * d ↔ Y ≤ 2 * (d : ℝ)

/-- Twice the root, with a sticky bit, lies among the even integers where twice the exact root lies. -/
theorem tracks_sqrt (x : Nat) :
    Tracks (2 * sqrtNat x + boolNat (sqrtNat x * sqrtNat x != x)) (2 * √(x : ℝ)) := by
  rw [sqrtNat_eq]
  have hle := Nat.sqrt_le x
  have hsticky : boolNat (Nat.sqrt x * Nat.sqrt x != x) = if Nat.sqrt x * Nat.sqrt x = x then 0 else 1 := by
    by_cases h : Nat.sqrt x * Nat.sqrt x = x
    · rw [if_pos h, bne_eq_false_iff_eq.mpr h]; rfl
    · rw [if_neg h, bne_iff_ne.mpr h]; rfl
  rw [hsticky]
  refine ⟨fun d => ?_, fun d => ?_⟩
  · have hreal : 2 * (d : ℝ) ≤ 2 * √(x : ℝ) ↔ d * d ≤ x := by
      rw [mul_le_mul_iff_right₀ two_pos, Real.le_sqrt (Nat.cast_nonneg d) (Nat.cast_nonneg x), pow_two]
      exact_mod_cast Iff.rfl
    rw [hreal, ← Nat.le_sqrt]
    split <;> omega
  · have hreal : 2 * √(x : ℝ) ≤ 2 * (d : ℝ) ↔ x ≤ d * d := by
      rw [mul_le_mul_iff_right₀ two_pos, Real.sqrt_le_left (Nat.cast_nonneg d), pow_two]
      exact_mod_cast Iff.rfl
    rw [hreal]
    split
    · next h =>
      rw [Nat.add_zero, Nat.mul_le_mul_left_iff two_pos]
      exact ⟨fun hr => h ▸ Nat.mul_self_le_mul_self hr, fun hx => Nat.mul_self_le_mul_self_iff.mp (h.le.trans hx)⟩
    · next h =>
      refine ⟨fun hr => ?_, fun hx => ?_⟩
      · exact (Nat.lt_succ_sqrt x).le.trans (Nat.mul_self_le_mul_self (by omega))
      · have : Nat.sqrt x < d := Nat.mul_self_lt_mul_self_iff.mp (Nat.lt_of_lt_of_le (Nat.lt_of_le_of_ne hle h) hx)
        omega

/-! ## Rounding what tracks a real -/

theorem roundShift_eq_or (mode : RMode) (neg : Bool) (M k : Nat) :
    (roundShift mode neg M k).1 = M / 2 ^ k + 1 ∨ (roundShift mode neg M k).1 = M / 2 ^ k :=
  ite_eq_or_eq _ _ _

section
variable {M k : Nat} {Y : ℝ}

/-- The multiples of 2^k that bound the integer bound the real. -/
theorem Tracks.le_mul (h : Tracks M Y) (hk : 1 ≤ k) (j : Nat) : j * 2 ^ k ≤ M ↔ (j : ℝ) * 2 ^ k ≤ Y := by
  obtain ⟨i, rfl⟩ := Nat.exists_eq_add_of_le' hk
  have hn : j * 2 ^ (i + 1) = 2 * (j * 2 ^ i) := by ring
  have hr : (j : ℝ) * 2 ^ (i + 1) = 2 * ((j * 2 ^ i : Nat) : ℝ) := by push_cast; ring
  rw [hn, hr]
  exact h.le _

theorem Tracks.mul_le (h : Tracks M Y) (hk : 1 ≤ k) (j : Nat) : M ≤ j * 2 ^ k ↔ Y ≤ (j : ℝ) * 2 ^ k := by
  obtain ⟨i, rfl⟩ := Nat.exists_eq_add_of_le' hk
  have hn : j * 2 ^ (i + 1) = 2 * (j * 2 ^ i) := by ring
  have hr : (j : ℝ) * 2 ^ (i + 1) = 2 * ((j * 2 ^ i : Nat) : ℝ) := by push_cast; ring
  rw [hn, hr]
  exact h.ge _

theorem Tracks.floor_le (h : Tracks M Y) (hk : 1 ≤ k) : ((M / 2 ^ k : Nat) : ℝ) * 2 ^ k ≤ Y :=
  (h.le_mul hk _).mp (Nat.div_mul_le_self _ _)

/-- Rounding up gives the least multiple not below the real. -/
theorem Tracks.roundShift_ru (h : Tracks M Y) (hk : 1 ≤ k) :
    let n := (roundShift .ru false M k).1
    Y ≤ (n : ℝ) * 2 ^ k ∧ ∀ j : Nat, Y ≤ (j : ℝ) * 2 ^ k → n ≤ j := by
  intro n
  have hmod := Nat.div_add_mod M (2 ^ k)
  have hlt := Nat.mod_lt M (Nat.two_pow_pos k)
  have hn : n = if M % 2 ^ k = 0 then M / 2 ^ k else M / 2 ^ k + 1 := by
    by_cases hr : M % 2 ^ k = 0 <;> simp [n, roundShift, hr]
  have hmul : ∀ j, M ≤ j * 2 ^ k ↔ n ≤ j := by
    intro j
    rw [hn]
    split
    · next hr =>
      rw [hr, Nat.add_zero, Nat.mul_comm] at hmod
      rw [← hmod, Nat.mul_div_cancel _ (Nat.two_pow_pos k)]
      exact Nat.mul_le_mul_right_iff (Nat.two_pow_pos k)
    · next hr =>
      rw [Nat.succ_le_iff, Nat.div_lt_iff_lt_mul (Nat.two_pow_pos k)]
      refine ⟨fun hj => Nat.lt_of_le_of_ne hj fun heq => hr ?_, Nat.le_of_lt⟩
      rw [heq, Nat.mul_mod_left]
  exact ⟨(h.mul_le hk n).mp ((hmul n).mpr le_rfl), fun j hj => (hmul j).mp ((h.mul_le hk j).mpr hj)⟩

/-- Rounding to nearest gives the multiple below or the one above, whichever is not farther. -/
theorem Tracks.roundShift_ne (h : Tracks M Y) (hk : 2 ≤ k) :
    let n := (roundShift .ne false M k).1
    let q := M / 2 ^ k
    (n = q ∧ Y - q * 2 ^ k ≤ (q + 1) * 2 ^ k - Y) ∨ (n = q + 1 ∧ (q + 1) * 2 ^ k - Y ≤ Y - q * 2 ^ k) := by
  intro n q
  obtain ⟨i, rfl⟩ := Nat.exists_eq_add_of_le' (by omega : 1 ≤ k)
  have hpow : 2 ^ (i + 1) = 2 * 2 ^ i := Nat.pow_succ'
  have hmod : M = q * 2 ^ (i + 1) + M % 2 ^ (i + 1) := (Nat.div_add_mod' _ _).symm
  have hmid : (2 * q + 1) * 2 ^ i = q * 2 ^ (i + 1) + 2 ^ i := by rw [hpow]; ring
  have hreal : ((2 * q + 1 : Nat) : ℝ) * 2 ^ i = (q * 2 ^ (i + 1) + (q + 1) * 2 ^ (i + 1)) / 2 := by
    push_cast; ring
  by_cases hup : n = q + 1
  · refine .inr ⟨hup, ?_⟩
    have hge : 2 ^ (i + 1) ≤ 2 * (M % 2 ^ (i + 1)) := by
      by_contra hlt
      have : n = q := by
        have h1 : ¬ 2 ^ (i + 1) < 2 * (M % 2 ^ (i + 1)) := by omega
        have h2 : ¬ 2 ^ (i + 1) = 2 * (M % 2 ^ (i + 1)) := by omega
        simp [n, q, roundShift, h1, h2]
      omega
    have := (h.le_mul (by omega : 1 ≤ i) (2 * q + 1)).mp (by omega)
    rw [hreal] at this
    linarith
  · have hn : n = q := by
      have : n = q + 1 ∨ n = q := by
        simp only [n, q, roundShift]
        split
        · exact .inl rfl
        · exact .inr rfl
      exact this.resolve_left hup
    refine .inl ⟨hn, ?_⟩
    have hle : 2 * (M % 2 ^ (i + 1)) ≤ 2 ^ (i + 1) := by
      by_contra hlt
      have h1 : 2 ^ (i + 1) < 2 * (M % 2 ^ (i + 1)) := by omega
      exact hup (by simp [n, q, roundShift, h1])
    have := (h.mul_le (by omega : 1 ≤ i) (2 * q + 1)).mp (by omega)
    rw [hreal] at this
    linarith

end

/-! ## Patterns and their values (R144) -/

section
variable {f : Fmt}

theorem two_pow_eb (heb : 2 ≤ f.eb) : 2 ^ f.eb = 2 * fmtBias f + 2 ∧ 1 ≤ fmtBias f := by
  obtain ⟨i, hi⟩ := Nat.exists_eq_add_of_le' heb
  have hpos := Nat.two_pow_pos i
  rw [fmtBias, hi, show i + 2 - 1 = i + 1 from rfl, Nat.pow_succ' (n := i + 1), Nat.pow_succ']
  omega

/-- The value of a positive finite pattern by its fields. -/
theorem ratOf_decodeF_fields {e fr : Nat} (he : e + 1 < 2 ^ f.eb) (hfr : fr < 2 ^ f.mb) :
    ratOf (decodeF f false (e * 2 ^ f.mb + fr)) =
      if e = 0 then (fr : ℚ) * 2 ^ ((1 : Int) - fmtBias f - f.mb)
      else ((2 ^ f.mb + fr : Nat) : ℚ) * 2 ^ ((e : Int) - fmtBias f - f.mb) := by
  have hdiv : (e * 2 ^ f.mb + fr) / 2 ^ f.mb = e := by
    rw [Nat.mul_comm, Nat.mul_add_div (Nat.two_pow_pos _), Nat.div_eq_of_lt hfr, Nat.add_zero]
  have hmod : (e * 2 ^ f.mb + fr) % 2 ^ f.mb = fr := by
    rw [Nat.mul_comm, Nat.mul_add_mod, Nat.mod_eq_of_lt hfr]
  have hsign : bit (e * 2 ^ f.mb + fr) (f.eb + f.mb) = false := by
    rw [bit_eq_testBit]
    refine Nat.testBit_lt_two_pow ?_
    have : (e + 1) * 2 ^ f.mb ≤ 2 ^ f.eb * 2 ^ f.mb := Nat.mul_le_mul_right _ (by omega)
    rw [Nat.pow_add]
    rw [Nat.succ_mul] at this
    omega
  rw [decodeF, hdiv, hmod, hsign, Nat.mod_eq_of_lt (by omega : e < 2 ^ f.eb)]
  simp only [show ¬ e = 2 ^ f.eb - 1 by omega, if_false]
  split
  · simp [ratOf]
  · simp [ratOf]

/-- The value of the pattern that a rounded significand gives, a carry to the next binade and a subnormal included. -/
theorem ratOf_decodeF_pattern (heb : 2 ≤ f.eb) {ex n : Nat} (h1 : 1 ≤ ex) (hex : ex ≤ 2 * fmtBias f - 1)
    (hn : n ≤ 2 ^ (f.mb + 1)) (hnorm : ex ≠ 1 → 2 ^ f.mb ≤ n) :
    ratOf (decodeF f false (ex * 2 ^ f.mb + n - 2 ^ f.mb)) = (n : ℚ) * 2 ^ ((ex : Int) - fmtBias f - f.mb) := by
  obtain ⟨hpow, hbias⟩ := two_pow_eb heb
  have hpos := Nat.two_pow_pos f.mb
  rw [Nat.pow_succ'] at hn
  by_cases hsub : n < 2 ^ f.mb
  · obtain rfl : ex = 1 := by
      by_contra hne
      exact absurd (hnorm hne) (by omega)
    rw [show 1 * 2 ^ f.mb + n - 2 ^ f.mb = 0 * 2 ^ f.mb + n by omega, ratOf_decodeF_fields (by omega) hsub, if_pos rfl,
      Nat.cast_one]
  by_cases hcarry : n = 2 * 2 ^ f.mb
  · have hpat : ex * 2 ^ f.mb + n - 2 ^ f.mb = (ex + 1) * 2 ^ f.mb + 0 := by rw [hcarry, Nat.succ_mul ex]; omega
    rw [hpat, ratOf_decodeF_fields (by omega) hpos, if_neg (Nat.succ_ne_zero _), hcarry]
    have hz : ((ex + 1 : Nat) : Int) - fmtBias f - f.mb = ((ex : Int) - fmtBias f - f.mb) + 1 := by push_cast; ring
    rw [hz, zpow_add_one₀ two_ne_zero]
    push_cast
    ring
  · have hpat : ex * 2 ^ f.mb + n - 2 ^ f.mb = ex * 2 ^ f.mb + (n - 2 ^ f.mb) := by omega
    rw [hpat, ratOf_decodeF_fields (by omega) (by omega), if_neg (by omega), Nat.add_sub_cancel' (by omega)]

/-- Every finite value is a significand times a power of two of the format. -/
theorem decodeF_grid {y : Nat} (h : IsNum (decodeF f false y)) :
    ∃ neg n ex, 1 ≤ ex ∧ n < 2 ^ (f.mb + 1) ∧
      decodeF f false y = .num neg n (((ex : Nat) : Int) - fmtBias f - f.mb) := by
  have hpos := Nat.two_pow_pos f.mb
  have hfr := Nat.mod_lt y hpos
  rw [Nat.pow_succ']
  obtain ⟨neg, n, e, hd⟩ := h
  unfold decodeF at hd ⊢
  simp only at hd ⊢
  split at hd
  · split at hd <;> cases hd
  · next hmax =>
    rw [if_neg hmax]
    split
    · exact ⟨_, _, 1, le_rfl, by rw [if_neg Bool.false_ne_true]; omega, rfl⟩
    · next hne => exact ⟨_, _, _, Nat.one_le_iff_ne_zero.mpr hne, by omega, rfl⟩

end

/-! ## One rounding of what tracks a real (R147, R203) -/

/-- The exponent of the unit in the last place of a rounded number. -/
def gridExp (f : Fmt) (M : Nat) (E : Int) : Int := max (M.log2 + E - f.mb) (1 - fmtBias f - f.mb)

section
variable {f : Fmt} {M : Nat} {E : Int}

/-- What holds of the place of rounding: how many bits fall below it, and how many stay. -/
theorem gridExp_bounds (hM : 2 ^ (f.mb + 2) ≤ M) :
    ∃ k : Nat, gridExp f M E = E + k ∧ 2 ≤ k ∧ M / 2 ^ k < 2 ^ (f.mb + 1) ∧
      (gridExp f M E ≠ 1 - fmtBias f - f.mb → 2 ^ f.mb ≤ M / 2 ^ k) := by
  have hne : M ≠ 0 := by have := Nat.two_pow_pos (f.mb + 2); omega
  have hlog : f.mb + 2 ≤ M.log2 := (Nat.le_log2 hne).mpr hM
  have hle : M.log2 + E - f.mb ≤ gridExp f M E := le_max_left _ _
  refine ⟨(gridExp f M E - E).toNat, by omega, by omega, ?_, fun hq => ?_⟩
  · rw [Nat.div_lt_iff_lt_mul (Nat.two_pow_pos _), ← Nat.pow_add]
    exact Nat.lt_of_lt_of_le Nat.lt_log2_self (Nat.pow_le_pow_right two_pos (by omega))
  · have hmax : gridExp f M E = M.log2 + E - f.mb := (max_choice _ _).resolve_right hq
    rw [Nat.le_div_iff_mul_le (Nat.two_pow_pos _), ← Nat.pow_add]
    refine (Nat.pow_le_pow_right two_pos ?_).trans (Nat.log2_self_le hne)
    omega

/-- The value of a rounded number that does not overflow. -/
theorem ratOf_roundNum (heb : 2 ≤ f.eb) (hM : 2 ^ (f.mb + 2) ≤ M) (htop : M.log2 + E < fmtBias f) {k : Nat}
    (hk : gridExp f M E = E + k) (mode : RMode) :
    ratOf (decodeF f false (roundNum f mode false false M E).1) =
      ((roundShift mode false M k).1 : ℚ) * 2 ^ gridExp f M E := by
  obtain ⟨k', hk', h2, hbelow, habove⟩ := gridExp_bounds (f := f) (E := E) hM
  obtain rfl : k' = k := by omega
  obtain ⟨-, hbias⟩ := two_pow_eb heb
  have hshift := roundShift_eq_or mode false M k'
  have hround : roundAt mode false M E (gridExp f M E) = roundShift mode false M k' := by
    rw [roundAt, if_neg (by omega)]
    congr 1
    omega
  have hex : (((gridExp f M E + f.mb + fmtBias f).toNat : Nat) : Int) = gridExp f M E + f.mb + fmtBias f := by
    have : 1 - (fmtBias f : Int) - f.mb ≤ gridExp f M E := le_max_right _ _
    omega
  have hle : gridExp f M E + f.mb ≤ fmtBias f - 1 := by
    rw [gridExp]
    omega
  have hge : 1 - (fmtBias f : Int) - f.mb ≤ gridExp f M E := le_max_right _ _
  have hover : ∀ b : Prop, [Decidable b] → ¬ (fmtBias f : Int) < if b then (M.log2 + E + 1 : Int) else M.log2 + E := by
    intro b _
    split <;> omega
  have hval : (roundNum f mode false false M E).1 =
      (gridExp f M E + f.mb + fmtBias f).toNat * 2 ^ f.mb + (roundShift mode false M k').1 - 2 ^ f.mb := by
    simp only [roundNum, Bool.and_false, Bool.false_eq_true, if_false, hover]
    rw [← gridExp, hround]
    simp [boolNat]
  rw [hval, ratOf_decodeF_pattern heb (by omega) (by omega) (by omega) (fun hne => ?_), hex]
  · congr 2
    ring
  · have := habove fun h => hne (by omega)
    omega

/-- A value of the format is a multiple of the unit of rounding, or lies below all that the significand can round to. -/
theorem grid_or_below (hM : 2 ^ (f.mb + 2) ≤ M) {k : Nat} (hk : gridExp f M E = E + k) {n : Nat} {p : Int}
    (hn : n < 2 ^ (f.mb + 1)) (hp : 1 - (fmtBias f : Int) - f.mb ≤ p) :
    (∃ j : Nat, (n : ℝ) * 2 ^ p = j * 2 ^ k * 2 ^ E) ∨ (n : ℝ) * 2 ^ p < (M / 2 ^ k : Nat) * 2 ^ k * 2 ^ E := by
  obtain ⟨k', hk', -, -, habove⟩ := gridExp_bounds (f := f) (E := E) hM
  obtain rfl : k' = k := by omega
  have hunit : (2 : ℝ) ^ k' * 2 ^ E = 2 ^ gridExp f M E := by
    rw [hk, Int.add_comm, zpow_add₀ two_ne_zero, zpow_natCast]
  simp only [mul_assoc, hunit]
  by_cases hge : gridExp f M E ≤ p
  · obtain ⟨i, hi⟩ := Int.eq_ofNat_of_zero_le (sub_nonneg.mpr hge)
    refine .inl ⟨n * 2 ^ i, ?_⟩
    rw [show p = (i : Int) + gridExp f M E by omega, zpow_add₀ two_ne_zero, zpow_natCast]
    push_cast
    ring
  · right
    have hq := habove (by omega)
    calc (n : ℝ) * 2 ^ p < 2 ^ (f.mb + 1) * 2 ^ p := by
          refine mul_lt_mul_of_pos_right ?_ (by positivity)
          exact_mod_cast hn
      _ = 2 ^ f.mb * 2 ^ (p + 1) := by rw [zpow_add_one₀ two_ne_zero]; ring
      _ ≤ (M / 2 ^ k' : Nat) * 2 ^ gridExp f M E := by
          refine mul_le_mul (by exact_mod_cast hq) ?_ (by positivity) (by positivity)
          exact zpow_le_zpow_right₀ one_le_two (by omega)

/-- The value of a rounded number. -/
def roundedValue (f : Fmt) (M : Nat) (E : Int) (mode : RMode) : ℝ :=
  ((ratOf (decodeF f false (roundNum f mode false false M E).1) : ℚ) : ℝ)

/-- What tracks a real rounds to the neighbours of that real in the format, and to the nearer one to nearest. -/
theorem rounded_neighbours (heb : 2 ≤ f.eb) (hM : 2 ^ (f.mb + 2) ≤ M) (htop : M.log2 + E < fmtBias f) {Y : ℝ}
    (hY : Tracks M Y) :
    let val := roundedValue f M E
    let x := Y * 2 ^ E
    (val .rz = val .rd ∧ val .rd ≤ x ∧ x ≤ val .ru) ∧
      (val .ne = val .rd ∧ x - val .rd ≤ val .ru - x ∨ val .ne = val .ru ∧ val .ru - x ≤ x - val .rd) ∧
      ∀ y, IsNum (decodeF f false y) → let v : ℝ := ((ratOf (decodeF f false y) : ℚ) : ℝ)
        (v ≤ x → v ≤ val .rd) ∧ (x ≤ v → val .ru ≤ v) := by
  intro val x
  obtain ⟨k, hk, h2, -, -⟩ := gridExp_bounds (f := f) (E := E) hM
  have hE : (0 : ℝ) < 2 ^ E := by positivity
  have hK : (0 : ℝ) < 2 ^ k := by positivity
  have hval : ∀ mode, val mode = ((roundShift mode false M k).1 : ℝ) * 2 ^ k * 2 ^ E := by
    intro mode
    simp only [val, roundedValue, ratOf_roundNum heb hM htop hk mode, hk]
    rw [Int.add_comm, zpow_add₀ two_ne_zero, zpow_natCast]
    push_cast
    ring
  have hrd : val .rd = ((M / 2 ^ k : Nat) : ℝ) * 2 ^ k * 2 ^ E := hval .rd
  have hscale : ∀ a : ℝ, (a * 2 ^ E ≤ x ↔ a ≤ Y) ∧ (x ≤ a * 2 ^ E ↔ Y ≤ a) := fun a =>
    ⟨mul_le_mul_iff_left₀ hE, mul_le_mul_iff_left₀ hE⟩
  have hfloor := hY.floor_le (by omega : 1 ≤ k)
  obtain ⟨hceil, hleast⟩ := hY.roundShift_ru (by omega : 1 ≤ k)
  have hrdx : val .rd ≤ x := by rw [hrd]; exact (hscale _).1.mpr hfloor
  have hxru : x ≤ val .ru := by rw [hval]; exact (hscale _).2.mpr hceil
  refine ⟨⟨(hval .rz).trans (hval .rd).symm, hrdx, hxru⟩, ?_, fun y hy => ?_⟩
  · rcases hY.roundShift_ne h2 with ⟨hn, hnear⟩ | ⟨hn, hnear⟩
    · refine .inl ⟨by rw [hval, hn, hrd], ?_⟩
      rcases roundShift_eq_or .ru false M k with hru | hru
      · rw [hrd, hval, hru]
        have := mul_le_mul_of_nonneg_right hnear hE.le
        push_cast
        linarith
      · have : val .ru = val .rd := by rw [hval, hru, hrd]
        linarith
    · have hru : (roundShift .ru false M k).1 = M / 2 ^ k + 1 := by
        refine (roundShift_eq_or .ru false M k).resolve_right fun hru => ?_
        rw [hru] at hceil
        linarith
      refine .inr ⟨by rw [hval, hval, hn, hru], ?_⟩
      rw [hrd, hval, hru]
      have := mul_le_mul_of_nonneg_right hnear hE.le
      push_cast
      linarith
  · intro v
    obtain ⟨neg, n, ex, hex, hn, hd⟩ := decodeF_grid hy
    have hv : v = (if neg then -1 else 1) * ((n : ℝ) * 2 ^ ((ex : Int) - fmtBias f - f.mb)) := by
      simp only [v, hd, ratOf]
      cases neg <;> simp
    have hnonneg : 0 ≤ (n : ℝ) * 2 ^ ((ex : Int) - fmtBias f - f.mb) := by positivity
    have hrd0 : 0 ≤ val .rd := by rw [hrd]; positivity
    cases neg with
    | true =>
      rw [if_pos rfl, neg_one_mul] at hv
      refine ⟨fun _ => by linarith, fun hxv => ?_⟩
      have hx : Y ≤ ((0 : Nat) : ℝ) * 2 ^ k := by
        rw [Nat.cast_zero, zero_mul]
        exact (hscale 0).2.mp (by linarith)
      have hz := Nat.le_zero.mp (hleast 0 hx)
      have hru0 : val .ru = 0 := by rw [hval, hz, Nat.cast_zero, zero_mul, zero_mul]
      linarith
    | false =>
      rw [if_neg Bool.false_ne_true, one_mul] at hv
      rcases grid_or_below hM hk hn (p := (ex : Int) - fmtBias f - f.mb) (by omega) with ⟨j, hj⟩ | hlt
      · rw [hj] at hv
        refine ⟨fun hvx => ?_, fun hxv => ?_⟩
        · have hle := (hY.le_mul (by omega) j).mpr ((hscale _).1.mp (hv ▸ hvx))
          have hjq : j ≤ M / 2 ^ k := (Nat.le_div_iff_mul_le (Nat.two_pow_pos k)).mpr hle
          rw [hv, hrd]
          gcongr
        · have hjn := hleast j ((hscale _).2.mp (hv ▸ hxv))
          rw [hv, hval]
          gcongr
      · rw [← hv, ← hrd] at hlt
        exact ⟨fun _ => hlt.le, fun hxv => by linarith⟩

/-- The neighbour to nearest is as near as any value of the format. -/
theorem nearest_of_neighbours {x rd ru ne v : ℝ} (hrd : rd ≤ x) (hru : x ≤ ru)
    (hne : ne = rd ∧ x - rd ≤ ru - x ∨ ne = ru ∧ ru - x ≤ x - rd) (hlo : v ≤ x → v ≤ rd) (hhi : x ≤ v → ru ≤ v) :
    |x - ne| ≤ |x - v| := by
  have hnear : |x - ne| ≤ x - rd ∧ |x - ne| ≤ ru - x := by
    rcases hne with ⟨rfl, h⟩ | ⟨rfl, h⟩
    · rw [abs_of_nonneg (by linarith)]; exact ⟨le_rfl, h⟩
    · rw [abs_of_nonpos (by linarith)]; exact ⟨by linarith, by linarith⟩
  rcases le_total v x with h | h
  · rw [abs_of_nonneg (a := x - v) (by linarith)]
    linarith [hlo h]
  · rw [abs_of_nonpos (a := x - v) (by linarith)]
    linarith [hhi h]

end

/-! ## `vsqrt` (R203) -/

/-- The root of a number is the scaled root of an integer, which the machine rounds with a sticky bit. -/
theorem fnSqrt_scaled (m : Nat) (e : Int) (hm : 0 < m) :
    ∃ (x : Nat) (E : Int), 2 ^ 256 ≤ x ∧ Real.sqrt (ratOf (.num false m e)) = 2 * √(x : ℝ) * 2 ^ E ∧
      ∀ f mode fl, fnSqrt f mode fl m e =
        roundNum f mode fl false (2 * sqrtNat x + boolNat (sqrtNat x * sqrtNat x != x)) E := by
  obtain ⟨m', h, hm', hval, hfn⟩ : ∃ (m' : Nat) (h : Int), 0 < m' ∧ (m : ℝ) * 2 ^ e = m' * 2 ^ (2 * h) ∧
      ∀ f mode fl, fnSqrt f mode fl m e = roundNum f mode fl false
        (2 * sqrtNat (m' * 2 ^ 256) + boolNat (sqrtNat (m' * 2 ^ 256) * sqrtNat (m' * 2 ^ 256) != m' * 2 ^ 256))
        (h - 129) := by
    by_cases he : e % 2 = 0
    · refine ⟨m, e / 2, hm, by rw [Int.mul_ediv_cancel' (Int.dvd_of_emod_eq_zero he)], fun f mode fl => ?_⟩
      simp only [fnSqrt, he, if_true]
    · refine ⟨2 * m, (e - 1) / 2, by omega, ?_, fun f mode fl => ?_⟩
      · rw [Int.mul_ediv_cancel' (by omega), show e = (e - 1) + 1 by omega, zpow_add_one₀ two_ne_zero]
        push_cast
        ring_nf
      · simp only [fnSqrt, he, if_false]
  refine ⟨m' * 2 ^ 256, h - 129, Nat.le_mul_of_pos_left _ hm', ?_, hfn⟩
  have hrat : ((ratOf (.num false m e) : ℚ) : ℝ) = (m' : ℝ) * 2 ^ (2 * h) := by
    rw [← hval]
    simp [ratOf]
  have hsplit : (m' : ℝ) * 2 ^ (2 * h) = ((m' * 2 ^ 256 : Nat) : ℝ) * (2 ^ (h - 128)) ^ 2 := by
    rw [← zpow_natCast, ← zpow_mul, show 2 * h = 256 + (h - 128) * (2 : Nat) by push_cast; ring,
      zpow_add₀ two_ne_zero]
    push_cast
    ring
  rw [hrat, hsplit, Real.sqrt_mul (Nat.cast_nonneg _), Real.sqrt_sq (by positivity),
    show h - 128 = (h - 129) + 1 by ring, zpow_add_one₀ two_ne_zero]
  ring

/-- The leading bit of a root, from that of the number. -/
theorem sqrt_top {m M x : Nat} {e E : Int} (hm : 0 < m) (hM : M ≠ 0) (hY : Tracks M (2 * √(x : ℝ))) (h1 : 1 ≤ M.log2)
    (hval : Real.sqrt (ratOf (.num false m e)) = 2 * √(x : ℝ) * 2 ^ E) : M.log2 + E ≤ (m.log2 + e) / 2 := by
  have hle : (2 : ℝ) ^ M.log2 ≤ 2 * √(x : ℝ) := by
    have := (hY.le_mul (k := M.log2) h1 1).mp (by rw [Nat.one_mul]; exact Nat.log2_self_le hM)
    rwa [Nat.cast_one, one_mul] at this
  have hrat : ((ratOf (.num false m e) : ℚ) : ℝ) = (m : ℝ) * 2 ^ e := by simp [ratOf]
  have hroot : (2 : ℝ) ^ ((M.log2 : Int) + E) ≤ Real.sqrt (m * 2 ^ e) := by
    rw [← hrat, hval, zpow_add₀ two_ne_zero, zpow_natCast]
    gcongr
  have hsq : (2 : ℝ) ^ (2 * ((M.log2 : Int) + E)) < 2 ^ ((m.log2 : Int) + 1 + e) := by
    calc (2 : ℝ) ^ (2 * ((M.log2 : Int) + E)) = (2 ^ ((M.log2 : Int) + E)) ^ 2 := by
          rw [← zpow_natCast, ← zpow_mul]
          congr 1
          push_cast
          ring
      _ ≤ m * 2 ^ e := Real.le_sqrt (by positivity) (by positivity) |>.mp hroot
      _ < 2 ^ (m.log2 + 1) * 2 ^ e := by
          refine mul_lt_mul_of_pos_right ?_ (by positivity)
          exact_mod_cast Nat.lt_log2_self
      _ = 2 ^ ((m.log2 : Int) + 1 + e) := by
          rw [zpow_add₀ two_ne_zero, ← zpow_natCast]
          push_cast
          rfl
  have := (zpow_lt_zpow_iff_right₀ (one_lt_two (α := ℝ))).mp hsq
  omega

/-- R203: `vsqrt` rounds the exact root once, to the neighbours of its mode and to the nearest value. -/
theorem fnSqrt_correctly_rounded {f : Fmt} (heb : 2 ≤ f.eb) (hmb : f.mb ≤ 100) {m : Nat} {e : Int} (hm : 0 < m)
    (hrange : (m.log2 + e) / 2 < fmtBias f) :
    let x : ℝ := Real.sqrt (ratOf (.num false m e))
    let val := fun mode => ((ratOf (decodeF f false (fnSqrt f mode false m e).1) : ℚ) : ℝ)
    (val .rz = val .rd ∧ val .rd ≤ x ∧ x ≤ val .ru) ∧
      ∀ y, IsNum (decodeF f false y) → let v : ℝ := ((ratOf (decodeF f false y) : ℚ) : ℝ)
        (v ≤ x → v ≤ val .rd) ∧ (x ≤ v → val .ru ≤ v) ∧ |x - val .ne| ≤ |x - v| := by
  intro r val
  obtain ⟨x, E, hx, hroot, hfn⟩ := fnSqrt_scaled m e hm
  have hY := tracks_sqrt x
  generalize hMdef : 2 * sqrtNat x + boolNat (sqrtNat x * sqrtNat x != x) = M at hY hfn
  have hsqrt : 2 ^ 128 ≤ sqrtNat x := by
    rw [sqrtNat_eq, Nat.le_sqrt, ← Nat.pow_add]
    exact hx
  have hM : 2 ^ 128 ≤ M := by omega
  have hM0 : M ≠ 0 := by have := Nat.two_pow_pos 128; omega
  have hlog : 128 ≤ M.log2 := (Nat.le_log2 hM0).mpr hM
  have htop := sqrt_top hm hM0 hY (by omega) hroot
  have hbits : 2 ^ (f.mb + 2) ≤ M := (Nat.pow_le_pow_right two_pos (by omega)).trans hM
  obtain ⟨⟨hrz, hrd, hru⟩, hne, hgrid⟩ := rounded_neighbours heb hbits (lt_of_le_of_lt htop hrange) hY
  have hval : ∀ mode, val mode = roundedValue f M E mode := fun mode => by
    simp only [val, roundedValue, hfn]
  have hr : r = 2 * √(x : ℝ) * 2 ^ E := hroot
  simp only [hval, hr]
  refine ⟨⟨hrz, hrd, hru⟩, fun y hy => ?_⟩
  obtain ⟨hlo, hhi⟩ := hgrid y hy
  exact ⟨hlo, hhi, nearest_of_neighbours hrd hru hne hlo hhi⟩

end Sys2Proof.Proofs


namespace Sys2Proof.Proofs

open Host (Outcome)
open Sys2Proof Machine Claims

/-! ## Words that give each enabled lane a result of one operand -/

theorem lanesWise_one (l : List Nat) : lanesWise l.length [l] = l.map fun x => [x] := by
  show List.zipWith (· :: ·) l (List.replicate l.length []) = _
  induction l with
  | nil => rfl
  | cons x xs ih => rw [List.length_cons, List.replicate_succ, List.zipWith_cons_cons, ih, List.map_cons]

theorem laneResults_one {n : Nat} {l : List Nat} (hl : l.length = n) (en : Nat) (f : List Nat → Nat × BitVec 6) :
    laneResults en f (lanesWise n [l]) =
      (List.range n).map fun i => if bit en i then f [l.getD i 0] else (0, 0) := by
  subst hl
  rw [lanesWise_one, laneResults]
  apply List.ext_getElem
  · simp
  · intro i h1 h2
    have hi : i < l.length := by simpa using h2
    simp [List.getD_eq_getElem?_getD, hi]

theorem unionFlags_lanes {n : Nat} {on : Nat → Bool} {en : Nat} (hon : ∀ i < n, bit en i = on i)
    (f : Nat → Nat × BitVec 6) :
    unionFlags ((List.range n).map fun i => if bit en i then f i else (0, 0)) = laneFlags on n fun i => (f i).2 := by
  rw [unionFlags, List.foldl_map, laneFlags, List.foldl_filter]
  refine List.foldl_ext _ _ _ fun x i hi => ?_
  rw [hon i (List.mem_range.mp hi)]
  cases on i
  · simp
  · simp

theorem length_regsOf (t : Ty) (l : List Nat) : (regsOf t l).length = t.regs := by cases t <;> rfl

theorem length_maskRegs (t : Ty) (en : Nat) : (maskRegs t en).length = t.regs := length_regsOf t _

section
variable {s : State} {st : Strand} {c : VCtl} {d : VDst} {a : VSrc} {i : Instr} {cost : Nat}

/-- What a word of one operand does at issue: `f` of each enabled lane goes to the destination, its flags are raised. -/
def unaryBody (clock : Nat) (c : VCtl) (d : VDst) (a : VSrc) (f : Strand → List Nat → Nat × BitVec 6) (st : Strand) :
    Act Strand := do
  let (l, st) ← readSrcs c.ty st 0 [a]
  let en ← lanesOf st c.lanes
  let res := laneResults en (f st) (lanesWise c.ty.count l)
  writeDst clock (flagV st (unionFlags res)) c.h.lat d (regsOf c.ty (res.map (·.1))) (maskRegs c.ty en)

theorem count_le (t : Ty) : t.count ≤ 1024 := by cases t <;> decide

theorem allFlags_flagV (st : Strand) (f : BitVec 6) : allFlags (flagV st f) = allFlags st ||| f :=
  allFlags_raiseFlags _ _ _

theorem regs_le (t : Ty) : t.regs ≤ 64 := by cases t <;> decide

theorem elemsOf_dst_getD {t : Ty} {j : Nat} (hj : j < t.count) {l : List Nat} (g : Nat → Nat)
    (h : ∀ k < t.regs, l.getD k 0 = g k) : (elemsOf t l).getD j 0 = elemAt t g j := by
  rw [elemsOf_getD hj]
  cases t <;> simp only [elemAt, h 0 (by decide)]
  rw [h 1 (by decide)]

/-- What stood in a destination is of 4096 bits. -/
theorem toNat_dstBefore (st : Strand) (d : VDst) (n j : Nat) :
    (BitVec.ofNat 4096 ((dstBefore st d n).getD j 0)).toNat = (dstBefore st d n).getD j 0 := by
  rw [BitVec.toNat_ofNat]
  refine Nat.mod_eq_of_lt ?_
  have hzero : (List.replicate n 0).getD j 0 < 2 ^ 4096 := by
    rw [List.getD_eq_getElem?_getD, List.getElem?_replicate]
    split <;> exact Nat.two_pow_pos _
  cases d with
  | v m =>
    rw [dstBefore, List.getD_eq_getElem?_getD, List.getElem?_map]
    cases (List.range n)[j]? with
    | none => exact Nat.two_pow_pos _
    | some k => exact (latest st (.v (groupV st m k))).isLt
  | sq => exact hzero
  | vcq => exact hzero

/-- A word of one operand is a word of lanes. -/
theorem laneWord_of_unary {f : Strand → List Nat → Nat × BitVec 6} {g : Nat → Nat × BitVec 6} (h : AtEngine s .v st)
    (hx : exec i s = issueCharged s c.h.tk cost fun _ st => unaryBody s.clock c d a f st)
    (hf : ∀ T lq, f (reading s st T lq) = fun p => g (p.getD 0 0)) :
    LaneWord i s st c.h c.lanes d c.ty.regs [(c.ty.regs, a)] c.ty.count c.ty.width (elemsOf c.ty)
      fun ops j => g (arg c.ty ops 0 j) := by
  intro ops lq' htk hops hl hd hroom _
  obtain ⟨T, hT⟩ := takeTokens_reading (s := s) htk
  obtain ⟨regs, hsrc, rfl⟩ := operands_one hops
  obtain ⟨en, hen, hbits⟩ := lanesOf_ok (s := s) (T := T) (lq := lq') hl
  have hres := laneResults_one (length_elemsOf c.ty regs) en (f (reading s st T lq'))
  rw [hf] at hres
  generalize hvals : laneResults en (fun p => g (p.getD 0 0)) (lanesWise c.ty.count [elemsOf c.ty regs]) = res at hres
  have hon : ∀ j < c.ty.count, bit en j = laneOn st c.lanes j := fun j hj => hbits j (by have := count_le c.ty; omega)
  have hread := (asRead_reading s st T lq').flagV (unionFlags res)
  obtain ⟨u, hu, hwr⟩ := writeDst_ok s.clock c.h.lat hd (hread.dstRoom hroom) (length_regsOf c.ty (res.map (·.1)))
    (length_maskRegs c.ty en) (regs_le c.ty)
  have hbody : unaryBody s.clock c d a f (reading s st T st.lq) = .ok u := by
    have hsrcs := readSrcs_ok (s := s) (T := T) (t := c.ty) (xs := [a]) hops 0
    simp only [unaryBody, hsrcs, hen, hf, hvals, bind, Except.bind, List.map_cons, List.map_nil]
    exact hu
  obtain ⟨t, hg, hse⟩ := goes_of_issueCharged h hx hT hbody (by simp only [getEng, hwr.engs, hread.engs])
  have hframe := dstFrame_stepPast (s := s) (e := .v) (hwr.dstFrame hread)
  refine ⟨t, _, ⟨hg, hwr.lq_eq hread, hse, fun e he => ?_⟩, hframe, hwr.qV_eq hread, ?_, fun j hj => ?_⟩
  · rw [getEng_stepPast_other _ _ _ _ he]
    simp only [getEng, hwr.engs, hread.engs]
  · rw [allFlags_stepPast, hwr.flags, allFlags_flagV, hres]
    exact congrArg (allFlags st ||| ·) (unionFlags_lanes hon _)
  · rw [dstAfter_stepPast, hwr.dstAfter hread hd]
    rw [elemsOf_dst_getD hj _ fun k hk => getD_map_range _ _ _ hk, elemAt_overlay _ _ _ _ hj, hon j hj, hres,
      List.map_map, getD_map_range _ _ _ hj, Function.comp, hon j hj]
    cases laneOn st c.lanes j
    · exact (elemsOf_dst_getD hj _ fun k _ => (toNat_dstBefore st d c.ty.regs k).symm).symm
    · rfl

/-- R202: a special function is a word of lanes. -/
theorem specialWord_lanes (h : AtEngine s .v st) (k : SpecialFn) (hx : exec i s = specialWord s k c d a) :
    LaneWord i s st c.h c.lanes d c.ty.regs [(c.ty.regs, a)] c.ty.count c.ty.width (elemsOf c.ty)
      fun ops j => specialLane k c.ty (rmodeOf st .v c.rm) (flushes st .v) (arg c.ty ops 0 j) :=
  laneWord_of_unary h (f := fun st p => specialLane k c.ty (rmodeOf st .v c.rm) (flushes st .v) (p.getD 0 0)) hx
    fun _ _ => rfl

end

/-! ## Special operands and the range of the bounded functions (R203) -/

section
variable {t : Ty} {m : RMode} {fl : Bool} {k : SpecialFn} {x : Nat}

theorem decodeF_fInf (ht : t.isF = true) (fl neg : Bool) : decodeF (fmtOf t) fl (fInf (fmtOf t) neg) = .inf neg := by
  cases t with
  | f16 | bf16 | f32 | f64 => cases neg <;> rfl
  | _ => exact absurd ht (by decide)

theorem decodeF_fZero (ht : t.isF = true) (fl neg : Bool) :
    ∃ e, decodeF (fmtOf t) fl (fZero (fmtOf t) neg) = .num neg 0 e := by
  cases t with
  | f16 | bf16 | f32 | f64 => cases neg <;> cases fl <;> exact ⟨_, rfl⟩
  | _ => exact absurd ht (by decide)

/-- What a function gives at an infinity and at a zero. -/
theorem specialLane_special (ht : t.isF = true) (k : SpecialFn) (m : RMode) (fl : Bool) :
    specialLane k t m fl (fInf (fmtOf t) true) = k.ninf (fmtOf t) ∧
      specialLane k t m fl (0 + 2 ^ ((fmtOf t).eb + (fmtOf t).mb)) = k.zero (fmtOf t) true ∧
      specialLane k t m fl 0 = k.zero (fmtOf t) false ∧
      specialLane k t m fl (fInf (fmtOf t) false) = k.pinf (fmtOf t) := by
  obtain ⟨e, he⟩ := decodeF_fZero ht fl true
  obtain ⟨e', he'⟩ := decodeF_fZero ht fl false
  rw [fZero, boolNat, if_pos rfl, Nat.one_mul, ← Nat.zero_add (2 ^ _)] at he
  rw [fZero, boolNat, if_neg Bool.false_ne_true, Nat.zero_mul] at he'
  refine ⟨?_, ?_, ?_, ?_⟩
  · simp only [specialLane, decodeF_fInf ht, if_true]
  · simp only [specialLane, he, if_true]
  · simp only [specialLane, he', if_true]
  · simp only [specialLane, decodeF_fInf ht, Bool.false_eq_true, if_false]

theorem specialLane_nan {sig : Bool} (h : decodeF (fmtOf t) fl x = .nan sig) :
    specialLane k t m fl x = (fNan (fmtOf t), if sig then 1 else 0) := by
  simp only [specialLane, h]
  rfl

/-- A negative operand outside the domain is invalid. -/
theorem specialLane_negative {b : Nat} {e : Int} (hk : k.negOk = false)
    (h : decodeF (fmtOf t) fl x = .num true (b + 1) e) : specialLane k t m fl x = (fNan (fmtOf t), 1) := by
  simp only [specialLane, h, hk, Nat.succ_ne_zero, if_false, Bool.not_false, Bool.and_self, if_true]
  rfl

end

/-- The device's choice is one of the admissible patterns, or a zero, with the sign asked for. -/
theorem pickFrom_le (f : Fmt) (flush neg : Bool) (pick : Nat → Int) (k : Nat) (a : Approx) (lo hi : Nat) :
    ∃ p ≤ hi, (pickFrom f flush neg pick k a lo hi).1 = boolNat neg * 2 ^ (f.eb + f.mb) + p := by
  have hall : ∀ p ∈ admissible f k a lo hi, p ≤ hi := fun p hp => by
    have := (List.mem_filter.mp hp).2
    rw [Bool.and_eq_true, decide_eq_true_eq, decide_eq_true_eq] at this
    exact this.2.trans (Nat.min_le_left _ _)
  have hfold : ∀ (l : List Nat) (b : Nat), b ≤ hi → (∀ p ∈ l, p ≤ hi) → ∀ g : Nat → Bool,
      l.foldl (fun b p => if g p then max b p else b) b ≤ hi := by
    intro l
    induction l with
    | nil => exact fun b hb _ _ => hb
    | cons p l ih =>
      intro b hb hl g
      refine ih _ ?_ (fun q hq => hl q (.tail _ hq)) g
      show (if g p then max b p else b) ≤ hi
      split
      · exact Nat.max_le.mpr ⟨hb, hl p (.head _)⟩
      · exact hb
  have hhead : (admissible f k a lo hi).headD 0 ≤ hi := by
    cases hl : admissible f k a lo hi with
    | nil => exact Nat.zero_le _
    | cons p l => exact hall p (hl ▸ .head _)
  have hp := hfold _ _ hhead hall fun p => reaches f a p (pick (boolNat neg * 2 ^ (f.eb + f.mb) + p))
  simp only [pickFrom, choose]
  split
  · split
    · exact ⟨0, Nat.zero_le _, rfl⟩
    · exact ⟨_, hp, rfl⟩
  · split
    · exact ⟨_, hp, rfl⟩
    · exact ⟨_, hp, rfl⟩

theorem fnTanh_le (f : Fmt) (flush neg : Bool) (m : Nat) (e : Int) (pick : Nat → Int) :
    (fnTanh f flush neg m e pick).1 % 2 ^ (f.eb + f.mb) ≤ fOne f := by
  obtain ⟨a, ha⟩ : ∃ a, fnTanh f flush neg m e pick = pickFrom f flush neg pick 2 a 0 (fOne f) := ⟨_, rfl⟩
  obtain ⟨p, hp, hval⟩ := pickFrom_le f flush neg pick 2 a 0 (fOne f)
  rw [ha, hval, Nat.mul_comm, Nat.mul_add_mod]
  exact (Nat.mod_le _ _).trans hp

theorem fnSigm_le (f : Fmt) (flush neg : Bool) (m : Nat) (e : Int) (pick : Nat → Int) :
    (fnSigm f flush neg m e pick).1 ≤ fOne f := by
  obtain ⟨a, lo, hi, hhi, ha⟩ :
      ∃ a lo hi, hi ≤ fOne f ∧ fnSigm f flush neg m e pick = pickFrom f flush false pick 2 a lo hi := by
    unfold fnSigm
    cases neg
    · exact ⟨_, _, _, le_rfl, if_neg Bool.false_ne_true⟩
    · exact ⟨_, _, _, Nat.sub_le _ _, if_pos rfl⟩
  obtain ⟨p, hp, hval⟩ := pickFrom_le f flush false pick 2 a lo hi
  rw [ha, hval, show boolNat false = 0 from rfl, Nat.zero_mul, Nat.zero_add]
  exact hp.trans hhi

section
variable {t : Ty} {m : RMode} {fl : Bool} {k : SpecialFn} {x : Nat}

/-- A function defined on all numbers is its zero's value or that of a nonzero number. -/
theorem specialLane_num (hk : k.negOk = true) (h : IsNum (decodeF (fmtOf t) fl x)) :
    (∃ neg, specialLane k t m fl x = k.zero (fmtOf t) neg) ∨
      ∃ neg b e pick, specialLane k t m fl x = k.num (fmtOf t) m fl neg b e pick := by
  obtain ⟨neg, b, e, hd⟩ := h
  simp only [specialLane, hd, hk, Bool.not_true, Bool.and_false, Bool.false_eq_true, if_false]
  split
  · exact .inl ⟨_, rfl⟩
  · exact .inr ⟨_, _, _, _, rfl⟩

/-- R203: tanh stays within 1 in magnitude. -/
theorem specialLane_tanh_le (h : IsNum (decodeF (fmtOf t) fl x)) :
    (specialLane specTanh t m fl x).1 % 2 ^ ((fmtOf t).eb + (fmtOf t).mb) ≤ fOne (fmtOf t) := by
  rcases specialLane_num (k := specTanh) (m := m) rfl h with ⟨neg, hz⟩ | ⟨neg, b, e, pick, hn⟩
  · rw [hz]
    show boolNat neg * 2 ^ _ % 2 ^ _ ≤ _
    rw [Nat.mul_mod_left]
    exact Nat.zero_le _
  · rw [hn]
    exact fnTanh_le _ _ _ _ _ _

/-- R203: the logistic function stays between 0 and 1. -/
theorem specialLane_sigm_le (h : IsNum (decodeF (fmtOf t) fl x)) :
    (specialLane specSigm t m fl x).1 ≤ fOne (fmtOf t) := by
  rcases specialLane_num (k := specSigm) (m := m) rfl h with ⟨neg, hz⟩ | ⟨neg, b, e, pick, hn⟩
  · rw [hz]
    exact Nat.sub_le _ _
  · rw [hn]
    exact fnSigm_le _ _ _ _ _ _

end

theorem fmt_bounds : ∀ f ∈ [fmt16, fmtBf, fmt32, fmt64], 2 ≤ f.eb ∧ f.mb ≤ 100 := by decide

/-- R202 to R204: the special functions. -/
theorem specialFunctionWords : SpecialFunctionWords := by
  refine ⟨fun s st c d a h _ => ?_, fun t m fl ht => ?_, fun f hf m e hm => ?_⟩
  · exact ⟨specialWord_lanes h _ rfl, specialWord_lanes h _ rfl, specialWord_lanes h _ rfl, specialWord_lanes h _ rfl,
      specialWord_lanes h _ rfl, specialWord_lanes h _ rfl, specialWord_lanes h _ rfl, specialWord_lanes h _ rfl,
      specialWord_lanes h _ rfl⟩
  · intro f one half minus nv row
    have hrow : ∀ k w x y z, k.ninf f = w → k.zero f true = x → k.zero f false = y → k.pinf f = z → row k w x y z := by
      rintro k _ _ _ _ rfl rfl rfl rfl
      exact specialLane_special ht k m fl
    have hminus : fZero f true = minus 0 := by
      show boolNat true * _ = 0 + _
      rw [show boolNat true = 1 from rfl, Nat.one_mul, Nat.zero_add]
    have hzero : fZero f false = 0 := Nat.zero_mul _
    have hhalf : fOne f - 2 ^ f.mb = half := (Nat.sub_one_mul _ _).symm
    have hone : 2 ^ (f.eb + f.mb) + fOne f = minus one := Nat.add_comm _ _
    refine ⟨hrow _ _ _ _ _ rfl rfl rfl rfl, hrow _ _ _ _ _ rfl rfl rfl rfl, hrow _ _ _ _ _ rfl rfl rfl rfl,
      hrow _ _ _ _ _ rfl rfl rfl rfl, hrow _ _ _ _ _ ?_ rfl rfl rfl, hrow _ _ _ _ _ rfl rfl rfl rfl,
      hrow _ _ _ _ _ rfl ?_ ?_ rfl, hrow _ _ _ _ _ ?_ ?_ ?_ rfl, hrow _ _ _ _ _ rfl ?_ ?_ rfl,
      fun k hk x => ⟨fun sig hd => specialLane_nan hd, fun b e hmem hd => ?_, ?_, ?_⟩⟩
    · exact congrArg (·, 0) hminus
    · exact congrArg (·, 0) hminus
    · exact congrArg (·, 0) hzero
    · exact congrArg (·, 0) hone
    · exact congrArg (·, 0) hminus
    · exact congrArg (·, 0) hzero
    · exact congrArg (·, 0) hhalf
    · exact congrArg (·, 0) hhalf
    · refine specialLane_negative ?_ hd
      simp only [List.mem_cons, List.not_mem_nil, or_false] at hmem
      rcases hmem with rfl | rfl | rfl | rfl <;> rfl
    · rintro hnum rfl
      exact specialLane_tanh_le hnum
    · rintro hnum rfl
      exact specialLane_sigm_le hnum
  · intro x val inRange hrange
    obtain ⟨heb, hmb⟩ := fmt_bounds f hf
    exact fnSqrt_correctly_rounded heb hmb hm hrange.1

end Sys2Proof.Proofs


namespace Sys2Proof.Proofs

open Host (Outcome)
open Sys2Proof Machine Claims

/-! ## Lanes of a predicate (R207 to R210) -/

/-- A lane's code is of 32 bits, and marks the lane exactly when a coordinate was not finite. -/
theorem geoEval_code (k : Geo) (f64 : Bool) (coords : List Nat) (ids : Option (List Nat)) :
    (geoEval k f64 coords ids).1 < 2 ^ 32 ∧
      ((geoEval k f64 coords ids).2.2.1 = true ↔ (geoEval k f64 coords ids).1 = 0x80000000) := by
  unfold geoEval
  split
  · exact ⟨by decide, by simp⟩
  · next l _ =>
    have hcode : ∀ x : GeoLane, geoCode x < 32 := fun x => by
      have h1 : wrapInt x.sign 4 < 16 := by
        simp only [wrapInt]
        omega
      have h2 : boolNat x.tie ≤ 1 := by cases x.tie <;> decide
      rw [geoCode]
      omega
    have := hcode (geoLane k (chunk k.dim k.points l) ids)
    exact ⟨by simp only; omega, ⟨nofun, fun h => by simp only at h; omega⟩⟩

theorem lookup_map_self {α : Type} (g : Nat → α) (l : List Nat) (i : Nat) :
    (l.map fun j => (j, g j)).lookup i = if i ∈ l then some (g i) else none := by
  induction l with
  | nil => rfl
  | cons j l ih =>
    rw [List.map_cons, List.lookup_cons]
    by_cases h : i = j
    · subst h
      rw [beq_self_eq_true, if_pos (.head _)]
    · rw [beq_eq_false_iff_ne.mpr h]
      simp only [ih, List.mem_cons, h, false_or]

/-- A lane's code, stage, mark of a coordinate that is not finite and tie, for the lanes below 128 that are on. -/
def geoResults (en : Nat) (ev : Nat → Nat × Nat × Bool × Bool) : List (Nat × Nat × Nat × Bool × Bool) :=
  (filterBelow 128 (bit en)).map fun i => (i, ev i)

/-- The codes of a predicate as a register. -/
def geoValue (en : Nat) (ev : Nat → Nat × Nat × Bool × Bool) : Row :=
  BitVec.ofNat 4096 (packElems 32 ((List.range 128).map fun i =>
    match (geoResults en ev).lookup i with
    | some x => x.1
    | none => 0))

def geoMask (en : Nat) : Row :=
  BitVec.ofNat 4096 (packElems 32 ((List.range 128).map fun i => if bit en i then 2 ^ 32 - 1 else 0))

/-- The lanes with a coordinate that is not finite. -/
def geoNonFinite (en : Nat) (ev : Nat → Nat × Nat × Bool × Bool) : List Nat :=
  ((geoResults en ev).filter fun p => p.2.2.2.1).map (·.1)

section
variable {en i : Nat} {ev : Nat → Nat × Nat × Bool × Bool}

theorem elem_geoMask (hi : i < 128) : elem (geoMask en).toNat 32 i = if bit en i then 2 ^ 32 - 1 else 0 := by
  rw [geoMask, elem_ofNat (by omega), elem_packElems, getD_map_range _ _ _ hi]
  split <;> rfl

theorem elem_geoValue (hi : i < 128) (hlt : ∀ i, (ev i).1 < 2 ^ 32) :
    elem (geoValue en ev).toNat 32 i = if bit en i then (ev i).1 else 0 := by
  have hmem : i ∈ filterBelow 128 (bit en) ↔ bit en i = true := by
    rw [filterBelow, List.mem_filter, List.mem_range, and_iff_right hi]
  rw [geoValue, elem_ofNat (by omega), elem_packElems, getD_map_range _ _ _ hi, geoResults, lookup_map_self]
  simp only [hmem]
  by_cases hb : bit en i = true
  · rw [if_pos hb, if_pos hb]
    exact Nat.mod_eq_of_lt (hlt i)
  · rw [if_neg hb, if_neg hb]
    rfl

/-- The first of the lanes with a coordinate that is not finite. -/
theorem head?_geoNonFinite : (geoNonFinite en ev).head? = (List.range 128).find? fun i => bit en i && (ev i).2.2.1 := by
  rw [geoNonFinite, geoResults, List.filter_map, List.map_map, filterBelow, List.filter_filter, ← List.head?_filter]
  congr 1
  rw [show ((fun x : Nat × Nat × Nat × Bool × Bool => x.1) ∘ fun i => (i, ev i)) = id from rfl, List.map_id]
  exact List.filter_congr fun i _ => Bool.and_comm _ _

theorem head?_geoNonFinite_some {lane : Nat} : (geoNonFinite en ev).head? = some lane ↔
    lane < 128 ∧ bit en lane = true ∧ (ev lane).2.2.1 = true ∧
      ∀ j < lane, bit en j = true → (ev j).2.2.1 = false := by
  rw [head?_geoNonFinite, List.find?_range_eq_some]
  simp only [Bool.and_eq_true, Bool.not_eq_true', Bool.and_eq_false_imp, List.mem_range]
  exact ⟨fun ⟨⟨h1, h2⟩, h3, h4⟩ => ⟨h3, h1, h2, h4⟩, fun ⟨h3, h1, h2, h4⟩ => ⟨⟨h1, h2⟩, h3, h4⟩⟩

theorem head?_geoNonFinite_none (h : (geoNonFinite en ev).head? = none) (hi : i < 128) (hb : bit en i = true) :
    (ev i).2.2.1 = false := by
  rw [head?_geoNonFinite, List.find?_range_eq_none] at h
  have := h i hi
  rwa [hb, Bool.true_and, Bool.not_eq_true'] at this

end

/-! ## A predicate at issue (R205, R206) -/

/-- The run of a predicate, from the outcomes of its lanes. -/
def geoRun (i : Instr) (w : GeoWord) (st : Strand) (en : Nat) (ev : Nat → Nat × Nat × Bool × Bool) : PredRun :=
  { word := i, index := (getEng st .v).pc, pos := (getEng st .v).passed, dst := predDst st w.d, toSq := w.d == .sq,
    value := geoValue en ev, wmask := geoMask en, flags := 0,
    stage2 := ((geoResults en ev).filter fun p => p.2.2.1 == 2).length,
    stage3 := ((geoResults en ev).filter fun p => p.2.2.1 == 3).length,
    sos := ((geoResults en ev).filter fun p => p.2.2.2.2).length,
    nf := if w.nf then (geoNonFinite en ev).head? else none, poison := false }

/-- What a predicate costs (R438). -/
def geoCost (run : PredRun) : Nat := centiNj (80 + 2 * run.stage2 + 20 * run.stage3)

/-- The counters of a predicate (R401). -/
def geoCounted (st : Strand) (n1 n2 n3 ties nf : Nat) : Strand :=
  perfAdd (perfAdd (perfAdd (perfAdd (perfAdd st 0x60 n1) 0x61 n2) 0x62 n3) 0x63 ties) 0x64 nf

/-- The strand once a predicate runs: its result, if it goes to a register, is on its way without a value. -/
def geoStarted (clock : Nat) (st : Strand) (run : PredRun) (n nf : Nat) : Strand :=
  let counted := geoCounted st (n - run.stage2 - run.stage3) run.stage2 run.stage3 run.sos nf
  { counted with pred := some run, pending := counted.pending ++
    (run.dst.map fun r => ⟨.v, run.pos, r, none, run.wmask, clock, 15, false⟩) }

/-- What a predicate does once it has its coordinates and identifiers. -/
def geoIssue (clock : Nat) (k : Geo) (i : Instr) (w : GeoWord) (wk : Walker) (st : Strand) (s : State)
    (cs : List (List Nat)) (ids : Option (List (List Nat))) : Act State := do
  let en ← lanesOf st w.lanes
  await (w.d != .sq || decide (st.sq.length < 8))
  let ev := fun i => geoEval k w.f64 (cs.map fun l => l.getD i 0) (ids.map fun l => l.map fun x => x.getD i 0)
  let run := geoRun i w st en ev
  .ok (chargeStrand (putStrand s (Walker.ref wk) (stepPast s
    (geoStarted clock st run (geoResults en ev).length (geoNonFinite en ev).length) .v)) (Walker.ref wk) (geoCost run))

/-- What a predicate does at issue; with `.tb` it reads identifiers (R214). -/
def geoBody (clock : Nat) (k : Geo) (i : Instr) (w : GeoWord) (wk : Walker) (st : Strand) (s : State) : Act State := do
  await st.pred.isNone
  let cs ← coordAll st w (k.points * k.dim)
  match w.ids with
  | none => geoIssue clock k i w wk st s cs none
  | some b => do
    let l ← idLanes st b k.points
    geoIssue clock k i w wk st s cs (some l)

theorem predicateWord_eq (s : State) (k : Geo) (i : Instr) (w : GeoWord) :
    predicateWord s k i w = issueWith s w.tk (geoBody s.clock k i w) := by
  obtain ⟨tk, f64, lanes, nf, ids, d, a⟩ := w
  cases ids <;> rfl

theorem perfAdd_same (st : Strand) (evt n : Nat) : (perfAdd st evt n).engs = st.engs ∧
    (perfAdd st evt n).lq = st.lq ∧ (perfAdd st evt n).sq = st.sq ∧ (perfAdd st evt n).pending = st.pending :=
  ⟨rfl, rfl, rfl, rfl⟩

theorem geoCounted_same (st : Strand) (n1 n2 n3 ties nf : Nat) :
    let u := geoCounted st n1 n2 n3 ties nf
    u.engs = st.engs ∧ u.lq = st.lq ∧ u.sq = st.sq ∧ u.pending = st.pending ∧ ∀ r, regBits u r = regBits st r := by
  refine ⟨?_, ?_, ?_, ?_, fun r => ?_⟩ <;>
    simp only [geoCounted, (perfAdd_same _ _ _).1, (perfAdd_same _ _ _).2.1, (perfAdd_same _ _ _).2.2.1,
      (perfAdd_same _ _ _).2.2.2, regBits_perfAdd]

section
variable {clock : Nat} {st : Strand} {run : PredRun} {n nf : Nat}

/-- What a predicate that starts leaves. -/
theorem geoStarted_same :
    let u := geoStarted clock st run n nf
    u.engs = st.engs ∧ u.lq = st.lq ∧ u.sq = st.sq ∧ u.pred = some run ∧
      u.pending = st.pending ++ (run.dst.map fun r => ⟨.v, run.pos, r, none, run.wmask, clock, 15, false⟩) := by
  obtain ⟨h1, h2, h3, h4, -⟩ := geoCounted_same st (n - run.stage2 - run.stage3) run.stage2 run.stage3 run.sos nf
  exact ⟨h1, h2, h3, rfl, congrArg (· ++ _) h4⟩

/-- A result without a value leaves every register as it stands. -/
theorem latest_geoStarted (r : Reg) : latest (geoStarted clock st run n nf) r = latest st r := by
  obtain ⟨-, -, -, -, hpending⟩ := geoStarted_same (clock := clock) (st := st) (run := run) (n := n) (nf := nf)
  have hbits : regBits (geoStarted clock st run n nf) r = regBits st r := by
    obtain ⟨-, -, -, -, hcount⟩ := geoCounted_same st (n - run.stage2 - run.stage3) run.stage2 run.stage3 run.sos nf
    rw [← hcount r]
    cases r <;> rfl
  have hskip : ∀ (l : List Reg) (x : BitVec 4096),
      (l.map fun q => (⟨.v, run.pos, q, none, run.wmask, clock, 15, false⟩ : Pending)).foldl (landOne r) x = x := by
    intro l x
    induction l with
    | nil => rfl
    | cons q l ih =>
      have : landOne r x ⟨.v, run.pos, q, none, run.wmask, clock, 15, false⟩ = x := ite_self _
      rw [List.map_cons, List.foldl_cons, this, ih]
  rw [latest, hpending, hbits, List.foldl_append, hskip]
  rfl

end

/-- The type of the coordinates, and how many registers hold one. -/
def geoTy (w : GeoWord) : Ty := if w.f64 then .f64 else .f32
def geoPer (w : GeoWord) : Nat := if w.f64 then 2 else 1

/-- Coordinate `m` of every lane, as the registers of the word hold it. -/
def geoCoord (st : Strand) (w : GeoWord) (m : Nat) : List Nat :=
  elemsOf (geoTy w) ((List.range (geoPer w)).map fun j =>
    (regBits st (.v (groupV st (w.a + BitVec.ofNat 6 (geoPer w * m)) j))).toNat)

section
variable {s : State} {st : Strand} {T : Tokens} {w : GeoWord} {lq : List LqEntry}

theorem coordAll_ok (h : ∀ n, Readable st (.v n)) (n : Nat) :
    coordAll (reading s st T lq) w n = .ok ((List.range n).map (geoCoord st w)) := by
  induction n with
  | zero => rfl
  | succ n ih =>
    have hlane : coordLanes (reading s st T lq) w n = .ok (geoCoord st w n) := by
      simp only [coordLanes, readGroupV_ok fun _ _ => h _, bind, Except.bind]
      rfl
    simp only [coordAll, ih, hlane, bind, Except.bind, List.range_succ, List.map_append, List.map_cons, List.map_nil]

theorem idLanes_ok (h : ∀ n, Readable st (.v n)) (b : BitVec 6) (n : Nat) :
    idLanes (reading s st T lq) b n =
      .ok ((List.range n).map fun m => elemsOf .u32 [(regBits st (.v (groupV st b m))).toNat]) := by
  simp only [idLanes, readGroupV_ok fun _ _ => h _, bind, Except.bind, List.map_map]
  rfl

/-- The outcome of a lane, from the registers that its word reads. -/
def geoLaneOf (st : Strand) (k : Geo) (w : GeoWord) (i : Nat) : Nat × Nat × Bool × Bool :=
  geoEval k w.f64 ((List.range (k.points * k.dim)).map fun m => (geoCoord st w m).getD i 0)
    (w.ids.map fun b => (List.range k.points).map fun m =>
      (elemsOf .u32 [(regBits st (.v (groupV st b m))).toNat]).getD i 0)

/-- A predicate that has its operands issues. -/
theorem geoBody_ok {clock : Nat} {k : Geo} {i : Instr} {wk : Walker} {s' : State} {en : Nat} (hpred : st.pred = none)
    (hr : ∀ n, Readable st (.v n)) (hsq : w.d = .sq → st.sq.length < 8)
    (hen : lanesOf (reading s st T lq) w.lanes = .ok en) :
    let ev := geoLaneOf st k w
    let run := geoRun i w (reading s st T lq) en ev
    geoBody clock k i w wk (reading s st T lq) s' = .ok (chargeStrand (putStrand s' (Walker.ref wk) (stepPast s'
      (geoStarted clock (reading s st T lq) run (geoResults en ev).length (geoNonFinite en ev).length) .v))
      (Walker.ref wk) (geoCost run)) := by
  intro ev run
  have hfree : (reading s st T lq).pred.isNone = true := by
    show st.pred.isNone = true
    rw [hpred]; rfl
  have hroom : (w.d != .sq || decide ((reading s st T lq).sq.length < 8)) = true := by
    by_cases hd : w.d = .sq
    · rw [Bool.or_eq_true, decide_eq_true_eq]
      exact .inr (hsq hd)
    · rw [bne_iff_ne.mpr hd, Bool.true_or]
  have hissue : ∀ ids, (fun i => geoEval k w.f64 (((List.range (k.points * k.dim)).map (geoCoord st w)).map fun l =>
        l.getD i 0) (ids.map fun l => l.map fun x => x.getD i 0)) = ev →
      geoIssue clock k i w wk (reading s st T lq) s' ((List.range (k.points * k.dim)).map (geoCoord st w)) ids =
        .ok (chargeStrand (putStrand s' (Walker.ref wk) (stepPast s' (geoStarted clock (reading s st T lq) run
          (geoResults en ev).length (geoNonFinite en ev).length) .v)) (Walker.ref wk) (geoCost run)) := by
    intro ids hev
    simp only [geoIssue, hen, hroom, await, bind, Except.bind, if_true, hev]
    rfl
  have hcoords : ∀ i, ((List.range (k.points * k.dim)).map (geoCoord st w)).map (fun l => l.getD i 0) =
      (List.range (k.points * k.dim)).map fun m => (geoCoord st w m).getD i 0 := fun i => List.map_map
  simp only [geoBody, hfree, coordAll_ok hr, await, bind, Except.bind, if_true]
  cases hids : w.ids with
  | none =>
    refine hissue none (funext fun i => ?_)
    rw [hcoords, show ev i = geoLaneOf st k w i from rfl, geoLaneOf, hids]
    rfl
  | some b =>
    simp only [idLanes_ok hr]
    refine hissue _ (funext fun i => ?_)
    rw [hcoords, show ev i = geoLaneOf st k w i from rfl, geoLaneOf, hids, Option.map_some, List.map_map]
    rfl

/-- A predicate that has its operands starts. -/
theorem geo_starts {k : Geo} {i : Instr} (hat : AtEngine s .v st) (htk : TokensReady st .v w.tk)
    (hpred : st.pred = none) (hl : LanesKnown st w.lanes) (hr : ∀ n, Readable st (.v n)) (hsq : w.d = .sq → st.sq.length < 8)
    (hx : exec i s = issueWith s w.tk (geoBody s.clock k i w)) :
    ∃ t T en s', (∀ j < 1024, bit en j = laneOn st w.lanes j) ∧
      VDone i s st st.lq t (stepPast s' (geoStarted s.clock (reading s st T st.lq)
        (geoRun i w (reading s st T st.lq) en (geoLaneOf st k w)) (geoResults en (geoLaneOf st k w)).length
        (geoNonFinite en (geoLaneOf st k w)).length) .v) := by
  obtain ⟨T, hT⟩ := takeTokens_reading (s := s) htk
  obtain ⟨en, hen, hbits⟩ := lanesOf_ok (s := s) (T := T) (lq := st.lq) hl
  obtain ⟨hengs, hlq, -⟩ := geoStarted_same (clock := s.clock) (st := reading s st T st.lq)
    (run := geoRun i w (reading s st T st.lq) en (geoLaneOf st k w)) (n := (geoResults en (geoLaneOf st k w)).length)
    (nf := (geoNonFinite en (geoLaneOf st k w)).length)
  obtain ⟨t, hdone⟩ := vDone_of_charged hat hx hT (geoBody_ok hpred hr hsq hen) hengs
  rw [hlq] at hdone
  exact ⟨t, T, en, _, hbits, hdone⟩

end

end Sys2Proof.Proofs


namespace Sys2Proof.Proofs

open Host (Outcome)
open Sys2Proof Machine Claims

/-! ## Landing a value that several results give alike -/

theorem regBits_landBits_v (st : Strand) (n : BitVec 6) (x m : BitVec 4096) (b : Bool) :
    regBits (landBits st (.v n) x m b) (.v n) = overlay (regBits st (.v n)) x m := by
  rw [landBits_regBits]
  exact vget_set_same _ _ _ n.toFin.isLt

theorem overlay_twice (old x m : BitVec 4096) : overlay (overlay old x m) x m = overlay old x m := by
  apply BitVec.eq_of_getLsbD_eq
  intro i hi
  simp only [overlay, BitVec.getLsbD_or, BitVec.getLsbD_and, BitVec.getLsbD_not, hi, decide_true, Bool.true_and]
  cases m.getLsbD i <;> simp

/-- Results of one value to the same bits of a vector register leave that value in them. -/
theorem regBits_landReg_v {n : BitVec 6} {x m y : BitVec 4096} (l kept : List Pending) (st : Strand)
    (hk : ∀ q ∈ kept, q.reg ≠ .v n) (hl : ∀ p ∈ l, p.reg = .v n → p.val = some x ∧ p.mask = m)
    (hy : overlay (regBits st (.v n)) x m = y) (hx : (∃ p ∈ l, p.reg = .v n) ∨ regBits st (.v n) = y) :
    regBits (landReg st (.v n) l kept) (.v n) = y := by
  induction l generalizing kept st with
  | nil =>
    obtain ⟨p, hp, -⟩ | h := hx
    · cases hp
    · rw [landReg, regBits_pending, h]
  | cons p t ih =>
    have ht : ∀ q ∈ t, q.reg = .v n → q.val = some x ∧ q.mask = m := fun q hq => hl q (.tail _ hq)
    by_cases hp : p.reg = .v n
    · obtain ⟨hv, hm⟩ := hl p (.head _) hp
      have hn : (kept.any fun q => q.reg == .v n) = false := by
        rw [List.any_eq_false]; intro q hq; simpa using hk q hq
      simp only [landReg, hv, hp, hn, hm, decide_true, Bool.not_false, Bool.and_self, if_true]
      have hbits := regBits_landBits_v st n x m p.poison
      rw [hy] at hbits
      exact ih _ _ hk ht (by rw [hbits, ← hy, overlay_twice]) (.inr hbits)
    · have hstep : landReg st (.v n) (p :: t) kept = landReg st (.v n) t (p :: kept) := by
        simp only [landReg, hp, decide_false, Bool.false_and]
        split <;> rfl
      rw [hstep]
      refine ih _ _ (fun q hq => ?_) ht hy (hx.imp (fun ⟨q, hq, hr⟩ => ?_) id)
      · rcases List.mem_cons.mp hq with rfl | hq
        · exact hp
        · exact hk q hq
      · rcases List.mem_cons.mp hq with rfl | hq
        · exact absurd hr hp
        · exact ⟨q, hq, hr⟩

/-- Once the results to a register that all have a value have landed, nothing is on its way to it. -/
theorem pending_landReg {r : Reg} (l kept : List Pending) (st : Strand) (hk : ∀ q ∈ kept, q.reg ≠ r)
    (hl : ∀ p ∈ l, p.reg = r → p.val ≠ none) : ∀ q ∈ (landReg st r l kept).pending, q.reg ≠ r := by
  induction l generalizing kept st with
  | nil => exact fun q hq => hk q (List.mem_reverse.mp hq)
  | cons p t ih =>
    have ht : ∀ q ∈ t, q.reg = r → q.val ≠ none := fun q hq => hl q (.tail _ hq)
    have hkept : p.reg ≠ r → ∀ q ∈ p :: kept, q.reg ≠ r := by
      intro hp q hq
      rcases List.mem_cons.mp hq with rfl | hq
      · exact hp
      · exact hk q hq
    unfold landReg
    split
    · next x hv =>
      split
      · exact ih _ _ hk ht
      · next hc =>
        refine ih _ _ (hkept fun hp => hc ?_) ht
        rw [hp, decide_eq_true rfl, Bool.true_and, Bool.not_eq_true', List.any_eq_false]
        intro q hq
        simpa using hk q hq
    · next hv => exact ih _ _ (hkept fun hp => hl p (.head _) hp hv) ht

/-- Landing all that is known leaves a register that nothing is on its way to. -/
theorem regBits_landAll_other {r : Reg} (l kept : List Pending) (st : Strand) (hl : ∀ p ∈ l, p.reg ≠ r) :
    regBits (landAll st l kept) r = regBits st r := by
  induction l generalizing kept st with
  | nil => rw [landAll, regBits_pending]
  | cons p t ih =>
    have ht : ∀ q ∈ t, q.reg ≠ r := fun q hq => hl q (.tail _ hq)
    unfold landAll
    split
    · split
      · exact ih _ _ ht
      · rw [ih _ _ ht, regBits_landBits_other _ _ _ _ _ _ (hl p (.head _)).symm]
    · exact ih _ _ ht

/-! ## A late fault (R403) -/

/-- The strand that a fault freezes: what was known has landed, and the fault is queued. -/
def frozenWith (st : Strand) (q : QFault) : Strand :=
  { releaseSeen (landAll st st.pending []) with
    frozen := true, faults := addFault (releaseSeen (landAll st st.pending [])).faults q }

theorem queueFault_frozenWith {s : State} {r : SRef} {st : Strand} (h : getStrand s r = some st) (q : QFault) :
    getStrand (queueFault s r q) r = some (frozenWith st q) := by
  simp only [queueFault, h, getStrand_putStrand]
  rfl

/-- A fault of an earlier word that no poisoned unit causes. -/
theorem raiseLate_frozenWith {s : State} {r : SRef} {st : Strand} (h : getStrand s r = some st) (e : Eng) (index : Nat)
    {t : Trap} (ht : t.unit = none) : getStrand (raiseLate s r e index t) r =
      some (frozenWith st ⟨t, Eng.code e, index, st.overlay.toNat, none, none, s.clock⟩) := by
  have hl : ∀ q : QFault, getStrand (noteError (logFault s r.cell st.part q) r.cell q.trap) r = some st := fun q => by
    simpa [getStrand] using h
  simp only [raiseLate, raiseAt, firstDetection, h, ht, getStrand_dropAnswers]
  exact queueFault_frozenWith (hl _) _

theorem restOf_frozenWith (st : Strand) (q : QFault) :
    (frozenWith st q).pred = st.pred ∧ (frozenWith st q).sq = st.sq ∧ (frozenWith st q).frozen = true ∧
      (frozenWith st q).faults = addFault st.faults q := by
  have hrest := (landAll_same st.pending [] st).1
  have hpred : (restOf (landAll st st.pending [])).pred = (restOf st).pred := by rw [hrest]
  have hsq : (restOf (landAll st st.pending [])).sq = (restOf st).sq := by rw [hrest]
  exact ⟨hpred, hsq, rfl, congrArg (addFault · q) (faults_landAll st.pending [] st)⟩

theorem regBits_frozenWith {st : Strand} {r : Reg} (h : ∀ p ∈ st.pending, p.reg ≠ r) (q : QFault) :
    regBits (frozenWith st q) r = regBits st r := by
  rw [← regBits_landAll_other st.pending [] st h]
  cases r <;> rfl

/-! ## A predicate completes (R210, R212) -/

/-- The strand once its predicate has given its result. -/
def geoFinished (st : Strand) (p : PredRun) : Strand :=
  if p.toSq then { st with pred := none, sq := st.sq ++ [{ data := p.value &&& p.wmask, poison := p.poison }] }
  else p.dst.foldl (fun st x => landReg st x st.pending []) (fillPending { st with pred := none } .v p.pos p.value)

/-- The state once its predicate has completed. -/
def geoCompleted (s : State) (st : Strand) (p : PredRun) : State :=
  match p.nf with
  | none => putStrand s (Walker.ref s.cur) (geoFinished st p)
  | some lane => raiseLate (putStrand s (Walker.ref s.cur) (geoFinished st p)) (Walker.ref s.cur) .v p.index
      { cause := .nonFinite, addr := lane }

theorem exec_predicateComplete {s : State} {st : Strand} {p : PredRun} (h : getStrand s (Walker.ref s.cur) = some st)
    (hp : st.pred = some p) : exec .predicateComplete s = .next (geoCompleted s st p) := by
  show execPredicateComplete s = _
  simp only [execPredicateComplete, h, hp, geoCompleted, geoFinished]
  cases p.nf <;> rfl

section
variable {st : Strand} {p : PredRun}

theorem restOf_landRegs (l : List Reg) (st : Strand) :
    restOf (l.foldl (fun st x => landReg st x st.pending []) st) = restOf st := by
  induction l generalizing st with
  | nil => rfl
  | cons r l ih => rw [List.foldl_cons, ih, restOf_landReg]

theorem geoFinished_same : (geoFinished st p).pred = none ∧ (geoFinished st p).faults = st.faults ∧
    (p.toSq = true → (geoFinished st p).sq = st.sq ++ [{ data := p.value &&& p.wmask, poison := p.poison }]) ∧
    (p.toSq = false → (geoFinished st p).sq = st.sq) := by
  unfold geoFinished
  split
  · next h => exact ⟨rfl, rfl, fun _ => rfl, fun h' => Bool.noConfusion (h.symm.trans h')⟩
  · next h =>
    have hrest := restOf_landRegs p.dst (fillPending { st with pred := none } .v p.pos p.value)
    have hpred := congrArg Strand.pred hrest
    have hfaults := congrArg Strand.faults hrest
    have hsq := congrArg Strand.sq hrest
    exact ⟨hpred, hfaults, fun h' => absurd h' h, fun _ => hsq⟩

/-- A predicate whose result goes to a register writes its lanes there, and nothing more is on its way to it. -/
theorem geoFinished_reg {n : BitVec 6} (hsq : p.toSq = false) (hdst : p.dst = [.v n])
    (hall : ∀ q ∈ st.pending, q.reg = .v n → q.eng = .v ∧ q.pos = p.pos ∧ q.val = none ∧ q.mask = p.wmask)
    (hex : ∃ q ∈ st.pending, q.reg = .v n) :
    regBits (geoFinished st p) (.v n) = overlay (regBits st (.v n)) p.value p.wmask ∧
      ∀ q ∈ (geoFinished st p).pending, q.reg ≠ .v n := by
  have hfin : geoFinished st p = landReg (fillPending { st with pred := none } .v p.pos p.value) (.v n)
      (fillPending { st with pred := none } .v p.pos p.value).pending [] := by
    rw [geoFinished, hsq, if_neg Bool.false_ne_true, hdst]
    rfl
  have hfilled : ∀ q ∈ (fillPending { st with pred := none } .v p.pos p.value).pending, q.reg = .v n →
      q.val = some p.value ∧ q.mask = p.wmask := by
    intro q hq hreg
    obtain ⟨q', hq', rfl⟩ := List.mem_map.mp hq
    have hreg' : q'.reg = .v n := by
      revert hreg
      split <;> exact id
    obtain ⟨he, hpos, hval, hmask⟩ := hall q' hq' hreg'
    simp only [he, hpos, hval, beq_self_eq_true, Option.isNone_none, Bool.and_self, if_true, hmask, and_self]
  have hsome : ∃ q ∈ (fillPending { st with pred := none } .v p.pos p.value).pending, q.reg = .v n := by
    obtain ⟨q, hq, hreg⟩ := hex
    refine ⟨_, List.mem_map_of_mem hq, ?_⟩
    split <;> exact hreg
  have hbits : regBits (fillPending { st with pred := none } .v p.pos p.value) (.v n) = regBits st (.v n) := rfl
  rw [hfin]
  have hnil : ∀ q ∈ ([] : List Pending), q.reg ≠ .v n := fun _ hq => absurd hq List.not_mem_nil
  refine ⟨regBits_landReg_v _ _ _ hnil hfilled (congrArg (overlay · p.value p.wmask) hbits) (.inl hsome), ?_⟩
  exact pending_landReg _ _ _ hnil fun q hq hreg => by rw [(hfilled q hq hreg).1]; exact nofun

end

/-- R210, R212: the result of a predicate comes as one write or one SQ entry, and NONFINITE follows. -/
theorem predicate_completes {s : State} {st : Strand} {run : PredRun}
    (h : getStrand s (Walker.ref s.cur) = some st) (hp : st.pred = some run) :
    ∃ t u, exec .predicateComplete s = .next t ∧ getStrand t (Walker.ref s.cur) = some u ∧ u.pred = none ∧
      (run.nf = none → t.mem = s.mem) ∧ u.sq = (geoFinished st run).sq ∧
      (∀ r, (∀ q ∈ (geoFinished st run).pending, q.reg ≠ r) → regBits u r = regBits (geoFinished st run) r) ∧
      (∀ lane, run.nf = some lane → u.frozen = true ∧ ∃ q, u.faults = addFault st.faults q ∧
        q.trap.cause = .nonFinite ∧ q.trap.addr = lane ∧ q.eng = 2 ∧ q.word = run.index) := by
  obtain ⟨hpred, hfaults, -, -⟩ := geoFinished_same (st := st) (p := run)
  have hput : getStrand (putStrand s (Walker.ref s.cur) (geoFinished st run)) (Walker.ref s.cur) =
      some (geoFinished st run) := getStrand_putStrand _ _ _
  rw [exec_predicateComplete h hp]
  cases hnf : run.nf with
  | none =>
    have hdone : geoCompleted s st run = putStrand s (Walker.ref s.cur) (geoFinished st run) := by
      simp only [geoCompleted, hnf]
    refine ⟨_, _, rfl, hdone ▸ hput, hpred, fun _ => by rw [hdone]; rfl, rfl, fun _ _ => rfl, nofun⟩
  | some lane =>
    have hdone : geoCompleted s st run = raiseLate (putStrand s (Walker.ref s.cur) (geoFinished st run))
        (Walker.ref s.cur) .v run.index { cause := .nonFinite, addr := lane } := by
      simp only [geoCompleted, hnf]
    have hlate := raiseLate_frozenWith hput .v run.index (t := { cause := .nonFinite, addr := lane }) rfl
    generalize hq : (⟨{ cause := .nonFinite, addr := lane }, Eng.code .v, run.index, _, none, none, _⟩ : QFault) = q
      at hlate
    obtain ⟨hpred', hsq, hfrozen, hfaults'⟩ := restOf_frozenWith (geoFinished st run) q
    refine ⟨_, _, rfl, hdone ▸ hlate, hpred'.trans hpred, nofun, hsq, fun r hr => regBits_frozenWith hr q, ?_⟩
    rintro _ ⟨⟩
    rw [hfaults] at hfaults'
    exact ⟨hfrozen, q, hfaults', by subst hq; exact ⟨rfl, rfl, rfl, rfl⟩⟩

end Sys2Proof.Proofs


namespace Sys2Proof.Proofs

open Host (Outcome)
open Sys2Proof Machine Claims

/-! ## The words of the predicates (R33, R205, R206) -/

/-- The model's word of each predicate issues it. -/
theorem exec_predicate (w : GeoWord) (s : State) :
    exec (.vorient2 w) s = issueWith s w.tk (geoBody s.clock .orient2 (.vorient2 w) w) ∧
    exec (.vorient3 w) s = issueWith s w.tk (geoBody s.clock .orient3 (.vorient3 w) w) ∧
    exec (.vincirc w) s = issueWith s w.tk (geoBody s.clock .incirc (.vincirc w) w) ∧
    exec (.vinsph w) s = issueWith s w.tk (geoBody s.clock .insph (.vinsph w) w) ∧
    exec (.vsegx w) s = issueWith s w.tk (geoBody s.clock .segx (.vsegx w) w) :=
  ⟨predicateWord_eq _ _ _ _, predicateWord_eq _ _ _ _, predicateWord_eq _ _ _ _, predicateWord_eq _ _ _ _,
    predicateWord_eq _ _ _ _⟩

/-- Identifiers are the 32-bit elements of their registers. -/
theorem elemsOf_u32_getD {i : Nat} (hi : i < 128) (x : Nat) : (elemsOf .u32 [x]).getD i 0 = elem x 32 i :=
  elemsOf_getD hi [x]

section
variable {st : Strand} {w : GeoWord} {en : Nat} {i : Instr} {ev : Nat → Nat × Nat × Bool × Bool}

/-- NONFINITE is due for the first enabled lane whose code says so, where the word asks for it. -/
theorem geoRun_nf (hcode : ∀ j, (ev j).1 < 2 ^ 32 ∧ ((ev j).2.2.1 = true ↔ (ev j).1 = 0x80000000)) :
    let run := geoRun i w st en ev
    (w.nf = true → (∃ j < 128, bit en j = true ∧ elem run.value.toNat 32 j = 0x80000000) → run.nf ≠ none) ∧
    (w.nf = true → ∀ lane, run.nf = some lane → lane < 128 ∧ elem run.value.toNat 32 lane = 0x80000000 ∧
      ∀ j < lane, bit en j = true → elem run.value.toNat 32 j ≠ 0x80000000) ∧
    (w.nf = false → run.nf = none) := by
  intro run
  have hval : ∀ j < 128, bit en j = true → elem run.value.toNat 32 j = (ev j).1 := fun j hj hb => by
    have := elem_geoValue (en := en) (ev := ev) hj fun j => (hcode j).1
    rwa [if_pos hb] at this
  have hnf : w.nf = true → run.nf = (geoNonFinite en ev).head? := fun h => by
    simp only [run, geoRun, h, if_true]
  refine ⟨fun h hex hnone => ?_, fun h lane hlane => ?_, fun h => ?_⟩
  · obtain ⟨j, hj, hb, hv⟩ := hex
    rw [hval j hj hb, ← (hcode j).2] at hv
    rw [hnf h] at hnone
    rw [head?_geoNonFinite_none hnone hj hb] at hv
    exact Bool.false_ne_true hv
  · rw [hnf h] at hlane
    obtain ⟨hlt, hb, hmark, hfirst⟩ := head?_geoNonFinite_some.mp hlane
    refine ⟨hlt, (hval lane hlt hb).trans ((hcode lane).2.mp hmark), fun j hj hbj hv => ?_⟩
    rw [hval j (by omega) hbj, ← (hcode j).2, hfirst j hj hbj] at hv
    exact Bool.false_ne_true hv
  · simp only [run, geoRun, h, Bool.false_eq_true, if_false]

end

theorem stepPast_pred (s : State) (st : Strand) (e : Eng) : (stepPast s st e).pred = st.pred ∧
    (stepPast s st e).pending = st.pending ∧ (stepPast s st e).lq = st.lq := ⟨rfl, rfl, rfl⟩

/-- R33, R205, R206, R210, R212: predicates start and complete. -/
theorem predicateWords : PredicateWords := by
  refine ⟨fun s st w hat htk hpred hl hr hsq => ?_, fun s st run h hp => ?_⟩
  · intro per t reg coord starts
    have hstarts : ∀ k i, exec i s = issueWith s w.tk (geoBody s.clock k i w) → starts k i := by
      intro k i hx
      obtain ⟨t', T, en, s', hbits, hgo, -, hse, hoth⟩ := geo_starts hat htk hpred hl hr hsq hx
      generalize hrun : geoRun i w (reading s st T st.lq) en (geoLaneOf st k w) = run at hgo hoth
      generalize (geoResults en (geoLaneOf st k w)).length = n, (geoNonFinite en (geoLaneOf st k w)).length = nf
        at hgo hoth
      obtain ⟨-, hlq, hsq', hrunning, hpending⟩ := geoStarted_same (clock := s.clock) (st := reading s st T st.lq)
        (run := run) (n := n) (nf := nf)
      obtain ⟨hpred', hpending', hlq'⟩ := stepPast_pred s' (geoStarted s.clock (reading s st T st.lq) run n nf) .v
      have hcode : ∀ j, (geoLaneOf st k w j).1 < 2 ^ 32 ∧
          ((geoLaneOf st k w j).2.2.1 = true ↔ (geoLaneOf st k w j).1 = 0x80000000) := fun j => geoEval_code _ _ _ _
      obtain ⟨hnf, hlane, hno⟩ := geoRun_nf (st := reading s st T st.lq) (w := w) (en := en) (i := i) hcode
      rw [hrun] at hnf hlane hno
      have hon : ∀ j < 128, bit en j = laneOn st w.lanes j := fun j hj => hbits j (by omega)
      refine ⟨_, t', run, hgo, hse, hoth, hpred'.trans hrunning, hrun ▸ rfl, (stepPast_queues _ _ _).2.2.2.trans hsq',
        hlq'.trans hlq, fun r => ?_, hrun ▸ rfl, fun m hm => ?_, fun j hj => ?_, fun j hj hb => ?_,
        fun h ⟨j, hj, hb, hv⟩ => hnf h ⟨j, hj, (hon j hj).trans hb, hv⟩, fun h lane hla => ?_, hno⟩
      · rw [latest_stepPast, latest_geoStarted, latest_reading]
      · have hdst : run.dst = [.v (groupV st m 0)] := by
          rw [← hrun, groupV_zero]
          simp only [geoRun, hm, predDst]
          rfl
        refine ⟨⟨.v, run.pos, .v (groupV st m 0), none, run.wmask, s.clock, 15, false⟩, ?_, rfl, rfl, rfl⟩
        rw [hpending', hpending, hdst]
        rfl
      · rw [← hrun, ← hon j hj]
        exact elem_geoMask hj
      · have hval := elem_geoValue (en := en) (ev := geoLaneOf st k w) hj fun j => (hcode j).1
        rw [hon j hj, if_pos hb] at hval
        rw [← hrun]
        refine hval.trans ?_
        simp only [geoLaneOf, elemsOf_u32_getD hj]
        rfl
      · obtain ⟨hlt, h1, h2⟩ := hlane h lane hla
        exact ⟨h1, fun j hj hb => h2 j hj ((hon j (hj.trans hlt)).trans hb)⟩
    obtain ⟨h1, h2, h3, h4, h5⟩ := exec_predicate w s
    exact ⟨hstarts _ _ h1, hstarts _ _ h2, hstarts _ _ h3, hstarts _ _ h4, hstarts _ _ h5⟩
  · obtain ⟨t, u, hx, hu, hnone, hmem, hsq, hreg, hnf⟩ := predicate_completes h hp
    obtain ⟨-, -, hto, hno⟩ := geoFinished_same (st := st) (p := run)
    refine ⟨t, u, hx, hu, hnone, hmem, fun h => hsq.trans (hto h), fun h => ⟨hsq.trans (hno h), ?_⟩, hnf⟩
    intro n hdst hall hex _
    obtain ⟨hbits, hpend⟩ := geoFinished_reg h hdst hall hex
    exact (hreg _ hpend).trans hbits

/-- Settles O35: special functions complete lane by lane within their bounds, `vsqrt` rounds the exact root, and
predicates start and complete as their lanes say. -/
theorem specialAndPredicateWords : Obligations.SpecialAndPredicateWords := by
  unfold Obligations.SpecialAndPredicateWords
  exact ⟨specialFunctionWords, predicateWords⟩

end Sys2Proof.Proofs

namespace Sys2Proof.Proofs

open Host (Outcome)
open Sys2Proof Machine Claims

/-! # Canonical memories (R58, R109, R301)

Few operations write a byte: `mwrite` and `writeN` in memory, in a cell's scratchpad and in a staging area, and the
filters of a scrub and of a teardown; each keeps the canonical form (`mwrite_wf`, `writeN_wf`, `filter_wf`). A lemma for
each function that gives a state says that the state it gives is canonical if the one that it was given is. They follow
the order of the model, so that each rests on those of the functions that it calls. -/

/-! ## The parts that count -/

theorem canonical_iff {s : State} : Canonical s ↔ memWf s.mem = true ∧ (∀ x ∈ s.cells, memWf x.2.spm = true) ∧
    ∀ d, ∀ x ∈ (s.dies.get d).coll, memWf x.2.staging = true := by
  simp only [Canonical, getDie]
  constructor
  · rintro ⟨hm, hc, hd⟩
    exact ⟨hm, hc, fun d => by simpa using hd d.val⟩
  · rintro ⟨hm, hc, hd⟩
    exact ⟨hm, hc, fun d => hd _⟩

theorem canonical_of_mem {s t : State} (hs : Canonical s) (hm : memWf t.mem) (hc : t.cells = s.cells)
    (hd : t.dies = s.dies) : Canonical t := by
  obtain ⟨-, h2, h3⟩ := canonical_iff.mp hs
  exact canonical_iff.mpr ⟨hm, hc ▸ h2, hd ▸ h3⟩

/-- Where memory stays, the cells keep their scratchpads and the dies their staging areas. -/
theorem canonical_of_same {s t : State} (hs : Canonical s) (hm : t.mem = s.mem) (hc : t.cells = s.cells)
    (hd : t.dies = s.dies) : Canonical t :=
  canonical_of_mem hs (hm ▸ hs.1) hc hd

theorem canonical_of_cells {s t : State} (hs : Canonical s) (hc : ∀ x ∈ t.cells, memWf x.2.spm)
    (hm : t.mem = s.mem) (hd : t.dies = s.dies) : Canonical t := by
  obtain ⟨h1, -, h3⟩ := canonical_iff.mp hs
  exact canonical_iff.mpr ⟨hm ▸ h1, hc, hd ▸ h3⟩

theorem canonical_of_dies {s t : State} (hs : Canonical s)
    (hd : ∀ d, ∀ x ∈ (t.dies.get d).coll, memWf x.2.staging) (hm : t.mem = s.mem) (hc : t.cells = s.cells) :
    Canonical t := by
  obtain ⟨h1, h2, -⟩ := canonical_iff.mp hs
  exact canonical_iff.mpr ⟨hm ▸ h1, hc ▸ h2, hd⟩

theorem getCell_spm_wf {s : State} (hs : Canonical s) (c : Nat) : memWf (getCell s c).spm := by
  unfold getCell
  cases h : fget s.cells c with
  | none => rfl
  | some x => exact (canonical_iff.mp hs).2.1 (c, x) (mem_of_fget h)

theorem getColl_staging_wf {s : State} (hs : Canonical s) (d part : Nat) : memWf (getColl s d part).staging := by
  unfold getColl
  cases h : fget (getDie s d).coll part with
  | none => rfl
  | some x => exact hs.2.2 d (part, x) (mem_of_fget h)

/-! ## The parts of the state -/

theorem freeCount_canonical {s n} : Canonical { s with freeCount := n } ↔ Canonical s := Iff.rfl

theorem upsets_canonical {s l} : Canonical { s with upsets := l } ↔ Canonical s := Iff.rfl

theorem cur_canonical {s w} : Canonical { s with cur := w } ↔ Canonical s := Iff.rfl

@[simp] theorem putStrand_canonical {s r x} : Canonical (putStrand s r x) ↔ Canonical s := Iff.rfl

@[simp] theorem dropStrand_canonical {s r} : Canonical (dropStrand s r) ↔ Canonical s := Iff.rfl

@[simp] theorem putCtx_canonical {s c p x} : Canonical (putCtx s c p x) ↔ Canonical s := Iff.rfl

@[simp] theorem modCtx_canonical {s c p f} : Canonical (modCtx s c p f) ↔ Canonical s := Iff.rfl

@[simp] theorem modHub_canonical {s f} : Canonical (modHub s f) ↔ Canonical s := Iff.rfl

@[simp] theorem putPart_canonical {s p x} : Canonical (putPart s p x) ↔ Canonical s := Iff.rfl

@[simp] theorem modPart_canonical {s p f} : Canonical (modPart s p f) ↔ Canonical s := Iff.rfl

@[simp] theorem modFn_canonical {s n f} : Canonical (modFn s n f) ↔ Canonical s := Iff.rfl

@[simp] theorem modByUid_canonical {s uid f} : Canonical (modByUid s uid f) ↔ Canonical s := Iff.rfl

@[simp] theorem freshId_canonical {s} : Canonical (freshId s).2 ↔ Canonical s := Iff.rfl

@[simp] theorem modStrand_canonical {s r f} : Canonical (modStrand s r f) ↔ Canonical s := by
  unfold modStrand
  split <;> simp

@[simp] theorem putCell_canonical {s c x} (hx : memWf x.spm) (hs : Canonical s) : Canonical (putCell s c x) := by
  refine canonical_of_cells hs (fun y hy => ?_) rfl rfl
  obtain rfl | hy := mem_fset hy
  · exact hx
  · exact (canonical_iff.mp hs).2.1 y hy

/-- A change of a cell that leaves its scratchpad. -/
@[simp] theorem modCell_canonical {s c} {f : Cell → Cell} (hf : ∀ x, (f x).spm = x.spm) (hs : Canonical s) :
    Canonical (modCell s c f) :=
  putCell_canonical ((hf _).symm ▸ getCell_spm_wf hs c) hs

theorem map_cells_canonical {s t : State} {f : Nat × Cell → Nat × Cell} (hs : Canonical s)
    (hc : t.cells = s.cells.map f) (hf : ∀ x, memWf x.2.spm → memWf (f x).2.spm) (hm : t.mem = s.mem)
    (hd : t.dies = s.dies) : Canonical t := by
  refine canonical_of_cells hs (fun y hy => ?_) hm hd
  rw [hc] at hy
  obtain ⟨x, hx, rfl⟩ := List.mem_map.mp hy
  exact hf x ((canonical_iff.mp hs).2.1 x hx)

theorem map_dies_canonical {s t : State} {f : Die → Die} (hs : Canonical s) (hd : t.dies = s.dies.map f)
    (hf : ∀ x, (f x).coll ⊆ x.coll) (hm : t.mem = s.mem) (hc : t.cells = s.cells) : Canonical t := by
  refine canonical_of_dies hs (fun d x hx => (canonical_iff.mp hs).2.2 d x (hf _ ?_)) hm hc
  rw [hd] at hx
  simpa [Vector.get] using hx

theorem map_canonical {s t : State} {f : Nat × Cell → Nat × Cell} {g : Die → Die} (hs : Canonical s)
    (hc : t.cells = s.cells.map f) (hd : t.dies = s.dies.map g) (hf : ∀ x, memWf x.2.spm → memWf (f x).2.spm)
    (hg : ∀ x, (g x).coll ⊆ x.coll) (hm : t.mem = s.mem) : Canonical t :=
  map_dies_canonical (s := { s with cells := s.cells.map f }) (map_cells_canonical hs rfl hf rfl rfl) hd hg hm hc

@[simp] theorem putDie_canonical {s d x} (hx : ∀ y ∈ x.coll, memWf y.2.staging) (hs : Canonical s) :
    Canonical (putDie s d x) := by
  refine canonical_of_dies hs (fun e y hy => ?_) rfl rfl
  by_cases he : e = Fin.ofNat 4 d
  · rw [he, putDie_dies, vget_set_same] at hy
    exact hx y hy
  · rw [putDie_dies, vget_set_other _ _ _ _ _ he] at hy
    exact (canonical_iff.mp hs).2.2 e y hy

/-- A change of a die that leaves its collective engine. -/
@[simp] theorem modDie_canonical {s d} {f : Die → Die} (hf : ∀ x, (f x).coll = x.coll) (hs : Canonical s) :
    Canonical (modDie s d f) :=
  putDie_canonical ((hf _).symm ▸ hs.2.2 d) hs

/-! ## Choices, folds and binds -/

@[simp] theorem ite_canonical {c : Prop} [Decidable c] {s t : State} :
    Canonical (if c then s else t) ↔ if c then Canonical s else Canonical t := apply_ite Canonical c s t ▸ Iff.rfl

theorem foldl_canonical {α : Type} {f : State → α → State} (hf : ∀ s a, Canonical s → Canonical (f s a))
    (l : List α) {s : State} (hs : Canonical s) : Canonical (l.foldl f s) := by
  induction l generalizing s with
  | nil => exact hs
  | cons a l ih => exact ih (hf s a hs)

theorem foldl_snd_canonical {α β : Type} {f : β × State → α → β × State}
    (hf : ∀ x a, Canonical x.2 → Canonical (f x a).2) (l : List α) {x : β × State} (hx : Canonical x.2) :
    Canonical (l.foldl f x).2 := by
  induction l generalizing x with
  | nil => exact hx
  | cons a l ih => exact ih (hf x a hx)

theorem foldlM_canonical {α : Type} {f : State → α → Act State}
    (hf : ∀ s a t, f s a = .ok t → Canonical s → Canonical t) {l : List α} {s t : State}
    (h : l.foldlM f s = .ok t) (hs : Canonical s) : Canonical t := by
  induction l generalizing s with
  | nil => cases h; exact hs
  | cons a l ih =>
    rw [List.foldlM_cons] at h
    obtain ⟨u, hu, h⟩ := bind_eq_ok.mp h
    exact ih h (hf _ _ _ hu hs)

/-! ## State operations and faults -/

@[simp] theorem charge_canonical {s c p rcb m x} (hs : Canonical s) : Canonical (charge s c p rcb m x) := by
  have h : Canonical (modDie s (dieOf c) fun d =>
      { d with energy := d.energy + x, share := if m then d.share else d.share - x }) :=
    modDie_canonical (fun _ => rfl) hs
  exact map_dies_canonical h rfl (fun _ => List.Subset.refl _) rfl rfl

@[simp] theorem chargeStrand_canonical {s r x} (hs : Canonical s) : Canonical (chargeStrand s r x) := by
  unfold chargeStrand
  split
  · exact charge_canonical hs
  · exact hs

@[simp] theorem countC_canonical {s r} (hs : Canonical s) : Canonical (countC s r) := by
  unfold countC
  split
  · exact hs
  · exact chargeStrand_canonical hs

@[simp] theorem startHold_canonical {s a} (hs : Canonical s) : Canonical (startHold s a) := by
  unfold startHold
  split <;> simp [hs]

@[simp] theorem dropAnswers_canonical {s part va} : Canonical (dropAnswers s part va) ↔ Canonical s := Iff.rfl

@[simp] theorem dropReads_canonical {s part} : Canonical (dropReads s part) ↔ Canonical s := Iff.rfl

@[simp] theorem chargeFor_canonical {s p x} (hs : Canonical s) : Canonical (chargeFor s p x) :=
  charge_canonical hs

@[simp] theorem perfFor_canonical {s p evt n} (hs : Canonical s) : Canonical (perfFor s p evt n) := by
  unfold perfFor
  split <;> simp [hs]

@[simp] theorem sendMsix_canonical {s fn vec} : Canonical (sendMsix s fn vec) ↔ Canonical s := Iff.rfl

@[simp] theorem setLog_canonical {s d l} (hs : Canonical s) : Canonical (setLog s d l) := by simp [hs, setLog]

@[simp] theorem drainLog_canonical {s d} (hs : Canonical s) : Canonical (drainLog s d) := by
  unfold drainLog
  split <;> simp [hs]

@[simp] theorem addLog_canonical {s d e} (hs : Canonical s) : Canonical (addLog s d e) := by simp [hs, addLog]

@[simp] theorem setPend_canonical {s st} (hs : Canonical s) : Canonical (setPend s st) := by
  unfold setPend
  split
  · exact hs
  · split
    · simp [hs]
    · split
      · exact canonical_of_mem hs (mwrite_wf hs.1 _ _) rfl rfl
      · simp [hs]

@[simp] theorem queueFault_canonical {s r q} (hs : Canonical s) : Canonical (queueFault s r q) := by
  unfold queueFault
  split <;> simp [hs]

@[simp] theorem logFault_canonical {s cell part q} (hs : Canonical s) : Canonical (logFault s cell part q) := by
  simp [hs, logFault]

@[simp] theorem noteError_canonical {s cell t} (hs : Canonical s) : Canonical (noteError s cell t) := by
  simp [hs, noteError]

@[simp] theorem clearFresh_canonical {s a} (hs : Canonical s) : Canonical (clearFresh s a) := by
  unfold clearFresh
  split <;> simp [hs]

@[simp] theorem firstDetection_canonical {s t} (hs : Canonical s) : Canonical (firstDetection s t).1 := by
  grind [firstDetection, clearFresh_canonical]

@[simp] theorem raiseAt_canonical {s r q} (hs : Canonical s) : Canonical (raiseAt s r q) := by
  grind [raiseAt, firstDetection_canonical, dropAnswers_canonical, queueFault_canonical, noteError_canonical,
    logFault_canonical]

@[simp] theorem raiseWord_canonical {s w t} (hs : Canonical s) : Canonical (raiseWord s w t) := by
  grind [raiseWord, putStrand_canonical, raiseAt_canonical]

@[simp] theorem raiseLate_canonical {s r e index t} (hs : Canonical s) : Canonical (raiseLate s r e index t) := by
  unfold raiseLate
  split <;> simp [hs]

/-! ## The forms of issue -/

theorem issueWith_canonical {s t : State} {tk : Tk} {body : Walker → Strand → State → Act State}
    (hb : ∀ w st u t, body w st u = .ok t → Canonical u → Canonical t) (h : issueWith s tk body = .next t)
    (hs : Canonical s) : Canonical t := by
  unfold issueWith at h
  dsimp only at h
  split at h
  · cases h
  split at h <;> cases h
  next hx =>
    obtain ⟨st, -, hx⟩ := bind_eq_ok.mp hx
    exact hb _ _ _ _ hx hs
  · exact hs
  · exact startHold_canonical hs
  · exact raiseWord_canonical hs

theorem issueL_canonical {s t : State} {tk : Tk} {body : SRef → Strand → State → Act (Strand × State)}
    (hb : ∀ r st u x t, body r st u = .ok (x, t) → Canonical u → Canonical t) (h : issueL s tk body = .next t)
    (hs : Canonical s) : Canonical t := by
  unfold issueL at h
  refine issueWith_canonical (fun _ _ _ _ h hs => ?_) h hs
  simp only [bind_eq_ok, Prod.exists] at h
  grind [putStrand_canonical]

theorem issueM_canonical {s t : State} {tk : Tk} {body : SRef → Strand → State → Act (Strand × State)}
    (hb : ∀ r st u x t, body r st u = .ok (x, t) → Canonical u → Canonical t) (h : issueM s tk body = .next t)
    (hs : Canonical s) : Canonical t := by
  unfold issueM at h
  refine issueWith_canonical (fun _ _ _ _ h hs => ?_) h hs
  simp only [bind_eq_ok, Prod.exists] at h
  grind [putStrand_canonical]

theorem issueStore_canonical {s t : State} {body : SRef → Strand → State → Act (SEntry × State)}
    (hb : ∀ r st u x t, body r st u = .ok (x, t) → Canonical u → Canonical t) (h : issueStore s body = .next t)
    (hs : Canonical s) : Canonical t := by
  unfold issueStore at h
  refine issueWith_canonical (fun _ _ _ _ h hs => ?_) h hs
  simp only [bind_eq_ok, Prod.exists] at h
  grind [putStrand_canonical]

theorem issueLocal_canonical {s tk body t} (h : issueLocal s tk body = .next t)
    (hs : Canonical s) : Canonical t := by
  unfold issueLocal at h
  refine issueWith_canonical (fun _ _ _ _ h hs => ?_) h hs
  simp only [bind_eq_ok] at h
  grind [putStrand_canonical]

theorem issueCharged_canonical {s tk cost body t} (h : issueCharged s tk cost body = .next t)
    (hs : Canonical s) : Canonical t := by
  unfold issueCharged at h
  refine issueWith_canonical (fun _ _ _ _ h hs => ?_) h hs
  simp only [bind_eq_ok] at h
  grind [chargeStrand_canonical, putStrand_canonical]

theorem issueC_canonical {s body t} (h : issueC s body = .next t) (hs : Canonical s) : Canonical t := by
  unfold issueC at h
  refine issueWith_canonical (fun _ _ _ _ h hs => ?_) h hs
  simp only [bind_eq_ok] at h
  grind [countC_canonical, putStrand_canonical]

/-! ## Words of the control core -/

theorem binC_canonical {s lat d a b f t} (h : binC s lat d a b f = .next t) (hs : Canonical s) : Canonical t :=
  issueC_canonical h hs

theorem unC_canonical {s lat d a f t} (h : unC s lat d a f = .next t) (hs : Canonical s) : Canonical t :=
  issueC_canonical h hs

theorem divC_canonical {s lat d a b signed pick t} (h : divC s lat d a b signed pick = .next t)
    (hs : Canonical s) : Canonical t := issueC_canonical h hs

theorem execNop_canonical {t tk s u} (h : execNop t tk s = .next u) (hs : Canonical s) : Canonical u := by
  unfold execNop at h
  split at h
  · refine issueWith_canonical (fun _ _ _ _ h hs => ?_) h hs
    grind [stall, putStrand_canonical]
  · split at h
    · exact issueC_canonical h hs
    · exact issueLocal_canonical h hs

theorem issueAll_canonical {s body t} (h : issueAll s body = .next t) (hs : Canonical s) : Canonical t := by
  unfold issueAll at h
  refine issueWith_canonical (fun _ _ _ _ h hs => ?_) h hs
  simp only [bind_eq_ok] at h
  grind [putStrand_canonical, countC_canonical]

theorem execLoopEndReached_canonical {s t} (h : execLoopEndReached s = .next t)
    (hs : Canonical s) : Canonical t := by
  cases h
  simp [hs]

@[simp] theorem raiseTurn_canonical {s w t} (hs : Canonical s) : Canonical (raiseTurn s w t) := by
  unfold raiseTurn
  split
  · exact hs
  · split <;> simp [hs]

/-! ## Translation and memory -/

@[simp] theorem memWrite_canonical {s pa n v} (hs : Canonical s) : Canonical (memWrite s pa n v) :=
  canonical_of_mem hs (memWrite_wf hs.1 pa n v) rfl rfl

@[simp] theorem l2Add_canonical {s line} (hs : Canonical s) : Canonical (l2Add s line) :=
  modDie_canonical (fun _ => rfl) hs

@[simp] theorem l2Drop_canonical {s line} (hs : Canonical s) : Canonical (l2Drop s line) :=
  modDie_canonical (fun _ => rfl) hs

@[simp] theorem l2Read_canonical {s lines} (hs : Canonical s) : Canonical (l2Read s lines) :=
  foldl_canonical (fun _ _ h => by simp [h]) lines hs

theorem lookupLeaf_canonical {s die cell part va e t} (h : lookupLeaf s die cell part va = .ok (e, t))
    (hs : Canonical s) : Canonical t := by
  unfold lookupLeaf at h
  cases cell with
  | none => grind [modDie_canonical, l2Read_canonical]
  | some c =>
    dsimp only at h
    split at h
    · cases h; exact modCell_canonical (fun _ => rfl) hs
    · split at h
      · cases h; exact modCell_canonical (fun _ => rfl) (modDie_canonical (fun _ => rfl) hs)
      · split at h <;> cases h
        exact modCell_canonical (fun _ => rfl) (modDie_canonical (fun _ => rfl) (l2Read_canonical hs))

theorem translate_canonical {s die cell part u ea x t} (h : translate s die cell part u ea = .ok (x, t))
    (hs : Canonical s) : Canonical t := by
  grind [Machine.translate, trap, → lookupLeaf_canonical]

@[simp] theorem advanceAccess_canonical {s r id} (hs : Canonical s) : Canonical (advanceAccess s r id) := by
  unfold advanceAccess
  split
  · simp [hs]
  · split <;> simp [hs]

@[simp] theorem dropL1_canonical {s cell part} (hs : Canonical s) : Canonical (dropL1 s cell part) :=
  modCell_canonical (fun _ => rfl) hs

@[simp] theorem dropLine_canonical {s cell part k msa line} (hs : Canonical s) :
    Canonical (dropLine s cell part k msa line) :=
  modCell_canonical (fun _ => rfl) hs

@[simp] theorem addLine_canonical {s cell l} (hs : Canonical s) : Canonical (addLine s cell l) :=
  modCell_canonical (fun _ => rfl) hs

@[simp] theorem updateLine_canonical {s cell part k msa pa n v} (hs : Canonical s) :
    Canonical (updateLine s cell part k msa pa n v) :=
  modCell_canonical (fun _ => rfl) hs

@[simp] theorem storeL1_canonical {s r part a} (hs : Canonical s) : Canonical (storeL1 s r part a) := by
  simp [hs, storeL1]

@[simp] theorem touchFor_canonical {s p hm lines alloc} (hs : Canonical s) :
    Canonical (touchFor s p hm lines alloc) :=
  foldl_canonical (fun s l h => by cases hm <;> grind [chargeFor_canonical, perfFor_canonical, l2Add_canonical])
    lines hs

@[simp] theorem touchLines_canonical {s r k lines alloc}
    (hs : Canonical s) : Canonical (touchLines s r k lines alloc) := by
  simp [hs, touchLines]

@[simp] theorem swapLine_canonical {s line m} (hs : Canonical s) : Canonical (swapLine s line m) :=
  memWrite_canonical hs

@[simp] theorem settleLines_canonical {s pa n} (hs : Canonical s) : Canonical (settleLines s pa n) :=
  foldl_canonical (fun _ _ _ => by grind [swapLine_canonical]) _ hs

@[simp] theorem atomicLine_canonical {s line msa} (hs : Canonical s) : Canonical (atomicLine s line msa).1 := by
  unfold atomicLine
  split
  · exact hs
  · split
    · exact hs
    · dsimp only
      split
      · exact swapLine_canonical hs
      · exact hs

@[simp] theorem atomicAt_canonical {s pa size msa f}
    (hs : Canonical s) : Canonical (atomicAt s pa size msa f).2 := by
  simp [hs, atomicAt]

@[simp] theorem failAccess_canonical {s r st a t} (hs : Canonical s) : Canonical (failAccess s r st a t) := by
  grind [failAccess, putStrand_canonical, addLog_canonical, raiseLate_canonical]

@[simp] theorem failCheck_canonical {s r st a c} (hs : Canonical s) : Canonical (failCheck s r st a c) := by
  simp [hs, failCheck]

@[simp] theorem performLoad_canonical {s r st a c} (hs : Canonical s) : Canonical (performLoad s r st a c) := by
  grind [performLoad, dropL1_canonical, putStrand_canonical, failAccess_canonical, failCheck_canonical,
    settleLines_canonical, addLine_canonical, touchLines_canonical]

@[simp] theorem performStore_canonical {s r st a c} (hs : Canonical s) : Canonical (performStore s r st a c) := by
  grind [performStore, failCheck_canonical, memWrite_canonical, storeL1_canonical, putStrand_canonical,
    touchLines_canonical]

@[simp] theorem performAtomic_canonical {s r st a c} (hs : Canonical s) : Canonical (performAtomic s r st a c) := by
  grind [performAtomic, dropL1_canonical, failAccess_canonical, failCheck_canonical, atomicAt_canonical,
    storeL1_canonical, putStrand_canonical, l2Drop_canonical, touchLines_canonical]

@[simp] theorem performFence_canonical {s r st a k} (hs : Canonical s) : Canonical (performFence s r st a k) := by
  unfold performFence
  split <;> simp [hs]

theorem execAccessPerform_canonical {r k c s t} (h : execAccessPerform r k c s = .next t)
    (hs : Canonical s) : Canonical t := by
  unfold execAccessPerform at h
  grind [performFence_canonical, performLoad_canonical, performStore_canonical, performAtomic_canonical]

@[simp] theorem countFor_canonical {s p d n out sent}
    (hs : Canonical s) : Canonical (countFor s p d n out sent) := by
  unfold countFor
  split <;> simp [hs]

@[simp] theorem countBytes_canonical {s r a n} (hs : Canonical s) : Canonical (countBytes s r a n) := by
  simp [hs, countBytes]

@[simp] theorem performAway_canonical {s r st a b} (hs : Canonical s) : Canonical (performAway s r st a b) := by
  unfold performAway
  grind [failAccess_canonical, dropL1_canonical, addLine_canonical, countBytes_canonical, putStrand_canonical,
    storeL1_canonical]

/-! ## Scalar accesses and strand words -/

theorem accessC_canonical {s k u cls cp size base off f t} (h : accessC s k u cls cp size base off f = .next t)
    (hs : Canonical s) : Canonical t := by
  unfold accessC at h
  refine issueWith_canonical (fun _ _ _ _ h hs => ?_) h hs
  simp only [bind_eq_ok, Prod.exists] at h
  grind [→ translate_canonical, freshId_canonical, countC_canonical, putStrand_canonical]

@[simp] theorem prefetchLine_canonical {s r st x} (hs : Canonical s) : Canonical (prefetchLine s r st x) := by
  simp [hs, prefetchLine]

theorem execPfl_canonical {xlat base off s t} (h : execPfl xlat base off s = .next t)
    (hs : Canonical s) : Canonical t := by
  unfold execPfl at h
  refine issueWith_canonical (fun _ _ _ _ h hs => ?_) h hs
  simp only [bind_eq_ok] at h
  grind [putStrand_canonical, → translate_canonical, prefetchLine_canonical, countC_canonical]

@[simp] theorem markTriggered_canonical {s st} (hs : Canonical s) : Canonical (markTriggered s st) := by
  simp [hs, markTriggered]

theorem waitWord_canonical {s cond t} (h : waitWord s cond = .next t) (hs : Canonical s) : Canonical t := by
  unfold waitWord at h
  refine issueWith_canonical (fun _ _ _ _ h hs => ?_) h hs
  simp only [bind_eq_ok] at h
  grind [countC_canonical, putStrand_canonical]

theorem flagLoad_canonical {s w st ea cls acq t} (h : flagLoad s w st ea cls acq = .ok t)
    (hs : Canonical s) : Canonical t := by
  grind [flagLoad, bind_eq_match, → translate_canonical, freshId_canonical, putStrand_canonical]

theorem execWaitFlag_canonical {ga oc s t} (h : execWaitFlag ga oc s = .next t)
    (hs : Canonical s) : Canonical t := by
  unfold execWaitFlag at h
  refine issueWith_canonical (fun _ _ _ _ h hs => ?_) h hs
  grind [bind_eq_match, putStrand_canonical, countC_canonical, → flagLoad_canonical]

theorem execWaitFlagPoll_canonical {s t} (h : execWaitFlagPoll s = .next t) (hs : Canonical s) : Canonical t := by
  grind [execWaitFlagPoll, → flagLoad_canonical, startHold_canonical, raiseWord_canonical]

theorem execWaitConditionTrue_canonical {s t} (h : execWaitConditionTrue s = .next t)
    (hs : Canonical s) : Canonical t := by
  cases h
  simp [hs]

theorem execTrig_canonical {s t} (h : execTrig s = .next t) (hs : Canonical s) : Canonical t := by
  unfold execTrig at h
  refine issueWith_canonical (fun _ _ _ _ h hs => ?_) h hs
  grind [markTriggered_canonical, countC_canonical, putStrand_canonical]

theorem execTrap_canonical {imm s t} (h : execTrap imm s = .next t) (hs : Canonical s) : Canonical t := by
  unfold execTrap at h
  refine issueWith_canonical (fun _ _ _ _ h hs => ?_) h hs
  grind [countC_canonical, putStrand_canonical, raiseAt_canonical]

theorem execFence_canonical {sc k mask s t} (h : execFence sc k mask s = .next t)
    (hs : Canonical s) : Canonical t := by
  unfold execFence at h
  refine issueWith_canonical (fun _ _ _ _ h hs => ?_) h hs
  grind [freshId_canonical, countC_canonical, putStrand_canonical]

theorem stopAt_canonical {s why ready t} (h : stopAt s why ready = .next t) (hs : Canonical s) : Canonical t := by
  unfold stopAt at h
  refine issueWith_canonical (fun _ _ _ _ h hs => ?_) h hs
  simp only [bind_eq_ok] at h
  grind [putStrand_canonical, countC_canonical]

theorem execOvl_canonical {n s t} (h : execOvl n s = .next t) (hs : Canonical s) : Canonical t := by
  unfold execOvl at h
  refine issueWith_canonical (fun _ _ _ _ h hs => ?_) h hs
  simp only [bind_eq_ok] at h
  grind [freshId_canonical, putStrand_canonical, countC_canonical]

@[simp] theorem raiseDrain_canonical {s r st} (hs : Canonical s) : Canonical (raiseDrain s r st) := by
  simp [hs, raiseDrain]

theorem execBarrierComplete_canonical {part launch s t} (h : execBarrierComplete part launch s = .next t)
    (hs : Canonical s) : Canonical t := by
  unfold execBarrierComplete at h
  split at h
  · cases h; exact hs
  · dsimp only at h
    split at h <;> cases h
    · exact hs
    · exact foldl_canonical (fun _ _ h => by simp [h]) _ hs

/-! ## Runs of bytes and images -/

theorem translateRun_canonical {die cell part u fuel va n s ps t}
    (h : translateRun die cell part u fuel va n s = .ok (ps, t)) (hs : Canonical s) : Canonical t := by
  induction fuel generalizing va n s ps with
  | zero => cases h; exact hs
  | succ fuel ih => grind [translateRun, bind_eq_match, → translate_canonical]

theorem runOf_canonical {s die cell part u va n x' t} (h : runOf s die cell part u va n = .ok (x', t))
    (hs : Canonical s) : Canonical t := by
  simp only [runOf] at h
  grind [trap, → translateRun_canonical]

theorem takeAnswer_canonical {s q x t} (h : takeAnswer s q = .ok (x, t)) (hs : Canonical s) : Canonical t := by
  unfold takeAnswer at h
  grind [trap, modHub_canonical]

theorem readPiece_canonical {s die part p x' t} (h : readPiece s die part p = .ok (x', t))
    (hs : Canonical s) : Canonical t := by
  grind [readPiece, bind_eq_match, settleLines_canonical, → takeAnswer_canonical]

theorem readPieces_canonical {die part ps s bs t} (h : readPieces die part ps s = .ok (bs, t))
    (hs : Canonical s) : Canonical t := by
  induction ps generalizing s bs with
  | nil => cases h; exact hs
  | cons p ps ih => grind [readPieces, bind_eq_match, → readPiece_canonical]

theorem readVirt_canonical {s die cell part u va n x' t} (h : readVirt s die cell part u va n = .ok (x', t))
    (hs : Canonical s) : Canonical t := by
  grind [readVirt, bind_eq_match, → runOf_canonical, → readPieces_canonical]

theorem writePieces_canonical {die part ps bs s t} (h : writePieces die part ps bs s = .ok t)
    (hs : Canonical s) : Canonical t := by
  induction ps generalizing bs s with
  | nil => cases h; exact hs
  | cons p ps ih => grind [writePieces, bind_eq_match, → takeAnswer_canonical, memWrite_canonical]

theorem writeVirt_canonical {s die cell part u va bs t} (h : writeVirt s die cell part u va bs = .ok t)
    (hs : Canonical s) : Canonical t := by
  grind [writeVirt, bind_eq_match, → runOf_canonical, → writePieces_canonical]

theorem readWords_canonical {s die cell part u va n x' t} (h : readWords s die cell part u va n = .ok (x', t))
    (hs : Canonical s) : Canonical t := by
  grind [readWords, bind_eq_match, → readVirt_canonical]

theorem readImageAs_canonical {u lim s die part addr winMax x' t}
    (h : readImageAs u lim s die part addr winMax = .ok (x', t)) (hs : Canonical s) : Canonical t := by
  unfold readImageAs at h
  obtain ⟨-, -, h⟩ := bind_eq_ok.mp h
  obtain ⟨⟨hw, s1⟩, h1, h⟩ := bind_eq_ok.mp h
  replace hs := readWords_canonical h1 hs
  dsimp only at h
  split at h
  · cases h; exact hs
  obtain ⟨b, -, h⟩ := bind_eq_ok.mp h
  split at h
  · cases h; exact hs
  obtain ⟨⟨ow, s2⟩, h2, h⟩ := bind_eq_ok.mp h
  replace hs := readWords_canonical h2 hs
  dsimp only at h
  split at h
  · cases h; exact hs
  obtain ⟨b, -, h⟩ := bind_eq_ok.mp h
  split at h
  · cases h; exact hs
  obtain ⟨⟨lw, s3⟩, h3, h⟩ := bind_eq_ok.mp h
  obtain ⟨⟨bw, s4⟩, h4, h⟩ := bind_eq_ok.mp h
  obtain ⟨⟨pw, s5⟩, h5, h⟩ := bind_eq_ok.mp h
  obtain ⟨⟨ww, s6⟩, h6, h⟩ := bind_eq_ok.mp h
  cases h
  exact readWords_canonical h6 (readWords_canonical h5 (readWords_canonical h4 (readWords_canonical h3 hs)))

theorem readImage_canonical {lim s die part addr winMax x' t}
    (h : readImage lim s die part addr winMax = .ok (x', t)) (hs : Canonical s) : Canonical t := by
  grind [readImage, → readImageAs_canonical]

theorem loadOverlay_canonical {s cell part im n t} (h : loadOverlay s cell part im n = .ok t)
    (hs : Canonical s) : Canonical t := by
  simp only [loadOverlay] at h
  grind [trap, bind_eq_match, → readWords_canonical, modCtx_canonical]

theorem execOverlayRefill_canonical {s t} (h : execOverlayRefill s = .next t) (hs : Canonical s) : Canonical t := by
  grind [execOverlayRefill, raiseDrain_canonical, putStrand_canonical, → loadOverlay_canonical, modStrand_canonical,
    startHold_canonical, raiseAt_canonical]

/-! ## Commands, regions, launches and service calls -/

theorem pushCopy_canonical {s tag mk t} (h : pushCopy s tag mk = .next t) (hs : Canonical s) : Canonical t := by
  unfold pushCopy at h
  refine issueWith_canonical (fun _ _ _ _ h hs => ?_) h hs
  simp only [bind_eq_ok] at h
  grind [freshId_canonical, modCell_canonical, countC_canonical, putStrand_canonical]

theorem popRecord_canonical {s lat ga ready get put t} (h : popRecord s lat ga ready get put = .next t)
    (hs : Canonical s) : Canonical t := by
  unfold popRecord at h
  refine issueWith_canonical (fun _ _ _ _ h hs => ?_) h hs
  grind [trap, stall, bind_eq_match, countC_canonical, dropL1_canonical, putStrand_canonical]

theorem readBlock_canonical {s die part addr x' t} (h : readBlock s die part addr = .ok (x', t))
    (hs : Canonical s) : Canonical t := by
  grind [readBlock, → readWords_canonical, dropAnswers_canonical]

theorem readChain_canonical {die part fuel addr s x' t} (h : readChain die part fuel addr s = .ok (x', t))
    (hs : Canonical s) : Canonical t := by
  induction fuel generalizing addr s x' t with
  | zero => cases h; exact hs
  | succ fuel ih =>
    unfold readChain at h
    split at h
    · cases h; exact hs
    obtain ⟨⟨b, s1⟩, h1, h⟩ := bind_eq_ok.mp h
    replace hs := readBlock_canonical h1 hs
    dsimp only at h
    split at h
    · cases h; exact hs
    split at h
    · cases h; exact hs
    split at h
    · cases h; exact hs
    obtain ⟨⟨rest, s2⟩, h2, h⟩ := bind_eq_ok.mp h
    cases h
    exact ih h2 hs

theorem admitRegion_canonical {s die part addr x' t} (h : admitRegion s die part addr = .ok (x', t))
    (hs : Canonical s) : Canonical t := by
  unfold admitRegion at h
  split at h
  · cases h; simp [hs]
  · obtain ⟨⟨c, s1⟩, h1, h⟩ := bind_eq_ok.mp h
    replace hs := readChain_canonical h1 hs
    dsimp only at h
    split at h
    · cases h; simp [hs]
    · split at h <;> cases h <;> simp [hs]

@[simp] theorem logTrap_canonical {s die part t} (hs : Canonical s) : Canonical (logTrap s die part t) := by
  simp [hs, logTrap]

theorem addUnit_canonical {s c t} (h : addUnit s c = .ok t) (hs : Canonical s) : Canonical t := by
  simp only [addUnit, bind_eq_ok, Prod.exists, ite_eq_iff] at h
  grind [→ translate_canonical, atomicAt_canonical, → takeAnswer_canonical]

@[simp] theorem addVirt_canonical {s die part va n} (hs : Canonical s) : Canonical (addVirt s die part va n) := by
  grind [addVirt, → addUnit_canonical, dropAnswers_canonical, logTrap_canonical, modHub_canonical,
    startHold_canonical]

@[simp] theorem pumpAdds_canonical {s} (hs : Canonical s) : Canonical (pumpAdds s) :=
  foldl_canonical (fun _ _ => addVirt_canonical) _ hs

@[simp] theorem countRegion_canonical {s die part rcb k n}
    (hs : Canonical s) : Canonical (countRegion s die part rcb k n) := by
  unfold countRegion
  split <;> simp [hs]

@[simp] theorem flushEnergy_canonical {s die r} (hs : Canonical s) : Canonical (flushEnergy s die r) := by
  have h : Canonical (countRegion s die r.part r.addr 6 (r.used / energyUnit)) := countRegion_canonical hs
  exact map_dies_canonical h rfl (fun _ => List.Subset.refl _) rfl rfl

@[simp] theorem flushChain_canonical {s die part rcb} (hs : Canonical s) : Canonical (flushChain s die part rcb) :=
  foldl_canonical (fun _ _ => flushEnergy_canonical) _ hs

@[simp] theorem appendLaunch_canonical {s die part l im handlerOf after}
    (hs : Canonical s) : Canonical (appendLaunch s die part l im handlerOf after).2 := by
  simp [hs, appendLaunch]

theorem acceptLaunch_canonical {s die part w handlerOf after x' t}
    (h : acceptLaunch s die part w handlerOf after = .ok (x', t)) (hs : Canonical s) : Canonical t := by
  unfold acceptLaunch at h
  split at h
  · cases h; exact hs
  obtain ⟨⟨a, s1⟩, h1, h⟩ := bind_eq_ok.mp h
  replace hs := admitRegion_canonical h1 hs
  dsimp only at h
  split at h
  · cases h; exact hs
  · cases h; exact hs
  split at h
  · cases h; simp [hs]
  · cases h
  next him => cases h; exact readImageAs_canonical him hs
  next him => grind [→ readImageAs_canonical, appendLaunch_canonical]

theorem callWord_canonical {s word n ga gb ready early t} (h : callWord s word n ga gb ready early = .next t)
    (hs : Canonical s) : Canonical t := by
  unfold callWord at h
  refine issueWith_canonical (fun _ _ _ _ h hs => ?_) h hs
  simp only [bind_eq_ok] at h
  grind [bind_eq_match, countC_canonical, putStrand_canonical, → translate_canonical, freshId_canonical]

theorem sysWord_canonical {s word ga gb t} (h : sysWord s word ga gb = .next t)
    (hs : Canonical s) : Canonical t := callWord_canonical h hs

theorem sysCode_canonical {x s x' t} (h : sysCode x s = .ok (x', t)) (hs : Canonical s) : Canonical t := by
  grind [sysCode]

theorem sysPending_canonical {s v x' t} (h : sysPending s v = .ok (x', t)) (hs : Canonical s) : Canonical t := by
  grind [sysPending, modHub_canonical]

theorem callInval_canonical {s uid c d x' t} (h : callInval s uid c d = .ok (x', t))
    (hs : Canonical s) : Canonical t := by
  grind [callInval, → sysCode_canonical, → sysPending_canonical]

@[simp] theorem giveFrames_canonical {s part fs} : Canonical (giveFrames s part fs) ↔ Canonical s := Iff.rfl

theorem callFgive_canonical {s d x' t} (h : callFgive s d = .ok (x', t)) (hs : Canonical s) : Canonical t := by
  grind [callFgive, → sysCode_canonical, giveFrames_canonical]

theorem callFtake_canonical {s uid c d x' t} (h : callFtake s uid c d = .ok (x', t))
    (hs : Canonical s) : Canonical t := by
  grind [callFtake, → sysCode_canonical, → sysPending_canonical]

theorem callMread_canonical {s r st c d x' t} (h : callMread s r st c d = .ok (x', t)) (hs : Canonical s) :
    Canonical t := by
  unfold callMread at h
  dsimp only at h
  split at h
  · exact sysCode_canonical h hs
  split at h
  · exact sysCode_canonical h hs
  obtain ⟨⟨ps, s1⟩, h1, h⟩ := bind_eq_ok.mp h
  exact sysCode_canonical h (foldl_canonical (fun _ _ h => by simpa using h) _ (runOf_canonical h1 hs))

theorem serveCall_canonical {s r st c w x' t} (h : serveCall s r st c w = .ok (x', t))
    (hs : Canonical s) : Canonical t := by
  grind [serveCall, bind_eq_match, → acceptLaunch_canonical, → callInval_canonical, → callFgive_canonical, →
    callFtake_canonical, → callMread_canonical]

@[simp] theorem takeCall_canonical {s r st c} (hs : Canonical s) : Canonical (takeCall s r st c) := by
  grind [takeCall, → serveCall_canonical, modStrand_canonical, startHold_canonical, raiseLate_canonical]

@[simp] theorem pumpCalls_canonical {s} (hs : Canonical s) : Canonical (pumpCalls s) :=
  foldl_canonical (fun _ _ _ => by grind [takeCall_canonical]) _ hs

/-! ## Scratchpad and the copy engine -/

@[simp] theorem noteRows_canonical {s r part e gs} (hs : Canonical s) : Canonical (noteRows s r part e gs) :=
  foldl_canonical (fun _ _ h => addLog_canonical (clearFresh_canonical h)) _ hs

@[simp] theorem spmWrite_canonical {s cell g v} (hs : Canonical s) : Canonical (spmWrite s cell g v) :=
  putCell_canonical (writeN_wf (getCell_spm_wf hs cell) _ _ _) hs

@[simp] theorem chargeRows_canonical {s r gs} (hs : Canonical s) : Canonical (chargeRows s r gs) := by
  simp [hs, chargeRows]

@[simp] theorem setHandle_canonical {s part slot h} : Canonical (setHandle s part slot h) ↔ Canonical s := Iff.rfl

@[simp] theorem addPin_canonical {s part a} (hs : Canonical s) : Canonical (addPin s part a) := by
  unfold addPin
  split <;> simp [hs]

@[simp] theorem dropPin_canonical {s part a} (hs : Canonical s) : Canonical (dropPin s part a) := by
  unfold dropPin
  split <;> simp [hs]

theorem issueCopy_canonical {s r st index pos seen rset handles w g t}
    (h : issueCopy s r st index pos seen rset handles w g = .ok t) (hs : Canonical s) : Canonical t := by
  simp only [issueCopy, bind_eq_ok, ite_eq_iff] at h
  grind [freshId_canonical, addPin_canonical, modCell_canonical, putStrand_canonical]

@[simp] theorem giveRecord_canonical {s cmd w} (hs : Canonical s) : Canonical (giveRecord s cmd w) := by
  simp [hs, giveRecord]

@[simp] theorem runHandle_canonical {s cmd} (hs : Canonical s) : Canonical (runHandle s cmd) := by
  unfold runHandle
  split <;> simp [hs]

@[simp] theorem translateCuts_canonical {cell part code l s} (hs : Canonical s) :
    Canonical (translateCuts cell part code l s).2.1 := by
  induction l generalizing s with
  | nil => exact hs
  | cons c l ih => grind [translateCuts, → translate_canonical]

@[simp] theorem setChan_canonical {s cell ch r} (hs : Canonical s) : Canonical (setChan s cell ch r) :=
  modCell_canonical (fun _ => rfl) hs

@[simp] theorem raiseDeparted_canonical {s cell uid q}
    (hs : Canonical s) : Canonical (raiseDeparted s cell uid q) := by
  unfold raiseDeparted
  split <;> simp [hs]

@[simp] theorem raiseChan_canonical {s cell ch run t}
    (hs : Canonical s) : Canonical (raiseChan s cell ch run t) := by
  grind [raiseChan, dropAnswers_canonical, setChan_canonical, raiseDeparted_canonical, raiseAt_canonical]

@[simp] theorem tryRun_canonical {s cell ch} (hs : Canonical s) : Canonical (tryRun s cell ch) := by
  grind [tryRun, translateCuts_canonical, setChan_canonical, raiseChan_canonical, startHold_canonical]

@[simp] theorem clearBinds_canonical {s cell part op} (hs : Canonical s) :
    Canonical (clearBinds s cell part op) := by
  unfold clearBinds
  split
  · dsimp only
    split
    · exact hs
    · exact hs
  · exact hs

@[simp] theorem startHead_canonical {s cell} (hs : Canonical s) : Canonical (startHead s cell) := by
  grind [startHead, modCell_canonical, setChan_canonical, tryRun_canonical, clearBinds_canonical,
    runHandle_canonical]

theorem execCopyStart_canonical {cell s t} (h : execCopyStart cell s = .next t) (hs : Canonical s) :
    Canonical t := by
  rw [← Outcome.next.inj h]
  exact startHead_canonical (foldl_canonical (fun _ _ => tryRun_canonical) _ hs)

theorem sourceBytes_canonical {s cell c src part ps x' t} (h : sourceBytes s cell c src part ps = .ok (x', t))
    (hs : Canonical s) : Canonical t := by
  simp only [sourceBytes] at h
  grind [trap, → readPieces_canonical]

@[simp] theorem writeSegs_canonical {s cell gs bs} (hs : Canonical s) : Canonical (writeSegs s cell gs bs) := by
  induction gs generalizing s bs with
  | nil => exact hs
  | cons g gs ih => exact ih (spmWrite_canonical hs)

theorem putBytes_canonical {s cell part c dst ps bs t} (h : putBytes s cell part c dst ps bs = .ok t)
    (hs : Canonical s) : Canonical t := by
  grind [putBytes, → writePieces_canonical, writeSegs_canonical, modCtx_canonical]

@[simp] theorem touchPieces_canonical {s p writes ps} (hs : Canonical s) : Canonical (touchPieces s p writes ps) :=
  foldl_canonical (fun _ _ _ => by grind [touchFor_canonical, countFor_canonical]) _ hs

theorem finishCopy_canonical {s cell ch cmd flagPieces t} (h : finishCopy s cell ch cmd flagPieces = .ok t)
    (hs : Canonical s) : Canonical t := by
  grind [finishCopy, bind_eq_match, → writePieces_canonical, setChan_canonical, dropPin_canonical,
    modByUid_canonical, giveRecord_canonical]

theorem moveCopy_canonical {s cell ch run t} (h : moveCopy s cell ch run = .ok t) (hs : Canonical s) :
    Canonical t := by
  unfold moveCopy at h
  dsimp only at h
  split at h
  · obtain ⟨-, -, h⟩ := bind_eq_ok.mp h
    split at h
    · exact finishCopy_canonical h hs
    obtain ⟨⟨bs, s1⟩, h1, h⟩ := bind_eq_ok.mp h
    obtain ⟨s2, h2, h⟩ := bind_eq_ok.mp h
    have hs2 := putBytes_canonical h2 (sourceBytes_canonical h1 hs)
    exact finishCopy_canonical h
      (perfFor_canonical (chargeFor_canonical (touchPieces_canonical (touchPieces_canonical hs2))))
  · cases h; exact hs

theorem execCopyComplete_canonical {cell ch s t} (h : execCopyComplete cell ch s = .next t)
    (hs : Canonical s) : Canonical t := by
  grind [execCopyComplete, → moveCopy_canonical, raiseChan_canonical, startHold_canonical]

theorem execCopyChannelFault_canonical {cell ch bytes s t} (h : execCopyChannelFault cell ch bytes s = .next t)
    (hs : Canonical s) : Canonical t := by
  unfold execCopyChannelFault at h
  split at h
  · cases h; exact hs
  split at h
  · cases h; exact hs
  split at h
  · dsimp only at h
    split at h
    · cases h; exact hs
    split at h <;> cases h
    · exact raiseChan_canonical hs
    · exact startHold_canonical hs
    · exact hs
    next hx =>
      obtain ⟨⟨bs, s1⟩, h1, h2⟩ := bind_eq_ok.mp hx
      have hs' := putBytes_canonical h2 (sourceBytes_canonical h1 hs)
      refine raiseChan_canonical ?_
      split
      · split <;> simp [hs']
      · exact hs'
      · simp [hs']
  · cases h; exact hs

@[simp] theorem abandonRun_canonical {s cell ch} (hs : Canonical s) : Canonical (abandonRun s cell ch) := by
  unfold abandonRun
  split
  · exact hs
  next run _ =>
    split
    · exact giveRecord_canonical (dropPin_canonical (dropPin_canonical
        (foldl_canonical (fun _ _ => dropAnswers_canonical.mpr) _ (setChan_canonical hs))))
    · exact setChan_canonical hs

@[simp] theorem dropCommands_canonical {s cell uid} (hs : Canonical s) : Canonical (dropCommands s cell uid) :=
  modCell_canonical (fun _ => rfl) (foldl_canonical (fun _ _ h => by split <;> simp [h]) _ hs)

@[simp] theorem abandonCopies_canonical {s cell uid} (hs : Canonical s) : Canonical (abandonCopies s cell uid) :=
  foldl_canonical (fun _ _ => abandonRun_canonical) _ (dropCommands_canonical hs)

/-! ## The load engine -/

theorem regWord_canonical {s k body t} (h : regWord s k body = .next t) (hs : Canonical s) : Canonical t := by
  unfold regWord at h
  refine issueWith_canonical (fun _ _ _ _ h hs => ?_) h hs
  simp only [bind_eq_ok, Prod.exists] at h
  grind [putStrand_canonical]

theorem execSdset_canonical {k sd w a second s t} (h : execSdset k sd w a second s = .next t)
    (hs : Canonical s) : Canonical t := by
  unfold execSdset at h
  refine issueL_canonical (fun _ _ _ _ _ h hs => ?_) h hs
  grind [bind_eq_match]

@[simp] theorem readRows_canonical {s r st gs} (hs : Canonical s) : Canonical (readRows s r st gs) := by
  simp [hs, readRows]

theorem execLdq_canonical {tk t6 base off s t} (h : execLdq tk t6 base off s = .next t)
    (hs : Canonical s) : Canonical t := by
  unfold execLdq at h
  refine issueL_canonical (fun _ _ _ _ _ h hs => ?_) h hs
  cases t6 <;> simp only [bind_eq_ok] at h <;> grind [readRows_canonical]

theorem execLdqs_canonical {tk sz sd base off s t} (h : execLdqs tk sz sd base off s = .next t)
    (hs : Canonical s) : Canonical t := by
  unfold execLdqs at h
  refine issueL_canonical (fun _ _ _ _ _ h hs => ?_) h hs
  simp only [bind_eq_ok] at h
  grind [readRows_canonical]

theorem execLdg_canonical {tk sz base off s t} (h : execLdg tk sz base off s = .next t)
    (hs : Canonical s) : Canonical t := by
  unfold execLdg at h
  refine issueL_canonical (fun r st u x t h hs => ?_) h hs
  obtain ⟨a, -, h⟩ := bind_eq_ok.mp h
  obtain ⟨-, -, h⟩ := bind_eq_ok.mp h
  split at h
  · cases h
  · obtain ⟨-, -, h⟩ := bind_eq_ok.mp h
    obtain ⟨st', -, h⟩ := bind_eq_ok.mp h
    cases h
    simp [hs]

theorem execLdpk_canonical {tk sz base off s t} (h : execLdpk tk sz base off s = .next t)
    (hs : Canonical s) : Canonical t := by
  unfold execLdpk at h
  refine issueL_canonical (fun _ _ _ _ _ h hs => ?_) h hs
  simp only [bind_eq_ok] at h
  grind [readRows_canonical]

theorem execLdmq_canonical {tk elem oc cp aq base off s t} (h : execLdmq tk elem oc cp aq base off s = .next t)
    (hs : Canonical s) : Canonical t := by
  unfold execLdmq at h
  refine issueL_canonical (fun _ _ _ _ _ h hs => ?_) h hs
  simp only [bind_eq_ok, Prod.exists] at h
  grind [→ translate_canonical, freshId_canonical]

theorem execOmfill_canonical {tk d sd base off s t} (h : execOmfill tk d sd base off s = .next t)
    (hs : Canonical s) : Canonical t := by
  unfold execOmfill at h
  refine issueL_canonical (fun _ _ _ _ _ h hs => ?_) h hs
  simp only [bind_eq_ok] at h
  grind [chargeStrand_canonical, readRows_canonical]

theorem execOmfillComplete_canonical {r om s t} (h : execOmfillComplete r om s = .next t)
    (hs : Canonical s) : Canonical t := by
  grind [execOmfillComplete, putStrand_canonical, modCell_canonical]

theorem copyWord_canonical {s tk i handles w t} (h : copyWord s tk i handles w = .next t)
    (hs : Canonical s) : Canonical t := by
  unfold copyWord at h
  refine issueL_canonical (fun _ _ _ _ _ h hs => ?_) h hs
  grind [bind_eq_match, → issueCopy_canonical]

theorem startRps_canonical {s r st index pos seen dbl toC toM m ea x' t}
    (h : startRps s r st index pos seen dbl toC toM m ea = .ok (x', t)) (hs : Canonical s) : Canonical t := by
  simp only [startRps, bind_eq_ok] at h
  grind [chargeRows_canonical]

theorem execRps_canonical {tk toC toM dbl cnt base off s t} (h : execRps tk toC toM dbl cnt base off s = .next t)
    (hs : Canonical s) : Canonical t := by
  unfold execRps at h
  refine issueL_canonical (fun _ _ _ _ _ h hs => ?_) h hs
  simp only [bind_eq_ok] at h
  grind [bind_eq_match, → startRps_canonical]

theorem execRpsPush_canonical {s t} (h : execRpsPush s = .next t) (hs : Canonical s) : Canonical t := by
  grind [execRpsPush, putStrand_canonical, raiseLate_canonical]

theorem execPf_canonical {tk f base off s t} (h : execPf tk f base off s = .next t)
    (hs : Canonical s) : Canonical t := by
  unfold execPf at h
  refine issueL_canonical (fun _ _ _ _ _ h hs => ?_) h hs
  simp only [bind_eq_ok] at h
  grind [modCell_canonical]

@[simp] theorem runPrefetch_canonical {s p} (hs : Canonical s) : Canonical (runPrefetch s p) := by
  grind [runPrefetch, → translate_canonical, touchFor_canonical]

@[simp] theorem runPrefetches_canonical {s} (hs : Canonical s) : Canonical (runPrefetches s) := by
  refine foldl_canonical (fun u c h => ?_) _ hs
  exact foldl_canonical (fun _ _ => runPrefetch_canonical) _ (modCell_canonical (fun _ => rfl) h)

theorem issueHeld_canonical {s r st c t} (h : issueHeld s r st c = .ok t) (hs : Canonical s) : Canonical t := by
  grind [issueHeld, bind_eq_match, → issueCopy_canonical, → startRps_canonical, putStrand_canonical]

theorem execBranchOutcome_canonical {s t} (h : execBranchOutcome s = .next t) (hs : Canonical s) : Canonical t := by
  unfold execBranchOutcome at h
  dsimp only at h
  split at h
  · cases h; exact hs
  split at h
  · cases h; exact hs
  split at h
  · split at h
    · split at h <;> cases h <;> simp [hs]
    · cases h; exact hs
  split at h
  · split at h <;> cases h
    next hx => exact issueHeld_canonical hx hs
    all_goals simp [hs]
  · split at h <;> cases h <;> simp [hs]

/-! ## The store engine -/

theorem regWordS_canonical {s k i body t} (h : regWordS s k i body = .next t) (hs : Canonical s) : Canonical t := by
  unfold regWordS at h
  refine issueWith_canonical (fun _ _ _ _ h hs => ?_) h hs
  grind [bind_eq_match, putStrand_canonical]

theorem execStq_canonical {tk t6 base off s t} (h : execStq tk t6 base off s = .next t)
    (hs : Canonical s) : Canonical t := by
  unfold execStq at h
  refine issueStore_canonical (fun _ _ _ _ _ h hs => ?_) h hs
  cases t6 <;> simp only [bind_eq_ok] at h <;> grind

theorem execStqs_canonical {tk sz sd base off s t} (h : execStqs tk sz sd base off s = .next t)
    (hs : Canonical s) : Canonical t := by
  unfold execStqs at h
  refine issueStore_canonical (fun _ _ _ _ _ h hs => ?_) h hs
  simp only [bind_eq_ok] at h
  grind

theorem scatterEntry_canonical {s i e base off t} (h : scatterEntry s i e base off = .next t)
    (hs : Canonical s) : Canonical t := by
  unfold scatterEntry at h
  refine issueStore_canonical (fun _ _ _ _ _ h hs => ?_) h hs
  simp only [bind_eq_ok] at h
  grind

theorem execStpk_canonical {tk sz reserve base off s t} (h : execStpk tk sz reserve base off s = .next t)
    (hs : Canonical s) : Canonical t := by
  unfold execStpk at h
  refine issueStore_canonical (fun _ _ _ _ _ h hs => ?_) h hs
  simp only [bind_eq_ok] at h
  grind

theorem execStmq_canonical {tk elem oc cp rl base off s t} (h : execStmq tk elem oc cp rl base off s = .next t)
    (hs : Canonical s) : Canonical t := by
  unfold execStmq at h
  refine issueStore_canonical (fun _ _ _ _ _ h hs => ?_) h hs
  simp only [bind_eq_ok, Prod.exists] at h
  grind [→ translate_canonical]

theorem memScatter_canonical {s i oc base off t} (h : memScatter s i oc base off = .next t)
    (hs : Canonical s) : Canonical t := by
  unfold memScatter at h
  refine issueStore_canonical (fun _ _ _ _ _ h hs => ?_) h hs
  simp only [bind_eq_ok] at h
  grind

theorem execBput_canonical {tk base off s t} (h : execBput tk base off s = .next t)
    (hs : Canonical s) : Canonical t := by
  unfold execBput at h
  refine issueStore_canonical (fun _ _ _ _ _ h hs => ?_) h hs
  simp only [bind_eq_ok] at h
  grind

@[simp] theorem writeLanes_canonical {s cell e data l} (hs : Canonical s) :
    Canonical (writeLanes s cell e data l) :=
  foldl_canonical (fun _ _ => spmWrite_canonical) _ hs

@[simp] theorem addLanes_canonical {s cell ty data l} (hs : Canonical s) : Canonical (addLanes s cell ty data l) :=
  foldl_canonical (fun _ _ => spmWrite_canonical) _ hs

theorem memLanes_canonical {r st x k u cp rl op e data l s as t}
    (h : memLanes r st x k u cp rl op e data l s = .ok (as, t)) (hs : Canonical s) : Canonical t := by
  induction l generalizing s as with
  | nil => cases h; exact hs
  | cons p l ih =>
    simp only [memLanes, bind_eq_ok, Prod.exists] at h
    grind [→ translate_canonical, freshId_canonical]

theorem spmStore_canonical {s : State} {r : SRef} {st x gs f t} (hf : ∀ u, Canonical u → Canonical (f u))
    (h : spmStore s r st x gs f = .ok t) (hs : Canonical s) : Canonical t := by
  obtain ⟨-, -, h⟩ := bind_eq_ok.mp h
  cases h
  exact chargeRows_canonical (hf _ hs)

theorem storeData_canonical {s r st x t} (h : storeData s r st x = .ok t) (hs : Canonical s) : Canonical t := by
  unfold storeData at h
  split at h
  case h_1 => -- stq
    obtain ⟨⟨d, st⟩, -, h⟩ := bind_eq_ok.mp h
    exact spmStore_canonical (fun _ => spmWrite_canonical) h hs
  case h_2 => -- stq from a t6 container
    obtain ⟨⟨d, st⟩, -, h⟩ := bind_eq_ok.mp h
    obtain ⟨v, -, h⟩ := bind_eq_ok.mp h
    exact spmStore_canonical (fun _ => spmWrite_canonical) h hs
  case h_3 => -- stqs
    obtain ⟨⟨d, st⟩, -, h⟩ := bind_eq_ok.mp h
    exact spmStore_canonical (fun _ => writeLanes_canonical) h hs
  case h_4 => -- sts
    obtain ⟨⟨ix, d, st⟩, -, h⟩ := bind_eq_ok.mp h
    obtain ⟨-, -, h⟩ := bind_eq_ok.mp h
    exact spmStore_canonical (fun _ => writeLanes_canonical) h hs
  case h_5 => -- stsa
    obtain ⟨head, -, h⟩ := bind_eq_ok.mp h
    obtain ⟨-, -, h⟩ := bind_eq_ok.mp h
    obtain ⟨⟨ix, d, st⟩, -, h⟩ := bind_eq_ok.mp h
    obtain ⟨-, -, h⟩ := bind_eq_ok.mp h
    obtain ⟨-, -, h⟩ := bind_eq_ok.mp h
    exact spmStore_canonical (fun _ => addLanes_canonical) h hs
  case h_6 => -- stpk
    obtain ⟨⟨d, st⟩, -, h⟩ := bind_eq_ok.mp h
    obtain ⟨-, -, h⟩ := bind_eq_ok.mp h
    exact spmStore_canonical (fun _ => spmWrite_canonical) h hs
  case h_7 => -- stmq
    obtain ⟨⟨d, st⟩, -, h⟩ := bind_eq_ok.mp h
    cases h
    exact hs
  case h_8 => -- stmqSc
    obtain ⟨⟨ix, d, st⟩, -, h⟩ := bind_eq_ok.mp h
    obtain ⟨⟨l, u⟩, hl, h⟩ := bind_eq_ok.mp h
    cases h
    exact putStrand_canonical.mpr (memLanes_canonical hl hs)
  case h_9 => -- stmqAdd
    obtain ⟨⟨ix, d, st⟩, -, h⟩ := bind_eq_ok.mp h
    obtain ⟨⟨l, u⟩, hl, h⟩ := bind_eq_ok.mp h
    cases h
    exact putStrand_canonical.mpr (memLanes_canonical hl hs)
  case h_10 => -- bput
    obtain ⟨⟨d, st⟩, -, h⟩ := bind_eq_ok.mp h
    cases h
    exact chargeStrand_canonical hs
  case h_11 => cases h; exact hs

theorem execBputRowArrive_canonical {k s t} (h : execBputRowArrive k s = .next t)
    (hs : Canonical s) : Canonical t := by
  grind [execBputRowArrive, spmWrite_canonical, modHub_canonical, addLog_canonical]

theorem execBputErrorResponse_canonical {k s t} (h : execBputErrorResponse k s = .next t)
    (hs : Canonical s) : Canonical t := by
  grind [execBputErrorResponse, modHub_canonical, queueFault_canonical, modByUid_canonical]

/-! ## The vector engine -/

theorem issueV_canonical {s c body t} (h : issueV s c body = .next t) (hs : Canonical s) : Canonical t :=
  issueCharged_canonical h hs

theorem elementwise_canonical {s c d srcs checkT6 f t} (h : elementwise s c d srcs checkT6 f = .next t)
    (hs : Canonical s) : Canonical t := issueV_canonical h hs

theorem arith2_canonical {s c d a b fi ff t} (h : arith2 s c d a b fi ff = .next t)
    (hs : Canonical s) : Canonical t := elementwise_canonical h hs

theorem arith3_canonical {s c d a b x sub t} (h : arith3 s c d a b x sub = .next t)
    (hs : Canonical s) : Canonical t := elementwise_canonical h hs

theorem intWord_canonical {s c d a b f t} (h : intWord s c d a b f = .next t) (hs : Canonical s) : Canonical t :=
  elementwise_canonical h hs

theorem bitWord_canonical {s c d a b f t} (h : bitWord s c d a b f = .next t) (hs : Canonical s) : Canonical t :=
  elementwise_canonical h hs

theorem widen_canonical {s c k4 d a b fi ff t} (h : widen s c k4 d a b fi ff = .next t)
    (hs : Canonical s) : Canonical t := issueV_canonical h hs

theorem laneWord_canonical {s k t d f u} (h : laneWord s k t d f = .next u) (hs : Canonical s) : Canonical u :=
  issueCharged_canonical h hs

theorem formIndex_canonical {s c a push t} (h : formIndex s c a push = .next t)
    (hs : Canonical s) : Canonical t := issueV_canonical h hs

theorem maskWord_canonical {s k r f t} (h : maskWord s k r f = .next t) (hs : Canonical s) : Canonical t :=
  issueCharged_canonical h hs

theorem specialWord_canonical {s k c d a t} (h : specialWord s k c d a = .next t)
    (hs : Canonical s) : Canonical t := issueCharged_canonical h hs

theorem predicateWord_canonical {s k i w t} (h : predicateWord s k i w = .next t)
    (hs : Canonical s) : Canonical t := by
  unfold predicateWord at h
  refine issueWith_canonical (fun _ st u t h hs => ?_) h hs
  obtain ⟨-, -, h⟩ := bind_eq_ok.mp h
  obtain ⟨cs, -, h⟩ := bind_eq_ok.mp h
  dsimp only at h
  split at h <;> simp only [bind_eq_ok] at h <;> grind [chargeStrand_canonical, putStrand_canonical]

theorem execPredicateComplete_canonical {s t} (h : execPredicateComplete s = .next t)
    (hs : Canonical s) : Canonical t := by
  grind [execPredicateComplete, putStrand_canonical, raiseLate_canonical]

/-! ## Slots, tiles and parked registers -/

@[simp] theorem saveSlot_canonical {s area n x} (hs : Canonical s) : Canonical (saveSlot s area n x) := by
  grind [saveSlot, memWrite_canonical]

@[simp] theorem saveTile_canonical {s area n x} (hs : Canonical s) : Canonical (saveTile s area n x) := by
  simp [hs, saveTile]

@[simp] theorem saveReg_canonical {s area n x} (hs : Canonical s) : Canonical (saveReg s area n x) := by
  simp [hs, saveReg]

@[simp] theorem saveSpill_canonical {s area n x} (hs : Canonical s) : Canonical (saveSpill s area n x) := by
  simp [hs, saveSpill]

@[simp] theorem saveParked_canonical {p s st} (hs : Canonical s) : Canonical (saveParked p s st) :=
  foldl_canonical (fun _ _ h => by simp [h]) _ hs

@[simp] theorem moveAllParked_canonical {s cell p} (hs : Canonical s) : Canonical (moveAllParked s cell p) := by
  refine canonical_of_same (s := List.foldl (saveParked p) _ _) ?_ rfl rfl rfl
  exact foldl_canonical (fun _ _ => saveParked_canonical) _ (foldl_canonical (fun _ _ => saveParked_canonical) _ hs)

theorem takeOmPlace_canonical {s cell part uid name x' t} (h : takeOmPlace s cell part uid name = some (x', t))
    (hs : Canonical s) : Canonical t := by
  grind [takeOmPlace, modCell_canonical, saveSlot_canonical, modCtx_canonical]

theorem takeAccPlace_canonical {s cell part uid name x' t} (h : takeAccPlace s cell part uid name = some (x', t))
    (hs : Canonical s) : Canonical t := by
  grind [takeAccPlace, modCell_canonical, moveAllParked_canonical, saveTile_canonical, modCtx_canonical]

theorem claimOm_canonical {s cell st n x' t} (h : claimOm s cell st n = .ok (x', t))
    (hs : Canonical s) : Canonical t := by
  simp only [claimOm] at h
  grind [stall, → takeOmPlace_canonical]

theorem claimAcc_canonical {s cell st n x' t} (h : claimAcc s cell st n = .ok (x', t))
    (hs : Canonical s) : Canonical t := by
  simp only [claimAcc] at h
  grind [stall, → takeAccPlace_canonical]

theorem needTile_canonical {s cell st n x' t} (h : needTile s cell st n = .ok (x', t))
    (hs : Canonical s) : Canonical t := by
  simp only [needTile] at h
  grind [stall, → claimAcc_canonical]

@[simp] theorem freeOm_canonical {s cell st n} (hs : Canonical s) : Canonical (freeOm s cell st n).2 := by
  grind [freeOm, modCell_canonical]

@[simp] theorem freeAcc_canonical {s cell st n} (hs : Canonical s) : Canonical (freeAcc s cell st n).2 := by
  unfold freeAcc
  split <;> simp [hs]

theorem execResourceRestore_canonical {r res s t} (h : execResourceRestore r res s = .next t)
    (hs : Canonical s) : Canonical t := by
  grind [execResourceRestore, putStrand_canonical, → takeOmPlace_canonical, → takeAccPlace_canonical]

theorem claimOms_canonical {s cell st l x t} (h : claimOms s cell st l = .ok (x, t))
    (hs : Canonical s) : Canonical t := by
  induction l generalizing s st with
  | nil => cases h; exact hs
  | cons n l ih => grind [claimOms, bind_eq_match, → claimOm_canonical]

@[simp] theorem freeOms_canonical {s cell st l} (hs : Canonical s) : Canonical (freeOms s cell st l).2 := by
  induction l generalizing s st with
  | nil => exact hs
  | cons n l ih => exact ih (freeOm_canonical hs)

theorem execMclaim_canonical {tk slots tile s t} (h : execMclaim tk slots tile s = .next t)
    (hs : Canonical s) : Canonical t := by
  unfold execMclaim at h
  refine issueM_canonical (fun _ _ _ _ _ h hs => ?_) h hs
  simp only [bind_eq_ok, Prod.exists] at h
  grind [→ claimOms_canonical, → claimAcc_canonical]

theorem execMclaimRetry_canonical {s t} (h : execMclaimRetry s = .next t) (hs : Canonical s) : Canonical t := by
  unfold execMclaimRetry at h
  dsimp only at h
  split at h
  · split at h
    next hx =>
      cases h
      exact cur_canonical.mpr (execMclaim_canonical hx (cur_canonical.mpr hs))
    next hx => exact absurd h (hx t)
  · cases h; exact hs

theorem execMrel_canonical {tk slots tile s t} (h : execMrel tk slots tile s = .next t)
    (hs : Canonical s) : Canonical t := by
  unfold execMrel at h
  refine issueM_canonical (fun _ _ _ _ _ h hs => ?_) h hs
  simp only [bind_eq_ok] at h
  grind [freeOms_canonical, freeAcc_canonical]

theorem execMzero_canonical {tk acc qmask s t} (h : execMzero tk acc qmask s = .next t)
    (hs : Canonical s) : Canonical t := by
  unfold execMzero at h
  refine issueM_canonical (fun _ _ _ _ _ h hs => ?_) h hs
  simp only [bind_eq_ok, Prod.exists] at h
  grind [→ needTile_canonical]

theorem execProductWordComplete_canonical {s t} (h : execProductWordComplete s = .next t)
    (hs : Canonical s) : Canonical t := by
  cases h
  simp [hs]

theorem execVaccrd_canonical {c d b s t} (h : execVaccrd c d b s = .next t) (hs : Canonical s) : Canonical t := by
  unfold execVaccrd at h
  refine issueWith_canonical (fun _ _ _ _ h hs => ?_) h hs
  simp only [bind_eq_ok, Prod.exists] at h
  grind [chargeStrand_canonical, putStrand_canonical]

theorem execVaccwr_canonical {c a b s t} (h : execVaccwr c a b s = .next t) (hs : Canonical s) : Canonical t := by
  unfold execVaccwr at h
  refine issueWith_canonical (fun _ _ _ _ h hs => ?_) h hs
  simp only [bind_eq_ok, Prod.exists] at h
  grind [→ needTile_canonical, chargeStrand_canonical, putStrand_canonical]

theorem execVspill_canonical {tk a s t} (h : execVspill tk a s = .next t) (hs : Canonical s) : Canonical t := by
  unfold execVspill at h
  refine issueWith_canonical (fun _ _ _ _ h hs => ?_) h hs
  simp only [bind_eq_ok] at h
  grind [saveSpill_canonical, chargeStrand_canonical, putStrand_canonical]

theorem execVfill_canonical {tk d a s t} (h : execVfill tk d a s = .next t) (hs : Canonical s) : Canonical t := by
  unfold execVfill at h
  refine issueWith_canonical (fun _ _ _ _ h hs => ?_) h hs
  grind [trap, bind_eq_match, chargeStrand_canonical, putStrand_canonical]

/-! ## Patterns and matrix products -/

theorem faultAfter_canonical {s w f t u} (h : faultAfter s w f t = .ok u) (hs : Canonical s) : Canonical u := by
  cases h
  simp [hs]

theorem execMpload_canonical {tk w n1 s t} (h : execMpload tk w n1 s = .next t) (hs : Canonical s) :
    Canonical t := by
  unfold execMpload at h
  refine issueWith_canonical (fun _ _ _ _ h hu => ?_) h hs
  simp only [bind_eq_ok] at h
  grind [stall, putStrand_canonical, → faultAfter_canonical]

theorem execMpbind_canonical {tk pat ta s t} (h : execMpbind tk pat ta s = .next t) (hs : Canonical s) :
    Canonical t := by
  unfold execMpbind at h
  refine issueWith_canonical (fun _ _ _ _ h hu => ?_) h hs
  simp only [bind_eq_ok] at h
  grind [stall, putStrand_canonical, → faultAfter_canonical]

@[simp] theorem giveGrant_canonical {s d key g debt} (hs : Canonical s) : Canonical (giveGrant s d key g debt) := by
  simp [hs, giveGrant]

theorem execMatrixGrant_canonical {die s t} (h : execMatrixGrant die s = .next t)
    (hs : Canonical s) : Canonical t := by
  grind [execMatrixGrant, giveGrant_canonical, modDie_canonical]

@[simp] theorem rollWindow_canonical {s d} (hs : Canonical s) : Canonical (rollWindow s d) := by
  simp [hs, rollWindow]

theorem execGrantWindowStart_canonical {die s t} (h : execGrantWindowStart die s = .next t)
    (hs : Canonical s) : Canonical t := by
  cases h
  simp [hs]

@[simp] theorem askGrant_canonical {s r st charge tog} (hs : Canonical s) :
    Canonical (askGrant s r st charge tog).2 := by
  unfold askGrant
  split
  · split <;> exact hs
  · dsimp only
    split <;> simp [hs]

theorem product_done_canonical {s r st flush x ix pos st' t old}
    (h : product s r st flush x ix pos = .ok (.done st' t old)) (hs : Canonical s) : Canonical t := by
  unfold product at h
  obtain ⟨l, -, h⟩ := bind_eq_ok.mp h
  obtain ⟨⟨st1, s1⟩, h1, h⟩ := bind_eq_ok.mp h
  obtain ⟨-, -, h⟩ := bind_eq_ok.mp h
  dsimp only at h
  split at h
  · cases h
  next ha =>
    cases h
    have hg := askGrant_canonical (r := r) (st := st1) (charge := prodsCharge l) (tog := prodsTog l)
      (needTile_canonical h1 hs)
    rw [ha] at hg
    exact charge_canonical hg

theorem productWord_canonical {s tk x gathers t} (h : productWord s tk x gathers = .next t) (hs : Canonical s) :
    Canonical t := by
  unfold productWord at h
  refine issueWith_canonical (fun _ _ u _ h hu => ?_) h hs
  obtain ⟨-, -, h⟩ := bind_eq_ok.mp h
  obtain ⟨-, -, h⟩ := bind_eq_ok.mp h
  dsimp only at h
  split at h
  · exact faultAfter_canonical h hs
  · cases h
  · cases h
    simp [hs]
  next hp =>
    cases h
    exact putStrand_canonical.mpr (product_done_canonical hp hu)

/-! ## Drains and nests -/

theorem drainStep_canonical {s r st d x' t} (h : drainStep s r st d = .ok (x', t))
    (hs : Canonical s) : Canonical t := by
  grind [drainStep, bind_eq_match, chargeStrand_canonical]

theorem execMdrain_canonical {tk acc f s t} (h : execMdrain tk acc f s = .next t) (hs : Canonical s) :
    Canonical t := by
  unfold execMdrain at h
  split at h
  · refine issueWith_canonical (fun _ _ u t h hs => ?_) h hs
    obtain ⟨-, -, h⟩ := bind_eq_ok.mp h
    obtain ⟨d, -, h⟩ := bind_eq_ok.mp h
    cases h
    exact hs
  · refine issueWith_canonical (fun _ _ u t h hs => ?_) h hs
    obtain ⟨-, -, h⟩ := bind_eq_ok.mp h
    obtain ⟨⟨st1, s1⟩, h1, h⟩ := bind_eq_ok.mp h
    cases h
    exact putStrand_canonical.mpr (drainStep_canonical h1 hs)

theorem execMtog_canonical {tk s t} (h : execMtog tk s = .next t) (hs : Canonical s) : Canonical t := by
  unfold execMtog at h
  refine issueM_canonical (fun _ _ _ _ _ h hs => ?_) h hs
  simp only [bind_eq_ok] at h
  grind [chargeStrand_canonical]

theorem execMnset_canonical {tk rec s t} (h : execMnset tk rec s = .next t) (hs : Canonical s) : Canonical t := by
  unfold execMnset at h
  refine issueWith_canonical (fun _ _ _ _ h hu => ?_) h hs
  grind [stall, putStrand_canonical, → faultAfter_canonical]

theorem execMnest_canonical {tk s t} (h : execMnest tk s = .next t) (hs : Canonical s) : Canonical t := by
  unfold execMnest at h
  refine issueM_canonical (fun _ _ _ _ _ h hs => ?_) h hs
  simp only [bind_eq_ok] at h
  grind

@[simp] theorem raiseNest_canonical {s r st n step t}
    (hs : Canonical s) : Canonical (raiseNest s r st n step t) := by
  simp [hs, raiseNest]

theorem nestProduct_canonical {s r st n hdr empty rest t} (h : nestProduct s r st n hdr empty rest = .ok t)
    (hs : Canonical s) : Canonical t := by
  unfold nestProduct at h
  obtain ⟨-, -, h⟩ := bind_eq_ok.mp h
  dsimp only at h
  split at h
  · cases h; simp [hs]
  · cases h
  · cases h; simp [hs]
  next hp =>
    cases h
    exact putStrand_canonical.mpr (product_done_canonical hp hs)

theorem nestAct_canonical {s r st n hdr t} (h : nestAct s r st n hdr = .ok t) (hs : Canonical s) : Canonical t := by
  simp only [nestAct] at h
  grind [stall, bind_eq_match, → drainStep_canonical, putStrand_canonical, raiseNest_canonical, →
    nestProduct_canonical]

theorem finishDrain_canonical {s r st d t} (h : finishDrain s r st d = .ok t) (hs : Canonical s) : Canonical t := by
  grind [finishDrain, bind_eq_match, → drainStep_canonical, putStrand_canonical]

theorem execNestStep.after_canonical {s : State} {r : SRef} {a : Act State} {t : State}
    (ha : ∀ u, a = .ok u → Canonical u) (h : execNestStep.after s r a = .next t) (hs : Canonical s) :
    Canonical t := by
  unfold execNestStep.after at h
  split at h <;> cases h
  · exact modStrand_canonical.mpr (ha _ rfl)
  · exact startHold_canonical hs
  · exact hs

/-- `s'` is the state `s` after the count of issue slots. -/
theorem execNestStep.go_canonical {s s' : State} {r : SRef} {st : Strand} {t : State} (hs' : Canonical s')
    (h : execNestStep.go s s' r st = .next t) (hs : Canonical s) : Canonical t := by
  unfold execNestStep.go at h
  split at h
  · split at h
    · cases h; exact hs
    · exact after_canonical (fun u hu => nestAct_canonical hu hs') h hs
  · cases h; exact hs

theorem execNestStep_canonical {s t} (h : execNestStep s = .next t) (hs : Canonical s) : Canonical t := by
  unfold execNestStep at h
  dsimp only at h
  have hs' : Canonical { s with freeCount := s.freeCount + 1 } := hs
  split at h
  · cases h; exact hs
  split at h
  · split at h
    · exact execNestStep.after_canonical (fun u hu => finishDrain_canonical hu hs') h hs
    · exact execNestStep.go_canonical hs' h hs
  · split at h
    · cases h; exact hs
    · exact execNestStep.go_canonical hs' h hs

/-! ## Micro-routines -/

theorem execBind_canonical {lat ga gb n s t} (h : execBind lat ga gb n s = .next t)
    (hs : Canonical s) : Canonical t := by
  unfold execBind at h
  refine issueWith_canonical (fun _ _ _ _ h hs => ?_) h hs
  simp only [bind_eq_ok] at h
  grind [putCtx_canonical, countC_canonical, putStrand_canonical]

theorem scratchPart_canonical {s r pos x st e m w x' t m'} (h : scratchPart s r pos x st e m w = .ok (x', t, m'))
    (hs : Canonical s) : Canonical t := by
  simp only [scratchPart, bind_eq_ok, Prod.exists, ite_eq_iff] at h
  grind [chargeRows_canonical, spmWrite_canonical, writeLanes_canonical, addLanes_canonical]

theorem tilePart_canonical {s r st e m w x' t m'} (h : tilePart s r st e m w = .ok (x', t, m'))
    (hs : Canonical s) : Canonical t := by
  simp only [tilePart, bind_eq_ok, Prod.exists, ite_eq_iff] at h
  grind [→ needTile_canonical]

theorem execBoundOpcode_canonical {n e hdr d a b imm s t} (h : execBoundOpcode n e hdr d a b imm s = .next t)
    (hs : Canonical s) : Canonical t := by
  unfold execBoundOpcode at h
  dsimp only at h
  split at h
  · refine issueWith_canonical (fun _ _ u t h hs => ?_) h hs
    obtain ⟨⟨x, y⟩, -, h⟩ := bind_eq_ok.mp h
    obtain ⟨st', -, h⟩ := bind_eq_ok.mp h
    cases h
    simp [hs]
  · refine issueWith_canonical (fun _ _ u t h hs => ?_) h hs
    simp only [bind_eq_ok] at h
    grind [stall, putStrand_canonical, bind_eq_match]

@[simp] theorem endRoutine_canonical {s w st x} (hs : Canonical s) : Canonical (endRoutine s w st x) := by
  unfold endRoutine
  split <;> simp [hs]

theorem microStep_canonical {s r e st m pos x o} (h : microStep s r e st m pos x = .ok o) (hs : Canonical s) :
    (∀ st' t m', o = .go st' t m' → Canonical t) ∧ ∀ st' t, o = .fin st' t → Canonical t := by
  unfold microStep at h
  obtain ⟨-, -, h⟩ := bind_eq_ok.mp h
  dsimp only at h
  split at h
  · cases h; simp
  split at h
  · obtain ⟨⟨st1, m1⟩, -, h⟩ := bind_eq_ok.mp h
    obtain ⟨_, h1, h⟩ := bind_eq_ok.mp h
    cases h1
    split at h <;> cases h <;> simp [hs]
  split at h
  · obtain ⟨⟨st1, s1, m1⟩, h1, h⟩ := bind_eq_ok.mp h
    replace hs := scratchPart_canonical h1 hs
    split at h <;> cases h <;> simp [hs]
  split at h
  · obtain ⟨⟨st1, s1, m1⟩, h1, h⟩ := bind_eq_ok.mp h
    replace hs := tilePart_canonical h1 hs
    split at h <;> cases h <;> simp [hs]
  · split at h <;> cases h <;> simp [hs]

theorem execMicroStep_canonical {s t} (h : execMicroStep s = .next t) (hs : Canonical s) : Canonical t := by
  unfold execMicroStep at h
  dsimp only at h
  split at h
  · cases h; exact hs
  split at h
  · cases h; exact hs
  split at h
  · cases h; exact hs
  split at h <;> cases h
  · exact hs
  · simp [hs]
  · simp [hs]
  · simp [hs]
  next hx => exact putStrand_canonical.mpr ((microStep_canonical hx hs).1 _ _ _ rfl)
  next hx => exact endRoutine_canonical ((microStep_canonical hx hs).2 _ _ rfl)

theorem dataStage_canonical {s r st x t} (h : dataStage s r st x = .ok t) (hs : Canonical s) : Canonical t := by
  grind [dataStage, bind_eq_match, putStrand_canonical, → storeData_canonical]

theorem execStoreDataStage_canonical {s t} (h : execStoreDataStage s = .next t) (hs : Canonical s) :
    Canonical t := by
  unfold execStoreDataStage at h
  dsimp only at h
  split at h
  · cases h; exact hs
  split at h
  · cases h; exact hs
  split at h
  · cases h; exact hs
  split at h <;> cases h
  next hx => exact dataStage_canonical hx hs
  · exact hs
  · exact startHold_canonical hs
  · exact raiseLate_canonical hs

theorem execResultLands_canonical {r k s t} (h : execResultLands r k s = .next t)
    (hs : Canonical s) : Canonical t := by
  grind [execResultLands, putStrand_canonical]

theorem execTokenPush_canonical {r k s t} (h : execTokenPush r k s = .next t) (hs : Canonical s) : Canonical t := by
  grind [execTokenPush, putStrand_canonical]

/-! ## Collectives -/

@[simp] theorem putColl_canonical {s d part c} (hc : memWf c.staging) (hs : Canonical s) :
    Canonical (putColl s d part c) := by
  refine putDie_canonical (fun y hy => ?_) hs
  obtain rfl | hy := mem_fset hy
  · exact hc
  · exact hs.2.2 d y hy

/-- A change of a partition's part of an engine that leaves its staging area. -/
@[simp] theorem modColl_canonical {s d part} {f : CollPart → CollPart} (hf : ∀ x, (f x).staging = x.staging)
    (hs : Canonical s) : Canonical (modColl s d part f) :=
  putColl_canonical ((hf _).symm ▸ getColl_staging_wf hs d part) hs

@[simp] theorem putSlot_canonical {s r x} (hs : Canonical s) : Canonical (putSlot s r x) :=
  modColl_canonical (fun _ => rfl) hs

@[simp] theorem modSlot_canonical {s r f} (hs : Canonical s) : Canonical (modSlot s r f) := by
  unfold modSlot
  split <;> simp [hs]

@[simp] theorem modRun_canonical {s r f} (hs : Canonical s) : Canonical (modRun s r f) := by simp [hs, modRun]

@[simp] theorem giveResult_canonical {s cmd w} : Canonical (giveResult s cmd w) ↔ Canonical s := Iff.rfl

@[simp] theorem logMismatch_canonical {s r m} (hs : Canonical s) : Canonical (logMismatch s r m) := by
  simp [hs, logMismatch]

@[simp] theorem logNoGroup_canonical {s die m} (hs : Canonical s) : Canonical (logNoGroup s die m) := by
  simp [hs, logNoGroup]

@[simp] theorem sendNet_canonical {s l} : Canonical (sendNet s l) ↔ Canonical s := Iff.rfl

@[simp] theorem settleAbort_canonical {s r a} (hs : Canonical s) : Canonical (settleAbort s r a) := by
  grind [settleAbort, sendNet_canonical, putSlot_canonical, giveResult_canonical]

@[simp] theorem settleAborts_canonical {s r} (hs : Canonical s) : Canonical (settleAborts s r) := by
  unfold settleAborts
  split
  · exact hs
  · exact foldl_canonical (fun _ _ => settleAbort_canonical) _ hs

@[simp] theorem startAbort_canonical {s r seq root cause parent}
    (hs : Canonical s) : Canonical (startAbort s r seq root cause parent) := by
  unfold startAbort
  split <;> simp [hs]

@[simp] theorem detect_canonical {s r cause} (hs : Canonical s) : Canonical (detect s r cause) := by
  unfold detect
  split <;> simp [hs]

@[simp] theorem collFault_canonical {s r t} (hs : Canonical s) : Canonical (collFault s r t) := by
  simp [hs, collFault]

theorem readRange_canonical {s r cmd b k off len x' t} (h : readRange s r cmd b k off len = .ok (x', t))
    (hs : Canonical s) : Canonical t := by
  grind [readRange, bind_eq_match, → runOf_canonical, → readPieces_canonical, touchPieces_canonical]

theorem writeRange_canonical {s r cmd b k off bs t} (h : writeRange s r cmd b k off bs = .ok t)
    (hs : Canonical s) : Canonical t := by
  unfold writeRange at h
  dsimp only at h
  split at h
  · cases h; exact hs
  split at h
  · cases h
    exact putColl_canonical (writeN_wf (getColl_staging_wf hs _ _) _ _ _) hs
  obtain ⟨⟨ps, s1⟩, h1, h⟩ := bind_eq_ok.mp h
  obtain ⟨s2, h2, h⟩ := bind_eq_ok.mp h
  cases h
  exact touchPieces_canonical (writePieces_canonical h2 (runOf_canonical h1 hs))

theorem pushColl_canonical {s mk t} (h : pushColl s mk = .next t) (hs : Canonical s) : Canonical t := by
  unfold pushColl at h
  refine issueWith_canonical (fun _ _ _ _ h hs => ?_) h hs
  simp only [bind_eq_ok] at h
  grind [freshId_canonical, modColl_canonical, countC_canonical, putStrand_canonical]

theorem readFor_canonical {s die part va n x' t} (h : readFor s die part va n = .ok (x', t))
    (hs : Canonical s) : Canonical t := by
  grind [readFor, → readVirt_canonical, dropAnswers_canonical, logTrap_canonical]

theorem runGset_canonical {s die part cmd va t} (h : runGset s die part cmd va = .ok t)
    (hs : Canonical s) : Canonical t := by
  unfold runGset at h
  dsimp only at h
  split at h
  · cases h; simp [hs]
  obtain ⟨⟨d, s1⟩, h1, h⟩ := bind_eq_ok.mp h
  replace hs := readFor_canonical h1 hs
  dsimp only at h
  split at h
  · cases h; simp [hs]
  split at h
  · cases h; simp [hs]
  split at h
  · cases h; simp [hs]
  obtain ⟨⟨l, s2⟩, h2, h⟩ := bind_eq_ok.mp h
  replace hs := readFor_canonical h2 hs
  dsimp only at h
  split at h
  · cases h; simp [hs]
  split at h <;> cases h <;> simp [hs]

@[simp] theorem runGfree_canonical {s die part cmd k}
    (hs : Canonical s) : Canonical (runGfree s die part cmd k) := by
  unfold runGfree
  split <;> simp [hs]

theorem runCrun_canonical {s die part cmd va t} (h : runCrun s die part cmd va = .ok t)
    (hs : Canonical s) : Canonical t := by
  simp only [runCrun, bind_eq_ok, Prod.exists, ite_eq_iff] at h
  grind [giveResult_canonical, → readFor_canonical, putSlot_canonical]

theorem runCmd_canonical {s die part cmd t} (h : runCmd s die part cmd = .ok t)
    (hs : Canonical s) : Canonical t := by
  grind [runCmd, → runGset_canonical, runGfree_canonical, → runCrun_canonical]

@[simp] theorem startColl_canonical {s r} (hs : Canonical s) : Canonical (startColl s r) := by
  grind [startColl, putSlot_canonical, settleAborts_canonical, modSlot_canonical, detect_canonical, →
    readVirt_canonical, startHold_canonical, collFault_canonical]

@[simp] theorem pumpCmds_canonical {die part : Nat} {l : List CollCmd} {blocked : List Nat} {s : State}
    (hs : Canonical s) : Canonical (pumpCmds die part l blocked s) := by
  induction l generalizing blocked s with
  | nil => exact hs
  | cons c cs ih =>
    unfold pumpCmds
    split
    · exact ih hs
    split
    next hr => exact ih (modColl_canonical (fun _ => rfl) (runCmd_canonical hr hs))
    · exact ih (startHold_canonical hs)
    · exact ih hs

@[simp] theorem pumpColl_canonical {s die part} (hs : Canonical s) : Canonical (pumpColl s die part) :=
  foldl_canonical (fun _ _ => startColl_canonical) _ (pumpCmds_canonical hs)

@[simp] theorem pumpAll_canonical {s} (hs : Canonical s) : Canonical (pumpAll s) :=
  foldl_canonical (fun _ _ h => foldl_canonical (fun _ _ => pumpColl_canonical) _ h) _ hs

theorem sendHeader_canonical {s r x q a x' t} (h : sendHeader s r x q a = some (x', t))
    (hs : Canonical s) : Canonical t := by
  grind [sendHeader, freshId_canonical, sendNet_canonical, chargeFor_canonical, modRun_canonical]

@[simp] theorem giveData_canonical {s id bs} (hs : Canonical s) : Canonical (giveData s id bs) :=
  foldl_canonical (fun _ _ => modSlot_canonical) _ (modHub_canonical.mpr hs)

@[simp] theorem tellWritten_canonical {s id m} (hs : Canonical s) : Canonical (tellWritten s id m) := by
  unfold tellWritten
  split
  · exact foldl_canonical (fun _ _ => modRun_canonical) _ hs
  · simp [hs]

@[simp] theorem dropStep_canonical {s r i} (hs : Canonical s) : Canonical (dropStep s r i) := by simp [hs, dropStep]

theorem collAct_canonical {α : Type} {s : State} {r : CRef} {a : Act α} {go : α → State}
    (hg : ∀ x, a = .ok x → Canonical (go x)) (hs : Canonical s) : Canonical (collAct s r a go) := by
  unfold collAct
  split
  · exact hg _ rfl
  all_goals simp [hs]

@[simp] theorem readOut_canonical {s r q i a id} (hs : Canonical s) : Canonical (readOut s r q i a id) := by
  refine collAct_canonical (fun ⟨bs, u⟩ h => ?_) hs
  replace hs := readRange_canonical h hs
  refine dropStep_canonical (giveData_canonical ?_)
  split <;> split <;> simp [hs]

theorem receivedBytes_canonical {s r q a data x' t} (h : receivedBytes s r q a data = .ok (x', t))
    (hs : Canonical s) : Canonical t := by
  grind [receivedBytes, bind_eq_match, → readRange_canonical, chargeFor_canonical]

@[simp] theorem sendOn_canonical {s r q i a} (hs : Canonical s) : Canonical (sendOn s r q i a) := by
  grind [sendOn, → sendHeader_canonical, detect_canonical, dropStep_canonical, modRun_canonical]

@[simp] theorem upsetColl_canonical {s r} (hs : Canonical s) : Canonical (upsetColl s r) :=
  collFault_canonical (upsets_canonical.mpr hs)

@[simp] theorem takeMessage_canonical {s r q i a id m} (hs : Canonical s) :
    Canonical (takeMessage s r q i a id m) := by
  unfold takeMessage
  split
  · simp [hs]
  split
  · exact hs
  split
  · simp [hs]
  refine collAct_canonical (fun ⟨done, u⟩ h => ?_) hs
  obtain ⟨⟨bs, s1⟩, h1, h⟩ := bind_eq_ok.mp h
  replace hs := receivedBytes_canonical h1 hs
  dsimp only at h
  split at h
  · cases h; simp [hs]
  · obtain ⟨s2, h2, h⟩ := bind_eq_ok.mp h
    replace hs := writeRange_canonical h2 hs
    cases h
    grind [countFor_canonical, modSlot_canonical, tellWritten_canonical, sendOn_canonical, dropStep_canonical]

@[simp] theorem copyStep_canonical {s r q i a} (hs : Canonical s) : Canonical (copyStep s r q i a) := by
  refine collAct_canonical (fun u h => ?_) hs
  obtain ⟨⟨bs, s1⟩, h1, h⟩ := bind_eq_ok.mp h
  exact dropStep_canonical (writeRange_canonical h (readRange_canonical h1 hs))

@[simp] theorem goStep_canonical {s r x q i a} (hs : Canonical s) : Canonical (goStep s r x q i a) := by
  grind [goStep, readOut_canonical, copyStep_canonical, takeMessage_canonical]

@[simp] theorem countStep_canonical {s r} (hs : Canonical s) : Canonical (countStep s r) := by
  unfold countStep
  split <;> simp [hs]

@[simp] theorem startStep_canonical {s r x q w} (hs : Canonical s) : Canonical (startStep s r x q w) := by
  grind [startStep, detect_canonical, → sendHeader_canonical, modRun_canonical, countStep_canonical]

theorem moveStep_canonical {s r op t} (h : moveStep s r op = .next t) (hs : Canonical s) : Canonical t := by
  unfold moveStep at h
  grind [goStep_canonical, startStep_canonical]

theorem atStep_canonical {s t : State} {r : CRef} {op : Nat} {f : CollSlot → CollRun → Word → State}
    (hf : ∀ x q w, Canonical (f x q w)) (h : atStep s r op f = .next t) (hs : Canonical s) : Canonical t := by
  grind [atStep]

theorem execCollWait_canonical {r s t} (h : execCollWait r s = .next t) (hs : Canonical s) : Canonical t := by
  refine atStep_canonical (fun x q w => ?_) h hs
  split <;> simp [hs]

theorem execCollLoop_canonical {r s t} (h : execCollLoop r s = .next t) (hs : Canonical s) : Canonical t := by
  refine atStep_canonical (fun x q w => ?_) h hs
  grind [detect_canonical, modRun_canonical, countStep_canonical]

theorem execCollEndl_canonical {r s t} (h : execCollEndl r s = .next t) (hs : Canonical s) : Canonical t := by
  refine atStep_canonical (fun x q w => ?_) h hs
  dsimp only
  split <;> simp [hs]

@[simp] theorem finishColl_canonical {s r x q place} (hs : Canonical s) : Canonical (finishColl s r x q place) := by
  simp [hs, finishColl]

theorem execCollEnd_canonical {r s t} (h : execCollEnd r s = .next t) (hs : Canonical s) : Canonical t := by
  unfold execCollEnd at h
  split at h
  · cases h; exact hs
  split at h
  · cases h; exact hs
  split at h
  · cases h; exact hs
  split at h
  · cases h; simp [hs]
  split at h
  · cases h; exact hs
  split at h
  · cases h; simp [hs]
  split at h <;> cases h <;> simp [hs]

theorem execCollTimeout_canonical {r s t} (h : execCollTimeout r s = .next t) (hs : Canonical s) : Canonical t := by
  grind [execCollTimeout, detect_canonical]

@[simp] theorem errorToSender_canonical {s id m} (hs : Canonical s) : Canonical (errorToSender s id m) := by
  grind [errorToSender, detect_canonical, sendNet_canonical]

@[simp] theorem deliverColl_canonical {s die id m} (hs : Canonical s) : Canonical (deliverColl s die id m) := by
  unfold deliverColl
  split <;> simp [hs]

theorem takeNet_canonical {s p x' t} (h : takeNet s p = some (x', t)) (hs : Canonical s) : Canonical t := by
  grind [takeNet, modHub_canonical]

theorem execCollMessageArrive_canonical {die m s t} (h : execCollMessageArrive die m s = .next t)
    (hs : Canonical s) : Canonical t := by
  grind [execCollMessageArrive, → takeNet_canonical, deliverColl_canonical, freshId_canonical]

@[simp] theorem refuseAbort_canonical {s die m} (hs : Canonical s) : Canonical (refuseAbort s die m) := by
  simp [hs, refuseAbort]

theorem takeAbort_canonical {s a mine t} (h : takeAbort s a mine = some t) (hs : Canonical s) : Canonical t := by
  unfold takeAbort at h
  split at h
  · obtain ⟨⟨m, u⟩, hu, rfl⟩ := Option.map_eq_some_iff.mp h
    exact takeNet_canonical hu hs
  · cases h; exact hs

theorem execAbortReceive_canonical {die a s t} (h : execAbortReceive die a s = .next t)
    (hs : Canonical s) : Canonical t := by
  grind [execAbortReceive, → takeAbort_canonical, refuseAbort_canonical, sendNet_canonical, startAbort_canonical]

@[simp] theorem dropChild_canonical {s r seq child} (hs : Canonical s) : Canonical (dropChild s r seq child) := by
  simp [hs, dropChild]

theorem execAbortAck_canonical {die a s t} (h : execAbortAck die a s = .next t)
    (hs : Canonical s) : Canonical t := by
  grind [execAbortAck, → takeAbort_canonical, refuseAbort_canonical, dropChild_canonical]

theorem execAbortGiveUp_canonical {r child s t} (h : execAbortGiveUp r child s = .next t)
    (hs : Canonical s) : Canonical t := by
  grind [execAbortGiveUp, dropChild_canonical]

theorem execSwitchFailure_canonical {r s t} (h : execSwitchFailure r s = .next t)
    (hs : Canonical s) : Canonical t := by
  grind [execSwitchFailure, detect_canonical]

theorem execInFabricGrant_canonical {r granted result s t} (h : execInFabricGrant r granted result s = .next t)
    (hs : Canonical s) : Canonical t := by
  unfold execInFabricGrant at h
  split at h
  · cases h; exact hs
  split at h
  · cases h; exact hs
  next q _ =>
    generalize (if bufKind q.block 1 = 0 then 0 else 1) = d at h
    dsimp only at h
    split at h
    · cases h; exact hs
    split at h
    · cases h; simp [hs]
    split at h
    · cases h; exact hs
    split at h
    · cases h; simp [hs]
    split at h <;> cases h
    · exact hs
    refine collAct_canonical (fun u h => ?_) hs
    obtain ⟨⟨bs, s1⟩, h1, h⟩ := bind_eq_ok.mp h
    replace hs := writeRange_canonical h (readRange_canonical h1 hs)
    split <;> simp [hs]

/-! ## The fabric and the host -/

@[simp] theorem passPoints_canonical {s r a} (hs : Canonical s) : Canonical (passPoints s r a) := by
  simp [hs, passPoints]

@[simp] theorem departOne_canonical {s r st a} (hs : Canonical s) : Canonical (departOne s r st a) := by
  grind [departOne, modHub_canonical, passPoints_canonical, performAway_canonical]

@[simp] theorem endUnit_canonical {s u e} : Canonical (endUnit s u e) ↔ Canonical s := Iff.rfl

@[simp] theorem departUnit_canonical {s u} (hs : Canonical s) : Canonical (departUnit s u) := by
  grind [departUnit, modHub_canonical, endUnit_canonical]

@[simp] theorem departAll_canonical {s} (hs : Canonical s) : Canonical (departAll s) := by
  refine foldl_canonical (fun _ _ => departUnit_canonical) _ ?_
  refine foldl_canonical (fun u p hu => foldl_canonical (fun v a hv => ?_) _ hu) _ hs
  split
  · split <;> simp [hv]
  · exact hv

@[simp] theorem dropRemote_canonical {s id} : Canonical (dropRemote s id) ↔ Canonical s := Iff.rfl

@[simp] theorem answerAway_canonical {s id p reply} (hs : Canonical s) : Canonical (answerAway s id p reply) := by
  grind [answerAway, endUnit_canonical, performAway_canonical, dropRemote_canonical]

@[simp] theorem failRemote_canonical {s id} (hs : Canonical s) : Canonical (failRemote s id) := by
  unfold failRemote
  split <;> simp [hs]

@[simp] theorem failAway_canonical {s id} (hs : Canonical s) : Canonical (failAway s id) := by
  unfold failAway
  split <;> simp [hs]

@[simp] theorem answerColl_canonical {s id reply} (hs : Canonical s) : Canonical (answerColl s id reply) := by
  unfold answerColl
  split
  · simp [hs]
  · split <;> simp [hs]

theorem execRemoteResponse_canonical {id reply s t} (h : execRemoteResponse id reply s = .next t)
    (hs : Canonical s) : Canonical t := by
  grind [execRemoteResponse, answerAway_canonical, answerColl_canonical]

theorem execRemoteTimeout_canonical {id s t} (h : execRemoteTimeout id s = .next t)
    (hs : Canonical s) : Canonical t := by
  grind [execRemoteTimeout, failAway_canonical]

theorem execHostCompletion_canonical {id reply s t} (h : execHostCompletion id reply s = .next t)
    (hs : Canonical s) : Canonical t := by
  cases h
  simp [hs]

theorem execHostCompletionTimeout_canonical {id s t} (h : execHostCompletionTimeout id s = .next t)
    (hs : Canonical s) : Canonical t := by
  grind [execHostCompletionTimeout, failAway_canonical]

@[simp] theorem dropPort_canonical {s port lost} (hs : Canonical s) : Canonical (dropPort s port lost) := by
  refine foldl_canonical (fun _ _ => detect_canonical) _ ?_
  refine map_dies_canonical (s := List.foldl _ _ _) ?_ rfl (fun _ => List.Subset.refl _) rfl rfl
  refine foldl_canonical (fun _ _ => endUnit_canonical.mpr) _ ?_
  exact foldl_canonical (fun _ _ => failRemote_canonical) _ (modHub_canonical.mpr hs)

theorem execPortDown_canonical {port lost s t} (h : execPortDown port lost s = .next t)
    (hs : Canonical s) : Canonical t := by
  grind [execPortDown, dropPort_canonical]

@[simp] theorem setReplays_canonical {s port n} : Canonical (setReplays s port n) ↔ Canonical s := Iff.rfl

theorem execEpnerFlitReceive_canonical {port ok s t} (h : execEpnerFlitReceive port ok s = .next t)
    (hs : Canonical s) : Canonical t := by
  unfold execEpnerFlitReceive at h
  grind [setReplays_canonical, dropPort_canonical]

@[simp] theorem invalidateRange_canonical {s part base len} (hs : Canonical s) :
    Canonical (invalidateRange s part base len) :=
  map_canonical hs rfl rfl (fun _ h => h) (fun _ => List.Subset.refl _) rfl

@[simp] theorem answerWord0_canonical {s uid pos x} : Canonical (answerWord0 s uid pos x) ↔ Canonical s := Iff.rfl

@[simp] theorem queueScrub_canonical {s x} : Canonical (queueScrub s x) ↔ Canonical s := Iff.rfl

@[simp] theorem takeFrames_canonical {s part fs} : Canonical (takeFrames s part fs) ↔ Canonical s := Iff.rfl

theorem execInvalidationComplete_canonical {k s t} (h : execInvalidationComplete k s = .next t)
    (hs : Canonical s) : Canonical t := by
  grind [execInvalidationComplete, invalidateRange_canonical, modHub_canonical, takeFrames_canonical,
    answerWord0_canonical]

@[simp] theorem attemptAll_canonical {s} (hs : Canonical s) : Canonical (attemptAll s) :=
  map_dies_canonical hs rfl (fun _ => List.Subset.refl _) rfl rfl

@[simp] theorem dropPull_canonical {s die k} (hs : Canonical s) : Canonical (dropPull s die k) :=
  modDie_canonical (fun _ => rfl) hs

@[simp] theorem endAttempt_canonical {s die k p} (hs : Canonical s) : Canonical (endAttempt s die k p) :=
  modDie_canonical (fun _ => rfl) hs

theorem execPullDataArrive_canonical {die k reply s t} (h : execPullDataArrive die k reply s = .next t)
    (hs : Canonical s) : Canonical t := by
  grind [execPullDataArrive, endAttempt_canonical, memWrite_canonical, dropPull_canonical, modPart_canonical,
    invalidateRange_canonical]

theorem execPullAttemptTimeout_canonical {die k s t} (h : execPullAttemptTimeout die k s = .next t)
    (hs : Canonical s) : Canonical t := by
  grind [execPullAttemptTimeout, endAttempt_canonical]

theorem execPullGiveUp_canonical {die k s t} (h : execPullGiveUp die k s = .next t) (hs : Canonical s) :
    Canonical t := by
  unfold execPullGiveUp at h
  split at h
  · cases h; exact hs
  split at h <;> cases h
  · exact invalidateRange_canonical (modHub_canonical.mpr (memWrite_canonical (dropPull_canonical hs)))
  · exact hs

@[simp] theorem touchHome_canonical {s pa n msa} (hs : Canonical s) : Canonical (touchHome s pa n msa) := by
  unfold touchHome
  split
  · split
    · exact foldl_canonical (fun _ _ => l2Drop_canonical) _ hs
    · exact l2Read_canonical hs
  · exact hs

@[simp] theorem remotePerform_canonical {s q} (hs : Canonical s) : Canonical (remotePerform s q).2 := by
  grind [remotePerform, settleLines_canonical, touchHome_canonical, memWrite_canonical, atomicAt_canonical]

theorem execRemoteRequestArrive_canonical {q s t} (h : execRemoteRequestArrive q s = .next t)
    (hs : Canonical s) : Canonical t := by
  grind [execRemoteRequestArrive, remotePerform_canonical, sendNet_canonical]

/-! ## Scheduling -/

@[simp] theorem modBox_canonical {s part key f} : Canonical (modBox s part key f) ↔ Canonical s := Iff.rfl

@[simp] theorem setStat_canonical {s part key stat cause}
    : Canonical (setStat s part key stat cause) ↔ Canonical s := Iff.rfl

@[simp] theorem enterSlot_canonical {s r st} (hs : Canonical s) : Canonical (enterSlot s r st) := by
  simp [hs, enterSlot]

@[simp] theorem saveRegs_canonical {s d names} (hs : Canonical s) : Canonical (saveRegs s d names) :=
  foldl_canonical (fun _ _ => saveReg_canonical) _ hs

@[simp] theorem leaveBank_canonical {s r st} (hs : Canonical s) : Canonical (leaveBank s r st) := by
  refine canonical_of_same (s := List.foldl _ _ _) ?_ rfl rfl rfl
  exact foldl_canonical (fun _ _ => saveRegs_canonical) _ hs

@[simp] theorem takeAreas_canonical {s part n} : Canonical (takeAreas s part n) ↔ Canonical s := Iff.rfl

@[simp] theorem modLaunch_canonical {s part number f}
    : Canonical (modLaunch s part number f) ↔ Canonical s := Iff.rfl

@[simp] theorem placeNext_canonical {s part number r}
    (hs : Canonical s) : Canonical (placeNext s part number r) := by
  unfold placeNext
  split <;> simp [hs]

theorem execStrandDispatch_canonical {part launch r s t} (h : execStrandDispatch part launch r s = .next t)
    (hs : Canonical s) : Canonical t := by
  unfold execStrandDispatch at h
  split at h
  · cases h; exact hs
  extract_lets free n at h
  split at h <;> cases h
  · exact hs
  · exact foldl_canonical (fun _ _ => placeNext_canonical) _ hs

@[simp] theorem raiseUnit_canonical {s r t} (hs : Canonical s) : Canonical (raiseUnit s r t) := by
  unfold raiseUnit
  split <;> simp [hs]

@[simp] theorem loadOperators_canonical {s die part im} (hs : Canonical s) :
    Canonical (loadOperators s die part im) := by
  unfold loadOperators
  dsimp only
  split
  · exact hs
  · exact foldl_canonical (fun _ _ => addLog_canonical) _ (putColl_canonical (getColl_staging_wf hs die part) hs)

@[simp] theorem installImage_canonical {s r part im} (hs : Canonical s) : Canonical (installImage s r part im) :=
  foldl_canonical (fun _ _ => raiseUnit_canonical) _ (putCtx_canonical.mpr hs)

@[simp] theorem startEngines_canonical {s r fresh entry}
    (hs : Canonical s) : Canonical (startEngines s r fresh entry) := by
  grind [startEngines, modStrand_canonical, setStat_canonical]

@[simp] theorem placeOverlay_canonical {s r st im fresh seq}
    (hs : Canonical s) : Canonical (placeOverlay s r st im fresh seq) := by
  grind [placeOverlay, raiseUnit_canonical, → loadOverlay_canonical, startEngines_canonical, startHold_canonical]

theorem execPlacementLoad.change_canonical {s r st c t} (h : execPlacementLoad.change s r st c = .next t)
    (hs : Canonical s) : Canonical t := by
  unfold execPlacementLoad.change at h
  split at h <;> cases h
  next hx => exact installImage_canonical (readImage_canonical hx hs)
  next hx => exact raiseUnit_canonical (readImage_canonical hx hs)
  · exact hs
  all_goals simp [hs]

theorem execPlacementLoad_canonical {s t} (h : execPlacementLoad s = .next t) (hs : Canonical s) : Canonical t := by
  unfold execPlacementLoad at h
  dsimp only at h
  split at h
  · cases h; exact hs
  split at h
  · cases h; exact hs
  split at h
  · cases h; exact hs
  split at h
  · split at h
    · cases h; simp [hs]
    · split at h
      · cases h; exact hs
      · exact execPlacementLoad.change_canonical h hs
  · exact execPlacementLoad.change_canonical h hs

@[simp] theorem depart_canonical {s r st dead} (hs : Canonical s) : Canonical (depart s r st dead) := by
  simp [hs, depart]

@[simp] theorem saveBank_canonical {s d} (hs : Canonical s) : Canonical (saveBank s d) := by simp [hs, saveBank]

@[simp] theorem saveAll_canonical {s uid d} (hs : Canonical s) : Canonical (saveAll s uid d).2 := by
  refine map_cells_canonical (s := List.foldl _ _ _) ?_ rfl (fun _ h => h) rfl rfl
  refine foldl_canonical (fun _ _ h => by simp [h]) _ ?_
  exact foldl_canonical (fun _ _ h => by simp [h]) _ (saveParked_canonical (saveBank_canonical hs))

@[simp] theorem resumeOne_canonical {s k d r} (hs : Canonical s) : Canonical (resumeOne s k d r) := by
  have h1 : Canonical (if k = r.cell then (d, s) else saveAll s d.uid d).2 := by split <;> simp [hs]
  unfold resumeOne
  generalize (if k = r.cell then (d, s) else saveAll s d.uid d) = x at h1
  obtain ⟨e, u⟩ := x
  have h2 : Canonical (if decide (e.vHome = some r.slot) = true then u else saveBank u e) := by
    split <;> simp [h1]
  refine enterSlot_canonical (freeCount_canonical.mpr ?_)
  exact modCell_canonical (fun _ => rfl) (putCtx_canonical.mpr (freshId_canonical.mpr h2))

@[simp] theorem resumeAll_canonical {s l} (hs : Canonical s) : Canonical (resumeAll s l) := by
  unfold resumeAll
  split
  · exact foldl_canonical (fun _ _ => resumeOne_canonical) _ hs
  · exact hs

theorem execStrandResume_canonical {r k s t} (h : execStrandResume r k s = .next t)
    (hs : Canonical s) : Canonical t := by
  grind [execStrandResume, resumeAll_canonical]

@[simp] theorem releaseHeld_canonical {s uid} (hs : Canonical s) : Canonical (releaseHeld s uid) :=
  map_cells_canonical hs rfl (fun _ h => h) rfl rfl

@[simp] theorem dropUid_canonical {s uid} (hs : Canonical s) : Canonical (dropUid s uid) := by
  refine canonical_of_same (s := match strandByUid s uid with | some (r, st) => leaveBank s r st | none => s)
    ?_ rfl rfl rfl
  split <;> simp [hs]

@[simp] theorem retire_canonical {s st failed} (hs : Canonical s) : Canonical (retire s st failed) := by
  refine dropUid_canonical (releaseHeld_canonical (modPart_canonical.mpr ?_))
  split <;> simp [hs]

theorem execStrandEnd_canonical {s t} (h : execStrandEnd s = .next t) (hs : Canonical s) : Canonical t := by
  grind [execStrandEnd, raiseDrain_canonical, countRegion_canonical, retire_canonical, setStat_canonical]

theorem storeCflag_canonical {s part l t} (h : storeCflag s part l = .ok t) (hs : Canonical s) : Canonical t := by
  grind [storeCflag, → writeVirt_canonical]

theorem execLaunchComplete_canonical {part launch s t} (h : execLaunchComplete part launch s = .next t)
    (hs : Canonical s) : Canonical t := by
  grind [execLaunchComplete, flushChain_canonical, modLaunch_canonical, → storeCflag_canonical, startHold_canonical,
    dropAnswers_canonical, logTrap_canonical]

@[simp] theorem refuseBox_canonical {s part key c} : Canonical (refuseBox s part key c) ↔ Canonical s := Iff.rfl

@[simp] theorem failBox_canonical {s r part t} (hs : Canonical s) : Canonical (failBox s r part t) := by
  simp [hs, failBox]

@[simp] theorem keepGo_canonical {s part key} : Canonical (keepGo s part key) ↔ Canonical s := Iff.rfl

@[simp] theorem startBox_canonical {s part r b} (hs : Canonical s) : Canonical (startBox s part r b) := by
  grind [startBox, failBox_canonical, → readImage_canonical, keepGo_canonical, startHold_canonical,
    refuseBox_canonical, → admitRegion_canonical, freshId_canonical, enterSlot_canonical, takeAreas_canonical]

@[simp] theorem requestStop_canonical {s st} : Canonical (requestStop s st) ↔ Canonical s := Iff.rfl

theorem execMailboxGo_canonical {part r s t} (h : execMailboxGo part r s = .next t)
    (hs : Canonical s) : Canonical t := by
  grind [execMailboxGo, requestStop_canonical, modBox_canonical, setStat_canonical, startBox_canonical]

@[simp] theorem giveBlock_canonical {s r} (hs : Canonical s) : Canonical (giveBlock s r) := by simp [hs, giveBlock]

theorem execBlockSwitch_canonical {s t} (h : execBlockSwitch s = .next t) (hs : Canonical s) : Canonical t := by
  grind [execBlockSwitch, giveBlock_canonical, putStrand_canonical]

theorem execBlockTimeExpiry_canonical {s t} (h : execBlockTimeExpiry s = .next t)
    (hs : Canonical s) : Canonical t := by
  cases h
  simp [hs]

theorem execSliceExpiry_canonical {s t} (h : execSliceExpiry s = .next t) (hs : Canonical s) : Canonical t := by
  grind [execSliceExpiry, requestStop_canonical]

theorem execPreemptionRequest_canonical {s t} (h : execPreemptionRequest s = .next t)
    (hs : Canonical s) : Canonical t := by
  grind [execPreemptionRequest, putStrand_canonical, requestStop_canonical]

@[simp] theorem dropTiles_canonical {s cell l st} (hs : Canonical s) : Canonical (dropTiles s cell l st).2 :=
  foldl_snd_canonical (fun _ _ => freeAcc_canonical) _ (foldl_snd_canonical (fun _ _ => freeOm_canonical) _ hs)

theorem execLullStop_canonical {s t} (h : execLullStop s = .next t) (hs : Canonical s) : Canonical t := by
  grind [execLullStop, countRegion_canonical, dropTiles_canonical, depart_canonical]

theorem execForcedSave_canonical {s t} (h : execForcedSave s = .next t) (hs : Canonical s) : Canonical t := by
  grind [execForcedSave, countRegion_canonical, depart_canonical, putStrand_canonical]

theorem rereadBlock_canonical {die part r s x' t} (h : rereadBlock die part r s = .ok (x', t))
    (hs : Canonical s) : Canonical t := by
  grind [rereadBlock, bind_eq_match, → readBlock_canonical]

theorem rereadChain_canonical {die part l s x' t} (h : rereadChain die part l s = .ok (x', t))
    (hs : Canonical s) : Canonical t := by
  induction l generalizing s x' t with
  | nil => cases h; exact hs
  | cons r rest ih =>
    unfold rereadChain at h
    obtain ⟨⟨b, s1⟩, h1, h⟩ := bind_eq_ok.mp h
    obtain ⟨⟨l, s2⟩, h2, h⟩ := bind_eq_ok.mp h
    cases h
    exact ih h2 (rereadBlock_canonical h1 hs)

theorem rereadOne_canonical {die s r t} (h : rereadOne die s r = .ok t) (hs : Canonical s) : Canonical t := by
  grind [rereadOne, bind_eq_match, → rereadChain_canonical, modDie_canonical, addLog_canonical]

theorem execRegionReread_canonical {die s t} (h : execRegionReread die s = .next t) (hs : Canonical s) :
    Canonical t := by
  unfold execRegionReread at h
  dsimp only at h
  split at h
  · cases h; exact hs
  split at h <;> cases h
  next hx => exact modDie_canonical (fun _ => rfl) (foldlM_canonical (fun _ _ _ => rereadOne_canonical) hx hs)
  · simp [hs]
  · exact hs

theorem execEnergyPeriodStart_canonical {s t} (h : execEnergyPeriodStart s = .next t) (hs : Canonical s) :
    Canonical t := by
  unfold execEnergyPeriodStart at h
  split at h <;> cases h
  · refine modHub_canonical.mpr
      (map_dies_canonical (s := List.foldl _ _ _) ?_ rfl (fun _ => List.Subset.refl _) rfl rfl)
    exact foldl_canonical (fun _ _ h => foldl_canonical (fun _ _ => flushEnergy_canonical) _ h) _ hs
  · exact hs

/-! ## Faults after they are raised -/

@[simp] theorem deliverHost_canonical {s r st q} (hs : Canonical s) : Canonical (deliverHost s r st q) := by
  simp [hs, deliverHost]

@[simp] theorem takeEntry_canonical {s part area i} : Canonical (takeEntry s part area i) ↔ Canonical s := Iff.rfl

@[simp] theorem freeEntryAt_canonical {s part addr} : Canonical (freeEntryAt s part addr) ↔ Canonical s := Iff.rfl

@[simp] theorem failUnit_canonical {s die part t} (hs : Canonical s) : Canonical (failUnit s die part t) := by
  simp [hs, failUnit]

theorem deliverHandler_canonical {s r st q fhnd u} (h : deliverHandler s r st q fhnd = .done u ∨
    deliverHandler s r st q fhnd = .wait u ∨ deliverHandler s r st q fhnd = .host u) (hs : Canonical s) :
    Canonical u := by
  unfold deliverHandler at h
  dsimp only at h
  split at h
  · next hx =>
    simp only [HandlerTry.done.injEq, reduceCtorEq, or_false] at h
    subst h
    obtain ⟨⟨w, s1⟩, h1, hx⟩ := bind_eq_ok.mp hx
    replace hs := readWords_canonical h1 hs
    dsimp only at hx
    split at hx
    · cases hx
    split at hx
    · cases hx
    obtain ⟨⟨x, s2⟩, h2, hx⟩ := bind_eq_ok.mp hx
    obtain ⟨s3, h3, hx⟩ := bind_eq_ok.mp hx
    obtain ⟨⟨ans, s4⟩, h4, hx⟩ := bind_eq_ok.mp hx
    replace hs := acceptLaunch_canonical h4 (writeVirt_canonical h3 (translate_canonical h2 hs))
    dsimp only at hx
    split at hx <;> cases hx
    simp [hs]
  all_goals
    simp only [HandlerTry.wait.injEq, HandlerTry.host.injEq, reduceCtorEq, or_false, false_or] at h
    subst h
    simp [hs]

theorem execFaultDeliver_canonical {s t} (h : execFaultDeliver s = .next t) (hs : Canonical s) : Canonical t := by
  unfold execFaultDeliver at h
  dsimp only at h
  split at h
  · cases h; exact hs
  split at h
  · split at h
    · split at h
      · split at h <;> cases h
        next hd => exact deliverHandler_canonical (.inl hd) hs
        next hd => exact deliverHandler_canonical (.inr (.inl hd)) hs
        next hd =>
          split
          · exact deliverHost_canonical (deliverHandler_canonical (.inr (.inr hd)) hs)
          · exact hs
      · cases h; simp [hs]
    · cases h; simp [hs]
  · cases h; exact hs

@[simp] theorem flushStores_canonical {s uid} (hs : Canonical s) : Canonical (flushStores s uid) := by
  unfold flushStores
  split
  · exact hs
  · refine foldl_canonical (fun u a hu => ?_) _ hs
    split
    · split <;> simp [hu]
    · exact hu

@[simp] theorem dropSaved_canonical {s cell part uid} (hs : Canonical s) : Canonical (dropSaved s cell part uid) :=
  modCtx_canonical.mpr (foldl_canonical (fun _ _ h => by split <;> simp [h]) _ hs)

@[simp] theorem giveUp_canonical {s uid part} (hs : Canonical s) : Canonical (giveUp s uid part) :=
  releaseHeld_canonical (dropSaved_canonical (abandonCopies_canonical (dropReads_canonical.mpr
    (flushStores_canonical hs))))

@[simp] theorem terminateUid_canonical {s uid cause} (hs : Canonical s) : Canonical (terminateUid s uid cause) := by
  unfold terminateUid
  split
  · exact hs
  next st _ =>
    have h := retire_canonical (st := st) (failed := true)
      (countRegion_canonical (die := dieOf (cellOfUid s uid)) (part := st.part) (rcb := st.sid.rcb) (k := 5) (n := 1)
        (giveUp_canonical (uid := uid) (part := st.part) hs))
    split <;> simp [h]

@[simp] theorem restartUid_canonical {s uid} (hs : Canonical s) : Canonical (restartUid s uid) := by
  unfold restartUid
  split <;> simp [hs]

@[simp] theorem resumeUid_canonical {s uid q} (hs : Canonical s) : Canonical (resumeUid s uid q) := by
  grind [resumeUid, modByUid_canonical, setChan_canonical]

@[simp] theorem applyAction_canonical {s uid action} (hs : Canonical s) : Canonical (applyAction s uid action) := by
  unfold applyAction
  split
  · simp [hs]
  · split <;> simp [hs]

@[simp] theorem resolveEntry_canonical {s part k} (hs : Canonical s) : Canonical (resolveEntry s part k) := by
  grind [resolveEntry, applyAction_canonical]

theorem execFaultTailWrite_canonical {part tail s t} (h : execFaultTailWrite part tail s = .next t)
    (hs : Canonical s) : Canonical t := by
  unfold execFaultTailWrite at h
  dsimp only at h
  split at h <;> cases h
  · exact hs
  · exact foldl_canonical (fun _ _ => resolveEntry_canonical) _ (modFn_canonical.mpr hs)

theorem readAction_canonical {s part home va pa x' t} (h : readAction s part home va pa = .ok (x', t))
    (hs : Canonical s) : Canonical t := by
  grind [readAction, settleLines_canonical, → takeAnswer_canonical, failUnit_canonical]

theorem execFaultHandlerComplete_canonical {s t} (h : execFaultHandlerComplete s = .next t)
    (hs : Canonical s) : Canonical t := by
  grind [execFaultHandlerComplete, → readAction_canonical, applyAction_canonical, freeEntryAt_canonical,
    startHold_canonical]

@[simp] theorem copyWatchdog_canonical {s cell ch} (hs : Canonical s) : Canonical (copyWatchdog s cell ch) := by
  unfold copyWatchdog
  split <;> simp [hs]

theorem execWatchdog_canonical {w s t} (h : execWatchdog w s = .next t) (hs : Canonical s) : Canonical t := by
  unfold execWatchdog at h
  grind [copyWatchdog_canonical, putStrand_canonical, raiseAt_canonical]

theorem execErrorLogDrain_canonical {log s t} (h : execErrorLogDrain log s = .next t)
    (hs : Canonical s) : Canonical t := by
  cases h
  simp [hs]

theorem execPatrolScrub_canonical {addr s t} (h : execPatrolScrub addr s = .next t)
    (hs : Canonical s) : Canonical t := by
  grind [execPatrolScrub, modHub_canonical, addLog_canonical]

@[simp] theorem endCommand_canonical {s l} : Canonical (endCommand s l) ↔ Canonical s := Iff.rfl

@[simp] theorem clearContexts_canonical {s cell} (hs : Canonical s) : Canonical (clearContexts s cell) := by
  refine canonical_of_same (s := List.foldl _ _ _) ?_ rfl rfl rfl
  exact foldl_canonical (fun _ _ => saveAll_canonical) _ hs

@[simp] theorem fenceCell_canonical {s cell} (hs : Canonical s) : Canonical (fenceCell s cell) :=
  sendMsix_canonical.mpr (modHub_canonical.mpr (putCell_canonical rfl (clearContexts_canonical hs)))

theorem execCellTestComplete_canonical {cell pass s t} (h : execCellTestComplete cell pass s = .next t)
    (hs : Canonical s) : Canonical t := by
  have hfail (l : List Nat) : Canonical
      (l.foldl (fun s uid => terminateUid s uid (Cause.code .uncorrectable)) (fenceCell s cell)) :=
    foldl_canonical (fun _ _ => terminateUid_canonical) l (fenceCell_canonical hs)
  have hpass : Canonical (putCell s cell { getCell s cell with testing := false, ueTimes := [] }) :=
    putCell_canonical (getCell_spm_wf hs cell) hs
  unfold execCellTestComplete at h
  dsimp only at h
  split at h <;> cases h
  · exact hs
  · split <;> split <;> simp [hfail, hpass]

/-! ## Partitions -/

@[simp] theorem emitRecord_canonical {s kind part} : Canonical (emitRecord s kind part) ↔ Canonical s := Iff.rfl

theorem execUsageRecordEmit_canonical {s t} (h : execUsageRecordEmit s = .next t) (hs : Canonical s) :
    Canonical t := by
  unfold execUsageRecordEmit at h
  dsimp only at h
  split at h
  · cases h; exact hs
  split at h <;> rw [← Outcome.next.inj h]
  · exact hs
  · exact foldl_canonical (fun _ _ h => by split <;> simp [h]) _ (modHub_canonical.mpr hs)

@[simp] theorem signBytes_canonical {s l} : Canonical (signBytes s l).2 ↔ Canonical s := Iff.rfl

theorem execSealComplete_canonical {s t} (h : execSealComplete s = .next t) (hs : Canonical s) : Canonical t := by
  grind [execSealComplete, signBytes_canonical, modHub_canonical, sendMsix_canonical]

@[simp] theorem moveToService_canonical {s part fs} : Canonical (moveToService s part fs) ↔ Canonical s := Iff.rfl

@[simp] theorem writeRoot_canonical {s part} (hs : Canonical s) : Canonical (writeRoot s part) := by
  grind [writeRoot, → writeVirt_canonical]

@[simp] theorem createContext_canonical {s part q} (hs : Canonical s) : Canonical (createContext s part q) :=
  modCell_canonical (fun _ => rfl) (putCtx_canonical.mpr hs)

theorem createSteps_canonical {s part q t} (h : createSteps s part q = .ok t) (hs : Canonical s) :
    Canonical t := by
  unfold createSteps at h
  extract_lets s1 counters s2 s3 tables s4 extra s5 s6 s7 s8 s9 at h
  split at h
  · cases h
  split at h
  · cases h
  split at h
  · cases h
  rw [← Except.ok.inj h]
  have h2 : Canonical s2 := hs
  have h4 : Canonical s4 := moveToService_canonical.mpr (giveFrames_canonical.mpr h2)
  have h6 : Canonical s6 := modPart_canonical.mpr (giveFrames_canonical.mpr h4)
  have h7 : Canonical s7 := foldl_canonical (fun _ _ => putColl_canonical rfl) _ h6
  have h8 : Canonical s8 := foldl_canonical (fun _ _ => createContext_canonical) _ h7
  exact modFn_canonical.mpr (writeRoot_canonical (modPart_canonical.mpr h8))

@[simp] theorem undoCreate_canonical {s part q} : Canonical (undoCreate s part q) ↔ Canonical s := Iff.rfl

@[simp] theorem beginTeardown_canonical {s part} (hs : Canonical s) : Canonical (beginTeardown s part) :=
  foldl_canonical (fun _ _ => requestStop_canonical.mpr) _ (modPart_canonical.mpr hs)

@[simp] theorem endStrands_canonical {s part} (hs : Canonical s) : Canonical (endStrands s part) := by
  refine foldl_canonical (fun u d hu => ?_) _ (foldl_canonical (fun _ _ => terminateUid_canonical) _ hs)
  split
  · exact modColl_canonical (fun _ => rfl) hu
  · exact hu

@[simp] theorem zeroiseKey_canonical {s part fs} : Canonical (zeroiseKey s part fs) ↔ Canonical s := Iff.rfl

@[simp] theorem dropCaches_canonical {s part} (hs : Canonical s) : Canonical (dropCaches s part) :=
  map_canonical hs rfl rfl (fun _ h => h) (fun _ => List.Subset.refl _) rfl

@[simp] theorem finishTeardown_canonical {s part} (hs : Canonical s) : Canonical (finishTeardown s part) := by
  simp [hs, finishTeardown]

@[simp] theorem zeroFrames_canonical {s fs} (hs : Canonical s) : Canonical (zeroFrames s fs) :=
  canonical_of_mem hs (filter_wf hs.1 _) rfl rfl

@[simp] theorem freePart_canonical {s part} (hs : Canonical s) : Canonical (freePart s part) := by
  refine putPart_canonical.mpr (emitRecord_canonical.mpr (modPart_canonical.mpr ?_))
  refine map_canonical (zeroFrames_canonical hs) rfl rfl (fun _ h => filter_wf h _) (fun x => ?_) rfl
  exact List.filter_sublist.subset

@[simp] theorem finishScrub_canonical {s x rest} (hs : Canonical s) : Canonical (finishScrub s x rest) := by
  simp [hs, finishScrub]

theorem execScrubComplete_canonical {s t} (h : execScrubComplete s = .next t) (hs : Canonical s) : Canonical t := by
  grind [execScrubComplete, modHub_canonical, finishScrub_canonical]

/-! ## The management function -/

@[simp] theorem setAccErr_canonical {s fn} (hs : Canonical s) : Canonical (setAccErr s fn) := by
  simp [hs, setAccErr]

@[simp] theorem refuseCommand_canonical {s} : Canonical (refuseCommand s) ↔ Canonical s := Iff.rfl

theorem tryCreate_canonical {s w u} (h : tryCreate s w = .wait u ∨ (∃ step a, tryCreate s w = .fails u step a) ∨
    ∃ p, tryCreate s w = .done u p) (hs : Canonical s) : Canonical u := by
  unfold tryCreate at h
  split at h
  · simp_all
  split at h
  · split at h <;> simp_all
  · simp only [reduceCtorEq, CreateTry.fails.injEq, false_or, exists_false, or_false] at h
    obtain ⟨_, _, rfl, -⟩ := h
    simp [hs]
  · simp only [reduceCtorEq, CreateTry.wait.injEq, exists_false, or_false] at h
    subst h
    simp [hs]
  · split at h
    next hx =>
      simp only [reduceCtorEq, CreateTry.done.injEq, exists_false, false_or] at h
      obtain ⟨_, rfl, -⟩ := h
      exact emitRecord_canonical.mpr (createSteps_canonical hx hs)
    · simp only [reduceCtorEq, CreateTry.fails.injEq, false_or, exists_false, or_false] at h
      obtain ⟨_, _, rfl, -⟩ := h
      simp [hs]

theorem startCommand_canonical {s t : State} {code : Nat} {early : Bool} {used : List Nat} {body : State → State}
    (hf : ∀ u, Canonical u → Canonical (body u)) (h : startCommand s code early used body = .next t)
    (hs : Canonical s) : Canonical t := by
  unfold startCommand at h
  split at h
  · cases h; simp [hs]
  · dsimp only at h
    split at h
    · cases h; simp [hs]
    · split at h <;> cases h
      · simp [hs]
      · exact hf _ hs

@[simp] theorem goCreate_canonical {s w} (hs : Canonical s) : Canonical (goCreate s w) := by
  unfold goCreate
  split
  next hx => exact modHub_canonical.mpr (tryCreate_canonical (.inl hx) hs)
  next hx => exact endCommand_canonical.mpr (modHub_canonical.mpr (tryCreate_canonical (.inr (.inl ⟨_, _, hx⟩)) hs))
  next hx => exact endCommand_canonical.mpr (modHub_canonical.mpr (tryCreate_canonical (.inr (.inr ⟨_, hx⟩)) hs))

theorem execCreate_canonical {req s t} (h : execCreate req s = .next t) (hs : Canonical s) : Canonical t := by
  unfold execCreate at h
  split at h
  · cases h; exact hs
  · refine startCommand_canonical (fun u hu => ?_) h hs
    split <;> simp [hu]

theorem execTeardown_canonical {s t} (h : execTeardown s = .next t) (hs : Canonical s) : Canonical t := by
  refine startCommand_canonical (fun u hu => ?_) h hs
  dsimp only
  split <;> simp [hu]

theorem execMgmtInval_canonical {s t} (h : execMgmtInval s = .next t) (hs : Canonical s) : Canonical t := by
  refine startCommand_canonical (fun u hu => ?_) h hs
  dsimp only
  split
  · simp [hu]
  split
  · simp [hu]
  split <;> simp [hu]

theorem execLogread_canonical {s t} (h : execLogread s = .next t) (hs : Canonical s) : Canonical t := by
  refine startCommand_canonical (fun u hu => ?_) h hs
  dsimp only
  split
  · simp [hu]
  · exact endCommand_canonical.mpr (modHub_canonical.mpr (foldl_canonical (fun _ _ => drainLog_canonical) _ hu))

theorem execMack_canonical {s t} (h : execMack s = .next t) (hs : Canonical s) : Canonical t := by
  refine startCommand_canonical (fun u hu => ?_) h hs
  dsimp only
  split <;> simp [hu]

theorem execMfetch_canonical {s t} (h : execMfetch s = .next t) (hs : Canonical s) : Canonical t := by
  unfold execMfetch at h
  refine startCommand_canonical (fun u hu => ?_) h hs
  dsimp only
  split
  · split
    · split <;> simp [hu]
    · simp [hu]
  · split <;> simp [hu]

@[simp] theorem attestBytes_canonical {s nonce} (hs : Canonical s) : Canonical (attestBytes s nonce).2 := by
  grind [attestBytes, signBytes_canonical, modHub_canonical]

theorem execAttest_canonical {s t} (h : execAttest s = .next t) (hs : Canonical s) : Canonical t := by
  refine startCommand_canonical (fun u hu => ?_) h hs
  dsimp only
  split <;> simp [hu]

theorem execFwstage_canonical {s t} (h : execFwstage s = .next t) (hs : Canonical s) : Canonical t :=
  startCommand_canonical (fun u hu => by simp [hu]) h hs

theorem execFwcommit_canonical {verified s t} (h : execFwcommit verified s = .next t) (hs : Canonical s) :
    Canonical t := by
  refine startCommand_canonical (fun u hu => ?_) h hs
  dsimp only
  split <;> simp [hu]

theorem execFabric_canonical {table s t} (h : execFabric table s = .next t) (hs : Canonical s) : Canonical t := by
  unfold execFabric at h
  split at h
  · cases h; exact hs
  · refine startCommand_canonical (fun u hu => ?_) h hs
    split
    · simp [hu]
    · split <;> simp [hu]

theorem execCap_canonical {s t} (h : execCap s = .next t) (hs : Canonical s) : Canonical t := by
  refine startCommand_canonical (fun u hu => ?_) h hs
  dsimp only
  split <;> simp [hu]

theorem execCelltest_canonical {s t} (h : execCelltest s = .next t) (hs : Canonical s) : Canonical t := by
  refine startCommand_canonical (fun u hu => ?_) h hs
  dsimp only
  split
  · simp [hu]
  · split <;> simp [hu]

theorem execTelem_canonical {s t} (h : execTelem s = .next t) (hs : Canonical s) : Canonical t :=
  startCommand_canonical (fun u hu => by simp [hu]) h hs

@[simp] theorem goOn_canonical {s} (hs : Canonical s) : Canonical (goOn s) := by unfold goOn; split <;> simp [hs]

theorem execMgmtCommandComplete_canonical {s t} (h : execMgmtCommandComplete s = .next t)
    (hs : Canonical s) : Canonical t := by
  grind [execMgmtCommandComplete, goOn_canonical, modHub_canonical, sendMsix_canonical]

/-! ## The host's registers, resets and sensors -/

theorem execBarAccessError_canonical {fn isRead s t} (h : execBarAccessError fn isRead s = .next t)
    (hs : Canonical s) : Canonical t := by
  cases h
  simp [hs]

@[simp] theorem writeBar0_canonical {s fn off size v}
    (hs : Canonical s) : Canonical (writeBar0 s fn off size v) := by
  simp [hs, writeBar0]

theorem writeBar2_canonical {s off size v t} (h : writeBar2 s off size v = .next t) (hs : Canonical s) :
    Canonical t := by
  unfold writeBar2 at h
  split at h
  · cases h; simp [hs]
  split at h
  · split at h
    · cases h; simp [hs]
    split at h
    · cases h; exact hs
    · exact startCommand_canonical (fun _ => refuseCommand_canonical.mpr) h hs
  · cases h; exact hs

theorem execRegisterWrite_canonical {fn bar off size v s t} (h : execRegisterWrite fn bar off size v s = .next t)
    (hs : Canonical s) : Canonical t := by
  grind [execRegisterWrite, setAccErr_canonical, writeBar0_canonical, → writeBar2_canonical]

theorem execThermalThrottle_canonical {die s t} (h : execThermalThrottle die s = .next t)
    (hs : Canonical s) : Canonical t := by
  grind [execThermalThrottle, modDie_canonical]

theorem execThermalShutdown_canonical {die s t} (h : execThermalShutdown die s = .next t) (hs : Canonical s) :
    Canonical t := by
  unfold execThermalShutdown at h
  dsimp only at h
  split at h <;> cases h
  · exact hs
  · exact modHub_canonical.mpr (addLog_canonical (foldl_canonical (fun _ _ => terminateUid_canonical) _ hs))

theorem execTelemetryAlarm_canonical {x s t} (h : execTelemetryAlarm x s = .next t) (hs : Canonical s) :
    Canonical t := by
  have hf : Canonical ((List.range 4).foldl (fun s d => modDie s d fun y => { y with temp := x.die.getD d 0 }) s) := by
    refine foldl_canonical (fun u d hu => ?_) _ hs
    exact modDie_canonical (fun _ => rfl) hu
  unfold execTelemetryAlarm at h
  rw [← Outcome.next.inj h]
  split
  · exact sendMsix_canonical.mpr (modHub_canonical.mpr hf)
  · exact modHub_canonical.mpr hf

@[simp] theorem fenceAll_canonical {s l} (hs : Canonical s) : Canonical (fenceAll s l) := by
  refine foldl_canonical (fun u c hu => ?_) _ hs
  exact modCell_canonical (fun _ => rfl) hu

/-- A tick moves the idle counts of a cell's copies, no byte. -/
theorem copyTime_spm (s : State) (n cell : Nat) (c : Cell) : (copyTime s n cell c).spm = c.spm := rfl

/-- A reset leaves a cell its scratchpad, or clears it when the cell is fenced. -/
theorem resetCell_spm_wf {l : List Nat} {x : Nat × Cell} (hx : memWf x.2.spm) : memWf (resetCell l x).2.spm := by
  unfold resetCell
  dsimp only
  split
  · rfl
  · exact hx

@[simp] theorem afterReset_canonical {s} (hs : Canonical s) : Canonical (afterReset s) :=
  map_canonical hs rfl rfl (fun _ => resetCell_spm_wf) (fun _ => List.nil_subset _) rfl

@[simp] theorem readFuses_canonical {s b} (hs : Canonical s) : Canonical (readFuses s b) := by simp [hs, readFuses]

@[simp] theorem haltBringUp_canonical {s} : Canonical (haltBringUp s) ↔ Canonical s := Iff.rfl

@[simp] theorem runScrubs_canonical {n : Nat} {s : State} (hs : Canonical s) : Canonical (runScrubs n s) := by
  induction n generalizing s with
  | zero => exact hs
  | succ n ih =>
    unfold runScrubs
    split
    · exact hs
    · exact ih (finishScrub_canonical hs)

theorem createService_canonical {s w t} (h : createService s w = some t) (hs : Canonical s) : Canonical t := by
  unfold createService at h
  grind [→ createSteps_canonical, emitRecord_canonical, modHub_canonical]

@[simp] theorem bringUp_canonical {s link b} (hs : Canonical s) : Canonical (bringUp s link b) := by
  grind [bringUp, haltBringUp_canonical, modHub_canonical, runScrubs_canonical, → createService_canonical]

theorem execColdReset_canonical {b s t} (h : execColdReset b s = .next t) (hs : Canonical s) : Canonical t :=
  Outcome.next.inj h ▸ bringUp_canonical (readFuses_canonical (afterReset_canonical hs))

theorem execWarmReset_canonical {linkUp b s t} (h : execWarmReset linkUp b s = .next t) (hs : Canonical s) :
    Canonical t :=
  Outcome.next.inj h ▸ bringUp_canonical (readFuses_canonical (afterReset_canonical hs))

theorem execStandbyPowerLoss_canonical {s t} (h : execStandbyPowerLoss s = .next t)
    (hs : Canonical s) : Canonical t := by
  cases h
  simp [hs]

/-! ## Upsets -/

@[simp] theorem stopWork_canonical {before after : State} {r a b}
    (hs : Canonical before) : Canonical (stopWork before after r a b) := by
  simp [hs, stopWork]

/-- An upset that strikes discards what the word did and raises its fault on the state before the word. -/
theorem strike_canonical {s t : State} {w : Walker} {raise : State → Trap → State} {o : Outcome State Fault Refusal}
    (hr : ∀ u x, Canonical u → Canonical (raise u x)) (ho : ∀ u, o = .next u → Canonical s → Canonical u)
    (h : strike s w raise o = .next t) (hs : Canonical s) : Canonical t := by
  unfold strike at h
  split at h
  · split at h
    · split at h
      · exact ho _ h hs
      · rw [← Outcome.next.inj h]
        exact hr _ _ (upsets_canonical.mpr (stopWork_canonical hs))
    · exact ho _ h hs
  · exact ho _ h hs

theorem lateWork_canonical {s w i v raise} (h : lateWork s w i = some (v, raise)) (u : State) (x : Trap)
    (hu : Canonical u) : Canonical (raise u x) := by
  unfold lateWork at h
  dsimp only at h
  split at h
  · cases h
  · split at h
    all_goals simp only [Option.map_eq_some_iff, Prod.mk.injEq, reduceCtorEq] at h
    all_goals obtain ⟨_, -, -, rfl⟩ := h
    · simp [hu]
    · dsimp only
      split <;> simp [hu]
    · simp [hu]
    · dsimp only
      split <;> simp [hu]

theorem strikeEvent_canonical {s t : State} {w : Walker} {i : Instr} {o : Outcome State Fault Refusal}
    (ho : ∀ u, o = .next u → Canonical s → Canonical u) (h : strikeEvent s w i o = .next t) (hs : Canonical s) :
    Canonical t := by
  unfold strikeEvent at h
  split at h
  · exact ho _ h hs
  · next hl _ => exact strike_canonical (lateWork_canonical hl) ho h hs
  · exact ho _ h hs

/-! ## Every instruction

A word given by one of the shared forms above keeps the canonical form by the lemma of that form. -/

theorem exec_canonical {i : Instr} {s t : State} (h : exec i s = .next t) (hs : Canonical s) : Canonical t := by
  unfold exec at h
  cases i with
  | add | sub | mul | mulh | mulhu | and | or | xor | shl | shr | sra | min | max | minu | maxu | cmp
  => exact binC_canonical h hs
  | div | divu | rem | remu => exact divC_canonical h hs
  | clz | popc | addi | andi | ori | xori | shi | lih | cmpi => exact unC_canonical h hs
  | sel | li | mfst | mtst | qsend | qrecv | yield => exact issueC_canonical h hs
  | br | brc | call | jr | loop | loopr | ploop | ret => exact issueAll_canonical h hs
  | waitTime | waitTrig | waitCpy | waitColl => exact waitWord_canonical h hs
  | pushHset | pushHfree | pushHread => exact pushCopy_canonical h hs
  | pushGset | pushGfree | pushCrun => exact pushColl_canonical h hs
  | popCpy | popColl => exact popRecord_canonical h hs
  | launch => exact callWord_canonical h hs
  | sysInval | sysFgive | sysFtake | sysMread => exact sysWord_canonical h hs
  | ld | st | amo => exact accessC_canonical h hs
  | aadd | aset | asetH | asetQ => exact regWord_canonical h hs
  | cpy | cpyh => exact copyWord_canonical h hs
  | badd | bset | bsetH | bsetQ => exact regWordS_canonical h hs
  | sts | stsa => exact scatterEntry_canonical h hs
  | stmqSc | stmqAdd => exact memScatter_canonical h hs
  | vmov | vabs | vneg => exact elementwise_canonical h hs
  | vmovi | vidx => exact laneWord_canonical h hs
  | vbcast | vbcastQ | vnarrow | vcmp | vclass | vsel | vperm | vshuf | vrot | vslide | vred | vany
  | vcompress | vexpand | vconf => exact issueV_canonical h hs
  | vadd | vsub | vmul | vmin | vmax => exact arith2_canonical h hs
  | vfma | vfms => exact arith3_canonical h hs
  | vadds | vsubs | vmulh => exact intWord_canonical h hs
  | vand | vor | vxor | vshl | vshr | vsra => exact bitWord_canonical h hs
  | vwmul | vwadd => exact widen_canonical h hs
  | vcvt => exact issueCharged_canonical h hs
  | vexp2 | vlog2 | vexp | vlog | vrcp | vrsqrt | vsqrt | vtanh | vsigm => exact specialWord_canonical h hs
  | vorient2 | vorient3 | vincirc | vinsph | vsegx => exact predicateWord_canonical h hs
  | vtoix | vtol | vtos => exact formIndex_canonical h hs
  | emsave | emrest | emcomb => exact maskWord_canonical h hs
  | mma | mmaq | mmas | mmag => exact productWord_canonical h hs
  | send | recv | rrs | collCopy | reduce => exact moveStep_canonical h hs
  | exit | sbar => exact stopAt_canonical h hs
  | nop => exact execNop_canonical h hs
  | waitFlag => exact execWaitFlag_canonical h hs
  | trap => exact execTrap_canonical h hs
  | fence => exact execFence_canonical h hs
  | barrierComplete => exact execBarrierComplete_canonical h hs
  | ovl => exact execOvl_canonical h hs
  | bind => exact execBind_canonical h hs
  | pfl => exact execPfl_canonical h hs
  | sdset => exact execSdset_canonical h hs
  | ldq => exact execLdq_canonical h hs
  | ldqs => exact execLdqs_canonical h hs
  | ldg => exact execLdg_canonical h hs
  | ldpk => exact execLdpk_canonical h hs
  | ldmq => exact execLdmq_canonical h hs
  | omfill => exact execOmfill_canonical h hs
  | omfillComplete => exact execOmfillComplete_canonical h hs
  | copyStart => exact execCopyStart_canonical h hs
  | copyComplete => exact execCopyComplete_canonical h hs
  | copyChannelFault => exact execCopyChannelFault_canonical h hs
  | rps => exact execRps_canonical h hs
  | pf => exact execPf_canonical h hs
  | stq => exact execStq_canonical h hs
  | stqs => exact execStqs_canonical h hs
  | stpk => exact execStpk_canonical h hs
  | stmq => exact execStmq_canonical h hs
  | bput => exact execBput_canonical h hs
  | bputErrorResponse => exact execBputErrorResponse_canonical h hs
  | vaccrd => exact execVaccrd_canonical h hs
  | vaccwr => exact execVaccwr_canonical h hs
  | vspill => exact execVspill_canonical h hs
  | vfill => exact execVfill_canonical h hs
  | mclaim => exact execMclaim_canonical h hs
  | mrel => exact execMrel_canonical h hs
  | mzero => exact execMzero_canonical h hs
  | matrixGrant => exact execMatrixGrant_canonical h hs
  | mnset => exact execMnset_canonical h hs
  | mnest => exact execMnest_canonical h hs
  | mdrain => exact execMdrain_canonical h hs
  | mpload => exact execMpload_canonical h hs
  | mpbind => exact execMpbind_canonical h hs
  | mtog => exact execMtog_canonical h hs
  | boundOpcode => exact execBoundOpcode_canonical h hs
  | resultLands => exact execResultLands_canonical h hs
  | tokenPush => exact execTokenPush_canonical h hs
  | collWait => exact execCollWait_canonical h hs
  | collLoop => exact execCollLoop_canonical h hs
  | collEndl => exact execCollEndl_canonical h hs
  | collEnd => exact execCollEnd_canonical h hs
  | collMessageArrive => exact execCollMessageArrive_canonical h hs
  | collTimeout => exact execCollTimeout_canonical h hs
  | abortReceive => exact execAbortReceive_canonical h hs
  | abortAck => exact execAbortAck_canonical h hs
  | switchFailure => exact execSwitchFailure_canonical h hs
  | remoteResponse => exact execRemoteResponse_canonical h hs
  | remoteTimeout => exact execRemoteTimeout_canonical h hs
  | portDown => exact execPortDown_canonical h hs
  | epnerFlitReceive => exact execEpnerFlitReceive_canonical h hs
  | hostCompletion => exact execHostCompletion_canonical h hs
  | hostCompletionTimeout => exact execHostCompletionTimeout_canonical h hs
  | pullDataArrive => exact execPullDataArrive_canonical h hs
  | pullAttemptTimeout => exact execPullAttemptTimeout_canonical h hs
  | pullGiveUp => exact execPullGiveUp_canonical h hs
  | invalidationComplete => exact execInvalidationComplete_canonical h hs
  | strandDispatch => exact execStrandDispatch_canonical h hs
  | launchComplete => exact execLaunchComplete_canonical h hs
  | strandResume => exact execStrandResume_canonical h hs
  | resourceRestore => exact execResourceRestore_canonical h hs
  | mailboxGo => exact execMailboxGo_canonical h hs
  | regionReread => exact execRegionReread_canonical h hs
  | grantWindowStart => exact execGrantWindowStart_canonical h hs
  | faultTailWrite => exact execFaultTailWrite_canonical h hs
  | watchdog => exact execWatchdog_canonical h hs
  | errorLogDrain => exact execErrorLogDrain_canonical h hs
  | patrolScrub => exact execPatrolScrub_canonical h hs
  | cellTestComplete => exact execCellTestComplete_canonical h hs
  | create => exact execCreate_canonical h hs
  | fwcommit => exact execFwcommit_canonical h hs
  | fabric => exact execFabric_canonical h hs
  | barAccessError => exact execBarAccessError_canonical h hs
  | registerWrite => exact execRegisterWrite_canonical h hs
  | coldReset => exact execColdReset_canonical h hs
  | warmReset => exact execWarmReset_canonical h hs
  | thermalThrottle => exact execThermalThrottle_canonical h hs
  | thermalShutdown => exact execThermalShutdown_canonical h hs
  | accessPerform => exact execAccessPerform_canonical h hs
  | remoteRequestArrive => exact execRemoteRequestArrive_canonical h hs
  | bputRowArrive => exact execBputRowArrive_canonical h hs
  | abortGiveUp => exact execAbortGiveUp_canonical h hs
  | inFabricGrant => exact execInFabricGrant_canonical h hs
  | telemetryAlarm => exact execTelemetryAlarm_canonical h hs
  | loopEndReached => exact execLoopEndReached_canonical h hs
  | waitFlagPoll => exact execWaitFlagPoll_canonical h hs
  | waitConditionTrue => exact execWaitConditionTrue_canonical h hs
  | trig => exact execTrig_canonical h hs
  | overlayRefill => exact execOverlayRefill_canonical h hs
  | rpsPush => exact execRpsPush_canonical h hs
  | branchOutcome => exact execBranchOutcome_canonical h hs
  | storeDataStage => exact execStoreDataStage_canonical h hs
  | predicateComplete => exact execPredicateComplete_canonical h hs
  | mclaimRetry => exact execMclaimRetry_canonical h hs
  | nestStep => exact execNestStep_canonical h hs
  | productWordComplete => exact execProductWordComplete_canonical h hs
  | microStep => exact execMicroStep_canonical h hs
  | placementLoad => exact execPlacementLoad_canonical h hs
  | strandEnd => exact execStrandEnd_canonical h hs
  | blockSwitch => exact execBlockSwitch_canonical h hs
  | blockTimeExpiry => exact execBlockTimeExpiry_canonical h hs
  | sliceExpiry => exact execSliceExpiry_canonical h hs
  | preemptionRequest => exact execPreemptionRequest_canonical h hs
  | lullStop => exact execLullStop_canonical h hs
  | forcedSave => exact execForcedSave_canonical h hs
  | energyPeriodStart => exact execEnergyPeriodStart_canonical h hs
  | faultDeliver => exact execFaultDeliver_canonical h hs
  | faultHandlerComplete => exact execFaultHandlerComplete_canonical h hs
  | scrubComplete => exact execScrubComplete_canonical h hs
  | usageRecordEmit => exact execUsageRecordEmit_canonical h hs
  | sealComplete => exact execSealComplete_canonical h hs
  | teardown => exact execTeardown_canonical h hs
  | mgmtInval => exact execMgmtInval_canonical h hs
  | logread => exact execLogread_canonical h hs
  | mack => exact execMack_canonical h hs
  | mfetch => exact execMfetch_canonical h hs
  | attest => exact execAttest_canonical h hs
  | fwstage => exact execFwstage_canonical h hs
  | cap => exact execCap_canonical h hs
  | celltest => exact execCelltest_canonical h hs
  | telem => exact execTelem_canonical h hs
  | mgmtCommandComplete => exact execMgmtCommandComplete_canonical h hs
  | standbyPowerLoss => exact execStandbyPowerLoss_canonical h hs

/-! ## A step of the package -/

@[simp] theorem nextActor_canonical {s} (hs : Canonical s) : Canonical (nextActor s).2 := by
  unfold nextActor
  split <;> exact hs

@[simp] theorem decayUnit_canonical {s : State} {u : Machine.PUnit} (hs : Canonical s) :
    Canonical (decayUnit s u) := by
  cases u with
  | row cell r =>
    simp only [decayUnit]
    split
    · exact hs
    · exact modCell_canonical (fun _ => rfl) hs
  | reg | slot | tile | lq | sq => exact modByUid_canonical.mpr hs

theorem stepEngine_canonical {s t : State} {w : Walker} (h : stepEngine s w = .next t) (hs : Canonical s) :
    Canonical t := by
  have hcur : Canonical { s with cur := w } := hs
  unfold stepEngine at h
  generalize ({ s with cur := w } : State) = u at h hcur
  dsimp only at h
  split at h
  · cases h; exact hcur
  · cases h; exact hcur
  · cases h; exact raiseTurn_canonical hcur
  · exact exec_canonical h hcur
  · exact strike_canonical (fun _ _ => raiseWord_canonical) (fun _ => exec_canonical) h hcur
  · exact strike_canonical (fun _ _ => raiseWord_canonical) (fun _ => exec_canonical) h hcur

@[simp] theorem tickClock_canonical {s n} (hs : Canonical s) : Canonical (tickClock s n) := by
  refine attemptAll_canonical (departAll_canonical (runPrefetches_canonical (pumpAdds_canonical
    (pumpCalls_canonical (pumpAll_canonical ?_)))))
  exact map_cells_canonical hs rfl (fun x hx => (copyTime_spm s n x.1 x.2).symm ▸ hx) rfl rfl

theorem step_canonical {s t : State} (h : step s = .next t) (hs : Canonical s) : Canonical t := by
  replace hs := nextActor_canonical hs
  unfold step at h
  generalize nextActor s = x at h hs
  obtain ⟨a, u⟩ := x
  cases a with
  | tick n => exact Outcome.next.inj h ▸ tickClock_canonical hs
  | event w i => exact strikeEvent_canonical (fun _ => exec_canonical) h (cur_canonical.mpr hs)
  | engine w => exact stepEngine_canonical h hs
  | advance r id => exact Outcome.next.inj h ▸ advanceAccess_canonical hs
  | upset x => exact Outcome.next.inj h ▸ upsets_canonical.mpr hs
  | decay x => exact Outcome.next.inj h ▸ decayUnit_canonical hs

/-- Settles O14: no step writes a byte but by the operations that keep the canonical form (`step_canonical`). -/
theorem stepKeepsMemoryCanonical : Obligations.StepKeepsMemoryCanonical :=
  fun _ _ hs h => step_canonical h hs

end Sys2Proof.Proofs


namespace Sys2Proof.Proofs

open Host (Outcome)
open Sys2Proof Machine Claims

/-! ## Invalidations (R80) -/

theorem exec_invalidationComplete (k : Nat) (s : State) :
    exec (.invalidationComplete k) s = execInvalidationComplete k s := rfl

theorem getDie_map (s : State) (f : Die → Die) (d : Nat) :
    getDie { s with dies := s.dies.map f } d = f (getDie s d) := by
  show (s.dies.map f).get _ = _
  rw [Vector.get_eq_getElem, Vector.getElem_map]; rfl

theorem getDie_invalidateRange (s : State) (part base len d : Nat) :
    getDie (invalidateRange s part base len) d =
      { getDie s d with
        tlb := (getDie s d).tlb.filter fun e => !xlatIn part base len e.part e.va e.level
        walk := (getDie s d).walk.filter fun e => !xlatIn part base len e.part e.va e.level } :=
  getDie_map { s with cells := (invalidateRange s part base len).cells } _ d

theorem invalidateRange_mem (s : State) (part base len : Nat) : (invalidateRange s part base len).mem = s.mem := rfl

theorem not_xlatIn_iff {part base len p va level : Nat} :
    xlatIn part base len p va level = false ↔ ¬ (p = part ∧ va < base + len ∧ base < va + pageSize level) := by
  rw [← Bool.not_eq_true, xlatIn]
  simp only [Bool.and_eq_true, beq_iff_eq, decide_eq_true_eq, and_assoc]

/-- After an invalidation no cache holds an entry of the range. -/
theorem forgotten_invalidateRange (s : State) (part base len : Nat) :
    Forgotten (invalidateRange s part base len) part base len := by
  refine ⟨fun d => ?_, ?_⟩
  · rw [getDie_invalidateRange]
    exact ⟨fun e he => not_xlatIn_iff.mp (by simpa using (List.mem_filter.mp he).2),
      fun e he => not_xlatIn_iff.mp (by simpa using (List.mem_filter.mp he).2)⟩
  · intro c hc e he
    obtain ⟨c, -, rfl⟩ := List.mem_map.mp hc
    exact not_xlatIn_iff.mp (by simpa using (List.mem_filter.mp he).2)

theorem forgotten_of_same {s t : State} {part base len : Nat} (h : Forgotten s part base len)
    (hc : t.cells = s.cells) (hd : t.dies = s.dies) : Forgotten t part base len := by
  unfold Forgotten getDie
  rw [hc, hd]
  exact h

/-- The frames that a range loses go back (R430). -/
def takenBack (v : Inval) (s : State) : State :=
  match v.take with
  | some (first, n) => takeFrames s v.part ((List.range n).map (· + first))
  | none => s

/-- The word that waits for the invalidation has its result. -/
def toldCaller (v : Inval) (s : State) : State :=
  match v.caller with
  | some (uid, pos) => answerWord0 s uid pos 0
  | none => s

/-- The management controller has its reply. -/
def toldMgmt (v : Inval) (s : State) : State :=
  if v.mgmt then modHub s fun h => { h with readyReply := some [] } else s

/-- The caches and the queue of invalidations when one completes. -/
def invalidated (k : Nat) (v : Inval) (s : State) : State :=
  invalidateRange (modHub s fun h => { h with invals := h.invals.eraseIdx k }) v.part v.base v.len

theorem invalidationComplete_waits {s : State} {k : Nat} {v : Inval} (h : s.hub.invals[k]? = some v)
    (hin : inFlightIn s v.part v.base v.len = true) : exec (.invalidationComplete k) s = .next s := by
  rw [exec_invalidationComplete, execInvalidationComplete, h]
  exact if_pos hin

theorem invalidationComplete_done {s : State} {k : Nat} {v : Inval} (h : s.hub.invals[k]? = some v)
    (hin : inFlightIn s v.part v.base v.len = false) :
    exec (.invalidationComplete k) s = .next (toldMgmt v (toldCaller v (takenBack v (invalidated k v s)))) := by
  rw [exec_invalidationComplete, execInvalidationComplete, h]
  exact if_neg (by simp [hin])

theorem takenBack_same (v : Inval) (s : State) :
    (takenBack v s).mem = s.mem ∧ (takenBack v s).cells = s.cells ∧ (takenBack v s).dies = s.dies ∧
      (takenBack v s).strands = s.strands ∧ (takenBack v s).hub.invals = s.hub.invals := by
  unfold takenBack
  split <;> exact ⟨rfl, rfl, rfl, rfl, rfl⟩

theorem toldCaller_same (v : Inval) (s : State) :
    (toldCaller v s).mem = s.mem ∧ (toldCaller v s).cells = s.cells ∧ (toldCaller v s).dies = s.dies ∧
      (toldCaller v s).hub = s.hub := by
  unfold toldCaller
  split <;> exact ⟨rfl, rfl, rfl, rfl⟩

theorem toldMgmt_same (v : Inval) (s : State) :
    (toldMgmt v s).mem = s.mem ∧ (toldMgmt v s).cells = s.cells ∧ (toldMgmt v s).dies = s.dies ∧
      (toldMgmt v s).strands = s.strands ∧ (toldMgmt v s).hub.invals = s.hub.invals ∧
      (toldMgmt v s).hub.owners = s.hub.owners ∧ (toldMgmt v s).hub.parts = s.hub.parts := by
  unfold toldMgmt
  split <;> exact ⟨rfl, rfl, rfl, rfl, rfl, rfl, rfl⟩

/-- One value set at each key of a list. -/
theorem fget_foldl_fset {α : Type} (x : α) (l : List Nat) (m : FMap α) {k : Nat} (h : k ∈ l ∨ fget m k = some x) :
    fget (l.foldl (fun m k => fset m k x) m) k = some x := by
  induction l generalizing m with
  | nil => exact h.resolve_left List.not_mem_nil
  | cons j l ih =>
    refine ih _ ?_
    by_cases hj : k = j
    · exact .inr (by rw [hj, fget_fset_same])
    · exact h.imp (fun hk => (List.mem_cons.mp hk).resolve_left hj) fun hk => by rw [fget_fset_other _ _ _ _ hj, hk]

/-- Frames taken from a partition are owned by no one, and the partition does not list them. -/
theorem takeFrames_taken (s : State) (part : Nat) {fs : List Nat} {f : Nat} (h : f ∈ fs) :
    (∃ o, fget (takeFrames s part fs).hub.owners f = some o ∧ o.valid = false) ∧
      f ∉ (getPart (takeFrames s part fs) part).frames := by
  refine ⟨⟨⟨false, part, part, 0⟩, fget_foldl_fset _ fs _ (.inl h), rfl⟩, ?_⟩
  have hp : getPart (takeFrames s part fs) part = { getPart s part with
      frames := (getPart s part).frames.filter fun f => !fs.contains f } := getPart_putPart _ _ _
  rw [hp]
  intro hf
  simpa [h] using (List.mem_filter.mp hf).2

/-- A result that nothing precedes lands at once in its register (R29). -/
theorem answerPending_lands {st : Strand} {pos : Nat} {n : BitVec 5} {w : Nat} (hn : n ≠ 0)
    (h : st.pending = [⟨.c, pos, .g n, none, fullMask (.g n), w, 15, false⟩]) (x : Word) :
    gNow (answerPending st pos x) n = x ∧ (answerPending st pos x).pending = [] := by
  have hu : answerPending st pos x = { landBits st (.g n) (x.setWidth 4096) (fullMask (.g n)) false with pending := [] } := by
    simp [answerPending, h, landReg]
  rw [hu]
  refine ⟨?_, rfl⟩
  rw [gNow, regBits_pending, landBits_regBits, regBits_setRegBits_same, if_neg (fun k => hn (Reg.g.inj k)),
    whole_write_bits]
  ext i hi
  have hall : (18446744073709551615#64)[i] = true := BitVec.getElem_allOnes i hi
  simp [fullMask, regWidth, hall]

theorem getStrand_answerWord0 (s : State) (uid pos : Nat) (x : Int) (r : SRef) :
    getStrand (answerWord0 s uid pos x) r =
      (getStrand s r).map fun st => if st.uid == uid then answerPending st pos (BitVec.ofInt 64 x) else st :=
  fget_map (fun st : Strand => if st.uid == uid then answerPending st pos (BitVec.ofInt 64 x) else st) s.strands _

theorem toldCaller_lands {v : Inval} {s : State} {uid pos : Nat} {r : SRef} {st : Strand} {n : BitVec 5} {w : Nat}
    (hv : v.caller = some (uid, pos)) (hst : getStrand s r = some st) (hu : st.uid = uid) (hn : n ≠ 0)
    (hp : st.pending = [⟨.c, pos, .g n, none, fullMask (.g n), w, 15, false⟩]) :
    ∃ u, getStrand (toldCaller v s) r = some u ∧ gNow u n = 0 ∧ u.pending = [] := by
  refine ⟨answerPending st pos 0, ?_, answerPending_lands hn hp 0⟩
  rw [toldCaller, hv]
  show getStrand (answerWord0 s uid pos 0) r = _
  rw [getStrand_answerWord0, hst, Option.map_some, if_pos (by simpa using hu)]
  rfl

theorem invalidation_completes {s : State} {k : Nat} {v : Inval} (h : s.hub.invals[k]? = some v)
    (hin : inFlightIn s v.part v.base v.len = false) : ∃ t, exec (.invalidationComplete k) s = .next t ∧
      t.hub.invals = s.hub.invals.eraseIdx k ∧ Forgotten t v.part v.base v.len ∧ t.mem = s.mem ∧
      (v.mgmt = true → t.hub.readyReply = some []) ∧
      (∀ first n, v.take = some (first, n) → ∀ f, first ≤ f → f < first + n →
        (∃ o, fget t.hub.owners f = some o ∧ o.valid = false) ∧ f ∉ (getPart t v.part).frames) ∧
      (∀ uid pos r st n w, v.caller = some (uid, pos) → getStrand s r = some st → st.uid = uid → n ≠ 0 →
        st.pending = [⟨.c, pos, .g n, none, fullMask (.g n), w, 15, false⟩] →
        ∃ u, getStrand t r = some u ∧ gNow u n = 0 ∧ u.pending = []) := by
  obtain ⟨hm1, hc1, hd1, hs1, hi1⟩ := takenBack_same v (invalidated k v s)
  obtain ⟨hm2, hc2, hd2, hh2⟩ := toldCaller_same v (takenBack v (invalidated k v s))
  obtain ⟨hm3, hc3, hd3, hs3, hi3, ho3, hp3⟩ := toldMgmt_same v (toldCaller v (takenBack v (invalidated k v s)))
  refine ⟨_, invalidationComplete_done h hin, by rw [hi3, hh2, hi1]; rfl, ?_, by rw [hm3, hm2, hm1]; rfl, ?_, ?_, ?_⟩
  · exact forgotten_of_same (forgotten_invalidateRange _ _ _ _) (hc3.trans (hc2.trans hc1)) (hd3.trans (hd2.trans hd1))
  · intro hv
    rw [toldMgmt, if_pos hv]; rfl
  · intro first n hv f h1 h2
    have hf : f ∈ (List.range n).map (· + first) :=
      List.mem_map.mpr ⟨f - first, List.mem_range.mpr (by omega), by omega⟩
    have ht := takeFrames_taken (invalidated k v s) v.part hf
    rw [getPart, ho3, hp3, hh2, takenBack, hv]
    exact ht
  · intro uid pos r st n w hv hst hu hn hp
    have hst' : getStrand (takenBack v (invalidated k v s)) r = some st := by
      rw [getStrand, hs1]; exact hst
    obtain ⟨u, hu, hval⟩ := toldCaller_lands hv hst' hu hn hp
    exact ⟨u, by rw [getStrand, hs3]; exact hu, hval⟩

/-! ## Page pulls (R82, R83) -/

theorem exec_pullDataArrive (d k : Nat) (reply : Reply) (s : State) :
    exec (.pullDataArrive d k reply) s = execPullDataArrive d k reply s := rfl

theorem exec_pullAttemptTimeout (d k : Nat) (s : State) :
    exec (.pullAttemptTimeout d k) s = execPullAttemptTimeout d k s := rfl

theorem exec_pullGiveUp (d k : Nat) (s : State) : exec (.pullGiveUp d k) s = execPullGiveUp d k s := rfl

theorem endAttempt_pulls (s : State) (d k : Nat) (p : Pull) :
    (endAttempt s d k p).mem = s.mem ∧
      (getDie (endAttempt s d k p) d).pulls = (getDie s d).pulls.set k { p with attempt := none } :=
  ⟨rfl, congrArg Die.pulls (getDie_modDie s d _)⟩

theorem getDie_congr {s t : State} (h : t.dies = s.dies) (d : Nat) : getDie t d = getDie s d := by
  rw [getDie, h]; rfl

/-- An invalidation leaves the pulls. -/
theorem pulls_invalidateRange {s t : State} {d k : Nat} (h : t.dies = (dropPull s d k).dies) (part base len : Nat) :
    (getDie (invalidateRange t part base len) d).pulls = (getDie s d).pulls.eraseIdx k := by
  rw [getDie_invalidateRange, getDie_congr h]
  exact congrArg Die.pulls (getDie_modDie s d _)

/-- A write leaves what is read of other bytes. -/
theorem readN_writeN_outside (m : Mem) (a n v b k : Nat) (h : b + k ≤ a ∨ a + n ≤ b) :
    readN (writeN m a n v) b k = readN m b k := by
  induction k generalizing b with
  | zero => rfl
  | succ k ih => rw [readN, readN, mread_writeN_outside _ _ _ _ _ (by omega), ih _ (by omega)]

theorem ofBytes_lt (l : List Byte) : ofBytes l < 256 ^ l.length := by
  induction l with
  | nil => exact Nat.one_pos
  | cons b l ih =>
    have hb := b.isLt
    have hp : 256 ^ (b :: l).length = 256 * 256 ^ l.length := by rw [List.length_cons, Nat.pow_succ']
    rw [ofBytes, hp]
    omega

theorem bits_lt (x hi lo : Nat) : bits x hi lo < 2 ^ (hi + 1 - lo) := Nat.mod_lt _ (Nat.two_pow_pos _)

/-- The fields of the upper half of a leaf (R82, R83). -/
theorem migUpper_fields (p : BitVec 128) {mig home sframe : Nat} (hm : mig < 4) (hh : home < 2 ^ 10)
    (hf : sframe < 2 ^ 40) :
    migUpper p mig home sframe < 256 ^ 8 ∧ migUpper p mig home sframe / 2 ^ 40 % 4 = mig ∧
      migUpper p mig home sframe / 2 ^ 54 = home ∧ migUpper p mig home sframe % 2 ^ 40 = sframe := by
  have h12 : bits p.toNat 117 106 < 4096 := bits_lt _ _ _
  unfold migUpper
  omega

/-- The data of a page pull goes to the page before the leaf says that it is here. -/
def pulled (s : State) (d k : Nat) (p : Pull) (page : List Byte) : State :=
  modPart (memWrite (memWrite (dropPull s d k) (pteFrame p.pte) pageBytes (ofBytes page)) (p.pteAddr + 8) 8
    (migUpper p.pte 0 s.hub.pkg.toNat 0)) p.part fun x =>
      { x with counters := { x.counters with fabb := x.counters.fabb + pageBytes } }

theorem pullDataArrive_page {s : State} {d k : Nat} {p : Pull} {page : List Byte}
    (h : (getDie s d).pulls[k]? = some p) (ha : p.attempt ≠ none) (hl : page.length = 2 ^ 14) :
    exec (.pullDataArrive d k (.data page)) s = .next (invalidateRange (pulled s d k p page) p.part p.va pageBytes) := by
  obtain ⟨b, hb⟩ := Option.ne_none_iff_exists'.mp ha
  rw [exec_pullDataArrive, execPullDataArrive, h]
  simp only [hb]
  exact if_neg (not_not.mpr hl)

theorem dropPull_mem (s : State) (d k : Nat) : (dropPull s d k).mem = s.mem := rfl

theorem pulled_mem (s : State) (d k : Nat) (p : Pull) (page : List Byte) :
    (pulled s d k p page).mem =
      writeN (writeN s.mem (pteFrame p.pte) (2 ^ 14) (ofBytes page)) (p.pteAddr + 8) 8
        (migUpper p.pte 0 s.hub.pkg.toNat 0) := by
  rw [pulled, modPart_mem, memWrite_mem, memWrite_mem, dropPull_mem, pageBytes]

theorem memWrite_dies (s : State) (pa n v : Nat) : (memWrite s pa n v).dies = s.dies := rfl

theorem pulled_dies (s : State) (d k : Nat) (p : Pull) (page : List Byte) :
    (pulled s d k p page).dies = (dropPull s d k).dies := by
  rw [pulled, modPart_dies, memWrite_dies, memWrite_dies]

theorem pull_page {s : State} {d k : Nat} {p : Pull} (h : (getDie s d).pulls[k]? = some p) (page : List Byte)
    (ha : p.attempt ≠ none) (hl : page.length = 2 ^ 14) (hwf : memWf s.mem = true)
    (hdis : p.pteAddr + 16 ≤ pteFrame p.pte ∨ pteFrame p.pte + 2 ^ 14 ≤ p.pteAddr) :
    ∃ t, exec (.pullDataArrive d k (.data page)) s = .next t ∧ (getDie t d).pulls = (getDie s d).pulls.eraseIdx k ∧
      readN t.mem (pteFrame p.pte) (2 ^ 14) = ofBytes page ∧ Forgotten t p.part p.va (2 ^ 14) ∧
      (let upper := readN t.mem (p.pteAddr + 8) 8
       upper / 2 ^ 40 % 4 = 0 ∧ upper / 2 ^ 54 = s.hub.pkg.toNat ∧ upper % 2 ^ 40 = 0) ∧
      ∀ j, (j < p.pteAddr + 8 ∨ p.pteAddr + 16 ≤ j) → (j < pteFrame p.pte ∨ pteFrame p.pte + 2 ^ 14 ≤ j) →
        mread t.mem j = mread s.mem j := by
  have hmem := (invalidateRange_mem _ p.part p.va pageBytes).trans (pulled_mem s d k p page)
  obtain ⟨hlt, hfields⟩ := migUpper_fields p.pte (by decide : 0 < 4) s.hub.pkg.isLt (by decide : 0 < 2 ^ 40)
  refine ⟨_, pullDataArrive_page h ha hl, pulls_invalidateRange (pulled_dies s d k p page) _ _ _, ?_,
    forgotten_invalidateRange _ _ _ _, ?_, ?_⟩
  · have hp := ofBytes_lt page
    rw [hl] at hp
    rw [hmem, readN_writeN_outside _ _ _ _ _ _ (by omega), readN_writeN hwf, Nat.mod_eq_of_lt hp]
  · rw [hmem, readN_writeN (writeN_wf hwf _ _ _), Nat.mod_eq_of_lt hlt]
    exact hfields
  · intro j h1 h2
    rw [hmem, mread_writeN_outside _ _ _ _ _ (by omega), mread_writeN_outside _ _ _ _ _ h2]

theorem pull_failed {s : State} {d k : Nat} {p : Pull} (h : (getDie s d).pulls[k]? = some p) (ha : p.attempt ≠ none)
    (reply : Reply) (hr : reply = .error ∨ reply = .poison) : ∃ t, exec (.pullDataArrive d k reply) s = .next t ∧
      t.mem = s.mem ∧ (getDie t d).pulls = (getDie s d).pulls.set k { p with attempt := none } := by
  obtain ⟨b, hb⟩ := Option.ne_none_iff_exists'.mp ha
  refine ⟨endAttempt s d k p, ?_, endAttempt_pulls s d k p⟩
  rw [exec_pullDataArrive, execPullDataArrive, h]
  rcases hr with rfl | rfl <;> simp only [hb]

theorem pull_late {s : State} {d k : Nat} {p : Pull} (h : (getDie s d).pulls[k]? = some p) (ha : p.attempt = none)
    (page : Reply) : exec (.pullDataArrive d k page) s = .next s := by
  rw [exec_pullDataArrive, execPullDataArrive, h]
  simp only [ha]

theorem pull_timeout {s : State} {d k b : Nat} {p : Pull} (h : (getDie s d).pulls[k]? = some p)
    (hb : p.attempt = some b) :
    exec (.pullAttemptTimeout d k) s = .next (if b + 200000 ≤ s.clock then endAttempt s d k p else s) := by
  rw [exec_pullAttemptTimeout, execPullAttemptTimeout, h]
  simp only [hb]
  split <;> rfl

/-- The leaf of a page that is given up says that it is lost, and its lines are poisoned (R83). -/
def pullLost (s : State) (d k : Nat) (p : Pull) : State :=
  modHub (memWrite (dropPull s d k) (p.pteAddr + 8) 8 (migUpper p.pte 2 (pteHome p.pte) (pteSframe p.pte / 2 ^ 14)))
    fun h => { h with linePoison := (linesOf (pteFrame p.pte) pageBytes).foldl insertNew h.linePoison }

theorem pullLost_dies (s : State) (d k : Nat) (p : Pull) : (pullLost s d k p).dies = (dropPull s d k).dies := by
  rw [pullLost, modHub_dies, memWrite_dies]

theorem exec_pullGiveUp_of_pull {s : State} {d k : Nat} {p : Pull} (h : (getDie s d).pulls[k]? = some p) :
    exec (.pullGiveUp d k) s =
      .next (if p.since + 8000000 ≤ s.clock then invalidateRange (pullLost s d k p) p.part p.va pageBytes else s) := by
  rw [exec_pullGiveUp, execPullGiveUp, h]
  simp only []
  split <;> rfl

theorem mem_insertNew {l : List Nat} {x y : Nat} : y ∈ insertNew l x ↔ y ∈ l ∨ y = x := by
  unfold insertNew
  split
  · next h => exact ⟨.inl, fun k => k.elim id fun hy => hy ▸ by simpa using h⟩
  · simp

theorem mem_foldl_insertNew {ls l : List Nat} {y : Nat} : y ∈ ls.foldl insertNew l ↔ y ∈ l ∨ y ∈ ls := by
  induction ls generalizing l with
  | nil => simp
  | cons x ls ih => rw [List.foldl_cons, ih, mem_insertNew, List.mem_cons, or_assoc]

theorem pull_given_up {s : State} {d k : Nat} {p : Pull} (h : (getDie s d).pulls[k]? = some p)
    (hs : p.since + 8000000 ≤ s.clock) (hwf : memWf s.mem = true) : ∃ t, exec (.pullGiveUp d k) s = .next t ∧
      (getDie t d).pulls = (getDie s d).pulls.eraseIdx k ∧ readN t.mem (p.pteAddr + 8) 8 / 2 ^ 40 % 4 = 2 ∧
      Forgotten t p.part p.va (2 ^ 14) ∧
      ∀ l, pteFrame p.pte ≤ 128 * l → 128 * l < pteFrame p.pte + 2 ^ 14 → l ∈ t.hub.linePoison := by
  have hmem : (invalidateRange (pullLost s d k p) p.part p.va pageBytes).mem = writeN s.mem (p.pteAddr + 8) 8
      (migUpper p.pte 2 (pteHome p.pte) (pteSframe p.pte / 2 ^ 14)) := by
    rw [invalidateRange_mem, pullLost, modHub_mem, memWrite_mem, dropPull_mem]
  have hsf : pteSframe p.pte / 2 ^ 14 < 2 ^ 40 := by
    have := bits_lt p.pte.toNat 101 64
    unfold pteSframe
    omega
  obtain ⟨hlt, hmig, -, -⟩ := migUpper_fields p.pte (by decide : 2 < 4) (bits_lt p.pte.toNat 127 118) hsf
  refine ⟨_, (exec_pullGiveUp_of_pull h).trans (congrArg _ (if_pos hs)),
    pulls_invalidateRange (pullLost_dies s d k p) _ _ _, ?_,
    forgotten_invalidateRange _ _ _ _, fun l h1 h2 => ?_⟩
  · rw [hmem, readN_writeN hwf, pteHome, Nat.mod_eq_of_lt hlt, hmig]
  · refine mem_foldl_insertNew.mpr (.inr (List.mem_map.mpr ⟨l - pteFrame p.pte / 128, List.mem_range.mpr ?_, ?_⟩))
    · unfold pageBytes; omega
    · omega

theorem invalidationsAndPulls : InvalidationsAndPulls := by
  refine ⟨fun s k v h => ⟨invalidationComplete_waits h, invalidation_completes h⟩, fun s d k p _ h => ?_⟩
  refine ⟨fun page ha => pull_late h ha page, pull_failed h, pull_page h, fun b hb => ⟨fun hc => ?_, fun hc => ?_⟩,
    fun hc => ?_, pull_given_up h⟩
  · exact ⟨_, (pull_timeout h hb).trans (congrArg _ (if_pos hc)), endAttempt_pulls s d k p⟩
  · exact (pull_timeout h hb).trans (congrArg _ (if_neg (by omega)))
  · exact (exec_pullGiveUp_of_pull h).trans (congrArg _ (if_neg (by omega)))

/-! ## Resources that come back (R134, R136) -/

theorem exec_resourceRestore (r : SRef) (res : LargeRes) (s : State) :
    exec (.resourceRestore r res) s = execResourceRestore r res s := rfl

theorem freeAt_of_mem {l : List (Option Holder)} (h : ∃ x ∈ l, x = none) : ∃ j, freeAt l = some j := by
  obtain ⟨x, hx, rfl⟩ := h
  exact Option.isSome_iff_exists.mp (List.findIdx?_isSome.trans (List.any_eq_true.mpr ⟨none, hx, rfl⟩))

theorem om_restored {s : State} {r : SRef} {st : Strand} (hst : getStrand s r = some st) (n : BitVec 5)
    (hs : (getOm st n).state ≠ .notHeld) (hp : (getOm st n).phys = none)
    (hf : ∃ x ∈ (getCell s r.cell).om.toList, x = none) : ∃ t u j, exec (.resourceRestore r (.om n)) s = .next t ∧
      getStrand t r = some u ∧ getOm u n = { getOm st n with phys := some j } ∧
      (getCell t r.cell).om.get (Fin.ofNat 32 j) = some ⟨st.uid, n.toNat⟩ ∧ t.mem = s.mem := by
  obtain ⟨j, hj⟩ := freeAt_of_mem hf
  refine ⟨putStrand (modCell s r.cell fun c =>
      { c with om := c.om.set (Fin.ofNat 32 j) (some ⟨st.uid, n.toNat⟩) }) r
    (perfAdd (putOm st n { getOm st n with phys := some j }) 0x06 1), _, j, ?_, getStrand_putStrand _ r _, ?_, ?_, rfl⟩
  · rw [exec_resourceRestore, execResourceRestore, hst]
    simp only [hs, hp, Option.isSome_none, takeOmPlace, hj]
    rfl
  · exact vget_set_same _ n.toFin _ n.toFin.isLt
  · rw [getCell_putStrand, modCell, getCell_putCell]
    exact vget_set_same _ (Fin.ofNat 32 j) _ (Fin.ofNat 32 j).isLt

theorem saveParked_of_none {p : Parked → Bool} {s : State} {st : Strand} (h : ∀ x ∈ st.spill, p x.2.1 = false) :
    saveParked p s st = s := by
  unfold saveParked
  generalize st.spill = l at h
  induction l with
  | nil => rfl
  | cons x l ih =>
    rw [List.foldl_cons, h x (.head _)]
    exact ih fun y hy => h y (.tail _ hy)

theorem foldl_saveParked_of_none {p : Parked → Bool} {s : State} {l : List Strand}
    (h : ∀ st ∈ l, ∀ x ∈ st.spill, p x.2.1 = false) : l.foldl (saveParked p) s = s := by
  induction l with
  | nil => rfl
  | cons x l ih =>
    rw [List.foldl_cons, saveParked_of_none (h x (.head _))]
    exact ih fun y hy => h y (.tail _ hy)

/-- No entry parked in an accumulator tile moves to memory. -/
theorem moveAllParked_mem {s : State} {cell j : Nat} (h : ∀ p ∈ parkedOn s cell, ∀ k i, p ≠ .tile k i) :
    (moveAllParked s cell (inTile j)).mem = s.mem := by
  have hp : ∀ x ∈ parkedOn s cell, inTile j x = false := by
    intro x hx
    cases x with
    | tile k i => exact absurd rfl (h _ hx k i)
    | _ => rfl
  have h1 : (s.strands.filter fun x => x.1 / 4 == cell).foldl (fun s x => saveParked (inTile j) s x.2) s = s := by
    rw [← List.foldl_map (f := Prod.snd) (g := saveParked (inTile j))]
    refine foldl_saveParked_of_none fun st hst x hx => hp _ (List.mem_append_left _ ?_)
    obtain ⟨y, hy, rfl⟩ := List.mem_map.mp hst
    exact List.mem_flatMap.mpr ⟨y, hy, List.mem_map.mpr ⟨x, hx, rfl⟩⟩
  have h2 : ((s.ctxs.filter fun x => x.1 / 64 == cell).flatMap fun x => x.2.departed).foldl
      (saveParked (inTile j)) s = s := by
    refine foldl_saveParked_of_none fun st hst x hx => hp _ (List.mem_append_right _ ?_)
    obtain ⟨y, hy, hd⟩ := List.mem_flatMap.mp hst
    exact List.mem_flatMap.mpr ⟨y, hy, List.mem_flatMap.mpr ⟨st, hd, List.mem_map.mpr ⟨x, hx, rfl⟩⟩⟩
  simp only [moveAllParked, h1, h2]

theorem acc_restored {s : State} {r : SRef} {st : Strand} (hst : getStrand s r = some st) (n : BitVec 4)
    (hs : (getAcc st n).held = true) (hp : (getAcc st n).phys = none)
    (hf : ∃ x ∈ (getCell s r.cell).acc.toList, x = none) : ∃ t u j, exec (.resourceRestore r (.acc n)) s = .next t ∧
      getStrand t r = some u ∧ getAcc u n = { getAcc st n with phys := some j } ∧
      (getCell t r.cell).acc.get (Fin.ofNat 16 j) = some ⟨st.uid, n.toNat⟩ ∧
      ((∀ p ∈ parkedOn s r.cell, ∀ k i, p ≠ .tile k i) → t.mem = s.mem) := by
  obtain ⟨j, hj⟩ := freeAt_of_mem hf
  refine ⟨putStrand (modCell (moveAllParked s r.cell (inTile j)) r.cell fun c =>
      { c with acc := c.acc.set (Fin.ofNat 16 j) (some ⟨st.uid, n.toNat⟩) }) r
    (perfAdd (putAcc (moveParked (inTile j) st) n { getAcc st n with phys := some j }) 0x06 1), _, j, ?_,
    getStrand_putStrand _ r _, ?_, ?_, fun h => moveAllParked_mem h⟩
  · rw [exec_resourceRestore, execResourceRestore, hst]
    simp only [hs, hp, Option.isSome_none, Bool.not_true, Bool.or_self, Bool.false_eq_true, if_false, takeAccPlace, hj]
  · exact vget_set_same _ n.toFin _ n.toFin.isLt
  · rw [getCell_putStrand, modCell, getCell_putCell]
    exact vget_set_same _ (Fin.ofNat 16 j) _ (Fin.ofNat 16 j).isLt

theorem v_restored {s : State} {r : SRef} {st : Strand} (hst : getStrand s r = some st) (n : BitVec 6)
    (h : st.vOut.getLsbD n.toNat = true) : ∃ t u, exec (.resourceRestore r (.v n)) s = .next t ∧
      getStrand t r = some u ∧ u.vOut = st.vOut &&& ~~~(BitVec.twoPow 64 n.toNat) ∧ u.v = st.v ∧ t.mem = s.mem := by
  refine ⟨putStrand s r (perfAdd { st with
      vOut := st.vOut &&& ~~~(BitVec.twoPow 64 n.toNat), vWritten := st.vWritten ||| BitVec.twoPow 64 n.toNat } 0x06 1),
    _, ?_, getStrand_putStrand s r _, rfl, rfl, rfl⟩
  rw [exec_resourceRestore, execResourceRestore, hst]
  exact if_pos h

/-- Settles O49: an invalidation waits for the accesses translated in its range and then clears every cache; a pull writes
its page, then its leaf; a restored resource keeps what it held. -/
theorem invalidationsPullsAndResources : Obligations.InvalidationsPullsAndResources :=
  ⟨invalidationsAndPulls, fun _ _ _ hst => ⟨v_restored hst, om_restored hst, acc_restored hst⟩⟩

end Sys2Proof.Proofs

namespace Sys2Proof.Proofs

open Host (Outcome)
open Sys2Proof Machine Claims

/-! ## The order of queued faults (R404) -/

theorem addFault_length (l : List QFault) (q : QFault) : (addFault l q).length = min (l.length + 1) 24 := by
  have split (p : QFault → Bool) : (l.takeWhile p).length + (l.dropWhile p).length = l.length := by
    rw [← List.length_append, List.takeWhile_append_dropWhile]
  simp only [addFault, List.length_take, List.length_append, List.length_cons]
  rw [← add_assoc, split, min_comm]

/-- A fault comes after the ones that it is not before, and before the first that it is before. -/
theorem addFault_between {l r : List QFault} {q : QFault} (hlen : l.length + r.length < 24)
    (hl : ∀ x ∈ l, x.cycle < q.cycle ∨ faultRank x ≤ faultRank q)
    (hr : ∀ x ∈ r.head?, ¬ x.cycle < q.cycle ∧ ¬ faultRank x ≤ faultRank q) : addFault (l ++ r) q = l ++ q :: r := by
  let first (x : QFault) : Bool := decide (x.cycle < q.cycle) || decide (faultRank x ≤ faultRank q)
  have hl' : ∀ x ∈ l, first x = true := fun x hx => by simpa [first] using hl x hx
  have ht : r.takeWhile first = [] := by
    cases r with
    | nil => rfl
    | cons x r => exact List.takeWhile_cons_of_neg (by simpa [first] using hr x rfl)
  have hd : r.dropWhile first = r := by
    cases r with
    | nil => rfl
    | cons x r => exact List.dropWhile_cons_of_neg (by simpa [first] using hr x rfl)
  show ((l ++ r).takeWhile first ++ q :: (l ++ r).dropWhile first).take 24 = _
  rw [List.takeWhile_append_of_pos hl', List.dropWhile_append_of_pos hl', ht, hd, List.append_nil]
  exact List.take_of_length_le (by rw [List.length_append, List.length_cons]; omega)

theorem addFault_last (l : List QFault) (q : QFault) (hlen : l.length < 24)
    (h : ∀ x ∈ l, x.cycle < q.cycle ∨ x.cycle = q.cycle ∧ faultRank x ≤ faultRank q) : addFault l q = l ++ [q] := by
  have := addFault_between (l := l) (r := []) hlen (fun x hx => (h x hx).imp_right And.right)
    fun x hx => by cases hx
  rwa [List.append_nil] at this

/-- In one cycle an engine's fault comes before a channel's, and before one of an engine with a higher TAG. -/
theorem addFault_sameCycle (l : List QFault) (x : QFault) (r : List QFault) (q : QFault)
    (hlen : l.length + r.length < 23) (hc : x.cycle = q.cycle)
    (hx : q.chan = none ∧ x.chan ≠ none ∨ q.chan = none ∧ x.chan = none ∧ q.eng < x.eng) (he : q.eng < 8)
    (hl : ∀ y ∈ l, y.cycle < q.cycle) : addFault (l ++ x :: r) q = l ++ q :: x :: r := by
  refine addFault_between (by rw [List.length_cons]; omega) (fun y hy => .inl (hl y hy)) fun y hy => ?_
  obtain rfl : x = y := Option.some.inj hy
  have hlt : faultRank q < faultRank x := by
    unfold faultRank
    rcases hx with ⟨hq, hx⟩ | ⟨hq, hx, hlt⟩
    · obtain ⟨ch, hch⟩ := Option.ne_none_iff_exists'.mp hx
      rw [hq, hch]
      show q.eng < 8 + ch
      omega
    · rw [hq, hx]
      exact hlt
  omega

/-! ## What a delivery and an ACTION leave as it is -/

theorem getPart_modPart_other (s : State) {p n : Nat} (f : Partition → Partition) (h : n ≠ p) :
    getPart (modPart s p f) n = getPart s n := by
  simp only [getPart, modPart_hub_parts, fget_fset_other _ _ _ _ h]

/-- Functions other than the one that changes stay as they are. -/
theorem getFn_modFn_other (s : State) {fn n : Nat} (f : Fn → Fn) (h : n ≠ fn) :
    getFn (modFn s fn f) n = getFn s n := by
  simp only [getFn, modFn, fget_fset_other _ _ _ _ h]

/-- The resident strands, the windows of the functions, and what the partitions record of launches, save areas and fault
areas are as they were. -/
structure Aside (s t : State) : Prop where
  strands : t.strands = s.strands
  head : ∀ n, (getFn t n).faultHead = (getFn s n).faultHead
  tail : ∀ n, (getFn t n).faultTail = (getFn s n).faultTail
  window : ∀ n, (getFn t n).window = (getFn s n).window
  pkg : t.hub.pkg = s.hub.pkg
  used : ∀ p, (getPart t p).saveUsed = (getPart s p).saveUsed
  launches : ∀ p, (getPart t p).launches = (getPart s p).launches
  areas : ∀ p, (getPart t p).faultAreas = (getPart s p).faultAreas

namespace Aside

theorem refl (s : State) : Aside s s :=
  ⟨rfl, fun _ => rfl, fun _ => rfl, fun _ => rfl, rfl, fun _ => rfl, fun _ => rfl, fun _ => rfl⟩

theorem trans {s t u : State} (h : Aside s t) (k : Aside t u) : Aside s u :=
  ⟨k.strands.trans h.strands, fun n => (k.head n).trans (h.head n), fun n => (k.tail n).trans (h.tail n),
    fun n => (k.window n).trans (h.window n), k.pkg.trans h.pkg, fun p => (k.used p).trans (h.used p),
    fun p => (k.launches p).trans (h.launches p), fun p => (k.areas p).trans (h.areas p)⟩

theorem of_same {s t : State} (hs : t.strands = s.strands) (hf : t.hub.fns = s.hub.fns)
    (hp : t.hub.parts = s.hub.parts) (hk : t.hub.pkg = s.hub.pkg) : Aside s t := by
  have fn (n : Nat) : getFn t n = getFn s n := by rw [getFn, hf]; rfl
  have part (p : Nat) : getPart t p = getPart s p := by rw [getPart, hp]; rfl
  exact ⟨hs, fun n => by rw [fn], fun n => by rw [fn], fun n => by rw [fn], hk, fun p => by rw [part],
    fun p => by rw [part], fun p => by rw [part]⟩

theorem foldl {α : Type} {f : State → α → State} (h : ∀ s x, Aside s (f s x)) (l : List α) (s : State) :
    Aside s (l.foldl f s) := by
  induction l generalizing s with
  | nil => exact refl s
  | cons x l ih => exact (h s x).trans (ih (f s x))

theorem modPart (s : State) (p : Nat) {f : Partition → Partition} (hu : ∀ x, (f x).saveUsed = x.saveUsed)
    (hl : ∀ x, (f x).launches = x.launches) (ha : ∀ x, (f x).faultAreas = x.faultAreas) :
    Aside s (modPart s p f) := by
  have part (n : Nat) : getPart (Machine.modPart s p f) n = getPart s n ∨
      getPart (Machine.modPart s p f) n = f (getPart s n) := by
    by_cases h : n = p
    · subst h; exact .inr (getPart_putPart _ _ _)
    · exact .inl (getPart_modPart_other s f h)
  refine ⟨rfl, fun _ => rfl, fun _ => rfl, fun _ => rfl, rfl, fun n => ?_, fun n => ?_, fun n => ?_⟩ <;>
    rcases part n with h | h <;> rw [h]
  · exact hu _
  · exact hl _
  · exact ha _

theorem modFn (s : State) (fn : Nat) {f : Fn → Fn} (hh : ∀ x, (f x).faultHead = x.faultHead)
    (ht : ∀ x, (f x).faultTail = x.faultTail) (hw : ∀ x, (f x).window = x.window) : Aside s (modFn s fn f) := by
  have fns (n : Nat) : getFn (Machine.modFn s fn f) n = getFn s n ∨
      getFn (Machine.modFn s fn f) n = f (getFn s n) := by
    by_cases h : n = fn
    · subst h; exact .inr (getFn_modFn _ _ _)
    · exact .inl (getFn_modFn_other s f h)
  refine ⟨rfl, fun n => ?_, fun n => ?_, fun n => ?_, rfl, fun _ => rfl, fun _ => rfl, fun _ => rfl⟩ <;>
    rcases fns n with h | h <;> rw [h]
  · exact hh _
  · exact ht _
  · exact hw _

theorem sendMsix (s : State) (fn vec : Nat) : Aside s (sendMsix s fn vec) :=
  modFn s fn (fun x => by split <;> rfl) (fun x => by split <;> rfl) fun x => by split <;> rfl

theorem setLog (s : State) (d : Nat) (l : List (List Word)) : Aside s (setLog s d l) := by
  unfold Machine.setLog
  split <;> exact of_same rfl rfl rfl rfl

theorem drainLog (s : State) (d : Nat) : Aside s (drainLog s d) := by
  unfold Machine.drainLog
  split
  · exact refl _
  · exact (setLog _ _ _).trans (of_same rfl rfl rfl rfl)

theorem addLog (s : State) (d : Nat) (e : List Word) : Aside s (addLog s d e) := by
  have room : Aside s (if 4096 ≤ (logOf s d).length then Machine.drainLog s d else s) := by
    split
    · exact drainLog _ _
    · exact refl _
  refine room.trans ?_
  unfold Machine.addLog
  dsimp only
  generalize (if 4096 ≤ (logOf s d).length then Machine.drainLog s d else s) = u
  split
  · exact (setLog _ _ _).trans (sendMsix _ _ _)
  · exact setLog _ _ _

/-- The log entry of a failed access of the scheduler leaves the window (R84). -/
theorem failUnit (s : State) (die p : Nat) (t : Trap) : Aside s (failUnit s die p t) := by
  refine Aside.trans (t := if trapLogged t then logTrap s die p t else s) ?_ (.of_same rfl rfl rfl rfl)
  split
  · exact addLog _ _ _
  · exact refl _

end Aside

/-! ## Delivery to the host (R410) -/

theorem exec_faultDeliver (s : State) : exec .faultDeliver s = execFaultDeliver s := rfl

/-- The registers of a function with one more entry in its window. -/
def entered (f : Fn) (w : List Word) : Fn :=
  { f with window := f.window.set (Fin.ofNat 64 f.faultHead.toNat) w, faultHead := f.faultHead + 1 }

theorem entered_window {f g : Fn} (hh : g.faultHead = f.faultHead) (hw : g.window = f.window) (w : List Word) :
    (entered g w).window = f.window.set (Fin.ofNat 64 f.faultHead.toNat) w := by
  simp only [entered, hh, hw]

theorem deliverHost_open {s : State} (r : SRef) {st : Strand} (q : QFault) (h : windowOpen (getFn s st.part) = true) :
    deliverHost s r st q =
      putStrand (sendMsix (modFn s st.part fun f => entered f (faultRecord s r st q (1 < st.faults.length))) st.part 1) r
        (deliverFault st q (.window ((getFn s st.part).faultHead.toNat % 64))) := by
  simp only [deliverHost, h, Bool.not_true, Bool.false_eq_true, if_false]
  rfl

theorem one_lt_faults {st : Strand} {q : QFault} {rest : List QFault} (h : st.faults = q :: rest) :
    decide (1 < st.faults.length) = !rest.isEmpty := by
  cases rest <;> simp [h]

theorem deliveredTo_put (s : State) (r : SRef) {st : Strand} {q : QFault} {rest : List QFault}
    (h : st.faults = q :: rest) (place : FaultPlace) :
    DeliveredTo (putStrand s r (deliverFault st q place)) r st q rest place := by
  have hcause : (deliverFault st q place).fltCause = fltCauseOf q (1 < st.faults.length) := rfl
  have hrest : (deliverFault st q place).faults = st.faults.drop 1 := rfl
  rw [one_lt_faults h] at hcause
  rw [h] at hrest
  exact ⟨_, getStrand_putStrand _ _ _, rfl, hrest, by rw [deliverFault], hcause, rfl, rfl⟩

/-- The oldest fault goes to the host's window after what went before it. -/
theorem toHostFrom_of_exec {s s' : State} {r : SRef} {st : Strand} {q : QFault} {rest : List QFault}
    (h : st.faults = q :: rest) (hw : Aside s s')
    (hx : exec .faultDeliver s = .next (if windowOpen (getFn s st.part) then deliverHost s' r st q else s)) :
    ToHostFrom s s' r st q rest := by
  refine ⟨fun hfull => ?_, fun hroom => ?_⟩
  · rw [hx, if_neg (by simpa [windowOpen] using hfull)]
  · have hopen : windowOpen (getFn s st.part) = true := by simpa [windowOpen] using hroom
    have hopen' : windowOpen (getFn s' st.part) = true := by rw [windowOpen, hw.head, hw.tail]; exact hopen
    have hrec : faultRecord s' r st q (1 < st.faults.length) = faultRecord s r st q (!rest.isEmpty) := by
      rw [one_lt_faults h]; simp only [faultRecord, ctxReg, hw.pkg]
    rw [if_pos hopen, deliverHost_open r q hopen', hrec, hw.head] at hx
    have put (x y) : getFn (putStrand x r y) st.part = getFn x st.part := rfl
    have sent := Aside.sendMsix (modFn s' st.part fun f => entered f (faultRecord s r st q !rest.isEmpty)) st.part 1
    refine ⟨_, hx, rfl, deliveredTo_put _ r h _, ?_, ?_, ?_, ?_⟩
    · rw [put, sent.head, getFn_modFn, ← hw.head]; rfl
    · rw [put, sent.tail, getFn_modFn, ← hw.tail]; rfl
    · exact messaged_sendMsix 1 (by rw [getFn_modFn]; rfl) (by rw [getFn_modFn]; rfl) (by rw [getFn_modFn]; rfl)
    · rw [put, sent.window, getFn_modFn, entered_window (hw.head _) (hw.window _)]

/-! ## Delivery to a handler (R409) -/

/-- The strand's oldest fault waits for its delivery. -/
structure FaultWaits (s : State) (st : Strand) (q : QFault) (rest : List QFault) : Prop where
  strand : getStrand s (Walker.ref s.cur) = some st
  faults : st.faults = q :: rest
  delivered : st.delivered = none
  pred : st.pred = none

/-- What follows an attempt at a handler. -/
def handled (s : State) (r : SRef) (st : Strand) (q : QFault) : HandlerTry → State
  | .done s' => s'
  | .wait s' => s'
  | .host s' => if windowOpen (getFn s st.part) then deliverHost s' r st q else s

section Delivery
variable {s : State} {st : Strand} {q : QFault} {rest : List QFault} {g : Region}

/-- A delivery without a handler, or of a handler's own fault. -/
theorem FaultWaits.toHost_of_region (w : FaultWaits s st q rest)
    (h : ∀ g, regionOf s st.part st.sid.rcb = some g → g.fdh = false ∨ isHandler s st = true) :
    ToHost s (Walker.ref s.cur) st q rest := by
  have hx : exec .faultDeliver s = .next (deliverHost s (Walker.ref s.cur) st q) := by
    rw [exec_faultDeliver, execFaultDeliver]
    simp only [w.strand, w.faults, w.delivered, w.pred]
    split
    · next g hg => exact if_neg (by rcases h g hg with h | h <;> simp [h])
    · rfl
  refine toHostFrom_of_exec w.faults (.refl _) (hx.trans (congrArg _ ?_))
  split
  · rfl
  · next h => rw [deliverHost, if_pos (by simpa using h)]

theorem FaultWaits.exec_handler (w : FaultWaits s st q rest) (hg : regionOf s st.part st.sid.rcb = some g) (hf : g.fdh = true)
    (hh : isHandler s st = false) {x : HandlerTry} (hd : deliverHandler s (Walker.ref s.cur) st q g.fhnd = x) :
    exec .faultDeliver s = .next (handled s (Walker.ref s.cur) st q x) := by
  rw [exec_faultDeliver, execFaultDeliver]
  simp only [w.strand, w.faults, w.delivered, w.pred, hg, hf, hh, hd, Bool.not_false, Bool.and_self, if_true]
  cases x <;> rfl

/-- A handler that fails leaves the fault to the host's window. -/
theorem FaultWaits.toHost_of_handler (w : FaultWaits s st q rest) (hg : regionOf s st.part st.sid.rcb = some g)
    (hf : g.fdh = true) (hh : isHandler s st = false) {s' : State} (hw : Aside s s')
    (hd : deliverHandler s (Walker.ref s.cur) st q g.fhnd = .host s') :
    ToHostFrom s s' (Walker.ref s.cur) st q rest :=
  toHostFrom_of_exec w.faults hw (w.exec_handler hg hf hh hd)

end Delivery

/-! ### The steps of a delivery to a handler: its record, a free entry, the entry's place, the write, the launch -/

section Handler
variable {s s1 s2 s3 s4 : State} {r : SRef} {st : Strand} {q : QFault} {fhnd i : Nat} {w : List Word} {l : LaunchRec}
  {x : Xlat} {e : Trap} {h : Hold}

theorem deliverHandler_of_read_trap
    (hr : readWords s (dieOf r.cell) none st.part .unitRead fhnd 8 = .error (.trap e)) :
    deliverHandler s r st q fhnd = .host (failUnit s (dieOf r.cell) st.part e) := by
  simp only [deliverHandler, hr, bind, Except.bind]

theorem deliverHandler_of_read_hold
    (hr : readWords s (dieOf r.cell) none st.part .unitRead fhnd 8 = .error (.hold h)) :
    deliverHandler s r st q fhnd = .wait (startHold s h) := by
  simp only [deliverHandler, hr, bind, Except.bind]

variable (hr : readWords s (dieOf r.cell) none st.part .unitRead fhnd 8 = .ok (w, s1))
include hr

theorem deliverHandler_of_no_record (hl : launchRecOf w = none) : deliverHandler s r st q fhnd = .host s := by
  simp only [deliverHandler, hr, hl, bind, Except.bind]

variable (hl : launchRecOf w = some l)
include hl

theorem deliverHandler_of_full (hi : freeEntry (getPart s1 st.part) l.argb = none) :
    deliverHandler s r st q fhnd = .wait s := by
  simp only [deliverHandler, hr, hl, hi, bind, Except.bind, stall]

variable (hi : freeEntry (getPart s1 st.part) l.argb = some i)
include hi

theorem deliverHandler_of_place_trap
    (hp : Machine.translate s1 (dieOf r.cell) none st.part .unitWrite (BitVec.ofNat 64 (l.argb + 64 * i)) =
      .error (.trap e)) :
    deliverHandler s r st q fhnd = .host (failUnit s (dieOf r.cell) st.part e) := by
  simp only [deliverHandler, hr, hl, hi, hp, bind, Except.bind]

variable (hp : Machine.translate s1 (dieOf r.cell) none st.part .unitWrite (BitVec.ofNat 64 (l.argb + 64 * i)) =
  .ok (x, s2))
include hp

theorem deliverHandler_of_write_trap
    (hw : writeVirt s2 (dieOf r.cell) none st.part .unitWrite (l.argb + 64 * i)
      (dwordsToBytes (faultRecord s2 r st q (1 < st.faults.length))) = .error (.trap e)) :
    deliverHandler s r st q fhnd = .host (failUnit s (dieOf r.cell) st.part e) := by
  simp only [deliverHandler, hr, hl, hi, hp, hw, bind, Except.bind]

variable (hw : writeVirt s2 (dieOf r.cell) none st.part .unitWrite (l.argb + 64 * i)
  (dwordsToBytes (faultRecord s2 r st q (1 < st.faults.length))) = .ok s3)
include hw

theorem deliverHandler_of_refused {c : Int}
    (ha : acceptLaunch s3 (dieOf r.cell) st.part (handlerRecord w st.sid.rcb (l.argb + 64 * i)) (some st.uid) none =
      .ok (.code c, s4)) :
    deliverHandler s r st q fhnd = .host s := by
  simp only [deliverHandler, hr, hl, hi, hp, hw, ha, bind, Except.bind]

theorem deliverHandler_of_launched {n : Nat}
    (ha : acceptLaunch s3 (dieOf r.cell) st.part (handlerRecord w st.sid.rcb (l.argb + 64 * i)) (some st.uid) none =
      .ok (.number n, s4)) :
    deliverHandler s r st q fhnd = .done (putStrand (takeEntry s4 st.part l.argb i) r
      (deliverFault st q (.area (homeOfPte x.leaf.pte) (l.argb + 64 * i) x.pa n))) := by
  simp only [deliverHandler, hr, hl, hi, hp, hw, ha, bind, Except.bind]

end Handler

/-- R84, R404, R405, R408 to R410. -/
theorem faultsDelivered : FaultsDelivered := by
  refine ⟨addFault_length, addFault_last, addFault_sameCycle,
    fun s st hst => ⟨fun h => ?_, fun h => ?_, fun h => ?_, ?_⟩⟩
  · obtain ⟨d, hd⟩ := Option.ne_none_iff_exists'.mp h
    rw [exec_faultDeliver, execFaultDeliver]
    simp only [hst, hd]
    cases st.faults <;> rfl
  · rw [exec_faultDeliver, execFaultDeliver]
    simp only [hst, h]
  · obtain ⟨p, hp⟩ := Option.ne_none_iff_exists'.mp h
    rw [exec_faultDeliver, execFaultDeliver]
    simp only [hst, hp]
    cases st.faults <;> cases st.delivered <;> rfl
  intro q rest hf hd hp
  have w : FaultWaits s st q rest := ⟨hst, hf, hd, hp⟩
  refine ⟨fun hg => w.toHost_of_region fun g hg' => (by rw [hg] at hg'; cases hg'),
    fun g hg => ⟨fun h => ?_, fun hfdh hh => ?_⟩⟩
  · exact w.toHost_of_region fun g' hg' => by rw [hg] at hg'; cases hg'; exact h
  rw [← one_lt_faults hf]
  have host {s' : State} := @FaultWaits.toHost_of_handler _ _ _ _ _ w hg hfdh hh s'
  refine ⟨fun e hr => host (.failUnit _ _ _ _) (deliverHandler_of_read_trap hr),
    fun h hr => w.exec_handler hg hfdh hh (deliverHandler_of_read_hold hr), fun w' s1 hr => ?_⟩
  refine ⟨fun hl => host (.refl _) (deliverHandler_of_no_record hr hl), fun l hl => ?_⟩
  refine ⟨fun hi => w.exec_handler hg hfdh hh (deliverHandler_of_full hr hl hi), fun i hi => ?_⟩
  refine ⟨fun e hp => host (.failUnit _ _ _ _) (deliverHandler_of_place_trap hr hl hi hp), fun x s2 hp => ?_⟩
  refine ⟨fun e hw => host (.failUnit _ _ _ _) (deliverHandler_of_write_trap hr hl hi hp hw), fun s3 ans s4 hw ha => ?_⟩
  refine ⟨fun c hc => host (.refl _) (deliverHandler_of_refused hr hl hi hp hw (hc ▸ ha)), fun n hn => ?_⟩
  have launched := deliverHandler_of_launched hr hl hi hp hw (hn ▸ ha)
  exact ⟨_, w.exec_handler hg hfdh hh launched, rfl, deliveredTo_put _ _ hf _⟩

/-! ## What an ACTION leaves as it is (R411, R412) -/

theorem exec_faultTailWrite (part : Nat) (tail : BitVec 32) (s : State) :
    exec (.faultTailWrite part tail) s = execFaultTailWrite part tail s := rfl

theorem exec_faultHandlerComplete (s : State) : exec .faultHandlerComplete s = execFaultHandlerComplete s := rfl

namespace Aside

theorem startHold (s : State) (h : Hold) : Aside s (startHold s h) := by
  cases h with
  | pull d p => simp only [Machine.startHold]; split <;> exact of_same rfl rfl rfl rfl
  | away q => simp only [Machine.startHold]; split <;> exact of_same rfl rfl rfl rfl

theorem memWrite (s : State) (pa n v : Nat) : Aside s (memWrite s pa n v) := .of_same rfl rfl rfl rfl

theorem atomicLine (s : State) (line : Nat) (msa : Bool) : Aside s (atomicLine s line msa).1 := by
  unfold Machine.atomicLine
  dsimp only
  split
  · exact refl _
  · split
    · exact refl _
    · split <;> exact of_same rfl rfl rfl rfl

theorem atomicAt (s : State) (pa n : Nat) (msa : Bool) (f : Nat → Nat) : Aside s (atomicAt s pa n msa f).2 :=
  let u := (Machine.atomicLine s (pa / 128) msa).1
  ((atomicLine s (pa / 128) msa).trans (memWrite u pa n (f (memN u pa n)))).trans (of_same rfl rfl rfl rfl)

theorem takeAnswer {s : State} {q : AwayReq} {bs : List Byte} {t : State} (h : takeAnswer s q = .ok (bs, t)) :
    Aside s t := by
  unfold Machine.takeAnswer at h
  dsimp only at h
  split at h
  case h_2 =>
    injection h with h; injection h with _ h; subst h
    exact of_same rfl rfl rfl rfl
  case h_4 => split at h <;> cases h
  all_goals cases h

theorem addUnit {s : State} {c : CounterAdd} {t : State} (h : addUnit s c = .ok t) : Aside s t := by
  unfold Machine.addUnit at h
  simp only [bind, Except.bind] at h
  split at h
  · cases h
  split at h
  · cases h
  next x hx =>
  obtain ⟨-, hs, -, hh, -⟩ := translate_same hx
  have h1 : Aside s x.2 := of_same hs (by rw [hh]) (by rw [hh]) (by rw [hh])
  split at h
  · split at h
    · cases h
    · injection h with h; subst h
      exact h1.trans (atomicAt _ _ _ _ _)
  · split at h
    · cases h
    · next y hy =>
      injection h with h; subst h
      exact h1.trans (takeAnswer hy)

theorem addVirt (s : State) (die part va n : Nat) : Aside s (addVirt s die part va n) := by
  unfold Machine.addVirt
  split
  · next t ht => exact addUnit ht
  · exact (addLog _ _ _).trans (of_same rfl rfl rfl rfl)
  · exact (startHold _ _).trans (of_same rfl rfl rfl rfl)
  · exact refl _

theorem countRegion (s : State) (die part rcb k n : Nat) : Aside s (countRegion s die part rcb k n) := by
  unfold Machine.countRegion
  split
  · exact refl _
  · split
    · exact refl _
    · exact addVirt _ _ _ _ _

theorem setStat (s : State) (part key : Nat) (stat : BitVec 4) (cause : Nat) :
    Aside s (setStat s part key stat cause) := by
  refine trans (t := modBox s part key fun b => { b with stat := stat, cause := BitVec.ofNat 32 cause }) ?_
    (sendMsix _ _ _)
  refine modFn _ _ ?_ ?_ ?_ <;> exact fun _ => rfl

end Aside

/-! ### Giving up a strand's work -/

/-- Memory, the clock, the caches of the dies and the departed strands too are as they were. -/
structure Released (s t : State) : Prop where
  aside : Aside s t
  mem : t.mem = s.mem
  clock : t.clock = s.clock
  dies : t.dies = s.dies
  departed : ∀ c ∈ t.ctxs, ∀ x ∈ c.2.departed, ∃ d ∈ s.ctxs, d.1 = c.1 ∧ x ∈ d.2.departed

namespace Released

theorem trans {s t u : State} (h : Released s t) (k : Released t u) : Released s u := by
  refine ⟨h.aside.trans k.aside, k.mem.trans h.mem, k.clock.trans h.clock, k.dies.trans h.dies, fun c hc x hx => ?_⟩
  obtain ⟨d, hd, hk, hx⟩ := k.departed c hc x hx
  obtain ⟨e, he, hk', hx⟩ := h.departed d hd x hx
  exact ⟨e, he, hk'.trans hk, hx⟩

theorem of_aside {s t : State} (h : Aside s t) (hm : t.mem = s.mem) (hk : t.clock = s.clock) (hd : t.dies = s.dies)
    (hc : t.ctxs = s.ctxs) : Released s t :=
  ⟨h, hm, hk, hd, fun c hx _ hy => ⟨c, hc ▸ hx, rfl, hy⟩⟩

theorem refl (s : State) : Released s s := of_aside (.refl s) rfl rfl rfl rfl

theorem foldl {α : Type} {f : State → α → State} (h : ∀ s x, Released s (f s x)) (l : List α) (s : State) :
    Released s (l.foldl f s) := by
  induction l generalizing s with
  | nil => exact refl s
  | cons x l ih => exact (h s x).trans (ih (f s x))

theorem dropPin (s : State) (part : Nat) (o : Option Nat) : Released s (dropPin s part o) := by
  cases o with
  | none => exact refl s
  | some n =>
    refine of_aside (t := setHandle s part n { getHandle s part n with pin := (getHandle s part n).pin - 1 }) ?_ rfl rfl
      rfl rfl
    unfold setHandle
    refine Aside.modPart s part ?_ ?_ ?_ <;> exact fun _ => rfl

theorem dropReads (s : State) (part : Nat) : Released s (dropReads s part) :=
  of_aside (.of_same rfl rfl rfl rfl) rfl rfl rfl rfl

theorem releaseHeld (s : State) (uid : Nat) : Released s (releaseHeld s uid) :=
  of_aside (.of_same rfl rfl rfl rfl) rfl rfl rfl rfl

theorem dropCommands (s : State) (cell uid : Nat) : Released s (dropCommands s cell uid) := by
  unfold Machine.dropCommands
  refine trans (foldl (fun s cmd => ?_) _ s) (of_aside (.of_same rfl rfl rfl rfl) rfl rfl rfl rfl)
  split
  · exact (dropPin _ _ _).trans (dropPin _ _ _)
  · exact refl s

/-- A context changes but for its departed strands. -/
theorem modCtx (s : State) (cell part : Nat) {f : Context → Context} (hf : ∀ c, (f c).departed = c.departed) :
    Released s (modCtx s cell part f) := by
  refine ⟨.of_same rfl rfl rfl rfl, rfl, rfl, rfl, fun c hc x hx => ?_⟩
  rcases mem_fset hc with rfl | hc
  · rw [hf, getCtx] at hx
    cases hg : fget s.ctxs (ctxKey cell part) with
    | none => rw [hg] at hx; cases hx
    | some d => rw [hg] at hx; exact ⟨_, mem_of_fget hg, rfl, hx⟩
  · exact ⟨c, hc, rfl, hx⟩

theorem dropSaved (s : State) (cell part uid : Nat) : Released s (dropSaved s cell part uid) := by
  unfold Machine.dropSaved
  refine trans (foldl (fun s cmd => ?_) _ s) (modCtx _ _ _ fun _ => rfl)
  split
  · exact (dropPin _ _ _).trans (dropPin _ _ _)
  · exact refl s

end Released

/-! ### The strand that a fault concerns -/

/-- The strand of a slot, whose number no other resident strand has. -/
structure Alone (s : State) (r : SRef) (st : Strand) : Prop where
  strand : getStrand s r = some st
  slot : r.slot < 4
  own : ∀ k x, (k, x) ∈ s.strands → x.uid = st.uid → k = SRef.key r ∧ x = st
  keys : (s.strands.map (·.1)).Nodup

namespace Alone
variable {s t : State} {r : SRef} {st : Strand}

theorem of_strands (h : Alone s r st) (ht : t.strands = s.strands) : Alone t r st :=
  ⟨by rw [getStrand, ht]; exact h.strand, h.slot, by rw [ht]; exact h.own, by rw [ht]; exact h.keys⟩

theorem strandByUid (h : Alone s r st) : strandByUid s st.uid = some (r, st) := by
  have hsome : (s.strands.find? fun p => p.2.uid == st.uid).isSome := by
    rw [List.find?_isSome]
    exact ⟨_, mem_of_fget h.strand, by simp⟩
  obtain ⟨p, hp⟩ := Option.isSome_iff_exists.mp hsome
  obtain ⟨hk, hx⟩ := h.own p.1 p.2 (List.mem_of_find?_eq_some hp) (by simpa using List.find?_some hp)
  have hslot := h.slot
  have hdiv : SRef.key r / 4 = r.cell := by unfold SRef.key; omega
  have hmod : SRef.key r % 4 = r.slot := by unfold SRef.key; omega
  obtain ⟨k, x⟩ := p
  rw [Machine.strandByUid, hp, Option.map_some]
  simp only at hk hx
  simp only [hk, hx, hdiv, hmod]

theorem findUid (h : Alone s r st) : findUid s st.uid = some st := by
  rw [Machine.findUid, h.strandByUid]

theorem cellOfUid (h : Alone s r st) : cellOfUid s st.uid = r.cell := by
  rw [Machine.cellOfUid, h.strandByUid]

/-- Once the strand's number is gone, its slot is empty. -/
theorem dropped (h : Alone s r st) (ht : t.strands = s.strands.filter fun p => p.2.uid != st.uid) :
    getStrand t r = none := by
  rw [getStrand, ht]
  by_contra hne
  obtain ⟨x, hx⟩ := Option.ne_none_iff_exists'.mp hne
  have hmem := List.mem_filter.mp (mem_of_fget hx)
  have hst := mem_of_fget h.strand
  have heq := List.inj_on_of_nodup_map h.keys hmem.1 hst rfl
  have hu : x.uid = st.uid := by rw [(Prod.mk.inj heq).2]
  simpa [hu] using hmem.2

/-- Giving up the work of a strand without accesses and copies. -/
theorem giveUp (h : Alone s r st) (ha : st.accs = []) (hc : copiesLeft s r.cell st.uid = false) (part : Nat) :
    Released s (giveUp s st.uid part) := by
  have hstores : flushStores s st.uid = s := by
    rw [flushStores, h.strandByUid]
    simp only [ha, List.foldl_nil]
  have hchans : chansOf s r.cell st.uid = [] := by
    simp only [copiesLeft, Bool.or_eq_false_iff] at hc
    simpa using hc.1
  have hcopies : abandonCopies (dropReads s part) r.cell st.uid = dropCommands (dropReads s part) r.cell st.uid := by
    rw [abandonCopies, show chansOf (dropReads s part) r.cell st.uid = chansOf s r.cell st.uid from rfl, hchans]
    rfl
  have hall : Machine.giveUp s st.uid part =
      releaseHeld (dropSaved (dropCommands (dropReads s part) r.cell st.uid) r.cell part st.uid) st.uid := by
    simp only [Machine.giveUp, h.cellOfUid, hstores, hcopies]
  rw [hall]
  exact (Released.dropReads s part).trans ((Released.dropCommands _ _ _).trans
    ((Released.dropSaved _ _ _ _).trans (Released.releaseHeld _ _)))

end Alone

theorem getStrand_modByUid (s : State) (uid : Nat) (f : Strand → Strand) (r : SRef) :
    getStrand (modByUid s uid f) r = (getStrand s r).map fun st => if st.uid == uid then f st else st :=
  fget_map (fun st : Strand => if st.uid == uid then f st else st) s.strands _

theorem getStrand_modByUid_own {s : State} {r : SRef} {st : Strand} (h : getStrand s r = some st)
    (f : Strand → Strand) : getStrand (modByUid s st.uid f) r = some (f st) := by
  rw [getStrand_modByUid, h, Option.map_some, if_pos (beq_self_eq_true _)]

/-! ### Resume (R411) -/

/-- A strand whose delivered fault is resolved. -/
def resumed (s : State) (st : Strand) : Strand :=
  { st with delivered := none, frozen := !st.faults.isEmpty, readySince := s.clock,
            calls := st.calls.map fun c => { c with failed := false } }

theorem resumeUid_aside {s : State} {uid : Nat} {q : QFault} :
    (resumeUid s uid q).hub = s.hub ∧ (resumeUid s uid q).mem = s.mem ∧
      (resumeUid s uid q).strands = (modByUid s uid (resumed s)).strands ∧
      (q.chan = none → (resumeUid s uid q).cells = s.cells) := by
  unfold resumeUid
  dsimp only
  cases hq : q.chan with
  | none => exact ⟨rfl, rfl, rfl, fun _ => rfl⟩
  | some ch =>
    dsimp only
    split
    · split <;> exact ⟨rfl, rfl, rfl, nofun⟩
    · exact ⟨rfl, rfl, rfl, nofun⟩

theorem resumeUid_chan {s : State} {uid cell ch : Nat} {q : QFault} {run : CopyRun} (hc : cellOfUid s uid = cell)
    (hq : q.chan = some ch) (hr : getChan s cell ch = some run) (hu : run.cmd.uid = uid) :
    getChan (resumeUid s uid q) cell ch = some { run with faulted := false } := by
  have hr' : getChan (modByUid s uid (resumed s)) cell ch = some run := hr
  have hx : resumeUid s uid q = setChan (modByUid s uid (resumed s)) cell ch (some { run with faulted := false }) := by
    unfold resumeUid
    simp only [hq, hc]
    show (match getChan (modByUid s uid (resumed s)) cell ch with | some run => _ | none => _) = _
    rw [hr']
    exact if_pos hu
  rw [hx, getChan, setChan, modCell, getCell_putCell]
  exact vget_set_same _ (Fin.ofNat 16 ch) _ (Fin.ofNat 16 ch).isLt

/-! ### Restart (R380, R411) -/

theorem vget_replicate {α : Type} (n : Nat) (x : α) (i : Fin n) : (Vector.replicate n x).get i = x := by
  rw [Vector.get_eq_getElem, Vector.getElem_replicate]

/-- A strand in the state of R380 again, in its slot. -/
def restarted (s : State) (new : Nat) (request : Option Nat) (st : Strand) : Strand :=
  { startStrand st.part new new st.sid st.emask with
    triggered := st.triggered, box := st.box, request := request, resident := st.resident, readySince := s.clock,
    area := st.area, vWritten := st.vWritten }

theorem regBits_restarted (s : State) (new : Nat) (request : Option Nat) (st : Strand) {r : Reg} (hr : r ≠ .em) :
    regBits (restarted s new request st) r = 0 := by
  cases r with
  | em => exact absurd rfl hr
  | cm => exact BitVec.setWidth_zero _ _
  | g n =>
    rw [regBits]
    split
    · rfl
    · rw [restarted, startStrand, vget_replicate]; exact BitVec.setWidth_zero _ _
  | a n => rw [regBits, restarted, startStrand, vget_replicate]; exact BitVec.setWidth_zero _ _
  | b n => rw [regBits, restarted, startStrand, vget_replicate]; exact BitVec.setWidth_zero _ _
  | v n => rw [regBits, restarted, startStrand, vget_replicate]
  | sd n => rw [regBits, restarted, startStrand, vget_replicate]; exact BitVec.setWidth_zero _ _
  | mk n => rw [regBits, restarted, startStrand, vget_replicate]; exact BitVec.setWidth_zero _ _

theorem getEng_restarted (s : State) (new : Nat) (request : Option Nat) (st : Strand) (e : Eng) :
    getEng (restarted s new request st) e = {} := by
  rw [getEng, restarted, startStrand, vget_replicate]

theorem fresh_restarted (s : State) (new : Nat) (request : Option Nat) (st : Strand) :
    Fresh (restarted s new request st) := by
  refine ⟨rfl, rfl, rfl, rfl, fun r hr => regBits_restarted s new request st hr, fun e => ?_, fun n => ?_, fun n => ?_,
    fun k => vget_replicate _ _ k, fun k => vget_replicate _ _ k, rfl, rfl, rfl, rfl, rfl, rfl, rfl, rfl, rfl, rfl, rfl,
    rfl, rfl, rfl, rfl⟩
  · rw [getEng_restarted]; exact ⟨rfl, rfl, rfl, rfl, rfl, rfl, rfl, rfl⟩
  · rw [getOm, restarted, startStrand, vget_replicate]
  · rw [getAcc, restarted, startStrand, vget_replicate]

theorem restarted_same (s : State) (new : Nat) (request : Option Nat) (st : Strand) :
    (restarted s new request st).sid = st.sid ∧ (restarted s new request st).part = st.part ∧
      (restarted s new request st).emask = st.emask ∧ (restarted s new request st).box = st.box ∧
      (restarted s new request st).loading ≠ none :=
  ⟨by rw [restarted, startStrand], by rw [restarted, startStrand], by rw [restarted, startStrand], by rw [restarted],
    nofun⟩

/-- When a strand that starts again asked for its slot: it keeps its place among those that wait. -/
def askedAt (st : Strand) : Option Nat :=
  match st.preempt with
  | some p => some p.since
  | none => st.request

theorem restartUid_eq {s : State} {uid : Nat} {st : Strand} (h : findUid s uid = some st) :
    restartUid s uid = modByUid (freshId (giveUp s uid st.part)).2 uid
      (restarted (freshId (giveUp s uid st.part)).2 (giveUp s uid st.part).nextId (askedAt st)) := by
  rw [restartUid, h]
  rfl

/-! ### Terminate (R411) -/

theorem launchOf_modLaunch (s : State) (part n : Nat) {f : Launch → Launch} (hf : ∀ l, (f l).number = l.number) :
    launchOf (modLaunch s part n f) part n = (launchOf s part n).map f := by
  have hp : (getPart (modLaunch s part n f) part).launches =
      (getPart s part).launches.map fun l => if l.number == n then f l else l :=
    congrArg Partition.launches (getPart_putPart _ _ _)
  rw [launchOf, launchOf, hp]
  generalize (getPart s part).launches = l
  induction l with
  | nil => rfl
  | cons x l ih =>
    rw [List.map_cons, List.find?_cons, List.find?_cons]
    by_cases hx : x.number = n
    · simp [hx, hf]
    · have hx' : (x.number == n) = false := by simpa using hx
      simp only [hx', Bool.false_eq_true, if_false]
      exact ih

theorem getPart_modLaunch (s : State) (part n : Nat) (f : Launch → Launch) :
    (getPart (modLaunch s part n f) part).saveUsed = (getPart s part).saveUsed ∧
      (getPart (modLaunch s part n f) part).faultAreas = (getPart s part).faultAreas := by
  have h : getPart (modLaunch s part n f) part = _ := getPart_putPart s part _
  rw [h]
  exact ⟨rfl, rfl⟩

/-- The counts of a strand's launch and of its partition as the strand ends. -/
def endCounted (s : State) (st : Strand) (failed : Bool) : State :=
  let u := markTriggered s st
  modPart (if st.sid.launch = 0 then u else
    modLaunch u st.part st.sid.launch fun l => { l with ended := l.ended + 1, failed := l.failed || failed }) st.part
      fun p => { p with saveUsed := p.saveUsed - 1 }

theorem retire_eq (s : State) (st : Strand) (failed : Bool) :
    retire s st failed = dropUid (releaseHeld (endCounted s st failed) st.uid) st.uid := rfl

theorem markTriggered_eq (s : State) (st : Strand) : markTriggered s st =
    if st.triggered || st.sid.launch = 0 then s else
      modLaunch s st.part st.sid.launch fun l => { l with triggered := l.triggered + 1 } := rfl

theorem markTriggered_part (s : State) (st : Strand) :
    (getPart (markTriggered s st) st.part).saveUsed = (getPart s st.part).saveUsed ∧
      (getPart (markTriggered s st) st.part).faultAreas = (getPart s st.part).faultAreas := by
  rw [markTriggered_eq]
  split
  · exact ⟨rfl, rfl⟩
  · exact getPart_modLaunch _ _ _ _

theorem endCounted_part (s : State) (st : Strand) (failed : Bool) :
    (getPart (endCounted s st failed) st.part).saveUsed = (getPart s st.part).saveUsed - 1 ∧
      (getPart (endCounted s st failed) st.part).faultAreas = (getPart s st.part).faultAreas := by
  obtain ⟨hu, ha⟩ := markTriggered_part s st
  rw [endCounted]
  rw [show ∀ x : State, ∀ f, getPart (modPart x st.part f) st.part = f (getPart x st.part) from
    fun x f => getPart_putPart x _ _]
  dsimp only
  split
  · exact ⟨by rw [hu], ha⟩
  · obtain ⟨hu', ha'⟩ := getPart_modLaunch (markTriggered s st) st.part st.sid.launch
      fun l => { l with ended := l.ended + 1, failed := l.failed || failed }
    exact ⟨by rw [hu', hu], ha'.trans ha⟩

theorem launchOf_markTriggered {s : State} {st : Strand} {l : Launch}
    (h : launchOf s st.part st.sid.launch = some l) :
    ∃ l', launchOf (markTriggered s st) st.part st.sid.launch = some l' ∧ l'.ended = l.ended := by
  rw [markTriggered_eq]
  split
  · exact ⟨l, h, rfl⟩
  · refine ⟨{ l with triggered := l.triggered + 1 }, (launchOf_modLaunch _ _ _ ?_).trans ?_, rfl⟩
    · exact fun _ => rfl
    · rw [h, Option.map_some]

theorem launchOf_endCounted {s : State} {st : Strand} {l : Launch} (hn : st.sid.launch ≠ 0)
    (h : launchOf s st.part st.sid.launch = some l) :
    ∃ l', launchOf (endCounted s st true) st.part st.sid.launch = some l' ∧ l'.ended = l.ended + 1 ∧
      l'.failed = true := by
  obtain ⟨l', hl', he⟩ := launchOf_markTriggered h
  refine ⟨{ l' with ended := l'.ended + 1, failed := l'.failed || true }, ?_, by rw [← he], Bool.or_true _⟩
  have hcount : launchOf (endCounted s st true) st.part st.sid.launch =
      launchOf (modLaunch (markTriggered s st) st.part st.sid.launch fun l =>
        { l with ended := l.ended + 1, failed := l.failed || true }) st.part st.sid.launch := by
    rw [endCounted, if_neg hn, launchOf, launchOf, modPart, getPart_putPart]
  refine hcount.trans ((launchOf_modLaunch _ _ _ ?_).trans ?_)
  · exact fun _ => rfl
  · rw [hl', Option.map_some]

theorem endCounted_same (s : State) (st : Strand) (failed : Bool) :
    (endCounted s st failed).strands = s.strands ∧ (endCounted s st failed).ctxs = s.ctxs ∧
      (endCounted s st failed).mem = s.mem ∧ (endCounted s st failed).hub.fns = s.hub.fns := by
  rw [endCounted, markTriggered_eq]
  split <;> split <;> exact ⟨rfl, rfl, rfl, rfl⟩

theorem Aside.saveRegs (s : State) (d : Strand) (names : BitVec 64) : Aside s (saveRegs s d names) :=
  foldl (fun _ _ => memWrite _ _ _ _) _ s

theorem Aside.leaveBank (s : State) (r : SRef) (st : Strand) : Aside s (leaveBank s r st) :=
  Aside.trans (foldl (fun s d => saveRegs s d _) _ s) (.of_same rfl rfl rfl rfl)

/-- What stands of a strand's bank when the bank holds no departed strand's registers. -/
theorem leaveBank_mem {s : State} {r : SRef} (st : Strand) (h : bankHeld s r.cell r.slot = false) :
    (leaveBank s r st).mem = s.mem := by
  have hnone : ((s.ctxs.filter fun x => x.1 / 64 == r.cell).flatMap fun x =>
      x.2.departed.filter fun d => d.vHome == some r.slot) = [] := by
    rw [List.flatMap_eq_nil_iff]
    intro x hx
    obtain ⟨hx, hc⟩ := List.mem_filter.mp hx
    rw [bankHeld, List.any_eq_false] at h
    have hx := h x hx
    simp only [hc, Bool.true_and, Bool.not_eq_true, List.any_eq_false] at hx
    exact List.filter_eq_nil_iff.mpr fun d hd => by simpa using hx d hd
  unfold leaveBank
  simp only [hnone, List.foldl_nil]

/-- Another strand's departure or end. -/
def bankLeft (s : State) (uid : Nat) : State :=
  match strandByUid s uid with
  | some (r, st) => leaveBank s r st
  | none => s

theorem dropUid_same (s : State) (uid : Nat) :
    (dropUid s uid).strands = (bankLeft s uid).strands.filter (fun p => p.2.uid != uid) ∧
      (dropUid s uid).mem = (bankLeft s uid).mem ∧ (dropUid s uid).hub = (bankLeft s uid).hub :=
  ⟨rfl, rfl, rfl⟩

theorem Aside.bankLeft (s : State) (uid : Nat) : Aside s (bankLeft s uid) := by
  unfold Proofs.bankLeft
  split
  · exact leaveBank _ _ _
  · exact refl _

/-- A strand's end leaves the other strands and the counts of what was taken for it. -/
theorem retire_aside (s : State) (st : Strand) (failed : Bool) :
    (retire s st failed).strands = s.strands.filter (fun p => p.2.uid != st.uid) ∧
      (∀ n, (getFn (retire s st failed) n).faultHead = (getFn s n).faultHead) ∧
      (∀ n, (getFn (retire s st failed) n).faultTail = (getFn s n).faultTail) ∧
      (getPart (retire s st failed) st.part).saveUsed = (getPart s st.part).saveUsed - 1 ∧
      (getPart (retire s st failed) st.part).faultAreas = (getPart s st.part).faultAreas ∧
      (getPart (retire s st failed) st.part).launches = (getPart (endCounted s st failed) st.part).launches := by
  obtain ⟨hs, -, -, hf⟩ := endCounted_same s st failed
  obtain ⟨hu, ha⟩ := endCounted_part s st failed
  have aside : Aside (endCounted s st failed) (bankLeft (releaseHeld (endCounted s st failed) st.uid) st.uid) :=
    Aside.trans (t := releaseHeld (endCounted s st failed) st.uid) (.of_same rfl rfl rfl rfl) (.bankLeft _ _)
  have fn (n : Nat) : getFn (endCounted s st failed) n = getFn s n := by rw [getFn, hf]; rfl
  rw [retire_eq]
  obtain ⟨hds, -, hdh⟩ := dropUid_same (releaseHeld (endCounted s st failed) st.uid) st.uid
  refine ⟨by rw [hds, aside.strands, hs], fun n => ?_, fun n => ?_, ?_, ?_, ?_⟩
  · rw [getFn, hdh]; exact (aside.head n).trans (by rw [fn])
  · rw [getFn, hdh]; exact (aside.tail n).trans (by rw [fn])
  · rw [getPart, hdh]; exact (aside.used _).trans hu
  · rw [getPart, hdh]; exact (aside.areas _).trans ha
  · rw [getPart, hdh]; exact aside.launches _

theorem retire_mem {s : State} {r : SRef} {st : Strand} (h : Alone s r st) (failed : Bool)
    (hb : bankHeld s r.cell r.slot = false) : (retire s st failed).mem = s.mem := by
  obtain ⟨hs, hc, hm, -⟩ := endCounted_same s st failed
  have own : Alone (releaseHeld (endCounted s st failed) st.uid) r st := h.of_strands hs
  have bank : bankHeld (releaseHeld (endCounted s st failed) st.uid) r.cell r.slot = false := by
    rw [bankHeld, show (releaseHeld (endCounted s st failed) st.uid).ctxs = s.ctxs from hc]; exact hb
  rw [retire_eq, (dropUid_same _ _).2.1, bankLeft, own.strandByUid]
  exact (leaveBank_mem st bank).trans hm

/-- The mailbox of a strand that ends with a cause. -/
def boxEnded (s : State) (st : Strand) (cause : Nat) : State :=
  match st.box with
  | some k => setStat s st.part k 5 cause
  | none => s

theorem terminateUid_eq {s : State} {uid : Nat} {st : Strand} (h : findUid s uid = some st) (cause : Nat) :
    terminateUid s uid cause =
      boxEnded (retire (countRegion (giveUp s uid st.part) (dieOf (cellOfUid s uid)) st.part st.sid.rcb 5 1) st true) st
        cause := by
  rw [terminateUid, h]
  rfl

theorem Aside.boxEnded (s : State) (st : Strand) (cause : Nat) : Aside s (boxEnded s st cause) := by
  unfold Proofs.boxEnded
  split
  · exact setStat _ _ _ _ _
  · exact refl _

theorem boxEnded_box (s : State) {st : Strand} {k : Nat} (h : st.box = some k) (cause : Nat) :
    (getBox (boxEnded s st cause) st.part k).stat = 5 ∧
      (getBox (boxEnded s st cause) st.part k).cause = BitVec.ofNat 32 cause := by
  have hb : (getFn (boxEnded s st cause) st.part).boxes = fset (getFn s st.part).boxes k
      { (fget (getFn s st.part).boxes k).getD {} with stat := 5, cause := BitVec.ofNat 32 cause } := by
    rw [boxEnded, h]
    dsimp only
    rw [setStat, getFn_sendMsix, modBox, getFn_modFn]
    split <;> rfl
  rw [getBox, hb, fget_fset_same]
  exact ⟨rfl, rfl⟩

theorem Released.bankHeld {s t : State} (h : Released s t) {cell slot : Nat} (hb : bankHeld s cell slot = false) :
    bankHeld t cell slot = false := by
  rw [Machine.bankHeld, List.any_eq_false] at hb ⊢
  intro c hc hx
  simp only [Bool.and_eq_true, List.any_eq_true] at hx
  obtain ⟨hcell, x, hx, hv⟩ := hx
  obtain ⟨d, hd, hk, hx⟩ := h.departed c hc x hx
  refine hb d hd ?_
  simp only [Bool.and_eq_true, List.any_eq_true]
  exact ⟨by rw [hk]; exact hcell, x, hx, hv⟩

theorem countRegion_of_none {s : State} {part rcb : Nat}
    (h : ∀ g, regionOf s part rcb = some g → g.cntr = 0) (die k n : Nat) : countRegion s die part rcb k n = s := by
  unfold countRegion
  split
  · rfl
  · next g hg => exact if_pos (by simp [h g hg])

theorem Aside.launchOf {s t : State} (h : Aside s t) (part n : Nat) : launchOf t part n = launchOf s part n := by
  rw [Machine.launchOf, h.launches]; rfl

/-! ### The three actions -/

section Actions
variable {s : State} {r : SRef} {st : Strand} {q : QFault} {place : FaultPlace} {a : Nat}

theorem applyAction_eq (h : Alone s r st) (hd : st.delivered = some ⟨q, place⟩) (a : Nat) :
    applyAction s st.uid a =
      if a = 1 && Cause.cls q.trap.cause = .resumable && !allStopped st .atExit then resumeUid s st.uid q
      else if a = 2 && Cause.cls q.trap.cause ≠ .terminal && !allStopped st .atExit then restartUid s st.uid
      else terminateUid s st.uid (Cause.code q.trap.cause) := by
  rw [applyAction, h.findUid]
  simp only [hd]

theorem resumeUid_acted (h : Alone s r st) :
    getStrand (resumeUid s st.uid q) r = some (resumed s st) ∧ (resumeUid s st.uid q).mem = s.mem ∧
      (q.chan = none → (resumeUid s st.uid q).cells = s.cells) ∧
      ∀ ch run, q.chan = some ch → ch < 16 → getChan s r.cell ch = some run → run.cmd.uid = st.uid →
        getChan (resumeUid s st.uid q) r.cell ch = some { run with faulted := false } := by
  obtain ⟨-, hm, hs, hc⟩ := @resumeUid_aside s st.uid q
  refine ⟨?_, hm, hc, fun ch run hch _ hrun hu => resumeUid_chan h.cellOfUid hch hrun hu⟩
  rw [getStrand, hs]
  exact getStrand_modByUid_own h.strand (resumed s)

theorem restartUid_acted (h : Alone s r st) (ha : st.accs = []) (hc : copiesLeft s r.cell st.uid = false) :
    ∃ u, getStrand (restartUid s st.uid) r = some u ∧ Fresh u ∧ u.sid = st.sid ∧ u.part = st.part ∧
      u.emask = st.emask ∧ u.box = st.box ∧ u.loading ≠ none ∧ (restartUid s st.uid).mem = s.mem := by
  have released := h.giveUp ha hc st.part
  rw [restartUid_eq h.findUid]
  generalize giveUp s st.uid st.part = s1 at released
  have hst : getStrand (freshId s1).2 r = some st := (h.of_strands released.aside.strands).strand
  obtain ⟨hsid, hpart, hmask, hbox, hload⟩ := restarted_same (freshId s1).2 s1.nextId (askedAt st) st
  exact ⟨_, getStrand_modByUid_own hst _, fresh_restarted _ _ _ _, hsid, hpart, hmask, hbox, hload, released.mem⟩

theorem terminateUid_acted (h : Alone s r st) (ha : st.accs = []) (hc : copiesLeft s r.cell st.uid = false)
    (cause : Nat) :
    getStrand (terminateUid s st.uid cause) r = none ∧
      (getPart (terminateUid s st.uid cause) st.part).saveUsed = (getPart s st.part).saveUsed - 1 ∧
      ((∀ g, regionOf s st.part st.sid.rcb = some g → g.cntr = 0) → bankHeld s r.cell r.slot = false →
        (terminateUid s st.uid cause).mem = s.mem) ∧
      (∀ l, st.sid.launch ≠ 0 → launchOf s st.part st.sid.launch = some l →
        ∃ l', launchOf (terminateUid s st.uid cause) st.part st.sid.launch = some l' ∧ l'.ended = l.ended + 1 ∧
          l'.failed = true) ∧
      ∀ k, st.box = some k → (getBox (terminateUid s st.uid cause) st.part k).stat = 5 ∧
        (getBox (terminateUid s st.uid cause) st.part k).cause = BitVec.ofNat 32 cause := by
  have released := h.giveUp ha hc st.part
  rw [terminateUid_eq h.findUid]
  generalize giveUp s st.uid st.part = s1 at released
  have counted := Aside.countRegion s1 (dieOf (cellOfUid s st.uid)) st.part st.sid.rcb 5 1
  have hnone (hg : ∀ g, regionOf s st.part st.sid.rcb = some g → g.cntr = 0) :
      countRegion s1 (dieOf (cellOfUid s st.uid)) st.part st.sid.rcb 5 1 = s1 :=
    countRegion_of_none (by rw [regionOf, released.dies]; exact hg) _ _ _
  generalize countRegion s1 (dieOf (cellOfUid s st.uid)) st.part st.sid.rcb 5 1 = s2 at counted hnone
  have aside := released.aside.trans counted
  obtain ⟨hs, -, -, hu, -, hl⟩ := retire_aside s2 st true
  have boxed := Aside.boxEnded (retire s2 st true) st cause
  refine ⟨h.dropped ?_, ?_, fun hg hb => ?_, fun l hn hlaunch => ?_, fun k hk => boxEnded_box _ hk cause⟩
  · rw [boxed.strands, hs, aside.strands]
  · rw [boxed.used, hu, aside.used]
  · have hmem : (boxEnded (retire s2 st true) st cause).mem = (retire s2 st true).mem := by
      unfold boxEnded
      split <;> rfl
    rw [hmem, hnone hg, retire_mem (h.of_strands released.aside.strands) true (released.bankHeld hb), released.mem]
  · rw [← aside.launchOf] at hlaunch
    rw [boxed.launchOf]
    have := launchOf_endCounted hn hlaunch
    rwa [launchOf, ← hl, ← launchOf] at this

/-- R411, R412. -/
theorem acted_applyAction (h : Alone s r st) (hd : st.delivered = some ⟨q, place⟩) (a : Nat) :
    Acted s (applyAction s st.uid a) r st q a := by
  rw [applyAction_eq h hd]
  refine ⟨fun h1 hcls hended => ?_, fun haccs hcopies => ⟨fun h2 hcls hended => ?_, fun h1 h2 => ?_⟩⟩
  · rw [if_pos (by simp [h1, hcls, hended])]
    exact resumeUid_acted h
  · rw [if_neg (by simp [h2]), if_pos (by simp [h2, hcls, hended])]
    exact restartUid_acted h haccs hcopies
  · rw [if_neg ?_, if_neg ?_]
    · exact terminateUid_acted h haccs hcopies _
    · simpa [or_assoc, imp_iff_not_or] using h2
    · simpa [or_assoc, imp_iff_not_or] using h1

end Actions

/-! ### The windows of the functions and the fault areas -/

/-- The pointers of the functions' windows and the entries of a partition's fault areas are as they were. -/
structure WindowsKept (p : Nat) (s t : State) : Prop where
  head : ∀ n, (getFn t n).faultHead = (getFn s n).faultHead
  tail : ∀ n, (getFn t n).faultTail = (getFn s n).faultTail
  areas : (getPart t p).faultAreas = (getPart s p).faultAreas

theorem Aside.recorded {s t : State} (h : Aside s t) (p : Nat) : WindowsKept p s t := ⟨h.head, h.tail, h.areas p⟩

namespace WindowsKept
variable {p : Nat}

theorem refl (s : State) : WindowsKept p s s := ⟨fun _ => rfl, fun _ => rfl, rfl⟩

theorem trans {s t u : State} (h : WindowsKept p s t) (k : WindowsKept p t u) : WindowsKept p s u :=
  ⟨fun n => (k.head n).trans (h.head n), fun n => (k.tail n).trans (h.tail n), k.areas.trans h.areas⟩

theorem of_hub {s t : State} (h : t.hub = s.hub) : WindowsKept p s t := by
  refine ⟨fun n => ?_, fun n => ?_, ?_⟩
  · rw [getFn, h]; rfl
  · rw [getFn, h]; rfl
  · rw [getPart, h]; rfl

theorem foldl {α : Type} {f : State → α → State} (h : ∀ s x, WindowsKept p s (f s x)) (l : List α) (s : State) :
    WindowsKept p s (l.foldl f s) := by
  induction l generalizing s with
  | nil => exact refl s
  | cons x l ih => exact (h s x).trans (ih (f s x))

theorem perfFor (s : State) (y : Payer) (evt n : Nat) : WindowsKept p s (perfFor s y evt n) := by
  unfold Machine.perfFor
  split
  · unfold modStrand
    split <;> exact of_hub rfl
  · exact of_hub rfl

theorem modPart (s : State) (n : Nat) {f : Partition → Partition} (hf : ∀ x, (f x).faultAreas = x.faultAreas) :
    WindowsKept p s (modPart s n f) := by
  refine ⟨fun _ => rfl, fun _ => rfl, ?_⟩
  by_cases h : p = n
  · subst h
    rw [Machine.modPart, getPart_putPart, hf]
  · rw [getPart_modPart_other s f h]

theorem charge (s : State) (c n rcb : Nat) (m : Bool) (x : Nat) : WindowsKept p s (charge s c n rcb m x) := by
  unfold Machine.charge
  dsimp only
  refine trans ?_ (modPart _ _ ?_)
  · exact of_hub rfl
  · exact fun _ => rfl

theorem touchLines (s : State) (r : SRef) (h : Home) (lines : List Nat) (alloc : Bool) :
    WindowsKept p s (touchLines s r h lines alloc) := by
  refine foldl (fun s l => ?_) lines s
  cases h with
  | hbm =>
    refine trans ?_ (charge _ _ _ _ _ _)
    have h1 : WindowsKept p s (if (l2Has s l || !alloc) = true then s else l2Add s l) := by
      split
      · exact refl s
      · exact of_hub rfl
    refine h1.trans ?_
    generalize (if (l2Has s l || !alloc) = true then s else l2Add s l) = s1
    split
    · exact perfFor _ _ _ _
    · exact (perfFor _ _ _ _).trans ((perfFor _ _ _ _).trans (perfFor _ _ _ _))
  | second => exact (perfFor _ _ _ _).trans (charge _ _ _ _ _ _)
  | host => exact refl s
  | remote _ => exact refl s

theorem performStore (s : State) (r : SRef) (st : Strand) (a : Access) :
    WindowsKept p s (performStore s r st a .pass) := by
  obtain ⟨cells, hl⟩ := storeL1_cells (Machine.memWrite s a.pa a.size a.data.toNat) r st.part a
  have written : WindowsKept p s (Machine.storeL1 (Machine.memWrite s a.pa a.size a.data.toNat) r st.part a) := by
    rw [hl]
    exact ⟨fun _ => rfl, fun _ => rfl, rfl⟩
  exact written.trans (trans (t := putStrand (Machine.storeL1 (Machine.memWrite s a.pa a.size a.data.toNat) r st.part a) r
    (deliver st a 0 false)) (of_hub rfl) (touchLines _ _ _ _ _))

theorem flushStores (s : State) (uid : Nat) : WindowsKept p s (flushStores s uid) := by
  unfold Machine.flushStores
  split
  · exact refl s
  · refine foldl (fun s a => ?_) _ s
    split
    · split
      · exact performStore _ _ _ _
      · exact refl s
    · exact refl s

theorem dropAnswers (s : State) (part va : Nat) : WindowsKept p s (dropAnswers s part va) :=
  ⟨fun _ => rfl, fun _ => rfl, rfl⟩

theorem giveRecord (s : State) (cmd : CopyCmd) (w : Word) : WindowsKept p s (giveRecord s cmd w) := by
  unfold Machine.giveRecord
  split <;> exact of_hub rfl

theorem abandonRun (s : State) (cell ch : Nat) : WindowsKept p s (abandonRun s cell ch) := by
  unfold Machine.abandonRun
  split
  · exact refl s
  · next run _ =>
    split
    · exact trans (trans (t := setChan s cell ch none) (of_hub rfl) (foldl (fun s p => dropAnswers s _ _) _ _))
        (trans (((Released.dropPin _ _ _).trans (Released.dropPin _ _ _)).aside.recorded p) (giveRecord _ _ _))
    · exact of_hub rfl

theorem abandonCopies (s : State) (cell uid : Nat) : WindowsKept p s (abandonCopies s cell uid) :=
  ((Released.dropCommands s cell uid).aside.recorded p).trans (foldl (fun s ch => abandonRun s cell ch) _ _)

theorem giveUp (s : State) (uid part : Nat) : WindowsKept p s (giveUp s uid part) :=
  (flushStores s uid).trans (((Released.dropReads _ part).aside.recorded p).trans ((abandonCopies _ _ uid).trans
    (((Released.dropSaved _ _ part uid).trans (Released.releaseHeld _ uid)).aside.recorded p)))

theorem restartUid (s : State) (uid : Nat) : WindowsKept p s (restartUid s uid) := by
  cases h : findUid s uid with
  | none => rw [Machine.restartUid, h]; exact refl s
  | some st =>
    rw [restartUid_eq h]
    generalize hs1 : Machine.giveUp s uid st.part = s1
    have given : WindowsKept p s s1 := hs1 ▸ giveUp s uid st.part
    exact given.trans (of_hub rfl)

theorem resumeUid (s : State) (uid : Nat) (q : QFault) : WindowsKept p s (resumeUid s uid q) :=
  of_hub resumeUid_aside.1

theorem terminateUid {s : State} {uid : Nat} {st : Strand} (h : findUid s uid = some st) (cause : Nat) :
    WindowsKept st.part s (terminateUid s uid cause) := by
  rw [terminateUid_eq h]
  have counted := (giveUp (p := st.part) s uid st.part).trans
    ((Aside.countRegion (Machine.giveUp s uid st.part) (dieOf (cellOfUid s uid)) st.part st.sid.rcb 5 1).recorded _)
  generalize countRegion (Machine.giveUp s uid st.part) (dieOf (cellOfUid s uid)) st.part st.sid.rcb 5 1 = s2 at counted
  refine counted.trans ?_
  obtain ⟨-, hh, ht, -, ha, -⟩ := retire_aside s2 st true
  exact trans ⟨hh, ht, ha⟩ ((Aside.boxEnded _ _ _).recorded _)

theorem applyAction {s : State} {r : SRef} {st : Strand} {q : QFault} {place : FaultPlace} (h : Alone s r st)
    (hd : st.delivered = some ⟨q, place⟩) (a : Nat) : WindowsKept st.part s (applyAction s st.uid a) := by
  rw [applyAction_eq h hd]
  split
  · exact resumeUid _ _ _
  · split
    · exact restartUid _ _
    · exact terminateUid h.findUid _

end WindowsKept

/-! ## A fault that the host resolves (R410), and one that a handler does (R409) -/

theorem alone_of_faultAt {s : State} {r : SRef} {st : Strand} {d : Delivered} (h : FaultAt s r st d) :
    Alone s r st := by
  obtain ⟨hst, hslot, -, -, hown, -, hkeys⟩ := h
  exact ⟨hst, hslot, hown, hkeys⟩

theorem alone_mem {s : State} {r : SRef} {st : Strand} (h : Alone s r st) : st ∈ allStrands s :=
  List.mem_append_left _ (List.mem_map.mpr ⟨_, mem_of_fget h.strand, rfl⟩)

/-- The action that applies to one strand alone among all is found. -/
theorem find?_unique {α : Type} {p : α → Bool} {l : List α} {x : α} (hx : x ∈ l) (hp : p x = true)
    (h : ∀ y ∈ l, p y = true → y = x) : l.find? p = some x := by
  have hsome : (l.find? p).isSome = true := List.find?_isSome.mpr ⟨x, hx, hp⟩
  obtain ⟨y, hy⟩ := Option.isSome_iff_exists.mp hsome
  rw [hy, h y (List.mem_of_find?_eq_some hy) (List.find?_some hy)]

/-- A state that differs in what an action does not read. -/
theorem acted_of_same {s s' t : State} {r : SRef} {st : Strand} {q : QFault} {a : Nat} (h : Acted s' t r st q a)
    (hc : s'.cells = s.cells) (hk : s'.clock = s.clock) (hm : s'.mem = s.mem) (hd : s'.dies = s.dies)
    (hx : s'.ctxs = s.ctxs) (hu : (getPart s' st.part).saveUsed = (getPart s st.part).saveUsed)
    (hl : (getPart s' st.part).launches = (getPart s st.part).launches) : Acted s t r st q a := by
  unfold Acted getChan copiesLeft chansOf getChan getCell regionOf bankHeld launchOf at h ⊢
  simp only [hc, hk, hm, hd, hx, hu, hl] at h
  exact h

/-- One entry of a window resolves the fault that stands there. -/
theorem resolveEntry_at {s : State} {r : SRef} {st : Strand} {q : QFault} {k : Nat}
    (h : FaultAt s r st ⟨q, .window k⟩) :
    resolveEntry s st.part k =
      applyAction s st.uid (wbits (((getFn s st.part).window.get (Fin.ofNat 64 k)).getD 7 0) 1 0) := by
  have halone := alone_of_faultAt h
  obtain ⟨-, -, hd, honly, -⟩ := h
  unfold resolveEntry
  dsimp only
  rw [find?_unique (alone_mem halone) (by simp [hd]) fun y hy hp => ?_]
  simp only [Bool.and_eq_true, beq_iff_eq] at hp
  obtain ⟨hpart, hplace⟩ := hp
  refine honly y hy hpart ?_
  split at hplace
  · next d hd' => exact ⟨d.fault, by rw [hd', ← eq_of_beq hplace]⟩
  · cases hplace

theorem faultTailWrite_idle {s : State} {part : Nat} {tail : BitVec 32}
    (h : fnServes s part = false ∨
      ((getFn s part).faultHead - (getFn s part).faultTail).toNat < (tail - (getFn s part).faultTail).toNat) :
    exec (.faultTailWrite part tail) s = .next s := by
  rw [exec_faultTailWrite, execFaultTailWrite]
  exact if_pos (by rcases h with h | h <;> simp [h, -BitVec.toNat_sub])

/-- TAIL passes one entry. -/
theorem faultTailWrite_one {s : State} {part : Nat} {tail : BitVec 32} (hs : fnServes s part = true)
    (ht : tail = (getFn s part).faultTail + 1) (hne : (getFn s part).faultHead ≠ (getFn s part).faultTail) :
    exec (.faultTailWrite part tail) s =
      .next (resolveEntry (modFn s part fun f => { f with faultTail := tail }) part
        ((getFn s part).faultTail.toNat % 64)) := by
  have hn : (tail - (getFn s part).faultTail).toNat = 1 := by
    rw [ht, add_sub_cancel_left]; rfl
  have hroom : ¬ ((getFn s part).faultHead - (getFn s part).faultTail).toNat < 1 := by
    intro h
    refine hne (sub_eq_zero.mp (BitVec.eq_of_toNat_eq ?_))
    rw [Nat.lt_one_iff.mp h]; rfl
  rw [exec_faultTailWrite, execFaultTailWrite]
  simp only [hn, hs, hroom, Bool.not_true, decide_false, Bool.or_self, Bool.false_eq_true, if_false]
  rfl

theorem faultTailWrite_resolves {s : State} {r : SRef} {st : Strand} {q : QFault} {tail : BitVec 32}
    (hs : fnServes s st.part = true) (ht : tail = (getFn s st.part).faultTail + 1)
    (hne : (getFn s st.part).faultHead ≠ (getFn s st.part).faultTail)
    (h : FaultAt s r st ⟨q, .window ((getFn s st.part).faultTail.toNat % 64)⟩) :
    ∃ t, exec (.faultTailWrite st.part tail) s = .next t ∧ (getFn t st.part).faultTail = tail ∧
      (getFn t st.part).faultHead = (getFn s st.part).faultHead ∧
      Acted s t r st q (wbits (((getFn s st.part).window.get (Fin.ofNat 64 (getFn s st.part).faultTail.toNat)).getD 7 0)
        1 0) := by
  obtain ⟨s1, hs1⟩ : ∃ s1, s1 = modFn s st.part fun f => { f with faultTail := tail } := ⟨_, rfl⟩
  have hfn : getFn s1 st.part = { getFn s st.part with faultTail := tail } := by rw [hs1, getFn_modFn]
  have h1 : FaultAt s1 r st ⟨q, .window ((getFn s st.part).faultTail.toNat % 64)⟩ := by rw [hs1]; exact h
  have halone := alone_of_faultAt h1
  have hres := resolveEntry_at h1
  obtain ⟨-, -, hd, -⟩ := h1
  have kept := WindowsKept.applyAction halone hd
  have hk : Fin.ofNat 64 ((getFn s st.part).faultTail.toNat % 64) = Fin.ofNat 64 (getFn s st.part).faultTail.toNat :=
    Fin.ext (by simp)
  have hx := faultTailWrite_one hs ht hne
  rw [← hs1, hres, show (getFn s1 st.part).window = (getFn s st.part).window by rw [hfn], hk] at hx
  refine ⟨_, hx, by rw [(kept _).tail, hfn], by rw [(kept _).head, hfn], ?_⟩
  refine acted_of_same (acted_applyAction halone hd _) ?_ ?_ ?_ ?_ ?_ ?_ ?_ <;> rw [hs1] <;> rfl

/-! ### A handler completes -/

theorem handlerComplete_idle {s : State} (h : ∀ x ∈ allStrands s, handlerDone s x = none) :
    exec .faultHandlerComplete s = .next s := by
  have hnone : (allStrands s).find? (fun st => (handlerDone s st).isSome) = none :=
    List.find?_eq_none.mpr fun x hx => by simp [h x hx]
  rw [exec_faultHandlerComplete, execFaultHandlerComplete, hnone]

/-- The strand whose handler has completed, and where its record lies. -/
structure HandlerAt (s : State) (r : SRef) (st : Strand) (q : QFault) (home : Home) (va pa n : Nat) : Prop where
  fault : FaultAt s r st ⟨q, .area home va pa n⟩
  alone : ∀ x ∈ allStrands s, x ≠ st → handlerDone s x = none
  done : handlerDone s st = some (home, va, pa)

theorem handlerAt_of_complete {s : State} {r : SRef} {st : Strand} {q : QFault} {home : Home} {va pa n : Nat}
    {l : Launch} (h : FaultAt s r st ⟨q, .area home va pa n⟩)
    (ho : ∀ x ∈ allStrands s, x ≠ st → handlerDone s x = none) (hl : launchOf s st.part n = some l)
    (hc : l.complete = true) : HandlerAt s r st q home va pa n := by
  refine ⟨h, ho, ?_⟩
  obtain ⟨-, -, hd, -⟩ := h
  simp only [handlerDone, hd, hl, hc, if_true]

section Handler
variable {s : State} {r : SRef} {st : Strand} {q : QFault} {home : Home} {va pa n : Nat}

theorem HandlerAt.find (h : HandlerAt s r st q home va pa n) :
    (allStrands s).find? (fun st => (handlerDone s st).isSome) = some st := by
  refine find?_unique (alone_mem (alone_of_faultAt h.fault)) (by rw [h.done]; rfl) fun y hy hp => ?_
  by_contra hne
  rw [h.alone y hy hne] at hp
  cases hp

theorem HandlerAt.exec_read (h : HandlerAt s r st q home va pa n) {s' : State} {a : Nat}
    (hr : readAction s st.part home va pa = .ok (a, s')) :
    exec .faultHandlerComplete s = .next (applyAction (freeEntryAt s' st.part va) st.uid a) := by
  rw [exec_faultHandlerComplete, execFaultHandlerComplete, h.find]
  simp only [h.done, hr]

theorem HandlerAt.exec_hold (h : HandlerAt s r st q home va pa n) {e : Hold}
    (hr : readAction s st.part home va pa = .error (.hold e)) :
    exec .faultHandlerComplete s = .next (startHold s e) := by
  rw [exec_faultHandlerComplete, execFaultHandlerComplete, h.find]
  simp only [h.done, hr]

/-- The entry of the fault area is freed. -/
theorem freeEntryAt_areas (s : State) (part addr : Nat) {area : Nat} {used : List Nat}
    (h : (getPart s part).faultAreas = [(area, used)]) (h1 : area ≤ addr) (h2 : addr < area + 4096) :
    (getPart (freeEntryAt s part addr) part).faultAreas = [(area, used.filter fun i => i != (addr - area) / 64)] := by
  unfold freeEntryAt
  rw [modPart, getPart_putPart]
  simp [h, h1, h2]

theorem freeEntryAt_same (s : State) (part addr : Nat) :
    (getPart (freeEntryAt s part addr) part).saveUsed = (getPart s part).saveUsed ∧
      (getPart (freeEntryAt s part addr) part).launches = (getPart s part).launches := by
  unfold freeEntryAt
  rw [modPart, getPart_putPart]
  exact ⟨rfl, rfl⟩

/-- The read ACTION is applied, and the entry is freed. -/
theorem HandlerAt.resolved (h : HandlerAt s r st q home va pa n) {s' : State} {a : Nat}
    (hr : readAction s st.part home va pa = .ok (a, s')) (hs : s'.strands = s.strands)
    (hp : s'.hub.parts = s.hub.parts) :
    ∃ t, exec .faultHandlerComplete s = .next t ∧ Acted s' t r st q a ∧
      ∀ area used, (getPart s st.part).faultAreas = [(area, used)] → area ≤ va → va < area + 4096 →
        (getPart t st.part).faultAreas = [(area, used.filter fun i => i != (va - area) / 64)] := by
  have hfault : Alone (freeEntryAt s' st.part va) r st := (alone_of_faultAt h.fault).of_strands hs
  obtain ⟨-, -, hd, -⟩ := h.fault
  obtain ⟨hu, hl⟩ := freeEntryAt_same s' st.part va
  have hpart : getPart s' st.part = getPart s st.part := by rw [getPart, hp]; rfl
  refine ⟨applyAction (freeEntryAt s' st.part va) st.uid a, h.exec_read hr, ?_, fun area used ha h1 h2 => ?_⟩
  · exact acted_of_same (acted_applyAction hfault hd a) rfl rfl rfl rfl rfl hu hl
  · rw [(WindowsKept.applyAction hfault hd a).areas]
    exact freeEntryAt_areas _ _ _ (by rw [hpart, ha]) h1 h2

end Handler

theorem takeAnswer_parts {s : State} {q : AwayReq} {bs : List Byte} {t : State} (h : takeAnswer s q = .ok (bs, t)) :
    t.hub.parts = s.hub.parts := by
  unfold takeAnswer at h
  dsimp only at h
  split at h
  case h_2 =>
    injection h with h; injection h with _ h; subst h
    rfl
  case h_4 => split at h <;> cases h
  all_goals cases h

theorem settleLines_of_none {s : State} (h : s.hub.mixed = []) (pa n : Nat) : settleLines s pa n = s :=
  settleLines_eq_self fun l _ => by rw [h]; rfl

/-- R409 to R412. -/
theorem faultsResolved : FaultsResolved := by
  refine ⟨fun s part tail => ⟨fun h => faultTailWrite_idle (.inl h), fun h => faultTailWrite_idle (.inr h), ?_⟩,
    fun s h => handlerComplete_idle h, ?_⟩
  · rintro hs ht hne r st q h rfl
    exact faultTailWrite_resolves hs ht hne h
  · intro s r st q home va pa n l h ho hl hc
    have hat := handlerAt_of_complete h ho hl hc
    refine ⟨fun hlocal hmix => hat.resolved ?_ rfl rfl, fun hlocal => ⟨fun bs s' hread => ?_, fun e hread => ?_⟩⟩
    · simp only [readAction, hlocal, if_true, settleLines_of_none hmix]
    · exact hat.resolved (by simp only [readAction, hlocal, Bool.false_eq_true, if_false, hread])
        (Aside.takeAnswer hread).strands (takeAnswer_parts hread)
    · exact hat.exec_hold (by simp only [readAction, hlocal, Bool.false_eq_true, if_false, hread])

/-- Settles O55: the oldest queued fault goes to its handler or to the host's window, and the ACTION of a passed
entry or of a completed handler resumes, restarts or ends its strand. -/
theorem faultsDeliveredAndResolved : Obligations.FaultsDeliveredAndResolved := ⟨faultsDelivered, faultsResolved⟩

end Sys2Proof.Proofs

namespace Sys2Proof.Proofs

open Host (Outcome)
open Sys2Proof Machine Claims

/-! ## A port that goes down (R292, R309)

`PortsGoDown` asks nothing of the map of the strands. In the state below two strands stand under the key of one slot: the
slot holds `pusher`, which waits for the record of its collective, and `loader`, behind it, waits for a load through port
15. When the port goes down, the load's failure puts `loader` in the slot, `pusher` is gone, and no strand takes the record
that the claim promises it. A premise that the keys of the strands are distinct would exclude the state. -/

/-- A load of another package's memory. -/
def lostLoad : Access :=
  { id := 9, eng := .c, pos := 1, index := 0, lane := 0, kind := .load, cls := 0, va := 0x100, pa := 0x100, size := 8,
    data := 0, home := .remote 1, mtype := .normal, msa := false, repl := false, cp := .normal, acq := false, rel := false,
    rset := 0, dest := .reg 3, sext := false, op := none }

/-- The strand that pushed the collective, whose record it waits for. -/
def pusher : Strand := { uid := 1, results := [⟨5, none⟩] }

/-- The strand that waits for the load. -/
def loader : Strand := { uid := 2, accs := [lostLoad] }

/-- A collective of one member with a message on port 15. -/
def loneRun : CollRun :=
  ⟨⟨1, 0, 256, 5, 0, {}, .crun 0⟩, [], [], 0, Vector.replicate 4 0, [], [], [], [], [(3, some 15)], none, false⟩

def loneSlot : CollSlot := { group := ⟨1, 5, 0, [0], 0⟩, run := some loneRun }

def loneRef : CRef := ⟨0, 0, 0⟩

/-- Both strands under one key, with the load and the collective on port 15. -/
def doubleKey : State :=
  { State.reset with
    strands := [(0, pusher), (0, loader)]
    dies := State.reset.dies.set 0 { coll := [(0, { slots := [(0, loneSlot)] })] }
    hub := { remotes := [⟨9, 1, 15, 0⟩], portsUp := 0x8000 } }

theorem exec_portDown (port : Nat) (lost : List CRef) (s : State) :
    exec (.portDown port lost) s = execPortDown port lost s := rfl

theorem doubleKey_portDown : exec (.portDown 15 []) doubleKey = .next (dropPort doubleKey 15 []) := by
  rw [exec_portDown, execPortDown]
  exact if_pos (by decide)

/-- The slot is left with the strand that had no collective. -/
theorem doubleKey_results : (getStrand (dropPort doubleKey 15 []) ⟨0, 0⟩).map (·.results) = some [] := by
  decide +kernel

theorem lone_no_child (root rank k : Nat) : ¬ TreeChild 1 root rank k := by
  rintro ⟨j, -, hlt, -⟩
  have := Nat.two_pow_pos j
  omega

/-- Refutes O48: the clause of `PortsGoDown` on the record of an aborted collective fails in a state that holds two strands
under one key, where the failure of a request puts one strand in the place of the other. -/
theorem not_fabricAnswers : ¬ Obligations.FabricAnswers := by
  rintro ⟨-, -, h⟩
  obtain ⟨-, hup⟩ := h doubleKey 15 [] (by decide)
  obtain ⟨⟨t, ht, -, -, -, -, -, -, hends, -⟩, -⟩ := hup (by decide)
  have hslots : allSlots doubleKey = [(loneRef, loneSlot)] := by decide +kernel
  obtain ⟨-, hrecord⟩ := hends loneRef loneSlot loneRun (by decide) hslots rfl rfl
    (.inr ⟨_, List.mem_singleton.2 rfl, rfl⟩) ⟨by decide, by decide, by decide⟩ (by decide) rfl
  obtain ⟨-, -, -, -, -, -, hrecord⟩ := hrecord fun ⟨k, hk⟩ => lone_no_child _ _ k hk
  obtain ⟨u, hu, hresults⟩ := hrecord rfl (by decide) ⟨0, 0⟩ pusher rfl rfl ⟨_, List.mem_singleton.2 rfl, rfl⟩
  obtain rfl : dropPort doubleKey 15 [] = t := Outcome.next.inj (doubleKey_portDown.symm.trans ht)
  have hnone := doubleKey_results
  rw [hu, Option.map_some, Option.some.injEq, hresults] at hnone
  exact List.append_ne_nil_of_right_ne_nil _ (List.cons_ne_nil _ _) hnone

end Sys2Proof.Proofs


namespace Sys2Proof.Proofs

open Host (Outcome)
open Sys2Proof Machine Claims

/-! ## Commands that C pushes (R102, R297, R336) -/

theorem exec_pushHset (gb ga : BitVec 5) (x w r : Bool) (tag : BitVec 16) (s : State) :
    exec (.pushHset gb ga x w r tag) s = execPushHset gb ga x w r tag s := rfl

theorem exec_pushHfree (gb : BitVec 5) (tag : BitVec 16) (s : State) :
    exec (.pushHfree gb tag) s = execPushHfree gb tag s := rfl

theorem exec_pushHread (gb : BitVec 5) (tag : BitVec 16) (s : State) :
    exec (.pushHread gb tag) s = execPushHread gb tag s := rfl

theorem exec_pushGset (gb : BitVec 5) (s : State) : exec (.pushGset gb) s = execPushGset gb s := rfl

theorem exec_pushGfree (gb : BitVec 5) (s : State) : exec (.pushGfree gb) s = execPushGfree gb s := rfl

theorem exec_pushCrun (gb : BitVec 5) (s : State) : exec (.pushCrun gb) s = execPushCrun gb s := rfl

theorem latest_out (st : Strand) (l : List OutPlace) (r : Reg) : latest { st with out := l } r = latest st r :=
  latest_congr rfl (fun q => by cases q <;> rfl) r

theorem latest_results (st : Strand) (l : List OutPlace) (r : Reg) : latest { st with results := l } r = latest st r :=
  latest_congr rfl (fun q => by cases q <;> rfl) r

/-- A handle command of C enters the FIFO of the cell's copy engine and takes a place of the output FIFO (R86, R336). -/
theorem pushCopy_goes {i : Instr} {s : State} {st : Strand} {tag : BitVec 16} {mk : Strand → Act CopyOp} {op : CopyOp}
    (h : AtEngine s .c st) (hx : exec i s = pushCopy s tag mk) (hmk : mk (atIssue s st) = .ok op)
    (hau : ownsAu s s.cur.cell st.part = true) (hfifo : (getCell s s.cur.cell).fifo.length < 16)
    (hout : st.out.length < 16) (hl : inMask st .l = true → (getEng st .c).seen.lcmd ≤ surePassed st .l) :
    ∃ t u cmd, Goes i s st .c t u ∧ (getCell t s.cur.cell).fifo = (getCell s s.cur.cell).fifo ++ [cmd] ∧
      cmd.op = op ∧ cmd.tag = tag ∧ cmd.uid = st.uid ∧ cmd.part = st.part ∧ cmd.out = true ∧
      u.out = st.out ++ [⟨cmd.id, none⟩] ∧ (∀ r, latest u r = latest st r) ∧ t.mem = s.mem ∧ SameOthers .c st u := by
  obtain ⟨cmd, hcmd⟩ : ∃ c : CopyCmd, c =
      { id := s.nextId, uid := st.uid, part := st.part, index := (getEng st .c).pc, pos := (getEng st .c).passed,
        seen := (getEng st .c).seen, chan := 0, tag := tag, rcb := st.sid.rcb, out := true, op := op } := ⟨_, rfl⟩
  have hau' : ownsAu (issued s st) s.cur.cell (atIssue s st).part = true := hau
  have hl' : (!inMask (atIssue s st) .l ||
      decide ((getEng (atIssue s st) .c).seen.lcmd ≤ surePassed (atIssue s st) .l)) = true := by
    rw [Bool.or_eq_true, decide_eq_true_eq, Bool.not_eq_true']
    exact (Bool.eq_false_or_eq_true (inMask st .l)).symm.imp id hl
  have hroom : (decide ((getCell (issued s st) s.cur.cell).fifo.length < 16) &&
      decide ((atIssue s st).out.length < 16)) = true := by
    rw [Bool.and_eq_true, decide_eq_true_eq, decide_eq_true_eq]
    exact ⟨hfifo, hout⟩
  obtain ⟨t, hg, hm, hc, -⟩ := goes_of_counted h hx
    (modCell (freshId (issued s st)).2 s.cur.cell fun c => { c with fifo := c.fifo ++ [cmd] })
    (modCell (freshId (issued s st)).2 s.cur.cell fun c => { c with fifo := c.fifo ++ [cmd] })
    (st' := { atIssue s st with out := st.out ++ [⟨cmd.id, none⟩] })
    (by
      simp only [hau', check, if_true, hmk, await, hl', hroom, bind, Except.bind, hcmd]
      rfl)
    rfl
  have hfifo' : (getCell t s.cur.cell).fifo = (getCell s s.cur.cell).fifo ++ [cmd] := by
    rw [getCell, hc, modCell_cells, fget_fset_same]; rfl
  refine ⟨t, _, cmd, hg, hfifo', by rw [hcmd], by rw [hcmd], by rw [hcmd], by rw [hcmd], by rw [hcmd], rfl, fun r => ?_,
    hm, fun e he => ?_⟩
  · rw [latest_perfAdd, latest_stepPast, latest_out, latest_atIssue]
  · rw [getEng_perfAdd, getEng_stepPast_other _ _ _ _ he]; rfl

/-- Without the access unit of its cell a strand sends no handle command (R102). -/
theorem pushCopy_foreign {i : Instr} {s : State} {st : Strand} {tag : BitVec 16} {mk : Strand → Act CopyOp}
    (h : AtEngine s .c st) (hx : exec i s = pushCopy s tag mk) (hau : ownsAu s s.cur.cell st.part = false) :
    Traps i s st .c .foreign 0 := by
  refine traps_of_raiseWord h (foreignTrap 0) rfl (hx.trans (issueWith_trap h _ ?_))
  have hau' : ownsAu (issued s st) s.cur.cell (atIssue s st).part = false := hau
  unfold issued at hau'
  simp only [hau', check, Bool.false_eq_true, if_false, bind, Except.bind]
  rfl

/-- R102, R336: each handle command by the operation that it names. -/
theorem handlePushes : HandlePushes := by
  intro s st gb ga tag h hr
  refine ⟨fun x w r => ⟨?_, ?_⟩, ⟨?_, ?_⟩, ⟨?_, ?_⟩⟩
  · exact pushCopy_goes h (exec_pushHset ..) (by simp only [readG_ok (hr _), bind, Except.bind])
  · exact pushCopy_foreign h (exec_pushHset ..)
  · exact pushCopy_goes h (exec_pushHfree ..) (by simp only [readG_ok (hr _), bind, Except.bind])
  · exact pushCopy_foreign h (exec_pushHfree ..)
  · exact pushCopy_goes h (exec_pushHread ..) (by simp only [readG_ok (hr _), bind, Except.bind])
  · exact pushCopy_foreign h (exec_pushHread ..)

/-! ## Commands to the collective engine -/

/-- A charge leaves the collective engines. -/
theorem getDie_charge_coll (s : State) (c p rcb : Nat) (m : Bool) (x d : Nat) :
    (getDie (charge s c p rcb m x) d).coll = (getDie s d).coll := by
  let spend (y : Die) : Die := { y with energy := y.energy + x, share := if m then y.share else y.share - x }
  have hd : getDie (charge s c p rcb m x) d =
      (fun y => { y with regions := chargeRegions y.regions p 8 rcb x }) (getDie (modDie s (dieOf c) spend) d) :=
    getDie_map (modDie s (dieOf c) spend) _ d
  rw [hd]
  by_cases hc : d % 4 = dieOf c % 4
  · rw [← getDie_mod _ d, ← getDie_mod s d, hc, getDie_mod, getDie_mod, getDie_modDie]
  · rw [getDie_modDie_other _ _ hc]

theorem getColl_countC (s : State) (r : SRef) (d p : Nat) : getColl (countC s r) d p = getColl s d p := by
  rw [getColl, getColl]
  unfold countC chargeStrand
  split
  · rfl
  · dsimp only
    split
    · rw [getDie_charge_coll]; rfl
    · rfl

@[simp] theorem getColl_modColl (s : State) (d p : Nat) (f : CollPart → CollPart) :
    getColl (modColl s d p f) d p = f (getColl s d p) := by
  rw [getColl, modColl, putColl, getDie_modDie, fget_fset_same]; rfl

/-- A counted word of C leaves the collective engines as its body does. -/
theorem goes_of_counted_coll {i : Instr} {s : State} {st : Strand} (h : AtEngine s .c st)
    {body : Walker → Strand → State → Act State} (hx : exec i s = issueWith s Tk.none body) (s1 s2 : State)
    {st' : Strand}
    (hb : body s.cur (atIssue s st) (issued s st) =
      .ok (countC (putStrand s1 (Walker.ref s.cur) (stepPast s2 st' .c)) (Walker.ref s.cur)))
    (hE : getEng st' .c = getEng st .c) :
    ∃ t, Goes i s st .c t (perfAdd (stepPast s2 st' .c) 1 1) ∧ (∀ d p, getColl t d p = getColl s1 d p) ∧
      t.mem = s1.mem ∧ t.cells = s1.cells ∧ t.ctxs = s1.ctxs ∧ t.clock = s1.clock ∧
      ∀ k, k ≠ SRef.key (Walker.ref s.cur) → fget t.strands k = fget s1.strands k := by
  obtain ⟨t, hg, same⟩ := goes_of_counted h hx s1 s2 hb hE
  refine ⟨t, hg, fun d p => ?_, same⟩
  rw [Outcome.next.inj (hg.1.symm.trans (hx.trans (issueWith_ok h _ hb))), getColl_countC]
  rfl

/-- A command of C goes to the collective engine of the cell's die and takes a place of the result FIFO (R297, R336). -/
theorem pushColl_goes {i : Instr} {s : State} {st : Strand} {mk : Strand → Act CollOp} {op : CollOp}
    (h : AtEngine s .c st) (hx : exec i s = pushColl s mk) (hmk : mk (atIssue s st) = .ok op)
    (hroom : st.results.length < 8) :
    ∃ t u c, Goes i s st .c t u ∧ u.results = st.results ++ [⟨c.id, none⟩] ∧ c.op = op ∧ c.uid = st.uid ∧
      c.cell = s.cur.cell ∧ (getColl t (dieOf s.cur.cell) st.part).cmds =
        (getColl s (dieOf s.cur.cell) st.part).cmds ++ [c] ∧ SameElsewhere s t ∧ ∀ r, latest u r = latest st r := by
  obtain ⟨cmd, hcmd⟩ : ∃ c : CollCmd, c =
      ⟨st.uid, s.cur.cell, st.sid.rcb, s.nextId, (getEng st .c).passed, (getEng st .c).seen, op⟩ := ⟨_, rfl⟩
  obtain ⟨s1, hs1⟩ : ∃ s1, s1 = modColl (freshId (issued s st)).2 (dieOf s.cur.cell) st.part fun c =>
      { c with cmds := c.cmds ++ [cmd] } := ⟨_, rfl⟩
  have hroom' : decide ((atIssue s st).results.length < 8) = true := decide_eq_true hroom
  obtain ⟨t, hg, hcoll, hm, hc, hctx, hk, ho⟩ := goes_of_counted_coll h hx s1 s1
    (st' := { atIssue s st with results := st.results ++ [⟨cmd.id, none⟩] })
    (by
      simp only [hmk, hroom', await, if_true, bind, Except.bind, hs1, hcmd]
      rfl)
    rfl
  have hcmds : (getColl t (dieOf s.cur.cell) st.part).cmds =
      (getColl s (dieOf s.cur.cell) st.part).cmds ++ [cmd] := by
    rw [hcoll, hs1, getColl_modColl]; rfl
  have hsame : SameElsewhere s t := by
    subst hs1
    exact ⟨hm, hc, hctx, hk, fun k hne => (ho k hne).trans (issued_strands_other s st hne)⟩
  refine ⟨t, _, cmd, hg, rfl, by rw [hcmd], by rw [hcmd], by rw [hcmd], hcmds, hsame, fun r => ?_⟩
  rw [latest_perfAdd, latest_stepPast, latest_results, latest_atIssue]

/-- A ninth command waits for a place of the result FIFO (R297). -/
theorem pushColl_waits {i : Instr} {s : State} {st : Strand} {mk : Strand → Act CollOp} {op : CollOp}
    (h : AtEngine s .c st) (hx : exec i s = pushColl s mk) (hmk : mk (atIssue s st) = .ok op)
    (hfull : 8 ≤ st.results.length) : exec i s = .next s := by
  refine hx.trans (issueWith_stall h _ ?_)
  have hfull' : decide ((atIssue s st).results.length < 8) = false := decide_eq_false (Nat.not_lt.mpr hfull)
  simp only [hmk, hfull', await, Bool.false_eq_true, if_false, bind, Except.bind]
  rfl

/-- R297, R336: each command by the operation that it names. -/
theorem collectivePushes : CollectivePushes := by
  intro s st gb h hr
  have hset : (do let a ← readG (atIssue s st) 0 gb; .ok (.gset a) : Act CollOp) = .ok (.gset (gNow st gb)) := by
    simp only [readG_ok hr, bind, Except.bind]
  have hfree : (do let a ← readG (atIssue s st) 0 gb; .ok (.gfree (a.setWidth 4)) : Act CollOp) =
      .ok (.gfree ((gNow st gb).setWidth 4)) := by
    simp only [readG_ok hr, bind, Except.bind]
  have hrun : (do let a ← readG (atIssue s st) 0 gb; .ok (.crun a) : Act CollOp) = .ok (.crun (gNow st gb)) := by
    simp only [readG_ok hr, bind, Except.bind]
  exact ⟨⟨pushColl_goes h (exec_pushGset ..) hset, pushColl_waits h (exec_pushGset ..) hset⟩,
    ⟨pushColl_goes h (exec_pushGfree ..) hfree, pushColl_waits h (exec_pushGfree ..) hfree⟩,
    ⟨pushColl_goes h (exec_pushCrun ..) hrun, pushColl_waits h (exec_pushCrun ..) hrun⟩⟩

/-- Settles O38: the handle commands go to the copy engine, the collective ones to the collective engine. -/
theorem commandPushes : Obligations.CommandPushes := ⟨handlePushes, collectivePushes⟩

end Sys2Proof.Proofs


namespace Sys2Proof.Proofs

open Host (Outcome)
open Sys2Proof Machine Claims

/-! ## Words of L that take tokens (R36, R114) -/

/-- The state that the body of a word receives once its tokens are taken. -/
def issuedWith (s : State) (st : Strand) (T : Tokens) : State :=
  putStrand { s with freeCount := s.freeCount + 1 } (Walker.ref s.cur) (reading s st T st.lq)

/-- The strand and the state that the body of a word of L leaves, and the word's completion with them. -/
theorem goes_of_issueL {i : Instr} {s : State} {st : Strand} (h : AtEngine s .l st) {tk : Tk}
    (htk : TokensReady st .l tk) {body : SRef → Strand → State → Act (Strand × State)}
    (hx : exec i s = issueL s tk body) {P : Strand → State → Prop}
    (hb : ∀ T, ∃ st' s', body (Walker.ref s.cur) (reading s st T st.lq) (issuedWith s st T) = .ok (st', s') ∧
      P st' s' ∧ ∀ e, getEng st' e = getEng st e) :
    ∃ st' s', P st' s' ∧ Goes i s st .l (putStrand s' (Walker.ref s.cur) (stepPast s' st' .l)) (stepPast s' st' .l) ∧
      SameOthers .l st (stepPast s' st' .l) := by
  obtain ⟨T, hT⟩ := takeTokens_reading (s := s) htk
  obtain ⟨st', s', hbody, hP, hE⟩ := hb T
  have hlean : (!(tk.pbp || tk.pbn) || (reading s st T st.lq).lean.isNone) = true := by
    by_cases hpop : tk.pbp = true ∨ tk.pbn = true
    · rw [show (reading s st T st.lq).lean = none from htk.2.2.2.2 rfl hpop]; simp
    · rw [not_or, Bool.not_eq_true, Bool.not_eq_true] at hpop
      rw [hpop.1, hpop.2]; rfl
  have hrun : exec i s = .next (putStrand s' (Walker.ref s.cur) (stepPast s' st' .l)) := by
    unfold issuedWith at hbody
    rw [hx, issueL, issueWith_eq h, hT]
    simp only [bind, Except.bind, await, hlean, if_true]
    rw [hbody]
  refine ⟨st', s', hP, ⟨hrun, getStrand_putStrand _ _ _, ?_, ?_⟩, fun e he => ?_⟩
  · rw [getEng_stepPast_pc, hE]
  · rw [getEng_stepPast_passed, hE]
  · rw [getEng_stepPast_other _ _ _ _ he, hE]

section
variable {s : State} {st : Strand} {T : Tokens} {lq : List LqEntry}

theorem readA_reading {n : BitVec 4} (h : Readable st (.a n)) (salt : Nat) :
    readA (reading s st T lq) salt n = .ok (aNow st n) := by
  rw [readA, readReg_reading h]; rfl

theorem readSd_reading {n : BitVec 4} (h : Readable st (.sd n)) (salt : Nat) :
    readSd (reading s st T lq) .l salt n = .ok (sdNow st n) := by
  rw [readSd, readReg_reading h]; rfl

/-- The waits of a read of scratchpad do not depend on what the word has taken (R120). -/
theorem awaitStores_reading {gs : List Seg} (h : ReadOk st gs) :
    awaitStores (reading s st T lq) (getEng st .l).seen (getEng st .l).passed gs = .ok () := h

/-- Translation at issue. -/
theorem translate_issuedWith {u : Use} {ea : Word} {x : Xlat} (hm : Maps s st u ea x) (T : Tokens) :
    ∃ s', translate (issuedWith s st T) (dieOf s.cur.cell) (some s.cur.cell) st.part u ea = .ok (x, s') ∧
      s'.mem = s.mem ∧ s'.nextId = s.nextId := by
  obtain ⟨s1, h1⟩ := hm
  obtain ⟨hmem, -, -, -, -, -, -, hid⟩ := translate_same h1
  have hw := translate_withStrands s (issuedWith s st T).strands (s.freeCount + 1) (dieOf s.cur.cell)
    (some s.cur.cell) st.part u ea
  rw [h1] at hw
  exact ⟨_, hw, hmem, hid⟩

end

/-! ## `ldmq` (R124) -/

/-- The access that `ldmq` issues, for a place of LQ of its number (R124). -/
def lqAccess (st : Strand) (id : Nat) (oc : BitVec 4) (cp : Cp) (aq : Bool) (x : Xlat) (ea : Word) (n : Nat) : Access :=
  { newAccess st .l id 0 .load oc cp x ea n with acq := aq, dest := .lq id }

/-- The place of LQ that a load with this number will fill. -/
def lqPlace (id : Nat) : LqEntry := { data := 0, filled := false, spec := false, id := id }

/-- The bytes that `ldmq` reads: an element, or a row. -/
def loadSize (sz : Option Sz) : Nat := match sz with | some z => Sz.bytes z | none => 512

/-- `ldmq` as a word of L, its size named. -/
theorem exec_ldmq (tk : Tk) (sz : Option Sz) (oc : BitVec 4) (cp : Cp) (aq : Bool) (base : BitVec 4) (off : BitVec 18)
    (s : State) : exec (.ldmq tk sz oc cp aq base off) s = issueL s tk (fun r st s' => do
      let a ← readA st 0 base
      alignedTo (ea64 a off) (loadSize sz)
      let (x, s') ← translate s' (dieOf r.cell) (some r.cell) st.part (if sz.isSome then .elemRead else .rowRead)
        (ea64 a off)
      await (!((pteType x.leaf.pte == .device || pteType x.leaf.pte == .ordered) && st.lean.isSome))
      let (id, s') := freshId s'
      let st' ← pushLq st [{ data := 0, filled := false, spec := st.lean.isSome, id := id }]
      .ok ({ st' with accs := st'.accs ++ [lqAccess st id oc cp aq x (ea64 a off) (loadSize sz)] }, s')) := rfl

/-- R124: `ldmq` issues its access, and the place of its data is kept in LQ. -/
theorem ldmq_issues {s : State} {st : Strand} {tk : Tk} {sz : Option Sz} (oc : BitVec 4) (cp : Cp) (aq : Bool)
    {base : BitVec 4} {off : BitVec 18} {x : Xlat} (h : AtEngine s .l st) (htk : TokensReady st .l tk)
    (hb : Readable st (.a base)) (hroom : st.lq.length < 8) (hlean : st.lean = none) {ea : Word}
    (hea : aNow st base + off.signExtend 64 = ea) (halign : ea.toNat % loadSize sz = 0)
    (hm : Maps s st (if sz.isSome then .elemRead else .rowRead) ea x) :
    ∃ t u, Goes (.ldmq tk sz oc cp aq base off) s st .l t u ∧
      u.accs = st.accs ++ [lqAccess st s.nextId oc cp aq x ea (loadSize sz)] ∧ u.lq = st.lq ++ [lqPlace s.nextId] ∧
      t.mem = s.mem ∧ (∀ r, latest u r = latest st r) ∧ SameOthers .l st u := by
  subst hea
  obtain ⟨st', s', ⟨⟨T, hst'⟩, hmem⟩, hg, ho⟩ := goes_of_issueL h htk (exec_ldmq tk sz oc cp aq base off s)
    (P := fun st' s' => (∃ T, st' = { reading s st T (st.lq ++ [lqPlace s.nextId]) with
      accs := st.accs ++ [lqAccess st s.nextId oc cp aq x (aNow st base + off.signExtend 64) (loadSize sz)] }) ∧
      s'.mem = s.mem)
    (fun T => by
      obtain ⟨s1, h1, hmem, hid⟩ := translate_issuedWith hm T
      refine ⟨_, (freshId s1).2, ?_, ⟨⟨T, rfl⟩, hmem⟩, fun _ => rfl⟩
      have hlean' : (reading s st T st.lq).lean.isSome = false :=
        Option.isSome_eq_false_iff.mpr (Option.isNone_iff_eq_none.mpr hlean)
      have hroom' : decide ((reading s st T st.lq).lq.length + 1 ≤ 8) = true := decide_eq_true hroom
      have halign' : alignedTo (ea64 (aNow st base) off) (loadSize sz) = .ok () := by
        simp only [alignedTo, ea64, halign, check, decide_true, if_true]
      simp only [readA_reading hb, bind, Except.bind, halign']
      rw [show translate (issuedWith s st T) (dieOf (Walker.ref s.cur).cell) (some (Walker.ref s.cur).cell)
        (reading s st T st.lq).part (if sz.isSome then .elemRead else .rowRead) (ea64 (aNow st base) off) = .ok (x, s1)
        from h1]
      simp only [hlean', Bool.and_false, Bool.not_false, await, if_true, pushLq, freshId, hid,
        List.length_singleton, hroom', bind, Except.bind]
      rfl)
  subst hst'
  refine ⟨_, _, hg, rfl, rfl, hmem, fun r => ?_, ho⟩
  rw [latest_stepPast, latest_accs, latest_reading]

/-- R124: the access of `ldmq` and the place of LQ that it will fill. -/
theorem memoryLoads : MemoryLoads := by
  intro s st tk sz oc cp aq base off x h htk hb hroom hlean ea n halign hm
  obtain ⟨t, u, hg, haccs, hlq, hmem, hl, ho⟩ := ldmq_issues oc cp aq h htk hb hroom hlean rfl halign hm
  exact ⟨t, u, _, _, hg, haccs, rfl, rfl, rfl, rfl, rfl, rfl, hlq, rfl, rfl, hmem, hl, ho⟩

/-! ## What reads of scratchpad leave (R109, R415, R438) -/

/-- A log entry changes logs and messages: the dies and the hub. -/
theorem addLog_eq (s : State) (d : Nat) (e : List Word) :
    ∃ dies hub, addLog s d e = { s with dies := dies, hub := hub } := by
  have set : ∀ (s : State) l, ∃ dies hub, setLog s d l = { s with dies := dies, hub := hub } := fun s l => by
    unfold setLog
    split
    · exact ⟨_, s.hub, rfl⟩
    · exact ⟨s.dies, _, rfl⟩
  have drain : ∃ dies hub, drainLog s d = { s with dies := dies, hub := hub } := by
    unfold drainLog
    split
    · exact ⟨s.dies, s.hub, rfl⟩
    · obtain ⟨dies, hub, h⟩ := set s _
      rw [h]
      exact ⟨dies, _, rfl⟩
  have send : ∀ s : State, ∃ dies hub, sendMsix s 0 3 = { s with dies := dies, hub := hub } := fun s =>
    ⟨s.dies, _, rfl⟩
  obtain ⟨dies, hub, hs⟩ : ∃ dies hub, (if 4096 ≤ (logOf s d).length then drainLog s d else s) =
      { s with dies := dies, hub := hub } := by
    split
    · exact drain
    · exact ⟨s.dies, s.hub, rfl⟩
  unfold addLog
  dsimp only
  rw [hs]
  obtain ⟨dies', hub', hl⟩ := set { s with dies := dies, hub := hub } (logOf { s with dies := dies, hub := hub } d ++ [e])
  rw [hl]
  split
  · obtain ⟨dies'', hub'', hm⟩ := send { s with dies := dies', hub := hub' }
    exact ⟨dies'', hub'', hm⟩
  · exact ⟨dies', hub', rfl⟩

theorem dataAsWas_refl (s : State) : DataAsWas s s := ⟨rfl, fun _ => ⟨rfl, rfl⟩⟩

theorem dataAsWas_trans {s t u : State} (h : DataAsWas s t) (k : DataAsWas t u) : DataAsWas s u :=
  ⟨k.1.trans h.1, fun c => ⟨(k.2 c).1.trans (h.2 c).1, (k.2 c).2.trans (h.2 c).2⟩⟩

theorem dataAsWas_of_same {s t : State} (hm : t.mem = s.mem) (hc : t.cells = s.cells) : DataAsWas s t :=
  ⟨hm, fun c => by unfold getCell; rw [hc]; exact ⟨rfl, rfl⟩⟩

theorem getCell_modCell (s : State) (c k : Nat) (f : Cell → Cell) :
    getCell (modCell s c f) k = if k = c then f (getCell s c) else getCell s k := by
  by_cases h : k = c
  · subst h; simp [modCell]
  · simp [getCell, modCell_cells, fget_fset_other _ _ _ _ h, h]

/-- A change of a cell that leaves its scratchpad. -/
theorem dataAsWas_modCell (s : State) (c : Nat) {f : Cell → Cell}
    (hf : ∀ x, (f x).spm = x.spm ∧ (f x).spmPoison = x.spmPoison) : DataAsWas s (modCell s c f) := by
  refine ⟨rfl, fun k => ?_⟩
  rw [getCell_modCell]
  split
  · next h => rw [h]; exact hf _
  · exact ⟨rfl, rfl⟩

theorem dataAsWas_foldl {α : Type} {f : State → α → State} (h : ∀ s x, DataAsWas s (f s x)) (l : List α) (s : State) :
    DataAsWas s (l.foldl f s) := by
  induction l generalizing s with
  | nil => exact dataAsWas_refl s
  | cons x l ih => exact dataAsWas_trans (h s x) (ih _)

/-- A read that meets errors not yet known logs them and changes no data (R124, R415). -/
theorem dataAsWas_noteRows (s : State) (r : SRef) (part : Nat) (e : Eng) (gs : List Seg) :
    DataAsWas s (noteRows s r part e gs) := by
  refine dataAsWas_foldl (fun s row => ?_) _ s
  refine dataAsWas_trans (dataAsWas_modCell s r.cell
    (f := fun c => { c with spmFresh := c.spmFresh.filter (· != row) }) fun _ => ⟨rfl, rfl⟩) ?_
  obtain ⟨dies, hub, hl⟩ := addLog_eq (clearFresh s (.row r.cell row)) (dieOf r.cell)
    (logEntry s (Cause.code .uncorrectable) 1 part r.cell (Eng.code e) 0 none [])
  rw [hl]
  exact dataAsWas_of_same rfl rfl

theorem dataAsWas_chargeStrand (s : State) (r : SRef) (x : Nat) : DataAsWas s (chargeStrand s r x) :=
  dataAsWas_of_same (chargeStrand_mem ..) (chargeStrand_cells ..)

theorem dataAsWas_readRows (s : State) (r : SRef) (st : Strand) (gs : List Seg) : DataAsWas s (readRows s r st gs) :=
  dataAsWas_trans (dataAsWas_noteRows s r st.part .l gs) (dataAsWas_chargeStrand ..)

theorem dataAsWas_issuedWith (s : State) (st : Strand) (T : Tokens) : DataAsWas s (issuedWith s st T) :=
  dataAsWas_of_same rfl rfl

/-- The checks of R109 rest on the cells alone. -/
theorem checkSegs_congr {s t : State} (h : t.cells = s.cells) (cell part : Nat) (gs : List Seg) :
    checkSegs t cell part gs = checkSegs s cell part gs := by
  have hf : ∀ g, segFault t cell part g = segFault s cell part g := fun g => by
    unfold segFault getCell; rw [h]
  induction gs with
  | nil => rfl
  | cons g gs ih => simp only [checkSegs, hf, ih]

theorem checkSegs_issuedWith {s : State} {st : Strand} {gs : List Seg} (h : SpmOk s st gs) (T : Tokens) :
    checkSegs (issuedWith s st T) s.cur.cell st.part gs = .ok () :=
  (checkSegs_congr (s := s) (t := issuedWith s st T) rfl _ _ _).trans h

/-! ## `omfill` (R127, R220) -/

theorem exec_omfill (tk : Tk) (d : BitVec 5) (sd base : BitVec 4) (off : BitVec 18) (s : State) :
    exec (.omfill tk d sd base off) s = execOmfill tk d sd base off s := rfl

theorem exec_omfillComplete (r : SRef) (n : Nat) (s : State) :
    exec (.omfillComplete r n) s = execOmfillComplete r n s := rfl

@[simp] theorem getOm_putOm (st : Strand) (n : BitVec 5) (x : OmSlot) : getOm (putOm st n x) n = x :=
  vget_set_same _ _ _ n.toFin.isLt

/-- A held slot takes a fill, and a filled one is refilled (R220). -/
theorem fillState_held {st : Strand} (n : BitVec 5) {x : OmSlot} (hl : st.lean = none) (hn : x.state ≠ .notHeld)
    (hs : x.state ≠ .speculative) :
    fillState st n x = .ok (if x.state = .filled then .refilling else x.state) := by
  unfold fillState
  rw [hl]
  simp only [Option.isSome_none, Bool.false_eq_true, if_false]
  cases hx : x.state with
  | notHeld => exact absurd hx hn
  | speculative => exact absurd hx hs
  | filled => rfl
  | refilling => rfl
  | claimed => rfl

/-- The fill of a word `omfill` at issue (R127). -/
def startedFill (s : State) (st : Strand) (T : Tokens) (d : BitVec 5) (sd base : BitVec 4) (off : BitVec 18) : Fill :=
  let ea := aNow st base + off.signExtend 64 + BitVec.ofNat 64 (sdBase (sdNow st sd))
  ⟨d, (getEng st .l).passed, filledSlot (issuedWith s st T) s.cur.cell (sdNow st sd) (fillRows (sdNow st sd) ea)
    (fillScales (sdNow st sd)), false, false⟩

/-- The strand with the fill of a slot that becomes `x`. -/
def filling (s : State) (st : Strand) (T : Tokens) (d : BitVec 5) (sd base : BitVec 4) (off : BitVec 18) (x : OmSlot) :
    Strand :=
  { putOm (reading s st T st.lq) d x with fills := st.fills ++ [startedFill s st T d sd base off] }

theorem latest_filling {s : State} {st : Strand} {T : Tokens} {d : BitVec 5} {sd base : BitVec 4} {off : BitVec 18}
    {x : OmSlot} (r : Reg) : latest (filling s st T d sd base off x) r = latest st r :=
  latest_congr rfl (fun q => by cases q <;> rfl) r

/-- R127, R220: the fill that `omfill` starts. -/
theorem omfill_starts {s : State} {st : Strand} {tk : Tk} {d : BitVec 5} {sd base : BitVec 4} {off : BitVec 18}
    (h : AtEngine s .l st) (htk : TokensReady st .l tk) (hb : Readable st (.a base)) (hsd : Readable st (.sd sd))
    (hlean : st.lean = none) (hok : descOk (sdNow st sd) = true) (hheld : (getOm st d).state ≠ .notHeld)
    (hspec : (getOm st d).state ≠ .speculative) (hphys : (getOm st d).phys ≠ none) {gs : List Seg}
    (hgs : gs = fillRows (sdNow st sd) (aNow st base + off.signExtend 64 + BitVec.ofNat 64 (sdBase (sdNow st sd))) ++
      fillScales (sdNow st sd)) (hspm : SpmOk s st gs) (hread : ReadOk st gs) :
    ∃ t u f, Goes (.omfill tk d sd base off) s st .l t u ∧ u.fills = st.fills ++ [f] ∧ f.om = d ∧ f.dropped = false ∧
      f.slot.desc = sdNow st sd ∧ (getOm u d).phys = (getOm st d).phys ∧
      (getOm u d).state = (if (getOm st d).state = .filled then .refilling else (getOm st d).state) ∧
      DataAsWas s t ∧ ∀ r, latest u r = latest st r := by
  obtain ⟨x, hx⟩ : ∃ x : OmSlot, x = { getOm st d with
    state := if (getOm st d).state = .filled then .refilling else (getOm st d).state } := ⟨_, rfl⟩
  obtain ⟨st', s', ⟨⟨T, hst'⟩, hdata⟩, hg, -⟩ := goes_of_issueL h htk (exec_omfill tk d sd base off s)
    (P := fun st' s' => (∃ T, st' = filling s st T d sd base off x) ∧ DataAsWas s s')
    (fun T => by
      refine ⟨filling s st T d sd base off x, chargeStrand
        (readRows (issuedWith s st T) (Walker.ref s.cur) (filling s st T d sd base off x) gs) (Walker.ref s.cur)
        (centiNj (150 * (((gs.map (·.len)).sum + 511) / 512))), ?_, ⟨⟨T, rfl⟩, dataAsWas_trans
          (dataAsWas_issuedWith s st T) (dataAsWas_trans (dataAsWas_readRows _ _ _ _) (dataAsWas_chargeStrand _ _ _))⟩,
        fun _ => rfl⟩
      have hphys' : (getOm (reading s st T st.lq) d).phys.isSome = true := Option.isSome_iff_ne_none.mpr hphys
      have hlean' : (reading s st T st.lq).lean.isSome = false :=
        Option.isSome_eq_false_iff.mpr (Option.isNone_iff_eq_none.mpr hlean)
      have hcheck : checkSegs (issuedWith s st T) (Walker.ref s.cur).cell (reading s st T st.lq).part gs = .ok () :=
        checkSegs_issuedWith hspm T
      have hwait : awaitStores (reading s st T st.lq) (getEng (reading s st T st.lq) .l).seen
        (getEng (reading s st T st.lq) .l).passed gs = .ok () := hread
      have hfill : fillState (reading s st T st.lq) d (getOm (reading s st T st.lq) d) = .ok x.state :=
        (fillState_held d hlean hheld hspec).trans (by rw [hx])
      simp only [readA_reading hb, readSd_reading hsd, hok, check, if_true, bind, Except.bind, ea64, ← hgs, hcheck,
        hfill, await, hphys', hwait, hlean']
      rw [hx]
      rfl)
  subst hst'
  refine ⟨_, _, startedFill s st T d sd base off, hg, rfl, rfl, rfl, rfl, ?_, ?_, hdata, fun r => ?_⟩
  · exact (congrArg OmSlot.phys (getOm_putOm _ d x)).trans (by rw [hx])
  · exact (congrArg OmSlot.state (getOm_putOm _ d x)).trans (by rw [hx])
  · rw [latest_stepPast, latest_filling]

/-- R220: the oldest fill of a name completes; no other of its fills is under way. -/
theorem omfill_completes {s : State} {r : SRef} {st : Strand} {n : Nat} {f : Fill} (hst : getStrand s r = some st)
    (hf : st.fills.find? (fun f => f.om == BitVec.ofNat 5 n) = some f) (hd : f.dropped = false) (hs : f.spec = false)
    (hlast : ∀ g ∈ st.fills.erase f, g.om = BitVec.ofNat 5 n → g.dropped = true) :
    exec (.omfillComplete r n) s = .next (putStrand s r (putOm { st with fills := st.fills.erase f } (BitVec.ofNat 5 n)
      { f.slot with state := .filled, phys := (getOm st (BitVec.ofNat 5 n)).phys })) := by
  have hmore : ((st.fills.erase f).any fun g => g.om == BitVec.ofNat 5 n && !g.dropped) = false := by
    rw [List.any_eq_false]
    intro g hg
    rw [Bool.and_eq_true, beq_iff_eq, not_and]
    intro hom
    rw [hlast g hg hom]; simp
  rw [exec_omfillComplete, execOmfillComplete]
  simp only [hst, hf, hd, hs, hmore, Bool.false_eq_true, if_false]
  rfl

/-- R127, R220: `omfill`, and the completion of a fill. -/
theorem slotFills : SlotFills := by
  refine ⟨?_, ?_⟩
  · intro s st tk d sd base off h htk hb hsd hlean hok hheld hspec hphys ea gs hspm hread
    exact omfill_starts h htk hb hsd hlean hok hheld hspec hphys rfl hspm hread
  · intro s r st n f hst _ hf hd hs hlast
    refine ⟨_, _, omfill_completes hst hf hd hs hlast, getStrand_putStrand _ _ _, rfl, ?_⟩
    simp only [getOm_putOm, putStrand_mem, and_self]

/-! ## Row-pointer streams (R128) -/

theorem exec_rps (tk : Tk) (toC toM dbl : Bool) (cnt base : BitVec 4) (off : BitVec 18) (s : State) :
    exec (.rps tk toC toM dbl cnt base off) s = execRps tk toC toM dbl cnt base off s := rfl

theorem exec_rpsPush (s : State) : exec .rpsPush s = execRpsPush s := rfl

/-- No row that is read is poisoned (R415). -/
theorem checkRows_ok {s : State} {cell : Nat} (addr : Nat) {gs : List Seg} (h : spmPoisoned s cell gs = false) :
    checkRows s cell addr gs = .ok () := by
  have hnone : (gs.flatMap segRows).find? (getCell s cell).spmPoison.contains = none := by
    rw [List.find?_eq_none]
    intro row hrow hp
    obtain ⟨g, hg, hr⟩ := List.mem_flatMap.mp hrow
    have hne : (getCell s cell).spmPoison.isEmpty = false := by
      rw [List.isEmpty_eq_false_iff]
      exact List.ne_nil_of_mem (List.contains_iff_mem.mp hp)
    rw [spmPoisoned] at h
    simp only [hne, Bool.not_false, Bool.true_and, List.any_eq_false] at h
    exact h g hg (List.any_eq_true.mpr ⟨row, hr, hp⟩)
  rw [checkRows, hnone]

/-- The stream that `rps` starts at `ea` over `n` rows: the first pointer is read, the others are to come. -/
def rowStream (s : State) (st : Strand) (ea e n : Nat) (toC toM : Bool) : RpsRun :=
  ⟨(getEng st .l).pc, (getEng st .l).passed, ea + e, e, spmBytes s ea e,
    (List.range n).map fun j => spmBytes s (ea + e * (j + 1)) e, toC, toM⟩

/-- The strand with a stream that runs. -/
def streaming (s : State) (st : Strand) (T : Tokens) (run : RpsRun) : Strand :=
  { reading s st T st.lq with rps := some run }

theorem ptrSegs_read (f : Seg → Nat) (ea e n : Nat) :
    ((ptrSegs ea e (n + 1)).map f).headD 0 = f ⟨ea, e⟩ ∧
      ((ptrSegs ea e (n + 1)).map f).drop 1 = (List.range n).map fun j => f ⟨ea + e * (j + 1), e⟩ := by
  simp [ptrSegs, List.range_succ_eq_map, Function.comp_def]

/-- R128: a stream of at least one row starts when none runs. -/
theorem startRps_ok {s : State} {st : Strand} {dbl : Bool} (toC toM : Bool) {m ea : Word} {e : Nat}
    (he : e = if dbl then 8 else 4) (hrps : st.rps = none) (halign : ea.toNat % e = 0) (hm : 0 < m.toNat)
    (hspm : SpmOk s st [⟨ea.toNat, (m.toNat + 1) * e⟩]) (hread : ReadOk st (ptrSegs ea.toNat e (m.toNat + 1)))
    (hpois : spmPoisoned s s.cur.cell (ptrSegs ea.toNat e (m.toNat + 1)) = false) (T : Tokens) :
    startRps (issuedWith s st T) (Walker.ref s.cur) (reading s st T st.lq) (getEng st .l).pc (getEng st .l).passed
      (getEng st .l).seen dbl toC toM m ea =
      .ok (streaming s st T (rowStream s st ea.toNat e m.toNat toC toM),
        chargeRows (issuedWith s st T) (Walker.ref s.cur) [⟨ea.toNat, (m.toNat + 1) * e⟩]) := by
  have hm0 : m ≠ 0 := fun k => by rw [k] at hm; exact Nat.lt_irrefl 0 hm
  have hrps' : (reading s st T st.lq).rps.isNone = true := by rw [Option.isNone_iff_eq_none]; exact hrps
  obtain ⟨hhead, htail⟩ := ptrSegs_read (spmRead (issuedWith s st T) s.cur.cell) ea.toNat e m.toNat
  unfold startRps
  subst he
  simp only [halign, beq_self_eq_true, check, if_true, bind, Except.bind]
  rw [show checkSegs (issuedWith s st T) (Walker.ref s.cur).cell (reading s st T st.lq).part _ = .ok () from
    checkSegs_issuedWith hspm T]
  simp only [hrps', await, if_true]
  rw [show awaitStores (reading s st T st.lq) _ _ _ = .ok () from hread]
  simp only []
  rw [show checkRows (issuedWith s st T) (Walker.ref s.cur).cell _ _ = .ok () from
    checkRows_ok (s := issuedWith s st T) _ hpois]
  simp only [if_neg hm0, show (Walker.ref s.cur).cell = s.cur.cell from rfl, hhead, htail]
  rfl

/-- R128: `rps` reads its pointers and starts the stream of their differences. -/
theorem rps_starts {s : State} {st : Strand} {tk : Tk} {toC toM dbl : Bool} {cnt base : BitVec 4} {off : BitVec 18}
    (h : AtEngine s .l st) (htk : TokensReady st .l tk) (hc : Readable st (.a cnt)) (hb : Readable st (.a base))
    (hlean : st.lean = none) (hrps : st.rps = none) {e ea : Nat} (he : e = if dbl then 8 else 4)
    (hea : ea = (aNow st base + off.signExtend 64).toNat) (halign : ea % e = 0) (hm : 0 < (aNow st cnt).toNat)
    (hspm : SpmOk s st [⟨ea, ((aNow st cnt).toNat + 1) * e⟩])
    (hread : ReadOk st (ptrSegs ea e ((aNow st cnt).toNat + 1)))
    (hpois : spmPoisoned s s.cur.cell (ptrSegs ea e ((aNow st cnt).toNat + 1)) = false) :
    ∃ t u, Goes (.rps tk toC toM dbl cnt base off) s st .l t u ∧
      u.rps = some (rowStream s st ea e (aNow st cnt).toNat toC toM) ∧ DataAsWas s t := by
  subst hea
  obtain ⟨st', s', ⟨⟨T, hst'⟩, hdata⟩, hg, -⟩ := goes_of_issueL h htk (exec_rps tk toC toM dbl cnt base off s)
    (P := fun st' s' => (∃ T, st' = streaming s st T (rowStream s st
      (aNow st base + off.signExtend 64).toNat e (aNow st cnt).toNat toC toM)) ∧ DataAsWas s s')
    (fun T => by
      refine ⟨_, chargeRows (issuedWith s st T) (Walker.ref s.cur)
        [⟨(aNow st base + off.signExtend 64).toNat, ((aNow st cnt).toNat + 1) * e⟩], ?_, ⟨⟨T, rfl⟩,
        dataAsWas_trans (dataAsWas_issuedWith s st T) (dataAsWas_chargeStrand _ _ _)⟩, fun _ => rfl⟩
      simp only [readA_reading hc, readA_reading hb, bind, Except.bind,
        show (reading s st T st.lq).lean = none from hlean]
      exact startRps_ok toC toM he hrps halign hm hspm hread hpois T)
  subst hst'
  exact ⟨_, _, hg, rfl, hdata⟩

/-- R128: the next difference of a stream enters RPQ. -/
theorem rpsPush_pushes {s : State} {st : Strand} {run : RpsRun} {p : Nat} {rest : List Nat}
    (hst : getStrand s (Walker.ref s.cur) = some st) (hrun : st.rps = some run) (hp : run.ptrs = p :: rest)
    (hle : run.prev ≤ p) (hroom : st.rpq.length < 16) :
    exec .rpsPush s = .next (putStrand s (Walker.ref s.cur)
      { st with rpq := st.rpq ++ [⟨BitVec.ofNat 64 (p - run.prev), rest.isEmpty, run.toC, run.toM⟩],
                rps := if rest.isEmpty then none
                  else some { run with prev := p, ptrs := rest, place := run.place + run.step } }) := by
  rw [exec_rpsPush, execRpsPush]
  simp only [hst, hrun, hp, Nat.not_lt.mpr hle, Nat.not_le.mpr hroom, if_false]

/-! ## Prefetch (R108) -/

theorem exec_pf (tk : Tk) (f : PfForm) (base : BitVec 4) (off : BitVec 18) (s : State) :
    exec (.pf tk f base off) s = execPf tk f base off s := rfl

/-- The prefetches that wait on the cell of the current walker. -/
def prefetches (s : State) : List Prefetch := (getCell s s.cur.cell).prefetch

/-- R108: a prefetch enters the queue of its cell when it has room. -/
theorem pf_enters {s : State} {st : Strand} {tk : Tk} (f : PfForm) {base : BitVec 4} (off : BitVec 18)
    (h : AtEngine s .l st) (htk : TokensReady st .l tk) (hb : Readable st (.a base)) :
    ∃ t u, Goes (.pf tk f base off) s st .l t u ∧ u.lq = st.lq ∧ u.accs = st.accs ∧ t.mem = s.mem ∧
      (∀ r, latest u r = latest st r) ∧ prefetches t = if (prefetches s).length < 8 then
        prefetches s ++ [⟨Walker.ref s.cur, st.uid, st.part, aNow st base + off.signExtend 64, PfForm.lines f⟩]
        else prefetches s := by
  obtain ⟨p, hp⟩ : ∃ p : Prefetch,
    p = ⟨Walker.ref s.cur, st.uid, st.part, aNow st base + off.signExtend 64, PfForm.lines f⟩ := ⟨_, rfl⟩
  obtain ⟨st', s', ⟨⟨T, hst'⟩, hmem, hq⟩, hg, -⟩ := goes_of_issueL h htk (exec_pf tk f base off s)
    (P := fun st' s' => (∃ T, st' = reading s st T st.lq) ∧ s'.mem = s.mem ∧
      prefetches s' = if (prefetches s).length < 8 then prefetches s ++ [p] else prefetches s)
    (fun T => by
      refine ⟨_, if (prefetches s).length < 8 then
        modCell (issuedWith s st T) s.cur.cell fun c => { c with prefetch := prefetches s ++ [p] }
        else issuedWith s st T, ?_, ⟨⟨T, rfl⟩, ?_, ?_⟩, fun _ => rfl⟩
      · simp only [readA_reading hb, unlessTrap, bind, Except.bind, hp]
        rfl
      · split <;> rfl
      · split
        · rw [prefetches, modCell_cur]
          show (getCell (modCell _ s.cur.cell _) s.cur.cell).prefetch = _
          rw [getCell_modCell, if_pos rfl]
        · rfl)
  subst hp hst'
  exact ⟨_, _, hg, rfl, rfl, hmem, fun r => by rw [latest_stepPast, latest_reading], hq⟩

/-- R108, R128: the stream, its differences, and the prefetch. -/
theorem rowPointersAndPrefetch : RowPointersAndPrefetch := by
  refine ⟨?_, ?_, ?_⟩
  · intro s st tk toC toM dbl cnt base off h htk hc hb hlean hrps e n ea halign _ hm hspm hread hpois
    obtain ⟨t, u, hg, hu, hdata⟩ := rps_starts (toC := toC) (toM := toM) h htk hc hb hlean hrps rfl rfl halign hm
      hspm hread hpois
    exact ⟨t, u, _, hg, hu, rfl, rfl, rfl, rfl, hdata⟩
  · intro s st run p rest hst hrun hp hle hroom
    refine ⟨_, _, rpsPush_pushes hst hrun hp hle hroom, getStrand_putStrand _ _ _, rfl, rfl, ?_⟩
    cases rest <;> simp
  · intro s st tk f base off h htk hb
    exact pf_enters f off h htk hb

/-- Settles O29: `ldmq`, the fills of slots, row-pointer streams and prefetches. -/
theorem memoryLoadsAndFills : Obligations.MemoryLoadsAndFills := ⟨memoryLoads, slotFills, rowPointersAndPrefetch⟩

end Sys2Proof.Proofs


namespace Sys2Proof.Proofs

open Host (Outcome)
open Sys2Proof Machine Claims

/-! ## Faults of units that name no engine (R405) -/

/-- A fault of a unit freezes the strand and is queued with the unit's number of R405. -/
theorem raised_raiseUnit {s : State} {r : SRef} {st : Strand} (h : getStrand s r = some st) (t : Trap)
    (ht : t.unit = none) : Raised (raiseUnit s r t) r st fun q => q.trap = t ∧ q.eng = 5 := by
  unfold raiseUnit
  simp only [h]
  obtain ⟨u, hu, hf, hq⟩ := raiseAt_strand h ⟨t, 5, (getEng st .c).pc, st.overlay.toNat, none, none, s.clock⟩ ht
  exact ⟨u, _, hu, hf, hq, rfl, rfl⟩

/-- A raised fault has every property that follows from the one it is known to have. -/
theorem raised_mono {s : State} {r : SRef} {st : Strand} {P Q : QFault → Prop} (h : Raised s r st P)
    (hpq : ∀ q, P q → Q q) : Raised s r st Q := by
  obtain ⟨u, q, hu, hf, hq, hp⟩ := h
  exact ⟨u, q, hu, hf, hq, hpq q hp⟩

/-! ### Raising a fault leaves the contexts -/

@[simp] theorem startHold_ctxs (s : State) (h : Hold) : (startHold s h).ctxs = s.ctxs := by
  cases h with
  | pull d p => simp only [startHold]; split <;> simp
  | away q => simp only [startHold]; split <;> rfl

@[simp] theorem setPend_ctxs (s : State) (st : Strand) : (setPend s st).ctxs = s.ctxs := by
  unfold setPend
  split
  · rfl
  · split
    · rfl
    · split
      · rfl
      · simp

@[simp] theorem queueFault_ctxs (s : State) (r : SRef) (q : QFault) : (queueFault s r q).ctxs = s.ctxs := by
  unfold queueFault
  split
  · rfl
  · simp

@[simp] theorem logFault_ctxs (s : State) (cell part : Nat) (q : QFault) : (logFault s cell part q).ctxs = s.ctxs := by
  unfold logFault
  split
  · obtain ⟨dies, hub, h⟩ := addLog_eq s (dieOf cell)
      (logEntry s (Cause.code q.trap.cause) q.trap.detail part cell q.eng q.trap.addr q.trap.paddr [])
    rw [h]
  · rfl

@[simp] theorem noteError_ctxs (s : State) (cell : Nat) (t : Trap) : (noteError s cell t).ctxs = s.ctxs := by
  unfold noteError
  split <;> rfl

theorem raiseUnit_ctxs (s : State) (r : SRef) (t : Trap) (ht : t.unit = none) : (raiseUnit s r t).ctxs = s.ctxs := by
  unfold raiseUnit
  split
  · rfl
  · next st hst =>
    simp only [raiseAt, firstDetection, ht, hst]
    show (queueFault _ _ _).ctxs = _
    simp

/-! ## The image of a context (R352, R391) -/

theorem getD_micro_cons (a : BitVec 128) (l : List (BitVec 128)) (k : Nat) :
    (a :: l).getD k 0 = if k = 0 then a else l.getD (k - 1) 0 := by
  cases k <;> simp

/-- The control store of a list of micro-words, from the address `n` of the first. -/
theorem fget_zipIdx_micro (l : List (BitVec 128)) (n k : Nat) :
    (fget (((l.zipIdx n).filter fun p => p.1 != 0).map fun p => (p.2, p.1)) k).getD 0 =
      if n ≤ k then l.getD (k - n) 0 else 0 := by
  induction l generalizing n with
  | nil => simp
  | cons a l ih =>
    have tail : (fget ((((l.zipIdx (n + 1)).filter fun p => p.1 != 0).map fun p => (p.2, p.1))) k).getD 0 =
        if n + 1 ≤ k then (a :: l).getD (k - n) 0 else 0 := by
      rw [ih (n + 1), getD_micro_cons]
      split
      · rw [if_neg (by omega), Nat.sub_sub]
      · rfl
    rw [List.zipIdx_cons, List.filter_cons]
    by_cases ha : a = 0
    · rw [if_neg (by simp [ha]), tail]
      by_cases hk : k = n
      · subst hk; simp [ha]
      · rw [if_congr (show n + 1 ≤ k ↔ n ≤ k by omega) rfl rfl]
    · rw [if_pos (by simpa using ha), List.map_cons, fget_cons]
      by_cases hk : k = n
      · subst hk; simp
      · rw [if_neg hk, tail, if_congr (show n + 1 ≤ k ↔ n ≤ k by omega) rfl rfl]

/-- The share of a context holds the image's micro-words, and zero elsewhere. -/
theorem fget_wcsOf (l : List (BitVec 128)) (k : Nat) : (fget (wcsOf l) k).getD 0 = l.getD k 0 :=
  (fget_zipIdx_micro l 0 k).trans (by simp)

/-- What a context holds once it has taken an image. -/
def withImage (c : Context) (im : Image) : Context :=
  { c with image := some im, overlays := [], wcs := wcsOf im.wcs,
           bindTab := (installBinds (wcsOf im.wcs) im.binds (Vector.replicate 64 0)).1, shareCopied := false }

/-- The bind records of an image that fail. -/
def failedBinds (im : Image) : List Nat :=
  (installBinds (wcsOf im.wcs) im.binds (Vector.replicate 64 0)).2

/-- The fault of a bind record that fails. -/
def bindTrap (op : Nat) : Trap := { cause := .microIllegal, addr := op, logged := true }

theorem installImage_eq (s : State) (r : SRef) (part : Nat) (im : Image) :
    installImage s r part im = (failedBinds im).foldl (fun s op => raiseUnit s r (bindTrap op))
      (putCtx s r.cell part (withImage (getCtx s r.cell part) im)) := rfl

theorem getCtx_installImage (s : State) (r : SRef) (part : Nat) (im : Image) :
    getCtx (installImage s r part im) r.cell part = withImage (getCtx s r.cell part) im := by
  have raises : ∀ (l : List Nat) (u : State), (l.foldl (fun s op => raiseUnit s r (bindTrap op)) u).ctxs = u.ctxs := by
    intro l
    induction l with
    | nil => exact fun _ => rfl
    | cons op l ih => exact fun u => (ih _).trans (raiseUnit_ctxs u r (bindTrap op) rfl)
  rw [installImage_eq, getCtx, raises, ← getCtx, getCtx_putCtx]

/-- A record that may be bound takes its entry in the table. -/
theorem installBinds_one {m : FMap (BitVec 128)} {op : Nat} {e : Word} (h : entVal e = true → bindOk m e = true)
    (t : Vector Word 64) : installBinds m [(op, e)] t =
      (t.set (Fin.ofNat 64 (op - 0xC0)) (if entVal e then e else 0), []) := by
  unfold installBinds
  rw [if_pos (by cases hv : entVal e with
    | false => rfl
    | true => exact h hv)]
  rfl

/-- A record that may not be bound is named. -/
theorem installBinds_fails {m : FMap (BitVec 128)} {op : Nat} {e : Word} (hv : entVal e = true) (hb : bindOk m e = false)
    (t : Vector Word 64) : installBinds m [(op, e)] t = (t, [op]) := by
  unfold installBinds
  rw [if_neg (by simp [hv, hb])]
  rfl

/-- An image without bind records leaves the strand as it is. -/
theorem getStrand_installImage {s : State} {r : SRef} {st : Strand} {im : Image} (h : getStrand s r = some st)
    (part : Nat) (hn : im.binds = []) : getStrand (installImage s r part im) r = some st := by
  have hnone : failedBinds im = [] := by rw [failedBinds, hn]; rfl
  rw [installImage_eq, hnone]
  exact h

theorem bindTab_withImage_nil (c : Context) {im : Image} (hn : im.binds = []) :
    (withImage c im).bindTab = Vector.replicate 64 0 := by
  rw [withImage, hn]
  rfl

/-- The table entry of the only bind record of an image. -/
theorem bindTab_withImage_one (c : Context) {im : Image} {op : Nat} {e : Word} (hone : im.binds = [(op, e)])
    (hok : entVal e = true → bindOk (wcsOf im.wcs) e = true) :
    (withImage c im).bindTab.get (Fin.ofNat 64 (op - 0xC0)) = if entVal e then e else 0 := by
  rw [withImage, hone, installBinds_one hok]
  exact vget_set_same _ (Fin.ofNat 64 (op - 0xC0)) _ (Fin.ofNat 64 (op - 0xC0)).isLt

/-- An image whose only bind record fails: its strand faults, with the record's opcode. -/
theorem raised_installImage {s : State} {r : SRef} {st : Strand} {im : Image} (h : getStrand s r = some st)
    (part : Nat) {op : Nat} {e : Word} (hone : im.binds = [(op, e)]) (hv : entVal e = true)
    (hbad : bindOk (wcsOf im.wcs) e = false) : Raised (installImage s r part im) r st fun q => q.trap = bindTrap op := by
  have hfails : failedBinds im = [op] := by rw [failedBinds, hone, installBinds_fails hv hbad]
  rw [installImage_eq, hfails]
  have hput : getStrand (putCtx s r.cell part (withImage (getCtx s r.cell part) im)) r = some st := h
  exact raised_mono (raised_raiseUnit hput (bindTrap op) rfl) fun q hq => hq.1

/-! ## Before a placed strand issues (R352, R380, R391, R394) -/

section
variable {s : State} {r : SRef} {st : Strand} {fresh : Bool} {seq : Nat}

/-- The context holds the strand's image, and its share is whole. -/
theorem exec_placementLoad_ready (hst : getStrand s (Walker.ref s.cur) = some st) (hl : st.loading = some (fresh, seq))
    (hf : st.frozen = false) {im : Image} (hi : (getCtx s s.cur.cell st.part).image = some im)
    (ha : im.addr = st.sid.image) (hc : (getCtx s s.cur.cell st.part).shareCopied = false) :
    exec .placementLoad s = .next (placeOverlay (loadOperators s (dieOf s.cur.cell) st.part im) (Walker.ref s.cur) st im
      fresh seq) := by
  have hx : exec .placementLoad s = execPlacementLoad s := rfl
  have hcell : (Walker.ref s.cur).cell = s.cur.cell := rfl
  have whole : (decide (im.addr = st.sid.image) && !(getCtx s s.cur.cell st.part).shareCopied) = true := by
    simp [ha, hc]
  rw [hx]
  unfold execPlacementLoad
  simp only [hst, hl, hf, hcell, hi, whole]
  rfl

/-- The context holds another image, or a share that a copy has overwritten. -/
theorem exec_placementLoad_changes (hst : getStrand s (Walker.ref s.cur) = some st)
    (hl : st.loading = some (fresh, seq)) (hf : st.frozen = false)
    (ho : ∀ im, (getCtx s s.cur.cell st.part).image = some im →
      im.addr ≠ st.sid.image ∨ (getCtx s s.cur.cell st.part).shareCopied = true) :
    ((getCtx s s.cur.cell st.part).image ≠ none → imageInUse s (Walker.ref s.cur) st.part = true →
      exec .placementLoad s = .next s) ∧
    (((getCtx s s.cur.cell st.part).image ≠ none → imageInUse s (Walker.ref s.cur) st.part = false) →
      exec .placementLoad s =
        execPlacementLoad.change s (Walker.ref s.cur) st (getCtx s s.cur.cell st.part)) := by
  have hx : exec .placementLoad s = execPlacementLoad s := rfl
  rw [hx]
  unfold execPlacementLoad
  simp only [hst, hl, hf]
  have hcell : (Walker.ref s.cur).cell = s.cur.cell := rfl
  simp only [hcell]
  cases hi : (getCtx s s.cur.cell st.part).image with
  | none => exact ⟨fun h => absurd rfl h, fun _ => rfl⟩
  | some im =>
    have other : (decide (im.addr = st.sid.image) && !(getCtx s s.cur.cell st.part).shareCopied) = false := by
      rcases ho im hi with h | h <;> simp [h]
    simp only [other]
    exact ⟨fun _ h => by simp [h], fun h => by simp [h (by simp)]⟩

theorem loadOperators_done {die part : Nat} (im : Image)
    (h : (getColl s die part).loaded = true ∨ (getColl s die part).ops = false) : loadOperators s die part im = s := by
  unfold loadOperators
  exact if_pos (by rcases h with h | h <;> simp [h])

/-- The engines of a mask at the entry word of an overlay. -/
def atEntry (st : Strand) (entry : Nat) : Strand :=
  (maskEngs st).foldl (fun st e => modEng st e fun en => { en with pc := entry }) st

theorem getEng_atEntry (st : Strand) (entry : Nat) (e : Eng) :
    getEng (atEntry st entry) e = if inMask st e = true then { getEng st e with pc := entry } else getEng st e := by
  rw [atEntry, foldl_modEng_getEng _ _ (maskEngs_nodup st), if_congr (mem_maskEngs st e) rfl rfl]

theorem box_atEntry (st : Strand) (entry : Nat) : (atEntry st entry).box = st.box := by
  have h : (restOf (atEntry st entry)).box = (restOf st).box := by rw [atEntry, (foldl_modEng_same _ _ _).2.1]
  exact h

/-- The engines of a strand that no mailbox started begin, and nothing else changes. -/
theorem startEngines_eq (h : getStrand s r = some st) (hb : st.box = none) (fresh : Bool) (entry : Nat) :
    startEngines s r fresh entry = putStrand s r
      { (if fresh then atEntry st entry else st) with loading := none, readySince := s.clock } := by
  have hbox : (if fresh then atEntry st entry else st).box = none := by
    split
    · rw [box_atEntry, hb]
    · exact hb
  unfold startEngines
  simp only [modStrand, h, getStrand_putStrand]
  split
  · next k hk =>
    exact absurd (hbox.symm.trans hk) (by simp)
  · rfl

end

theorem placementLoads : PlacementLoads := by
  intro s st fresh seq hst hl hf hb c coll ready
  refine ⟨?_, ?_, ?_, ?_, ?_⟩
  · rintro im o ⟨hi, ha, hc, ho⟩ hov hw
    rw [exec_placementLoad_ready hst hl hf hi ha hc, loadOperators_done im ho]
    simp only [placeOverlay, hov, hw, if_true]
  · rintro im o s' ⟨hi, ha, hc, ho⟩ hov hw hlo hst'
    refine ⟨_, { (if fresh then atEntry st o.entry else st) with loading := none, readySince := s'.clock }, ?_,
      getStrand_putStrand s' _ _, rfl, rfl, rfl, ?_⟩
    · rw [exec_placementLoad_ready hst hl hf hi ha hc, loadOperators_done im ho, ← startEngines_eq hst' hb]
      have hcell : (Walker.ref s.cur).cell = s.cur.cell := rfl
      simp only [placeOverlay, hov, hw, hcell, hlo]
      rfl
    · intro e
      show (getEng (if fresh then atEntry st o.entry else st) e).pc = _
      cases fresh with
      | false => simp
      | true =>
        simp only [if_true, getEng_atEntry, true_and]
        split <;> rfl
  · rintro im ⟨hi, ha, hc, ho⟩ hov
    refine ⟨_, ?_, raised_mono (raised_raiseUnit hst illegalTrap rfl) fun q hq => ⟨congrArg Trap.cause hq.1, hq.2⟩⟩
    rw [exec_placementLoad_ready hst hl hf hi ha hc, loadOperators_done im ho]
    simp only [placeOverlay, hov]
  · exact fun ho => (exec_placementLoad_changes hst hl hf ho).1
  · intro ho
    have hx : exec .placementLoad s = execPlacementLoad.change s (Walker.ref s.cur) st c := by
      refine (exec_placementLoad_changes hst hl hf fun im hi => (ho im hi).1).2 fun hne => ?_
      obtain ⟨im, hi⟩ := Option.ne_none_iff_exists'.mp hne
      exact (ho im hi).2
    have hcell : (Walker.ref s.cur).cell = s.cur.cell := rfl
    constructor
    · intro im s' hr hctx hst'
      refine ⟨installImage s' (Walker.ref s.cur) st.part im, ?_, ?_⟩
      · rw [hx, execPlacementLoad.change, hcell, hr]
      have hc' := getCtx_installImage s' (Walker.ref s.cur) st.part im
      rw [hcell] at hc'
      dsimp only
      rw [hc']
      refine ⟨rfl, rfl, rfl, fget_wcsOf im.wcs,
        fun hn => ⟨bindTab_withImage_nil _ hn, getStrand_installImage hst' st.part hn⟩,
        fun op e hone _ _ => ⟨bindTab_withImage_one _ hone, fun hv hbad => ?_⟩⟩
      exact raised_mono (raised_installImage hst' st.part hone hv hbad) fun q hq => by simp [hq, bindTrap]
    · intro s' hr hst'
      refine ⟨raiseUnit s' (Walker.ref s.cur) illegalTrap, ?_,
        raised_mono (raised_raiseUnit hst' illegalTrap rfl) fun q hq => congrArg Trap.cause hq.1⟩
      rw [hx, execPlacementLoad.change, hcell, hr]

end Sys2Proof.Proofs


namespace Sys2Proof.Proofs

open Host (Outcome)
open Sys2Proof Machine Claims

/-! ## The strand that a resumption puts into the slot (R397, R399, R400) -/

/-- An engine that had stopped at a lull point goes on. -/
def awakened (en : EngState) : EngState := if en.stop = .atLull then { en with stop := .no } else en

/-- The strand as it stands in its slot. `home` says that its registers lie in the bank there. -/
def comesBack (draw : Nat) (home fresh : Bool) (seq now slot : Nat) (d : Strand) : Strand :=
  { moveParked (inBank slot)
      { reviveDead draw home d with engs := d.engs.map awakened, vOut := if home then d.vOut else ~~~d.dead.v,
                                    vHome := none, loading := some (fresh, seq) } with
    resident := now, readySince := now, vWritten := 0 }

/-- A departed strand with its large state given up where it lay. -/
def movedAway (d : Strand) : Strand :=
  { moveParked (fun _ => true) d with
    om := d.om.map fun x => { x with phys := none }, acc := d.acc.map fun x => { x with phys := none },
    vHome := none, vOut := ~~~d.dead.v }

/-! ### What the strand keeps -/

/-- A strand `u` that has resumed has the state of the departed strand `d`, but for what was dead. -/
structure Resumed (u d : Strand) : Prop where
  scalars : u.uid = d.uid ∧ u.sid = d.sid ∧ u.frozen = d.frozen ∧ u.faults = d.faults ∧ u.flags = d.flags ∧
    u.scc = d.scc ∧ u.perf = d.perf ∧ u.lq = d.lq ∧ u.sq = d.sq ∧ u.tok = d.tok ∧ u.stores = d.stores ∧
    u.lean = d.lean ∧ u.nest = d.nest
  regs : ∀ x, (keptReg d x → regBits u x = regBits d x) ∧ (regBits u x = regBits d x ∨ regBits u x = 0)
  pats : ∀ k : Fin 16, (d.dead.pat.getLsbD k = false → u.pat.get k = d.pat.get k) ∧
    (u.pat.get k = d.pat.get k ∨ u.pat.get k = 0)
  dead : u.dead = {}
  loading : u.loading ≠ none
  engs : ∀ e, (getEng u e).pc = (getEng d e).pc ∧ (getEng u e).ploop = (getEng d e).ploop ∧
    (getEng u e).micro = (getEng d e).micro ∧
    (getEng u e).stop = if (getEng d e).stop = .atLull then .no else (getEng d e).stop
  oms : ∀ n, (getOm u n).state = (getOm d n).state ∧ (getOm u n).data = (getOm d n).data
  accs : ∀ n, (getAcc u n).held = (getAcc d n).held ∧ (getAcc u n).data = (getAcc d n).data

theorem setWidth_ite_zero {w v : Nat} (c : Prop) [Decidable c] (x : BitVec w) :
    (if c then 0 else x).setWidth v = if c then 0 else x.setWidth v := by
  split <;> simp

section
variable (draw : Nat) (home fresh : Bool) (seq now slot : Nat) (d : Strand)

/-- A register reads as it was, or as zero when it is gone. -/
theorem regBits_comesBack (x : Reg) : regBits (comesBack draw home fresh seq now slot d) x =
    if goneReg draw home d.dead x then 0 else regBits d x := by
  cases x with
  | g n =>
    simp only [regBits, comesBack, moveParked, reviveDead, Vector.get_ofFn, setWidth_ite_zero]
    by_cases hn : n = 0
    · rw [if_pos hn, if_pos hn, ite_self]
    · rw [if_neg hn, if_neg hn]
  | sd n | mk n | v n => simp only [regBits, comesBack, moveParked, reviveDead, Vector.get_ofFn, setWidth_ite_zero]
  | a n | b n | em | cm =>
    simp only [regBits, comesBack, moveParked, reviveDead, goneReg, Bool.false_eq_true, if_false]

theorem goneReg_of_kept {d : Strand} {x : Reg} (h : keptReg d x) : goneReg draw home d.dead x = false := by
  cases x with
  | g n | v n | sd n | mk n =>
    simp only [keptReg] at h
    simp only [goneReg, h, Bool.false_and]
  | a n | b n | em | cm => rfl

theorem pat_comesBack (k : Fin 16) : (comesBack draw home fresh seq now slot d).pat.get k =
    if gonePat draw d.dead k then 0 else d.pat.get k := by
  simp only [comesBack, moveParked, reviveDead, Vector.get_ofFn]

theorem getEng_comesBack (e : Eng) :
    getEng (comesBack draw home fresh seq now slot d) e = awakened (getEng d e) := by
  simp only [getEng, comesBack, moveParked, reviveDead, Vector.get_map]

theorem getOm_comesBack (n : BitVec 5) : getOm (comesBack draw home fresh seq now slot d) n = getOm d n := by
  simp only [getOm, comesBack, moveParked, reviveDead]

theorem getAcc_comesBack (n : BitVec 4) : getAcc (comesBack draw home fresh seq now slot d) n = getAcc d n := by
  simp only [getAcc, comesBack, moveParked, reviveDead]

theorem vOut_comesBack : (comesBack draw home fresh seq now slot d).vOut = if home then d.vOut else ~~~d.dead.v := by
  simp only [comesBack, moveParked]

theorem resumed_comesBack : Resumed (comesBack draw home fresh seq now slot d) d where
  scalars := by simp only [comesBack, moveParked, reviveDead, and_self]
  regs x := by
    rw [regBits_comesBack]
    refine ⟨fun h => if_neg (by rw [goneReg_of_kept draw home h]; exact Bool.false_ne_true), ?_⟩
    split
    · exact .inr rfl
    · exact .inl rfl
  pats k := by
    rw [pat_comesBack]
    refine ⟨fun h => if_neg (by rw [gonePat, h]; exact Bool.false_ne_true), ?_⟩
    split
    · exact .inr rfl
    · exact .inl rfl
  dead := by simp only [comesBack, moveParked, reviveDead]
  loading := by simp [comesBack, moveParked]
  engs e := by
    rw [getEng_comesBack, awakened]
    split <;> exact ⟨rfl, rfl, rfl, by simp [*]⟩
  oms n := by rw [getOm_comesBack]; exact ⟨rfl, rfl⟩
  accs n := by rw [getAcc_comesBack]; exact ⟨rfl, rfl⟩

end

theorem getOm_movedAway (d : Strand) (n : BitVec 5) : getOm (movedAway d) n = { getOm d n with phys := none } :=
  Vector.get_map d.om _ n.toFin

theorem getAcc_movedAway (d : Strand) (n : BitVec 4) : getAcc (movedAway d) n = { getAcc d n with phys := none } :=
  Vector.get_map d.acc _ n.toFin

/-- Giving up the places of the large state changes nothing of what a strand resumes with. -/
theorem resumed_of_movedAway {u d : Strand} (h : Resumed u (movedAway d)) : Resumed u d where
  scalars := h.scalars
  regs x := by
    have hx : regBits (movedAway d) x = regBits d x := by cases x <;> rfl
    have hk : keptReg (movedAway d) x = keptReg d x := by cases x <;> rfl
    rw [← hx, ← hk]
    exact h.regs x
  pats := h.pats
  dead := h.dead
  loading := h.loading
  engs := h.engs
  oms n := by
    have hn := h.oms n
    rw [getOm_movedAway] at hn
    exact hn
  accs n := by
    have hn := h.accs n
    rw [getAcc_movedAway] at hn
    exact hn

theorem resumeOne_strand_sameCell (s : State) (d : Strand) (r : SRef) :
    ∃ draw fresh seq now, getStrand (resumeOne s r.cell d r) r =
      some (comesBack draw (decide (d.vHome = some r.slot)) fresh seq now r.slot d) := by
  unfold resumeOne
  simp only [if_true]
  exact ⟨_, _, _, _, getStrand_putStrand _ _ _⟩

theorem resumeOne_strand_otherCell {s : State} {cell : Nat} {d : Strand} {r : SRef} (h : cell ≠ r.cell) :
    ∃ draw fresh seq now, getStrand (resumeOne s cell d r) r =
      some (comesBack draw false fresh seq now r.slot (movedAway d)) := by
  unfold resumeOne
  simp only [if_neg h]
  exact ⟨_, _, _, _, getStrand_putStrand _ _ _⟩

/-- What stands in the slot after a resumption: the departed strand's state, its vector registers in their bank only when it
comes back to the slot it left, and the places of its large state only when it comes back to the cell. -/
theorem resumeOne_strand (s : State) (cell : Nat) (d : Strand) (r : SRef) :
    ∃ u, getStrand (resumeOne s cell d r) r = some u ∧ Resumed u d ∧
      u.vOut = (if cell = r.cell ∧ d.vHome = some r.slot then d.vOut else ~~~d.dead.v) ∧
      (cell ≠ r.cell → ∀ n, (getOm u n).phys = none) := by
  by_cases hc : cell = r.cell
  · subst hc
    obtain ⟨draw, fresh, seq, now, hu⟩ := resumeOne_strand_sameCell s d r
    refine ⟨_, hu, resumed_comesBack _ _ _ _ _ _ d, ?_, fun h => absurd rfl h⟩
    rw [vOut_comesBack]
    simp
  · obtain ⟨draw, fresh, seq, now, hu⟩ := resumeOne_strand_otherCell (s := s) (d := d) hc
    refine ⟨_, hu, resumed_of_movedAway (resumed_comesBack _ _ _ _ _ _ _), ?_, fun _ n => ?_⟩
    · rw [vOut_comesBack, if_neg Bool.false_ne_true, if_neg fun h => hc h.1]
      rfl
    · rw [getOm_comesBack, getOm_movedAway]

/-! ### Registers that stay in their bank (R135, R139) -/

/-- Nothing parked in the places of `p` on a cell: moving those registers leaves memory. -/
theorem moveAllParked_mem_of_none {p : Parked → Bool} {s : State} {cell : Nat}
    (h : ∀ x ∈ parkedOn s cell, p x = false) : (moveAllParked s cell p).mem = s.mem := by
  have residents : (s.strands.filter fun x => x.1 / 4 == cell).foldl (fun s x => saveParked p s x.2) s = s := by
    rw [← List.foldl_map (f := Prod.snd) (g := saveParked p)]
    refine foldl_saveParked_of_none fun st hst x hx => h _ (List.mem_append_left _ ?_)
    obtain ⟨y, hy, rfl⟩ := List.mem_map.mp hst
    exact List.mem_flatMap.mpr ⟨y, hy, List.mem_map.mpr ⟨x, hx, rfl⟩⟩
  have departed : ((s.ctxs.filter fun x => x.1 / 64 == cell).flatMap fun x => x.2.departed).foldl
      (saveParked p) s = s := by
    refine foldl_saveParked_of_none fun st hst x hx => h _ (List.mem_append_right _ ?_)
    obtain ⟨y, hy, hd⟩ := List.mem_flatMap.mp hst
    exact List.mem_flatMap.mpr ⟨y, hy, List.mem_flatMap.mpr ⟨st, hd, List.mem_map.mpr ⟨x, hx, rfl⟩⟩⟩
  simp only [moveAllParked, residents, departed]

/-- What a departed strand of a context of the cell has parked is parked there. -/
theorem mem_parkedOn_of_ctx {s : State} {cell : Nat} {c : Nat × Context} {d : Strand} {p : Parked} (hc : c ∈ s.ctxs)
    (hcell : (c.1 / 64 == cell) = true) (hd : d ∈ c.2.departed) (hp : p ∈ d.spill.map (·.2.1)) : p ∈ parkedOn s cell :=
  List.mem_append_right _
    (List.mem_flatMap.mpr ⟨c, List.mem_filter.mpr ⟨hc, hcell⟩, List.mem_flatMap.mpr ⟨d, hd, hp⟩⟩)

theorem mem_parkedOn_of_departed {s : State} {part cell : Nat} {d : Strand} (hd : (cell, d) ∈ departedOf s part)
    {x : Nat × Parked × Row} (hx : x ∈ d.spill) : x.2.1 ∈ parkedOn s cell := by
  obtain ⟨c, hc, hm⟩ := List.mem_flatMap.mp hd
  obtain ⟨d', hd', heq⟩ := List.mem_map.mp hm
  obtain ⟨rfl, rfl⟩ := Prod.mk.inj heq
  exact mem_parkedOn_of_ctx (List.mem_filter.mp hc).1 (by simp) hd' (List.mem_map.mpr ⟨x, hx, rfl⟩)

/-- A context that keeps some of its departed strands: nothing else is parked on a cell than was. -/
theorem parkedOn_of_fewer {s t : State} {c part : Nat} {x : Context} (hs : t.strands = s.strands)
    (hc : t.ctxs = fset s.ctxs (ctxKey c part) x) (hx : ∀ d ∈ x.departed, d ∈ (getCtx s c part).departed) {cell : Nat}
    {p : Parked} (hp : p ∈ parkedOn t cell) : p ∈ parkedOn s cell := by
  rcases List.mem_append.mp hp with h | h
  · rw [hs] at h
    exact List.mem_append_left _ h
  · obtain ⟨y, hy, hq⟩ := List.mem_flatMap.mp h
    obtain ⟨hy, hcell⟩ := List.mem_filter.mp hy
    obtain ⟨d, hd, hpd⟩ := List.mem_flatMap.mp hq
    rw [hc] at hy
    rcases mem_fset hy with rfl | hy
    · have hold := hx d hd
      unfold getCtx at hold
      cases hg : fget s.ctxs (ctxKey c part) with
      | none => rw [hg] at hold; cases hold
      | some old =>
        rw [hg] at hold
        exact mem_parkedOn_of_ctx (mem_of_fget hg) hcell hold hpd
    · exact mem_parkedOn_of_ctx hy hcell hd hpd

theorem enterSlot_mem {s : State} {r : SRef} {st : Strand} (hst : ∀ x ∈ st.spill, inBank r.slot x.2.1 = false)
    (h : ∀ x ∈ parkedOn s r.cell, inBank r.slot x = false) : (enterSlot s r st).mem = s.mem := by
  unfold enterSlot
  rw [saveParked_of_none hst]
  exact moveAllParked_mem_of_none h

/-- A strand that comes back to the slot that it left, with nothing parked in a bank of the cell, leaves memory. -/
theorem resumeOne_mem {s : State} {part : Nat} {d : Strand} {r : SRef} (hd : (r.cell, d) ∈ departedOf s part)
    (hv : d.vHome = some r.slot) (hn : NoBankParked s r.cell) : (resumeOne s r.cell d r).mem = s.mem := by
  have hnone : ∀ x ∈ parkedOn s r.cell, inBank r.slot x = false := by
    intro x hx
    cases x with
    | bank k n => exact absurd rfl (hn _ hx k n)
    | _ => rfl
  obtain ⟨t, st, x, heq, hmem, hstrands, hctxs, hx, hspill⟩ : ∃ t st x, resumeOne s r.cell d r = enterSlot t r st ∧
      t.mem = s.mem ∧ t.strands = s.strands ∧ t.ctxs = fset s.ctxs (ctxKey r.cell d.part) x ∧
      (∀ e ∈ x.departed, e ∈ (getCtx s r.cell d.part).departed) ∧ st.spill = d.spill := by
    unfold resumeOne
    simp only [if_true, hv, decide_true]
    exact ⟨_, _, _, rfl, by simp [freshId], by simp [freshId], rfl,
      fun e he => (List.mem_filter.mp he).1, by simp [reviveDead]⟩
  rw [heq, ← hmem]
  refine enterSlot_mem (fun y hy => ?_) fun y hy => hnone y (parkedOn_of_fewer hstrands hctxs hx hy)
  rw [hspill] at hy
  exact hnone _ (mem_parkedOn_of_departed hd hy)

/-! ## Departed strands resume (R397, R399, R400) -/

section
variable {s : State} {r : SRef} {k part cell : Nat} {d : Strand}

/-- A strand of no gang resumes when it may and its saved commands fit; else nothing happens. -/
theorem exec_strandResume (hp : (getCell s r.cell).slots.get (Fin.ofNat 4 r.slot) = some part)
    (hk : (departedOf s part)[k]? = some (cell, d)) (hc : d.sid.cores = false) :
    exec (.strandResume r k) s = .next
      (if mayDispatch s part && mayResume s part r (cell, d) && fifoRoom s [(cell, d, r)] then resumeOne s cell d r
       else s) := by
  have hx : exec (.strandResume r k) s = execStrandResume r k s := rfl
  rw [hx]
  unfold execStrandResume resumeAll
  simp only [hp, hk, hc]
  cases mayDispatch s part <;> cases mayResume s part r (cell, d) <;> cases fifoRoom s [(cell, d, r)] <;> rfl

end

theorem strandsResume : StrandsResume := by
  intro s r k part cell d hp hk hc
  rw [exec_strandResume hp hk hc]
  refine ⟨fun h => ?_, fun hd hm hf => ?_⟩
  · rcases h with h | h <;> simp [h]
  · obtain ⟨u, hu, hkeeps, hout, hphys⟩ := resumeOne_strand s cell d r
    obtain ⟨huid, hsid, hfrozen, hfaults, hflags, hscc, hperf, hlq, hsq, htok, hstores, hlean, hnest⟩ := hkeeps.scalars
    refine ⟨resumeOne s cell d r, u, by simp [hd, hm, hf], hu, huid, hsid, hfrozen, hfaults, hflags, hscc, hperf, hlq, hsq,
      htok, hstores, hlean, hnest, hkeeps.regs, hkeeps.pats, hkeeps.dead, hkeeps.loading, fun hc hv hn => ?_, fun h => ?_,
      hkeeps.engs, hkeeps.oms, hkeeps.accs, hphys⟩
    · subst hc
      exact ⟨hout.trans (if_pos ⟨rfl, hv⟩), resumeOne_mem (List.mem_of_getElem? hk) hv hn⟩
    · exact hout.trans (if_neg fun ⟨hc, hv⟩ => h.elim (· hc) (· hv))

/-- Settles O51: the loader's work before a strand issues, and what a departed strand comes back with. -/
theorem placementAndResume : Obligations.PlacementAndResume := ⟨placementLoads, strandsResume⟩

end Sys2Proof.Proofs
